-- ==== Sys2Proof/Word.lean ====
section
/-! DEFINITION. The word types of the WY-8 and their plainest arithmetic (R1, R2, R12). -/

namespace Sys2Proof

/-- Eight bits: the smallest addressable unit (R2). -/
abbrev Byte := BitVec 8
/-- A 32-bit register or instruction word (R134, R139). -/
abbrev Word := BitVec 32
/-- A 64-bit doubleword: an even-odd register pair or a system register (R37, R363). -/
abbrev Dword := BitVec 64
/-- A 52-bit virtual, intermediate or physical address (R213, R340). -/
abbrev Addr := BitVec 52
/-- A set of lanes: bit l stands for lane l (R8). -/
abbrev Lanes := BitVec 64

/-- A table keyed by numbers: entries in rising key order, no key twice. -/
abbrev KV (α : Type) := List (Nat × α)

end Sys2Proof
end

