-- ==== Sys2Proof/Syntax.lean ====
section
/-! DEFINITION. The steps of the WY-8: one constructor of Instr for each row of the opcode table. 179 of them
are Pythen instructions, whose operand fields are those of the word formats of R135; the other 104 are happenings of the
hardware, which have no encoding (log 1) and name the unit they befall and the data that comes from outside it. -/

namespace Sys2Proof

/-- Operand fields of format A (R135), with the literal word of R136 (0 where no source field holds 0xFF). -/
structure AOps where
  d : BitVec 8
  a : BitVec 8
  b : BitVec 8
  lit : Word
deriving DecidableEq, Repr

/-- Format A with B unused (0xF0). -/
structure UOps where
  d : BitVec 8
  a : BitVec 8
  lit : Word
deriving DecidableEq, Repr

/-- Format A with D and B unused (0xF0): CALLI, JMPI, FESET, FECLR. -/
structure TOps where
  a : BitVec 8
  lit : Word
deriving DecidableEq, Repr

/-- Operand fields of format I (R135). -/
structure IOps where
  d : BitVec 8
  a : BitVec 8
  imm : BitVec 10
  lit : Word
deriving DecidableEq, Repr

/-- Operand fields of format E and its extension word (R135). -/
structure EOps where
  d : BitVec 8
  a : BitVec 8
  b : BitVec 8
  c : BitVec 8
  mod : BitVec 8
  minor : BitVec 16
  lit : Word
deriving DecidableEq, Repr

/-- Operand fields of format M (R135); `ext` is the extension word where OFF5 is 0x1F, else 0. -/
structure MOps where
  d : BitVec 8
  a : BitVec 8
  sz : BitVec 3
  cp : BitVec 2
  off5 : BitVec 5
  ext : Word
  lit : Word
deriving DecidableEq, Repr

/-- BRA's fields of format C (R204). -/
structure COps where
  mr : BitVec 4
  off : BitVec 20
deriving DecidableEq, Repr

/-- BRD's fields and the offset of its join word (R136, R206). -/
structure BrdOps where
  mr : BitVec 4
  off : BitVec 20
  join : BitVec 20
deriving DecidableEq, Repr

/-- Fields of format X (R135). -/
structure XOps where
  acc : BitVec 3
  a : BitVec 8
  b : BitVec 8
  f : BitVec 3
  flags : BitVec 4
deriving DecidableEq, Repr

/-- MLOOP: format X and the step word (R274). -/
structure MloopOps where
  x : XOps
  step : Word
deriving DecidableEq, Repr

/-- MOVL: both literal words where A is 0xFF (R136, R196). -/
structure MovlOps where
  d : BitVec 8
  a : BitVec 8
  lit : Dword
deriving DecidableEq, Repr

/-- MOVI: the 18-bit immediate (R196). -/
structure MoviOps where
  d : BitVec 8
  imm : BitVec 18
deriving DecidableEq, Repr

/-- WAITC: the counter code (R324) and the threshold source. -/
structure WaitcOps where
  a : BitVec 8
  ctr : BitVec 2
  lit : Word
deriving DecidableEq, Repr

/-- A firmware image as the management controller meets it (R388): its bytes as a number, how many they are, its security
version and its signature. -/
structure FwImage where
  image : Nat
  size : Nat
  version : Nat
  signature : Nat
deriving DecidableEq, Repr

/-- What a shader die's fuses hold (R23). -/
structure DieFuses where
  hashsel : Word
  slicemap : Dword
  coreEn : Dword
deriving DecidableEq, Repr

/-- What a request of another package asks for (R378, R381). -/
inductive ThrKind where
  /-- A read of `len` bytes. -/
  | read (len : Nat)
  /-- A byte-masked write: one entry for each byte, none where its mask bit is 0; CMP of the mapping it was made through. -/
  | write (bytes : List (Option Byte)) (cmp : Bool)
  /-- An atomic operation: OP code (R317), width, operands, the core and scope of a release that it carries, .RMT (R299), CMP. -/
  | atomic (op : Nat) (w64 : Bool) (b c : Dword) (release : Option (Nat × Nat)) (rmt cmp : Bool)
  /-- A promotion request to a core of this package, and its acknowledgement for the sector named (R299). -/
  | promote (core : Nat)
  | promoted
  /-- A core registers with a Barista table of this package; a Barista notice to a core of this package, and its acknowledgement
  (R110). -/
  | register (table core : Nat)
  | notice (table core expert : Nat) (version : Word)
  | noticed (table core expert : Nat) (version : Word)
  /-- A core leaves the list of a Barista table of this package (R110). -/
  | deregister (table core : Nat)
  /-- The answer to the oldest read or write of this package that awaits one from the sender (R378). -/
  | response
  /-- A host access for a slot of the host group, forwarded: a write, a read of `size` bytes (R380). -/
  | hostWrite (bytes : List Byte)
  | hostRead (size : Nat)
deriving DecidableEq, Repr

/-- A request that arrives over Thrumri (R381). -/
structure ThrMsg where
  src : Nat
  addr : Nat
  kind : ThrKind
deriving DecidableEq, Repr

/-- The steps of the part: the rows of the opcode table, in the table's order. -/
inductive Instr where
  /-- IADD (R181). Adds A and B per active lane, wrapping to 32 bits. -/
  | iadd (o : AOps)
  /-- ISUB (R181). Subtracts B from A per active lane, wrapping to 32 bits. -/
  | isub (o : AOps)
  /-- IADDC (R181). Adds A, B and the lane's carry bit in m13, writing the sum and the new carry. -/
  | iaddc (o : AOps)
  /-- ISUBB (R181). Subtracts B and the lane's borrow bit in m13 from A, writing the difference and the new borrow. -/
  | isubb (o : AOps)
  /-- IADD_IMM (R181). Adds a sign-extended 10-bit immediate to A. -/
  | iaddImm (o : IOps)
  /-- AND_IMM (R181). ANDs A with a sign-extended 10-bit immediate. -/
  | andImm (o : IOps)
  /-- OR_IMM (R181). ORs A with a sign-extended 10-bit immediate. -/
  | orImm (o : IOps)
  /-- XOR_IMM (R181). XORs A with a sign-extended 10-bit immediate. -/
  | xorImm (o : IOps)
  /-- IMUL (R182). Writes the low 32 bits of A times B. -/
  | imul (o : AOps)
  /-- IMULH (R182). Writes the high 32 bits of the signed product of A and B. -/
  | imulh (o : AOps)
  /-- IMULH_U (R182). Writes the high 32 bits of the unsigned product of A and B. -/
  | imulhU (o : AOps)
  /-- IADD64 (R182). Adds two 64-bit register pairs, wrapping to 64 bits. -/
  | iadd64 (o : AOps)
  /-- IMAD (R182). Multiplies A by B and adds C, in 32-bit or wide form, wrapped or saturated. -/
  | imad (o : EOps)
  /-- IDIV (R183). Divides A by B, giving the truncated quotient or the remainder, with defined results for division by zero. -/
  | idiv (o : EOps)
  /-- IMIN (R184). Writes the signed minimum of A and B. -/
  | imin (o : AOps)
  /-- IMAX (R184). Writes the signed maximum of A and B. -/
  | imax (o : AOps)
  /-- IMIN_U (R184). Writes the unsigned minimum of A and B. -/
  | iminU (o : AOps)
  /-- IMAX_U (R184). Writes the unsigned maximum of A and B. -/
  | imaxU (o : AOps)
  /-- AND (R184). Bitwise AND of A and B. -/
  | and (o : AOps)
  /-- OR (R184). Bitwise OR of A and B. -/
  | or (o : AOps)
  /-- XOR (R184). Bitwise XOR of A and B. -/
  | xor (o : AOps)
  /-- ANDN (R184). Bitwise A AND NOT B. -/
  | andn (o : AOps)
  /-- SHL (R184). Shifts A left by B[7:0], giving 0 for counts of 32 or more. -/
  | shl (o : AOps)
  /-- SHR (R184). Shifts A right logically by B[7:0]. -/
  | shr (o : AOps)
  /-- SAR (R184). Shifts A right arithmetically by B[7:0]. -/
  | sar (o : AOps)
  /-- ROL (R184). Rotates A left by B[7:0] mod 32. -/
  | rol (o : AOps)
  /-- BFX (R185). Extracts a bit field of A, zero- or sign-extended. -/
  | bfx (o : EOps)
  /-- BFI (R185). Inserts the low bits of A into a field of C. -/
  | bfi (o : EOps)
  /-- LEA (R185). Adds a shifted, extended B to the 64-bit pair A. -/
  | lea (o : EOps)
  /-- POPC (R186). Counts the 1 bits of A. -/
  | popc (o : UOps)
  /-- CLZ (R186). Counts the leading zeros of A. -/
  | clz (o : UOps)
  /-- CTZ (R186). Counts the trailing zeros of A. -/
  | ctz (o : UOps)
  /-- BREV (R186). Reverses the bits of A. -/
  | brev (o : UOps)
  /-- IABS (R186). Writes the wrapped absolute value of signed A. -/
  | iabs (o : UOps)
  /-- CLMUL_LO (R186). Writes the low 32 bits of the carry-less product of A and B. -/
  | clmulLo (o : AOps)
  /-- CLMUL_HI (R186). Writes bits [62:32] of the carry-less product of A and B. -/
  | clmulHi (o : AOps)
  /-- ICMP (R187). Compares integers per active lane and writes the result bits into a mask register. -/
  | icmp (o : EOps)
  /-- SEL (R187). Selects A or B per lane by a mask register bit. -/
  | sel (o : EOps)
  /-- FADD (R188). Adds FP32 operands with one rounding under the MOD modifiers. -/
  | fadd (o : EOps)
  /-- FSUB (R188). Subtracts FP32 operands with one rounding. -/
  | fsub (o : EOps)
  /-- FMUL (R188). Multiplies FP32 operands with one rounding. -/
  | fmul (o : EOps)
  /-- FFMA (R188). Computes A times B plus C in FP32 with one rounding. -/
  | ffma (o : EOps)
  /-- FADD_SHORT (R188). Short-form FP32 add with RNE and no modifiers. -/
  | faddShort (o : AOps)
  /-- FSUB_SHORT (R188). Short-form FP32 subtract with RNE and no modifiers. -/
  | fsubShort (o : AOps)
  /-- FMUL_SHORT (R188). Short-form FP32 multiply with RNE and no modifiers. -/
  | fmulShort (o : AOps)
  /-- FMAX_SHORT (R189). Short-form FP32 maximum with no modifiers. -/
  | fmaxShort (o : AOps)
  /-- DADD (R188). Adds FP64 pairs with one rounding. -/
  | dadd (o : EOps)
  /-- DMUL (R188). Multiplies FP64 pairs with one rounding. -/
  | dmul (o : EOps)
  /-- DFMA (R188). Fused multiply-add on FP64 pairs with one rounding. -/
  | dfma (o : EOps)
  /-- DADD_SHORT (R188). Short-form FP64 add with RNE and no modifiers. -/
  | daddShort (o : AOps)
  /-- DMUL_SHORT (R188). Short-form FP64 multiply with RNE and no modifiers. -/
  | dmulShort (o : AOps)
  /-- FMIN (R189). Writes the lesser FP32 operand, ordering -0 below +0 and preferring non-NaN. -/
  | fmin (o : EOps)
  /-- FMAX (R189). Writes the greater FP32 operand, ordering -0 below +0 and preferring non-NaN. -/
  | fmax (o : EOps)
  /-- DMIN (R189). Writes the lesser FP64 operand. -/
  | dmin (o : EOps)
  /-- DMAX (R189). Writes the greater FP64 operand. -/
  | dmax (o : EOps)
  /-- FCMP (R189). Compares FP32 operands and writes the condition into a mask register. -/
  | fcmp (o : EOps)
  /-- DCMP (R189). Compares FP64 operands and writes the condition into a mask register. -/
  | dcmp (o : EOps)
  /-- FCLASS (R189). Writes a one-hot class code of A. -/
  | fclass (o : EOps)
  /-- FRCP (R190). Correctly rounded FP32 reciprocal. -/
  | frcp (o : EOps)
  /-- FRSQ (R190). Faithfully rounded FP32 reciprocal square root. -/
  | frsq (o : EOps)
  /-- FSQRT (R190). Correctly rounded FP32 square root. -/
  | fsqrt (o : EOps)
  /-- FDIV (R190). Correctly rounded FP32 division. -/
  | fdiv (o : EOps)
  /-- FEXP2 (R190). Faithfully rounded base-2 exponential. -/
  | fexp2 (o : EOps)
  /-- FLOG2 (R190). Faithfully rounded base-2 logarithm. -/
  | flog2 (o : EOps)
  /-- FTANH (R190). Faithfully rounded hyperbolic tangent. -/
  | ftanh (o : EOps)
  /-- FSIN (R190). Faithfully rounded sine of radians. -/
  | fsin (o : EOps)
  /-- FCOS (R190). Faithfully rounded cosine of radians. -/
  | fcos (o : EOps)
  /-- DDIV (R190). Correctly rounded FP64 division. -/
  | ddiv (o : EOps)
  /-- DSQRT (R190). Correctly rounded FP64 square root. -/
  | dsqrt (o : EOps)
  /-- FRND (R191). Rounds A to an integral FP32 value in the selected direction. -/
  | frnd (o : EOps)
  /-- FLDEXP (R191). Scales A by 2 to the power B with one rounding. -/
  | fldexp (o : EOps)
  /-- HADD2 (R192). Adds packed FP16 or BF16 halves independently. -/
  | hadd2 (o : EOps)
  /-- HMUL2 (R192). Multiplies packed FP16 or BF16 halves independently. -/
  | hmul2 (o : EOps)
  /-- HFMA2 (R192). Fused multiply-add on packed 16-bit halves. -/
  | hfma2 (o : EOps)
  /-- HADD2_SHORT (R192). Short-form packed FP16 add with RNE. -/
  | hadd2Short (o : AOps)
  /-- HMUL2_SHORT (R192). Short-form packed FP16 multiply with RNE. -/
  | hmul2Short (o : AOps)
  /-- CVT (R193). Converts one element between formats by R38. -/
  | cvt (o : EOps)
  /-- PACK (R194). Converts A and B to a narrow format and packs them into D. -/
  | pack (o : EOps)
  /-- UNPK (R195). Unpacks two narrow elements of A into the pair D, D+1. -/
  | unpk (o : EOps)
  /-- MOV (R196). Copies a 32-bit value. -/
  | mov (o : UOps)
  /-- MOVL (R196). Copies a 64-bit pair or a 64-bit literal. -/
  | movl (o : MovlOps)
  /-- MOVI (R196). Writes a sign-extended 18-bit immediate. -/
  | movi (o : MoviOps)
  /-- MPOP (R197). Counts the 1 bits of a mask register below W. -/
  | mpop (d : BitVec 8) (a : BitVec 4)
  /-- MNOT (R197). Writes the complement of a mask register. -/
  | mnot (d a : BitVec 4)
  /-- MAND (R197). ANDs two mask registers. -/
  | mand (d a b : BitVec 4)
  /-- MOR (R197). ORs two mask registers. -/
  | mor (d a b : BitVec 4)
  /-- MXOR (R197). XORs two mask registers. -/
  | mxor (d a b : BitVec 4)
  /-- SHFL (R200). Exchanges values between lanes within segments by index, up, down or XOR. -/
  | shfl (o : EOps)
  /-- BCST (R201). Broadcasts A from one lane. -/
  | bcst (o : AOps)
  /-- VOTE (R201). Writes any, all and equal votes of the active lanes. -/
  | vote (o : UOps)
  /-- BALLOT (R201). Writes a 64-bit mask of active lanes whose A is non-zero. -/
  | ballot (o : UOps)
  /-- REDUX (R202). Reduces or scans A over the active lanes with one rounding per result. -/
  | redux (o : EOps)
  /-- QSWP (R203). Swaps values within a quad. -/
  | qswp (o : AOps)
  /-- QBCST (R203). Broadcasts a value within a quad. -/
  | qbcst (o : AOps)
  /-- QDD (R203). Computes quad derivatives in x or y, fine or coarse. -/
  | qdd (o : AOps)
  /-- BRA (R205). Moves the whole split to the target if any active lane's condition bit is set. -/
  | bra (o : COps)
  /-- BRD (R165). Divergent branch that may split the group and create or reuse a join record. -/
  | brd (o : BrdOps)
  /-- JOIN (R207). Makes the split arrive at its join record. -/
  | join
  /-- CALL (R208). Writes the link pair and transfers to an entry descriptor after the register budget check. -/
  | call (off : BitVec 20)
  /-- RET (R211). Transfers each lane to the return address in its link pair. -/
  | ret
  /-- EXIT (R212). Removes lanes from the group, releasing the group when its last lane exits. -/
  | exit (m : BitVec 4)
  /-- NOP (R204). Changes nothing except the PC. -/
  | nop
  /-- CALLI (R209). Indirect call by per-lane targets, splitting lanes by target. -/
  | calli (o : TOps)
  /-- JMPI (R210). Indirect jump to per-lane L-marked clause headers. -/
  | jmpi (o : TOps)
  /-- LD (R243). Loads global memory per active lane, raising VL. -/
  | ld (o : MOps)
  /-- PREF (R155). Prefetches lines without trap, page request or counter. -/
  | pref (o : MOps)
  /-- ST (R243). Stores to global memory per active lane, raising VS. -/
  | st (o : MOps)
  /-- LDL (R244). Loads from local store or the cluster window. -/
  | ldl (o : MOps)
  /-- STL (R244). Stores to local store or the cluster window. -/
  | stl (o : MOps)
  /-- LDC (R243). Loads once from a uniform address. -/
  | ldc (o : MOps)
  /-- TEX (R246). Samples a texture by level, gradients or fetch, raising VL. -/
  | tex (o : EOps)
  /-- CPY (R247). Checks and queues a copy job on the core's copy engine, registering range locks and raising CE. -/
  | cpy (o : EOps)
  /-- CPYQ (R255). Runs a list of copies as one operation. -/
  | cpyq (o : EOps)
  /-- CINV (R256). Invalidates lines in the L1, or drops them from the home L2 with .L2. -/
  | cinv (o : EOps)
  /-- CFLUSH (R256). Writes back dirty lines from the L1, or from the home L2 with .L2. -/
  | cflush (o : EOps)
  /-- HALLOC (R258). Allocates a surface table entry from an image, reserving Crema tiles for SURF and ACT. -/
  | halloc (o : EOps)
  /-- HFREE (R259). Frees a surface table entry once its USE is 0. -/
  | hfree (o : EOps)
  /-- SSTE (R260). Changes selected fields of a surface table entry. -/
  | sste (o : EOps)
  /-- SURFACE_TABLE_OP_APPLY (R257). The serialiser applies a waiting HALLOC, HFREE or SSTE and unparks its split. -/
  | surfaceTableOpApply (ctx : Nat)
  /-- ATOM (R318). Performs an atomic read-modify-write on global memory per active lane. -/
  | atom (o : EOps)
  /-- RED (R318). Performs an atomic reduction on global memory with no returned value. -/
  | red (o : EOps)
  /-- ATOML (R318). Performs an atomic read-modify-write on local store or the cluster window. -/
  | atoml (o : EOps)
  /-- ATOMIC_EXECUTE (R313). A synchronisation engine executes an arriving atomic request at the home slice in arrival order. -/
  | atomicExecute (die : Nat)
  /-- PROMOTION_REQUEST (R299). A core receives a promotion request, writes back blocks narrower than DEVICE and acknowledges. -/
  | promotionRequest (core : Nat)
  /-- LDFE (R304). Waits for a tagged word to be full, reads it and sets it empty. -/
  | ldfe (o : EOps)
  /-- LDFF (R304). Waits for a tagged word to be full and reads it. -/
  | ldff (o : EOps)
  /-- STFE (R304). Waits for a tagged word to be empty, writes it and sets it full. -/
  | stfe (o : EOps)
  /-- STFF (R304). Writes a tagged word and sets it full. -/
  | stff (o : EOps)
  /-- TAGGED_WAIT_RESUME (R305). A tag change lets the oldest parked waiter perform its tagged operation. -/
  | taggedWaitResume (store : Nat) (word : Nat)
  /-- FESET (R324). Sets a tagged word full without changing its data. -/
  | feset (o : TOps)
  /-- FECLR (R324). Sets a tagged word empty without changing its data. -/
  | feclr (o : TOps)
  /-- FEQRY (R324). Reads the full/empty tag of a word. -/
  | feqry (o : UOps)
  /-- WAITC (R324). Parks the split until a named in-flight counter is at or below a threshold. -/
  | waitc (o : WaitcOps)
  /-- COUNTER_WAIT_RESUME (R174). A split parked on WAITC or a drain clause resumes when its counters fall far enough. -/
  | counterWaitResume (gid sid : Nat)
  /-- BINIT (R326). Initialises a barrier object and binds a named slot. -/
  | binit (o : EOps)
  /-- BARV (R327). Arrives at a barrier object with no bytes. -/
  | barv (o : EOps)
  /-- BARVX (R327). Arrives at a barrier object declaring pending bytes. -/
  | barvx (o : EOps)
  /-- BWAIT (R328). Parks the split until the barrier phase differs from the awaited parity, then acquires. -/
  | bwait (o : EOps)
  /-- BTEST (R328). Tests the barrier phase without waiting. -/
  | btest (o : EOps)
  /-- CBAR_NEAR (R311). Arrives in the cluster barrier's near set and waits for it to complete. -/
  | cbarNear (o : EOps)
  /-- CBAR_FAR (R311). Arrives in the near and far sets and waits for the far set to complete. -/
  | cbarFar (o : EOps)
  /-- GBAR (R312). Waits until every group of a co-resident grid arrives, then releases and acquires at DEVICE. -/
  | gbar (o : EOps)
  /-- FENCE (R331). Orders the group's accesses as release, acquire, both or sequentially consistent at a scope. -/
  | fence (o : EOps)
  /-- MMA (R271). Performs one matrix step from register fragments into an accumulator tile. -/
  | mma (o : XOps)
  /-- TEAM_STEP (R273). When every team member has issued its MMA.T share, the crossbar shares B and each array computes its step. -/
  | teamStep (core : Nat)
  /-- MLOOP (R275). Starts a sequence of matrix steps fed by the operand fetcher. -/
  | mloop (o : MloopOps)
  /-- MLOOP_STEP (R275). The sequencer performs one step of a running MLOOP onto its tile. -/
  | mloopStep (core quad : Nat)
  /-- MACQ (R265). Joins the group to a team request for the matrix unit and parks it. -/
  | macq (o : EOps)
  /-- MREL (R177). Releases the group's share of matrix unit ownership. -/
  | mrel (o : EOps)
  /-- MATRIX_UNIT_GRANT (R177). The head team of the core's FIFO is granted the free matrix unit, clearing tiles when the block changes. -/
  | matrixUnitGrant (core : Nat)
  /-- FBLD (R266). Loads or reads a format-block descriptor register. -/
  | fbld (o : EOps)
  /-- CBLD (R267). Loads a codebook slot from global memory or local store. -/
  | cbld (o : EOps)
  /-- SCPF (R268). Prefetches scales into the scale cache or invalidates a tensor ID. -/
  | scpf (o : EOps)
  /-- ACLR (R277). Clears the named accumulator tiles and their SATCNT. -/
  | aclr (o : EOps)
  /-- ASATR (R277). Reads and optionally clears a tile's SATCNT. -/
  | asatr (o : EOps)
  /-- AMOV (R278). Moves an accumulator tile to or from vector registers unchanged. -/
  | amov (o : EOps)
  /-- ALD (R279). Loads a 16 x 16 window into an accumulator tile with conversion. -/
  | ald (o : EOps)
  /-- AST (R280). Converts and stores an accumulator tile to memory, counting saturations. -/
  | ast (o : EOps)
  /-- CMMA (R282). Multiplies spectral bins of weights and activations into a CFP32 tile pair. -/
  | cmma (o : EOps)
  /-- XFWD (R283). Transforms TIME tiles to FREQ bins on the Grinder units. -/
  | xfwd (o : EOps)
  /-- XINV (R283). Transforms FREQ tiles back to TIME, resolving the exponent. -/
  | xinv (o : EOps)
  /-- XSCL (R284). Adds d to the pending exponent of every tile of a window. -/
  | xscl (o : EOps)
  /-- XDOM (R284). Reads the exponent, domain and away bit of one tile. -/
  | xdom (o : EOps)
  /-- GRINDER_COMPLETE (R285). A Grinder operation finishes its tiles, lowering the named barrier and releasing its ranges. -/
  | grinderComplete (op : Nat)
  /-- EROUTE (R288). Routes each lane's token to a LIVE replica and writes a route descriptor. -/
  | eroute (o : EOps)
  /-- EDONE (R288). Lowers the in-flight count of a descriptor's replica. -/
  | edone (o : EOps)
  /-- EMERGE (R289). Merges replica gradients into the home buffer. -/
  | emerge (o : EOps)
  /-- EQRY (R290). Reads the current version and admission state for a descriptor. -/
  | eqry (o : EOps)
  /-- TRAP (R359). Raises a precise software trap. -/
  | trap (o : EOps)
  /-- BRK (R359). Raises a precise breakpoint trap. -/
  | brk (o : EOps)
  /-- TRET (R360). Ends the handler and resumes the stopped split at RPC. -/
  | tret (o : EOps)
  /-- LGET (R361). Copies a register of any lane into the handler's lane. -/
  | lget (o : EOps)
  /-- LPUT (R361). Writes a value into a register of any lane. -/
  | lput (o : EOps)
  /-- LMSK (R362). Loads, clears or sets bits of LMASK. -/
  | lmsk (o : EOps)
  /-- SRD (R363). Reads a system register into a pair. -/
  | srd (o : EOps)
  /-- SWR (R363). Writes a system register. -/
  | swr (o : EOps)
  /-- RGROW (R366). Requests more register blocks through the core's FIFO. -/
  | rgrow (o : EOps)
  /-- RSHRINK (R366). Releases register blocks above a target count. -/
  | rshrink (o : EOps)
  /-- REGISTER_BLOCK_GRANT (R175). The head request of the register FIFO is granted when enough bytes are free. -/
  | registerBlockGrant (core : Nat)
  /-- REGISTER_FIFO_EVICTION (R175). With every register holder parked, the core evicts parked groups until the head request fits. -/
  | registerFifoEviction (core : Nat)
  /-- LAUNCH (R367). Checks a launch record and target, and presents an accepted launch to the work distributor. -/
  | launch (o : EOps)
  /-- DRAW (R121). Checks a draw record and starts its vertex launch. -/
  | draw (o : EOps)
  /-- LAUNCH_BACKPRESSURE_WAKE (R75). An issuer parked beyond the launch limits resumes when a launch completes. -/
  | launchBackpressureWake (gid sid : Nat)
  /-- FEXPORT (R368). Exports a fragment group's colour and depth to the banks, or discards. -/
  | fexport (form : BitVec 2) (o : EOps)
  /-- NPBEGIN (R369). Opens a non-pre-emptible region with a cycle bound. -/
  | npbegin (o : EOps)
  /-- NPEND (R369). Closes the open non-pre-emptible region. -/
  | npend (o : EOps)
  /-- NP_REGION_BOUND_EXCEEDED (R354). An open region's cycle count passes its bound and the context is torn down. -/
  | npRegionBoundExceeded (gid : Nat)
  /-- YIELD (R370). Resets the group's age and optionally marks it parked for eviction. -/
  | yield (o : EOps)
  /-- IFENCE (R371). Discards fetched but unissued code and leaves the loop buffer. -/
  | ifence (o : EOps)
  /-- ICINV (R372). Drops code lines from instruction caches within a scope. -/
  | icinv (o : EOps)
  /-- PERFR (R373). Reads a performance counter. -/
  | perfr (o : EOps)
  /-- HALT (R374). Stops the queue program with fault code 5. -/
  | halt (o : EOps)
  /-- CLAUSE_START (R146). A clause starts once its header's counter thresholds are met. -/
  | clauseStart (gid sid : Nat)
  /-- ARITH_NOTIFICATION (R335). A pending arithmetic notification is taken before the next issued instruction within its skid. -/
  | arithNotification (gid : Nat)
  /-- PAGE_REQUEST_WRITE (R346). The translation unit writes a stopped walk's request into its ring when room exists and raises PROD. -/
  | pageRequestWrite (vf stage : Nat)
  /-- PAGE_REQUEST_REPLAY (R347). A split with no pending tokens replays its missed lanes, trapping those replied invalid. -/
  | pageRequestReplay (gid sid : Nat)
  /-- TLBINV_COMPLETE (R343). All TLBs and walk caches have dropped the entries and walks using them are done; GO returns to 0. -/
  | tlbinvComplete (win : Nat)
  /-- QUEUE_CLAUSE_ISSUE (R69). A command processor selects and issues the next clause of a ready queue context. -/
  | queueClauseIssue (cp : Nat)
  /-- WINDOW_END (R112). Summed LOAD reaches WLEN; counters are exchanged and replication and drain decisions made. -/
  | windowEnd (t : Nat)
  /-- REPLICA_COPY_CHUNK (R114). One 64 KiB chunk of a replica copy lands, extending the source CRC. -/
  | replicaCopyChunk (t copy : Nat)
  /-- REPLICA_PUBLISH (R114). After the destination CRC agrees, the entry is written with the new LIVE replica and notices sent. -/
  | replicaPublish (t copy : Nat)
  /-- REPLICA_COPY_FAIL (R115). A failed copy frees its slot and index and raises the failure counts. -/
  | replicaCopyFail (t copy : Nat)
  /-- REPLICA_RETIRE (R116). After all acknowledgements and a successful close, a draining replica becomes RETIRED. -/
  | replicaRetire (t e n : Nat)
  /-- VERSION_NOTICE (R110). A registered core receives a version notice, discards its cached entry and acknowledges when earlier EROUTEs finish. -/
  | versionNotice (t core : Nat)
  /-- MERGE_COMPLETE (R119). A merge completes; summed MPEND bits are cleared and slots freed with one entry write. -/
  | mergeComplete (t : Nat)
  /-- WD_PLACE_BLOCK (R82). The work distributor places the next block or cluster on a die and core and writes its task record. -/
  | wdPlaceBlock
  /-- CORES_GRID_PLACE (R92). A CORES launch at the head places its whole grid at once, evicting lower priority groups. -/
  | coresGridPlace
  /-- TAMPER_CHUNK (R97). Tamper completes one 1 KiB chunk of a binding and records its progress. -/
  | tamperChunk (core : Nat)
  /-- BLOCK_START (R89). After Tamper finishes, all groups of the block start together. -/
  | blockStart (blk : Nat)
  /-- BLOCK_KILL (R95). A block is killed, its state zeroed, and it is relaunched or the context torn down. -/
  | blockKill (blk : Nat)
  /-- GROUP_SLOT_RELEASE (R212). An exited group's slot and registers are released once its counters and matrix steps finish. -/
  | groupSlotRelease (gid : Nat)
  /-- BLOCK_RETIRE (R376). A block gives up its resources and writes TASK.STATE 3. -/
  | blockRetire (blk : Nat)
  /-- LAUNCH_COMPLETE (R77). After its last block retires, a launch stores its completion word or lowers its barrier. -/
  | launchComplete (lid : Nat)
  /-- PARTIAL_EVICTION (R350). The work distributor selects and saves victim groups to free room on a core. -/
  | partialEviction (core : Nat)
  /-- EVICTION_DRAIN_BOUND (R351). After 8,192 cycles, copies and loops stop at boundaries and returns are redirected to the frame. -/
  | evictionDrainBound (gid : Nat)
  /-- GROUP_RESTORE (R352). A saved block and its groups are restored, with latched lowerings and tokens applied. -/
  | groupRestore (blk core : Nat)
  /-- RESTORATION_BOUND (R178). The incoming context reaches 2^20 issue cycles or all-parked, forcing restoration of the evicted context. -/
  | restorationBound (core : Nat)
  /-- CONTEXT_TEARDOWN (R355). A fatal fault stops and tears down the context on its package. -/
  | contextTeardown (ctx : Nat)
  /-- COPY_CHUNK (R250). The copy engine lands one 1 KiB chunk of a copy. -/
  | copyChunk (core job : Nat)
  /-- COPY_COMPLETE (R252). A copy's last byte lands; ranges and USE are released and CE falls in order. -/
  | copyComplete (core job : Nat)
  /-- CARAFE_SPILL (R236). Carafe spills a tile to far memory and marks it away. -/
  | carafeSpill (die bank : Nat)
  /-- CARAFE_RETURN (R237). Carafe brings an away tile back into its bank and resumes the stalled engines. -/
  | carafeReturn (die bank slot : Nat)
  /-- PRIMITIVE_ASSEMBLY (R124). After its vertex groups exit, a triangle is clipped, projected, culled and exchanged in PSN order. -/
  | primitiveAssembly (draw : Nat)
  /-- RASTERIZE_TRIANGLE (R125). A stack's rasterizer visits its tiles of a triangle and emits covered quads. -/
  | rasterizeTriangle (draw stack : Nat)
  /-- TICKET_ISSUE (R126). Once every bank concerned has room, a ticket and its follower entries are enqueued in one step. -/
  | ticketIssue (stack : Nat)
  /-- FRAGMENT_GROUP_PLACE (R127). Quads are packed into fragment groups placed on the home die. -/
  | fragmentGroupPlace (die : Nat)
  /-- EXPORT_PART_DELIVERY (R128). A fragment group's part arrives at the home bank's fragment buffer. -/
  | exportPartDelivery (die bank part : Nat)
  /-- BANK_DEPTH_STAGE (R129). The head ticket's fragments run depth test and write at the bank. -/
  | bankDepthStage (die bank : Nat)
  /-- BANK_BLEND_WRITE (R130). The bank blends and writes a ticket's fragments and forwards them to followers. -/
  | bankBlendWrite (die bank : Nat)
  /-- TICKET_RETIRE (R129). A ticket retires when every fragment has left the colour stage or it is empty. -/
  | ticketRetire (die bank : Nat)
  /-- FOLLOWER_ENTRY_RETIRE (R129). A follower entry retires when the home bank's forwarded result has been applied. -/
  | followerEntryRetire (die bank : Nat)
  /-- DRAW_COMPLETE (R131). A draw's last fragment retires; its completion is stored as a DEVICE release. -/
  | drawComplete (draw : Nat)
  /-- LOAD_DATA_RETURN (R173). A load's or TEX's data returns, writes its destination registers and lets VL fall in issue order. -/
  | loadDataReturn (gid op : Nat)
  /-- STORE_ACKNOWLEDGED (R242). A store's acknowledgement arrives from the L1 or home L2 and VS falls in issue order. -/
  | storeAcknowledged (gid op : Nat)
  /-- CMMA_STEP (R282). The sequencer performs one eight-block step of a running CMMA onto its CFP32 tile pair, rounding once. -/
  | cmmaStep (core quad : Nat)
  /-- QREPLY_RETRY (R347). A reply with STATUS retry sets every token of its REQID to retry. -/
  | qreplyRetry (vf stage reqid : Nat)
  /-- QREPLY_INVALID (R347). A reply with STATUS invalid sets every token of its REQID to invalid. -/
  | qreplyInvalid (vf stage reqid : Nat)
  /-- QBASE_WRITE (R344). Writing a queue base resets PROD, CONS and the next REQID, keeping outstanding requests. -/
  | qbaseWrite (vf stage : Nat) (v : BitVec 64)
  /-- QPTR_CONS_WRITE (R344). Software advances the consumer index, freeing ring room. -/
  | qptrConsWrite (vf stage : Nat) (v : BitVec 64)
  /-- GQNOTE_WRITE (R344). A guest notice write is taken, or ignored when it names a queue of another virtual function. -/
  | gqnoteWrite (vf : Nat) (v : BitVec 64)
  /-- TLBINV_STAGE1_RANGE (R343). Starts invalidation of a stage-1 range of a context. -/
  | tlbinvStage1Range (win : Nat) (v : BitVec 64)
  /-- TLBINV_STAGE2_RANGE (R343). Starts invalidation of a stage-2 range of a virtual function. -/
  | tlbinvStage2Range (win : Nat) (v : BitVec 64)
  /-- TLBINV_ALL_CTX (R343). Starts invalidation of all entries of a context. -/
  | tlbinvAllCtx (win : Nat) (v : BitVec 64)
  /-- TLBINV_ALL_VF (R343). Starts invalidation of all entries of a virtual function. -/
  | tlbinvAllVf (win : Nat) (v : BitVec 64)
  /-- CTXVF_ENABLE (R355). Setting CTXVF.EN creates a context and clears its fault record. -/
  | ctxvfEnable (ctx : Nat) (v : BitVec 64)
  /-- CTXVF_RETIRE (R377). Clearing CTXVF.EN retires an idle context and frees its state, or is ignored. -/
  | ctxvfRetire (ctx : Nat) (v : BitVec 64)
  /-- QCFG_ENABLE (R68). Setting QCFG.EN empties the mailbox, clears status and starts the queue program. -/
  | qcfgEnable (q : Nat) (v : BitVec 64)
  /-- QCFG_DISABLE (R68). Clearing QCFG.EN stops the queue program at its next clause boundary. -/
  | qcfgDisable (q : Nat) (v : BitVec 64)
  /-- HOST_MAILBOX_WRITE (R71). A host write fills an empty mailbox word as a release, or is discarded setting OVR. -/
  | hostMailboxWrite (off : Nat) (v : BitVec 64)
  /-- HOST_CONSUMING_READ (R70). A host read at 0x100 + 8i returns a full word and empties it, or returns 0. -/
  | hostConsumingRead (off : Nat)
  /-- QSTAT_W1C (R70). A host write to QSTAT clears OVR and ERR. -/
  | qstatW1c (off : Nat) (v : BitVec 64)
  /-- HOST_INVALID_ACCESS (R70). A host access of wrong size, alignment or offset is discarded and sets QSTAT.ERR. -/
  | hostInvalidAccess (off size : Nat) (isWrite : Bool)
  /-- BTCTL_ENABLE (R107). Setting BTCTL.EN checks every expert entry and starts window 0, or records BADEXP. -/
  | btctlEnable (t : Nat) (v : BitVec 64)
  /-- BTCTL_DISABLE (R107). Clearing BTCTL.EN abandons copies, completes retirements and stops accounting. -/
  | btctlDisable (t : Nat) (v : BitVec 64)
  /-- BTCTL_HOLD (R107). Setting HOLD stops new replications and abandons one in progress. -/
  | btctlHold (t : Nat) (v : BitVec 64)
  /-- BTCMD_FORCE_RETIRE (R118). Retires a non-home replica at once, closing its count. -/
  | btcmdForceRetire (t e n : Nat)
  /-- BTCMD_REFRESH (R115). Copies the home slot onto every LIVE non-home replica of an expert. -/
  | btcmdRefresh (t e : Nat)
  /-- BTEXCL_CLEAR (R107). Clearing a die's exclusion bit also clears its failure count. -/
  | btexclClear (t : Nat) (v : BitVec 64)
  /-- CFAREA_WRITE (R234). A Carafe area write is taken, or ignored while tiles are away or the area is invalid. -/
  | cfareaWrite (die : Nat) (v : BitVec 64)
  /-- DIE_RESET_COMPUTE (R384). A compute-only die reset evacuates groups and resets the cores. -/
  | dieResetCompute (die : Nat)
  /-- DIE_RESET_FULL (R384). A full die reset reroutes traffic, resets the die and tears down affected contexts. -/
  | dieResetFull (die : Nat)
  /-- THRPORT_MODE_WRITE (R379). A port mode write is taken while the port is down, or ignored. -/
  | thrportModeWrite (port : Nat) (v : BitVec 64)
  /-- DOMCFG_WRITE (R379). A domain configuration write is taken until a port leaves STATE 0. -/
  | domcfgWrite (v : BitVec 64)
  /-- PERFSEL_WRITE (R373). Writing a core's PERFSEL selects events and resets its counters. -/
  | perfselWrite (core : Nat) (v : BitVec 64)
  /-- CTRL_WINDOW_REG_WRITE (R398). A write to a control-window register with no own row, ignored when it holds a reserved value. -/
  | ctrlWindowRegWrite (off size : Nat) (v : BitVec 64)
  /-- THRUMRI_REMOTE_ACCESS (R381). A request from another package arrives and is applied in arrival order. -/
  | thrumriRemoteAccess (m : ThrMsg)
  /-- THRUMRI_ROUTE_LOST (R381). A lost route resends requests or completes them as uncorrectable errors. -/
  | thrumriRouteLost (pkg : Nat) (otherPath : Bool)
  /-- LINK_RETRAIN (R16). A link retrains on error, replaying flits in their original order. -/
  | linkRetrain (link : Nat)
  /-- DIE_LINK_DOWN (R17). A die link becomes unavailable and traffic is rerouted, or a package fault is raised. -/
  | dieLinkDown (link : Nat)
  /-- THERMAL_SENSOR_READING (R387). A sensor column reading is checked for plausibility and drives clock lowering or a stop. -/
  | thermalSensorReading (die col : Nat) (milli : Int)
  /-- THERMAL_NO_PLAUSIBLE_TIMEOUT (R387). No column of a die becomes plausible within 4,096 readings and the package stops. -/
  | thermalNoPlausibleTimeout (die : Nat)
  /-- DRAM_REFRESH (R385). A Bean-layer or far-memory refresh interval falls due. -/
  | dramRefresh (die chan : Nat)
  /-- ROW_ACTIVATION_REFRESH (R385). After 2,048 activations of one row, a victim row is refreshed. -/
  | rowActivationRefresh (die row : Nat)
  /-- CREMA_PATROL_SCRUB (R385). A scrub slot reads one bank unit and writes back corrected words. -/
  | cremaPatrolScrub (die bank : Nat)
  /-- COLD_START (R386). Runs every step of the start sequence, loading fuses and zeroing tags. -/
  | coldStart (fw : List FwImage) (fuses : List DieFuses)
  /-- WARM_START (R386). Runs the start sequence keeping memory, tags and fuse registers. -/
  | warmStart (fw : List FwImage)
  /-- ATTESTATION_REQUEST (R389). Returns the signed PKGID, measurements and nonce. -/
  | attestationRequest (nonce : BitVec 256)
  /-- DIE_LINK_RESTORED (R17). A die link that was unavailable becomes available again and traffic returns to its route. -/
  | dieLinkRestored (link : Nat)
  /-- THRUMRI_PORT_TRAINED (R379). A Thrumri port finishes training or retraining and THRPORT.STATE becomes up with PEER and PPORT valid. -/
  | thrumriPortTrained (port peer pport : Nat)
  /-- THRUMRI_FLIT_REPLAY (R378). A flit fails its CRC and the data link replays it in order, raising THRPORT.REPLAY. -/
  | thrumriFlitReplay (port : Nat)
  /-- LINK_CALIBRATION (R385). The background link calibration task runs without taking flit slots. -/
  | linkCalibration (port : Nat)
  /-- SRAM_VMIN_CALIBRATION (R385). The SRAM minimum-voltage calibration runs on pool rows gated above POOLB2. -/
  | sramVminCalibration (core row : Nat)
  /-- FIRMWARE_RECOVERY_IMAGE (R388). In recovery, a new firmware image arrives through the management controller and is verified. -/
  | firmwareRecoveryImage (img : FwImage)
deriving DecidableEq, Repr

end Sys2Proof
end

