-- ==== Sys2Proof/WellFormed.lean ====
section
/-! DEFINITION. Which terms of Instr are instructions at all: an unused field holds its filler, a literal or extension word
stands only where a field calls for it, a mask or tile field is in range (R136, R137, R139); a happening names units that
exist (R14, R66, R107, R344). Reserved values of MINOR and MOD are the decoder's (Decode.lean). -/

namespace Sys2Proof

/-- Whether a Thrumri message keeps to the 256 bytes of R378. -/
def ThrKind.fits : ThrKind → Bool
  | .read n => n ≤ 256
  | .write bs _ => bs.length ≤ 256
  | .hostWrite bs => bs.length ≤ 256
  | .hostRead n => n ≤ 256
  | _ => true

/-- Entry i of a SLICEMAP (R25). -/
def sliceEntry (m : Dword) (i : Nat) : Nat := m.toNat / 16 ^ i % 16

/-- Whether fuses hold what R24, R25 and R27 admit: NSLICE and VARIANT agree, the working slices ascend, reserved bits are 0. -/
def DieFuses.ok (f : DieFuses) : Bool :=
  let n := f.hashsel.toNat / 256
  let v := f.hashsel.toNat % 256
  (n == 14 || n == 15 || n == 16) && n + v == 16 && f.coreEn.toNat < 2 ^ 40 &&
    (List.range 16).all fun i =>
      if n ≤ i then sliceEntry f.slicemap i == 0 else i == 0 || sliceEntry f.slicemap (i - 1) < sliceEntry f.slicemap i

/-- Whether the bytes of an image are as many as it says (R388). -/
def FwImage.ok (f : FwImage) : Bool := f.image == 0 || f.image.log2 < 8 * f.size

/-- How a format E instruction uses one of its operand fields (R136, R137, R139). -/
inductive Use where
  /-- Holds 0xF0. -/
  | unused
  /-- Names a source operand; 0xFF calls for the literal word. -/
  | source
  /-- Names a destination or another register. -/
  | other
  /-- Names a mask register m0–m15. -/
  | mask
  /-- Names an accumulator tile a0–a7. -/
  | tile
deriving DecidableEq, Repr

/-- The field holds a value its use admits. -/
def Use.ok (u : Use) (c : BitVec 8) : Bool :=
  match u with
  | .unused => c == 0xF0
  | .source => true
  | .other => true
  | .mask => c.toNat < 16
  | .tile => c.toNat < 8

/-- The field calls for the literal word (R136). -/
def Use.calls (u : Use) (c : BitVec 8) : Bool := u == .source && c == 0xFF

/-- Uses of the fields D, A, B, C of a format E instruction. -/
structure Uses where
  d : Use
  a : Use
  b : Use
  c : Use
deriving DecidableEq, Repr

/-- Some field calls for the literal word. -/
def Uses.callsLit (u : Uses) (o : EOps) : Bool :=
  u.d.calls o.d || u.a.calls o.a || u.b.calls o.b || u.c.calls o.c

/-- Field uses are kept and the literal is canonical. -/
def Uses.ok (u : Uses) (o : EOps) : Bool :=
  u.d.ok o.d && u.a.ok o.a && u.b.ok o.b && u.c.ok o.c && (u.callsLit o || o.lit == 0)

/-- FBLD's uses: the load form reads A and names fD, the read form names fA (R266). -/
def fbldUses (minor : BitVec 16) : Uses :=
  if minor.getLsbD 0 then ⟨.other, .tile, .unused, .unused⟩ else ⟨.tile, .source, .unused, .unused⟩

/-- AMOV's uses: the tile end by direction (R278). -/
def amovUses (minor : BitVec 16) : Uses :=
  if minor.getLsbD 0 then ⟨.tile, .other, .unused, .unused⟩ else ⟨.other, .tile, .unused, .unused⟩

/-- LMSK's uses by OP (R362). -/
def lmskUses (minor : BitVec 16) : Uses :=
  if minor.extractLsb' 8 2 == 0#2 then ⟨.unused, .mask, .unused, .unused⟩
  else ⟨.unused, .unused, .source, .unused⟩

/-- FEXPORT's uses by form: .C, .Z, .CZ, .DISC (R368). -/
def fexportUses (form : BitVec 2) : Uses :=
  match form.toNat with
  | 0 => ⟨.unused, .other, .unused, .unused⟩
  | 1 => ⟨.unused, .unused, .other, .unused⟩
  | 2 => ⟨.unused, .other, .other, .unused⟩
  | _ => ⟨.unused, .unused, .unused, .unused⟩

/-- SCPF's uses: the invalidate form names no operand (R268). -/
def scpfUses (minor : BitVec 16) : Uses :=
  if minor.getLsbD 15 then ⟨.unused, .unused, .unused, .unused⟩ else ⟨.unused, .source, .source, .unused⟩

/-- An atomic reads C for CAS only (R317). -/
def atomUses (minor : BitVec 16) : Uses :=
  if minor.extractLsb' 0 4 == 10#4 then ⟨.other, .source, .source, .source⟩
  else ⟨.other, .source, .source, .unused⟩

/-- EROUTE reads C in the retry form only (R287). -/
def erouteUses (minor : BitVec 16) : Uses :=
  if minor.getLsbD 1 then ⟨.other, .source, .source, .source⟩ else ⟨.other, .source, .source, .unused⟩

/-- AST reads C in the .FREQ form only (R280). -/
def astUses (minor : BitVec 16) : Uses :=
  if minor.getLsbD 7 then ⟨.source, .tile, .unused, .source⟩ else ⟨.source, .tile, .unused, .unused⟩

/-- The uses of the fields of every format E instruction; `none` for the other formats and the happenings. -/
def Instr.uses : Instr → Option (Uses × EOps)
  | .imad o => some (⟨.other, .source, .source, .source⟩, o)
  | .idiv o => some (⟨.other, .source, .source, .unused⟩, o)
  | .bfx o => some (⟨.other, .source, .source, .unused⟩, o)
  | .bfi o => some (⟨.other, .source, .source, .source⟩, o)
  | .lea o => some (⟨.other, .source, .source, .unused⟩, o)
  | .icmp o => some (⟨.mask, .source, .source, .unused⟩, o)
  | .sel o => some (⟨.other, .source, .source, .mask⟩, o)
  | .fadd o => some (⟨.other, .source, .source, .unused⟩, o)
  | .fsub o => some (⟨.other, .source, .source, .unused⟩, o)
  | .fmul o => some (⟨.other, .source, .source, .unused⟩, o)
  | .ffma o => some (⟨.other, .source, .source, .source⟩, o)
  | .dadd o => some (⟨.other, .source, .source, .unused⟩, o)
  | .dmul o => some (⟨.other, .source, .source, .unused⟩, o)
  | .dfma o => some (⟨.other, .source, .source, .source⟩, o)
  | .fmin o => some (⟨.other, .source, .source, .unused⟩, o)
  | .fmax o => some (⟨.other, .source, .source, .unused⟩, o)
  | .dmin o => some (⟨.other, .source, .source, .unused⟩, o)
  | .dmax o => some (⟨.other, .source, .source, .unused⟩, o)
  | .fcmp o => some (⟨.mask, .source, .source, .unused⟩, o)
  | .dcmp o => some (⟨.mask, .source, .source, .unused⟩, o)
  | .fclass o => some (⟨.other, .source, .unused, .unused⟩, o)
  | .frcp o => some (⟨.other, .source, .unused, .unused⟩, o)
  | .frsq o => some (⟨.other, .source, .unused, .unused⟩, o)
  | .fsqrt o => some (⟨.other, .source, .unused, .unused⟩, o)
  | .fdiv o => some (⟨.other, .source, .source, .unused⟩, o)
  | .fexp2 o => some (⟨.other, .source, .unused, .unused⟩, o)
  | .flog2 o => some (⟨.other, .source, .unused, .unused⟩, o)
  | .ftanh o => some (⟨.other, .source, .unused, .unused⟩, o)
  | .fsin o => some (⟨.other, .source, .unused, .unused⟩, o)
  | .fcos o => some (⟨.other, .source, .unused, .unused⟩, o)
  | .ddiv o => some (⟨.other, .source, .source, .unused⟩, o)
  | .dsqrt o => some (⟨.other, .source, .unused, .unused⟩, o)
  | .frnd o => some (⟨.other, .source, .unused, .unused⟩, o)
  | .fldexp o => some (⟨.other, .source, .source, .unused⟩, o)
  | .hadd2 o => some (⟨.other, .source, .source, .unused⟩, o)
  | .hmul2 o => some (⟨.other, .source, .source, .unused⟩, o)
  | .hfma2 o => some (⟨.other, .source, .source, .source⟩, o)
  | .cvt o => some (⟨.other, .source, .unused, .unused⟩, o)
  | .pack o => some (⟨.other, .source, .source, .unused⟩, o)
  | .unpk o => some (⟨.other, .source, .unused, .unused⟩, o)
  | .shfl o => some (⟨.other, .source, .source, .unused⟩, o)
  | .redux o => some (⟨.other, .source, .unused, .unused⟩, o)
  | .tex o => some (⟨.other, .source, .source, .source⟩, o)
  | .cpy o => some (⟨.source, .source, .source, .source⟩, o)
  | .cpyq o => some (⟨.unused, .source, .source, .source⟩, o)
  | .cinv o => some (⟨.unused, .source, .source, .unused⟩, o)
  | .cflush o => some (⟨.unused, .source, .source, .unused⟩, o)
  | .halloc o => some (⟨.other, .source, .unused, .unused⟩, o)
  | .hfree o => some (⟨.unused, .source, .unused, .unused⟩, o)
  | .sste o => some (⟨.other, .source, .source, .unused⟩, o)
  | .atom o => some (atomUses o.minor, o)
  | .red o => some (⟨.unused, .source, .source, .unused⟩, o)
  | .atoml o => some (atomUses o.minor, o)
  | .ldfe o => some (⟨.other, .source, .unused, .unused⟩, o)
  | .ldff o => some (⟨.other, .source, .unused, .unused⟩, o)
  | .stfe o => some (⟨.source, .source, .unused, .unused⟩, o)
  | .stff o => some (⟨.source, .source, .unused, .unused⟩, o)
  | .binit o => some (⟨.unused, .source, .source, .unused⟩, o)
  | .barv o => some (⟨.other, .source, .unused, .unused⟩, o)
  | .barvx o => some (⟨.other, .source, .source, .unused⟩, o)
  | .bwait o => some (⟨.unused, .source, .source, .unused⟩, o)
  | .btest o => some (⟨.other, .source, .source, .unused⟩, o)
  | .cbarNear o => some (⟨.unused, .unused, .unused, .unused⟩, o)
  | .cbarFar o => some (⟨.unused, .unused, .unused, .unused⟩, o)
  | .gbar o => some (⟨.unused, .unused, .unused, .unused⟩, o)
  | .fence o => some (⟨.unused, .unused, .unused, .unused⟩, o)
  | .macq o => some (⟨.unused, .source, .unused, .unused⟩, o)
  | .mrel o => some (⟨.unused, .unused, .unused, .unused⟩, o)
  | .fbld o => some (fbldUses o.minor, o)
  | .cbld o => some (⟨.unused, .source, .unused, .unused⟩, o)
  | .scpf o => some (scpfUses o.minor, o)
  | .aclr o => some (⟨.unused, .unused, .unused, .unused⟩, o)
  | .asatr o => some (⟨.other, .tile, .unused, .unused⟩, o)
  | .amov o => some (amovUses o.minor, o)
  | .ald o => some (⟨.tile, .source, .unused, .unused⟩, o)
  | .ast o => some (astUses o.minor, o)
  | .cmma o => some (⟨.tile, .source, .source, .source⟩, o)
  | .xfwd o => some (⟨.unused, .source, .source, .source⟩, o)
  | .xinv o => some (⟨.unused, .source, .source, .source⟩, o)
  | .xscl o => some (⟨.source, .source, .source, .source⟩, o)
  | .xdom o => some (⟨.other, .source, .unused, .unused⟩, o)
  | .eroute o => some (erouteUses o.minor, o)
  | .edone o => some (⟨.unused, .source, .unused, .unused⟩, o)
  | .emerge o => some (⟨.unused, .source, .unused, .unused⟩, o)
  | .eqry o => some (⟨.other, .source, .unused, .unused⟩, o)
  | .trap o => some (⟨.unused, .unused, .unused, .unused⟩, o)
  | .brk o => some (⟨.unused, .unused, .unused, .unused⟩, o)
  | .tret o => some (⟨.unused, .unused, .unused, .unused⟩, o)
  | .lget o => some (⟨.other, .other, .source, .unused⟩, o)
  | .lput o => some (⟨.other, .source, .source, .unused⟩, o)
  | .lmsk o => some (lmskUses o.minor, o)
  | .srd o => some (⟨.other, .unused, .unused, .unused⟩, o)
  | .swr o => some (⟨.unused, .source, .unused, .unused⟩, o)
  | .rgrow o => some (⟨.other, .source, .unused, .unused⟩, o)
  | .rshrink o => some (⟨.other, .source, .unused, .unused⟩, o)
  | .launch o => some (⟨.other, .source, .source, .unused⟩, o)
  | .draw o => some (⟨.other, .source, .source, .unused⟩, o)
  | .fexport form o => some (fexportUses form, o)
  | .npbegin o => some (⟨.unused, .source, .unused, .unused⟩, o)
  | .npend o => some (⟨.unused, .unused, .unused, .unused⟩, o)
  | .yield o => some (⟨.unused, .unused, .unused, .unused⟩, o)
  | .ifence o => some (⟨.unused, .unused, .unused, .unused⟩, o)
  | .icinv o => some (⟨.unused, .source, .source, .unused⟩, o)
  | .perfr o => some (⟨.other, .unused, .unused, .unused⟩, o)
  | .halt o => some (⟨.unused, .unused, .unused, .unused⟩, o)
  | _ => none

/-- The literal of a format A, I or M instruction is canonical. -/
def litOk (calls : Bool) (lit : Word) : Bool := calls || lit == 0

/-- Range checks of what a happening names. -/
def dieOk (d : Nat) : Bool := d < 8
def coreOk (c : Nat) : Bool := c < 320
def bankOk (b : Nat) : Bool := b < 512
def queueOk (q : Nat) : Bool := q < 128
def tableOk (t : Nat) : Bool := t < 16
def vfOk (v : Nat) : Bool := v < 64
def stageOk (g : Nat) : Bool := g == 1 || g == 2
def ctxOk (c : Nat) : Bool := c < 4096

/-- The extension word of format M is canonical (R135). -/
def MOps.extOk (o : MOps) : Bool := o.off5 == 0x1F || o.ext == 0

/-- The term is an instruction of the machine or a happening that names units that exist. -/
def Instr.wf (i : Instr) : Bool :=
  match i with
  | .iadd o => litOk (o.a == 0xFF || o.b == 0xFF) o.lit
  | .isub o => litOk (o.a == 0xFF || o.b == 0xFF) o.lit
  | .iaddc o => litOk (o.a == 0xFF || o.b == 0xFF) o.lit
  | .isubb o => litOk (o.a == 0xFF || o.b == 0xFF) o.lit
  | .iaddImm o => litOk (o.a == 0xFF) o.lit
  | .andImm o => litOk (o.a == 0xFF) o.lit
  | .orImm o => litOk (o.a == 0xFF) o.lit
  | .xorImm o => litOk (o.a == 0xFF) o.lit
  | .imul o => litOk (o.a == 0xFF || o.b == 0xFF) o.lit
  | .imulh o => litOk (o.a == 0xFF || o.b == 0xFF) o.lit
  | .imulhU o => litOk (o.a == 0xFF || o.b == 0xFF) o.lit
  | .iadd64 o => litOk (o.a == 0xFF || o.b == 0xFF) o.lit
  | .imin o => litOk (o.a == 0xFF || o.b == 0xFF) o.lit
  | .imax o => litOk (o.a == 0xFF || o.b == 0xFF) o.lit
  | .iminU o => litOk (o.a == 0xFF || o.b == 0xFF) o.lit
  | .imaxU o => litOk (o.a == 0xFF || o.b == 0xFF) o.lit
  | .and o => litOk (o.a == 0xFF || o.b == 0xFF) o.lit
  | .or o => litOk (o.a == 0xFF || o.b == 0xFF) o.lit
  | .xor o => litOk (o.a == 0xFF || o.b == 0xFF) o.lit
  | .andn o => litOk (o.a == 0xFF || o.b == 0xFF) o.lit
  | .shl o => litOk (o.a == 0xFF || o.b == 0xFF) o.lit
  | .shr o => litOk (o.a == 0xFF || o.b == 0xFF) o.lit
  | .sar o => litOk (o.a == 0xFF || o.b == 0xFF) o.lit
  | .rol o => litOk (o.a == 0xFF || o.b == 0xFF) o.lit
  | .popc o => litOk (o.a == 0xFF) o.lit
  | .clz o => litOk (o.a == 0xFF) o.lit
  | .ctz o => litOk (o.a == 0xFF) o.lit
  | .brev o => litOk (o.a == 0xFF) o.lit
  | .iabs o => litOk (o.a == 0xFF) o.lit
  | .clmulLo o => litOk (o.a == 0xFF || o.b == 0xFF) o.lit
  | .clmulHi o => litOk (o.a == 0xFF || o.b == 0xFF) o.lit
  | .faddShort o => litOk (o.a == 0xFF || o.b == 0xFF) o.lit
  | .fsubShort o => litOk (o.a == 0xFF || o.b == 0xFF) o.lit
  | .fmulShort o => litOk (o.a == 0xFF || o.b == 0xFF) o.lit
  | .fmaxShort o => litOk (o.a == 0xFF || o.b == 0xFF) o.lit
  | .daddShort o => litOk (o.a == 0xFF || o.b == 0xFF) o.lit
  | .dmulShort o => litOk (o.a == 0xFF || o.b == 0xFF) o.lit
  | .hadd2Short o => litOk (o.a == 0xFF || o.b == 0xFF) o.lit
  | .hmul2Short o => litOk (o.a == 0xFF || o.b == 0xFF) o.lit
  | .mov o => litOk (o.a == 0xFF) o.lit
  | .movl o => o.a == 0xFF || o.lit == 0
  | .movi _ => true
  | .mpop _ _ => true
  | .mnot _ _ => true
  | .mand _ _ _ => true
  | .mor _ _ _ => true
  | .mxor _ _ _ => true
  | .bcst o => litOk (o.a == 0xFF || o.b == 0xFF) o.lit
  | .vote o => litOk (o.a == 0xFF) o.lit
  | .ballot o => litOk (o.a == 0xFF) o.lit
  | .qswp o => litOk (o.a == 0xFF || o.b == 0xFF) o.lit
  | .qbcst o => litOk (o.a == 0xFF || o.b == 0xFF) o.lit
  | .qdd o => litOk (o.a == 0xFF || o.b == 0xFF) o.lit
  | .bra _ => true
  | .brd _ => true
  | .join => true
  | .call _ => true
  | .ret => true
  | .exit _ => true
  | .nop => true
  | .calli o => litOk (o.a == 0xFF) o.lit
  | .jmpi o => litOk (o.a == 0xFF) o.lit
  | .ld o => o.d != 0xF0 && o.extOk && litOk (o.a == 0xFF) o.lit
  | .pref o => o.d == 0xF0 && o.extOk && litOk (o.a == 0xFF) o.lit
  | .st o => o.extOk && litOk (o.a == 0xFF || o.d == 0xFF) o.lit
  | .ldl o => o.cp == 0 && o.extOk && litOk (o.a == 0xFF) o.lit
  | .stl o => o.cp == 0 && o.extOk && litOk (o.a == 0xFF || o.d == 0xFF) o.lit
  | .ldc o => o.extOk && litOk (o.a == 0xFF) o.lit
  | .surfaceTableOpApply ctx => ctxOk ctx
  | .atomicExecute die => dieOk die
  | .promotionRequest core => coreOk core
  | .taggedWaitResume _ _ => true
  | .feset o => litOk (o.a == 0xFF) o.lit
  | .feclr o => litOk (o.a == 0xFF) o.lit
  | .feqry o => litOk (o.a == 0xFF) o.lit
  | .waitc o => litOk (o.a == 0xFF) o.lit
  | .counterWaitResume _ _ => true
  | .mma _ => true
  | .teamStep core => coreOk core
  | .mloop _ => true
  | .mloopStep core quad => coreOk core && decide (quad < 4)
  | .matrixUnitGrant core => coreOk core
  | .grinderComplete _ => true
  | .registerBlockGrant core => coreOk core
  | .registerFifoEviction core => coreOk core
  | .launchBackpressureWake _ _ => true
  | .npRegionBoundExceeded _ => true
  | .clauseStart _ _ => true
  | .arithNotification _ => true
  | .pageRequestWrite vf stage => vfOk vf && stageOk stage
  | .pageRequestReplay _ _ => true
  | .qreplyRetry vf stage _ => vfOk vf && stageOk stage
  | .qreplyInvalid vf stage _ => vfOk vf && stageOk stage
  | .qbaseWrite vf stage _ => vfOk vf && stageOk stage
  | .qptrConsWrite vf stage _ => vfOk vf && stageOk stage
  | .gqnoteWrite vf _ => vfOk vf
  | .tlbinvStage1Range win _ => decide (win < 65)
  | .tlbinvStage2Range win _ => decide (win < 65)
  | .tlbinvAllCtx win _ => decide (win < 65)
  | .tlbinvAllVf win _ => decide (win < 65)
  | .tlbinvComplete win => decide (win < 65)
  | .ctxvfEnable ctx _ => ctxOk ctx
  | .ctxvfRetire ctx _ => ctxOk ctx
  | .qcfgEnable q _ => queueOk q
  | .qcfgDisable q _ => queueOk q
  | .queueClauseIssue cp => decide (cp < 8)
  | .hostMailboxWrite _ _ => true
  | .hostConsumingRead _ => true
  | .qstatW1c _ _ => true
  | .hostInvalidAccess _ _ _ => true
  | .btctlEnable t _ => tableOk t
  | .btctlDisable t _ => tableOk t
  | .btctlHold t _ => tableOk t
  | .btcmdForceRetire t _ i => tableOk t && decide (i < 8)
  | .btcmdRefresh t _ => tableOk t
  | .btexclClear t _ => tableOk t
  | .windowEnd t => tableOk t
  | .replicaCopyChunk t _ => tableOk t
  | .replicaPublish t _ => tableOk t
  | .replicaCopyFail t _ => tableOk t
  | .replicaRetire t _ i => tableOk t && decide (i < 8)
  | .versionNotice t core => tableOk t && coreOk core
  | .mergeComplete t => tableOk t
  | .wdPlaceBlock => true
  | .coresGridPlace => true
  | .tamperChunk core => coreOk core
  | .blockStart _ => true
  | .blockKill _ => true
  | .groupSlotRelease _ => true
  | .blockRetire _ => true
  | .launchComplete _ => true
  | .partialEviction core => coreOk core
  | .evictionDrainBound _ => true
  | .groupRestore _ core => coreOk core
  | .restorationBound core => coreOk core
  | .contextTeardown ctx => ctxOk ctx
  | .copyChunk core _ => coreOk core
  | .copyComplete core _ => coreOk core
  | .carafeSpill die bank => dieOk die && bankOk bank
  | .carafeReturn die bank _ => dieOk die && bankOk bank
  | .primitiveAssembly _ => true
  | .rasterizeTriangle _ stack => decide (stack < 2)
  | .ticketIssue stack => decide (stack < 2)
  | .fragmentGroupPlace die => dieOk die
  | .exportPartDelivery die bank _ => dieOk die && bankOk bank
  | .bankDepthStage die bank => dieOk die && bankOk bank
  | .bankBlendWrite die bank => dieOk die && bankOk bank
  | .ticketRetire die bank => dieOk die && bankOk bank
  | .followerEntryRetire die bank => dieOk die && bankOk bank
  | .drawComplete _ => true
  | .cfareaWrite die _ => dieOk die
  | .dieResetCompute die => dieOk die
  | .dieResetFull die => dieOk die
  | .thrportModeWrite port _ => decide (port < 18)
  | .domcfgWrite _ => true
  | .perfselWrite core _ => coreOk core
  | .ctrlWindowRegWrite _ _ _ => true
  | .thrumriRemoteAccess m => m.kind.fits
  | .thrumriRouteLost _ _ => true
  | .linkRetrain _ => true
  | .dieLinkDown _ => true
  | .thermalSensorReading die col _ => dieOk die && decide (col < 40)
  | .thermalNoPlausibleTimeout die => dieOk die
  | .dramRefresh die _ => dieOk die
  | .rowActivationRefresh die _ => dieOk die
  | .cremaPatrolScrub die bank => dieOk die && bankOk bank
  | .coldStart fw fuses => fw.all FwImage.ok && fuses.all DieFuses.ok
  | .warmStart fw => fw.all FwImage.ok
  | .attestationRequest _ => true
  | .loadDataReturn _ _ => true
  | .storeAcknowledged _ _ => true
  | .cmmaStep core quad => coreOk core && decide (quad < 4)
  | .dieLinkRestored _ => true
  | .thrumriPortTrained port _ _ => decide (port < 18)
  | .thrumriFlitReplay port => decide (port < 18)
  | .linkCalibration port => decide (port < 18)
  | .sramVminCalibration core _ => coreOk core
  | .firmwareRecoveryImage img => img.ok
  | .imad o => Uses.ok ⟨.other, .source, .source, .source⟩ o
  | .idiv o => Uses.ok ⟨.other, .source, .source, .unused⟩ o
  | .bfx o => Uses.ok ⟨.other, .source, .source, .unused⟩ o
  | .bfi o => Uses.ok ⟨.other, .source, .source, .source⟩ o
  | .lea o => Uses.ok ⟨.other, .source, .source, .unused⟩ o
  | .icmp o => Uses.ok ⟨.mask, .source, .source, .unused⟩ o
  | .sel o => Uses.ok ⟨.other, .source, .source, .mask⟩ o
  | .fadd o => Uses.ok ⟨.other, .source, .source, .unused⟩ o
  | .fsub o => Uses.ok ⟨.other, .source, .source, .unused⟩ o
  | .fmul o => Uses.ok ⟨.other, .source, .source, .unused⟩ o
  | .ffma o => Uses.ok ⟨.other, .source, .source, .source⟩ o
  | .dadd o => Uses.ok ⟨.other, .source, .source, .unused⟩ o
  | .dmul o => Uses.ok ⟨.other, .source, .source, .unused⟩ o
  | .dfma o => Uses.ok ⟨.other, .source, .source, .source⟩ o
  | .fmin o => Uses.ok ⟨.other, .source, .source, .unused⟩ o
  | .fmax o => Uses.ok ⟨.other, .source, .source, .unused⟩ o
  | .dmin o => Uses.ok ⟨.other, .source, .source, .unused⟩ o
  | .dmax o => Uses.ok ⟨.other, .source, .source, .unused⟩ o
  | .fcmp o => Uses.ok ⟨.mask, .source, .source, .unused⟩ o
  | .dcmp o => Uses.ok ⟨.mask, .source, .source, .unused⟩ o
  | .fclass o => Uses.ok ⟨.other, .source, .unused, .unused⟩ o
  | .frcp o => Uses.ok ⟨.other, .source, .unused, .unused⟩ o
  | .frsq o => Uses.ok ⟨.other, .source, .unused, .unused⟩ o
  | .fsqrt o => Uses.ok ⟨.other, .source, .unused, .unused⟩ o
  | .fdiv o => Uses.ok ⟨.other, .source, .source, .unused⟩ o
  | .fexp2 o => Uses.ok ⟨.other, .source, .unused, .unused⟩ o
  | .flog2 o => Uses.ok ⟨.other, .source, .unused, .unused⟩ o
  | .ftanh o => Uses.ok ⟨.other, .source, .unused, .unused⟩ o
  | .fsin o => Uses.ok ⟨.other, .source, .unused, .unused⟩ o
  | .fcos o => Uses.ok ⟨.other, .source, .unused, .unused⟩ o
  | .ddiv o => Uses.ok ⟨.other, .source, .source, .unused⟩ o
  | .dsqrt o => Uses.ok ⟨.other, .source, .unused, .unused⟩ o
  | .frnd o => Uses.ok ⟨.other, .source, .unused, .unused⟩ o
  | .fldexp o => Uses.ok ⟨.other, .source, .source, .unused⟩ o
  | .hadd2 o => Uses.ok ⟨.other, .source, .source, .unused⟩ o
  | .hmul2 o => Uses.ok ⟨.other, .source, .source, .unused⟩ o
  | .hfma2 o => Uses.ok ⟨.other, .source, .source, .source⟩ o
  | .cvt o => Uses.ok ⟨.other, .source, .unused, .unused⟩ o
  | .pack o => Uses.ok ⟨.other, .source, .source, .unused⟩ o
  | .unpk o => Uses.ok ⟨.other, .source, .unused, .unused⟩ o
  | .shfl o => Uses.ok ⟨.other, .source, .source, .unused⟩ o
  | .redux o => Uses.ok ⟨.other, .source, .unused, .unused⟩ o
  | .tex o => Uses.ok ⟨.other, .source, .source, .source⟩ o
  | .cpy o => Uses.ok ⟨.source, .source, .source, .source⟩ o
  | .cpyq o => Uses.ok ⟨.unused, .source, .source, .source⟩ o
  | .cinv o => Uses.ok ⟨.unused, .source, .source, .unused⟩ o
  | .cflush o => Uses.ok ⟨.unused, .source, .source, .unused⟩ o
  | .halloc o => Uses.ok ⟨.other, .source, .unused, .unused⟩ o
  | .hfree o => Uses.ok ⟨.unused, .source, .unused, .unused⟩ o
  | .sste o => Uses.ok ⟨.other, .source, .source, .unused⟩ o
  | .atom o => (atomUses o.minor).ok o
  | .red o => Uses.ok ⟨.unused, .source, .source, .unused⟩ o
  | .atoml o => (atomUses o.minor).ok o
  | .ldfe o => Uses.ok ⟨.other, .source, .unused, .unused⟩ o
  | .ldff o => Uses.ok ⟨.other, .source, .unused, .unused⟩ o
  | .stfe o => Uses.ok ⟨.source, .source, .unused, .unused⟩ o
  | .stff o => Uses.ok ⟨.source, .source, .unused, .unused⟩ o
  | .binit o => Uses.ok ⟨.unused, .source, .source, .unused⟩ o
  | .barv o => Uses.ok ⟨.other, .source, .unused, .unused⟩ o
  | .barvx o => Uses.ok ⟨.other, .source, .source, .unused⟩ o
  | .bwait o => Uses.ok ⟨.unused, .source, .source, .unused⟩ o
  | .btest o => Uses.ok ⟨.other, .source, .source, .unused⟩ o
  | .cbarNear o => Uses.ok ⟨.unused, .unused, .unused, .unused⟩ o
  | .cbarFar o => Uses.ok ⟨.unused, .unused, .unused, .unused⟩ o
  | .gbar o => Uses.ok ⟨.unused, .unused, .unused, .unused⟩ o
  | .fence o => Uses.ok ⟨.unused, .unused, .unused, .unused⟩ o
  | .macq o => Uses.ok ⟨.unused, .source, .unused, .unused⟩ o
  | .mrel o => Uses.ok ⟨.unused, .unused, .unused, .unused⟩ o
  | .fbld o => (fbldUses o.minor).ok o
  | .cbld o => Uses.ok ⟨.unused, .source, .unused, .unused⟩ o
  | .scpf o => (scpfUses o.minor).ok o
  | .aclr o => Uses.ok ⟨.unused, .unused, .unused, .unused⟩ o
  | .asatr o => Uses.ok ⟨.other, .tile, .unused, .unused⟩ o
  | .amov o => (amovUses o.minor).ok o
  | .ald o => Uses.ok ⟨.tile, .source, .unused, .unused⟩ o
  | .ast o => (astUses o.minor).ok o
  | .cmma o => Uses.ok ⟨.tile, .source, .source, .source⟩ o
  | .xfwd o => Uses.ok ⟨.unused, .source, .source, .source⟩ o
  | .xinv o => Uses.ok ⟨.unused, .source, .source, .source⟩ o
  | .xscl o => Uses.ok ⟨.source, .source, .source, .source⟩ o
  | .xdom o => Uses.ok ⟨.other, .source, .unused, .unused⟩ o
  | .eroute o => (erouteUses o.minor).ok o
  | .edone o => Uses.ok ⟨.unused, .source, .unused, .unused⟩ o
  | .emerge o => Uses.ok ⟨.unused, .source, .unused, .unused⟩ o
  | .eqry o => Uses.ok ⟨.other, .source, .unused, .unused⟩ o
  | .trap o => Uses.ok ⟨.unused, .unused, .unused, .unused⟩ o
  | .brk o => Uses.ok ⟨.unused, .unused, .unused, .unused⟩ o
  | .tret o => Uses.ok ⟨.unused, .unused, .unused, .unused⟩ o
  | .lget o => Uses.ok ⟨.other, .other, .source, .unused⟩ o
  | .lput o => Uses.ok ⟨.other, .source, .source, .unused⟩ o
  | .lmsk o => (lmskUses o.minor).ok o
  | .srd o => Uses.ok ⟨.other, .unused, .unused, .unused⟩ o
  | .swr o => Uses.ok ⟨.unused, .source, .unused, .unused⟩ o
  | .rgrow o => Uses.ok ⟨.other, .source, .unused, .unused⟩ o
  | .rshrink o => Uses.ok ⟨.other, .source, .unused, .unused⟩ o
  | .launch o => Uses.ok ⟨.other, .source, .source, .unused⟩ o
  | .draw o => Uses.ok ⟨.other, .source, .source, .unused⟩ o
  | .fexport form o => (fexportUses form).ok o
  | .npbegin o => Uses.ok ⟨.unused, .source, .unused, .unused⟩ o
  | .npend o => Uses.ok ⟨.unused, .unused, .unused, .unused⟩ o
  | .yield o => Uses.ok ⟨.unused, .unused, .unused, .unused⟩ o
  | .ifence o => Uses.ok ⟨.unused, .unused, .unused, .unused⟩ o
  | .icinv o => Uses.ok ⟨.unused, .source, .source, .unused⟩ o
  | .perfr o => Uses.ok ⟨.other, .unused, .unused, .unused⟩ o
  | .halt o => Uses.ok ⟨.unused, .unused, .unused, .unused⟩ o

/-- The row is a happening of the hardware, not an instruction that a program encodes (log 1). -/
def Instr.isHappening : Instr → Bool
  | .surfaceTableOpApply _ => true
  | .atomicExecute _ => true
  | .promotionRequest _ => true
  | .taggedWaitResume _ _ => true
  | .counterWaitResume _ _ => true
  | .teamStep _ => true
  | .mloopStep _ _ => true
  | .matrixUnitGrant _ => true
  | .grinderComplete _ => true
  | .registerBlockGrant _ => true
  | .registerFifoEviction _ => true
  | .launchBackpressureWake _ _ => true
  | .npRegionBoundExceeded _ => true
  | .clauseStart _ _ => true
  | .arithNotification _ => true
  | .pageRequestWrite _ _ => true
  | .pageRequestReplay _ _ => true
  | .qreplyRetry _ _ _ => true
  | .qreplyInvalid _ _ _ => true
  | .qbaseWrite _ _ _ => true
  | .qptrConsWrite _ _ _ => true
  | .gqnoteWrite _ _ => true
  | .tlbinvStage1Range _ _ => true
  | .tlbinvStage2Range _ _ => true
  | .tlbinvAllCtx _ _ => true
  | .tlbinvAllVf _ _ => true
  | .tlbinvComplete _ => true
  | .ctxvfEnable _ _ => true
  | .ctxvfRetire _ _ => true
  | .qcfgEnable _ _ => true
  | .qcfgDisable _ _ => true
  | .queueClauseIssue _ => true
  | .hostMailboxWrite _ _ => true
  | .hostConsumingRead _ => true
  | .qstatW1c _ _ => true
  | .hostInvalidAccess _ _ _ => true
  | .btctlEnable _ _ => true
  | .btctlDisable _ _ => true
  | .btctlHold _ _ => true
  | .btcmdForceRetire _ _ _ => true
  | .btcmdRefresh _ _ => true
  | .btexclClear _ _ => true
  | .windowEnd _ => true
  | .replicaCopyChunk _ _ => true
  | .replicaPublish _ _ => true
  | .replicaCopyFail _ _ => true
  | .replicaRetire _ _ _ => true
  | .versionNotice _ _ => true
  | .mergeComplete _ => true
  | .wdPlaceBlock => true
  | .coresGridPlace => true
  | .tamperChunk _ => true
  | .blockStart _ => true
  | .blockKill _ => true
  | .groupSlotRelease _ => true
  | .blockRetire _ => true
  | .launchComplete _ => true
  | .partialEviction _ => true
  | .evictionDrainBound _ => true
  | .groupRestore _ _ => true
  | .restorationBound _ => true
  | .contextTeardown _ => true
  | .copyChunk _ _ => true
  | .copyComplete _ _ => true
  | .carafeSpill _ _ => true
  | .carafeReturn _ _ _ => true
  | .primitiveAssembly _ => true
  | .rasterizeTriangle _ _ => true
  | .ticketIssue _ => true
  | .fragmentGroupPlace _ => true
  | .exportPartDelivery _ _ _ => true
  | .bankDepthStage _ _ => true
  | .bankBlendWrite _ _ => true
  | .ticketRetire _ _ => true
  | .followerEntryRetire _ _ => true
  | .drawComplete _ => true
  | .cfareaWrite _ _ => true
  | .dieResetCompute _ => true
  | .dieResetFull _ => true
  | .thrportModeWrite _ _ => true
  | .domcfgWrite _ => true
  | .perfselWrite _ _ => true
  | .ctrlWindowRegWrite _ _ _ => true
  | .thrumriRemoteAccess _ => true
  | .thrumriRouteLost _ _ => true
  | .linkRetrain _ => true
  | .dieLinkDown _ => true
  | .thermalSensorReading _ _ _ => true
  | .thermalNoPlausibleTimeout _ => true
  | .dramRefresh _ _ => true
  | .rowActivationRefresh _ _ => true
  | .cremaPatrolScrub _ _ => true
  | .coldStart _ _ => true
  | .warmStart _ => true
  | .attestationRequest _ => true
  | .loadDataReturn _ _ => true
  | .storeAcknowledged _ _ => true
  | .cmmaStep _ _ => true
  | .dieLinkRestored _ => true
  | .thrumriPortTrained _ _ _ => true
  | .thrumriFlitReplay _ => true
  | .linkCalibration _ => true
  | .sramVminCalibration _ _ => true
  | .firmwareRecoveryImage _ => true
  | _ => false

end Sys2Proof
end

