-- ==== Sys2Proof/Decode.lean ====
section
/-! DEFINITION. The decoder and the encoder of instruction words (R134–R155), both written from the layouts of R135, the
length rule R136 and the map R152 and R154. The decoder is total and rejects by name. -/

namespace Sys2Proof

/-- Why words are no instruction (R153); every reason is the precise illegal-instruction trap of the WY-8. -/
inductive Reject where
  /-- A major opcode that R152 reserves. -/
  | reservedMajor (op : Nat)
  /-- Major 0x3E. -/
  | guaranteedIllegal
  /-- Major 0x3F inside a clause's words. -/
  | headerInClause
  /-- A sub-op or MINOR selector that the map does not list. -/
  | reservedSubOp (op : Nat)
  /-- A MOD or MINOR bit that the entry does not take (R137, R138). -/
  | reservedModifier (op : Nat)
  /-- An unused field that does not hold its filler, or a mask or tile field out of range (R137, R139). -/
  | reservedField (op : Nat)
  /-- A value of an encoded field that the entry marks as reserved (R137). -/
  | reservedValue (op : Nat)
  /-- The words end before the instruction does. -/
  | truncated (op : Nat)
deriving DecidableEq, Repr

/-- Major opcode of a base word (R135). -/
def wMaj (w : Word) : Nat := (w.extractLsb' 26 6).toNat
/-- Field D of formats A, I, E, M. -/
def wD (w : Word) : BitVec 8 := w.extractLsb' 18 8
/-- Field A of formats A, I, E, M. -/
def wA (w : Word) : BitVec 8 := w.extractLsb' 10 8
/-- Field B of formats A, E. -/
def wB (w : Word) : BitVec 8 := w.extractLsb' 2 8
/-- Sub-op S of formats A, E. -/
def wS (w : Word) : BitVec 2 := w.extractLsb' 0 2
/-- IMM10 of format I. -/
def wImm (w : Word) : BitVec 10 := w.extractLsb' 0 10
/-- SZ, CP, OFF5 of format M. -/
def wSz (w : Word) : BitVec 3 := w.extractLsb' 7 3
def wCp (w : Word) : BitVec 2 := w.extractLsb' 5 2
def wOff5 (w : Word) : BitVec 5 := w.extractLsb' 0 5
/-- MR, S, OFF20 of format C. -/
def wMr (w : Word) : BitVec 4 := w.extractLsb' 22 4
def wCs (w : Word) : BitVec 2 := w.extractLsb' 20 2
def wOff20 (w : Word) : BitVec 20 := w.extractLsb' 0 20
/-- C, MOD, MINOR of an extension word. -/
def xC (w : Word) : BitVec 8 := w.extractLsb' 24 8
def xMod (w : Word) : BitVec 8 := w.extractLsb' 16 8
def xMinor (w : Word) : BitVec 16 := w.extractLsb' 0 16
/-- Fields of format X. -/
def wX (w : Word) : XOps :=
  ⟨w.extractLsb' 23 3, w.extractLsb' 15 8, w.extractLsb' 7 8, w.extractLsb' 4 3, w.extractLsb' 0 4⟩

/-- The word formats of R135; `none` marks the reserved majors, 0x3E and 0x3F. -/
inductive Fmt where
  | a | i | e | m | c | x
deriving DecidableEq, Repr

/-- The format of a major opcode (R152). -/
def fmtOf (maj : Nat) : Option Fmt :=
  match maj with
  | 0x00 => some .a | 0x01 => some .a | 0x02 => some .e | 0x03 => some .e
  | 0x04 => some .a | 0x05 => some .a | 0x06 => some .a | 0x07 => some .e
  | 0x08 => some .a | 0x09 => some .a | 0x0A => some .e | 0x0B => some .e
  | 0x0C => some .i | 0x0D => some .i | 0x0E => some .i | 0x0F => some .i
  | 0x10 => some .e | 0x11 => some .e | 0x12 => some .e | 0x13 => some .e
  | 0x14 => some .e | 0x15 => some .e | 0x16 => some .e | 0x17 => some .e
  | 0x18 => some .a | 0x19 => some .a | 0x1C => some .e | 0x1D => some .i
  | 0x1E => some .a | 0x1F => some .a | 0x20 => some .e | 0x21 => some .a
  | 0x22 => some .e | 0x23 => some .a | 0x26 => some .c | 0x27 => some .c
  | 0x28 => some .a | 0x2C => some .m | 0x2D => some .m | 0x2E => some .m
  | 0x2F => some .m | 0x30 => some .m | 0x31 => some .e | 0x32 => some .e
  | 0x33 => some .e | 0x34 => some .e | 0x35 => some .e | 0x36 => some .a
  | 0x37 => some .e | 0x38 => some .x | 0x39 => some .x | 0x3A => some .e
  | 0x3B => some .e | 0x3C => some .e | 0x3D => some .e
  | _ => none

/-- Engine classes of a clause header (R144). -/
inductive EngineClass where
  | valu | mem | mtx | sync | ctrl
deriving DecidableEq, Repr

/-- The engine class of a major opcode (R152). -/
def classOf (maj : Nat) : EngineClass :=
  if maj ≤ 0x25 then .valu
  else if maj ≤ 0x2B then .ctrl
  else if maj ≤ 0x33 then .mem
  else if maj ≤ 0x37 then .sync
  else if maj ≤ 0x3C then .mtx
  else .ctrl

/-- The code that a header's CLASS field holds for a class (R144). -/
def EngineClass.code : EngineClass → Nat
  | .valu => 0
  | .mem => 1
  | .mtx => 2
  | .sync => 3
  | .ctrl => 4

/-- A row of the map whose instructions have format E: its constructor, the MOD bits and MINOR bits it takes. -/
structure ERow where
  ctor : EOps → Instr
  modOk : BitVec 8
  minorOk : BitVec 16

/-- Format E rows with one form for each (major, S) (R152). -/
def eRowPlain (maj s : Nat) : Option ERow :=
  match maj, s with
  | 0x02, 0 => some ⟨.imad, 0x20, 0x0003⟩
  | 0x03, 0 => some ⟨.idiv, 0x00, 0x0003⟩
  | 0x07, 0 => some ⟨.bfx, 0x00, 0x0001⟩
  | 0x07, 1 => some ⟨.bfi, 0x00, 0x0000⟩
  | 0x07, 2 => some ⟨.lea, 0x00, 0x000F⟩
  | 0x0A, 0 => some ⟨.icmp, 0x00, 0x001F⟩
  | 0x0B, 0 => some ⟨.sel, 0x00, 0x0001⟩
  | 0x10, 0 => some ⟨.fadd, 0xFB, 0x0000⟩
  | 0x10, 1 => some ⟨.fsub, 0xFB, 0x0000⟩
  | 0x10, 2 => some ⟨.fmul, 0xFB, 0x0000⟩
  | 0x10, 3 => some ⟨.ffma, 0xFF, 0x0000⟩
  | 0x11, 0 => some ⟨.fmin, 0x1B, 0x0000⟩
  | 0x11, 1 => some ⟨.fmax, 0x1B, 0x0000⟩
  | 0x11, 2 => some ⟨.fcmp, 0x00, 0x0007⟩
  | 0x11, 3 => some ⟨.fclass, 0x00, 0x0000⟩
  | 0x12, 0 => some ⟨.frcp, 0xF2, 0x0000⟩
  | 0x12, 1 => some ⟨.frsq, 0x32, 0x0000⟩
  | 0x12, 2 => some ⟨.fsqrt, 0xF2, 0x0000⟩
  | 0x12, 3 => some ⟨.fdiv, 0xFB, 0x0000⟩
  | 0x13, 0 => some ⟨.fexp2, 0x32, 0x0000⟩
  | 0x13, 1 => some ⟨.flog2, 0x32, 0x0000⟩
  | 0x13, 2 => some ⟨.ftanh, 0x32, 0x0000⟩
  | 0x13, 3 => some ⟨.frnd, 0xC0, 0x0000⟩
  | 0x14, 0 => some ⟨.fsin, 0x32, 0x0000⟩
  | 0x14, 1 => some ⟨.fcos, 0x32, 0x0000⟩
  | 0x14, 2 => some ⟨.fldexp, 0xF2, 0x0000⟩
  | 0x15, 0 => some ⟨.dadd, 0xFB, 0x0000⟩
  | 0x15, 1 => some ⟨.dmul, 0xFB, 0x0000⟩
  | 0x15, 2 => some ⟨.dfma, 0xFF, 0x0000⟩
  | 0x15, 3 => some ⟨.dmin, 0x1B, 0x0000⟩
  | 0x16, 0 => some ⟨.dmax, 0x1B, 0x0000⟩
  | 0x16, 1 => some ⟨.dcmp, 0x00, 0x0007⟩
  | 0x16, 2 => some ⟨.ddiv, 0xFB, 0x0000⟩
  | 0x16, 3 => some ⟨.dsqrt, 0xF2, 0x0000⟩
  | 0x17, 0 => some ⟨.hadd2, 0xFB, 0x0001⟩
  | 0x17, 1 => some ⟨.hmul2, 0xFB, 0x0001⟩
  | 0x17, 2 => some ⟨.hfma2, 0xFF, 0x0001⟩
  | 0x1C, 0 => some ⟨.cvt, 0xF2, 0x03FF⟩
  | 0x1C, 1 => some ⟨.pack, 0xE0, 0x01FF⟩
  | 0x1C, 2 => some ⟨.unpk, 0xE0, 0x01FF⟩
  | 0x20, 0 => some ⟨.shfl, 0x00, 0x001F⟩
  | 0x22, 0 => some ⟨.redux, 0xC0, 0x001F⟩
  | 0x31, 0 => some ⟨.tex, 0x00, 0x03FF⟩
  | 0x32, 0 => some ⟨.cpy, 0xE0, 0x01EF⟩
  | 0x32, 1 => some ⟨.cpyq, 0x00, 0x0000⟩
  | 0x32, 2 => some ⟨.cinv, 0x00, 0x000F⟩
  | 0x32, 3 => some ⟨.cflush, 0x00, 0x000F⟩
  | 0x33, 0 => some ⟨.halloc, 0x00, 0x0000⟩
  | 0x33, 1 => some ⟨.hfree, 0x00, 0x0000⟩
  | 0x33, 2 => some ⟨.sste, 0x00, 0x00FF⟩
  | 0x34, 0 => some ⟨.atom, 0x00, 0x07FF⟩
  | 0x34, 1 => some ⟨.red, 0x00, 0x07FF⟩
  | 0x34, 2 => some ⟨.atoml, 0x00, 0x07FF⟩
  | 0x35, 0 => some ⟨.ldfe, 0x00, 0xFFF1⟩
  | 0x35, 1 => some ⟨.ldff, 0x00, 0xFFF1⟩
  | 0x35, 2 => some ⟨.stfe, 0x00, 0xFFF1⟩
  | 0x35, 3 => some ⟨.stff, 0x00, 0xFFF1⟩
  | 0x37, 0 => some ⟨.binit, 0x00, 0x0000⟩
  | 0x3A, 1 => some ⟨.fbld, 0x00, 0x0001⟩
  | 0x3A, 2 => some ⟨.cbld, 0x00, 0x0F01⟩
  | 0x3A, 3 => some ⟨.scpf, 0x00, 0x8FFF⟩
  | 0x3B, 1 => some ⟨.amov, 0x00, 0x0003⟩
  | 0x3B, 2 => some ⟨.ald, 0xC0, 0x007F⟩
  | 0x3B, 3 => some ⟨.ast, 0xE0, 0xFFFF⟩
  | 0x3C, 0 => some ⟨.cmma, 0x00, 0x0000⟩
  | _, _ => none

/-- Format E rows that MINOR bits select (R152, R154). -/
def eRowSel (maj s : Nat) (minor : BitVec 16) : Option ERow :=
  match maj, s with
  | 0x37, 1 =>
    match (minor.extractLsb' 0 1).toNat with
    | 0 => some ⟨.barv, 0x00, 0x0001⟩
    | _ => some ⟨.barvx, 0x00, 0x0001⟩
  | 0x37, 2 =>
    match (minor.extractLsb' 0 1).toNat with
    | 0 => some ⟨.bwait, 0x00, 0x0001⟩
    | _ => some ⟨.btest, 0x00, 0x0001⟩
  | 0x37, 3 =>
    match (minor.extractLsb' 0 2).toNat with
    | 0 => some ⟨.cbarNear, 0x00, 0x0003⟩
    | 1 => some ⟨.cbarFar, 0x00, 0x0003⟩
    | 2 => some ⟨.gbar, 0x00, 0x0003⟩
    | _ => some ⟨.fence, 0x00, 0x007F⟩
  | 0x3A, 0 =>
    match (minor.extractLsb' 0 1).toNat with
    | 0 => some ⟨.macq, 0x00, 0x0001⟩
    | _ => some ⟨.mrel, 0x00, 0x0001⟩
  | 0x3B, 0 =>
    match (minor.extractLsb' 0 1).toNat with
    | 0 => some ⟨.aclr, 0x00, 0xFF01⟩
    | _ => some ⟨.asatr, 0x00, 0x0003⟩
  | 0x3C, 1 =>
    match (minor.extractLsb' 0 2).toNat with
    | 0 => some ⟨.xfwd, 0x00, 0x0003⟩
    | 1 => some ⟨.xinv, 0x00, 0x0003⟩
    | 2 => some ⟨.xdom, 0x00, 0x0003⟩
    | _ => some ⟨.xscl, 0x00, 0x0003⟩
  | 0x3C, 2 =>
    match (minor.extractLsb' 0 1).toNat with
    | 0 => some ⟨.eroute, 0x00, 0x0F03⟩
    | _ => some ⟨.edone, 0x00, 0x0F01⟩
  | 0x3C, 3 =>
    match (minor.extractLsb' 0 1).toNat with
    | 0 => some ⟨.emerge, 0x00, 0x0F01⟩
    | _ => some ⟨.eqry, 0x00, 0x0F01⟩
  | 0x3D, s =>
    match (minor.extractLsb' 0 8).toNat with
    | 0 => if s = 0 then some ⟨.trap, 0x00, 0xFFFF⟩ else none
    | 1 => if s = 0 then some ⟨.tret, 0x00, 0x00FF⟩ else none
    | 2 => if s = 0 then some ⟨.brk, 0x00, 0xFFFF⟩ else none
    | 3 => if s = 0 then some ⟨.lget, 0x00, 0x01FF⟩ else none
    | 4 => if s = 0 then some ⟨.lput, 0x00, 0x01FF⟩ else none
    | 5 => if s = 0 then some ⟨.lmsk, 0x00, 0x03FF⟩ else none
    | 6 => if s = 0 then some ⟨.srd, 0x00, 0xFFFF⟩ else none
    | 7 => if s = 0 then some ⟨.swr, 0x00, 0xFFFF⟩ else none
    | 8 => if s = 0 then some ⟨.rgrow, 0x00, 0x00FF⟩ else none
    | 9 => if s = 0 then some ⟨.rshrink, 0x00, 0x00FF⟩ else none
    | 10 => if s = 0 then some ⟨.launch, 0x00, 0x01FF⟩ else none
    | 11 => if s = 0 then some ⟨.draw, 0x00, 0x01FF⟩ else none
    | 12 => some ⟨.fexport (BitVec.ofNat 2 s), 0x00, 0x00FF⟩
    | 13 => if s = 0 then some ⟨.npbegin, 0x00, 0x00FF⟩ else none
    | 14 => if s = 0 then some ⟨.npend, 0x00, 0x00FF⟩ else none
    | 15 => if s = 0 then some ⟨.yield, 0x00, 0x01FF⟩ else none
    | 16 => if s = 0 then some ⟨.ifence, 0x00, 0x00FF⟩ else none
    | 17 => if s = 0 then some ⟨.icinv, 0x00, 0xFFFF⟩ else none
    | 18 => if s = 0 then some ⟨.perfr, 0x00, 0xFFFF⟩ else none
    | 19 => if s = 0 then some ⟨.halt, 0x00, 0x00FF⟩ else none
    | _ => none
  | _, _ => none

/-- The format E row that a base word's major and S and an extension word's MINOR name. -/
def eRow (maj s : Nat) (minor : BitVec 16) : Option ERow :=
  (eRowPlain maj s).orElse fun _ => eRowSel maj s minor

/-- Format A rows with fields D, A, B. -/
def aRow (maj s : Nat) : Option (AOps → Instr) :=
  match maj, s with
  | 0x00, 0 => some .iadd
  | 0x00, 1 => some .isub
  | 0x00, 2 => some .iaddc
  | 0x00, 3 => some .isubb
  | 0x01, 0 => some .imul
  | 0x01, 1 => some .imulh
  | 0x01, 2 => some .imulhU
  | 0x01, 3 => some .iadd64
  | 0x04, 0 => some .imin
  | 0x04, 1 => some .imax
  | 0x04, 2 => some .iminU
  | 0x04, 3 => some .imaxU
  | 0x05, 0 => some .and
  | 0x05, 1 => some .or
  | 0x05, 2 => some .xor
  | 0x05, 3 => some .andn
  | 0x06, 0 => some .shl
  | 0x06, 1 => some .shr
  | 0x06, 2 => some .sar
  | 0x06, 3 => some .rol
  | 0x09, 1 => some .clmulLo
  | 0x09, 2 => some .clmulHi
  | 0x18, 0 => some .faddShort
  | 0x18, 1 => some .fsubShort
  | 0x18, 2 => some .fmulShort
  | 0x18, 3 => some .fmaxShort
  | 0x19, 0 => some .daddShort
  | 0x19, 1 => some .dmulShort
  | 0x19, 2 => some .hadd2Short
  | 0x19, 3 => some .hmul2Short
  | 0x21, 0 => some .bcst
  | 0x23, 0 => some .qswp
  | 0x23, 1 => some .qbcst
  | 0x23, 2 => some .qdd
  | _, _ => none

/-- Format A rows with fields D, A and B = 0xF0. -/
def uRow (maj s : Nat) : Option (UOps → Instr) :=
  match maj, s with
  | 0x08, 0 => some .popc
  | 0x08, 1 => some .clz
  | 0x08, 2 => some .ctz
  | 0x08, 3 => some .brev
  | 0x09, 0 => some .iabs
  | 0x1E, 0 => some .mov
  | 0x21, 1 => some .vote
  | 0x21, 2 => some .ballot
  | 0x36, 2 => some .feqry
  | _, _ => none

/-- Format A rows with field A and D = B = 0xF0. -/
def tRow (maj s : Nat) : Option (TOps → Instr) :=
  match maj, s with
  | 0x28, 0 => some .calli
  | 0x28, 1 => some .jmpi
  | 0x36, 0 => some .feset
  | 0x36, 1 => some .feclr
  | _, _ => none

/-- Format I rows but MOVI. -/
def iRow (maj : Nat) : Option (IOps → Instr) :=
  match maj with
  | 0x0C => some .iaddImm
  | 0x0D => some .andImm
  | 0x0E => some .orImm
  | 0x0F => some .xorImm
  | _ => none

/-- Format M rows; D = 0xF0 makes a load a prefetch (R155). -/
def mRow (maj : Nat) (d : BitVec 8) : Option (MOps → Instr) :=
  match maj with
  | 0x2C => if d == 0xF0 then some .pref else some .ld
  | 0x2D => some .st
  | 0x2E => some .ldl
  | 0x2F => some .stl
  | 0x30 => some .ldc
  | _ => none

/-- Which fields of a format M base word name sources: D of the stores, A always (R136, R142). -/
def mCalls (maj : Nat) (d a : BitVec 8) : Bool :=
  a == 0xFF || ((maj == 0x2D || maj == 0x2F) && d == 0xFF)

/-- An FBD.FMT or STE.FMT code that CVT admits in both of its fields (R193). -/
def cvtCode (c : Nat) : Bool := c < 15 && c != 6

/-- A complex STE.FMT code (R58). -/
def complexCode (c : Nat) : Bool := c == 9 || c == 14

/-- The values of MOD and MINOR fields that are not reserved (R137); the instruction chapters name them. -/
def Instr.legal : Instr → Bool
  | .imad o => !(o.minor.getLsbD 0 && o.mod.getLsbD 5)
  | .icmp o => (o.minor.extractLsb' 0 3).toNat < 6
  | .cvt o =>
    let d := (o.minor.extractLsb' 0 4).toNat
    let s := (o.minor.extractLsb' 4 4).toNat
    let n := (o.minor.extractLsb' 8 2).toNat
    cvtCode d && cvtCode s && (complexCode d == complexCode s) &&
    (if s == 4 || s == 5 || s == 7 || s == 8 then true
     else if s == 2 || s == 3 || s == 10 then n < 2 else n == 0) &&
    -- NA and AA act on floating-point sources only, the complex ones among them (log 101)
    (s ≤ 5 || complexCode s || !(o.mod.getLsbD 4 || o.mod.getLsbD 1))
  | .pack o =>
    let d := (o.minor.extractLsb' 0 4).toNat
    let s := (o.minor.extractLsb' 4 4).toNat
    let k := o.minor.getLsbD 8
    (d == 3 || d == 2 || d == 4 || d == 5 || d == 7 || d == 8 || d == 10) &&
    (s == 1 || s == 11 || s == 12) && !(k && (d == 3 || d == 2 || d == 10))
  | .unpk o =>
    let d := (o.minor.extractLsb' 0 4).toNat
    let s := (o.minor.extractLsb' 4 4).toNat
    let k := o.minor.getLsbD 8
    (s == 3 || s == 2 || s == 4 || s == 5 || s == 7 || s == 8 || s == 10) &&
    (d == 1 || d == 11 || d == 12) && !(k && (s == 3 || s == 2 || s == 10))
  | .shfl o => (o.minor.extractLsb' 2 3).toNat < 7
  | .redux o =>
    let op := (o.minor.extractLsb' 0 3).toNat
    if o.minor.getLsbD 3 then op < 3 && (op == 0 || o.mod.extractLsb' 6 2 == 0#2)
    else o.mod.extractLsb' 6 2 == 0#2
  | .tex o =>
    let form := (o.minor.extractLsb' 0 2).toNat
    form < 3 && (form != 2 || !(o.minor.getLsbD 2 || o.minor.getLsbD 3 || o.minor.getLsbD 9))
  | .cpy o =>
    let dir := (o.minor.extractLsb' 0 4).toNat
    let f := (o.minor.extractLsb' 5 4).toNat
    dir < 8 && (f ≤ 5 || (7 ≤ f && f ≤ 9) || f == 15) && (f == 15 || dir == 2 || dir == 3)
  | .cinv o => (o.minor.extractLsb' 0 3).toNat < 6
  | .cflush o => (o.minor.extractLsb' 0 3).toNat < 6
  | .atom o =>
    let ord := (o.minor.extractLsb' 5 2).toNat
    let sc := (o.minor.extractLsb' 7 3).toNat
    (o.minor.extractLsb' 0 4).toNat < 14 && sc < 6 &&
    (!o.minor.getLsbD 10 || ((ord == 1 || ord == 3) && (sc == 4 || sc == 5)))
  | .red o =>
    let op := (o.minor.extractLsb' 0 4).toNat
    let ord := (o.minor.extractLsb' 5 2).toNat
    op < 14 && op != 10 && (ord == 0 || ord == 2) && (o.minor.extractLsb' 7 3).toNat < 6 && !o.minor.getLsbD 10
  | .atoml o =>
    (o.minor.extractLsb' 0 4).toNat < 14 && (o.minor.extractLsb' 7 3).toNat == 0 && !o.minor.getLsbD 10
  | .fence o => (o.minor.extractLsb' 4 3).toNat < 6
  | .mma o => (o.flags.extractLsb' 1 3).toNat < 7
  | .mloop o =>
    (o.x.flags.extractLsb' 1 3).toNat < 7 &&
    (!o.step.getLsbD 19 || o.step.extractLsb' 9 9 == 0#9) && (!o.step.getLsbD 18 || o.step.extractLsb' 0 9 == 0#9)
  | .aclr o => o.minor.extractLsb' 8 8 != 0#8
  | .ald o =>
    let tt := (o.minor.extractLsb' 5 2).toNat
    let f := (o.minor.extractLsb' 1 4).toNat
    tt < 3 && (if o.minor.getLsbD 0 then f == 15 else f != 6 && f != 15 && !complexCode f)
  | .ast o =>
    let f := (o.minor.extractLsb' 1 4).toNat
    (o.minor.getLsbD 7 || o.minor.extractLsb' 8 8 == 0#8) &&
    (if o.minor.getLsbD 0 then f == 15 else f != 6 && f != 15)
  | .lmsk o => (o.minor.extractLsb' 8 2).toNat < 3
  | .icinv o => (o.minor.extractLsb' 8 8).toNat < 6
  | .perfr o => (o.minor.extractLsb' 8 8).toNat < 8
  | _ => true

/-- What the decoder answers: an instruction and its length in words, or the reason there is none. -/
abbrev Decoded := Except Reject (Instr × Nat)

/-- Accept an instruction whose fields are canonical and whose values are not reserved. -/
def accept (maj : Nat) (i : Instr) (len : Nat) : Decoded :=
  if !i.wf then .error (.reservedField maj)
  else if !i.legal then .error (.reservedValue maj)
  else .ok (i, len)

/-- The literal word, when one is called for. -/
def litOf (calls : Bool) (ws : List Word) : Option Word :=
  if calls then ws.head? else some 0

def decodeA (w : Word) (rest : List Word) : Decoded :=
  let maj := wMaj w
  let s := (wS w).toNat
  if maj == 0x1E && s == 1 then
    -- MOVL: two literal words where A is 0xFF
    if wB w != 0xF0 then .error (.reservedField maj)
    else if wA w == 0xFF then
      match rest with
      | lo :: hi :: _ => accept maj (.movl ⟨wD w, wA w, hi ++ lo⟩) 3
      | _ => .error (.truncated maj)
    else accept maj (.movl ⟨wD w, wA w, 0⟩) 1
  else if maj == 0x1E && s == 2 then
    if wB w != 0xF0 || (wA w).toNat ≥ 16 then .error (.reservedField maj)
    else accept maj (.mpop (wD w) ((wA w).extractLsb' 0 4)) 1
  else if maj == 0x1E && s == 3 then
    if wB w != 0xF0 || (wA w).toNat ≥ 16 || (wD w).toNat ≥ 16 then .error (.reservedField maj)
    else accept maj (.mnot ((wD w).extractLsb' 0 4) ((wA w).extractLsb' 0 4)) 1
  else if maj == 0x1F then
    if (wB w).toNat ≥ 16 || (wA w).toNat ≥ 16 || (wD w).toNat ≥ 16 then .error (.reservedField maj)
    else
      let d := (wD w).extractLsb' 0 4
      let a := (wA w).extractLsb' 0 4
      let b := (wB w).extractLsb' 0 4
      if s == 0 then accept maj (.mand d a b) 1
      else if s == 1 then accept maj (.mor d a b) 1
      else if s == 2 then accept maj (.mxor d a b) 1
      else .error (.reservedSubOp maj)
  else if maj == 0x36 && s == 3 then
    -- WAITC: D unused, B the counter code
    if wD w != 0xF0 || (wB w).toNat ≥ 4 then .error (.reservedField maj)
    else
      match litOf (wA w == 0xFF) rest with
      | some l => accept maj (.waitc ⟨wA w, (wB w).extractLsb' 0 2, l⟩) (if wA w == 0xFF then 2 else 1)
      | none => .error (.truncated maj)
  else
    match aRow maj s with
    | some mk =>
      let calls := wA w == 0xFF || wB w == 0xFF
      match litOf calls rest with
      | some l => accept maj (mk ⟨wD w, wA w, wB w, l⟩) (if calls then 2 else 1)
      | none => .error (.truncated maj)
    | none =>
      match uRow maj s with
      | some mk =>
        if wB w != 0xF0 then .error (.reservedField maj)
        else
          match litOf (wA w == 0xFF) rest with
          | some l => accept maj (mk ⟨wD w, wA w, l⟩) (if wA w == 0xFF then 2 else 1)
          | none => .error (.truncated maj)
      | none =>
        match tRow maj s with
        | some mk =>
          if wB w != 0xF0 || wD w != 0xF0 then .error (.reservedField maj)
          else
            match litOf (wA w == 0xFF) rest with
            | some l => accept maj (mk ⟨wA w, l⟩) (if wA w == 0xFF then 2 else 1)
            | none => .error (.truncated maj)
        | none => .error (.reservedSubOp maj)

def decodeI (w : Word) (rest : List Word) : Decoded :=
  let maj := wMaj w
  if maj == 0x1D then accept maj (.movi ⟨wD w, wA w ++ wImm w⟩) 1
  else
    match iRow maj with
    | some mk =>
      match litOf (wA w == 0xFF) rest with
      | some l => accept maj (mk ⟨wD w, wA w, wImm w, l⟩) (if wA w == 0xFF then 2 else 1)
      | none => .error (.truncated maj)
    | none => .error (.reservedSubOp maj)

def decodeE (w : Word) (rest : List Word) : Decoded :=
  let maj := wMaj w
  match rest with
  | [] => .error (.truncated maj)
  | x :: rest' =>
    match eRow maj (wS w).toNat (xMinor x) with
    | none => .error (.reservedSubOp maj)
    | some row =>
      if xMod x &&& ~~~row.modOk != 0 || xMinor x &&& ~~~row.minorOk != 0 then .error (.reservedModifier maj)
      else
        let o : EOps := ⟨wD w, wA w, wB w, xC x, xMod x, xMinor x, 0⟩
        let calls := match (row.ctor o).uses with
          | some (u, _) => u.callsLit o
          | none => false
        match litOf calls rest' with
        | some l => accept maj (row.ctor { o with lit := l }) (if calls then 3 else 2)
        | none => .error (.truncated maj)

def decodeM (w : Word) (rest : List Word) : Decoded :=
  let maj := wMaj w
  match mRow maj (wD w) with
  | none => .error (.reservedSubOp maj)
  | some mk =>
    let calls := mCalls maj (wD w) (wA w)
    if wOff5 w == 0x1F then
      match rest with
      | [] => .error (.truncated maj)
      | x :: rest' =>
        match litOf calls rest' with
        | some l => accept maj (mk ⟨wD w, wA w, wSz w, wCp w, wOff5 w, x, l⟩) (if calls then 3 else 2)
        | none => .error (.truncated maj)
    else
      match litOf calls rest with
      | some l => accept maj (mk ⟨wD w, wA w, wSz w, wCp w, wOff5 w, 0, l⟩) (if calls then 2 else 1)
      | none => .error (.truncated maj)

def decodeC (w : Word) (rest : List Word) : Decoded :=
  let maj := wMaj w
  let s := (wCs w).toNat
  let mr := wMr w
  let off := wOff20 w
  if maj == 0x26 then
    if s == 0 then accept maj (.bra ⟨mr, off⟩) 1
    else if s == 1 then
      match rest with
      | [] => .error (.truncated maj)
      | j :: _ =>
        if j.extractLsb' 20 12 != 0#12 then .error (.reservedField maj)
        else accept maj (.brd ⟨mr, off, wOff20 j⟩) 2
    else if mr != 0 then .error (.reservedField maj)
    else if s == 2 then
      if off != 0 then .error (.reservedField maj) else accept maj .join 1
    else accept maj (.call off) 1
  else
    if off != 0 then .error (.reservedField maj)
    else if s == 1 then accept maj (.exit mr) 1
    else if mr != 0 then .error (.reservedField maj)
    else if s == 0 then accept maj .ret 1
    else if s == 2 then accept maj .nop 1
    else .error (.reservedSubOp maj)

def decodeX (w : Word) (rest : List Word) : Decoded :=
  let maj := wMaj w
  if maj == 0x38 then accept maj (.mma (wX w)) 1
  else
    match rest with
    | [] => .error (.truncated maj)
    | st :: _ => accept maj (.mloop ⟨wX w, st⟩) 2

/-- The instruction at the head of a list of words, with its length, or the name of what makes it none (R153). -/
def decode (ws : List Word) : Decoded :=
  match ws with
  | [] => .error (.truncated 0)
  | w :: rest =>
    match fmtOf (wMaj w) with
    | some .a => decodeA w rest
    | some .i => decodeI w rest
    | some .e => decodeE w rest
    | some .m => decodeM w rest
    | some .c => decodeC w rest
    | some .x => decodeX w rest
    | none =>
      if wMaj w == 0x3E then .error .guaranteedIllegal
      else if wMaj w == 0x3F then .error .headerInClause
      else .error (.reservedMajor (wMaj w))

/-- Which source fields of a format A base word are read, by the map (R136). -/
def aCalls (maj s : Nat) (a b : BitVec 8) : Bool :=
  if (aRow maj s).isSome then a == 0xFF || b == 0xFF
  else if (uRow maj s).isSome || (tRow maj s).isSome then a == 0xFF
  else maj == 0x36 && s == 3 && a == 0xFF

/-- The length in words that R136 gives the instruction at the head of the words, legal or not. -/
def rawLen (ws : List Word) : Nat :=
  match ws with
  | [] => 1
  | w :: rest =>
    let maj := wMaj w
    let s := (wS w).toNat
    match fmtOf maj with
    | some .a =>
      if maj == 0x1E && s == 1 && wA w == 0xFF then 3
      else if aCalls maj s (wA w) (wB w) then 2 else 1
    | some .i => if maj != 0x1D && wA w == 0xFF then 2 else 1
    | some .e =>
      match rest with
      | [] => 2
      | x :: _ =>
        match eRow maj s (xMinor x) with
        | some row =>
          let o : EOps := ⟨wD w, wA w, wB w, xC x, xMod x, xMinor x, 0⟩
          match (row.ctor o).uses with
          | some (u, _) => if u.callsLit o then 3 else 2
          | none => 2
        | none => 2
    | some .m =>
      (if wOff5 w == 0x1F then 2 else 1) + (if mCalls maj (wD w) (wA w) then 1 else 0)
    | some .c => if maj == 0x26 && (wCs w).toNat == 1 then 2 else 1
    | some .x => if maj == 0x39 then 2 else 1
    | none => 1

/-- A format A base word. -/
def encAWord (maj s : Nat) (d a b : BitVec 8) : Word :=
  BitVec.ofNat 6 maj ++ d ++ a ++ b ++ BitVec.ofNat 2 s

/-- A format I base word. -/
def encIWord (maj : Nat) (d a : BitVec 8) (imm : BitVec 10) : Word :=
  BitVec.ofNat 6 maj ++ d ++ a ++ imm

/-- A format E extension word. -/
def encXWord (c mod : BitVec 8) (minor : BitVec 16) : Word := c ++ mod ++ minor

/-- A format M base word. -/
def encMWord (maj : Nat) (d a : BitVec 8) (sz : BitVec 3) (cp : BitVec 2) (off5 : BitVec 5) : Word :=
  BitVec.ofNat 6 maj ++ d ++ a ++ sz ++ cp ++ off5

/-- A format C base word. -/
def encCWord (maj s : Nat) (mr : BitVec 4) (off : BitVec 20) : Word :=
  BitVec.ofNat 6 maj ++ mr ++ BitVec.ofNat 2 s ++ off

/-- A format X base word. -/
def encFWord (maj : Nat) (o : XOps) : Word :=
  BitVec.ofNat 6 maj ++ o.acc ++ o.a ++ o.b ++ o.f ++ o.flags

/-- The literal word, where it is called for. -/
def encLit (calls : Bool) (lit : Word) : List Word := if calls then [lit] else []

def encA (maj s : Nat) (o : AOps) : List Word :=
  encAWord maj s o.d o.a o.b :: encLit (o.a == 0xFF || o.b == 0xFF) o.lit

def encU (maj s : Nat) (o : UOps) : List Word :=
  encAWord maj s o.d o.a 0xF0 :: encLit (o.a == 0xFF) o.lit

def encT (maj s : Nat) (o : TOps) : List Word :=
  encAWord maj s 0xF0 o.a 0xF0 :: encLit (o.a == 0xFF) o.lit

def encI (maj : Nat) (o : IOps) : List Word :=
  encIWord maj o.d o.a o.imm :: encLit (o.a == 0xFF) o.lit

def encE (maj s : Nat) (u : Uses) (o : EOps) : List Word :=
  encAWord maj s o.d o.a o.b :: encXWord o.c o.mod o.minor :: encLit (u.callsLit o) o.lit

def encM (maj : Nat) (o : MOps) : List Word :=
  encMWord maj o.d o.a o.sz o.cp o.off5 ::
    ((if o.off5 == 0x1F then [o.ext] else []) ++ encLit (mCalls maj o.d o.a) o.lit)

/-- The major opcode and S of a format E instruction (R152). -/
def eCode : Instr → Nat × Nat
  | .imad _ => (0x02, 0)
  | .idiv _ => (0x03, 0)
  | .bfx _ => (0x07, 0)
  | .bfi _ => (0x07, 1)
  | .lea _ => (0x07, 2)
  | .icmp _ => (0x0A, 0)
  | .sel _ => (0x0B, 0)
  | .fadd _ => (0x10, 0)
  | .fsub _ => (0x10, 1)
  | .fmul _ => (0x10, 2)
  | .ffma _ => (0x10, 3)
  | .fmin _ => (0x11, 0)
  | .fmax _ => (0x11, 1)
  | .fcmp _ => (0x11, 2)
  | .fclass _ => (0x11, 3)
  | .frcp _ => (0x12, 0)
  | .frsq _ => (0x12, 1)
  | .fsqrt _ => (0x12, 2)
  | .fdiv _ => (0x12, 3)
  | .fexp2 _ => (0x13, 0)
  | .flog2 _ => (0x13, 1)
  | .ftanh _ => (0x13, 2)
  | .frnd _ => (0x13, 3)
  | .fsin _ => (0x14, 0)
  | .fcos _ => (0x14, 1)
  | .fldexp _ => (0x14, 2)
  | .dadd _ => (0x15, 0)
  | .dmul _ => (0x15, 1)
  | .dfma _ => (0x15, 2)
  | .dmin _ => (0x15, 3)
  | .dmax _ => (0x16, 0)
  | .dcmp _ => (0x16, 1)
  | .ddiv _ => (0x16, 2)
  | .dsqrt _ => (0x16, 3)
  | .hadd2 _ => (0x17, 0)
  | .hmul2 _ => (0x17, 1)
  | .hfma2 _ => (0x17, 2)
  | .cvt _ => (0x1C, 0)
  | .pack _ => (0x1C, 1)
  | .unpk _ => (0x1C, 2)
  | .shfl _ => (0x20, 0)
  | .redux _ => (0x22, 0)
  | .tex _ => (0x31, 0)
  | .cpy _ => (0x32, 0)
  | .cpyq _ => (0x32, 1)
  | .cinv _ => (0x32, 2)
  | .cflush _ => (0x32, 3)
  | .halloc _ => (0x33, 0)
  | .hfree _ => (0x33, 1)
  | .sste _ => (0x33, 2)
  | .atom _ => (0x34, 0)
  | .red _ => (0x34, 1)
  | .atoml _ => (0x34, 2)
  | .ldfe _ => (0x35, 0)
  | .ldff _ => (0x35, 1)
  | .stfe _ => (0x35, 2)
  | .stff _ => (0x35, 3)
  | .binit _ => (0x37, 0)
  | .barv _ => (0x37, 1)
  | .barvx _ => (0x37, 1)
  | .bwait _ => (0x37, 2)
  | .btest _ => (0x37, 2)
  | .cbarNear _ => (0x37, 3)
  | .cbarFar _ => (0x37, 3)
  | .gbar _ => (0x37, 3)
  | .fence _ => (0x37, 3)
  | .macq _ => (0x3A, 0)
  | .mrel _ => (0x3A, 0)
  | .fbld _ => (0x3A, 1)
  | .cbld _ => (0x3A, 2)
  | .scpf _ => (0x3A, 3)
  | .aclr _ => (0x3B, 0)
  | .asatr _ => (0x3B, 0)
  | .amov _ => (0x3B, 1)
  | .ald _ => (0x3B, 2)
  | .ast _ => (0x3B, 3)
  | .cmma _ => (0x3C, 0)
  | .xfwd _ => (0x3C, 1)
  | .xinv _ => (0x3C, 1)
  | .xdom _ => (0x3C, 1)
  | .xscl _ => (0x3C, 1)
  | .eroute _ => (0x3C, 2)
  | .edone _ => (0x3C, 2)
  | .emerge _ => (0x3C, 3)
  | .eqry _ => (0x3C, 3)
  | .trap _ => (0x3D, 0)
  | .tret _ => (0x3D, 0)
  | .brk _ => (0x3D, 0)
  | .lget _ => (0x3D, 0)
  | .lput _ => (0x3D, 0)
  | .lmsk _ => (0x3D, 0)
  | .srd _ => (0x3D, 0)
  | .swr _ => (0x3D, 0)
  | .rgrow _ => (0x3D, 0)
  | .rshrink _ => (0x3D, 0)
  | .launch _ => (0x3D, 0)
  | .draw _ => (0x3D, 0)
  | .fexport form _ => (0x3D, form.toNat)
  | .npbegin _ => (0x3D, 0)
  | .npend _ => (0x3D, 0)
  | .yield _ => (0x3D, 0)
  | .ifence _ => (0x3D, 0)
  | .icinv _ => (0x3D, 0)
  | .perfr _ => (0x3D, 0)
  | .halt _ => (0x3D, 0)
  | _ => (0, 0)

/-- The words of an instruction (R135, R136, R152); a happening has none. -/
def encode (i : Instr) : List Word :=
  match i.uses with
  | some (u, o) => encE (eCode i).1 (eCode i).2 u o
  | none =>
    match i with
    | .iadd o => encA 0x00 0 o
    | .isub o => encA 0x00 1 o
    | .iaddc o => encA 0x00 2 o
    | .isubb o => encA 0x00 3 o
    | .imul o => encA 0x01 0 o
    | .imulh o => encA 0x01 1 o
    | .imulhU o => encA 0x01 2 o
    | .iadd64 o => encA 0x01 3 o
    | .imin o => encA 0x04 0 o
    | .imax o => encA 0x04 1 o
    | .iminU o => encA 0x04 2 o
    | .imaxU o => encA 0x04 3 o
    | .and o => encA 0x05 0 o
    | .or o => encA 0x05 1 o
    | .xor o => encA 0x05 2 o
    | .andn o => encA 0x05 3 o
    | .shl o => encA 0x06 0 o
    | .shr o => encA 0x06 1 o
    | .sar o => encA 0x06 2 o
    | .rol o => encA 0x06 3 o
    | .clmulLo o => encA 0x09 1 o
    | .clmulHi o => encA 0x09 2 o
    | .faddShort o => encA 0x18 0 o
    | .fsubShort o => encA 0x18 1 o
    | .fmulShort o => encA 0x18 2 o
    | .fmaxShort o => encA 0x18 3 o
    | .daddShort o => encA 0x19 0 o
    | .dmulShort o => encA 0x19 1 o
    | .hadd2Short o => encA 0x19 2 o
    | .hmul2Short o => encA 0x19 3 o
    | .bcst o => encA 0x21 0 o
    | .qswp o => encA 0x23 0 o
    | .qbcst o => encA 0x23 1 o
    | .qdd o => encA 0x23 2 o
    | .popc o => encU 0x08 0 o
    | .clz o => encU 0x08 1 o
    | .ctz o => encU 0x08 2 o
    | .brev o => encU 0x08 3 o
    | .iabs o => encU 0x09 0 o
    | .mov o => encU 0x1E 0 o
    | .vote o => encU 0x21 1 o
    | .ballot o => encU 0x21 2 o
    | .feqry o => encU 0x36 2 o
    | .calli o => encT 0x28 0 o
    | .jmpi o => encT 0x28 1 o
    | .feset o => encT 0x36 0 o
    | .feclr o => encT 0x36 1 o
    | .iaddImm o => encI 0x0C o
    | .andImm o => encI 0x0D o
    | .orImm o => encI 0x0E o
    | .xorImm o => encI 0x0F o
    | .ld o => encM 0x2C o
    | .st o => encM 0x2D o
    | .ldl o => encM 0x2E o
    | .stl o => encM 0x2F o
    | .ldc o => encM 0x30 o
    | .pref o => encM 0x2C o
    | .movi o => [BitVec.ofNat 6 0x1D ++ o.d ++ o.imm]
    | .movl o =>
      encAWord 0x1E 1 o.d o.a 0xF0 ::
        (if o.a == 0xFF then [o.lit.extractLsb' 0 32, o.lit.extractLsb' 32 32] else [])
    | .mpop d a => [encAWord 0x1E 2 d (a.setWidth 8) 0xF0]
    | .mnot d a => [encAWord 0x1E 3 (d.setWidth 8) (a.setWidth 8) 0xF0]
    | .mand d a b => [encAWord 0x1F 0 (d.setWidth 8) (a.setWidth 8) (b.setWidth 8)]
    | .mor d a b => [encAWord 0x1F 1 (d.setWidth 8) (a.setWidth 8) (b.setWidth 8)]
    | .mxor d a b => [encAWord 0x1F 2 (d.setWidth 8) (a.setWidth 8) (b.setWidth 8)]
    | .waitc o => encAWord 0x36 3 0xF0 o.a (o.ctr.setWidth 8) :: encLit (o.a == 0xFF) o.lit
    | .bra o => [encCWord 0x26 0 o.mr o.off]
    | .brd o => [encCWord 0x26 1 o.mr o.off, o.join.setWidth 32]
    | .join => [encCWord 0x26 2 0 0]
    | .call off => [encCWord 0x26 3 0 off]
    | .ret => [encCWord 0x27 0 0 0]
    | .exit m => [encCWord 0x27 1 m 0]
    | .nop => [encCWord 0x27 2 0 0]
    | .mma o => [encFWord 0x38 o]
    | .mloop o => [encFWord 0x39 o.x, o.step]
    | _ => []

/-- The MOD and MINOR bits that a format E instruction sets are bits its row takes, and its selector is its row's. -/
def rowOk (i : Instr) : Bool :=
  match i.uses with
  | some (_, o) =>
    match eRow (eCode i).1 (eCode i).2 o.minor with
    | some row => decide (row.ctor o = i) && o.mod &&& ~~~row.modOk == 0 && o.minor &&& ~~~row.minorOk == 0
    | none => false
  | none => true

/-- The terms that are encodings of the part: well-formed, of a row with these MOD and MINOR bits, no value reserved. -/
def Instr.encodable (i : Instr) : Bool := !i.isHappening && i.wf && rowOk i && i.legal

/-- The instruction of a word numbered as the opcode table numbers it: the first 32-bit word in bits 31..0, a later word
above it; words beyond `nbits` are 0. -/
def decodeTableWord (nbits w : Nat) : Option Instr :=
  let v := w % 2 ^ nbits
  let ws : List Word := [BitVec.ofNat 32 v, BitVec.ofNat 32 (v / 2 ^ 32), BitVec.ofNat 32 (v / 2 ^ 64)]
  match decode ws with
  | .ok (i, _) => some i
  | .error _ => none

end Sys2Proof
end

