-- ==== Sys2Proof/Config.lean ====
section
/-! DEFINITION. What an implementation of the WY-8 fixes and the spec leaves open: opaque constants that nothing in Lean
can evaluate, so that a statement about them holds whatever they are. -/

namespace Sys2Proof.Config

/-- The faithfully rounded functions of R43 and R246 (log 7). -/
inductive Faithful where
  | frsq | fexp2 | flog2 | fsin | fcos | ftanh | lod
deriving DecidableEq, Repr

/-- R43: which of the two neighbours of an exact value a faithfully rounded function returns, as a fixed function of its
inputs: true takes the neighbour towards +∞ (log 7). -/
opaque faithfulUp : Faithful → List Word → Bool

/-- R141: the pair that a literal word supplies in a CFP32 position, which R141 leaves open (log 18). -/
opaque cfp32Literal : BitVec 32 → BitVec 64

/-- R222: the way that a full set of an L2 lets go for a line (log 67). -/
opaque l2Way : Nat → Nat

/-- R300: releaser records that an engine's sync SRAM and overflow area hold (log 56). -/
opaque releaserRecords : Nat

/-- R378, R381: a byte that another package's memory answers, which this package cannot know (log 15); the first argument
is a fresh count. -/
opaque remoteByte : Nat → Nat → Byte

/-- R378: the old value that an atomic of another package's memory answers (log 15). -/
opaque remoteAtomic : Nat → Nat → Dword

/-- R380: the package of the host group that holds a slot, if one does (log 15). -/
opaque slotHolder : Nat → Option Nat

/-- R345: PRQ.CORE of a request that no core makes, an update by Carafe or for a draw (log 25). -/
opaque unitCore : BitVec 9

/-- R36, R98: the codebook entry of a code that Tamper decodes through a slot that holds no codebook of its context (log 33); the
first argument is a fresh count. -/
opaque codebookEntry : Nat → Nat → BitVec 16

/-- R127: a barycentric whose denominator is zero, and a depth that a vertex without a finite z/w gives, as a function of the
edge functions' values (log 34). -/
opaque wildSample : List Int → BitVec 32

/-- R124: the pieces of a triangle with a vertex that is not finite, as a function of the words of its vertices and of the
viewport; a vertex of a piece is the numbers x, y, z_s, 1/w and the numerators and denominators of its barycentrics (log 34). -/
opaque wildPieces : List (BitVec 32) → List (List (List Int))

/-- R130: the minimum or maximum of two components of which one is a NaN, as an FP32 word (log 34). -/
opaque wildBlend : Nat → Nat → BitVec 32

/-- R310: a byte that a window access reads from the local store of a block of its cluster that has retired (log 51). -/
opaque goneByte : Nat → Nat → Byte

/-- R348, R349: a byte of a frame whose place the spec gives to a group of fields without placing them within it (log 13); the
first argument is a fresh count. -/
opaque frameByte : Nat → Nat → Byte

/-- R388: whether an ML-DSA-44 signature verifies over an image under the Mallamund key (log 16). -/
opaque signatureValid : Nat → Nat → Nat → Bool

/-- R388: the SHA3-256 hash of a byte string, given as its length and its value (log 16). -/
opaque sha3 : Nat → Nat → BitVec 256

/-- R388: the minimum security version that the package's fuses hold (log 16). -/
opaque minVersion : Nat

/-- R389: the signature of an attestation reply under the package's identity key (log 16). -/
opaque identitySign : Nat → Nat

/-- Operating points of a die's clock below the highest (R354, R387; log 91). -/
opaque clockSteps : Nat

end Sys2Proof.Config
end

