-- ==== Sys2Proof/Machine/State.lean ====
section
/-! DEFINITION. The state of one WY-8 package: everything the spec gives the machine, as plain data. Addresses are byte
addresses (Nat); tables are lists of key and value in rising key order (KV). The identifiers of groups, blocks, launches,
draws, clusters and operations are the model's own numbers, given out by `State.nextId`; 0–127 name the queue contexts. -/

namespace Sys2Proof.Machine

/-- Why a step stops with a fault. The WY-8's own traps and faults are next states; these are not the spec's. -/
inductive Fault where
  /-- An instruction is executed while no split issues; raised by every meaning of a Pythen instruction. Safe: no step
  of the machine reaches it, since `plan` names the issuer first. -/
  | noIssuer
deriving DecidableEq, Repr

/-- Why a step has no meaning. -/
inductive Refusal where
  /-- No meaning is written for the instruction yet; raised by the arm of `exec`. Safe: nothing is claimed of it. -/
  | notModelled (mnemonic : String)
deriving DecidableEq, Repr

/-- The flags of FPSTAT[5:0]: NV, DZ, OF, UF, NX, MNV from bit 0 upwards (R44). -/
abbrev Flags := BitVec 6

/-! ### Groups, splits and what they wait for -/

/-- The in-flight counters of R173. -/
inductive Ctr where
  | vl | vs | ce | at
deriving DecidableEq, Repr

/-- A value that a returning operation owes to a register; `scalar` tells s registers from v registers. -/
structure RegWrite where
  scalar : Bool
  reg : Nat
  lane : Nat
  val : Word
deriving DecidableEq, Repr

/-- One operation counted on an in-flight counter, from its issue to the fall of the counter (R173). -/
structure Flight where
  id : Nat
  ctr : Ctr
  /-- Parts (lane requests, chunks, lanes that wait for a page) not yet performed. -/
  left : Nat
  /-- Register values that its return writes. -/
  writes : List RegWrite := []
  /-- It may contribute flags until it has returned (FADD, R318). -/
  flag : Bool := false
  /-- Scope of the acquire that its return performs (R319). -/
  acq : Option Nat := none
  pc : Nat := 0
  /-- The other package that the operation waits on (R381). -/
  remote : Option Nat := none
  done : Bool := false
  /-- `Group.icount` when the operation's instruction issued (R335). -/
  born : Nat := 0
deriving DecidableEq, Repr

/-- STATUS of a page-request token (R346). -/
inductive TokStatus where
  | pending | retry | invalid
deriving DecidableEq, Repr

/-- A page-request token (R346): the lanes, the queue and the request; `key` is the model's name of the request, `reqid`
its REQID once the request is written; `va` is the address that missed, `hw` a hardware access of R399. -/
structure Token where
  mask : Lanes
  key : Nat
  reqid : Nat
  vf : Nat
  stage : Nat
  status : TokStatus
  va : Nat := 0
  hw : Bool := false
deriving DecidableEq, Repr

/-- What a split parked as PARKED 2 waits for (R168). -/
inductive PhaseWait where
  /-- The phase of a barrier object of the block, at an offset, differing from a parity (R328). -/
  | object (off : Nat) (parity : Bool)
  | near
  | far
  | grid
deriving DecidableEq, Repr

/-- Park causes 1–9 of R168. -/
inductive Park where
  | no
  | tag
  | phase (w : PhaseWait)
  | page
  | drain
  /-- The target block count, the scalar register that receives the blocks held, whether a drain follows the grant. -/
  | regs (target : Nat) (dst : Option Nat) (drain : Bool)
  | matrix
  | waitc (c : Ctr) (t : Nat)
  | table
  | launch
deriving DecidableEq, Repr

/-- A clause in progress: the words of its one fetch (R150), the index of the next word, its D bit (R146). -/
structure Clause where
  hdr : Nat
  words : List Word
  pos : Nat
  drain : Bool
  /-- CLH.CLASS (R144). -/
  cls : Nat := 7
  /-- Discarded by an IFENCE while the instruction in progress was in effect: what follows it is fetched anew (R371). -/
  stale : Bool := false
deriving DecidableEq, Repr

/-- A split entry (R164) with what the issue logic keeps of the split. -/
structure Split where
  pc : Nat
  mask : Lanes
  jrec : Option Nat
  park : Park := .no
  clause : Option Clause := none
  /-- Lanes that the instruction at `pc` is still to be executed for, after a page request or a TRET (R339, R347). -/
  due : Option Lanes := none
  tokens : List Token := []
  /-- The operation in flight that the instruction at `pc` has already begun, while lanes of it wait. -/
  openOp : Option Nat := none
  /-- R339: the address at which TRET must find an instruction boundary of the clause at the header. -/
  resumeAt : Option (Nat × Nat) := none
  /-- Lanes of the indirect transfer at `pc` wait for a split entry (R163, R209, R210). -/
  awaitsEntry : Bool := false
  /-- The clause in progress came from the quadrant's loop buffer (R151). -/
  inLoop : Bool := false
  /-- Issue time of the split, for step 4 of R170. -/
  lastIssue : Nat := 0
deriving DecidableEq, Repr

/-- A join record (R164). -/
structure JoinRec where
  jpc : Nat
  expect : Lanes
  arrived : Lanes := 0
  defer : Lanes := 0
  dpc : Nat := 0
  /-- Header of the clause that holds the instruction at DPC. -/
  dhdr : Nat := 0
  reeval : Bool := false
  outer : Option Nat
deriving DecidableEq, Repr

/-- A group in its handler (R338): the handler split, the elected lane, and whether the entry descriptor at TVEC is still
to be fetched. -/
structure Handler where
  sid : Nat
  elected : Nat
  entering : Bool
deriving DecidableEq, Repr

/-- What kind of program a group runs: a kernel's group, a queue program, a vertex or a fragment group. -/
inductive GroupKind where
  | kernel | queue | vertex | fragment
deriving DecidableEq, Repr

/-- Where a group is (R350, R351): on its core, stopping there for an eviction, or in its frame. -/
inductive Residency where
  | resident
  | draining (since : Nat)
  | evicted
deriving DecidableEq, Repr

/-- A fatal fault of a context that is on its way (R355): cause, core, PC, address, the group that it stops (every group of
the context where no group met it), how many further instructions such a group may issue, and how many each has issued. -/
structure Fatal where
  cause : Nat
  core : Nat
  fpc : Nat
  faddr : Nat
  gid : Option Nat
  skid : Nat
  spent : KV Nat := []
deriving DecidableEq, Repr

/-- A pending arithmetic notification (R335): the earliest producer's PC, SUB of R337, `Group.icount` at that producer. -/
structure Notif where
  fpc : Nat
  sub : Nat
  born : Nat
deriving DecidableEq, Repr

/-- A covered or helper pixel of a ticket (R125, R127): its coordinates, coverage, depth, b1, b2. -/
structure Sample where
  x : Nat
  y : Nat
  covered : Bool
  z : Word
  b1 : Word
  b2 : Word
deriving DecidableEq, Repr

/-- An exported fragment (R128): pixel, colours (four words for each bound target), depth. -/
structure Frag where
  x : Nat
  y : Nat
  colours : List Word
  z : Option Word
deriving DecidableEq, Repr

/-- Quads of one triangle on one home die that await packing into a fragment group (R127, R390). -/
structure QuadSet where
  draw : Nat
  psn : BitVec 40
  die : Nat
  front : Bool
  recs : List Nat
  /-- Each quad: its ticket and four samples. -/
  quads : List (Nat × List Sample)
  /-- ATTEMPT of its block (R56, R392), whether an earlier attempt has already exported. -/
  attempt : Nat := 0
  spent : Bool := false
deriving DecidableEq, Repr

/-- What a fragment group exports for (R127, R128): its quads, whether it has exported. -/
structure FragInfo where
  set : QuadSet
  exported : Bool := false
deriving DecidableEq, Repr

/-! ### Memory and caches -/

/-- Memory: bytes by address, in rising order of address, no entry equal to 0 (what an unlisted address reads as, R227). -/
abbrev Memory := List Host.Cell

/-- A line of a home L2 (R222): 128 bytes, the valid and dirty bits of its four sectors, L2.CMPW. -/
structure L2Line where
  data : List Byte
  valid : BitVec 4 := 15
  dirty : BitVec 4
  cmpw : Bool
deriving DecidableEq, Repr

/-- An L1 block (R219): its first byte's physical address, its size in words, its bytes, L1B.VALID, L1B.DIRTY, L1B.SCOPE,
the predictor index of the PC that allocated it and the words used since (R218), the CMP attribute of its last store, its bytes
with an uncorrectable error (R225). -/
structure L1Block where
  addr : Nat
  words : Nat
  data : List Byte
  valid : BitVec 32
  dirty : BitVec 32
  scope : Nat
  idx : Nat
  used : BitVec 8
  cmp : Bool
  bad : BitVec 32 := 0
deriving DecidableEq, Repr

/-- A leaf that a TLB holds (R342): stage 1 by context or stage 2 by virtual function, input base, size, output base and
combined attributes CMP, PKD, PRIV, X, W, RD. -/
structure TlbEntry where
  stage : Nat
  tag : Nat
  base : Nat
  size : Nat
  out : Nat
  cmp : Bool
  pkd : Bool
  priv : Bool
  x : Bool
  w : Bool
  rd : Bool
deriving DecidableEq, Repr

/-- A table entry that a walk cache holds (R342): stage and tag as in `TlbEntry`, its level, the input addresses below it,
the table that it points to. -/
structure WalkEntry where
  stage : Nat
  tag : Nat
  level : Nat
  base : Nat
  size : Nat
  table : Nat
deriving DecidableEq, Repr

/-- A 128-byte line of an instruction cache, by context and virtual address (R150). -/
structure ICLine where
  ctx : Nat
  addr : Nat
  words : List Word
deriving DecidableEq, Repr

/-- A loop buffer's capture (R151): the model's number of it, the context, the clauses of the body by header address. -/
structure LoopBuf where
  serial : Nat
  ctx : Nat
  first : Nat
  last : Nat
  clauses : KV (List Word)
deriving DecidableEq, Repr

/-- The ranges of a range-lock entry (R251). -/
inductive LockRange where
  | global (lo hi : Nat)
  | loc (blk lo hi : Nat)
  | tiles (ctx handle plane x0 y0 x1 y1 : Nat)
deriving DecidableEq, Repr

/-- A range-lock entry: the operation that holds it, whether the operation writes the range. -/
structure RangeLock where
  op : Nat
  ctx : Nat
  range : LockRange
  write : Bool
  /-- Physical intervals of a destination, whose clean L1 bytes go as it is released (R303). -/
  drop : List (Nat × Nat) := []
deriving DecidableEq, Repr

/-- Where one side of an engine operation lies: global bytes, a local store, a window of a handle (plane, x0, y0). -/
inductive Side where
  | global (va : Nat)
  | loc (off : Nat)
  | window (h p x y : Nat)
deriving DecidableEq, Repr

/-- A place in local store: the block (or queue number) whose store it is, the offset, whether it was reached through the
cluster window. -/
structure Spot where
  store : Nat
  off : Nat
  window : Bool := false
deriving DecidableEq, Repr

/-- The operations of a copy engine (R247, R255, R256, R279, R280). -/
inductive JobKind where
  /-- CPY: DIR, destination, source, length or extents, LFMT, RM, SAT. -/
  | cpy (dir : Nat) (dst src len : Dword) (lfmt rm : Nat) (sat : Bool)
  /-- CPYQ: list offset, entries, next entry, bytes of the entries done. -/
  | cpyq (off n next : Nat)
  | cinv (va len scope : Nat) (l2 : Bool)
  | cflush (va len scope : Nat) (l2 : Bool)
  /-- ALD: side, line stride, quadrant, tile, TT, memory format, RM. -/
  | ald (src : Side) (stride quad acc tt fmt rm : Nat)
  /-- AST: side, stride, quadrant, tile, TT, format, RM, SAT, FREQ exponent and bin, the 256 values as taken at issue. -/
  | ast (dst : Side) (stride quad acc tt fmt rm : Nat) (sat : Bool) (freq : Option (Int × Nat)) (vals : List Dword)
deriving DecidableEq, Repr

/-- An operation in a core's copy-engine queue (R250): its next chunk, the barrier object (block, offset) it lowers and the
bytes of its last chunk that it has still to lower, the handles whose USE it holds, the flags it has collected, its
page-request tokens. Of a CPYQ: the entry that runs, the owner of its range entries, the handles whose USE it holds. -/
structure Job where
  id : Nat
  gid : Nat
  blk : Nat
  ctx : Nat
  kind : JobKind
  chunk : Nat := 0
  started : Bool := false
  bar : Option Spot := none
  owed : Nat := 0
  uses : List Nat := []
  entry : Option JobKind := none
  entryId : Nat := 0
  entryUses : List Nat := []
  flags : Flags := 0
  pc : Nat := 0
  tokens : List Token := []
  priv : Bool := false
  /-- The surface-table entries of its handles as read at issue, eight doublewords each (R61); of a CPYQ, its entry's. -/
  descs : KV (List Dword) := []
deriving DecidableEq, Repr

/-- A codebook slot (R36, R267): entries, context tag, conflict mark. -/
structure Codebook where
  entries : List (BitVec 16)
  ctx : Nat
  conflict : Bool
deriving DecidableEq, Repr

/-- A scale-cache entry (R268). -/
structure SccEntry where
  ctx : Nat
  tid : Nat
  sector : Nat
  scales : List (BitVec 16)
deriving DecidableEq, Repr

/-- A team that owns or awaits the matrix unit (R177): members (group numbers of the block), those that have executed MACQ,
those that have left by MREL or exit. -/
structure Team where
  blk : Nat
  mask : BitVec 32
  arrived : List Nat
  left : List Nat
deriving DecidableEq, Repr

/-- An MLOOP or CMMA whose steps the sequencer of a quadrant runs (R274, R276, R282). -/
structure SeqOp where
  id : Nat
  gid : Nat
  ctx : Nat
  blk : Nat
  quad : Nat
  acc : Nat
  /-- CMMA (true) or MLOOP. -/
  complex : Bool
  team : Bool
  sp : Nat
  pairA : Dword
  pairB : Dword
  descA : Dword
  descB : Dword
  stepWord : Word
  bin : Nat
  steps : Nat
  next : Nat := 0
  rank : Nat := 0
  uses : List Nat := []
  tokens : List Token := []
  pc : Nat := 0
  born : Nat := 0
  /-- Its A and B entries as they stood at issue (R61). -/
  descs : KV (List Dword) := []
deriving DecidableEq, Repr

/-- A member's share of a team step (R273). -/
structure Share where
  gid : Nat
  quad : Nat
  acc : Nat
  /-- The words of its fragments as issued: of register i and lane l at 32 · i + l. -/
  fa : List Word
  fb : List Word
  descA : Dword
  pc : Nat
  born : Nat := 0
  /-- The fragment registers that the step has still to read: first register and number (R171). -/
  regs : List (Nat × Nat) := []
deriving DecidableEq, Repr

/-- A step of MMA or MMA.T that waits for its shares or for a scale (R264, R273): the shares it needs, the B descriptor and
SP of its first member, the page-request tokens of its scale fetch. -/
structure TeamStep where
  need : Nat
  blk : Nat
  ctx : Nat
  descB : Dword
  sp : Nat
  shares : List Share
  tokens : List Token := []
deriving DecidableEq, Repr

/-- A group, or the program of a queue context (R66, R89, R164, R173, R337). -/
structure Group where
  kind : GroupKind
  ctx : Nat
  /-- Its block, or its queue number. -/
  blk : Nat
  /-- Group number g in the block (R52). -/
  num : Nat
  /-- Declared width W. -/
  width : Nat
  core : Nat := 0
  quad : Nat := 0
  slot : Nat := 0
  res : Residency := .resident
  /-- Effective priority (R75). -/
  prio : Nat := 0
  /-- Register blocks held (R175). -/
  rblk : Nat := 0
  /-- v registers: key 64 · n + lane, unlisted reads 0. -/
  v : KV Word := []
  /-- s0–s47, unlisted reads 0. -/
  sr : KV Word := []
  /-- m1–m15, unlisted reads 0; a queue's carry is bit 0 of m13 (R67). -/
  m : KV Lanes := []
  /-- f0–f7, unlisted reads 0 (R266). -/
  f : KV Dword := []
  fpstat : Word := 0
  flights : List Flight := []
  splits : KV Split := []
  joins : KV JoinRec := []
  /-- Lanes that have not exited. -/
  live : Lanes := 0
  trec0 : Dword := 0
  trec1 : Dword := 0
  trec2 : Dword := 0
  trec3 : Dword := 0
  trec4 : Dword := 0
  handler : Option Handler := none
  notif : Option Notif := none
  /-- Issue cycles left in the open non-pre-emptible region (R354). -/
  np : Option Nat := none
  /-- The count of the region has passed its bound (R354). -/
  npOver : Bool := false
  gissue : Dword := 0
  /-- Instructions issued since the group started (R335). -/
  icount : Nat := 0
  parkedCycles : Dword := 0
  heldCycles : Dword := 0
  /-- Core cycle of its last issue, and of the moment it last became ready (R170). -/
  lastIssue : Nat := 0
  readySince : Nat := 0
  /-- YIELD: not chosen before every other ready group has issued; YIELD.P counts as parked (R370). -/
  yielded : Bool := false
  yieldParked : Bool := false
  /-- Captures numbered below this were made before the group's last IFENCE (R371). -/
  fence : Nat := 0
  frag : Option FragInfo := none
  /-- Order of placement (R175, R350). -/
  placedAt : Nat := 0
  /-- Its frame in the save area (R348). -/
  frame : Nat := 0
  /-- What an eviction saves with the group (R253, R276, R349): engine operations, loops, their range-lock entries, tiles
  (key 256 · tile + 16 · row + column) and SATCNT, the team whose request it held, whether that team owned the unit. -/
  jobs : List Job := []
  seqs : List SeqOp := []
  steps : List TeamStep := []
  locks : List RangeLock := []
  tiles : KV Word := []
  satcnt : KV (BitVec 16) := []
  team : Option Team := none
  teamOwned : Bool := false
  /-- Restored as a member of an owning team, it waits until the team is granted again (R177). -/
  regain : Bool := false
  /-- The drain bound of its eviction has passed (R351). -/
  cut : Bool := false
deriving DecidableEq, Repr

/-- A request in a core's register-block FIFO (R175): the split that is parked on it. -/
structure RbReq where
  gid : Nat
  sid : Nat
deriving DecidableEq, Repr

/-- An expert entry that a registered core caches (R110): table, expert, the entry's 32 bytes. -/
structure ExpCache where
  table : Nat
  expert : Nat
  bytes : List Byte
deriving DecidableEq, Repr

/-- A promise of R178: the evicted context, the incoming one, the issue cycles of the latter on the core since. -/
structure Restoring where
  out : Nat
  inc : Nat
  count : Nat := 0
deriving DecidableEq, Repr

/-- A packed set of R163 that a quadrant is issuing: its core cycle, the next PC of its members, those that have still to
issue in that cycle. -/
structure Pack where
  cycle : Nat
  pc : Nat
  members : List (Nat × Nat)
deriving DecidableEq, Repr

/-- A core (R14, R84, R217–R219, R250, R251, R267, R268, R271, R308, R342, R364, R373). -/
structure Core where
  poolb0 : Nat := 96
  poolb1 : Nat := 96
  poolb2 : Nat := 96
  /-- L1 blocks, the first to be replaced first. -/
  l1 : List L1Block := []
  /-- Predictor entries that differ from 8 words (R218). -/
  pred : KV Nat := []
  icache : List ICLine := []
  loops : KV LoopBuf := []
  tlb : List TlbEntry := []
  locks : List RangeLock := []
  jobs : List Job := []
  /-- Round-robin position of the copy engine, and whether the last chunk slot was Tamper's (R250). -/
  turn : Nat := 0
  tamperTurn : Bool := false
  /-- Accumulator tiles: key 2048 · quad + 256 · tile + 16 · row + column, unlisted holds 0. -/
  tiles : KV Word := []
  /-- SATCNT: key 8 · quad + tile, unlisted holds 0 (R47). -/
  satcnt : KV (BitVec 16) := []
  owner : Option Team := none
  teams : List Team := []
  /-- The block whose values the tiles hold (R177). -/
  tileBlk : Option Nat := none
  seqs : List SeqOp := []
  teamSteps : List TeamStep := []
  codebooks : KV Codebook := []
  /-- Contexts whose codebook records have been written to the slots since they became valid (R267). -/
  loaded : List Nat := []
  /-- Scale cache, least recently used first. -/
  scc : List SccEntry := []
  /-- Named barrier slots in use: the block and the offset of the object (R308). -/
  slots : KV (Nat × Nat) := []
  rbFifo : List RbReq := []
  experts : List ExpCache := []
  /-- Cycles since the core's last reset; for each quadrant, the first one in which it can issue again (R161); the packed sets
  of R163 being issued. -/
  cycle : Nat := 0
  busy : KV Nat := []
  packs : KV Pack := []
  perfsel : Dword := 0
  perfcnt0 : Dword := 0
  perfcnt1 : Dword := 0
  perfcnt2 : Dword := 0
  perfcnt3 : Dword := 0
  /-- Blocks whose Tamper work is pending, in order of placement (R97). -/
  tamperQ : List Nat := []
  /-- Evictions from the core whose groups are still to be restored (R178). -/
  restore : List Restoring := []
  /-- The core is held by a die reset (R384). -/
  held : Bool := false
deriving DecidableEq, Repr

/-! ### Blocks, clusters, launches and draws -/

/-- What a tagged waiter wants (R304). -/
inductive TagOp where
  | ldfe | ldff | stfe
deriving DecidableEq, Repr

/-- A lane that waits on a tagged word (R305): its split, lane (none for the one operation of a uniform form), offset, size,
stored data, destination register. -/
structure TagWait where
  gid : Nat
  sid : Nat
  lane : Option Nat
  op : TagOp
  off : Nat
  wide : Bool
  data : Dword
  dst : Option Nat
  flight : Nat
  /-- Scope of the acquire or release of its instruction (R294). -/
  scope : Nat := 1
deriving DecidableEq, Repr

/-- A completion target (R76). -/
inductive Target where
  /-- Tagged word of a store (queue number or block) at an offset. -/
  | word (store off : Nat)
  /-- Barrier object of a block at an offset. -/
  | barrier (blk off : Nat)
deriving DecidableEq, Repr

/-- A block's life (R94): its Tamper work, its run, its wait under R78. -/
inductive BlockPhase where
  | tamper | running | exited
deriving DecidableEq, Repr

/-- A completion store that awaits an empty word or an evicted block (R77, R309, R349). -/
structure LatchedWord where
  off : Nat
  val : Dword
deriving DecidableEq, Repr

/-- A placed block (R55, R87, R94, R97, R101, R309). -/
structure Block where
  launch : Nat
  ctx : Nat
  /-- Linear number n (R52). -/
  lin : Nat
  core : Nat
  phase : BlockPhase := .tamper
  attempt : Nat := 0
  cluster : Nat := 0
  rank : Nat := 0
  dieBit : Nat := 0
  groups : List Nat := []
  /-- Local store: place in the core's pool (bytes from POOLB0), length reserved, LAUNCH.LSBYTES. -/
  lsBase : Nat := 0
  lsRun : Nat := 0
  lsBytes : Nat := 0
  ls : Memory := []
  /-- Full/empty bits by word index: listed words are full. -/
  full : KV Bool := []
  waits : List TagWait := []
  resident : Bool := true
  /-- Its run of frames in the save area, and the frames of its groups (R348, R376). -/
  frame : Nat := 0
  frames : Nat := 0
  gframes : List Nat := []
  tbind : Nat := 0
  tchunk : Nat := 0
  /-- Tamper has read the binding's entries and holds their USE and ranges (R97). -/
  topen : Bool := false
  tuses : List Nat := []
  /-- The binding's surface-table entries as read at its start (R97). -/
  tdescs : KV (List Dword) := []
  tflags : Flags := 0
  ttokens : List Token := []
  /-- Saved by an eviction (R309, R349): Tamper's range-lock entries, the offsets of bound barrier objects. -/
  tlocks : List RangeLock := []
  bars : List Nat := []
  /-- Sequence counter of the block's launches (R74) and PSN counter of its stream (R122). -/
  seq : Word := 0
  psn : BitVec 40 := 0
  /-- The targets and the layer of its stream's latest draw (R132). -/
  bound : List Nat := []
  latched : List (Nat × Int) := []
  latchedWords : List LatchedWord := []
  /-- The task record as last written (kept here for draw work, R392). -/
  taskState : Nat := 0
  /-- An event of R95 has befallen the block; its kill is on its way. -/
  dying : Bool := false
  /-- A die that the thermal scheduler has taken the block from: it restores on another one (R350). -/
  shun : Option Nat := none
  placedAt : Nat := 0
deriving DecidableEq, Repr

/-- The cluster barrier (R311): members that have arrived in the near set of each die bit and in the far set, the near
sets already complete in this phase. -/
structure Cluster where
  launch : Nat
  /-- Linear number of its first block. -/
  first : Nat := 0
  /-- Blocks by cluster rank. -/
  blocks : List Nat
  /-- Their die bits (R91). -/
  bits : List Nat := []
  die0 : Nat
  near : List Nat := []
  far : List Nat := []
  nearDone : List Nat := []
deriving DecidableEq, Repr

/-- Who accepted a launch (R74, R75). -/
inductive Issuer where
  | queue (q : Nat)
  | block (b : Nat)
  /-- The vertex or fragment launch of a draw. -/
  | draw (d : Nat)
deriving DecidableEq, Repr

/-- The role of a launch: a kernel launch, the vertex work or the fragment work of a draw. -/
inductive LaunchRole where
  | kernel | vertex | fragment
deriving DecidableEq, Repr

/-- A launch record as read at execution (R51). -/
structure LRec where
  entry : Nat
  width : Nat
  straddle : Bool
  clsize : Nat
  bdx : Nat
  bdy : Nat
  bdz : Nat
  gdx : Nat
  gdy : Nat
  gdz : Nat
  prio : Nat
  pb0 : Nat
  pb1 : Nat
  pb2 : Nat
  lsbytes : Nat
  rbinit : Nat
  rbmax : Nat
  nbind : Nat
  cores : Bool
  relaunch : Bool
  nantrap : Bool
  drain : Bool
  ctx : Nat
  taskptr : Nat
  argptr : Nat
  binds : List Dword
deriving DecidableEq, Repr

/-- An accepted launch (R74–R77, R80–R85, R92, R312). -/
structure Launch where
  lrec : LRec
  lrptr : Nat
  role : LaunchRole := .kernel
  issuer : Issuer
  home : Nat := 0
  /-- Effective priority (R75), privileged copy job (R367). -/
  prio : Nat := 0
  priv : Bool := false
  seq : Word := 0
  target : Target
  /-- Effective register blocks RBEFF (R90) and boundaries (R84, R85). -/
  rbeff : Nat := 1
  pb0 : Nat := 0
  pb1 : Nat := 0
  pb2 : Nat := 96
  /-- Blocks to place in all, next linear number, die cursor (R82). -/
  total : Nat := 0
  next : Nat := 0
  cursor : Nat := 0
  /-- Class and format of the source and index entries of the bindings, as LAUNCH found them (R54, R102). -/
  kinds : List (Nat × Nat × Nat × Nat) := []
  /-- Killed blocks due for relaunch: linear number and ATTEMPT (R56, R81). -/
  again : List (Nat × Nat) := []
  retired : Nat := 0
  /-- CWORD.STATUS once the launch is over (R77). -/
  status : Option Nat := none
  /-- Groups that have arrived at the grid barrier (R312); groups ended so far. -/
  gbar : List Nat := []
  ended : Nat := 0
  /-- A CORES grid whose blocks may run (R92). -/
  placedAll : Bool := false
deriving DecidableEq, Repr

/-- A draw record as read at execution (R120). -/
structure DRec where
  topo : Nat
  vlr : Nat
  zexp : Bool
  flr : Nat
  icount : Nat
  vcount : Nat
  nattr : Nat
  frontcw : Bool
  cull : Nat
  isz : Nat
  ibuf : Nat
  vpsx : Word
  vpsy : Word
  vpox : Word
  vpoy : Word
  layer : Nat
  dfunc : Nat
  dwrite : Bool
  dh : Nat
  ch : List Nat
  blend : List Dword
  constc : List Word
  vout : Nat
deriving DecidableEq, Repr

/-- A vertex of a piece after projection (R124): its snapped position in 1/256 pixel, z_s, 1/w, and its barycentrics of the three
original vertices, each as a numerator and a denominator. -/
structure SetupVertex where
  x : Int
  y : Int
  z : Word
  iw : Word
  b0 : Int × Nat
  b1 : Int × Nat
  b2 : Int × Nat
deriving DecidableEq, Repr

/-- A triangle that assembly has set up (R124): its PSN, the addresses of its vertex records, its pieces, whether it faces
front. -/
structure SetupTri where
  psn : BitVec 40
  recs : List Nat
  pieces : List (List SetupVertex)
  front : Bool
deriving DecidableEq, Repr

/-- A ticket of a tile (R126, R129): its draw, PSN, tile, home bank, follower banks (die and bank), samples, parts due, whether
its entries are enqueued, the tiles (handle, index) that its entries stand for, the parts and fragments delivered, the pixels that passed the depth test, whether its fragments have
left the colour stage. -/
structure Ticket where
  draw : Nat
  psn : BitVec 40
  tx : Nat
  ty : Nat
  stack : Nat
  die : Nat
  bank : Nat
  followers : List (Nat × Nat)
  issued : Bool := false
  tiles : List (Nat × Nat) := []
  samples : List Sample
  npart : Nat
  delivered : Nat := 0
  frags : List Frag := []
  depthDone : Bool := false
  passed : List (Nat × Nat) := []
  colourDone : Bool := false
deriving DecidableEq, Repr

/-- A part on its way to a bank (R128): the ticket and its fragments. -/
structure Part where
  ticket : Nat
  die : Nat
  bank : Nat
  frags : List Frag
deriving DecidableEq, Repr

/-- An entry of a bank's tile-ticket queue (R126): home entry or follower entry, the forwarded result of a follower. -/
structure BankEntry where
  ticket : Nat
  home : Bool
  forwarded : Option (List Frag) := none
deriving DecidableEq, Repr

/-- An accepted draw (R120–R132). -/
structure Draw where
  drec : DRec
  ctx : Nat
  issuer : Issuer
  home : Nat
  prio : Nat := 0
  seq : Word := 0
  target : Target
  vlaunch : Nat
  flaunch : Nat
  flrec : LRec
  psn0 : BitVec 40
  tris : Nat
  /-- Next triangle to assemble; the set-up triangles that each stack has still to rasterize. -/
  nextTri : Nat := 0
  setup0 : List SetupTri := []
  setup1 : List SetupTri := []
  /-- Its targets differ from those of the stream's previous draw (R132). -/
  gate : Bool := false
  /-- Page-request tokens of the draw's own accesses. -/
  tokens : List Token := []
  uses : List Nat := []
  /-- The raster extent (R121). -/
  extW : Nat := 0
  extH : Nat := 0
  /-- CWORD.STATUS once the draw is over; its record stays until its launches are over too. -/
  status : Option Nat := none
deriving DecidableEq, Repr

/-! ### Dies, engines, Crema -/

/-- A request of an atomic instruction at a die's synchronisation engine (R313): address, operation, operands, the releasing
core (package · 320 + core) and the scope of a release it carries, .RMT and the promotion it asked for and got (R299), the
register and lane that await the old value, or the package that does. -/
structure AtomReq where
  gid : Nat
  flight : Nat
  addr : Nat
  op : Nat
  w64 : Bool
  b : Dword
  c : Dword
  cmp : Bool
  core : Nat
  lane : Nat
  scalar : Bool
  dst : Option Nat
  release : Option Nat
  rmt : Bool
  asked : Bool := false
  promoted : Bool := false
  reply : Option Nat := none
deriving DecidableEq, Repr

/-- A surface-table operation that waits at the serialiser (R257). -/
structure TableOp where
  gid : Nat
  sid : Nat
  kind : Nat
  handle : Nat
  image : List Dword
  mask : BitVec 8
  dst : Option Nat
deriving DecidableEq, Repr

/-- A Crema tile that an entry holds (R62, R63, R235): its context, handle and index in the tile map, its plane and place, its bank, first unit
and units, its bytes, whether it is away with its first area unit and units, whether an engine waits for it (R237), the tokens of Carafe's own updates for it (R399), the time of its
last access in units of 4,096 Crema cycles, its entry's EVICT and CODEC. -/
structure TileRec where
  ctx : Nat
  handle : Nat
  idx : Nat
  plane : Nat
  tx : Nat
  ty : Nat
  bank : Nat
  slot : Nat
  units : Nat
  bytes : Nat
  away : Bool := false
  far : Nat := 0
  farUnits : Nat := 0
  last : Nat := 0
  wanted : Bool := false
  tokens : List Token := []
  evict : Bool
  codec : Bool
deriving DecidableEq, Repr

/-- A Grinder operation in flight (R283–R285). -/
structure Grind where
  gid : Nat
  core : Nat
  ctx : Nat
  blk : Nat
  /-- 0 XFWD, 1 XINV, 3 XSCL. -/
  op : Nat
  h : Nat
  p : Nat
  x0 : Nat
  y0 : Nat
  w : Nat
  ht : Nat
  d : Int
  bar : Option Spot
  uses : List Nat := []
  /-- Its entry as it stood at issue (R61). -/
  descs : KV (List Dword) := []
  tokens : List Token := []
  flags : Flags := 0
  pc : Nat
  born : Nat := 0
deriving DecidableEq, Repr

/-- A thermal sensor column (R387): previous reading in millidegrees, the readings in a row that repeat it, each neighbour's
reading as this run first met it, whether some neighbour has moved by 2 °C since, whether the column is plausible, the value in
use. -/
structure ThermCol where
  prev : Option Int := none
  repeats : Nat := 0
  base : KV Int := []
  moved : Bool := false
  plausible : Bool := true
  used : Option Int := none
deriving DecidableEq, Repr

/-- DIERST.STATE (R383). -/
inductive RstState where
  | idle | clearing | inReset | restarting
deriving DecidableEq, Repr

/-- A shader die with its Crema die (R14, R19, R23–R27, R234, R298–R300, R313, R383, R385, R387, R395). -/
structure Die where
  hashsel : Word := 0x00001000
  slicemap : Dword := 0xFEDCBA9876543210
  coreEn : Dword := 0xFFFFFFFFFF
  /-- Crema bytes: key 524,288 · bank + byte of the bank. -/
  crema : Memory := []
  /-- Crema bytes with an uncorrectable error, by the same key (R19, R225). -/
  bad : List Nat := []
  tiles : List TileRec := []
  cfarea : Dword := 0
  cmpprobe : Dword := 0
  dierst : Dword := 0
  rst : RstState := .idle
  tlb : List TlbEntry := []
  walks : List WalkEntry := []
  atoms : List AtomReq := []
  /-- Releaser records: sector address and core (R299). -/
  releasers : KV Nat := []
  /-- Number of operations the engine has executed, and SC fence numbers taken (R298, R313). -/
  opSeq : Nat := 0
  scSeq : Nat := 0
  /-- Tile-ticket queues of the banks (R126), and the parts on their way to them. -/
  queues : KV (List BankEntry) := []
  parts : List Part := []
  therm : KV ThermCol := []
  /-- Clock steps below the highest operating point, and the readings since no column was plausible (R387). -/
  clockDown : Nat := 0
  noPlausible : Option Nat := none
  noPlace : Bool := false
  /-- Refresh, activation and scrub positions (R385). -/
  refresh : KV Nat := []
  acts : KV Nat := []
  scrub : KV Nat := []
deriving DecidableEq, Repr

/-! ### Contexts, virtual functions, queues, page requests -/

/-- A request of a page request queue (R345, R346); `key` is the model's name for it. -/
structure PrqReq where
  key : Nat
  reqid : Nat
  page : Nat
  acc : Nat
  eng : Bool
  why : Nat
  ctx : Nat
  level : Nat
  gva : Nat
  core : Nat
  written : Bool
deriving DecidableEq, Repr

/-- A page request queue (R344). -/
structure Prq where
  base : Dword := 0
  prod : Word := 0
  cons : Word := 0
  note : Dword := 0
  next : Nat := 0
  reqs : List PrqReq := []
deriving DecidableEq, Repr

/-- A virtual function (R343, R344): HTTB, its two queues, its guest TLBINV pair. -/
structure VF where
  httb : Dword := 0
  gq : Prq := {}
  hq : Prq := {}
  tlbinv : Dword := 0
  tlbinva : Dword := 0
deriving DecidableEq, Repr

/-- A codebook record of a context header (R267, R348). -/
structure CbRec where
  entries : List (BitVec 16)
  conflict : Bool
deriving DecidableEq, Repr

/-- A context (R342, R344, R348, R355, R365). -/
structure Context where
  en : Bool := false
  vf : Nat := 0
  gttb : Dword := 0
  csave : Dword := 0
  cfault0 : Dword := 0
  cfault1 : Dword := 0
  cfault2 : Dword := 0
  stbase : Dword := 0
  stcount : Dword := 0
  tvec : Dword := 0
  fatal : Option Fatal := none
  /-- Frames of the save area in use (frame 0 is the header). -/
  frames : List Nat := []
  cbrecs : KV CbRec := []
  /-- Operations at the surface-table serialiser, in order of arrival (R257). -/
  tableOps : List TableOp := []
deriving DecidableEq, Repr

/-- A queue context (R66, R68, R73); its program is the group of the same number. -/
structure Queue where
  en : Bool := false
  priv : Bool := false
  prio : Nat := 0
  ctx : Nat := 0
  /-- QCFG.ENTRY as a byte address. -/
  entry : Nat := 0
  fault : Nat := 0
  run : Bool := false
  err : Bool := false
  ovr : Bool := false
  ls : Memory := []
  full : KV Bool := []
  waits : List TagWait := []
  seq : Word := 0
  psn : BitVec 40 := 0
  /-- The targets and the layer of its stream's latest draw (R132). -/
  bound : List Nat := []
  readySince : Nat := 0
  /-- Clauses its command processor has issued since this context last issued one while ready (R69). -/
  skipped : Nat := 0
deriving DecidableEq, Repr

/-- A command processor (R66): instruction cache, cycle counter, the queue whose clause is in progress. -/
structure CmdProc where
  icache : List ICLine := []
  cycle : Nat := 0
  current : Option Nat := none
deriving DecidableEq, Repr

/-! ### Barista -/

/-- Counters of an expert (R106). -/
structure ExpCtr where
  load : Nat := 0
  infl : List Nat := [0, 0, 0, 0, 0, 0, 0, 0]
  closed : List Bool := [false, false, false, false, false, false, false, false]
  rload : List Nat := [0, 0, 0, 0, 0, 0, 0, 0]
deriving DecidableEq, Repr

/-- A copy of a replica in progress (R113–R115): expert, replica index, target die and slot, next chunk, refresh or not, the
source's CRC so far, whether it has failed or been abandoned. -/
structure ExpCopy where
  id : Nat
  expert : Nat
  rep : Nat
  die : Nat
  slot : Nat
  chunk : Nat := 0
  refresh : Bool := false
  /-- Replicas a refresh has still to copy. -/
  rest : List Nat := []
  crc : Word := 0xFFFFFFFF
  failed : Bool := false
  abandoned : Bool := false
  /-- Some replica of the refresh has been verified. -/
  verified : Bool := false
  tokens : List Token := []
deriving DecidableEq, Repr

/-- A replica that drains (R116): the version whose acknowledgement is awaited. -/
structure Drain where
  expert : Nat
  rep : Nat
  version : Word
deriving DecidableEq, Repr

/-- A merge (R119, R289): the group and flight that await it, the expert, the instruction. -/
structure Merge where
  gid : Nat
  flight : Nat
  expert : Nat
  pc : Nat
deriving DecidableEq, Repr

/-- A notice to a registered core (R110); once the core has it, the EROUTE operations that had still to count then. -/
structure Notice where
  core : Nat
  expert : Nat
  version : Word
  owed : Option (List Nat) := none
deriving DecidableEq, Repr

/-- An EROUTE lane that waits for a count to fall or a version to be published (R106, R108, R288). -/
structure RouteWait where
  gid : Nat
  flight : Nat
  lane : Nat
  token : Word
  expert : Nat
  minver : Option Word
  dst : Nat
deriving DecidableEq, Repr

/-- One Barista table (R104, R106, R107). -/
structure ExpTable where
  en : Bool := false
  train : Bool := false
  hold : Bool := false
  ctx : Nat := 0
  hdie : Nat := 0
  nexp : Nat := 0
  base : Dword := 0
  wlen : Nat := 65536
  hot : Nat := 0xFFFFFFFF
  cold : Nat := 0
  maxrep : Nat := 8
  copymax : Nat := 1
  /-- The policy in force until the next window ends. -/
  curWlen : Nat := 65536
  curHot : Nat := 0xFFFFFFFF
  curCold : Nat := 0
  curMaxrep : Nat := 8
  curCopymax : Nat := 1
  fail : List Nat := [0, 0, 0, 0, 0, 0, 0, 0]
  excl : BitVec 8 := 0
  badexp : Nat := 0
  under : Bool := false
  fails : Nat := 0
  win : Word := 0
  ctrs : KV ExpCtr := []
  regs : List Nat := []
  notices : List Notice := []
  copies : List ExpCopy := []
  drains : List Drain := []
  merges : List Merge := []
  waits : List RouteWait := []
  /-- Page-request tokens of Barista's own accesses. -/
  tokens : List Token := []
  /-- Retired replicas whose slot is still to be freed: expert, index (R116, R118). -/
  freeing : List (Nat × Nat) := []
deriving DecidableEq, Repr

/-! ### Package -/

/-- What the management controller logs; `a`, `b` name the unit and the value concerned. -/
inductive EventKind where
  | queueTrap | windowAccess | windowReserved | noticeRefused | tlbinvRefused | replyUnknown | requestLost | cfareaRefused
  | fatalFault | ctxRetireRefused | barista | corrected | uncorrectable | dieLink | packageFault | linkRetrain
  | portMode | thermalColumn | thermalDie | firmware | refresh | scrub | calibration | routeLost | attestation | dieReset
deriving DecidableEq, Repr

/-- An entry of the event log. -/
structure Event where
  kind : EventKind
  a : Nat
  b : Nat
deriving DecidableEq, Repr

/-- A Thrumri port (R379). -/
structure Port where
  state : Nat := 0
  mode : Nat := 0
  peer : Nat := 0
  pport : Nat := 0
  retrain : Nat := 0
  replay : Nat := 0
deriving DecidableEq, Repr

/-- The answer that an outside party is owed: a read of the host window or of Thrumri, an attestation. -/
structure Reply where
  dest : Nat
  bytes : List Byte
deriving DecidableEq, Repr

/-- A read or write that another package has still to answer (R378, R381): its message, the group and the context that it belongs
to, so far as they are known. -/
structure Await where
  msg : ThrMsg
  gid : Option Nat := none
  ctx : Option Nat := none
deriving DecidableEq, Repr

/-- The rest of the package (R16, R17, R378–R389). -/
structure Package where
  pkgid : Nat := 0
  /-- Packages of the load-store domain that a route reaches (R214, R381), beside the far ends of its own ports. -/
  domain : List Nat := []
  hslot : Nat := 0
  hostpkg : Nat := 0
  ports : KV Port := []
  /-- Die links 0–3 and the front-end link (4) that are down (R16). -/
  linksDown : List Nat := []
  /-- The two copies of the route table: key 8 · from + to, the dies passed through; which copy is active (R17, R384). -/
  routesA : KV (List Nat) := []
  routesB : KV (List Nat) := []
  routeB : Bool := false
  events : List Event := []
  /-- Answers sent to the outside, and messages sent over Thrumri, the latest last. -/
  replies : List Reply := []
  sent : List ThrMsg := []
  /-- What other packages have still to answer, the oldest first (R381). -/
  awaited : List Await := []
  /-- Firmware (R388): measurement registers, recovery, whether the package has stopped on a package fault (R17). -/
  measures : List (BitVec 256) := []
  recovery : Bool := false
  stopped : Bool := false
  /-- The hypervisor's TLBINV pair at 0x0400_0000 (R344). -/
  tlbinv : Dword := 0
  tlbinva : Dword := 0
deriving DecidableEq, Repr

/-- What happens next, in the order of `State.agenda` (log 1). -/
inductive Happening where
  /-- A row of the opcode table that is a hardware happening. -/
  | row (i : Instr)
  /-- The split `sid` of group (or queue) `gid` issues. -/
  | issue (gid sid : Nat)
  /-- `n` core cycles pass on a core without an issue. -/
  | idle (core n : Nat)
  /-- The L1 of a core replaces its first block; a home L2 drops or writes back a line (R217, R222). -/
  | l1Evict (core : Nat)
  | l2Evict (line : Nat)
  /-- A TLB of a core keeps the walk of an address, or drops its entries (R342). -/
  | tlbFill (core ctx va : Nat)
  | tlbDrop (core : Nat)
  /-- A core's instruction cache drops its lines. -/
  | icacheDrop (core : Nat)
  /-- A walk cache keeps the table entries of an address's walk (R342). -/
  | walkFill (core ctx va : Nat)
  /-- An uncorrectable error appears at a physical address, or in a byte of a die's Crema (R19, R225); an error that a device
  or a SECDED word corrects (R20, R225). -/
  | poison (addr : Nat)
  | cremaPoison (die key : Nat)
  /-- An uncorrectable error in a byte that a core's L1 holds, or in the tag of a line of memory (R225, R228). -/
  | l1Poison (core addr : Nat)
  | tagError (line : Nat) (tag : BitVec 4)
  /-- The fabric manager makes the packages of the load-store domain known (R214). -/
  | domain (pkgs : List Nat)
  | corrected (addr : Nat)
  /-- An uncorrectable error that stands in a byte of memory is reported, by patrol scrub or by the access that met it (R20, R118,
  R225). -/
  | reported (addr : Nat)
  /-- The thermal scheduler takes the work of a core off its die, or raises a die's clock by a step (R21, R350, R354). -/
  | migrate (core : Nat)
  | clockUp (die : Nat)
  /-- The management controller gives the host a die's fuse registers (R23). -/
  | fuses (die dest : Nat)
  /-- A write of `size` bytes at an offset of the privileged control window (R398). -/
  | winWrite (off size : Nat) (v : Dword)
  /-- Loads and stores by the host or privileged software through the host-mode port (R71, R393). -/
  | hostWrite (addr : Nat) (bytes : List Byte)
deriving DecidableEq, Repr

/-- The machine: one package. -/
structure State where
  /-- Bean layer and far memory: decoded bytes by canonical offset within the package (R215). -/
  mem : Memory := []
  /-- Compression tags that differ from ZERO (1): key is the line number (R227). -/
  tags : KV (BitVec 4) := []
  /-- Lines of the home L2s, by line number (R222). -/
  l2 : KV L2Line := []
  /-- Bytes with an uncorrectable error (R225). -/
  poison : List Nat := []
  cores : KV Core := []
  dies : KV Die := []
  groups : KV Group := []
  blocks : KV Block := []
  clusters : KV Cluster := []
  launches : KV Launch := []
  draws : KV Draw := []
  tickets : KV Ticket := []
  quadSets : List QuadSet := []
  grinds : KV Grind := []
  ctxs : KV Context := []
  vfs : KV VF := []
  queues : KV Queue := []
  cps : KV CmdProc := []
  tables : KV ExpTable := []
  pkg : Package := {}
  /-- The split (group or queue number, split entry) that issues the instruction being executed. -/
  issuer : Option (Nat × Nat) := none
  agenda : List Happening := []
  nextId : Nat := 128
  /-- The count that free values are applied to (log 7, log 15). -/
  freeCount : Nat := 0
deriving DecidableEq, Repr

/-- The reset-state routes of R17 between two dies: the dies passed through, with every die link up. -/
def resetRoute (a b : Nat) : List Nat :=
  let ring (s x y : Nat) : List Nat :=
    if x + y = 3 ∧ x ≠ y then (if x = 0 ∨ x = 3 then [4 * s + 1] else [4 * s]) else []
  if a / 4 = b / 4 then ring (a / 4) (a % 4) (b % 4)
  else
    let m := 4 * (b / 4) + a % 4
    if m = b then [] else m :: ring (b / 4) (a % 4) (b % 4)

/-- All routes of R17. -/
def resetRoutes : KV (List Nat) :=
  (List.range 64).map fun k => (k, resetRoute (k / 8) (k % 8))

/-- The machine after a cold start (R386): memory and tags zero, cores empty, queues, contexts and tables disabled, the
reset-state routes written; every register at the value its field table gives, or at the one named in log 3, 4 and 6. -/
def State.reset : State :=
  { pkg := { routesA := resetRoutes, routesB := resetRoutes } }

end Sys2Proof.Machine
end

