-- ==== Sys2Proof/Machine/Kv.lean ====
section
/-! DEFINITION. Operations on tables of key and value: the one form in which the model holds memory, registers and the
records of its units. Every operation keeps the keys in rising order. -/

namespace Sys2Proof

/-- The value of a key, if the table lists it. -/
def KV.find {α : Type} : KV α → Nat → Option α
  | [], _ => none
  | (k, v) :: t, x => if x = k then some v else KV.find t x

/-- The table with a key bound to a value. -/
def KV.insert {α : Type} : KV α → Nat → α → KV α
  | [], x, w => [(x, w)]
  | (k, v) :: t, x, w =>
    if x < k then (x, w) :: (k, v) :: t
    else if x = k then (x, w) :: t
    else (k, v) :: KV.insert t x w

/-- The table without a key. -/
def KV.erase {α : Type} : KV α → Nat → KV α
  | [], _ => []
  | (k, v) :: t, x => if x = k then KV.erase t x else (k, v) :: KV.erase t x

/-- The value of a key; an unlisted key reads as `d`. -/
def KV.get {α : Type} (d : α) (m : KV α) (k : Nat) : α := (m.find k).getD d

/-- Writing `d` removes the entry, so that equal contents are equal tables. -/
def KV.put {α : Type} [DecidableEq α] (d : α) (m : KV α) (k : Nat) (v : α) : KV α :=
  if v = d then m.erase k else m.insert k v

/-- Change the value of a listed key. -/
def KV.modify {α : Type} : KV α → Nat → (α → α) → KV α
  | [], _, _ => []
  | (k, v) :: t, x, f => if x = k then (k, f v) :: t else (k, v) :: KV.modify t x f

/-- Change every value. -/
def KV.map {α β : Type} (f : Nat → α → β) (m : KV α) : KV β := List.map (fun e => (e.1, f e.1 e.2)) m

/-- The least key not listed below a bound. -/
def KV.freshBelow {α : Type} (m : KV α) (n : Nat) : Option Nat := (List.range n).find? fun k => (m.find k).isNone

/-- Keys in strictly rising order. -/
def KV.wf {α : Type} : KV α → Bool
  | [] => true
  | [_] => true
  | (a, _) :: (b, w) :: t => decide (a < b) && KV.wf ((b, w) :: t)

namespace Machine

/-- The canonical form of memory: addresses strictly rising and no entry equal to what an unlisted address reads as. -/
def Memory.wf (m : Memory) : Bool := KV.wf m && m.all fun e => e.2 != 0

/-- One byte of memory; an unlisted byte reads 0 (R227, R87). -/
def Memory.read (m : Memory) (a : Nat) : Byte := KV.get 0 m a

/-- Memory with one byte written. -/
def Memory.write (m : Memory) (a : Nat) (b : Byte) : Memory := KV.put 0 m a b

/-- Bytes at consecutive addresses, the lowest first. -/
def Memory.readN (m : Memory) (a n : Nat) : List Byte := (List.range n).map fun i => Memory.read m (a + i)

/-- Memory with bytes written at consecutive addresses. -/
def Memory.writeN (m : Memory) (a : Nat) : List Byte → Memory
  | [] => m
  | b :: bs => Memory.writeN (Memory.write m a b) (a + 1) bs

/-- Memory with the bytes of a range read as 0. -/
def Memory.clear (m : Memory) (a n : Nat) : Memory := List.filter (fun e => decide (e.1 < a ∨ a + n ≤ e.1)) m

/-- A little-endian number from bytes (R2). -/
def bytesToNat : List Byte → Nat
  | [] => 0
  | b :: bs => b.toNat + 256 * bytesToNat bs

/-- The low `n` bytes of a number, little-endian (R2). -/
def natToBytes : Nat → Nat → List Byte
  | 0, _ => []
  | n + 1, v => BitVec.ofNat 8 v :: natToBytes n (v / 256)

end Machine
end Sys2Proof
end

