-- ==== Sys2Proof/Machine/Num.lean ====
section
/-! DEFINITION. Numbers (R9–R12, R29–R35, R38): element formats, the exact values they denote, the one rounding into a
format, conversions between formats. Exact values are integers times powers of two; nothing is rounded before `round`. -/

namespace Sys2Proof.Machine

/-- Flags of FPSTAT[5:0] (R44). -/
def fNV : Flags := 1
def fDZ : Flags := 2
def fOF : Flags := 4
def fUF : Flags := 8
def fNX : Flags := 16
def fMNV : Flags := 32

/-- Rounding modes in the code of MOD.RM (R9, R138). -/
inductive RMode where
  | rne | rtz | rpi | rni
deriving DecidableEq, Repr

/-- The mode that a MOD.RM code names (R138). -/
def RMode.ofCode (c : Nat) : RMode :=
  match c with
  | 0 => .rne
  | 1 => .rtz
  | 2 => .rpi
  | _ => .rni

/-- The floating-point formats of R30. -/
inductive FF where
  | fp64 | fp32 | fp16 | bf16 | e4m3 | e5m2
deriving DecidableEq, Repr

/-- Width of the exponent field (R30). -/
def FF.ebits : FF → Nat
  | .fp64 => 11
  | .fp32 => 8
  | .fp16 => 5
  | .bf16 => 8
  | .e4m3 => 4
  | .e5m2 => 5

/-- Width of the fraction field (R30). -/
def FF.fbits : FF → Nat
  | .fp64 => 52
  | .fp32 => 23
  | .fp16 => 10
  | .bf16 => 7
  | .e4m3 => 3
  | .e5m2 => 2

/-- Bits of the format (R29). -/
def FF.width (f : FF) : Nat := 1 + f.ebits + f.fbits

/-- Exponent bias (R30). -/
def FF.bias (f : FF) : Nat := 2 ^ (f.ebits - 1) - 1

/-- Bit pattern of the largest finite magnitude (R30). -/
def FF.maxBits (f : FF) : Nat :=
  match f with
  | .e4m3 => 0x7E
  | _ => (2 ^ f.ebits - 1) * 2 ^ f.fbits - 1

/-- Bit pattern of +∞; E4M3 has none, and its overflow value is its NaN (R34). -/
def FF.infBits (f : FF) : Nat :=
  match f with
  | .e4m3 => 0x7F
  | _ => (2 ^ f.ebits - 1) * 2 ^ f.fbits

/-- Bit pattern of the canonical NaN (R30). -/
def FF.nanBits (f : FF) : Nat :=
  match f with
  | .e4m3 => 0x7F
  | _ => (2 ^ f.ebits - 1) * 2 ^ f.fbits + 2 ^ (f.fbits - 1)

/-- Bit pattern of the sign. -/
def FF.signBit (f : FF) : Nat := 2 ^ (f.width - 1)

/-- What a bit pattern denotes (R31): NaN, an infinity, or ±n × 2^e. -/
inductive FV where
  | nan
  | inf (neg : Bool)
  | fin (neg : Bool) (n : Nat) (e : Int)
deriving DecidableEq, Repr

/-- The value of a bit pattern (R31). -/
def FF.decode (f : FF) (bits : Nat) : FV :=
  let neg := bits.testBit (f.width - 1)
  let ex := (bits / 2 ^ f.fbits) % 2 ^ f.ebits
  let fr := bits % 2 ^ f.fbits
  if bits % f.signBit > f.maxBits then
    if f ≠ .e4m3 ∧ fr = 0 then .inf neg else .nan
  else if ex = 0 then .fin neg fr (1 - f.bias - f.fbits)
  else .fin neg (2 ^ f.fbits + fr) (ex - f.bias - f.fbits)

/-- A bit pattern with the sign of a result. -/
def FF.withSign (f : FF) (neg : Bool) (mag : Nat) : Nat := if neg then f.signBit + mag else mag

/-- Whether a pattern is a NaN. -/
def FF.isNan (f : FF) (bits : Nat) : Bool := f.decode bits == .nan

/-- A rounded result: its bits and the flags it raises. -/
structure Rnd where
  bits : Nat
  flags : Flags
deriving DecidableEq, Repr

/-- n × 2^e, to the nearest integer multiple of 2^q by a mode; `sticky` says that a further part below 2^e is not zero. -/
def roundTo (mode : RMode) (neg : Bool) (n : Nat) (e q : Int) (sticky : Bool) : Nat × Bool :=
  if q ≤ e then (n * 2 ^ (e - q).toNat, sticky)
  else
    let sh := (q - e).toNat
    let r := n / 2 ^ sh
    let rem := n % 2 ^ sh
    let half := 2 ^ (sh - 1)
    let inexact := sticky || rem != 0
    let up := match mode with
      | .rne => rem > half || (rem == half && (sticky || r % 2 == 1))
      | .rtz => false
      | .rpi => inexact && !neg
      | .rni => inexact && neg
    (if up then r + 1 else r, inexact)

/-- The overflow value of R34. -/
def FF.overflow (f : FF) (mode : RMode) (neg : Bool) : Nat :=
  let toMax := match mode with
    | .rne => false
    | .rtz => true
    | .rpi => neg
    | .rni => !neg
  f.withSign neg (if toMax then f.maxBits else f.infBits)

/-- The exponent of the unit in the last place at a magnitude n × 2^e, n ≠ 0 (R30). -/
def FF.quantum (f : FF) (n : Nat) (e : Int) : Int :=
  max (e + Nat.log2 n - f.fbits) (1 - f.bias - f.fbits)

/-- RND of R9 for a finite value ±(n × 2^e + a part below 2^e when `sticky`), with R34 and R35. -/
def FF.roundFin (f : FF) (mode : RMode) (neg : Bool) (n : Nat) (e : Int) (sticky : Bool := false) : Rnd :=
  if n = 0 then ⟨f.withSign neg 0, 0⟩
  else
    let q := f.quantum n e
    let (r, inexact) := roundTo mode neg n e q sticky
    let bits := (q + f.fbits + f.bias - 1).toNat * 2 ^ f.fbits + r
    if bits > f.maxBits then ⟨f.overflow mode neg, fOF ||| fNX⟩
    else
      -- tininess is judged after rounding with an unbounded exponent range (R35)
      let q' := e + Nat.log2 n - f.fbits
      let (r', _) := roundTo mode neg n e q' sticky
      let tiny := decide (e + Nat.log2 n < 1 - f.bias) &&
        !(decide (e + Nat.log2 n = -(f.bias : Int)) && r' == 2 ^ (f.fbits + 1))
      ⟨f.withSign neg bits, (if inexact then fNX else 0) ||| (if tiny && inexact then fUF else 0)⟩

/-- RND of R9 for any value; an infinity into E4M3 takes R34's overflow value, with NV when that is the NaN (R38). -/
def FF.round (f : FF) (mode : RMode) : FV → Rnd
  | .nan => ⟨f.nanBits, 0⟩
  | .inf neg =>
    match f with
    | .e4m3 =>
      let b := f.overflow mode neg
      ⟨b, if b % f.signBit = f.infBits then fNV else 0⟩
    | _ => ⟨f.withSign neg f.infBits, 0⟩
  | .fin neg n e => f.roundFin mode neg n e

/-! ### Exact arithmetic -/

/-- The signed integer of a finite value at a common exponent. -/
def toScale (neg : Bool) (n : Nat) (e q : Int) : Int :=
  let m : Int := (n * 2 ^ (e - q).toNat : Nat)
  if neg then -m else m

/-- A finite value from an integer at an exponent; `zneg` is the sign that an exact zero takes. -/
def ofScale (i q : Int) (zneg : Bool) : FV :=
  if i = 0 then .fin zneg 0 q else .fin (i < 0) i.natAbs q

/-- Sum with the sign of an exact zero by R33; the flag is NV for infinities of opposite signs. -/
def FV.add (mode : RMode) : FV → FV → FV × Flags
  | .nan, _ => (.nan, 0)
  | _, .nan => (.nan, 0)
  | .inf s, .inf t => if s = t then (.inf s, 0) else (.nan, fNV)
  | .inf s, .fin .. => (.inf s, 0)
  | .fin .., .inf t => (.inf t, 0)
  | .fin s n e, .fin t m d =>
    let q := min e d
    let zneg := if n = 0 ∧ m = 0 ∧ s = t then s else mode == .rni
    (ofScale (toScale s n e q + toScale t m d q) q zneg, 0)

/-- Product; NV for ∞ × 0. The sign of a zero product is the exclusive or of the factors', an integer 0 being positive (log 72). -/
def FV.mul : FV → FV → FV × Flags
  | .nan, _ => (.nan, 0)
  | _, .nan => (.nan, 0)
  | .inf s, .inf t => (.inf (s != t), 0)
  | .inf s, .fin t m _ => if m = 0 then (.nan, fNV) else (.inf (s != t), 0)
  | .fin s n _, .inf t => if n = 0 then (.nan, fNV) else (.inf (s != t), 0)
  | .fin s n e, .fin t m d => (.fin (s != t) (n * m) (e + d), 0)

/-- NEG and ABS of R12 on values. -/
def FV.neg : FV → FV
  | .nan => .nan
  | .inf s => .inf (!s)
  | .fin s n e => .fin (!s) n e

/-- Order of two values that are not NaN; zeros are equal. -/
def FV.lt : FV → FV → Bool
  | .nan, _ => false
  | _, .nan => false
  | .inf s, .inf t => s && !t
  | .inf s, .fin .. => s
  | .fin .., .inf t => !t
  | .fin s n e, .fin t m d =>
    let q := min e d
    decide (toScale s n e q < toScale t m d q)

/-- Equality of two values that are not NaN; zeros are equal. -/
def FV.eqv : FV → FV → Bool
  | .nan, _ => false
  | _, .nan => false
  | .inf s, .inf t => s == t
  | .inf _, .fin .. => false
  | .fin .., .inf _ => false
  | .fin s n e, .fin t m d =>
    let q := min e d
    decide (toScale s n e q = toScale t m d q)

/-- Whether a value is a NaN. -/
def FV.isNan : FV → Bool
  | .nan => true
  | _ => false

/-- v × 2^k. -/
def FV.scale (k : Int) : FV → FV
  | .fin s n e => .fin s n (e + k)
  | v => v

/-- The exact value of an integer. -/
def FV.ofInt (i : Int) : FV := .fin (i < 0) i.natAbs 0

/-- Product rounded once. -/
def FF.mul (f : FF) (mode : RMode) (a b : FV) : Rnd :=
  let (p, fl) := a.mul b
  let r := f.round mode p
  ⟨r.bits, r.flags ||| fl⟩

/-- Sum rounded once. -/
def FF.add (f : FF) (mode : RMode) (a b : FV) : Rnd :=
  let (p, fl) := a.add mode b
  let r := f.round mode p
  ⟨r.bits, r.flags ||| fl⟩

/-- a × b + c rounded once; a NaN operand does not hide the NV of ∞ × 0 or of ∞ − ∞ among the rest (R32). -/
def FF.fma (f : FF) (mode : RMode) (a b c : FV) : Rnd :=
  let (p, fl) := a.mul b
  let (s, fl') := p.add mode c
  let r := f.round mode s
  ⟨r.bits, r.flags ||| fl ||| fl'⟩

/-- Floor of the square root, digit by digit. -/
def isqrtAux : Nat → Nat → Nat → Nat
  | 0, _, r => r
  | k + 1, n, r => isqrtAux k n (if (r + 2 ^ k) * (r + 2 ^ k) ≤ n then r + 2 ^ k else r)

/-- Floor of the square root. -/
def isqrt (n : Nat) : Nat := isqrtAux (Nat.log2 n / 2 + 1) n 0

/-- Quotient rounded once (R190): DZ for a finite non-zero over zero, NV for 0/0 and ∞/∞. -/
def FF.div (f : FF) (mode : RMode) : FV → FV → Rnd
  | .nan, _ => ⟨f.nanBits, 0⟩
  | _, .nan => ⟨f.nanBits, 0⟩
  | .inf _, .inf _ => ⟨f.nanBits, fNV⟩
  | .inf s, .fin t _ _ => f.round mode (.inf (s != t))
  | .fin s _ _, .inf t => ⟨f.withSign (s != t) 0, 0⟩
  | .fin s n e, .fin t m d =>
    if m = 0 then
      if n = 0 then ⟨f.nanBits, fNV⟩
      else
        let r := f.round mode (.inf (s != t))
        ⟨r.bits, r.flags ||| fDZ⟩
    else
      let k := Nat.log2 m + f.fbits + 4
      let num := n * 2 ^ k
      f.roundFin mode (s != t) (num / m) (e - d - k) (num % m != 0)

/-- Square root rounded once (R190): NV for x < 0; √(±0) = ±0. -/
def FF.sqrt (f : FF) (mode : RMode) : FV → Rnd
  | .nan => ⟨f.nanBits, 0⟩
  | .inf s => if s then ⟨f.nanBits, fNV⟩ else ⟨f.infBits, 0⟩
  | .fin s n e =>
    if n = 0 then ⟨f.withSign s 0, 0⟩
    else if s then ⟨f.nanBits, fNV⟩
    else
      let odd := e % 2 != 0
      let n' := if odd then 2 * n else n
      let e' := if odd then e - 1 else e
      let k := f.fbits + 4
      let big := n' * 2 ^ (2 * k)
      let r := isqrt big
      f.roundFin mode false r (e' / 2 - k) (r * r != big)

/-- A finite value rounded to an integer by a mode, and whether it was inexact. -/
def roundInt (mode : RMode) (neg : Bool) (n : Nat) (e : Int) : Int × Bool :=
  let (r, inexact) := roundTo mode neg n e 0 false
  (if neg then -(r : Int) else r, inexact)

/-! ### Element formats and conversions -/

/-- Element formats by their STE.FMT code (R58): 0 FP64 … 9 CBF16, 10 INT16 … 13 INT64, 14 CFP32. -/
def ffOf (code : Nat) : Option FF :=
  match code with
  | 0 => some .fp64
  | 1 => some .fp32
  | 2 => some .bf16
  | 3 => some .fp16
  | 4 => some .e4m3
  | 5 => some .e5m2
  | _ => none

/-- Width and signedness of the integer formats (R29, R58). -/
def intOf (code : Nat) : Option (Nat × Bool) :=
  match code with
  | 7 => some (8, true)
  | 8 => some (8, false)
  | 10 => some (16, true)
  | 11 => some (32, true)
  | 12 => some (32, false)
  | 13 => some (64, true)
  | _ => none

/-- The real format of one part of a complex format (R29). -/
def partOf (code : Nat) : Nat := if code = 9 then 2 else if code = 14 then 1 else code

/-- Whether a format is complex (R29). -/
def isComplex (code : Nat) : Bool := code == 9 || code == 14

/-- Bits of one element of a format (R29). -/
def fmtBits (code : Nat) : Nat :=
  match code with
  | 0 => 64
  | 1 => 32
  | 2 => 16
  | 3 => 16
  | 4 => 8
  | 5 => 8
  | 6 => 4
  | 7 => 8
  | 8 => 8
  | 9 => 32
  | 10 => 16
  | 11 => 32
  | 12 => 32
  | 13 => 64
  | _ => 64

/-- SEXT or ZEXT of R12. -/
def intVal (w : Nat) (signed : Bool) (bits : Nat) : Int :=
  let b := bits % 2 ^ w
  if signed && b.testBit (w - 1) then (b : Int) - 2 ^ w else b

/-- MIN(T) and MAX(T) of R12. -/
def intMin (w : Nat) (signed : Bool) : Int := if signed then -(2 ^ (w - 1)) else 0
def intMax (w : Nat) (signed : Bool) : Int := if signed then 2 ^ (w - 1) - 1 else 2 ^ w - 1

/-- WRAP of R11, as bits. -/
def wrapBits (w : Nat) (i : Int) : Nat := (i % 2 ^ w).toNat

/-- SAT of R10 for integers. -/
def satInt (w : Nat) (signed : Bool) (i : Int) : Int := max (intMin w signed) (min (intMax w signed) i)

/-- A converted value: its bits, its flags, whether R47 counts it. -/
structure Conv where
  bits : Nat
  flags : Flags
  beyond : Bool
deriving DecidableEq, Repr

/-- Float to float of R38. An overflow or an infinite source under SAT gives MAXF. -/
def convFF (dst : FF) (mode : RMode) (sat : Bool) (v : FV) : Conv :=
  match v with
  | .nan => ⟨dst.nanBits, 0, false⟩
  | .inf s =>
    if sat then ⟨dst.withSign s dst.maxBits, 0, true⟩
    else
      let r := dst.round mode v
      ⟨r.bits, r.flags, dst == .e4m3⟩
  | .fin s n e =>
    let r := dst.roundFin mode s n e
    if r.flags &&& fOF != 0 then
      if sat then ⟨dst.withSign s dst.maxBits, fOF ||| fNX, true⟩
      else ⟨r.bits, r.flags, r.bits % dst.signBit == dst.infBits⟩
    else ⟨r.bits, r.flags, false⟩

/-- Float to integer of R38. -/
def convFI (w : Nat) (signed : Bool) (mode : RMode) (sat : Bool) (v : FV) : Conv :=
  match v with
  | .nan => ⟨0, fNV, false⟩
  | .inf s => if sat then ⟨wrapBits w (if s then intMin w signed else intMax w signed), fNV, true⟩ else ⟨0, fNV, true⟩
  | .fin s n e =>
    let (t, inexact) := roundInt mode s n e
    let out := decide (t < intMin w signed) || decide (intMax w signed < t)
    ⟨wrapBits w (if sat then satInt w signed t else t), (if out then fNV else 0) ||| (if inexact then fNX else 0), out⟩

/-- Integer to integer of R38. -/
def convII (w : Nat) (signed : Bool) (sat : Bool) (i : Int) : Conv :=
  let out := decide (i < intMin w signed) || decide (intMax w signed < i)
  ⟨wrapBits w (if sat then satInt w signed i else i), 0, out⟩

/-- A real element read in a format (R31, R37): a floating-point value or an integer. -/
inductive RV where
  | fl (v : FV)
  | int (i : Int)
deriving DecidableEq, Repr

/-- The exact value of an element's bits; CB4 is read through its codebook, not here. -/
def readElem (code : Nat) (bits : Nat) : RV :=
  match ffOf code with
  | some f => .fl (f.decode (bits % 2 ^ f.width))
  | none =>
    match intOf code with
    | some (w, sg) => .int (intVal w sg bits)
    | none => .int bits

/-- The value as a real number. -/
def RV.toFV : RV → FV
  | .fl v => v
  | .int i => .ofInt i

/-- Conversion of an exact value into a real format by R38; `same` widening of a float is exact in any case. -/
def convTo (code : Nat) (mode : RMode) (sat : Bool) (v : RV) : Conv :=
  match ffOf code with
  | some f => convFF f mode sat v.toFV
  | none =>
    match intOf code, v with
    | some (w, sg), .fl x => convFI w sg mode sat x
    | some (w, sg), .int i => convII w sg sat i
    | none, _ => ⟨0, 0, false⟩

/-- Exact sum of a list of products and the accumulator as R42 treats it: the value and NV. -/
structure SumAcc where
  /-- Exact finite part: integer × 2^e. -/
  i : Int
  e : Int
  nan : Bool
  nv : Bool
  pinf : Bool
  ninf : Bool
  /-- Every term so far is a zero of negative sign. -/
  allNeg : Bool
deriving DecidableEq, Repr

/-- The empty sum. -/
def SumAcc.empty : SumAcc := ⟨0, 0, false, false, false, false, true⟩

/-- Add a finite value. -/
def SumAcc.addFin (a : SumAcc) (s : Bool) (n : Nat) (e : Int) : SumAcc :=
  if n = 0 then { a with allNeg := a.allNeg && s }
  else
    let q := min a.e e
    { a with i := toScale (a.i < 0) a.i.natAbs a.e q + toScale s n e q, e := q, allNeg := false }

/-- Add one term: a NaN makes the sum NaN, infinities of opposite signs raise NV (R42). -/
def SumAcc.addTerm (a : SumAcc) : FV → SumAcc
  | .nan => { a with nan := true, allNeg := false }
  | .inf s => if s then { a with ninf := true, allNeg := false } else { a with pinf := true, allNeg := false }
  | .fin s n e => a.addFin s n e

/-- Add the product of a list of factors; a term without a NaN that holds both an infinity and a zero raises NV (R42). -/
def SumAcc.addProd (a : SumAcc) (fs : List FV) : SumAcc :=
  if fs.any FV.isNan then { a with nan := true, allNeg := false }
  else
    let p := fs.foldl (fun (acc : FV × Flags) v => let r := acc.1.mul v; (r.1, acc.2 ||| r.2)) (.fin false 1 0, 0)
    let hasInf := fs.any fun v => match v with
      | .inf _ => true
      | _ => false
    let hasZero := fs.any fun v => match v with
      | .fin _ 0 _ => true
      | _ => false
    if hasInf && hasZero then { a with nan := true, nv := true, allNeg := false } else a.addTerm p.1

/-- The sum rounded once into a format by a mode (R42, R202), with NV. -/
def SumAcc.total (a : SumAcc) (f : FF) (mode : RMode) : Rnd :=
  let nv := a.nv || (a.pinf && a.ninf)
  if a.nan || nv then ⟨f.nanBits, if nv then fNV else 0⟩
  else if a.pinf then ⟨f.infBits, 0⟩
  else if a.ninf then ⟨f.withSign true f.infBits, 0⟩
  else f.round mode (ofScale a.i a.e a.allNeg)

/-- The sum of a matrix step: RNE, with MNV when the result is a NaN (R42, R45). -/
def SumAcc.finish (a : SumAcc) (f : FF) : Rnd :=
  let r := a.total f .rne
  if f.isNan r.bits then ⟨r.bits, r.flags ||| fMNV⟩ else r

end Sys2Proof.Machine
end

