-- ==== Sys2Proof/Machine/Ops.lean ====
section
/-! DEFINITION. The named operations that every meaning is built from: the units of the package, the registers of a group,
its masks and flags, its operations in flight, taking a trap and returning from one, and moving past an instruction. -/

namespace Sys2Proof.Machine

/-- What a step answers. -/
abbrev Out := Host.Outcome State Fault Refusal

/-! ### Units -/

def State.core (s : State) (n : Nat) : Core := KV.get {} s.cores n
def State.setCore (s : State) (n : Nat) (c : Core) : State := { s with cores := s.cores.insert n c }
def State.modCore (s : State) (n : Nat) (f : Core → Core) : State := s.setCore n (f (s.core n))
def State.die (s : State) (n : Nat) : Die := KV.get {} s.dies n
def State.modDie (s : State) (n : Nat) (f : Die → Die) : State := { s with dies := s.dies.insert n (f (s.die n)) }
def State.ctx (s : State) (n : Nat) : Context := KV.get {} s.ctxs n
def State.modCtx (s : State) (n : Nat) (f : Context → Context) : State := { s with ctxs := s.ctxs.insert n (f (s.ctx n)) }
def State.vf (s : State) (n : Nat) : VF := KV.get {} s.vfs n
def State.modVf (s : State) (n : Nat) (f : VF → VF) : State := { s with vfs := s.vfs.insert n (f (s.vf n)) }
def State.queue (s : State) (n : Nat) : Queue := KV.get {} s.queues n
def State.modQueue (s : State) (n : Nat) (f : Queue → Queue) : State :=
  { s with queues := s.queues.insert n (f (s.queue n)) }
def State.cp (s : State) (n : Nat) : CmdProc := KV.get {} s.cps n
def State.modCp (s : State) (n : Nat) (f : CmdProc → CmdProc) : State := { s with cps := s.cps.insert n (f (s.cp n)) }
def State.table (s : State) (n : Nat) : ExpTable := KV.get {} s.tables n
def State.modTable (s : State) (n : Nat) (f : ExpTable → ExpTable) : State :=
  { s with tables := s.tables.insert n (f (s.table n)) }

/-- The program of a queue context that no write of EN has started yet (R66): its PC and every register 0 (log 4). -/
def idleProgram (q : Nat) : Group :=
  { kind := .queue, ctx := 0, blk := q, num := 0, width := 1, live := 1, splits := [(0, { pc := 0, mask := 1, jrec := none })] }
/-- A group, or the program of a queue context. -/
def State.group (s : State) (n : Nat) : Option Group :=
  (s.groups.find n).or (if n < 128 then some (idleProgram n) else none)
def State.setGroup (s : State) (n : Nat) (g : Group) : State := { s with groups := s.groups.insert n g }
def State.modGroup (s : State) (n : Nat) (f : Group → Group) : State :=
  { s with groups := match s.group n with
      | some g => s.groups.insert n (f g)
      | none => s.groups }
def State.block (s : State) (n : Nat) : Option Block := s.blocks.find n
def State.modBlock (s : State) (n : Nat) (f : Block → Block) : State := { s with blocks := s.blocks.modify n f }
def State.launch (s : State) (n : Nat) : Option Launch := s.launches.find n
def State.modLaunch (s : State) (n : Nat) (f : Launch → Launch) : State := { s with launches := s.launches.modify n f }
def State.draw (s : State) (n : Nat) : Option Draw := s.draws.find n
def State.modDraw (s : State) (n : Nat) (f : Draw → Draw) : State := { s with draws := s.draws.modify n f }
def State.cluster (s : State) (n : Nat) : Option Cluster := s.clusters.find n
def State.modCluster (s : State) (n : Nat) (f : Cluster → Cluster) : State :=
  { s with clusters := s.clusters.modify n f }
def State.modPkg (s : State) (f : Package → Package) : State := { s with pkg := f s.pkg }

/-- Change one split of a group. -/
def State.modSplit (s : State) (gid sid : Nat) (f : Split → Split) : State :=
  s.modGroup gid fun g => { g with splits := g.splits.modify sid f }

/-- One entry in the event log of the management controller. -/
def State.log (s : State) (k : EventKind) (a b : Nat) : State :=
  s.modPkg fun p => { p with events := p.events ++ [⟨k, a, b⟩] }

/-- A fresh identifier: `s.nextId`, and the state that has used it. -/
def State.fresh (s : State) : Nat × State := (s.nextId, { s with nextId := s.nextId + 1 })

/-- The count that the next free value is applied to, and the state that has used it. -/
def State.free (s : State) : Nat × State := (s.freeCount, { s with freeCount := s.freeCount + 1 })

/-- Shader die of a core (R15). -/
def dieOf (core : Nat) : Nat := core / 40

/-- Add to the performance counters of a core that count an event (R373). -/
def Core.countBy (c : Core) (ev n : Nat) : Core :=
  let add (i : Nat) (v : Dword) : Dword :=
    if (c.perfsel.extractLsb' (8 * i) 8).toNat = ev then v + BitVec.ofNat 64 n else v
  { c with perfcnt0 := add 0 c.perfcnt0, perfcnt1 := add 1 c.perfcnt1, perfcnt2 := add 2 c.perfcnt2, perfcnt3 := add 3 c.perfcnt3 }

/-- Count one event. -/
def Core.count (c : Core) (ev : Nat) : Core := c.countBy ev 1

/-- Count an event of R373 on a core (1 issues, …, 9 scale-cache misses). -/
def State.count (s : State) (core ev : Nat) : State := s.modCore core fun c => c.count ev

/-! ### Lanes and masks -/

/-- Lanes 0 to W − 1. -/
def widthMask (w : Nat) : Lanes := BitVec.ofNat 64 (2 ^ w - 1)

/-- active(m) of R8, in ascending order. -/
def laneList (m : Lanes) (w : Nat) : List Nat := (List.range w).filter fun l => m.getLsbD l

/-- A mask with one lane. -/
def oneLane (l : Nat) : Lanes := BitVec.ofNat 64 (2 ^ l)

/-- A mask with the lanes of a list. -/
def maskOf (ls : List Nat) : Lanes := ls.foldl (fun m l => m ||| oneLane l) 0

/-- The lowest lane of a mask (0 of the empty one). -/
def lowLane (m : Lanes) : Nat := (laneList m 64).headD 0

/-! ### Registers of a group -/

def Group.readV (g : Group) (n l : Nat) : Word := KV.get 0 g.v (64 * n + l)
def Group.writeV (g : Group) (n l : Nat) (x : Word) : Group := { g with v := KV.put 0 g.v (64 * n + l) x }
def Group.readS (g : Group) (n : Nat) : Word := KV.get 0 g.sr n
def Group.writeS (g : Group) (n : Nat) (x : Word) : Group := { g with sr := KV.put 0 g.sr n x }
def Group.readF (g : Group) (n : Nat) : Dword := KV.get 0 g.f n
def Group.writeF (g : Group) (n : Nat) (x : Dword) : Group := { g with f := KV.put 0 g.f n x }
/-- m1–m15; bits at or above W read 0 and ignore writes (R8). -/
def Group.readM (g : Group) (n : Nat) : Lanes := KV.get 0 g.m n
def Group.writeM (g : Group) (n : Nat) (x : Lanes) : Group := { g with m := KV.put 0 g.m n (x &&& widthMask g.width) }

/-- A value in the 64-bit pair of v registers from an even one (R37). -/
def Group.readV64 (g : Group) (n l : Nat) : Dword := g.readV (n + 1) l ++ g.readV n l
def Group.writeV64 (g : Group) (n l : Nat) (x : Dword) : Group :=
  (g.writeV n l (x.extractLsb' 0 32)).writeV (n + 1) l (x.extractLsb' 32 32)
def Group.readS64 (g : Group) (n : Nat) : Dword := g.readS (n + 1) ++ g.readS n
def Group.writeS64 (g : Group) (n : Nat) (x : Dword) : Group :=
  (g.writeS n (x.extractLsb' 0 32)).writeS (n + 1) (x.extractLsb' 32 32)

/-- Write one owed value; a vector register that the group has given back meanwhile no longer exists (R175). -/
def Group.writeReg (g : Group) (w : RegWrite) : Group :=
  if w.scalar then g.writeS w.reg w.val else if w.reg < 8 * g.rblk then g.writeV w.reg w.lane w.val else g

/-- Write all owed values, in order. -/
def Group.writeRegs (g : Group) (ws : List RegWrite) : Group := ws.foldl Group.writeReg g

/-- Whether the group is a queue program (R66). -/
def Group.isQueue (g : Group) : Bool := g.kind == .queue

/-! ### Who issues -/

/-- The split that executes an instruction, as it stood when the instruction issued: the lanes it is executed for are m0,
or those still due (R339, R347). -/
structure Ex where
  gid : Nat
  sid : Nat
  g : Group
  sp : Split
  lanes : Lanes

/-- Active lanes, ascending (R8). -/
def Ex.list (x : Ex) : List Nat := laneList x.lanes x.g.width

/-- m0–m15 as the split reads them: m0 is its mask, also where the instruction is executed for some of its lanes (R164, R197,
R339). -/
def Ex.readM (x : Ex) (n : Nat) : Lanes := if n = 0 then x.sp.mask else x.g.readM n

/-- The executing split of a state. -/
def State.ex? (s : State) : Option Ex :=
  match s.issuer with
  | none => none
  | some (gid, sid) =>
    match s.group gid with
    | none => none
    | some g =>
      match g.splits.find sid with
      | none => none
      | some sp => some ⟨gid, sid, g, sp, sp.due.getD sp.mask⟩

/-- Execute for the issuing split; without one no agent issues. -/
def State.withEx (s : State) (k : Ex → State) : Out :=
  match s.ex? with
  | some x => .next (k x)
  | none => .fault .noIssuer

/-- The launch of a group's block, if the group belongs to a block. -/
def State.launchOf (s : State) (g : Group) : Option Launch :=
  if g.isQueue then none
  else
    match s.block g.blk with
    | some b => s.launch b.launch
    | none => none

/-- The launch record of a group's block. -/
def State.lrecOf (s : State) (g : Group) : Option LRec := (s.launchOf g).map (·.lrec)

/-- LAUNCH.RBMAX of a group. -/
def State.rbmaxOf (s : State) (g : Group) : Nat :=
  match s.lrecOf g with
  | some r => r.rbmax
  | none => 0

/-- Bytes of a group's local store: LAUNCH.LSBYTES of its block, or the 16 KiB of its queue (R66). -/
def State.lsBytesOf (s : State) (g : Group) : Nat :=
  if g.isQueue then 16384
  else
    match s.block g.blk with
    | some b => b.lsBytes
    | none => 0

/-- Whether the launch of a group asks for implicit drains (R336). -/
def State.drains (s : State) (g : Group) : Bool :=
  match s.lrecOf g with
  | some r => r.drain
  | none => false

/-- Whether a group runs a privileged copy job (R60, R367). -/
def State.privOf (s : State) (g : Group) : Bool :=
  match s.launchOf g with
  | some l => l.priv
  | none => false

/-! ### Operations in flight (R173) -/

/-- Remove the operations that have returned and are the oldest of their counter. -/
def retireFlights : List Flight → List Ctr → List Flight
  | [], _ => []
  | f :: t, blocked =>
    if f.done && !blocked.contains f.ctr then retireFlights t blocked
    else f :: retireFlights t (f.ctr :: blocked)

/-- The value of VL, VS, CE or AT. -/
def Group.counter (g : Group) (c : Ctr) : Nat := (g.flights.filter fun f => f.ctr == c).length

/-- Raise a counter by an operation. -/
def Group.addFlight (g : Group) (f : Flight) : Group := { g with flights := g.flights ++ [f] }

/-- Change one operation in flight. -/
def Group.modFlight (g : Group) (id : Nat) (f : Flight → Flight) : Group :=
  { g with flights := g.flights.map fun x => if x.id = id then f x else x }

/-- An operation returns: its values are written and its counter falls in issue order. -/
def Group.returnFlight (g : Group) (id : Nat) : Group :=
  match g.flights.find? fun x => x.id == id with
  | none => g
  | some x =>
    let g' := (g.writeRegs x.writes).modFlight id fun y => { y with writes := [], done := true }
    { g' with flights := retireFlights g'.flights [] }

/-- Return an operation of a group. -/
def State.returnFlight (s : State) (gid id : Nat) : State := s.modGroup gid fun g => g.returnFlight id

/-- Whether nothing of the group is counted (R146). -/
def Group.quiet (g : Group) : Bool := g.flights.isEmpty

/-! ### Fatal faults -/

/-- A fatal fault of which no group has issued an instruction yet. -/
def fatalOf (cause core fpc faddr : Nat) (gid : Option Nat) (skid : Nat) : Fatal :=
  { cause := cause, core := core, fpc := fpc, faddr := faddr, gid := gid, skid := skid }

/-- Further instructions of a group that a fatal fault allows: 64, none under DRAIN (R336, R355). -/
def State.skidOf (s : State) (g : Group) : Nat := if s.drains g then 0 else 64

/-- Record a fatal fault of a context; the first one stands (R355). -/
def State.setFatal (s : State) (ctx : Nat) (f : Fatal) : State :=
  s.modCtx ctx fun c => if c.fatal.isNone then { c with fatal := some f } else c

/-- A fatal fault met by an instruction of a group (R336, R355). -/
def State.fatalAt (s : State) (x : Ex) (cause faddr : Nat) : State :=
  s.setFatal x.g.ctx (fatalOf cause x.g.core x.sp.pc faddr (some x.gid) (s.skidOf x.g))

/-- QSTAT.FAULT for a cause of R333 met in a queue program (R73). -/
def queueFault (cause : Nat) : Nat :=
  match cause with
  | 0x01 => 1
  | 0x02 => 7
  | 0x03 => 8
  | 0x04 => 9
  | 0x05 => 2
  | 0x08 => 6
  | 0x10 => 3
  | 0x11 => 4
  | _ => 1

/-- A queue program stops (R67): the cause in QSTAT.FAULT, the PC in the event log. -/
def State.stopQueue (s : State) (q fault pc : Nat) : State :=
  let s := s.modQueue q fun k => { k with run := false, fault := fault, waits := [] }
  let s := s.modCp (q / 16) fun c => if c.current = some q then { c with current := none } else c
  let s := s.modGroup q fun g => { g with splits := g.splits.map fun _ sp =>
    { sp with park := .no, clause := none, tokens := [], due := none, openOp := none } }
  s.log .queueTrap q pc

/-! ### Taking a trap and returning from one (R334, R337, R338, R360) -/

/-- The trap record of a stop: CAUSE, SUB, RPC, PREC, FPC, SMASK, HPC, FADDR (R337). -/
structure TrapRec where
  cause : Nat
  sub : Nat
  rpc : Nat
  precise : Bool
  fpc : Nat
  smask : Lanes
  hpc : Nat
  faddr : Nat

/-- TREC0 of a record (R337). -/
def TrapRec.trec0 (t : TrapRec) : Dword :=
  BitVec.ofNat 8 t.cause ++ BitVec.ofNat 4 t.sub ++ (BitVec.ofNat 52 t.rpc).extractLsb' 2 50 ++
    (if t.precise then 1#1 else 0#1) ++ 0#1

/-- An address with bits [63:52] and [1:0] clear, as TREC1 and TREC3 hold it (R337). -/
def pcWord (a : Nat) : Dword := BitVec.ofNat 12 0 ++ (BitVec.ofNat 52 a).extractLsb' 2 50 ++ 0#2

/-- Whether a split's instruction has issued already and is to be replayed: its operation is counted, or tokens of it stand. A
pending notification waits for the next instruction (R335), and its own trap goes first (R347). -/
def Split.begun (sp : Split) : Bool := sp.openOp.isSome || sp.tokens != []

/-- Deliver a trap to the handler at TVEC: the record, LMASK, the handler split with the elected lane (R337, R338). While
another split runs the handler the stop stays due: the split keeps its instruction as it stands (R334, log 92). -/
def State.deliver (s : State) (gid sid : Nat) (t : TrapRec) (lmask : Lanes) : State :=
  match s.group gid with
  | none => s
  | some g =>
    let c := s.ctx g.ctx
    let tvec := (c.tvec &&& 0x000FFFFFFFFFFF80).toNat
    let undeliverable : State :=
      s.setFatal g.ctx (fatalOf 0x14 g.core t.fpc t.faddr (some gid) 0)
    match g.handler with
    | some h =>
      if h.sid = sid then undeliverable else s
    | none =>
      if tvec = 0 then undeliverable
      else
        let elected := lowLane lmask
        s.setGroup gid
          { (g.writeM 14 lmask) with
            trec0 := t.trec0
            trec1 := pcWord t.fpc
            trec2 := t.smask
            trec3 := pcWord t.hpc
            trec4 := BitVec.ofNat 64 (t.faddr % 2 ^ 52)
            handler := some ⟨sid, elected, true⟩
            splits := g.splits.modify sid fun sp =>
              { sp with pc := tvec, mask := oneLane elected, park := .no, clause := none, due := none, tokens := [],
                        openOp := none, resumeAt := none, inLoop := false } }

/-- A precise trap at the executing instruction (R334): in a queue program it stops the queue (R67). -/
def State.trap (s : State) (x : Ex) (cause : Nat) (lmask : Lanes) (faddr : Nat) : State :=
  if x.g.isQueue then s.stopQueue x.gid (queueFault cause) x.sp.pc
  else
    let hpc := match x.sp.clause with
      | some c => c.hdr
      | none => x.sp.pc
    s.deliver x.gid x.sid ⟨cause, 0, x.sp.pc, true, x.sp.pc, x.sp.mask, hpc, faddr⟩ lmask

/-- The precise illegal-instruction trap that refuses the whole instruction (R334). -/
def State.illegal (s : State) (x : Ex) : State := s.trap x 0x01 x.lanes 0

/-- The precise illegal-instruction trap of a scalar-path or once-issued instruction: the lowest lane of m0 (R334). -/
def State.illegalScalar (s : State) (x : Ex) : State := s.trap x 0x01 (oneLane (lowLane x.lanes)) 0

/-- The return from the handler (R339, R360): the split resumes with SMASK at RPC; the instruction there is executed for
the lanes of LMASK alone; the handler state is cleared. The boundary of RPC is checked when the split fetches (R339). -/
def State.tret (s : State) (gid sid : Nat) : State :=
  s.modGroup gid fun g =>
    let rpc := (g.trec0 &&& 0x000FFFFFFFFFFFFC).toNat
    let hpc := (g.trec3 &&& 0x000FFFFFFFFFFFFC).toNat
    { g with
      handler := none
      splits := g.splits.modify sid fun sp =>
        { sp with pc := rpc, mask := g.trec2 &&& widthMask g.width, park := .no, clause := none, due := some (g.readM 14), tokens := [],
                  openOp := none, resumeAt := some (rpc, hpc) } }

/-! ### Moving past an instruction -/

/-- The instructions that an implicit drain follows under LAUNCH.DRAIN (R336), by base word and extension word. -/
def notifies (w x : Word) : Bool :=
  let maj := wMaj w
  match classOf maj with
  | .mem => true
  | .sync => true
  | .mtx => true
  | .valu => (0x10 ≤ maj && maj ≤ 0x1C) || (maj == 0x22 && x.getLsbD 3) || (maj == 0x23 && wS w == 2)
  | .ctrl => (maj == 0x28 && (wS w == 0 || wS w == 1)) || (maj == 0x27 && wCs w == 0)

/-- The split goes on behind the instruction at its PC: to the next one of the clause, or past the clause's end to the next
header, parking where a drain stands there (R146, R336). -/
def Split.advance (sp : Split) (drainMode : Bool) : Split :=
  let sp := { sp with due := none, tokens := [], openOp := none, park := .no, awaitsEntry := false }
  match sp.clause with
  | none => { sp with pc := sp.pc + 4 }
  | some c =>
    let rest := c.words.drop c.pos
    let len := rawLen rest
    let imp := drainMode && notifies (rest.headD 0) ((rest.drop 1).headD 0)
    let pos := c.pos + len
    let next := c.hdr + 4 + 4 * pos
    if pos < c.words.length then
      { sp with pc := next, clause := if c.stale then none else some { c with pos := pos }, park := if imp then .drain else .no,
                resumeAt := if c.stale then some (next, c.hdr) else sp.resumeAt }
    else
      { sp with pc := c.hdr + 4 + 4 * c.words.length, clause := none, park := if imp || c.drain then .drain else .no }

/-- Move the executing split past its instruction. -/
def State.finish (s : State) (x : Ex) : State :=
  let d := s.drains x.g
  s.modSplit x.gid x.sid fun sp => sp.advance d

/-- Park the executing split at its instruction. -/
def State.park (s : State) (x : Ex) (p : Park) : State := s.modSplit x.gid x.sid fun sp => { sp with park := p }

/-- Whether the executing instruction is the last of its clause (R149). -/
def Ex.lastInClause (x : Ex) : Bool :=
  match x.sp.clause with
  | none => true
  | some c => c.words.length ≤ c.pos + rawLen (c.words.drop c.pos)

/-- The first header after the executing split's clause. -/
def Ex.nextHeader (x : Ex) : Nat :=
  match x.sp.clause with
  | none => x.sp.pc + 4
  | some c => c.hdr + 4 + 4 * c.words.length

/-- The executing split continues at a header. -/
def State.goto (s : State) (x : Ex) (pc : Nat) : State :=
  let d := s.drains x.g
  s.modSplit x.gid x.sid fun sp =>
    let sp' := sp.advance d
    { sp' with pc := pc, clause := none, resumeAt := none }

/-! ### Fields of register values -/

/-- A field of a register value: `v` placed at bit `lo`. -/
def fld (v lo : Nat) : Dword := BitVec.ofNat 64 (v * 2 ^ lo)
/-- One bit of a register value. -/
def bit (b : Bool) (lo : Nat) : Dword := if b then BitVec.ofNat 64 (2 ^ lo) else 0
/-- Bits [hi:lo] of a value, as a number. -/
def bits (v : Dword) (hi lo : Nat) : Nat := (v.extractLsb' lo (hi + 1 - lo)).toNat

end Sys2Proof.Machine
end

