-- ==== Sys2Proof/Machine/Flags.lean ====
section
/-! DEFINITION. FPSTAT: flags, the notifications they raise (R44–R46, R335), and the saturation counts of accumulator tiles
(R47). -/

namespace Sys2Proof.Machine

/-- The earlier producer's notification of two (R335). -/
def Notif.first (old new : Option Notif) : Option Notif :=
  match old, new with
  | some a, some b => if b.born < a.born then some b else some a
  | some a, none => some a
  | none, b => b

/-- OR flags into FPSTAT; a flag that goes from 0 to 1 under its enable, or MNV under NANTRAP, makes a notification pending,
the earliest producer by issue order standing (R44–R46, R335). `born` is the producer's place in that order, the instruction
just issued where none is given. -/
def State.addFlags (s : State) (gid pc : Nat) (fl : Flags) (born : Option Nat := none) : State :=
  s.modGroup gid fun g =>
    let old : Flags := g.fpstat.extractLsb' 0 6
    let rise := fl &&& ~~~old
    let en : Flags := (g.fpstat.extractLsb' 8 5).setWidth 6
    let byEnable := rise &&& en != 0
    let byNan := rise.getLsbD 5 && g.fpstat.getLsbD 13
    let at_ := born.getD g.icount
    let new : Option Notif := if byEnable then some ⟨pc, 1, at_⟩ else if byNan then some ⟨pc, 2, at_⟩ else none
    { g with fpstat := g.fpstat ||| fl.setWidth 32, notif := Notif.first g.notif new }

/-- The writable bits of FPSTAT under SWR: W1C on [5:0], RW on [12:8], NANTRAP and the reserved bits kept (R44). -/
def fpstatWrite (old new : Word) : Word :=
  (old &&& ~~~(new &&& 0x3F) &&& ~~~(0x1F00 : Word)) ||| (new &&& 0x1F00)

/-- SATCNT of a tile (R47). -/
def Core.satcntOf (c : Core) (quad tile : Nat) : BitVec 16 := KV.get 0 c.satcnt (8 * quad + tile)

/-- Raise SATCNT by a number of values, stopping at 0xFFFF (R47). -/
def Core.addSat (c : Core) (quad tile n : Nat) : Core :=
  { c with satcnt := KV.put 0 c.satcnt (8 * quad + tile) (BitVec.ofNat 16 (min 0xFFFF ((c.satcntOf quad tile).toNat + n))) }

/-- Set SATCNT of a tile to 0. -/
def Core.clearSat (c : Core) (quad tile : Nat) : Core := { c with satcnt := c.satcnt.erase (8 * quad + tile) }

end Sys2Proof.Machine
end

