-- ==== Sys2Proof/Machine/Operands.lean ====
section
/-! DEFINITION. Operands (R136, R139–R143): what a field names, its value in a lane, the checks it meets, and the two paths
on which an ALU instruction executes. -/

namespace Sys2Proof.Machine

/-- How wide an operand position is and how a literal fills it (R141). -/
inductive Kind where
  | w32
  | i64
  | f64
  /-- A CFP32 pair (R37). -/
  | c64
deriving DecidableEq, Repr

/-- A code that names a vector register. -/
def isVec (c : BitVec 8) : Bool := c.toNat < 0xC0
/-- A code that names a scalar register. -/
def isScalar (c : BitVec 8) : Bool := 0xC0 ≤ c.toNat && c.toNat < 0xF0
/-- A code whose value is the same in every lane (R139, R140). -/
def isUniform (c : BitVec 8) : Bool :=
  0xC0 ≤ c.toNat && c != 0xF1 && c != 0xF2 && c != 0xF8 && c != 0xF9 && c != 0xFA

/-- Position of lane `l` of group `num` of width `w` in a block (R52). -/
def laneOf (g : Group) (l : Nat) : Nat := g.num * g.width + l

/-- The special sources 0xF0–0xFE of R140 in a lane. -/
def State.special (s : State) (g : Group) (c : BitVec 8) (l : Nat) : Word :=
  let b := if g.isQueue then none else s.block g.blk
  let r := s.lrecOf g
  let dim (f : LRec → Nat) : Nat := match r with
    | some r => f r
    | none => 1
  let blk (f : LRec → Nat → Nat) : Word := match b, r with
    | some b, some r => BitVec.ofNat 32 (f r b.lin)
    | _, _ => 0
  let n := laneOf g l
  match c.toNat with
  | 0xF1 => BitVec.ofNat 32 l
  | 0xF2 => BitVec.ofNat 32 (l / 4)
  | 0xF3 => if g.isQueue then 0 else BitVec.ofNat 32 g.num
  | 0xF4 => blk fun r n => n % r.gdx
  | 0xF5 => blk fun r n => n / r.gdx % r.gdy
  | 0xF6 => blk fun r n => n / (r.gdx * r.gdy)
  | 0xF7 => match b with
    | some b => BitVec.ofNat 32 b.rank
    | none => 0
  | 0xF8 => BitVec.ofNat 32 (n % dim (·.bdx))
  | 0xF9 => BitVec.ofNat 32 (n / dim (·.bdx) % dim (·.bdy))
  | 0xFA => BitVec.ofNat 32 (n / (dim (·.bdx) * dim (·.bdy)))
  | 0xFB => if g.isQueue then 0 else BitVec.ofNat 32 g.core
  | 0xFC => BitVec.ofNat 32 s.pkg.pkgid
  | 0xFD => if g.isQueue then 1 else BitVec.ofNat 32 g.width
  | 0xFE => 0xFFFFFFFF
  | _ => 0

/-- An FP32 value widened exactly to FP64 (R38, R141). -/
def widen64 (w : Word) : Dword :=
  match FF.fp32.decode w.toNat with
  | .nan => BitVec.ofNat 64 FF.fp64.nanBits
  | v => BitVec.ofNat 64 (FF.fp64.round .rne v).bits

/-- The value of a source field in a lane. -/
def State.readSrc (s : State) (x : Ex) (lit : Word) (k : Kind) (c : BitVec 8) (l : Nat) : Dword :=
  let n := c.toNat
  match k with
  | .w32 =>
    (if n < 0xC0 then x.g.readV n l else if n < 0xF0 then x.g.readS (n - 0xC0) else if n = 0xFF then lit
     else s.special x.g c l).setWidth 64
  | .i64 =>
    if n < 0xC0 then x.g.readV64 n l else if n < 0xF0 then x.g.readS64 (n - 0xC0)
    else if n = 0xFF then lit.signExtend 64 else if n = 0xFE then BitVec.allOnes 64
    else (s.special x.g c l).setWidth 64
  | .f64 =>
    if n < 0xC0 then x.g.readV64 n l else if n < 0xF0 then x.g.readS64 (n - 0xC0)
    else if n = 0xFF then widen64 lit else if n = 0xFE then BitVec.allOnes 64
    else (s.special x.g c l).setWidth 64
  | .c64 =>
    if n < 0xC0 then x.g.readV64 n l else if n < 0xF0 then x.g.readS64 (n - 0xC0)
    else if n = 0xFF then Config.cfp32Literal lit else if n = 0xFE then BitVec.allOnes 64
    else (s.special x.g c l).setWidth 64

/-- A source that no instruction may name: an odd pair, a vector register beyond the group's blocks (R141), a register or
special source that a queue program does not have (R67, R140). -/
def badSrc (g : Group) (k : Kind) (c : BitVec 8) : Bool :=
  (k != .w32 && c.toNat < 0xF0 && c.getLsbD 0) || (isVec c && (8 * g.rblk ≤ c.toNat || g.isQueue)) ||
    (g.isQueue && !isUniform c)

/-- A destination that no instruction may name (R141, R142). -/
def badDst (g : Group) (wide : Bool) (c : BitVec 8) : Bool :=
  0xF1 ≤ c.toNat || (wide && c.toNat < 0xF0 && c.getLsbD 0) || (isVec c && (8 * g.rblk ≤ c.toNat || g.isQueue))

/-- Write a destination in a lane; 0xF0 discards (R142). -/
def Group.writeDst (g : Group) (wide : Bool) (c : BitVec 8) (l : Nat) (v : Dword) : Group :=
  let n := c.toNat
  if n < 0xC0 then (if wide then g.writeV64 n l v else g.writeV n l (v.setWidth 32))
  else if n < 0xF0 then (if wide then g.writeS64 (n - 0xC0) v else g.writeS (n - 0xC0) (v.setWidth 32))
  else g

/-- What one lane's execution gives: the result, its flags, the carry or borrow of R181 where there is one. -/
structure LaneRes where
  val : Dword
  flags : Flags := 0
  carry : Option Bool := none

/-- An ALU instruction: destination, its sources, and the result as a function of the lane and the source values. -/
structure Alu where
  dst : BitVec 8
  wide : Bool := false
  srcs : List (Kind × BitVec 8)
  lit : Word := 0
  fn : Nat → List Dword → LaneRes

/-- Set or clear one bit of a mask. -/
def setBit (m : Lanes) (l : Nat) (b : Bool) : Lanes := if b then m ||| oneLane l else m &&& ~~~(oneLane l)

/-- Apply the results of lanes: destinations, and m13's bits where the instruction has a carry (R181). -/
def Group.applyLanes (g : Group) (wide : Bool) (dst : BitVec 8) : List (Nat × LaneRes) → Group
  | [] => g
  | (l, r) :: t =>
    let g1 := g.writeDst wide dst l r.val
    let g2 := match r.carry with
      | some b => g1.writeM 13 (setBit (g1.readM 13) l b)
      | none => g1
    g2.applyLanes wide dst t

/-- The flags of lanes, ORed (R45). -/
def flagsOf (rs : List (Nat × LaneRes)) : Flags := rs.foldl (fun f r => f ||| r.2.flags) 0

/-- Whether the instruction executes on the scalar path (R143). -/
def Alu.scalarPath (a : Alu) : Bool := !isVec a.dst && a.dst.toNat < 0xF1 && a.srcs.all fun p => isUniform p.2

/-- Whether an ALU instruction's operands are refused (R141–R143). -/
def Alu.refused (a : Alu) (g : Group) : Bool :=
  badDst g a.wide a.dst || a.srcs.any (fun p => badSrc g p.1 p.2) || (isScalar a.dst && !a.scalarPath)

/-- The lanes an ALU instruction computes: one execution on the scalar path, else the active lanes (R143, R179). -/
def Alu.lanes (a : Alu) (x : Ex) : List Nat := if a.scalarPath then [0] else x.list

/-- The results of an ALU instruction, all sources read before any destination is written (R7). -/
def State.aluResults (s : State) (x : Ex) (a : Alu) : List (Nat × LaneRes) :=
  (a.lanes x).map fun l => (l, a.fn l (a.srcs.map fun p => s.readSrc x a.lit p.1 p.2 l))

/-- Execute an ALU instruction (R143, R179). -/
def State.alu (s : State) (x : Ex) (a : Alu) : State :=
  if a.refused x.g then (if a.scalarPath then s.illegalScalar x else s.illegal x)
  else
    let rs := s.aluResults x a
    ((s.setGroup x.gid (x.g.applyLanes a.wide a.dst rs)).addFlags x.gid x.sp.pc (flagsOf rs)).finish x

/-- Execute an instruction that writes bits of a mask register for the active lanes; only m1–m13 may be written, and a
queue program names none (R67, R187, R198). -/
def State.aluMask (s : State) (x : Ex) (d : BitVec 8) (srcs : List (Kind × BitVec 8)) (lit : Word)
    (fn : List Dword → Bool) : State :=
  if x.g.isQueue || d.toNat = 0 || 13 < d.toNat || srcs.any (fun p => badSrc x.g p.1 p.2) then s.illegal x
  else
    let m := x.list.foldl (fun m l => setBit m l (fn (srcs.map fun p => s.readSrc x lit p.1 p.2 l))) (x.g.readM d.toNat)
    (s.setGroup x.gid (x.g.writeM d.toNat m)).finish x

/-- The low word of a source value. -/
def wordAt (v : List Dword) (i : Nat) : Word := (v.getD i 0).setWidth 32
/-- A source value. -/
def dwordAt (v : List Dword) (i : Nat) : Dword := v.getD i 0
/-- A 32-bit result. -/
def res (w : Word) : LaneRes := { val := w.setWidth 64 }

/-- A uniform operand (R143 and the instruction chapters): not per lane. -/
def badUniform (g : Group) (k : Kind) (c : BitVec 8) : Bool := !isUniform c || badSrc g k c

/-- The value of a uniform operand. -/
def State.readUni (s : State) (x : Ex) (lit : Word) (k : Kind) (c : BitVec 8) : Dword := s.readSrc x lit k c 0

end Sys2Proof.Machine
end

