-- ==== Sys2Proof/Machine/IntAlu.lean ====
section
/-! DEFINITION. Integer and bit instructions (R181–R187). -/

namespace Sys2Proof.Machine

/-- A two-source instruction on words. -/
def alu2 (o : AOps) (f : Word → Word → Word) (s : State) : Out :=
  s.withEx fun x => s.alu x
    { dst := o.d, srcs := [(.w32, o.a), (.w32, o.b)], lit := o.lit, fn := fun _ v => res (f (wordAt v 0) (wordAt v 1)) }

/-- A one-source instruction on words. -/
def alu1 (o : UOps) (f : Word → Word) (s : State) : Out :=
  s.withEx fun x => s.alu x
    { dst := o.d, srcs := [(.w32, o.a)], lit := o.lit, fn := fun _ v => res (f (wordAt v 0)) }

/-- An instruction with the immediate SEXT(IMM10, 10) (R181). -/
def aluImm (o : IOps) (f : Word → Word → Word) (s : State) : Out :=
  s.withEx fun x => s.alu x
    { dst := o.d, srcs := [(.w32, o.a)], lit := o.lit, fn := fun _ v => res (f (wordAt v 0) (o.imm.signExtend 32)) }

/-- An instruction with a carry or borrow in m13 (R181). -/
def aluCarry (o : AOps) (f : Word → Word → Bool → Word × Bool) (s : State) : Out :=
  s.withEx fun x => s.alu x
    { dst := o.d, srcs := [(.w32, o.a), (.w32, o.b)], lit := o.lit,
      fn := fun l v =>
        let r := f (wordAt v 0) (wordAt v 1) ((x.g.readM 13).getLsbD l)
        { val := r.1.setWidth 64, carry := some r.2 } }

/-- A + B + c and its carry (R181). -/
def addCarry (a b : Word) (c : Bool) : Word × Bool :=
  let t := a.toNat + b.toNat + c.toNat
  (BitVec.ofNat 32 t, decide (2 ^ 32 ≤ t))

/-- A − B − c and its borrow (R181). -/
def subBorrow (a b : Word) (c : Bool) : Word × Bool :=
  (a - b - BitVec.ofNat 32 c.toNat, decide (a.toNat < b.toNat + c.toNat))

/-- IADD (R181). -/
def execIadd (o : AOps) (s : State) : Out := alu2 o (fun a b => a + b) s
/-- ISUB (R181). -/
def execIsub (o : AOps) (s : State) : Out := alu2 o (fun a b => a - b) s
/-- IADDC: carry in and out by m13 (R181). -/
def execIaddc (o : AOps) (s : State) : Out := aluCarry o addCarry s
/-- ISUBB: borrow in and out by m13 (R181). -/
def execIsubb (o : AOps) (s : State) : Out := aluCarry o subBorrow s
/-- IADD with an immediate (R181). -/
def execIaddImm (o : IOps) (s : State) : Out := aluImm o (fun a i => a + i) s
/-- AND with an immediate (R181). -/
def execAndImm (o : IOps) (s : State) : Out := aluImm o (fun a i => a &&& i) s
/-- OR with an immediate (R181). -/
def execOrImm (o : IOps) (s : State) : Out := aluImm o (fun a i => a ||| i) s
/-- XOR with an immediate (R181). -/
def execXorImm (o : IOps) (s : State) : Out := aluImm o (fun a i => a ^^^ i) s

/-- (SEXT(A) × SEXT(B))[63:32] (R182). -/
def mulHigh (a b : Word) : Word := (a.signExtend 64 * b.signExtend 64).extractLsb' 32 32
/-- (ZEXT(A) × ZEXT(B))[63:32] (R182). -/
def mulHighU (a b : Word) : Word := (a.setWidth 64 * b.setWidth 64).extractLsb' 32 32

/-- IMUL (R182). -/
def execImul (o : AOps) (s : State) : Out := alu2 o (fun a b => a * b) s
/-- IMULH (R182). -/
def execImulh (o : AOps) (s : State) : Out := alu2 o mulHigh s
/-- IMULH.U (R182). -/
def execImulhU (o : AOps) (s : State) : Out := alu2 o mulHighU s

/-- IADD64 on pairs (R182). -/
def execIadd64 (o : AOps) (s : State) : Out :=
  s.withEx fun x => s.alu x
    { dst := o.d, wide := true, srcs := [(.i64, o.a), (.i64, o.b)], lit := o.lit,
      fn := fun _ v => { val := dwordAt v 0 + dwordAt v 1 } }

/-- IMAD's word form: WRAP or SAT of A × B + C (R182). -/
def imadWord (u sat : Bool) (a b c : Word) : Word :=
  let i (w : Word) : Int := intVal 32 (!u) w.toNat
  let t := i a * i b + i c
  BitVec.ofNat 32 (wrapBits 32 (if sat then satInt 32 (!u) t else t))

/-- IMAD's pair form: WRAP of A × B + C into 64 bits (R182). -/
def imadWide (u : Bool) (a b : Word) (c : Dword) : Dword :=
  (if u then a.setWidth 64 * b.setWidth 64 else a.signExtend 64 * b.signExtend 64) + c

/-- IMAD[.U][.W][.SAT] (R182). -/
def execImad (o : EOps) (s : State) : Out :=
  let w := o.minor.getLsbD 0
  let u := o.minor.getLsbD 1
  s.withEx fun x => s.alu x
    { dst := o.d, wide := w, srcs := [(.w32, o.a), (.w32, o.b), (if w then .i64 else .w32, o.c)], lit := o.lit,
      fn := fun _ v =>
        -- an unsigned literal in a pair position is sign-extended like any other (R141)
        if w then { val := imadWide u (wordAt v 0) (wordAt v 1) (dwordAt v 2) }
        else res (imadWord u (o.mod.getLsbD 5) (wordAt v 0) (wordAt v 1) (wordAt v 2)) }

/-- Quotient and remainder of R183. -/
def divRem (u rem : Bool) (a b : Word) : Word :=
  if b = 0 then (if rem then a else 0xFFFFFFFF)
  else if u then (if rem then a % b else a / b)
  else if rem then a.srem b else a.sdiv b

/-- IDIV[.REM][.U] (R183). -/
def execIdiv (o : EOps) (s : State) : Out :=
  s.withEx fun x => s.alu x
    { dst := o.d, srcs := [(.w32, o.a), (.w32, o.b)], lit := o.lit,
      fn := fun _ v => res (divRem (o.minor.getLsbD 1) (o.minor.getLsbD 0) (wordAt v 0) (wordAt v 1)) }

/-- IMIN.U (R184). -/
def execIminU (o : AOps) (s : State) : Out := alu2 o (fun a b => if a.ult b then a else b) s
/-- IMAX.U (R184). -/
def execImaxU (o : AOps) (s : State) : Out := alu2 o (fun a b => if a.ult b then b else a) s
/-- IMIN (R184). -/
def execImin (o : AOps) (s : State) : Out := alu2 o (fun a b => if a.slt b then a else b) s
/-- IMAX (R184). -/
def execImax (o : AOps) (s : State) : Out := alu2 o (fun a b => if a.slt b then b else a) s
/-- AND (R184). -/
def execAnd (o : AOps) (s : State) : Out := alu2 o (fun a b => a &&& b) s
/-- OR (R184). -/
def execOr (o : AOps) (s : State) : Out := alu2 o (fun a b => a ||| b) s
/-- XOR (R184). -/
def execXor (o : AOps) (s : State) : Out := alu2 o (fun a b => a ^^^ b) s
/-- ANDN (R184). -/
def execAndn (o : AOps) (s : State) : Out := alu2 o (fun a b => a &&& ~~~b) s

/-- A shift count: B[7:0] (R184). -/
def shiftCount (b : Word) : Nat := (b.extractLsb' 0 8).toNat

/-- SHL: counts of 32 and above give 0 (R184). -/
def execShl (o : AOps) (s : State) : Out := alu2 o (fun a b => a <<< shiftCount b) s
/-- SHR (R184). -/
def execShr (o : AOps) (s : State) : Out := alu2 o (fun a b => a >>> shiftCount b) s
/-- SAR (R184). -/
def execSar (o : AOps) (s : State) : Out := alu2 o (fun a b => a.sshiftRight (shiftCount b)) s
/-- ROL: the count modulo 32 (R184). -/
def execRol (o : AOps) (s : State) : Out := alu2 o (fun a b => a.rotateLeft (shiftCount b % 32)) s

/-- Field position and width from a control word (R185). -/
def fieldOf (b : Word) : Nat × Nat :=
  let p := (b.extractLsb' 0 5).toNat
  let w := min (b.extractLsb' 8 6).toNat 32
  (p, if 32 < p + w then 32 - p else w)

/-- BFX (R185). -/
def bfx (sgn : Bool) (a b : Word) : Word :=
  let (p, w) := fieldOf b
  let f := a.toNat / 2 ^ p % 2 ^ w
  BitVec.ofNat 32 (if sgn && w != 0 then wrapBits 32 (intVal w true f) else f)

/-- BFI (R185). -/
def bfi (a b c : Word) : Word :=
  let (p, w) := fieldOf b
  let m : Word := BitVec.ofNat 32 ((2 ^ w - 1) * 2 ^ p)
  (c &&& ~~~m) ||| ((a <<< p) &&& m)

/-- BFX (R185). -/
def execBfx (o : EOps) (s : State) : Out :=
  s.withEx fun x => s.alu x
    { dst := o.d, srcs := [(.w32, o.a), (.w32, o.b)], lit := o.lit,
      fn := fun _ v => res (bfx (o.minor.getLsbD 0) (wordAt v 0) (wordAt v 1)) }

/-- BFI (R185). -/
def execBfi (o : EOps) (s : State) : Out :=
  s.withEx fun x => s.alu x
    { dst := o.d, srcs := [(.w32, o.a), (.w32, o.b), (.w32, o.c)], lit := o.lit,
      fn := fun _ v => res (bfi (wordAt v 0) (wordAt v 1) (wordAt v 2)) }

/-- LEA: A + B × 2^k on pairs (R185). -/
def execLea (o : EOps) (s : State) : Out :=
  s.withEx fun x => s.alu x
    { dst := o.d, wide := true, srcs := [(.i64, o.a), (.w32, o.b)], lit := o.lit,
      fn := fun _ v =>
        let b := if o.minor.getLsbD 3 then (wordAt v 1).setWidth 64 else (wordAt v 1).signExtend 64
        { val := dwordAt v 0 + (b <<< (o.minor.extractLsb' 0 3).toNat) } }

/-- Number of 1 bits (R186). -/
def popcount (n : Nat) (w : BitVec n) : Nat := ((List.range n).filter fun i => w.getLsbD i).length
/-- Leading zeros, 32 of 0 (R186). -/
def clz (w : Word) : Nat := if w = 0 then 32 else 31 - Nat.log2 w.toNat
/-- Trailing zeros, 32 of 0 (R186). -/
def ctz (w : Word) : Nat := ((List.range 32).find? fun i => w.getLsbD i).getD 32

/-- POPC (R186). -/
def execPopc (o : UOps) (s : State) : Out := alu1 o (fun a => BitVec.ofNat 32 (popcount 32 a)) s
/-- CLZ (R186). -/
def execClz (o : UOps) (s : State) : Out := alu1 o (fun a => BitVec.ofNat 32 (clz a)) s
/-- CTZ (R186). -/
def execCtz (o : UOps) (s : State) : Out := alu1 o (fun a => BitVec.ofNat 32 (ctz a)) s
/-- BREV (R186). -/
def execBrev (o : UOps) (s : State) : Out := alu1 o (fun a => a.reverse) s
/-- IABS: the most negative number is its own (R186). -/
def execIabs (o : UOps) (s : State) : Out := alu1 o (fun a => if a.getLsbD 31 then -a else a) s

/-- The 63-bit carry-less product of R186. -/
def clmul (a b : Word) : Dword :=
  (List.range 32).foldl (fun p i => if a.getLsbD i then p ^^^ (b.setWidth 64 <<< i) else p) 0

/-- CLMUL.LO (R186). -/
def execClmulLo (o : AOps) (s : State) : Out := alu2 o (fun a b => (clmul a b).extractLsb' 0 32) s
/-- CLMUL.HI (R186). -/
def execClmulHi (o : AOps) (s : State) : Out := alu2 o (fun a b => (clmul a b).extractLsb' 32 32) s

/-- Conditions 0–5 of R187 on integers. -/
def intCond (cc : Nat) (a b : Int) : Bool :=
  match cc with
  | 0 => decide (a = b)
  | 1 => decide (a ≠ b)
  | 2 => decide (a < b)
  | 3 => decide (a ≤ b)
  | 4 => decide (b < a)
  | _ => decide (b ≤ a)

/-- ICMP.cc[.U][.64] (R187). -/
def execIcmp (o : EOps) (s : State) : Out :=
  let wide := o.minor.getLsbD 4
  let u := o.minor.getLsbD 3
  let k : Kind := if wide then .i64 else .w32
  let w := if wide then 64 else 32
  s.withEx fun x => s.aluMask x o.d [(k, o.a), (k, o.b)] o.lit fun v =>
    intCond (o.minor.extractLsb' 0 3).toNat (intVal w (!u) (dwordAt v 0).toNat) (intVal w (!u) (dwordAt v 1).toNat)

/-- SEL[.64] (R187); on the scalar path bit 0 of mC serves, as bit 0 of m13 does in R181 (log 17). -/
def execSel (o : EOps) (s : State) : Out :=
  let wide := o.minor.getLsbD 0
  let k : Kind := if wide then .i64 else .w32
  s.withEx fun x =>
    if x.g.isQueue && o.c != 0 then s.illegalScalar x
    else
      s.alu x
        { dst := o.d, wide := wide, srcs := [(k, o.a), (k, o.b)], lit := o.lit,
          fn := fun l v => { val := if (x.readM o.c.toNat).getLsbD l then dwordAt v 0 else dwordAt v 1 } }

end Sys2Proof.Machine
end

