-- ==== Sys2Proof/Machine/Transcend.lean ====
section
/-! DEFINITION. The faithfully rounded functions of R43 and R190. An exact value that is no FP32 number lies strictly
between two neighbours; the model computes which by integer arithmetic on 256 fractional bits, and takes the neighbour that
`Config.faithfulUp` names (log 7). -/

namespace Sys2Proof.Machine

open Sys2Proof.Config (Faithful faithfulUp)

/-- Fractional bits of the fixed-point work. -/
def fxBits : Nat := 256
/-- 1 in fixed point. -/
def fxOne : Int := 2 ^ fxBits
/-- π × 2^512, rounded down. -/
def piBits : Nat := 0x3243f6a8885a308d313198a2e03707344a4093822299f31d0082efa98ec4e6c89452821e638d01377be5466cf34e90c6cc0ac29b7c97c50dd3f84d5b5b5470917
/-- ln 2 × 2^256, rounded down. -/
def ln2Bits : Nat := 0xb17217f7d1cf79abc9e3b39803f2f6af40f343267298b62d8a0d175b8baafa2b

/-- n × 2^e in fixed point, rounded towards −∞. -/
def fxOf (n : Int) (e : Int) : Int :=
  let k := e + fxBits
  if 0 ≤ k then n * 2 ^ k.toNat else n / 2 ^ (-k).toNat

/-- Product of fixed-point numbers. -/
def fxMul (a b : Int) : Int := a * b / fxOne

/-- Σ over the terms t, t·y/((i+1)(i+2)), … of a series in steps of two, for sine and cosine (y = −r²). -/
def seriesTwo : Nat → Int → Int → Int → Int → Int
  | 0, _, _, _, acc => acc
  | k + 1, i, t, y, acc => seriesTwo k (i + 2) (fxMul t y / ((i + 1) * (i + 2))) y (acc + t)

/-- Σ y^i / i!. -/
def seriesExp : Nat → Int → Int → Int → Int → Int
  | 0, _, _, _, acc => acc
  | k + 1, i, t, y, acc => seriesExp k (i + 1) (fxMul t y / (i + 1)) y (acc + t)

/-- Σ z^(2i+1) / (2i+1), with p = z^(2i+1). -/
def seriesAtanh : Nat → Int → Int → Int → Int → Int
  | 0, _, _, _, acc => acc
  | k + 1, i, p, z2, acc => seriesAtanh k (i + 2) (fxMul p z2) z2 (acc + p / i)

def fxSin (r : Int) : Int := seriesTwo 40 1 r (-(fxMul r r)) 0
def fxCos (r : Int) : Int := seriesTwo 40 0 fxOne (-(fxMul r r)) 0
/-- 2^f for 0 ≤ f < 1. -/
def fxExp2 (f : Int) : Int := seriesExp 70 0 fxOne (fxMul f ln2Bits) 0
/-- log2 m for 1 ≤ m < 2. -/
def fxLog2 (m : Int) : Int :=
  let z := (m - fxOne) * fxOne / (m + fxOne)
  2 * seriesAtanh 90 1 z (fxMul z z) 0 * fxOne / ln2Bits

/-- An exact value strictly inside (n × 2^e, (n + 1) × 2^e) with its sign. -/
structure Encl where
  neg : Bool
  n : Nat
  e : Int

/-- The enclosure of a fixed-point number, its last 64 bits given up to the error of the series. -/
def Encl.ofFx (v : Int) : Encl := ⟨v < 0, max 1 (v.natAbs / 2 ^ 64), -(192 : Int)⟩

/-- The enclosure of ±n × 2^e less a part that is positive and far below its last place. -/
def Encl.below (neg : Bool) (n : Nat) (e : Int) : Encl := ⟨neg, n * 2 ^ 64 - 1, e - 64⟩
/-- The enclosure of ±n × 2^e and a part that is positive and far below its last place. -/
def Encl.above (neg : Bool) (n : Nat) (e : Int) : Encl := ⟨neg, n * 2 ^ 64, e - 64⟩

/-- The FP32 result of a faithfully rounded function whose exact value is not representable: one of its neighbours, the
choice a function of the input (R43). A value of 2^128 or more overflows to infinity. -/
def Encl.result (f : Faithful) (input : List Word) (v : Encl) : Rnd :=
  let huge := decide (128 ≤ v.e + Nat.log2 v.n)
  let mode : RMode := if huge then .rne else if faithfulUp f input then .rpi else .rni
  FF.fp32.roundFin mode v.neg v.n v.e true

/-- r and the quadrant k mod 4 of ±n × 2^e = k·π/2 + r, in fixed point, 0 ≤ r < π/2. -/
def reducePi (neg : Bool) (n : Nat) (e : Int) : Int × Nat :=
  -- everything in units of 2^-512; e ≥ -149 for FP32
  let x : Int := (n : Int) * 2 ^ (e + 512).toNat
  let x := if neg then -x else x
  -- k = floor(x / (π/2)) by a quotient with 256 further bits of π
  let half : Int := piBits / 2
  let k := x / half
  let r := x - k * half
  (r / 2 ^ 256, (k % 4).toNat)

/-- A value far below one: |x| < 2^−40. -/
def smallFin (n : Nat) (e : Int) : Bool := decide (e + Nat.log2 n < -40)

/-- Sine or cosine (`shift` 0 or 1) of a finite non-zero value. -/
def sinEncl (shift : Nat) (neg : Bool) (n : Nat) (e : Int) : Encl :=
  if smallFin n e then (if shift = 0 then .below neg n e else .below false 1 0)
  else
    let (r, k) := reducePi neg n e
    match (k + shift) % 4 with
    | 0 => .ofFx (fxSin r)
    | 1 => .ofFx (fxCos r)
    | 2 => .ofFx (-(fxSin r))
    | _ => .ofFx (-(fxCos r))

/-- FSIN and FCOS (R43, R190). -/
def fpTrig (f : Faithful) (shift : Nat) (w : Word) (v : FV) : Rnd :=
  match v with
  | .nan => ⟨FF.fp32.nanBits, 0⟩
  | .inf _ => ⟨FF.fp32.nanBits, fNV⟩
  | .fin neg n e =>
    if n = 0 then (if shift = 0 then ⟨FF.fp32.withSign neg 0, 0⟩ else FF.fp32.round .rne (.fin false 1 0))
    else (sinEncl shift neg n e).result f [w]

/-- 2^x of a finite value that is no integer. -/
def exp2Encl (neg : Bool) (n : Nat) (e : Int) : Encl :=
  if smallFin n e then (if neg then .below false 1 0 else .above false 1 0)
  else if decide (8 ≤ e + Nat.log2 n) then (if neg then ⟨false, 1, -300⟩ else ⟨false, 1, 200⟩)
  else
    let x := fxOf (if neg then -(n : Int) else n) e
    let k := x / fxOne
    let v := Encl.ofFx (fxExp2 (x - k * fxOne))
    { v with e := v.e + k }

/-- FEXP2 (R43, R190). -/
def fpExp2 (w : Word) (v : FV) : Rnd :=
  match v with
  | .nan => ⟨FF.fp32.nanBits, 0⟩
  | .inf s => if s then ⟨0, 0⟩ else ⟨FF.fp32.infBits, 0⟩
  | .fin neg n e =>
    let (k, inexact) := roundInt .rtz neg n e
    if inexact then (exp2Encl neg n e).result .fexp2 [w]
    else if k < -149 then (⟨false, 1, max k (-300)⟩ : Encl).result .fexp2 [w]
    else FF.fp32.round .rne (.fin false 1 (min 1000 k))

/-- FLOG2 (R43, R190). -/
def fpLog2 (w : Word) (v : FV) : Rnd :=
  match v with
  | .nan => ⟨FF.fp32.nanBits, 0⟩
  | .inf s => if s then ⟨FF.fp32.nanBits, fNV⟩ else ⟨FF.fp32.infBits, 0⟩
  | .fin neg n e =>
    if n = 0 then ⟨FF.fp32.withSign true FF.fp32.infBits, fDZ⟩
    else if neg then ⟨FF.fp32.nanBits, fNV⟩
    else
      let l := Nat.log2 n
      if n = 2 ^ l then FF.fp32.round .rne (FV.ofInt (e + l))
      else (Encl.ofFx (fxLog2 (fxOf n (-(l : Int))) + (e + l) * fxOne)).result .flog2 [w]

/-- tanh of a finite non-zero value. -/
def tanhEncl (neg : Bool) (n : Nat) (e : Int) : Encl :=
  if smallFin n e then .below neg n e
  else if decide (6 ≤ e + Nat.log2 n) then .below neg 1 0
  else
    -- u = 2^(−t) with t = 2|x| / ln 2; tanh |x| = (1 − u) / (1 + u)
    let t := 2 * fxOf n e * fxOne / ln2Bits
    let k := -t / fxOne
    let u := fxExp2 (-t - k * fxOne) / 2 ^ (-k).toNat
    let v := (fxOne - u) * fxOne / (fxOne + u)
    .ofFx (if neg then -v else v)

/-- FTANH (R43, R190). -/
def fpTanh (w : Word) (v : FV) : Rnd :=
  match v with
  | .nan => ⟨FF.fp32.nanBits, 0⟩
  | .inf s => FF.fp32.round .rne (.fin s 1 0)
  | .fin neg n e =>
    if n = 0 then ⟨FF.fp32.withSign neg 0, 0⟩ else (tanhEncl neg n e).result .ftanh [w]

/-- FRSQ (R43, R190): 1/√x, exact where representable. -/
def fpRsq (w : Word) (v : FV) : Rnd :=
  match v with
  | .nan => ⟨FF.fp32.nanBits, 0⟩
  | .inf s => if s then ⟨FF.fp32.nanBits, fNV⟩ else ⟨0, 0⟩
  | .fin neg n e =>
    if n = 0 then ⟨FF.fp32.withSign neg FF.fp32.infBits, fDZ⟩
    else if neg then ⟨FF.fp32.nanBits, fNV⟩
    else
      let odd := e % 2 != 0
      let n' := if odd then 2 * n else n
      let e' := if odd then e - 1 else e
      -- 1/√(n'·2^e') = √(2^512 / n') · 2^(−256 − e'/2)
      let l := Nat.log2 n'
      if n' = 2 ^ l && l % 2 == 0 then FF.fp32.round .rne (.fin false 1 (-(e' / 2) - (l / 2 : Nat)))
      else (⟨false, isqrt (2 ^ 512 / n'), -256 - e' / 2⟩ : Encl).result .frsq [w]

end Sys2Proof.Machine
end

