-- ==== Sys2Proof/Machine/FpAlu.lean ====
section
/-! DEFINITION. Floating-point instructions (R188–R192). -/

namespace Sys2Proof.Machine

/-- ABS of R12 on a value. -/
def FV.abs : FV → FV
  | .nan => .nan
  | .inf _ => .inf false
  | .fin _ n e => .fin false n e

/-- MOD.RM (R138). -/
def modRm (o : EOps) : RMode := .ofCode (o.mod.extractLsb' 6 2).toNat
/-- MOD.SAT. -/
def modSat (o : EOps) : Bool := o.mod.getLsbD 5

/-- A source value under its modifiers, the absolute value before the negation (R138). -/
def applyMods (abs neg : Bool) (v : FV) : FV :=
  let v := if abs then v.abs else v
  if neg then v.neg else v

/-- Sources A, B, C under MOD.AA, AB, NA, NB, NC. -/
def srcA (o : EOps) (v : FV) : FV := applyMods (o.mod.getLsbD 1) (o.mod.getLsbD 4) v
def srcB (o : EOps) (v : FV) : FV := applyMods (o.mod.getLsbD 0) (o.mod.getLsbD 3) v
def srcC (o : EOps) (v : FV) : FV := applyMods false (o.mod.getLsbD 2) v

/-- SAT of R10 on a bit pattern of a format. -/
def FF.satBits (f : FF) (bits : Nat) : Nat :=
  match f.decode bits with
  | .inf s => f.withSign s f.maxBits
  | _ => bits

/-- A rounded result, saturated on demand (R188). -/
def FF.fin (f : FF) (sat : Bool) (r : Rnd) : LaneRes :=
  { val := BitVec.ofNat 64 (if sat then f.satBits r.bits else r.bits), flags := r.flags }

/-- The operand kind of a format. -/
def FF.kind : FF → Kind
  | .fp64 => .f64
  | _ => .w32

/-- The value of a source in a format. -/
def FF.arg (f : FF) (v : List Dword) (i : Nat) : FV := f.decode ((dwordAt v i).toNat % 2 ^ f.width)

/-- An instruction of format E on one format, from the values of its sources under their modifiers. -/
def fpE (f : FF) (n : Nat) (o : EOps) (fn : FV → FV → FV → Rnd) (s : State) : Out :=
  s.withEx fun x => s.alu x
    { dst := o.d, wide := f == .fp64, srcs := [(f.kind, o.a), (f.kind, o.b), (f.kind, o.c)].take n, lit := o.lit,
      fn := fun _ v => f.fin (modSat o) (fn (srcA o (f.arg v 0)) (srcB o (f.arg v 1)) (srcC o (f.arg v 2))) }

/-- A short form: RNE and no modifiers. -/
def fpShort (f : FF) (o : AOps) (fn : FV → FV → Rnd) (s : State) : Out :=
  s.withEx fun x => s.alu x
    { dst := o.d, wide := f == .fp64, srcs := [(f.kind, o.a), (f.kind, o.b)], lit := o.lit,
      fn := fun _ v => f.fin false (fn (f.arg v 0) (f.arg v 1)) }

/-- Lesser or greater of two values, −0 below +0, a NaN giving way (R189). -/
def fvBelow (a b : FV) : Bool :=
  match a, b with
  | .fin s 0 _, .fin t 0 _ => s && !t
  | _, _ => a.lt b

/-- FMIN and FMAX of R189. -/
def fvPick (mx : Bool) (a b : FV) : FV :=
  if a.isNan then b
  else if b.isNan then a
  else if fvBelow a b then (if mx then b else a)
  else if mx then a else b

/-- Conditions of R189: EQ, NE, LT, LE, GT, GE, ORD, UNO. -/
def fpCond (cc : Nat) (a b : FV) : Bool :=
  let uno := a.isNan || b.isNan
  match cc with
  | 0 => a.eqv b
  | 1 => !a.eqv b
  | 2 => a.lt b
  | 3 => a.lt b || a.eqv b
  | 4 => b.lt a
  | 5 => b.lt a || a.eqv b
  | 6 => !uno
  | _ => uno

/-- Class bit of R189. -/
def fpClass (w : Word) : Word :=
  match FF.fp32.decode w.toNat with
  | .nan => 1 <<< 8
  | .inf s => if s then 1 else 1 <<< 7
  | .fin s n _ =>
    if n = 0 then (if s then 1 <<< 3 else 1 <<< 4)
    else if n < 2 ^ 23 then (if s then 1 <<< 2 else 1 <<< 5)
    else if s then 1 <<< 1 else 1 <<< 6

/-- FADD: A + B, one rounding (R188). -/
def execFadd (o : EOps) (s : State) : Out := fpE .fp32 2 o (fun a b _ => FF.fp32.add (modRm o) a b) s
/-- FSUB: A − B (R188). -/
def execFsub (o : EOps) (s : State) : Out := fpE .fp32 2 o (fun a b _ => FF.fp32.add (modRm o) a b.neg) s
/-- FMUL: A × B (R188). -/
def execFmul (o : EOps) (s : State) : Out := fpE .fp32 2 o (fun a b _ => FF.fp32.mul (modRm o) a b) s
/-- FFMA: A × B + C with one rounding (R188). -/
def execFfma (o : EOps) (s : State) : Out := fpE .fp32 3 o (fun a b c => FF.fp32.fma (modRm o) a b c) s
/-- FADD, short form (R188). -/
def execFaddShort (o : AOps) (s : State) : Out := fpShort .fp32 o (fun a b => FF.fp32.add .rne a b) s
/-- FSUB, short form (R188). -/
def execFsubShort (o : AOps) (s : State) : Out := fpShort .fp32 o (fun a b => FF.fp32.add .rne a b.neg) s
/-- FMUL, short form (R188). -/
def execFmulShort (o : AOps) (s : State) : Out := fpShort .fp32 o (fun a b => FF.fp32.mul .rne a b) s
/-- FMAX, short form (R189). -/
def execFmaxShort (o : AOps) (s : State) : Out := fpShort .fp32 o (fun a b => FF.fp32.round .rne (fvPick true a b)) s
/-- DADD on pairs (R188). -/
def execDadd (o : EOps) (s : State) : Out := fpE .fp64 2 o (fun a b _ => FF.fp64.add (modRm o) a b) s
/-- DMUL on pairs (R188). -/
def execDmul (o : EOps) (s : State) : Out := fpE .fp64 2 o (fun a b _ => FF.fp64.mul (modRm o) a b) s
/-- DFMA on pairs (R188). -/
def execDfma (o : EOps) (s : State) : Out := fpE .fp64 3 o (fun a b c => FF.fp64.fma (modRm o) a b c) s
/-- DADD, short form (R188). -/
def execDaddShort (o : AOps) (s : State) : Out := fpShort .fp64 o (fun a b => FF.fp64.add .rne a b) s
/-- DMUL, short form (R188). -/
def execDmulShort (o : AOps) (s : State) : Out := fpShort .fp64 o (fun a b => FF.fp64.mul .rne a b) s
/-- FMIN (R189). -/
def execFmin (o : EOps) (s : State) : Out := fpE .fp32 2 o (fun a b _ => FF.fp32.round .rne (fvPick false a b)) s
/-- FMAX (R189). -/
def execFmax (o : EOps) (s : State) : Out := fpE .fp32 2 o (fun a b _ => FF.fp32.round .rne (fvPick true a b)) s
/-- DMIN (R189). -/
def execDmin (o : EOps) (s : State) : Out := fpE .fp64 2 o (fun a b _ => FF.fp64.round .rne (fvPick false a b)) s
/-- DMAX (R189). -/
def execDmax (o : EOps) (s : State) : Out := fpE .fp64 2 o (fun a b _ => FF.fp64.round .rne (fvPick true a b)) s

/-- FCMP and DCMP (R189). -/
def fpCmp (f : FF) (o : EOps) (s : State) : Out :=
  s.withEx fun x => s.aluMask x o.d [(f.kind, o.a), (f.kind, o.b)] o.lit fun v =>
    fpCond (o.minor.extractLsb' 0 3).toNat (f.arg v 0) (f.arg v 1)

/-- FCMP (R189). -/
def execFcmp (o : EOps) (s : State) : Out := fpCmp .fp32 o s
/-- DCMP (R189). -/
def execDcmp (o : EOps) (s : State) : Out := fpCmp .fp64 o s

/-- FCLASS (R189). -/
def execFclass (o : EOps) (s : State) : Out :=
  s.withEx fun x => s.alu x
    { dst := o.d, srcs := [(.w32, o.a)], lit := o.lit, fn := fun _ v => res (fpClass (wordAt v 0)) }

/-- 1. -/
def fvOne : FV := .fin false 1 0

/-- FRCP: 1 / A, correctly rounded (R190). -/
def execFrcp (o : EOps) (s : State) : Out := fpE .fp32 1 o (fun a _ _ => FF.fp32.div (modRm o) fvOne a) s
/-- FSQRT (R190). -/
def execFsqrt (o : EOps) (s : State) : Out := fpE .fp32 1 o (fun a _ _ => FF.fp32.sqrt (modRm o) a) s
/-- FDIV (R190). -/
def execFdiv (o : EOps) (s : State) : Out := fpE .fp32 2 o (fun a b _ => FF.fp32.div (modRm o) a b) s
/-- DDIV (R190). -/
def execDdiv (o : EOps) (s : State) : Out := fpE .fp64 2 o (fun a b _ => FF.fp64.div (modRm o) a b) s
/-- DSQRT (R190). -/
def execDsqrt (o : EOps) (s : State) : Out := fpE .fp64 1 o (fun a _ _ => FF.fp64.sqrt (modRm o) a) s

/-- The bit pattern of an FP32 value, as the input of a faithfully rounded function. -/
def fvWord (v : FV) : Word := BitVec.ofNat 32 (FF.fp32.round .rne v).bits

/-- FRSQ, faithful (R43, R190). -/
def execFrsq (o : EOps) (s : State) : Out := fpE .fp32 1 o (fun a _ _ => fpRsq (fvWord a) a) s
/-- FEXP2, faithful (R43, R190). -/
def execFexp2 (o : EOps) (s : State) : Out := fpE .fp32 1 o (fun a _ _ => fpExp2 (fvWord a) a) s
/-- FLOG2, faithful (R43, R190). -/
def execFlog2 (o : EOps) (s : State) : Out := fpE .fp32 1 o (fun a _ _ => fpLog2 (fvWord a) a) s
/-- FTANH, faithful (R43, R190). -/
def execFtanh (o : EOps) (s : State) : Out := fpE .fp32 1 o (fun a _ _ => fpTanh (fvWord a) a) s
/-- FSIN, faithful (R43, R190). -/
def execFsin (o : EOps) (s : State) : Out := fpE .fp32 1 o (fun a _ _ => fpTrig .fsin 0 (fvWord a) a) s
/-- FCOS, faithful (R43, R190). -/
def execFcos (o : EOps) (s : State) : Out := fpE .fp32 1 o (fun a _ _ => fpTrig .fcos 1 (fvWord a) a) s

/-- FRND's value: integral in the direction of the mode, a zero keeping its sign (R191). -/
def fpRnd (mode : RMode) : FV → FV
  | .fin s n e =>
    let (r, _) := roundTo mode s n e 0 false
    .fin s r 0
  | v => v

/-- FRND (R191): sets no flag. -/
def execFrnd (o : EOps) (s : State) : Out :=
  fpE .fp32 1 o (fun a _ _ => ⟨(FF.fp32.round .rne (fpRnd (modRm o) a)).bits, 0⟩) s

/-- A × 2^B rounded once; a scale beyond ±1,000 takes any FP32 value to an overflow or below every subnormal alike. -/
def fpLdexp (mode : RMode) (a : FV) (b : Word) : Rnd :=
  FF.fp32.round mode (a.scale (max (-1000) (min 1000 b.toInt)))

/-- FLDEXP (R191). -/
def execFldexp (o : EOps) (s : State) : Out :=
  s.withEx fun x => s.alu x
    { dst := o.d, srcs := [(.w32, o.a), (.w32, o.b)], lit := o.lit,
      fn := fun _ v => FF.fp32.fin (modSat o) (fpLdexp (modRm o) (srcA o (FF.fp32.arg v 0)) (wordAt v 1)) }

/-- One half of a packed word. -/
def halfOf (f : FF) (w : Word) (h : Nat) : FV := f.decode (w.extractLsb' (16 * h) 16).toNat

/-- An operation on both halves, the flags ORed (R192). -/
def packed2 (f : FF) (sat : Bool) (fn : Nat → Rnd) : LaneRes :=
  let lo := f.fin sat (fn 0)
  let hi := f.fin sat (fn 1)
  { val := (hi.val.setWidth 16 ++ lo.val.setWidth 16 : Word).setWidth 64, flags := lo.flags ||| hi.flags }

/-- A packed instruction of format E (R192). -/
def hpE (n : Nat) (o : EOps) (fn : FF → FV → FV → FV → Rnd) (s : State) : Out :=
  let f : FF := if o.minor.getLsbD 0 then .bf16 else .fp16
  s.withEx fun x => s.alu x
    { dst := o.d, srcs := [(.w32, o.a), (.w32, o.b), (.w32, o.c)].take n, lit := o.lit,
      fn := fun _ v => packed2 f (modSat o) fun h =>
        fn f (srcA o (halfOf f (wordAt v 0) h)) (srcB o (halfOf f (wordAt v 1) h)) (srcC o (halfOf f (wordAt v 2) h)) }

/-- HADD2: both halves added (R192). -/
def execHadd2 (o : EOps) (s : State) : Out := hpE 2 o (fun f a b _ => f.add (modRm o) a b) s
/-- HMUL2 (R192). -/
def execHmul2 (o : EOps) (s : State) : Out := hpE 2 o (fun f a b _ => f.mul (modRm o) a b) s
/-- HFMA2 (R192). -/
def execHfma2 (o : EOps) (s : State) : Out := hpE 3 o (fun f a b c => f.fma (modRm o) a b c) s

/-- A packed short form: FP16 with RNE (R192). -/
def hpShort (o : AOps) (fn : FV → FV → Rnd) (s : State) : Out :=
  s.withEx fun x => s.alu x
    { dst := o.d, srcs := [(.w32, o.a), (.w32, o.b)], lit := o.lit,
      fn := fun _ v => packed2 .fp16 false fun h => fn (halfOf .fp16 (wordAt v 0) h) (halfOf .fp16 (wordAt v 1) h) }

/-- HADD2, short form (R192). -/
def execHadd2Short (o : AOps) (s : State) : Out := hpShort o (fun a b => FF.fp16.add .rne a b) s
/-- HMUL2, short form (R192). -/
def execHmul2Short (o : AOps) (s : State) : Out := hpShort o (fun a b => FF.fp16.mul .rne a b) s

end Sys2Proof.Machine
end

