-- ==== Sys2Proof/Machine/Convert.lean ====
section
/-! DEFINITION. Conversions (R193–R195). -/

namespace Sys2Proof.Machine

/-- The operand kind of a source in a format (R193). -/
def kindOf (code : Nat) : Kind :=
  match code with
  | 0 => .f64
  | 13 => .i64
  | 14 => .c64
  | _ => .w32

/-- MOD.NA and MOD.AA on a value; integers take neither (R193). -/
def modA (o : EOps) : RV → RV
  | .fl v => .fl (srcA o v)
  | .int i => .int i

/-- One element converted between formats by R38; a complex one part by part, NA and AA too (log 101). -/
def cvtElem (dst src : Nat) (mode : RMode) (sat : Bool) (f : RV → RV) (bits : Nat) : Nat × Flags :=
  let one (b : Nat) : Conv := convTo (partOf dst) mode sat (f (readElem (partOf src) b))
  if isComplex src then
    let w := fmtBits (partOf src)
    let re := one (bits % 2 ^ w)
    let im := one (bits / 2 ^ w % 2 ^ w)
    (re.bits + im.bits * 2 ^ fmtBits (partOf dst), re.flags ||| im.flags)
  else
    let c := one bits
    (c.bits, c.flags)

/-- Element `n` of a register: a byte or a half where the format is that narrow (R193). -/
def subElem (code n : Nat) (v : Dword) : Nat :=
  let w := fmtBits code
  if w < 32 then v.toNat / 2 ^ (w * n) % 2 ^ w else v.toNat % 2 ^ w

/-- CVT (R193). -/
def execCvt (o : EOps) (s : State) : Out :=
  let dst := (o.minor.extractLsb' 0 4).toNat
  let src := (o.minor.extractLsb' 4 4).toNat
  let n := (o.minor.extractLsb' 8 2).toNat
  s.withEx fun x => s.alu x
    { dst := o.d, wide := fmtBits dst == 64, srcs := [(kindOf src, o.a)], lit := o.lit,
      fn := fun _ v =>
        let r := cvtElem dst src (modRm o) (modSat o) (modA o) (subElem src n (dwordAt v 0))
        { val := BitVec.ofNat 64 r.1, flags := r.2 } }

/-- PACK (R194); the half that an 8-bit form keeps comes from the old D. -/
def execPack (o : EOps) (s : State) : Out :=
  let dst := (o.minor.extractLsb' 0 4).toNat
  let src := (o.minor.extractLsb' 4 4).toNat
  let w := fmtBits dst
  s.withEx fun x => s.alu x
    { dst := o.d, srcs := [(.w32, o.a), (.w32, o.b), (.w32, if o.d.toNat < 0xF0 then o.d else 0xF0)], lit := o.lit,
      fn := fun _ v =>
        let a := cvtElem dst src (modRm o) (modSat o) id (wordAt v 0).toNat
        let b := cvtElem dst src (modRm o) (modSat o) id (wordAt v 1).toNat
        let both := a.1 + b.1 * 2 ^ w
        let old := (wordAt v 2).toNat
        let word := if w = 16 then both
          else if o.minor.getLsbD 8 then old % 2 ^ 16 + both * 2 ^ 16 else both + old / 2 ^ 16 * 2 ^ 16
        { val := BitVec.ofNat 64 word, flags := a.2 ||| b.2 } }

/-- UNPK (R195). -/
def execUnpk (o : EOps) (s : State) : Out :=
  let dst := (o.minor.extractLsb' 0 4).toNat
  let src := (o.minor.extractLsb' 4 4).toNat
  let k := if o.minor.getLsbD 8 then 1 else 0
  let n := if fmtBits src = 16 then 0 else 2 * k
  s.withEx fun x => s.alu x
    { dst := o.d, wide := true, srcs := [(.w32, o.a)], lit := o.lit,
      fn := fun _ v =>
        let a := cvtElem dst src (modRm o) (modSat o) id (subElem src n (dwordAt v 0))
        let b := cvtElem dst src (modRm o) (modSat o) id (subElem src (n + 1) (dwordAt v 0))
        { val := BitVec.ofNat 64 (a.1 + b.1 * 2 ^ 32), flags := a.2 ||| b.2 } }

end Sys2Proof.Machine
end

