-- ==== Sys2Proof/Machine/Memory.lean ====
section
/-! DEFINITION. Global memory: the physical address map and the canonical form (R214, R215), home L2s and compression tags
(R222–R229), the L1 of a core (R217–R220), translation (R340–R342), page requests (R345, R346), code lines (R150). -/

namespace Sys2Proof.Machine

/-! ### Physical addresses (R214, R215) -/

/-- What a domain physical address names: a byte of this package's Bean layer or far memory by canonical offset, an offset
in the privileged control window, a byte of another package, or nothing. -/
inductive Place where
  | mem (c : Nat)
  | window (off : Nat)
  | remote (pkg : Nat)
  | hole
deriving DecidableEq, Repr

/-- Bytes of Bean layer and of far memory under one die (R214). -/
def beanDie : Nat := 0xC00000000
def farDie : Nat := 0x600000000
/-- First offsets of the views (R214). -/
def beanStriped : Nat := 0x08000000000
def farBase : Nat := 0x10000000000
def farStriped : Nat := 0x14000000000
def windowBase : Nat := 0x20000000000

/-- The die view of a striped offset `o` from its view's base (R215). -/
def unstripe (base perDie o : Nat) : Nat := base + perDie * (o / 4096 % 8) + (o / 32768 * 4096 + o % 4096)

/-- Whether a package is of the domain: this one, one that the fabric manager has made known, the far end of a fabric port that is
trained or trains again (R214, R379, R385, log 15). -/
def State.inDomain (s : State) (pkg : Nat) : Bool :=
  pkg == s.pkg.pkgid || s.pkg.domain.contains pkg ||
    s.pkg.ports.any fun e => (e.2.state == 2 || e.2.state == 3) && e.2.mode == 1 && e.2.peer == pkg

/-- Decode an offset within a package (R214). -/
def placeOf (o : Nat) : Place :=
  if o < 8 * beanDie then .mem o
  else if beanStriped ≤ o && o < beanStriped + 8 * beanDie then .mem (unstripe 0 beanDie (o - beanStriped))
  else if farBase ≤ o && o < farBase + 8 * farDie then .mem o
  else if farStriped ≤ o && o < farStriped + 8 * farDie then .mem (unstripe farBase farDie (o - farStriped))
  else if windowBase ≤ o && o < windowBase + 2 ^ 32 then .window (o - windowBase)
  else .hole

/-- Decode a physical address: a hole of another package is a hole. -/
def State.place (s : State) (pa : Nat) : Place :=
  let pkg := pa / 2 ^ 42
  let p := placeOf (pa % 2 ^ 42)
  if pkg = s.pkg.pkgid || p = .hole then p else if s.inDomain pkg then .remote pkg else .hole

/-- Whether a physical address lies in the control window of its package, this one or another of the domain (R214). -/
def State.inWindow (s : State) (pa : Nat) : Bool :=
  match s.place pa, placeOf (pa % 2 ^ 42) with
  | .hole, _ => false
  | _, .window _ => true
  | _, _ => false

/-- The canonical physical address: the die view for this package's memory. -/
def State.canon (s : State) (pa : Nat) : Nat :=
  match s.place pa with
  | .mem c => s.pkg.pkgid * 2 ^ 42 + c
  | _ => pa

/-- The home die of a canonical offset (R215). -/
def homeDie (c : Nat) : Nat := if c < 8 * beanDie then c / beanDie else (c - farBase) / farDie % 8

/-- The L2 slice of a die that holds the line of a canonical address, in physical numbers (R26, R223). -/
def Die.slice (d : Die) (a : Nat) : Nat :=
  let x := a / 128
  if d.hashsel.toNat % 4 = 0 then (List.range 12).foldl (fun n i => n ^^^ x / 16 ^ i % 16) 0
  else
    let h := x % 2 ^ 16 ^^^ x / 2 ^ 16 % 2 ^ 16 ^^^ x / 2 ^ 32 % 2 ^ 16
    d.slicemap.toNat / 16 ^ (h % (d.hashsel.toNat / 256 % 32)) % 16

/-! ### Home L2 and memory (R222–R229) -/

/-- Words of a line, in order. -/
def lineWords (bs : List Byte) : List Word :=
  (List.range 32).map fun i => BitVec.ofNat 32 (bytesToNat ((bs.drop (4 * i)).take 4))

/-- The tag of a line under the encoder's order ZERO, CONST, BD8, BD16, RAW (R228). -/
def lineTag (bs : List Byte) : BitVec 4 :=
  let ws := lineWords bs
  let w0 := ws.headD 0
  let ds := ws.map fun w => (w - w0).toInt
  if ws.all fun w => w == 0 then 1
  else if ws.all fun w => w == w0 then 2
  else if ds.all fun d => decide (-128 ≤ d) && decide (d ≤ 127) then 3
  else if ds.all fun d => decide (-32768 ≤ d) && decide (d ≤ 32767) then 4
  else 0

/-- Whether a line's tag is one that R228 reserves: an error of the metadata. -/
def State.badTag (s : State) (line : Nat) : Bool := 5 ≤ (KV.get 1 s.tags line).toNat

/-- A line as the home L2 sees it once a fill has brought the sectors that it does not hold (R229). -/
def State.homeLine (s : State) (line : Nat) : L2Line :=
  match s.l2.find line with
  | some l =>
    { l with valid := 15, data := (List.range 128).map fun i =>
        if l.valid.getLsbD (i / 32) then l.data.getD i 0 else Memory.read s.mem (128 * line + i) }
  | none => ⟨s.mem.readN (128 * line) 128, 15, 0, false⟩

/-- Whether the home L2 holds a byte's sector. -/
def State.l2Holds (s : State) (c : Nat) : Bool :=
  match s.l2.find (c / 128) with
  | some l => l.valid.getLsbD (c % 128 / 32)
  | none => false

/-- One byte at its home, by canonical offset. -/
def State.homeByte (s : State) (c : Nat) : Byte :=
  match s.l2.find (c / 128) with
  | some l => if l.valid.getLsbD (c % 128 / 32) then l.data.getD (c % 128) 0 else Memory.read s.mem c
  | none => Memory.read s.mem c

/-- Whether the byte of a canonical offset holds an uncorrectable error: one that has appeared in it, or a reserved tag of the
line that it would be decoded by (R225, R228). -/
def State.badByte (s : State) (c : Nat) : Bool := s.poison.contains c || (!s.l2Holds c && s.badTag (c / 128))

/-- The first of some bytes that holds an uncorrectable error (R225). -/
def State.firstBad (s : State) (pa n : Nat) : Option Nat :=
  (List.range n).find? fun i =>
    match s.place (pa + i) with
    | .mem c => s.badByte c
    | _ => false

/-- Whether bytes hold an uncorrectable error (R225). -/
def State.poisoned (s : State) (pa n : Nat) : Bool := (s.firstBad pa n).isSome

/-- The report of an uncorrectable error that an access has met happens next (R20, R118). -/
def State.report (s : State) (pa : Nat) : State := { s with agenda := .reported pa :: s.agenda }

/-- Reports of the errors that an access of bytes has met at their home. -/
def State.reports (s : State) (pa n : Nat) : State :=
  match s.firstBad pa n with
  | some i => s.report (pa + i)
  | none => s

/-- The L2 lets a line go: a dirty one is written back, encoded under CMP (R228, R229). -/
def State.l2Evict (s : State) (line : Nat) : State :=
  match s.l2.find line with
  | none => s
  | some l =>
    let d := (s.homeLine line).data
    let s := { s with l2 := s.l2.erase line }
    if l.dirty = 0 then s
    else
      { s with mem := s.mem.writeN (128 * line) d
               tags := KV.put 1 s.tags line (if l.cmpw then lineTag d else 0) }

/-- Whether two lines share a set of a slice: 1,024 sets of 16 lines make its 2 MiB (R222, log 67). -/
def State.sameSet (s : State) (a b : Nat) : Bool :=
  a % 1024 == b % 1024 && homeDie (128 * a) == homeDie (128 * b) &&
    (s.die (homeDie (128 * a))).slice (s.pkg.pkgid * 2 ^ 42 + 128 * a) ==
      (s.die (homeDie (128 * b))).slice (s.pkg.pkgid * 2 ^ 42 + 128 * b)

/-- Room for a line in its set: where its 16 ways are taken, one lets its line go (R222). -/
def State.l2Room (s : State) (line : Nat) : State :=
  let set := (s.l2.filter fun e => s.sameSet e.1 line).map (·.1)
  if set.contains line || set.length < 16 then s
  else
    match set[Config.l2Way line % 16]? with
    | some v => s.l2Evict v
    | none => s

/-- The bytes of the sectors that a fill decodes by a reserved tag are uncorrectable (R225, R228). -/
def State.fillBad (s : State) (line : Nat) (m : BitVec 4) : State :=
  if !s.badTag line then s
  else
    let bs := ((List.range 128).filter fun i => m.getLsbD (i / 32) && !s.l2Holds (128 * line + i)).map fun i => 128 * line + i
    { s with poison := s.poison ++ bs.filter fun c => !s.poison.contains c }

/-- The home L2 holds sectors of a line: it fills those that it does not hold yet (R222, R229). -/
def State.l2Fill (s : State) (line : Nat) (m : BitVec 4) : State :=
  match s.l2.find line with
  | some l =>
    if l.valid &&& m = m then s
    else
      let s := s.fillBad line m
      { s with l2 := s.l2.insert line { s.homeLine line with valid := l.valid ||| m } }
  | none =>
    let s := (s.l2Room line).fillBad line m
    { s with l2 := s.l2.insert line { s.homeLine line with valid := m } }

/-- The sectors that an access of `n` bytes touches, by the address of a byte of it in each. -/
def sectorsOf (pa n : Nat) : List Nat :=
  if n = 0 then [] else (List.range ((pa % 32 + n + 31) / 32)).map fun k => max pa (pa / 32 * 32 + 32 * k)

/-- Fills for a read of bytes of this package's memory. -/
def State.l2Fills (s : State) (pa n : Nat) : State :=
  (sectorsOf pa n).foldl (fun s a => match s.place a with
    | .mem c => s.l2Fill (c / 128) (BitVec.ofNat 4 (2 ^ (c % 128 / 32)))
    | _ => s) s

/-- The parts of at most 256 bytes in which Thrumri carries an access of `n` bytes (R378): offset and length. -/
def thrumriParts (n : Nat) : List (Nat × Nat) := (List.range ((n + 255) / 256)).map fun k => (256 * k, min 256 (n - 256 * k))

/-- Messages leave over Thrumri (R378). -/
def State.send (s : State) (ms : List ThrMsg) : State := s.modPkg fun p => { p with sent := p.sent ++ ms }

/-- Reads and writes leave over Thrumri, and their answers are awaited for the group that issues (R378, R381). -/
def State.ask (s : State) (ms : List ThrMsg) : State :=
  let gid := s.issuer.map (·.1)
  let ctx := gid.bind fun k => (s.group k).map (·.ctx)
  (s.send ms).modPkg fun p => { p with awaited := p.awaited ++ ms.map fun m => ⟨m, gid, ctx⟩ }

/-- What was asked for without a group that issues belongs to a context. -/
def State.claim (s : State) (ctx : Nat) : State :=
  if s.pkg.awaited.all fun a => a.ctx.isSome then s
  else s.modPkg fun p => { p with awaited := p.awaited.map fun a => if a.ctx.isNone then { a with ctx := some ctx } else a }

/-- The oldest read or write that a package has still to answer is answered (R378). -/
def State.answered (s : State) (pkg : Nat) : State :=
  s.modPkg fun p => { p with awaited := p.awaited.eraseP fun a => a.msg.addr / 2 ^ 42 == pkg }

/-- Read bytes at their homes, the L2s filling; those of another package are asked for over Thrumri and are free values (R378,
log 15). -/
def State.homeRead (s : State) (pa n : Nat) : List Byte × State :=
  let far : Bool := match s.place pa with
    | .remote _ => n != 0
    | _ => false
  let bs := (List.range n).map fun i =>
    match s.place (pa + i) with
    | .mem c => s.homeByte c
    | .remote _ => Config.remoteByte s.freeCount (pa + i)
    | _ => 0
  (bs, if far then s.free.2.ask ((thrumriParts n).map fun p => ⟨s.pkg.pkgid, pa + p.1, .read p.2⟩) else s.l2Fills pa n)

/-- Write one byte at its home, by canonical offset: the line is filled, and keeps the CMP attribute of its latest write (R222,
R229). -/
def State.homePut (s : State) (c : Nat) (b : Byte) (cmp : Bool) : State :=
  let line := c / 128
  let s := s.l2Fill line 15
  let l := s.homeLine line
  let l' : L2Line := ⟨l.data.set (c % 128) b, 15, l.dirty ||| BitVec.ofNat 4 (2 ^ (c % 128 / 32)), cmp⟩
  { s with l2 := s.l2.insert line l', poison := s.poison.filter fun p => p != c }

/-- Write the bytes of this package's memory among those of a masked write. -/
def State.homePuts (s : State) (pa : Nat) (cmp : Bool) : List (Option Byte) → State
  | [] => s
  | b :: t =>
    let s' := match b, s.place pa with
      | some b, .mem c => s.homePut c b cmp
      | _, _ => s
    s'.homePuts (pa + 1) cmp t

/-- A masked write at its home: to this package's L2s, or over Thrumri (R378). -/
def State.homeWrite (s : State) (pa : Nat) (bs : List (Option Byte)) (cmp : Bool) : State :=
  match s.place pa with
  | .remote _ => s.ask ((thrumriParts bs.length).map fun p => ⟨s.pkg.pkgid, pa + p.1, .write ((bs.drop p.1).take p.2) cmp⟩)
  | _ => s.homePuts pa cmp bs

/-- An uncorrectable error appears in bytes of this package's memory, or goes with data that is written back (R225). -/
def State.spoil (s : State) (pas : List Nat) : State :=
  pas.foldl (fun s pa => match s.place pa with
    | .mem c => { s with poison := if s.poison.contains c then s.poison else s.poison ++ [c] }
    | _ => s) s

/-! ### The L1 of a core (R217–R220) -/

/-- Whether a block covers an address. -/
def L1Block.covers (b : L1Block) (a : Nat) : Bool := b.addr ≤ a && a < b.addr + 4 * b.words
/-- Byte index of an address within its 32-byte sector. -/
def sectorByte (a : Nat) : Nat := a % 32

/-- The bytes of a block for which a mask holds, as a masked write from its first byte. -/
def L1Block.masked (b : L1Block) (m : BitVec 32) : List (Option Byte) :=
  (List.range (4 * b.words)).map fun i =>
    if m.getLsbD (sectorByte b.addr + i) then some (b.data.getD i 0) else none

/-- Write the dirty bytes of a block back to their home (R219, R220), errors with them. -/
def State.l1Back (s : State) (core : Nat) (b : L1Block) : State :=
  if b.dirty = 0 then s
  else
    let s := (s.count core 5).homeWrite b.addr (b.masked b.dirty) b.cmp
    s.spoil (((List.range (4 * b.words)).filter fun i => (b.dirty &&& b.bad).getLsbD (sectorByte b.addr + i)).map (b.addr + ·))

/-- A block after its write-back. -/
def L1Block.clean (b : L1Block) : L1Block := if b.dirty = 0 then b else { b with dirty := 0, scope := 5 }

/-- The smallest aligned size that covers every used word of a sector (R218). -/
def spanOf (used : BitVec 8) : Nat :=
  let ws := (List.range 8).filter fun i => used.getLsbD i
  let fits (z : Nat) : Bool := ws.all fun i => i / z == ws.headD 0 / z
  if fits 1 then 1 else if fits 2 then 2 else if fits 4 then 4 else 8

/-- Blocks leave an L1: dirty ones are written back first, and the predictor learns (R217, R218). -/
def State.l1Leave (s : State) (core : Nat) : List L1Block → State
  | [] => s
  | b :: t =>
    let s1 := s.l1Back core b
    let s2 := s1.modCore core fun c =>
      { c with l1 := c.l1.filter (fun x => x.addr != b.addr || x.words != b.words)
               pred := KV.put 8 c.pred b.idx (spanOf b.used) }
    s2.l1Leave core t

/-- Write back the blocks of an L1 for which a test holds; they stay, clean. -/
def State.l1BackWhere (s : State) (core : Nat) (p : L1Block → Bool) : State :=
  let bs := (s.core core).l1
  let s := bs.foldl (fun s b => if p b then s.l1Back core b else s) s
  s.modCore core fun c => { c with l1 := c.l1.map fun b => if p b then b.clean else b }

/-- Words of an L1 (R217). -/
def Core.l1Words (c : Core) : Nat := (c.poolb2 - c.poolb1) * 2048

/-- Blocks to replace, the least recently used first, until `need` words are free. -/
def overflow (cap need : Nat) : List L1Block → List L1Block
  | [] => []
  | b :: t =>
    if ((b :: t).map (·.words)).foldl (· + ·) 0 + need ≤ cap then [] else b :: overflow cap need t

/-- Bring a block of `z` words that covers an address into an L1, empty: what overlaps it leaves, and room is made (log 9). -/
def State.l1Alloc (s : State) (core a idx z : Nat) (cmp : Bool) (first : Bool) : State :=
  let base := a / (4 * z) * (4 * z)
  let new : L1Block :=
    { addr := base, words := z, data := List.replicate (4 * z) 0, valid := 0, dirty := 0, scope := 1, idx := idx, used := 0, cmp := cmp }
  let s := s.l1Leave core ((s.core core).l1.filter fun b => b.addr < base + 4 * z && base < b.addr + 4 * b.words)
  let s := s.l1Leave core (overflow (s.core core).l1Words z (s.core core).l1)
  s.modCore core fun c => { c with l1 := if first then new :: c.l1 else c.l1 ++ [new] }

/-- Ensure that a block of `z` words covers an address. -/
def State.l1Ensure (s : State) (core a idx z : Nat) (cmp first : Bool) : State :=
  if (s.core core).l1.any fun b => b.covers a && b.words == z then s else s.l1Alloc core a idx z cmp first

/-- The words of its sector that an access of `n` bytes touches. -/
def wordsAt (a n : Nat) : BitVec 8 :=
  BitVec.ofNat 8 (((List.range 8).filter fun w => a % 32 / 4 ≤ w && 4 * w < a % 32 + n).foldl (fun m w => m + 2 ^ w) 0)

/-- Whether a block holds some byte of a range. -/
def L1Block.meets (b : L1Block) (a n : Nat) : Bool := b.addr < a + n && a < b.addr + 4 * b.words

/-- Change the blocks over a piece, and make them the most recently used ones. -/
def Core.l1Touch (c : Core) (a n : Nat) (first : Bool) (f : L1Block → L1Block) : Core :=
  let hs := (c.l1.filter (·.meets a n)).map fun b => f { b with used := b.used ||| (wordsAt a n &&& wordsAt b.addr (4 * b.words)) }
  let rest := c.l1.filter fun b => !b.meets a n
  { c with l1 := if first then hs ++ rest else rest ++ hs }

/-- Set one byte of a block. -/
def L1Block.setByte (b : L1Block) (a : Nat) (v : Byte) (dirty : Bool) (cmp : Bool) : L1Block :=
  let m : BitVec 32 := BitVec.ofNat 32 (2 ^ sectorByte a)
  { b with data := b.data.set (a - b.addr) v
           valid := b.valid ||| m
           dirty := if dirty then b.dirty ||| m else b.dirty
           scope := if dirty then 1 else b.scope
           cmp := if dirty then cmp else b.cmp
           bad := b.bad &&& ~~~m }

/-- A byte that an L1 holds valid, or dirty, and whether it holds an error. -/
def Core.l1Byte (c : Core) (a : Nat) (dirty : Bool) : Option (Byte × Bool) :=
  match c.l1.find? (·.covers a) with
  | none => none
  | some b =>
    if (if dirty then b.dirty else b.valid).getLsbD (sectorByte a) then
      (b.data[a - b.addr]?).map fun v => (v, b.bad.getLsbD (sectorByte a)) else none

/-- What a read answers: its bytes, the state, whether it consumed an uncorrectable error. -/
structure Got where
  bytes : List Byte
  st : State
  bad : Bool := false

/-- Cache policies of R242. -/
inductive Policy where
  | def_ | strm | nol1 | last
deriving DecidableEq, Repr

/-- The policy of a CP code. -/
def Policy.ofCode (c : Nat) : Policy :=
  match c with
  | 0 => .def_
  | 1 => .strm
  | 2 => .nol1
  | _ => .last

/-- Pieces of an access of `n` bytes at `a`, divided at every 32-byte boundary (R240): address and length. -/
def pieces : Nat → Nat → Nat → List (Nat × Nat)
  | 0, _, _ => []
  | fuel + 1, a, n =>
    if n = 0 then []
    else
      let k := min n (32 - a % 32)
      (a, k) :: pieces fuel (a + k) (n - k)

/-- The block that serves a piece: the one that holds every byte of it valid (R302). -/
def Core.l1Serves (c : Core) (a n : Nat) : Option L1Block :=
  c.l1.find? fun b => b.covers a && b.covers (a + n - 1) && (List.range n).all fun i => b.valid.getLsbD (sectorByte (a + i))

/-- A miss fills a block of `z` words at a base: the bytes that it does not hold dirty come from their home (R217). -/
def State.l1FillBlock (s : State) (core idx z : Nat) (cmp first : Bool) (base : Nat) : State :=
  let s := if (s.core core).l1.any fun b => b.addr == base && b.words == z then s else s.l1Alloc core base idx z cmp first
  let (bs, s1) := (s.count core 5).homeRead base (4 * z)
  let spoilt := (List.range (4 * z)).filter fun i => s.poisoned (base + i) 1
  let fill (b : L1Block) : L1Block :=
    if b.addr = base && b.words = z then
      let keep (i : Nat) : Bool := b.dirty.getLsbD (sectorByte base + i)
      let m : BitVec 32 := BitVec.ofNat 32 ((2 ^ (4 * z) - 1) * 2 ^ sectorByte base)
      let bad : Nat := (spoilt.filter fun i => !keep i).foldl (fun n i => n + 2 ^ (sectorByte base + i)) 0
      { b with data := (List.range (4 * z)).map fun i => if keep i then b.data.getD i 0 else bs.getD i 0
               valid := b.valid ||| m
               bad := (b.bad &&& b.dirty) ||| BitVec.ofNat 32 bad }
    else b
  s1.modCore core fun c => { c with l1 := c.l1.map fill }

/-- The bases of the blocks of `z` words over a piece. -/
def basesOf (z a n : Nat) : List Nat :=
  (List.range ((a % (4 * z) + n + 4 * z - 1) / (4 * z))).map fun k => a / (4 * z) * (4 * z) + 4 * z * k

/-- The clean bytes of a piece leave an L1, so that no later read of it answers older ones (R301). -/
def Core.l1Refresh (c : Core) (a n : Nat) : Core :=
  let m : BitVec 32 := BitVec.ofNat 32 ((2 ^ n - 1) * 2 ^ sectorByte a)
  { c with l1 := c.l1.map fun b =>
      if b.meets a n && b.addr / 32 == a / 32 then { b with valid := b.valid &&& (b.dirty ||| ~~~m) } else b }

/-- The bytes of a piece from the blocks at the bases given, each filled first (R217, R302). -/
def State.l1Fetch (s : State) (core idx z : Nat) (cmp first : Bool) (a n : Nat) : List Nat → Got
  | [] => ⟨[], s, false⟩
  | base :: t =>
    let s1 := s.l1FillBlock core idx z cmp first base
    let at_ := (List.range n).filter fun i => base ≤ a + i && a + i < base + 4 * z
    let vs := at_.map fun i => ((s1.core core).l1Byte (a + i) false).getD (0, false)
    let s2 := s1.modCore core fun c => c.l1Touch (a + at_.headD 0) at_.length first id
    let r := s2.l1Fetch core idx z cmp first a n t
    ⟨vs.map (·.1) ++ r.bytes, r.st, vs.any (·.2) || r.bad⟩

/-- A piece read at its home by NOL1 or LAST: the core's own dirty bytes over it (R242, R301). -/
def State.l1Direct (s : State) (core : Nat) (pol : Policy) (a n : Nat) : Got :=
  let c := s.core core
  let (bs, s1) := (s.count core 5).homeRead a n
  let own := (List.range n).map fun i => c.l1Byte (a + i) true
  let vs := own.zipIdx.map fun e => (e.1.map (·.1)).getD (bs.getD e.2 0)
  let bad := own.zipIdx.any fun e => match e.1 with
    | some v => v.2
    | none => s.poisoned (a + e.2) 1
  let last (c : Core) : Core :=
    { c with l1 := (c.l1.filter fun b => b.meets a n && b.dirty == 0) ++ c.l1.filter fun b => !(b.meets a n && b.dirty == 0) }
  ⟨vs, s1.modCore core fun c => let c := c.l1Refresh a n
                               if pol == .last then last c else c, bad⟩

/-- One piece read by a core: from the one block that holds it, else from its home with the core's own dirty bytes over it, and
into blocks of the predicted size where the policy caches it (R217, R242, R301, R302). -/
def State.readPiece1 (s : State) (core idx z : Nat) (pol : Policy) (cmp : Bool) (a n : Nat) : Got :=
  let c := s.core core
  if pol == .nol1 || pol == .last || c.l1Words == 0 then s.l1Direct core pol a n
  else
    match (c.l1Serves a n).filter fun b => b.words == z with
    | some b =>
      ⟨(List.range n).map fun i => b.data.getD (a + i - b.addr) 0, s.modCore core fun c => c.l1Touch a n (pol == .strm) id,
        (List.range n).any fun i => b.bad.getLsbD (sectorByte (a + i))⟩
    | none => (s.count core 4).l1Fetch core idx z cmp (pol == .strm) a n (basesOf z a n)

/-- Pieces read by a core, in order. -/
def State.readEach (s : State) (core idx z : Nat) (pol : Policy) (cmp : Bool) : List (Nat × Nat) → Got
  | [] => ⟨[], s, false⟩
  | p :: t =>
    let r := s.readPiece1 core idx z pol cmp p.1 p.2
    let r' := r.st.readEach core idx z pol cmp t
    ⟨r.bytes ++ r'.bytes, r'.st, r.bad || r'.bad⟩

/-- The block size in words that the predictor gives a PC's accesses (R217, R218). -/
def Core.predicted (c : Core) (idx : Nat) : Nat := KV.get 8 c.pred idx

/-- The one size of all blocks that an access touches (R217): that of the blocks that it hits in, where it hits in all and they
agree, else the predicted one. -/
def oneSize (z : Nat) (hits : List (Option L1Block)) : Nat :=
  match hits with
  | some b :: t => if t.all fun h => (h.map (·.words)) == some b.words then b.words else z
  | _ => z

/-- Bytes read by a core at a canonical address (R240, R242): the blocks that the access touches have one size (R217). -/
def State.coreRead (s : State) (core idx : Nat) (pol : Policy) (cmp : Bool) (a n : Nat) : Got :=
  let c := s.core core
  let ps := pieces (n / 32 + 2) a n
  s.readEach core idx (oneSize (c.predicted idx) (ps.map fun p => c.l1Serves p.1 p.2)) pol cmp ps

/-- A byte leaves an L1 unwritten. -/
def Core.l1Forget (c : Core) (a : Nat) : Core :=
  let m : BitVec 32 := ~~~(BitVec.ofNat 32 (2 ^ sectorByte a))
  { c with l1 := c.l1.map fun b =>
      if b.covers a then { b with valid := b.valid &&& m, dirty := b.dirty &&& m } else b }

/-- Bytes written by a core at a canonical address (R242): blocks are allocated without a fill (R217). -/
def State.coreWrite (s : State) (core idx : Nat) (pol : Policy) (cmp : Bool) (a : Nat) (bs : List Byte) : State :=
  if pol == .nol1 || pol == .last || (s.core core).l1Words == 0 then
    let s := s.modCore core fun c => (List.range bs.length).foldl (fun c i => c.l1Forget (a + i)) c
    (s.count core 5).homeWrite a (bs.map some) cmp
  else
    let c := s.core core
    let z := oneSize (c.predicted idx) ((List.range bs.length).map fun i => c.l1.find? (·.covers (a + i)))
    (bs.zipIdx).foldl (fun s e =>
      let s := s.l1Ensure core (a + e.2) idx z cmp (pol == .strm)
      s.modCore core fun c => c.l1Touch (a + e.2) 1 (pol == .strm) fun b => b.setByte (a + e.2) e.1 true cmp) s

/-- Release at a scope code, by one core (R220): 0 GROUP and 1 BLOCK do nothing. -/
def State.release (s : State) (core scope : Nat) : State :=
  if scope ≤ 1 then s else s.l1BackWhere core fun b => b.dirty != 0 && b.scope == 1

/-- Acquire at a scope code, by one core (R220): bytes that are not dirty go, and the blocks that hold no other leave. -/
def State.acquire (s : State) (core scope : Nat) : State :=
  if scope ≤ 1 then s
  else
    (s.l1Leave core ((s.core core).l1.filter fun b => b.dirty == 0)).modCore core fun c =>
      { c with l1 := c.l1.map fun b => { b with valid := b.dirty } }

/-- Clean valid bytes leave an L1, and the blocks that hold no other leave it (R218, R256). -/
def State.l1DropClean (s : State) (core : Nat) (hit : Nat → Bool) : State :=
  let mask (b : L1Block) : BitVec 32 := (List.range (4 * b.words)).foldl
    (fun m i => if hit (b.addr + i) then m ||| BitVec.ofNat 32 (2 ^ sectorByte (b.addr + i)) else m) 0
  let s := s.modCore core fun c => { c with l1 := c.l1.map fun b => { b with valid := b.valid &&& (b.dirty ||| ~~~mask b) } }
  s.l1Leave core ((s.core core).l1.filter fun b => b.valid == 0 && b.dirty == 0)

/-- Engine ranges are cleared of L1 bytes before the engine reads (R221): dirty bytes of both are written back, blocks over
the destination go. -/
def State.l1Clear (s : State) (core : Nat) (both dst : Nat → Bool) : State :=
  let hit (p : Nat → Bool) (b : L1Block) : Bool := (List.range (4 * b.words)).any fun i => p (b.addr + i)
  let s := s.l1BackWhere core fun b => hit both b
  s.l1Leave core ((s.core core).l1.filter (hit dst))

/-! ### Translation (R340–R342) -/

/-- Why an access stops in translation: a page request of a stage (with WHY, LEVEL and the input page's address), or a fatal
cause. -/
inductive Stop where
  | miss (stage why level page : Nat)
  | fatal (cause : Nat)
deriving DecidableEq, Repr

/-- What a page-table entry says (R341). -/
inductive Pte where
  | invalid
  | malformed
  | table (addr : Nat)
  | leaf (addr size : Nat)
deriving DecidableEq, Repr

/-- Read a page-table entry at a level (R340, R341). -/
def pteOf (level : Nat) (e : Dword) : Pte :=
  let t := e.getLsbD 1
  let sz := (e.extractLsb' 2 2).toNat
  let addr := (e &&& 0x000FFFFFFFFFE000).toNat
  if !e.getLsbD 0 then .invalid
  else if e.extractLsb' 62 2 != 0 || e.extractLsb' 4 9 != 0 || sz == 3 then .malformed
  else if t then (if level == 0 || e.extractLsb' 52 10 != 0 then .malformed else .table addr)
  else
    let size := if sz == 0 then 2 ^ 16 else if sz == 1 then 2 ^ 21 else 2 ^ 30
    let fit := (level == 0 && sz ≤ 1) || (level == 1 && sz == 2)
    if fit && addr % size == 0 then .leaf addr size else .malformed

/-- The TLB entry of a leaf. -/
def leafEntry (stage tag va : Nat) (e : Dword) (addr size : Nat) : TlbEntry :=
  { stage := stage, tag := tag, base := va / size * size, size := size, out := addr, cmp := e.getLsbD 61, pkd := e.getLsbD 60,
    priv := e.getLsbD 59, x := e.getLsbD 58, w := e.getLsbD 57, rd := e.getLsbD 56 }

/-- Walk the tables of a stage from a level downwards; `rd` reads an entry at an address of the tables (R340). -/
def walk (rd : Nat → Except Stop Dword) (stage tag va : Nat) : Nat → Nat → Except Stop TlbEntry
  | 0, table => do
    let e ← rd (table + 8 * (va / 2 ^ 16 % 1024))
    match pteOf 0 e with
    | .leaf a z => .ok (leafEntry stage tag va e a z)
    | .invalid => .error (.miss stage 0 0 (va / 2 ^ 16 * 2 ^ 16))
    | _ => .error (.miss stage 1 0 (va / 2 ^ 16 * 2 ^ 16))
  | l + 1, table => do
    let e ← rd (table + 8 * (va / 2 ^ (16 + 10 * (l + 1)) % 1024))
    match pteOf (l + 1) e with
    | .table a => walk rd stage tag va l a
    | .leaf a z => .ok (leafEntry stage tag va e a z)
    | .invalid => .error (.miss stage 0 (l + 1) (va / 2 ^ 16 * 2 ^ 16))
    | .malformed => .error (.miss stage 1 (l + 1) (va / 2 ^ 16 * 2 ^ 16))

/-- A page-table entry read at the home of its line (R342). -/
def State.readPte (s : State) (pa : Nat) : Except Stop Dword :=
  match s.place pa with
  | .mem _ => if s.poisoned pa 8 then .error (.fatal 0x11) else .ok (BitVec.ofNat 64 (bytesToNat (s.homeRead pa 8).1))
  | .remote _ => .ok (BitVec.ofNat 64 (bytesToNat (s.homeRead pa 8).1))
  | _ => .error (.fatal 0x10)

/-- The TLBs that an access consults: those of its core and of the core's die; none for the front end. -/
def State.tlbs (s : State) (core : Option Nat) : List TlbEntry :=
  match core with
  | some c => (s.core c).tlb ++ (s.die (dieOf c)).tlb
  | none => []

/-- A leaf from a TLB. -/
def tlbFind (t : List TlbEntry) (stage tag a : Nat) : Option TlbEntry :=
  t.find? fun e => e.stage == stage && e.tag == tag && e.base ≤ a && a < e.base + e.size

/-- Where a leaf sends an address. -/
def TlbEntry.apply (e : TlbEntry) (a : Nat) : Nat := e.out + a % e.size

/-- The walk caches that an access consults (R342): those of its core's die; none for the front end. -/
def State.walksOf (s : State) (core : Option Nat) : List WalkEntry :=
  match core with
  | some c => (s.die (dieOf c)).walks
  | none => []

/-- Where a walk starts (R342): below the lowest cached table entry that covers its address, else at the root. -/
def walkStart (ws : List WalkEntry) (stage tag va root : Nat) : Nat × Nat :=
  let hit (w : WalkEntry) : Bool := w.stage == stage && w.tag == tag && w.base ≤ va && va < w.base + w.size
  match (ws.filter hit).foldl (fun b w => match b with
      | none => some w
      | some v => if w.level < v.level then some w else some v) (none : Option WalkEntry) with
  | some w => (w.level - 1, w.table)
  | none => (3, root)

/-- The table entries that a walk meets from a level downwards, as a walk cache holds them (R342). -/
def walkTables (rd : Nat → Except Stop Dword) (stage tag va : Nat) : Nat → Nat → List WalkEntry
  | 0, _ => []
  | l + 1, table =>
    let z := 2 ^ (16 + 10 * (l + 1))
    match rd (table + 8 * (va / z % 1024)) with
    | .error _ => []
    | .ok e => match pteOf (l + 1) e with
      | .table a => ⟨stage, tag, l + 1, va / z * z, z, a⟩ :: walkTables rd stage tag va l a
      | _ => []

/-- The caches of translation that serve a core: its TLBs and walk caches. -/
structure Cached where
  tlb : List TlbEntry := []
  walks : List WalkEntry := []

/-- The root table of a virtual function or context. -/
def rootOf (ttb : Dword) : Nat := (ttb &&& 0x000FFFFFFFFFE000).toNat

/-- Stage 2 of an intermediate address; virtual function 0 has none (R342). -/
def State.stage2 (s : State) (k : Cached) (vf ipa : Nat) : Except Stop (Nat × Option TlbEntry) :=
  if vf = 0 then .ok (ipa, none)
  else
    match tlbFind k.tlb 2 vf ipa with
    | some e => .ok (e.apply ipa, some e)
    | none => do
      let st := walkStart k.walks 2 vf ipa (rootOf (s.vf vf).httb)
      let e ← walk s.readPte 2 vf ipa st.1 st.2
      .ok (e.apply ipa, some e)

/-- An entry of a stage-1 table, whose address stage 2 translates first (R342). -/
def State.readPte1 (s : State) (k : Cached) (vf ipa : Nat) : Except Stop Dword := do
  let r ← s.stage2 k vf ipa
  s.readPte r.1

/-- Stage 1 of a virtual address (R342). -/
def State.stage1 (s : State) (k : Cached) (ctx va : Nat) : Except Stop TlbEntry :=
  match tlbFind k.tlb 1 ctx va with
  | some e => .ok e
  | none =>
    let c := s.ctx ctx
    let st := walkStart k.walks 1 ctx va (rootOf c.gttb)
    walk (s.readPte1 k c.vf) 1 ctx va st.1 st.2

/-- A translated address with its combined attributes (R216, R341). -/
structure Mapped where
  pa : Nat
  cmp : Bool
  pkd : Bool
  priv : Bool
  x : Bool
  w : Bool
  rd : Bool
deriving DecidableEq, Repr

/-- Translate a virtual address of a context. -/
def State.xlate (s : State) (core : Option Nat) (ctx va : Nat) : Except Stop Mapped := do
  let k : Cached := ⟨s.tlbs core, s.walksOf core⟩
  let e ← s.stage1 k ctx (va % 2 ^ 52)
  let ipa := e.apply (va % 2 ^ 52)
  let r ← s.stage2 k (s.ctx ctx).vf ipa
  match r.2 with
  | none => .ok ⟨r.1, e.cmp, e.pkd, e.priv, e.x, e.w, e.rd⟩
  | some f =>
    .ok ⟨r.1, e.cmp && f.cmp, e.pkd || f.pkd, e.priv || f.priv, e.x && f.x, e.w && f.w, e.rd && f.rd⟩

/-- The TLBs of a core and of its die keep the walk of an address (R342, log 10). -/
def State.tlbFill (s : State) (core ctx va : Nat) : State :=
  let k : Cached := ⟨s.tlbs (some core), s.walksOf (some core)⟩
  match s.stage1 k ctx (va % 2 ^ 52) with
  | .error _ => s
  | .ok e =>
    let es := match s.stage2 k (s.ctx ctx).vf (e.apply (va % 2 ^ 52)) with
      | .ok (_, some f) => [e, f]
      | _ => [e]
    let add (l : List TlbEntry) : List TlbEntry := l ++ es.filter fun x => !l.contains x
    (s.modCore core fun c => { c with tlb := add c.tlb }).modDie (dieOf core) fun d => { d with tlb := add d.tlb }

/-- The walk caches of a core's die keep the table entries of an address's walk, those of both stages (R342, log 10). -/
def State.walkFill (s : State) (core ctx va : Nat) : State :=
  let k : Cached := ⟨s.tlbs (some core), s.walksOf (some core)⟩
  let vf := (s.ctx ctx).vf
  let va := va % 2 ^ 52
  let ts := walkTables (s.readPte1 {} vf) 1 ctx va 3 (rootOf (s.ctx ctx).gttb)
  let out : List Nat := match s.stage1 k ctx va with
    | .ok e => [e.apply va]
    | .error _ => []
  let two (ipa : Nat) : List WalkEntry :=
    if vf = 0 then [] else walkTables s.readPte 2 vf ipa 3 (rootOf (s.vf vf).httb)
  let ws := ts ++ (ts.map (·.table) ++ out).flatMap two
  s.modDie (dieOf core) fun d => { d with walks := ws.foldl (fun l w => if l.contains w then l else l ++ [w]) d.walks }

/-- What an access wants of a mapping; `hw` and `hwRead` mark the hardware's own writes and reads (R399). -/
inductive Want where
  | read | write | exec | atomic | hw | hwRead
deriving DecidableEq, Repr

/-- PRQ.ACC of an access (R345). -/
def Want.acc : Want → Nat
  | .read => 0
  | .write => 1
  | .exec => 2
  | .atomic => 3
  | .hw => 1
  | .hwRead => 0

/-- Whether an access is the hardware's own (R399). -/
def Want.isHw (w : Want) : Bool := w == .hw || w == .hwRead

/-- Whether a mapping grants an access (R341, R399). -/
def Mapped.grants (m : Mapped) (w : Want) (priv : Bool) : Bool :=
  match w with
  | .hw => true
  | .hwRead => true
  | .read => m.rd && (priv || !m.priv)
  | .write => m.w && (priv || !m.priv)
  | .exec => m.x && (priv || !m.priv)
  | .atomic => m.rd && m.w && (priv || !m.priv)

/-- Translate and check an access; a hole, the control window without privilege and a refusal are permission violations
(R214, R241). -/
def State.access (s : State) (core : Option Nat) (ctx va : Nat) (w : Want) (priv : Bool) : Except Stop Mapped := do
  let m ← s.xlate core ctx va
  if !m.grants w priv then .error (.fatal 0x10)
  else
    match s.place m.pa with
    | .hole => .error (.fatal 0x10)
    | _ => if s.inWindow m.pa && !(priv && m.priv) then .error (.fatal 0x10) else .ok { m with pa := s.canon m.pa }

/-! ### Page requests (R345, R346) -/

/-- A walk that stopped (R346, R373): it joins a request of the same queue, stage and page, or a new one waits for the ring.
The answer is the request's key. -/
def State.requestPage (s : State) (ctx stage why level page gva acc core : Nat) (eng : Bool) : Nat × State :=
  let vf := (s.ctx ctx).vf
  let q := if stage = 1 then (s.vf vf).gq else (s.vf vf).hq
  match q.reqs.find? fun r => r.page == page with
  | some r => (r.key, s)
  | none =>
    let (key, s) := s.fresh
    let r : PrqReq := ⟨key, 0, page, acc, eng, why, ctx, level, gva, core, false⟩
    let add (p : Prq) : Prq := { p with reqs := p.reqs ++ [r] }
    (key, (if core < 320 then s.count core 6 else s).modVf vf fun v =>
      if stage = 1 then { v with gq := add v.gq } else { v with hq := add v.hq })

/-- REQID of a request, once it is written. -/
def State.reqidOf (s : State) (vf stage key : Nat) : Nat :=
  let q := if stage = 1 then (s.vf vf).gq else (s.vf vf).hq
  match q.reqs.find? fun r => r.key == key with
  | some r => r.reqid
  | none => 0

/-- PRQ.CORE of a group: its core, or the command processor of its queue (R345). -/
def Group.reqCore (g : Group) : Nat :=
  if g.isQueue then 320 + 4 * (g.blk / 64) + g.blk / 16 % 4 else g.core

/-- The core whose TLBs and caches serve a group; none for a queue program. -/
def Group.core? (g : Group) : Option Nat := if g.isQueue then none else some g.core

/-- A token for the lanes of a mask (R346). -/
def State.token (s : State) (ctx stage key : Nat) (m : Lanes) : Token :=
  { mask := m, key := key, reqid := s.reqidOf (s.ctx ctx).vf stage key, vf := (s.ctx ctx).vf, stage := stage, status := .pending }

/-- A lane whose access stopped in translation: the walk's stage, WHY, LEVEL and page, the virtual address. -/
structure Miss where
  lane : Nat
  stage : Nat
  why : Nat
  level : Nat
  page : Nat
  va : Nat
  hw : Bool := false
  /-- PRQ.ACC of the access (R345). -/
  acc : Nat := 0
deriving DecidableEq, Repr

/-- The lanes that hold a token replied invalid (R347). -/
def Split.invalid (sp : Split) : Lanes :=
  sp.tokens.foldl (fun m t => if t.status = .invalid then m ||| t.mask else m) 0

/-- Tokens for missed lanes, at most 15 in all, one for each page; lanes beyond wait without one (R346). -/
def State.tokensFor (s : State) (ctx : Nat) (w : Want) (core : Nat) : List Miss → List (Token × Nat) → List (Token × Nat) × State
  | [], ts => (ts, s)
  | m :: t, ts =>
    let same (e : Token × Nat) : Bool := e.1.stage == m.stage && e.2 == m.page && e.1.status != .invalid
    if ts.any same then
      s.tokensFor ctx w core t (ts.map fun e => if same e then ({ e.1 with mask := e.1.mask ||| oneLane m.lane }, e.2) else e)
    else if 15 ≤ ts.length then s.tokensFor ctx w core t ts
    else
      let (key, s) := s.requestPage ctx m.stage m.why m.level m.page m.va w.acc core w.isHw
      s.tokensFor ctx w core t (ts ++ [(s.token ctx m.stage key (oneLane m.lane), m.page)])

/-- The executing split parks for pages; `due` are the lanes not yet performed. Lanes replied invalid keep their tokens and
are not requested again (R347). -/
def State.parkPages (s : State) (x : Ex) (ms : List Miss) (due : Lanes) (w : Want) : State :=
  let miss := maskOf (ms.map (·.lane))
  let kept := (x.sp.tokens.filter fun t => t.status = .invalid && t.mask &&& miss != 0).map fun t =>
    ({ t with mask := t.mask &&& miss }, 0)
  let (ts, s) := s.tokensFor x.g.ctx w x.g.reqCore (ms.filter fun m => !x.sp.invalid.getLsbD m.lane) kept
  s.modSplit x.gid x.sid fun sp => { sp with park := .page, due := some due, tokens := ts.map (·.1) }

/-- Missed lanes of an instruction: a page request where some lane is not replied invalid, else the translation trap with
those lanes in LMASK (R347). -/
def State.missed (s : State) (x : Ex) (ms : List Miss) (due : Lanes) (w : Want) : State :=
  if ms.all fun m => x.sp.invalid.getLsbD m.lane then
    s.trap x 0x05 (maskOf (ms.map (·.lane))) (match ms with
      | m :: _ => m.va
      | [] => 0)
  else s.parkPages x ms due w

/-- A fatal fault met by the executing instruction; it also stops a queue program (R67, R355). -/
def State.fatalEx (s : State) (x : Ex) (cause faddr : Nat) : State :=
  if x.g.isQueue then (s.fatalAt x cause faddr).stopQueue x.gid (queueFault cause) x.sp.pc else s.fatalAt x cause faddr

/-- A stop met by an access that the instruction makes as a whole. -/
def State.stopWhole (s : State) (x : Ex) (st : Stop) (va : Nat) (w : Want) : State :=
  match st with
  | .fatal c => s.fatalEx x c va
  | .miss stage why level page => s.missed x (x.list.map fun l => ⟨l, stage, why, level, page, va, false, w.acc⟩) x.lanes w

/-! ### Code (R134, R147, R150) -/

/-- A line of code as its fetcher sees it: from an instruction cache, or from the home of the line. -/
def State.codeLine (s : State) (g : Group) (va : Nat) : Except Stop (List Word × State) :=
  let base := va / 128 * 128
  let cache := if g.isQueue then (s.cp (g.blk / 16)).icache else (s.core g.core).icache
  match cache.find? fun l => l.ctx == g.ctx && l.addr == base with
  | some l => .ok (l.words, s)
  | none => do
    let m ← s.access g.core? g.ctx base .exec (s.privOf g)
    if s.poisoned m.pa 128 then .error (.fatal 0x11)
    else
      let (bs, s) := (match g.core? with
        | some c => s.count c 5
        | none => s).homeRead m.pa 128
      let ws := lineWords bs
      let line : ICLine := ⟨g.ctx, base, ws⟩
      let s := s.claim g.ctx
      .ok (ws, if g.isQueue then s.modCp (g.blk / 16) fun c => { c with icache := c.icache ++ [line] }
        else s.modCore g.core fun c => { c with icache := c.icache ++ [line] })

/-- The body that a group issues from the loop buffer of its quadrant (R151). -/
def State.loopOf (s : State) (g : Group) : Option LoopBuf :=
  if g.isQueue then none
  else (s.core g.core).loops.find g.quad |>.filter fun b => b.ctx == g.ctx && g.fence ≤ b.serial

/-- The clause of a header, or a pad, from the loop buffer (R151). -/
def State.fromLoop (s : State) (g : Group) (va : Nat) : Option (List Word) := (s.loopOf g).bind fun b => b.clauses.find va

/-- A word of the captured body, which is not fetched (R151). -/
def State.loopWord (s : State) (g : Group) (va : Nat) : Option Word :=
  (s.loopOf g).bind fun b => b.clauses.findSome? fun e => if e.1 ≤ va then e.2[(va - e.1) / 4]? else none

/-- A word of code: from the loop buffer, else fetched. -/
def State.codeWord (s : State) (g : Group) (va : Nat) : Except Stop (Word × State) := do
  match s.loopWord g va with
  | some w => .ok (w, s)
  | none =>
    let (ws, s) ← s.codeLine g va
    .ok (ws.getD (va % 128 / 4) 0, s)

/-- What stands where a header is expected (R144, R147). -/
inductive HeadWord where
  | clause (n cls : Nat) (l d : Bool) (tvl tvs tce tat : Nat)
  | pad
  | entry (rblk lskib : Nat)
  | bad
deriving DecidableEq, Repr

/-- Read a header word; `off` is its byte offset in its 128-byte line. -/
def headWord (w : Word) (off : Nat) : HeadWord :=
  let n := (w.extractLsb' 22 4).toNat
  let f (i k : Nat) : Nat := (w.extractLsb' i k).toNat
  if wMaj w != 0x3F then .bad
  else if n = 0 then
    if w = 0xFC000000 then .pad
    else if f 14 8 = 0 || 24 < f 14 8 || f 0 6 != 0 || off != 0 then .bad
    else .entry (f 14 8) (f 6 8)
  else if w.getLsbD 16 || f 19 3 = 5 || f 19 3 = 6 || 128 < off + 4 + 4 * n then .bad
  else .clause n (f 19 3) (w.getLsbD 18) (w.getLsbD 17) (f 12 4) (f 8 4) (f 4 4) (f 0 4)

/-- Whether a word stands as a clause header with N ≥ 1 (R149). -/
def isHeader (w : Word) : Bool := wMaj w == 0x3F && w.extractLsb' 22 4 != 0#4
/-- Whether a word is a header that JMPI may reach. -/
def isLanding (w : Word) : Bool := isHeader w && w.getLsbD 18

/-- Lines of the address space: a run of pad words is never longer. -/
def padFuel : Nat := 2 ^ 45

/-- Pass over pad words from an address: the first header or other word (R147, R149). -/
def State.skipPads (s : State) (g : Group) : Nat → Nat → Except Stop (Nat × State)
  | 0, va => .ok (va, s)
  | fuel + 1, va => do
    let (w, s) ← s.codeWord g va
    if w = 0xFC000000 then s.skipPads g fuel ((va / 128 * 128 + 128) % 2 ^ 52) else .ok (va, s)

end Sys2Proof.Machine
end

