-- ==== Sys2Proof/Machine/Control.lean ====
section
/-! DEFINITION. Control flow (R204–R212) with the split table and join records (R164–R167), the loop buffer (R151), requests
for register blocks (R175). -/

namespace Sys2Proof.Machine

/-- A target at a signed word offset from an address (R135). -/
def wordTarget (pc : Nat) (off : BitVec 20) : Nat := (((pc : Int) + 4 * off.toInt) % 2 ^ 52).toNat

/-! ### Register blocks (R175) -/

/-- Bytes of the register region that a number of blocks takes (R175). -/
def blockBytes (w n : Nat) : Nat := 32 * w * n

/-- Whether a group may ask for a number of register blocks (R175, R366). -/
def State.blocksAllowed (s : State) (g : Group) (n : Nat) : Bool :=
  n ≤ s.rbmaxOf g && blockBytes g.width n ≤ (s.core g.core).poolb0 * 8192

/-- A split enters the register FIFO of its core and parks (R168, R175). -/
def State.requestRegs (s : State) (gid sid core target : Nat) (dst : Option Nat) (drain : Bool) : State :=
  let s := s.modSplit gid sid fun sp => { sp with park := .regs target dst drain }
  s.modCore core fun c => { c with rbFifo := c.rbFifo ++ [⟨gid, sid⟩] }

/-! ### Splits and join records (R164–R167) -/

/-- A split that starts at an address. -/
def freshSplit (pc : Nat) (mask : Lanes) (jrec : Option Nat) (park : Park) : Split :=
  { pc := pc, mask := mask, jrec := jrec, park := park }

/-- Add a split in a free entry of the eight. -/
def Group.newSplit (g : Group) (sp : Split) : Option (Nat × Group) :=
  (g.splits.freshBelow 8).map fun k => (k, { g with splits := g.splits.insert k sp })

/-- Add a join record; one of 63 is always free (R164). -/
def Group.newRec (g : Group) (r : JoinRec) : Nat × Group :=
  let k := (g.joins.freshBelow 63).getD 62
  (k, { g with joins := g.joins.insert k r })

/-- Arrival of a split at its join record (R166). -/
def Group.arrive (g : Group) (sid : Nat) : Group :=
  match g.splits.find sid with
  | none => g
  | some sp =>
    match sp.jrec with
    | none => g
    | some k =>
      match g.joins.find k with
      | none => g
      | some r =>
        let arrived := r.arrived ||| sp.mask
        if r.defer != 0 then
          { g with
            splits := g.splits.insert sid
              { (freshSplit r.dpc r.defer (some k) .no) with resumeAt := some (r.dpc, r.dhdr), lastIssue := sp.lastIssue }
            joins := g.joins.insert k { r with arrived := arrived, defer := 0, reeval := true } }
        else if arrived = r.expect then
          { g with
            splits := g.splits.insert sid { (freshSplit r.jpc r.expect r.outer .no) with lastIssue := sp.lastIssue }
            joins := g.joins.erase k }
        else { g with splits := g.splits.erase sid, joins := g.joins.insert k { r with arrived := arrived } }

/-- Lanes that exit leave EXPECT and ARRIVED of a record and of its OUTER chain (R167). -/
def stripChain : Nat → KV JoinRec → Option Nat → Lanes → KV JoinRec
  | 0, js, _, _ => js
  | fuel + 1, js, k, x =>
    match k with
    | none => js
    | some k =>
      match js.find k with
      | none => js
      | some r =>
        stripChain fuel (js.insert k { r with expect := r.expect &&& ~~~x, arrived := r.arrived &&& ~~~x }) r.outer x

/-- The examination of a chain of records from the innermost outward, once a split's last lane has left (R167). -/
def Group.examine : Nat → Group → Option Nat → Group
  | 0, g, _ => g
  | fuel + 1, g, k =>
    match k with
    | none => g
    | some k =>
      match g.joins.find k with
      | none => g
      | some r =>
        if g.splits.any fun e => e.2.mask &&& r.expect != 0 then g
        else if r.defer != 0 then
          let g := { g with joins := g.joins.insert k { r with defer := 0, reeval := true } }
          match g.newSplit { (freshSplit r.dpc r.defer (some k) .no) with resumeAt := some (r.dpc, r.dhdr) } with
          | some (_, g) => g
          | none => g
        else if r.expect = 0 then Group.examine fuel { g with joins := g.joins.erase k } r.outer
        else if r.arrived = r.expect then
          let g := { g with joins := g.joins.erase k }
          match g.newSplit (freshSplit r.jpc r.expect r.outer .no) with
          | some (_, g) => g
          | none => g
        else g

/-- EXIT's removal of lanes from a split (R167, R212). -/
def Group.exitLanes (g : Group) (sid : Nat) (x : Lanes) : Group :=
  match g.splits.find sid with
  | none => g
  | some sp =>
    let mask := sp.mask &&& ~~~x
    let g := { g with live := g.live &&& ~~~x, joins := stripChain 64 g.joins sp.jrec x }
    if mask != 0 then { g with splits := g.splits.insert sid { sp with mask := mask } }
    else
      let g := { g with
        splits := g.splits.erase sid
        handler := match g.handler with
          | some h => if h.sid = sid then none else some h
          | none => none }
      g.examine 64 sp.jrec

/-! ### Simple transfers -/

/-- The lanes that a conditional transfer concerns: m0 AND m[MR], all of m0 when MR is 0 (R204). -/
def Ex.cond (x : Ex) (mr : BitVec 4) : Lanes := if mr = 0 then x.lanes else x.lanes &&& x.g.readM mr.toNat

/-- A transfer must end its clause (R149), and a queue program names no mask but m0 (R67). -/
def Ex.badTransfer (x : Ex) (mr : BitVec 4) : Bool := !x.lastInClause || (x.g.isQueue && mr != 0)

/-- How a split that leaves this instruction for a header parks (R146, R336). -/
def State.parkAfter (s : State) (x : Ex) : Park := (x.sp.advance (s.drains x.g)).park

/-- NOP (R205). -/
def execNop (s : State) : Out := s.withEx fun x => s.finish x

/-- Word indices of a clause at which instructions start (R136). -/
def wordStarts : Nat → List Word → List Nat
  | 0, _ => []
  | fuel + 1, ws =>
    match ws with
    | [] => []
    | _ => 0 :: (wordStarts fuel (ws.drop (rawLen ws))).map (· + rawLen ws)

/-- The clauses from a header to one that holds an address, with the pads between them: at most `left` clauses, no call among
them (R151). -/
def State.body (s : State) (g : Group) (last : Nat) : Nat → Nat → Nat → Option (KV (List Word))
  | 0, _, _ => none
  | fuel + 1, left, va =>
    match s.codeLine g va with
    | .error _ => none
    | .ok (ws, _) =>
      let w := ws.getD (va % 128 / 4) 0
      match headWord w (va % 128) with
      | .pad => (State.body s g last fuel left (va / 128 * 128 + 128)).map fun t => (va, [w]) :: t
      | .clause n .. =>
        let words := (ws.drop (va % 128 / 4 + 1)).take n
        let calls := (wordStarts 16 words).any fun i => match words[i]? with
          | some b => (wMaj b == 0x26 && wCs b == 3) || (wMaj b == 0x28)
          | none => false
        if calls || left = 0 then none
        else if last = va then some [(va, w :: words)]
        else (State.body s g last fuel (left - 1) (va + 4 + 4 * n)).map fun t => (va, w :: words) :: t
      | _ => none

/-- Whether an address lies in a captured body. -/
def LoopBuf.holds (b : LoopBuf) (va : Nat) : Bool := b.clauses.any fun e => e.1 ≤ va && va < e.1 + 4 * e.2.length

/-- A backward branch that is taken: the quadrant captures the body, if its buffer is free (R151). -/
def State.capture (s : State) (x : Ex) (target : Nat) : State :=
  let hdr := match x.sp.clause with
    | some c => c.hdr
    | none => x.sp.pc
  if x.g.isQueue || x.sp.pc < target then s
  else
    let busy : Bool := match (s.core x.g.core).loops.find x.g.quad with
      | none => false
      | some b => s.groups.any fun e => !e.2.isQueue && e.2.core == x.g.core && e.2.quad == x.g.quad && e.2.ctx == b.ctx &&
          e.2.res != .evicted && List.any e.2.splits fun p => p.2.inLoop || (e.2.fence ≤ b.serial && b.holds p.2.pc)
    if busy then s
    else
      match s.body x.g hdr ((hdr - target) / 128 + 10) 8 target with
      | none => s
      | some cs =>
        let lines := (List.map (fun (e : Nat × List Word) => e.1 / 128) cs).eraseDups
        if 4 < lines.length then s
        else
          let (k, s) := s.fresh
          s.modCore x.g.core fun c => { c with loops := c.loops.insert x.g.quad ⟨k, x.g.ctx, target, hdr, cs⟩ }

/-- BRA (R205). -/
def execBra (o : COps) (s : State) : Out :=
  s.withEx fun x =>
    if x.badTransfer o.mr then s.illegal x
    else if o.mr != 0 && x.cond o.mr = 0 then s.goto x x.nextHeader
    else
      let t := wordTarget x.sp.pc o.off
      match s.codeWord x.g t with
      | .error st => s.stopWhole x st t .exec
      | .ok (w, s) => if isHeader w then (s.capture x t).goto x t else s.illegal x

/-- What a BRD whose lanes disagree does to its group (R165). -/
def Group.diverge (g : Group) (x : Ex) (t f : Lanes) (target join next : Nat) (park : Park) : Group :=
  let hdr := match x.sp.clause with
    | some c => c.hdr
    | none => x.sp.pc
  let re := match x.sp.jrec with
    | none => none
    | some j => match g.joins.find j with
      | some r => if r.reeval && r.dpc == x.sp.pc then some j else none
      | none => none
  let (k, g) := match re with
    | some j => (j, g)
    | none => g.newRec { jpc := join, expect := x.sp.mask, outer := x.sp.jrec }
  match g.newSplit (freshSplit target t (some k) park) with
  | some (_, g) =>
    { g with splits := g.splits.modify x.sid fun sp =>
        { (freshSplit next f (some k) park) with lastIssue := sp.lastIssue } }
  | none =>
    { g with
      splits := g.splits.modify x.sid fun sp => { (freshSplit target t (some k) park) with lastIssue := sp.lastIssue }
      joins := g.joins.modify k fun r => { r with defer := f, dpc := x.sp.pc, dhdr := hdr } }

/-- JR[j0].REEVAL := 0 (R165). -/
def Group.clearReeval (g : Group) (j : Option Nat) : Group :=
  match j with
  | none => g
  | some k => { g with joins := g.joins.modify k fun r => { r with reeval := false } }

/-- BRD (R165, R206): the targets are checked where some lane takes the branch. -/
def execBrd (o : BrdOps) (s : State) : Out :=
  s.withEx fun x =>
    if x.badTransfer o.mr then s.illegal x
    else
      let t := x.cond o.mr
      let f := x.sp.mask &&& ~~~t
      let target := wordTarget x.sp.pc o.off
      let join := wordTarget x.sp.pc o.join
      let done (s : State) : State := s.modGroup x.gid fun g => g.clearReeval x.sp.jrec
      if t = 0 then (done s).goto x x.nextHeader
      else
        match s.codeWord x.g target with
        | .error st => s.stopWhole x st target .exec
        | .ok (w, s) =>
          match s.codeWord x.g join with
          | .error st => s.stopWhole x st join .exec
          | .ok (v, s) =>
            if !(isHeader w && isHeader v) then s.trap x 0x01 t 0
            else if f = 0 then ((done s).capture x target).goto x target
            else
              let park := s.parkAfter x
              done ((s.capture x target).modGroup x.gid fun g => g.diverge x t f target join x.nextHeader park)

/-- JOIN (R207). -/
def execJoin (s : State) : Out :=
  s.withEx fun x =>
    if x.badTransfer 0 then s.illegal x
    else
      match x.sp.jrec with
      | none => s.goto x x.nextHeader
      | some _ =>
        let park := s.parkAfter x
        (s.modGroup x.gid fun g => g.arrive x.sid).modSplit x.gid x.sid fun sp => { sp with park := park }

/-! ### Calls, indirect transfers and returns -/

/-- Write the link pair of lanes: v0:v1, or s46:s47 in a queue program (R67, R208). -/
def Group.link (g : Group) (ls : List Nat) (rpc : Nat) : Group :=
  let lo : Word := BitVec.ofNat 32 rpc
  let hi : Word := BitVec.ofNat 32 (rpc / 2 ^ 32)
  if g.isQueue then (g.writeS 46 lo).writeS 47 hi
  else ls.foldl (fun g l => (g.writeV 0 l lo).writeV 1 l hi) g

/-- The entry descriptor at an address, if one stands there: RBLK (R147). -/
def entryOf (w : Word) (va : Nat) : Option Nat :=
  match headWord w (va % 128) with
  | .entry r _ => some r
  | _ => none

/-- The executing split goes to a function's first header, behind an implicit RGROW where its budget asks for one (R208). -/
def State.enter (s : State) (x : Ex) (sid va rblk : Nat) (drain : Bool) : State :=
  let s := s.modSplit x.gid sid fun sp => { sp with pc := va + 4 }
  if x.g.isQueue || rblk ≤ x.g.rblk then s else s.requestRegs x.gid sid x.g.core rblk none drain

/-- CALL (R208). -/
def execCall (off : BitVec 20) (s : State) : Out :=
  s.withEx fun x =>
    if x.badTransfer 0 then s.illegal x
    else
      let t := wordTarget x.sp.pc off
      match s.codeWord x.g t with
      | .error st => s.stopWhole x st t .exec
      | .ok (w, s) =>
        match entryOf w t with
        | none => s.illegal x
        | some r =>
          if !x.g.isQueue && x.g.rblk < r && !s.blocksAllowed x.g r then s.illegal x
          else
            match s.skipPads x.g padFuel x.nextHeader with
            | .error st => s.stopWhole x st x.nextHeader .exec
            | .ok (rpc, s) =>
              let drain : Bool := s.parkAfter x != Park.no
              let s := (s.modGroup x.gid fun g => g.link x.list rpc).goto x t
              s.enter x x.sid t r drain

/-- What a target of a lane must be. -/
inductive Landing where
  | entry | marked | header
deriving DecidableEq, Repr

/-- How one lane's target is judged (R149, R209): a good one with its RBLK, a bad one, one replied invalid, one that misses,
or a fatal fault. -/
inductive Verdict where
  | good (rblk : Nat)
  | bad
  | invalid
  | miss (m : Miss)
  | fatal (c : Nat)
deriving DecidableEq, Repr

/-- Judge the target of a lane. -/
def State.judge (s : State) (x : Ex) (k : Landing) (l va : Nat) : Verdict :=
  if va % (if k = .entry then 128 else 4) ≠ 0 then .bad
  else
    match s.codeWord x.g va with
    | .error (.fatal c) => if c = 0x10 then .bad else .fatal c
    | .error (.miss stage why level page) =>
      if x.sp.invalid.getLsbD l then .invalid else .miss ⟨l, stage, why, level, page, va, false, 2⟩
    | .ok (w, _) =>
      match k with
      | .entry =>
        match entryOf w va with
        | some r => if x.g.isQueue || r ≤ x.g.rblk || s.blocksAllowed x.g r then .good r else .bad
        | none => .bad
      | .marked => if isLanding w then .good 0 else .bad
      | .header => if isHeader w then .good 0 else .bad

/-- A target of an indirect transfer: its address, its lanes, RBLK of its descriptor, whether its lanes are called. -/
structure Dest where
  va : Nat
  mask : Lanes
  rblk : Nat := 0
  call : Bool := false
deriving DecidableEq, Repr

/-- Distinct targets of lanes, in order of their lowest lane: lane, address, RBLK. -/
def gather (call : Bool) (ls : List (Nat × Nat × Nat)) : List Dest :=
  ls.foldl (fun acc e =>
    if acc.any fun t => t.va == e.2.1 then
      acc.map fun t => if t.va = e.2.1 then { t with mask := t.mask ||| oneLane e.1 } else t
    else acc ++ [⟨e.2.1, oneLane e.1, e.2.2, call⟩]) []

/-- The judged lanes of an indirect transfer. -/
structure Judged where
  goods : List Dest
  bad : Lanes
  inv : Lanes
  misses : List Miss
  fatal : Option (Nat × Nat)

/-- Judge every lane. -/
def State.judgeAll (s : State) (x : Ex) (k : Landing) (ts : List (Nat × Nat)) : Judged :=
  let vs := ts.map fun e => (e.1, e.2, s.judge x k e.1 e.2)
  { goods := gather (k == .entry) (vs.filterMap fun e => match e.2.2 with
      | .good r => some (e.1, e.2.1, r)
      | _ => none)
    bad := maskOf (vs.filterMap fun e => match e.2.2 with
      | .bad => some e.1
      | .invalid => some e.1
      | _ => none)
    inv := maskOf (vs.filterMap fun e => match e.2.2 with
      | .invalid => some e.1
      | _ => none)
    misses := vs.filterMap fun e => match e.2.2 with
      | .miss m => some m
      | _ => none
    fatal := vs.findSome? fun e => match e.2.2 with
      | .fatal c => some (c, e.2.1)
      | _ => none }

/-- The lines of the targets are fetched through the instruction cache. -/
def State.touchCode (s : State) (g : Group) (ts : List (Nat × Nat)) : State :=
  ts.foldl (fun s e => match s.codeWord g e.2 with
    | .ok (_, s) => s
    | .error _ => s) s

/-- The trap of R209 for the lanes that a split still holds: illegal instruction, or translation where the lowest bad lane
was replied invalid (log 20). -/
def State.badTrap (s : State) (x : Ex) (j : Judged) (ts : List (Nat × Nat)) : State :=
  let low := lowLane j.bad
  let x' := { x with sp := { x.sp with mask := x.sp.mask &&& (j.bad ||| ~~~x.lanes) } }
  if j.inv.getLsbD low then
    s.trap x' 0x05 j.bad (match ts.find? fun e => e.1 == low with
      | some e => e.2
      | none => 0)
  else s.trap x' 0x01 j.bad 0

/-- A split of an indirect transfer starts at its target, with its link pair and its budget where it is called. -/
def State.startSplit (s : State) (x : Ex) (rpc : Nat) (jrec : Option Nat) (park : Park) (d : Dest) : Option State :=
  match s.group x.gid with
  | none => none
  | some g =>
    match g.newSplit (freshSplit d.va d.mask jrec park) with
    | none => none
    | some (sid, g) =>
      if d.call then
        some ((s.setGroup x.gid (g.link (laneList d.mask g.width) rpc)).enter x sid d.va d.rblk (park != .no))
      else some (s.setGroup x.gid g)

/-- Send targets to free split entries, in order; what found no entry is left (R209, R210). -/
def State.scatter (s : State) (x : Ex) (rpc : Nat) (jrec : Option Nat) (park : Park) : List Dest → List Dest × State
  | [] => ([], s)
  | d :: t =>
    match s.startSplit x rpc jrec park d with
    | none => (d :: t, s)
    | some s => s.scatter x rpc jrec park t

/-- Lanes of a target list. -/
def lanesOf (ts : List Dest) : Lanes := ts.foldl (fun m t => m ||| t.mask) 0

/-- Lanes of the split that the instruction is not executed for (R339) pass to the next header as one more target. -/
def Ex.rest (x : Ex) : List Dest :=
  let r := x.sp.mask &&& ~~~x.lanes
  if r = 0 then [] else [{ va := x.nextHeader, mask := r }]

/-- The executing split keeps lanes at its instruction (R209, R210). -/
def State.keepLanes (s : State) (x : Ex) (m : Lanes) : State :=
  s.modSplit x.gid x.sid fun sp => { sp with mask := m, due := none, tokens := [], awaitsEntry := false }

/-- The executing split keeps lanes that found no split entry: it is held until one is free (R163, R209, R210). -/
def State.awaitEntry (s : State) (x : Ex) (m : Lanes) : State :=
  (s.keepLanes x m).modSplit x.gid x.sid fun sp => { sp with awaitsEntry := true }

/-- Number of free split entries of a group. -/
def Group.freeSplits (g : Group) : Nat := 8 - g.splits.length

/-- CALLI with every target good (R209): one target goes on, several go under a new record, those without an entry are
deferred. -/
def State.calliGood (s : State) (x : Ex) (goods : List Dest) (rpc : Nat) : State :=
  let park := s.parkAfter x
  let drain := park != .no
  let hdr := match x.sp.clause with
    | some c => c.hdr
    | none => x.sp.pc
  match goods with
  | [] => s.goto x x.nextHeader
  | d :: t =>
    let s1 := (s.modGroup x.gid fun g => g.link (laneList d.mask x.g.width) rpc).goto x d.va
    match t ++ x.rest, s1.group x.gid with
    | [], _ => s1.enter x x.sid d.va d.rblk drain
    | _, none => s1
    | more, some g =>
      let (k, g) := g.newRec { jpc := rpc, expect := x.sp.mask, outer := x.sp.jrec }
      let s2 := (s1.setGroup x.gid g).modSplit x.gid x.sid fun sp => { sp with mask := d.mask, jrec := some k }
      let (left, s3) := s2.scatter x rpc (some k) park more
      let s4 := s3.modGroup x.gid fun g =>
        if left = [] then g
        else { g with joins := g.joins.modify k fun r => { r with defer := lanesOf left, dpc := x.sp.pc, dhdr := hdr } }
      (s4.modGroup x.gid fun g => g.clearReeval x.sp.jrec).enter x x.sid d.va d.rblk drain

/-- CALLI (R209). -/
def execCalli (o : TOps) (s : State) : Out :=
  s.withEx fun x =>
    if x.badTransfer 0 || badSrc x.g .i64 o.a then s.illegal x
    else
      let ts := x.list.map fun l => (l, (s.readSrc x o.lit .i64 o.a l).toNat % 2 ^ 52)
      let j := s.judgeAll x .entry ts
      let s := s.touchCode x.g ts
      match j.fatal with
      | some (c, va) => s.fatalEx x c va
      | none =>
        if j.misses != [] then s.parkPages x j.misses x.lanes .exec
        else
          match s.skipPads x.g padFuel x.nextHeader with
          | .error st => s.stopWhole x st x.nextHeader .exec
          | .ok (rpc, s) =>
            if j.bad = 0 then s.calliGood x j.goods rpc
            else
              let n := x.g.freeSplits
              let go := j.goods.take n
              let park := s.parkAfter x
              let (jrec, s) := if 1 < go.length then
                  match s.group x.gid with
                  | some g =>
                    let (k, g) := g.newRec { jpc := rpc, expect := lanesOf go, outer := x.sp.jrec }
                    (some k, s.setGroup x.gid g)
                  | none => (x.sp.jrec, s)
                else (x.sp.jrec, s)
              let (_, s) := s.scatter x rpc jrec park go
              let kept := x.sp.mask &&& ~~~(lanesOf go)
              if go.length < j.goods.length then s.awaitEntry x kept else (s.keepLanes x kept).badTrap x j ts

/-- JMPI and RET once their lanes are judged (R210, R211). -/
def State.jump (s : State) (x : Ex) (j : Judged) (ts : List (Nat × Nat)) : State :=
  let park := s.parkAfter x
  let goods := j.goods ++ (if j.bad = 0 then x.rest else [])
  if j.bad = 0 then
    match goods.getLast? with
    | none => s.goto x x.nextHeader
    | some d =>
      let (left, s) := s.scatter x 0 x.sp.jrec park goods.dropLast
      if left = [] then (s.goto x d.va).modSplit x.gid x.sid fun sp => { sp with mask := d.mask }
      else s.awaitEntry x (lanesOf left ||| d.mask)
  else
    let (left, s) := s.scatter x 0 x.sp.jrec park goods
    let kept := x.sp.mask &&& ~~~(lanesOf goods) ||| lanesOf left
    if left = [] then (s.keepLanes x kept).badTrap x j ts else s.awaitEntry x kept

/-- JMPI (R210). -/
def execJmpi (o : TOps) (s : State) : Out :=
  s.withEx fun x =>
    if x.badTransfer 0 || badSrc x.g .i64 o.a then s.illegal x
    else
      let ts := x.list.map fun l => (l, (s.readSrc x o.lit .i64 o.a l).toNat % 2 ^ 52)
      let j := s.judgeAll x .marked ts
      let s := s.touchCode x.g ts
      match j.fatal with
      | some (c, va) => s.fatalEx x c va
      | none => if j.misses != [] then s.parkPages x j.misses x.lanes .exec else s.jump x j ts

/-- The return address of a lane (R211). -/
def Group.retAddr (g : Group) (l : Nat) : Nat :=
  (if g.isQueue then g.readS64 46 else g.readV64 0 l).toNat % 2 ^ 52

/-- RET (R211): one bad lane and no lane transfers. -/
def execRet (s : State) : Out :=
  s.withEx fun x =>
    if x.badTransfer 0 || (!x.g.isQueue && x.g.rblk = 0) then s.illegal x
    else
      let ts := x.list.map fun l => (l, x.g.retAddr l)
      let j := s.judgeAll x .header ts
      let s := s.touchCode x.g ts
      match j.fatal with
      | some (c, va) => s.fatalEx x c va
      | none =>
        if j.misses != [] then s.parkPages x j.misses x.lanes .exec
        else if j.bad = 0 then s.jump x j ts
        else
          let low := lowLane j.bad
          if j.inv.getLsbD low then s.trap x 0x05 j.bad (x.g.retAddr low) else s.trap x 0x01 j.bad 0

end Sys2Proof.Machine
end

