-- ==== Sys2Proof/Machine/System.lean ====
section
/-! DEFINITION. Trap and system instructions (R357–R374) but LAUNCH, DRAW and FEXPORT. -/

namespace Sys2Proof.Machine

/-- Whether the executing split is its group's handler (R358). -/
def Ex.inHandler (x : Ex) : Bool :=
  match x.g.handler with
  | some h => h.sid == x.sid
  | none => false

/-- An instruction of a group on its core: a queue program stops at it (R357). -/
def State.kernelOnly (s : State) (k : Ex → State) : Out :=
  s.withEx fun x => if x.g.isQueue then s.illegal x else k x

/-- TRAP and BRK (R359). -/
def execTrap (_o : EOps) (s : State) : Out := s.kernelOnly fun x => s.trap x 0x06 x.lanes 0
/-- BRK (R359). -/
def execBrk (_o : EOps) (s : State) : Out := s.kernelOnly fun x => s.trap x 0x07 x.lanes 0

/-- TRET (R339, R360): the last instruction of its clause, in a handler. -/
def execTret (_o : EOps) (s : State) : Out :=
  s.kernelOnly fun x => if !x.inHandler || !x.lastInClause then s.illegal x else s.tret x.gid x.sid

/-- The elected lane of a handler (R338). -/
def Ex.elected (x : Ex) : Nat :=
  match x.g.handler with
  | some h => h.elected
  | none => 0

/-- LGET (R361). -/
def execLget (o : EOps) (s : State) : Out :=
  let wide := o.minor.getLsbD 8
  let k : Kind := if wide then .i64 else .w32
  s.kernelOnly fun x =>
    if !x.inHandler || !isVec o.a || badSrc x.g k o.a || badDst x.g wide o.d || badUniform x.g .w32 o.b then s.illegal x
    else
      let l := (s.readUni x o.lit .w32 o.b).toNat % 64
      let v := if l < x.g.width then s.readSrc x o.lit k o.a l else 0
      (s.setGroup x.gid (x.g.writeDst wide o.d x.elected v)).finish x

/-- LPUT (R361). -/
def execLput (o : EOps) (s : State) : Out :=
  let wide := o.minor.getLsbD 8
  let k : Kind := if wide then .i64 else .w32
  s.kernelOnly fun x =>
    if !x.inHandler || (o.d != 0xF0 && !isVec o.d) || badDst x.g wide o.d || badUniform x.g k o.a || badUniform x.g .w32 o.b then s.illegal x
    else
      let l := (s.readUni x o.lit .w32 o.b).toNat % 64
      let v := s.readUni x o.lit k o.a
      (if l < x.g.width then s.setGroup x.gid (x.g.writeDst wide o.d l v) else s).finish x

/-- LMASK after LMSK (R362): LD, CLR, SET. -/
def lmaskOf (op : Nat) (x : Ex) (m : Nat) (b : Nat) : Lanes :=
  match op with
  | 0 => x.readM m &&& x.g.trec2
  | 1 => x.g.readM 14 &&& ~~~(oneLane b)
  | _ => if x.g.trec2.getLsbD b then x.g.readM 14 ||| oneLane b else x.g.readM 14

/-- LMSK (R362). -/
def execLmsk (o : EOps) (s : State) : Out :=
  let op := (o.minor.extractLsb' 8 2).toNat
  s.kernelOnly fun x =>
    if !x.inHandler || (op != 0 && badUniform x.g .w32 o.b) then s.illegal x
    else
      let b := (s.readUni x o.lit .w32 o.b).toNat % 64
      (s.setGroup x.gid (x.g.writeM 14 (lmaskOf op x o.a.toNat b))).finish x

/-! ### System registers (R363–R365) -/

/-- Whether some earlier instruction of a group has still to contribute flags (R45, R363). -/
def State.flagsDue (s : State) (gid : Nat) (g : Group) : Bool :=
  g.flights.any (fun f => f.ctr = .ce || (f.flag && !f.done)) || (s.core g.core).jobs.any (fun j => j.gid == gid) ||
    (s.core g.core).seqs.any (fun q => q.gid == gid) || s.grinds.any (fun e => e.2.gid == gid) ||
    (s.core g.core).teamSteps.any (fun t => t.shares.any fun h => h.gid == gid)

/-- A system register that exists for the issuer: its value (R364). -/
def State.sysReg (s : State) (x : Ex) (n : Nat) : Option Dword :=
  let g := x.g
  let core := s.core g.core
  let die := s.die (dieOf g.core)
  let num (v : Nat) : Option Dword := some (BitVec.ofNat 64 v)
  if g.isQueue then
    match n with
    | 0x00 => some (g.fpstat.setWidth 64)
    | 0x10 => num (s.cp (g.blk / 16)).cycle
    | 0x11 => some g.gissue
    | 0x22 => num g.blk
    | _ => none
  else
    match n with
    | 0x00 => some (g.fpstat.setWidth 64)
    | 0x01 => some (s.ctx g.ctx).tvec
    | 0x02 => some (s.ctx g.ctx).stbase
    | 0x03 => some (s.ctx g.ctx).stcount
    | 0x04 => num g.rblk
    | 0x05 => num (g.np.getD 0)
    | 0x08 => some g.trec0
    | 0x09 => some g.trec1
    | 0x0A => some g.trec2
    | 0x0B => some g.trec3
    | 0x0C => some g.trec4
    | 0x10 => num core.cycle
    | 0x11 => some g.gissue
    | 0x18 => some (die.hashsel.setWidth 64)
    | 0x19 => some die.slicemap
    | 0x1A => some die.coreEn
    | 0x1C => num core.poolb0
    | 0x1D => num core.poolb1
    | 0x1E => num core.poolb2
    | 0x20 => num ((s.launchOf g).elim 0 (·.lrptr))
    | 0x21 => num ((s.launchOf g).elim 0 fun l =>
      if l.role = .kernel then l.lrec.taskptr + 32 * ((s.block g.blk).elim 0 (·.lin)) else 0)
    | _ => none

/-- Write a 64-bit value into the even pair D: a vector pair in every active lane (R363). -/
def Group.writePair (g : Group) (x : Ex) (d : BitVec 8) (v : Dword) : Group :=
  if isVec d then x.list.foldl (fun g l => g.writeDst true d l v) g else g.writeDst true d 0 v

/-- SRD (R363). -/
def execSrd (o : EOps) (s : State) : Out :=
  let n := (o.minor.extractLsb' 8 8).toNat
  s.withEx fun x =>
    if badDst x.g true o.d then s.illegal x
    else
      match s.sysReg x n with
      | none => s.illegal x
      | some v =>
        if n = 0 && s.flagsDue x.gid x.g then s
        else (s.setGroup x.gid (x.g.writePair x o.d v)).finish x

/-- SWR (R363): FPSTAT, TVEC, and in a handler TREC0.RPC and TREC2. -/
def execSwr (o : EOps) (s : State) : Out :=
  let n := (o.minor.extractLsb' 8 8).toNat
  s.withEx fun x =>
    if badUniform x.g .i64 o.a || (s.sysReg x n).isNone then s.illegal x
    else
      let v := s.readUni x o.lit .i64 o.a
      match n with
      | 0x00 =>
        if s.flagsDue x.gid x.g then s
        else (s.setGroup x.gid { x.g with fpstat := fpstatWrite x.g.fpstat (v.setWidth 32) }).finish x
      | 0x01 => (s.modCtx x.g.ctx fun c => { c with tvec := v &&& 0x000FFFFFFFFFFF80 }).finish x
      | 0x08 =>
        if x.g.handler.isNone then s.illegal x
        else
          let m : Dword := 0x000FFFFFFFFFFFFC
          (s.setGroup x.gid { x.g with trec0 := (x.g.trec0 &&& ~~~m) ||| (v &&& m) }).finish x
      | 0x0A =>
        if x.g.handler.isNone then s.illegal x
        else (s.setGroup x.gid { x.g with trec2 := v &&& widthMask x.g.width }).finish x
      | _ => s.illegal x

/-! ### Register blocks (R366) -/

/-- D of RGROW and RSHRINK: a scalar register or 0xF0. -/
def badCountDst (g : Group) (d : BitVec 8) : Bool := isVec d || badDst g false d

/-- RGROW (R366): beyond the blocks held it enters the core's FIFO, behind which the split goes on when granted. -/
def execRgrow (o : EOps) (s : State) : Out :=
  s.kernelOnly fun x =>
    if badCountDst x.g o.d || badUniform x.g .w32 o.a then s.illegal x
    else
      let n := (s.readUni x o.lit .w32 o.a).toNat
      if n = 0 || 24 < n then s.illegal x
      else if n ≤ x.g.rblk then
        (s.setGroup x.gid (x.g.writeDst false o.d 0 (BitVec.ofNat 64 x.g.rblk))).finish x
      else if !s.blocksAllowed x.g n then s.illegal x
      else
        let dst := if isScalar o.d then some (o.d.toNat - 0xC0) else none
        let drain : Bool := s.parkAfter x != Park.no
        (s.finish x).requestRegs x.gid x.sid x.g.core n dst drain

/-- The group without its blocks above n; their contents are discarded (R175). -/
def Group.shrink (g : Group) (n : Nat) : Group :=
  { g with rblk := n, v := g.v.filter fun e => decide (e.1 < 512 * n) }

/-- RSHRINK (R366): to fewer blocks it is held until VL is 0. -/
def execRshrink (o : EOps) (s : State) : Out :=
  s.kernelOnly fun x =>
    if badCountDst x.g o.d || badUniform x.g .w32 o.a then s.illegal x
    else
      let n := (s.readUni x o.lit .w32 o.a).toNat
      if n = 0 || 24 < n then s.illegal x
      else if n < x.g.rblk && x.g.counter .vl != 0 then s
      else
        let g := if n < x.g.rblk then x.g.shrink n else x.g
        (s.setGroup x.gid (g.writeDst false o.d 0 (BitVec.ofNat 64 g.rblk))).finish x

/-! ### Regions, yielding, code fences, counters, HALT (R369–R374) -/

/-- NPBEGIN (R354, R369). -/
def execNpbegin (o : EOps) (s : State) : Out :=
  s.kernelOnly fun x =>
    if badUniform x.g .w32 o.a then s.illegal x
    else
      let n := (s.readUni x o.lit .w32 o.a).toNat
      if n = 0 || 2 ^ 20 < n || x.g.np.isSome then s.illegal x
      else (s.setGroup x.gid { x.g with np := some n }).finish x

/-- NPEND (R354, R369). -/
def execNpend (_o : EOps) (s : State) : Out :=
  s.kernelOnly fun x => (s.setGroup x.gid { x.g with np := none }).finish x

/-- YIELD[.P] (R370). -/
def execYield (o : EOps) (s : State) : Out :=
  s.kernelOnly fun x =>
    let now := (s.core x.g.core).cycle
    (s.setGroup x.gid { x.g with lastIssue := now, readySince := now, yielded := true,
                                 yieldParked := o.minor.getLsbD 8 }).finish x

/-- Whether the instruction at a split's PC has issued and is still in effect: it waits, or some of its lanes do. -/
def Split.inEffect (sp : Split) : Bool :=
  (match sp.park with
    | .no => sp.begun || sp.awaitsEntry
    | .drain => false
    | .regs .. => false
    | _ => true)

/-- What a split has fetched and not issued is discarded (R371): it fetches its clause again, behind an instruction that is still
in effect. -/
def Split.refetch (sp : Split) : Split :=
  match sp.clause with
  | some c =>
    if sp.inEffect then { sp with clause := some { c with stale := true }, inLoop := false }
    else { sp with clause := none, resumeAt := some (sp.pc, c.hdr), inLoop := false }
  | none => { sp with inLoop := false }

/-- IFENCE (R371): the last instruction of its clause. -/
def execIfence (_o : EOps) (s : State) : Out :=
  s.kernelOnly fun x =>
    if !x.lastInClause then s.illegal x
    else
      (s.finish x).modGroup x.gid fun g =>
        { g with fence := s.nextId
                 splits := g.splits.map fun k sp => if k = x.sid then { sp with inLoop := false } else sp.refetch }

/-- Cores in a group's instance of a scope (R292). -/
def State.scopeCores (s : State) (g : Group) (scope : Nat) : List Nat :=
  if scope ≤ 1 then [g.core]
  else if scope = 2 then
    match s.block g.blk with
    | none => [g.core]
    | some b =>
      match s.cluster b.cluster with
      | none => [g.core]
      | some c => c.blocks.filterMap fun k => (s.block k).map (·.core)
  else if scope = 3 then (List.range 40).map fun k => 40 * dieOf g.core + k
  else List.range 320

/-- An instruction cache without a context's lines over a range (R372). -/
def dropLines (ls : List ICLine) (ctx a n : Nat) : List ICLine :=
  ls.filter fun l => !(l.ctx == ctx && l.addr < a + n && a < l.addr + 128)

/-- ICINV (R372). Stores of its core before it are in memory when it completes, so that a fetch after it sees them (R150). -/
def execIcinv (o : EOps) (s : State) : Out :=
  let scope := (o.minor.extractLsb' 8 8).toNat
  s.kernelOnly fun x =>
    if badUniform x.g .i64 o.a || badUniform x.g .w32 o.b then s.illegal x
    else
      let a := (s.readUni x o.lit .i64 o.a).toNat % 2 ^ 52
      let n := (s.readUni x o.lit .w32 o.b).toNat
      if n = 0 then s.finish x
      else
        let cs := s.scopeCores x.g scope
        let drop (k : Nat) (c : Core) : Core :=
          if cs.contains k then { c with icache := dropLines c.icache x.g.ctx a n } else c
        let s := s.l1BackWhere x.g.core fun b => b.dirty != 0
        let s := { s with cores := s.cores.map drop }
        let s := if scope ≤ 3 then s
          else { s with cps := s.cps.map fun _ c => { c with icache := dropLines c.icache x.g.ctx a n } }
        s.finish x

/-- The counters of R373. -/
def State.perfCounter (s : State) (g : Group) (n : Nat) : Dword :=
  let c := s.core g.core
  match n with
  | 0 => c.perfcnt0
  | 1 => c.perfcnt1
  | 2 => c.perfcnt2
  | 3 => c.perfcnt3
  | 4 => BitVec.ofNat 64 c.cycle
  | 5 => g.gissue
  | 6 => g.parkedCycles
  | _ => g.heldCycles

/-- PERFR (R373). -/
def execPerfr (o : EOps) (s : State) : Out :=
  s.kernelOnly fun x =>
    if badDst x.g true o.d then s.illegal x
    else (s.setGroup x.gid (x.g.writePair x o.d (s.perfCounter x.g (o.minor.extractLsb' 8 8).toNat))).finish x

/-- HALT (R374): legal only in a queue program, as the last instruction of its clause. -/
def execHalt (_o : EOps) (s : State) : Out :=
  s.withEx fun x =>
    if !x.g.isQueue || !x.lastInClause then s.illegal x
    else
      let s := s.modQueue x.gid fun k => { k with run := false, fault := 5, waits := [] }
      (s.modCp (x.g.blk / 16) fun c => if c.current = some x.gid then { c with current := none } else c).finish x

end Sys2Proof.Machine
end

