-- ==== Sys2Proof/Machine/Regs.lean ====
section
/-! DEFINITION. The vector registers that an instruction names, with the field decoders they rest on: SZ (R239), the atomic
fields (R317), the format-block descriptors (R39) and the register fragments (R269, R272). -/

namespace Sys2Proof.Machine

/-- Bytes of an access by SZ (R135, R239). -/
def szBytes (sz : BitVec 3) : Nat :=
  match sz.toNat with
  | 0 => 1
  | 1 => 1
  | 2 => 2
  | 3 => 2
  | 4 => 4
  | 5 => 8
  | 6 => 16
  | _ => 32

/-- The offset of a format M instruction (R239). -/
def memOffset (o : MOps) : Int := if o.off5 = 0x1F then o.ext.toInt else o.off5.toNat * szBytes o.sz

/-- An address plus an offset, modulo 2^w. -/
def addOff (w : Nat) (a : Nat) (off : Int) : Nat := (((a : Int) + off) % (2 ^ w : Int)).toNat

/-- Registers that an access of `n` bytes occupies. -/
def spanRegs (n : Nat) : Nat := if n ≤ 4 then 1 else n / 4

/-- Fields of MINOR (R317). -/
def atomOp (o : EOps) : Nat := (o.minor.extractLsb' 0 4).toNat
def atomW64 (o : EOps) : Bool := o.minor.getLsbD 4
def atomRel (o : EOps) : Bool := o.minor.getLsbD 6
def atomAcq (o : EOps) : Bool := o.minor.getLsbD 5
def atomScope (o : EOps) : Nat := (o.minor.extractLsb' 7 3).toNat

/-- How B and C of an atomic are read (R141, R318). -/
def atomKind (o : EOps) : Kind := if atomW64 o then (if atomOp o = 13 then .f64 else .i64) else .w32

/-! ### Format-block descriptors (R39) and fragments (R269, R272) -/

/-- A format-block descriptor. -/
structure Fbd where
  fmt : Nat
  blen : Nat
  scen : Bool
  acc64 : Bool
  cbs : Nat
  tid : Nat
  sbase : Nat
  sstr : Nat
deriving DecidableEq, Repr

def Fbd.of (d : Dword) : Fbd :=
  { fmt := bits d 63 60, blen := 16 * 2 ^ bits d 59 58, scen := d.getLsbD 57, acc64 := d.getLsbD 56, cbs := bits d 55 52,
    tid := bits d 51 40, sbase := bits d 39 16, sstr := bits d 15 0 }

/-- K of a dense step (R269). -/
def denseK (fmt : Nat) : Nat :=
  match fmt with
  | 0 => 4
  | 1 => 8
  | 2 => 32
  | 3 => 32
  | 6 => 128
  | _ => 64

/-- Logical K of a step (R272). -/
def logicalK (fmt sp : Nat) : Nat := if sp = 0 then denseK fmt else 2 * denseK fmt

/-- Registers of an A fragment with its metadata, and of a B fragment (R269). -/
def fragRegsA (fmt sp : Nat) : Nat :=
  let K := denseK fmt
  K / 2 * fmtBits fmt / 32 + (if sp = 0 then 0 else K / 16)
def fragRegsB (fmt sp : Nat) (team : Bool) : Nat :=
  let r := logicalK fmt sp / (if team then 4 else 1)
  r / 2 * fmtBits fmt / 32

/-- Bound colour targets with their numbers. -/
def DRec.colours (r : DRec) : List (Nat × Nat) := (r.ch.zipIdx.filter fun e => e.1 != 0).map fun e => (e.2, e.1)

/-! ### Registers by instruction -/

/-- Registers of an operand of a kind. -/
def Kind.regs (k : Kind) : Nat := if k = .w32 then 1 else 2
/-- Registers of a value that is a pair or a word. -/
def wideRegs (w : Bool) : Nat := if w then 2 else 1

end Sys2Proof.Machine

namespace Sys2Proof

/-- Fields and the registers from each: destinations and sources of one width, the first `n` sources. -/
def AOps.regs (o : AOps) (n : Nat) : List (BitVec 8 × Nat) := [(o.d, n), (o.a, n), (o.b, n)]
def UOps.regs (o : UOps) (n : Nat) : List (BitVec 8 × Nat) := [(o.d, n), (o.a, 1)]
def EOps.regs (o : EOps) (srcs n : Nat) : List (BitVec 8 × Nat) := (o.d, n) :: ([(o.a, n), (o.b, n), (o.c, n)].take srcs)
def MOps.regs (o : MOps) (base : Nat) : List (BitVec 8 × Nat) := [(o.d, Machine.spanRegs (Machine.szBytes o.sz)), (o.a, base)]

end Sys2Proof

namespace Sys2Proof.Machine

/-- Fields that an instruction of a group reads or writes as vector registers, and the registers from each (R141, R239, R269);
the link pair of a call or a return is v0:v1. -/
def vecsOf (g : Group) (colours : List (Nat × Nat)) : Instr → List (BitVec 8 × Nat)
  | .iadd o => o.regs 1
  | .isub o => o.regs 1
  | .iaddc o => o.regs 1
  | .isubb o => o.regs 1
  | .iaddImm o => [(o.d, 1), (o.a, 1)]
  | .andImm o => [(o.d, 1), (o.a, 1)]
  | .orImm o => [(o.d, 1), (o.a, 1)]
  | .xorImm o => [(o.d, 1), (o.a, 1)]
  | .imul o => o.regs 1
  | .imulh o => o.regs 1
  | .imulhU o => o.regs 1
  | .iadd64 o => o.regs 2
  | .imad o => let n := wideRegs (o.minor.getLsbD 0)
    [(o.d, n), (o.a, 1), (o.b, 1), (o.c, n)]
  | .idiv o => o.regs 2 1
  | .imin o => o.regs 1
  | .imax o => o.regs 1
  | .iminU o => o.regs 1
  | .imaxU o => o.regs 1
  | .and o => o.regs 1
  | .or o => o.regs 1
  | .xor o => o.regs 1
  | .andn o => o.regs 1
  | .shl o => o.regs 1
  | .shr o => o.regs 1
  | .sar o => o.regs 1
  | .rol o => o.regs 1
  | .bfx o => o.regs 2 1
  | .bfi o => o.regs 3 1
  | .lea o => [(o.d, 2), (o.a, 2), (o.b, 1)]
  | .popc o => o.regs 1
  | .clz o => o.regs 1
  | .ctz o => o.regs 1
  | .brev o => o.regs 1
  | .iabs o => o.regs 1
  | .clmulLo o => o.regs 1
  | .clmulHi o => o.regs 1
  | .icmp o => let n := wideRegs (o.minor.getLsbD 4)
    [(o.a, n), (o.b, n)]
  | .sel o => o.regs 2 (wideRegs (o.minor.getLsbD 0))
  | .fadd o => o.regs 2 1
  | .fsub o => o.regs 2 1
  | .fmul o => o.regs 2 1
  | .ffma o => o.regs 3 1
  | .faddShort o => o.regs 1
  | .fsubShort o => o.regs 1
  | .fmulShort o => o.regs 1
  | .fmaxShort o => o.regs 1
  | .dadd o => o.regs 2 2
  | .dmul o => o.regs 2 2
  | .dfma o => o.regs 3 2
  | .daddShort o => o.regs 2
  | .dmulShort o => o.regs 2
  | .fmin o => o.regs 2 1
  | .fmax o => o.regs 2 1
  | .dmin o => o.regs 2 2
  | .dmax o => o.regs 2 2
  | .fcmp o => [(o.a, 1), (o.b, 1)]
  | .dcmp o => [(o.a, 2), (o.b, 2)]
  | .fclass o => o.regs 1 1
  | .frcp o => o.regs 1 1
  | .frsq o => o.regs 1 1
  | .fsqrt o => o.regs 1 1
  | .fdiv o => o.regs 2 1
  | .fexp2 o => o.regs 1 1
  | .flog2 o => o.regs 1 1
  | .ftanh o => o.regs 1 1
  | .fsin o => o.regs 1 1
  | .fcos o => o.regs 1 1
  | .ddiv o => o.regs 2 2
  | .dsqrt o => o.regs 1 2
  | .frnd o => o.regs 1 1
  | .fldexp o => o.regs 2 1
  | .hadd2 o => o.regs 2 1
  | .hmul2 o => o.regs 2 1
  | .hfma2 o => o.regs 3 1
  | .hadd2Short o => o.regs 1
  | .hmul2Short o => o.regs 1
  | .cvt o => [(o.d, wideRegs (fmtBits (o.minor.extractLsb' 0 4).toNat == 64)), (o.a, (kindOf (o.minor.extractLsb' 4 4).toNat).regs)]
  | .pack o => o.regs 2 1
  | .unpk o => [(o.d, 2), (o.a, 1)]
  | .mov o => o.regs 1
  | .movl o => [(o.d, 2), (o.a, 2)]
  | .movi o => [(o.d, 1)]
  | .mpop d _ => [(d, 1)]
  | .shfl o => o.regs 2 1
  | .bcst o => o.regs 1
  | .vote o => o.regs 1
  | .ballot o => o.regs 2
  | .redux o => o.regs 1 1
  | .qswp o => o.regs 1
  | .qbcst o => o.regs 1
  | .qdd o => o.regs 1
  | .call _ => [(0, 2)]
  | .ret => [(0, 2)]
  | .calli o => [(0, 2), (o.a, 2)]
  | .jmpi o => [(o.a, 2)]
  | .ld o => o.regs 2
  | .pref o => [(o.a, 2)]
  | .st o => o.regs 2
  | .ldl o => o.regs 1
  | .stl o => o.regs 1
  | .ldc o => o.regs 2
  | .tex o => [(o.d, 4), (o.a, if o.minor.getLsbD 8 then 3 else 2), (o.c, if o.minor.extractLsb' 0 2 = 1#2 then 4 else 1)]
  | .atom o => let n := wideRegs (atomW64 o)
    [(o.d, n), (o.a, 2), (o.b, n)] ++ if atomOp o = 10 then [(o.c, n)] else []
  | .red o => [(o.a, 2), (o.b, wideRegs (atomW64 o))]
  | .atoml o => let n := wideRegs (atomW64 o)
    [(o.d, n), (o.a, 1), (o.b, n)] ++ if atomOp o = 10 then [(o.c, n)] else []
  | .ldfe o => [(o.d, wideRegs (o.minor.getLsbD 0)), (o.a, 1)]
  | .ldff o => [(o.d, wideRegs (o.minor.getLsbD 0)), (o.a, 1)]
  | .stfe o => [(o.d, wideRegs (o.minor.getLsbD 0)), (o.a, 1)]
  | .stff o => [(o.d, wideRegs (o.minor.getLsbD 0)), (o.a, 1)]
  | .feset o => [(o.a, 1)]
  | .feclr o => [(o.a, 1)]
  | .feqry o => o.regs 1
  | .btest o => [(o.d, 1)]
  | .mma o =>
    let sp := (o.flags.extractLsb' 1 3).toNat
    let fa := (Fbd.of (g.readF o.f.toNat)).fmt
    [(o.a, fragRegsA fa sp), (o.b, fragRegsB (Fbd.of (g.readF (o.f.toNat ^^^ 1))).fmt sp (o.flags.getLsbD 0))]
  | .asatr o => [(o.d, 1)]
  | .amov o => [(if o.minor.getLsbD 0 then o.a else o.d, if o.minor.getLsbD 1 then 16 else 8)]
  | .xdom o => [(o.d, 1)]
  | .eroute o => [(o.d, 2), (o.a, 1), (o.b, 1)] ++ if o.minor.getLsbD 1 then [(o.c, 1)] else []
  | .edone o => [(o.a, 2)]
  | .eqry o => [(o.d, 2), (o.a, 2)]
  | .lget o => let n := wideRegs (o.minor.getLsbD 8)
    [(o.d, n), (o.a, n)]
  | .lput o => [(o.d, wideRegs (o.minor.getLsbD 8))]
  | .srd o => [(o.d, 2)]
  | .perfr o => [(o.d, 2)]
  | .fexport form o =>
    (if form = 0 ∨ form = 2 then colours.map fun e => (o.a + BitVec.ofNat 8 (4 * e.1), 4) else []) ++
      if form = 1 ∨ form = 2 then [(o.b, 1)] else []
  | _ => []

/-! ### The registers of the privileged control window (R398) -/

/-- A register of the window. -/
inductive WReg where
  | qcfg (q : Nat)
  | bt (t n : Nat)
  | cfarea (d : Nat)
  | perfsel (core : Nat)
  | thrport (p : Nat)
  | domcfg
  | dierst (d : Nat)
  | cmpprobe (d : Nat)
  /-- QPTR, QNOTE, QREPLY of a queue of a virtual function (stage 1 or 2). -/
  | qptr (vf stage : Nat)
  | qnote (vf stage : Nat)
  | qreply (vf stage : Nat)
  | qbase (vf stage : Nat)
  | httb (vf : Nat)
  /-- TLBINV and TLBINVA: pair 0 is the hypervisor's, pair v + 1 that of virtual function v. -/
  | tlbinv (win : Nat)
  | tlbinva (win : Nat)
  | ctxvf (c : Nat)
  | gttb (c : Nat)
  | csave (c : Nat)
  | cfault (c n : Nat)
  | stbase (c : Nat)
  | stcount (c : Nat)
  | tvec (c : Nat)
deriving DecidableEq, Repr

/-- The register at an offset, if one stands there. -/
def wregAt (off : Nat) : Option WReg :=
  let k := off / 8
  if off % 8 ≠ 0 then none
  else if off < 0x400 then some (.qcfg k)
  else if 0x4000 ≤ off && off < 0x4400 then
    (if off % 64 ≤ 0x30 then some (.bt ((off - 0x4000) / 64) (off % 64 / 8)) else none)
  else if 0x5000 ≤ off && off < 0x5040 then some (.cfarea ((off - 0x5000) / 8))
  else if 0x6000 ≤ off && off < 0x6000 + 8 * 320 then some (.perfsel ((off - 0x6000) / 8))
  else if 0x7000 ≤ off && off < 0x7000 + 8 * 18 then some (.thrport ((off - 0x7000) / 8))
  else if off = 0x7100 then some .domcfg
  else if 0x8000 ≤ off && off < 0x8040 then some (.dierst ((off - 0x8000) / 8))
  else if 0x9000 ≤ off && off < 0x9040 then some (.cmpprobe ((off - 0x9000) / 8))
  else if 0x01000000 ≤ off && off < 0x01000000 + 0x10000 * 64 then
    let v := (off - 0x01000000) / 0x10000
    match off % 0x10000 with
    | 0x00 => some (.qptr v 1)
    | 0x08 => some (.qnote v 1)
    | 0x10 => some (.qreply v 1)
    | 0x18 => some (.tlbinv (v + 1))
    | 0x20 => some (.tlbinva (v + 1))
    | _ => none
  else if 0x02000000 ≤ off && off < 0x02000000 + 0x40 * 64 then
    let v := (off - 0x02000000) / 0x40
    match off % 0x40 with
    | 0x00 => some (.qbase v 1)
    | 0x08 => some (.qbase v 2)
    | 0x10 => some (.qptr v 2)
    | 0x18 => some (.qnote v 2)
    | 0x20 => some (.qreply v 2)
    | 0x28 => some (.httb v)
    | _ => none
  else if 0x03000000 ≤ off && off < 0x03000000 + 8 * 4096 then some (.ctxvf ((off - 0x03000000) / 8))
  else if off = 0x04000000 then some (.tlbinv 0)
  else if off = 0x04000008 then some (.tlbinva 0)
  else if 0x10000000 ≤ off && off < 0x10000000 + 0x10000 * 4096 then
    let c := (off - 0x10000000) / 0x10000
    match off % 0x10000 with
    | 0x00 => some (.gttb c)
    | 0x08 => some (.csave c)
    | 0x10 => some (.cfault c 0)
    | 0x18 => some (.cfault c 1)
    | 0x20 => some (.cfault c 2)
    | 0x28 => some (.stbase c)
    | 0x30 => some (.stcount c)
    | 0x38 => some (.tvec c)
    | _ => none
  else none

end Sys2Proof.Machine
end

