-- ==== Sys2Proof/Machine/Hold.lean ====
section
/-! DEFINITION. What holds or parks a split (R161, R168–R174), the passing of issue cycles, and who may issue. -/

namespace Sys2Proof.Machine

/-- The counter that an instruction raises (R173). -/
def ctrOf : Instr → Option Ctr
  | .ld _ => some .vl
  | .ldl _ => some .vl
  | .ldc _ => some .vl
  | .tex _ => some .vl
  | .st _ => some .vs
  | .stl _ => some .vs
  | .cpy _ => some .ce
  | .cpyq _ => some .ce
  | .cinv _ => some .ce
  | .cflush _ => some .ce
  | .ald _ => some .ce
  | .ast _ => some .ce
  | .atom _ => some .at
  | .red _ => some .at
  | .atoml _ => some .at
  | .ldfe _ => some .at
  | .ldff _ => some .at
  | .stfe _ => some .at
  | .stff _ => some .at
  | .eroute _ => some .at
  | .edone _ => some .at
  | .emerge _ => some .at
  | _ => none

/-- Whether a pair of descriptors selects an FP64 accumulator (R40, R41). -/
def accWide (descA : Dword) : Bool := descA.extractLsb' 60 4 == 0 || descA.getLsbD 56

/-- A tile, or the pair from it. -/
def tileOrPair (t : Nat) (wide : Bool) : List Nat := if wide then [t, t + 1] else [t]

/-- The accumulator tiles of its quadrant that an instruction reads or writes (R171). -/
def tilesOf (g : Group) : Instr → List Nat
  | .mma o => tileOrPair o.acc.toNat (accWide (g.readF o.f.toNat))
  | .mloop o => tileOrPair o.x.acc.toNat (accWide (g.readF o.x.f.toNat))
  | .aclr o => (List.range 8).filter fun t => o.minor.getLsbD (8 + t)
  | .asatr o => [o.a.toNat % 8]
  | .amov o => tileOrPair ((if o.minor.getLsbD 0 then o.d else o.a).toNat % 8) (o.minor.getLsbD 1)
  | .ald o => tileOrPair (o.d.toNat % 8) (o.minor.extractLsb' 5 2 == 1)
  | .ast o => tileOrPair (o.a.toNat % 8) (o.minor.getLsbD 5)
  | .cmma o => [o.d.toNat % 8, o.d.toNat % 8 + 1]
  | _ => []

/-- The tiles of a quadrant that instructions in flight have still to read or write (R171). -/
def Core.trackedTiles (c : Core) (quad : Nat) : List Nat :=
  (c.seqs.filter fun q => q.quad == quad).flatMap (fun q => tileOrPair q.acc (q.complex || accWide q.descA)) ++
    c.teamSteps.flatMap (fun t => (t.shares.filter fun h => h.quad == quad).flatMap fun h => tileOrPair h.acc (accWide h.descA)) ++
    c.jobs.flatMap fun j => match j.kind with
      | .ald _ _ q acc tt _ _ => if q = quad then tileOrPair acc (tt == 1) else []
      | _ => []

/-- Whether steps of an earlier instruction remain in the array of a quadrant (R262). -/
def Core.arrayBusy (c : Core) (quad : Nat) : Bool :=
  c.seqs.any (fun q => q.quad == quad) || c.teamSteps.any fun t => t.shares.any fun h => h.quad == quad

/-- Whether the scoreboard tracks anything of a group (R171). -/
def State.scoreboard (s : State) (gid : Nat) (g : Group) : Bool :=
  let c := s.core g.core
  c.seqs.any (fun q => q.gid == gid) || c.teamSteps.any (fun t => t.shares.any fun h => h.gid == gid) ||
    c.jobs.any fun j => j.gid == gid

/-- Whether a core's table has room for a number of entries. -/
def Core.room (c : Core) (n : Nat) : Bool := c.locks.length + n ≤ 32

/-- Range-lock entries that an engine instruction registers, and whether it enters the copy engine's queue (R250, R251, R263). -/
def engineNeeds : Instr → Option (Nat × Bool)
  | .cpy _ => some (2, true)
  | .cpyq _ => some (1, true)
  | .cinv _ => some (0, true)
  | .cflush _ => some (0, true)
  | .ald _ => some (1, true)
  | .ast _ => some (1, true)
  | .mloop _ => some (2, false)
  | .cmma _ => some (2, false)
  | .xfwd _ => some (1, false)
  | .xinv _ => some (1, false)
  | .xscl _ => some (1, false)
  | _ => none

/-- Whether an engine has no place for an instruction (R250, R251, R263). -/
def Core.engineFull (c : Core) (i : Instr) : Bool :=
  match engineNeeds i with
  | some (n, q) => !c.room n || (q && 64 ≤ c.jobs.length)
  | none => false

/-- Whether an instruction is a release (R294), which waits until its group's earlier accesses have been performed (R297). -/
def releases : Instr → Bool
  | .atom o => o.minor.getLsbD 6
  | .red o => o.minor.getLsbD 6
  | .atoml o => o.minor.getLsbD 6
  | .stfe _ => true
  | .stff _ => true
  | .barv _ => true
  | .barvx _ => true
  | .cbarNear _ => true
  | .cbarFar _ => true
  | .gbar _ => true
  | .fence o => o.minor.extractLsb' 2 2 != 0
  | .launch _ => true
  | .draw _ => true
  | _ => false

/-- Whether an instruction accesses memory or fences it: it waits for an acquire that is still to come (R294, R319). -/
def accesses : Instr → Bool
  | .ld _ => true
  | .pref _ => true
  | .st _ => true
  | .ldl _ => true
  | .stl _ => true
  | .ldc _ => true
  | .tex _ => true
  | .atom _ => true
  | .red _ => true
  | .atoml _ => true
  | .ldfe _ => true
  | .ldff _ => true
  | .stfe _ => true
  | .stff _ => true
  | .feset _ => true
  | .feclr _ => true
  | .feqry _ => true
  | .fence _ => true
  | .binit _ => true
  | .barv _ => true
  | .barvx _ => true
  | .bwait _ => true
  | .btest _ => true
  | .cbarNear _ => true
  | .cbarFar _ => true
  | .gbar _ => true
  | .cpy _ => true
  | .cpyq _ => true
  | .cinv _ => true
  | .cflush _ => true
  | .halloc _ => true
  | .hfree _ => true
  | .sste _ => true
  | .cbld _ => true
  | .scpf _ => true
  | .mma _ => true
  | .mloop _ => true
  | .cmma _ => true
  | .ald _ => true
  | .ast _ => true
  | .xfwd _ => true
  | .xinv _ => true
  | .xscl _ => true
  | .eroute _ => true
  | .edone _ => true
  | .emerge _ => true
  | .eqry _ => true
  | .launch _ => true
  | .draw _ => true
  | _ => false

/-- Where `n` bytes at a local-store offset lie; none where R244 or R310 refuses the access. -/
def State.spot (s : State) (g : Group) (o n : Nat) : Option Spot :=
  if o < 2 ^ 31 then (if o + n ≤ s.lsBytesOf g then some ⟨g.blk, o, false⟩ else none)
  else if g.isQueue then none
  else
    match s.block g.blk with
    | none => none
    | some b =>
      match s.cluster b.cluster with
      | none => none
      | some c =>
        match c.blocks[o / 2 ^ 27 % 8]? with
        | none => none
        | some t =>
          if c.bits.getD (o / 2 ^ 27 % 8) 0 ≠ o / 2 ^ 30 % 2 || o / 2 ^ 18 % 2 ^ 9 ≠ 0 || s.lsBytesOf g < o % 2 ^ 18 + n then none
          else some ⟨t, o % 2 ^ 18, true⟩

/-- Waiters of a store, oldest first. -/
def State.waitsOf (s : State) (store : Nat) : List TagWait :=
  if store < 128 then (s.queue store).waits
  else match s.block store with
    | some b => b.waits
    | none => []

/-- Whether a tagged instruction is one operation for its split (R322, R323). -/
def tagOnce (g : Group) (o : EOps) : Bool := g.isQueue || (isUniform o.a && isScalar o.d)

/-- The offsets of a tagged instruction's lanes (R321). -/
def State.tagOffs (s : State) (x : Ex) (o : EOps) : List (Nat × Nat) :=
  let lanes := if tagOnce x.g o then [lowLane x.lanes] else x.list
  lanes.map fun l =>
    (l, ((s.readSrc x o.lit .w32 o.a l).toNat + 8 * (o.minor.extractLsb' 4 12).toNat) % 2 ^ 32)

/-- The tagged words that an issue of STFE, STFF or FESET fills (R304, R321, R324). -/
def State.fills (s : State) (x : Ex) (i : Instr) : List (Nat × Nat) :=
  let at8 (o : EOps) : List (Nat × Nat) := (s.tagOffs x o).filterMap fun e => (s.spot x.g e.2 4).map fun p => (p.store, p.off / 8)
  match i with
  | .stfe o => at8 o
  | .stff o => at8 o
  | .feset o => x.list.filterMap fun l => (s.spot x.g (s.readSrc x o.lit .w32 o.a l).toNat 4).map fun p => (p.store, p.off / 8)
  | _ => []

/-- The waits of a group's lanes on tags, each with the store of its word. -/
def State.groupWaits (s : State) (gid : Nat) : List (Nat × TagWait) :=
  let mine (k : Nat) (ws : List TagWait) : List (Nat × TagWait) := (ws.filter fun w => w.gid == gid).map fun w => (k, w)
  s.blocks.flatMap (fun e => mine e.1 e.2.waits) ++ s.queues.flatMap fun e => mine e.1 e.2.waits

/-- Splits of a group whose every waiting lane is a load at the tag of one of some words: only a store of such a word ends their
wait (R305). -/
def State.awaiting (s : State) (gid : Nat) (words : List (Nat × Nat)) : List Nat :=
  let ws := s.groupWaits gid
  (ws.map (·.2.sid)).eraseDups.filter fun sid =>
    ws.all fun e => e.2.sid != sid || (e.2.op != .stfe && words.contains (e.1, e.2.off / 8))

/-- Whether a load at a tag of another split of a group is still to take its word (R294), other than one that waits for the words
given. -/
def State.tagAcquiring (s : State) (gid sid : Nat) (words : List (Nat × Nat)) : Bool :=
  let out := s.awaiting gid words
  (s.groupWaits gid).any fun e => e.2.sid != sid && e.2.op != .stfe && !out.contains e.2.sid

/-- Whether an access of a group to another package than the one given is still to be answered (R381). -/
def State.unanswered (s : State) (gid : Nat) (dest : Option Nat) : Bool :=
  s.pkg.awaited.any fun a => a.gid == some gid && dest != some (a.msg.addr / 2 ^ 42)

/-- Whether a group's earlier accesses are performed (R294, R297): no atomic of it is still at an engine, no other split's
lanes await a page or a tag (log 68), and no package but the release's own destination owes an answer (R381). -/
def State.performed (s : State) (gid : Nat) (g : Group) (op : Option Nat) (dest : Option Nat := none) : Bool :=
  !(s.dies.any fun d => d.2.atoms.any fun q => q.gid == gid && q.reply.isNone && some q.flight != op) &&
    (g.splits.all fun e => e.2.openOp.isNone || e.2.openOp == op) && !s.unanswered gid dest

/-- The places that the lanes of an instruction with an address in A name, one for each that translates. -/
def State.lanePlaces (s : State) (x : Ex) (lit : Word) (a : BitVec 8) (off : Nat → Nat) : List Place :=
  x.list.filterMap fun l => match s.xlate x.g.core? x.g.ctx (off (s.readSrc x lit .i64 a l).toNat % 2 ^ 52) with
    | .ok m => some (s.place m.pa)
    | .error _ => none

/-- The package that all lanes of a release to memory name, where it is another one (R381). -/
def State.releaseTo (s : State) (x : Ex) (i : Instr) : Option Nat :=
  let of (o : EOps) : Option Nat := match (s.lanePlaces x o.lit o.a id).eraseDups with
    | [.remote p] => some p
    | _ => none
  match i with
  | .atom o => of o
  | .red o => of o
  | _ => none

/-- Whether an ST reaches a register for the answers to page requests: it is a release at DEVICE scope (R393). -/
def State.repliesPage (s : State) (x : Ex) (i : Instr) : Bool :=
  match i with
  | .st o => (s.lanePlaces x o.lit o.a fun v => addOff 52 v (memOffset o)).any fun p => match p with
    | .window off => (List.range (szBytes o.sz / 8)).any fun k => match wregAt (off + 8 * k) with
      | some (.qreply _ _) => true
      | _ => false
    | _ => false
  | _ => false

/-- Whether a release reaches beyond the block: it writes back what the L1 holds dirty (R220, R294). -/
def releasesFar : Instr → Bool
  | .atom o => 2 ≤ atomScope o
  | .red o => 2 ≤ atomScope o
  | .fence o => 2 ≤ (o.minor.extractLsb' 4 3).toNat
  | .cbarNear _ => true
  | .cbarFar _ => true
  | .gbar _ => true
  | .launch _ => true
  | .draw _ => true
  | .st _ => true
  | _ => false

/-- Dirty blocks of the L1 whose home is another package than a release's destination: they are written back first, and their
answers awaited (R220, R381). -/
def State.flushFirst (s : State) (x : Ex) (i : Instr) : Bool :=
  (releases i || s.repliesPage x i) && releasesFar i && !x.g.isQueue && (s.core x.g.core).l1.any fun b =>
    b.dirty != 0 && b.scope == 1 && match s.place b.addr with
      | .remote p => s.releaseTo x i != some p
      | _ => false

/-- A group but for some of its splits. -/
def Group.without (g : Group) (sids : List Nat) : Group := { g with splits := g.splits.filter fun e => !sids.contains e.1 }

/-- Whether an acquire atomic of a group is still to return (R319). -/
def Group.acquiring (g : Group) (op : Option Nat) : Bool := g.flights.any fun f => f.acq.isSome && !f.done && some f.id != op

/-- The vector registers that a scoreboard entry of a group names, first and number of each: fragments that an MMA step has still
to read, destinations that an EROUTE has still to write (R171, R262). -/
def State.trackedRegs (s : State) (gid : Nat) (g : Group) : List (Nat × Nat) :=
  (s.tables.flatMap fun t => (t.2.waits.filter fun w => w.gid == gid && w.dst < 0xC0).map fun w => (w.dst, 2)) ++
    (s.core g.core).teamSteps.flatMap fun t => (t.shares.filter fun h => h.gid == gid).flatMap (·.regs)

/-- RSHRINK to fewer blocks waits for VL and for the scoreboard entries of the registers that it gives back (R366). -/
def State.shrinkHeld (s : State) (gid : Nat) (g : Group) (o : EOps) : Bool :=
  let n := (s.readUni ⟨gid, 0, g, { pc := 0, mask := 0, jrec := none }, 0⟩ o.lit .w32 o.a).toNat
  n != 0 && n < g.rblk && (g.counter .vl != 0 || (s.trackedRegs gid g).any fun r => 8 * n < r.1 + r.2)

/-- A decoded instruction that may not issue yet: its counter stands at 63, an engine has no room, a tile it names is tracked,
flags are due, loads are outstanding (R171, R173, R363, R366), earlier accesses are not performed (R297, R319), an earlier
acquire has not completed (R294). The operation that an earlier issue of it began is counted already. A store of a tagged word
does not wait for the loads that wait for that word alone: they take their place in its order after it (R305, log 68). -/
def State.holds (s : State) (gid : Nat) (g : Group) (sid : Nat) (sp : Split) (i : Instr) : Bool :=
  let op := sp.openOp
  let x : Ex := ⟨gid, sid, g, sp, sp.due.getD sp.mask⟩
  let words := s.fills x i
  ((releases i || s.repliesPage x i) && !s.performed gid (g.without (s.awaiting gid words)) op (s.releaseTo x i)) ||
  (accesses i && (g.acquiring op || s.tagAcquiring gid sid words)) ||
  (match ctrOf i with
    | some c => op.isNone && 63 ≤ g.counter c
    | none => false) ||
  (!g.isQueue && (s.core g.core).engineFull i) ||
  (!g.isQueue && (tilesOf g i).any fun t => ((s.core g.core).trackedTiles g.quad).contains t) ||
  (match i with
    | .mma _ => (s.core g.core).arrayBusy g.quad
    | .mloop _ => (s.core g.core).arrayBusy g.quad
    | .cmma _ => (s.core g.core).arrayBusy g.quad
    | .srd o => o.minor.extractLsb' 8 8 == 0 && s.flagsDue gid g
    | .swr o => o.minor.extractLsb' 8 8 == 0 && s.flagsDue gid g
    | .rshrink o => !g.isQueue && s.shrinkHeld gid g o
    | _ => false)

/-- The colour targets of a fragment group's draw. -/
def State.exported (s : State) (g : Group) : List (Nat × Nat) :=
  match g.frag.bind fun f => s.draw f.set.draw with
  | some d => d.drec.colours
  | none => []

/-- An instruction names a register that the scoreboard tracks (R171, R262). -/
def State.routeHeld (s : State) (gid : Nat) (g : Group) (i : Instr) : Bool :=
  (s.trackedRegs gid g).any fun k =>
    (vecsOf g (s.exported g) i).any fun r => isVec r.1 && r.1.toNat < k.1 + k.2 && k.1 < r.1.toNat + r.2

/-- The places in its issue order of a group's instructions that may still contribute flags (R45, R335). -/
def State.producers (s : State) (gid : Nat) (g : Group) : List Nat :=
  let c := s.core g.core
  ((g.flights.filter fun f => f.ctr == .ce || (f.flag && !f.done)).map (·.born)) ++
    ((c.seqs.filter fun q => q.gid == gid).map (·.born)) ++
    (c.teamSteps.flatMap fun t => (t.shares.filter fun h => h.gid == gid).map (·.born)) ++
    (s.grinds.filter fun e => e.2.gid == gid).map (·.2.born)

/-- A group whose FPSTAT may notify issues at most 32 instructions behind one that may still do so (R335, log 69). -/
def State.skidFull (s : State) (gid : Nat) (g : Group) : Bool :=
  (g.fpstat.extractLsb' 8 6 != 0) && g.handler.isNone && (s.producers gid g).any fun b => b + 32 ≤ g.icount

/-- Lanes of an indirect transfer still wait for a split entry: all eight are taken (R163, R209, R210). -/
def Group.noEntry (g : Group) (sp : Split) : Bool := sp.awaitsEntry && 8 ≤ g.splits.length

/-- A threshold of a clause header is met (R146). -/
def Group.under (g : Group) (c : Ctr) (t : Nat) : Bool := t = 15 || g.counter c ≤ t

/-- All thresholds of a clause header are met, or it is a drain clause. -/
def Group.startable (g : Group) (d : Bool) (tvl tvs tce tat : Nat) : Bool :=
  d || (g.under .vl tvl && g.under .vs tvs && g.under .ce tce && g.under .at tat)

/-- The words that a split issues next. -/
def Clause.next (c : Clause) : List Word := c.words.drop c.pos

/-- Whether a group has a handler other than a split (R338). -/
def Group.otherHandler (g : Group) (sid : Nat) : Bool :=
  match g.handler with
  | some h => h.sid != sid
  | none => false

/-- A clause's next instruction is held (R168): by the conditions of R171, R173 and the rules of its entry, or by the skid of a
notification (R335). -/
def State.heldAt (s : State) (gid : Nat) (g : Group) (sid : Nat) (sp : Split) (i : Instr) : Bool :=
  s.holds gid g sid sp i || s.routeHeld gid g i || g.noEntry sp || s.skidFull gid g

/-- A split that is not parked and may not issue (R168). -/
def State.splitHeld (s : State) (gid : Nat) (g : Group) (sid : Nat) (sp : Split) : Bool :=
  match sp.clause with
  | some c =>
    match decode c.next with
    | .ok (i, _) => s.heldAt gid g sid sp i
    | .error _ => false
  | none =>
    g.otherHandler sid ||
      (sp.resumeAt.isNone &&
        match s.codeWord g sp.pc with
        | .error _ => false
        | .ok (w, _) => match headWord w (sp.pc % 128) with
          | .clause _ _ _ d a b c t => !g.startable d a b c t
          | _ => false)

/-- Whether a group is parked: no split of it can issue (R168). -/
def Group.parked (g : Group) : Bool := g.splits.all fun e => e.2.park != .no

/-- Whether a group is held: no split is ready and some split is not parked. -/
def State.groupHeld (s : State) (gid : Nat) (g : Group) : Bool :=
  !g.parked && g.splits.all fun e => e.2.park != .no || s.splitHeld gid g e.1 e.2

/-- Groups resident on a core. -/
def Group.on (g : Group) (core : Nat) : Bool := !g.isQueue && g.core == core && g.res != .evicted

/-- One group sees issue cycles of its quadrant pass (R161, R354, R373); one that is parked or held does not age (R170). -/
def Group.pass (g : Group) (n now : Nat) (held : Bool) : Group :=
  { g with
    parkedCycles := if g.parked then g.parkedCycles + BitVec.ofNat 64 n else g.parkedCycles
    heldCycles := if held then g.heldCycles + BitVec.ofNat 64 n else g.heldCycles
    readySince := if g.parked || held then now else g.readySince
    np := g.np.map fun k => k - n
    npOver := g.npOver || (match g.np with
      | some k => k < n
      | none => false) }

/-- Core cycles pass (R161): each is an issue cycle of every quadrant of the core. Packed sets issue within one. -/
def State.tick (s : State) (core n : Nat) : State :=
  if n = 0 then s
  else
    let now := (s.core core).cycle + n
    let pass (k : Nat) (g : Group) : Group := if g.on core then g.pass n now (s.groupHeld k g) else g
    { s with groups := s.groups.map pass }.modCore core fun c => { c with cycle := now, packs := [] }

/-- Whether an instruction is issued once for its split, whatever m0 holds: on the scalar path (R143), as a copy instruction
(R247, R248) or as a tagged operation with uniform operands (R322). The C field of SEL names a mask register (R187). -/
def scalarWords (ws : List Word) : Bool :=
  let w := ws.headD 0
  let e := ws.getD 1 0
  let maj := wMaj w
  let uni : Bool := isUniform (wA w) && isUniform (wB w)
  let dst : Bool := isScalar (wD w) || wD w == 0xF0
  if maj ≤ 0x25 then dst && match fmtOf maj with
    | some .i => maj = 0x1D || isUniform (wA w)
    | some .e => uni && (maj = 0x0B || isUniform (xC e))
    | _ => uni
  else if maj = 0x32 then true
  else if maj = 0x35 || (maj = 0x36 && wS w != 3) then dst && isUniform (wA w)
  else false

/-- Issue cycles of an instruction: two where both halves of a 64-lane mask are used off the scalar path (R162). -/
def passes (ws : List Word) (m : Lanes) (w : Nat) : Nat :=
  if w = 64 && !scalarWords ws && m.extractLsb' 0 32 != 0 && m.extractLsb' 32 32 != 0 then 2 else 1

/-- Whether an instruction may be packed (R163): on the vector path of majors 0x00–0x25, or a load, a store or TEX. -/
def packable (ws : List Word) : Bool :=
  let maj := wMaj (ws.headD 0)
  (maj ≤ 0x25 && !scalarWords ws) || maj = 0x2D || maj = 0x2E || maj = 0x2F || maj = 0x30 || maj = 0x31 ||
    (maj = 0x2C && wD (ws.headD 0) != 0xF0)

/-- A group issues in a cycle: GISSUE, ages, skids (R170, R335, R355, R370, R373). -/
def State.issued (s : State) (gid sid n now : Nat) : State :=
  let s := s.modGroup gid fun g =>
    { g with
      gissue := g.gissue + BitVec.ofNat 64 n
      icount := g.icount + 1
      lastIssue := now
      yielded := false
      yieldParked := false
      splits := g.splits.modify sid fun sp => { sp with lastIssue := now } }
  match s.group gid with
  | none => s
  | some g => s.modCtx g.ctx fun c =>
      { c with fatal := c.fatal.map fun f =>
          if f.gid = some gid ∨ f.gid = none then { f with spent := KV.put 0 f.spent gid (KV.get 0 f.spent gid + 1) } else f }

/-- A context's fatal fault leaves a group still to issue; none under DRAIN (R355). -/
def State.skidLeft (s : State) (gid : Nat) (g : Group) : Bool :=
  match (s.ctx g.ctx).fatal with
  | some f => (f.gid.any fun k => k != gid) || KV.get 0 f.spent gid < min f.skid (s.skidOf g)
  | none => true

/-- Whether a split may be picked for issue (R168, R169, R338, R351): a queue program only in its command processor's
current clause (R69). -/
def State.mayIssue (s : State) (gid : Nat) (g : Group) (sp : Split) : Bool :=
  sp.park == .no && s.skidLeft gid g &&
    (if g.isQueue then (s.queue gid).run && (s.cp (gid / 16)).current == some gid && sp.clause.isSome
     else !(s.core g.core).held && !s.pkg.stopped && !g.regain &&
      (match g.res with
        | .resident => true
        | .draining _ => sp.clause.isSome
        | .evicted => false))

end Sys2Proof.Machine
end

