-- ==== Sys2Proof/Machine/Issue.lean ====
section
/-! DEFINITION. The starts of clauses (R144–R151, R338, R339), command processors (R69), and the events that end a split's
wait for counters, registers or pages (R174, R175, R335, R347, R354). -/

namespace Sys2Proof.Machine

/-- A split of a group, to act for; its lanes are those the next instruction is executed for. -/
def State.exOf (s : State) (gid sid : Nat) : Option Ex :=
  match s.group gid with
  | none => none
  | some g =>
    match g.splits.find sid with
    | none => none
    | some sp => some ⟨gid, sid, g, sp, sp.due.getD sp.mask⟩

/-! ### Clause starts -/

/-- LMASK of a trap at a header: the lanes that the next instruction is executed for, the lowest lane of the split where there
are none (R339). -/
def Ex.headLanes (x : Ex) : Lanes := if x.lanes = 0 then oneLane (lowLane x.sp.mask) else x.lanes

/-- The illegal-instruction trap at a header (R145, R147, R339). -/
def State.headTrap (s : State) (x : Ex) : State := s.trap x 0x01 x.headLanes 0

/-- A fetch that stopped in translation: a page request for the split, or the translation trap (R338, R347). -/
def State.fetchStop (s : State) (x : Ex) (st : Stop) (va : Nat) : State :=
  match st with
  | .fatal c => s.fatalEx x c va
  | .miss stage why level page =>
    let x' := { x with lanes := x.headLanes }
    let s' := s.missed x' (x'.list.map fun l => ⟨l, stage, why, level, page, va, false, 2⟩) x'.lanes .exec
    s'.modSplit x.gid x.sid fun sp => if sp.park = .page then { sp with due := x.sp.due } else sp

/-- Delivery enters the function at TVEC (R338): its descriptor, its budget by R208. -/
def State.enterHandler (s : State) (x : Ex) : State :=
  match s.codeWord x.g x.sp.pc with
  | .error st => s.fetchStop x st x.sp.pc
  | .ok (w, s) =>
    match entryOf w x.sp.pc with
    | none => s.headTrap x
    | some r =>
      if x.g.rblk < r && !s.blocksAllowed x.g r then s.headTrap x
      else
        let s := s.modGroup x.gid fun g => { g with handler := g.handler.map fun h => { h with entering := false } }
        s.enter x x.sid x.sp.pc r false

/-- Whether the lengths of R136 sum to exactly the words of a clause (R145). -/
def lengthsFit : Nat → List Word → Bool
  | 0, _ => false
  | fuel + 1, ws =>
    match ws with
    | [] => true
    | _ => rawLen ws ≤ ws.length && lengthsFit fuel (ws.drop (rawLen ws))

/-- The header and the words of the clause at an address, from the loop buffer or the line; whether from the buffer. -/
def State.clauseAt (s : State) (g : Group) (va : Nat) : Except Stop (List Word × Bool × State) :=
  match s.fromLoop g va with
  | some ws => .ok (ws, true, s)
  | none => do
    let (ws, s) ← s.codeLine g va
    .ok (ws.drop (va % 128 / 4), false, s)

/-- A split begins a clause, or resumes inside one (R148). -/
def State.begin (s : State) (x : Ex) (pc : Nat) (c : Clause) (buf : Bool) : State :=
  s.modSplit x.gid x.sid fun sp => { sp with pc := pc, clause := some c, resumeAt := none, inLoop := buf }

/-- The resumption inside the clause of a header (R339, R166): the address must be an instruction of that clause. -/
def State.resumeInside (s : State) (x : Ex) (rpc hdr : Nat) : State :=
  match s.clauseAt x.g hdr with
  | .error st => s.fetchStop x st hdr
  | .ok (ws, buf, s) =>
    match headWord (ws.headD 0) (hdr % 128) with
    | .clause n cls _ d .. =>
      let words := (ws.drop 1).take n
      let pos := (rpc - hdr - 4) / 4
      if hdr + 4 ≤ rpc && (rpc - hdr) % 4 = 0 && (wordStarts 16 words).contains pos then
        s.begin x rpc ⟨hdr, words, pos, d, cls, false⟩ buf
      else s.headTrap x
    | _ => s.headTrap x

/-- What the sequencer does at a header (R145–R147). -/
def State.meetHeader (s : State) (x : Ex) : State :=
  match s.clauseAt x.g x.sp.pc with
  | .error st => s.fetchStop x st x.sp.pc
  | .ok (ws, buf, s) =>
    match headWord (ws.headD 0) (x.sp.pc % 128) with
    | .pad => s.modSplit x.gid x.sid fun sp => { sp with pc := sp.pc / 128 * 128 + 128, resumeAt := none }
    | .clause n cls _ d tvl tvs tce tat =>
      let words := (ws.drop 1).take n
      if !lengthsFit 16 words then s.headTrap x
      else if !x.g.startable d tvl tvs tce tat then s
      else s.begin x (x.sp.pc + 4) ⟨x.sp.pc, words, 0, d, cls, false⟩ buf
    | _ => s.headTrap x

/-- One start of a split between clauses: entering its handler, arriving at its join (R166), resuming where TRET or a join
sends it, or meeting its next header. -/
def State.startClause (s : State) (x : Ex) : State :=
  if (match x.g.handler with
    | some h => h.sid == x.sid && h.entering
    | none => false) then s.enterHandler x
  else
    let arrives : Bool := match x.sp.jrec with
      | some k => match x.g.joins.find k with
        | some r => r.jpc == x.sp.pc
        | none => false
      | none => false
    match x.sp.resumeAt with
    | some (rpc, hdr) =>
      match s.codeWord x.g rpc with
      | .error st => s.fetchStop x st rpc
      | .ok (w, s) =>
        if isHeader w then s.modSplit x.gid x.sid fun sp => { sp with resumeAt := none }
        else s.resumeInside x rpc hdr
    | none => if arrives then s.modGroup x.gid fun g => g.arrive x.sid else s.meetHeader x

/-- Whether a split stands between clauses and may go on. -/
def Ex.atBoundary (x : Ex) : Bool := x.sp.park == .no && x.sp.clause.isNone

/-- CLAUSE_START (R146). Splits beside their group's handler stay at their boundary (R338). -/
def execClauseStart (gid sid : Nat) (s : State) : Out :=
  .next (match s.exOf gid sid with
    | none => s
    | some x =>
      let free : Bool := match x.g.res with
        | .resident => !x.g.regain
        | _ => false
      if x.atBoundary && free && !x.g.isQueue && s.skidLeft gid x.g && !x.g.otherHandler sid && !(s.core x.g.core).held &&
        !s.pkg.stopped then s.startClause x else s)

/-! ### Command processors -/

/-- Whether a queue context can issue a clause or the rest of one (R69). -/
def State.queueReady (s : State) (q : Nat) : Bool :=
  (s.queue q).run && match s.exOf q 0 with
  | none => false
  | some x =>
    x.sp.park == .no &&
      (x.sp.clause.isSome || x.sp.resumeAt.isSome || match s.codeWord x.g x.sp.pc with
        | .error _ => true
        | .ok (w, _) => match headWord w (x.sp.pc % 128) with
          | .clause _ _ _ d a b c t => x.g.startable d a b c t
          | _ => true)

/-- Clauses of other contexts that a ready context can still let pass, so that it issues one in every 64 (R69). -/
def State.slack (s : State) (q : Nat) : Nat := 63 - (s.queue q).skipped

/-- The contexts that one must be chosen from now: j + 1 of them can wait for at most j further clauses (R69). -/
def State.mustServe (s : State) (qs : List Nat) : Option (List Nat) :=
  ((List.range 64).map fun j => qs.filter fun q => s.slack q ≤ j).zipIdx.findSome? fun e => if e.2 < e.1.length then some e.1 else none

/-- The better of two ready contexts: the one with the higher QCFG.PRIO, then the one ready longest; where some must be served, the
one passed over most often. Of equals the lower number (log 95). -/
def State.queueBetter (s : State) (must : Bool) (a b : Nat) : Bool :=
  let x := s.queue a
  let y := s.queue b
  if must then y.skipped ≤ x.skipped
  else if x.prio ≠ y.prio then y.prio < x.prio
  else x.readySince ≤ y.readySince

/-- The context that a command processor selects (R69; ties: log 95). -/
def State.selectQueue (s : State) (cp : Nat) : Option Nat :=
  let qs := ((List.range 16).map fun k => 16 * cp + k).filter s.queueReady
  let must := s.mustServe qs
  (must.getD qs).foldl
    (fun b q => match b with
      | none => some q
      | some p => if s.queueBetter must.isSome p q then some p else some q) none

/-- Cycles of a command processor pass: a context that is not ready counts from now (R69). -/
def State.cpTick (s : State) (cp n : Nat) : State :=
  let now := (s.cp cp).cycle + n
  let wait (k : Nat) (u : Queue) : Queue := if k / 16 = cp && !s.queueReady k then { u with readySince := now, skipped := 0 } else u
  { s with queues := s.queues.map wait }.modCp cp fun c => { c with cycle := now }

/-- Whether a command processor's current clause still issues. -/
def State.cpBusy (s : State) (cp : Nat) : Bool :=
  match (s.cp cp).current with
  | none => false
  | some q =>
    (s.queue q).run && match s.exOf q 0 with
    | some x => x.sp.park == .no && x.sp.clause.isSome
    | none => false

/-- A disabled queue program stops at the clause boundary (R68). -/
def State.queueStopped (s : State) (q : Nat) : Bool :=
  !(s.queue q).en && match s.exOf q 0 with
  | some x => x.sp.clause.isNone
  | none => true

/-- QUEUE_CLAUSE_ISSUE (R69): between clauses a command processor selects the next context and starts its clause; a pending
notification stops the queue instead (R67). The selected context counts as ready from this selection on (log 95). -/
def execQueueClauseIssue (cp : Nat) (s : State) : Out :=
  .next (if s.cpBusy cp || s.pkg.stopped then s
    else
      match s.selectQueue cp with
      | none => s
      | some q =>
        match s.exOf q 0 with
        | none => s
        | some x =>
          match x.g.notif with
          | some n => if x.sp.clause.isNone then
              (s.modGroup q fun g => { g with notif := none }).stopQueue q 6 n.fpc else s.modCp cp fun c => { c with current := some q }
          | none =>
            if s.queueStopped q then s.modQueue q fun k => { k with run := false }
            else
              let now := (s.cp cp).cycle + 1
              let age (k : Nat) (u : Queue) : Queue :=
                if k / 16 = cp then
                  (if k = q then { u with skipped := 0, readySince := now }
                   else if s.queueReady k then { u with skipped := u.skipped + 1 } else u) else u
              let s := { s with queues := s.queues.map age }
              let s := s.modCp cp fun c => { c with current := some q }
              if x.sp.clause.isSome then s else s.startClause x)

/-! ### Notifications -/

/-- The split that takes a group's notification: the one that issues, else the first that is not parked. -/
def State.notifSplit (s : State) (gid : Nat) : Option Ex :=
  match s.issuer with
  | some (k, sid) => if k = gid then s.exOf gid sid else none
  | none =>
    match s.group gid with
    | none => none
    | some g => match g.splits.find? fun e => e.2.park == .no with
      | some e => s.exOf gid e.1
      | none => none

/-- ARITH_NOTIFICATION (R335): before the next instruction of the group, once its clause has started, as an imprecise stop at
it; its lanes stand in LMASK (log 21). While the handler runs it stays pending. A queue program stops before its next clause
(R67). -/
def execArithNotification (gid : Nat) (s : State) : Out :=
  .next (match s.notifSplit gid with
    | none => s
    | some x =>
      match x.g.notif, x.sp.clause with
      | none, _ => s
      | some n, none =>
        if x.g.isQueue then (s.modGroup gid fun g => { g with notif := none }).stopQueue gid 6 n.fpc else s
      | some n, some c =>
        if x.g.isQueue || x.g.handler.isSome || x.sp.park != .no || x.sp.due == some 0 || x.sp.begun then s
        else
          (s.modGroup gid fun g => { g with notif := none }).deliver gid x.sid
            ⟨0x08, n.sub, x.sp.pc, false, n.fpc, x.sp.mask, c.hdr, 0⟩ x.headLanes)

/-! ### Ends of waits -/

/-- Unpark a split at its instruction. -/
def State.unpark (s : State) (gid sid : Nat) : State := s.modSplit gid sid fun sp => { sp with park := .no }

/-- Whether a drain of a group is complete (R146, R336). -/
def State.drained (s : State) (gid : Nat) (g : Group) : Bool := g.quiet && !s.scoreboard gid g

/-- COUNTER_WAIT_RESUME (R146, R174): WAITC's threshold or a drain is met. -/
def execCounterWaitResume (gid sid : Nat) (s : State) : Out :=
  .next (match s.exOf gid sid with
    | none => s
    | some x =>
      match x.sp.park with
      | .waitc c t => if x.g.counter c ≤ t then s.finish x else s
      | .drain => if s.drained gid x.g then s.unpark gid sid else s
      | _ => s)

/-- PAGE_REQUEST_REPLAY (R347): none of the split's tokens is pending. The lanes not yet performed are replayed as the split
next issues (log 22). -/
def execPageRequestReplay (gid sid : Nat) (s : State) : Out :=
  .next (match s.exOf gid sid with
    | none => s
    | some x =>
      if x.sp.park = .page && x.sp.tokens.all (fun t => t.status != .pending) then s.unpark gid sid else s)

/-- Bytes of a core's register region in use (R175). -/
def State.regBytes (s : State) (core : Nat) : Nat :=
  s.groups.foldl (fun n e => if e.2.on core then n + blockBytes e.2.width e.2.rblk else n) 0

/-- The head of a core's register FIFO, with what it asks for: the blocks, the scalar register, the drain that follows. -/
def State.rbHead (s : State) (core : Nat) : Option (Ex × Nat × Option Nat × Bool) :=
  match (s.core core).rbFifo with
  | [] => none
  | r :: _ =>
    match s.exOf r.gid r.sid with
    | none => none
    | some x =>
      match x.sp.park with
      | .regs t d dr => some (x, t, d, dr)
      | _ => none

/-- REGISTER_BLOCK_GRANT (R175): the head of the FIFO is granted when enough bytes of the region are free. -/
def execRegisterBlockGrant (core : Nat) (s : State) : Out :=
  let pop (s : State) : State := s.modCore core fun c => { c with rbFifo := c.rbFifo.drop 1 }
  .next (match (s.core core).rbFifo with
    | [] => s
    | _ :: _ =>
      match s.rbHead core with
      | none => pop s
      | some (x, t, d, dr) =>
        if (s.core core).poolb0 * 8192 < s.regBytes core + blockBytes x.g.width (t - x.g.rblk) then s
        else
          let n := max t x.g.rblk
          let g := { x.g with rblk := n }
          let g := match d with
            | some r => g.writeS r (BitVec.ofNat 32 n)
            | none => g
          (pop (s.setGroup x.gid g)).modSplit x.gid x.sid fun sp => { sp with park := if dr then .drain else .no })

/-- NP_REGION_BOUND_EXCEEDED (R354): the context meets teardown with cause 0x15. -/
def execNpRegionBoundExceeded (gid : Nat) (s : State) : Out :=
  .next (match s.group gid with
    | none => s
    | some g =>
      if !g.npOver then s
      else
        let pc := match g.splits with
          | e :: _ => e.2.pc
          | [] => 0
        (s.modGroup gid fun g => { g with npOver := false }).setFatal g.ctx (fatalOf 0x15 g.core pc 0 (some gid) (s.skidOf g)))

end Sys2Proof.Machine
end

