-- ==== Sys2Proof/Machine/Window.lean ====
section
/-! DEFINITION. The privileged control window (R398): its registers (R68, R107, R234, R344, R348, R365, R373, R379, R383,
R395), and reading them. -/

namespace Sys2Proof.Machine

/-- QCFG (R68). -/
def Queue.qcfg (k : Queue) : Dword :=
  bit k.en 63 ||| bit k.priv 62 ||| fld k.prio 59 ||| fld k.ctx 45 ||| fld (k.entry / 128) 0

/-- QSTAT (R73). -/
def Queue.qstat (k : Queue) : Dword :=
  fld k.fault 48 ||| bit k.run 19 ||| bit k.err 18 ||| bit k.ovr 17 |||
    (List.range 16).foldl (fun v i => v ||| bit (KV.get false k.full i) i) 0

/-- Whether a copy, retirement or merge of a table is in progress (R107). -/
def ExpTable.busy (t : ExpTable) : Bool := !t.copies.isEmpty || !t.drains.isEmpty || !t.merges.isEmpty || !t.freeing.isEmpty

/-- The registers of an expert table (R107). -/
def ExpTable.reg (t : ExpTable) (n : Nat) : Dword :=
  match n with
  | 0 => bit t.en 63 ||| bit t.train 62 ||| bit t.hold 61 ||| fld t.ctx 46 ||| fld t.hdie 43 ||| fld t.nexp 31
  | 1 => t.base
  | 2 => fld t.wlen 32 ||| fld t.hot 0
  | 3 => fld t.cold 32 ||| fld t.maxrep 28 ||| fld t.copymax 24
  | 4 => (List.range 8).foldl (fun v d => v ||| fld (t.fail.getD d 0) (8 + 2 * d)) (t.excl.setWidth 64)
  | 5 => fld t.badexp 52 ||| bit t.under 49 ||| bit t.busy 48 ||| fld t.fails 32 ||| t.win.setWidth 64
  | _ => 0

/-- CMPPROBE on reading (R395). -/
def State.probe (s : State) (d : Nat) : Dword :=
  let line := (s.die d).cmpprobe
  let a := line.toNat % 2 ^ 42
  let own := line.toNat / 2 ^ 42 == s.pkg.pkgid
  let here := (d * beanDie ≤ a && a < (d + 1) * beanDie) ||
    (farBase + d * farDie ≤ a && a < farBase + (d + 1) * farDie)
  if own && here then line ||| fld (KV.get 1 s.tags (a / 128)).toNat 60 ||| 1 else line

/-- A page request queue of a virtual function. -/
def State.prq (s : State) (vf stage : Nat) : Prq := if stage = 1 then (s.vf vf).gq else (s.vf vf).hq
def State.modPrq (s : State) (vf stage : Nat) (f : Prq → Prq) : State :=
  s.modVf vf fun v => if stage = 1 then { v with gq := f v.gq } else { v with hq := f v.hq }

/-- THRPORT (R379). -/
def Port.reg (p : Port) : Dword :=
  fld p.state 62 ||| fld p.mode 60 ||| fld p.peer 50 ||| fld p.pport 45 ||| fld p.retrain 16 ||| fld p.replay 0

/-- The value of a register of the window. -/
def State.wreg (s : State) (r : WReg) : Dword :=
  match r with
  | .qcfg q => (s.queue q).qcfg
  | .bt t n => (s.table t).reg n
  | .cfarea d => (s.die d).cfarea
  | .perfsel c => (s.core c).perfsel
  | .thrport p => (KV.get {} s.pkg.ports p).reg
  | .domcfg => fld s.pkg.pkgid 54 ||| fld s.pkg.hslot 51 ||| fld s.pkg.hostpkg 41
  | .dierst d => (s.die d).dierst
  | .cmpprobe d => s.probe d
  | .qptr v st => (s.prq v st).cons ++ (s.prq v st).prod
  | .qnote v st => (s.prq v st).note
  | .qreply _ _ => 0
  | .qbase v st => (s.prq v st).base
  | .httb v => (s.vf v).httb
  | .tlbinv w => if w = 0 then s.pkg.tlbinv else (s.vf (w - 1)).tlbinv
  | .tlbinva w => if w = 0 then s.pkg.tlbinva else (s.vf (w - 1)).tlbinva
  | .ctxvf c => bit (s.ctx c).en 63 ||| fld (s.ctx c).vf 0
  | .gttb c => (s.ctx c).gttb
  | .csave c => (s.ctx c).csave
  | .cfault c n => if n = 0 then (s.ctx c).cfault0 else if n = 1 then (s.ctx c).cfault1 else (s.ctx c).cfault2
  | .stbase c => (s.ctx c).stbase
  | .stcount c => (s.ctx c).stcount
  | .tvec c => (s.ctx c).tvec

/-- The value of the register at an offset of the window; none stands there: 0, and an event (R398). -/
def State.offsetReg (s : State) (off : Nat) : Dword × State :=
  match wregAt off with
  | some r => (s.wreg r, s)
  | none => (0, s.log .windowAccess off 8)

/-- Registers read one after the other. -/
def State.windowRegs (s : State) (off : Nat) : Nat → List Byte × State
  | 0 => ([], s)
  | n + 1 =>
    let r := s.offsetReg off
    let t := r.2.windowRegs (off + 8) n
    (natToBytes 8 r.1.toNat ++ t.1, t.2)

/-- A read of the window (R398): aligned, by whole registers; any other is discarded and gives zeros. -/
def State.windowRead (s : State) (off size : Nat) : List Byte × State :=
  if size % 8 ≠ 0 ∨ size = 0 ∨ off % 8 ≠ 0 then (List.replicate size 0, s.log .windowAccess off size)
  else s.windowRegs off (size / 8)

/-- The writes of single registers that a write of bytes makes; one that is not aligned, or not of whole registers, stays one. -/
def windowWrites (off : Nat) (bs : List Byte) : List Happening :=
  if bs.length % 8 ≠ 0 ∨ off % 8 ≠ 0 then [.winWrite off bs.length (BitVec.ofNat 64 (bytesToNat bs))]
  else (List.range (bs.length / 8)).map fun k => .winWrite (off + 8 * k) 8 (BitVec.ofNat 64 (bytesToNat ((bs.drop (8 * k)).take 8)))

/-- A write of bytes to the window is posted: it happens next (R398). A kernel's reply to a page request is a release at DEVICE
scope (R393). -/
def State.windowPost (s : State) (core : Option Nat) (off : Nat) (bs : List Byte) : State :=
  let reply (k : Nat) : Bool := match wregAt (off + 8 * k) with
    | some (.qreply _ _) => true
    | _ => false
  let s := match core with
    | some c => if (List.range (bs.length / 8)).any reply then s.release c 4 else s
    | none => s
  { s with agenda := windowWrites off bs ++ s.agenda }

end Sys2Proof.Machine
end

