-- ==== Sys2Proof/Machine/Local.lean ====
section
/-! DEFINITION. Local store and the cluster window (R244, R302, R310), their full/empty bits (R304), the range locks of a
core (R251) and the bound barrier objects that no ordinary write may touch (R329). -/

namespace Sys2Proof.Machine

/-- Whether the store of a place can be accessed: a window access waits for an evicted block (R310), not for one that has
retired. -/
def State.present (s : State) (p : Spot) : Bool :=
  p.store < 128 || match s.block p.store with
    | some b => b.resident
    | none => true

def State.storeOf (s : State) (store : Nat) : Memory :=
  if store < 128 then (s.queue store).ls
  else match s.block store with
    | some b => b.ls
    | none => []

/-- Bytes of local store; what the store of a retired block holds, the spec does not say (log 51). -/
def State.lsRead (s : State) (store off n : Nat) : List Byte :=
  if 128 ≤ store && (s.block store).isNone then (List.range n).map fun i => Config.goneByte store (off + i)
  else Memory.readN (s.storeOf store) off n

/-- Write bytes of local store. -/
def State.lsWrite (s : State) (store off : Nat) (bs : List Byte) : State :=
  if store < 128 then s.modQueue store fun q => { q with ls := q.ls.writeN off bs }
  else s.modBlock store fun b => { b with ls := b.ls.writeN off bs }

/-- A little-endian doubleword of local store. -/
def State.lsDword (s : State) (store off : Nat) : Dword := BitVec.ofNat 64 (bytesToNat (s.lsRead store off 8))
def State.lsPut64 (s : State) (store off : Nat) (v : Dword) : State := s.lsWrite store off (natToBytes 8 v.toNat)

/-- The full/empty bit of the word of an offset (R304). -/
def State.isFull (s : State) (store off : Nat) : Bool :=
  if store < 128 then KV.get false (s.queue store).full (off / 8)
  else match s.block store with
    | some b => KV.get false b.full (off / 8)
    | none => false

/-- Set the full/empty bit of the word of an offset. -/
def State.setFull (s : State) (store off : Nat) (f : Bool) : State :=
  if store < 128 then s.modQueue store fun q => { q with full := KV.put false q.full (off / 8) f }
  else s.modBlock store fun b => { b with full := KV.put false b.full (off / 8) f }

/-! ### Range locks (R251) -/

/-- Whether an interval meets another. -/
def meets (lo hi a n : Nat) : Bool := lo < hi && 0 < n && lo < a + n && a < hi

/-- Whether an ordinary access to global bytes meets a locked range of its core: any destination, a source too for a write. A locked window
of an entry outside Crema is a range of tiles, which an ordinary access does not name (log 103). -/
def State.globalLocked (s : State) (g : Group) (a n : Nat) (write : Bool) : Bool :=
  !g.isQueue && (s.core g.core).locks.any fun k =>
    (k.write || write) && k.ctx == g.ctx && match k.range with
      | .global lo hi => meets lo hi a n || meets lo hi (a + 2 ^ 52) n || (2 ^ 52 < a + n && meets lo hi 0 (a + n - 2 ^ 52))
      | _ => false

/-- The same for local store. -/
def State.localLocked (s : State) (g : Group) (p : Spot) (n : Nat) (write : Bool) : Bool :=
  !g.isQueue && (s.core g.core).locks.any fun k =>
    (k.write || write) && match k.range with
      | .loc b lo hi => b == p.store && meets lo hi p.off n
      | _ => false

/-- Whether bytes of local store overlap a bound barrier object (R329). -/
def State.overBarrier (s : State) (store off n : Nat) : Bool :=
  match s.block store with
  | none => false
  | some b => (s.core b.core).slots.any fun e => e.2.1 == store && meets e.2.2 (e.2.2 + 16) off n

end Sys2Proof.Machine
end

