-- ==== Sys2Proof/Machine/Lane.lean ====
section
/-! DEFINITION. Lane accesses (R239–R244): LD, PREF, ST, LDC, LDL, STL, the return of loads and the acknowledgement of
stores (R173). -/

namespace Sys2Proof.Machine

/-- A register span that R141 or R239 refuses. -/
def badSpan (g : Group) (c : BitVec 8) (n : Nat) : Bool :=
  let k := spanRegs n
  (1 < k && c.getLsbD 0) ||
    (if isVec c then g.isQueue || 8 * g.rblk < c.toNat + k else 0xF0 < c.toNat + k)

/-- A base pair that R239 refuses. -/
def badBase (g : Group) (a : BitVec 8) : Bool := 0xF0 ≤ a.toNat || badSrc g .i64 a

/-- The registers that loaded bytes are written to (R239). -/
def loadWrites (d : BitVec 8) (sz : BitVec 3) (lane : Nat) (bs : List Byte) : List RegWrite :=
  let reg := if isVec d then d.toNat else d.toNat - 0xC0
  let word (i : Nat) : Word :=
    let v := bytesToNat ((bs.drop (4 * i)).take 4)
    match sz.toNat with
    | 1 => (BitVec.ofNat 8 v).signExtend 32
    | 3 => (BitVec.ofNat 16 v).signExtend 32
    | _ => BitVec.ofNat 32 v
  if 0xF0 ≤ d.toNat then []
  else (List.range (spanRegs (szBytes sz))).map fun i => ⟨!isVec d, reg + i, lane, word i⟩

/-- The bytes that a store takes from D in a lane (R239, R243). -/
def State.storeBytes (s : State) (x : Ex) (o : MOps) (l : Nat) : List Byte :=
  let n := szBytes o.sz
  if n ≤ 4 then natToBytes n (s.readSrc x o.lit .w32 o.d l).toNat
  else if o.d.toNat < 0xF0 then
    (List.range (n / 4)).flatMap fun i =>
      natToBytes 4 (if isVec o.d then x.g.readV (o.d.toNat + i) l else x.g.readS (o.d.toNat - 0xC0 + i)).toNat
  else (List.range (n / 8)).flatMap fun _ => natToBytes 8 (s.readSrc x o.lit .i64 o.d l).toNat

/-! ### Global accesses of lanes -/

/-- A piece of a lane's access: its mapping, with the canonical address, and its length. -/
structure Piece where
  m : Mapped
  n : Nat
deriving DecidableEq, Repr

/-- What becomes of a lane's access (R241). -/
inductive Fate where
  | ok (ps : List Piece)
  | miss (stage why level page : Nat)
  | packed
  | fatal (cause va : Nat)
deriving DecidableEq, Repr

/-- Translate and check the pieces of an access. -/
def State.fateOf (s : State) (core : Option Nat) (ctx : Nat) (w : Want) (priv : Bool) : List (Nat × Nat) → Fate
  | [] => .ok []
  | (a, n) :: t =>
    match s.access core ctx (a % 2 ^ 52) w priv with
    | .error (.fatal c) => .fatal c (a % 2 ^ 52)
    | .error (.miss st why l p) => .miss st why l p
    | .ok m =>
      if m.pkd then .packed
      else
        match s.fateOf core ctx w priv t with
        | .ok ps => .ok (⟨m, n⟩ :: ps)
        | f => f

/-- The instruction address's index in the predictor (R218). -/
def Ex.predIdx (x : Ex) : Nat := x.sp.pc / 4 % 512

/-- Read a piece: through the caches of the issuer's core, at its home for a queue program, or a window register. -/
def State.readPiece (s : State) (x : Ex) (pol : Policy) (p : Piece) : Got :=
  match s.place p.m.pa with
  | .window off =>
    let (bs, s) := s.windowRead off p.n
    ⟨bs, s, false⟩
  | _ =>
    if x.g.isQueue then
      let (bs, s') := s.homeRead p.m.pa p.n
      ⟨bs, s', s.poisoned p.m.pa p.n⟩
    else s.coreRead x.g.core x.predIdx pol p.m.cmp p.m.pa p.n

/-- Read the pieces of an access in order. -/
def State.readPieces (s : State) (x : Ex) (pol : Policy) : List Piece → Got
  | [] => ⟨[], s, false⟩
  | p :: t =>
    let r := s.readPiece x pol p
    let r' := r.st.readPieces x pol t
    ⟨r.bytes ++ r'.bytes, r'.st, r.bad || r'.bad⟩

/-- Write bytes over the pieces of an access. -/
def State.writePieces (s : State) (x : Ex) (pol : Policy) : List Piece → List Byte → State
  | [], _ => s
  | p :: t, bs =>
    let b := bs.take p.n
    let s' := match s.place p.m.pa with
      | .window off => s.windowPost x.g.core? off b
      | _ =>
        if x.g.isQueue then s.homeWrite p.m.pa (b.map some) p.m.cmp
        else s.coreWrite x.g.core x.predIdx pol p.m.cmp p.m.pa b
    s'.writePieces x pol t (bs.drop p.n)

/-- Raise a counter for the executing instruction, unless an earlier issue of it did (R173): the operation and its state. -/
def State.openFlight (s : State) (x : Ex) (c : Ctr) : Nat × State :=
  match x.sp.openOp with
  | some id => (id, s)
  | none =>
    let (id, s) := s.fresh
    (id, (s.modGroup x.gid fun g => g.addFlight { id := id, ctr := c, left := 1, pc := x.sp.pc, born := x.g.icount }).modSplit x.gid x.sid
      fun sp => { sp with openOp := some id })

/-- The instruction's operation has no further lanes to come. -/
def State.closeFlight (s : State) (gid : Nat) (op : Option Nat) : State :=
  match op with
  | none => s
  | some id => s.modGroup gid fun g => g.modFlight id fun f => { f with left := f.left - 1 }

/-- What performing a lane gives: the state, the registers its return writes, whether it met an uncorrectable error. -/
structure Done where
  st : State
  writes : List RegWrite := []
  bad : Bool := false

/-- Perform lanes in ascending order. -/
def performLanes (f : State → Nat → List Piece → Done) : State → List (Nat × List Piece) → Done
  | s, [] => ⟨s, [], false⟩
  | s, (l, ps) :: t =>
    let r := f s l ps
    let r' := performLanes f r.st t
    ⟨r'.st, r.writes ++ r'.writes, r.bad || r'.bad⟩

/-- The fates of lanes, sorted. -/
structure Sorted where
  good : List (Nat × List Piece)
  misses : List Miss
  packed : List (Nat × Nat)
  fatal : Option (Nat × Nat)

/-- The fate of every lane; a lane makes one access or several, each an address and a length. Every page that a lane misses is
walked (R394). -/
def State.sortLanes (s : State) (x : Ex) (w : Want) (as : List (Nat × List (Nat × Nat))) : Sorted :=
  let fate := s.fateOf x.g.core? x.g.ctx w (s.privOf x.g)
  let fs := as.map fun e =>
    let ps := e.2.flatMap fun a => pieces 64 a.1 a.2
    (e.1, ((e.2.headD (0, 0)).1, ps), fate ps)
  { good := fs.filterMap fun e => match e.2.2 with
      | .ok ps => some (e.1, ps)
      | _ => none
    misses := fs.flatMap fun e => match e.2.2 with
      | .miss .. => e.2.1.2.filterMap fun p => match fate [p] with
        | .miss st why l pg => some ⟨e.1, st, why, l, pg, e.2.1.1, false, w.acc⟩
        | _ => none
      | _ => []
    packed := fs.filterMap fun e => match e.2.2 with
      | .packed => some (e.1, e.2.1.1)
      | _ => none
    fatal := fs.findSome? fun e => match e.2.2 with
      | .fatal c va => some (c, va)
      | _ => none }

/-- Whether an atomic of the group is still to execute on a sector of the pieces, which an access of it then awaits (R293). -/
def State.atomPending (s : State) (gid : Nat) (ps : List Piece) : Bool :=
  s.dies.any fun d => d.2.atoms.any fun q =>
    q.gid == gid && q.reply.isNone && ps.any fun p => p.m.pa / 32 == q.addr / 32

/-- What holds of the one access that lanes share holds of each of them. -/
def forLanes {α : Type} (share : List Nat) (put : α → Nat → α) (es : List α) : List α :=
  if share = [] then es else es.flatMap fun e => share.map (put e)

/-- A lane access that reaches global memory: the range-lock check first, then every lane by its fate (R241, R320). `f`
performs a lane; `share` are the lanes that one access concerns, where the instruction makes a single one for several (R243). -/
def State.laneAccess (s : State) (x : Ex) (c : Ctr) (w : Want) (as : List (Nat × List (Nat × Nat)))
    (f : State → Nat → Nat → List Piece → Done) (share : List Nat := []) : State :=
  let hits := forLanes share (fun e l => (l, e.2)) (as.filterMap fun e =>
    (e.2.find? fun a => s.globalLocked x.g a.1 a.2 (w != .read)).map fun a => (e.1, a.1))
  if hits != [] then
    let m := maskOf (hits.map (·.1))
    if x.g.otherHandler x.sid then s
    else ((s.count x.g.core 7).closeFlight x.gid x.sp.openOp).trap x 0x04 m
      ((hits.filterMap fun e => if e.1 = lowLane m then some e.2 else none).headD 0)
  else
    let k := s.sortLanes x w as
    match k.fatal with
    | some (cause, va) => s.fatalEx x cause va
    | none =>
      if w != .atomic && s.atomPending x.gid (k.good.flatMap (·.2)) then s
      else
      let (id, s) := s.openFlight x c
      let r := performLanes (fun s l ps => f s id l ps) s k.good
      if r.bad then (k.good.flatMap (·.2)).foldl (fun s p => s.reports p.m.pa p.n) (r.st.fatalEx x 0x11 0)
      else
        let s := r.st.modGroup x.gid fun g => g.modFlight id fun fl => { fl with writes := fl.writes ++ r.writes }
        let inv := x.sp.invalid
        let misses := forLanes share (fun m l => { m with lane := l }) k.misses
        let packed := forLanes share (fun e l => (l, e.2)) k.packed
        let due := maskOf (misses.map (·.lane)) ||| maskOf (packed.map (·.1))
        if misses.any fun m => !inv.getLsbD m.lane then s.parkPages x misses due w
        else if due != 0 && x.g.otherHandler x.sid then s.modSplit x.gid x.sid fun sp => { sp with due := some due }
        else
          let s := s.closeFlight x.gid (some id)
          if due = 0 then s.finish x
          else
            let low := lowLane due
            match packed.find? fun e => e.1 == low with
            | some _ => s.trap x 0x02 due 0
            | none => s.trap x 0x05 due (match misses.find? fun m => m.lane == low with
                | some m => m.va
                | none => 0)

/-- The addresses of the active lanes (R239). -/
def State.laneAddrs (s : State) (x : Ex) (o : MOps) : List (Nat × Nat) :=
  x.list.map fun l => (l, addOff 52 (s.readSrc x o.lit .i64 o.a l).toNat (memOffset o))

/-- One access of a size in each lane. -/
def sized (n : Nat) (as : List (Nat × Nat)) : List (Nat × List (Nat × Nat)) := as.map fun e => (e.1, [(e.2, n)])

/-- One access of the whole instruction, at a uniform address, as a lane of its own (LDC, LD with a scalar D). -/
def State.onceAddr (s : State) (x : Ex) (o : MOps) : List (Nat × Nat) :=
  [(lowLane x.lanes, addOff 52 (s.readSrc x o.lit .i64 o.a 0).toNat (memOffset o))]

/-- LDC, and LD with a scalar D: one read; a vector D receives it in every active lane, and what the read meets concerns each of
them (R243). -/
def State.loadOnce (s : State) (x : Ex) (o : MOps) (pol : Policy) : State :=
  s.laneAccess x .vl .read (sized (szBytes o.sz) (s.onceAddr x o)) (fun s _ _ ps =>
    let r := s.readPieces x pol ps
    let ws := if isVec o.d then x.list.flatMap fun l => loadWrites o.d o.sz l r.bytes else loadWrites o.d o.sz 0 r.bytes
    ⟨r.st, ws, r.bad⟩) (if isVec o.d then x.list else [])

/-- LD (R243). -/
def execLd (o : MOps) (s : State) : Out :=
  s.withEx fun x =>
    if badBase x.g o.a || 0xF0 ≤ o.d.toNat || badSpan x.g o.d (szBytes o.sz) || (isScalar o.d && isVec o.a) then s.illegal x
    else if isScalar o.d then s.loadOnce x o (Policy.ofCode o.cp.toNat)
    else
      s.laneAccess x .vl .read (sized (szBytes o.sz) (s.laneAddrs x o)) fun s _ l ps =>
        let r := s.readPieces x (Policy.ofCode o.cp.toNat) ps
        ⟨r.st, loadWrites o.d o.sz l r.bytes, r.bad⟩

/-- LDC (R243). -/
def execLdc (o : MOps) (s : State) : Out :=
  s.withEx fun x =>
    if x.g.isQueue || badBase x.g o.a || isVec o.a || 0xF1 ≤ o.d.toNat ||
      (o.d != 0xF0 && badSpan x.g o.d (szBytes o.sz)) then s.illegal x
    else s.loadOnce x o (Policy.ofCode o.cp.toNat)

/-- PREF (R155, R243): the line of each lane's address is read into the L1; a lane that would fault is dropped. A
queue program has none (R67, log 75). -/
def execPref (o : MOps) (s : State) : Out :=
  s.withEx fun x =>
    if x.g.isQueue || badBase x.g o.a then s.illegal x
    else
      let pol := Policy.ofCode o.cp.toNat
      let one (s : State) (a : Nat) : State :=
        let base := a / 128 * 128
        match s.fateOf x.g.core? x.g.ctx .read (s.privOf x.g) [(base, 128)] with
        | .ok ps =>
          (match ps with
           | p :: _ =>
             (match s.place p.m.pa with
              | .window _ => s
              | _ =>
                let r := s.readPieces x pol ps
                if r.bad then s.reports p.m.pa 128 else if s.globalLocked x.g a 1 false then s else r.st)
           | [] => s)
        | _ => s
      ((s.laneAddrs x o).foldl (fun s e => one s e.2) s).finish x

/-- A part of one byte of the pieces of an access. -/
def bytePiece : List Piece → Nat → List Piece
  | [], _ => []
  | p :: t, i => if i < p.n then [⟨{ p.m with pa := p.m.pa + i }, 1⟩] else bytePiece t (i - p.n)

/-- Whether a higher lane that an earlier issue of the executing ST has performed wrote a byte, which keeps its value (R240). -/
def State.wroteAbove (s : State) (x : Ex) (o : MOps) (l a : Nat) : Bool :=
  x.sp.openOp.isSome && (laneList (x.sp.mask &&& ~~~x.lanes) 64).any fun h =>
    l < h && (let b := addOff 52 (s.readSrc x o.lit .i64 o.a h).toNat (memOffset o)
      (a + 2 ^ 52 - b) % 2 ^ 52 < szBytes o.sz)

/-- One lane of an ST: whole, but for the bytes of higher lanes that an earlier issue has performed. -/
def State.storeLane (s : State) (x : Ex) (o : MOps) (l : Nat) (ps : List Piece) : State :=
  let pol := Policy.ofCode o.cp.toNat
  let bs := s.storeBytes x o l
  let a := addOff 52 (s.readSrc x o.lit .i64 o.a l).toNat (memOffset o)
  let over_ := (List.range bs.length).filter fun i => s.wroteAbove x o l ((a + i) % 2 ^ 52)
  if over_ = [] then s.writePieces x pol ps bs
  else (bs.zipIdx.filter fun e => !over_.contains e.2).foldl (fun s e => s.writePieces x pol (bytePiece ps e.2) [e.1]) s

/-- ST (R243). -/
def execSt (o : MOps) (s : State) : Out :=
  s.withEx fun x =>
    if badBase x.g o.a || (o.d.toNat < 0xF0 && badSpan x.g o.d (szBytes o.sz)) || (x.g.isQueue && !isUniform o.d) then
      s.illegal x
    else
      s.laneAccess x .vs .write (sized (szBytes o.sz) (s.laneAddrs x o)) fun s _ l ps =>
        ⟨s.storeLane x o l ps, [], false⟩

/-- Operations of AT with no part left fall in issue order (R316), each behind its acquire (R319). -/
def State.settleAt (s : State) (gid : Nat) : State :=
  match s.group gid with
  | none => s
  | some g => (g.flights.filter fun f => f.ctr == .at && f.left == 0 && !f.done).foldl (fun s f =>
      (match f.acq with
        | some scope => s.acquire g.core scope
        | none => s).returnFlight gid f.id) s

/-! ### Local store -/

/-- The offsets of the active lanes (R244). -/
def State.laneOffs (s : State) (x : Ex) (o : MOps) : List (Nat × Nat) :=
  x.list.map fun l => (l, addOff 32 (s.readSrc x o.lit .w32 o.a l).toNat (memOffset o))

/-- A local access whose lanes are checked together (R244, R320, R322): `ok` adds a check of its own, `bar` that no bound barrier
object is met (R329), `w` says that it writes; `f` receives the places of the lanes. -/
def State.localAccess (s : State) (x : Ex) (n : Nat) (bar w : Bool) (ok : Nat → Bool) (os : List (Nat × Nat))
    (f : List (Nat × Spot) → State) : State :=
  let ps := os.map fun e => (e.1, e.2, if ok e.2 then s.spot x.g e.2 n else none)
  let bad := ps.filter fun e => match e.2.2 with
    | none => true
    | some p => bar && s.overBarrier p.store p.off n
  let s' := (s.closeFlight x.gid x.sp.openOp).settleAt x.gid
  if bad != [] then (if x.g.otherHandler x.sid then s else s'.trap x 0x01 (maskOf (bad.map (·.1))) 0)
  else
    let sp := ps.filterMap fun e => e.2.2.map fun p => (e.1, e.2.1, p)
    let hits := sp.filter fun e => s.localLocked x.g e.2.2 n w
    if hits != [] && x.g.otherHandler x.sid then s
    else if hits != [] then (s'.count x.g.core 7).trap x 0x04 (maskOf (hits.map (·.1))) ((hits.map (·.2.1)).headD 0)
    else if sp.any fun e => !s.present e.2.2 then s
    else f (sp.map fun e => (e.1, e.2.2))

/-- Raise a counter by an operation that is already performed and only has to return. -/
def State.fly (s : State) (x : Ex) (c : Ctr) (ws : List RegWrite) : State :=
  let (id, s) := s.fresh
  s.modGroup x.gid fun g => g.addFlight { id := id, ctr := c, left := 0, writes := ws, pc := x.sp.pc, born := x.g.icount }

/-- LDL (R244); in a queue program it has one lane. -/
def execLdl (o : MOps) (s : State) : Out :=
  s.withEx fun x =>
    let n := szBytes o.sz
    if badSrc x.g .w32 o.a || 0xF1 ≤ o.d.toNat || (o.d != 0xF0 && badSpan x.g o.d n) ||
      (isScalar o.d && !isUniform o.a) then s.illegal x
    else
      let os := if isScalar o.d then (s.laneOffs { x with lanes := oneLane (lowLane x.lanes) } o) else s.laneOffs x o
      s.localAccess x n false false (fun _ => true) os fun sp =>
        (s.fly x .vl (sp.flatMap fun e => loadWrites o.d o.sz e.1 (s.lsRead e.2.store e.2.off n))).finish x

/-- STL (R244). -/
def execStl (o : MOps) (s : State) : Out :=
  s.withEx fun x =>
    let n := szBytes o.sz
    if badSrc x.g .w32 o.a || (o.d.toNat < 0xF0 && badSpan x.g o.d n) || (x.g.isQueue && !isUniform o.d) then
      s.illegal x
    else
      s.localAccess x n true true (fun _ => true) (s.laneOffs x o) fun sp =>
        ((sp.foldl (fun s e => s.lsWrite e.2.store e.2.off (s.storeBytes x o e.1)) s).fly x .vs []).finish x

/-! ### Returns -/

/-- An operation of a counter all of whose parts are performed returns (R173). -/
def State.landFlight (s : State) (gid op : Nat) (c : Ctr) : State :=
  match s.group gid with
  | none => s
  | some g =>
    match g.flights.find? fun f => f.id == op with
    | none => s
    | some f => if f.ctr = c ∧ f.left = 0 ∧ f.done = false then s.returnFlight gid op else s

/-- LOAD_DATA_RETURN (R173). -/
def execLoadDataReturn (gid op : Nat) (s : State) : Out := .next (s.landFlight gid op .vl)
/-- STORE_ACKNOWLEDGED (R242). -/
def execStoreAcknowledged (gid op : Nat) (s : State) : Out := .next (s.landFlight gid op .vs)

end Sys2Proof.Machine
end

