-- ==== Sys2Proof/Machine/Surface.lean ====
section
/-! DEFINITION. Surface table entries (R57–R61), the places of Crema tiles and tile maps (R62–R64), and the engines' accesses
to global memory and to elements of entries (R58, R224, R249, R399). -/

namespace Sys2Proof.Machine

/-! ### Engine accesses to global memory -/

/-- Why an engine's work stops where it is. -/
inductive Halt where
  /-- A walk that needs a page (R346). -/
  | miss (m : Miss)
  /-- A fatal fault of the context: cause and address (R333). -/
  | fatal (cause va : Nat)
  /-- An away tile (R237). -/
  | away (h idx : Nat)
  /-- A copy, Tamper or operand-fetch fault, which kills the block (R95, R253). -/
  | kill
  /-- A packed mapping where none may stand (R230). -/
  | packed
deriving DecidableEq, Repr

/-- Who translates: TLBs of a core or of none, the context, whether its accesses are privileged. -/
structure Who where
  core : Option Nat
  ctx : Nat
  priv : Bool := false
deriving DecidableEq, Repr

/-- The group as a requester of engine accesses. -/
def State.who (s : State) (g : Group) : Who := ⟨g.core?, g.ctx, s.privOf g⟩

/-- Map a range in parts of a page's 4 KiB stripes, each on one die (R215): mapping and length of each part. -/
def State.mapRange (s : State) (k : Who) (w : Want) : Nat → Nat → Nat → Except Halt (List (Mapped × Nat))
  | 0, _, _ => .ok []
  | fuel + 1, va, n =>
    if n = 0 then .ok []
    else
      let m := min n (4096 - va % 4096)
      match s.access k.core k.ctx (va % 2 ^ 52) w k.priv with
      | .error (.fatal c) => .error (.fatal c (va % 2 ^ 52))
      | .error (.miss st why l p) => .error (.miss ⟨0, st, why, l, p, va % 2 ^ 52, w.isHw, w.acc⟩)
      | .ok a =>
        match s.mapRange k w fuel (va + m) (n - m) with
        | .error e => .error e
        | .ok t => .ok ((a, m) :: t)

/-- Read mapped parts at their homes, or from the registers of the control window (R398). -/
def State.readParts (s : State) (va : Nat) : List (Mapped × Nat) → Except Halt (List Byte × State)
  | [] => .ok ([], s)
  | (m, n) :: t =>
    match s.place m.pa with
    | .window off =>
      let (bs, s) := s.windowRead off n
      match s.readParts (va + n) t with
      | .error e => .error e
      | .ok (r, s) => .ok (bs ++ r, s)
    | _ =>
      match s.firstBad m.pa n with
      | some i => .error (.fatal 0x11 (va + i))
      | none =>
        let (bs, s) := s.homeRead m.pa n
        match s.readParts (va + n) t with
        | .error e => .error e
        | .ok (r, s) => .ok (bs ++ r, s)

/-- Write mapped parts at their homes, or to the registers of the control window (R398). -/
def State.writeParts (s : State) (va : Nat) : List (Mapped × Nat) → List Byte → Except Halt State
  | [], _ => .ok s
  | (m, n) :: t, bs =>
    match s.place m.pa with
    | .window off => (s.windowPost none off (bs.take n)).writeParts (va + n) t (bs.drop n)
    | _ => (s.homeWrite m.pa ((bs.take n).map some) m.cmp).writeParts (va + n) t (bs.drop n)

/-- The L2 requests of an engine of a core: one for each line that an access touches (R373, log 70). -/
def State.engineCount (s : State) (k : Who) (va n : Nat) : State :=
  match k.core with
  | none => s
  | some c => s.modCore c fun c => c.countBy 5 ((va % 128 + n + 127) / 128)

/-- Read bytes at a virtual address for an engine. `pkd`: the mapping's PKD bit must be this, where it matters. -/
def State.engineRead (s : State) (k : Who) (va n : Nat) (pkd : Option Bool := none) : Except Halt (List Byte × State) :=
  match s.mapRange k .read (n / 4096 + 2) va n with
  | .error e => .error e
  | .ok ps =>
    if ps.any fun p => match pkd with
      | some b => p.1.pkd != b
      | none => false then .error .packed
    else ((s.engineCount k va n).readParts va ps).map fun r => (r.1, r.2.claim k.ctx)

/-- Write bytes at a virtual address for an engine. -/
def State.engineWrite (s : State) (k : Who) (w : Want) (va : Nat) (bs : List Byte) (pkd : Option Bool := none) :
    Except Halt State :=
  match s.mapRange k w (bs.length / 4096 + 2) va bs.length with
  | .error e => .error e
  | .ok ps =>
    if ps.any fun p => match pkd with
      | some b => p.1.pkd != b
      | none => false then .error .packed
    else ((s.engineCount k va bs.length).writeParts va ps bs).map fun s => s.claim k.ctx

/-- A miss of an engine operation becomes a token (R346). -/
def State.engineToken (s : State) (k : Who) (m : Miss) (core : Nat) : Token × State :=
  let (key, s) := s.requestPage k.ctx m.stage m.why m.level m.page m.va m.acc core true
  ({ s.token k.ctx m.stage key 0 with va := m.va, hw := m.hw }, s)

/-! ### Entries -/

/-- A surface table entry (R58). -/
structure Ste where
  version : Nat
  sch : Nat
  cbs : Nat
  evict : Bool
  codec : Bool
  dten : Bool
  tshape : Nat
  axes : Nat
  ncomp : Nat
  fmt : Nat
  cls : Nat
  dim3 : Nat
  dim2 : Nat
  dim1 : Nat
  dim0 : Nat
  pdie : Nat
  loc : Nat
  base : Nat
  ntiles : Nat
  awaycnt : Nat
  use : Nat
  spb : Nat
  user : Dword
deriving DecidableEq, Repr

/-- The doublewords of 64 bytes. -/
def dwords (bs : List Byte) : List Dword := (List.range 8).map fun i => BitVec.ofNat 64 (bytesToNat ((bs.drop (8 * i)).take 8))

/-- Read an entry (R58). -/
def Ste.ofDwords (d : List Dword) : Ste :=
  let w (i : Nat) : Dword := d.getD i 0
  { version := bits (w 0) 63 48, sch := bits (w 0) 47 32, cbs := bits (w 0) 26 23, evict := (w 0).getLsbD 22,
    codec := (w 0).getLsbD 21, dten := (w 0).getLsbD 20, tshape := bits (w 0) 19 17, axes := bits (w 0) 16 15,
    ncomp := bits (w 0) 14 13, fmt := bits (w 0) 12 8, cls := bits (w 0) 2 0,
    dim3 := bits (w 1) 63 48, dim2 := bits (w 1) 47 32, dim1 := bits (w 1) 31 16, dim0 := bits (w 1) 15 0,
    pdie := bits (w 2) 57 55, loc := bits (w 2) 54 52, base := bits (w 2) 51 0,
    ntiles := bits (w 3) 63 32, awaycnt := bits (w 3) 31 0, use := bits (w 4) 47 16, spb := bits (w 4) 2 0, user := w 7 }

/-- The doublewords of an entry. -/
def Ste.toDwords (e : Ste) : List Dword :=
  [fld e.version 48 ||| fld e.sch 32 ||| fld e.cbs 23 ||| bit e.evict 22 ||| bit e.codec 21 ||| bit e.dten 20 |||
     fld e.tshape 17 ||| fld e.axes 15 ||| fld e.ncomp 13 ||| fld e.fmt 8 ||| fld e.cls 0,
   fld e.dim3 48 ||| fld e.dim2 32 ||| fld e.dim1 16 ||| fld e.dim0 0,
   fld e.pdie 55 ||| fld e.loc 52 ||| fld e.base 0,
   fld e.ntiles 32 ||| fld e.awaycnt 0,
   fld e.use 16 ||| fld e.spb 0, 0, 0, e.user]

/-- Bytes of an entry. -/
def Ste.toBytes (e : Ste) : List Byte := e.toDwords.flatMap fun d => natToBytes 8 d.toNat

/-- Whether an entry is stored as Crema tiles. -/
def Ste.crema (e : Ste) : Bool := e.cls == 1 || e.cls == 2

/-- Bits of an element (R58). -/
def Ste.elemBits (e : Ste) : Nat := (e.ncomp + 1) * fmtBits e.fmt

/-- Planes: the combinations of axes 2 and 3. -/
def Ste.planes (e : Ste) : Nat := (e.dim2 + 1) * (e.dim3 + 1)
/-- Crema tiles along an axis of `d + 1` elements. -/
def tilesAlong (d : Nat) : Nat := (d + 8) / 8

/-- Index of a tile in the tile map (R63). -/
def Ste.tileIdx (e : Ste) (p tx ty : Nat) : Nat := tx + tilesAlong e.dim0 * (ty + tilesAlong e.dim1 * p)

/-- Stack, die and bank of a tile (R62): die and bank. -/
def tilePlace (h p tx ty : Nat) : Nat × Nat :=
  let st := (tx + ty) % 2
  let a := tx / 2
  (4 * st + (a + ty + h + p) % 4, (a + 23 * ty + 97 * h + 211 * p) % 512)

/-- Virtual address of an entry. -/
def State.steVA (s : State) (ctx h : Nat) : Nat := ((s.ctx ctx).stbase &&& 0x000FFFFFFFFFFFC0).toNat + 64 * h

/-- The hardware's own accesses to the surface table and tile maps (R399). -/
def hwWho (core : Option Nat) (ctx : Nat) : Who := ⟨core, ctx, true⟩

/-- Bytes of the surface table or a tile map, as the hardware reads them; a read for a check of an instruction's operands is counted
with the update that follows it (log 70). -/
def State.readHw (s : State) (core : Option Nat) (ctx va n : Nat) : Except Halt (List Byte) :=
  match s.mapRange (hwWho core ctx) .hwRead 2 va n with
  | .error e => .error e
  | .ok ps => (s.readParts va ps).map (·.1)

def State.writeHw (s : State) (core : Option Nat) (ctx va : Nat) (bs : List Byte) : Except Halt State :=
  match s.mapRange (hwWho core ctx) .hw 2 va bs.length with
  | .error e => .error e
  | .ok ps =>
    if s.poisoned ((ps.map (·.1.pa)).headD 0) 8 then .error (.fatal 0x11 va)
    else (s.engineCount (hwWho core ctx) va bs.length).writeParts va ps bs

/-- Bytes that the hardware is about to update: their page is requested as written (R346, R399). -/
def State.toWrite (s : State) (core : Option Nat) (ctx va n : Nat) : Except Halt Unit :=
  (s.mapRange (hwWho core ctx) .hw 2 va n).map fun _ => ()

/-- An entry that the hardware is about to update. -/
def State.toUpdate (s : State) (core : Option Nat) (ctx h : Nat) : Except Halt Unit :=
  if h = 0 || bits (s.ctx ctx).stcount 16 0 ≤ h then .ok () else s.toWrite core ctx (s.steVA ctx h) 64

/-- Reserved bits of the doublewords of an entry (R58). -/
def steReserved : List Dword := [0x00000000F80000F8, 0, 0xFC00000000000000, 0, 0xFFFF00000000FFF8, ~~~0, ~~~0, 0]

/-- A reserved value in an entry, or a tile-map address that is no multiple of 8 (R58, R258). -/
def Ste.reservedValue (e : Ste) : Bool :=
  4 < e.tshape || 14 < e.fmt || 5 < e.cls || 4 < e.loc || (e.dten && 4 < e.spb) || (e.crema && e.base % 8 != 0)

/-- An entry that what reads it refuses: CLASS 0, a reserved bit that is set, or a reserved value (R4, R57,
log 84). -/
def refusedEntry (ds : List Dword) : Bool :=
  (Ste.ofDwords ds).cls == 0 || (Ste.ofDwords ds).reservedValue ||
    (List.range 8).any fun i => ds.getD i 0 &&& steReserved.getD i 0 != 0

/-- The entry of a handle; none where R57 or R4 refuses it. -/
def State.entry (s : State) (core : Option Nat) (ctx h : Nat) : Except Halt (Option Ste) :=
  if bits (s.ctx ctx).stcount 16 0 ≤ h then .ok none
  else
    match s.readHw core ctx (s.steVA ctx h) 64 with
    | .error e => .error e
    | .ok bs =>
      .ok (if refusedEntry (dwords bs) then none else some (Ste.ofDwords (dwords bs)))

/-- The entry of a handle as an engine finds it after issue: where it is gone, the block is killed (R264). -/
def State.entryNow (s : State) (k : Who) (h : Nat) : Except Halt Ste := do
  match ← s.entry k.core k.ctx h with
  | some e => .ok e
  | none => .error .kill

/-- Write an entry whole. -/
def State.putEntry (s : State) (core : Option Nat) (ctx h : Nat) (e : Ste) : Except Halt State :=
  s.writeHw core ctx (s.steVA ctx h) e.toBytes

/-- Raise or lower STE.USE of handles by 1 each; handle 0 names none. -/
def State.addUses (s : State) (core : Option Nat) (ctx : Nat) (up : Bool) : List Nat → Except Halt State
  | [] => .ok s
  | h :: t =>
    if h = 0 then s.addUses core ctx up t
    else
      match (s.toWrite core ctx (s.steVA ctx h) 64).bind fun _ => s.readHw core ctx (s.steVA ctx h) 64 with
      | .error e => .error e
      | .ok bs =>
        let e := Ste.ofDwords (dwords bs)
        match (s.engineCount (hwWho core ctx) (s.steVA ctx h) 64).putEntry core ctx h { e with use := if up then e.use + 1 else e.use - 1 } with
        | .error x => .error x
        | .ok s => s.addUses core ctx up t

/-- Raise or lower STE.USE for an operation: an entry that it names twice counts once (R61). -/
def State.addUse (s : State) (core : Option Nat) (ctx : Nat) (up : Bool) (hs : List Nat) : Except Halt State :=
  s.addUses core ctx up hs.eraseDups

/-! ### Tile maps -/

/-- A tile map entry (R63): FAR, EXP, DOM, AWAY, SLOT. -/
structure Tmap where
  far : Nat
  exp : Int
  freq : Bool
  away : Bool
  slot : Nat
deriving DecidableEq, Repr

/-- The fields of a tile-map entry (R63); its reserved bits are not looked at, and a DOM other than FREQ is TIME (log 94). -/
def Tmap.of (d : Dword) : Tmap :=
  { far := bits d 63 32, exp := (d.extractLsb' 16 8).toInt, freq := bits d 15 14 == 1, away := d.getLsbD 13, slot := bits d 12 0 }

def Tmap.dword (t : Tmap) : Dword :=
  fld t.far 32 ||| fld (t.exp % 256).toNat 16 ||| bit t.freq 14 ||| bit t.away 13 ||| fld t.slot 0

def State.tmap (s : State) (core : Option Nat) (ctx : Nat) (e : Ste) (idx : Nat) : Except Halt Tmap :=
  (s.readHw core ctx (e.base + 8 * idx) 8).map fun bs => Tmap.of (BitVec.ofNat 64 (bytesToNat bs))

/-- A tile's map entry that the hardware is about to update. -/
def State.tmapTo (s : State) (core : Option Nat) (ctx : Nat) (e : Ste) (idx : Nat) : Except Halt Tmap :=
  (s.toWrite core ctx (e.base + 8 * idx) 8).bind fun _ => s.tmap core ctx e idx

def State.putTmap (s : State) (core : Option Nat) (ctx : Nat) (e : Ste) (idx : Nat) (t : Tmap) : Except Halt State :=
  s.writeHw core ctx (e.base + 8 * idx) (natToBytes 8 t.dword.toNat)

/-! ### Elements -/

/-- Whether an element lies within an entry's extents (R249). -/
def Ste.inside (e : Ste) (p x y : Nat) : Bool := x ≤ e.dim0 && y ≤ e.dim1 && p < e.planes

/-- The linear number of an element of an entry that is not in Crema (R58). -/
def Ste.elemIndex (e : Ste) (p x y : Nat) : Nat :=
  if e.tshape = 0 then x + (e.dim0 + 1) * (y + (e.dim1 + 1) * p)
  else
    let t := 4 * 2 ^ e.tshape
    let nx := (e.dim0 + t) / t
    let ny := (e.dim1 + t) / t
    t * t * (x / t + nx * (y / t + ny * p)) + t * (y % t) + x % t

/-- Byte key of an element in its die's Crema (R224). -/
def cremaKey (bank slot elemBytes x y : Nat) : Nat := 524288 * bank + 64 * slot + (8 * (y % 8) + x % 8) * elemBytes

/-- Whether bytes of a die's Crema lie in a 64-bit word that holds an uncorrectable error (R19, R225). -/
def Die.badCrema (d : Die) (key n : Nat) : Bool := d.bad.any fun k => key < 8 * k + 8 && 8 * k < key + n

/-- Write bytes of a die's Crema: an error in a word written whole is gone (R19, R225). -/
def Die.cremaWrite (d : Die) (key : Nat) (bs : List Byte) : Die :=
  { d with crema := d.crema.writeN key bs, bad := d.bad.filter fun k => !(key ≤ 8 * k && 8 * k + 8 ≤ key + bs.length) }

/-- An uncorrectable error appears in the 64-bit word of a die's Crema that holds a byte (R19, R225). -/
def Die.cremaSpoil (d : Die) (key : Nat) : Die := if d.bad.contains (key / 8) then d else { d with bad := d.bad ++ [key / 8] }

/-- Raw bits of an element; one beyond the extents reads 0. -/
def State.elemRead (s : State) (k : Who) (h : Nat) (e : Ste) (p x y : Nat) (pkd : Option Bool := none) :
    Except Halt (Nat × State) :=
  if !e.inside p x y then .ok (0, s)
  else if e.crema then
    let tx := x / 8
    let ty := y / 8
    match s.tmap k.core k.ctx e (e.tileIdx p tx ty) with
    | .error z => .error z
    | .ok t =>
      if t.away then .error (.away h (e.tileIdx p tx ty))
      else
        let (die, bank) := tilePlace h p tx ty
        let n := e.elemBits / 8
        let key := cremaKey bank t.slot n x y
        if (s.die die).badCrema key n then .error (.fatal 0x11 e.base)
        else .ok (bytesToNat ((s.die die).crema.readN key n), s)
  else
    let i := e.elemIndex p x y
    if e.elemBits = 4 then
      (s.engineRead k (e.base + i / 2) 1 pkd).map fun r => (bytesToNat r.1 / 16 ^ (i % 2) % 16, r.2)
    else
      let n := e.elemBits / 8
      (s.engineRead k (e.base + n * i) n pkd).map fun r => (bytesToNat r.1, r.2)

/-- Write raw bits of an element; one beyond the extents is discarded. -/
def State.elemWrite (s : State) (k : Who) (h : Nat) (e : Ste) (p x y v : Nat) (pkd : Option Bool := none) :
    Except Halt State :=
  if !e.inside p x y then .ok s
  else if e.crema then
    let tx := x / 8
    let ty := y / 8
    match s.tmap k.core k.ctx e (e.tileIdx p tx ty) with
    | .error z => .error z
    | .ok t =>
      if t.away then .error (.away h (e.tileIdx p tx ty))
      else
        let (die, bank) := tilePlace h p tx ty
        let n := e.elemBits / 8
        .ok (s.modDie die fun d => d.cremaWrite (cremaKey bank t.slot n x y) (natToBytes n v))
  else
    let i := e.elemIndex p x y
    if e.elemBits = 4 then
      match s.engineRead k (e.base + i / 2) 1 pkd with
      | .error z => .error z
      | .ok (bs, s) =>
        let b := bytesToNat bs
        let b' := if i % 2 = 0 then b / 16 * 16 + v % 16 else b % 16 + 16 * (v % 16)
        s.engineWrite k .write (e.base + i / 2) (natToBytes 1 b') pkd
    else
      let n := e.elemBits / 8
      s.engineWrite k .write (e.base + n * i) (natToBytes n v) pkd

/-- The tiles of a window of a Crema entry that lie within its extents: (tx, ty). -/
def Ste.windowTiles (e : Ste) (p x0 y0 w h : Nat) : List (Nat × Nat) :=
  ((List.range ((y0 % 8 + h + 7) / 8)).flatMap fun j => (List.range ((x0 % 8 + w + 7) / 8)).map fun i => (x0 / 8 + i, y0 / 8 + j)).filter
    fun t => t.1 < tilesAlong e.dim0 && t.2 < tilesAlong e.dim1 && p < e.planes

/-- Tags of the tiles of a window, as they stand (R64, R396). -/
def State.windowTags (s : State) (core : Option Nat) (ctx : Nat) (e : Ste) (p : Nat) :
    List (Nat × Nat) → Except Halt (List Tmap)
  | [] => .ok []
  | (tx, ty) :: t =>
    match s.tmap core ctx e (e.tileIdx p tx ty) with
    | .error z => .error z
    | .ok m => (s.windowTags core ctx e p t).map fun r => m :: r

/-- Record an access to a tile for Carafe's choice (R235); `now` in units of 4,096 Crema cycles. -/
def State.touchTile (s : State) (ctx h idx die now : Nat) : State :=
  s.modDie die fun d =>
    { d with tiles := d.tiles.map fun t => if t.ctx = ctx ∧ t.handle = h ∧ t.idx = idx then { t with last := now } else t }

/-! ### Instructions that meet a halt at issue -/

/-- An uncorrectable error that an engine met at a virtual address is reported (R20, R118). -/
def State.reportAt (s : State) (k : Who) (cause va : Nat) : State :=
  if cause ≠ 0x11 then s
  else match s.xlate k.core k.ctx (va % 2 ^ 52) with
    | .ok m => s.report (s.canon m.pa)
    | .error _ => s

/-- A halt met by an instruction as it issues, for the split as a whole: the page is requested as the engine's access with
ENG = 1 (R399), an invalid reply to a hardware access is fatal. -/
def State.haltEx (s : State) (x : Ex) (h : Halt) (w : Want) : State :=
  match h with
  | .miss m =>
    let lanes := if x.lanes = 0 then oneLane 0 else x.lanes
    let x' := { x with lanes := lanes }
    let w := if m.hw then (if m.acc = 0 then Want.hwRead else Want.hw) else w
    if x.sp.invalid != 0 && m.hw then s.fatalEx x 0x10 m.va
    else
      let s := s.missed x' ((laneList lanes 64).map fun l => { m with lane := l }) lanes w
      s.modSplit x.gid x.sid fun sp => if sp.park = .page then { sp with due := x.sp.due } else sp
  | .fatal c va => (s.reportAt (s.who x.g) c va).fatalEx x c va
  | .away _ _ => s
  | .kill => s.illegal x
  | .packed => s.trap x 0x02 x.lanes 0

end Sys2Proof.Machine
end

