-- ==== Sys2Proof/Machine/Barrier.lean ====
section
/-! DEFINITION. Barrier objects and named slots (R306–R309, R325), what a phase completion releases (R307, R328), and the
event of R95 that dooms a block. -/

namespace Sys2Proof.Machine

/-- A barrier object (R306). -/
structure Bar where
  phase : Bool
  bound : Bool
  slot : Nat
  /-- Pending byte count, 56-bit two's complement. -/
  pbytes : BitVec 56
  expect : Nat
  pending : Nat
deriving DecidableEq, Repr

/-- The two doublewords of an object. -/
def Bar.dwords (b : Bar) : List Dword :=
  [bit b.phase 63 ||| bit b.bound 62 ||| fld b.slot 57 ||| b.pbytes.setWidth 64, fld b.expect 16 ||| fld b.pending 0]

/-- Read an object. -/
def Bar.of (lo hi : Dword) : Bar :=
  { phase := lo.getLsbD 63, bound := lo.getLsbD 62, slot := bits lo 61 57, pbytes := lo.extractLsb' 0 56,
    expect := bits hi 31 16, pending := bits hi 15 0 }

/-- The object of a block at an offset. -/
def State.bar (s : State) (blk off : Nat) : Bar := Bar.of (s.lsDword blk off) (s.lsDword blk (off + 8))

/-- Write an object. -/
def State.putBar (s : State) (blk off : Nat) (b : Bar) : State :=
  (s.lsPut64 blk off (b.dwords.getD 0 0)).lsPut64 blk (off + 8) (b.dwords.getD 1 0)

/-- Whether an object is bound: its core (or, while its block is evicted, its block) holds a slot for it (R308, R309). -/
def State.isBound (s : State) (blk off : Nat) : Bool :=
  match s.block blk with
  | none => false
  | some b => if b.resident then (s.core b.core).slots.any fun e => e.2 == (blk, off) else (s.bar blk off).bound

/-- A split goes past the instruction it waits at. -/
def State.advance (s : State) (gid sid : Nat) : State :=
  match s.group gid with
  | none => s
  | some g =>
    let d := s.drains g
    s.modSplit gid sid fun sp => sp.advance d

/-- Splits whose park fits a condition: group and split. -/
def State.parkedOn (s : State) (p : Nat → Group → Park → Bool) : List (Nat × Nat) :=
  s.groups.flatMap fun e =>
    (List.filter (fun (q : Nat × Split) => p e.1 e.2 q.2.park) e.2.splits).map fun q => (e.1, q.1)

/-- Every split that waits as a condition says goes past its instruction (R307, R311, R312, R328); its group's core acquires
at a scope. -/
def State.releaseWaiters (s : State) (scope : Nat) (p : Nat → Group → Park → Bool) : State :=
  (s.parkedOn p).foldl (fun s w => match s.group w.1 with
    | some g => (s.advance w.1 w.2).acquire g.core scope
    | none => s) s

/-- What follows each action on an object (R307): a complete phase toggles it and releases its waiters. -/
def State.settle (s : State) (blk off : Nat) (b : Bar) : State :=
  if b.pending = 0 ∧ b.pbytes = 0 then
    (s.putBar blk off { b with phase := !b.phase, pending := b.expect }).releaseWaiters 1 fun _ g p =>
      !g.isQueue && g.blk == blk && match p with
        | .phase (.object o _) => o == off
        | _ => false
  else s.putBar blk off b

/-- BINIT's action on an object bound to a slot (R307). -/
def State.barInit (s : State) (blk off slot expect : Nat) : State :=
  s.putBar blk off ⟨false, true, slot, 0, expect, expect⟩

/-- arrive(bytes) of R307; none where the phase has no arrival left. -/
def State.barArrive (s : State) (blk off : Nat) (bytes : BitVec 56) : Option State :=
  let b := s.bar blk off
  if b.pending = 0 then none
  else some (s.settle blk off { b with pending := b.pending - 1, pbytes := b.pbytes + bytes })

/-- lower(n) of R307: latched for an evicted block, discarded for one that is gone (R95, R309). -/
def State.barLower (s : State) (blk off n : Nat) : State :=
  match s.block blk with
  | none => s
  | some b =>
    if !b.resident then s.modBlock blk fun b => { b with latched := b.latched ++ [(off, (n : Int))] }
    else if s.isBound blk off then
      let o := s.bar blk off
      s.settle blk off { o with pbytes := o.pbytes - BitVec.ofNat 56 n }
    else s

/-- The lowest free named slot of a core (R308). -/
def Core.freeSlot (c : Core) : Option Nat := c.slots.freshBelow 32

/-- The object that an instruction's uniform offset names (R325): a multiple of 16 within the store; none where R325 refuses
it. -/
def State.barSpot (s : State) (g : Group) (o : Nat) : Option Spot := if o % 16 ≠ 0 then none else s.spot g o 16

/-- The barrier operand of an engine instruction: 0xF0 names none; an unbound object is refused (R248). -/
def State.barOperand (s : State) (x : Ex) (lit : Word) (c : BitVec 8) : Option (Option Spot) :=
  if c = 0xF0 then some none
  else
    match s.barSpot x.g (s.readUni x lit .w32 c).toNat with
    | none => none
    | some p => if s.isBound p.store p.off then some (some p) else none

/-- An engine's bytes lower its barrier: a release by its group, at BLOCK scope, or at CLUSTER scope for an object in the cluster
window (R303). -/
def State.lowerFor (s : State) (core : Nat) (bar : Option Spot) (n : Nat) : State :=
  match bar with
  | some p => if n = 0 then s else (if p.window then s.release core 2 else s).barLower p.store p.off n
  | none => s

/-- The accesses that precede an engine operation of a group in program order are performed, so that its lowering may release
them (R294, R303): no earlier atomic is still at an engine, and no lane of an earlier access awaits a page or a tag. -/
def State.lowerReady (s : State) (gid op : Nat) : Bool :=
  !(s.dies.any fun d => d.2.atoms.any fun q => q.gid == gid && q.reply.isNone && decide (q.flight < op)) &&
    match s.group gid with
    | none => true
    | some g => g.splits.all fun e => match e.2.openOp with
      | some k => op ≤ k
      | none => true

/-- An event of R95 befalls a block; BLOCK_KILL follows. -/
def State.doom (s : State) (blk : Nat) : State := s.modBlock blk fun b => { b with dying := true }

/-! ### What an engine's work makes of a halt -/

/-- Whether some token is still awaited, some was answered invalid. -/
def anyPending (ts : List Token) : Bool := ts.any fun t => t.status == .pending
def anyInvalid (ts : List Token) : Bool := ts.any fun t => t.status == .invalid

/-- A fatal fault met by an engine: each group of the context issues at most 64 further instructions (R333, R355). -/
def State.engineFatal (s : State) (ctx core pc cause va : Nat) : State :=
  s.setFatal ctx (fatalOf cause core pc va none 64)

/-- An engine touches an away tile: Carafe is to return it (R237). -/
def State.wantTile (s : State) (ctx h idx : Nat) : State :=
  { s with dies := s.dies.map fun _ d =>
      { d with tiles := d.tiles.map fun t =>
          if t.ctx = ctx ∧ t.handle = h ∧ t.idx = idx ∧ t.away then { t with wanted := true } else t } }

/-- An engine's work halts (R253, R264, R399): a page is requested and its token kept, a tile is wanted, the block is doomed,
or the context meets a fatal fault. A page found with PKD = 1 dooms the block (for the source or index of a binding of another kind
than 5: log 97). `core` is the core or unit named in the record, `pc` the instruction. -/
def State.haltEngine (s : State) (k : Who) (core blk pc : Nat) (h : Halt) : Option Token × State :=
  match h with
  | .miss m =>
    let (t, s) := s.engineToken k m core
    (some t, s)
  | .fatal c va => (none, (s.reportAt k c va).engineFatal k.ctx core pc c va)
  | .away h idx => (none, s.wantTile k.ctx h idx)
  | .kill => (none, s.doom blk)
  | .packed => (none, s.doom blk)

/-- An invalid reply reaches an engine's work (R253, R264): the block is doomed; on a hardware access it is fatal (R399). -/
def State.invalidEngine (s : State) (ctx core blk pc : Nat) (ts : List Token) : State :=
  match ts.find? fun t => t.status == .invalid && t.hw with
  | some t => s.engineFatal ctx core pc 0x10 t.va
  | none => s.doom blk

end Sys2Proof.Machine
end

