-- ==== Sys2Proof/Machine/Frame.lean ====
section
/-! DEFINITION. A context's save area in memory (R348, R349): the codebook records of its header, the group frames, the local
store in block frames. Fields that the spec gives to a stretch of a frame without placing them within it are free bytes there
(log 13). -/

namespace Sys2Proof.Machine

/-! ### Access (R348) -/

/-- Physical address of a byte of a frame. -/
def State.areaAt (s : State) (ctx f off : Nat) : Nat := 65536 * (bits (s.ctx ctx).csave 51 16 + f) + off

/-- Bytes of a frame; the area bypasses the L1. -/
def State.areaRead (s : State) (ctx f off n : Nat) : List Byte := (s.homeRead (s.areaAt ctx f off) n).1

/-- Write bytes of a frame. -/
def State.areaPut (s : State) (ctx f off : Nat) (bs : List Byte) : State :=
  s.homeWrite (s.areaAt ctx f off) (bs.map some) false

/-- An uncorrectable error in bytes of a frame that are read is fatal to the context. -/
def State.areaCheck (s : State) (ctx f off n : Nat) : State :=
  match s.firstBad (s.areaAt ctx f off) n with
  | some i => (s.report (s.areaAt ctx f off + i)).engineFatal ctx Config.unitCore.toNat 0 0x11 0
  | none => s

/-- Whether a run of frames lies in this package's memory. -/
def State.areaHere (s : State) (ctx f n : Nat) : Bool :=
  let mem (pa : Nat) : Bool := match s.place pa with
    | .mem _ => true
    | _ => false
  mem (s.areaAt ctx f 0) && mem (s.areaAt ctx f (65536 * n - 1))

/-- A stretch of a frame whose fields the spec does not place (log 13). -/
def State.areaFree (s : State) (ctx f off n : Nat) : State :=
  let (k, s) := s.free
  s.areaPut ctx f off ((List.range n).map fun i => Config.frameByte k (off + i))

/-! ### Numbers in rows -/

/-- Numbers of `n` bytes each, one after the other. -/
def rowBytes (n : Nat) (vs : List Nat) : List Byte := vs.flatMap (natToBytes n)

/-- The entries of a table that a row of numbers of `n` bytes gives, by rising key. -/
def rowTable {α : Type} (n : Nat) (bs : List Byte) (keys : List Nat) (val : Nat → α) : KV α :=
  keys.zipIdx.filterMap fun e =>
    let v := bytesToNat ((bs.drop (n * e.2)).take n)
    if v = 0 then none else some (e.1, val v)

/-! ### Group frames (R349) -/

/-- Place of a register in a group frame: s0–s47 at 0x20; vector registers block by block, lane by lane within a block. -/
def frameReg (width : Nat) (w : RegWrite) : Nat :=
  if w.scalar then 0x20 + 4 * w.reg else 0x1800 + 32 * width * (w.reg / 8) + 32 * w.lane + 4 * (w.reg % 8)

/-- Keys of the vector registers of one block of a group, in the order of a frame. -/
def frameVec (width b : Nat) : List Nat :=
  (List.range width).flatMap fun l => (List.range 8).map fun r => 64 * (8 * b + r) + l

/-- The registers of a group, and as a member of the owning team its tiles, at their places in a frame. -/
def Group.frameParts (g : Group) : List (Nat × List Byte) :=
  [(0x20, rowBytes 4 ((List.range 48).map fun i => (KV.get 0 g.sr i).toNat)),
   (0xE0, rowBytes 8 ((List.range 16).map fun i => if i = 0 then 0 else (KV.get 0 g.m i).toNat)),
   (0x160, rowBytes 8 ((List.range 8).map fun i => (KV.get 0 g.f i).toNat)),
   (0x1800, rowBytes 4 ((List.range g.rblk).flatMap fun b => (frameVec g.width b).map fun k => (KV.get 0 g.v k).toNat))] ++
  if g.teamOwned then [(0xD800, rowBytes 4 ((List.range 2048).map fun k => (KV.get 0 g.tiles k).toNat))] else []

/-- The stretches of a group frame whose fields the spec does not place: header; FPSTAT, counters and park cause; split
entries, join area, trap record; the state of engines. -/
def frameOpen : List (Nat × Nat) := [(0, 0x20), (0x1A0, 0x20), (0x200, 0xE00), (0xF800, 0x200)]

/-- A token in memory (R346). -/
def Token.bytes (t : Token) : List Byte :=
  let status : Nat := match t.status with
    | .pending => 0
    | .retry => 1
    | .invalid => 2
  natToBytes 8 (2 ^ 48 * t.reqid + 2 ^ 42 * (t.vf % 64) + 2 ^ 41 * (t.stage - 1) + 2 ^ 39 * status) ++ natToBytes 8 t.mask.toNat

/-- The page-request records of splits 0–7 (R346, R349): PC and mask, then 15 tokens; zeros where a split has none. -/
def Group.requestBytes (g : Group) : List Byte :=
  (List.range 8).flatMap fun k => match g.splits.find k with
    | some sp =>
      if sp.tokens = [] then List.replicate 256 0
      else
        let ts := (sp.tokens.take 15).flatMap Token.bytes
        natToBytes 8 sp.pc ++ natToBytes 8 sp.mask.toNat ++ ts ++ List.replicate (240 - ts.length) 0
    | none => List.replicate 256 0

/-- A group is written to its frame. -/
def State.writeFrame (s : State) (g : Group) : State :=
  let s := g.frameParts.foldl (fun s p => s.areaPut g.ctx g.frame p.1 p.2) s
  let s := s.areaPut g.ctx g.frame 0x1000 g.requestBytes
  frameOpen.foldl (fun s p => s.areaFree g.ctx g.frame p.1 p.2) s

/-- The entries of a table with rising keys, sorted by insertion. -/
def KV.sorted {α : Type} (l : List (Nat × α)) : KV α := l.foldl (fun m e => KV.insert m e.1 e.2) []

/-- A group with the registers of its frame. -/
def State.readFrame (s : State) (g : Group) : Group :=
  if !s.areaHere g.ctx g.frame 1 then g
  else
    let rd := s.areaRead g.ctx g.frame
    { g with
      sr := rowTable 4 (rd 0x20 192) (List.range 48) (BitVec.ofNat 32)
      m := (rowTable 8 (rd 0xE0 128) (List.range 16) fun n => BitVec.ofNat 64 n &&& widthMask g.width).filter fun e => e.1 != 0 && e.2 != 0
      f := rowTable 8 (rd 0x160 64) (List.range 8) (BitVec.ofNat 64)
      v := KV.sorted ((List.range g.rblk).flatMap fun b =>
        rowTable 4 (rd (0x1800 + 32 * g.width * b) (32 * g.width)) (frameVec g.width b) (BitVec.ofNat 32)) }

/-- A value that returns after the save goes into the frame's register image too (R351). -/
def State.frameWrites (s : State) (g : Group) (ws : List RegWrite) : State :=
  if g.res ≠ .evicted then s
  else ws.foldl (fun s w => if w.scalar || w.reg < 8 * g.rblk then
    s.areaPut g.ctx g.frame (frameReg g.width w) (natToBytes 4 w.val.toNat) else s) s

/-! ### Block frames (R349) -/

/-- A block is written to its frames: its state, its local store from 0x1000 on. -/
def State.writeBlockFrame (s : State) (b : Block) : State :=
  (s.areaFree b.ctx b.frame 0 0x1000).areaPut b.ctx b.frame 0x1000 (b.ls.readN 0 b.lsBytes)

/-- The local store of a block as its frames hold it. -/
def State.readBlockFrame (s : State) (b : Block) : Memory :=
  if !s.areaHere b.ctx b.frame b.frames then b.ls
  else rowTable 1 (s.areaRead b.ctx b.frame 0x1000 b.lsBytes) (List.range b.lsBytes) (BitVec.ofNat 8)

/-! ### The header's codebook records (R267, R348) -/

/-- The 36 bytes of a codebook record. -/
def recordBytes (ctx : Nat) : Option CbRec → List Byte
  | none => List.replicate 36 0
  | some r => rowBytes 2 ((List.range 16).map fun i => (r.entries.getD i 0).toNat) ++
      natToBytes 4 (ctx + 65536 + if r.conflict then 131072 else 0)

/-- The records of a context's header are written as they stand. -/
def State.writeRecords (s : State) (ctx : Nat) : State :=
  s.areaPut ctx 0 0x2000 ((List.range 16).flatMap fun c => recordBytes ctx ((s.ctx ctx).cbrecs.find c))

end Sys2Proof.Machine
end

