-- ==== Sys2Proof/Machine/Atomic.lean ====
section
/-! DEFINITION. Atomics (R313–R320): ATOM, RED and ATOML, their execution at the synchronisation engines, and remote-scope
promotion (R299, R300). -/

namespace Sys2Proof.Machine

/-! ### The operations (R318) -/

/-- New value of an integer operation on o, b and c; a failing CAS writes nothing. -/
def atomInt {n : Nat} (op : Nat) (o b c : BitVec n) : Option (BitVec n) :=
  match op with
  | 0 => some (o + b)
  | 1 => some (o - b)
  | 2 => some (o &&& b)
  | 3 => some (o ||| b)
  | 4 => some (o ^^^ b)
  | 5 => some (if o.slt b then o else b)
  | 6 => some (if o.slt b then b else o)
  | 7 => some (if o.ult b then o else b)
  | 8 => some (if o.ult b then b else o)
  | 9 => some b
  | 10 => if o = b then some c else none
  | 11 => some (if b.ule o then 0 else o + 1)
  | _ => some (if o = 0 ∨ b.ult o then b else o - 1)

/-- FADD of R318. -/
def atomFadd (f : FF) (o b : Dword) : Rnd := f.add .rne (f.decode (o.toNat % 2 ^ f.width)) (f.decode (b.toNat % 2 ^ f.width))

/-- New value, if the operation writes, and flags. -/
def atomNew (op : Nat) (w64 : Bool) (o b c : Dword) : Option Dword × Flags :=
  if op = 13 then
    let r := atomFadd (if w64 then .fp64 else .fp32) o b
    (some (BitVec.ofNat 64 r.bits), r.flags)
  else if w64 then (atomInt op o b c, 0)
  else ((atomInt op (o.setWidth 32) (b.setWidth 32) (c.setWidth 32) : Option Word).map fun (v : Word) => v.setWidth 64, 0)

/-- Bytes of an operand. -/
def atomBytes (w64 : Bool) : Nat := if w64 then 8 else 4

/-- The registers that receive an old value. -/
def oldWrites (d : BitVec 8) (w64 : Bool) (lane : Nat) (old : Dword) : List RegWrite :=
  loadWrites d (if w64 then 5 else 4) lane (natToBytes 8 old.toNat)

/-! ### Returns on AT (R316) -/

/-- One part of an AT operation has been performed and returned: its register writes and its flags (R318, R319). -/
def State.returnPart (s : State) (gid flight : Nat) (ws : List RegWrite) (fl : Flags) : State :=
  match s.group gid with
  | none => s
  | some g =>
    match g.flights.find? fun f => f.id == flight with
    | none => s
    | some f =>
      let s := (s.setGroup gid ((g.writeRegs ws).modFlight flight fun f => { f with left := f.left - 1 })).frameWrites g ws
      let s := s.addFlags gid f.pc fl (some f.born)
      if f.left = 1 then s.settleAt gid else s

/-! ### ATOM and RED -/

/-- Operands that an atomic may not name, besides its address. -/
def badAtom (g : Group) (o : EOps) : Bool :=
  badDst g (atomW64 o) o.d || badSrc g (atomKind o) o.b || (atomOp o == 10 && badSrc g (atomKind o) o.c)

/-- The die whose engine executes an atomic (R313): the home die of the sector; one to another package leaves by the core's. -/
def State.engineOf (s : State) (pa core : Nat) : Nat :=
  match s.place pa with
  | .mem c => homeDie c
  | _ => dieOf core

/-- Addresses with equal ones next to each other, in order of their lowest lanes (R314). -/
def groupAddrs : Nat → List (Nat × Nat) → List (Nat × Nat)
  | 0, as => as
  | _, [] => []
  | n + 1, a :: t => (a :: t.filter fun b => b.2 == a.2) ++ groupAddrs n (t.filter fun b => b.2 != a.2)

/-- A lane's request leaves the core (R313, R319): the L1 gives up the sector, the engine's queue takes the request. -/
def State.sendAtom (s : State) (x : Ex) (o : EOps) (id lane : Nat) (p : Piece) : State :=
  let core := x.g.core
  let sector (a : Nat) : Bool := a / 32 == p.m.pa / 32
  let s := (s.l1Clear core sector sector).count core 5
  let s := s.modGroup x.gid fun g => g.modFlight id fun f =>
    { f with left := f.left + 1
             remote := match s.place p.m.pa with
               | .remote k => some k
               | _ => f.remote }
  let k := atomKind o
  let q : AtomReq :=
    { gid := x.gid, flight := id, addr := p.m.pa, op := atomOp o, w64 := atomW64 o, b := s.readSrc x o.lit k o.b lane,
      c := s.readSrc x o.lit k o.c lane, cmp := p.m.cmp, core := 320 * s.pkg.pkgid + core, lane := lane,
      scalar := isScalar o.d, dst := if o.d.toNat < 0xF0 then some o.d.toNat else none,
      release := if atomRel o then some (atomScope o) else none, rmt := o.minor.getLsbD 10 }
  s.modDie (s.engineOf p.m.pa core) fun d => { d with atoms := d.atoms ++ [q] }

/-- A global FADD or acquire counts on AT before any lane's request: an operation whose flags are still to come (R318, R363), or
before which no later access is performed (R319). -/
def State.openAtom (s : State) (x : Ex) (o : EOps) : Ex × State :=
  if atomOp o ≠ 13 && !atomAcq o then (x, s)
  else
    let (id, s) := s.openFlight x .at
    ({ x with sp := { x.sp with openOp := some id } },
      s.modGroup x.gid fun g => g.modFlight id fun f =>
        { f with flag := atomOp o == 13, acq := if atomAcq o then some (atomScope o) else none })

/-- ATOM and RED (R318–R320). -/
def atomGlobal (o : EOps) (s : State) : Out :=
  s.withEx fun x =>
    let n := atomBytes (atomW64 o)
    let once := isScalar o.d
    if x.g.isQueue || badBase x.g o.a || badAtom x.g o ||
      (once && (isVec o.a || !isUniform o.b || (atomOp o == 10 && !isUniform o.c))) then s.illegal x
    else
      let lanes := if once then [lowLane x.lanes] else x.list
      let as := lanes.map fun l => (l, (s.readSrc x o.lit .i64 o.a l).toNat % 2 ^ 52)
      let bad := as.filter fun e => e.2 % n != 0
      if bad != [] then s.trap x 0x01 (maskOf (bad.map (·.1))) 0
      else
        let s := if atomRel o then s.release x.g.core (atomScope o) else s
        let (x, s) := s.openAtom x o
        (s.laneAccess x .at .atomic (sized n (groupAddrs 64 as)) fun s id l ps =>
          ⟨match ps with
            | p :: _ => s.sendAtom x o id l p
            | [] => s, [], false⟩).settleAt x.gid

/-- ATOM (R318). -/
def execAtom (o : EOps) (s : State) : Out := atomGlobal o s
/-- RED (R318). -/
def execRed (o : EOps) (s : State) : Out := atomGlobal o s

/-! ### ATOML -/

/-- An operation that is wholly performed counts on AT until the earlier ones have fallen (R173, R316). -/
def State.passAt (s : State) (x : Ex) : State := (s.fly x .at []).settleAt x.gid

/-- One lane's ATOML (R313, R318). -/
def State.atomLocal (s : State) (x : Ex) (o : EOps) (lane : Nat) (p : Spot) : State :=
  let n := atomBytes (atomW64 o)
  let k := atomKind o
  let old : Dword := BitVec.ofNat 64 (bytesToNat (s.lsRead p.store p.off n))
  let r := atomNew (atomOp o) (atomW64 o) old (s.readSrc x o.lit k o.b lane) (s.readSrc x o.lit k o.c lane)
  let s := match r.1 with
    | some v => s.lsWrite p.store p.off (natToBytes n v.toNat)
    | none => s
  (s.modGroup x.gid fun g => g.writeRegs (oldWrites o.d (atomW64 o) lane old)).addFlags x.gid x.sp.pc r.2

/-- BLOCK scope on the issuer's own store, CLUSTER scope through the window (R294, R317). -/
def spotScope (ps : List (Nat × Spot)) : Nat := if ps.any fun e => e.2.window then 2 else 1

/-- ATOML (R313, R317–R320). -/
def execAtoml (o : EOps) (s : State) : Out :=
  s.withEx fun x =>
    let n := atomBytes (atomW64 o)
    if x.g.isQueue || badSrc x.g .w32 o.a || badAtom x.g o || isScalar o.d then s.illegal x
    else
      let os := x.list.map fun l => (l, (s.readSrc x o.lit .w32 o.a l).toNat)
      s.localAccess x n true true (fun a => a % n == 0) os fun sp =>
        let s := if atomRel o then s.release x.g.core (spotScope sp) else s
        let s := sp.foldl (fun s e => s.atomLocal x o e.1 e.2) s
        let s := if atomAcq o then s.acquire x.g.core (spotScope sp) else s
        (s.passAt x).finish x

/-! ### The synchronisation engines -/

/-- Whether the engine has room to record the releaser of a request's sector (R300, log 56). -/
def Die.recordRoom (d : Die) (q : AtomReq) : Bool :=
  (d.releasers.find (q.addr / 32)).isSome || d.releasers.length < Config.releaserRecords

/-- A request waits for the core that its sector's releaser record names (R299), or for its own where its release finds no room
for a record (R300). -/
def Die.awaits (d : Die) (q : AtomReq) : Option Nat :=
  if q.promoted then none
  else
    match if q.rmt then d.releasers.find (q.addr / 32) else none with
    | some k => some k
    | none => if (q.release.any fun sc => sc < 4) && !d.recordRoom q then some q.core else none

/-- A request stands first at the port of its line's slice, behind the requests given (R313). -/
def Die.atPort (d : Die) (before : List AtomReq) (q : AtomReq) : Bool := before.all fun p => d.slice p.addr != d.slice q.addr

/-- The oldest request that stands first at its port and meets a test, with those before and after it. -/
def Die.pick (d : Die) (ok : AtomReq → Bool) : List AtomReq → List AtomReq → Option (List AtomReq × AtomReq × List AtomReq)
  | _, [] => none
  | before, q :: t => if d.atPort before q && ok q then some (before, q, t) else d.pick ok (before ++ [q]) t

/-- Change the requests that stand first at their ports and meet a test. -/
def Die.mapPorts (d : Die) (ok : AtomReq → Bool) (f : AtomReq → AtomReq) : List AtomReq → List AtomReq → List AtomReq
  | _, [] => []
  | before, q :: t => (if d.atPort before q && ok q then f q else q) :: d.mapPorts ok f (before ++ [q]) t

/-- Record or forget a releaser (R299); a release without room for its record behaves as one at DEVICE scope (R300). -/
def Die.note (d : Die) (q : AtomReq) : Die :=
  let d := if q.rmt then { d with releasers := d.releasers.erase (q.addr / 32) } else d
  match q.release with
  | none => d
  | some sc =>
    if sc < 4 && d.recordRoom q then { d with releasers := d.releasers.insert (q.addr / 32) q.core }
    else { d with releasers := d.releasers.erase (q.addr / 32) }

/-- The value that an atomic's target holds (R313): its home, another package's answer (log 15), a window register. -/
def State.atomOld (s : State) (q : AtomReq) : Dword × State :=
  let n := atomBytes q.w64
  match s.place q.addr with
  | .remote _ => let v := Config.remoteAtomic s.freeCount q.addr
    (if q.w64 then v else v.setWidth 32 |>.setWidth 64, s.free.2)
  | .window off => let r := s.windowRead off n
    (BitVec.ofNat 64 (bytesToNat r.1), r.2)
  | _ => let r := s.homeRead q.addr n
    (BitVec.ofNat 64 (bytesToNat r.1), r.2)

/-- A request acts on its target (R313, R381). -/
def State.atomPut (s : State) (q : AtomReq) (v : Option Dword) : State :=
  let n := atomBytes q.w64
  match s.place q.addr, v with
  | .remote _, _ =>
    s.send [⟨s.pkg.pkgid, q.addr, .atomic q.op q.w64 q.b q.c (q.release.map fun sc => (q.core % 320, sc)) q.rmt q.cmp⟩]
  | .window off, some v => s.windowPost (if q.core / 320 = s.pkg.pkgid then some (q.core % 320) else none) off (natToBytes n v.toNat)
  | _, some v => s.homeWrite q.addr ((natToBytes n v.toNat).map some) q.cmp
  | _, none => s

/-- The old value goes back to the requester (R318, R381). -/
def State.atomReply (s : State) (q : AtomReq) (old : Dword) (fl : Flags) : State :=
  match q.reply with
  | some p => s.modPkg fun k => { k with replies := k.replies ++ [⟨p, natToBytes (atomBytes q.w64) old.toNat⟩] }
  | none =>
    let ws := match q.dst with
      | some d => oldWrites (BitVec.ofNat 8 d) q.w64 q.lane old
      | none => []
    s.returnPart q.gid q.flight ws fl

/-- An uncorrectable error under an atomic is fatal to its context (R320). -/
def State.atomFatal (s : State) (q : AtomReq) : State :=
  match s.group q.gid, q.reply with
  | some g, none =>
    let pc := match g.flights.find? fun f => f.id == q.flight with
      | some f => f.pc
      | none => 0
    s.setFatal g.ctx (fatalOf 0x11 g.core pc 0 (some q.gid) (s.skidOf g))
  | _, _ => s

/-- Whether a request goes to another package. -/
def State.atomAway (s : State) (q : AtomReq) : Bool :=
  match s.place q.addr with
  | .remote _ => true
  | _ => false

/-- The core that a request of a die waits for; one that goes to another package leaves at once. -/
def State.atomWaits (s : State) (d : Die) (q : AtomReq) : Option Nat := if s.atomAway q then none else d.awaits q

/-- A request that need not wait is executed; `rest` are the others. No clean byte of its sector that its core has read meanwhile
stays in the L1, so that its group reads what the atomic left (R293, R301). -/
def State.atomPerform (s : State) (die : Nat) (q : AtomReq) (rest : List AtomReq) : State :=
  let remote := s.atomAway q
  let s := s.modDie die fun d =>
    let d := { d with atoms := rest, opSeq := d.opSeq + 1 }
    if remote then d else d.note q
  if s.poisoned q.addr (atomBytes q.w64) then (s.atomFatal q).reports q.addr (atomBytes q.w64)
  else
    let (old, s) := s.atomOld q
    let r := atomNew q.op q.w64 old q.b q.c
    let s := (s.atomPut q r.1).atomReply q old r.2
    if q.core / 320 = s.pkg.pkgid then s.l1DropClean (q.core % 320) fun a => a / 32 == q.addr / 32 else s

/-- ATOMIC_EXECUTE (R313, R314, R299): the requests at a port of a die's engine in order of arrival; the oldest that need not
wait is executed. A remote acquire waits for its promotion; a recorded core of another package is asked over Thrumri. -/
def execAtomicExecute (die : Nat) (s : State) : Out :=
  let d := s.die die
  .next (match d.pick (fun q => (s.atomWaits d q).isNone) [] d.atoms with
    | some (before, q, after) => s.atomPerform die q (before ++ after)
    | none =>
      let far (q : AtomReq) : Bool := !q.asked && (s.atomWaits d q).any fun k => k / 320 != s.pkg.pkgid
      match d.pick far [] d.atoms with
      | none => s
      | some (before, q, after) =>
        (s.modDie die fun d => { d with atoms := before ++ { q with asked := true } :: after }).send
          [⟨s.pkg.pkgid, q.addr, .promote ((d.awaits q).getD 0 % 320)⟩])

/-- A request waits for a core of this package. -/
def State.atomFor (s : State) (core : Nat) (d : Die) (q : AtomReq) : Bool := s.atomWaits d q == some (320 * s.pkg.pkgid + core)

/-- PROMOTION_REQUEST (R220, R299): a core that the record of some waiting request names writes back what is narrower than
DEVICE and acknowledges. -/
def execPromotionRequest (core : Nat) (s : State) : Out :=
  .next (if s.dies.any fun e => (e.2.pick (s.atomFor core e.2) [] e.2.atoms).isSome then
      let t := s.release core 4
      let ack (_ : Nat) (d : Die) : Die := { d with atoms := d.mapPorts (s.atomFor core d) (fun q => { q with promoted := true }) [] d.atoms }
      { t with dies := t.dies.map ack }
    else s)

end Sys2Proof.Machine
end

