-- ==== Sys2Proof/Machine/Packed.lean ====
section
/-! DEFINITION. Packed streams (R231–R233): the line encodings of R228, chunks and their codecs, expansion and coding. -/

namespace Sys2Proof.Machine

/-- Sectors that a line of a tag takes (R228). -/
def tagSectors (tag : Nat) : Nat :=
  match tag with
  | 0 => 4
  | 1 => 0
  | 2 => 1
  | 3 => 2
  | _ => 3

/-- The stored form of a line under a tag (R228). -/
def encodeLine (tag : Nat) (bs : List Byte) : List Byte :=
  let ws := lineWords bs
  let w0 := ws.headD 0
  let head := natToBytes 4 w0.toNat
  let pad (n : Nat) (l : List Byte) : List Byte := l ++ List.replicate (n - l.length) 0
  match tag with
  | 0 => bs
  | 1 => []
  | 2 => pad 32 head
  | 3 => pad 64 (head ++ ws.map fun w => (w - w0).extractLsb' 0 8)
  | _ => pad 96 (head ++ ws.flatMap fun w => natToBytes 2 (w - w0).toNat)

/-- The line that a stored form stands for (R228). -/
def decodeLine (tag : Nat) (bs : List Byte) : List Byte :=
  let w0 : Word := BitVec.ofNat 32 (bytesToNat (bs.take 4))
  let line (f : Nat → Word) : List Byte := (List.range 32).flatMap fun i => natToBytes 4 (w0 + f i).toNat
  match tag with
  | 0 => bs
  | 1 => List.replicate 128 0
  | 2 => line fun _ => 0
  | 3 => line fun i => (bs.getD (4 + i) 0).signExtend 32
  | _ => line fun i => (BitVec.ofNat 16 (bytesToNat ((bs.drop (4 + 2 * i)).take 2))).signExtend 32

/-- The lines of a chunk. -/
def chunkLines (bs : List Byte) : List (List Byte) := (List.range 8).map fun j => (bs.drop (128 * j)).take 128

/-- LINES form of a chunk (R232). -/
def linesForm (bs : List Byte) : List Byte :=
  let ls := chunkLines bs
  let tags := (ls.zipIdx).foldl (fun n e => n + (lineTag e.1).toNat * 16 ^ e.2) 0
  natToBytes 4 tags ++ List.replicate 28 0 ++ ls.flatMap fun l => encodeLine (lineTag l).toNat l

/-- Code a chunk of 1,024 bytes: codec and packed form. `zero` allows ZERO and `lines` LINES (R232, R236, R254). -/
def codeChunk (zero lines : Bool) (bs : List Byte) : Nat × List Byte :=
  let l := linesForm bs
  if zero && bs.all (fun b => b == 0) then (1, [])
  else if lines && l.length < 1024 then (2, l)
  else (0, bs)

/-- An index entry (R231). -/
def indexEntry (off plen codec : Nat) : Dword := fld off 36 ||| fld plen 13 ||| fld codec 0

/-- The first 32-byte unit after the index of a stream of `n` chunks. -/
def firstUnit (n : Nat) : Nat := 1 + (8 * n + 31) / 32

/-- ELEN and NCHUNK of a header; none where it is malformed (R233). -/
def streamHead (bs : List Byte) : Option (Nat × Nat) :=
  let d := (List.range 4).map fun i => bytesToNat ((bs.drop (8 * i)).take 8)
  let elen := d.getD 0 0 / 2 ^ 32
  let n := d.getD 0 0 % 2 ^ 32
  if d.getD 1 0 ≠ 0 ∨ d.getD 2 0 ≠ 0 ∨ d.getD 3 0 ≠ 0 ∨ n ≠ (elen + 1023) / 1024 then none else some (elen, n)

/-- OFF, PLEN and CODEC of an index entry; none where it is malformed (R233). -/
def streamIndex (e : Dword) : Option (Nat × Nat × Nat) :=
  let plen := bits e 23 13
  let codec := bits e 3 0
  if bits e 35 24 ≠ 0 ∨ bits e 12 4 ≠ 0 ∨ 2 < codec then none
  else if (codec = 0 ∧ plen ≠ 1024) ∨ (codec = 1 ∧ plen ≠ 0) ∨ (codec = 2 ∧ (plen < 32 ∨ 1024 < plen)) then none
  else some (bits e 63 36, plen, codec)

/-- The lines of a LINES chunk: from tag number `j`, the sectors that follow. -/
def unpackLines (tags : Nat) : Nat → Nat → List Byte → List Byte
  | 0, _, _ => []
  | n + 1, j, bs =>
    let t := tags / 16 ^ j % 16
    decodeLine t (bs.take (32 * tagSectors t)) ++ unpackLines tags n (j + 1) (bs.drop (32 * tagSectors t))

/-- Expand the packed form of a chunk; none where it is malformed (R232, R233). -/
def expandChunk (codec : Nat) (bs : List Byte) : Option (List Byte) :=
  match codec with
  | 0 => some bs
  | 1 => some (List.replicate 1024 0)
  | _ =>
    let tags := bytesToNat (bs.take 4)
    let ts := (List.range 8).map fun j => tags / 16 ^ j % 16
    if ts.any (fun t => 4 < t) || bs.length != 32 + 32 * (ts.map tagSectors).sum then none
    else some (unpackLines tags 8 0 (bs.drop 32))

/-- Expanded chunk `c` of a stream at a virtual address; bytes at or above ELEN are 0 (R232, R254). -/
def State.streamChunk (s : State) (k : Who) (va c : Nat) : Except Halt (List Byte × State) := do
  let (h, s) ← s.engineRead k va 32 (some true)
  match streamHead h with
  | none => .error .kill
  | some (elen, n) =>
    if n ≤ c then .ok (List.replicate 1024 0, s)
    else
      let (ib, s) ← s.engineRead k (va + 32 + 8 * c) 8 (some true)
      match streamIndex (BitVec.ofNat 64 (bytesToNat ib)) with
      | none => .error .kill
      | some (off, plen, codec) =>
        let (bs, s) ← s.engineRead k (va + 32 * off) plen (some true)
        match expandChunk codec bs with
        | none => .error .kill
        | some l => .ok (((l.zipIdx).map fun e => if 1024 * c + e.2 < elen then e.1 else 0), s)

end Sys2Proof.Machine
end

