-- ==== Sys2Proof/Machine/Copy.lean ====
section
/-! DEFINITION. Range registration (R221, R251), the checks of a copy (R247, R248) and its chunks (R249, R250, R254). -/

namespace Sys2Proof.Machine

/-! ### Range locks of engine operations (R251, R263) -/

/-- Whether two rectangles of tiles meet. -/
def rectsMeet (a0 b0 a1 b1 c0 d0 c1 d1 : Nat) : Bool := a0 < c1 && c0 < a1 && b0 < d1 && d0 < b1

/-- Whether two ranges overlap; global ranges are taken modulo 2^52. -/
def LockRange.overlaps (ctxA ctxB : Nat) : LockRange → LockRange → Bool
  | .global lo hi, .global l h =>
    ctxA == ctxB && (meets lo hi l (h - l) || meets (lo + 2 ^ 52) (hi + 2 ^ 52) l (h - l) ||
      meets lo hi (l + 2 ^ 52) (h - l))
  | .loc b lo hi, .loc c l h => b == c && meets lo hi l (h - l)
  | .tiles c h p x0 y0 x1 y1, .tiles d k q u0 v0 u1 v1 =>
    c == d && h == k && p == q && rectsMeet x0 y0 x1 y1 u0 v0 u1 v1
  | _, _ => false

/-- Whether two entries conflict: they overlap and one of them writes. -/
def RangeLock.clash (a b : RangeLock) : Bool := (a.write || b.write) && a.range.overlaps a.ctx b.ctx b.range

/-- Whether an operation waits for an earlier one whose ranges conflict with its own (R251); `also` is the CPYQ that an entry
belongs to. -/
def Core.blocked (c : Core) (owner also : Nat) : Bool :=
  let rec go : List RangeLock → List RangeLock → Bool
    | _, [] => false
    | before, k :: t =>
      (k.op == owner && before.any fun b => b.op != owner && b.op != also && b.clash k) || go (before ++ [k]) t
  go [] c.locks

/-- A range with its direction, and the global bytes that the L1 may hold of it. -/
structure Reg where
  range : LockRange
  write : Bool
  bytes : List (Nat × Nat) := []

/-- Physical intervals of virtual ones, 4 KiB at a time (R215): pages that no walk maps hold no L1 bytes. -/
def State.physOf (s : State) (k : Who) : Nat → Nat → Nat → List (Nat × Nat)
  | 0, _, _ => []
  | fuel + 1, va, n =>
    if n = 0 then []
    else
      let m := min n (4096 - va % 4096)
      let r := s.physOf k fuel (va + m) (n - m)
      match s.xlate k.core k.ctx (va % 2 ^ 52) with
      | .ok a => (s.canon a.pa, m) :: r
      | .error _ => r

/-- Whether an address lies in one of some intervals. -/
def inSpans (l : List (Nat × Nat)) (a : Nat) : Bool := l.any fun i => i.1 ≤ a && a < i.1 + i.2

/-- An operation's entries leave the table; no clean byte of its destinations that was read beside them stays in the L1 (R303). -/
def State.unlock (s : State) (core op : Nat) : State :=
  let ds := ((s.core core).locks.filter fun k => k.op == op).flatMap (·.drop)
  let s := if ds = [] then s else s.l1DropClean core (inSpans ds)
  s.modCore core fun c => { c with locks := c.locks.filter fun k => k.op != op }

/-- An operation registers its ranges: its entries join the table, and the L1 gives up the bytes they cover (R221). -/
def State.register (s : State) (k : Who) (core op : Nat) (rs : List Reg) : State :=
  let phys (r : Reg) : List (Nat × Nat) := r.bytes.flatMap fun i => s.physOf k (i.2 / 4096 + 2) i.1 i.2
  let all := rs.flatMap phys
  let dst := (rs.filter (·.write)).flatMap phys
  let s := s.l1Clear core (inSpans all) (inSpans dst)
  s.modCore core fun c => { c with locks := c.locks ++ rs.map fun r =>
    { op := op, ctx := k.ctx, range := r.range, write := r.write, drop := if r.write then phys r else [] } }

/-- The global bytes of a window of an entry that is not in Crema. -/
def Ste.windowBytes (e : Ste) (p x0 y0 w h : Nat) : List (Nat × Nat) :=
  if e.crema then []
  else
    (List.range h).flatMap fun j => (List.range w).filterMap fun i =>
      if e.inside p (x0 + i) (y0 + j) then
        some (e.base + e.elemBits * e.elemIndex p (x0 + i) (y0 + j) / 8, (e.elemBits + 7) / 8)
      else none

/-- The range of a window: handle, plane and the tiles that it touches. -/
def windowReg (ctx h : Nat) (e : Ste) (p x0 y0 w ht : Nat) (write : Bool) : Reg :=
  ⟨.tiles ctx h p (x0 / 8) (y0 / 8) ((x0 + w + 7) / 8) ((y0 + ht + 7) / 8), write, e.windowBytes p x0 y0 w ht⟩

/-! ### Checks -/

/-- Why an engine operation does not start: a trap with its cause, or a halt. -/
inductive Nope where
  | trap (cause : Nat)
  | halt (h : Halt)

def Nope.of {α : Type} (r : Except Halt α) : Except Nope α :=
  match r with
  | .ok a => .ok a
  | .error h => .error (.halt h)

/-- Go on where a condition holds, else trap. -/
def need (cause : Nat) (ok : Bool) : Except Nope Unit := if ok then .ok () else .error (.trap cause)

/-- The parts of a window pair (R247): handle, plane, x0, y0. -/
def winParts (v : Dword) : Nat × Nat × Nat × Nat := (bits v 15 0, bits v 31 16, bits v 47 32, bits v 63 48)

/-- The entry of a handle whose USE an operation is about to raise (R61, R399). -/
def State.toRaise (s : State) (k : Who) (h : Nat) : Except Nope Unit := Nope.of (s.toUpdate k.core k.ctx h)

/-- A handle's entry; the class trap where R57 refuses it. -/
def State.handle (s : State) (k : Who) (h : Nat) : Except Nope Ste := do
  match ← Nope.of (s.entry k.core k.ctx h) with
  | some e => .ok e
  | none => .error (.trap 0x02)

/-- Whether two entries exchange tags (R64). -/
def sameTags (a b : Ste) : Bool := a.dten && b.dten && a.fmt == b.fmt && a.spb == b.spb

/-- Domain check: no tile of a window is FREQ. -/
def State.allTime (s : State) (k : Who) (e : Ste) (p x0 y0 w h : Nat) : Except Nope Unit := do
  if !e.dten then .ok ()
  else
    let ts ← Nope.of (s.windowTags k.core k.ctx e p (e.windowTiles p x0 y0 w h))
    need 0x03 (!ts.any (·.freq))

/-- A destination in local store meets no bound barrier object (R329) and lies wholly below the store's end. -/
def State.localFits (s : State) (g : Group) (o n : Nat) (write : Bool) : Except Nope Unit :=
  need 0x01 (o + n ≤ s.lsBytesOf g && !(write && s.overBarrier g.blk o n))

/-- What an engine operation's checks find: its ranges, the handles it uses, and their entries as they stand at issue (R61). -/
structure Plan where
  regs : List Reg
  uses : List Nat
  descs : KV (List Dword) := []

/-- An entry as an operation's plan keeps it. -/
def keep (h : Nat) (e : Ste) : KV (List Dword) := [(h, e.toDwords)]

/-- The entry of a handle as an operation read it at issue. -/
def descOf (ds : KV (List Dword)) (h : Nat) : Except Halt Ste :=
  match ds.find h with
  | some d => .ok (Ste.ofDwords d)
  | none => .error .kill

/-- Bytes that a stream of `n` chunks takes at most (R254); what a copy of a stream registers (log 102). -/
def streamMax (n : Nat) : Nat := 32 + (8 * n + 31) / 32 * 32 + 1024 * n

/-- Format of the local side of a window copy. -/
def localFmt (e : Ste) (lfmt : Nat) : Nat := if lfmt = 15 then e.fmt else lfmt

/-- The checks of R248, in its order, on the operand values of R247. The stream side of CPY.XP and CPY.PK
registers the largest size of a stream of its chunks (log 102). -/
def State.planCopy (s : State) (k : Who) (g : Group) (dir : Nat) (dst src len : Dword) (lfmt : Nat) : Except Nope Plan := do
  need 0x01 (dir ≤ 7 && (lfmt ≤ 5 || (7 ≤ lfmt && lfmt ≤ 9) || lfmt == 15) && (lfmt == 15 || dir == 2 || dir == 3))
  let lofs := match dir with
    | 0 => bits dst 31 0
    | 2 => bits dst 31 0
    | 6 => bits dst 31 0
    | 1 => bits src 31 0
    | 3 => bits src 31 0
    | 7 => bits src 31 0
    | _ => 0
  need 0x01 (lofs < 2 ^ 31)
  let dva := bits dst 51 0
  let sva := bits src 51 0
  let n := bits len 31 0
  match dir with
  | 0 =>
    need 0x01 (lofs % 16 == 0 && sva % 16 == 0 && n % 16 == 0)
    s.localFits g lofs n true
    .ok ⟨[⟨.global sva (sva + n), false, [(sva, n)]⟩, ⟨.loc g.blk lofs (lofs + n), true, []⟩], [], []⟩
  | 1 =>
    need 0x01 (lofs % 16 == 0 && dva % 16 == 0 && n % 16 == 0)
    s.localFits g lofs n false
    .ok ⟨[⟨.loc g.blk lofs (lofs + n), false, []⟩, ⟨.global dva (dva + n), true, [(dva, n)]⟩], [], []⟩
  | 5 =>
    need 0x01 (sva % 16 == 0 && dva % 16 == 0 && n % 16 == 0)
    .ok ⟨[⟨.global sva (sva + n), false, [(sva, n)]⟩, ⟨.global dva (dva + n), true, [(dva, n)]⟩], [], []⟩
  | 6 =>
    let o := bits len 63 32
    let m := streamMax ((o + n + 1023) / 1024)
    need 0x01 (lofs % 16 == 0 && n % 16 == 0 && o % 1024 == 0 && sva % 32 == 0)
    s.localFits g lofs n true
    .ok ⟨[⟨.global sva (sva + m), false, [(sva, m)]⟩, ⟨.loc g.blk lofs (lofs + n), true, []⟩], [], []⟩
  | 7 =>
    let m := streamMax ((n + 1023) / 1024)
    need 0x01 (lofs % 16 == 0 && n % 16 == 0 && dva % 32 == 0)
    s.localFits g lofs n false
    .ok ⟨[⟨.loc g.blk lofs (lofs + n), false, []⟩, ⟨.global dva (dva + m), true, [(dva, m)]⟩], [], []⟩
  | _ =>
    let w := bits len 15 0
    let h := bits len 31 16
    let (sh, sp, sx, sy) := winParts src
    let (dh, dp, dx, dy) := winParts dst
    need 0x01 (w % 8 == 0 && h % 8 == 0 && w != 0 && h != 0 &&
      (dir == 3 || (sx % 8 == 0 && sy % 8 == 0)) && (dir == 2 || (dx % 8 == 0 && dy % 8 == 0)))
    match dir with
    | 2 =>
      s.toRaise k sh
      let e ← s.handle k sh
      let f := localFmt e lfmt
      need 0x01 (isComplex e.fmt == isComplex f && !(e.fmt == 6 && lfmt != 15))
      let b := w * h * (e.ncomp + 1) * fmtBits f / 8
      s.localFits g lofs b true
      s.allTime k e sp sx sy w h
      .ok ⟨[windowReg k.ctx sh e sp sx sy w h false, ⟨.loc g.blk lofs (lofs + b), true, []⟩], [sh], keep sh e⟩
    | 3 =>
      s.toRaise k dh
      let e ← s.handle k dh
      need 0x02 (e.cls != 3 || k.priv)
      let f := localFmt e lfmt
      need 0x01 (isComplex e.fmt == isComplex f && !(e.fmt == 6 && lfmt != 15))
      let b := w * h * (e.ncomp + 1) * fmtBits f / 8
      s.localFits g lofs b false
      .ok ⟨[⟨.loc g.blk lofs (lofs + b), false, []⟩, windowReg k.ctx dh e dp dx dy w h true], [dh], keep dh e⟩
    | _ =>
      s.toRaise k sh
      let e ← s.handle k sh
      s.toRaise k dh
      let d ← s.handle k dh
      need 0x02 (d.cls != 3 || k.priv)
      need 0x01 (isComplex e.fmt == isComplex d.fmt && e.ncomp == d.ncomp &&
        !((e.fmt == 6 || d.fmt == 6) && e.fmt != d.fmt))
      if !sameTags e d then s.allTime k e sp sx sy w h
      .ok ⟨[windowReg k.ctx sh e sp sx sy w h false, windowReg k.ctx dh d dp dx dy w h true], [sh, dh],
        keep sh e ++ (if dh = sh then [] else keep dh d)⟩

/-! ### Elements -/

/-- An element's `n` components, converted one by one by R38, also where the two formats are equal. -/
def convParts (sf df n : Nat) (mode : RMode) (sat : Bool) (v : Nat) : Nat × Flags :=
  let cplx := isComplex sf
  let a := if cplx then partOf sf else sf
  let b := if cplx then partOf df else df
  let wa := fmtBits a
  let wb := fmtBits b
  let parts := if cplx then 2 * n else n
  (List.range parts).foldl (fun r i =>
    let c := convTo b mode sat (readElem a (v / 2 ^ (wa * i) % 2 ^ wa))
    (r.1 + c.bits * 2 ^ (wb * i), r.2 ||| c.flags)) (0, 0)

/-- An element of a window copy (R249): CB4 and equal formats move as they are. -/
def convElem (sf df n : Nat) (mode : RMode) (sat : Bool) (v : Nat) : Nat × Flags :=
  if sf = df ∨ sf = 6 then (v, 0) else convParts sf df n mode sat v

/-- A stored value of a scaled tile as RNE(v × 2^e) in its format (R48, R249). -/
def resolveElem (f : Nat) (e : Int) (v : Nat) : Nat × Flags :=
  match ffOf f with
  | none => (v, 0)
  | some ff =>
    if e = 0 then (v, 0)
    else
      let r := ff.round .rne ((ff.decode v).scale e)
      (r.bits, r.flags)

/-- Element `i` of a packed row of local store. -/
def State.localElem (s : State) (blk off w i : Nat) : Nat :=
  if w = 4 then bytesToNat (s.lsRead blk (off + i / 2) 1) / 16 ^ (i % 2) % 16
  else bytesToNat (s.lsRead blk (off + w / 8 * i) (w / 8))

def State.putLocalElem (s : State) (blk off w i v : Nat) : State :=
  if w = 4 then
    let b := bytesToNat (s.lsRead blk (off + i / 2) 1)
    s.lsWrite blk (off + i / 2) (natToBytes 1 (if i % 2 = 0 then b / 16 * 16 + v % 16 else b % 16 + 16 * (v % 16)))
  else s.lsWrite blk (off + w / 8 * i) (natToBytes (w / 8) v)

/-- Position of element `n` of a window taken tile by tile, in ascending ty, then tx (R250): (x, y) within the window. -/
def tileOrder (w n : Nat) : Nat × Nat :=
  let t := n / 64
  let j := n % 64
  (t % (w / 8) * 8 + j % 8, t / (w / 8) * 8 + j / 8)

/-- Numbers of the elements of chunk `c` where an element takes `eb` bits: those that begin in its 1,024 bytes. -/
def chunkElems (total eb c : Nat) : List Nat :=
  let lo := (8192 * c + eb - 1) / eb
  let hi := min total ((8192 * (c + 1) + eb - 1) / eb)
  (List.range (hi - lo)).map (· + lo)

/-- Chunks of `total` elements of `eb` bits. -/
def chunkCount (total eb : Nat) : Nat := (total * eb + 8191) / 8192

/-- The Crema clock by which accesses to tiles are remembered, in units of 4,096 Crema cycles, which are 8,192 core cycles
(R5, R235, log 24). -/
def State.cremaNow (s : State) (core : Nat) : Nat := (s.core core).cycle / 8192

/-- A tile of a Crema entry is accessed. -/
def State.touchAt (s : State) (core ctx h : Nat) (e : Ste) (p x y : Nat) : State :=
  if e.crema && e.inside p (x / 8 * 8) (y / 8 * 8) then
    s.touchTile ctx h (e.tileIdx p (x / 8) (y / 8)) (tilePlace h p (x / 8) (y / 8)).1 (s.cremaNow core)
  else s

/-- The tag of the tile of an element; TIME with e = 0 where there is none. -/
def State.tagAt (s : State) (k : Who) (e : Ste) (p x y : Nat) : Except Halt Tmap :=
  if e.dten && e.inside p (x / 8 * 8) (y / 8 * 8) then s.tmap k.core k.ctx e (e.tileIdx p (x / 8) (y / 8))
  else .ok ⟨0, 0, false, false, 0⟩

/-- The tile of an element of a DTEN entry becomes TIME with e = 0, its old e resolved into its elements (R49, log 71). -/
def State.toTime (s : State) (k : Who) (h : Nat) (e : Ste) (p x y : Nat) : Except Halt (State × Flags) := do
  let t ← s.tagAt k e p x y
  if !t.freq && t.exp == 0 then .ok (s, 0)
  else
    let one (s : State) (i : Nat) : Except Halt (State × Flags) := do
      let u := 8 * (x / 8) + i % 8
      let w := 8 * (y / 8) + i / 8
      let (v, s) ← s.elemRead k h e p u w
      let (v, fl) := resolveElem e.fmt t.exp v
      let s ← s.elemWrite k h e p u w v
      .ok (s, fl)
    let r ← (List.range 64).foldl (fun r i => match r with
      | .error z => .error z
      | .ok (s, fl) => (one s i).map fun q => (q.1, fl ||| q.2)) (Except.ok (s, (0 : Flags)))
    let s ← r.1.putTmap k.core k.ctx e (e.tileIdx p (x / 8) (y / 8)) { t with freq := false, exp := 0 }
    .ok (s, r.2)

/-- Set DOM and EXP of the tile of an element of a DTEN entry (R64). -/
def State.setTag (s : State) (k : Who) (e : Ste) (p x y : Nat) (freq : Bool) (ex : Int) : Except Halt State :=
  if e.dten && e.inside p (x / 8 * 8) (y / 8 * 8) then
    match s.tmapTo k.core k.ctx e (e.tileIdx p (x / 8) (y / 8)) with
    | .error h => .error h
    | .ok t => s.putTmap k.core k.ctx e (e.tileIdx p (x / 8) (y / 8)) { t with freq := freq, exp := ex }
  else .ok s

/-- What a chunk's work gives: the state, the destination bytes that have landed, the flags raised. -/
structure Landed where
  st : State
  bytes : Nat := 0
  flags : Flags := 0

/-- Carry out a list of elements. -/
def landElems (f : State → Nat → Except Halt (State × Flags)) : State → Flags → List Nat → Except Halt (State × Flags)
  | s, fl, [] => .ok (s, fl)
  | s, fl, n :: t =>
    match f s n with
    | .error h => .error h
    | .ok (s, g) => landElems f s (fl ||| g) t

/-- A side of a window copy: a packed window of local store in a format, or an entry with the window's place. -/
inductive WinSide where
  | loc (off fmt : Nat)
  | ent (h : Nat) (e : Ste) (p x0 y0 : Nat)

def WinSide.fmt : WinSide → Nat
  | .loc _ f => f
  | .ent _ e _ _ _ => e.fmt

/-- Whether a copy moves tags with the elements (R64). -/
def WinSide.tagged : WinSide → WinSide → Bool
  | .ent _ a _ _ _, .ent _ b _ _ _ => sameTags a b
  | _, _ => false

/-- One element of a window copy (R249). -/
def State.copyElem (s : State) (k : Who) (core blk w n : Nat) (src dst : WinSide) (mode : RMode) (sat : Bool) (i : Nat) :
    Except Halt (State × Flags) := do
  let (x, y) := tileOrder w i
  let same := src.tagged dst
  let (v, ex, freq, s) ← match src with
    | .loc off f => Except.ok (s.localElem blk off (n * fmtBits f) (y * w + x), (0 : Int), false, s)
    | .ent h e p x0 y0 => do
      let t ← s.tagAt k e p (x0 + x) (y0 + y)
      let (v, s) ← (s.touchAt core k.ctx h e p (x0 + x) (y0 + y)).elemRead k h e p (x0 + x) (y0 + y) (some false)
      Except.ok (v, t.exp, t.freq, s)
  let (v, f1) := if same then (v, (0 : Flags)) else resolveElem src.fmt ex v
  let (v, f2) := convElem src.fmt dst.fmt n mode sat v
  match dst with
  | .loc off f => .ok (s.putLocalElem blk off (n * fmtBits f) (y * w + x) v, f1 ||| f2)
  | .ent h e p x0 y0 =>
    let s ← (s.touchAt core k.ctx h e p (x0 + x) (y0 + y)).elemWrite k h e p (x0 + x) (y0 + y) v (some false)
    let s ← if i % 64 = 63 then s.setTag k e p (x0 + x) (y0 + y) (same && freq) (if same then ex else 0) else .ok s
    .ok (s, f1 ||| f2)

/-- The sides of a window copy, from the entries as read at issue, and the components of an element. -/
def winSides (ds : KV (List Dword)) (dir : Nat) (dst src : Dword) (lfmt : Nat) : Except Halt (WinSide × WinSide × Nat) := do
  let ent (v : Dword) : Except Halt (Nat × Ste × Nat × Nat × Nat) := do
    let (h, p, x, y) := winParts v
    let e ← descOf ds h
    .ok (h, e, p, x, y)
  match dir with
  | 2 =>
    let (h, e, p, x, y) ← ent src
    .ok (.ent h e p x y, .loc (bits dst 31 0) (localFmt e lfmt), e.ncomp + 1)
  | 3 =>
    let (h, e, p, x, y) ← ent dst
    .ok (.loc (bits src 31 0) (localFmt e lfmt), .ent h e p x y, e.ncomp + 1)
  | _ =>
    let (h, e, p, x, y) ← ent src
    let (h', e', p', x', y') ← ent dst
    .ok (.ent h e p x y, .ent h' e' p' x' y', e.ncomp + 1)

/-- Chunks of a copy (R250); a stream of no chunk still has its header to be written (R254). -/
def copyChunks (ds : KV (List Dword)) (dir : Nat) (dst src len : Dword) (lfmt : Nat) : Except Halt Nat :=
  if dir = 2 ∨ dir = 3 ∨ dir = 4 then
    match winSides ds dir dst src lfmt with
    | .error h => .error h
    | .ok (_, d, n) => .ok (chunkCount (bits len 15 0 * bits len 31 16) (n * fmtBits d.fmt))
  else .ok (max (if dir = 7 then 1 else 0) ((bits len 31 0 + 1023) / 1024))

/-- The packed form of chunk `c` of local bytes (R254), padded with zeros. -/
def State.packLocal (s : State) (blk off len c : Nat) : Nat × List Byte :=
  let n := min 1024 (len - 1024 * c)
  codeChunk true true (s.lsRead blk (off + 1024 * c) n ++ List.replicate (1024 - n) 0)

/-- The units and codecs of a stream's chunks up to chunk `n`: for each, its first unit, its packed bytes and its codec. -/
def State.packAll (s : State) (blk off len : Nat) : Nat → Nat → Nat → List (Nat × Nat × List Byte)
  | 0, _, _ => []
  | n + 1, c, unit =>
    let (codec, bs) := s.packLocal blk off len c
    (unit, codec, bs) :: s.packAll blk off len n (c + 1) (unit + bs.length / 32)

/-- The part of a packed stream that a chunk's turn writes (R254): the first turn writes the index, each its chunk, the last the
header behind everything else. -/
def State.packPart (s : State) (k : Who) (blk off va L c : Nat) : Except Halt Landed := do
  let total := (L + 1023) / 1024
  let all := s.packAll blk off L total 0 (firstUnit total)
  let index := all.flatMap fun e => natToBytes 8 (indexEntry e.1 e.2.2.length e.2.1).toNat
  let s ← if c = 0 ∧ index ≠ [] then s.engineWrite k .write (va + 32) index (some true) else .ok s
  let (unit, bs) := match all[c]? with
    | some e => (e.1, e.2.2)
    | none => (0, [])
  let s ← if bs = [] then .ok s else s.engineWrite k .write (va + 32 * unit) bs (some true)
  let last := total ≤ c + 1
  let s ← if last then s.engineWrite k .write va (natToBytes 32 (L * 2 ^ 32 + total)) (some true) else .ok s
  .ok ⟨s, (if c = 0 then index.length else 0) + bs.length + (if last then 32 else 0), 0⟩

/-- One chunk of a copy (R249, R250, R254). -/
def State.copyPart (s : State) (k : Who) (ds : KV (List Dword)) (core blk dir : Nat) (dst src len : Dword) (lfmt : Nat) (mode : RMode) (sat : Bool)
    (c : Nat) : Except Halt Landed := do
  let L := bits len 31 0
  let n := min 1024 (L - 1024 * c)
  let o := 1024 * c
  match dir with
  | 0 =>
    let (bs, s) ← s.engineRead k (bits src 51 0 + o) n (some false)
    .ok ⟨s.lsWrite blk (bits dst 31 0 + o) bs, n, 0⟩
  | 1 =>
    let s ← s.engineWrite k .write (bits dst 51 0 + o) (s.lsRead blk (bits src 31 0 + o) n) (some false)
    .ok ⟨s, n, 0⟩
  | 5 =>
    let (bs, s) ← s.engineRead k (bits src 51 0 + o) n (some false)
    let s ← s.engineWrite k .write (bits dst 51 0 + o) bs (some false)
    .ok ⟨s, n, 0⟩
  | 6 =>
    let (bs, s) ← s.streamChunk k (bits src 51 0) (bits len 63 32 / 1024 + c)
    .ok ⟨s.lsWrite blk (bits dst 31 0 + o) (bs.take n), n, 0⟩
  | 7 => s.packPart k blk (bits src 31 0) (bits dst 51 0) L c
  | _ =>
    let (a, d, comps) ← winSides ds dir dst src lfmt
    let w := bits len 15 0
    let eb := comps * fmtBits d.fmt
    let is := chunkElems (w * bits len 31 16) eb c
    let (s, fl) ← landElems (fun s i => s.copyElem k core blk w comps a d mode sat i) s 0 is
    .ok ⟨s, is.length * eb / 8, fl⟩

end Sys2Proof.Machine
end

