-- ==== Sys2Proof/Machine/TileMove.lean ====
section
/-! DEFINITION. Accumulator tiles, the ownership they need (R176, R261), and the element work of ALD and AST (R279, R280,
R285). -/

namespace Sys2Proof.Machine

/-! ### Tiles -/

/-- Element (r, c) of a tile of a quadrant. -/
def Core.tile (c : Core) (quad t r col : Nat) : Word := KV.get 0 c.tiles (2048 * quad + 256 * t + 16 * r + col)
def Core.setTile (c : Core) (quad t r col : Nat) (v : Word) : Core :=
  { c with tiles := KV.put 0 c.tiles (2048 * quad + 256 * t + 16 * r + col) v }

/-- Element (r, c) of a tile, or of the pair from an even tile (R41). -/
def Core.tileVal (c : Core) (wide : Bool) (quad t r col : Nat) : Dword :=
  if wide then c.tile quad (t + 1) r col ++ c.tile quad t r col else (c.tile quad t r col).setWidth 64
def Core.setTileVal (c : Core) (wide : Bool) (quad t r col : Nat) (v : Dword) : Core :=
  let c := c.setTile quad t r col (v.extractLsb' 0 32)
  if wide then c.setTile quad (t + 1) r col (v.extractLsb' 32 32) else c

/-- Every element of a tile and its SATCNT to 0 (R277). -/
def Core.clearTile (c : Core) (quad t : Nat) : Core :=
  let lo := 2048 * quad + 256 * t
  { c with tiles := c.tiles.filter fun e => !(lo ≤ e.1 && e.1 < lo + 256) }.clearSat quad t

/-- Whether a group number is in a team. -/
def Team.has (t : Team) (blk num : Nat) : Bool := t.blk == blk && t.mask.getLsbD num

/-- Members of a team. -/
def Team.members (t : Team) : List Nat := (List.range 32).filter fun n => t.mask.getLsbD n

/-- Whether the executing group may use the matrix unit: a member of the owning team, under an m0 that holds every lane that
has not exited (R176, R261). -/
def State.owns (s : State) (x : Ex) : Bool :=
  !x.g.isQueue && x.lanes &&& x.g.live == x.g.live &&
    match (s.core x.g.core).owner with
    | some t => t.has x.g.blk x.g.num
    | none => false

/-- Format code of a tile type (R279). -/
def ttFmt (tt : Nat) : Nat :=
  match tt with
  | 1 => 0
  | 2 => 11
  | _ => 1

/-- The entries of a codebook slot that the context may use; none where R267 refuses the slot. -/
def Core.codebook (c : Core) (ctx slot : Nat) : Option (List (BitVec 16)) :=
  match c.codebooks.find slot with
  | some b => if b.ctx = ctx ∧ b.conflict = false then some b.entries else none
  | none => none

/-- The codebook that an operation past its check decodes by: what the slot holds then, old or new (R36, log 33). -/
def State.cbNow (s : State) (core slot : Nat) : List (BitVec 16) :=
  match (s.core core).codebooks.find slot with
  | some b => b.entries
  | none => (List.range 16).map fun i => Config.codebookEntry s.freeCount i

/-- Value of a CB4 code (R36). -/
def cbVal (es : List (BitVec 16)) (code : Nat) : FV := FF.bf16.decode (es.getD (code % 16) 0).toNat

/-- A value by a power of two. -/
def RV.scale (v : RV) (e : Int) : RV := if e = 0 then v else .fl (v.toFV.scale e)

/-! ### ALD -/

/-- A 16 × 16 window as an operand names it: local offset and stride, or a handle's window. -/
def sideOf (hand : Bool) (v : Dword) : Side × Nat :=
  if hand then
    let (h, p, x, y) := winParts v
    (.window h p x y, 0)
  else (.loc (bits v 31 0), bits v 63 32)

/-- Element (m, n) of ALD's window, as an exact value (R279). -/
def State.aldElem (s : State) (k : Who) (ds : KV (List Dword)) (core blk : Nat) (src : Side) (stride fmt m n : Nat) :
    Except Halt (RV × State) :=
  match src with
  | .window h p x0 y0 => do
    let e ← descOf ds h
    let t ← s.tagAt k e p (x0 + n) (y0 + m)
    let (v, s) ← (s.touchAt core k.ctx h e p (x0 + n) (y0 + m)).elemRead k h e p (x0 + n) (y0 + m) (some false)
    if e.fmt = 6 then .ok (.fl (cbVal (s.cbNow core e.cbs) v), s)
    else .ok ((readElem e.fmt v).scale t.exp, s)
  | .loc off =>
    let w := fmtBits fmt
    .ok (readElem fmt (bytesToNat (s.lsRead blk (off + m * stride + n * (w / 8)) (w / 8))), s)
  | .global _ => .error .kill

/-- ALD's work on elements (R279). -/
def State.aldPart (s : State) (k : Who) (ds : KV (List Dword)) (core blk : Nat) (src : Side) (stride quad acc tt fmt : Nat)
    (mode : RMode) (c : Nat) : Except Halt Landed := do
  let eb := if tt = 1 then 64 else 32
  let is := chunkElems 256 eb c
  let one (s : State) (i : Nat) : Except Halt (State × Flags) := do
    let (v, s) ← s.aldElem k ds core blk src stride fmt (i / 16) (i % 16)
    let r := convTo (ttFmt tt) mode false v
    .ok (s.modCore core fun c => c.setTileVal (tt == 1) quad acc (i / 16) (i % 16) (BitVec.ofNat 64 r.bits), r.flags)
  let (s, fl) ← landElems one s 0 is
  .ok ⟨s, is.length * eb / 8, fl⟩

/-! ### AST -/

/-- The parts of a tile value read as TT: format of each part and bits (R280). -/
def astParts (tt : Nat) (v : Dword) : List (Nat × Nat) :=
  match tt with
  | 0 => [(1, bits v 31 0)]
  | 1 => [(0, v.toNat)]
  | 2 => [(11, bits v 31 0)]
  | _ => [(1, bits v 31 0), (1, bits v 63 32)]

/-- The converted parts of a tile value: bits, flags (MNV for a NaN) and how many R47 counts. -/
def astConv (tt fmt : Nat) (mode : RMode) (sat : Bool) (e : Int) (v : Dword) : List Nat × Flags × Nat :=
  let dst := if tt = 3 then partOf fmt else fmt
  let cs := (astParts tt v).map fun p => convTo dst mode sat ((readElem p.1 p.2).scale (-e))
  let nan (c : Conv) : Bool := match ffOf dst with
    | some f => f.isNan c.bits
    | none => false
  (cs.map (·.bits), cs.foldl (fun f c => f ||| c.flags ||| (if nan c then fMNV else 0)) 0, (cs.filter (·.beyond)).length)

/-- AST's work without .FREQ (R280). -/
def State.astPart (s : State) (k : Who) (ds : KV (List Dword)) (core blk : Nat) (dst : Side) (stride quad acc tt fmt : Nat)
    (mode : RMode) (sat : Bool) (vals : List Dword) (c : Nat) : Except Halt Landed := do
  let f ← match dst with
    | .window h _ _ _ => (descOf ds h).map (·.fmt)
    | _ => .ok fmt
  let eb := fmtBits f
  let is := chunkElems 256 eb c
  let one (s : State) (i : Nat) : Except Halt (State × Flags) := do
    let (ps, fl, n) := astConv tt f mode sat 0 (vals.getD i 0)
    let w := if tt = 3 then eb / 2 else eb
    let v := ps.headD 0 + ps.getD 1 0 * 2 ^ w
    let s := s.modCore core fun c => if n = 0 then c else c.addSat quad acc n
    match dst with
    | .window h p x0 y0 =>
      let e ← descOf ds h
      let x := x0 + i % 16
      let y := y0 + i / 16
      let (s, f0) ← (s.touchAt core k.ctx h e p x y).toTime k h e p x y
      let s ← s.elemWrite k h e p x y v (some false)
      .ok (s, f0 ||| fl)
    | .loc off => .ok (s.lsWrite blk (off + i / 16 * stride + i % 16 * (eb / 8)) (natToBytes (eb / 8) v), fl)
    | .global _ => .error .kill
  let (s, fl) ← landElems one s 0 is
  .ok ⟨s, is.length * eb / 8, fl⟩

/-- Block size of a spectral entry. -/
def Ste.block (e : Ste) : Nat := 2 ^ (e.spb + 3)

/-- A tile's elements that AST.FREQ does not write keep their represented values under the exponent E (R285). -/
def State.rescaleTile (s : State) (k : Who) (h : Nat) (e : Ste) (p tx ty : Nat) (ex : Int) (mine : Nat → Nat → Bool) :
    Except Halt (State × Flags) := do
  let t ← s.tmapTo k.core k.ctx e (e.tileIdx p tx ty)
  let one (s : State) (i : Nat) : Except Halt (State × Flags) := do
    let x := 8 * tx + i % 8
    let y := 8 * ty + i / 8
    if mine x y || !e.inside p x y then .ok (s, 0)
    else
      let (v, s) ← s.elemRead k h e p x y
      let (v, fl) := if t.freq then resolveElem e.fmt (t.exp - ex) v else (0, 0)
      let s ← s.elemWrite k h e p x y v
      .ok (s, fl)
  let (s, fl) ← landElems one s 0 (List.range 64)
  let s ← s.putTmap k.core k.ctx e (e.tileIdx p tx ty) { t with freq := true, exp := ex }
  .ok (s, fl)

/-- AST.FREQ: the CFP32 pair as bin `bin` of 16 blocks and 16 rows, under the exponent E (R280, R285, R397). -/
def State.astFreq (s : State) (k : Who) (ds : KV (List Dword)) (core quad acc h p j0 y0 : Nat) (ex : Int) (bin : Nat) (mode : RMode) (sat : Bool)
    (vals : List Dword) : Except Halt Landed := do
  let e ← descOf ds h
  let b := e.block
  let xOf (i : Nat) : Nat := (j0 + i) * b + 2 * bin
  let mine (x y : Nat) : Bool := y0 ≤ y && y < y0 + 16 && (List.range 16).any fun i => xOf i == x || xOf i + 1 == x
  let tiles := (((List.range 16).flatMap fun i => [(xOf i / 8, y0 / 8), (xOf i / 8, y0 / 8 + 1)]).eraseDups).filter
    fun t => t.1 < tilesAlong e.dim0 && t.2 < tilesAlong e.dim1 && p < e.planes
  let (s, f1) ← landElems (fun s i =>
    let t := tiles.getD i (0, 0)
    (s.touchAt core k.ctx h e p (8 * t.1) (8 * t.2)).rescaleTile k h e p t.1 t.2 ex mine) s 0 (List.range tiles.length)
  let one (s : State) (i : Nat) : Except Halt (State × Flags) := do
    let (ps, fl, n) := astConv 3 (if e.fmt = 2 then 9 else 14) mode sat ex (vals.getD i 0)
    let s := s.modCore core fun c => if n = 0 then c else c.addSat quad acc n
    let y := y0 + i % 16
    let s ← s.elemWrite k h e p (xOf (i / 16)) y (ps.headD 0)
    let s ← s.elemWrite k h e p (xOf (i / 16) + 1) y (ps.getD 1 0)
    .ok (s, fl)
  let (s, f2) ← landElems one s 0 (List.range 256)
  .ok ⟨s, tiles.length * 8 * fmtBits e.fmt, f1 ||| f2⟩

end Sys2Proof.Machine
end

