-- ==== Sys2Proof/Machine/Array.lean ====
section
/-! DEFINITION. The matrix arrays: format-block descriptors (R39, R40), the scale cache (R268), register fragments (R269,
R272), and one step of exact summation (R42, R271–R273). -/

namespace Sys2Proof.Machine

/-! ### Descriptors (R39, R40) -/

/-- The accumulator format of a legal pair of descriptors (R40), as an STE.FMT code: 0 FP64, 1 FP32, 11 INT32, 14 CFP32. -/
def accFmt (a b : Fbd) (cplx : Bool) : Option Nat :=
  let plain (d : Fbd) : Bool := d.fmt = 0 || d.fmt = 1 || d.fmt = 9
  if (plain a && a.scen) || (plain b && b.scen) || b.acc64 || (a.acc64 && a.fmt != 2 && a.fmt != 3) then none
  else if a.fmt = 0 ∧ b.fmt = 0 then some 0
  else if a.fmt = 1 ∧ b.fmt = 1 then some 1
  else if (a.fmt = 2 ∨ a.fmt = 3) ∧ b.fmt = a.fmt then some (if a.acc64 then 0 else 1)
  else if (a.fmt = 4 ∨ a.fmt = 5) ∧ (b.fmt = 4 ∨ b.fmt = 5) then some 1
  else if a.fmt = 6 ∧ b.fmt = 6 then some 1
  else if (a.fmt = 7 ∨ a.fmt = 8) ∧ (b.fmt = 7 ∨ b.fmt = 8) then some (if a.scen || b.scen then 1 else 11)
  else if cplx && a.fmt = 9 && b.fmt = 9 then some 14
  else none

/-- Whether a format has sparse steps (R270). -/
def sparseFmt (fmt : Nat) : Bool := 2 ≤ fmt && fmt ≤ 8

/-- Pattern N:M of an SP code (R270). -/
def spPattern (sp : Nat) : Nat × Nat :=
  match sp with
  | 1 => (2, 4)
  | 2 => (4, 8)
  | 3 => (8, 16)
  | 4 => (1, 4)
  | 5 => (2, 8)
  | _ => (4, 16)

/-- The block number of a scale (R40): line m of A or n of B, position k of the whole instruction. -/
def Fbd.block (d : Fbd) (line k : Nat) : Nat := (d.sbase + line * d.sstr + k / d.blen) % 2 ^ 24

/-! ### The scale cache (R268) -/

/-- Whether a scale-cache entry is the one of a sector. -/
def SccEntry.is (e : SccEntry) (ctx tid sector : Nat) : Bool := e.ctx == ctx && e.tid == tid && e.sector == sector

/-- The 16 scales of a sector, read from the scale tensor; beyond its extents 0. -/
def State.readScales (s : State) (k : Who) (tid sector : Nat) : Except Halt (List (BitVec 16) × State) :=
  match s.entry k.core k.ctx tid with
  | .error h => .error h
  | .ok none => .error .kill
  | .ok (some e) =>
    if e.cls ≠ 5 ∨ e.fmt ≠ 2 ∨ tid = 0 then .error .kill
    else
      let X := e.dim0 + 1
      let Y := e.dim1 + 1
      (List.range 16).foldl (fun r i =>
        match r with
        | .error h => .error h
        | .ok (l, s) =>
          let n := 16 * sector + i
          match s.elemRead k tid e (n / (X * Y)) (n % X) (n / X % Y) (some false) with
          | .error h => .error h
          | .ok (v, s) => .ok (l ++ [BitVec.ofNat 16 v], s)) (.ok ([], s))

/-- Bring a sector into the scale cache, as the most recently used one; a miss counts (R373). -/
def State.needSector (s : State) (k : Who) (core tid sector : Nat) : Except Halt State :=
  match (s.core core).scc.find? fun e => e.is k.ctx tid sector with
  | some e => .ok (s.modCore core fun c => { c with scc := (c.scc.filter fun x => !x.is k.ctx tid sector) ++ [e] })
  | none =>
    match s.readScales k tid sector with
    | .error h => .error h
    | .ok (l, s) =>
      let s := s.count core 9
      .ok (s.modCore core fun c =>
        let kept := if 512 ≤ c.scc.length then c.scc.drop (c.scc.length - 511) else c.scc
        { c with scc := kept ++ [⟨k.ctx, tid, sector, l⟩] })

/-- Bring sectors, in order. -/
def State.needSectors (s : State) (k : Who) (core tid : Nat) : List Nat → Except Halt State
  | [] => .ok s
  | n :: t =>
    match s.needSector k core tid n with
    | .error h => .error h
    | .ok s => s.needSectors k core tid t

/-- The sectors that an operand's step uses: 16 lines, K from `k0`. -/
def Fbd.sectors (d : Fbd) (k0 kl : Nat) : List Nat :=
  if !d.scen then []
  else
    ((List.range 16).flatMap fun p =>
      (List.range (kl / d.blen + 2)).filterMap fun j =>
        let k := max k0 ((k0 / d.blen + j) * d.blen)
        if k < k0 + kl then some (d.block p k / 16) else none).eraseDups

/-- A scale (R40, R42): 1 where SCEN is 0. -/
def Core.scale (c : Core) (ctx : Nat) (d : Fbd) (line k : Nat) : FV :=
  if !d.scen then .fin false 1 0
  else
    let n := d.block line k
    match c.scc.find? fun e => e.is ctx d.tid (n / 16) with
    | some e => FF.bf16.decode (e.scales.getD (n % 16) 0).toNat
    | none => .fin false 0 0

/-! ### Fragments (R269, R272) -/

/-- Field of `w` bits at index `i` of lane `l`, from the captured words of a fragment. -/
def fragField (ws : List Word) (w l i : Nat) : Nat :=
  if w = 64 then (ws.getD (32 * (2 * i) + l) 0).toNat + 2 ^ 32 * (ws.getD (32 * (2 * i + 1) + l) 0).toNat
  else (ws.getD (32 * (i * w / 32) + l) 0).toNat / 2 ^ (i * w % 32) % 2 ^ w

/-- Element k of line p of a fragment of r elements a line. -/
def fragElem (ws : List Word) (w r p k : Nat) : Nat := fragField ws w (16 * (k / (r / 2)) + p) (k % (r / 2))

/-- Index of compressed slot j of a lane, from the metadata registers behind eight fragment registers. -/
def fragIdx (ws : List Word) (l j : Nat) : Nat := (ws.getD (32 * (8 + j / 8) + l) 0).toNat / 16 ^ (j % 8) % 16

/-- The logical position of compressed slot j of half h (R272), if it counts. -/
def slotPos (sp K h j idx : Nat) : Option Nat :=
  let (n, m) := spPattern sp
  if 4 ≤ sp && n ≤ j % (m / 2) then none else some (h * K + j / (m / 2) * m + idx % m)

/-- The counting elements of row m of an A fragment: logical position and raw bits. -/
def fragRow (ws : List Word) (fmt sp m : Nat) : List (Nat × Nat) :=
  let K := denseK fmt
  let w := fmtBits fmt
  if sp = 0 then (List.range K).map fun k => (k, fragElem ws w K m k)
  else
    (List.range K).filterMap fun i =>
      let h := i / (K / 2)
      let j := i % (K / 2)
      let l := 16 * h + m
      (slotPos sp K h j (fragIdx ws l j)).map fun k => (k, fragField ws w l j)

/-! ### One step -/

/-- The value of an element of an operand; CB4 through the codebook (R36). -/
def elemFV (fmt : Nat) (cb : List (BitVec 16)) (v : Nat) : FV := if fmt = 6 then cbVal cb v else (readElem fmt v).toFV

/-- One output element (R42): the accumulator's bits, the terms' factors; the result's bits and flags. -/
def stepElem (acc : Nat) (c : Dword) (terms : List (List FV)) : Dword × Flags :=
  if acc = 11 then
    let a := terms.foldl SumAcc.addProd (SumAcc.empty.addTerm (.ofInt (c.setWidth 32 : Word).toInt))
    (BitVec.ofNat 64 (wrapBits 32 a.i), 0)
  else
    let f : FF := if acc = 0 then .fp64 else .fp32
    let a := terms.foldl SumAcc.addProd (SumAcc.empty.addTerm (f.decode (c.toNat % 2 ^ f.width)))
    let r := a.finish f
    (BitVec.ofNat 64 r.bits, r.flags)

/-- What one array computes in a step: its quadrant and tile, the accumulator's format, the rows of A as logical positions
with factors, the columns of B as factors by position. -/
structure StepIn where
  quad : Nat
  tile : Nat
  acc : Nat
  rows : List (List (Nat × List FV))
  cols : Array (Array (List FV))

/-- The step onto a tile (R271): the core and the flags. -/
def Core.step (c : Core) (i : StepIn) : Core × Flags :=
  let wide := i.acc == 0
  (List.range 256).foldl (fun r e =>
    let m := e / 16
    let n := e % 16
    let col := i.cols.getD n #[]
    let terms := (i.rows.getD m []).map fun t => t.2 ++ col.getD t.1 []
    let (v, fl) := stepElem i.acc (c.tileVal wide i.quad i.tile m n) terms
    (r.1.setTileVal wide i.quad i.tile m n v, r.2 ||| fl)) (c, 0)

/-- Rows of A with scales: `raw m` gives the counting elements of row m. -/
def Core.rowsOf (c : Core) (ctx : Nat) (d : Fbd) (k0 : Nat) (raw : Nat → List (Nat × FV)) : List (List (Nat × List FV)) :=
  (List.range 16).map fun m => (raw m).map fun e => (e.1, [e.2, c.scale ctx d m (k0 + e.1)])

/-- Columns of B with scales. -/
def Core.colsOf (c : Core) (ctx : Nat) (d : Fbd) (k0 kl : Nat) (val : Nat → Nat → FV) : Array (Array (List FV)) :=
  ((List.range 16).map fun n => ((List.range kl).map fun k => [val k n, c.scale ctx d n (k0 + k)]).toArray).toArray

/-- The codebook that a descriptor names, as it stands (R36). -/
def State.cbOf (s : State) (core : Nat) (d : Fbd) : List (BitVec 16) := if d.fmt = 6 then s.cbNow core d.cbs else []

end Sys2Proof.Machine
end

