-- ==== Sys2Proof/Machine/Engine.lean ====
section
/-! DEFINITION. The copy engine (R250–R256): its queue, CPY, CPYQ, CINV, CFLUSH, ALD and AST, the landing of chunks and the
completion of operations. -/

namespace Sys2Proof.Machine

/-! ### The queue -/

/-- The requester that a job acts for. -/
def Job.who (j : Job) (core : Nat) : Who := ⟨some core, j.ctx, j.priv⟩

def Core.job (c : Core) (id : Nat) : Option Job := c.jobs.find? fun j => j.id == id

def State.modJob (s : State) (core id : Nat) (f : Job → Job) : State :=
  s.modCore core fun c => { c with jobs := c.jobs.map fun j => if j.id = id then f j else j }

/-- Whether an operation runs, or may start: four run at once, in issue order, and one that conflicts with an earlier one is
passed (R250, R251). -/
def Core.mayRun (c : Core) (id : Nat) : Bool :=
  match c.job id with
  | none => false
  | some j =>
    j.started ||
      ((c.jobs.filter (·.started)).length < 4 && !c.blocked id id &&
        (c.jobs.takeWhile fun k => k.id != id).all fun k => k.started || c.blocked k.id k.id)

/-- An instruction's operation enters the queue: USE is raised, the ranges are registered, CE rises (R61, R173, R251). With no
room it is HELD. -/
def State.submit (s : State) (x : Ex) (kind : JobKind) (p : Plan) (bar : Option Spot) : State :=
  let core := x.g.core
  let c := s.core core
  if 64 ≤ c.jobs.length || !c.room p.regs.length then s
  else
    match s.addUse (some core) x.g.ctx true p.uses with
    | .error h => s.haltEx x h .hw
    | .ok s =>
      let (id, s) := s.fresh
      let s := s.modGroup x.gid fun g => g.addFlight { id := id, ctr := .ce, left := 1, pc := x.sp.pc, born := x.g.icount }
      let s := s.register (s.who x.g) core id p.regs
      let j : Job := { id := id, gid := x.gid, blk := x.g.blk, ctx := x.g.ctx, kind := kind, bar := bar, uses := p.uses, descs := p.descs,
                       pc := x.sp.pc, priv := s.privOf x.g }
      (s.modCore core fun c => { c with jobs := c.jobs ++ [j] }).finish x

/-- A check that failed at issue becomes its trap; a halt parks or holds. -/
def State.nope (s : State) (x : Ex) (n : Nope) : State :=
  match n with
  | .trap c => s.trap x c x.lanes 0
  | .halt h => s.haltEx x h .read

/-! ### Instructions -/

/-- CPY (R247, R248). -/
def execCpy (o : EOps) (s : State) : Out :=
  let dir := (o.minor.extractLsb' 0 4).toNat
  let lfmt := (o.minor.extractLsb' 5 4).toNat
  let kind (pair : Bool) : Kind := if pair then .i64 else .w32
  let kd := kind (dir == 1 || dir == 3 || dir == 4 || dir == 5 || dir == 7)
  let ka := kind (dir == 0 || dir == 2 || dir == 4 || dir == 5 || dir == 6)
  let kb := kind (dir == 6)
  s.kernelOnly fun x =>
    if badUniform x.g kd o.d || badUniform x.g ka o.a || badUniform x.g kb o.b || badUniform x.g .w32 o.c then
      s.illegal x
    else
      let d := s.readUni x o.lit kd o.d
      let a := s.readUni x o.lit ka o.a
      let b := s.readUni x o.lit kb o.b
      match s.planCopy (s.who x.g) x.g dir d a b lfmt with
      | .error n => s.nope x n
      | .ok p =>
        match s.barOperand x o.lit o.c with
        | none => s.illegal x
        | some bar =>
          s.submit x (.cpy dir d a b lfmt (o.mod.extractLsb' 6 2).toNat (o.mod.getLsbD 5)) p bar

/-- CPYQ (R255). -/
def execCpyq (o : EOps) (s : State) : Out :=
  s.kernelOnly fun x =>
    if badUniform x.g .w32 o.a || badUniform x.g .w32 o.b || badUniform x.g .w32 o.c then s.illegal x
    else
      let a := (s.readUni x o.lit .w32 o.a).toNat
      let n := (s.readUni x o.lit .w32 o.b).toNat
      if a % 32 ≠ 0 || 2 ^ 31 ≤ a || n = 0 || 256 < n || s.lsBytesOf x.g < a + 32 * n then s.illegal x
      else
        match s.barOperand x o.lit o.c with
        | none => s.illegal x
        | some bar => s.submit x (.cpyq a n 0) ⟨[⟨.loc x.g.blk a (a + 32 * n), false, []⟩], [], []⟩ bar

/-- CINV and CFLUSH enter the queue without ranges (R256). -/
def State.maint (s : State) (x : Ex) (o : EOps) (kind : Nat → Nat → Nat → Bool → JobKind) : State :=
  let scope := (o.minor.extractLsb' 0 3).toNat
  if 5 < scope || badUniform x.g .i64 o.a || badUniform x.g .w32 o.b then s.illegal x
  else
    s.submit x (kind (bits (s.readUni x o.lit .i64 o.a) 51 0) (s.readUni x o.lit .w32 o.b).toNat scope (o.minor.getLsbD 3))
      ⟨[], [], []⟩ none

/-- CINV (R256). -/
def execCinv (o : EOps) (s : State) : Out := s.kernelOnly fun x => s.maint x o JobKind.cinv
/-- CFLUSH (R256). -/
def execCflush (o : EOps) (s : State) : Out := s.kernelOnly fun x => s.maint x o JobKind.cflush

/-- The window of ALD or AST in local store: wholly below the store's end, with bit 31 of the offset clear, and no written row
over a bound barrier object (R279, R280, R329). -/
def State.tileWindow (s : State) (g : Group) (v : Dword) (e : Nat) (write : Bool) : Except Nope Reg := do
  let off := bits v 31 0
  let n := 15 * bits v 63 32 + 16 * e
  need 0x01 (off < 2 ^ 31)
  s.localFits g off n false
  need 0x01 (!(write && (List.range 16).any fun i => s.overBarrier g.blk (off + i * bits v 63 32) (16 * e)))
  .ok ⟨.loc g.blk off (off + n), write, []⟩

/-- A memory format of local store in ALD and AST (R279). -/
def localMfmt (f : Nat) : Bool := f ≤ 14 && f != 6

/-- The checks of ALD (R279). -/
def State.planAld (s : State) (k : Who) (g : Group) (hand : Bool) (v : Dword) (tt tile mfmt : Nat) : Except Nope Plan := do
  need 0x01 (tt != 3 && !(tt == 1 && tile % 2 == 1))
  if hand then
    need 0x01 (mfmt == 15)
    let (h, p, x, y) := winParts v
    s.toRaise k h
    let e ← s.handle k h
    need 0x02 (2 ≤ e.cls && e.cls ≤ 5)
    need 0x01 (e.ncomp == 0 && !isComplex e.fmt &&
      (e.fmt != 6 || ((s.core g.core).codebook g.ctx e.cbs).isSome))
    s.allTime k e p x y 16 16
    .ok ⟨[windowReg k.ctx h e p x y 16 16 false], [h], keep h e⟩
  else
    need 0x01 (localMfmt mfmt && !isComplex mfmt)
    let r ← s.tileWindow g v (fmtBits mfmt / 8) false
    .ok ⟨[r], [], []⟩

/-- ALD (R279). -/
def execAld (o : EOps) (s : State) : Out :=
  let tt := (o.minor.extractLsb' 5 2).toNat
  let mfmt := (o.minor.extractLsb' 1 4).toNat
  let hand := o.minor.getLsbD 0
  let t := o.d.toNat
  s.kernelOnly fun x =>
    if !s.owns x || badUniform x.g .i64 o.a then s.illegal x
    else
      let v := s.readUni x o.lit .i64 o.a
      match s.planAld (s.who x.g) x.g hand v tt t mfmt with
      | .error n => s.nope x n
      | .ok p =>
        let (src, stride) := sideOf hand v
        s.submit x (.ald src stride x.g.quad t tt mfmt (o.mod.extractLsb' 6 2).toNat) p none

/-- The checks of AST (R280, R285, R397). -/
def State.planAst (s : State) (k : Who) (g : Group) (hand : Bool) (v : Dword) (tt tile mfmt : Nat) (freq : Bool)
    (bin : Dword) : Except Nope Plan := do
  need 0x01 (!((tt == 1 || tt == 3) && tile % 2 == 1) && !(freq && (tt != 3 || !hand)))
  if hand then
    need 0x01 (mfmt == 15)
    let (h, p, x, y) := winParts v
    s.toRaise k h
    let e ← s.handle k h
    if freq then
      need 0x02 (e.cls == 2 && e.dten)
      need 0x01 (e.ncomp == 0 && bits bin 7 0 < e.block / 2 && bits bin 31 8 == 0 && y % 8 == 0)
      let b := e.block
      .ok ⟨[windowReg k.ctx h e p (x * b) y (16 * b) 16 true], [h], keep h e⟩
    else
      need 0x02 (e.cls == 2 || e.cls == 4)
      need 0x01 (e.ncomp == 0 && (tt == 3) == isComplex e.fmt && e.fmt != 6)
      .ok ⟨[windowReg k.ctx h e p x y 16 16 true], [h], keep h e⟩
  else
    need 0x01 (localMfmt mfmt && (tt == 3) == isComplex mfmt)
    let r ← s.tileWindow g v (fmtBits mfmt / 8) true
    .ok ⟨[r], [], []⟩

/-- AST (R280): the tile is read at issue. -/
def execAst (o : EOps) (s : State) : Out :=
  let tt := (o.minor.extractLsb' 5 2).toNat
  let mfmt := (o.minor.extractLsb' 1 4).toNat
  let hand := o.minor.getLsbD 0
  let freq := o.minor.getLsbD 7
  let t := o.a.toNat
  s.kernelOnly fun x =>
    if !s.owns x || badUniform x.g .i64 o.d || (freq && badUniform x.g .w32 o.c) then s.illegal x
    else
      let v := s.readUni x o.lit .i64 o.d
      let bin := if freq then s.readUni x o.lit .w32 o.c else 0
      match s.planAst (s.who x.g) x.g hand v tt t mfmt freq bin with
      | .error n => s.nope x n
      | .ok p =>
        let (dst, stride) := sideOf hand v
        let c := s.core x.g.core
        let vals := (List.range 256).map fun i => c.tileVal (tt == 1 || tt == 3) x.g.quad t (i / 16) (i % 16)
        let fr := if freq then some ((o.minor.extractLsb' 8 8).toInt, bits bin 7 0) else none
        s.submit x (.ast dst stride x.g.quad t tt mfmt (o.mod.extractLsb' 6 2).toNat (o.mod.getLsbD 5) fr vals) p none

/-! ### Chunks -/

/-- The home L2 writes a line back and keeps it (R229, R256). -/
def State.l2Clean (s : State) (line : Nat) : State :=
  match s.l2.find line with
  | none => s
  | some l =>
    let s' := s.l2Evict line
    { s' with l2 := s'.l2.insert line { l with dirty := 0 } }


/-- One page of CINV or CFLUSH (R256): the lines of it that the range touches. -/
def State.maintPart (s : State) (k : Who) (core va len scope : Nat) (l2 inv : Bool) (c : Nat) : Except Halt Landed :=
  let pg := va / 65536 + c
  let lo := max va (pg * 65536) / 128 * 128
  let hi := (min (va + len) ((pg + 1) * 65536) + 127) / 128 * 128
  let act (s : State) : State :=
    let ps := s.physOf k 18 lo (hi - lo)
    let hit := inSpans ps
    let s := if scope ≤ 1 then s
      else if inv then s.l1DropClean core hit
      else s.l1BackWhere core fun b => b.dirty != 0 && (List.range (4 * b.words)).any fun i => hit (b.addr + i)
    if !l2 then s
    else
      let lines := (s.l2.map fun n _ => n).filter fun e => hit (s.pkg.pkgid * 2 ^ 42 + 128 * e.1)
      lines.foldl (fun s e => if inv then s.l2Evict e.1 else s.l2Clean e.1) s
  if l2 then
    match s.access k.core k.ctx (lo % 2 ^ 52) .read k.priv with
    | .error (.fatal z) => .error (.fatal z (lo % 2 ^ 52))
    | .error (.miss st why l p) => .error (.miss ⟨0, st, why, l, p, lo % 2 ^ 52, false, 0⟩)
    | .ok _ => .ok ⟨act s, 0, 0⟩
  else .ok ⟨act s, 0, 0⟩

/-- Pages that a range touches. -/
def pagesOf (va len : Nat) : Nat := if len = 0 then 0 else (va + len - 1) / 65536 - va / 65536 + 1

/-- Chunks of an operation other than CPYQ. -/
def jobChunks (ds : KV (List Dword)) (kind : JobKind) : Except Halt Nat :=
  match kind with
  | .cpy dir dst src len lfmt _ _ => copyChunks ds dir dst src len lfmt
  | .cpyq .. => .ok 0
  | .cinv va len _ _ => .ok (pagesOf va len)
  | .cflush va len _ _ => .ok (pagesOf va len)
  | .ald _ _ _ _ tt _ _ => .ok (chunkCount 256 (if tt = 1 then 64 else 32))
  | .ast dst _ _ _ _ fmt _ _ freq _ =>
    if freq.isSome then .ok 1
    else match dst with
      | .window h _ _ _ => (descOf ds h).map fun e => chunkCount 256 (fmtBits e.fmt)
      | _ => .ok (chunkCount 256 (fmtBits fmt))

/-- One chunk of an operation other than CPYQ. -/
def State.jobPart (s : State) (k : Who) (ds : KV (List Dword)) (core blk : Nat) (kind : JobKind) (c : Nat) : Except Halt Landed :=
  match kind with
  | .cpy dir dst src len lfmt rm sat => s.copyPart k ds core blk dir dst src len lfmt (RMode.ofCode rm) sat c
  | .cpyq .. => .ok ⟨s, 0, 0⟩
  | .cinv va len scope l2 => s.maintPart k core va len scope l2 true c
  | .cflush va len scope l2 => s.maintPart k core va len scope l2 false c
  | .ald src stride quad acc tt fmt rm => s.aldPart k ds core blk src stride quad acc tt fmt (RMode.ofCode rm) c
  | .ast dst stride quad acc tt fmt rm sat freq vals =>
    match freq, dst with
    | some (e, bin), .window h p j y => s.astFreq k ds core quad acc h p j y e bin (RMode.ofCode rm) sat vals
    | _, _ => s.astPart k ds core blk dst stride quad acc tt fmt (RMode.ofCode rm) sat vals c

/-- A job's work halts; a page that it both reads and writes is requested as write (R346). A job that waits for a page or a tile has
started, and holds no later one back (R250). -/
def State.haltJob (s : State) (core : Nat) (j : Job) (h : Halt) : State :=
  let writes (va : Nat) : Bool := (s.core core).locks.any fun k =>
    (k.op == j.id || (j.entry.isSome && k.op == j.entryId)) && k.write && match k.range with
      | .global lo hi => meets lo hi (va / 65536 * 65536) 65536
      | _ => false
  let h := match h with
    | .miss m => .miss (if writes m.va then { m with acc := 1 } else m)
    | h => h
  let (t, s) := s.haltEngine (j.who core) core j.blk j.pc h
  match t, h with
  | some t, _ => s.modJob core j.id fun k => { k with tokens := [t], started := true }
  | none, .away .. => s.modJob core j.id fun k => { k with started := true }
  | none, _ => s

/-- The operation behind one that has just had its turn is next, and the slot after it may be Tamper's (R250). -/
def State.took (s : State) (core id : Nat) : State :=
  s.modCore core fun c => { c with turn := c.jobs.findIdx (fun k => k.id == id) + 1, tamperTurn := false }

/-- The first chunk of a job of a kind that has not yet been done, or its end. -/
def State.workJob (s : State) (core : Nat) (j : Job) (kind : JobKind) (last : Bool) (close : State → Except Halt State) : State :=
  let k := j.who core
  match jobChunks j.descs kind with
  | .error h => s.haltJob core j h
  | .ok n =>
    if n ≤ j.chunk then
      match close s with
      | .error h => s.haltJob core j h
      | .ok s => s
    else
      match s.jobPart k j.descs core j.blk kind j.chunk with
      | .error h => s.haltJob core j h
      | .ok r =>
        let fin := j.chunk + 1 == n
        let put (owed : Nat) (s : State) : State := ((s.count core 8).took core j.id).modJob core j.id fun j =>
          { j with chunk := j.chunk + 1, started := true, tokens := [], flags := j.flags ||| r.flags, owed := owed }
        let lower (s : State) : State :=
          if s.lowerReady j.gid j.id then (put 0 s).lowerFor core j.bar r.bytes else put (if j.bar.isSome then r.bytes else 0) s
        if fin then
          match close r.st with
          | .error h => s.haltJob core j h
          | .ok t => if last then put r.bytes t else lower t
        else lower r.st

/-- An entry of a CPYQ starts: checked by R248 and registered (R255); a failure is a copy fault. -/
def State.startEntry (s : State) (core : Nat) (j : Job) (off next : Nat) : State :=
  let k := j.who core
  let w (i : Nat) : Dword := s.lsDword j.blk (off + 32 * next + 8 * i)
  let f := w 3
  match s.group j.gid with
  | none => s
  | some g =>
    if bits f 63 12 ≠ 0 || f.getLsbD 4 then s.doom j.blk
    else
      match s.planCopy k g (bits f 3 0) (w 0) (w 1) (w 2) (bits f 8 5) with
      | .error (.trap _) => s.doom j.blk
      | .error (.halt h) => s.haltJob core j h
      | .ok p =>
        if !(s.core core).room p.regs.length then s
        else
          match s.addUse k.core j.ctx true p.uses with
          | .error h => s.haltJob core j h
          | .ok s =>
            let (id, s) := s.fresh
            (s.register k core id p.regs).modJob core j.id fun j =>
              { j with entry := some (.cpy (bits f 3 0) (w 0) (w 1) (w 2) (bits f 8 5) (bits f 10 9) (f.getLsbD 11))
                       entryId := id, entryUses := p.uses, descs := p.descs, chunk := 0, started := true, tokens := [] }

/-- The running entry of a CPYQ ends: its ranges and USE are released, and the next entry's turn comes (R252, R255). -/
def State.endEntry (s : State) (core : Nat) (j : Job) (off n next : Nat) : Except Halt State := do
  let s ← s.addUse (some core) j.ctx false j.entryUses
  .ok ((s.unlock core j.entryId).modJob core j.id fun j =>
    { j with kind := .cpyq off n (next + 1), entry := none, entryUses := [] })

/-- Whether an operation has no chunk left. -/
def Job.over (j : Job) : Bool :=
  match j.kind with
  | .cpyq _ n next => n ≤ next && j.entry.isNone
  | kind => match jobChunks j.descs kind with
    | .ok n => n ≤ j.chunk
    | .error _ => false

/-- COPY_CHUNK (R250): the next chunk of an operation that runs, or the start or end of a CPYQ's entry; first the lowering for a
chunk whose release had to wait (R303). -/
def execCopyChunk (core id : Nat) (s : State) : Out :=
  .next (match (s.core core).job id with
    | none => s
    | some j =>
      if !(s.core core).mayRun id || anyPending j.tokens then s
      else if anyInvalid j.tokens then s.invalidEngine j.ctx core j.blk j.pc j.tokens
      else if j.owed ≠ 0 && !j.over then
        if s.lowerReady j.gid id then (s.modJob core id fun j => { j with owed := 0 }).lowerFor core j.bar j.owed else s
      else
        match j.kind with
        | .cpyq off n next =>
          if n ≤ next then s
          else
            match j.entry with
            | none => s.startEntry core j off next
            | some e =>
              if (s.core core).blocked j.entryId id then s
              else s.workJob core j e (next + 1 == n) fun s => s.endEntry core j off n next
        | kind =>
          match jobChunks j.descs kind with
          | .error h => s.haltJob core j h
          | .ok n => if n ≤ j.chunk then s else s.workJob core j kind true fun s => .ok s)

/-- COPY_COMPLETE (R252, R303): USE and the ranges are released, the flags reach the group, CE falls in order, and the last
chunk's bytes lower the barrier. -/
def execCopyComplete (core id : Nat) (s : State) : Out :=
  .next (match (s.core core).job id with
    | none => s
    | some j =>
      if !(s.core core).mayRun id || anyPending j.tokens || !j.over || (j.bar.isSome && !s.lowerReady j.gid id) then s
      else if anyInvalid j.tokens then s.invalidEngine j.ctx core j.blk j.pc j.tokens
      else
        match s.addUse (some core) j.ctx false j.uses with
        | .error h => s.haltJob core j h
        | .ok s =>
          let born := ((s.group j.gid).bind fun g => g.flights.find? fun f => f.id == id).map (·.born)
          let s := (s.unlock core id).addFlags j.gid j.pc j.flags born
          let s := s.returnFlight j.gid id
          (s.modCore core fun c => { c with jobs := c.jobs.filter fun k => k.id != id }).lowerFor core j.bar j.owed)

end Sys2Proof.Machine
end

