-- ==== Sys2Proof/Machine/Tagged.lean ====
section
/-! DEFINITION. Tagged memory (R304, R305): LDFE, LDFF, STFE, STFF, FESET, FECLR, FEQRY (R321–R324), the resumption of tagged
waiters, and WAITC. -/

namespace Sys2Proof.Machine

/-! ### The serial order of a word (R304, R305) -/

def State.setWaits (s : State) (store : Nat) (ws : List TagWait) : State :=
  if store < 128 then s.modQueue store fun q => { q with waits := ws } else s.modBlock store fun b => { b with waits := ws }

/-- Whether an operation's condition holds on a tag (R304). -/
def TagOp.holds (op : TagOp) (full : Bool) : Bool :=
  match op with
  | .ldfe => full
  | .ldff => full
  | .stfe => !full

/-- The oldest waiter on a word whose condition holds: it alone may take the word (R305). -/
def State.woken (s : State) (store word : Nat) : Option TagWait :=
  (s.waitsOf store).find? fun w => w.off / 8 == word && w.op.holds (s.isFull store w.off)

/-- A tagged operation takes place: data and tag change together (R304); a load's value goes to its register. -/
def State.doTag (s : State) (store : Nat) (w : TagWait) : State :=
  let n := if w.wide then 8 else 4
  match w.op with
  | .stfe => (s.lsWrite store w.off (natToBytes n w.data.toNat)).setFull store w.off true
  | op =>
    let v := s.lsRead store w.off n
    let ws := match w.dst with
      | some d => loadWrites (BitVec.ofNat 8 d) (if w.wide then 5 else 4) (w.lane.getD 0) v
      | none => []
    let s := s.modGroup w.gid fun g => g.writeRegs ws
    if op = .ldfe then s.setFull store w.off false else s

/-- Lanes of a split that still wait on tags, in whatever store. -/
def State.tagWaits (s : State) (gid sid : Nat) : List TagWait :=
  let mine (ws : List TagWait) : List TagWait := ws.filter fun w => w.gid == gid && w.sid == sid
  s.blocks.flatMap (fun e => mine e.2.waits) ++ s.queues.flatMap fun e => mine e.2.waits

/-- A scope's acquire by the group's core; a queue program has no L1. -/
def State.acquireFor (s : State) (g : Group) (scope : Nat) : State := if g.isQueue then s else s.acquire g.core scope
def State.releaseFor (s : State) (g : Group) (scope : Nat) : State := if g.isQueue then s else s.release g.core scope

/-- The last lane of a tagged operation has been performed: AT falls in order and the split goes on (R316, R322). -/
def State.endTag (s : State) (gid sid flight scope : Nat) (load : Bool) : State :=
  match s.group gid with
  | none => s
  | some g =>
    let s := (s.closeFlight gid (some flight)).settleAt gid
    (if load then s.acquireFor g scope else s).advance gid sid

/-- The lane of a waiter that has taken its word is due no longer (R323). -/
def State.tagDone (s : State) (w : TagWait) : State :=
  match w.lane with
  | some l => s.modSplit w.gid w.sid fun p => { p with due := p.due.map fun m => m &&& ~~~oneLane l }
  | none => s

/-- The oldest waiter on a word whose condition holds takes it (R305). -/
def State.serveTag (s : State) (store word : Nat) : State :=
  match s.woken store word with
  | none => s
  | some w =>
    let s := ((s.doTag store w).setWaits store ((s.waitsOf store).erase w)).tagDone w
    if s.tagWaits w.gid w.sid != [] then s else s.endTag w.gid w.sid w.flight w.scope (w.op != .stfe)

/-- TAGGED_WAIT_RESUME (R305): the oldest waiter whose condition holds performs its operation. -/
def execTaggedWaitResume (store word : Nat) (s : State) : Out := .next (s.serveTag store word)

/-- Woken waiters take a word before another party does, one for each change of its tag (R305). -/
def State.serveWord (s : State) (store word : Nat) : Nat → State
  | 0 => s
  | n + 1 => if (s.woken store word).isNone then s else (s.serveTag store word).serveWord store word n

/-! ### LDFE, LDFF, STFE, STFF (R321–R323) -/

/-- Operands that a tagged instruction may not name (R321, R322). -/
def badTag (g : Group) (o : EOps) (load : Bool) : Bool :=
  let w := o.minor.getLsbD 0
  badSrc g .w32 o.a || (isScalar o.d && !isUniform o.a) || (g.isQueue && !isUniform o.a) ||
    (if load then badDst g w o.d else badSrc g (if w then .i64 else .w32) o.d)

/-- One operation of a lane: at once where its condition holds and no woken waiter stands before it, else it waits. -/
def State.tagLane (s : State) (store : Nat) (w : TagWait) : State :=
  if w.op.holds (s.isFull store w.off) && (s.woken store (w.off / 8)).isNone then s.doTag store w
  else s.setWaits store (s.waitsOf store ++ [w])

/-- LDFE, LDFF and STFE. -/
def tagged (op : TagOp) (o : EOps) (s : State) : Out :=
  let load := op != .stfe
  let wide := o.minor.getLsbD 0
  let n := if wide then 8 else 4
  s.withEx fun x =>
    if badTag x.g o load then (if tagOnce x.g o then s.illegalScalar x else s.illegal x)
    else
      s.localAccess x n true (op != .ldff) (fun a => a % n == 0) (s.tagOffs x o) fun sp =>
        let scope := spotScope sp
        let s := if load then s else s.releaseFor x.g scope
        let (id, s) := s.openFlight x .at
        let lane (l : Nat) (p : Spot) : TagWait :=
          { gid := x.gid, sid := x.sid, lane := if tagOnce x.g o then none else some l, op := op, off := p.off, wide := wide,
            data := if load then 0 else s.readSrc x o.lit (if wide then .i64 else .w32) o.d l,
            dst := if load && o.d != 0xF0 then some o.d.toNat else none, flight := id, scope := scope }
        let s := sp.foldl (fun s e => s.tagLane e.2.store (lane e.1 e.2)) s
        match s.tagWaits x.gid x.sid with
        | [] => s.endTag x.gid x.sid id scope load
        | ws => s.modSplit x.gid x.sid fun p =>
            { p with park := .tag
                     due := if tagOnce x.g o then p.due else some (maskOf (ws.filterMap (·.lane))) }

/-- LDFE (R321). -/
def execLdfe (o : EOps) (s : State) : Out := tagged .ldfe o s
/-- LDFF (R321). -/
def execLdff (o : EOps) (s : State) : Out := tagged .ldff o s
/-- STFE (R321). -/
def execStfe (o : EOps) (s : State) : Out := tagged .stfe o s

/-- STFF (R304, R321): it never waits. -/
def execStff (o : EOps) (s : State) : Out :=
  let wide := o.minor.getLsbD 0
  let n := if wide then 8 else 4
  s.withEx fun x =>
    if badTag x.g o false then (if tagOnce x.g o then s.illegalScalar x else s.illegal x)
    else
      s.localAccess x n true true (fun a => a % n == 0) (s.tagOffs x o) fun sp =>
        let s := s.releaseFor x.g (spotScope sp)
        let one (s : State) (e : Nat × Spot) : State :=
          let v := s.readSrc x o.lit (if wide then .i64 else .w32) o.d e.1
          (s.lsWrite e.2.store e.2.off (natToBytes n v.toNat)).setFull e.2.store e.2.off true
        ((sp.foldl one s).passAt x).finish x

/-! ### FESET, FECLR, FEQRY (R324) -/

/-- The offsets of a tag instruction: one where A is uniform and it acts once. -/
def State.feOffs (s : State) (x : Ex) (lit : Word) (a : BitVec 8) (once : Bool) : List (Nat × Nat) :=
  (if once then [lowLane x.lanes] else x.list).map fun l => (l, (s.readSrc x lit .w32 a l).toNat)

/-- FESET and FECLR. -/
def feChange (f : Bool) (o : TOps) (s : State) : Out :=
  s.withEx fun x =>
    let once := isUniform o.a
    if badSrc x.g .w32 o.a then (if once then s.illegalScalar x else s.illegal x)
    else
      s.localAccess x 8 true true (fun a => a % 8 == 0) (s.feOffs x o.lit o.a once) fun sp =>
        (sp.foldl (fun s e => s.setFull e.2.store e.2.off f) s).finish x

/-- FESET (R324). -/
def execFeset (o : TOps) (s : State) : Out := feChange true o s
/-- FECLR (R324). -/
def execFeclr (o : TOps) (s : State) : Out := feChange false o s

/-- FEQRY (R324). -/
def execFeqry (o : UOps) (s : State) : Out :=
  s.withEx fun x =>
    let once := isUniform o.a && isScalar o.d
    if badSrc x.g .w32 o.a || badDst x.g false o.d || (isScalar o.d && !isUniform o.a) then
      (if once then s.illegalScalar x else s.illegal x)
    else
      s.localAccess x 8 true false (fun a => a % 8 == 0) (s.feOffs x o.lit o.a once) fun sp =>
        (s.modGroup x.gid fun g => sp.foldl (fun g e =>
          g.writeDst false o.d e.1 (if s.isFull e.2.store e.2.off then 1 else 0)) g).finish x

/-! ### WAITC (R324) -/

/-- The counter of a code (R324). -/
def Ctr.ofCode (c : Nat) : Ctr :=
  match c with
  | 0 => .vl
  | 1 => .vs
  | 2 => .ce
  | _ => .at

/-- WAITC (R174, R324). -/
def execWaitc (o : WaitcOps) (s : State) : Out :=
  s.withEx fun x =>
    if badUniform x.g .w32 o.a then s.illegal x
    else
      let t := ((s.readUni x o.lit .w32 o.a).extractLsb' 0 6).toNat
      let c := Ctr.ofCode o.ctr.toNat
      if x.g.counter c ≤ t || t = 63 then s.finish x else s.park x (.waitc c t)

end Sys2Proof.Machine
end

