-- ==== Sys2Proof/Machine/Sync.lean ====
section
/-! DEFINITION. Barrier instructions (R325–R329), cluster and grid barriers (R311, R312, R330) and FENCE (R298, R331). -/

namespace Sys2Proof.Machine

/-! ### BINIT, BARV, BARVX, BWAIT, BTEST -/

/-- The object that a barrier instruction names: `window` allows the cluster window (R325). -/
def State.object (s : State) (x : Ex) (o : EOps) (window : Bool) : Option Spot :=
  if x.g.isQueue || badUniform x.g .w32 o.a then none
  else
    match s.barSpot x.g (s.readUni x o.lit .w32 o.a).toNat with
    | none => none
    | some p => if p.window && !window then none else some p

/-- Whether something still counts on an object (R326): a parked split, an engine operation, a launch or draw. -/
def State.objectNamed (s : State) (blk off : Nat) : Bool :=
  let t : Target := .barrier blk off
  let at_ (b : Option Spot) : Bool := b.any fun p => p.store == blk && p.off == off
  (s.parkedOn fun _ g p => !g.isQueue && g.blk == blk && match p with
    | .phase (.object o _) => o == off
    | _ => false) != [] ||
    s.cores.any (fun c => c.2.jobs.any fun j => at_ j.bar) || s.groups.any (fun g => g.2.jobs.any fun j => at_ j.bar) ||
    s.grinds.any (fun g => at_ g.2.bar) ||
    s.launches.any (fun l => l.2.role == .kernel && l.2.target == t) || s.draws.any fun d => d.2.status.isNone && d.2.target == t

/-- BINIT (R326). -/
def execBinit (o : EOps) (s : State) : Out :=
  s.withEx fun x =>
    match s.object x o false with
    | none => s.illegal x
    | some p =>
      if badUniform x.g .w32 o.b then s.illegal x
      else
        let n := (s.readUni x o.lit .w32 o.b).toNat
        if n = 0 || 65535 < n then s.illegal x
        else if s.isBound p.store p.off then
          (if s.objectNamed p.store p.off then s.illegal x
           else (s.barInit p.store p.off (s.bar p.store p.off).slot n).finish x)
        else
          match (s.core x.g.core).freeSlot with
          | none => s.illegal x
          | some k =>
            ((s.modCore x.g.core fun c => { c with slots := c.slots.insert k (p.store, p.off) }).barInit p.store p.off k n).finish x

/-- A value written once by the split, into every active lane of a vector register (R325). -/
def Group.writeOnce (g : Group) (x : Ex) (d : BitVec 8) (v : Dword) : Group :=
  if isVec d then x.list.foldl (fun g l => g.writeDst false d l v) g else g.writeDst false d 0 v

/-- BARV and BARVX (R327). -/
def arrive (decl : Bool) (o : EOps) (s : State) : Out :=
  s.withEx fun x =>
    match s.object x o true with
    | none => s.illegal x
    | some p =>
      if badDst x.g false o.d || (decl && badUniform x.g .i64 o.b) then s.illegal x
      else
        let n := if decl then (s.readUni x o.lit .i64 o.b).toNat else 0
        if 2 ^ 55 ≤ n then s.illegal x
        else if !s.present p then s
        else if !s.isBound p.store p.off then s.illegal x
        else
          let old : Dword := if (s.bar p.store p.off).phase then 1 else 0
          let t := s.release x.g.core (if p.window then 2 else 1)
          match t.barArrive p.store p.off (BitVec.ofNat 56 n) with
          | none => s.illegal x
          | some t => (t.modGroup x.gid fun g => g.writeOnce x o.d old).finish x

/-- BARV (R327). -/
def execBarv (o : EOps) (s : State) : Out := arrive false o s
/-- BARVX (R327). -/
def execBarvx (o : EOps) (s : State) : Out := arrive true o s

/-- BWAIT (R328). -/
def execBwait (o : EOps) (s : State) : Out :=
  s.withEx fun x =>
    match s.object x o false with
    | none => s.illegal x
    | some p =>
      if badUniform x.g .w32 o.b || !s.isBound p.store p.off then s.illegal x
      else
        let b := (s.readUni x o.lit .w32 o.b).getLsbD 0
        if (s.bar p.store p.off).phase != b then (s.acquire x.g.core 1).finish x
        else s.park x (.phase (.object p.off b))

/-- BTEST (R328). -/
def execBtest (o : EOps) (s : State) : Out :=
  s.withEx fun x =>
    match s.object x o false with
    | none => s.illegal x
    | some p =>
      if badUniform x.g .w32 o.b || badDst x.g false o.d || !s.isBound p.store p.off then s.illegal x
      else
        let past : Bool := (s.bar p.store p.off).phase != (s.readUni x o.lit .w32 o.b).getLsbD 0
        let t := if past then s.acquire x.g.core 1 else s
        (t.modGroup x.gid fun g => g.writeOnce x o.d (if past then 1 else 0)).finish x

/-! ### Cluster and grid barriers (R311, R312) -/

/-- Whether a group has exited: no lane of it lives (R311). -/
def State.gone (s : State) (gid : Nat) : Bool :=
  match s.group gid with
  | some g => g.live == 0
  | none => true

/-- Whether a group has exited and its accesses are performed: its part of the release that completes a set of arrivals is done,
and that of a vertex group's exit (R123, R212, R294, R311, R312). -/
def State.departed (s : State) (gid : Nat) : Bool :=
  s.gone gid && match s.group gid with
    | some g => s.performed gid g none
    | none => true

/-- Groups of a cluster's blocks: with die bit `d`, or all. -/
def State.clusterGroups (s : State) (c : Cluster) (d : Option Nat) : List Nat :=
  c.blocks.flatMap fun b => match s.block b with
    | some k => if d = none ∨ d = some k.dieBit then k.groups else []
    | none => []

/-- The cluster and die bit of a group. -/
def State.clusterOf (s : State) (g : Group) : Option (Nat × Nat) :=
  if g.isQueue then none else (s.block g.blk).map fun b => (b.cluster, b.dieBit)

/-- A near set that has become complete releases its waiters (R311). -/
def State.nearSettle (s : State) (cl d : Nat) : State :=
  match s.cluster cl with
  | none => s
  | some c =>
    let gs := s.clusterGroups c (some d)
    if !c.nearDone.contains d && gs.any (fun k => c.near.contains k) && gs.all fun k => c.near.contains k || s.departed k then
      (s.modCluster cl fun c => { c with nearDone := c.nearDone ++ [d] }).releaseWaiters 2 fun k g p =>
        p == .phase .near && s.clusterOf g == some (cl, d) && gs.contains k
    else s

/-- Groups that have arrived in the far set; on a cluster that lies on one die it is the near set (R311). -/
def Cluster.farSet (c : Cluster) : List Nat := if c.bits.eraseDups.length ≤ 1 then c.near ++ c.far else c.far

/-- What follows an arrival or an exit: near sets, and the far set, which ends the phase (R311). -/
def State.clusterSettle (s : State) (cl : Nat) : State :=
  let s := (s.nearSettle cl 0).nearSettle cl 1
  match s.cluster cl with
  | none => s
  | some c =>
    if !c.farSet.isEmpty && (s.clusterGroups c none).all fun k => c.farSet.contains k || s.departed k then
      (s.modCluster cl fun c => { c with near := [], far := [], nearDone := [] }).releaseWaiters 2 fun _ g p =>
        p == .phase .far && (s.clusterOf g).map (·.1) == some cl
    else s

/-- m0 holds every lane of the group that has not exited (R330). -/
def Ex.whole (x : Ex) : Bool := x.lanes &&& x.g.live == x.g.live

/-- CBAR.NEAR (R311, R330). -/
def execCbarNear (_o : EOps) (s : State) : Out :=
  s.kernelOnly fun x =>
    match s.clusterOf x.g with
    | none => s.illegal x
    | some (cl, _) =>
      let twice : Bool := match s.cluster cl with
        | some c => c.near.contains x.gid
        | none => false
      if !x.whole || twice then s.illegal x
      else
        let s := (s.release x.g.core 2).park x (.phase .near)
        (s.modCluster cl fun c => { c with near := c.near ++ [x.gid] }).clusterSettle cl

/-- CBAR.FAR (R311, R330). -/
def execCbarFar (_o : EOps) (s : State) : Out :=
  s.kernelOnly fun x =>
    match s.clusterOf x.g with
    | none => s.illegal x
    | some (cl, _) =>
      if !x.whole then s.illegal x
      else
        let s := (s.release x.g.core 2).park x (.phase .far)
        (s.modCluster cl fun c =>
          { c with near := if c.near.contains x.gid then c.near else c.near ++ [x.gid], far := c.far ++ [x.gid] }).clusterSettle cl

/-- Groups of a block (R52). -/
def LRec.groups (r : LRec) : Nat := (r.bdx * r.bdy * r.bdz + r.width - 1) / r.width

/-- The grid barrier completes once every group of the grid has arrived or exited (R312). -/
def State.gridSettle (s : State) (lid : Nat) : State :=
  match s.launch lid with
  | none => s
  | some l =>
    let live := l.gbar.filter fun k => !s.gone k
    let leaving : Bool := s.groups.any fun e =>
      !e.2.isQueue && s.gone e.1 && !s.departed e.1 && (s.block e.2.blk).any fun b => b.launch == lid
    if !leaving && !live.isEmpty && live.length + l.ended = l.total * l.lrec.groups then
      (s.modLaunch lid fun l => { l with gbar := [] }).releaseWaiters 4 fun k _ p => p == .phase .grid && l.gbar.contains k
    else s

/-- GBAR (R312, R330). -/
def execGbar (_o : EOps) (s : State) : Out :=
  s.kernelOnly fun x =>
    match s.block x.g.blk, s.lrecOf x.g with
    | some b, some r =>
      if !x.whole || !r.cores then s.illegal x
      else
        let s := (s.release x.g.core 4).park x (.phase .grid)
        (s.modLaunch b.launch fun l => { l with gbar := l.gbar ++ [x.gid] }).gridSettle b.launch
    | _, _ => s.illegal x

/-! ### EXIT -/

/-- The barriers at which a group of a block may count as arrived now. -/
def State.settleFor (s : State) (blk : Nat) : State :=
  match s.block blk with
  | none => s
  | some b => (s.clusterSettle b.cluster).gridSettle b.launch

/-- What follows the exit of a group's last lane: its region closes (R354), its writes leave the L1 at the scope of its barriers,
and it counts as arrived at them once its accesses are performed (R311, R312). -/
def State.groupEnds (s : State) (x : Ex) : State :=
  let s := s.modGroup x.gid fun g => { g with np := none }
  match s.block x.g.blk with
  | none => s
  | some b =>
    let scope := if (s.lrecOf x.g).any (·.cores) then 4 else 2
    ((s.release x.g.core scope).modLaunch b.launch fun l => { l with ended := l.ended + 1 }).settleFor x.g.blk

/-- The program of a queue whose one lane has exited has stopped (log 28). -/
def State.queueEnds (s : State) (q : Nat) : State :=
  (s.modQueue q fun k => { k with run := false }).modCp (q / 16) fun c =>
    if c.current = some q then { c with current := none } else c

/-- EXIT (R212): the lanes leave; the rest of the split continues. In a vertex group it is a release at DEVICE scope (R123). -/
def execExit (m : BitVec 4) (s : State) : Out :=
  s.withEx fun x =>
    if x.badTransfer m then s.illegal x
    else
      let s := if x.g.kind = .vertex then s.release x.g.core 4 else s
      let s := (s.goto x x.nextHeader).modGroup x.gid fun g => g.exitLanes x.sid (x.cond m)
      if !s.gone x.gid then s
      else if x.g.isQueue then s.queueEnds x.gid
      else s.groupEnds x

/-! ### FENCE -/

/-- The die whose ordering engine numbers an SC fence of a scope (R298); none where no engine of this package does. -/
def State.orderDie (s : State) (g : Group) (scope : Nat) : Option Nat :=
  match scope with
  | 2 => match s.clusterOf g with
    | some (cl, _) => (s.cluster cl).map (·.die0)
    | none => none
  | 3 => if g.isQueue then none else some (dieOf g.core)
  | 4 => some 0
  | 5 => if s.pkg.ports.all fun e => e.2.state != 2 || e.2.mode != 1 || s.pkg.pkgid ≤ e.2.peer then some 0 else none
  | _ => none

/-- FENCE (R298, R331). -/
def execFence (o : EOps) (s : State) : Out :=
  let kind := (o.minor.extractLsb' 2 2).toNat
  let scope := (o.minor.extractLsb' 4 3).toNat
  s.withEx fun x =>
    let s := if kind = 0 then s else s.releaseFor x.g scope
    let s := if kind = 3 then
        match s.orderDie x.g scope with
        | some d => s.modDie d fun d => { d with scSeq := d.scSeq + 1 }
        | none => s
      else s
    (if kind = 1 then s else s.acquireFor x.g scope).finish x

end Sys2Proof.Machine
end

