-- ==== Sys2Proof/Machine/Matrix.lean ====
section
/-! DEFINITION. Matrix instructions on registers and tiles (R261–R273, R277, R278): MACQ, MREL and the grant of the matrix unit
(R177), FBLD, CBLD, SCPF, MMA and its team steps, ACLR, ASATR, AMOV. -/

namespace Sys2Proof.Machine

/-! ### Ownership (R177, R265) -/

/-- The quadrants of some groups of a block. -/
def State.quadsOf (s : State) (b : Block) (ns : List Nat) : List Nat :=
  ns.filterMap fun n => (s.group (b.groups.getD n 0)).map (·.quad)

/-- The team of a request or of the owner that a group belongs to. -/
def Core.teamOf (c : Core) (blk num : Nat) : Option Team :=
  match c.owner with
  | some t => if t.has blk num then some t else c.teams.find? fun t => t.has blk num
  | none => c.teams.find? fun t => t.has blk num

/-- MACQ's checks (R265). -/
def State.badTeam (s : State) (x : Ex) (mask : BitVec 32) : Bool :=
  let ns := (List.range 32).filter fun n => mask.getLsbD n
  match s.block x.g.blk, s.lrecOf x.g with
  | some b, some r =>
    let qs := s.quadsOf b ns
    ns.isEmpty || 4 < ns.length || !ns.contains x.g.num || ns.any (fun n => r.groups ≤ n) || qs.eraseDups.length != qs.length ||
      (match (s.core x.g.core).teamOf x.g.blk x.g.num with
        | some t => t.mask != mask
        | none => false)
  | _, _ => true

/-- MACQ (R177, R265). -/
def execMacq (o : EOps) (s : State) : Out :=
  s.kernelOnly fun x =>
    if badUniform x.g .w32 o.a then s.illegal x
    else
      let mask : BitVec 32 := (s.readUni x o.lit .w32 o.a).setWidth 32
      let c := s.core x.g.core
      if s.badTeam x mask then s.illegal x
      else if (match c.owner with
        | some t => t.has x.g.blk x.g.num
        | none => false) then s.finish x
      else
        let teams :=
          if c.teams.any fun t => t.has x.g.blk x.g.num then
            c.teams.map fun t => if t.has x.g.blk x.g.num && !t.arrived.contains x.g.num then
              { t with arrived := t.arrived ++ [x.g.num] } else t
          else c.teams ++ [⟨x.g.blk, mask, [x.g.num], []⟩]
        (s.modCore x.g.core fun c => { c with teams := teams }).park x .matrix

/-- Whether a member of a team has left by MREL or exit, its steps written (R177, R212). -/
def State.memberLeft (s : State) (t : Team) (n : Nat) : Bool :=
  match s.block t.blk with
  | none => true
  | some b =>
    let gid := b.groups.getD n 0
    match s.group gid with
    | none => true
    | some g =>
      let c := s.core g.core
      (t.left.contains n || g.live == 0) && !c.seqs.any (fun q => q.gid == gid) &&
        !c.teamSteps.any fun p => p.shares.any fun h => h.gid == gid

/-- The unit is given back once every member has left. -/
def State.freeUnit (s : State) (core : Nat) : State :=
  match (s.core core).owner with
  | some t => if t.members.all (s.memberLeft t) then s.modCore core fun c => { c with owner := none } else s
  | none => s

/-- A member of a team leaves it; of another group it makes nothing. -/
def Team.leave (t : Team) (blk num : Nat) : Team :=
  if t.has blk num && !t.left.contains num then { t with left := t.left ++ [num] } else t

/-- MREL (R177, R265). -/
def execMrel (_o : EOps) (s : State) : Out :=
  s.kernelOnly fun x =>
    let s := s.modCore x.g.core fun c => { c with owner := c.owner.map fun t => t.leave x.g.blk x.g.num }
    (s.freeUnit x.g.core).finish x

/-- Every tile of the four arrays and every SATCNT to 0 (R177). -/
def Core.clearTiles (c : Core) : Core := { c with tiles := [], satcnt := [] }

/-- The group of a member of a team. -/
def State.memberOf (s : State) (t : Team) (n : Nat) : Option (Nat × Group) :=
  match s.block t.blk with
  | none => none
  | some b => let gid := b.groups.getD n 0
    (s.group gid).map fun g => (gid, g)

/-- Whether a member is on its core, or gone. -/
def State.memberHere (s : State) (t : Team) (n : Nat) : Bool :=
  match s.memberOf t n with
  | some (_, g) => g.res == .resident
  | none => true

/-- Whether an operation moves accumulator tiles (R279, R280). -/
def Job.onArray (j : Job) : Bool :=
  match j.kind with
  | .ald .. => true
  | .ast .. => true
  | _ => false

/-- An operation of a group that now stands on a quadrant: ALD and AST act on that quadrant's tiles (R177, R352). -/
def Job.onQuad (j : Job) (q : Nat) : Job :=
  { j with kind := match j.kind with
      | .ald src stride _ acc tt fmt rm => .ald src stride q acc tt fmt rm
      | .ast dst stride _ acc tt fmt rm sat freq vals => .ast dst stride q acc tt fmt rm sat freq vals
      | k => k }

/-- A restored member of an owning team takes its tiles, loops, steps and engine operations back as the team is granted again,
the tiles whole (R177, R352). -/
def State.regain (s : State) (core gid : Nat) (g : Group) : State :=
  if !g.regain then s
  else
    let q := g.quad
    let quadOf (h : Share) : Nat := ((s.group h.gid).map (·.quad)).getD h.quad
    let s := s.modCore core fun c =>
      { c with
        tiles := g.tiles.foldl (fun t e => KV.put 0 t (2048 * q + e.1) e.2) (c.tiles.filter fun e => e.1 / 2048 != q)
        satcnt := g.satcnt.foldl (fun t e => KV.put 0 t (8 * q + e.1) e.2) (c.satcnt.filter fun e => e.1 / 8 != q)
        jobs := c.jobs ++ g.jobs.map fun j => j.onQuad q
        locks := c.locks ++ g.locks
        seqs := c.seqs ++ g.seqs.map fun o => { o with quad := q }
        teamSteps := c.teamSteps ++ g.steps.map fun t => { t with shares := t.shares.map fun h => { h with quad := quadOf h } } }
    s.modGroup gid fun g => { g with regain := false, tiles := [], satcnt := [], seqs := [], steps := [], jobs := [], locks := [] }

/-- MATRIX_UNIT_GRANT (R177): the unit passes to the head team once it is free and every member has executed MACQ. -/
def execMatrixUnitGrant (core : Nat) (s : State) : Out :=
  .next (
    let s := s.freeUnit core
    let c := s.core core
    match c.owner, c.teams with
    | none, t :: rest =>
      if !(t.members.all fun n => t.arrived.contains n && s.memberHere t n) then s
      else
        let s := s.modCore core fun c =>
          let c := { c with owner := some t, teams := rest }
          if c.tileBlk = some t.blk then c else { c.clearTiles with tileBlk := some t.blk }
        let s := t.members.foldl (fun s n => match s.memberOf t n with
          | some (gid, g) => s.regain core gid g
          | none => s) s
        (s.parkedOn fun _ g p => !g.isQueue && t.has g.blk g.num && p == .matrix).foldl (fun s w => s.advance w.1 w.2) s
    | _, _ => s)

/-! ### FBLD, CBLD, SCPF -/

/-- FBLD (R266). -/
def execFbld (o : EOps) (s : State) : Out :=
  s.kernelOnly fun x =>
    if o.minor.getLsbD 0 then
      (if o.d != 0xF0 && (!isScalar o.d || o.d.getLsbD 0) then s.illegal x
       else (s.setGroup x.gid (x.g.writeDst true o.d 0 (x.g.readF o.a.toNat))).finish x)
    else if badUniform x.g .i64 o.a then s.illegal x
    else (s.setGroup x.gid (x.g.writeF o.d.toNat (s.readUni x o.lit .i64 o.a))).finish x

/-- CBLD writes a slot as a whole (R36, R267). -/
def Core.loadCodebook (c : Core) (slot ctx : Nat) (bs : List Byte) : Core :=
  let es := (List.range 16).map fun i => BitVec.ofNat 16 (bytesToNat ((bs.drop (2 * i)).take 2))
  { c with codebooks := c.codebooks.insert slot ⟨es, ctx, false⟩ }

/-- CBLD (R267): an ordinary access of the group, at its home L2 or in local store. -/
def execCbld (o : EOps) (s : State) : Out :=
  let slot := (o.minor.extractLsb' 8 4).toNat
  s.kernelOnly fun x =>
    let put (s : State) (bs : List Byte) : State :=
      (s.modCore x.g.core fun c => c.loadCodebook slot x.g.ctx bs).finish x
    if o.minor.getLsbD 0 then
      if badUniform x.g .w32 o.a then s.illegal x
      else
        let a := (s.readUni x o.lit .w32 o.a).toNat
        if a % 32 ≠ 0 || 2 ^ 31 ≤ a || s.lsBytesOf x.g < a + 32 then s.illegal x
        else if s.localLocked x.g ⟨x.g.blk, a, false⟩ 32 false then
          (s.count x.g.core 7).trap x 0x04 x.lanes a
        else put s (s.lsRead x.g.blk a 32)
    else
      if badUniform x.g .i64 o.a then s.illegal x
      else
        let a := bits (s.readUni x o.lit .i64 o.a) 51 0
        if a % 32 ≠ 0 then s.illegal x
        else if s.globalLocked x.g a 32 false then (s.count x.g.core 7).trap x 0x04 x.lanes a
        else
          match s.engineRead (s.who x.g) a 32 (some false) with
          | .error h => s.haltEx x h .read
          | .ok (bs, s) => put s bs

/-- The sectors of a prefetch, each dropped where it would fault (R155, R268). -/
def State.prefetch (s : State) (k : Who) (core tid : Nat) : List Nat → State
  | [] => s
  | n :: t =>
    match s.needSector k core tid n with
    | .error (.fatal c va) => (s.reportAt k c va).prefetch k core tid t
    | .error _ => s.prefetch k core tid t
    | .ok s => s.prefetch k core tid t

/-- SCPF (R268). -/
def execScpf (o : EOps) (s : State) : Out :=
  let tid := (o.minor.extractLsb' 0 12).toNat
  s.kernelOnly fun x =>
    if o.minor.getLsbD 15 then
      (s.modCore x.g.core fun c => { c with scc := c.scc.filter fun e => !(e.ctx == x.g.ctx && e.tid == tid) }).finish x
    else if badUniform x.g .w32 o.a || badUniform x.g .w32 o.b then s.illegal x
    else
      let a := (s.readUni x o.lit .w32 o.a).toNat % 2 ^ 24
      let n := (s.readUni x o.lit .w32 o.b).toNat
      if n = 0 || 4096 < n then s.illegal x
      else
        let secs := ((List.range n).map fun i => (a + i) % 2 ^ 24 / 16).eraseDups
        (s.prefetch (s.who x.g) x.g.core tid secs).finish x

/-! ### MMA (R270–R273) -/

/-- The codebook and tensor-ID checks of an operand at issue (R267, R268). -/
def State.checkFbd (s : State) (k : Who) (core : Nat) (d : Fbd) : Except Nope Unit := do
  need 0x01 (d.fmt != 6 || ((s.core core).codebook k.ctx d.cbs).isSome)
  if d.scen then
    need 0x02 (d.tid != 0)
    let e ← s.handle k d.tid
    need 0x02 (e.cls == 5 && e.fmt == 2)
  else .ok ()

/-- The captured words of consecutive vector registers: of register i and lane l at 32 · i + l. -/
def Group.capture (g : Group) (r n : Nat) : List Word :=
  (List.range n).flatMap fun i => (List.range 32).map fun l => g.readV (r + i) l

/-- A fragment's first register: even, a vector register, the fragment within the group's present registers (R269). -/
def badFrag (g : Group) (c : BitVec 8) (n : Nat) : Bool := !isVec c || c.getLsbD 0 || 8 * g.rblk < c.toNat + n

/-- Members of the owning team. -/
def Core.ownerSize (c : Core) : Nat :=
  match c.owner with
  | some t => t.members.length
  | none => 0

/-- The SP and T rules of R270. -/
def spOk (c : Core) (a b : Fbd) (sp : Nat) (team : Bool) : Bool :=
  (sp = 0 || (sp ≤ 6 && sparseFmt a.fmt && sparseFmt b.fmt)) && !(team && (c.ownerSize != 4 || a.fmt = 0))

/-- The value of a B element in a step of one or four shares. -/
def shareElem (shares : List Share) (b : Fbd) (cb : List (BitVec 16)) (kl k n : Nat) : FV :=
  let q := shares.length
  let r := kl / q
  match shares[k / r]? with
  | some h => elemFV b.fmt cb (fragElem h.fb (fmtBits b.fmt) r n (k % r))
  | none => .fin false 0 0

/-- One share's array in a step. -/
def State.shareStep (s : State) (k : Who) (core : Nat) (t : TeamStep) (shares : List Share) (h : Share) : Except Halt State := do
  let a := Fbd.of h.descA
  let b := Fbd.of t.descB
  let kl := logicalK a.fmt t.sp
  let s ← s.needSectors k core a.tid (a.sectors 0 kl)
  let s ← s.needSectors k core b.tid (b.sectors 0 kl)
  let c := s.core core
  let cbA := s.cbOf core a
  let cbB := s.cbOf core b
  let i : StepIn :=
    { quad := h.quad, tile := h.acc, acc := (accFmt a b false).getD 1
      rows := c.rowsOf k.ctx a 0 fun m => (fragRow h.fa a.fmt t.sp m).map fun e => (e.1, elemFV a.fmt cbA e.2)
      cols := c.colsOf k.ctx b 0 kl fun k n => shareElem shares b cbB kl k n }
  let (c, fl) := c.step i
  .ok (((s.setCore core c).count core 3).addFlags h.gid h.pc fl (some h.born))

/-- The shares of a step, one after the other in team rank. -/
def State.sharesStep (s : State) (k : Who) (core : Nat) (t : TeamStep) (all : List Share) : List Share → Except Halt State
  | [] => .ok s
  | h :: r =>
    match s.shareStep k core t all h with
    | .error e => .error e
    | .ok s => s.sharesStep k core t all r

/-- Shares in ascending order of quadrant: team ranks (R273). -/
def rankShares (hs : List Share) : List Share := (List.range 4).flatMap fun q => hs.filter fun h => h.quad == q

/-- Who fetches for a core's matrix unit: a group's context and privilege. -/
def State.whoOf (s : State) (core ctx gid : Nat) : Who :=
  ⟨some core, ctx, match s.group gid with
    | some g => s.privOf g
    | none => false⟩

/-- A step that has its shares is computed and leaves the list; a halt of its scale fetch keeps it (R264). -/
def State.runStep (s : State) (core idx : Nat) : State :=
  match (s.core core).teamSteps[idx]? with
  | none => s
  | some t =>
    let hs := rankShares t.shares
    let (gid, pc) := match t.shares with
      | h :: _ => (h.gid, h.pc)
      | [] => (0, 0)
    let k := s.whoOf core t.ctx gid
    match s.sharesStep k core t hs hs with
    | .ok s => (s.modCore core fun c => { c with teamSteps := c.teamSteps.eraseIdx idx }).freeUnit core
    | .error h =>
      let (tok, s) := s.haltEngine k core t.blk pc h
      s.modCore core fun c => { c with teamSteps := c.teamSteps.modify idx fun t => { t with tokens := tok.toList } }

/-- The first step of a core that may be computed. -/
def Core.readyStep (c : Core) : Option Nat :=
  c.teamSteps.findIdx? fun t => t.shares.length == t.need && !anyPending t.tokens

/-- TEAM_STEP (R273): every share has issued; also a step that waited for a scale (R264). -/
def execTeamStep (core : Nat) (s : State) : Out :=
  .next (match (s.core core).readyStep with
    | none => s
    | some idx =>
      match (s.core core).teamSteps[idx]? with
      | none => s
      | some t =>
        if anyInvalid t.tokens then s.invalidEngine t.ctx core t.blk ((t.shares.map (·.pc)).headD 0) t.tokens
        else s.runStep core idx)

/-- A share joins the team step that waits for it; none where its B descriptor or SP differs (R273). -/
def Core.joinStep (c : Core) (blk ctx : Nat) (descB : Dword) (sp : Nat) (h : Share) : Option Core :=
  match c.teamSteps.findIdx? fun t => t.need == 4 && t.shares.length < 4 with
  | none => some { c with teamSteps := c.teamSteps ++ [{ need := 4, blk := blk, ctx := ctx, descB := descB, sp := sp, shares := [h] }] }
  | some i =>
    if c.teamSteps.any fun t => t.need == 4 && t.shares.length < 4 && (t.descB != descB || t.sp != sp) then none
    else some { c with teamSteps := c.teamSteps.modify i fun t => { t with shares := t.shares ++ [h] } }

/-- MMA's checks (R261, R270): its descriptors, sparse code and registers. -/
def State.planMma (s : State) (x : Ex) (o : XOps) : Except Nope Unit := do
  let a := Fbd.of (x.g.readF o.f.toNat)
  let b := Fbd.of (x.g.readF (o.f.toNat ^^^ 1))
  let team := o.flags.getLsbD 0
  let sp := (o.flags.extractLsb' 1 3).toNat
  need 0x01 (s.owns x && x.g.width == 32)
  need 0x01 (accFmt a b false).isSome
  need 0x01 (spOk (s.core x.g.core) a b sp team && !(accFmt a b false == some 0 && o.acc.getLsbD 0))
  need 0x01 (!badFrag x.g o.a (fragRegsA a.fmt sp) && !badFrag x.g o.b (fragRegsB b.fmt sp team))
  s.checkFbd (s.who x.g) x.g.core a
  s.checkFbd (s.who x.g) x.g.core b

/-- MMA (R270–R273): the fragments are read at issue; a step of one array is computed at once. -/
def execMma (o : XOps) (s : State) : Out :=
  s.kernelOnly fun x =>
    match s.planMma x o with
    | .error (.trap c) => s.trap x c x.lanes 0
    | .error (.halt h) => s.haltEx x h .read
    | .ok () =>
      let descA := x.g.readF o.f.toNat
      let descB := x.g.readF (o.f.toNat ^^^ 1)
      let team := o.flags.getLsbD 0
      let sp := (o.flags.extractLsb' 1 3).toNat
      let h : Share :=
        { gid := x.gid, quad := x.g.quad, acc := o.acc.toNat, descA := descA, pc := x.sp.pc
          fa := x.g.capture o.a.toNat (fragRegsA (Fbd.of descA).fmt sp)
          fb := x.g.capture o.b.toNat (fragRegsB (Fbd.of descB).fmt sp team), born := x.g.icount
          regs := [(o.a.toNat, fragRegsA (Fbd.of descA).fmt sp), (o.b.toNat, fragRegsB (Fbd.of descB).fmt sp team)] }
      if team then
        match (s.core x.g.core).joinStep x.g.blk x.g.ctx descB sp h with
        | none => s.illegal x
        | some c => (s.setCore x.g.core c).finish x
      else
        let c := s.core x.g.core
        let t : TeamStep := { need := 1, blk := x.g.blk, ctx := x.g.ctx, descB := descB, sp := sp, shares := [h] }
        ((s.finish x).setCore x.g.core { c with teamSteps := c.teamSteps ++ [t] }).runStep x.g.core c.teamSteps.length

/-! ### ACLR, ASATR, AMOV -/

/-- ACLR (R277): one issue cycle for each tile. -/
def execAclr (o : EOps) (s : State) : Out :=
  s.kernelOnly fun x =>
    if !s.owns x then s.illegal x
    else
      let ts := (List.range 8).filter fun t => o.minor.getLsbD (8 + t)
      (s.modCore x.g.core fun c => ts.foldl (fun c t => c.clearTile x.g.quad t) c).finish x

/-- ASATR (R277). -/
def execAsatr (o : EOps) (s : State) : Out :=
  s.kernelOnly fun x =>
    if !s.owns x || badDst x.g false o.d then s.illegal x
    else
      let t := o.a.toNat % 8
      let v : Dword := ((s.core x.g.core).satcntOf x.g.quad t).setWidth 64
      let s := s.modGroup x.gid fun g =>
        if isVec o.d then x.list.foldl (fun g l => g.writeDst false o.d l v) g else g.writeDst false o.d 0 v
      (if o.minor.getLsbD 1 then s.modCore x.g.core fun c => c.clearSat x.g.quad t else s).finish x

/-- AMOV (R278): the bits of a tile, or of a pair, move between the array and 8 or 16 registers. -/
def execAmov (o : EOps) (s : State) : Out :=
  let into := o.minor.getLsbD 0
  let wide := o.minor.getLsbD 1
  let v := (if into then o.a else o.d)
  let t := (if into then o.d else o.a).toNat % 8
  s.kernelOnly fun x =>
    let n := if wide then 16 else 8
    if !s.owns x || x.g.width ≠ 32 || (wide && t % 2 = 1) then s.illegal x
    else if !into && v == 0xF0 then s.finish x
    else if !isVec v || v.toNat % 8 ≠ 0 || 8 * x.g.rblk < v.toNat + n then s.illegal x
    else
      let q := x.g.quad
      let row (l : Nat) : Nat := l % 16
      let col (l i : Nat) : Nat := 8 * (l / 16) + i
      let places := (List.range 32).flatMap fun l => (List.range 8).map fun i => (l, i)
      if into then
        (s.modCore x.g.core fun c => places.foldl (fun c p =>
          let d : Dword := if wide then x.g.readV64 (v.toNat + 2 * p.2) p.1 else (x.g.readV (v.toNat + p.2) p.1).setWidth 64
          c.setTileVal wide q t (row p.1) (col p.1 p.2) d) c).finish x
      else
        let c := s.core x.g.core
        (s.modGroup x.gid fun g => places.foldl (fun g p =>
          let d := c.tileVal wide q t (row p.1) (col p.1 p.2)
          if wide then g.writeV64 (v.toNat + 2 * p.2) p.1 d else g.writeV (v.toNat + p.2) p.1 (d.setWidth 32)) g).finish x

end Sys2Proof.Machine
end

