-- ==== Sys2Proof/Machine/Loop.lean ====
section
/-! DEFINITION. Sequenced matrix operations: MLOOP (R274–R276) and CMMA (R281, R282), and the steps of their sequencers. -/

namespace Sys2Proof.Machine

/-! ### Operands of MLOOP (R274, R275) -/

/-- Fields of a step word (R274): steps, AH, BH, AINC and BINC in bytes. -/
def stepCount (w : Word) : Nat := (w.extractLsb' 20 12).toNat + 1
def stepAH (w : Word) : Bool := w.getLsbD 19
def stepBH (w : Word) : Bool := w.getLsbD 18
def stepAinc (w : Word) : Nat := 16 * (w.extractLsb' 9 9).toNat
def stepBinc (w : Word) : Nat := 16 * (w.extractLsb' 0 9).toNat

/-- Bytes of a local line of A: its elements and, of a sparse row, its metadata. -/
def lineBytesA (fmt sp : Nat) : Nat := denseK fmt * fmtBits fmt / 8 + (if sp = 0 then 0 else denseK fmt / 2)

/-- A local operand's checks (R275): its range from the first byte to the last over all steps. -/
def State.localOperand (s : State) (g : Group) (v : Dword) (inc steps line : Nat) : Except Nope Unit := do
  let off := bits v 31 0
  let stride := bits v 63 32
  need 0x01 (off % 16 == 0 && stride % 16 == 0 && off < 2 ^ 31)
  need 0x01 (off + (steps - 1) * inc + 15 * stride + line ≤ s.lsBytesOf g)

/-- A handle operand's checks (R275): its entry, its format, the domain of the window's tiles. -/
def State.handleOperand (s : State) (k : Who) (v : Dword) (fmt w h : Nat) : Except Nope Ste := do
  let (hd, p, x, y) := winParts v
  need 0x01 (x % 8 == 0 && y % 8 == 0)
  s.toRaise k hd
  let e ← s.handle k hd
  need 0x01 (e.fmt == fmt && e.ncomp == 0 && !isComplex e.fmt)
  s.allTime k e p x y w h
  .ok e

/-- Rank of a group in the owning team: by ascending quadrant (R273). -/
def State.teamRank (s : State) (g : Group) : Nat :=
  match (s.core g.core).owner, s.block g.blk with
  | some t, some b => ((s.quadsOf b t.members).filter fun q => q < g.quad).length
  | _, _ => 0

/-- The range that an operand's fetches register (R263). -/
def State.fetchReg (k : Who) (blk : Nat) (hand : Bool) (v : Dword) (e : Option Ste) (first last : Nat) (x0 y0 w h : Nat) : Reg :=
  if hand then
    let (hd, p, x, y) := winParts v
    match e with
    | some e => windowReg k.ctx hd e p (x + x0) (y + y0) w h false
    | none => ⟨.loc blk 0 0, false, []⟩
  else ⟨.loc blk (bits v 31 0 + first) (bits v 31 0 + last), false, []⟩

/-- MLOOP's checks (R261, R275): ranges and handles used. -/
def State.planLoop (s : State) (x : Ex) (o : MloopOps) (va vb : Dword) : Except Nope Plan := do
  let g := x.g
  let k := s.who g
  let a := Fbd.of (g.readF o.x.f.toNat)
  let b := Fbd.of (g.readF (o.x.f.toNat ^^^ 1))
  let team := o.x.flags.getLsbD 0
  let sp := (o.x.flags.extractLsb' 1 3).toNat
  let w := o.step
  need 0x01 (s.owns x)
  need 0x01 (accFmt a b false).isSome
  need 0x01 (spOk (s.core g.core) a b sp team && !(accFmt a b false == some 0 && o.x.acc.getLsbD 0))
  need 0x01 (!(stepAH w && (sp != 0 || stepAinc w != 0)) && !(stepBH w && stepBinc w != 0))
  let n := stepCount w
  let kl := logicalK a.fmt sp
  let lineA := lineBytesA a.fmt sp
  let wb := fmtBits b.fmt
  if !stepAH w then s.localOperand g va (stepAinc w) n lineA
  if !stepBH w then s.localOperand g vb (stepBinc w) n (kl * wb / 8)
  let ea ← if stepAH w then (s.handleOperand k va a.fmt (n * kl) 16).map some else .ok none
  let eb ← if stepBH w then (s.handleOperand k vb b.fmt 16 (n * kl)).map some else .ok none
  s.checkFbd k g.core a
  s.checkFbd k g.core b
  let q := if team then s.teamRank g else 0
  let r := if team then kl / 4 else kl
  let ra := State.fetchReg k g.blk (stepAH w) va ea 0 ((n - 1) * stepAinc w + 15 * bits va 63 32 + lineA) 0 0 (n * kl) 16
  let rb := State.fetchReg k g.blk (stepBH w) vb eb (q * r * wb / 8)
    ((n - 1) * stepBinc w + 15 * bits vb 63 32 + (q + 1) * r * wb / 8) 0 (q * r) 16 ((n - 1) * kl + r)
  let uses := (if stepAH w then [bits va 15 0] else []) ++ (if stepBH w then [bits vb 15 0] else [])
  let kept (e : Option Ste) (v : Dword) : KV (List Dword) := match e with
    | some e => keep (bits v 15 0) e
    | none => []
  .ok ⟨[ra, rb], uses, kept ea va ++ kept eb vb⟩

/-- An operation enters the sequencer of the group's quadrant: USE is raised and the ranges registered (R61, R263, R276). -/
def State.sequence (s : State) (x : Ex) (p : Plan) (q : SeqOp) : State :=
  let core := x.g.core
  if !(s.core core).room p.regs.length then s
  else
    match s.addUse (some core) x.g.ctx true p.uses with
    | .error h => s.haltEx x h .hw
    | .ok s =>
      let (id, s) := s.fresh
      let s := s.register (s.who x.g) core id p.regs
      (s.modCore core fun c => { c with seqs := c.seqs ++ [{ q with id := id, uses := p.uses, descs := p.descs }] }).finish x

/-- A scalar pair in an operand field of format X (R261, R274). -/
def badPair (g : Group) (c : BitVec 8) : Bool := !isScalar c || badSrc g .i64 c

/-- MLOOP (R274–R276). -/
def execMloop (o : MloopOps) (s : State) : Out :=
  s.kernelOnly fun x =>
    if badPair x.g o.x.a || badPair x.g o.x.b then s.illegal x
    else
      let va := s.readUni x 0 .i64 o.x.a
      let vb := s.readUni x 0 .i64 o.x.b
      match s.planLoop x o va vb with
      | .error n => s.nope x n
      | .ok p =>
        let team := o.x.flags.getLsbD 0
        let sp := (o.x.flags.extractLsb' 1 3).toNat
        let descB := x.g.readF (o.x.f.toNat ^^^ 1)
        let differs (q : SeqOp) : Bool :=
          q.team && (q.pairB != vb || q.stepWord != o.step || q.sp != sp || q.descB != descB)
        if team && (s.core x.g.core).seqs.any differs then s.illegal x
        else
          s.sequence x p
            { id := 0, gid := x.gid, ctx := x.g.ctx, blk := x.g.blk, quad := x.g.quad, acc := o.x.acc.toNat, complex := false,
              team := team, sp := sp, pairA := va, pairB := vb, descA := x.g.readF o.x.f.toNat, descB := descB,
              stepWord := o.step, bin := 0, steps := stepCount o.step, rank := if team then s.teamRank x.g else 0,
              pc := x.sp.pc, born := x.g.icount }

/-! ### Fetches -/

/-- The entry of a fetch as it stood at issue (R61), which must still have its class and format (R264). -/
def State.fetchEntry (s : State) (k : Who) (ds : KV (List Dword)) (h : Nat) : Except Halt Ste := do
  let e ← descOf ds h
  let now ← s.entryNow k h
  if now.fmt ≠ e.fmt ∨ now.cls ≠ e.cls then .error .kill else .ok e

/-- An element of a window, with its tile's 2^e (R275). -/
def State.fetchElem (s : State) (k : Who) (core : Nat) (ds : KV (List Dword)) (v : Dword) (cb : List (BitVec 16)) (dx dy : Nat) :
    Except Halt (FV × State) := do
  let (h, p, x, y) := winParts v
  let e ← s.fetchEntry k ds h
  let t ← s.tagAt k e p (x + dx) (y + dy)
  let (b, s) ← (s.touchAt core k.ctx h e p (x + dx) (y + dy)).elemRead k h e p (x + dx) (y + dy) (some false)
  .ok ((elemFV e.fmt cb b).scale t.exp, s)

/-- Element `i` of `w` bits behind a local byte offset. -/
def State.localBits (s : State) (blk off w i : Nat) : Nat :=
  if w = 4 then bytesToNat (s.lsRead blk (off + i / 2) 1) / 16 ^ (i % 2) % 16
  else bytesToNat (s.lsRead blk (off + i * w / 8) (w / 8))

/-- Collect over a list what may halt, threading the state. -/
def collect {α β : Type} (f : State → α → Except Halt (β × State)) : State → List α → Except Halt (List β × State)
  | s, [] => .ok ([], s)
  | s, a :: t =>
    match f s a with
    | .error h => .error h
    | .ok (b, s) =>
      match collect f s t with
      | .error h => .error h
      | .ok (r, s) => .ok (b :: r, s)

/-- Row m of A in step n: counting elements with their logical positions (R272, R275). -/
def State.loopRow (s : State) (k : Who) (core : Nat) (q : SeqOp) (n m : Nat) : Except Halt (List (Nat × FV) × State) :=
  let a := Fbd.of q.descA
  let cb := s.cbOf core a
  let K := denseK a.fmt
  let w := fmtBits a.fmt
  if stepAH q.stepWord then
    collect (fun s i => (s.fetchElem k core q.descs q.pairA cb (n * K + i) m).map fun r => ((i, r.1), r.2)) s (List.range K)
  else
    let off := bits q.pairA 31 0 + n * stepAinc q.stepWord + m * bits q.pairA 63 32
    let val (i : Nat) : FV := elemFV a.fmt cb (s.localBits q.blk off w i)
    if q.sp = 0 then .ok ((List.range K).map fun i => (i, val i), s)
    else
      .ok ((List.range K).filterMap fun i =>
        let idx := s.localBits q.blk (off + K * w / 8) 4 i
        (slotPos q.sp K (i / (K / 2)) (i % (K / 2)) idx).map fun p => (p, val i), s)

/-- Column n of B in step t (R275). -/
def State.loopCol (s : State) (k : Who) (core : Nat) (q : SeqOp) (t n : Nat) : Except Halt (List FV × State) :=
  let b := Fbd.of q.descB
  let cb := s.cbOf core b
  let kl := logicalK b.fmt q.sp
  let w := fmtBits b.fmt
  if stepBH q.stepWord then
    collect (fun s i => s.fetchElem k core q.descs q.pairB cb n (t * kl + i)) s (List.range kl)
  else
    let off := bits q.pairB 31 0 + t * stepBinc q.stepWord + n * bits q.pairB 63 32
    .ok ((List.range kl).map fun i => elemFV b.fmt cb (s.localBits q.blk off w i), s)

/-- A sequencer's operation ends: USE and its ranges are released (R61, R263), the matrix unit too where its team has left
(R177). -/
def State.endSeq (s : State) (core : Nat) (q : SeqOp) : Except Halt State := do
  let s ← s.addUse (some core) q.ctx false q.uses
  .ok (((s.unlock core q.id).modCore core fun c => { c with seqs := c.seqs.filter fun r => r.id != q.id }).freeUnit core)

/-- After a step of an operation: the next one, or its end. -/
def State.nextSeq (s : State) (core : Nat) (q : SeqOp) : Except Halt State :=
  if q.next + 1 < q.steps then
    .ok (s.modCore core fun c => { c with seqs := c.seqs.map fun r =>
                                    if r.id = q.id then { r with next := r.next + 1, tokens := [] } else r })
  else s.endSeq core q

/-- One member's array in a step of MLOOP (R275). -/
def State.loopStep (s : State) (core : Nat) (q : SeqOp) : Except Halt State := do
  let k := s.whoOf core q.ctx q.gid
  let a := Fbd.of q.descA
  let b := Fbd.of q.descB
  let kl := logicalK a.fmt q.sp
  let k0 := q.next * kl
  let s ← s.needSectors k core a.tid (a.sectors k0 kl)
  let s ← s.needSectors k core b.tid (b.sectors k0 kl)
  let (rows, s) ← collect (fun s m => s.loopRow k core q q.next m) s (List.range 16)
  let (cols, s) ← collect (fun s n => s.loopCol k core q q.next n) s (List.range 16)
  let c := s.core core
  let colA := (cols.map fun l => l.toArray).toArray
  let i : StepIn :=
    { quad := q.quad, tile := q.acc, acc := (accFmt a b false).getD 1
      rows := c.rowsOf k.ctx a k0 fun m => rows.getD m []
      cols := c.colsOf k.ctx b k0 kl fun k n => (colA.getD n #[]).getD k (.fin false 0 0) }
  let (c, fl) := c.step i
  (((s.setCore core c).count core 3).addFlags q.gid q.pc fl (some q.born)).nextSeq core q

/-- The members' steps of a team, or the one step of an operation alone. -/
def State.loopSteps (s : State) (core : Nat) : List SeqOp → Except Halt State
  | [] => .ok s
  | q :: t =>
    match s.loopStep core q with
    | .error h => .error h
    | .ok s => s.loopSteps core t

/-- A sequencer's step halts (R264). -/
def State.haltSeq (s : State) (core : Nat) (q : SeqOp) (h : Halt) : State :=
  let (t, s) := s.haltEngine (s.whoOf core q.ctx q.gid) core q.blk q.pc h
  s.modCore core fun c => { c with seqs := c.seqs.map fun r => if r.id = q.id then { r with tokens := t.toList } else r }

/-- The operation of a quadrant's sequencer. -/
def Core.seqOf (c : Core) (quad : Nat) : Option SeqOp := c.seqs.find? fun q => q.quad == quad

/-- Whether some operation of a list waits for a page, an earlier range, or its core. -/
def Core.seqWaits (c : Core) (qs : List SeqOp) : Bool :=
  c.held || qs.any fun q => anyPending q.tokens || c.blocked q.id q.id

/-- MLOOP_STEP (R275): one step; in team mode of all four members together (R273). -/
def execMloopStep (core quad : Nat) (s : State) : Out :=
  .next (match (s.core core).seqOf quad with
    | none => s
    | some q =>
      let qs := if q.team then (s.core core).seqs.filter fun r => r.team && r.blk == q.blk else [q]
      if q.complex || (q.team && qs.length < 4) || (s.core core).seqWaits qs then s
      else
        match qs.find? fun r => anyInvalid r.tokens with
        | some r => s.invalidEngine r.ctx core r.blk r.pc r.tokens
        | none =>
          match s.loopSteps core qs with
          | .error h => s.haltSeq core q h
          | .ok s => s)

/-! ### CMMA (R281, R282) -/

/-- An entry that a spectral instruction names (R281): ACT with DTEN, or the class trap. -/
def State.spectral (s : State) (k : Who) (h : Nat) : Except Nope Ste := do
  let e ← s.handle k h
  need 0x02 (e.cls == 2 && e.dten)
  .ok e

/-- Every tile at some places of a spectral entry is in a domain, or the domain trap (R64). -/
def State.needDomain (s : State) (k : Who) (e : Ste) (p : Nat) (ts : List (Nat × Nat)) (freq : Bool) : Except Nope Unit := do
  let ts := ts.eraseDups.filter fun t => t.1 < tilesAlong e.dim0 && t.2 < tilesAlong e.dim1 && p < e.planes
  let ms ← Nope.of (s.windowTags k.core k.ctx e p ts)
  need 0x03 (ms.all fun m => m.freq == freq)

/-- The tiles that hold bin k of J blocks on 16 rows. -/
def binTiles (e : Ste) (j0 y0 J bin : Nat) : List (Nat × Nat) :=
  (List.range J).flatMap fun j => [(((j0 + j) * e.block + 2 * bin) / 8, y0 / 8), (((j0 + j) * e.block + 2 * bin) / 8, y0 / 8 + 1)]

/-- CMMA's checks (R261, R281, R282). -/
def State.planCmma (s : State) (x : Ex) (va vb : Dword) (c : Word) : Except Nope Plan := do
  let k := s.who x.g
  let bin := (c.extractLsb' 0 8).toNat
  let J := (c.extractLsb' 16 16).toNat
  let (ha, pa, ja, ya) := winParts va
  let (hb, pb, jb, yb) := winParts vb
  need 0x01 (s.owns x)
  need 0x01 (ya % 8 == 0 && yb % 8 == 0)
  s.toRaise k ha
  let a ← s.spectral k ha
  s.toRaise k hb
  let b ← s.spectral k hb
  need 0x01 (a.spb == b.spb && a.fmt == 2 && b.fmt == 2)
  need 0x01 (bin < a.block / 2 && c.extractLsb' 8 8 == 0 && J != 0)
  s.needDomain k a pa (binTiles a ja ya J bin) true
  s.needDomain k b pb (binTiles b jb yb J bin) true
  let z := a.block
  .ok ⟨[windowReg k.ctx ha a pa (ja * z) ya (J * z) 16 false, windowReg k.ctx hb b pb (jb * z) yb (J * z) 16 false], [ha, hb],
    keep ha a ++ keep hb b⟩

/-- CMMA (R282). -/
def execCmma (o : EOps) (s : State) : Out :=
  s.kernelOnly fun x =>
    if badUniform x.g .i64 o.a || badUniform x.g .i64 o.b || badUniform x.g .w32 o.c || o.d.getLsbD 0 then s.illegal x
    else
      let va := s.readUni x o.lit .i64 o.a
      let vb := s.readUni x o.lit .i64 o.b
      let c : Word := (s.readUni x o.lit .w32 o.c).setWidth 32
      match s.planCmma x va vb c with
      | .error n => s.nope x n
      | .ok p =>
        let J := (c.extractLsb' 16 16).toNat
        s.sequence x p
          { id := 0, gid := x.gid, ctx := x.g.ctx, blk := x.g.blk, quad := x.g.quad, acc := o.d.toNat % 8, complex := true,
            team := false, sp := 0, pairA := va, pairB := vb, descA := 0, descB := 0, stepWord := BitVec.ofNat 32 J,
            bin := (c.extractLsb' 0 8).toNat, steps := (J + 7) / 8, pc := x.sp.pc, born := x.g.icount }

/-- Bin k of (block j, row r) of a spectral window, as represented (R281, R282). -/
def State.fetchBin (s : State) (k : Who) (core : Nat) (ds : KV (List Dword)) (v : Dword) (bin J j r : Nat) :
    Except Halt ((FV × FV) × State) := do
  if J ≤ j then .ok ((.fin false 0 0, .fin false 0 0), s)
  else
    let (h, p, j0, y0) := winParts v
    let e ← s.fetchEntry k ds h
    let x := (j0 + j) * e.block + 2 * bin
    let t ← s.tagAt k e p x (y0 + r)
    let s := s.touchAt core k.ctx h e p x (y0 + r)
    let (re, s) ← s.elemRead k h e p x (y0 + r)
    let (im, s) ← s.elemRead k h e p (x + 1) (y0 + r)
    .ok (((FF.bf16.decode re).scale t.exp, (FF.bf16.decode im).scale t.exp), s)

/-- Terms of the real and the imaginary part of a product of bins; bin 0 holds two real values (R282). -/
def binTerms (bin : Nat) (a b : FV × FV) : List (List FV) × List (List FV) :=
  if bin = 0 then ([[a.1, b.1]], [[a.2, b.2]])
  else ([[a.1, b.1], [a.2.neg, b.2]], [[a.1, b.2], [a.2, b.1]])

/-- One step of a CMMA on its tile pair (R282): each part is rounded once. -/
def State.cmmaPart (s : State) (core : Nat) (q : SeqOp) : Except Halt State := do
  let k := s.whoOf core q.ctx q.gid
  let J := q.stepWord.toNat
  let js := (List.range 8).map fun j => 8 * q.next + j
  let line (v : Dword) (s : State) (r : Nat) : Except Halt (List (FV × FV) × State) :=
    collect (fun s j => s.fetchBin k core q.descs v q.bin J j r) s js
  let (as, s) ← collect (line q.pairA) s (List.range 16)
  let (bs, s) ← collect (line q.pairB) s (List.range 16)
  let c := s.core core
  let (c, fl) := (List.range 256).foldl (fun (r : Core × Flags) e =>
    let i := e / 16
    let t := e % 16
    let ts := (List.zip (as.getD i []) (bs.getD t [])).map fun p => binTerms q.bin p.1 p.2
    let re := stepElem 1 ((r.1.tile q.quad q.acc i t).setWidth 64) (ts.flatMap (·.1))
    let im := stepElem 1 ((r.1.tile q.quad (q.acc + 1) i t).setWidth 64) (ts.flatMap (·.2))
    ((r.1.setTile q.quad q.acc i t (re.1.setWidth 32)).setTile q.quad (q.acc + 1) i t (im.1.setWidth 32),
      r.2 ||| re.2 ||| im.2)) (c, 0)
  (((s.setCore core c).count core 3).addFlags q.gid q.pc fl (some q.born)).nextSeq core q

/-- CMMA_STEP (R282): the next eight blocks. -/
def execCmmaStep (core quad : Nat) (s : State) : Out :=
  .next (match (s.core core).seqOf quad with
    | none => s
    | some q =>
      if !q.complex || (s.core core).seqWaits [q] then s
      else if anyInvalid q.tokens then s.invalidEngine q.ctx core q.blk q.pc q.tokens
      else
        match s.cmmaPart core q with
        | .error h => s.haltSeq core q h
        | .ok s => s)

end Sys2Proof.Machine
end

