-- ==== Sys2Proof/Machine/Spectral.lean ====
section
/-! DEFINITION. Spectral instructions on Crema tiles (R48, R49, R281, R283–R285): XFWD, XINV, XSCL, XDOM and the Grinders'
work. Transforms are exact in the field of the b-th roots of unity and each part is rounded once. -/

namespace Sys2Proof.Machine

/-! ### Exact transforms (R283) -/

/-- A term n · ζ^j of a sum, ζ = e^(2πi/b), as an exact value and its power. -/
abbrev Term := FV × Int

/-- Coordinates of a sum on ζ^0 … ζ^(b/2 − 1) (ζ^(b/2) = −1), as integers times 2^e. -/
def coords (b : Nat) (ts : List Term) : Array Int × Int :=
  let fin := ts.filterMap fun t => match t.1 with
    | .fin s n e => if n = 0 then none else some (s, n, e, (t.2 % (b : Int)).toNat)
    | _ => none
  let e := match fin with
    | [] => (0 : Int)
    | t :: r => r.foldl (fun m u => min m u.2.2.1) t.2.2.1
  let h := b / 2
  (fin.foldl (fun c t =>
    let v := toScale t.1 t.2.1 t.2.2.1 e
    if t.2.2.2 < h then c.modify t.2.2.2 (· + v) else c.modify (t.2.2.2 - h) (· - v)) (Array.replicate h 0), e)

/-- cos(2π/b) in units of 2^−Q: half angles from cos(π/2). -/
def cosStep (Q : Nat) : Nat → Nat
  | 0 => 0
  | k + 1 => isqrt ((2 ^ Q + cosStep Q k) * 2 ^ Q / 2)

/-- cos(2πm/b) for m < b/4 in units of 2^−P, each within 2 units. -/
def cosTable (b P : Nat) : List Int :=
  let Q := P + 64
  let c : Int := cosStep Q (Nat.log2 b - 2)
  let s : Int := isqrt (2 ^ (2 * Q) - (c * c).toNat)
  let rec go : Nat → Int → Int → List Int
    | 0, _, _ => []
    | n + 1, r, i => (r / 2 ^ 64) :: go n ((r * c - i * s) / 2 ^ Q) ((r * s + i * c) / 2 ^ Q)
  go (b / 4) (2 ^ Q) 0

/-- A number of cosines, rounded once: the ends of its error interval round alike at some precision (log 30). -/
def roundCos (f : FF) (b : Nat) (a0 : Int) (g : List Int) (e : Int) : List Nat → Rnd
  | [] => ⟨0, fNX⟩
  | P :: t =>
    let v := a0 * 2 ^ P + (List.zipWith (fun x y => x * y) g (cosTable b P)).foldl (· + ·) 0
    let err : Nat := 2 * (g.map Int.natAbs).foldl (· + ·) 0 + 2
    let lo := v - err
    let hi := v + err
    let rl := f.roundFin .rne (lo < 0) lo.natAbs (e - P)
    let rh := f.roundFin .rne (hi < 0) hi.natAbs (e - P)
    if (rl.bits = rh.bits ∧ (0 < lo ∨ hi < 0)) ∨ t = [] then ⟨rl.bits, rl.flags ||| rh.flags ||| fNX⟩
    else roundCos f b a0 g e t

/-- The precisions tried; the last lies beyond the distance of any part from a rounding boundary (log 30). -/
def precisions : List Nat := [128, 512, 2048, 16384, 262144]

/-- The real or imaginary part of a sum times 2^sh, rounded once (R283). -/
def roundPart (f : FF) (b : Nat) (c : Array Int) (e : Int) (im : Bool) (sh : Int) : Rnd :=
  let h := b / 2
  let q := b / 4
  let (a0, g) :=
    if im then (c.getD q 0, (List.range q).map fun n => if n = 0 then 0 else c.getD (q - n) 0 + c.getD (q + n) 0)
    else (c.getD 0 0, (List.range q).map fun m => if m = 0 then 0 else c.getD m 0 - c.getD (h - m) 0)
  if g.all fun x => x == 0 then f.roundFin .rne (a0 < 0) a0.natAbs (e + sh) else roundCos f b a0 g (e + sh) precisions

/-- The packed bins of a segment (R283). -/
def forward (f : FF) (xs : List FV) : List Rnd :=
  let b := xs.length
  let sum (k : Nat) : Array Int × Int := coords b (xs.zipIdx.map fun p => (p.1, -((k * p.2 : Nat) : Int)))
  (List.range (b / 2)).flatMap fun k =>
    let (c, e) := sum k
    let (d, e') := sum (b / 2)
    [roundPart f b c e false 0, if k = 0 then roundPart f b d e' false 0 else roundPart f b c e true 0]

/-- The elements of a segment from its bins (R283). -/
def inverse (f : FF) (vs : List FV) : List Rnd :=
  let b := vs.length
  let v (i : Nat) : FV := vs.getD i (.fin false 0 0)
  let q : Int := (b / 4 : Nat)
  (List.range b).map fun t =>
    let ts : List Term := (v 0, 0) :: (v 1, ((b / 2 * t : Nat) : Int)) ::
      (List.range (b / 2)).flatMap fun k =>
        if k = 0 then []
        else
          let kt : Int := (k * t : Nat)
          [(v (2 * k), kt), (v (2 * k + 1), kt + q), (v (2 * k), -kt), ((v (2 * k + 1)).neg, q - kt)]
    let (c, e) := coords b ts
    roundPart f b c e false (-(Nat.log2 b : Int))

/-- A segment's transform with R283's fate of NaNs and infinities, and MNV for the NaNs written (R45). -/
def transform (f : FF) (inv : Bool) (xs : List FV) : List Nat × Flags :=
  let bad (v : FV) : Bool := match v with
    | .fin .. => false
    | _ => true
  if xs.any bad then
    (xs.map fun _ => f.nanBits, fMNV ||| (if xs.any FV.isNan then 0 else fNV))
  else
    let rs := if inv then inverse f xs else forward f xs
    (rs.map (·.bits), rs.foldl (fun g r => g ||| r.flags) 0)

/-! ### Tiles -/

/-- Represented values of a tile's elements times 2^sh, in the tile's format (R48). -/
def State.resolveTile (s : State) (k : Who) (h : Nat) (e : Ste) (p tx ty : Nat) (sh : Int) : Except Halt (State × Flags) :=
  landElems (fun s i => do
    let x := 8 * tx + i % 8
    let y := 8 * ty + i / 8
    let (v, s) ← s.elemRead k h e p x y
    let (v, fl) := resolveElem e.fmt sh v
    let s ← s.elemWrite k h e p x y v
    .ok (s, fl)) s 0 (List.range 64)

/-- XSCL on one tile (R48). -/
def State.scaleTile (s : State) (k : Who) (h : Nat) (e : Ste) (p tx ty : Nat) (d : Int) : Except Halt (State × Flags) := do
  let fits (i : Int) : Bool := -128 ≤ i && i ≤ 127
  let idx := e.tileIdx p tx ty
  let t ← s.tmapTo k.core k.ctx e idx
  if fits (t.exp + d) then .ok (← s.putTmap k.core k.ctx e idx { t with exp := t.exp + d }, 0)
  else
    let (s, f1) ← s.resolveTile k h e p tx ty t.exp
    if fits d then .ok (← s.putTmap k.core k.ctx e idx { t with exp := d }, f1)
    else
      let (s, f2) ← s.resolveTile k h e p tx ty d
      .ok (← s.putTmap k.core k.ctx e idx { t with exp := 0 }, f1 ||| f2)

/-- Resolve several tiles of one row by their own exponents. -/
def State.resolveTiles (s : State) (k : Who) (h : Nat) (e : Ste) (p ty : Nat) : List Nat → Except Halt (State × Flags)
  | [] => .ok (s, 0)
  | tx :: r => do
    let t ← s.tmapTo k.core k.ctx e (e.tileIdx p tx ty)
    let (s, f) ← s.resolveTile k h e p tx ty t.exp
    let s ← s.putTmap k.core k.ctx e (e.tileIdx p tx ty) { t with exp := 0 }
    let (s, g) ← s.resolveTiles k h e p ty r
    .ok (s, f ||| g)

/-- Set domain and exponent of tiles of one row. -/
def State.tagTiles (s : State) (k : Who) (e : Ste) (p ty : Nat) (freq : Bool) (ex : Int) : List Nat → Except Halt State
  | [] => .ok s
  | tx :: r => do
    let t ← s.tmapTo k.core k.ctx e (e.tileIdx p tx ty)
    let s ← s.putTmap k.core k.ctx e (e.tileIdx p tx ty) { t with freq := freq, exp := ex }
    s.tagTiles k e p ty freq ex r

/-- One block of elements on the eight rows of a tile row: XFWD or XINV (R283). -/
def State.transformBlock (s : State) (k : Who) (core h : Nat) (e : Ste) (p xb ty : Nat) (inv : Bool) :
    Except Halt (State × Flags) := do
  let b := e.block
  let ff := (ffOf e.fmt).getD .fp32
  let txs := ((List.range (b / 8)).map fun i => xb / 8 + i).filter fun tx => tx < tilesAlong e.dim0
  if txs.isEmpty || tilesAlong e.dim1 ≤ ty || e.planes ≤ p then .ok (s, 0)
  else
    let s := txs.foldl (fun s tx => s.touchAt core k.ctx h e p (8 * tx) (8 * ty)) s
    let ts ← s.windowTags k.core k.ctx e p (txs.map fun tx => (tx, ty))
    let exps := ts.map (·.exp)
    let mixed := !inv && exps.eraseDups.length != 1
    let (s, f0) ← if mixed then s.resolveTiles k h e p ty txs else .ok (s, 0)
    let keep := if inv || mixed then (0 : Int) else exps.headD 0
    let row (s : State) (r : Nat) : Except Halt (State × Flags) := do
      let y := 8 * ty + r
      let (xs, s) ← collect (fun s i => do
        let (v, s) ← s.elemRead k h e p (xb + i) y
        let x := ff.decode v
        .ok (if inv then x.scale (exps.getD (i / 8) 0) else x, s)) s (List.range b)
      let (out, fl) := transform ff inv xs
      landElems (fun s i => do
        let s ← s.elemWrite k h e p (xb + i) y (out.getD i 0)
        .ok (s, if i = 0 then fl else 0)) s 0 (List.range b)
    let (s, f1) ← landElems row s 0 ((List.range 8).filter fun r => 8 * ty + r ≤ e.dim1)
    let s ← s.tagTiles k e p ty (!inv) keep txs
    .ok (s, f0 ||| f1)

/-! ### Operations in flight (R285) -/

/-- A Grinder operation's work on its whole window. -/
def State.grindWork (s : State) (k : Who) (q : Grind) : Except Halt (State × Flags × Nat) := do
  let e ← descOf q.descs q.h
  let ts := e.windowTiles q.p q.x0 q.y0 q.w q.ht
  if q.op = 3 then
    let (s, fl) ← landElems (fun s i =>
      let t := ts.getD i (0, 0)
      (s.touchAt q.core k.ctx q.h e q.p (8 * t.1) (8 * t.2)).scaleTile k q.h e q.p t.1 t.2 q.d) s 0 (List.range ts.length)
    .ok (s, fl, ts.length)
  else
    let n := q.w / e.block
    let (s, fl) ← landElems (fun s i =>
      s.transformBlock k q.core q.h e q.p (q.x0 + i % n * e.block) (q.y0 / 8 + i / n) (q.op == 1)) s 0
      (List.range (n * (q.ht / 8)))
    .ok (s, fl, ts.length)

/-- GRINDER_COMPLETE (R285): the tiles are written, the flags reach the group (R45), the range and USE are released, and the
tiles' bytes lower the barrier (R303). -/
def execGrinderComplete (op : Nat) (s : State) : Out :=
  .next (match s.grinds.find op with
    | none => s
    | some q =>
      if anyPending q.tokens || (s.core q.core).blocked op op || (q.bar.isSome && !s.lowerReady q.gid op) then s
      else if anyInvalid q.tokens then s.invalidEngine q.ctx q.core q.blk q.pc q.tokens
      else
        let k := s.whoOf q.core q.ctx q.gid
        let r : Except Halt State := do
          let e ← descOf q.descs q.h
          let (s, fl, n) ← s.grindWork k q
          let s ← s.addUse k.core q.ctx false q.uses
          let s := (({ s with grinds := s.grinds.erase op }).unlock q.core op).addFlags q.gid q.pc fl (some q.born)
          .ok ((List.range n).foldl (fun s _ => s.lowerFor q.core q.bar (8 * e.elemBits)) s)
        match r with
        | .ok s => s
        | .error h =>
          let (t, s) := s.haltEngine k q.core q.blk q.pc h
          { s with grinds := s.grinds.modify op fun q => { q with tokens := t.toList } })

/-- A Grinder instruction's checks (R283, R284): its entry and range. -/
def State.planGrind (s : State) (k : Who) (va : Dword) (wh : Word) (op : Nat) : Except Nope Plan := do
  let (h, p, x, y) := winParts va
  let w := (wh.extractLsb' 0 16).toNat
  let ht := (wh.extractLsb' 16 16).toNat
  s.toRaise k h
  let e ← s.spectral k h
  need 0x01 (x % e.block == 0 && w % e.block == 0 && y % 8 == 0 && ht % 8 == 0 && w != 0 && ht != 0)
  if op != 3 then s.needDomain k e p (e.windowTiles p x y w ht) (op == 1)
  .ok ⟨[windowReg k.ctx h e p x y w ht true], [h], keep h e⟩

/-- XFWD, XINV and XSCL enter the Grinders: USE is raised and the window registered; no counter rises (R262, R285). -/
def grind (op : Nat) (o : EOps) (s : State) : Out :=
  s.kernelOnly fun x =>
    if badUniform x.g .i64 o.a || badUniform x.g .w32 o.b || badUniform x.g .w32 o.c || (op == 3 && badUniform x.g .w32 o.d) then
      s.illegal x
    else
      let va := s.readUni x o.lit .i64 o.a
      let wh : Word := (s.readUni x o.lit .w32 o.b).setWidth 32
      let d : Word := if op = 3 then (s.readUni x o.lit .w32 o.d).setWidth 32 else 0
      match s.planGrind (s.who x.g) va wh op with
      | .error n => s.nope x n
      | .ok p =>
        match s.barOperand x o.lit o.c with
        | none => s.illegal x
        | some bar =>
          let core := x.g.core
          if !(s.core core).room 1 then s
          else
            match s.addUse (some core) x.g.ctx true p.uses with
            | .error h => s.haltEx x h .hw
            | .ok s =>
              let (id, s) := s.fresh
              let (h, pl, x0, y0) := winParts va
              let q : Grind :=
                { gid := x.gid, core := core, ctx := x.g.ctx, blk := x.g.blk, op := op, h := h, p := pl, x0 := x0, y0 := y0,
                  w := (wh.extractLsb' 0 16).toNat, ht := (wh.extractLsb' 16 16).toNat, d := d.toInt, bar := bar,
                  uses := p.uses, descs := p.descs, pc := x.sp.pc, born := x.g.icount }
              let s := s.register (s.who x.g) core id p.regs
              ({ s with grinds := s.grinds.insert id q }).finish x

/-- XFWD (R283). -/
def execXfwd (o : EOps) (s : State) : Out := grind 0 o s
/-- XINV (R283). -/
def execXinv (o : EOps) (s : State) : Out := grind 1 o s
/-- XSCL (R284). -/
def execXscl (o : EOps) (s : State) : Out := grind 3 o s

/-- XDOM (R284). -/
def execXdom (o : EOps) (s : State) : Out :=
  s.kernelOnly fun x =>
    if badUniform x.g .i64 o.a || badDst x.g false o.d then s.illegal x
    else
      let k := s.who x.g
      let (h, p, x0, y0) := winParts (s.readUni x o.lit .i64 o.a)
      match s.spectral k h with
      | .error n => s.nope x n
      | .ok e =>
        let tx := x0 / 8
        let ty := y0 / 8
        let put (v : Nat) : State := (s.modGroup x.gid fun g => g.writeOnce x o.d (BitVec.ofNat 64 v)).finish x
        if tilesAlong e.dim0 ≤ tx || tilesAlong e.dim1 ≤ ty || e.planes ≤ p then put 0
        else
          match s.tmap k.core k.ctx e (e.tileIdx p tx ty) with
          | .error z => s.haltEx x z .read
          | .ok t =>
            put ((t.exp % 256).toNat + (if t.freq then 256 else 0) + (if t.away then 1024 else 0))

end Sys2Proof.Machine
end

