-- ==== Sys2Proof/Machine/Barista.lean ====
section
/-! DEFINITION. Barista (R103–R119): expert tables and entries, the expert instructions EROUTE, EDONE, EMERGE, EQRY
(R286–R290), windows, replication, draining, retirement and merges. -/

namespace Sys2Proof.Machine

/-! ### Tables and entries (R104, R105) -/

/-- A replica of an entry. -/
structure Rep where
  state : Nat
  die : Nat
  slot : Nat
deriving DecidableEq, Repr

/-- An expert entry. -/
structure ExpEntry where
  version : Word
  mpend : BitVec 8
  reps : List Rep
deriving DecidableEq, Repr

def Rep.of (v : Nat) : Rep := ⟨v / 2 ^ 22 % 4, v / 2 ^ 19 % 8, v / 2 ^ 7 % 2 ^ 12⟩
def Rep.bits (r : Rep) : Nat := r.state * 2 ^ 22 + r.die * 2 ^ 19 + r.slot * 2 ^ 7

def ExpEntry.of (bs : List Byte) : ExpEntry :=
  { version := BitVec.ofNat 32 (bytesToNat (bs.take 4)), mpend := bs.getD 4 0,
    reps := (List.range 8).map fun i => Rep.of (bytesToNat ((bs.drop (8 + 3 * i)).take 3)) }

def ExpEntry.bytes (e : ExpEntry) : List Byte :=
  natToBytes 4 e.version.toNat ++ [e.mpend] ++ natToBytes 3 0 ++ e.reps.flatMap fun r => natToBytes 3 r.bits

/-- Replica i. -/
def ExpEntry.rep (e : ExpEntry) (i : Nat) : Rep := e.reps.getD i ⟨0, 0, 0⟩

/-- Replica indices in a state, ascending. -/
def ExpEntry.inState (e : ExpEntry) (st : Nat) : List Nat := (List.range 8).filter fun i => (e.rep i).state == st

/-- The entry with one replica changed. -/
def ExpEntry.setRep (e : ExpEntry) (i : Nat) (r : Rep) : ExpEntry := { e with reps := e.reps.set i r }

/-- Base address of a table. -/
def ExpTable.addr (t : ExpTable) : Nat := (t.base &&& 0x000FFFFFFFFFF000).toNat

/-- Barista's own accesses: through the context's translation, whatever the mapping grants (log 31). -/
def ExpTable.who (t : ExpTable) : Who := ⟨none, t.ctx, true⟩

/-- A doubleword of a table's header; a caller takes its fields and looks at no reserved bit (log 93). -/
def State.expHead (s : State) (t : ExpTable) (k : Who) (off : Nat) : Except Halt Dword :=
  match s.mapRange k .hwRead 2 (t.addr + off) 8 with
  | .error h => .error h
  | .ok ps => (s.readParts (t.addr + off) ps).map fun r => BitVec.ofNat 64 (bytesToNat r.1)

/-- Bytes of an expert entry. -/
def State.expBytes (s : State) (t : ExpTable) (k : Who) (w : Want) (e : Nat) : Except Halt (List Byte) :=
  match s.mapRange k w 2 (t.addr + 0x1100 + 32 * e) 32 with
  | .error h => .error h
  | .ok ps => (s.readParts (t.addr + 0x1100 + 32 * e) ps).map (·.1)

def State.expEntry (s : State) (t : ExpTable) (e : Nat) : Except Halt ExpEntry := (s.expBytes t t.who .hwRead e).map ExpEntry.of

/-- Write an entry with the version raised by 1 (R105). -/
def State.putExp (s : State) (t : ExpTable) (e : Nat) (x : ExpEntry) : Except Halt State :=
  s.engineWrite t.who .hw (t.addr + 0x1100 + 32 * e) ({ x with version := x.version + 1 }).bytes

/-- A slot's bit in the bitmap of a die. -/
def State.slotUsed (s : State) (t : ExpTable) (d j : Nat) : Except Halt Bool :=
  match s.mapRange t.who .hwRead 2 (t.addr + 0x100 + 512 * d + j / 8) 1 with
  | .error h => .error h
  | .ok ps => (s.readParts 0 ps).map fun r => (r.1.headD 0).getLsbD (j % 8)

/-- Set or clear a slot's bit. -/
def State.markSlot (s : State) (t : ExpTable) (d j : Nat) (used : Bool) : Except Halt State := do
  let a := t.addr + 0x100 + 512 * d + j / 8
  let ps ← s.mapRange t.who .hw 2 a 1
  let (bs, s) ← s.readParts a ps
  let m : Byte := BitVec.ofNat 8 (2 ^ (j % 8))
  let b := bs.headD 0
  s.engineWrite t.who .hw a [if used then b ||| m else b &&& ~~~m]

/-- NSLOT of a die and the address of slot j of its weight pool. -/
def State.weightPool (s : State) (t : ExpTable) (d : Nat) : Except Halt (Nat × Nat) :=
  (s.expHead t t.who (8 + 8 * d)).map fun v => (bits v 63 52, bits v 51 0)

/-! ### Counters (R106) -/

def ExpTable.ctr (t : ExpTable) (e : Nat) : ExpCtr := KV.get {} t.ctrs e
def ExpTable.modCtr (t : ExpTable) (e : Nat) (f : ExpCtr → ExpCtr) : ExpTable := { t with ctrs := t.ctrs.insert e (f (t.ctr e)) }
def ExpCtr.inflOf (c : ExpCtr) (i : Nat) : Nat := c.infl.getD i 0
def ExpCtr.isClosed (c : ExpCtr) (i : Nat) : Bool := c.closed.getD i false

/-- A count that saturates at 2^32 − 1. -/
def satCount (n : Nat) : Nat := min (n + 1) (2 ^ 32 - 1)

/-- A token is counted on replica i (R108). -/
def ExpCtr.routed (c : ExpCtr) (i : Nat) : ExpCtr :=
  { c with load := satCount c.load, rload := c.rload.modify i satCount, infl := c.infl.modify i (· + 1) }

/-! ### EROUTE (R108, R110, R286–R288) -/

/-- The number of a core of this package among registered cores. -/
def State.coreName (s : State) (core : Nat) : Nat := 320 * s.pkg.pkgid + core

/-- Reads of a table's entries by a core: each is a request to the L2 (R373, log 70). -/
def State.countReads (s : State) (core n : Nat) : State := s.modCore core fun c => c.countBy 5 n

/-- The snapshot of an entry by a core: its cached copy, or the sector, which a registered core then caches (R110). -/
def State.snapshot (s : State) (T core e : Nat) : Except Halt (ExpEntry × State) :=
  let t := s.table T
  match (s.core core).experts.find? fun c => c.table == T && c.expert == e with
  | some c => .ok (ExpEntry.of c.bytes, s)
  | none =>
    match s.expBytes t ⟨some core, t.ctx, true⟩ .read e with
    | .error h => .error h
    | .ok bs =>
      let s := s.countReads core 1
      let s := if t.regs.contains (s.coreName core) then
          s.modCore core fun c => { c with experts := c.experts ++ [⟨T, e, bs⟩] }
        else s
      .ok (ExpEntry.of bs, s)

/-- A core's cached copy of an entry goes. -/
def State.dropExpert (s : State) (T core e : Nat) : State :=
  s.modCore core fun c => { c with experts := c.experts.filter fun x => !(x.table == T && x.expert == e) }

/-- A version u is at least v in serial order (R105). -/
def verAtLeast (u v : Word) : Bool := (u - v).toNat < 2 ^ 31

/-- A route descriptor (R286). -/
def routeDesc (e i : Nat) (x : ExpEntry) : Dword :=
  fld (x.rep i).slot 50 ||| fld (x.rep i).die 47 ||| fld i 44 ||| fld e 32 ||| x.version.setWidth 64

/-- One attempt to route a lane (R108): the descriptor, or none where it must wait. A cached copy that is too old or closed
is read again. -/
def State.routeOnce (s : State) (T core : Nat) (w : RouteWait) (fresh : Bool) : Except Halt (Option Dword × State) := do
  let s := if fresh then s.dropExpert T core w.expert else s
  let (x, s) ← s.snapshot T core w.expert
  let live := x.inState 1
  let old : Bool := match w.minver with
    | some v => !verAtLeast x.version v
    | none => false
  match live[w.token.toNat % live.length]? with
  | none => .ok (none, s)
  | some i =>
    let c := (s.table T).ctr w.expert
    if old || c.isClosed i || 32767 ≤ c.inflOf i then .ok (none, s)
    else .ok (some (routeDesc w.expert i x), s.modTable T fun t => t.modCtr w.expert fun c => c.routed i)

/-- Route a lane: on the cached copy, then on the sector itself. -/
def State.routeLane (s : State) (T core : Nat) (w : RouteWait) : Except Halt (Option Dword × State) := do
  let (r, s1) ← s.routeOnce T core w false
  if r.isSome then .ok (r, s1) else s.routeOnce T core w true

/-- Route the lanes that wait, each operation's lanes in their order (R108): after a count falls or a version is published, also
while EN is 0 (log 99). -/
def State.routeWaits (s : State) (T : Nat) : List RouteWait → List Nat → State
  | [], _ => s
  | w :: r, stuck =>
    if stuck.contains w.flight then s.routeWaits T r stuck
    else
      match s.group w.gid with
      | none => (s.modTable T fun t => { t with waits := t.waits.erase w }).routeWaits T r stuck
      | some g =>
        match s.routeLane T g.core w with
        | .ok (some d, s) =>
          let s := s.modTable T fun t => { t with waits := t.waits.erase w }
          ((s.acquire g.core 5).returnPart w.gid w.flight
            [⟨false, w.dst, w.lane, d.extractLsb' 0 32⟩, ⟨false, w.dst + 1, w.lane, d.extractLsb' 32 32⟩] 0).routeWaits T r stuck
        | _ => s.routeWaits T r (w.flight :: stuck)

/-- Waiting lanes try again. -/
def State.reroute (s : State) (T : Nat) : State := s.routeWaits T (s.table T).waits []

/-- The cores that the engine of a table keeps: those of the eight tables of its stack (R103, R110). -/
def State.engineCores (s : State) (T : Nat) : List Nat :=
  ((List.range 8).flatMap fun i => (s.table (T / 8 * 8 + i)).regs).eraseDups

/-- A core, by package and number, registers with a table; an engine keeps up to 1,024 (R110). -/
def State.registerName (s : State) (T k : Nat) : State :=
  let all := s.engineCores T
  if (s.table T).regs.contains k || (1024 ≤ all.length && !all.contains k) then s
  else s.modTable T fun t => { t with regs := t.regs ++ [k] }

/-- A core of this package registers with a table (R110). -/
def State.registerCore (s : State) (T core : Nat) : State := s.registerName T (s.coreName core)

/-- A core on which no group of a context remains resident leaves its tables' lists (R110). -/
def State.deregister (s : State) (ctx core : Nat) : State :=
  if s.groups.any fun e => e.2.on core && e.2.ctx == ctx then s
  else
    let k := s.coreName core
    let out (t : ExpTable) : ExpTable :=
      if t.ctx = ctx then { t with regs := t.regs.filter fun r => r != k, notices := t.notices.filter fun n => n.core != k } else t
    let mine (T : Nat) : Bool := (s.table T).ctx == ctx
    { s with tables := s.tables.map fun _ t => out t }.modCore core fun c =>
      { c with experts := c.experts.filter fun x => !mine x.table }

/-- The checks that the expert instructions share (R287): the table serves the issuer's context; lanes that name no expert.
`reads` gives the expert of a lane, none where its descriptor is malformed. -/
def State.expertCheck (s : State) (x : Ex) (T : Nat) (ls : List Nat) (expert : Nat → Option Nat) : Option State :=
  let t := s.table T
  if !t.en || t.ctx != x.g.ctx then some (s.illegal x)
  else
    let bad := ls.filter fun l => match expert l with
      | some e => t.nexp < e
      | none => true
    if bad != [] then some (s.trap x 0x01 (maskOf bad) 0) else none

/-- The table of an expert instruction. -/
def tableOf (o : EOps) : Nat := (o.minor.extractLsb' 8 4).toNat

/-- Every entry that lanes will read is mapped: a miss stops the instruction before any effect. -/
def State.expReach (s : State) (T core : Nat) : List Nat → Option Halt
  | [] => none
  | e :: r =>
    match s.expBytes (s.table T) ⟨some core, (s.table T).ctx, true⟩ .read e with
    | .error h => some h
    | .ok _ => s.expReach T core r

/-- The lanes of an EROUTE in ascending order; once a lane waits, the later ones wait behind it. -/
def State.routeAll (s : State) (T core : Nat) (stuck : Bool) : List RouteWait → State
  | [] => s
  | w :: r =>
    let wait (s : State) : State :=
      (s.modTable T fun t => { t with waits := t.waits ++ [w] }).modGroup w.gid fun g =>
        g.modFlight w.flight fun f => { f with left := f.left + 1 }
    if stuck then (wait s).routeAll T core true r
    else
      match s.routeLane T core w with
      | .ok (some d, s) =>
        (s.modGroup w.gid fun g => if w.dst < 0xC0 then g.writeV64 w.dst w.lane d else g).routeAll T core false r
      | _ => (wait s).routeAll T core true r

/-- EROUTE (R108, R288). -/
def execEroute (o : EOps) (s : State) : Out :=
  let T := tableOf o
  let retry := o.minor.getLsbD 1
  s.kernelOnly fun x =>
    let expert (l : Nat) : Nat := (s.readSrc x o.lit .w32 o.b l).toNat
    if (o.d != 0xF0 && !isVec o.d) || badDst x.g true o.d || badSrc x.g .w32 o.a || badSrc x.g .w32 o.b || (retry && badSrc x.g .w32 o.c) then
      s.illegal x
    else
      match s.expertCheck x T x.list fun l => some (expert l) with
      | some t => t
      | none =>
        match s.expReach T x.g.core (x.list.map expert) with
        | some h => s.haltEx x h .read
        | none =>
          let (id, s) := (s.registerCore T x.g.core).openFlight x .at
          let ws : List RouteWait := x.list.map fun l =>
            { gid := x.gid, flight := id, lane := l, token := (s.readSrc x o.lit .w32 o.a l).setWidth 32, expert := expert l,
              minver := if retry then some ((s.readSrc x o.lit .w32 o.c l).setWidth 32) else none, dst := o.d.toNat }
          let s := (s.routeAll T x.g.core false ws).acquire x.g.core 5
          ((s.closeFlight x.gid (some id)).settleAt x.gid).finish x

/-! ### EDONE, EQRY (R109, R111, R290) -/

/-- A malformed or out-of-range descriptor has no expert (R287). -/
def descExpert (d : Dword) : Option Nat := if bits d 63 62 ≠ 0 then none else some (bits d 43 32)

/-- Slots of retired replicas whose counts have fallen to 0 are freed (R118), those of a disabled table whatever the counts
(R107); one that cannot be written now stays. -/
def State.freeSlots (s : State) (T : Nat) : List (Nat × Nat) → State
  | [] => s
  | (e, i) :: r =>
    let t := s.table T
    let done : Except Halt State := do
      let x ← s.expEntry t e
      s.markSlot t (x.rep i).die (x.rep i).slot false
    if t.en && (t.ctr e).inflOf i ≠ 0 then s.freeSlots T r
    else
      match done with
      | .ok s => (s.modTable T fun t => { t with freeing := t.freeing.filter fun p => p != (e, i) }).freeSlots T r
      | .error _ => s.freeSlots T r

/-- INFL falls by one, not below 0 (R106, R109). -/
def ExpTable.lower (t : ExpTable) (e i : Nat) : ExpTable :=
  if (t.ctr e).inflOf i = 0 then { t with under := true } else t.modCtr e fun c => { c with infl := c.infl.modify i (· - 1) }

/-- EDONE (R109, R288). -/
def execEdone (o : EOps) (s : State) : Out :=
  let T := tableOf o
  s.kernelOnly fun x =>
    let desc (l : Nat) : Dword := s.readSrc x o.lit .i64 o.a l
    if badSrc x.g .i64 o.a then s.illegal x
    else
      match s.expertCheck x T x.list fun l => descExpert (desc l) with
      | some t => t
      | none =>
        let under := (s.table T).under
        let s := s.modTable T fun t => x.list.foldl (fun t l => t.lower (bits (desc l) 43 32) (bits (desc l) 46 44)) { t with under := false }
        let s := if (s.table T).under then s.log .barista T 14 else s
        let s := s.modTable T fun t => { t with under := t.under || under }
        let s := (s.freeSlots T (s.table T).freeing).reroute T
        (s.passAt x).finish x

/-- EQRY's result (R111, R290). -/
def eqryOf (d : Dword) (x : ExpEntry) : Dword :=
  let r := x.rep (bits d 46 44)
  let takes := (r.state == 1 || r.state == 2) && r.slot == bits d 61 50
  fld r.state 33 ||| bit takes 32 ||| x.version.setWidth 64

/-- EQRY (R290). -/
def execEqry (o : EOps) (s : State) : Out :=
  let T := tableOf o
  s.kernelOnly fun x =>
    let once := isScalar o.d
    let ls := if once then [lowLane x.lanes] else x.list
    let desc (l : Nat) : Dword := s.readSrc x o.lit .i64 o.a l
    if badDst x.g true o.d || badSrc x.g .i64 o.a || (once && !isUniform o.a) then s.illegal x
    else
      match s.expertCheck x T ls fun l => descExpert (desc l) with
      | some t => t
      | none =>
        match s.expReach T x.g.core (ls.map fun l => bits (desc l) 43 32) with
        | some h => s.haltEx x h .read
        | none =>
          let val (l : Nat) : Dword :=
            match s.expBytes (s.table T) ⟨some x.g.core, x.g.ctx, true⟩ .read (bits (desc l) 43 32) with
            | .ok bs => eqryOf (desc l) (ExpEntry.of bs)
            | .error _ => 0
          (((s.countReads x.g.core ls.length).acquire x.g.core 5).modGroup x.gid fun g =>
            ls.foldl (fun g l => g.writeDst true o.d l (val l)) g).finish x

/-! ### Merges (R119, R289) -/

/-- EMERGE (R289): the merge reaches the table's Barista engine. -/
def execEmerge (o : EOps) (s : State) : Out :=
  let T := tableOf o
  s.kernelOnly fun x =>
    if badUniform x.g .w32 o.a then s.illegal x
    else
      let e := (s.readUni x o.lit .w32 o.a).toNat
      if !(s.table T).train then s.illegal x
      else
        match s.expertCheck x T x.list fun _ => some e with
        | some t => t
        | none =>
          if (s.table T).nexp < e then s.illegal x
          else
            let (id, s) := s.openFlight x .at
            (s.modTable T fun t => { t with merges := t.merges ++ [⟨x.gid, id, e, x.sp.pc⟩] }).finish x

/-- One element's sum (R119): the replicas' values added in order, one rounding each. -/
def mergeElem (h : Nat) (gs : List Nat) : Nat × Flags :=
  gs.foldl (fun r g =>
    let t := FF.fp32.add .rne (FF.fp32.decode r.1) (FF.fp32.decode g)
    (t.bits, r.2 ||| t.flags)) (h, 0)

/-- Doublewords of four-byte elements. -/
def elems32 (bs : List Byte) (n : Nat) : List Nat := (List.range n).map fun i => bytesToNat ((bs.drop (4 * i)).take 4)

/-- Read the gradient buffers of replicas and leave +0.0 in them. -/
def State.takeGrads (s : State) (k : Who) (n : Nat) : List Nat → Except Halt (List (List Nat) × State)
  | [] => .ok ([], s)
  | a :: r => do
    let (bs, s) ← s.engineRead k a (4 * n)
    let s ← s.engineWrite k .write a (List.replicate (4 * n) 0)
    let (t, s) ← s.takeGrads k n r
    .ok (elems32 bs n :: t, s)

/-- Clear bits of slots. -/
def State.freeReps (s : State) (t : ExpTable) (x : ExpEntry) : List Nat → Except Halt State
  | [] => .ok s
  | i :: r => do
    let s ← s.markSlot t (x.rep i).die (x.rep i).slot false
    s.freeReps t x r

/-- A merge's work (R119): flags, the entry written, slots freed. -/
def State.mergeWork (s : State) (T e : Nat) : Except Halt (State × Flags) := do
  let t := s.table T
  let k := t.who
  let x ← s.expEntry t e
  let n := bits (← s.expHead t k 0) 63 32 / 4
  let gbytes := 4 * n
  let addr (i : Nat) : Except Halt Nat :=
    (s.expHead t k (0x48 + 8 * (x.rep i).die)).map fun v => bits v 51 0 + (x.rep i).slot * gbytes
  let sum := (List.range 8).filter fun i => i != 0 && ((x.rep i).state == 1 || (x.rep i).state == 2 || x.mpend.getLsbD i)
  let ha ← addr 0
  let as ← sum.mapM addr
  let (hb, s) ← s.engineRead k ha gbytes
  let (gs, s) ← s.takeGrads k n as
  let rs := (elems32 hb n).zipIdx.map fun p => mergeElem p.1 (gs.map fun g => g.getD p.2 0)
  let s ← s.engineWrite k .write ha (rs.flatMap fun r => natToBytes 4 r.1)
  let done := sum.filter fun i => x.mpend.getLsbD i && (t.ctr e).inflOf i = 0
  let m := done.foldl (fun (m : BitVec 8) i => m &&& ~~~(BitVec.ofNat 8 (2 ^ i))) x.mpend
  let s ← s.freeReps t x done
  let s ← s.putExp t e { x with mpend := m }
  .ok (s, rs.foldl (fun f r => f ||| r.2) 0)

/-- Notices of a new version to every registered core, to those of other packages over Thrumri (R110, R378); lanes that wait for a
version try again (R108). -/
def State.notify (s : State) (T e : Nat) (v : Word) : State :=
  let away := (s.table T).regs.filter fun c => c / 320 != s.pkg.pkgid
  ((s.modTable T fun t => { t with notices := t.notices ++ t.regs.map fun c => ⟨c, e, v, none⟩ }).send
    (away.map fun c => ⟨s.pkg.pkgid, c / 320 * 2 ^ 42, .notice T (c % 320) e v⟩)).reroute T

/-- Barista's own work halts: its page is requested; other halts are fatal to the table's context. -/
def State.haltTable (s : State) (T pc : Nat) (h : Halt) : State :=
  let t := s.table T
  let unit := Config.unitCore.toNat
  match h with
  | .miss m =>
    let (k, s) := s.engineToken t.who m unit
    s.modTable T fun t => { t with tokens := [k] }
  | .fatal c va => s.engineFatal t.ctx unit pc c va
  | _ => s.engineFatal t.ctx unit pc 0x10 0

/-- What stands before Barista's own work on a table: a pending page holds it, an invalid reply is fatal (log 31). -/
def State.onTable (s : State) (T : Nat) (f : State → Except Halt State) : State :=
  let t := s.table T
  if anyPending t.tokens then s
  else if anyInvalid t.tokens then
    (s.modTable T fun t => { t with tokens := [] }).engineFatal t.ctx Config.unitCore.toNat 0 0x10
      ((t.tokens.map (·.va)).headD 0)
  else
    match f s with
    | .ok s => s.modTable T fun t => { t with tokens := [] }
    | .error h => s.haltTable T 0 h

/-- MERGE_COMPLETE (R119, R289): the oldest merge of a table. -/
def execMergeComplete (T : Nat) (s : State) : Out :=
  .next (match (s.table T).merges with
    | [] => s
    | m :: r => s.onTable T fun s => do
      let x ← s.expEntry (s.table T) m.expert
      let (s, fl) ← s.mergeWork T m.expert
      let s := s.modTable T fun t => { t with merges := r }
      let s := (s.notify T m.expert (x.version + 1)).log .barista T 12
      .ok (s.returnPart m.gid m.flight [] fl))

/-- The EROUTE operations of a core that have still to count a lane on an expert of a table. -/
def State.stillRouting (s : State) (T core e : Nat) : List Nat :=
  ((s.table T).waits.filter fun w => w.expert == e && ((s.group w.gid).any fun g => g.core == core)).map (·.flight)

/-- A core has a notice: its copy is gone, its lanes read the entry again, and it owes the acknowledgement until the operations
that it had issued have counted (R110). -/
def State.haveNotice (s : State) (T core : Nat) (n : Notice) : State :=
  let fl := s.stillRouting T core n.expert
  ((s.dropExpert T core n.expert).modTable T fun t =>
    { t with notices := t.notices.map fun m => if m = n then { m with owed := some fl } else m }).reroute T

/-- A notice that its core can acknowledge now is answered (R110). -/
def State.ackNotice (s : State) (T core : Nat) (n : Notice) : State :=
  let fl := s.stillRouting T core n.expert
  if n.owed.any fun l => !l.any fun f => fl.contains f then s.modTable T fun t => { t with notices := t.notices.erase n } else s

/-- VERSION_NOTICE (R110): a registered core drops its copy, and acknowledges once its earlier EROUTEs have counted
(log 86). -/
def execVersionNotice (T core : Nat) (s : State) : Out :=
  let k := s.coreName core
  .next (match (s.table T).notices.find? fun n => n.core == k with
    | none => s
    | some n =>
      let s := if n.owed.isNone then s.haveNotice T core n else s
      match (s.table T).notices.find? fun n => n.core == k with
      | some n => s.ackNotice T core n
      | none => s)

/-! ### Draining and retirement (R116, R118) -/

/-- Replica i starts to drain (R116). -/
def State.drain (s : State) (T e i : Nat) : Except Halt State := do
  let t := s.table T
  let x ← s.expEntry t e
  let s ← s.putExp t e (x.setRep i { x.rep i with state := 2 })
  let v := x.version + 1
  .ok ((((s.modTable T fun t => { t with drains := t.drains ++ [⟨e, i, v⟩] }).notify T e v)).log .barista T 9)

/-- Replica i becomes RETIRED (R116): a serving table frees its slot, a training table sets MPEND; notices of the version that this
raises go out (R110). -/
def State.retire (s : State) (T e i : Nat) (free : Bool) : Except Halt State := do
  let t := s.table T
  let x ← s.expEntry t e
  let r := x.rep i
  let m := if t.train then x.mpend ||| BitVec.ofNat 8 (2 ^ i) else x.mpend
  let s ← s.putExp t e { (x.setRep i { r with state := 3 }) with mpend := m }
  let s ← if free && !t.train then s.markSlot t r.die r.slot false else .ok s
  .ok (((s.modTable T fun t =>
    { (t.modCtr e fun c => { c with closed := c.closed.set i true }) with
      drains := t.drains.filter fun d => !(d.expert == e && d.rep == i) }).notify T e (x.version + 1)).log .barista T 11)

/-- REPLICA_RETIRE (R116): every notice is acknowledged and the close of INFL finds 0; a table that is disabled completes its
retirements (R107). -/
def execReplicaRetire (T e i : Nat) (s : State) : Out :=
  .next (
    let t := s.table T
    match t.drains.find? fun d => d.expert == e && d.rep == i with
    | none => if t.en then s else s.freeSlots T (t.freeing.filter fun p => p == (e, i))
    | some d =>
      let acked := !t.notices.any fun n => n.expert == e && n.version == d.version
      if t.en && !(acked && (t.ctr e).inflOf i == 0) then s
      else s.onTable T fun s => s.retire T e i true)

/-- A control command whose memory is not mapped is given up and logged (log 32). -/
def State.orLog (s : State) (T : Nat) (r : Except Halt State) : State :=
  match r with
  | .ok s => s
  | .error (.miss m) =>
    ((s.engineToken (s.table T).who m Config.unitCore.toNat).2).log .barista T 0
  | .error _ => s.log .barista T 0

/-! ### Replication (R113–R115) -/

/-- CRC-32C of a byte string continued from a state (R114). -/
def crcByte (c : Word) (b : Byte) : Word :=
  (List.range 8).foldl (fun c _ => if c.getLsbD 0 then (c >>> 1) ^^^ 0x82F63B78 else c >>> 1) (c ^^^ b.setWidth 32)
def crcBytes (c : Word) (bs : List Byte) : Word := bs.foldl crcByte c

/-- The lowest-numbered enabled core of a die. -/
def State.firstCore (s : State) (d : Nat) : Option Nat :=
  ((List.range 40).find? fun i => (s.die d).coreEn.getLsbD i).map fun i => 40 * d + i

/-- Change a copy in progress. -/
def State.modCopy (s : State) (T id : Nat) (f : ExpCopy → ExpCopy) : State :=
  s.modTable T fun t => { t with copies := t.copies.map fun c => if c.id = id then f c else c }

def ExpTable.copy (t : ExpTable) (id : Nat) : Option ExpCopy := t.copies.find? fun c => c.id == id

/-- Chunks of a copy of 64 KiB. -/
def State.slotChunks (s : State) (t : ExpTable) : Except Halt Nat :=
  (s.expHead t t.who 0).map fun v => bits v 31 0 / 65536

/-- Address of a slot. -/
def State.slotAddr (s : State) (t : ExpTable) (d j : Nat) : Except Halt Nat := do
  let w := bits (← s.expHead t t.who 0) 31 0
  let (_, a) ← s.weightPool t d
  .ok (a + j * w)

/-- A copy's halt (R114, R115, R118): a page stalls it; an error in the home slot is fatal to the context, one in the
destination fails the copy. -/
def State.haltCopy (s : State) (T id : Nat) (k : Who) (core : Nat) (source : Bool) (h : Halt) : State :=
  match h with
  | .miss m =>
    let (t, s) := s.engineToken k m core
    s.modCopy T id fun c => { c with tokens := [t] }
  | .fatal 0x11 va =>
    let s := s.modCopy T id fun c => { c with failed := true }
    if source then s.engineFatal k.ctx core 0 0x11 va else s
  | .fatal c va => (s.modCopy T id fun c => { c with failed := true }).engineFatal k.ctx core 0 c va
  | _ => s.modCopy T id fun c => { c with failed := true }

/-- Whether the page of an address lies in the Bean layer, so far as it is mapped (R65). -/
def State.beanAt (s : State) (ctx va : Nat) : Bool :=
  match s.xlate none ctx (va % 2 ^ 52) with
  | .ok m => (match s.place m.pa with
    | .mem c => c < 8 * beanDie
    | _ => false)
  | .error _ => true

/-- REPLICA_COPY_CHUNK (R114): the next 64 KiB, through the copy engine of the target die's first core. A slot with a page that
is now mapped outside the Bean layer is replicated no further (R65). -/
def execReplicaCopyChunk (T id : Nat) (s : State) : Out :=
  .next (
    let t := s.table T
    match t.copy id with
    | none => s
    | some c =>
      if c.failed || c.abandoned || anyPending c.tokens then s
      else if anyInvalid c.tokens then s.modCopy T id fun c => { c with failed := true, tokens := [] }
      else
        let core := (s.firstCore c.die).getD 0
        let k : Who := ⟨some core, t.ctx, true⟩
        let plan : Except Halt (Nat × Nat × Nat) := do
          let n ← s.slotChunks t
          let x ← s.expEntry t c.expert
          let src ← s.slotAddr t (x.rep 0).die (x.rep 0).slot
          let dst ← s.slotAddr t c.die c.slot
          .ok (n, src, dst)
        match plan with
        | .error h => s.haltCopy T id k core false h
        | .ok (n, src, dst) =>
          let o := 65536 * c.chunk
          if n ≤ c.chunk then s
          else if !c.refresh && [src + o, src + o + 65535, dst + o, dst + o + 65535].any (fun a => !s.beanAt t.ctx a) then
            s.modCopy T id fun c => { c with abandoned := true }
          else
            let regs : List Reg := [⟨.global (src + o) (src + o + 65536), false, [(src + o, 65536)]⟩,
              ⟨.global (dst + o) (dst + o + 65536), true, [(dst + o, 65536)]⟩]
            match ((s.register k core id regs).unlock core id).engineRead k (src + o) 65536 with
            | .error h => s.haltCopy T id k core true h
            | .ok (bs, s1) =>
              match s1.engineWrite k .write (dst + o) bs with
              | .error h => s.haltCopy T id k core false h
              | .ok s2 => s2.modCopy T id fun c => { c with chunk := c.chunk + 1, crc := crcBytes c.crc bs, tokens := [] })

/-- What stands before the end of a copy (R115): a pending page of its read-back holds it, an invalid reply fails it. -/
def State.onCopy (s : State) (T : Nat) (c : ExpCopy) (f : State → Except Halt State) : State :=
  if !c.failed && !c.abandoned && anyPending c.tokens then s
  else if !c.failed && !c.abandoned && anyInvalid c.tokens then s.modCopy T c.id fun c => { c with failed := true, tokens := [] }
  else s.onTable T fun s => match f s with
    | .error (.miss m) =>
      if m.hw then .error (.miss m) else .ok (s.haltCopy T c.id (s.table T).who Config.unitCore.toNat false (.miss m))
    | r => r

/-- A copy whose chunks have landed is read back (R114): whether the two CRCs agree; an uncorrectable error there is a failure
(R115) and is not reported as an access to the replica (log 96). -/
def State.verify (s : State) (T : Nat) (c : ExpCopy) : Except Halt (Bool × State) := do
  let t := s.table T
  let n ← s.slotChunks t
  if c.chunk < n then .ok (false, s)
  else
    let dst ← s.slotAddr t c.die c.slot
    match s.engineRead t.who dst (65536 * n) with
    | .ok (bs, s) => .ok (crcBytes 0xFFFFFFFF bs == c.crc, s)
    | .error (.fatal 0x11 _) => .ok (false, s)
    | .error h => .error h

/-- The next replica of a refresh, with its die and slot from the entry. -/
def nextRefresh (c : ExpCopy) (x : ExpEntry) (i : Nat) (rest : List Nat) : ExpCopy :=
  { c with rep := i, die := (x.rep i).die, slot := (x.rep i).slot, chunk := 0, rest := rest, crc := 0xFFFFFFFF, verified := true,
           failed := false, tokens := [] }

/-- A refresh goes on with its next replica; after the last one the version rises once if a replica was verified (R115). -/
def State.refreshOn (s : State) (T : Nat) (c : ExpCopy) (verified : Bool) : Except Halt State := do
  let t := s.table T
  let x ← s.expEntry t c.expert
  match c.rest.filter fun i => (x.rep i).state == 1 with
  | i :: rest => .ok (s.modCopy T c.id fun c => { nextRefresh c x i rest with verified := verified })
  | [] =>
    let s ← if verified then s.putExp t c.expert x else .ok s
    let s := if verified then (s.notify T c.expert (x.version + 1)).log .barista T 10 else s
    .ok (s.modTable T fun t => { t with copies := t.copies.filter fun k => k.id != c.id })

/-- Force-retirement of replica i (R118); one that is EMPTY or RETIRED stays as it is (log 81). -/
def State.forceRetire (s : State) (T e i : Nat) : Except Halt State := do
  let t := s.table T
  let x ← s.expEntry t e
  if (x.rep i).state ≠ 1 ∧ (x.rep i).state ≠ 2 then .ok s
  else
    let quiet := (t.ctr e).inflOf i == 0
    let s ← s.retire T e i quiet
    let s := s.modTable T fun t =>
      { t with freeing := if quiet || t.train then t.freeing else t.freeing ++ [(e, i)] }
    match (s.table T).copies.find? fun c => c.refresh && c.expert == e && c.rep == i with
    | some c => s.refreshOn T c c.verified
    | none => .ok s

/-- BTCMD_FORCE_RETIRE (R107, R118); discarded while EN is 0 (log 79). -/
def execBtcmdForceRetire (T e i : Nat) (s : State) : Out :=
  let t := s.table T
  .next (if !t.en || t.nexp < e || i = 0 || 7 < i then s
    else (s.orLog T (s.forceRetire T e i)).log .barista T 1)

/-- REPLICA_PUBLISH (R114): the CRCs agree; the entry names the new LIVE replica, a release at DOMAIN scope, and notices go
out. A refresh publishes its version once (R115). -/
def execReplicaPublish (T id : Nat) (s : State) : Out :=
  .next (match (s.table T).copy id with
    | none => s
    | some c =>
      if c.failed || c.abandoned then s
      else s.onCopy T c fun s => do
        let (ok, s') ← s.verify T c
        if !ok then .ok s
        else if c.refresh then s'.refreshOn T c true
        else
          let t := s'.table T
          let x ← s'.expEntry t c.expert
          let s' ← s'.putExp t c.expert (x.setRep c.rep ⟨1, c.die, c.slot⟩)
          let s' := s'.modTable T fun t =>
            { (t.modCtr c.expert fun k => { k with closed := k.closed.set c.rep false }) with
              copies := t.copies.filter fun k => k.id != id }
          .ok ((s'.notify T c.expert (x.version + 1)).log .barista T 10))

/-- A failure is counted on the table and on the target die; the third excludes the die (R115). -/
def ExpTable.countFail (t : ExpTable) (d : Nat) : ExpTable :=
  let n := min 3 (t.fail.getD d 0 + 1)
  { t with fails := min 65535 (t.fails + 1), fail := t.fail.set d n
           excl := if n = 3 then t.excl ||| BitVec.ofNat 8 (2 ^ d) else t.excl }

/-- A copy ends without publication: its slot and index are free again (R113, R115). -/
def State.dropCopy (s : State) (T : Nat) (c : ExpCopy) : Except Halt State := do
  let t := s.table T
  let s ← if c.refresh then .ok s else s.markSlot t c.die c.slot false
  .ok (s.modTable T fun t => { t with copies := t.copies.filter fun k => k.id != c.id })

/-- REPLICA_COPY_FAIL (R115): an error, an invalid reply, a CRC mismatch; an abandoned copy only frees its slot. -/
def execReplicaCopyFail (T id : Nat) (s : State) : Out :=
  .next (match (s.table T).copy id with
    | none => s
    | some c => s.onCopy T c fun s => do
      let n ← s.slotChunks (s.table T)
      let (ok, _) ← if c.failed || c.abandoned then .ok (false, s) else s.verify T c
      if !c.failed && !c.abandoned && (c.chunk < n || ok) then .ok s
      else if c.abandoned then s.dropCopy T c
      else
        let s := (s.modTable T fun t => t.countFail c.die).log .barista T 2
        if !c.refresh then s.dropCopy T c
        else
          let x ← s.expEntry (s.table T) c.expert
          let s ← if (x.rep c.rep).state = 1 then s.drain T c.expert c.rep else .ok s
          s.refreshOn T c c.verified)

/-- Abandon the copies of a table (R115): at once, or by REPLICA_COPY_FAIL where memory must first be mapped. -/
def State.abandon (s : State) (T : Nat) : List ExpCopy → State
  | [] => s
  | c :: r =>
    match s.dropCopy T c with
    | .ok s => s.abandon T r
    | .error _ => (s.modCopy T c.id fun c => { c with abandoned := true }).abandon T r

/-- BTCMD_REFRESH (R115): the home slot onto each LIVE non-home replica; discarded while EN is 0 (log 79); whatever COPYMAX
says (log 98). -/
def execBtcmdRefresh (T e : Nat) (s : State) : Out :=
  let t := s.table T
  .next (if !t.en || t.nexp < e then s
    else
      match s.expEntry t e with
      | .error h => s.orLog T (.error h)
      | .ok x =>
        match (x.inState 1).filter fun i => i != 0 with
        | [] => s
        | i :: rest =>
          let (id, s) := s.fresh
          let c : ExpCopy := { id := id, expert := e, rep := i, die := (x.rep i).die, slot := (x.rep i).slot, refresh := true,
                               rest := rest }
          (s.modTable T fun t => { t with copies := t.copies ++ [c] }).log .barista T 3)

/-! ### Windows (R112, R113) -/

/-- The replica index that a replication may take (R113). -/
def ExpTable.freeIndex (t : ExpTable) (e : Nat) (x : ExpEntry) : Option Nat :=
  (List.range 8).find? fun i => i != 0 &&
    ((x.rep i).state == 0 || ((x.rep i).state == 3 && (t.ctr e).inflOf i == 0 && !x.mpend.getLsbD i)) &&
    !t.copies.any fun c => c.expert == e && c.rep == i

/-- The lowest free slot of a die. -/
def State.freeSlotOf (s : State) (t : ExpTable) (d : Nat) : Except Halt (Option Nat) := do
  let (n, _) ← s.weightPool t d
  let ps ← s.mapRange t.who .hwRead 2 (t.addr + 0x100 + 512 * d) 512
  let (bs, _) ← s.readParts 0 ps
  .ok ((List.range n).find? fun j => !(bs.getD (j / 8) 0).getLsbD (j % 8))

/-- The pages of a slot lie in the Bean layer, so far as they are mapped: Barista replicates no other weights (R65). -/
def State.inBean (s : State) (t : ExpTable) (d j : Nat) : Except Halt Bool := do
  let n ← s.slotChunks t
  let a ← s.slotAddr t d j
  .ok ((List.range (n + 1)).all fun i =>
    s.beanAt t.ctx (a + min (65536 * i) (65536 * n - 1)))

/-- Dies on which a replica may be placed, with a free slot (R65, R112). -/
def State.replicaDies (s : State) (t : ExpTable) (x : ExpEntry) : List Nat → Except Halt (List (Nat × Nat))
  | [] => .ok []
  | d :: r => do
    let rest ← s.replicaDies t x r
    let holds := (List.range 8).any fun i => ((x.rep i).state == 1 || (x.rep i).state == 2) && (x.rep i).die == d
    if (s.die d).coreEn = 0 || t.excl.getLsbD d || holds then .ok rest
    else
      match ← s.freeSlotOf t d with
      | some j => .ok (if ← s.inBean t d j then (d, j) :: rest else rest)
      | none => .ok rest

/-- Decide experts in ascending number on the exchanged values; `w` is the die load (R112). -/
def State.windowDecide (s : State) (T : Nat) (old : KV ExpCtr) : List Nat → List Nat → Except Halt State
  | [], _ => .ok s
  | e :: r, w => do
    let t := s.table T
    if t.copies.any (fun c => c.expert == e) || t.drains.any (fun d => d.expert == e) || t.freeing.any (fun f => f.1 == e) then
      s.windowDecide T old r w
    else
      let x ← s.expEntry t e
      let n := (x.inState 1).length
      let p := (KV.get {} old e).load / n
      let idx := t.freeIndex e x
      if t.curHot < p && n < t.curMaxrep && t.copies.length < t.curCopymax && !t.hold && idx.isSome then
        let ds ← if ← s.inBean t (x.rep 0).die (x.rep 0).slot then s.replicaDies t x (List.range 8) else .ok []
        let best := ds.foldl (fun (b : Option (Nat × Nat)) d => match b with
          | none => some d
          | some c => if w.getD d.1 0 < w.getD c.1 0 then some d else some c) none
        match best with
        | none => s.windowDecide T old r w
        | some (d, j) =>
          let s ← s.markSlot t d j true
          let (id, s) := s.fresh
          let c : ExpCopy := { id := id, expert := e, rep := idx.getD 1, die := d, slot := j }
          ((s.modTable T fun t => { t with copies := t.copies ++ [c] }).log .barista T 16).windowDecide T old r (w.modify d (· + p))
      else if p < t.curCold && 1 < n then
        let s ← s.drain T e ((x.inState 1).getLastD 0)
        s.windowDecide T old r w
      else s.windowDecide T old r w

/-- Die loads: the sum of RLOAD over the replicas on each die (R112). -/
def State.dieLoads (s : State) (t : ExpTable) : List Nat → Except Halt (List Nat)
  | [] => .ok (List.replicate 8 0)
  | e :: r => do
    let w ← s.dieLoads t r
    let x ← s.expEntry t e
    .ok ((List.range 8).foldl (fun w i => if (x.rep i).state = 0 then w
      else w.modify (x.rep i).die (· + (t.ctr e).rload.getD i 0)) w)

/-- Tokens routed in the current window. -/
def ExpTable.windowLoad (t : ExpTable) : Nat := t.ctrs.foldl (fun n e => n + e.2.load) 0

/-- WINDOW_END (R112): counters are exchanged with 0, the policy last written takes effect, and experts are decided. -/
def execWindowEnd (T : Nat) (s : State) : Out :=
  .next (
    let t := s.table T
    if !t.en || t.windowLoad < t.curWlen then s
    else s.onTable T fun s => do
      let w ← s.dieLoads t (List.range (t.nexp + 1))
      let zero (c : ExpCtr) : ExpCtr := { c with load := 0, rload := List.replicate 8 0 }
      let s := s.modTable T fun t =>
        { t with ctrs := t.ctrs.map fun _ c => zero c
                 win := t.win + 1, curWlen := t.wlen, curHot := t.hot, curCold := t.cold, curMaxrep := t.maxrep
                 curCopymax := t.copymax }
      (s.log .barista T 13).windowDecide T t.ctrs (List.range (t.nexp + 1)) w)

/-! ### BTCTL (R107) -/

/-- Whether an entry passes the check at enabling; `used` are the slots of earlier experts. -/
def State.entryOk (s : State) (t : ExpTable) (bs : List Byte) (used : List (Nat × Nat)) : Bool :=
  let x := ExpEntry.of bs
  let rsv := (bs.drop 5).take 3 == [0, 0, 0] &&
    (List.range 8).all fun i => bytesToNat ((bs.drop (8 + 3 * i)).take 3) % 128 == 0
  let live := x.inState 1
  let places := live.map fun i => ((x.rep i).die, (x.rep i).slot)
  let slotOk (p : Nat × Nat) : Bool :=
    (s.die p.1).coreEn != 0 && !used.contains p && (match s.weightPool t p.1, s.slotUsed t p.1 p.2 with
      | .ok (n, _), .ok u => p.2 < n && u
      | _, _ => false)
  rsv && live.contains 0 && (List.range 8).all (fun i => (x.rep i).state ≤ 1) && places.all slotOk &&
    places.eraseDups.length == places.length

/-- The first expert that fails the check, if one does; one whose entry cannot be read fails (log 32). -/
def State.firstBadEntry (s : State) (t : ExpTable) : List Nat → List (Nat × Nat) → Option Nat
  | [], _ => none
  | e :: r, used =>
    match s.expBytes t t.who .hwRead e with
    | .error _ => some e
    | .ok bs =>
      if s.entryOk t bs used then
        let x := ExpEntry.of bs
        s.firstBadEntry t r (used ++ (x.inState 1).map fun i => ((x.rep i).die, (x.rep i).slot))
      else some e

/-- MPEND of every entry is cleared. -/
def State.clearMpend (s : State) (t : ExpTable) : List Nat → State
  | [] => s
  | e :: r =>
    match s.expEntry t e with
    | .error _ => s.clearMpend t r
    | .ok x =>
      if x.mpend = 0 then s.clearMpend t r
      else
        match s.putExp t e { x with mpend := 0 } with
        | .ok s => s.clearMpend t r
        | .error _ => s.clearMpend t r

/-- The fields of BTCTL that a write sets while EN = 0. -/
def ExpTable.config (t : ExpTable) (v : Dword) : ExpTable :=
  { t with train := v.getLsbD 62, hold := v.getLsbD 61, ctx := bits v 57 46, hdie := bits v 45 43, nexp := bits v 42 31 }

/-- No core keeps a copy of an entry of a table. -/
def State.dropCopies (s : State) (T : Nat) : State :=
  { s with cores := s.cores.map fun _ c => { c with experts := c.experts.filter fun x => x.table != T } }

/-- BTCTL_ENABLE (R107): the entries are checked, the counters zeroed, window 0 starts. -/
def execBtctlEnable (T : Nat) (v : Dword) (s : State) : Out :=
  .next (if (s.table T).en || !v.getLsbD 63 then s
    else
      let t := (s.table T).config v
      let s := s.modTable T fun _ => t
      match s.firstBadEntry t (List.range (t.nexp + 1)) [] with
      | some e => (s.modTable T fun t => { t with badexp := e }).log .barista T 4
      | none =>
        let s := (s.clearMpend t (List.range (t.nexp + 1))).dropCopies T
        ((s.modTable T fun t =>
          { t with en := true, ctrs := [], regs := [], notices := [], drains := [], freeing := [], win := 0, fails := 0, curWlen := t.wlen, curHot := t.hot
                   curCold := t.cold, curMaxrep := t.maxrep, curCopymax := t.copymax }).reroute T).log .barista T 5)

/-- BTCTL_DISABLE (R107): copies are abandoned; pending retirements complete by REPLICA_RETIRE. -/
def execBtctlDisable (T : Nat) (v : Dword) (s : State) : Out :=
  .next (if !(s.table T).en || v.getLsbD 63 then s
    else
      let s := s.modTable T fun t => { t with en := false, hold := v.getLsbD 61 }
      let s := s.abandon T (s.table T).copies
      (s.freeSlots T (s.table T).freeing).log .barista T 6)

/-- BTCTL_HOLD (R107): no replication starts, one in progress is abandoned; refreshes go on (log 80). -/
def execBtctlHold (T : Nat) (v : Dword) (s : State) : Out :=
  .next (if (s.table T).hold || !v.getLsbD 61 then s
    else
      let s := s.modTable T fun t => { (if t.en then t else t.config v) with hold := true }
      (s.abandon T ((s.table T).copies.filter fun c => !c.refresh)).log .barista T 7)

/-! ### Errors in weight slots (R118) -/

/-- Whether a byte of memory, by canonical offset, lies in a slot. -/
def State.slotHolds (s : State) (t : ExpTable) (d j c : Nat) : Bool :=
  match s.slotAddr t d j, s.slotChunks t with
  | .ok a, .ok n =>
    (List.range (16 * n + 1)).any fun k =>
      let va := (a / 4096 + k) * 4096 + c % 4096
      a ≤ va && va < a + 65536 * n && match s.xlate none t.ctx (va % 2 ^ 52) with
        | .ok m => (match s.place m.pa with
          | .mem o => o == c
          | _ => false)
        | .error _ => false
  | _, _ => false

/-- The non-home replicas of a table that hold a byte: expert and index. -/
def State.replicasAt (s : State) (T c : Nat) : List (Nat × Nat) :=
  let t := s.table T
  if !t.en then []
  else
    (List.range (t.nexp + 1)).flatMap fun e =>
      match s.expEntry t e with
      | .error _ => []
      | .ok x => ((List.range 8).filter fun i => i != 0 && ((x.rep i).state == 1 || (x.rep i).state == 2) &&
          s.slotHolds t (x.rep i).die (x.rep i).slot c).map fun i => (e, i)

/-- A report of an uncorrectable error (R20, R118): the management controller logs it, and a non-home replica whose weight slot
holds it is retired at once. -/
def State.errorReported (s : State) (pa : Nat) : State :=
  match s.place pa with
  | .mem c =>
    if !s.badByte c then s
    else (List.range 16).foldl (fun s T =>
      (s.replicasAt T c).foldl (fun s r => (s.orLog T (s.forceRetire T r.1 r.2)).log .barista T 1) s) (s.log .uncorrectable pa 0)
  | _ => s

/-- BTEXCL_CLEAR (R107): FAIL of the dies that the write takes out of exclusion becomes 0 (log 78). -/
def execBtexclClear (T : Nat) (v : Dword) (s : State) : Out :=
  .next ((s.modTable T fun t =>
    { t with excl := t.excl &&& ~~~(v.setWidth 8)
             fail := t.fail.zipIdx.map fun p => if v.getLsbD p.2 && t.excl.getLsbD p.2 then 0 else p.1 }).log .barista T 8)

end Sys2Proof.Machine
end

