-- ==== Sys2Proof/Machine/Records.lean ====
section
/-! DEFINITION. Launch records (R51), the checks of R52 and R54, the pool boundaries of a launch (R84, R85, R90). -/

namespace Sys2Proof.Machine

/-! ### Reading a record -/

/-- `n` doublewords at a virtual address, as an engine reads them. -/
def State.readDwords (s : State) (k : Who) (va n : Nat) : Except Halt (List Dword × State) :=
  (s.engineRead k va (8 * n)).map fun r =>
    ((List.range n).map fun i => BitVec.ofNat 64 (bytesToNat ((r.1.drop (8 * i)).take 8)), r.2)

/-- The reserved bits of a launch record (R51), by doubleword: those of TASKPTR's alignment among them (R50). -/
def launchReserved : List Dword :=
  [0xFF30000000000000, 0xFFFFFFE000000000, 0, 0xFFE0000000000000, 0xFFFFFFFFFFF00000, 0xFFF000000000001F, 0xFFF0000000000000,
   ~~~0]

/-- The fields of a launch record (R51). -/
def LRec.of (d : List Dword) : LRec :=
  let w (i : Nat) : Dword := d.getD i 0
  { entry := bits (w 0) 51 0
    width := 8 * 2 ^ bits (w 0) 55 54
    straddle := (w 1).getLsbD 36
    clsize := bits (w 1) 35 33 + 1
    bdx := bits (w 1) 10 0
    bdy := bits (w 1) 21 11
    bdz := bits (w 1) 32 22
    gdx := bits (w 2) 31 0
    gdy := bits (w 2) 47 32
    gdz := bits (w 2) 63 48
    prio := bits (w 3) 52 50
    pb0 := bits (w 3) 35 29
    pb1 := bits (w 3) 42 36
    pb2 := bits (w 3) 49 43
    lsbytes := bits (w 3) 28 10
    rbinit := bits (w 3) 4 0
    rbmax := bits (w 3) 9 5
    nbind := bits (w 4) 19 16
    cores := (w 4).getLsbD 15
    relaunch := (w 4).getLsbD 14
    nantrap := (w 4).getLsbD 13
    drain := (w 4).getLsbD 12
    ctx := bits (w 4) 11 0
    taskptr := bits (w 5) 51 0
    argptr := bits (w 6) 51 0
    binds := d.drop 8 }

/-- Lanes of a block (R52). -/
def LRec.lanes (r : LRec) : Nat := r.bdx * r.bdy * r.bdz
/-- Blocks of the grid (R52). -/
def LRec.blocks (r : LRec) : Nat := r.gdx * r.gdy * r.gdz

/-! ### Boundaries (R84, R85) -/

/-- LSBYTES rounded up to 1 KiB. -/
def LRec.lsRun (r : LRec) : Nat := (r.lsbytes + 1023) / 1024 * 1024

/-- The three conditions of R85 on n blocks of `rb` register bytes. -/
def LRec.fits (r : LRec) (rb n : Nat) : Bool :=
  n * r.groups ≤ 64 && n * ((r.groups + 3) / 4) ≤ 16 && (n * rb + 8191) / 8192 + (n * r.lsRun + 8191) / 8192 ≤ 88

/-- The largest n of R85 (0 where none is). -/
def LRec.most (r : LRec) (rb : Nat) : Nat := (List.range 65).foldl (fun b n => if r.fits rb n then n else b) 0

/-- The boundaries of a launch: those of its record, or those computed for it; none where n is 0. -/
def LRec.bounds (r : LRec) (rbeff : Nat) : Option (Nat × Nat × Nat) :=
  if r.pb2 ≠ 0 then some (r.pb0, r.pb1, r.pb2)
  else
    let full := r.lanes * r.rbmax * 32
    let rb := if r.most full = 0 then r.lanes * rbeff * 32 else full
    let n := r.most rb
    if n = 0 then none
    else
      let pb0 := (n * rb + 8191) / 8192
      some (pb0, pb0 + (n * r.lsRun + 8191) / 8192, 96)

/-! ### Transform bindings (R53, R54, R98) -/

/-- A transform binding (R53). -/
structure Bind where
  kind : Nat
  src : Nat
  aux : Nat
  doff : Nat
  /-- Destination bytes B (R98). -/
  bytes : Nat

def Bind.of (d : Dword) : Bind := ⟨bits d 63 60, bits d 59 44, bits d 43 28, 16 * bits d 27 14, 16 * (bits d 13 0 + 1)⟩

/-- Row width in 16-byte units, and rows of the cycle, of a swizzle pattern (R99). -/
def swizzle (p : Nat) : Nat × Nat :=
  ([(1, 1), (8, 2), (8, 4), (8, 8), (16, 2), (16, 4), (16, 8), (16, 16)] : List (Nat × Nat)).getD p (1, 1)

/-- An entry that the Tamper slot accepts (R60). -/
def State.tamperEntry (s : State) (k : Who) (h : Nat) : Except Halt (Option Ste) :=
  (s.entry k.core k.ctx h).map fun e => e.bind fun e => if 2 ≤ e.cls && e.cls ≤ 5 then some e else none

/-- Whether the page that backs an entry is packed (R54): the page at its base (log 73). -/
def State.packedBase (s : State) (k : Who) (va : Nat) : Except Halt Bool :=
  match s.access k.core k.ctx va .read k.priv with
  | .ok m => .ok m.pkd
  | .error (.fatal c) => .error (.fatal c va)
  | .error (.miss st why l p) => .error (.miss ⟨0, st, why, l, p, va, false, 0⟩)

/-- What R54 and R98 ask of a binding beside its handles' classes, on its source entry and, for kind 4, its index entry. -/
def Bind.shape (b : Bind) (e : Ste) (idx : Option Ste) : Bool :=
  let row := (e.dim0 + 1) * e.elemBits
  match b.kind with
  | 1 => e.fmt == 6
  | 2 => b.aux < 128 && b.aux % 16 ≤ 9 && b.aux % 16 != 6 && isComplex e.fmt == isComplex (b.aux % 16)
  | 3 => b.aux < 4 && 8 * 2 ^ b.aux == e.elemBits && 8 * b.bytes % row == 0
  | 4 => 8 * b.bytes % row == 0 && match idx with
    | some i => i.fmt == 11 && i.ncomp == 0
    | none => false
  | 5 => e.cls == 5
  | 6 => b.aux < 8 && b.bytes % (16 * (swizzle b.aux).1) == 0
  | _ => false

/-- A binding in use (R54): the class and format of its source and index entries, where it is valid. -/
def State.checkBind (s : State) (k : Who) (ls : Nat) (b : Bind) : Except Halt (Option (Nat × Nat × Nat × Nat)) := do
  if ls < b.doff + b.bytes then .ok none
  else if b.kind = 7 then .ok (some (0, 0, 0, 0))
  else if b.kind = 0 ∨ 7 < b.kind then .ok none
  else
    match ← s.tamperEntry k b.src with
    | none => .ok none
    | some e =>
      let idx ← if b.kind = 4 then s.tamperEntry k b.aux else .ok none
      if !b.shape e idx then .ok none
      else
        let packed ← if b.kind = 5 then s.packedBase k e.base else .ok true
        .ok (if packed then some (e.cls, e.fmt, (idx.map (·.cls)).getD 0, (idx.map (·.fmt)).getD 0) else none)

/-- All bindings in use; none where one is not valid. -/
def State.checkBinds (s : State) (k : Who) (ls : Nat) : List Dword → Except Halt (Option (List (Nat × Nat × Nat × Nat)))
  | [] => .ok (some [])
  | d :: t => do
    match ← s.checkBind k ls (Bind.of d), ← s.checkBinds k ls t with
    | some b, some r => .ok (some (b :: r))
    | _, _ => .ok none

/-! ### The checks of R52 -/

/-- The entry descriptor of a kernel: RBLK and local-store KiB; none where none stands at a mapped address (check 7,
log 35). -/
def State.kernelEntry (s : State) (k : Who) (va : Nat) : Except Halt (Option (Nat × Nat)) :=
  match s.access k.core k.ctx va .exec k.priv with
  | .error _ => .ok none
  | .ok m =>
    if s.poisoned m.pa 4 then .error (.fatal 0x11 va)
    else
      match headWord (BitVec.ofNat 32 (bytesToNat (s.homeRead m.pa 4).1)) (va % 128) with
      | .entry r kib => .ok (some (r, kib))
      | _ => .ok none

/-- A record as its checks leave it: the refusal code (0 where it passes), the record, RBEFF, the boundaries, the kinds of its
bindings' entries. -/
structure Checked where
  code : Nat
  lrec : LRec
  rbeff : Nat := 1
  bounds : Nat × Nat × Nat := (0, 0, 0)
  kinds : List (Nat × Nat × Nat × Nat) := []

/-- Checks 1–5 of R52: the code, 0 where they pass; of several that fail the lowest is reported (log 35). -/
def LRec.early (r : LRec) (d : List Dword) : Nat :=
  if (d.zip launchReserved).any (fun p => p.1 &&& p.2 != 0) || 8 < r.nbind then 1
  else if r.lanes = 0 || 1024 < r.lanes || r.lanes % r.width != 0 || 32 < r.lanes / r.width then 2
  else if r.blocks = 0 || r.gdx % r.clsize != 0 then 3
  else if r.rbinit = 0 || r.rbmax < r.rbinit || 24 < r.rbmax then 4
  else if 262144 < r.lsbytes || r.lsbytes % 16 != 0 then 5
  else 0

/-- Check 6 of R52, on RBEFF (R90), and the n of R85. -/
def LRec.poolBad (r : LRec) (rbeff : Nat) : Bool :=
  if r.pb2 ≠ 0 then
    !(r.pb0 ≤ r.pb1 && r.pb1 ≤ r.pb2 && r.pb2 ≤ 96) || r.pb0 * 8192 < r.lanes * rbeff * 32 ||
      (r.pb1 - r.pb0) * 8192 < r.lsbytes
  else (r.bounds rbeff).isNone

/-- Read and check a launch record by R52, except check 10. -/
def State.checkLaunch (s : State) (k : Who) (va : Nat) : Except Halt (Checked × State) := do
  if va % 128 ≠ 0 then .ok (⟨1, LRec.of [], 1, (0, 0, 0), []⟩, s)
  else
    let (d, s) ← s.readDwords k va 16
    let r := LRec.of d
    let e := r.early d
    if e ≠ 0 then .ok (⟨e, r, 1, (0, 0, 0), []⟩, s)
    else
      let desc ← s.kernelEntry k r.entry
      let rbeff := max r.rbinit ((desc.map (·.1)).getD 0)
      if r.poolBad rbeff then .ok (⟨6, r, rbeff, (0, 0, 0), []⟩, s)
      else
        let b := (r.bounds rbeff).getD (0, 0, 0)
        match desc with
        | none => .ok (⟨7, r, rbeff, b, []⟩, s)
        | some (rb, kib) =>
          if r.rbmax < rb || r.lsbytes < 1024 * kib then .ok (⟨7, r, rbeff, b, []⟩, s)
          else
            match ← s.checkBinds k r.lsbytes (r.binds.take r.nbind) with
            | none => .ok (⟨8, r, rbeff, b, []⟩, s)
            | some ks => .ok (⟨if r.ctx = k.ctx then 0 else 9, r, rbeff, b, ks⟩, s)

end Sys2Proof.Machine
end

