-- ==== Sys2Proof/Machine/Place.lean ====
section
/-! DEFINITION. The work distributor (R80–R92): whether a core can take a block, the choice of die and core, the carving of the
pool, clusters, save-area frames (R348), task records (R55, R94), WD_PLACE_BLOCK. -/

namespace Sys2Proof.Machine

/-! ### The save area (R348) -/

/-- Frames of a context's save area. -/
def Context.frameCount (c : Context) : Nat := 16 * bits c.csave 63 52

/-- The lowest run of `n` free frames behind the header (log 26). -/
def Context.frameRun (c : Context) (n : Nat) : Option Nat :=
  let fits (f : Nat) : Bool := f + n ≤ c.frameCount && (List.range n).all fun i => !c.frames.contains (f + i)
  ((1 :: c.frames.map (· + 1)).filter fits).foldl (fun b f => match b with
    | some m => some (min m f)
    | none => some f) none

/-- The bit of a frame in the header's bitmap. -/
def State.markFrame (s : State) (ctx f : Nat) (used : Bool) : State :=
  let at_ := f / 8
  let s := s.areaCheck ctx 0 at_ 1
  let b := (s.areaRead ctx 0 at_ 1).headD 0
  let m : Byte := BitVec.ofNat 8 (2 ^ (f % 8))
  s.areaPut ctx 0 at_ [if used then b ||| m else b &&& ~~~m]

/-- Take a run of frames. -/
def State.takeFrames (s : State) (ctx n : Nat) : Option (Nat × State) :=
  ((s.ctx ctx).frameRun n).map fun f =>
    let fs := (List.range n).map (f + ·)
    (f, fs.foldl (fun s k => s.markFrame ctx k true) (s.modCtx ctx fun c => { c with frames := c.frames ++ fs }))

/-- Free frames. -/
def State.freeFrames (s : State) (ctx : Nat) (fs : List Nat) : State :=
  fs.foldl (fun s k => s.markFrame ctx k false)
    (s.modCtx ctx fun c => { c with frames := c.frames.filter fun f => !fs.contains f })

/-- Frames of a block (R348). -/
def LRec.blockFrames (r : LRec) : Nat := (r.lsbytes + 4096 + 65535) / 65536

/-! ### What a core can take (R83, R87, R88) -/

/-- Whether a core is enabled and takes blocks (R28, R384). -/
def State.takes (s : State) (core : Nat) : Bool :=
  (s.die (dieOf core)).coreEn.getLsbD (core % 40) && !(s.core core).held && !(s.die (dieOf core)).noPlace

/-- Resident blocks of a core. -/
def State.blocksOn (s : State) (core : Nat) : List (Nat × Block) := s.blocks.filter fun b => b.2.resident && b.2.core == core
/-- Resident groups of a core. -/
def State.groupsOn (s : State) (core : Nat) : List (Nat × Group) := s.groups.filter fun g => g.2.on core

/-- Free group slots of a quadrant. -/
def State.quadFree (s : State) (core q : Nat) : Nat := 16 - ((s.groupsOn core).filter fun g => g.2.quad == q).length

/-- The quadrant with the most free slots, the lowest on a tie (R88). -/
def State.freestQuad (s : State) (core : Nat) : Nat :=
  (List.range 4).foldl (fun b q => if s.quadFree core b < s.quadFree core q then q else b) 0

/-- Where a block fits: its place in local store, q0, free register bytes, resident groups. -/
structure Fit where
  base : Nat
  q0 : Nat
  free : Nat
  groups : Nat

/-- The lowest free run of local store (R87). -/
def State.lsPlace (s : State) (core lo hi n : Nat) : Option Nat :=
  let used := (s.blocksOn core).map fun b => (b.2.lsBase, b.2.lsRun)
  let ok (a : Nat) : Bool := lo ≤ a && a + n ≤ hi && used.all fun u => u.2 = 0 || a + n ≤ u.1 || u.1 + u.2 ≤ a
  ((lo :: used.map fun u => u.1 + u.2).filter ok).foldl (fun b a => match b with
    | some m => some (min m a)
    | none => some a) none

/-- The conditions of R83 for `n` groups that take `regs` bytes of registers, and a run of local store where the block is to be
placed with them. -/
def State.fit (s : State) (l : Launch) (core regs n : Nat) (run : Option Nat) : Option Fit :=
  let c := s.core core
  let empty := (s.blocksOn core).isEmpty
  let gs := s.groupsOn core
  let free := l.pb0 * 8192 - s.regBytes core
  let q0 := s.freestQuad core
  let room := (List.range 4).all fun i => (n + 3 - i) / 4 ≤ s.quadFree core ((q0 + i) % 4)
  let pools := empty || (c.poolb0 == l.pb0 && c.poolb1 == l.pb1 && c.poolb2 == l.pb2)
  if !s.takes core || !pools || 64 < gs.length + n || !room || free < regs then none
  else
    match run with
    | none => some ⟨0, q0, free, gs.length⟩
    | some r => (s.lsPlace core (l.pb0 * 8192) (l.pb1 * 8192) r).map fun a => ⟨a, q0, free, gs.length⟩

/-- The fit of a new block of a launch. -/
def State.fitBlock (s : State) (l : Launch) (core : Nat) : Option Fit :=
  s.fit l core (l.lrec.lanes * l.rbeff * 32) l.lrec.groups (some l.lrec.lsRun)

/-- The core of a die that a rule of fit prefers (R82). -/
def bestOf (d : Nat) (f : Nat → Option Fit) : Option (Nat × Fit) :=
  (List.range 40).foldl (fun b i => match b, f (40 * d + i) with
    | none, some y => some (40 * d + i, y)
    | some x, some y =>
      if x.2.free < y.free || (x.2.free = y.free && y.groups < x.2.groups) then some (40 * d + i, y) else some x
    | b, none => b) none

/-- The order of dies from a cursor (R82). -/
def dieOrder (cursor : Nat) : List Nat := (List.range 8).map fun i => (cursor + i) % 8

/-- Whether two dies are ring neighbours (R17, R28). -/
def ringNeighbours (a b : Nat) : Bool := a / 4 == b / 4 && a != b && a % 4 + b % 4 != 3

/-! ### Task records (R55, R94) -/

/-- The bytes of a block's task record. -/
def Block.taskBytes (b : Block) (l : Launch) (st : Nat) : List Byte :=
  let r := l.lrec
  let x := b.lin % r.gdx
  let y := b.lin / r.gdx % r.gdy
  let z := b.lin / (r.gdx * r.gdy)
  [fld st 56 ||| fld b.attempt 52 ||| fld l.lrptr 0, fld z 48 ||| fld y 32 ||| fld x 0,
    fld b.core 32 ||| fld b.tbind 16 ||| fld b.tchunk 0, 0].flatMap fun d => natToBytes 8 d.toNat

/-- Write a block's task record; a draw's stays in the distributor (R392). A fault is fatal to the context (R56, log 36). -/
def State.putTask (s : State) (blk st : Nat) : State :=
  match s.block blk with
  | none => s
  | some b =>
    let s := s.modBlock blk fun b => { b with taskState := st }
    match s.launch b.launch with
    | none => s
    | some l =>
      if l.role ≠ .kernel then s
      else
        let va := (l.lrec.taskptr + 32 * b.lin) % 2 ^ 52
        match s.engineWrite ⟨none, b.ctx, l.priv⟩ .write va (b.taskBytes l st) with
        | .ok s => s
        | .error (.fatal c a) => s.engineFatal b.ctx b.core 0 c a
        | .error _ => s.engineFatal b.ctx b.core 0 0x10 va

/-! ### Placing -/

/-- The whole L1 of a core is written back and invalidated. -/
def State.l1Flush (s : State) (core : Nat) : State := s.l1Leave core (s.core core).l1

/-- An empty core takes a launch's boundaries (R86). -/
def State.carve (s : State) (l : Launch) (core : Nat) : State :=
  let c := s.core core
  if c.poolb0 = l.pb0 ∧ c.poolb1 = l.pb1 ∧ c.poolb2 = l.pb2 then s
  else (s.l1Flush core).modCore core fun c => { c with poolb0 := l.pb0, poolb1 := l.pb1, poolb2 := l.pb2 }

/-- The starting state of a group of a launch (R89), without a split until its block starts. -/
def Launch.group (l : Launch) (blk num core quad slot frame at_ : Nat) : Group :=
  let r := l.lrec
  let k : GroupKind := match l.role with
    | .kernel => .kernel
    | .vertex => .vertex
    | .fragment => .fragment
  { kind := k, ctx := r.ctx, blk := blk, num := num, width := r.width, core := core, quad := quad, slot := slot, prio := l.prio,
    rblk := l.rbeff, sr := KV.put 0 (KV.put 0 [] 0 (BitVec.ofNat 32 r.argptr)) 1 (BitVec.ofNat 32 (r.argptr / 2 ^ 32)),
    fpstat := if r.nantrap then 0x2000 else 0, live := widthMask r.width, frame := frame, placedAt := at_ }

/-- The lowest free slot of a quadrant. -/
def State.freeGroupSlot (s : State) (core quad : Nat) : Nat :=
  let used := ((s.groupsOn core).filter fun g => g.2.quad == quad).map fun g => g.2.slot
  ((List.range 16).find? fun k => !used.contains k).getD 0

/-- Place the groups of a block from number `k` on; none where the save area has no frame. -/
def State.placeGroups (s : State) (l : Launch) (blk core q0 : Nat) (real : Bool) : Nat → Nat → Option (List Nat × State)
  | 0, _ => some ([], s)
  | n + 1, k =>
    match if real then s.takeFrames l.lrec.ctx 1 else some (0, s) with
    | none => none
    | some (f, s) =>
      let quad := (q0 + k) % 4
      let (gid, s) := s.fresh
      let g := l.group blk k core quad (s.freeGroupSlot core quad) f gid
      match (s.setGroup gid g).placeGroups l blk core q0 real n (k + 1) with
      | none => none
      | some (t, s) => some (gid :: t, s)

/-- Place a block on a core where it fits, an empty core taking the launch's boundaries (R86); `real` takes frames of the save
area. -/
def State.placeBlock (s : State) (lid : Nat) (l : Launch) (core : Nat) (f : Fit) (lin attempt cl rank dieBit : Nat) (real : Bool) :
    Option (Nat × State) :=
  let r := l.lrec
  match if real then s.takeFrames r.ctx r.blockFrames else some (0, s) with
  | none => none
  | some (frame, s) =>
    let s := if (s.blocksOn core).isEmpty then s.carve l core else s
    let (blk, s) := s.fresh
    match s.placeGroups l blk core f.q0 real r.groups 0 with
    | none => none
    | some (gs, s) =>
      let b : Block :=
        { launch := lid, ctx := r.ctx, lin := lin, core := core, attempt := attempt, cluster := cl, rank := rank, dieBit := dieBit,
          groups := gs, lsBase := f.base, lsRun := r.lsRun, lsBytes := r.lsbytes, frame := frame, frames := r.blockFrames,
          gframes := gs.filterMap fun g => (s.group g).map (·.frame), placedAt := blk }
      let s := { s with blocks := s.blocks.insert blk b }
      some (blk, if r.nbind = 0 || !real then s else s.modCore core fun c => { c with tamperQ := c.tamperQ ++ [blk] })

/-- Place blocks (linear number and ATTEMPT) on a die, as many as fit: the blocks placed, and the state. -/
def State.placeOn (s : State) (lid : Nat) (l : Launch) (d cl dieBit : Nat) (real : Bool) : List (Nat × Nat) → List Nat × State
  | [] => ([], s)
  | (lin, att) :: t =>
    match bestOf d (s.fitBlock l) with
    | none => ([], s)
    | some (core, f) =>
      match s.placeBlock lid l core f lin att cl (lin % l.lrec.clsize) dieBit real with
      | none => ([], s)
      | some (b, s) =>
        let r := s.placeOn lid l d cl dieBit real t
        (b :: r.1, r.2)

/-- A cluster's blocks on one die, or split over a pair of neighbours (R91): the first die, the blocks, the state. -/
def State.placeUnit (s : State) (lid : Nat) (l : Launch) (cl : Nat) (unit : List (Nat × Nat)) (real : Bool) :
    Option (Nat × List Nat × State) :=
  let dies := dieOrder l.cursor
  let whole (d : Nat) : Option (Nat × List Nat × State) :=
    let r := s.placeOn lid l d cl 0 real unit
    if r.1.length = unit.length then some (d, r.1, r.2) else none
  let pair (d n : Nat) : Option (Nat × List Nat × State) :=
    let a := s.placeOn lid l d cl 0 real unit
    if a.1.isEmpty then none
    else
      let b := a.2.placeOn lid l n cl 1 real (unit.drop a.1.length)
      if a.1.length + b.1.length = unit.length then some (d, a.1 ++ b.1, b.2) else none
  match dies.findSome? whole with
  | some r => some r
  | none =>
    if l.lrec.straddle then
      dies.findSome? fun d => (dies.filter (ringNeighbours d)).findSome? fun n => pair d n
    else none

/-- The next cluster of a launch, or what of it is due for relaunch: linear number and ATTEMPT (R81, R96). -/
def Launch.nextUnit (l : Launch) : List (Nat × Nat) :=
  let k := l.lrec.clsize
  match l.again with
  | [] => (List.range (min k (l.total - l.next))).map fun i => (l.next + i, 0)
  | (lin, _) :: _ => l.again.filter fun e => e.1 / k == lin / k

/-- The cluster record of a unit (R91), with its blocks in the places of their ranks. -/
def State.joinCluster (s : State) (lid cl d first : Nat) (bs : List Nat) : State :=
  let place (old : List Nat) : List Nat := bs.foldl (fun o b => match s.block b with
    | some k => if k.rank < o.length then o.set k.rank b else o ++ [b]
    | none => o) old
  let bits (ks old : List Nat) : List Nat := ks.zipIdx.map fun e => match s.block e.1 with
    | some k => k.dieBit
    | none => old.getD e.2 0
  match s.cluster cl with
  | some _ => s.modCluster cl fun c =>
      let ks := place c.blocks
      { c with die0 := d, blocks := ks, bits := bits ks c.bits, near := [], far := [], nearDone := [] }
  | none =>
    let ks := place []
    { s with clusters := s.clusters.insert cl { launch := lid, first := first, blocks := ks, bits := bits ks [], die0 := d } }

/-- The cluster of a launch that begins at a linear number, if some of it has been placed. -/
def State.clusterAt (s : State) (lid first : Nat) : Option Nat :=
  (s.clusters.find? fun c => c.2.launch == lid && c.2.first == first).map (·.1)

/-- Place the next unit of a launch (R82, R91, R94); none where it fits nowhere. The cursor goes on behind the first die taken
(log 77). -/
def State.placeNext (s : State) (lid : Nat) (l : Launch) (real : Bool) : Option State :=
  let unit := l.nextUnit
  let first := (unit.headD (0, 0)).1 / l.lrec.clsize * l.lrec.clsize
  if unit.isEmpty then none
  else
    let (cl, s) := match s.clusterAt lid first with
      | some c => (c, s)
      | none => s.fresh
    (s.placeUnit lid l cl unit real).map fun (d, bs, s) =>
      let s := s.joinCluster lid cl d first bs
      let s := s.modLaunch lid fun l =>
        { l with
          cursor := (d + 1) % 8
          again := l.again.filter fun e => !unit.contains e
          next := if l.again.isEmpty then l.next + unit.length else l.next }
      if real then bs.foldl (fun s b => s.putTask b 1) s else s

/-- Place every block that a launch has still to place. -/
def State.placeAll (s : State) (lid : Nat) (real : Bool) : Nat → Option State
  | 0 => some s
  | n + 1 =>
    match s.launch lid with
    | none => some s
    | some l =>
      if l.nextUnit.isEmpty then some s
      else
        match s.placeNext lid l real with
        | none => none
        | some s => s.placeAll lid real n

/-- The package without work: a die reset or a thermal hold keeps no enabled core off for good. -/
def State.emptied (s : State) : State :=
  { s with
    groups := [], blocks := [], clusters := []
    cores := s.cores.map fun _ c => { c with held := false }
    dies := s.dies.map fun _ d => { d with noPlace := false } }

/-- Check 10 of R52 (R92): the grid fits on the enabled cores, each taken to be empty. -/
def State.gridFits (s : State) (lid : Nat) (l : Launch) : Bool :=
  l.total ≤ 64 * 320 && ({ s.emptied with launches := s.launches.insert lid l }.placeAll lid false (l.total + 1)).isSome

/-! ### The placement order (R81) -/

/-- Whether a launch has blocks to place. -/
def State.toPlace (s : State) (l : Launch) : Bool :=
  l.role != .fragment && l.status.isNone && (!l.again.isEmpty || l.next < l.total) && (s.ctx l.lrec.ctx).fatal.isNone

/-- Pending launches, the highest effective priority first, in order of acceptance within one (R75, R81). -/
def State.placeOrder (s : State) : List (Nat × Launch) :=
  let ls := s.launches.filter fun l => s.toPlace l.2
  (List.range 8).reverse.flatMap fun p => ls.filter fun l => l.2.prio == p

/-- A CORES launch that still waits for its whole grid. -/
def Launch.wantsAll (l : Launch) : Bool := l.lrec.cores && !l.placedAll

/-- Place a unit of the first launch of a list that can be placed; a CORES launch that waits is passed over (R81). -/
def State.placeFirst (s : State) : List (Nat × Launch) → Option State
  | [] => none
  | (lid, l) :: t =>
    if l.wantsAll then s.placeFirst t
    else
      match s.placeNext lid l true with
      | some s => some s
      | none => s.placeFirst t

/-- WD_PLACE_BLOCK (R81, R82): nothing is placed while a CORES launch waits at the head. -/
def execWdPlaceBlock (s : State) : Out :=
  .next (match s.placeOrder with
    | [] => s
    | (lid, l) :: t =>
      if s.pkg.stopped || l.wantsAll then s else (s.placeFirst ((lid, l) :: t)).getD s)

end Sys2Proof.Machine
end

