-- ==== Sys2Proof/Machine/Launch.lean ====
section
/-! DEFINITION. LAUNCH (R74–R76, R81, R92, R367): limits, completion targets, acceptance; the wake of issuers parked beyond the
limits of R75. -/

namespace Sys2Proof.Machine

/-! ### Issuers and targets -/

/-- Who a group issues launches for (R74): its queue, or its block. -/
def Group.issuer (g : Group) : Issuer := if g.isQueue then .queue g.blk else .block g.blk

/-- Accepted launches and draws that have not completed (R75): of the package, or of one issuer. -/
def State.outstanding (s : State) (p : Issuer → Bool) : Nat :=
  (s.launches.filter fun l => l.2.role == .kernel && p l.2.issuer).length + (s.draws.filter fun d => d.2.status.isNone && p d.2.issuer).length

/-- Whether the limits of R75 are met for an issuer. -/
def State.launchFull (s : State) (i : Issuer) : Bool :=
  1024 ≤ s.outstanding (fun _ => true) || 64 ≤ s.outstanding fun j => j == i

/-- The completion target of a group's LAUNCH or DRAW (R76, R367); none where code 11 refuses it. -/
def State.targetOf (s : State) (g : Group) (off : Nat) (bar : Bool) : Option Target :=
  if g.isQueue then (if bar || off % 8 != 0 || 16384 < off + 8 then none else some (.word g.blk off))
  else if 2 ^ 31 ≤ off then none
  else if bar then
    (if off % 16 = 0 && off + 16 ≤ s.lsBytesOf g && s.isBound g.blk off then some (.barrier g.blk off) else none)
  else if off % 8 = 0 && off + 8 ≤ s.lsBytesOf g then some (.word g.blk off)
  else none

/-- The sequence counter of an issuer, and the state that has used it (R74). -/
def State.useSeq (s : State) (i : Issuer) : Word × State :=
  match i with
  | .queue q => ((s.queue q).seq, s.modQueue q fun k => { k with seq := k.seq + 1 })
  | .block b => (((s.block b).map (·.seq)).getD 0, s.modBlock b fun k => { k with seq := k.seq + 1 })
  | .draw _ => (0, s)

/-- The effective priority that an issuer lends (R75), and whether its launches are privileged (R60, R367). -/
def State.lends (s : State) (g : Group) : Nat × Bool :=
  if g.isQueue then ((s.queue g.blk).prio, (s.queue g.blk).priv)
  else ((s.launchOf g).elim 0 (·.prio), s.privOf g)

/-- The stack of a group: its queue's, or its core's (R80). -/
def Group.stack (g : Group) : Nat := if g.isQueue then g.blk / 64 else dieOf g.core / 4

/-- LRES (R74). -/
def lres (seq : Word) (code : Nat) : Dword := seq ++ BitVec.ofNat 32 code

/-- Write LRES and go on. -/
def State.answer (s : State) (x : Ex) (d : BitVec 8) (v : Dword) : State :=
  (s.modGroup x.gid fun g => g.writeDst true d 0 v).finish x

/-- Operands that LAUNCH and DRAW refuse (R142, R367). -/
def badLaunch (g : Group) (o : EOps) : Bool :=
  (o.d != 0xF0 && !isScalar o.d) || badDst g true o.d || badUniform g .i64 o.a || badUniform g .w32 o.b

/-! ### LAUNCH -/

/-- The record of an accepted launch. -/
def Checked.launch (c : Checked) (lrptr : Nat) (i : Issuer) (home prio : Nat) (priv : Bool) (seq : Word) (t : Target) : Launch :=
  { lrec := c.lrec, lrptr := lrptr, issuer := i, home := home, prio := min c.lrec.prio prio, priv := priv, seq := seq, target := t,
    rbeff := c.rbeff, pb0 := c.bounds.1, pb1 := c.bounds.2.1, pb2 := c.bounds.2.2, total := c.lrec.blocks,
    cursor := seq.toNat % 8, kinds := c.kinds }

/-- LAUNCH (R367); a CORES launch that fails check 10 is accepted and completes with STATUS 10 (R92). -/
def execLaunch (o : EOps) (s : State) : Out :=
  s.withEx fun x =>
    if badLaunch x.g o then s.illegal x
    else if s.launchFull x.g.issuer then s.park x .launch
    else
      let va := bits (s.readUni x o.lit .i64 o.a) 51 0
      let off := (s.readUni x o.lit .w32 o.b).toNat
      let s := s.releaseFor x.g 4
      match s.checkLaunch (s.who x.g) va with
      | .error h => s.haltEx x h .read
      | .ok (c, s) =>
        if c.code ≠ 0 then s.answer x o.d (lres 0 c.code)
        else
          let bar := o.minor.getLsbD 8
          match s.targetOf x.g off bar with
          | none => s.answer x o.d (lres 0 11)
          | some t =>
            if bar && (c.lrec.cores || 2 ^ 56 ≤ c.lrec.blocks) then s.answer x o.d (lres 0 11)
            else
              let (prio, priv) := s.lends x.g
              let (seq, s) := s.useSeq x.g.issuer
              let (lid, s) := s.fresh
              let l := c.launch va x.g.issuer x.g.stack prio priv seq t
              let l := if l.lrec.cores && !s.gridFits lid l then { l with status := some 10 } else l
              ({ s with launches := s.launches.insert lid l }).answer x o.d (lres seq 0)

/-- LAUNCH_BACKPRESSURE_WAKE (R75): the issuer executes its LAUNCH or DRAW again. -/
def execLaunchBackpressureWake (gid sid : Nat) (s : State) : Out :=
  .next (match s.exOf gid sid with
    | none => s
    | some x => if x.sp.park = .launch && !s.launchFull x.g.issuer then s.unpark gid sid else s)

end Sys2Proof.Machine
end

