-- ==== Sys2Proof/Machine/Tex.lean ====
section
/-! DEFINITION. TEX (R245, R246). -/

namespace Sys2Proof.Machine

/-- An exact dyadic number m × 2^e. -/
structure Dy where
  m : Int
  e : Int
deriving DecidableEq, Repr

def Dy.zero : Dy := ⟨0, 0⟩
def Dy.ofInt (i : Int) : Dy := ⟨i, 0⟩
def Dy.add (a b : Dy) : Dy :=
  let q := min a.e b.e
  ⟨a.m * 2 ^ (a.e - q).toNat + b.m * 2 ^ (b.e - q).toNat, q⟩
def Dy.mul (a b : Dy) : Dy := ⟨a.m * b.m, a.e + b.e⟩
def Dy.neg (a : Dy) : Dy := ⟨-a.m, a.e⟩
def Dy.sub (a b : Dy) : Dy := a.add b.neg
def Dy.le (a b : Dy) : Bool := 0 ≤ (b.sub a).m
/-- 1/2. -/
def Dy.half : Dy := ⟨1, -1⟩
/-- The greatest integer that is at most a number. -/
def Dy.floor (a : Dy) : Int := if 0 ≤ a.e then a.m * 2 ^ a.e.toNat else a.m / 2 ^ (-a.e).toNat
/-- The number of a finite value. -/
def Dy.ofFin (neg : Bool) (n : Nat) (e : Int) : Dy := ⟨if neg then -(n : Int) else n, e⟩
def Dy.fv (a : Dy) : FV := .fin (a.m < 0) a.m.natAbs a.e

/-- Rounded by RNE to a multiple of 2^−8 (R246), of a number from 0 to 1. -/
def Dy.toEighth (a : Dy) : Dy :=
  let r := roundInt .rne false (a.mul ⟨256, 0⟩).m.natAbs a.e
  ⟨r.1, -8⟩

/-- The level of detail of the GRAD form (R43, R246): log2 of the square root of the greater sum of squares. -/
def lodOf (ws : List Word) (big : Dy) : FV :=
  let n := big.m.natAbs
  if n = 0 then .inf true
  else
    let l := Nat.log2 n
    if n = 2 ^ l then FF.fp32.decode (FF.fp32.round .rne (.fin (big.e + l < 0) (big.e + l).natAbs (-1))).bits
    else
      let v := Encl.ofFx (fxLog2 (fxOf n (-(l : Int))) + (big.e + l) * fxOne)
      FF.fp32.decode (({ v with e := v.e - 1 } : Encl).result .lod ws).bits

/-- A level of a chain: the entry of one of its planes, its extents. -/
structure Level where
  ste : Ste
  w : Nat
  h : Nat
deriving DecidableEq, Repr

/-- Bytes of one plane of an entry (R58). -/
def Ste.planeBytes (e : Ste) : Nat :=
  let n := if e.tshape = 0 then (e.dim0 + 1) * (e.dim1 + 1)
    else
      let t := 4 * 2 ^ e.tshape
      t * t * ((e.dim0 + t) / t) * ((e.dim1 + t) / t)
  n * e.elemBits / 8

/-- Level k of an entry, without its place. -/
def Ste.levelShape (e : Ste) (k : Nat) : Ste :=
  { e with dim0 := max 1 ((e.dim0 + 1) / 2 ^ k) - 1, dim1 := max 1 ((e.dim1 + 1) / 2 ^ k) - 1, dim2 := 0, dim3 := 0 }

/-- The last level L (R245). -/
def Ste.lastLevel (e : Ste) : Nat := Nat.log2 (max (e.dim0 + 1) (e.dim1 + 1))

/-- Bytes of levels 0 to k − 1 of a layer. -/
def Ste.levelsBytes (e : Ste) (k : Nat) : Nat := ((List.range k).map fun j => (e.levelShape j).planeBytes).foldl (· + ·) 0

/-- Level k of a layer (R245). -/
def Ste.level (e : Ste) (layer k : Nat) : Level :=
  let v := e.levelShape k
  ⟨{ v with base := e.base + layer * e.levelsBytes (e.lastLevel + 1) + e.levelsBytes k }, v.dim0 + 1, v.dim1 + 1⟩

/-- An address mode on an index (R246): none under border zero, out of range. -/
def texWrap (mode : Nat) (i : Int) (w : Nat) : Option Nat :=
  match mode with
  | 0 => some (i % w).toNat
  | 1 => some (max 0 (min i (w - 1))).toNat
  | 2 =>
    let m := (i % (2 * w)).toNat
    some (if m < w then m else 2 * w - 1 - m)
  | _ => if 0 ≤ i && i < w then some i.toNat else none

/-- A texel that contributes to a lane: its weight and its address; none is a texel of zeros. -/
structure Tap where
  weight : Dy
  addr : Option Nat
deriving DecidableEq, Repr

/-- Virtual address of a texel of a level. -/
def Level.addr (v : Level) (i j : Nat) : Nat := v.ste.base + v.ste.elemBits / 8 * v.ste.elemIndex 0 i j

/-- The taps of one level at coordinates, scaled by a weight (R246). -/
def Level.taps (v : Level) (minor : BitVec 16) (weight : Dy) (u vv : Dy) : List Tap :=
  let amu := (minor.extractLsb' 4 2).toNat
  let amv := (minor.extractLsb' 6 2).toNat
  let scale (c : Dy) (n : Nat) : Dy := (if minor.getLsbD 9 then c.mul (Dy.ofInt n) else c).sub Dy.half
  let u' := scale u v.w
  let v' := scale vv v.h
  let tap (w : Dy) (i j : Int) : Tap :=
    ⟨w.mul weight, match texWrap amu i v.w, texWrap amv j v.h with
      | some a, some b => some (v.addr a b)
      | _, _ => none⟩
  if !minor.getLsbD 2 then [tap (Dy.ofInt 1) (u'.add Dy.half).floor (v'.add Dy.half).floor]
  else
    let i := u'.floor
    let j := v'.floor
    let al := (u'.sub (Dy.ofInt i)).toEighth
    let be := (v'.sub (Dy.ofInt j)).toEighth
    let na := (Dy.ofInt 1).sub al
    let nb := (Dy.ofInt 1).sub be
    [tap (na.mul nb) i j, tap (al.mul nb) (i + 1) j, tap (na.mul be) i (j + 1), tap (al.mul be) (i + 1) (j + 1)]

/-- The taps of a lane at a level of detail (R246). -/
def Ste.lodTaps (e : Ste) (minor : BitVec 16) (layer : Nat) (lam : FV) (u v : Dy) : List Tap :=
  let top := e.lastLevel
  let l : Dy := match lam with
    | .nan => Dy.zero
    | .inf neg => if neg then Dy.zero else Dy.ofInt top
    | .fin neg n x =>
      let d := Dy.ofFin neg n x
      if d.le Dy.zero then Dy.zero else if (Dy.ofInt top).le d then Dy.ofInt top else d
  if !minor.getLsbD 3 then (e.level layer (l.add Dy.half).floor.toNat).taps minor (Dy.ofInt 1) u v
  else
    let k := l.floor.toNat
    let f := l.sub (Dy.ofInt k)
    (e.level layer k).taps minor ((Dy.ofInt 1).sub f) u v ++ (e.level layer (min (k + 1) top)).taps minor f u v

/-- What a lane of TEX samples: nothing (all four components 0) or its taps. -/
inductive Sampling where
  | zeros
  | taps (ts : List Tap)
deriving DecidableEq, Repr

/-- The sampling of a lane (R246). -/
def State.texSample (s : State) (x : Ex) (o : EOps) (e : Ste) (l : Nat) : Sampling :=
  let reg (c : BitVec 8) (i : Nat) : Word :=
    if isVec c then x.g.readV (c.toNat + i) l else x.g.readS (c.toNat - 0xC0 + i)
  let form := (o.minor.extractLsb' 0 2).toNat
  let arr := o.minor.getLsbD 8
  let layer : Int := if arr then (reg o.a 2).toInt else 0
  if layer < 0 || (e.dim2 : Int) < layer then .zeros
  else if form = 2 then
    let i := (reg o.a 0).toInt
    let j := (reg o.a 1).toInt
    let k := (s.readSrc x o.lit .w32 o.c l).setWidth 32 |>.toInt
    if k < 0 || (e.lastLevel : Int) < k then .zeros
    else
      let v := e.level layer.toNat k.toNat
      if i < 0 || (v.w : Int) ≤ i || j < 0 || (v.h : Int) ≤ j then .zeros
      else .taps [⟨Dy.ofInt 1, some (v.addr i.toNat j.toNat)⟩]
  else
    match FF.fp32.decode (reg o.a 0).toNat, FF.fp32.decode (reg o.a 1).toNat with
    | .fin n1 m1 e1, .fin n2 m2 e2 =>
      let lam : FV :=
        if form = 0 then FF.fp32.decode ((s.readSrc x o.lit .w32 o.c l).setWidth 32).toNat
        else
          let ds := (List.range 4).map fun i => FF.fp32.decode (reg o.c i).toNat
          if ds.any FV.isNan then .nan
          else if ds.any fun d => match d with
            | .inf _ => true
            | _ => false then .inf false
          else
            let d (i : Nat) (n : Nat) : Dy := match ds.getD i .nan with
              | .fin ng m ex => (Dy.ofFin ng m ex).mul (Dy.ofInt n)
              | _ => Dy.zero
            let sq (a b : Dy) : Dy := (a.mul a).add (b.mul b)
            let p := sq (d 0 (e.dim0 + 1)) (d 1 (e.dim1 + 1))
            let q := sq (d 2 (e.dim0 + 1)) (d 3 (e.dim1 + 1))
            lodOf ((List.range 4).map (reg o.c) ++ [BitVec.ofNat 32 e.dim0, BitVec.ofNat 32 e.dim1])
              (if p.le q then q else p)
      .taps (e.lodTaps o.minor layer.toNat lam (Dy.ofFin n1 m1 e1) (Dy.ofFin n2 m2 e2))
    | _, _ => .zeros

/-- Component c of a texel: a UINT8 component is its value over 255 (kept as the value), a missing one is 0, or 1 for A. -/
def texComp (e : Ste) (bs : List Byte) (c : Nat) : FV :=
  if e.ncomp < c then (if c = 3 then .fin false (if e.fmt = 8 then 255 else 1) 0 else .fin false 0 0)
  else
    let n := fmtBits e.fmt / 8
    (readElem e.fmt (bytesToNat ((bs.drop (n * c)).take n))).toFV

/-- One component of a lane's result (R246): exact, rounded once; taps of weight 0 have no part. -/
def texBlend (e : Ste) (ts : List (Dy × List Byte)) (c : Nat) : Word :=
  let acc := (ts.filter fun t => t.1.m ≠ 0).foldl
    (fun a t => a.addProd [t.1.fv, if t.2 = [] then .fin false 0 0 else texComp e t.2 c]) SumAcc.empty
  let r : Nat :=
    if e.fmt = 8 then (FF.fp32.div .rne (.fin (acc.i < 0) acc.i.natAbs acc.e) (.fin false 255 0)).bits
    else (acc.total .fp32 .rne).bits
  BitVec.ofNat 32 r

/-- Give each tap its texel's bytes. -/
def tapBytes (n : Nat) : List Tap → List Byte → List (Dy × List Byte)
  | [], _ => []
  | t :: ts, bs =>
    match t.addr with
    | none => (t.weight, []) :: tapBytes n ts bs
    | some _ => (t.weight, bs.take n) :: tapBytes n ts (bs.drop n)

/-- Operand checks of R245. -/
def texBad (g : Group) (o : EOps) : Bool :=
  let span (c : BitVec 8) (n : Nat) : Bool :=
    if isVec c then g.isQueue || 8 * g.rblk < c.toNat + n else 0xF0 < c.toNat + n
  let form := (o.minor.extractLsb' 0 2).toNat
  !isVec o.d || o.d.toNat % 4 ≠ 0 || span o.d 4 || 0xF0 ≤ o.a.toNat || span o.a (if o.minor.getLsbD 8 then 3 else 2) ||
    badUniform g .w32 o.b || (if form = 1 then 0xF0 ≤ o.c.toNat || span o.c 4 else badSrc g .w32 o.c)

/-- TEX (R245, R246). -/
def execTex (o : EOps) (s : State) : Out :=
  s.withEx fun x =>
    if x.g.isQueue || texBad x.g o then s.illegal x
    else
      let h := (s.readUni x o.lit .w32 o.b).toNat % 2 ^ 16
      match s.entry x.g.core? x.g.ctx h with
      | .error e => s.haltEx x e .read
      | .ok none => s.trap x 0x02 x.lanes 0
      | .ok (some e) =>
        let want := if o.minor.getLsbD 8 then 2 else 1
        if e.cls ≠ 5 || !([1, 2, 3, 8].contains e.fmt) || e.axes ≠ want then s.trap x 0x02 x.lanes 0
        else
          let n := e.elemBits / 8
          let smp := x.list.map fun l => (l, s.texSample x o e l)
          let taps (l : Nat) : List Tap := match smp.find? fun q => q.1 == l with
            | some (_, .taps ts) => ts
            | _ => []
          let as := smp.map fun q => (q.1, (taps q.1).filterMap fun t => t.addr.map fun a => (a % 2 ^ 52, n))
          s.laneAccess x .vl .read as fun s _ l ps =>
            let r := s.readPieces x .def_ ps
            let ts := tapBytes n (taps l) r.bytes
            let comp (c : Nat) : Word := if (taps l).isEmpty then 0 else texBlend e ts c
            ⟨r.st, (List.range 4).map fun c => ⟨false, o.d.toNat + c, l, comp c⟩, r.bad⟩

end Sys2Proof.Machine
end

