-- ==== Sys2Proof/Machine/Tamper.lean ====
section
/-! DEFINITION. Tamper (R97–R102): the transform bindings of a placed block, chunk by chunk. -/

namespace Sys2Proof.Machine

/-! ### Source elements in linear order (R98) -/

/-- Element `i` of an entry in linear order, its pending exponent resolved (log 37); one beyond the extents reads 0. -/
def State.tamperElem (s : State) (k : Who) (core h : Nat) (e : Ste) (i : Nat) : Except Halt (Nat × Flags × State) := do
  let X := e.dim0 + 1
  let Y := e.dim1 + 1
  let x := i % X
  let y := i / X % Y
  let p := i / (X * Y)
  let t ← s.tagAt k e p x y
  let (v, s) ← (s.touchAt core k.ctx h e p x y).elemRead k h e p x y (some false)
  let (v, f) := resolveElem e.fmt t.exp v
  .ok (v, f, s)

/-- The codebook entry of a code of a CB4 source (R36); a slot that holds no codebook of the context gives a free value (log 33). -/
def State.tamperCode (s : State) (core ctx : Nat) (e : Ste) (code : Nat) : BitVec 16 × State :=
  match (s.core core).codebook ctx e.cbs with
  | some es => (es.getD (code % 16) 0, s)
  | none =>
    let (n, s) := s.free
    (Config.codebookEntry n code, s)

/-- `n` bytes of the source from byte `o` of its elements in linear order. -/
def State.tamperBytes (s : State) (k : Who) (core h : Nat) (e : Ste) (o n : Nat) : Except Halt (List Byte × State) := do
  let eb := e.elemBits
  let lo := 8 * o / eb
  let hi := (8 * (o + n) + eb - 1) / eb
  let (v, s) ← ((List.range (hi - lo)).foldlM (fun (r : Nat × State) i => do
    let (v, _, s) ← r.2.tamperElem k core h e (lo + i)
    .ok (r.1 + v * 2 ^ (eb * i), s)) (0, s) : Except Halt (Nat × State))
  .ok (natToBytes n (v / 2 ^ (8 * o - eb * lo)), s)

/-! ### A binding's region (R97, R98) -/

/-- Bits of a destination element. -/
def Bind.dstBits (b : Bind) (e : Ste) : Nat :=
  match b.kind with
  | 1 => 16
  | 2 => (e.ncomp + 1) * fmtBits (b.aux % 16)
  | _ => e.elemBits

/-- Rows of the destination of kinds 3 and 4. -/
def Bind.rows (b : Bind) (e : Ste) : Nat := 8 * b.bytes / ((e.dim0 + 1) * e.elemBits)

/-- The range of source elements `a` to `a + n − 1` of an entry, one record for each plane of a Crema entry (log 37). -/
def Ste.rangeOf (ctx h : Nat) (e : Ste) (a n : Nat) : List Reg :=
  if e.crema then
    let per := (e.dim0 + 1) * (e.dim1 + 1)
    ((List.range e.planes).filter fun p => a < per * (p + 1) && per * p < a + n).map fun p =>
      ⟨.tiles ctx h p 0 0 (tilesAlong e.dim0) (tilesAlong e.dim1), false, []⟩
  else if e.tshape = 0 then
    let lo := e.base + e.elemBits * a / 8
    let m := (e.elemBits * (a + n) + 7) / 8 - e.elemBits * a / 8
    [⟨.global lo (lo + m), false, [(lo, m)]⟩]
  else
    let m := e.planeBytes * e.planes
    [⟨.global e.base (e.base + m), false, [(e.base, m)]⟩]

/-- The ranges that a binding of block `n` registers: its sources and its destination. -/
def Bind.ranges (b : Bind) (ctx blk n : Nat) (e idx : Option Ste) : List Reg :=
  let dst : Reg := ⟨.loc blk b.doff (b.doff + b.bytes), true, []⟩
  match e with
  | none => [dst]
  | some e =>
    let m := b.rows e
    let X := e.dim0 + 1
    let src := match b.kind with
      | 1 => e.rangeOf ctx b.src (n * (b.bytes / 2)) (b.bytes / 2)
      | 2 => e.rangeOf ctx b.src (n * (8 * b.bytes / b.dstBits e)) (8 * b.bytes / b.dstBits e)
      | 3 => e.rangeOf ctx b.src (n * m * X) (m * X)
      | 4 => e.rangeOf ctx b.src 0 (X * (e.dim1 + 1) * e.planes)
      | 5 => let z := streamMax (((n + 1) * b.bytes + 1023) / 1024)
        [⟨.global e.base (e.base + z), false, [(e.base, z)]⟩]
      | _ =>
        let lo := 8 * n * b.bytes / e.elemBits
        e.rangeOf ctx b.src lo ((8 * (n + 1) * b.bytes + e.elemBits - 1) / e.elemBits - lo)
    let ix := match idx with
      | some i => i.rangeOf ctx b.aux (n * m) m
      | none => []
    src ++ ix ++ [dst]

/-! ### Chunks (R98, R99) -/

/-- Destination element `i` of a binding of kinds 1–4 for block `n`: its bits, the flags of a conversion. Kind 2
begins at a whole element (log 76). -/
def State.tamperDst (s : State) (k : Who) (core n : Nat) (b : Bind) (e : Ste) (idx : Option Ste) (i : Nat) :
    Except Halt (Nat × Flags × State) := do
  let m := b.rows e
  let X := e.dim0 + 1
  let mode := RMode.ofCode (b.aux / 16 % 4)
  let sat : Bool := b.aux.testBit 6
  match b.kind with
  | 1 =>
    let (c, _, s) ← s.tamperElem k core b.src e (n * (b.bytes / 2) + i)
    let (v, s) := s.tamperCode core k.ctx e c
    .ok (v.toNat, 0, s)
  | 2 =>
    let (v, f, s) ← s.tamperElem k core b.src e (n * (8 * b.bytes / b.dstBits e) + i)
    if e.fmt = 6 then
      let (v, s) := s.tamperCode core k.ctx e v
      let r := convParts 2 (b.aux % 16) 1 mode sat v.toNat
      .ok (r.1, r.2, s)
    else
      let r := convParts e.fmt (b.aux % 16) (e.ncomp + 1) mode sat v
      .ok (r.1, f ||| r.2, s)
  | 3 =>
    let (v, _, s) ← s.tamperElem k core b.src e ((n * m + i % m) * X + i / m)
    .ok (v, 0, s)
  | _ =>
    match idx with
    | none => .error .kill
    | some ie =>
      let (r, _, s) ← s.tamperElem k core b.aux ie (n * m + i / X)
      let row := (BitVec.ofNat 32 r).toInt
      if row < 0 ∨ ((e.dim1 + 1) * e.planes : Nat) ≤ row then .ok (0, 0, s)
      else
        let (v, _, s) ← s.tamperElem k core b.src e (row.toNat * X + i % X)
        .ok (v, 0, s)

/-- The source unit that a swizzle stores at destination unit `t` (R99). -/
def unswizzle (p t : Nat) : Nat :=
  let (w, k) := swizzle p
  t / w * w + (t % w) ^^^ (t / w % k)

/-- Chunk `c` of a binding of block `n` (R98). -/
def State.tamperPart (s : State) (k : Who) (core blk n : Nat) (b : Bind) (e idx : Option Ste) (c : Nat) : Except Halt (State × Flags) := do
  let len := min 1024 (b.bytes - 1024 * c)
  match b.kind, e with
  | 7, _ => .ok (s.lsWrite blk (b.doff + 1024 * c) (List.replicate len 0), 0)
  | _, none => .error .kill
  | 5, some e =>
    let o := n * b.bytes + 1024 * c
    let (x, s) ← s.streamChunk k e.base (o / 1024)
    let (y, s) ← if o % 1024 + len ≤ 1024 then .ok ([], s) else s.streamChunk k e.base (o / 1024 + 1)
    .ok (s.lsWrite blk (b.doff + 1024 * c) (((x ++ y).drop (o % 1024)).take len), 0)
  | 6, some e =>
    let s ← (List.range (len / 16)).foldlM (fun (s : State) i => do
      let t := 64 * c + i
      let (bs, s) ← s.tamperBytes k core b.src e (n * b.bytes + 16 * unswizzle b.aux t) 16
      .ok (s.lsWrite blk (b.doff + 16 * t) bs)) s
    .ok (s, 0)
  | _, some e =>
    let eb := b.dstBits e
    landElems (fun s i => do
      let (v, f, s) ← s.tamperDst k core n b e idx i
      .ok (s.putLocalElem blk b.doff eb i v, f)) s 0 (chunkElems (8 * b.bytes / eb) eb c)

/-! ### Progress (R97, R101) -/

/-- The bindings of a block are done. -/
def Block.tamperDone (b : Block) (l : Launch) : Bool :=
  l.lrec.nbind == 0 ||
    (!b.topen && b.tbind + 1 == l.lrec.nbind && (Bind.of (l.lrec.binds.getD b.tbind 0)).bytes ≤ 1024 * b.tchunk)

/-- The entries of a binding, where they still are what LAUNCH found (R97, R102). -/
def State.tamperEntries (s : State) (k : Who) (l : Launch) (b : Block) (d : Bind) : Except Halt (Option Ste × Option Ste) := do
  match ← s.checkBind k l.lrec.lsbytes d with
  | none => .error .kill
  | some ks =>
    if ks ≠ l.kinds.getD b.tbind (0, 0, 0, 0) then .error .kill
    else
      if d.kind ≠ 7 then s.toUpdate k.core k.ctx d.src
      if d.kind = 4 then s.toUpdate k.core k.ctx d.aux
      let e ← if d.kind = 7 then .ok none else s.entry k.core k.ctx d.src
      let idx ← if d.kind = 4 then s.entry k.core k.ctx d.aux else .ok none
      .ok (e, idx)

/-- A binding opens: its entries are checked, held and its ranges registered; none where the table has no room. -/
def State.tamperOpen (s : State) (k : Who) (blk : Nat) (b : Block) (l : Launch) (d : Bind) : Except Halt (Option State) := do
  let s := if b.tbind = 0 ∧ b.tchunk = 0 then s.acquire b.core 4 else s
  let (e, idx) ← s.tamperEntries k l b d
  let regs := d.ranges b.ctx blk b.lin e idx
  if !(s.core b.core).room (min 3 regs.length) then .ok none
  else
    let uses := (if d.kind = 7 then [] else [d.src]) ++ (if d.kind = 4 then [d.aux] else [])
    let uses := uses.eraseDups
    let descs := (e.elim [] (keep d.src)) ++ idx.elim [] (keep d.aux)
    let s ← s.addUse k.core k.ctx true uses
    let s := (s.register k b.core blk regs).modCore b.core fun c => { c with tamperTurn := true }
    .ok (some (s.modBlock blk fun b => { b with topen := true, tuses := uses, tdescs := descs, ttokens := [] }))

/-- The next chunk of an open binding, and its end after the last one. -/
def State.tamperWork (s : State) (k : Who) (blk : Nat) (b : Block) (l : Launch) (d : Bind) : Except Halt State := do
  let e ← if d.kind = 7 then .ok none else (descOf b.tdescs d.src).map some
  let idx ← if d.kind = 4 then (descOf b.tdescs d.aux).map some else .ok none
  let (s, f) ← s.tamperPart k b.core blk b.lin d e idx b.tchunk
  let s := ((s.count b.core 8).modCore b.core fun c => { c with tamperTurn := true }).modBlock blk fun b => { b with tchunk := b.tchunk + 1, tflags := b.tflags ||| f, ttokens := [] }
  if 1024 * (b.tchunk + 1) < d.bytes then .ok s
  else
    let s ← s.addUse k.core k.ctx false b.tuses
    let s := (s.unlock b.core blk).modBlock blk fun b => { b with topen := false, tuses := [], tdescs := [] }
    if b.tbind + 1 < l.lrec.nbind then .ok (s.modBlock blk fun b => { b with tbind := b.tbind + 1, tchunk := 0 })
    else .ok (s.modCore b.core fun c => { c with tamperQ := c.tamperQ.filter (· != blk) })

/-- Tamper halts (R102): at a page it parks, and its progress goes to the task record. -/
def State.tamperHalt (s : State) (k : Who) (blk : Nat) (b : Block) (h : Halt) : State :=
  let (t, s) := s.haltEngine k b.core blk 0 h
  match t with
  | none => s
  | some t => (s.modBlock blk fun b => { b with ttokens := [t] }).putTask blk 1

/-- Whether Tamper can go on with the block at the head of its core's queue. -/
def State.tamperReady (s : State) (core : Nat) : Bool :=
  match (s.core core).tamperQ with
  | [] => false
  | blk :: _ => match s.block blk with
    | some b => !(s.core core).held && !b.dying && !anyPending b.ttokens
    | none => false

/-- TAMPER_CHUNK (R97): the core's Tamper job opens a binding, or completes a chunk of it. -/
def execTamperChunk (core : Nat) (s : State) : Out :=
  .next (
    let blk := ((s.core core).tamperQ).headD 0
    match s.block blk, (s.block blk).bind fun b => s.launch b.launch with
    | some b, some l =>
      let k : Who := ⟨some core, b.ctx, l.priv⟩
      let d := Bind.of (l.lrec.binds.getD b.tbind 0)
      if !s.tamperReady core then s
      else if anyInvalid b.ttokens then s.invalidEngine b.ctx core blk 0 b.ttokens
      else
        if !b.topen then
          match s.tamperOpen k blk b l d with
          | .error h => s.tamperHalt k blk b h
          | .ok none => s
          | .ok (some s) => s
        else if (s.core core).blocked blk blk then s
        else
          match s.tamperWork k blk b l d with
          | .error h => s.tamperHalt k blk b h
          | .ok s => s
    | _, _ => s)

end Sys2Proof.Machine
end

