-- ==== Sys2Proof/Machine/Blocks.lean ====
section
/-! DEFINITION. The life of a placed block: BLOCK_START (R89, R123), the release of group slots (R212), retirement (R78, R376),
launch completion (R77) and BLOCK_KILL (R56, R95, R96). -/

namespace Sys2Proof.Machine

/-! ### Start -/

/-- A block may start: Tamper has finished, and a CORES grid is wholly placed (R89, R92). -/
def State.startable (s : State) (b : Block) (l : Launch) : Bool :=
  b.resident && b.phase == .tamper && !b.dying && b.tamperDone l && (!l.lrec.cores || l.placedAll) && !s.pkg.stopped &&
    (s.ctx b.ctx).fatal.isNone && !(s.core b.core).held

/-- A group takes its first split (R89); without a lane it has ended. -/
def Group.start (g : Group) (entry : Nat) (m : Lanes) (fl : Flags) (now : Nat) : Group :=
  { g with
    live := m
    fpstat := g.fpstat ||| fl.setWidth 32
    splits := if m = 0 then [] else [(0, freshSplit (entry + 4) m none .no)]
    readySince := now }

/-- Slots of a vertex group's lanes (R123): lane and slot, below the draw's number of slots. -/
def vertexSlots (r : LRec) (lin num slots : Nat) : List (Nat × Nat) :=
  (List.range r.width).filterMap fun l =>
    let v := lin * r.lanes + num * r.width + l
    if v < slots then some (l, v) else none

/-- A vertex group's registers (R123). -/
def Group.vertexStart (g : Group) (d : Draw) (ids : List (Nat × Nat × Nat)) : Group :=
  let g := (g.writeS 2 (BitVec.ofNat 32 d.drec.vout)).writeS 3 (BitVec.ofNat 32 (d.drec.vout / 2 ^ 32))
  ids.foldl (fun g e => ((g.writeV 0 e.1 (BitVec.ofNat 32 e.2.2)).writeV 1 e.1 (BitVec.ofNat 32 (e.2.1 / d.drec.vcount))).writeV 2 e.1
    (BitVec.ofNat 32 e.2.1)) g

/-- Vertex IDs of slots (R123): lane, slot, ID. -/
def State.vertexIds (s : State) (k : Who) (d : Draw) : List (Nat × Nat) → Except Halt (List (Nat × Nat × Nat) × State)
  | [] => .ok ([], s)
  | (l, v) :: t => do
    let i := v % d.drec.vcount
    let n := if d.drec.isz = 1 then 2 else 4
    let (id, s) ← if d.drec.isz = 0 then .ok (i, s)
      else (s.engineRead k ((d.drec.ibuf + n * i) % 2 ^ 52) n).map fun r => (bytesToNat r.1, r.2)
    let (r, s) ← s.vertexIds k d t
    .ok ((l, v, id) :: r, s)

/-- The groups of a block start together. -/
def State.startGroups (s : State) (b : Block) (l : Launch) (k : Who) : List Nat → Except Halt State
  | [] => .ok s
  | gid :: t => do
    let now := (s.core b.core).cycle
    match s.group gid with
    | none => s.startGroups b l k t
    | some g =>
      match l.issuer, l.role with
      | .draw did, .vertex =>
        match s.draw did with
        | none => s.startGroups b l k t
        | some d =>
          let sl := vertexSlots l.lrec b.lin g.num (d.drec.vcount * d.drec.icount)
          let (ids, s) ← s.vertexIds k d sl
          (s.setGroup gid ((g.vertexStart d ids).start l.lrec.entry (maskOf (sl.map (·.1))) b.tflags now)).startGroups b l k t
      | _, _ => (s.setGroup gid (g.start l.lrec.entry g.live b.tflags now)).startGroups b l k t

/-- Groups of a block without a lane have ended. -/
def State.endEmpty (s : State) (b : Block) : State :=
  let n := (b.groups.filter fun k => s.gone k).length
  s.modLaunch b.launch fun l => { l with ended := l.ended + n }

/-- An engine's own page request for a block, kept with it. An invalid reply is fatal: R95 names no kill for it (log 38). -/
def State.haltBlock (s : State) (k : Who) (blk : Nat) (b : Block) (h : Halt) : State :=
  let (t, s) := s.haltEngine k b.core blk 0 h
  s.modBlock blk fun b => { b with ttokens := t.toList }

/-- BLOCK_START (R89, R94). -/
def execBlockStart (blk : Nat) (s : State) : Out :=
  .next (match s.block blk, (s.block blk).bind fun b => s.launch b.launch with
    | some b, some l =>
      if !s.startable b l || anyPending b.ttokens then s
      else match b.ttokens.find? fun t => t.status == .invalid with
        | some t => s.engineFatal b.ctx b.core 0 0x10 t.va
        | none =>
          let k : Who := ⟨some b.core, b.ctx, l.priv⟩
          let s := if l.lrec.nbind = 0 then s.acquire b.core 4 else s
          match s.startGroups b l k b.groups with
          | .error h => s.haltBlock k blk b h
          | .ok s =>
            ((s.endEmpty b).modBlock blk fun b => { b with phase := .running, ttokens := [] }).putTask blk 2
    | _, _ => s)

/-! ### Group slots (R212) -/

/-- An exited group has nothing left in flight. -/
def State.slotFree (s : State) (gid : Nat) (g : Group) : Bool :=
  let c := s.core g.core
  !g.isQueue && g.live == 0 && g.quiet && g.res != .evicted &&
    (match s.block g.blk with
      | some b => b.phase == .running
      | none => true) &&
    !c.jobs.any (fun j => j.gid == gid) && !c.seqs.any (fun q => q.gid == gid) &&
    !c.teamSteps.any fun t => t.shares.any fun h => h.gid == gid

/-- The parts of a group's export leave for the home banks of its tickets (R128). -/
def State.sendParts (s : State) (q : QuadSet) (frags : Nat → List Frag) : State :=
  if q.spent then s
  else
    (q.quads.map (·.1)).eraseDups.foldl (fun s t => match s.tickets.find t with
      | some k => s.modDie k.die fun d => { d with parts := d.parts ++ [⟨t, k.die, k.bank, frags t⟩] }
      | none => s) s

/-- The implicit FEXPORT.DISC of an exited group (R128). -/
def State.discard (s : State) (g : Group) : State :=
  match g.frag with
  | some f => if f.exported then s else s.sendParts f.set fun _ => []
  | none => s

/-- GROUP_SLOT_RELEASE (R212): slot and register blocks. Until then the group counts as arrived at its barriers as soon as its
accesses are performed (R311, R312). -/
def execGroupSlotRelease (gid : Nat) (s : State) : Out :=
  .next (match s.group gid with
    | none => s
    | some g =>
      if !s.slotFree gid g then (if g.live == 0 && !g.isQueue then s.settleFor g.blk else s)
      else
        let s := s.discard g
        (({ s with groups := s.groups.erase gid }).deregister g.ctx g.core).settleFor g.blk)

/-! ### Retirement and completion -/

/-- Launches and draws with a target in a block's local store that have not completed (R78). -/
def State.owedTo (s : State) (blk : Nat) : Bool :=
  let mine (t : Target) : Bool := match t with
    | .word k _ => k == blk
    | .barrier k _ => k == blk
  s.launches.any (fun l => l.2.role == .kernel && mine l.2.target) || s.draws.any fun d => d.2.status.isNone && mine d.2.target

/-- A block may retire: its groups are released, no Grinder operation of it is in flight, and R78 holds nothing back. -/
def State.retirable (s : State) (blk : Nat) (b : Block) : Bool :=
  b.resident && b.phase == .running && !b.dying && b.groups.all (fun g => (s.group g).isNone) &&
    !s.grinds.any (fun g => g.2.blk == blk) && !s.owedTo blk && !s.pkg.stopped

/-- A block's named barrier slots are unbound (R308). -/
def State.unbind (s : State) (core blk : Nat) : State :=
  s.modCore core fun c => { c with slots := c.slots.filter fun e => e.2.1 != blk }

/-- A cluster with no block placed, or to be placed again, is gone. -/
def State.dropCluster (s : State) (cl : Nat) : State :=
  match s.cluster cl with
  | none => s
  | some c =>
    let due : Bool := match s.launch c.launch with
      | some l => l.again.any fun e => e.1 / l.lrec.clsize * l.lrec.clsize == c.first
      | none => false
    if due || c.blocks.any fun b => (s.block b).isSome then s else { s with clusters := s.clusters.erase cl }

/-- BLOCK_RETIRE (R78, R376): the block's writes are released at DEVICE scope for its launch's completion (R77). -/
def execBlockRetire (blk : Nat) (s : State) : Out :=
  .next (match s.block blk with
    | none => s
    | some b =>
      if !s.retirable blk b then s
      else
        let s := ((s.release b.core 4).unbind b.core blk).freeFrames b.ctx ((List.range b.frames).map (b.frame + ·) ++ b.gframes)
        let s := s.putTask blk 3
        let s := match (s.launch b.launch).map (·.target), (s.launch b.launch).map (·.role) with
          | some (.barrier t o), some .kernel => s.barLower t o 1
          | _, _ => s
        let s := s.modLaunch b.launch fun l => { l with retired := l.retired + 1 }
        ({ s with blocks := s.blocks.erase blk }).dropCluster b.cluster)

/-- CWORD (R77). -/
def cword (seq : Word) (status : Nat) : Dword := (seq.setWidth 64 <<< 16) ||| BitVec.ofNat 64 status

/-- A completion's word is stored with STFE semantics (R77): none while it must wait. A word of an evicted block is latched in
its frame (R348); of a block that is gone it is discarded (R95). -/
def State.storeWord (s : State) (store off : Nat) (v : Dword) : Option State :=
  let put : Option State :=
    if s.isFull store off || (s.woken store (off / 8)).isSome then none
    else some ((s.lsPut64 store off v).setFull store off true)
  if store < 128 then put
  else
    match s.block store with
    | none => some s
    | some b =>
      if b.resident then put
      else if 64 ≤ b.latchedWords.length then none
      else some (s.modBlock store fun b => { b with latchedWords := b.latchedWords ++ [⟨off, v⟩] })

/-- A completion acts on its target: none while it must wait. The lowerings of a barrier came with the blocks (R77). -/
def State.completeTo (s : State) (t : Target) (seq : Word) (status : Nat) : Option State :=
  match t with
  | .word store off => s.storeWord store off (cword seq status)
  | .barrier _ _ => some s

/-- Whether a launch is over (R77): every block has retired, or it was refused by check 10. -/
def State.over (s : State) (l : Launch) : Bool :=
  match l.role, l.issuer with
  | .kernel, _ => l.status.isSome || l.retired == l.total
  | .vertex, _ => l.retired == l.total
  | .fragment, .draw d => l.retired == l.next && !s.quadSets.any (fun q => q.draw == d) && (match s.draw d with
    | some d => d.status.isSome
    | none => true)
  | .fragment, _ => true

/-- The record of a draw that is over goes with the last of its launches. -/
def State.dropDraw (s : State) (i : Issuer) : State :=
  match i with
  | .draw d => match s.draw d with
    | some k => if k.status.isSome && (s.launch k.vlaunch).isNone && (s.launch k.flaunch).isNone then
        { s with draws := s.draws.erase d } else s
    | none => s
  | _ => s

/-- LAUNCH_COMPLETE (R77). -/
def execLaunchComplete (lid : Nat) (s : State) : Out :=
  .next (match s.launch lid with
    | none => s
    | some l =>
      if !s.over l || s.pkg.stopped then s
      else
        let drop (s : State) : State := { s with launches := s.launches.erase lid }.dropDraw l.issuer
        if l.role ≠ .kernel then drop s
        else match s.completeTo l.target l.seq (l.status.getD 0) with
          | some s => drop s
          | none => s)

/-! ### Killing (R95, R96) -/

/-- Operations of a group and their range entries leave its core, its requests and waits are withdrawn, and the group is gone. -/
def State.stopGroup (s : State) (gid : Nat) : State :=
  match s.group gid with
  | none => s
  | some g =>
    let c := s.core g.core
    let ops := ((g.jobs ++ c.jobs.filter fun j => j.gid == gid).flatMap fun j => [j.id, j.entryId]) ++
      ((g.seqs ++ c.seqs.filter fun q => q.gid == gid).map (·.id)) ++ ((s.grinds.filter fun e => e.2.gid == gid).map (·.1))
    let s := s.modCore g.core fun c =>
      { c with
        locks := c.locks.filter fun k => !ops.contains k.op
        jobs := c.jobs.filter fun j => j.gid != gid
        seqs := c.seqs.filter fun q => q.gid != gid
        teamSteps := c.teamSteps.filter fun t => !t.shares.any fun h => h.gid == gid
        owner := c.owner.filter fun t => !t.has g.blk g.num
        teams := c.teams.filter fun t => !t.has g.blk g.num
        rbFifo := c.rbFifo.filter fun r => r.gid != gid }
    let unwait (b : Block) : Block := { b with waits := b.waits.filter fun w => w.gid != gid }
    let out (t : ExpTable) : ExpTable :=
      { t with waits := t.waits.filter (fun w => w.gid != gid), merges := t.merges.filter (fun m => m.gid != gid) }
    let s := { s with grinds := s.grinds.filter (fun e => e.2.gid != gid) }
    let s := { s with blocks := s.blocks.map fun _ b => unwait b }
    let s := { s with tables := s.tables.map (fun _ t => out t), groups := s.groups.erase gid }
    (s.modCtx g.ctx fun c => { c with tableOps := c.tableOps.filter fun o => o.gid != gid }).deregister g.ctx g.core

/-- Handles whose USE the work of a block holds: its engine operations', saved ones among them, and Tamper's. -/
def State.usesOf (s : State) (blk : Nat) : List Nat :=
  let job (j : Job) : List Nat := j.uses.eraseDups ++ j.entryUses.eraseDups
  let saved := (s.groups.filter fun g => !g.2.isQueue && g.2.blk == blk).flatMap fun g =>
    g.2.jobs.flatMap job ++ g.2.seqs.flatMap (·.uses.eraseDups)
  let here := s.cores.flatMap fun c =>
    (c.2.jobs.filter fun j => j.blk == blk).flatMap job ++
      (c.2.seqs.filter fun q => q.blk == blk).flatMap (·.uses.eraseDups)
  let spec := (s.grinds.filter fun g => g.2.blk == blk).flatMap fun g => g.2.uses.eraseDups
  saved ++ here ++ spec ++ match s.block blk with
    | some b => b.tuses
    | none => []

/-- A block's groups, operations, barrier slots, tiles, frames and local store are given up (R95). -/
def State.stopBlock (s : State) (blk : Nat) : State :=
  match s.block blk with
  | none => s
  | some b =>
    let s := b.groups.foldl (fun s g => s.stopGroup g) s
    let spec := (s.grinds.filter fun e => e.2.blk == blk).map (·.1)
    let s := { s with grinds := s.grinds.filter fun e => e.2.blk != blk }
    let s := (s.unbind b.core blk).modCore b.core fun c =>
      let c := { c with
        locks := c.locks.filter fun k => k.op != blk && !spec.contains k.op
        tamperQ := c.tamperQ.filter (· != blk) }
      if c.tileBlk = some blk then { c.clearTiles with tileBlk := none } else c
    let s := s.freeFrames b.ctx ((List.range b.frames).map (b.frame + ·) ++ b.gframes)
    { s with blocks := s.blocks.erase blk }

/-- Codebook records lose their validity once no group of the context is evicted (R267). -/
def State.freeRecords (s : State) (ctx : Nat) : State :=
  if s.groups.any fun g => g.2.ctx == ctx && g.2.res == .evicted then s
  else
    let used := !(s.ctx ctx).cbrecs.isEmpty
    let core (c : Core) : Core := { c with loaded := c.loaded.filter (· != ctx) }
    let s := { s with cores := s.cores.map fun _ c => core c }.modCtx ctx fun c => { c with cbrecs := [] }
    if used then s.writeRecords ctx else s

/-- What becomes of a killed block (R56): its state in the task record, and the cause of a fatal fault. -/
def fateOfKill (l : Launch) (attempt : Nat) : Nat × Option Nat :=
  if !l.lrec.relaunch then (5, some 0x13) else if 3 ≤ attempt then (5, some 0x12) else (4, none)

/-- A killed block of a launch is due again: a fragment block's quads are to be packed once more (R127, R392). -/
def State.relaunch (s : State) (b : Block) (l : Launch) : State :=
  if l.role = .fragment then
    match (b.groups.head?.bind fun k => s.group k).bind (·.frag) with
    | some f => { s with quadSets := { f.set with attempt := b.attempt + 1, spent := f.set.spent || f.exported } :: s.quadSets }
    | none => s
  else
    s.modLaunch b.launch fun l => { l with again := KV.insert l.again b.lin (b.attempt + 1) }

/-- One block of a cluster is killed. -/
def State.killBlock (s : State) (blk : Nat) : State :=
  match s.block blk, (s.block blk).bind fun b => s.launch b.launch with
  | some b, some l =>
    let (st, fatal) := fateOfKill l b.attempt
    let s := s.putTask blk st
    let done := (b.groups.filter fun k => s.gone k).length
    let s := if st = 4 then s.relaunch b l else s
    let s := s.modLaunch b.launch fun l =>
      { l with ended := if b.phase = .tamper then l.ended else l.ended - done, gbar := l.gbar.filter fun k => !b.groups.contains k
               retired := if l.role = .fragment then l.retired + 1 else l.retired }
    let s := s.stopBlock blk
    match fatal with
    | some c => s.engineFatal b.ctx b.core 0 c 0
    | none => s
  | _, _ => s

/-- BLOCK_KILL (R95, R96): the cluster of a doomed block is killed, once the USE counts can be lowered. -/
def execBlockKill (blk : Nat) (s : State) : Out :=
  .next (match s.block blk with
    | none => s
    | some b =>
      if !b.dying || anyPending b.ttokens then s
      else match b.ttokens.find? fun t => t.status == .invalid && t.hw with
        | some t => s.engineFatal b.ctx b.core 0 0x10 t.va
        | none =>
          let bs := match s.cluster b.cluster with
            | some c => c.blocks.filter fun k => (s.block k).isSome
            | none => [blk]
          let k : Who := ⟨some b.core, b.ctx, false⟩
          match s.addUses k.core b.ctx false (bs.flatMap fun k => s.usesOf k) with
          | .error h => s.haltBlock k blk b h
          | .ok s =>
            let s := bs.foldl (fun s k => s.killBlock k) s
            ((s.modCluster b.cluster fun c => { c with near := [], far := [], nearDone := [] }).dropCluster b.cluster).freeRecords b.ctx)

end Sys2Proof.Machine
end

