-- ==== Sys2Proof/Machine/Draw.lean ====
section
/-! DEFINITION. Draw records (R120, R121), DRAW (R122, R367), FEXPORT (R128, R368). -/

namespace Sys2Proof.Machine

/-! ### The record -/

/-- Reserved bits of a draw record by doubleword (R120). -/
def drawReserved : List Dword :=
  [0xFF00000000000000, 0x7FF0000000000000, 0, 0xC000000000000000, 0, 0, 0x0000FFFFFF870000, 0, 0xFFFFFFFFF8000000,
   0xFFFFFFFFF8000000, 0xFFFFFFFFF8000000, 0xFFFFFFFFF8000000, 0, 0, 0xFFF0000000000000, ~~~0]

/-- The fields of a draw record (R120). -/
def DRec.of (d : List Dword) : DRec :=
  let w (i : Nat) : Dword := d.getD i 0
  let lo (i : Nat) : Word := (w i).extractLsb' 0 32
  let hi (i : Nat) : Word := (w i).extractLsb' 32 32
  { topo := bits (w 0) 55 52, vlr := bits (w 0) 51 0, zexp := (w 1).getLsbD 63, flr := bits (w 1) 51 0,
    icount := bits (w 2) 63 32, vcount := bits (w 2) 31 0, nattr := bits (w 3) 61 57, frontcw := (w 3).getLsbD 56,
    cull := bits (w 3) 55 54, isz := bits (w 3) 53 52, ibuf := bits (w 3) 51 0, vpsx := lo 4, vpsy := hi 4, vpox := lo 5,
    vpoy := hi 5, layer := bits (w 6) 63 48, dfunc := bits (w 6) 22 20, dwrite := (w 6).getLsbD 19, dh := bits (w 6) 15 0,
    ch := (List.range 4).map fun i => bits (w 7) (16 * i + 15) (16 * i), blend := (List.range 4).map fun i => w (8 + i),
    constc := [lo 12, hi 12, lo 13, hi 13], vout := bits (w 14) 51 0 }

/-- A reserved value of BLEND (R130). -/
def badBlend (b : Dword) : Bool :=
  13 < bits b 26 23 || 13 < bits b 22 19 || 4 < bits b 18 16 || 13 < bits b 15 12 || 13 < bits b 11 8 || 4 < bits b 7 5

/-- A non-zero reserved bit, a reserved value or a misaligned address in the record itself (R121); R120 asks no alignment of IBUF. -/
def DRec.bad (r : DRec) (d : List Dword) : Bool :=
  (d.zip drawReserved).any (fun p => p.1 &&& p.2 != 0) || 1 < r.topo || r.cull == 3 || r.isz == 3 || 16 < r.nattr ||
    r.vcount < 3 || r.icount == 0 || r.vlr % 128 != 0 || r.flr % 128 != 0 || r.vout % 16 != 0 ||
    r.blend.any badBlend

/-- Bound targets: the depth target and the colour targets. -/
def DRec.targets (r : DRec) : List Nat := (r.dh :: r.ch).filter (· != 0)

/-- Triangles of an instance (R122). -/
def DRec.tris (r : DRec) : Nat := if r.topo = 0 then r.vcount / 3 else r.vcount - 2

/-- Index positions of triangle `k` of an instance (R122). -/
def DRec.corners (r : DRec) (k : Nat) : List Nat :=
  if r.topo = 0 then [3 * k, 3 * k + 1, 3 * k + 2] else if k % 2 = 0 then [k, k + 1, k + 2] else [k + 1, k, k + 2]

/-- Bytes of a vertex record (R123). -/
def DRec.stride (r : DRec) : Nat := 16 * (1 + (r.nattr + 3) / 4)

/-- What R121 asks of a bound target; `blend` where it is a colour target. -/
def DRec.fitsTarget (r : DRec) (e : Ste) (blend : Option Dword) : Bool :=
  e.cls == 1 && r.layer ≤ e.dim2 && (r.layer == 0 || e.axes != 1) && (match blend with
    | none => e.fmt == 1 && e.ncomp == 0
    | some b => !((e.fmt == 11 || e.fmt == 12) && b.getLsbD 4))

/-- The checks of the bound targets, and the raster extent; none where code 12 refuses them (R121). -/
def State.checkTargets (s : State) (k : Who) (r : DRec) : List (Nat × Option Dword) → Except Halt (Option (Nat × Nat))
  | [] => .ok (some (65536, 65536))
  | (h, b) :: t => do
    s.toUpdate k.core k.ctx h
    match ← s.entry k.core k.ctx h with
    | none => .ok none
    | some e =>
      if !r.fitsTarget e b then .ok none
      else match ← s.checkTargets k r t with
        | some (x, y) => .ok (some (min x (e.dim0 + 1), min y (e.dim1 + 1)))
        | none => .ok none

/-- What DRAW's checks find: the code, the record, the two launch records, the target, the raster extent. -/
structure DrawChecked where
  code : Nat
  drec : DRec
  vert : Checked
  frag : Checked
  target : Target
  ext : Nat × Nat

/-- The checks of R121: the record itself, the launch records, the target, what is left of code 12 (log 42). -/
def State.checkDraw (s : State) (k : Who) (g : Group) (va off : Nat) (bar : Bool) : Except Halt (DrawChecked × State) := do
  let no : Checked := { code := 0, lrec := LRec.of [] }
  let fail (c : Nat) : DrawChecked := ⟨c, DRec.of [], no, no, .word 0 0, (0, 0)⟩
  if va % 128 ≠ 0 then .ok (fail 12, s)
  else
    let (d, s) ← s.readDwords k va 16
    let r := DRec.of d
    if r.bad d then .ok (fail 12, s)
    else
      let (v, s) ← s.checkLaunch k r.vlr
      if v.code ≠ 0 then .ok (fail v.code, s)
      else
        let (f, s) ← s.checkLaunch k r.flr
        if f.code ≠ 0 then .ok (fail f.code, s)
        else
          match s.targetOf g off bar with
          | none => .ok (fail 11, s)
          | some t =>
            let hs := (if r.dh = 0 then [] else [(r.dh, none)]) ++ r.colours.map fun e => (e.2, some (r.blend.getD e.1 0))
            let x ← s.checkTargets k r hs
            if hs.isEmpty || 2 ^ 32 ≤ r.vcount * r.icount || !(f.lrec.width == 16 || f.lrec.width == 32) || f.lrec.lanes ≠ f.lrec.width then
              .ok (fail 12, s)
            else
              match x with
              | none => .ok (fail 12, s)
              | some ext => .ok (⟨0, r, v, f, t, ext⟩, s)

/-! ### DRAW -/

/-- The stream's PSN counter and its latest draw's targets, and the state that has used them (R122, R132). -/
def State.useStream (s : State) (i : Issuer) (tris : Nat) (key : List Nat) : BitVec 40 × List Nat × State :=
  match i with
  | .queue q => ((s.queue q).psn, (s.queue q).bound, s.modQueue q fun k => { k with psn := k.psn + BitVec.ofNat 40 tris, bound := key })
  | .block b => (((s.block b).map (·.psn)).getD 0, ((s.block b).map (·.bound)).getD [],
      s.modBlock b fun k => { k with psn := k.psn + BitVec.ofNat 40 tris, bound := key })
  | .draw _ => (0, [], s)

/-- The launch record of a draw's work: GDX, GDY, GDZ and TASKPTR have no meaning there (R392), so its blocks stand in one line and
have no task record in memory (log 42). -/
def lineGrid (r : LRec) : LRec := { r with gdx := 2 ^ 32, gdy := 1, gdz := 1, taskptr := 0 }

/-- DRAW (R121, R122, R367). Its launches place blocks for it alone: CORES and the fragment record's CLSIZE have no meaning there
(log 42). -/
def execDraw (o : EOps) (s : State) : Out :=
  s.withEx fun x =>
    if badLaunch x.g o then s.illegal x
    else if s.launchFull x.g.issuer then s.park x .launch
    else
      let va := bits (s.readUni x o.lit .i64 o.a) 51 0
      let off := (s.readUni x o.lit .w32 o.b).toNat
      let s := s.releaseFor x.g 4
      let k := s.who x.g
      match s.checkDraw k x.g va off (o.minor.getLsbD 8) with
      | .error h => s.haltEx x h .read
      | .ok (c, s) =>
        if c.code ≠ 0 then s.answer x o.d (lres 0 c.code)
        else
          match s.addUse k.core k.ctx true c.drec.targets with
          | .error h => s.haltEx x h .hw
          | .ok s =>
            let r := c.drec
            let i := x.g.issuer
            let key := r.dh :: r.ch ++ [r.layer]
            let (prio, priv) := s.lends x.g
            let (seq, s) := s.useSeq i
            let (psn, old, s) := s.useStream i (r.tris * r.icount) key
            let (did, s) := s.fresh
            let (vl, s) := s.fresh
            let (fl, s) := s.fresh
            let home := x.g.stack
            let v := c.vert.launch r.vlr (.draw did) home prio priv seq c.target
            let f := c.frag.launch r.flr (.draw did) home prio priv seq c.target
            let n := r.vcount * r.icount
            let v := { v with role := .vertex, lrec := lineGrid { v.lrec with cores := false }, total := (n + v.lrec.lanes - 1) / v.lrec.lanes }
            let f := { f with role := .fragment, lrec := lineGrid { f.lrec with cores := false, clsize := 1 }, total := 0 }
            let d : Draw :=
              { drec := r, ctx := k.ctx, issuer := i, home := home, prio := f.prio, seq := seq, target := c.target, vlaunch := vl,
                flaunch := fl, flrec := f.lrec, psn0 := psn, tris := r.tris * r.icount, gate := old != key, uses := r.targets,
                extW := c.ext.1, extH := c.ext.2 }
            let s := { s with launches := (s.launches.insert vl v).insert fl f, draws := s.draws.insert did d }
            s.answer x o.d (lres seq 0)

/-! ### FEXPORT -/

/-- The sample of a fragment group's lane (R127, R390), with the ticket of its tile. -/
def QuadSet.at (q : QuadSet) (l : Nat) : Option (Nat × Sample) :=
  match q.quads[l / 4]? with
  | none => none
  | some (t, ss) => (ss[l % 4]?).map fun x => (t, x)

/-- The draw of a fragment group. -/
def State.drawOf (s : State) (g : Group) : Option Draw := g.frag.bind fun f => s.draw f.set.draw

/-- Whether a register of colours is absent from the group (R368). -/
def badColour (g : Group) (d : Draw) (a : BitVec 8) : Bool :=
  !isVec a || a.toNat % 4 != 0 || d.drec.colours.any fun e => 8 * g.rblk < a.toNat + 4 * e.1 + 4

/-- The fragments that a lane exports for its ticket. -/
def Group.fragsFor (g : Group) (d : Draw) (q : QuadSet) (ls : List Nat) (form : Nat) (a b : BitVec 8) (t : Nat) : List Frag :=
  ls.filterMap fun l => match q.at l with
    | some (k, p) =>
      if k ≠ t then none
      else some { x := p.x, y := p.y
                  colours := if form = 1 then [] else
                    d.drec.colours.flatMap fun e => (List.range 4).map fun c => g.readV (a.toNat + 4 * e.1 + c) l
                  z := if form = 0 then none else some (g.readV b.toNat l) }
    | none => none

/-- FEXPORT (R128, R368). -/
def execFexport (form : BitVec 2) (o : EOps) (s : State) : Out :=
  let n := form.toNat
  s.kernelOnly fun x =>
    match x.g.frag, s.drawOf x.g with
    | some f, some d =>
      let colour : Bool := n == 0 || n == 2
      let depth : Bool := n == 1 || n == 2
      if !x.whole || f.exported || (depth && !d.drec.zexp) || (n == 0 && d.drec.zexp) || (colour && badColour x.g d o.a) ||
        (depth && (!isVec o.b || badSrc x.g .w32 o.b)) then s.illegal x
      else
        let ls := if n = 3 then [] else x.list.filter fun l => !(x.g.readM 15).getLsbD l
        let s := s.modGroup x.gid fun g => { g with frag := some { f with exported := true } }
        (s.sendParts f.set (x.g.fragsFor d f.set ls n o.a o.b)).finish x
    | _, _ => s.illegal x

end Sys2Proof.Machine
end

