-- ==== Sys2Proof/Machine/Evict.lean ====
section
/-! DEFINITION. Eviction (R93, R175, R178, R349–R351): the choice of victims, the saving of groups and blocks, co-resident grids
(R92), the drain bound. -/

namespace Sys2Proof.Machine

/-! ### Who may be taken (R350) -/

/-- Existing groups of a block. -/
def State.groupsOfBlock (s : State) (blk : Nat) : List Nat :=
  match s.block blk with
  | some b => b.groups.filter fun g => (s.group g).isSome
  | none => []

/-- Existing groups of a block's cluster. -/
def State.clusterMates (s : State) (blk : Nat) : List Nat :=
  match s.block blk with
  | none => []
  | some b => match s.cluster b.cluster with
    | some c => c.blocks.flatMap fun k => s.groupsOfBlock k
    | none => s.groupsOfBlock blk

/-- The team of a group, if it owns or awaits the matrix unit (R177), else the group alone. -/
def State.teamMates (s : State) (gid : Nat) : List Nat :=
  match s.group gid with
  | none => []
  | some g => match (s.core g.core).teamOf g.blk g.num with
    | some t => t.members.filterMap fun n => (s.memberOf t n).map (·.1)
    | none => [gid]

/-- A resident block none of whose groups is: all have exited or are evicted. It waits for launches of its own (R78). -/
def State.hollow (s : State) (blk : Nat) (b : Block) : Bool :=
  b.resident && !b.dying && b.phase == .running && (s.groupsOfBlock blk).all fun k => match s.group k with
    | some g => g.res == .evicted
    | none => true

/-- Effective priority of a block's launch. -/
def State.blockPrio (s : State) (b : Block) : Nat :=
  match s.launch b.launch with
  | some l => l.prio
  | none => 0

/-- Whether all groups and blocks of a list may be taken: resident, outside any region, of lower priority than `p` where that
counts. -/
def State.takeable (s : State) (p : Option Nat) (gs : List Nat) : Bool :=
  let below (n : Nat) : Bool := match p with
    | some p => n < p
    | none => true
  gs.all fun k => match s.group k, s.block k with
    | some g, _ => g.res != .evicted && g.np.isNone && below g.prio
    | none, some b => !b.dying && below (s.blockPrio b)
    | none, none => true

/-- A group that counts as parked for an eviction (R350, R370). -/
def Group.idle (g : Group) : Bool := g.parked || g.yieldParked

/-- Insert by a key, the largest first. -/
def insertDesc {α : Type} (f : α → Nat) (x : α) : List α → List α
  | [] => [x]
  | y :: t => if f y ≤ f x then x :: y :: t else y :: insertDesc f x t

/-- Sort by a key, the largest first. -/
def sortDesc {α : Type} (f : α → Nat) (l : List α) : List α := l.foldl (fun a x => insertDesc f x a) []

/-- Groups of a core in the order in which they are taken: the lowest priority first, parked before ready, the latest placed
first; blocks without resident groups follow those of their priority (log 89). -/
def State.preyOrder (s : State) (core : Nat) : List Nat :=
  let gs := sortDesc (fun (e : Nat × Group) => e.2.placedAt) ((s.groupsOn core).filter fun e => e.2.res == .resident)
  let bs := (s.blocksOn core).filter fun e => s.hollow e.1 e.2
  (List.range 8).flatMap fun p =>
    let mine := gs.filter fun e => e.2.prio == p
    ((mine.filter fun e => e.2.idle) ++ mine.filter fun e => !e.2.idle).map (·.1) ++
      (bs.filter fun e => s.blockPrio e.2 == p).map (·.1)

/-- Blocks of a block's cluster that have no resident group. -/
def State.hollowMates (s : State) (blk : Nat) : List Nat :=
  match (s.block blk).bind fun b => s.cluster b.cluster with
  | some c => c.blocks.filter fun k => (s.block k).any fun b => s.hollow k b
  | none => []

/-- What is taken with a group, or with a block that has no resident one: its team; of a cluster or a block that would lose its
last group, the whole cluster (R310); all of its cluster where local store is needed. Groups already evicted stay so. -/
def State.unitOf (s : State) (whole : Bool) (taken : List Nat) (k : Nat) : List Nat :=
  let here (k : Nat) : Bool := match s.group k with
    | some g => g.res != .evicted
    | none => false
  let cluster (blk : Nat) : List Nat := (s.clusterMates blk).filter here ++ s.hollowMates blk
  match s.group k with
  | none => if (s.block k).isSome then (cluster k ++ [k]).eraseDups else []
  | some g =>
    let team := (s.teamMates k).filter here
    let rest := (s.groupsOfBlock g.blk).filter fun k => !taken.contains k && !team.contains k
    if whole || !rest.any here then (cluster g.blk ++ team).eraseDups else team

/-- The state as it would stand without some groups and blocks, and without the blocks that have no other group. -/
def State.without (s : State) (gs : List Nat) : State :=
  let s := gs.foldl (fun s k => s.modGroup k fun g => { g with res := .evicted }) s
  { s with blocks := s.blocks.map fun k b =>
      if b.resident && (gs.contains k || gs.any fun g => b.groups.contains g) &&
        (s.groupsOfBlock k).all (fun g => match s.group g with
          | some g => g.res == .evicted
          | none => true) then { b with resident := false } else b }

/-- The shortest prefix of a core's prey whose eviction lets something fit; what would take the group `spare` is passed over. -/
def State.prefixOf (s : State) (p : Option Nat) (whole : Bool) (fits : State → Bool) (spare : Option Nat) :
    List Nat → List Nat → Option (List Nat)
  | [], _ => none
  | k :: t, taken =>
    if taken.contains k then s.prefixOf p whole fits spare t taken
    else
      let u := s.unitOf whole taken k
      if !s.takeable p u || spare.any u.contains then s.prefixOf p whole fits spare t taken
      else
        let all := (taken ++ u).eraseDups
        if fits (s.without all) then some all else s.prefixOf p whole fits spare t all

/-- Victims among the prey of some cores: groups and teams, or whole blocks for work that needs local store too (R93, R350). -/
def State.choose (s : State) (p : Option Nat) (store : Bool) (fits : State → Bool) (prey : List Nat) : Option (List Nat) :=
  s.prefixOf p store fits none prey []

/-! ### Stopping (R351, steps 1 and 2) -/

/-- The tagged waits, table operations and register requests of a group are withdrawn (R175, R257, R305). -/
def State.withdraw (s : State) (gid : Nat) (g : Group) : State :=
  let unwait (b : Block) : Block := { b with waits := b.waits.filter fun w => w.gid != gid }
  let s := { s with blocks := s.blocks.map fun _ b => unwait b }
  let s := s.modCtx g.ctx fun c => { c with tableOps := c.tableOps.filter fun o => o.gid != gid }
  s.modCore g.core fun c => { c with rbFifo := c.rbFifo.filter fun r => r.gid != gid }

/-- Issue of a victim stops at its next clause boundary; what it waits for is withdrawn. -/
def State.drainGroup (s : State) (gid : Nat) : State :=
  match s.group gid with
  | none => s
  | some g =>
    if g.res ≠ .resident then s
    else (s.withdraw gid g).modGroup gid fun g => { g with res := .draining (s.core g.core).cycle }

/-- Whether a split completes a FENCE, for which eviction waits (R331), unless it waits for a tagged operation that eviction has
withdrawn. -/
def Group.fencing (g : Group) (sp : Split) : Bool :=
  !(g.splits.any fun e => e.2.park == .tag) && match sp.clause.map fun c => decode c.next with
    | some (.ok (.fence _, _)) => true
    | _ => false

/-- Issue of a group has stopped: every split is parked, between clauses or held other than at a fence. -/
def State.stopped (s : State) (gid : Nat) (g : Group) : Bool :=
  g.splits.all fun e => e.2.park != .no || e.2.clause.isNone || (s.splitHeld gid g e.1 e.2 && !g.fencing e.2)

/-- Operations of splits that wait with lanes of theirs still due: they travel with the group. -/
def Group.openOps (g : Group) : List Nat := g.splits.filterMap fun e => e.2.openOp

/-- A draining group can be saved (R351): its loads, stores and Grinder operations are done; so are its atomics, also those sent by
an instruction that waits for other pages (R320), copies and loops, unless the bound has passed. -/
def State.savable (s : State) (gid : Nat) (g : Group) : Bool :=
  let c := s.core g.core
  let own := g.openOps
  let sent (f : Flight) : Bool := s.dies.any fun d => d.2.atoms.any fun q => q.gid == gid && q.reply.isNone && q.flight == f.id
  let quiet (k : Ctr) : Bool := g.flights.all fun f => f.ctr != k || (own.contains f.id && !sent f)
  let steps : Bool := c.seqs.any (fun q => q.gid == gid) || c.teamSteps.any fun t => t.shares.any fun h => h.gid == gid
  (match g.res with
    | .draining _ => true
    | _ => false) &&
    s.stopped gid g && quiet .vl && quiet .vs && !s.grinds.any (fun e => e.2.gid == gid) &&
    (g.cut || (quiet .ce && quiet .at && !steps))

/-! ### Saving (R349, R351, steps 5 and 6) -/

/-- Codebooks of a context that leaves a core go to the records of its header; the first group restored after that on any core
brings the records there (R267). -/
def State.saveCodebooks (s : State) (ctx core : Nat) : State :=
  if (s.groupsOn core).any fun e => e.2.ctx == ctx then s
  else
    let mine := (s.core core).codebooks.filter fun e => e.2.ctx == ctx
    let out (c : Core) : Core := { c with loaded := c.loaded.filter (· != ctx) }
    let s : State := { s with cores := s.cores.map fun _ c => out c }
    let s := s.modCtx ctx fun c =>
      { c with cbrecs := mine.foldl (fun r e => match r.find e.1 with
        | none => r.insert e.1 ⟨e.2.entries, e.2.conflict⟩
        | some o => if o.entries = e.2.entries then r else r.insert e.1 { o with conflict := true }) c.cbrecs }
    if mine.isEmpty then s else s.writeRecords ctx

/-- A group is saved into its frame, with its engine operations, its loops and, as a member of the owning team, its tiles. What
an owning team has not taken back since its last restore stays with it. -/
def State.saveGroup (s : State) (gid : Nat) (team : Option Team) (owned : Bool) : State :=
  match s.group gid with
  | none => s
  | some g =>
    let s := (s.withdraw gid g).release g.core 4
    let c := s.core g.core
    let jobs := c.jobs.filter fun j => j.gid == gid
    let seqs := c.seqs.filter fun q => q.gid == gid
    let first (t : TeamStep) : Bool := (t.shares.head?.map (·.gid)) == some gid
    let ops := (g.jobs ++ jobs).flatMap (fun j => [j.id, j.entryId]) ++ (g.seqs ++ seqs).map (·.id)
    let lo := 2048 * g.quad
    let g' : Group :=
      { g with
        res := .evicted
        cut := false
        splits := g.splits.map fun _ sp => { sp with inLoop := false }
        jobs := g.jobs ++ jobs.map fun j => { j with started := false }
        seqs := g.seqs ++ seqs
        steps := g.steps ++ c.teamSteps.filter first
        locks := g.locks ++ c.locks.filter fun k => ops.contains k.op
        tiles := if owned then (c.tiles.filter fun e => lo ≤ e.1 && e.1 < lo + 2048).map fun e => (e.1 - lo, e.2) else g.tiles
        satcnt := if owned then (c.satcnt.filter fun e => e.1 / 8 == g.quad).map fun e => (e.1 % 8, e.2) else g.satcnt
        team := team
        teamOwned := owned || g.regain
        regain := false }
    let s := ((s.setGroup gid g').writeFrame g').modCore g.core fun c =>
      { c with
        jobs := c.jobs.filter fun j => j.gid != gid
        seqs := c.seqs.filter fun q => q.gid != gid
        teamSteps := c.teamSteps.filter fun t => !first t
        locks := c.locks.filter fun k => !ops.contains k.op }
    ((s.saveCodebooks g.ctx g.core).deregister g.ctx g.core).tick g.core (blockBytes g.width g.rblk / 64 + 16)

/-- A block whose groups are all evicted goes with them (R309, R350): its barrier bindings, its Tamper state, its local store. -/
def State.saveBlock (s : State) (blk : Nat) : State :=
  match s.block blk with
  | none => s
  | some b =>
    if !b.resident || b.dying || !(s.groupsOfBlock blk).all (fun k => match s.group k with
      | some g => g.res == .evicted
      | none => true) then s
    else
      let c := s.core b.core
      let bars := (c.slots.filter fun e => e.2.1 == blk).map fun e => e.2.2
      let s := (s.unbind b.core blk).modCore b.core fun c =>
        { c with locks := c.locks.filter fun k => k.op != blk, tamperQ := c.tamperQ.filter (· != blk) }
      let s := s.modBlock blk fun b =>
        { b with resident := false, bars := bars, tlocks := c.locks.filter fun k => k.op == blk }
      let s := s.writeBlockFrame b
      if b.phase = .tamper then s.putTask blk 1 else s

/-- A team is saved together: its request or its ownership is withdrawn (R177). -/
def State.saveTeam (s : State) (gid : Nat) : State :=
  match s.group gid with
  | none => s
  | some g =>
    let c := s.core g.core
    let gs := s.teamMates gid
    let team := c.teamOf g.blk g.num
    let owned : Bool := match c.owner with
      | some t => t.has g.blk g.num
      | none => false
    let s := gs.foldl (fun s k => s.saveGroup k team owned) s
    let s := match team with
      | none => s
      | some _ => s.modCore g.core fun c =>
        { c with owner := if owned then none else c.owner, teams := if owned then c.teams else c.teams.filter fun t => !t.has g.blk g.num }
    s.saveBlock g.blk

/-- Grinder operations of a block have ended, where its last resident groups are among `gs`: its local store goes with them
(R285). -/
def State.storeStill (s : State) (blk : Nat) (gs : List Nat) : Bool :=
  !s.grinds.any (fun e => e.2.blk == blk) || (s.groupsOfBlock blk).any fun k => !gs.contains k && match s.group k with
    | some g => g.res != .evicted
    | none => false

/-- A victim: a group stops and drains, a block without a resident group is saved. -/
def State.take (s : State) (k : Nat) : State :=
  match s.block k with
  | some _ => if s.storeStill k [] then s.saveBlock k else s
  | none => s.drainGroup k

/-- Work is evicted for a context: the promise of R178 is noted on each core of a group. -/
def State.evictFor (s : State) (inc : Nat) (gs : List Nat) : State :=
  gs.foldl (fun s k => match s.group k with
    | none => s.take k
    | some g =>
      (s.take k).modCore g.core fun c =>
        if c.restore.any fun r => r.out == g.ctx && r.inc == inc then c
        else { c with restore := c.restore ++ [{ out := g.ctx, inc := inc }] }) s

/-- A block of a core whose groups are all evicted, the last of the others having exited since: it goes with them (R350). -/
def State.stranded (s : State) (core : Nat) : Option Nat :=
  ((s.blocksOn core).find? fun e => s.hollow e.1 e.2 && !(s.groupsOfBlock e.1).isEmpty && s.storeStill e.1 []).map (·.1)

/-- The first group of a core that can be saved, with its team. -/
def State.nextSave (s : State) (core : Nat) : Option Nat :=
  ((s.groupsOn core).find? fun e =>
    let gs := s.teamMates e.1
    s.storeStill e.2.blk gs && gs.all fun k => match s.group k with
      | some g => s.savable k g
      | none => true).map (·.1)

/-! ### Who asks for room (R92, R93) -/

/-- Work that waits for room: its priority and context, whether it needs local store, the pools of cores to try one after the
other, the test that it fits. -/
structure Demand where
  prio : Nat
  ctx : Nat
  store : Bool
  pools : List (List Nat)
  fits : State → Bool

/-- The cores of a die. -/
def coresOf (d : Nat) : List Nat := (List.range 40).map (40 * d + ·)

/-- Whether the issuer of a launch, or of the draw whose work a launch is, is a resident block (R93). -/
def State.childOf (s : State) (l : Launch) : Bool :=
  let resident (i : Issuer) : Bool := match i with
    | .block b => match s.block b with
      | some k => k.resident
      | none => false
    | _ => false
  match l.issuer with
  | .draw d => match s.draw d with
    | some k => resident k.issuer
    | none => false
  | i => resident i

/-- What a launch asks for; a child launch of a resident block evicts nobody. -/
def State.demandOf (s : State) (lid : Nat) (l : Launch) : Option Demand :=
  let child := s.childOf l
  let dies := dieOrder l.cursor
  if child then none
  else if l.wantsAll then
    some ⟨l.prio, l.lrec.ctx, l.lrec.lsbytes != 0, [dies.flatMap coresOf], fun s => (s.placeAll lid false (l.total + 1)).isSome⟩
  else
    let pools := if l.lrec.clsize = 1 then dies.flatMap fun d => (coresOf d).map fun c => [c]
      else dies.map coresOf ++ (if l.lrec.straddle then dies.flatMap fun d =>
        (dies.filter (ringNeighbours d)).map fun n => coresOf d ++ coresOf n else [])
    some ⟨l.prio, l.lrec.ctx, l.lrec.lsbytes != 0, pools, fun s => (s.placeNext lid l false).isSome⟩

/-- The launches that ask, in placement order; none behind a CORES launch at the head. -/
def State.askers (s : State) : List (Nat × Launch) :=
  match s.placeOrder with
  | [] => []
  | (lid, l) :: t => if l.wantsAll then [(lid, l)] else (lid, l) :: t.filter fun e => !e.2.wantsAll

/-- Quads whose tickets are all issued wait for a core of their die (R127). -/
def State.quadsReady (s : State) (q : QuadSet) : Bool :=
  q.quads.all fun e => match s.tickets.find e.1 with
    | some t => t.issued
    | none => true

/-- The fragment launch of a set of quads. -/
def State.quadLaunch (s : State) (q : QuadSet) : Option (Nat × Launch) :=
  (s.draw q.draw).bind fun d => (s.launch d.flaunch).map fun l => (d.flaunch, l)

/-- What a set of quads asks for: a core of its die. -/
def State.quadDemand (s : State) (q : QuadSet) : Option Demand :=
  ((s.quadLaunch q).filter fun e => !s.childOf e.2).map fun (_, l) =>
    ⟨l.prio, l.lrec.ctx, l.lrec.lsbytes != 0, (coresOf q.die).map fun c => [c], fun s => (bestOf q.die (s.fitBlock l)).isSome⟩

/-- Whether some group is being evicted. -/
def State.evicting (s : State) : Bool := s.groups.any fun e => match e.2.res with
  | .draining _ => true
  | _ => false

/-- The first demand that fits nowhere and whose room an eviction can make: its context and the victims. -/
def State.evictionPlan (s : State) : Option (Nat × List Nat) :=
  if s.evicting then none
  else
    let ds := s.askers.filterMap (fun e => s.demandOf e.1 e.2) ++ (s.quadSets.filter s.quadsReady).filterMap s.quadDemand
    (ds.filter fun d => !d.fits s).findSome? fun d =>
      d.pools.findSome? fun p => (s.choose (some d.prio) d.store d.fits (p.flatMap s.preyOrder)).map fun gs => (d.ctx, gs)

/-- The core of a victim. -/
def State.coreOf (s : State) (k : Nat) : Option Nat :=
  match s.group k with
  | some g => some g.core
  | none => (s.block k).map (·.core)

/-- PARTIAL_EVICTION (R93, R350, R351): a core saves a group that has drained, or its victims stop. -/
def execPartialEviction (core : Nat) (s : State) : Out :=
  .next (match s.nextSave core with
    | some k => s.saveTeam k
    | none =>
      match s.stranded core with
      | some b => s.saveBlock b
      | none =>
        match s.evictionPlan with
        | some (inc, gs) => if gs.any fun k => s.coreOf k == some core then s.evictFor inc gs else s
        | none => s)

/-- EVICTION_DRAIN_BOUND (R351): the group's copies, loops and returns are cut off, 8,192 cycles after it has stopped issuing. -/
def execEvictionDrainBound (gid : Nat) (s : State) : Out :=
  .next (s.modGroup gid fun g => match g.res with
    | .draining t =>
      if max t g.lastIssue + 8192 ≤ (s.core g.core).cycle && s.stopped gid g then { g with cut := true } else g
    | _ => g)

/-- The thermal scheduler lowers the clock of a die by one operating point, down to the lowest (R354). -/
def State.lowerClock (s : State) (die : Nat) : State :=
  s.modDie die fun d => { d with clockDown := min Config.clockSteps (d.clockDown + 1) }

/-- The clock of a die rises by one operating point, once no group of the die is in a region (R354) and some column of it is
plausible (R387). -/
def State.raiseClock (s : State) (die : Nat) : State :=
  if (s.die die).noPlausible.isSome || s.groups.any fun e => !e.2.isQueue && dieOf e.2.core == die && e.2.res != .evicted && e.2.np.isSome
  then s
  else s.modDie die fun d => { d with clockDown := d.clockDown - 1 }

/-- The thermal scheduler takes the work of a core off its die (R21, R350): the first of its prey that no region holds, with its
whole blocks, which restore on another die (log 85). Where regions hold all of it, the clock of the die falls instead (R354). -/
def State.migrate (s : State) (core : Nat) : State :=
  if s.evicting || s.pkg.stopped then s
  else
    let units := (s.preyOrder core).map fun k => s.unitOf true [] k
    match units.find? fun u => s.takeable none u with
    | none => if units.isEmpty then s else s.lowerClock (dieOf core)
    | some gs =>
      let blks := (gs.filterMap fun k => match s.group k with
        | some g => some g.blk
        | none => some k).eraseDups
      let hot (b : Block) : Bool := dieOf b.core == dieOf core && b.resident
      let s := blks.foldl (fun s b => s.modBlock b fun b => if hot b then { b with shun := some (dieOf core) } else b) s
      gs.foldl (fun s k => s.take k) s

/-- CORES_GRID_PLACE (R92): the launch at the head of the order places its whole grid at once. -/
def execCoresGridPlace (s : State) : Out :=
  .next (match s.placeOrder with
    | [] => s
    | (lid, l) :: _ =>
      if !l.wantsAll || s.pkg.stopped then s
      else
        match s.placeAll lid true (l.total + 1) with
        | some s => s.modLaunch lid fun l => { l with placedAll := true }
        | none =>
          if s.evicting then s
          else match s.demandOf lid l with
            | none => s
            | some d =>
              if d.fits s then s
              else match s.choose (some d.prio) d.store d.fits (d.pools.flatten.flatMap s.preyOrder) with
                | some gs => s.evictFor d.ctx gs
                | none => s)

/-- Whether a register request of `t` blocks for a split can be granted (R175). -/
def State.regRoom (s : State) (core : Nat) (x : Ex) (t : Nat) : Bool :=
  s.regBytes core + blockBytes x.g.width (t - x.g.rblk) ≤ (s.core core).poolb0 * 8192

/-- The head request of a core's register FIFO that no space satisfies while every holder is parked (R175): the requester's
context and the victims whose eviction makes room. -/
def State.regVictims (s : State) (core : Nat) : Option (Nat × List Nat) :=
  match s.rbHead core with
  | none => none
  | some (x, t, _, _) =>
    let gs := s.groupsOn core
    if s.regRoom core x t || !gs.all fun e => e.2.parked then none
    else
      let prey := (sortDesc (fun (e : Nat × Group) => e.2.placedAt) (gs.filter fun e => e.2.res == .resident)).map (·.1)
      (s.prefixOf none false (fun s => s.regRoom core x t) (some x.gid) prey []).map fun vs => (x.g.ctx, vs)

/-- A core evicts for its register FIFO: what it has saved returns behind the grant. -/
def State.regClearing (s : State) (core : Nat) : Bool :=
  (match s.rbHead core with
    | none => false
    | some (x, t, _, _) => !s.regRoom core x t && (s.groupsOn core).any fun e => e.2.res != .resident) || (s.regVictims core).isSome

/-- REGISTER_FIFO_EVICTION (R175): every holder is parked and the head request cannot be granted. -/
def execRegisterFifoEviction (core : Nat) (s : State) : Out :=
  .next (if (s.groupsOn core).any fun e => e.2.res != .resident then s
    else match s.regVictims core with
      | some (inc, vs) => s.evictFor inc vs
      | none => s)

end Sys2Proof.Machine
end

