-- ==== Sys2Proof/Machine/Raster.lean ====
section
/-! DEFINITION. The front end's half of a draw: PRIMITIVE_ASSEMBLY (R123, R124), RASTERIZE_TRIANGLE (R125, R127, R390),
TICKET_ISSUE (R126, R131, R132), FRAGMENT_GROUP_PLACE (R127). Positions, areas and weights are exact rationals. -/

namespace Sys2Proof.Machine

/-! ### Exact values -/

/-- n × 2^e, with a sign. -/
def ratOf (neg : Bool) (n : Nat) (e : Int) : Rat :=
  let m : Int := if neg then -(n : Int) else n
  if 0 ≤ e then mkRat (m * 2 ^ e.toNat) 1 else mkRat m (2 ^ (-e).toNat)

/-- The value of an FP32 word; none where it is not finite. -/
def f32Rat (w : Word) : Option Rat :=
  match FF.fp32.decode w.toNat with
  | .fin neg n e => some (ratOf neg n e)
  | _ => none

/-- A rational rounded once into a format by RNE (R9, R34). -/
def FF.ofRat (f : FF) (q : Rat) : Nat :=
  (f.div .rne (.fin (q < 0) q.num.natAbs 0) (.fin false q.den 0)).bits

/-- A rational as an FP32 word. -/
def f32Of (q : Rat) : Word := BitVec.ofNat 32 (FF.fp32.ofRat q)

/-- Values of a list of FP32 words, if all are finite. -/
def f32Rats : List Word → Option (List Rat)
  | [] => some []
  | w :: t =>
    match f32Rat w, f32Rats t with
    | some q, some r => some (q :: r)
    | _, _ => none

/-- Floor and ceiling of a / 256. -/
def floor256 (a : Int) : Int := a / 256
def ceil256 (a : Int) : Int := -((-a) / 256)

/-! ### Clipping and projection (R124) -/

/-- A vertex of a polygon being clipped, with its barycentrics of the original vertices. -/
structure ClipVertex where
  x : Rat
  y : Rat
  z : Rat
  w : Rat
  b0 : Rat
  b1 : Rat
  b2 : Rat

/-- The viewport: scales and offsets. -/
structure Viewport where
  sx : Rat
  sy : Rat
  ox : Rat
  oy : Rat

/-- Where the line between two vertices has weight `t` of the second. -/
def ClipVertex.mix (a b : ClipVertex) (t : Rat) : ClipVertex :=
  let f (p q : Rat) : Rat := p + t * (q - p)
  ⟨f a.x b.x, f a.y b.y, f a.z b.z, f a.w b.w, f a.b0 b.b0, f a.b1 b.b1, f a.b2 b.b2⟩

/-- The half spaces that R124 keeps: w ≥ 2^−20, |x_s| ≤ 2^20, |y_s| ≤ 2^20, each as a value that must not be negative,
in the order in which they clip (log 100). -/
def Viewport.planes (v : Viewport) : List (ClipVertex → Rat) :=
  let g : Rat := 2 ^ 20
  [fun p => p.w - mkRat 1 (2 ^ 20),
   fun p => g * p.w - (v.sx * p.x + v.ox * p.w),
   fun p => g * p.w + (v.sx * p.x + v.ox * p.w),
   fun p => g * p.w - (v.sy * p.y + v.oy * p.w),
   fun p => g * p.w + (v.sy * p.y + v.oy * p.w)]

/-- A polygon clipped against one half space, in the order of its vertices (log 100). -/
def clipBy (d : ClipVertex → Rat) (vs : List ClipVertex) : List ClipVertex :=
  (vs.zip (vs.drop 1 ++ vs.take 1)).flatMap fun (a, b) =>
    let p := d a
    let q := d b
    (if 0 ≤ p then [a] else []) ++ (if p * q < 0 then [a.mix b (p / (p - q))] else [])

/-- The fan of a polygon from its first vertex, as the clipping leaves it (log 100). -/
def fan {α : Type} : List α → List (List α)
  | a :: t => (t.zip (t.drop 1)).map fun (b, c) => [a, b, c]
  | [] => []

/-- An FP32 word snapped to 1/256 pixel. -/
def snap (w : Word) : Int :=
  match FF.fp32.decode w.toNat with
  | .fin neg n e => (roundInt .rne neg n (e + 8)).1
  | _ => 0

/-- A vertex projected and snapped. -/
def Viewport.project (v : Viewport) (p : ClipVertex) : SetupVertex :=
  let b (q : Rat) : Int × Nat := (q.num, q.den)
  { x := snap (f32Of (p.x / p.w * v.sx + v.ox)), y := snap (f32Of (p.y / p.w * v.sy + v.oy)), z := f32Of (p.z / p.w),
    iw := f32Of (1 / p.w), b0 := b p.b0, b1 := b p.b1, b2 := b p.b2 }

/-- The vertices that the model leaves open (log 34). -/
def SetupVertex.ofInts (l : List Int) : SetupVertex :=
  let i (n : Nat) : Int := l.getD n 0
  let q (n : Nat) : Int × Nat := (i n, (i (n + 1)).natAbs)
  { x := i 0, y := i 1, z := BitVec.ofInt 32 (i 2), iw := BitVec.ofInt 32 (i 3), b0 := q 4, b1 := q 6, b2 := q 8 }

/-- The pieces of a triangle, from the words x, y, z, w of its three vertices and those of the viewport (R124). -/
def piecesOf (vp : List Word) (vs : List (List Word)) : List (List SetupVertex) :=
  match f32Rats vp, f32Rats vs.flatten with
  | some [sx, sy, ox, oy], some [x0, y0, z0, w0, x1, y1, z1, w1, x2, y2, z2, w2] =>
    let v : Viewport := ⟨sx, sy, ox, oy⟩
    let tri : List ClipVertex := [⟨x0, y0, z0, w0, 1, 0, 0⟩, ⟨x1, y1, z1, w1, 0, 1, 0⟩, ⟨x2, y2, z2, w2, 0, 0, 1⟩]
    fan ((v.planes.foldl (fun p d => clipBy d p) tri).map v.project)
  | _, _ => (Config.wildPieces (vs.flatten ++ vp)).map fun p => p.map SetupVertex.ofInts

/-- Twice the signed area of a piece, y pointing down: positive where it runs clockwise. -/
def pieceArea (p : List SetupVertex) : Int :=
  match p with
  | [a, b, c] => (b.x - a.x) * (c.y - a.y) - (c.x - a.x) * (b.y - a.y)
  | _ => 0

/-! ### Bounding boxes (R125) -/

/-- Tiles of a stack in the bounding box of a triangle within the raster extent: ty ascending, then tx. -/
def SetupTri.tiles (t : SetupTri) (w h stack : Nat) : List (Nat × Nat) :=
  let vs := t.pieces.flatten
  match vs with
  | [] => []
  | a :: _ =>
    let lo (f : SetupVertex → Int) : Int := vs.foldl (fun m v => min m (f v)) (f a)
    let hi (f : SetupVertex → Int) : Int := vs.foldl (fun m v => max m (f v)) (f a)
    let xa := max 0 (ceil256 (lo (·.x) - 128))
    let ya := max 0 (ceil256 (lo (·.y) - 128))
    let xb := min ((w : Int) - 1) (floor256 (hi (·.x) - 128))
    let yb := min ((h : Int) - 1) (floor256 (hi (·.y) - 128))
    if xb < xa ∨ yb < ya then []
    else
      let tx := xa.toNat / 8
      let ty := ya.toNat / 8
      (List.range (yb.toNat / 8 + 1 - ty)).flatMap fun j =>
        ((List.range (xb.toNat / 8 + 1 - tx)).map fun i => (tx + i, ty + j)).filter fun t => (t.1 + t.2) % 2 == stack

/-! ### PRIMITIVE_ASSEMBLY -/

/-- Slots of triangle `n` of a draw (R122, R123). -/
def Draw.slots (d : Draw) (n : Nat) : List Nat :=
  (d.drec.corners (n % d.drec.tris)).map fun i => n / d.drec.tris * d.drec.vcount + i

/-- Whether the vertex group of a slot has exited (R123). -/
def State.slotDone (s : State) (d : Draw) (v : Nat) : Bool :=
  match s.launch d.vlaunch with
  | none => true
  | some l =>
    let lin := v / l.lrec.lanes
    match s.blocks.find? fun b => b.2.launch == d.vlaunch && b.2.lin == lin with
    | some b => b.2.phase != .tamper && match b.2.groups[v % l.lrec.lanes / l.lrec.width]? with
      | some g => s.departed g
      | none => true
    | none => lin < l.next && !l.again.any fun e => e.1 == lin

/-- Unfinished draws of a draw's stream that were accepted before it (R122). -/
def State.earlier (s : State) (did : Nat) (d : Draw) : List (Nat × Draw) :=
  s.draws.filter fun e => e.1 < did && e.2.issuer == d.issuer && e.2.status.isNone

/-- Who makes a draw's accesses (R131, R292). -/
def State.drawWho (s : State) (d : Draw) : Who :=
  ⟨none, d.ctx, ((s.launch d.flaunch).map (·.priv)).getD false⟩

/-- A draw's own accesses halt (log 25). -/
def State.haltDraw (s : State) (did : Nat) (d : Draw) (h : Halt) : State :=
  let (t, s) := s.haltEngine (s.drawWho d) Config.unitCore.toNat 0 0 h
  match t with
  | some t => s.modDraw did fun d => { d with tokens := [t] }
  | none => s

/-- Run the work of a draw unless a page that it needs is awaited; an invalid reply is fatal to its context (log 38). -/
def State.onDraw (s : State) (did : Nat) (d : Draw) (f : State → Except Halt State) : State :=
  if d.status.isSome || (s.ctx d.ctx).fatal.isSome || s.pkg.stopped || anyPending d.tokens then s
  else match d.tokens.find? fun t => t.status == .invalid with
    | some t => s.engineFatal d.ctx Config.unitCore.toNat 0 0x10 t.va
    | none => match f (s.modDraw did fun d => { d with tokens := [] }) with
      | .ok s => s
      | .error h => s.haltDraw did d h

/-- The words x, y, z, w of vertex records. -/
def State.readVertices (s : State) (k : Who) : List Nat → Except Halt (List (List Word) × State)
  | [] => .ok ([], s)
  | a :: t => do
    let (bs, s) ← s.engineRead k a 16
    let (r, s) ← s.readVertices k t
    .ok (((List.range 4).map fun i => BitVec.ofNat 32 (bytesToNat ((bs.drop (4 * i)).take 4))) :: r, s)

/-- A triangle set up by both stacks, or by the home stack alone where its box meets no tile of the other (R124). -/
def Draw.setUp (d : Draw) (t : Option SetupTri) : Draw :=
  match t with
  | none => d
  | some t =>
    let on (k : Nat) : Bool := d.home == k || !(t.tiles d.extW d.extH k).isEmpty
    { d with setup0 := if on 0 then d.setup0 ++ [t] else d.setup0, setup1 := if on 1 then d.setup1 ++ [t] else d.setup1 }

/-- A triangle after culling, from its pieces (R124). -/
def Draw.cull (d : Draw) (psn : BitVec 40) (recs : List Nat) (ps : List (List SetupVertex)) : Option SetupTri :=
  let ps := ps.filter fun p => pieceArea p != 0
  let area := (ps.map pieceArea).sum
  let front : Bool := (0 < area : Bool) == d.drec.frontcw
  if area = 0 ∨ (d.drec.cull = 1 ∧ !front) ∨ (d.drec.cull = 2 ∧ front) then none else some ⟨psn, recs, ps, front⟩

/-- PRIMITIVE_ASSEMBLY (R122–R124): the next triangle of a draw, once its vertex groups have exited. -/
def execPrimitiveAssembly (did : Nat) (s : State) : Out :=
  .next (match s.draw did with
    | none => s
    | some d =>
      let n := d.nextTri
      if d.tris ≤ n || (s.earlier did d).any (fun e => e.2.nextTri < e.2.tris) || !(d.slots n).all (s.slotDone d) then s
      else s.onDraw did d fun s => do
        let recs := (d.slots n).map fun v => (d.drec.vout + v * d.drec.stride) % 2 ^ 52
        let (vs, s) ← s.readVertices (s.drawWho d) recs
        let ps := piecesOf [d.drec.vpsx, d.drec.vpsy, d.drec.vpox, d.drec.vpoy] vs
        let t := d.cull (d.psn0 + BitVec.ofNat 40 n) recs ps
        .ok (s.modDraw did fun d => { d.setUp t with nextTri := n + 1 }))

/-! ### Samples (R125, R127) -/

/-- The three edge functions of a piece at a sample, each opposite a vertex, and whether they cover it. -/
def edgesAt (p : List SetupVertex) (px py : Int) : List Int × Bool :=
  match p with
  | [a, b, c] =>
    let fwd : Bool := 0 < pieceArea p
    let e (u v : SetupVertex) : Int := (v.x - u.x) * (py - u.y) - (v.y - u.y) * (px - u.x)
    let covers (u v : SetupVertex) : Bool :=
      let x := if fwd then e u v else -(e u v)
      let dx := if fwd then v.x - u.x else u.x - v.x
      let dy := if fwd then v.y - u.y else u.y - v.y
      0 < x || (x == 0 && (dy < 0 || (dy == 0 && 0 < dx)))
    ([e b c, e c a, e a b], covers b c && covers c a && covers a b)
  | _ => ([], false)

/-- Sum of products of edge functions and rationals. -/
def weigh (es : List Int) (qs : List Rat) : Rat := ((es.zip qs).map fun e => (e.1 : Rat) * e.2).sum

/-- A pixel's sample in the plane of a piece: interpolated depth and barycentrics, whether it is covered (R125, R127), by its
exact depth (log 82). -/
def sampleOf (p : List SetupVertex) (w h x y : Nat) : Sample :=
  let (es, inside) := edgesAt p (256 * x + 128) (256 * y + 128)
  let (z, ok) : Word × Bool := match f32Rats (p.map (·.z)) with
    | some zs =>
      let q := weigh es zs / (pieceArea p : Rat)
      (f32Of q, decide (0 ≤ q ∧ q ≤ 1))
    | none =>
      let z := Config.wildSample (0 :: es)
      (z, match f32Rat z with
        | some q => decide (0 ≤ q ∧ q ≤ 1)
        | none => false)
  let iw := (p.map fun v => ((f32Rat v.iw).getD 0))
  let den := weigh es iw
  let part (f : SetupVertex → Int × Nat) (k : Int) : Word :=
    if den = 0 then Config.wildSample (k :: es)
    else f32Of (weigh es ((p.zip iw).map fun e => mkRat (f e.1).1 (f e.1).2 * e.2) / den)
  { x := x, y := y, covered := inside && decide (x < w) && decide (y < h) && ok, z := z, b1 := part (·.b1) 1, b2 := part (·.b2) 2 }

/-- The samples of quad (a, b), if any of them is covered; a helper pixel takes the plane of the first piece that covers a
sample of the quad (log 39). -/
def quadOf (ps : List (List SetupVertex)) (w h a b : Nat) : Option (List Sample) :=
  let px := [(2 * a, 2 * b), (2 * a + 1, 2 * b), (2 * a, 2 * b + 1), (2 * a + 1, 2 * b + 1)]
  let rows := ps.map fun p => px.map fun e => sampleOf p w h e.1 e.2
  match rows.find? fun r => r.any (·.covered) with
  | none => none
  | some main =>
    some (main.zipIdx.map fun e => ((rows.filterMap fun r => r[e.2]?).find? (·.covered)).getD e.1)

/-- The quads of a triangle in a tile, in emission order (R390). -/
def SetupTri.quads (t : SetupTri) (w h tx ty : Nat) : List (List Sample) :=
  (List.range 4).flatMap fun j => (List.range 4).filterMap fun i => quadOf t.pieces w h (4 * tx + i) (4 * ty + j)

/-! ### RASTERIZE_TRIANGLE -/

/-- The target whose bank is a tile's home (R126). -/
def DRec.homeTarget (r : DRec) : Nat := if r.dh ≠ 0 then r.dh else (r.ch.find? (· != 0)).getD 0

/-- The ticket of a tile (R126), not yet issued. -/
def Draw.ticket (d : Draw) (did : Nat) (psn : BitVec 40) (stack tx ty : Nat) (qs : List (List Sample)) : Ticket :=
  let home := tilePlace d.drec.homeTarget d.drec.layer tx ty
  let others := (d.drec.colours.map fun e => tilePlace e.2 d.drec.layer tx ty).filter (· != home)
  { draw := did, psn := psn, tx := tx, ty := ty, stack := stack, die := home.1, bank := home.2, followers := others.eraseDups,
    samples := qs.flatten.filter (·.covered), npart := 0 }

/-- Quads in groups of `n`. -/
def chunks {α : Type} (n : Nat) : Nat → List α → List (List α)
  | 0, _ => []
  | k + 1, l => if l.isEmpty then [] else l.take n :: chunks n k (l.drop n)

/-- Tickets for the tiles of a triangle that a quad touches: the quads with their die and ticket, and the state. -/
def State.bookTiles (s : State) (did : Nat) (d : Draw) (t : SetupTri) (stack : Nat) :
    List (Nat × Nat) → List (Nat × Nat × List Sample) × State
  | [] => ([], s)
  | (tx, ty) :: r =>
    let qs := t.quads d.extW d.extH tx ty
    if qs.isEmpty then s.bookTiles did d t stack r
    else
      let k := d.ticket did t.psn stack tx ty qs
      let (id, s) := s.fresh
      let (l, s) := ({ s with tickets := s.tickets.insert id k }).bookTiles did d t stack r
      (qs.map (fun q => (k.die, id, q)) ++ l, s)

/-- Pack the quads of a triangle by home die, and count each ticket's parts (R126, R127). -/
def State.packQuads (s : State) (did : Nat) (d : Draw) (t : SetupTri) (qs : List (Nat × Nat × List Sample)) : State :=
  let sets := (List.range 8).flatMap fun die =>
    let mine := (qs.filter fun q => q.1 == die).map (·.2)
    (chunks (d.flrec.width / 4) mine.length mine).map fun c =>
      ({ draw := did, psn := t.psn, die := die, front := t.front, recs := t.recs, quads := c } : QuadSet)
  let s := { s with quadSets := s.quadSets ++ sets }
  (qs.map fun q => q.2.1).eraseDups.foldl (fun s k =>
    let n := (sets.filter fun c => c.quads.any fun q => q.1 == k).length
    { s with tickets := s.tickets.modify k fun t => { t with npart := n } }) s

/-- Tickets of a stack that are not yet issued, in order of arrival. -/
def State.pendingTickets (s : State) (stack : Nat) : List (Nat × Ticket) :=
  s.tickets.filter fun t => !t.2.issued && t.2.stack == stack

/-- The triangles that a stack has still to rasterize. -/
def Draw.setup (d : Draw) (stack : Nat) : List SetupTri := if stack = 0 then d.setup0 else d.setup1

/-- RASTERIZE_TRIANGLE (R125–R127, R390): the next triangle of a draw on a stack whose tickets have all been issued; the
draws of a stream follow each other. -/
def execRasterizeTriangle (did stack : Nat) (s : State) : Out :=
  .next (match s.draw did with
    | none => s
    | some d =>
      match d.setup stack with
      | [] => s
      | t :: rest =>
        if !(s.pendingTickets stack).isEmpty || (s.earlier did d).any (fun e => !(e.2.setup stack).isEmpty) ||
          (s.ctx d.ctx).fatal.isSome || s.pkg.stopped then s
        else
          let (qs, s) := s.bookTiles did d t stack (t.tiles d.extW d.extH stack)
          (s.packQuads did d t qs).modDraw did fun d =>
            if stack = 0 then { d with setup0 := rest } else { d with setup1 := rest })

/-! ### TICKET_ISSUE -/

/-- Every primitive of a draw has been rasterized and every ticket of it has retired. -/
def State.drawDone (s : State) (did : Nat) (d : Draw) : Bool :=
  d.nextTri == d.tris && d.setup0.isEmpty && d.setup1.isEmpty && !s.tickets.any fun t => t.2.draw == did

/-- R132: a draw that binds other targets than the one before it in its stream waits for all that precede it. -/
def State.gateOpen (s : State) (did : Nat) (d : Draw) : Bool :=
  let line := s.earlier did d ++ [(did, d)]
  line.all fun g => !g.2.gate || line.all fun e => g.1 ≤ e.1 || s.drawDone e.1 e.2

/-- Samples that a bank's fragment buffer holds room for (R126). -/
def State.bankLoad (s : State) (die bank : Nat) : Nat :=
  ((KV.get [] (s.die die).queues bank).map fun e => match s.tickets.find e.ticket with
    | some t => t.samples.length
    | none => 0).sum

/-- Whether a bank has a free entry and room for `n` fragments. -/
def State.bankRoom (s : State) (n : Nat) (b : Nat × Nat) : Bool :=
  (KV.get [] (s.die b.1).queues b.2).length < 64 && s.bankLoad b.1 b.2 + n ≤ 256

/-- The tiles that a ticket needs; a tile that is away halts (R131, R237). -/
def State.needTiles (s : State) (k : Who) (layer tx ty : Nat) : List Nat → Except Halt (List (Nat × Nat))
  | [] => .ok []
  | h :: t => do
    let r ← s.needTiles k layer tx ty t
    match ← s.entry k.core k.ctx h with
    | none => .ok r
    | some e =>
      let i := e.tileIdx layer tx ty
      let m ← s.tmap k.core k.ctx e i
      if m.away then .error (.away h i) else .ok ((h, i) :: r)

/-- An entry at the end of a bank's queue. -/
def State.enqueue (s : State) (b : Nat × Nat) (e : BankEntry) : State :=
  s.modDie b.1 fun d => { d with queues := KV.put [] d.queues b.2 (KV.get [] d.queues b.2 ++ [e]) }

/-- TICKET_ISSUE (R126, R131, R132): all entries of a stack's first ticket are enqueued at once. -/
def execTicketIssue (stack : Nat) (s : State) : Out :=
  .next (match s.pendingTickets stack with
    | [] => s
    | (id, t) :: _ =>
      match s.draw t.draw with
      | none => s
      | some d =>
        if !s.gateOpen t.draw d || !((t.die, t.bank) :: t.followers).all (s.bankRoom t.samples.length) then s
        else s.onDraw t.draw d fun s => do
          let tiles ← s.needTiles (s.drawWho d) d.drec.layer t.tx t.ty d.drec.targets
          let s := { s with tickets := s.tickets.insert id { t with issued := true, tiles := tiles } }
          .ok (t.followers.foldl (fun s b => s.enqueue b { ticket := id, home := false })
            (s.enqueue (t.die, t.bank) { ticket := id, home := true })))

/-! ### FRAGMENT_GROUP_PLACE -/

/-- The state in which a fragment group starts (R127, R390). -/
def Group.fragStart (g : Group) (q : QuadSet) : Group :=
  let ls : List (Nat × Sample) := q.quads.zipIdx.flatMap fun e => e.1.2.zipIdx.map fun x => (4 * e.2 + x.2, x.1)
  let lanes (p : Nat × Sample → Bool) : Lanes := maskOf ((List.filter p ls).map Prod.fst)
  let g := { g with live := lanes fun _ => true, frag := some { set := q } }
  let g := g.writeM 15 (lanes fun e => !e.2.covered)
  let g := ls.foldl (fun g e => (((g.writeV 0 e.1 e.2.b1).writeV 1 e.1 e.2.b2).writeV 2 e.1
    (BitVec.ofNat 32 (e.2.x + 65536 * e.2.y))).writeV 3 e.1 e.2.z) g
  let g := q.recs.zipIdx.foldl (fun g e => g.writeS64 (2 + 2 * e.2) (BitVec.ofNat 64 e.1)) g
  g.writeS64 8 (q.psn.setWidth 64 ||| bit q.front 40)

/-- Sets of a die that may be placed: the highest priority first, in order of emission. -/
def State.quadOrder (s : State) (die : Nat) : List (QuadSet × Nat × Launch) :=
  let l := (s.quadSets.filter fun q => q.die == die && s.quadsReady q).filterMap fun q => (s.quadLaunch q).map fun e => (q, e.1, e.2)
  (List.range 8).reverse.flatMap fun p => l.filter fun e => e.2.2.prio == p && (s.ctx e.2.2.lrec.ctx).fatal.isNone

/-- Whether a CORES launch that waits holds back a priority (R81). -/
def State.headWaits (s : State) (p : Nat) : Bool :=
  match s.placeOrder with
  | (_, l) :: _ => l.wantsAll && p ≤ l.prio
  | [] => false

/-- Place one set of quads. -/
def State.placeQuads (s : State) (q : QuadSet) (lid : Nat) (l : Launch) : Option State :=
  match bestOf q.die (s.fitBlock l) with
  | none => none
  | some (core, f) =>
    let (cl, s) := s.fresh
    match s.placeBlock lid l core f l.next q.attempt cl 0 0 true with
    | none => none
    | some (b, s) =>
      let s := s.joinCluster lid cl q.die l.next [b]
      let s := ((s.block b).map (·.groups)).getD [] |>.foldl (fun s g => s.modGroup g fun x => x.fragStart q) s
      let s := s.modLaunch lid fun l => { l with next := l.next + 1, total := l.total + 1 }
      some ({ s with quadSets := s.quadSets.erase q }.putTask b 1)

/-- FRAGMENT_GROUP_PLACE (R127, R82, R83). -/
def execFragmentGroupPlace (die : Nat) (s : State) : Out :=
  .next (if s.pkg.stopped then s
    else
      let go (e : QuadSet × Nat × Launch) : Option State :=
        if s.headWaits e.2.2.prio then none else s.placeQuads e.1 e.2.1 e.2.2
      ((s.quadOrder die).findSome? go).getD s)

end Sys2Proof.Machine
end

