-- ==== Sys2Proof/Machine/Bank.lean ====
section
/-! DEFINITION. The banks' half of a draw: EXPORT_PART_DELIVERY (R128), BANK_DEPTH_STAGE, BANK_BLEND_WRITE, TICKET_RETIRE,
FOLLOWER_ENTRY_RETIRE (R129, R130), DRAW_COMPLETE (R77, R131). -/

namespace Sys2Proof.Machine

/-! ### Reals of a blend (R130) -/

/-- A component during a blend: exact, with the infinities, NaN and the signs of zeros of IEEE 754 (R33, log 44). -/
inductive XR where
  | nan
  | inf (neg : Bool)
  | fin (neg : Bool) (q : Rat)
deriving DecidableEq, Repr

/-- The value of a pattern of a format. -/
def XR.ofBits (f : FF) (b : Nat) : XR :=
  match f.decode b with
  | .nan => .nan
  | .inf n => .inf n
  | .fin n m e => .fin n (ratOf n m e)

/-- A rational that is not a zero of either sign by its own account. -/
def XR.ofRat (q : Rat) (zneg : Bool := false) : XR := .fin (if q = 0 then zneg else decide (q < 0)) q

def XR.neg : XR → XR
  | .nan => .nan
  | .inf n => .inf (!n)
  | .fin n q => .fin (!n) (-q)

def XR.add : XR → XR → XR
  | .nan, _ => .nan
  | _, .nan => .nan
  | .inf a, .inf b => if a = b then .inf a else .nan
  | .inf a, .fin .. => .inf a
  | .fin .., .inf b => .inf b
  | .fin a p, .fin b q => XR.ofRat (p + q) (a && b)

def XR.mul : XR → XR → XR
  | .nan, _ => .nan
  | _, .nan => .nan
  | .inf a, .inf b => .inf (a != b)
  | .inf a, .fin b q => if q = 0 then .nan else .inf (a != b)
  | .fin a p, .inf b => if p = 0 then .nan else .inf (a != b)
  | .fin a p, .fin b q => XR.ofRat (p * q) (a != b)

def XR.lt : XR → XR → Bool
  | .nan, _ => false
  | _, .nan => false
  | .inf a, .inf b => a && !b
  | .inf a, .fin .. => a
  | .fin .., .inf b => !b
  | .fin _ p, .fin _ q => decide (p < q)

def XR.isNan : XR → Bool
  | .nan => true
  | _ => false

/-- The nearest integer, ties to the even one. -/
def rneRat (q : Rat) : Int :=
  let f := q.floor
  let r := q - f
  if r < 1 / 2 ∨ (r = 1 / 2 ∧ f % 2 = 0) then f else f + 1

/-- The value as a pattern of a floating-point format (R9, R34). -/
def XR.toBits (f : FF) : XR → Nat
  | .nan => f.nanBits
  | .inf n => f.withSign n f.infBits
  | .fin n q => if q = 0 then f.withSign n 0 else f.ofRat q

/-- The value as UINT8: the integer nearest t × 255, saturated (R10, R130). -/
def XR.toByte : XR → Nat
  | .nan => 0
  | .inf n => if n then 0 else 255
  | .fin _ q => (max 0 (min 255 (rneRat (q * 255)))).toNat

/-- A value as a target of a format stores it (R130). -/
def XR.store (fmt : Nat) (t : XR) : Nat :=
  match ffOf fmt with
  | some f => t.toBits f
  | none => t.toByte

/-- A component that a target of a format holds (R130). -/
def XR.load (fmt b : Nat) : XR :=
  match ffOf fmt with
  | some f => XR.ofBits f b
  | none => XR.ofRat (mkRat b 255)

/-- A factor of R130 for component `c`, from source, destination and constant colours. -/
def blendFactor (f c : Nat) (s d k : Nat → XR) : XR :=
  let one : XR := .fin false 1
  let less (v : XR) : XR := one.add v.neg
  match f with
  | 0 => .fin false 0
  | 1 => one
  | 2 => s c
  | 3 => less (s c)
  | 4 => s 3
  | 5 => less (s 3)
  | 6 => d c
  | 7 => less (d c)
  | 8 => d 3
  | 9 => less (d 3)
  | 10 => k c
  | 11 => less (k c)
  | 12 => k 3
  | _ => less (k 3)

/-- The blend of component `c` (R130); `open_` is what a MIN or MAX of a NaN gives. -/
def blendOf (b : Dword) (c : Nat) (s d k : Nat → XR) (open_ : XR) : XR :=
  let (op, sf, df) := if c = 3 then (bits b 18 16, bits b 22 19, bits b 26 23) else (bits b 7 5, bits b 11 8, bits b 15 12)
  let x := (s c).mul (blendFactor sf c s d k)
  let y := (d c).mul (blendFactor df c s d k)
  match op with
  | 0 => x.add y
  | 1 => x.add y.neg
  | 2 => y.add x.neg
  | 3 => if (s c).isNan || (d c).isNan then open_ else if (d c).lt (s c) then d c else s c
  | _ => if (s c).isNan || (d c).isNan then open_ else if (s c).lt (d c) then d c else s c

/-- Component `c` of a colour target after a fragment of colour `src` (R130): `old` is what it holds. -/
def storeComp (r : DRec) (b : Dword) (e : Ste) (old : List Nat) (src : List Word) (c : Nat) : Nat :=
  let o := old.getD c 0
  let w := src.getD c 0
  if !b.getLsbD c then o
  else if e.fmt = 11 ∨ e.fmt = 12 then w.toNat
  else
    let s (i : Nat) : XR := XR.ofBits .fp32 (src.getD i 0).toNat
    let d (i : Nat) : XR := if e.ncomp < i then .fin false 1 else XR.load e.fmt (old.getD i 0)
    let k (i : Nat) : XR := XR.ofBits .fp32 (r.constc.getD i 0).toNat
    let open_ : XR := XR.ofBits .fp32 (Config.wildBlend w.toNat o).toNat
    (if b.getLsbD 4 then blendOf b c s d k open_ else s c).store e.fmt

/-- A pixel of a colour target after a fragment, as raw bits of its element (R58, R130). -/
def blendPixel (r : DRec) (b : Dword) (e : Ste) (old : Nat) (src : List Word) : Nat :=
  let n := fmtBits e.fmt
  let cs := (List.range (e.ncomp + 1)).map fun c => old / 2 ^ (n * c) % 2 ^ n
  ((List.range (e.ncomp + 1)).map fun c => storeComp r b e cs src c * 2 ^ (n * c)).sum

/-! ### Parts -/

/-- A list without the element at a place. -/
def dropAt {α : Type} (l : List α) (n : Nat) : List α := l.take n ++ l.drop (n + 1)

/-- EXPORT_PART_DELIVERY (R128). A part of a ticket that is gone is dropped. -/
def execExportPartDelivery (die bank part : Nat) (s : State) : Out :=
  .next (match (s.die die).parts[part]? with
    | none => s
    | some p =>
      if p.bank ≠ bank then s
      else
        let s := s.modDie die fun d => { d with parts := dropAt d.parts part }
        { s with tickets := s.tickets.modify p.ticket fun t => { t with delivered := t.delivered + 1, frags := t.frags ++ p.frags } })

/-! ### Depth (R129) -/

/-- DFUNC on the fragment's and the stored depth: IEEE comparisons (R129). -/
def depthPasses (f : Nat) (c z : Word) : Bool :=
  let a := FF.fp32.decode c.toNat
  let b := FF.fp32.decode z.toNat
  match f with
  | 0 => false
  | 1 => a.lt b
  | 2 => a.eqv b
  | 3 => a.lt b || a.eqv b
  | 4 => b.lt a
  | 5 => !a.eqv b
  | 6 => b.lt a || a.eqv b
  | _ => true

/-- An exported depth clamped to [0, 1]; none where it is a NaN (R128). -/
def clampDepth (z : Word) : Option Word :=
  match FF.fp32.decode z.toNat with
  | .nan => none
  | v => some (if v.lt (.fin false 0 0) then 0 else if FV.lt (.fin false 1 0) v then 0x3F800000 else z)

/-- Pixel order (R129): y, then x. -/
def pixelKey (x y : Nat) : Nat := 65536 * y + x

/-- Sorted by a key, ascending. -/
def sortAsc {α : Type} (f : α → Nat) (l : List α) : List α := (sortDesc f l).reverse

/-- The depths to be tested: the rasterized ones, or with ZEXP = 1 the exported ones. -/
def Ticket.depths (t : Ticket) (zexp : Bool) : List (Nat × Nat × Word) :=
  sortAsc (fun e => pixelKey e.1 e.2.1) (if zexp then
    t.frags.filterMap fun f => (f.z.bind clampDepth).map fun z => (f.x, f.y, z)
  else t.samples.map fun x => (x.x, x.y, x.z))

/-- The time by which a bank remembers accesses to its tiles (R235, log 24). -/
def State.bankNow (s : State) (die : Nat) : Nat := s.cremaNow (40 * die)

/-- Stages 1 and 2 for the fragments of a ticket: the pixels that pass. -/
def State.depthStage (s : State) (k : Who) (d : Draw) (e : Ste) : List (Nat × Nat × Word) → Except Halt (List (Nat × Nat) × State)
  | [] => .ok ([], s)
  | (x, y, c) :: t => do
    let (z, s) ← s.elemRead k d.drec.dh e d.drec.layer x y
    let ok := depthPasses d.drec.dfunc c (BitVec.ofNat 32 z)
    let s ← if ok && d.drec.dwrite then s.elemWrite k d.drec.dh e d.drec.layer x y c.toNat else .ok s
    let (r, s) ← s.depthStage k d e t
    .ok (if ok then (x, y) :: r else r, s)

/-- The entries of a bank's queue. -/
def State.bankQueue (s : State) (die bank : Nat) : List BankEntry := KV.get [] (s.die die).queues bank

/-- The ticket that is next in a bank's depth stage. -/
def State.depthNext (s : State) (die bank : Nat) : Option (Nat × Ticket × Draw) :=
  (s.bankQueue die bank).findSome? fun e =>
    if !e.home then none
    else match s.tickets.find e.ticket with
      | some t => if t.depthDone then none else (s.draw t.draw).map fun d => (e.ticket, t, d)
      | none => none

/-- A bank touches the tile of a target. -/
def State.touchTarget (s : State) (d : Draw) (h : Nat) (e : Ste) (tx ty : Nat) : State :=
  let p := d.drec.layer
  let die := (tilePlace h p tx ty).1
  s.touchTile d.ctx h (e.tileIdx p tx ty) die (s.bankNow die)

/-- BANK_DEPTH_STAGE (R129): late depth waits for every part. -/
def execBankDepthStage (die bank : Nat) (s : State) : Out :=
  .next (match s.depthNext die bank with
    | none => s
    | some (id, t, d) =>
      if d.drec.zexp && t.delivered < t.npart then s
      else s.onDraw t.draw d fun s => do
        let k := s.drawWho d
        let zs := t.depths d.drec.zexp
        let (ok, s) ← if d.drec.dh = 0 then .ok (zs.map fun e => (e.1, e.2.1), s)
          else do
            match ← s.entry k.core k.ctx d.drec.dh with
            | none => .ok ([], s)
            | some e => (s.touchTarget d d.drec.dh e t.tx t.ty).depthStage k d e zs
        .ok { s with tickets := s.tickets.modify id fun t => { t with depthDone := true, passed := ok } })

/-! ### Blend and colour write (R129, R130) -/

/-- The colour targets whose tile a bank holds: their place among the exported colours, number and handle. -/
def DRec.held (r : DRec) (die bank tx ty : Nat) : List (Nat × Nat × Nat) :=
  (r.colours.zipIdx.filter fun e => tilePlace e.1.2 r.layer tx ty == (die, bank)).map fun e => (e.2, e.1)

/-- Stages 3 and 4 for one fragment on some targets. -/
def State.colourFrag (s : State) (k : Who) (d : Draw) (f : Frag) : List (Nat × Nat × Nat) → Except Halt State
  | [] => .ok s
  | (j, i, h) :: t => do
    match ← s.entry k.core k.ctx h with
    | none => s.colourFrag k d f t
    | some e =>
      let p := d.drec.layer
      let (old, s) ← s.elemRead k h e p f.x f.y
      let s ← s.elemWrite k h e p f.x f.y (blendPixel d.drec (d.drec.blend.getD i 0) e old ((f.colours.drop (4 * j)).take 4))
      (s.touchTarget d h e (f.x / 8) (f.y / 8)).colourFrag k d f t

/-- Stages 3 and 4 for fragments in order; one without colours writes none. -/
def State.colourStage (s : State) (k : Who) (d : Draw) (hs : List (Nat × Nat × Nat)) : List Frag → Except Halt State
  | [] => .ok s
  | f :: t => do
    let s ← if f.colours.isEmpty then .ok s else s.colourFrag k d f hs
    s.colourStage k d hs t

/-- A ticket's result reaches its follower entries. -/
def State.forward (s : State) (id : Nat) (t : Ticket) (fs : List Frag) : State :=
  t.followers.foldl (fun s b => s.modDie b.1 fun d =>
    { d with queues := KV.put [] d.queues b.2 ((KV.get [] d.queues b.2).map fun e =>
        if e.ticket = id ∧ !e.home then { e with forwarded := some fs } else e) }) s

/-- BANK_BLEND_WRITE (R129, R130): the head ticket's fragments that passed, in ascending pixel order, once all parts are there. -/
def execBankBlendWrite (die bank : Nat) (s : State) : Out :=
  .next (match s.bankQueue die bank with
    | [] => s
    | e :: _ =>
      match e.home, s.tickets.find e.ticket with
      | true, some t =>
        match s.draw t.draw with
        | none => s
        | some d =>
          if !t.depthDone || t.colourDone || t.delivered < t.npart then s
          else s.onDraw t.draw d fun s => do
            let fs := sortAsc (fun f => pixelKey f.x f.y) (t.frags.filter fun f => t.passed.contains (f.x, f.y))
            let s ← s.colourStage (s.drawWho d) d (d.drec.held die bank t.tx t.ty) fs
            .ok ({ s with tickets := s.tickets.modify e.ticket fun t => { t with colourDone := true } }.forward e.ticket t fs)
      | _, _ => s)

/-! ### Retirement -/

/-- The head entry leaves a bank's queue; a ticket without an entry is gone. -/
def State.popEntry (s : State) (die bank id : Nat) : State :=
  let s := s.modDie die fun d => { d with queues := KV.put [] d.queues bank ((KV.get [] d.queues bank).drop 1) }
  if s.dies.any fun d => d.2.queues.any fun q => q.2.any fun e => e.ticket == id then s
  else { s with tickets := s.tickets.erase id }

/-- TICKET_RETIRE (R129). -/
def execTicketRetire (die bank : Nat) (s : State) : Out :=
  .next (match s.bankQueue die bank with
    | [] => s
    | e :: _ =>
      match e.home, s.tickets.find e.ticket with
      | true, some t => if t.colourDone then s.popEntry die bank e.ticket else s
      | _, _ => s)

/-- FOLLOWER_ENTRY_RETIRE (R129): the forwarded result is applied, and the entry retires. -/
def execFollowerEntryRetire (die bank : Nat) (s : State) : Out :=
  .next (match s.bankQueue die bank with
    | [] => s
    | e :: _ =>
      match e.forwarded, s.tickets.find e.ticket with
      | some fs, some t =>
        match s.draw t.draw with
        | none => s
        | some d => s.onDraw t.draw d fun s => do
          let s ← s.colourStage (s.drawWho d) d (d.drec.held die bank t.tx t.ty) fs
          .ok (s.popEntry die bank e.ticket)
      | _, _ => s)

/-- A completed draw lowers its barrier target by 1 (log 45), or stores its word; none while it must wait. -/
def State.completeDraw (s : State) (d : Draw) : Option State :=
  match d.target with
  | .barrier k o => some (s.barLower k o 1)
  | t => s.completeTo t d.seq 0

/-- DRAW_COMPLETE (R77, R121, R131). -/
def execDrawComplete (did : Nat) (s : State) : Out :=
  .next (match s.draw did with
    | none => s
    | some d =>
      if !s.drawDone did d || (s.completeDraw d).isNone then s
      else s.onDraw did d fun s => do
        let s ← s.addUse none d.ctx false d.uses
        let s := (s.completeDraw d).getD s
        .ok ((s.modDraw did fun d => { d with status := some 0 }).dropDraw (.draw did)))

end Sys2Proof.Machine
end

