-- ==== Sys2Proof/Machine/Pages.lean ====
section
/-! DEFINITION. Page request queues (R344–R347, R393, R394) and TLB invalidation (R343): PAGE_REQUEST_WRITE, the replies, the
queue registers, TLBINV. -/

namespace Sys2Proof.Machine

/-! ### Tokens (R346, R347) -/

/-- Change the tokens of a job, a loop, a matrix step. -/
def Job.mapTokens (j : Job) (f : Token → Token) : Job := { j with tokens := j.tokens.map f }
def SeqOp.mapTokens (q : SeqOp) (f : Token → Token) : SeqOp := { q with tokens := q.tokens.map f }
def TeamStep.mapTokens (t : TeamStep) (f : Token → Token) : TeamStep := { t with tokens := t.tokens.map f }

/-- Change the tokens of a group: its splits' and those of the work that an eviction saved with it. -/
def Group.mapTokens (g : Group) (f : Token → Token) : Group :=
  let split (sp : Split) : Split := { sp with tokens := sp.tokens.map f }
  { g with
    splits := List.map (fun e => (e.1, split e.2)) g.splits
    jobs := g.jobs.map fun j => j.mapTokens f
    seqs := g.seqs.map fun q => q.mapTokens f
    steps := g.steps.map fun t => t.mapTokens f }

/-- Change the tokens of a core's work. -/
def Core.mapTokens (c : Core) (f : Token → Token) : Core :=
  { c with
    jobs := c.jobs.map fun j => j.mapTokens f
    seqs := c.seqs.map fun q => q.mapTokens f
    teamSteps := c.teamSteps.map fun t => t.mapTokens f }

/-- Change the tokens of an expert table and its copies. -/
def ExpTable.mapTokens (t : ExpTable) (f : Token → Token) : ExpTable :=
  let copy (c : ExpCopy) : ExpCopy := { c with tokens := c.tokens.map f }
  { t with tokens := t.tokens.map f, copies := t.copies.map copy }

/-- Change every token of the package (R347). -/
def State.mapTokens (s : State) (f : Token → Token) : State :=
  let block (b : Block) : Block := { b with ttokens := b.ttokens.map f }
  let draw (d : Draw) : Draw := { d with tokens := d.tokens.map f }
  let grind (g : Grind) : Grind := { g with tokens := g.tokens.map f }
  let tile (t : TileRec) : TileRec := { t with tokens := t.tokens.map f }
  let die (d : Die) : Die := { d with tiles := d.tiles.map tile }
  { s with
    groups := List.map (fun e => (e.1, e.2.mapTokens f)) s.groups
    cores := List.map (fun e => (e.1, e.2.mapTokens f)) s.cores
    tables := List.map (fun e => (e.1, e.2.mapTokens f)) s.tables
    blocks := List.map (fun e => (e.1, block e.2)) s.blocks
    draws := List.map (fun e => (e.1, draw e.2)) s.draws
    grinds := List.map (fun e => (e.1, grind e.2)) s.grinds
    dies := List.map (fun e => (e.1, die e.2)) s.dies }

/-- Contexts whose requester a request holds (R346). -/
def State.holders (s : State) (key : Nat) : List Nat :=
  let has (ts : List Token) : Bool := ts.any fun t => t.key == key
  let job (j : Job) : Bool := has j.tokens
  let group (g : Group) : Bool :=
    g.splits.any (fun e => has e.2.tokens) || g.jobs.any job || g.seqs.any (fun q => has q.tokens) || g.steps.any fun t => has t.tokens
  let gs := (s.groups.filter fun e => group e.2).map fun e => e.2.ctx
  let bs := (s.blocks.filter fun e => has e.2.ttokens).map fun e => e.2.ctx
  let ds := (s.draws.filter fun e => has e.2.tokens).map fun e => e.2.ctx
  let rs := (s.grinds.filter fun e => has e.2.tokens).map fun e => e.2.ctx
  let ts := (s.tables.filter fun e => has e.2.tokens || e.2.copies.any fun c => has c.tokens).map fun e => e.2.ctx
  let cs := s.cores.flatMap fun e => ((e.2.jobs.filter job).map (·.ctx)) ++ ((e.2.seqs.filter fun q => has q.tokens).map (·.ctx)) ++
    (e.2.teamSteps.filter fun t => has t.tokens).map (·.ctx)
  let ls := s.dies.flatMap fun e => (e.2.tiles.filter fun t => has t.tokens).map (·.ctx)
  (gs ++ bs ++ ds ++ rs ++ ts ++ cs ++ ls).eraseDups

/-! ### Writing a request -/

/-- Whether the context that a queue names exists and belongs to a virtual function (R344). -/
def State.queueOf (s : State) (n vf : Nat) : Bool :=
  let c := s.ctx (s.queue n).ctx
  c.en && c.vf == vf

/-- Entries of a ring. -/
def Prq.size (q : Prq) : Nat := 16 * 2 ^ bits q.base 55 52

/-- A ring has room for an entry (R344). -/
def Prq.room (q : Prq) : Bool := (q.prod - q.cons).toNat < q.size

/-- The next identifier of a queue: ascending modulo 2^16, outstanding ones passed over (R394). -/
def Prq.freeId (q : Prq) : Nat :=
  let used := (q.reqs.filter (·.written)).map (·.reqid)
  ((List.range (used.length + 1)).map fun i => (q.next + i) % 65536).find? (fun i => !used.contains i) |>.getD 0

/-- The 32 bytes of a request entry (R345). -/
def PrqReq.bytes (r : PrqReq) (id vf stage : Nat) : List Byte :=
  [fld id 48 ||| fld (stage - 1) 47 ||| fld r.acc 45 ||| bit r.eng 44 ||| fld r.why 42 ||| fld r.ctx 12 ||| fld vf 6,
    fld r.page 0 ||| fld r.level 0, fld r.gva 0, fld r.core 0].flatMap fun d => natToBytes 8 d.toNat

/-- A notice that falls due: PROD goes to a mailbox word with STFF semantics (R344, R346). -/
def State.notice (s : State) (vf stage : Nat) : State :=
  let q := s.prq vf stage
  let n := bits q.note 62 56
  if !q.note.getLsbD 63 then s
  else if stage = 1 && !s.queueOf n vf then s.log .noticeRefused vf n
  else (s.lsPut64 n (8 * bits q.note 55 52) (q.prod.setWidth 64)).setFull n (8 * bits q.note 55 52) true

/-- A request that cannot be written ends: each context that holds it meets a fatal fault (R346). -/
def State.loseRequest (s : State) (vf stage : Nat) (r : PrqReq) (cause : Nat) : State :=
  let s' := (s.holders r.key).foldl (fun s c => s.engineFatal c r.core 0 cause r.gva) s
  (s'.modPrq vf stage fun q => { q with reqs := q.reqs.filter fun x => x.key != r.key }).log .requestLost vf stage

/-- PAGE_REQUEST_WRITE (R346): the first request that waits for the ring is written, PROD rises as a release at DEVICE scope. -/
def execPageRequestWrite (vf stage : Nat) (s : State) : Out :=
  let q := s.prq vf stage
  .next (match q.reqs.find? fun r => !r.written with
    | none => s
    | some r =>
      if !q.room || !(stage == 1 || stage == 2) || s.pkg.stopped then s
      else
        let a := (q.base &&& 0x000FFFFFFFFFF000).toNat + 32 * (q.prod.toNat % q.size)
        match s.place a with
        | .hole => s.loseRequest vf stage r 0x10
        | .window _ => s.loseRequest vf stage r 0x10
        | _ =>
          if s.poisoned a 32 then s.loseRequest vf stage r 0x11
          else
            let id := q.freeId
            let s := s.homeWrite (s.canon a) ((r.bytes id vf stage).map some) false
            let s := s.mapTokens fun t => if t.key = r.key then { t with reqid := id } else t
            let s := s.modPrq vf stage fun q =>
              { q with prod := q.prod + 1, next := (id + 1) % 65536
                       reqs := q.reqs.map fun x => if x.key = r.key then { x with written := true, reqid := id } else x }
            if q.prod = q.cons then s.notice vf stage else s)

/-! ### Replies (R344, R347, R393) -/

/-- Whether the walk of a request still stops where it stopped, as memory stands at its reply (R393). -/
def State.stillMisses (s : State) (stage : Nat) (r : PrqReq) : Option (Nat × Nat) :=
  match s.xlate none r.ctx (r.gva % 2 ^ 52) with
  | .error (.miss st why level page) => if st = stage ∧ page = r.page then some (why, level) else none
  | _ => none

/-- A reply of a status: every token of the request takes it, and the request ends. The walk of a replay sees no entry written
after the reply, so where the entry is not valid yet, the page is requested anew at once (R347, R393). -/
def State.reply (s : State) (vf stage id : Nat) (st : TokStatus) : State :=
  match (s.prq vf stage).reqs.find? fun r => r.written && r.reqid == id with
  | none => s.log .replyUnknown vf id
  | some r =>
    let done := s.modPrq vf stage fun q => { q with reqs := q.reqs.filter fun x => x.key != r.key }
    match if st = .retry ∧ s.holders r.key = [r.ctx] then s.stillMisses stage r else none with
    | some (why, level) =>
      let (key, t) := done.requestPage r.ctx stage why level r.page r.gva r.acc r.core r.eng
      t.mapTokens fun t => if t.key = r.key then { t with key := key, reqid := 0, status := .pending } else t
    | none => done.mapTokens fun t => if t.key = r.key then { t with status := st } else t

/-- QREPLY_RETRY (R347). -/
def execQreplyRetry (vf stage id : Nat) (s : State) : Out := .next (s.reply vf stage id .retry)

/-- QREPLY_INVALID (R347). -/
def execQreplyInvalid (vf stage id : Nat) (s : State) : Out := .next (s.reply vf stage id .invalid)

/-! ### The queues' registers (R344) -/

/-- QBASE_WRITE (R344): PROD, CONS and the next identifier become 0; outstanding requests stay. -/
def execQbaseWrite (vf stage : Nat) (v : Dword) (s : State) : Out :=
  .next (if 11 < bits v 55 52 then s.log .windowReserved vf stage
    else s.modPrq vf stage fun q => { q with base := v &&& 0x00FFFFFFFFFFF000, prod := 0, cons := 0, next := 0 })

/-- QPTR_CONS_WRITE (R344): PROD is read-only. -/
def execQptrConsWrite (vf stage : Nat) (v : Dword) (s : State) : Out :=
  .next (s.modPrq vf stage fun q => { q with cons := v.extractLsb' 32 32 })

/-- GQNOTE_WRITE (R344). -/
def execGqnoteWrite (vf : Nat) (v : Dword) (s : State) : Out :=
  .next (if v.getLsbD 63 && !s.queueOf (bits v 62 56) vf then s.log .noticeRefused vf (bits v 62 56)
    else s.modPrq vf 1 fun q => { q with note := v &&& 0xFFF0000000000000 })

/-! ### TLBINV (R343) -/

/-- The register pair of a window: 0 the hypervisor's, v + 1 that of virtual function v. -/
def State.setTlbinv (s : State) (win : Nat) (v : Dword) : State :=
  if win = 0 then s.modPkg fun p => { p with tlbinv := v } else s.modVf (win - 1) fun f => { f with tlbinv := v }
def State.setTlbinva (s : State) (win : Nat) (v : Dword) : State :=
  if win = 0 then s.modPkg fun p => { p with tlbinva := v } else s.modVf (win - 1) fun f => { f with tlbinva := v }

/-- A write of TLBINV: ignored while an invalidation runs; a guest's pair takes KIND 0 and 2 for contexts of its own. -/
def State.writeTlbinv (s : State) (win : Nat) (v : Dword) : State :=
  let kind := bits v 62 61
  if (s.wreg (.tlbinv win)).getLsbD 63 then s
  else if win ≠ 0 ∧ (kind % 2 = 1 ∨ !(s.ctx (bits v 60 49)).en ∨ (s.ctx (bits v 60 49)).vf ≠ win - 1) then s.log .tlbinvRefused win kind
  else s.setTlbinv win (v &&& 0xFFFFF80000000000)

/-- A write of TLBINV that is to start an invalidation of a KIND. -/
def State.startTlbinv (s : State) (win kind : Nat) (v : Dword) : Out :=
  .next (if !v.getLsbD 63 || bits v 62 61 ≠ kind then s else s.writeTlbinv win v)

/-- TLBINV_STAGE1_RANGE (R343). -/
def execTlbinvStage1Range (win : Nat) (v : Dword) (s : State) : Out := s.startTlbinv win 0 v
/-- TLBINV_STAGE2_RANGE (R343). -/
def execTlbinvStage2Range (win : Nat) (v : Dword) (s : State) : Out := s.startTlbinv win 1 v
/-- TLBINV_ALL_CTX (R343). -/
def execTlbinvAllCtx (win : Nat) (v : Dword) (s : State) : Out := s.startTlbinv win 2 v
/-- TLBINV_ALL_VF (R343). -/
def execTlbinvAllVf (win : Nat) (v : Dword) (s : State) : Out := s.startTlbinv win 3 v

/-- An entry of a walk cache by what it covers, as an invalidation sees it. -/
def WalkEntry.cover (w : WalkEntry) : TlbEntry :=
  ⟨w.stage, w.tag, w.base, w.size, w.table, false, false, false, false, false, false⟩

/-- Every TLB and walk cache of the package drops some entries. -/
def State.dropTlb (s : State) (p : TlbEntry → Bool) : State :=
  let core (c : Core) : Core := { c with tlb := c.tlb.filter fun e => !p e }
  let die (d : Die) : Die := { d with tlb := d.tlb.filter (fun e => !p e), walks := d.walks.filter fun e => !p e.cover }
  { s with cores := List.map (fun e => (e.1, core e.2)) s.cores, dies := List.map (fun e => (e.1, die e.2)) s.dies }

/-- The entries that an invalidation drops. Those of stage 1 that were read through tables in a stage-2 range are among the
virtual function's, all of which go with a stage-2 KIND (log 10). -/
def State.invalidated (s : State) (v a : Dword) (e : TlbEntry) : Bool :=
  let ctx := bits v 60 49
  let vf := bits v 48 43
  let lo := bits a 51 16 * 65536
  let hi := lo + (bits a 63 52 + 1) * 65536
  let inRange : Bool := lo < e.base + e.size && e.base < hi
  let mine : Bool := e.stage == 1 && e.tag == ctx
  let ours : Bool := e.stage == 1 && (s.ctx e.tag).vf == vf
  match bits v 62 61 with
  | 0 => mine && inRange
  | 1 => ours || (e.stage == 2 && e.tag == vf && inRange)
  | 2 => mine
  | _ => ours || (e.stage == 2 && e.tag == vf)

/-- Atomics that were translated for the contexts that an invalidation concerns still wait at an engine. -/
def State.tlbBusy (s : State) (v : Dword) : Bool :=
  let ours (c : Nat) : Bool := if bits v 62 61 % 2 = 0 then c == bits v 60 49 else (s.ctx c).vf == bits v 48 43
  s.dies.any fun e => e.2.atoms.any fun q => q.reply.isNone && (s.group q.gid).any fun g => ours g.ctx

/-- TLBINV_COMPLETE (R343): a walk is part of the access that makes it, so none is under way between steps; accesses translated
earlier have completed once no atomic of theirs waits (log 10). -/
def execTlbinvComplete (win : Nat) (s : State) : Out :=
  let v := s.wreg (.tlbinv win)
  .next (if !v.getLsbD 63 || s.tlbBusy v then s
    else (s.dropTlb (s.invalidated v (s.wreg (.tlbinva win)))).setTlbinv win (v &&& 0x7FFFFFFFFFFFFFFF))

end Sys2Proof.Machine
end

