-- ==== Sys2Proof/Machine/Contexts.lean ====
section
/-! DEFINITION. Queues as the host and privileged software reach them (R68, R70, R71, R73, R380), contexts (R344, R377) and
their teardown (R79, R355). -/

namespace Sys2Proof.Machine

/-! ### QCFG (R68) -/

/-- The fields of QCFG that a write gives. -/
def Queue.config (k : Queue) (v : Dword) : Queue :=
  { k with priv := v.getLsbD 62, prio := bits v 61 59, ctx := bits v 56 45, entry := 128 * bits v 44 0 }

/-- A queue program at its first clause, behind the entry descriptor, which is not read (R68, log 74). -/
def queueProgram (q ctx entry : Nat) (fpstat : Word) : Group :=
  { kind := .queue, ctx := ctx, blk := q, num := 0, width := 1, fpstat := fpstat, live := 1,
    splits := [(0, freshSplit ((entry + 4) % 2 ^ 52) 1 none .no)] }

/-- QCFG_ENABLE (R68, R122). FPSTAT and the launch sequence counter keep their values. -/
def execQcfgEnable (q : Nat) (v : Dword) (s : State) : Out :=
  .next (if (s.queue q).en || !v.getLsbD 63 || 128 ≤ q then s
    else
      let now := (s.cp (q / 16)).cycle
      let s := s.modQueue q fun k =>
        { k.config v with
          en := true, run := true, fault := 0, ovr := false, err := false, psn := 0, bound := [], waits := [], readySince := now
          skipped := 0
          full := k.full.filter fun e => 16 ≤ e.1 }
      let k := s.queue q
      let old := ((s.group q).map (·.fpstat)).getD 0
      (s.setGroup q (queueProgram q k.ctx k.entry old)).modCp (q / 16) fun c =>
        if c.current = some q then { c with current := none } else c)

/-- QCFG_DISABLE (R68): the program stops at its next clause boundary; the other fields keep their values. -/
def execQcfgDisable (q : Nat) (v : Dword) (s : State) : Out :=
  .next (if !(s.queue q).en || v.getLsbD 63 then s else s.modQueue q fun k => { k with en := false })

/-! ### The host window (R70, R71, R380) -/

/-- Where the model lists answers to the host. -/
def hostDest : Nat := 1024

/-- An answer leaves the package. -/
def State.answerTo (s : State) (dest : Nat) (bs : List Byte) : State :=
  s.modPkg fun p => { p with replies := p.replies ++ [⟨dest, bs⟩] }

/-- The queue and the offset in its page that an offset of the host window names; none where another package's slot is meant. -/
def State.hostPage (s : State) (off : Nat) : Option (Nat × Nat) :=
  if off / 524288 = s.pkg.hslot then some (off / 4096 % 128, off % 4096) else none

/-- A host access for the slot of another package goes there over Thrumri; one for a slot that no package holds is discarded
(R380). -/
def State.toSlot (s : State) (off : Nat) (k : ThrKind) : State :=
  match Config.slotHolder (off / 524288 % 8) with
  | some p => s.send [⟨s.pkg.pkgid, p % 1024 * 2 ^ 42 + off, k⟩]
  | none => s

/-- A forwarded read returns what the package answers (R380, log 15); a discarded one returns nothing. -/
def State.forwardRead (s : State) (off size : Nat) : State :=
  if (Config.slotHolder (off / 524288 % 8)).isNone then s
  else
    let (n, s) := s.free
    (s.toSlot off (.hostRead size)).answerTo hostDest ((List.range size).map fun i => Config.remoteByte n (off + i))

/-- A host write of 8 aligned bytes to M0–M15 of a queue (R71), behind the waiters that a change of the word's tag has woken
(R305). -/
def State.mailboxWrite (s : State) (q o : Nat) (v : Dword) : State :=
  if o % 8 ≠ 0 || 0x80 ≤ o then s
  else
  let s := s.serveWord q (o / 8) (s.waitsOf q).length
  if s.isFull q o then s.modQueue q fun k => { k with ovr := true }
  else (s.lsPut64 q o v).setFull q o true

/-- The host's read of 8 aligned bytes of a queue's page, answered to `dest` (R70). -/
def State.pageRead (s : State) (dest q o : Nat) : State :=
  let word (s : State) (o : Nat) : List Byte := s.lsRead q o 8
  let zero : List Byte := natToBytes 8 0
  if o % 8 ≠ 0 then s
  else if o < 0x80 then s.answerTo dest (word s o)
  else if o = 0x80 then s.answerTo dest (natToBytes 8 (s.queue q).qstat.toNat)
  else if o < 0x100 || 0x180 ≤ o then s.answerTo dest zero
  else
  let s := s.serveWord q ((o - 0x100) / 8) (s.waitsOf q).length
  if s.isFull q (o - 0x100) then (s.answerTo dest (word s (o - 0x100))).setFull q (o - 0x100) false
  else s.answerTo dest zero

/-- A write of QSTAT (R70, R73). -/
def State.qstatWrite (s : State) (q o : Nat) (v : Dword) : State :=
  if o = 0x80 then s.modQueue q fun k => { k with ovr := k.ovr && !v.getLsbD 17, err := k.err && !v.getLsbD 18 } else s

/-- A host access discarded for its size, alignment or offset (R70, R71). -/
def State.pageBad (s : State) (dest q o size : Nat) (isWrite : Bool) : State :=
  let shape : Bool := size == 8 && o % 8 == 0
  if shape && (!isWrite || o ≤ 0x80) then s
  else
    let s := s.modQueue q fun k => { k with err := true }
    if isWrite then s else s.answerTo dest (natToBytes size 0)

/-- HOST_MAILBOX_WRITE (R71, R380): the host window is that of the package which is its group's HOSTPKG. -/
def execHostMailboxWrite (off : Nat) (v : Dword) (s : State) : Out :=
  .next (if s.pkg.hostpkg ≠ s.pkg.pkgid then s else match s.hostPage off with
    | none => s.toSlot off (.hostWrite (natToBytes 8 v.toNat))
    | some (q, o) => s.mailboxWrite q o v)

/-- HOST_CONSUMING_READ (R70, R380), and the host's other reads of 8 aligned bytes. -/
def execHostConsumingRead (off : Nat) (s : State) : Out :=
  .next (if s.pkg.hostpkg ≠ s.pkg.pkgid then s else match s.hostPage off with
    | none => s.forwardRead off 8
    | some (q, o) => s.pageRead hostDest q o)

/-- QSTAT_W1C (R70, R73, R380). -/
def execQstatW1c (off : Nat) (v : Dword) (s : State) : Out :=
  .next (if s.pkg.hostpkg ≠ s.pkg.pkgid then s else match s.hostPage off with
    | none => s.toSlot off (.hostWrite (natToBytes 8 v.toNat))
    | some (q, o) => s.qstatWrite q o v)

/-- HOST_INVALID_ACCESS (R70, R71, R380): a read of it returns 0. -/
def execHostInvalidAccess (off size : Nat) (isWrite : Bool) (s : State) : Out :=
  .next (if s.pkg.hostpkg ≠ s.pkg.pkgid then s else match s.hostPage off with
    | none => if isWrite then s.toSlot off (.hostWrite (List.replicate size 0)) else s.forwardRead off size
    | some (q, o) => s.pageBad hostDest q o size isWrite)

/-- A host access that the package with the host-mode port has forwarded (R380): for the package's own slot. -/
def State.hostArrives (s : State) (src off : Nat) (bs : Option (List Byte)) (size : Nat) : State :=
  match s.hostPage off with
  | none => s
  | some (q, o) =>
    match bs with
    | none => if size = 8 ∧ o % 8 = 0 then s.pageRead src q o else s.pageBad src q o size false
    | some bs =>
      let v := BitVec.ofNat 64 (bytesToNat bs)
      if bs.length = 8 ∧ o % 8 = 0 ∧ o < 0x80 then s.mailboxWrite q o v
      else if bs.length = 8 ∧ o = 0x80 then s.qstatWrite q o v
      else s.pageBad src q o bs.length true

/-! ### Contexts (R344, R377) -/

/-- CTXVF_ENABLE (R355): the context exists, with its fault record cleared. -/
def execCtxvfEnable (ctx : Nat) (v : Dword) (s : State) : Out :=
  .next (if (s.ctx ctx).en || !v.getLsbD 63 || 4096 ≤ ctx then s
    else s.modCtx ctx fun c =>
      { c with en := true, vf := bits v 5 0, cfault0 := 0, cfault1 := 0, cfault2 := 0, fatal := none })

/-- Nothing of a context is in progress (R377). -/
def State.ctxIdle (s : State) (ctx : Nat) : Bool :=
  !s.groups.any (fun e => !e.2.isQueue && e.2.ctx == ctx) && !s.blocks.any (fun e => e.2.ctx == ctx) &&
    !s.cores.any (fun e => e.2.jobs.any (fun j => j.ctx == ctx) || e.2.seqs.any fun q => q.ctx == ctx) &&
    !s.grinds.any (fun e => e.2.ctx == ctx) && !s.queues.any (fun e => e.2.en && e.2.ctx == ctx) &&
    !s.launches.any (fun e => e.2.lrec.ctx == ctx) && !s.draws.any (fun e => e.2.ctx == ctx) &&
    !s.tables.any (fun e => e.2.en && e.2.ctx == ctx) && (s.ctx ctx).fatal.isNone

/-- The Crema tiles and away streams of a context are freed (R238). -/
def State.freeCrema (s : State) (ctx : Nat) : State :=
  let die (d : Die) : Die := { d with tiles := d.tiles.filter fun t => t.ctx != ctx }
  { s with dies := List.map (fun e => (e.1, die e.2)) s.dies }

/-- CTXVF_RETIRE (R377). -/
def execCtxvfRetire (ctx : Nat) (v : Dword) (s : State) : Out :=
  .next (if !(s.ctx ctx).en || v.getLsbD 63 then s
    else if !s.ctxIdle ctx then s.log .ctxRetireRefused ctx 0
    else
      let core (c : Core) : Core :=
        { c with codebooks := c.codebooks.filter fun k => k.2.ctx != ctx, scc := c.scc.filter fun k => k.ctx != ctx }
      let s := s.freeCrema ctx
      let s := { s with cores := List.map (fun (e : Nat × Core) => (e.1, core e.2)) s.cores }
      let s := (s.dropTlb fun e => e.stage == 1 && e.tag == ctx).freeFrames ctx (s.ctx ctx).frames
      s.modCtx ctx fun c => { c with en := false, vf := bits v 5 0, cbrecs := [], tableOps := [] })

/-! ### Teardown (R79, R355) -/

/-- A USE count is lowered where its entry can be reached. -/
def State.dropUses (s : State) (ctx : Nat) (hs : List Nat) : State :=
  hs.foldl (fun s h => match s.addUse none ctx false [h] with
    | .ok s => s
    | .error _ => s) s

/-- An outstanding launch or draw whose target is a mailbox word receives STATUS 0xFF, whatever the word holds (R79). -/
def State.tornWord (s : State) (t : Target) (seq : Word) : State :=
  match t with
  | .word q off => if q < 128 then (s.lsPut64 q off (cword seq 0xFF)).setFull q off true else s
  | .barrier _ _ => s

/-- A draw's tickets leave the banks as empty (R128). -/
def State.dropTickets (s : State) (p : Ticket → Bool) : State :=
  let gone := (s.tickets.filter fun e => p e.2).map (·.1)
  let die (d : Die) : Die :=
    { d with
      queues := List.map (fun e => (e.1, e.2.filter fun q => !gone.contains q.ticket)) d.queues |>.filter fun e => !e.2.isEmpty
      parts := d.parts.filter fun x => !gone.contains x.ticket }
  { s with tickets := s.tickets.filter (fun e => !p e.2), dies := List.map (fun e => (e.1, die e.2)) s.dies }

/-- Whether a queue's program is of a context: an enabled queue's, or one that has not stopped yet since EN was cleared (R68, R79). -/
def State.queueIn (s : State) (ctx q : Nat) (k : Queue) : Bool :=
  (k.en && k.ctx == ctx) || (k.run && (s.group q).any fun g => g.ctx == ctx)

/-- The queues of a context stop (R79). -/
def State.stopQueues (s : State) (ctx : Nat) : State :=
  let qs := (s.queues.filter fun e => s.queueIn ctx e.1 e.2).map (·.1)
  let stop (e : Nat × Queue) : Queue := if s.queueIn ctx e.1 e.2 then { e.2 with run := false, fault := 4, waits := [] } else e.2
  let cp (c : CmdProc) : CmdProc := match c.current with
    | some q => if qs.contains q then { c with current := none } else c
    | none => c
  let halt (g : Group) : Group := { g with splits := [], flights := [], notif := none, live := 0 }
  qs.foldl (fun s q => s.modGroup q halt)
    { s with queues := List.map (fun e => (e.1, stop e)) s.queues, cps := List.map (fun e => (e.1, cp e.2)) s.cps }

/-- The tables of a context stop; their copies are abandoned (R355). -/
def State.stopTables (s : State) (ctx : Nat) : State :=
  ((s.tables.filter fun e => e.2.ctx == ctx).map (·.1)).foldl (fun s T =>
    let s := s.abandon T (s.table T).copies
    s.modTable T fun t => { t with en := false, copies := [], tokens := [], waits := [], merges := [], drains := [], freeing := [], notices := [] }) s

/-- A context is torn down for a fatal fault. -/
def State.tearDown (s : State) (ctx : Nat) (f : Fatal) : State :=
  let blks := (s.blocks.filter fun e => e.2.ctx == ctx).map (·.1)
  let draws := s.draws.filter fun e => e.2.ctx == ctx && e.2.status.isNone
  let ls := s.launches.filter fun e => e.2.lrec.ctx == ctx
  let s := s.dropUses ctx (blks.flatMap s.usesOf ++ draws.flatMap fun e => e.2.uses)
  let s := blks.foldl (fun s b => s.stopBlock b) s
  let s := (s.stopQueues ctx).stopTables ctx
  let s := ls.foldl (fun s e => if e.2.role = .kernel then s.tornWord e.2.target e.2.seq else s) s
  let s := draws.foldl (fun s e => s.tornWord e.2.target e.2.seq) s
  let ids := (s.draws.filter fun e => e.2.ctx == ctx).map (·.1)
  let s := (s.dropTickets fun t => ids.contains t.draw).freeCrema ctx
  let promise (c : Core) : Core := { c with restore := c.restore.filter fun r => r.out != ctx && r.inc != ctx }
  let s := { s with
    quadSets := s.quadSets.filter fun q => !ids.contains q.draw
    draws := s.draws.filter fun e => e.2.ctx != ctx
    launches := s.launches.filter fun e => e.2.lrec.ctx != ctx
    clusters := s.clusters.filter fun e => !ls.any fun l => l.1 == e.2.launch
    cores := List.map (fun (e : Nat × Core) => (e.1, promise e.2)) s.cores }
  let s := s.modCtx ctx fun c =>
    { c with
      fatal := none, cbrecs := [], tableOps := []
      cfault0 := fld f.cause 56 ||| fld f.core 47, cfault1 := fld f.fpc 0, cfault2 := fld f.faddr 0 }
  s.log .fatalFault ctx f.cause

/-- CONTEXT_TEARDOWN (R355): a group may first issue up to the instructions of its skid. -/
def execContextTeardown (ctx : Nat) (s : State) : Out :=
  .next (match (s.ctx ctx).fatal with
    | none => s
    | some f => s.tearDown ctx f)

end Sys2Proof.Machine
end

