-- ==== Sys2Proof/Machine/Cross.lean ====
section
/-! DEFINITION. Cross-lane and quad instructions (R199–R203). -/

namespace Sys2Proof.Machine

/-- A word source in any lane, active or not (R199). -/
def State.wordIn (s : State) (x : Ex) (lit : Word) (c : BitVec 8) (l : Nat) : Word := (s.readSrc x lit .w32 c l).setWidth 32

/-- The lane that SHFL reads for lane `l` (R200); none where the lane keeps its own value. -/
def shflLane (mode z : Nat) (w : Nat) (m : Lanes) (l b : Nat) : Option Nat :=
  let base := l - l % z
  let src : Int := match mode with
    | 0 => base + b
    | 1 => (l : Int) - b
    | 2 => l + b
    | _ => (l ^^^ b : Nat)
  if (base : Int) ≤ src && src < base + z && src < w && m.getLsbD src.toNat then some src.toNat else none

/-- SHFL (R200). -/
def execShfl (o : EOps) (s : State) : Out :=
  let mode := (o.minor.extractLsb' 0 2).toNat
  let z := 2 ^ (o.minor.extractLsb' 2 3).toNat
  s.withEx fun x => s.alu x
    { dst := o.d, srcs := [(.w32, o.a), (.w32, o.b)], lit := o.lit,
      fn := fun l v =>
        match shflLane mode z x.g.width x.lanes l ((wordAt v 1).extractLsb' 0 8).toNat with
        | some src => res (s.wordIn x o.lit o.a src)
        | none => res (wordAt v 0) }

/-- A cross-lane form of R143: one result, or one for each active lane in the order of `Ex.list`; a scalar destination takes
the first. -/
def State.cross (s : State) (x : Ex) (d : BitVec 8) (wide : Bool) (srcs : List (BitVec 8)) (one : LaneRes)
    (per : Option (List LaneRes)) : State :=
  if badDst x.g wide d || srcs.any (fun c => badSrc x.g .w32 c) || (x.g.isQueue && isVec d) then s.illegal x
  else
    let rs : List (Nat × LaneRes) :=
      match per with
      | some l => x.list.zip l
      | none => if isVec d then x.list.map fun l => (l, one) else [(0, one)]
    ((s.setGroup x.gid (x.g.applyLanes wide d rs)).addFlags x.gid x.sp.pc (flagsOf rs)).finish x

/-- BCST (R201). -/
def execBcst (o : AOps) (s : State) : Out :=
  s.withEx fun x =>
    if badUniform x.g .w32 o.b then s.illegal x
    else
      let l := (s.wordIn x o.lit o.b 0).toNat % x.g.width
      s.cross x o.d false [o.a] (res (s.wordIn x o.lit o.a l)) none

/-- The votes of R201 over the active lanes' values. -/
def votes (ws : List Word) : Word :=
  let anyB := ws.any fun w => w != 0
  let allB := ws.all fun w => w != 0
  let eqB := ws.all fun w => w == ws.headD 0
  (if anyB then 1 else 0) ||| (if allB then 2 else 0) ||| (if eqB then 4 else 0)

/-- VOTE (R201). -/
def execVote (o : UOps) (s : State) : Out :=
  s.withEx fun x => s.cross x o.d false [o.a] (res (votes (x.list.map (s.wordIn x o.lit o.a)))) none

/-- BALLOT (R201). -/
def execBallot (o : UOps) (s : State) : Out :=
  s.withEx fun x =>
    s.cross x o.d true [o.a] { val := maskOf (x.list.filter fun l => s.wordIn x o.lit o.a l != 0) } none

/-- An integer operation of REDUX and its identity (R202). -/
def reduxInt (op : Nat) : (Word → Word → Word) × Word :=
  match op with
  | 0 => (fun a b => a + b, 0)
  | 1 => (fun a b => if a.slt b then a else b, 0x7FFFFFFF)
  | 2 => (fun a b => if a.slt b then b else a, 0x80000000)
  | 3 => (fun a b => if a.ult b then a else b, 0xFFFFFFFF)
  | 4 => (fun a b => if a.ult b then b else a, 0)
  | 5 => (fun a b => a &&& b, 0xFFFFFFFF)
  | 6 => (fun a b => a ||| b, 0)
  | _ => (fun a b => a ^^^ b, 0)

/-- A floating-point reduction of R202. -/
def reduxFp (op : Nat) (mode : RMode) (ws : List Word) : LaneRes :=
  let vs := ws.map fun w => FF.fp32.decode w.toNat
  match op, vs with
  | 0, [] => res 0
  | 1, [] => res 0x7F800000
  | _, [] => res 0xFF800000
  | 0, vs => FF.fp32.fin false ((vs.foldl SumAcc.addTerm SumAcc.empty).total .fp32 mode)
  | k, v :: t => FF.fp32.fin false (FF.fp32.round .rne (t.foldl (fvPick (k == 2)) v))

/-- One reduction of R202. -/
def redux (fl : Bool) (op : Nat) (mode : RMode) (ws : List Word) : LaneRes :=
  if fl then reduxFp op mode ws else res (ws.foldl (reduxInt op).1 (reduxInt op).2)

/-- REDUX (R202). -/
def execRedux (o : EOps) (s : State) : Out :=
  let op := (o.minor.extractLsb' 0 3).toNat
  let fl := o.minor.getLsbD 3
  let scan := o.minor.getLsbD 4
  s.withEx fun x =>
    if scan && isScalar o.d then s.illegal x
    else
      let ws := x.list.map (s.wordIn x o.lit o.a)
      let per := (List.range ws.length).map fun k => redux fl op (modRm o) (ws.take (k + 1))
      s.cross x o.d false [o.a] (redux fl op (modRm o) ws) (if scan then some per else none)

/-- A quad instruction (R203): B uniform, A read in every lane of the quad. -/
def quadOp (o : AOps) (f : (Nat → Word) → Nat → Word → LaneRes) (s : State) : Out :=
  s.withEx fun x =>
    if badUniform x.g .w32 o.b then s.illegal x
    else
      s.alu x
        { dst := o.d, srcs := [(.w32, o.a), (.w32, o.b)], lit := o.lit,
          fn := fun l v => f (s.wordIn x o.lit o.a) l (wordAt v 1) }

/-- QSWP (R203). -/
def execQswp (o : AOps) (s : State) : Out :=
  quadOp o (fun a l b => res (a (l ^^^ (b.extractLsb' 0 2).toNat))) s
/-- QBCST (R203). -/
def execQbcst (o : AOps) (s : State) : Out :=
  quadOp o (fun a l b => res (a (4 * (l / 4) + (b.extractLsb' 0 2).toNat))) s

/-- The lanes that QDD subtracts, first and second (R203). -/
def qddLanes (b l : Nat) : Nat × Nat :=
  let q := 4 * (l / 4)
  match b with
  | 0 => let f := q + 2 * (l % 4 / 2); (f, f + 1)
  | 1 => let f := q + l % 2; (f, f + 2)
  | 2 => (q, q + 1)
  | _ => (q, q + 2)

/-- QDD (R203). -/
def execQdd (o : AOps) (s : State) : Out :=
  quadOp o (fun a l b =>
    let p := qddLanes (b.extractLsb' 0 2).toNat l
    FF.fp32.fin false
      (FF.fp32.add .rne (FF.fp32.decode (a p.2).toNat) (FF.fp32.decode (a p.1).toNat).neg)) s

end Sys2Proof.Machine
end

