-- ==== Sys2Proof/Machine/Fabric.lean ====
section
/-! DEFINITION. Links and packages: routes of the die fabric (R16, R17), Thrumri ports and messages (R378–R381), package faults
(R17, R333), die resets (R383, R384). -/

namespace Sys2Proof.Machine

/-! ### Package faults -/

/-- A package fault (R17, R355): every context meets cause 0x16. -/
def State.packageFault (s : State) (why : Nat) : State :=
  let cs := (s.ctxs.filter fun e => e.2.en).map (·.1)
  cs.foldl (fun s c => s.setFatal c (fatalOf 0x16 0 0 0 none 0))
    ((s.modPkg fun p => { p with stopped := true }).log .packageFault why 0)

/-! ### Routes (R17, R384) -/

/-- Dies of a stack between two of its dies along the ring 0–1–3–2, keeping off some dies where the ring allows it. -/
def ringVia (stack x y : Nat) (avoid : List Nat) : List Nat :=
  if x + y ≠ 3 then []
  else
    let (a, b) := if x = 0 ∨ x = 3 then (1, 2) else (0, 3)
    if avoid.contains (4 * stack + a) then [4 * stack + b] else [4 * stack + a]

/-- The die link at which traffic between the stacks crosses: the source's own, else the lowest that is available, and whose
dies need not be kept off. -/
def crossing (down : List Nat) (avoid : List Nat) (a b : Nat) : Option Nat :=
  let ok (x : Nat) : Bool :=
    let near := 4 * (a / 4) + x
    let far := 4 * (b / 4) + x
    !down.contains x && (near == a || !avoid.contains near) && (far == b || !avoid.contains far)
  if ok (a % 4) then some (a % 4) else (List.range 4).find? ok

/-- The dies that traffic from one die to another passes through. -/
def routeOf (down : List Nat) (avoid : List Nat) (a b : Nat) : List Nat :=
  if a / 4 = b / 4 then (if a = b then [] else ringVia (a / 4) (a % 4) (b % 4) avoid)
  else match crossing down avoid a b with
    | none => []
    | some x =>
      let near := 4 * (a / 4) + x
      let far := 4 * (b / 4) + x
      let first := if near = a then [] else ringVia (a / 4) (a % 4) x avoid ++ [near]
      let last := if far = b then [] else far :: ringVia (b / 4) x (b % 4) avoid
      first ++ last

/-- The dies in a full reset from which the routes have been swapped away (R384, steps 2 to 5). -/
def State.offRoutes (s : State) : List Nat :=
  (s.dies.filter fun e => e.2.dierst.getLsbD 63 && e.2.dierst.getLsbD 62 && (e.2.rst == .inReset || e.2.rst == .restarting)).map (·.1)

/-- The fabric manager writes the idle copy of the route table, and every router swaps (R17, R384): off the dies given, and off
those in a full reset. -/
def State.swapRoutes (s : State) (off : List Nat) : State :=
  let avoid := off ++ s.offRoutes
  let r : KV (List Nat) := (List.range 64).map fun k => (k, routeOf s.pkg.linksDown avoid (k / 8) (k % 8))
  s.modPkg fun p => if p.routeB then { p with routesA := r, routeB := false } else { p with routesB := r, routeB := true }

/-- LINK_RETRAIN (R16, R381): flits are replayed in their order. Links 0–3 are the die links, 4 the front-end link, 5 + p the
Thrumri port p. -/
def execLinkRetrain (link : Nat) (s : State) : Out :=
  let s' := s.log .linkRetrain link 0
  .next (if link < 5 then s'
    else
      let k := KV.get {} s.pkg.ports (link - 5)
      if 18 ≤ link - 5 || k.state ≠ 2 then s
      else s'.modPkg fun p =>
        { p with ports := p.ports.insert (link - 5) { k with state := 3, retrain := min 65535 (k.retrain + 1) } })

/-- DIE_LINK_DOWN (R17): without a die link, or without the front-end link, the package faults. -/
def execDieLinkDown (link : Nat) (s : State) : Out :=
  .next (if 5 ≤ link || s.pkg.linksDown.contains link then s
    else
      let s := (s.modPkg fun p => { p with linksDown := p.linksDown ++ [link] }).log .dieLink link 0
      if link = 4 || (List.range 4).all s.pkg.linksDown.contains then s.packageFault link else s.swapRoutes [])

/-- DIE_LINK_RESTORED (R17). -/
def execDieLinkRestored (link : Nat) (s : State) : Out :=
  .next (if !s.pkg.linksDown.contains link then s
    else ((s.modPkg fun p => { p with linksDown := p.linksDown.filter fun l => l != link }).log .dieLink link 1).swapRoutes [])

/-! ### Thrumri (R378–R381) -/

/-- A port of the package. -/
def State.port (s : State) (p : Nat) : Port := KV.get {} s.pkg.ports p
def State.modPort (s : State) (p : Nat) (f : Port → Port) : State :=
  s.modPkg fun k => { k with ports := k.ports.insert p (f (s.port p)) }

/-- THRPORT_MODE_WRITE (R379). -/
def execThrportModeWrite (port : Nat) (v : Dword) (s : State) : Out :=
  let m := bits v 61 60
  let hosts : Bool := s.pkg.ports.any fun e => e.1 != port && e.2.mode == 2
  .next (if 18 ≤ port then s
    else if m = 3 then s.log .windowReserved port m
    else if (s.port port).state ≠ 0 then s
    else if m = 2 && (hosts || s.pkg.hostpkg ≠ s.pkg.pkgid) then s.log .portMode port m
    else s.modPort port fun p => { p with mode := m })

/-- DOMCFG_WRITE (R379). -/
def execDomcfgWrite (v : Dword) (s : State) : Out :=
  .next (if s.pkg.ports.any fun e => e.2.state != 0 then s
    else s.modPkg fun p => { p with pkgid := bits v 63 54, hslot := bits v 53 51, hostpkg := bits v 50 41 })

/-- THRUMRI_PORT_TRAINED (R379): the end of a training or a retraining (log 47). -/
def execThrumriPortTrained (port peer pport : Nat) (s : State) : Out :=
  .next (if 18 ≤ port || (s.port port).mode = 0 || (s.port port).state = 2 then s
    else s.modPort port fun p => { p with state := 2, peer := peer % 1024, pport := pport % 32 })

/-- THRUMRI_FLIT_REPLAY (R378, R379). -/
def execThrumriFlitReplay (port : Nat) (s : State) : Out :=
  .next (if 18 ≤ port || (s.port port).state ≠ 2 then s
    else s.modPort port fun p => { p with replay := min 65535 (p.replay + 1) })

/-- A write of another package arrives at the window: each run of its enabled bytes is a write of its own (R398). -/
def State.remoteWindow (s : State) (off : Nat) (bs : List (Option Byte)) : Nat → State
  | 0 => s
  | n + 1 =>
    let run := (bs.takeWhile (·.isSome)).filterMap id
    let rest := bs.drop run.length
    let s := s.remoteWindow (off + run.length + 1) (rest.drop 1) n
    if run = [] then s else s.windowPost none off run

/-- THRUMRI_REMOTE_ACCESS (R378, R381, R299): a request of another package is applied at its home. A read of bytes with an
uncorrectable error, or of no memory of this package, and a write are answered without bytes. A core of this package caches no entry of another
package's tables, so it acknowledges a notice of theirs at once (R110). -/
def execThrumriRemoteAccess (m : ThrMsg) (s : State) : Out :=
  .next (match m.kind, s.place m.addr with
    | .read n, .mem _ =>
      if s.poisoned m.addr n then (s.reports m.addr n).answerTo m.src []
      else let (bs, s) := s.homeRead m.addr n
        s.answerTo m.src bs
    | .read n, .window off => let (bs, s) := s.windowRead off n
      s.answerTo m.src bs
    | .read _, _ => s.answerTo m.src []
    | .write bs cmp, .mem _ => if 256 < bs.length then s else (s.homeWrite (s.canon m.addr) bs cmp).answerTo m.src []
    | .write bs _, .window off => if 256 < bs.length then s else (s.remoteWindow off bs bs.length).answerTo m.src []
    | .write _ _, _ => s.answerTo m.src []
    | .atomic op w64 b c rel rmt cmp, .mem a =>
      let q : AtomReq :=
        { gid := 0, flight := 0, addr := s.canon m.addr, op := op, w64 := w64, b := b, c := c, cmp := cmp
          core := 320 * m.src + (rel.map (·.1)).getD 0, lane := 0, scalar := false, dst := none, release := rel.map (·.2)
          rmt := rmt, reply := some m.src }
      s.modDie (homeDie a) fun d => { d with atoms := d.atoms ++ [q] }
    | .atomic .., .window off => (s.log .windowAccess off 8).answerTo m.src []
    | .atomic .., _ => s.answerTo m.src []
    | .promote core, _ =>
      if 320 ≤ core then s
      else (s.release core 4).modPkg fun p => { p with sent := p.sent ++ [⟨p.pkgid, m.addr, .promoted⟩] }
    | .promoted, .mem a => s.modDie (homeDie a) fun d => { d with
        atoms := d.mapPorts (fun q => q.asked && q.addr / 32 == s.canon m.addr / 32) (fun q => { q with promoted := true }) [] d.atoms }
    | .promoted, _ => s
    | .register T k, _ => if T < 16 ∧ k < 320 then s.registerName T (320 * m.src + k) else s
    | .deregister T k, _ => s.modTable T fun t =>
        { t with regs := t.regs.filter (fun r => r != 320 * m.src + k), notices := t.notices.filter fun n => n.core != 320 * m.src + k }
    | .response, _ => s.answered m.src
    | .notice T k e v, _ => s.send [⟨s.pkg.pkgid, m.src * 2 ^ 42, .noticed T k e v⟩]
    | .noticed T k e v, _ => s.modTable T fun t =>
        { t with notices := t.notices.filter fun n => !(n.core == 320 * m.src + k && n.expert == e && n.version == v) }
    | .hostWrite bs, _ => s.hostArrives m.src (m.addr % 2 ^ 42) (some bs) bs.length
    | .hostRead size, _ => s.hostArrives m.src (m.addr % 2 ^ 42) none size)

/-- Whether a request waits for an answer of a package: its target lies there, or the core asked for a promotion. -/
def State.awaitsPkg (s : State) (d : Die) (pkg : Nat) (q : AtomReq) : Bool :=
  (match s.place q.addr with
    | .remote p => p == pkg
    | _ => false) ||
  (q.asked && !q.promoted && match d.awaits q with
    | some k => k / 320 == pkg
    | none => false)

/-- The reads and writes that a package has still to answer. -/
def State.askedOf (s : State) (pkg : Nat) : List Await := s.pkg.awaited.filter fun a => a.msg.addr / 2 ^ 42 == pkg

/-- The requests to a package that is to answer no more: each is an uncorrectable error of the context that owns it (R381). -/
def State.loseAsked (s : State) (pkg : Nat) : State :=
  (s.askedOf pkg).foldl (fun s a => match a.ctx with
    | some c => s.setFatal c (fatalOf 0x11 0 0 0 a.gid 0)
    | none => s) (s.modPkg fun p => { p with awaited := p.awaited.filter fun a => a.msg.addr / 2 ^ 42 != pkg })

/-- THRUMRI_ROUTE_LOST (R381): over another path the requests are sent again; without one each is an uncorrectable error. -/
def execThrumriRouteLost (pkg : Nat) (otherPath : Bool) (s : State) : Out :=
  let s := s.log .routeLost pkg (if otherPath then 1 else 0)
  .next (if otherPath then s.send ((s.askedOf pkg).map (·.msg))
    else
      let s := s.loseAsked pkg
      let lost := s.dies.flatMap fun e => e.2.atoms.filter fun q => s.awaitsPkg e.2 pkg q
      let die (d : Die) : Die := { d with atoms := d.atoms.filter fun q => !s.awaitsPkg d pkg q }
      lost.foldl (fun s q => s.atomFatal q) { s with dies := List.map (fun (e : Nat × Die) => (e.1, die e.2)) s.dies })

/-! ### Die resets (R383, R384) -/

/-- Whether some of the bytes of a physical range of whole 4 KiB pieces lie at home on a die (R215). -/
def State.homeOn (s : State) (die pa n : Nat) : Bool :=
  (List.range (n / 4096)).any fun i => match s.place (pa + 4096 * i) with
    | .mem c => homeDie c == die
    | _ => false

/-- Whether a range of intermediate addresses of a context has a line homed on a die. -/
def State.ipaOn (s : State) (ctx die a n : Nat) : Bool :=
  (List.range ((n + 65535) / 65536)).any fun i =>
    match s.stage2 {} (s.ctx ctx).vf (a + 65536 * i) with
    | .ok r => s.homeOn die r.1 (min n 65536)
    | .error _ => false

/-- Whether a context's tables, from a level down, or the pages they map have a line homed on a die. -/
def State.tablesOn (s : State) (ctx die : Nat) : Nat → Nat → Bool
  | 0, _ => false
  | l + 1, table =>
    s.ipaOn ctx die table 8192 || (List.range 1024).any fun i =>
      match s.stage2 {} (s.ctx ctx).vf (table + 8 * i) with
      | .error _ => false
      | .ok r => match s.readPte r.1 with
        | .error _ => false
        | .ok e => match pteOf l e with
          | .table a => s.tablesOn ctx die l a
          | .leaf a n => s.ipaOn ctx die a n
          | _ => false

/-- Whether a table has a weight-pool slot in use on a die: a retired replica's is, until it is freed. -/
def State.slotsOn (s : State) (t : ExpTable) (die : Nat) : Bool :=
  (List.range (t.nexp + 1)).any fun e => match s.expEntry t e with
    | .ok x => (List.range 8).any fun i =>
        let r := x.rep i
        r.die == die && (r.state == 1 || r.state == 2 || (r.state == 3 && (x.mpend.getLsbD i || t.freeing.contains (e, i))))
    | .error _ => false

/-- Contexts that a full reset of a die tears down (R384, step 4). -/
def State.hitBy (s : State) (die : Nat) : List Nat :=
  (s.ctxs.filter fun e => e.2.en && (
    s.tablesOn e.1 die 4 (e.2.gttb &&& 0x000FFFFFFFFFE000).toNat ||
    s.homeOn die (bits e.2.csave 51 16 * 65536) (65536 * e.2.frameCount) ||
    (s.die die).tiles.any (fun t => t.ctx == e.1) ||
    s.tables.any fun t => t.2.en && t.2.ctx == e.1 && s.slotsOn t.2 die)).map (·.1)

/-- DIERST of a die with GO and STATE (R383). -/
def State.setDierst (s : State) (die : Nat) (full go : Bool) (r : RstState) : State :=
  let code : Nat := match r with
    | .idle => 0
    | .clearing => 1
    | .inReset => 2
    | .restarting => 3
  s.modDie die fun d =>
    { d with dierst := bit go 63 ||| bit full 62 ||| fld code 60, rst := r, noPlace := go || d.noPlausible.isSome }

/-- Step 1 (R384): groups of the die that may be taken are drained; where none is left, its remaining blocks are saved. -/
def State.clearDie (s : State) (die : Nat) : State :=
  (coresOf die).foldl (fun s c =>
    let gs := (s.groupsOn c).filter fun e => e.2.res == .resident && e.2.np.isNone
    let s := gs.foldl (fun s e => s.drainGroup e.1) s
    if !(s.groupsOn c).isEmpty then s
    else (s.blocksOn c).foldl (fun s b => s.saveBlock b.1) s) s

/-- Copies onto a die that is reset fail (R115). -/
def State.failCopies (s : State) (die : Nat) : State :=
  let copy (c : ExpCopy) : ExpCopy := if c.die = die then { c with failed := true } else c
  { s with tables := s.tables.map fun _ t => { t with copies := t.copies.map copy } }

/-- No group or block is left on a die. -/
def State.dieClear (s : State) (die : Nat) : Bool :=
  (coresOf die).all fun c => (s.groupsOn c).isEmpty && (s.blocksOn c).isEmpty

/-- Cores restart as in step 8 of the start sequence (R386). Evictions from them are still to be answered by restores. -/
def State.freshCores (s : State) (die : Nat) : State :=
  (coresOf die).foldl (fun s c => s.modCore c fun k => { ({} : Core) with restore := k.restore }) s

/-- The cores of a die in reset. -/
def State.holdCores (s : State) (die : Nat) : State :=
  (coresOf die).foldl (fun s c => s.modCore c fun k => { k with held := true }) s

/-- DIE_RESET_COMPUTE (R384): the die is cleared, its cores are reset, and it restarts (log 87). -/
def execDieResetCompute (die : Nat) (s : State) : Out :=
  .next (if 8 ≤ die || s.pkg.stopped then s
    else
      let d := s.die die
      if !d.dierst.getLsbD 63 then (s.setDierst die false true .clearing).log .dieReset die 0
      else if d.dierst.getLsbD 62 then s
      else match d.rst with
        | .inReset => ((s.freshCores die).failCopies die).setDierst die false true .restarting
        | .restarting => s.setDierst die false false .idle
        | _ =>
          let s := s.clearDie die
          if !s.dieClear die then s else (s.holdCores die).setDierst die false true .inReset)

/-- The memory of a die is initialised anew (R384, step 3). -/
def State.clearMemory (s : State) (die : Nat) : State :=
  let here (c : Nat) : Bool := homeDie c == die
  { s with
    mem := s.mem.filter fun e => !here e.1
    tags := s.tags.filter fun e => !here (128 * e.1)
    l2 := s.l2.filter fun e => !here (128 * e.1)
    poison := s.poison.filter fun a => !here a }

/-- What of a die a full reset leaves (R23, R384): its fuses and the Carafe area register. -/
def Die.afterFull (d : Die) : Die :=
  { hashsel := d.hashsel, slicemap := d.slicemap, coreEn := d.coreEn, cfarea := d.cfarea, cmpprobe := d.cmpprobe
    dierst := d.dierst, rst := d.rst, therm := d.therm, clockDown := d.clockDown, noPlausible := d.noPlausible, refresh := d.refresh
    acts := d.acts, opSeq := 0, scSeq := 0 }

/-- DIE_RESET_FULL (R384): the die is cleared and its routes are swapped away; it is reset, and the contexts that it held
something of meet cause 0x11; it restarts with the reset-state routes (log 87). -/
def execDieResetFull (die : Nat) (s : State) : Out :=
  .next (if 8 ≤ die || s.pkg.stopped then s
    else
      let d := s.die die
      if !d.dierst.getLsbD 63 then (s.setDierst die true true .clearing).log .dieReset die 1
      else if !d.dierst.getLsbD 62 then s
      else match d.rst with
        | .inReset =>
          let cs := s.hitBy die
          let s := (((s.freshCores die).failCopies die).clearMemory die).modDie die Die.afterFull
          let s := cs.foldl (fun s c => s.setFatal c (fatalOf 0x11 0 0 0 none 0)) s
          s.setDierst die true true .restarting
        | .restarting => (s.setDierst die true false .idle).swapRoutes []
        | _ =>
          let s := s.clearDie die
          if !s.dieClear die then s else ((s.swapRoutes [die]).holdCores die).setDierst die true true .inReset)

end Sys2Proof.Machine
end

