-- ==== Sys2Proof/Machine/Heap.lean ====
section
/-! DEFINITION. The surface-table instructions HALLOC, HFREE and SSTE and their serialiser (R257–R260, R65), and Carafe
(R234–R238, R391). -/

namespace Sys2Proof.Machine

/-! ### Images -/

/-- Fields of an entry that software writes (R58). -/
def steSoft : List Dword := [0x0000FFFF07FFFF07, ~~~0, 0x03FFFFFFFFFFFFFF, 0, 7, 0, 0, ~~~0]

/-- The class table of R59 and the rules of R58 for axes not in use. -/
def Ste.legal (e : Ste) : Bool :=
  let f (l : List Nat) : Bool := l.contains e.fmt
  let ax := e.axes + 1
  let dims := (3 ≤ ax || e.dim2 == 0) && (4 ≤ ax || e.dim3 == 0) && (2 ≤ ax || e.dim1 == 0)
  dims && (e.fmt != 6 || e.ncomp == 0) &&
    match e.cls with
    | 1 => e.loc == 0 && f [1, 3, 2, 8, 11, 12] && 2 ≤ ax && ax ≤ 3 && e.tshape == 1 && !e.dten
    | 2 => e.loc == 0 && f [1, 3, 2, 4, 5, 7, 9, 14] && 2 ≤ ax && e.tshape == 1 &&
        (!e.dten || ((e.fmt == 1 || e.fmt == 2) && e.ncomp == 0))
    | 3 => (e.loc == 1 || e.loc == 2) && e.fmt != 9 && e.fmt != 14 && !e.dten && !e.evict
    | 4 => e.loc == 3 && f [1, 3, 2, 4, 5, 7] && !e.dten && !e.evict
    | 5 => e.loc == 4 && !e.dten && !e.evict
    | _ => false

/-- SCH of an entry names nothing, or a GEN entry of FMT BF16 (R59). -/
def State.schOk (s : State) (core : Option Nat) (ctx sch : Nat) : Except Halt Bool :=
  if sch = 0 then .ok true
  else
    match s.entry core ctx sch with
    | .error h => .error h
    | .ok (some e) => .ok (e.cls == 5 && e.fmt == 2)
    | .ok none => .ok false

/-! ### Storage in the banks -/

/-- The lowest free run of `n` units in a bank of a die (log 26). -/
def Die.freeRun (d : Die) (bank n : Nat) : Option Nat :=
  let used := (d.tiles.filter fun t => t.bank == bank && !t.away).map fun t => (t.slot, t.units)
  let ok (c : Nat) : Bool := c + n ≤ 8192 && used.all fun u => c + n ≤ u.1 || u.1 + u.2 ≤ c
  ((0 :: used.map fun u => u.1 + u.2).filter ok).foldl (fun b c => match b with
    | none => some c
    | some a => some (min a c)) none

/-- The bytes of a tile's units. -/
def TileRec.key (t : TileRec) : Nat := 524288 * t.bank + 64 * t.slot

/-- Every tile of an entry in the order of its tile map: (tx, ty, plane). -/
def Ste.allTiles (e : Ste) : List (Nat × Nat × Nat) :=
  (List.range e.planes).flatMap fun p => (List.range (tilesAlong e.dim1)).flatMap fun ty =>
    (List.range (tilesAlong e.dim0)).map fun tx => (tx, ty, p)

/-- Where reserving stopped: no room in a bank, or a halt while the map was written. -/
inductive Short where
  | room (die bank : Nat)
  | halt (h : Halt)

/-- A halt at a new tile map: an invalid reply there is HALLOC's own translation trap (R258, R399). -/
def Halt.soft : Halt → Halt
  | .miss m => .miss { m with hw := false }
  | h => h

/-- Reserve the tiles of a new entry, set their bytes to 0 and write their map (R62, R63, R258, R391). -/
def State.reserve (s : State) (core : Option Nat) (ctx h : Nat) (e : Ste) (now : Nat) : List (Nat × Nat × Nat) → Except Short State
  | [] => .ok s
  | (tx, ty, p) :: t =>
    let (die, bank) := tilePlace h p tx ty
    let n := e.elemBits / 8
    match (s.die die).freeRun bank n with
    | none => .error (.room die bank)
    | some slot =>
      let r : TileRec := { ctx := ctx, handle := h, idx := e.tileIdx p tx ty, plane := p, tx := tx, ty := ty, bank := bank, slot := slot, units := n, bytes := 64 * n,
                           last := now, evict := e.evict, codec := e.codec }
      let s := s.modDie die fun d => { d.cremaWrite r.key (List.replicate (64 * n) 0) with tiles := d.tiles ++ [r] }
      match s.putTmap core ctx e (e.tileIdx p tx ty) ⟨0, 0, false, false, slot⟩ with
      | .error z => .error (.halt z.soft)
      | .ok s => s.reserve core ctx h e now t

/-- An entry's tiles, resident or away, are freed (R238, R259). -/
def State.freeTiles (s : State) (ctx h : Nat) : State :=
  { s with dies := s.dies.map fun _ d => { d with tiles := d.tiles.filter fun t => !(t.ctx == ctx && t.handle == h) } }

/-! ### Carafe (R234–R238) -/

/-- Units of 128 bytes in a die's Carafe area, and the area's first byte by canonical offset. -/
def Die.areaUnits (d : Die) : Nat := bits d.cfarea 63 52 * 131072
def Die.areaBase (d : Die) : Nat := bits d.cfarea 51 24 * 2 ^ 24 % 2 ^ 42

/-- The lowest free run of units in the area. -/
def Die.areaRun (d : Die) (n : Nat) : Option Nat :=
  let used := (d.tiles.filter (·.away)).map fun t => (t.far, t.farUnits)
  let ok (c : Nat) : Bool := c + n ≤ d.areaUnits && used.all fun u => c + n ≤ u.1 || u.1 + u.2 ≤ c
  ((0 :: used.map fun u => u.1 + u.2).filter ok).foldl (fun b c => match b with
    | none => some c
    | some a => some (min a c)) none

/-- Chunk `c` of a tile's bytes, padded with zeros. -/
def tileChunk (bs : List Byte) (c : Nat) : List Byte :=
  let l := (bs.drop (1024 * c)).take 1024
  l ++ List.replicate (1024 - l.length) 0

/-- The stream that a spill writes (R231, R236). -/
def spillStream (codec : Bool) (bs : List Byte) : List Byte :=
  let n := (bs.length + 1023) / 1024
  let cs := (List.range n).map fun c => codeChunk false codec (tileChunk bs c)
  let idx := (List.range n).flatMap fun c =>
    let unit := ((cs.take c).map fun x => x.2.length / 32).sum + firstUnit n
    natToBytes 8 (indexEntry unit (cs.getD c (0, [])).2.length (cs.getD c (0, [])).1).toNat
  let head := natToBytes 32 (bs.length * 2 ^ 32 + n) ++ idx
  head ++ List.replicate (32 * firstUnit n - head.length) 0 ++ cs.flatMap (·.2)

/-- The bytes that a stream in the area stands for. -/
def expandStream (rd : Nat → Nat → List Byte) (n : Nat) : List Byte :=
  (List.range ((n + 1023) / 1024)).flatMap (fun c =>
    match streamIndex (BitVec.ofNat 64 (bytesToNat (rd (32 + 8 * c) 8))) with
    | some (off, plen, codec) => (expandChunk codec (rd (32 * off) plen)).getD []
    | none => []) |>.take n

/-- Whether a range of an engine's operation holds a tile (R235). -/
def LockRange.holdsTile (r : LockRange) (t : TileRec) : Bool :=
  match r with
  | .tiles ctx h p x0 y0 x1 y1 =>
    ctx == t.ctx && h == t.handle && p == t.plane && x0 ≤ t.tx && t.tx < x1 && y0 ≤ t.ty && t.ty < y1
  | _ => false

/-- Whether a tile may be spilled: EVICT, in its bank, in no bank queue and in no range of an engine's operation (R235). -/
def State.eligible (s : State) (die bank : Nat) (t : TileRec) : Bool :=
  t.bank == bank && t.evict && !t.away &&
    !(s.cores.any fun c => c.2.locks.any fun k => k.range.holdsTile t) &&
    !((KV.get [] (s.die die).queues bank).any fun q => match s.tickets.find q.ticket with
      | none => false
      | some k => match s.draw k.draw with
        | none => false
        | some d => d.ctx == t.ctx && k.tiles.contains (t.handle, t.idx))

/-- The tile that Carafe picks: last access furthest in the past, then the lowest SLOT (R235). -/
def State.victim (s : State) (die bank : Nat) : Option TileRec :=
  ((s.die die).tiles.filter (s.eligible die bank)).foldl (fun b t => match b with
    | none => some t
    | some a => if t.last < a.last ∨ (t.last = a.last ∧ t.slot < a.slot) then some t else some a) none

/-- The bytes of a resident tile. -/
def Die.tileBytes (d : Die) (t : TileRec) : List Byte := d.crema.readN t.key t.bytes

/-- Whether a spill of a bank's next tile can start (R235, R238). -/
def State.canSpill (s : State) (die bank : Nat) : Bool :=
  match s.victim die bank with
  | none => false
  | some t => ((s.die die).areaRun (((spillStream t.codec ((s.die die).tileBytes t)).length + 127) / 128)).isSome

/-- Change one tile record of a die. -/
def State.modTile (s : State) (die : Nat) (t : TileRec) (f : TileRec → TileRec) : State :=
  s.modDie die fun d => { d with tiles := d.tiles.map fun r => if r.ctx = t.ctx ∧ r.handle = t.handle ∧ r.idx = t.idx then f r else r }

/-- Carafe's own update of a tile's map entry and of AWAYCNT (R63, R236, R237, R399). -/
def State.noteTile (s : State) (t : TileRec) (f : Tmap → Tmap) (g : Nat → Nat) : Except Halt State := do
  s.toUpdate none t.ctx t.handle
  match ← s.entry none t.ctx t.handle with
  | none => .ok s
  | some e =>
    let m ← s.tmapTo none t.ctx e t.idx
    let s ← s.putTmap none t.ctx e t.idx (f m)
    s.putEntry none t.ctx t.handle { e with awaycnt := g e.awaycnt }

/-- A halt of Carafe's update: a page is requested for the owner, or the owner meets a fatal fault (R238, R399). -/
def State.haltTile (s : State) (die : Nat) (t : TileRec) (h : Halt) : State :=
  match h with
  | .miss m =>
    let (k, s) := s.engineToken ⟨none, t.ctx, true⟩ m Config.unitCore.toNat
    s.modTile die t fun r => { r with tokens := [k] }
  | .fatal c va => s.engineFatal t.ctx 0 0 c va
  | _ => s

/-- A tile whose tokens stand in the way: pending, or replied invalid, which is fatal to its owner (R399). -/
def State.tileStall (s : State) (t : TileRec) : Option State :=
  if anyPending t.tokens then some s
  else match t.tokens.find? fun k => k.status == .invalid with
    | some k => some (s.engineFatal t.ctx 0 0 0x10 k.va)
    | none => none

/-- A line of the area is written without the L2: raw (R234, log 27). -/
def State.areaWrite (s : State) (o : Nat) (bs : List Byte) : State :=
  { s with mem := s.mem.writeN o bs
           poison := s.poison.filter fun c => !(o ≤ c && c < o + bs.length)
           tags := ((List.range ((bs.length + 127) / 128)).foldl (fun m i => KV.put 1 m (o / 128 + i) 0) s.tags) }

/-- A spill of a tile (R236). -/
def State.spill (s : State) (die : Nat) (t : TileRec) : State :=
  match s.tileStall t with
  | some s => s
  | none =>
    let d := s.die die
    if d.badCrema t.key t.bytes then s.engineFatal t.ctx 0 0 0x11 0
    else
    let st := spillStream t.codec (d.tileBytes t)
    let n := (st.length + 127) / 128
    match d.areaRun n with
    | none => s
    | some u =>
      match (s.areaWrite (d.areaBase + 128 * u) st).noteTile t (fun m => { m with away := true, far := u }) (· + 1) with
      | .error h => s.haltTile die t h
      | .ok s => s.modTile die t fun r => { r with away := true, far := u, farUnits := n, wanted := false, tokens := [] }

/-- The bank in which the operation at the head of a context's serialiser lacks room. -/
def State.lackOf (s : State) (ctx : Nat) : Option (Nat × Nat) :=
  match (s.ctx ctx).tableOps with
  | op :: _ =>
    if op.kind ≠ 0 then none
    else
      match s.group op.gid with
      | none => none
      | some g =>
        let e := Ste.ofDwords op.image
        let free := ((List.range (bits (s.ctx ctx).stcount 16 0)).drop 1).find? fun h =>
          match s.readHw g.core? ctx (s.steVA ctx h) 8 with
          | .ok bs => bytesToNat bs % 8 == 0
          | .error _ => false
        match free with
        | none => none
        | some h =>
          if !e.crema then none
          else
            match s.reserve g.core? ctx h e 0 e.allTiles with
            | .error (.room d b) => some (d, b)
            | _ => none
  | [] => none

/-- Whether room is asked for in a bank: by an allocation or by a return (R235, R237). -/
def State.roomAsked (s : State) (die bank : Nat) : Bool :=
  s.ctxs.any (fun c => s.lackOf c.1 == some (die, bank)) ||
    (s.die die).tiles.any fun t => t.bank == bank && t.away && t.wanted && ((s.die die).freeRun bank t.units).isNone

/-- CARAFE_SPILL (R236). -/
def execCarafeSpill (die bank : Nat) (s : State) : Out :=
  .next (if s.roomAsked die bank && s.canSpill die bank then
      match s.victim die bank with
      | some t => s.spill die t
      | none => s
    else s)

/-- CARAFE_RETURN (R237) of the tile whose stream begins at unit `far` of the die's area. -/
def execCarafeReturn (die bank far : Nat) (s : State) : Out :=
  .next (match (s.die die).tiles.find? fun t => t.bank == bank && t.away && t.far == far && t.wanted with
    | none => s
    | some t =>
      match s.tileStall t with
      | some s => s
      | none =>
        let d := s.die die
        match d.freeRun bank t.units with
        | none => s
        | some slot =>
          let o := d.areaBase + 128 * far
          if (List.range (128 * t.farUnits)).any fun i => s.badByte (o + i) then s.engineFatal t.ctx 0 0 0x11 0
          else
            let bs := expandStream (fun a n => s.mem.readN (o + a) n) t.bytes
            match s.noteTile t (fun m => { m with away := false, slot := slot }) (· - 1) with
            | .error h => s.haltTile die t h
            | .ok s =>
              let s := s.modTile die t fun r => { r with away := false, slot := slot, far := 0, farUnits := 0, wanted := false, tokens := [] }
              s.modDie die fun d => d.cremaWrite (524288 * bank + 64 * slot) bs)

/-! ### HALLOC, HFREE, SSTE -/

/-- The image at a local offset: a multiple of 16, bit 31 clear, wholly below the store's end (R258, R260). -/
def State.image (s : State) (g : Group) (o : Nat) : Option (List Dword) :=
  if o % 16 = 0 && o < 2 ^ 31 && o + 64 ≤ s.lsBytesOf g then some (dwords (s.lsRead g.blk o 64)) else none

/-- An operation reaches the serialiser, and its split waits for it (R257). -/
def State.tableOp (s : State) (x : Ex) (kind h : Nat) (img : List Dword) (mask : BitVec 8) (dst : Option Nat) : State :=
  let op : TableOp := { gid := x.gid, sid := x.sid, kind := kind, handle := h, image := img, mask := mask, dst := dst }
  (s.modCtx x.g.ctx fun c => { c with tableOps := c.tableOps ++ [op] }).park x .table

/-- The scalar register that a destination field names; 0xF0 discards the result (R142). -/
def scalarDst (d : BitVec 8) : Option Nat := if isScalar d then some (d.toNat - 0xC0) else none

/-- HALLOC (R258). -/
def execHalloc (o : EOps) (s : State) : Out :=
  s.kernelOnly fun x =>
    if (o.d != 0xF0 && !isScalar o.d) || badUniform x.g .w32 o.a then s.illegal x
    else
      match s.image x.g (s.readUni x o.lit .w32 o.a).toNat with
      | none => s.illegal x
      | some img => s.tableOp x 0 0 img 0xFF (scalarDst o.d)

/-- An instruction that names a handle: the class trap at issue where R57 refuses it. -/
def State.withHandle (s : State) (x : Ex) (h : Nat) (f : State → State) : State :=
  match (s.toUpdate x.g.core? x.g.ctx h).bind fun _ => s.entry x.g.core? x.g.ctx h with
  | .error z => s.haltEx x z .hw
  | .ok none => s.trap x 0x02 x.lanes 0
  | .ok (some _) => f s

/-- HFREE (R259). -/
def execHfree (o : EOps) (s : State) : Out :=
  s.kernelOnly fun x =>
    if badUniform x.g .w32 o.a then s.illegal x
    else
      let h := bits (s.readUni x o.lit .w32 o.a) 15 0
      s.withHandle x h fun s => s.tableOp x 1 h [] 0 none

/-- SSTE (R260). -/
def execSste (o : EOps) (s : State) : Out :=
  s.kernelOnly fun x =>
    if (o.d != 0xF0 && !isScalar o.d) || badUniform x.g .w32 o.a || badUniform x.g .w32 o.b then s.illegal x
    else
      match s.image x.g (s.readUni x o.lit .w32 o.b).toNat with
      | none => s.illegal x
      | some img =>
        let h := bits (s.readUni x o.lit .w32 o.a) 15 0
        s.withHandle x h fun s => s.tableOp x 2 h img (o.minor.extractLsb' 0 8) (scalarDst o.d)

/-- What applying an operation gives: its effect and the value of D, a wait, or a trap. -/
inductive Applied where
  | done (s : State) (d : Nat)
  | wait
  | trap (cause : Nat)

/-- The lowest free entry from 1 (R258), with its VERSION and USE. -/
def State.freeEntry (s : State) (core : Option Nat) (ctx : Nat) : List Nat → Except Halt (Option (Nat × Ste))
  | [] => .ok none
  | h :: t =>
    match s.readHw core ctx (s.steVA ctx h) 64 with
    | .error z => .error z
    | .ok bs =>
      let e := Ste.ofDwords (dwords bs)
      if e.cls = 0 then .ok (some (h, e)) else s.freeEntry core ctx t

/-- HALLOC applied (R65, R258). -/
def State.applyHalloc (s : State) (core : Option Nat) (ctx now : Nat) (img : List Dword) : Except Halt Applied := do
  let e := Ste.ofDwords img
  if (List.range 8).any (fun i => img.getD i 0 &&& steReserved.getD i 0 != 0) || e.reservedValue then
    .ok (.done s (4 * 65536))
  else
    let sch ← s.schOk core ctx e.sch
    if !e.legal || !sch then .ok (.done s (2 * 65536))
    else
      match ← s.freeEntry core ctx ((List.range (min 65536 (bits (s.ctx ctx).stcount 16 0))).drop 1) with
      | none => .ok (.done s 65536)
      | some (h, old) =>
        let tiles := if e.crema then e.allTiles else []
        let new : Ste := { e with version := (old.version + 1) % 65536, use := old.use, awaycnt := 0,
                                  ntiles := if e.crema then tiles.length else 0 }
        match s.reserve core ctx h new now tiles with
        | .error (.room d b) => .ok (if s.canSpill d b then .wait else .done s (3 * 65536))
        | .error (.halt z) => .error z
        | .ok s =>
          let s ← s.putEntry core ctx h new
          .ok (.done s h)

/-- HFREE applied (R61, R259). -/
def State.applyHfree (s : State) (core : Option Nat) (ctx h : Nat) : Except Halt Applied := do
  s.toUpdate core ctx h
  match ← s.entry core ctx h with
  | none => .ok (.trap 0x02)
  | some e =>
    if e.use ≠ 0 then .ok .wait
    else
      let s ← s.putEntry core ctx h { e with cls := 0, version := (e.version + 1) % 65536 }
      .ok (.done (s.freeTiles ctx h) 0)

/-- SSTE applied (R61, R260). -/
def State.applySste (s : State) (core : Option Nat) (ctx h : Nat) (img : List Dword) (mask : BitVec 8) : Except Halt Applied := do
  s.toUpdate core ctx h
  match ← s.entry core ctx h with
  | none => .ok (.trap 0x02)
  | some e =>
    let sel (i : Nat) : Dword := if mask.getLsbD i then steSoft.getD i 0 else 0
    let old := e.toDwords
    let ds := (List.range 8).map fun i => (old.getD i 0 &&& ~~~sel i) ||| (img.getD i 0 &&& sel i)
    let new := Ste.ofDwords ds
    let new := if new.dten then new else { new with spb := e.spb }
    let d (st : Nat) : Nat := st * 65536 + h
    if (List.range 8).any (fun i => mask.getLsbD i && img.getD i 0 &&& steReserved.getD i 0 != 0) || new.reservedValue then
      .ok (.done s (d 4))
    else
      let sch ← s.schOk core ctx new.sch
      let fixed := new.cls == e.cls && new.dten == e.dten && new.spb == e.spb
      let may := !e.crema || { new with sch := e.sch, cbs := e.cbs, user := e.user, evict := e.evict, codec := e.codec } == e
      if !fixed || !may || !new.legal || !sch then .ok (.done s (d 2))
      else if { new with sch := e.sch, user := e.user } != e && e.use ≠ 0 then .ok .wait
      else
        let s ← s.putEntry core ctx h { new with version := (e.version + 1) % 65536 }
        .ok (.done { s with dies := s.dies.map fun _ d => { d with tiles := d.tiles.map fun t =>
          if t.ctx = ctx ∧ t.handle = h then { t with evict := new.evict, codec := new.codec } else t } } (d 0))

/-- SURFACE_TABLE_OP_APPLY (R257): the operation that a context's serialiser has at its head. -/
def execSurfaceTableOpApply (ctx : Nat) (s : State) : Out :=
  let pop (s : State) : State := s.modCtx ctx fun c => { c with tableOps := c.tableOps.drop 1 }
  .next (match (s.ctx ctx).tableOps with
    | [] => s
    | op :: _ =>
      match s.exOf op.gid op.sid with
      | none => pop s
      | some x =>
        let core := x.g.core?
        let r := match op.kind with
          | 0 => s.applyHalloc core ctx (s.cremaNow x.g.core) op.image
          | 1 => s.applyHfree core ctx op.handle
          | _ => s.applySste core ctx op.handle op.image op.mask
        match r with
        | .error h => (pop s).haltEx x h .hw
        | .ok .wait => s
        | .ok (.trap c) => (pop s).trap x c x.lanes 0
        | .ok (.done s d) =>
          let s := match op.dst with
            | some r => s.modGroup x.gid fun g => g.writeS r (BitVec.ofNat 32 d)
            | none => s
          (pop s).finish x)

end Sys2Proof.Machine
end

