-- ==== Sys2Proof/Machine/Move.lean ====
section
/-! DEFINITION. Moves and mask instructions (R196–R198). -/

namespace Sys2Proof.Machine

/-- MOV (R196). -/
def execMov (o : UOps) (s : State) : Out := alu1 o (fun a => a) s

/-- MOVL (R196): a pair, or the 64-bit literal of the two words that follow. -/
def execMovl (o : MovlOps) (s : State) : Out :=
  s.withEx fun x => s.alu x
    { dst := o.d, wide := true, srcs := [(.i64, o.a)],
      fn := fun _ v => { val := if o.a = 0xFF then o.lit else dwordAt v 0 } }

/-- MOVI (R196). -/
def execMovi (o : MoviOps) (s : State) : Out :=
  s.withEx fun x => s.alu x { dst := o.d, srcs := [], fn := fun _ _ => res (o.imm.signExtend 32) }

/-- A mask instruction: a whole mask below W, independent of m0; only m1–m13 may be written (R197, R198), and a queue
program has none (R67). -/
def maskOp (d : BitVec 4) (f : Ex → Lanes) (s : State) : Out :=
  s.withEx fun x =>
    if d.toNat = 0 || 13 < d.toNat || x.g.isQueue then s.illegal x
    else (s.setGroup x.gid (x.g.writeM d.toNat (f x))).finish x

/-- MAND (R197). -/
def execMand (d a b : BitVec 4) (s : State) : Out :=
  maskOp d (fun x => x.readM a.toNat &&& x.readM b.toNat) s
/-- MOR (R197). -/
def execMor (d a b : BitVec 4) (s : State) : Out :=
  maskOp d (fun x => x.readM a.toNat ||| x.readM b.toNat) s
/-- MXOR (R197). -/
def execMxor (d a b : BitVec 4) (s : State) : Out :=
  maskOp d (fun x => x.readM a.toNat ^^^ x.readM b.toNat) s
/-- MNOT (R197). -/
def execMnot (d a : BitVec 4) (s : State) : Out := maskOp d (fun x => ~~~(x.readM a.toNat)) s

/-- MPOP (R197): a uniform value, into a scalar register once or into every active lane. -/
def execMpop (d : BitVec 8) (a : BitVec 4) (s : State) : Out :=
  s.withEx fun x =>
    if x.g.isQueue && a != 0 then s.illegalScalar x
    else
      s.alu x { dst := d, srcs := [], fn := fun _ _ => res (BitVec.ofNat 32 (laneList (x.readM a.toNat) x.g.width).length) }

end Sys2Proof.Machine
end

