-- ==== Sys2Proof/Machine/Restore.lean ====
section
/-! DEFINITION. Restoration (R178, R267, R309, R352): where evicted blocks and groups go, and in what order they are put back. -/

namespace Sys2Proof.Machine

/-! ### Where a block fits again (R352) -/

/-- Existing evicted groups of a block, with their numbers. -/
def State.awayGroups (s : State) (blk : Nat) : List (Nat × Group) :=
  (s.groupsOfBlock blk).filterMap fun k => match s.group k with
    | some g => if g.res = .evicted then some (k, g) else none
    | none => none

/-- Quadrant of a group by R88 from q0. -/
def quadFrom (q0 : Nat) (g : Group) : Nat := (q0 + g.num) % 4

/-- A starting quadrant for groups whose slots it leaves free. -/
def State.quadsFor (s : State) (core : Nat) (gs : List (Nat × Group)) : Option Nat :=
  (List.range 4).find? fun q0 => (List.range 4).all fun q =>
    (gs.filter fun e => quadFrom q0 e.2 == q).length ≤ s.quadFree core q

/-- Range-lock entries that a list of groups brings back. -/
def lockCount (gs : List (Nat × Group)) : Nat := (gs.map fun e => e.2.locks.length).sum

/-- Where an evicted block fits on a core: its place in local store and q0 (R309, R352); work that the thermal scheduler has moved
restores on another die (R350). -/
def State.fitsAgain (s : State) (blk : Nat) (b : Block) (l : Launch) (core : Nat) : Option (Nat × Nat) :=
  let gs := s.awayGroups blk
  let c := s.core core
  let regs := (gs.map fun e => blockBytes e.2.width e.2.rblk).sum
  match s.fit l core regs 0 (some b.lsRun), s.quadsFor core gs with
  | some f, some q0 =>
    if b.shun == some (dieOf core) || 64 < f.groups + gs.length || 32 < c.slots.length + b.bars.length || !c.room (b.tlocks.length + lockCount gs) then none
    else some (f.base, q0)
  | _, _ => none

/-- Whether evicted groups of a resident block fit on its core. -/
def State.fitsBack (s : State) (b : Block) (gs : List (Nat × Group)) : Bool :=
  let c := s.core b.core
  let regs := (gs.map fun e => blockBytes e.2.width e.2.rblk).sum
  s.takes b.core && s.regBytes b.core + regs ≤ c.poolb0 * 8192 && c.room (lockCount gs) &&
    (List.range 4).all fun q => (gs.filter fun e => e.2.quad == q).length ≤ s.quadFree b.core q

/-! ### Putting back -/

/-- A split's park after a restore (R352). -/
def Park.restored : Park → Park
  | .tag => .no
  | .table => .no
  | .launch => .no
  | p => p

/-- Codebooks of a context come back with its first restored group on a core (R267, log 40). -/
def State.loadCodebooks (s : State) (ctx core : Nat) : State :=
  if (s.core core).loaded.contains ctx then s
  else (s.areaCheck ctx 0 0x2000 0x240).modCore core fun c =>
    { c with
      loaded := c.loaded ++ [ctx]
      codebooks := (s.ctx ctx).cbrecs.foldl (fun k e => k.insert e.1 ⟨e.2.entries, ctx, e.2.conflict⟩) c.codebooks }

/-- A team whose members are all back queues again: at the head where it owned the unit (R177). -/
def State.requeueTeam (s : State) (core : Nat) (t : Team) (owned : Bool) : State :=
  let ms := t.members.filterMap (s.memberOf t)
  if ms.any fun e => e.2.res == .evicted then s
  else
    let s := s.modCore core fun c => { c with teams := if owned then t :: c.teams else c.teams ++ [t] }
    ms.foldl (fun s e => s.modGroup e.1 fun g => { g with team := none, teamOwned := false, regain := owned }) s

/-- A group is put back on a core and quadrant. -/
def State.putBack (s : State) (core quad gid : Nat) : State :=
  match s.group gid with
  | none => s
  | some g =>
    let slot := s.freeGroupSlot core quad
    let now := (s.core core).cycle
    let s := s.areaCheck g.ctx g.frame 0 65536
    let g := s.readFrame g
    let away (j : Job) : Bool := g.teamOwned && j.onArray
    let waits := (g.splits.filter fun e => match e.2.park with
      | .regs .. => true
      | _ => false).map fun e => (⟨gid, e.1⟩ : RbReq)
    let g' : Group :=
      { g with
        res := .resident
        core := core
        quad := quad
        slot := slot
        readySince := now
        splits := g.splits.map fun _ sp => { sp with park := sp.park.restored }
        jobs := g.jobs.filter away
        locks := []
        seqs := if g.teamOwned then g.seqs else []
        steps := if g.teamOwned then g.steps else [] }
    let s := (s.setGroup gid g').modCore core fun c =>
      { c with
        jobs := c.jobs ++ (g.jobs.filter fun j => !away j).map fun j => j.onQuad quad
        locks := c.locks ++ g.locks
        seqs := if g.teamOwned then c.seqs else c.seqs ++ g.seqs.map fun q => { q with quad := quad }
        rbFifo := c.rbFifo ++ waits }
    let s := s.acquire core 4
    match g.team with
    | some t => s.requeueTeam core t g.teamOwned
    | none => s

/-- The barrier objects of a block are bound again (R309). -/
def State.rebind (s : State) (core blk : Nat) : List Nat → State
  | [] => s
  | off :: t =>
    match (s.core core).freeSlot with
    | none => s.rebind core blk t
    | some k =>
      ((s.modCore core fun c => { c with slots := c.slots.insert k (blk, off) }).putBar blk off
        { s.bar blk off with bound := true, slot := k }).rebind core blk t

/-- A latched completion store: where its word is full it is the word's latest waiter (R77, R305). -/
def State.landWord (s : State) (blk : Nat) (w : LatchedWord) : State :=
  if s.isFull blk w.off || (s.woken blk (w.off / 8)).isSome then
    let (k, s) := s.fresh
    s.setWaits blk (s.waitsOf blk ++
      [{ gid := k, sid := 0, lane := none, op := .stfe, off := w.off, wide := true, data := w.val, dst := none, flight := 0 }])
  else (s.lsPut64 blk w.off w.val).setFull blk w.off true

/-- A block is put back on a core: its bindings, Tamper's place, what was latched for it, then its groups (R352). -/
def State.restoreBlock (s : State) (blk core base q0 : Nat) (l : Launch) : State :=
  match s.block blk with
  | none => s
  | some b =>
    let gs := s.awayGroups blk
    let s := if (s.blocksOn core).isEmpty then s.carve l core else s
    let s := (s.areaCheck b.ctx b.frame 0 (65536 * b.frames)).loadCodebooks b.ctx core
    let ls := s.readBlockFrame b
    let s := s.modBlock blk fun b =>
      { b with ls := ls, shun := none, resident := true, core := core, lsBase := base, bars := [], tlocks := [], latched := [], latchedWords := [] }
    let s := s.modCore core fun c =>
      { c with
        locks := c.locks ++ b.tlocks
        tamperQ := if b.phase = .tamper && !b.tamperDone l then c.tamperQ ++ [blk] else c.tamperQ }
    let s := s.rebind core blk b.bars
    let s := b.latched.foldl (fun s e => s.barLower blk e.1 e.2.toNat) s
    let s := b.latchedWords.foldl (fun s w => s.landWord blk w) s
    let s := gs.foldl (fun s e => s.putBack core (quadFrom q0 e.2) e.1) s
    s.putTask blk (if b.phase = .tamper then 1 else 2)

/-- The blocks of a cluster that are evicted. -/
def State.awayMates (s : State) (b : Block) : List (Nat × Block) :=
  match s.cluster b.cluster with
  | none => []
  | some c => c.blocks.filterMap fun k => match s.block k with
    | some m => if m.resident then none else some (k, m)
    | none => none

/-- The best core of a die for an evicted block. -/
def State.spotOn (s : State) (die : Nat) (blk : Nat) (b : Block) (l : Launch) : Option (Nat × Nat × Nat) :=
  (coresOf die).findSome? fun c => (s.fitsAgain blk b l c).map fun f => (c, f.1, f.2)

/-- The other evicted blocks of a cluster on the dies of their die bits (R91, R310); none where one fits nowhere. -/
def State.restoreMates (s : State) (l : Launch) (die : Nat → Nat) : List (Nat × Block) → Option State
  | [] => some s
  | (k, m) :: t =>
    match s.spotOn (die m.dieBit) k m l with
    | none => none
    | some (c, base, q0) => (s.restoreBlock k c base q0 l).restoreMates l die t

/-- Dies of a cluster's die bits, when a block of bit `bit` goes to die `d`: where blocks of it are resident they stand, and `d`
is to be a ring neighbour of theirs (R91); else the neighbours of `d` are tried. -/
def State.dieMaps (s : State) (b : Block) (d : Nat) : List (Nat → Nat) :=
  let kept := match s.cluster b.cluster with
    | some c => c.blocks.filterMap fun k => match s.block k with
      | some m => if m.resident then some (m.dieBit, dieOf m.core) else none
      | none => none
    | none => []
  let other := match kept.find? fun e => e.1 != b.dieBit with
    | some e => [e.2].filter (ringNeighbours d)
    | none => (List.range 8).filter (ringNeighbours d)
  let same := (kept.filter fun e => e.1 == b.dieBit).all fun e => e.2 == d
  if same then other.map fun n => fun bit => if bit = b.dieBit then d else n else []

/-- A block that was evicted returns with its cluster (R310, R352). -/
def State.restoreWhole (s : State) (blk core : Nat) (b : Block) (l : Launch) : Option State :=
  match s.fitsAgain blk b l core with
  | none => none
  | some (base, q0) =>
    let mates := (s.awayMates b).filter fun e => e.1 != blk
    let r := s.restoreBlock blk core base q0 l
    (s.dieMaps b (dieOf core)).findSome? fun m => (r.restoreMates l m mates).map fun t =>
      t.modCluster b.cluster fun c => { c with die0 := m 0 }

/-- Groups of a resident block that return together: the first evicted one, with its team. -/
def State.nextBack (s : State) (blk : Nat) : List (Nat × Group) :=
  match s.awayGroups blk with
  | [] => []
  | (k, g) :: t =>
    match g.team with
    | some m => (k, g) :: t.filter fun e => m.has blk e.2.num
    | none => [(k, g)]

/-- The promises of a core that no evicted group of theirs waits for any more are kept. -/
def State.keepPromises (s : State) : State :=
  let waits (core ctx : Nat) : Bool := s.groups.any fun e => !e.2.isQueue && e.2.res == .evicted && e.2.core == core && e.2.ctx == ctx
  { s with cores := s.cores.map fun k (c : Core) => { c with restore := c.restore.filter fun r => waits k r.out } }

/-- GROUP_RESTORE (R352): an evicted block, or evicted groups of a resident one, return to a core. -/
def execGroupRestore (blk core : Nat) (s : State) : Out :=
  .next (match s.block blk, (s.block blk).bind fun b => s.launch b.launch with
    | some b, some l =>
      if (s.ctx b.ctx).fatal.isSome || b.dying || s.pkg.stopped then s
      else if !b.resident then
        match s.restoreWhole blk core b l with
        | some t => (t.freeRecords b.ctx).keepPromises
        | none => s
      else
        let gs := s.nextBack blk
        if b.core ≠ core || gs.isEmpty || !s.fitsBack b gs then s
        else
          let t := gs.foldl (fun s e => s.putBack core e.2.quad e.1) (s.loadCodebooks b.ctx core)
          (t.freeRecords b.ctx).keepPromises
    | _, _ => s)

/-! ### The restoration bound (R178) -/

/-- A promise falls due: the incoming context has issued 2^20 cycles on the core, or all its groups there are parked. What makes
room for a register request does not return before the grant (R175, log 90). -/
def State.owes (s : State) (core : Nat) (r : Restoring) : Bool :=
  let mine := (s.groupsOn core).filter fun e => e.2.ctx == r.inc
  if s.regClearing core then false else 2 ^ 20 ≤ r.count || (!mine.isEmpty && mine.all fun e => e.2.idle)

/-- Blocks with evicted groups of a context that were evicted from a core. -/
def State.awayFrom (s : State) (core ctx : Nat) : List (Nat × Block) :=
  s.blocks.filter fun e => e.2.ctx == ctx && e.2.core == core && !(s.awayGroups e.1).isEmpty

/-- Whether a block's evicted groups fit on a core. -/
def State.canReturn (s : State) (blk : Nat) (b : Block) (core : Nat) : Bool :=
  match s.launch b.launch with
  | none => false
  | some l => if b.resident then b.core == core && s.fitsBack b (s.nextBack blk) else (s.restoreWhole blk core b l).isSome

/-- RESTORATION_BOUND (R178): groups of the incoming context make room, parked ones first. -/
def execRestorationBound (core : Nat) (s : State) : Out :=
  .next (
    if (s.groupsOn core).any fun e => e.2.res != .resident then s
    else
      match (s.core core).restore.find? fun r => s.owes core r && !(s.awayFrom core r.out).isEmpty with
      | none => s
      | some r =>
        match s.awayFrom core r.out with
        | [] => s
        | (blk, b) :: _ =>
          if s.canReturn blk b core then s
          else
            let gs := sortDesc (fun (e : Nat × Group) => e.2.placedAt) ((s.groupsOn core).filter fun e => e.2.ctx == r.inc)
            let prey := ((gs.filter fun e => e.2.idle) ++ gs.filter fun e => !e.2.idle).map (·.1)
            match s.choose none (!b.resident) (fun t => t.canReturn blk b core) prey with
            | some vs => s.evictFor r.out vs
            | none => s)

/-! ### What may return (R178, log 41) -/

/-- The core that an evicted block's groups return to now, if any: at once where a promise is due, else where no launch of
higher priority waits for a place, no register request waits and nothing is being evicted. -/
def State.returnSpot (s : State) (blk : Nat) (b : Block) : Option Nat :=
  match s.launch b.launch with
  | none => none
  | some l =>
    let owed := (s.core b.core).restore.any fun r => r.out == b.ctx && s.owes b.core r
    let calm (c : Nat) : Bool := (s.core c).rbFifo.isEmpty && (s.groupsOn c).all fun e => e.2.res == .resident
    let ahead := s.launches.any fun e => s.toPlace e.2 && l.prio < e.2.prio
    let ok (c : Nat) : Bool := (owed && c == b.core || (!ahead && calm c)) && s.canReturn blk b c
    if ok b.core then some b.core
    else if b.resident then none
    else ((dieOrder (dieOf b.core)).flatMap coresOf).find? ok

/-- Pending returns. -/
def State.returns (s : State) : List (Nat × Nat) :=
  s.blocks.filterMap fun e =>
    if (s.awayGroups e.1).isEmpty && e.2.resident then none else (s.returnSpot e.1 e.2).map fun c => (e.1, c)

end Sys2Proof.Machine
end

