-- ==== Sys2Proof/Machine/Start.lean ====
section
/-! DEFINITION. Background work (R385), thermal sensors (R387), firmware and attestation (R388, R389), the start sequence
(R386). -/

namespace Sys2Proof.Machine

/-! ### Background work (R385) -/

/-- One more of a count by number. -/
def countUp (m : KV Nat) (k : Nat) : KV Nat := KV.put 0 m k (KV.get 0 m k + 1)

/-- DRAM_REFRESH (R385): no memory changes. -/
def execDramRefresh (die chan : Nat) (s : State) : Out :=
  .next (if 8 ≤ die then s else s.modDie die fun d => { d with refresh := countUp d.refresh chan })

/-- ROW_ACTIVATION_REFRESH (R385): a victim row is refreshed; no memory changes. -/
def execRowActivationRefresh (die row : Nat) (s : State) : Out :=
  .next (if 8 ≤ die then s else s.modDie die fun d => { d with acts := countUp d.acts row })

/-- CREMA_PATROL_SCRUB (R385): one unit of a bank for each slot, in turn; an uncorrectable error in it raises an event. A single-bit
error is corrected as it appears (log 49). -/
def execCremaPatrolScrub (die bank : Nat) (s : State) : Out :=
  .next (if 8 ≤ die || 512 ≤ bank then s
    else
      let d := s.die die
      let unit := KV.get 0 d.scrub bank
      let s := s.modDie die fun d => { d with scrub := KV.put 0 d.scrub bank ((unit + 1) % 8192) }
      let key := 524288 * bank + 64 * unit
      if d.badCrema key 64 then s.log .uncorrectable die key else s)

/-- LINK_CALIBRATION (R385): it uses no flit slots. -/
def execLinkCalibration (_port : Nat) (s : State) : Out := .next s

/-- SRAM_VMIN_CALIBRATION (R385): it runs only on pool rows gated above POOLB2, which hold nothing. -/
def execSramVminCalibration (_core _row : Nat) (s : State) : Out := .next s

/-! ### Thermal sensors (R387) -/

/-- Neighbours of a column: of its row of 20, and the facing one. -/
def neighbours (c : Nat) : List Nat :=
  (if c % 20 = 0 then [] else [c - 1]) ++ (if c % 20 = 19 then [] else [c + 1]) ++ [(c + 20) % 40]

def Die.col (d : Die) (c : Nat) : ThermCol := KV.get {} d.therm c

/-- Readings of plausible columns among some. -/
def Die.readings (d : Die) (cs : List Nat) : List Int :=
  cs.filterMap fun c => if (d.col c).plausible then (d.col c).prev else none

/-- The list with an integer in its place, ascending. -/
def insertInt (x : Int) : List Int → List Int
  | [] => [x]
  | y :: t => if x ≤ y then x :: y :: t else y :: insertInt x t

/-- The median; of two middle values, their mean (log 48). -/
def median (l : List Int) : Option Int :=
  let s := l.foldl (fun a x => insertInt x a) []
  let n := s.length
  if n = 0 then none
  else if n % 2 = 1 then s[n / 2]?
  else some ((s.getD (n / 2 - 1) 0 + s.getD (n / 2) 0) / 2)

def maxInt (l : List Int) : Option Int := l.foldl (fun m x => match m with
  | none => some x
  | some y => some (max x y)) none

/-- The record of a column after a reading, its run of equal readings with it. -/
def Die.take (d : Die) (c : Nat) (r : Int) : ThermCol :=
  let k := d.col c
  if k.prev = some r then { k with repeats := k.repeats + 1 }
  else
    { k with prev := some r, repeats := 1, moved := false
             base := (neighbours c).filterMap fun n => (d.col n).prev.map fun v => (n, v) }

/-- A neighbour's run sees a reading of column `c`: 2 °C from the first one it met marks a move. -/
def ThermCol.see (k : ThermCol) (c : Nat) (r : Int) : ThermCol :=
  match KV.find k.base c with
  | none => { k with base := KV.insert k.base c r }
  | some v => if 2000 ≤ (r - v).natAbs then { k with moved := true } else k

/-- Whether a reading is implausible, the column's record after it given. -/
def Die.implausible (d : Die) (c : Nat) (r : Int) (k : ThermCol) : Bool :=
  r < -20000 || 125000 < r ||
  (match (d.col c).prev with
    | some p => 8000 < (r - p).natAbs
    | none => false) ||
  (match median (d.readings (neighbours c)) with
    | some m => 25000 < (r - m).natAbs
    | none => false) ||
  (4096 ≤ k.repeats && k.moved)

/-- What takes the place of an implausible reading: the neighbours' maximum and 5 °C, else the die's and 10 °C. -/
def Die.replacement (d : Die) (c : Nat) : Option Int :=
  match maxInt (d.readings (neighbours c)) with
  | some m => some (m + 5000)
  | none => (maxInt (d.readings ((List.range 40).filter (· != c)))).map (· + 10000)

/-- A value in use: the clock falls at 95 °C, the package stops at 115 °C. -/
def State.heat (s : State) (die : Nat) (v : Option Int) : State :=
  match v with
  | none => s
  | some t =>
    if 115000 ≤ t then s.packageFault (8 + die)
    else if 95000 ≤ t then s.lowerClock die
    else s

/-- THERMAL_SENSOR_READING (R387). -/
def execThermalSensorReading (die col : Nat) (milli : Int) (s : State) : Out :=
  .next (if 8 ≤ die || 40 ≤ col then s
    else
      let d := s.die die
      let k := d.take col milli
      let bad := d.implausible col milli k
      let v := if bad then d.replacement col else some milli
      let therm := (neighbours col).foldl (fun m n => KV.insert m n ((KV.get {} m n).see col milli))
        (KV.insert d.therm col { k with plausible := !bad, used := v })
      let s := s.modDie die fun d => { d with therm := therm }
      let s := if bad then s.log .thermalColumn (64 * die + col) 0 else s
      let none_ : Bool := (List.range 40).all fun c => !((s.die die).col c).plausible
      let s := match none_, d.noPlausible with
        | true, none =>
          (s.modDie die fun d => { d with noPlausible := some 0, noPlace := true, clockDown := Config.clockSteps }).log .thermalDie die 0
        | true, some n => s.modDie die fun d => { d with noPlausible := some (n + 1) }
        | false, some n => if 4096 ≤ n then s else s.modDie die fun d => { d with noPlausible := none, noPlace := d.dierst.getLsbD 63 }
        | false, none => s
      s.heat die v)

/-- THERMAL_NO_PLAUSIBLE_TIMEOUT (R387). -/
def execThermalNoPlausibleTimeout (die : Nat) (s : State) : Out :=
  .next (match (s.die die).noPlausible with
    | some n => if 4096 ≤ n && !s.pkg.stopped then s.packageFault (16 + die) else s
    | none => s)

/-! ### Firmware (R388) and attestation (R389) -/

/-- Bytes of an image. -/
def imageSize (i : FwImage) : Nat := i.size

/-- Whether a stage is accepted. -/
def imageAccepted (i : FwImage) : Bool :=
  Config.signatureValid i.image i.version i.signature && decide (Config.minVersion ≤ i.version)

/-- A measurement register that has started at 32 zero bytes, extended by an image: SHA3-256 of 64 bytes. -/
def imageMeasure (i : FwImage) : BitVec 256 := Config.sha3 64 (Config.sha3 (imageSize i) i.image).toNat

/-- The stages of a start in turn: measurements, and whether all were accepted. -/
def measureAll : List FwImage → List (BitVec 256) × Bool
  | [] => ([], true)
  | i :: t => if imageAccepted i then
      let r := measureAll t
      (imageMeasure i :: r.1, r.2)
    else ([], false)

/-- FIRMWARE_RECOVERY_IMAGE (R388): taken only in recovery. -/
def execFirmwareRecoveryImage (img : FwImage) (s : State) : Out :=
  .next (if !s.pkg.recovery then s
    else if imageAccepted img then s.modPkg fun p => { p with recovery := false, measures := p.measures ++ [imageMeasure img] }
    else s.log .firmware 0 0)

/-- What an attestation reply signs: PKGID, the measurements, the nonce. -/
def Package.quote (p : Package) (nonce : BitVec 256) : List Byte :=
  natToBytes 2 p.pkgid ++ (p.measures ++ [nonce]).flatMap fun m => natToBytes 32 m.toNat

/-- ATTESTATION_REQUEST (R389): the quote and its ML-DSA-44 signature of 2,420 bytes. -/
def execAttestationRequest (nonce : BitVec 256) (s : State) : Out :=
  let q := s.pkg.quote nonce
  .next (s.answerTo hostDest (q ++ natToBytes 2420 (Config.identitySign (bytesToNat q))))

/-! ### Starting (R386) -/

/-- The dies after their fuses have loaded (R23): values that R24, R25 and R27 do not admit occur on no part, and leave the die as
it is with every slice and core working. -/
def fusedDies (fs : List DieFuses) : KV Die :=
  (fs.take 8).zipIdx.map fun e =>
    (e.2, if e.1.ok then { hashsel := e.1.hashsel, slicemap := e.1.slicemap, coreEn := e.1.coreEn } else {})

/-- What no start touches: the model's own counts and what is still to happen from outside. -/
def State.startFrom (s t : State) (fw : List FwImage) : State :=
  let m := measureAll fw
  let t := { t with nextId := s.nextId, freeCount := s.freeCount, agenda := s.agenda }
  let t := t.modPkg fun p =>
    { p with replies := s.pkg.replies, sent := s.pkg.sent, events := s.pkg.events, measures := m.1, recovery := !m.2 }
  if m.2 then t else t.log .firmware m.1.length 1

/-- COLD_START (R386): every register at its reset value, fuses loaded, memory and tags as at reset. -/
def execColdStart (fw : List FwImage) (fuses : List DieFuses) (s : State) : Out :=
  .next (s.startFrom { State.reset with dies := fusedDies fuses } fw)

/-- What a warm start keeps of a die: its fuse registers. -/
def Die.afterWarm (d : Die) : Die := { hashsel := d.hashsel, slicemap := d.slicemap, coreEn := d.coreEn }

/-- A port at a warm start: MODE is kept, and a port that has one is trained. -/
def Port.afterWarm (p : Port) : Port := { mode := p.mode, state := if p.mode = 0 then 0 else 1 }

/-- WARM_START (R386): memory, tags, the fuse registers, THRPORT.MODE and DOMCFG are kept (log 50). -/
def execWarmStart (fw : List FwImage) (s : State) : Out :=
  let t := { State.reset with
    mem := s.mem, tags := s.tags, l2 := s.l2, poison := s.poison
    dies := List.map (fun (e : Nat × Die) => (e.1, e.2.afterWarm)) s.dies }
  .next (s.startFrom (t.modPkg fun p =>
    { p with pkgid := s.pkg.pkgid, hslot := s.pkg.hslot, hostpkg := s.pkg.hostpkg, domain := s.pkg.domain
             ports := List.map (fun (e : Nat × Port) => (e.1, e.2.afterWarm)) s.pkg.ports }) fw)

end Sys2Proof.Machine
end

