-- ==== Sys2Proof/Machine/WindowWrite.lean ====
section
/-! DEFINITION. Writes to the privileged control window (R398), each register by its own rule. -/

namespace Sys2Proof.Machine

/-- The state that an outcome gives. -/
def State.after (s : State) (o : Out) : State :=
  match o with
  | .next t => t
  | _ => s

/-- A value outside what a field may hold: the write is ignored and logged (R398). -/
def State.refuseWrite (s : State) (off : Nat) (v : Dword) : State := s.log .windowReserved off v.toNat

/-- A table after the write of a register that has no rule of its own; none where a field would hold a reserved value (R107). -/
def ExpTable.write (t : ExpTable) (n : Nat) (v : Dword) : Option ExpTable :=
  match n with
  | 0 =>
    if v.getLsbD 61 && !t.hold then some t
    else if !t.en && !v.getLsbD 63 then some (t.config v)
    else if t.en && v.getLsbD 63 then some { t with hold := v.getLsbD 61 }
    else some t
  | 1 => some { t with base := v &&& 0x000FFFFFFFFFF000 }
  | 2 => if bits v 63 32 = 0 then none else some { t with wlen := bits v 63 32, hot := bits v 31 0 }
  | 3 =>
    let m := bits v 31 28
    let c := bits v 27 24
    if m = 0 || 8 < m || c = 0 || 8 < c then none else some { t with cold := bits v 63 32, maxrep := m, copymax := c }
  | 5 => some (if v.getLsbD 49 then { t with under := false } else t)
  | 6 => if bits v 63 60 = 1 ∨ bits v 63 60 = 2 then some t else none
  | _ => some t

/-- A write of such a register: a change is logged, and so is a write that is refused (R107, R398). -/
def State.writeBt (s : State) (T n off : Nat) (v : Dword) : State :=
  match (s.table T).write n v with
  | none => s.refuseWrite off v
  | some t => if t = s.table T then s else (s.modTable T fun _ => t).log .barista T 15

/-- A register without a rule of its own for the write (R343, R344, R348, R365, R383, R395). Read-only registers keep their
values. -/
def State.plainWrite (s : State) (r : WReg) (off : Nat) (v : Dword) : State :=
  match r with
  | .qcfg q => if !(s.queue q).en && !v.getLsbD 63 then s.modQueue q fun k => k.config v else s
  | .bt T n => s.writeBt T n off v
  | .dierst d => if (s.die d).dierst.getLsbD 63 || v.getLsbD 63 then s else s.modDie d fun x => { x with dierst := v &&& 0x4000000000000000 }
  | .cmpprobe d => s.modDie d fun x => { x with cmpprobe := v &&& 0x000FFFFFFFFFFF80 }
  | .qnote f st => if st = 2 then s.modPrq f 2 fun q => { q with note := v &&& 0xFFF0000000000000 } else s
  | .qreply f _ => if 1 < bits v 1 0 then s.log .replyUnknown f (bits v 63 48) else s
  | .httb f => s.modVf f fun x => { x with httb := v &&& 0x000FFFFFFFFFE000 }
  | .tlbinv w => if v.getLsbD 63 then s else s.writeTlbinv w v
  | .tlbinva w => if (s.wreg (.tlbinv w)).getLsbD 63 then s else s.setTlbinva w (v &&& 0xFFFFFFFFFFFF0000)
  | .ctxvf c => if (s.ctx c).en == v.getLsbD 63 then s.modCtx c fun x => { x with vf := bits v 5 0 } else s
  | .gttb c => s.modCtx c fun x => { x with gttb := v &&& 0x000FFFFFFFFFE000 }
  | .csave c => if s.blocks.any fun b => b.2.ctx == c then s else s.modCtx c fun x => { x with csave := v &&& 0xFFFFFFFFFFFF0000 }
  | .stbase c => s.modCtx c fun x => { x with stbase := v &&& 0x000FFFFFFFFFFFC0 }
  | .stcount c => if 65536 < bits v 16 0 then s.refuseWrite off v else s.modCtx c fun x => { x with stcount := v &&& 0x1FFFF }
  | _ => s

/-- CTRL_WINDOW_REG_WRITE (R398): also an access of another size or alignment, and an offset that names no register. -/
def execCtrlWindowRegWrite (off size : Nat) (v : Dword) (s : State) : Out :=
  .next (if size ≠ 8 ∨ off % 8 ≠ 0 then s.log .windowAccess off size
    else match wregAt off with
      | some r => s.plainWrite r off v
      | none => s.log .windowAccess off size)

/-- CFAREA_WRITE (R234): not while a tile of the die is away; an area outside the die's far memory is refused. -/
def execCfareaWrite (die : Nat) (v : Dword) (s : State) : Out :=
  let n := bits v 63 52 * 2 ^ 24
  let a := bits v 51 24 * 2 ^ 24
  let lo := s.pkg.pkgid * 2 ^ 42 + farBase + die * farDie
  .next (if 8 ≤ die || (s.die die).tiles.any (·.away) then s
    else if n ≠ 0 && !(decide (lo ≤ a) && decide (a + n ≤ lo + farDie)) then s.log .cfareaRefused die v.toNat
    else s.modDie die fun d => { d with cfarea := v &&& 0xFFFFFFFFFF000000 })

/-- PERFSEL_WRITE (R373). -/
def execPerfselWrite (core : Nat) (v : Dword) (s : State) : Out :=
  .next (if 320 ≤ core then s
    else s.modCore core fun c =>
      { c with perfsel := v &&& 0xFFFFFFFF, perfcnt0 := 0, perfcnt1 := 0, perfcnt2 := 0, perfcnt3 := 0 })

/-- What the write of a register brings about: the rule of its own that applies, if one does. -/
def State.ownWrite (s : State) (r : WReg) (v : Dword) : Option Out :=
  let go := v.getLsbD 63
  match r with
  | .qcfg q => match (s.queue q).en, go with
    | false, true => some (execQcfgEnable q v s)
    | true, false => some (execQcfgDisable q v s)
    | _, _ => none
  | .bt T 0 => match (s.table T).en, go with
    | false, true => some (execBtctlEnable T v s)
    | true, false => some (execBtctlDisable T v s)
    | _, _ => if v.getLsbD 61 && !(s.table T).hold then some (execBtctlHold T v s) else none
  | .bt T 4 => some (execBtexclClear T v s)
  | .bt T 6 => match bits v 63 60 with
    | 1 => some (execBtcmdForceRetire T (bits v 43 32) (bits v 2 0) s)
    | 2 => some (execBtcmdRefresh T (bits v 43 32) s)
    | _ => none
  | .cfarea d => some (execCfareaWrite d v s)
  | .perfsel c => some (execPerfselWrite c v s)
  | .thrport p => some (execThrportModeWrite p v s)
  | .domcfg => some (execDomcfgWrite v s)
  | .dierst d => if !go || (s.die d).dierst.getLsbD 63 then none
    else some (if v.getLsbD 62 then execDieResetFull d s else execDieResetCompute d s)
  | .qptr f st => some (execQptrConsWrite f st v s)
  | .qnote f 1 => some (execGqnoteWrite f v s)
  | .qreply f st => match bits v 1 0 with
    | 0 => some (execQreplyRetry f st (bits v 63 48) s)
    | 1 => some (execQreplyInvalid f st (bits v 63 48) s)
    | _ => none
  | .qbase f st => some (execQbaseWrite f st v s)
  | .tlbinv w => if !go then none else match bits v 62 61 with
    | 0 => some (execTlbinvStage1Range w v s)
    | 1 => some (execTlbinvStage2Range w v s)
    | 2 => some (execTlbinvAllCtx w v s)
    | _ => some (execTlbinvAllVf w v s)
  | .ctxvf c => match (s.ctx c).en, go with
    | false, true => some (execCtxvfEnable c v s)
    | true, false => some (execCtxvfRetire c v s)
    | _, _ => none
  | _ => none

/-- A write of the window (R398). In recovery the package takes nothing but a new firmware image (R388): the write is ignored and
logged. -/
def State.windowWrite (s : State) (off size : Nat) (v : Dword) : State :=
  if s.pkg.recovery then s.log .windowAccess off size
  else
    let own : Option Out := if size ≠ 8 ∨ off % 8 ≠ 0 then none else (wregAt off).bind fun r => s.ownWrite r v
    s.after (own.getD (execCtrlWindowRegWrite off size v s))

end Sys2Proof.Machine
end

