-- ==== Sys2Proof/Machine/Dispatch.lean ====
section
/-! DEFINITION. The one place where an instruction meets its meaning. -/

namespace Sys2Proof.Machine

def exec (i : Instr) (s : State) : Host.Outcome State Fault Refusal :=
  match i with
  | .iadd o => Sys2Proof.Machine.execIadd o s
  | .isub o => Sys2Proof.Machine.execIsub o s
  | .iaddc o => Sys2Proof.Machine.execIaddc o s
  | .isubb o => Sys2Proof.Machine.execIsubb o s
  | .iaddImm o => Sys2Proof.Machine.execIaddImm o s
  | .andImm o => Sys2Proof.Machine.execAndImm o s
  | .orImm o => Sys2Proof.Machine.execOrImm o s
  | .xorImm o => Sys2Proof.Machine.execXorImm o s
  | .imul o => Sys2Proof.Machine.execImul o s
  | .imulh o => Sys2Proof.Machine.execImulh o s
  | .imulhU o => Sys2Proof.Machine.execImulhU o s
  | .iadd64 o => Sys2Proof.Machine.execIadd64 o s
  | .imad o => Sys2Proof.Machine.execImad o s
  | .idiv o => Sys2Proof.Machine.execIdiv o s
  | .imin o => Sys2Proof.Machine.execImin o s
  | .imax o => Sys2Proof.Machine.execImax o s
  | .iminU o => Sys2Proof.Machine.execIminU o s
  | .imaxU o => Sys2Proof.Machine.execImaxU o s
  | .and o => Sys2Proof.Machine.execAnd o s
  | .or o => Sys2Proof.Machine.execOr o s
  | .xor o => Sys2Proof.Machine.execXor o s
  | .andn o => Sys2Proof.Machine.execAndn o s
  | .shl o => Sys2Proof.Machine.execShl o s
  | .shr o => Sys2Proof.Machine.execShr o s
  | .sar o => Sys2Proof.Machine.execSar o s
  | .rol o => Sys2Proof.Machine.execRol o s
  | .bfx o => Sys2Proof.Machine.execBfx o s
  | .bfi o => Sys2Proof.Machine.execBfi o s
  | .lea o => Sys2Proof.Machine.execLea o s
  | .popc o => Sys2Proof.Machine.execPopc o s
  | .clz o => Sys2Proof.Machine.execClz o s
  | .ctz o => Sys2Proof.Machine.execCtz o s
  | .brev o => Sys2Proof.Machine.execBrev o s
  | .iabs o => Sys2Proof.Machine.execIabs o s
  | .clmulLo o => Sys2Proof.Machine.execClmulLo o s
  | .clmulHi o => Sys2Proof.Machine.execClmulHi o s
  | .icmp o => Sys2Proof.Machine.execIcmp o s
  | .sel o => Sys2Proof.Machine.execSel o s
  | .fadd o => Sys2Proof.Machine.execFadd o s
  | .fsub o => Sys2Proof.Machine.execFsub o s
  | .fmul o => Sys2Proof.Machine.execFmul o s
  | .ffma o => Sys2Proof.Machine.execFfma o s
  | .faddShort o => Sys2Proof.Machine.execFaddShort o s
  | .fsubShort o => Sys2Proof.Machine.execFsubShort o s
  | .fmulShort o => Sys2Proof.Machine.execFmulShort o s
  | .fmaxShort o => Sys2Proof.Machine.execFmaxShort o s
  | .dadd o => Sys2Proof.Machine.execDadd o s
  | .dmul o => Sys2Proof.Machine.execDmul o s
  | .dfma o => Sys2Proof.Machine.execDfma o s
  | .daddShort o => Sys2Proof.Machine.execDaddShort o s
  | .dmulShort o => Sys2Proof.Machine.execDmulShort o s
  | .fmin o => Sys2Proof.Machine.execFmin o s
  | .fmax o => Sys2Proof.Machine.execFmax o s
  | .dmin o => Sys2Proof.Machine.execDmin o s
  | .dmax o => Sys2Proof.Machine.execDmax o s
  | .fcmp o => Sys2Proof.Machine.execFcmp o s
  | .dcmp o => Sys2Proof.Machine.execDcmp o s
  | .fclass o => Sys2Proof.Machine.execFclass o s
  | .frcp o => Sys2Proof.Machine.execFrcp o s
  | .frsq o => Sys2Proof.Machine.execFrsq o s
  | .fsqrt o => Sys2Proof.Machine.execFsqrt o s
  | .fdiv o => Sys2Proof.Machine.execFdiv o s
  | .fexp2 o => Sys2Proof.Machine.execFexp2 o s
  | .flog2 o => Sys2Proof.Machine.execFlog2 o s
  | .ftanh o => Sys2Proof.Machine.execFtanh o s
  | .fsin o => Sys2Proof.Machine.execFsin o s
  | .fcos o => Sys2Proof.Machine.execFcos o s
  | .ddiv o => Sys2Proof.Machine.execDdiv o s
  | .dsqrt o => Sys2Proof.Machine.execDsqrt o s
  | .frnd o => Sys2Proof.Machine.execFrnd o s
  | .fldexp o => Sys2Proof.Machine.execFldexp o s
  | .hadd2 o => Sys2Proof.Machine.execHadd2 o s
  | .hmul2 o => Sys2Proof.Machine.execHmul2 o s
  | .hfma2 o => Sys2Proof.Machine.execHfma2 o s
  | .hadd2Short o => Sys2Proof.Machine.execHadd2Short o s
  | .hmul2Short o => Sys2Proof.Machine.execHmul2Short o s
  | .cvt o => Sys2Proof.Machine.execCvt o s
  | .pack o => Sys2Proof.Machine.execPack o s
  | .unpk o => Sys2Proof.Machine.execUnpk o s
  | .mov o => Sys2Proof.Machine.execMov o s
  | .movl o => Sys2Proof.Machine.execMovl o s
  | .movi o => Sys2Proof.Machine.execMovi o s
  | .mpop d a => Sys2Proof.Machine.execMpop d a s
  | .mnot d a => Sys2Proof.Machine.execMnot d a s
  | .mand d a b => Sys2Proof.Machine.execMand d a b s
  | .mor d a b => Sys2Proof.Machine.execMor d a b s
  | .mxor d a b => Sys2Proof.Machine.execMxor d a b s
  | .shfl o => Sys2Proof.Machine.execShfl o s
  | .bcst o => Sys2Proof.Machine.execBcst o s
  | .vote o => Sys2Proof.Machine.execVote o s
  | .ballot o => Sys2Proof.Machine.execBallot o s
  | .redux o => Sys2Proof.Machine.execRedux o s
  | .qswp o => Sys2Proof.Machine.execQswp o s
  | .qbcst o => Sys2Proof.Machine.execQbcst o s
  | .qdd o => Sys2Proof.Machine.execQdd o s
  | .bra o => Sys2Proof.Machine.execBra o s
  | .brd o => Sys2Proof.Machine.execBrd o s
  | .join => Sys2Proof.Machine.execJoin s
  | .call off => Sys2Proof.Machine.execCall off s
  | .ret => Sys2Proof.Machine.execRet s
  | .exit m => Sys2Proof.Machine.execExit m s
  | .nop => Sys2Proof.Machine.execNop s
  | .calli o => Sys2Proof.Machine.execCalli o s
  | .jmpi o => Sys2Proof.Machine.execJmpi o s
  | .ld o => Sys2Proof.Machine.execLd o s
  | .pref o => Sys2Proof.Machine.execPref o s
  | .st o => Sys2Proof.Machine.execSt o s
  | .ldl o => Sys2Proof.Machine.execLdl o s
  | .stl o => Sys2Proof.Machine.execStl o s
  | .ldc o => Sys2Proof.Machine.execLdc o s
  | .tex o => Sys2Proof.Machine.execTex o s
  | .cpy o => Sys2Proof.Machine.execCpy o s
  | .cpyq o => Sys2Proof.Machine.execCpyq o s
  | .cinv o => Sys2Proof.Machine.execCinv o s
  | .cflush o => Sys2Proof.Machine.execCflush o s
  | .halloc o => Sys2Proof.Machine.execHalloc o s
  | .hfree o => Sys2Proof.Machine.execHfree o s
  | .sste o => Sys2Proof.Machine.execSste o s
  | .surfaceTableOpApply ctx => Sys2Proof.Machine.execSurfaceTableOpApply ctx s
  | .atom o => Sys2Proof.Machine.execAtom o s
  | .red o => Sys2Proof.Machine.execRed o s
  | .atoml o => Sys2Proof.Machine.execAtoml o s
  | .atomicExecute die => Sys2Proof.Machine.execAtomicExecute die s
  | .promotionRequest core => Sys2Proof.Machine.execPromotionRequest core s
  | .ldfe o => Sys2Proof.Machine.execLdfe o s
  | .ldff o => Sys2Proof.Machine.execLdff o s
  | .stfe o => Sys2Proof.Machine.execStfe o s
  | .stff o => Sys2Proof.Machine.execStff o s
  | .taggedWaitResume store word => Sys2Proof.Machine.execTaggedWaitResume store word s
  | .feset o => Sys2Proof.Machine.execFeset o s
  | .feclr o => Sys2Proof.Machine.execFeclr o s
  | .feqry o => Sys2Proof.Machine.execFeqry o s
  | .waitc o => Sys2Proof.Machine.execWaitc o s
  | .counterWaitResume gid sid => Sys2Proof.Machine.execCounterWaitResume gid sid s
  | .binit o => Sys2Proof.Machine.execBinit o s
  | .barv o => Sys2Proof.Machine.execBarv o s
  | .barvx o => Sys2Proof.Machine.execBarvx o s
  | .bwait o => Sys2Proof.Machine.execBwait o s
  | .btest o => Sys2Proof.Machine.execBtest o s
  | .cbarNear o => Sys2Proof.Machine.execCbarNear o s
  | .cbarFar o => Sys2Proof.Machine.execCbarFar o s
  | .gbar o => Sys2Proof.Machine.execGbar o s
  | .fence o => Sys2Proof.Machine.execFence o s
  | .mma o => Sys2Proof.Machine.execMma o s
  | .teamStep core => Sys2Proof.Machine.execTeamStep core s
  | .mloop o => Sys2Proof.Machine.execMloop o s
  | .mloopStep core quad => Sys2Proof.Machine.execMloopStep core quad s
  | .macq o => Sys2Proof.Machine.execMacq o s
  | .mrel o => Sys2Proof.Machine.execMrel o s
  | .matrixUnitGrant core => Sys2Proof.Machine.execMatrixUnitGrant core s
  | .fbld o => Sys2Proof.Machine.execFbld o s
  | .cbld o => Sys2Proof.Machine.execCbld o s
  | .scpf o => Sys2Proof.Machine.execScpf o s
  | .aclr o => Sys2Proof.Machine.execAclr o s
  | .asatr o => Sys2Proof.Machine.execAsatr o s
  | .amov o => Sys2Proof.Machine.execAmov o s
  | .ald o => Sys2Proof.Machine.execAld o s
  | .ast o => Sys2Proof.Machine.execAst o s
  | .cmma o => Sys2Proof.Machine.execCmma o s
  | .xfwd o => Sys2Proof.Machine.execXfwd o s
  | .xinv o => Sys2Proof.Machine.execXinv o s
  | .xscl o => Sys2Proof.Machine.execXscl o s
  | .xdom o => Sys2Proof.Machine.execXdom o s
  | .grinderComplete op => Sys2Proof.Machine.execGrinderComplete op s
  | .eroute o => Sys2Proof.Machine.execEroute o s
  | .edone o => Sys2Proof.Machine.execEdone o s
  | .emerge o => Sys2Proof.Machine.execEmerge o s
  | .eqry o => Sys2Proof.Machine.execEqry o s
  | .trap o => Sys2Proof.Machine.execTrap o s
  | .brk o => Sys2Proof.Machine.execBrk o s
  | .tret o => Sys2Proof.Machine.execTret o s
  | .lget o => Sys2Proof.Machine.execLget o s
  | .lput o => Sys2Proof.Machine.execLput o s
  | .lmsk o => Sys2Proof.Machine.execLmsk o s
  | .srd o => Sys2Proof.Machine.execSrd o s
  | .swr o => Sys2Proof.Machine.execSwr o s
  | .rgrow o => Sys2Proof.Machine.execRgrow o s
  | .rshrink o => Sys2Proof.Machine.execRshrink o s
  | .registerBlockGrant core => Sys2Proof.Machine.execRegisterBlockGrant core s
  | .registerFifoEviction core => Sys2Proof.Machine.execRegisterFifoEviction core s
  | .launch o => Sys2Proof.Machine.execLaunch o s
  | .draw o => Sys2Proof.Machine.execDraw o s
  | .launchBackpressureWake gid sid => Sys2Proof.Machine.execLaunchBackpressureWake gid sid s
  | .fexport form o => Sys2Proof.Machine.execFexport form o s
  | .npbegin o => Sys2Proof.Machine.execNpbegin o s
  | .npend o => Sys2Proof.Machine.execNpend o s
  | .npRegionBoundExceeded gid => Sys2Proof.Machine.execNpRegionBoundExceeded gid s
  | .yield o => Sys2Proof.Machine.execYield o s
  | .ifence o => Sys2Proof.Machine.execIfence o s
  | .icinv o => Sys2Proof.Machine.execIcinv o s
  | .perfr o => Sys2Proof.Machine.execPerfr o s
  | .halt o => Sys2Proof.Machine.execHalt o s
  | .clauseStart gid sid => Sys2Proof.Machine.execClauseStart gid sid s
  | .arithNotification gid => Sys2Proof.Machine.execArithNotification gid s
  | .pageRequestWrite vf stage => Sys2Proof.Machine.execPageRequestWrite vf stage s
  | .pageRequestReplay gid sid => Sys2Proof.Machine.execPageRequestReplay gid sid s
  | .qreplyRetry vf stage reqid => Sys2Proof.Machine.execQreplyRetry vf stage reqid s
  | .qreplyInvalid vf stage reqid => Sys2Proof.Machine.execQreplyInvalid vf stage reqid s
  | .qbaseWrite vf stage v => Sys2Proof.Machine.execQbaseWrite vf stage v s
  | .qptrConsWrite vf stage v => Sys2Proof.Machine.execQptrConsWrite vf stage v s
  | .gqnoteWrite vf v => Sys2Proof.Machine.execGqnoteWrite vf v s
  | .tlbinvStage1Range win v => Sys2Proof.Machine.execTlbinvStage1Range win v s
  | .tlbinvStage2Range win v => Sys2Proof.Machine.execTlbinvStage2Range win v s
  | .tlbinvAllCtx win v => Sys2Proof.Machine.execTlbinvAllCtx win v s
  | .tlbinvAllVf win v => Sys2Proof.Machine.execTlbinvAllVf win v s
  | .tlbinvComplete win => Sys2Proof.Machine.execTlbinvComplete win s
  | .ctxvfEnable ctx v => Sys2Proof.Machine.execCtxvfEnable ctx v s
  | .ctxvfRetire ctx v => Sys2Proof.Machine.execCtxvfRetire ctx v s
  | .qcfgEnable q v => Sys2Proof.Machine.execQcfgEnable q v s
  | .qcfgDisable q v => Sys2Proof.Machine.execQcfgDisable q v s
  | .queueClauseIssue cp => Sys2Proof.Machine.execQueueClauseIssue cp s
  | .hostMailboxWrite off v => Sys2Proof.Machine.execHostMailboxWrite off v s
  | .hostConsumingRead off => Sys2Proof.Machine.execHostConsumingRead off s
  | .qstatW1c off v => Sys2Proof.Machine.execQstatW1c off v s
  | .hostInvalidAccess off size isWrite => Sys2Proof.Machine.execHostInvalidAccess off size isWrite s
  | .btctlEnable t v => Sys2Proof.Machine.execBtctlEnable t v s
  | .btctlDisable t v => Sys2Proof.Machine.execBtctlDisable t v s
  | .btctlHold t v => Sys2Proof.Machine.execBtctlHold t v s
  | .btcmdForceRetire t e n => Sys2Proof.Machine.execBtcmdForceRetire t e n s
  | .btcmdRefresh t e => Sys2Proof.Machine.execBtcmdRefresh t e s
  | .btexclClear t v => Sys2Proof.Machine.execBtexclClear t v s
  | .windowEnd t => Sys2Proof.Machine.execWindowEnd t s
  | .replicaCopyChunk t copy => Sys2Proof.Machine.execReplicaCopyChunk t copy s
  | .replicaPublish t copy => Sys2Proof.Machine.execReplicaPublish t copy s
  | .replicaCopyFail t copy => Sys2Proof.Machine.execReplicaCopyFail t copy s
  | .replicaRetire t e n => Sys2Proof.Machine.execReplicaRetire t e n s
  | .versionNotice t core => Sys2Proof.Machine.execVersionNotice t core s
  | .mergeComplete t => Sys2Proof.Machine.execMergeComplete t s
  | .wdPlaceBlock => Sys2Proof.Machine.execWdPlaceBlock s
  | .coresGridPlace => Sys2Proof.Machine.execCoresGridPlace s
  | .tamperChunk core => Sys2Proof.Machine.execTamperChunk core s
  | .blockStart blk => Sys2Proof.Machine.execBlockStart blk s
  | .blockKill blk => Sys2Proof.Machine.execBlockKill blk s
  | .groupSlotRelease gid => Sys2Proof.Machine.execGroupSlotRelease gid s
  | .blockRetire blk => Sys2Proof.Machine.execBlockRetire blk s
  | .launchComplete lid => Sys2Proof.Machine.execLaunchComplete lid s
  | .partialEviction core => Sys2Proof.Machine.execPartialEviction core s
  | .evictionDrainBound gid => Sys2Proof.Machine.execEvictionDrainBound gid s
  | .groupRestore blk core => Sys2Proof.Machine.execGroupRestore blk core s
  | .restorationBound core => Sys2Proof.Machine.execRestorationBound core s
  | .contextTeardown ctx => Sys2Proof.Machine.execContextTeardown ctx s
  | .copyChunk core job => Sys2Proof.Machine.execCopyChunk core job s
  | .copyComplete core job => Sys2Proof.Machine.execCopyComplete core job s
  | .carafeSpill die bank => Sys2Proof.Machine.execCarafeSpill die bank s
  | .carafeReturn die bank slot => Sys2Proof.Machine.execCarafeReturn die bank slot s
  | .primitiveAssembly draw => Sys2Proof.Machine.execPrimitiveAssembly draw s
  | .rasterizeTriangle draw stack => Sys2Proof.Machine.execRasterizeTriangle draw stack s
  | .ticketIssue stack => Sys2Proof.Machine.execTicketIssue stack s
  | .fragmentGroupPlace die => Sys2Proof.Machine.execFragmentGroupPlace die s
  | .exportPartDelivery die bank part => Sys2Proof.Machine.execExportPartDelivery die bank part s
  | .bankDepthStage die bank => Sys2Proof.Machine.execBankDepthStage die bank s
  | .bankBlendWrite die bank => Sys2Proof.Machine.execBankBlendWrite die bank s
  | .ticketRetire die bank => Sys2Proof.Machine.execTicketRetire die bank s
  | .followerEntryRetire die bank => Sys2Proof.Machine.execFollowerEntryRetire die bank s
  | .drawComplete draw => Sys2Proof.Machine.execDrawComplete draw s
  | .cfareaWrite die v => Sys2Proof.Machine.execCfareaWrite die v s
  | .dieResetCompute die => Sys2Proof.Machine.execDieResetCompute die s
  | .dieResetFull die => Sys2Proof.Machine.execDieResetFull die s
  | .thrportModeWrite port v => Sys2Proof.Machine.execThrportModeWrite port v s
  | .domcfgWrite v => Sys2Proof.Machine.execDomcfgWrite v s
  | .perfselWrite core v => Sys2Proof.Machine.execPerfselWrite core v s
  | .ctrlWindowRegWrite off size v => Sys2Proof.Machine.execCtrlWindowRegWrite off size v s
  | .thrumriRemoteAccess m => Sys2Proof.Machine.execThrumriRemoteAccess m s
  | .thrumriRouteLost pkg otherPath => Sys2Proof.Machine.execThrumriRouteLost pkg otherPath s
  | .linkRetrain link => Sys2Proof.Machine.execLinkRetrain link s
  | .dieLinkDown link => Sys2Proof.Machine.execDieLinkDown link s
  | .thermalSensorReading die col milli => Sys2Proof.Machine.execThermalSensorReading die col milli s
  | .thermalNoPlausibleTimeout die => Sys2Proof.Machine.execThermalNoPlausibleTimeout die s
  | .dramRefresh die chan => Sys2Proof.Machine.execDramRefresh die chan s
  | .rowActivationRefresh die row => Sys2Proof.Machine.execRowActivationRefresh die row s
  | .cremaPatrolScrub die bank => Sys2Proof.Machine.execCremaPatrolScrub die bank s
  | .coldStart fw fuses => Sys2Proof.Machine.execColdStart fw fuses s
  | .warmStart fw => Sys2Proof.Machine.execWarmStart fw s
  | .attestationRequest nonce => Sys2Proof.Machine.execAttestationRequest nonce s
  | .loadDataReturn gid op => Sys2Proof.Machine.execLoadDataReturn gid op s
  | .storeAcknowledged gid op => Sys2Proof.Machine.execStoreAcknowledged gid op s
  | .cmmaStep core quad => Sys2Proof.Machine.execCmmaStep core quad s
  | .dieLinkRestored link => Sys2Proof.Machine.execDieLinkRestored link s
  | .thrumriPortTrained port peer pport => Sys2Proof.Machine.execThrumriPortTrained port peer pport s
  | .thrumriFlitReplay port => Sys2Proof.Machine.execThrumriFlitReplay port s
  | .linkCalibration port => Sys2Proof.Machine.execLinkCalibration port s
  | .sramVminCalibration core row => Sys2Proof.Machine.execSramVminCalibration core row s
  | .firmwareRecoveryImage img => Sys2Proof.Machine.execFirmwareRecoveryImage img s

end Sys2Proof.Machine
end

