-- ==== Sys2Proof/Machine/Due.lean ====
section
/-! DEFINITION. Events of the hardware that may be due (log 1): the rows that some entity of the state stands for. Which of
them changes the state is for their meanings to say. -/

namespace Sys2Proof.Machine

/-- Events of groups: returns, ends of waits, the release of a slot. -/
def State.groupDue (s : State) : List Instr :=
  s.groups.flatMap fun e =>
    let flights := e.2.flights.filterMap fun f => match f.ctr with
      | .vl => some (.loadDataReturn e.1 f.id)
      | .vs => some (.storeAcknowledged e.1 f.id)
      | _ => none
    let splits : List Instr := e.2.splits.filterMap fun p => match p.2.park with
      | .waitc _ _ => some (.counterWaitResume e.1 p.1)
      | .drain => some (.counterWaitResume e.1 p.1)
      | .page => some (.pageRequestReplay e.1 p.1)
      | .launch => some (.launchBackpressureWake e.1 p.1)
      | _ => none
    flights ++ splits ++ (if e.2.npOver then [.npRegionBoundExceeded e.1] else []) ++
      (if e.2.live = 0 && !e.2.isQueue then [.groupSlotRelease e.1] else [])

/-- Insert by the first component, which numbers what was asked for in order. -/
def byKey (l : List (Nat × Nat × Nat)) (e : Nat × Nat × Nat) : List (Nat × Nat × Nat) :=
  (l.filter fun x => x.1 ≤ e.1) ++ e :: l.filter fun x => e.1 < x.1

/-- Events of translation: requests are written in the order in which their walks stopped (R394). -/
def State.pageDue (s : State) : List Instr :=
  ((s.vfs.flatMap fun e => [1, 2].filterMap fun st =>
    ((s.prq e.1 st).reqs.find? fun r => !r.written).map fun r => (r.key, e.1, st)).foldl byKey []).map (fun r =>
      Instr.pageRequestWrite r.2.1 r.2.2) ++
  (if s.pkg.tlbinv.getLsbD 63 then [.tlbinvComplete 0] else []) ++
  s.vfs.filterMap fun e => if e.2.tlbinv.getLsbD 63 then some (.tlbinvComplete (e.1 + 1)) else none

/-- Waits of tagged words. -/
def State.tagDue (s : State) : List Instr :=
  let of (k : Nat) (ws : List TagWait) : List Instr := (ws.map fun w => w.off / 8).eraseDups.map fun w => .taggedWaitResume k w
  s.queues.flatMap (fun e => of e.1 e.2.waits) ++ s.blocks.flatMap fun e => of e.1 e.2.waits

/-- Events of a die's atomic ports and tile caches. -/
def dieDue (s : State) (die : Nat) (d : Die) : List Instr :=
  let atoms : List Instr := if d.atoms.isEmpty then [] else [.atomicExecute die]
  let promo : List Instr := (d.atoms.filterMap (s.atomWaits d)).filterMap fun k =>
    if k / 320 = s.pkg.pkgid then some (.promotionRequest (k % 320)) else none
  let away : List TileRec := d.tiles.filter fun t => t.away && t.wanted
  atoms ++ promo ++ List.flatMap (fun (t : TileRec) => [Instr.carafeReturn die t.bank t.far, .carafeSpill die t.bank]) away

/-- Events of tables, synchronisation engines, Carafe, Grinder units. -/
def State.unitDue (s : State) : List Instr :=
  let lacks : List (Nat × Nat) := List.filterMap (fun (c : Nat × Context) => s.lackOf c.1) s.ctxs
  let ops : List Instr :=
    List.filterMap (fun (c : Nat × Context) => if c.2.tableOps.isEmpty then none else some (Instr.surfaceTableOpApply c.1)) s.ctxs
  ops ++ List.flatMap (fun (d : Nat × Die) => dieDue s d.1 d.2) s.dies ++
    List.map (fun (b : Nat × Nat) => Instr.carafeSpill b.1 b.2) lacks.eraseDups ++
    List.map (fun (g : Nat × Grind) => Instr.grinderComplete g.1) s.grinds

/-- Events of a core's engines: the copy engine and Tamper take turns (R250). -/
def coreDue (k : Nat) (c : Core) : List Instr :=
  let jobs := c.jobs.drop c.turn ++ c.jobs.take c.turn
  let copies : List Instr := jobs.map fun j => .copyChunk k j.id
  let tamper : List Instr := if c.tamperQ.isEmpty then [] else [.tamperChunk k]
  (jobs.map fun j => .copyComplete k j.id) ++ (if c.tamperTurn then copies ++ tamper else tamper ++ copies) ++
    (if c.teams.isEmpty && c.owner.isNone then [] else [.matrixUnitGrant k]) ++ (if c.teamSteps.isEmpty then [] else [.teamStep k]) ++
    (c.seqs.map fun q => if q.complex then .cmmaStep k q.quad else .mloopStep k q.quad) ++
    (if c.rbFifo.isEmpty then [] else [.registerBlockGrant k])

/-- Events of the banks of a die. -/
def bankDue (die : Nat) (d : Die) : List Instr :=
  (match d.parts with
    | p :: _ => [Instr.exportPartDelivery die p.bank 0]
    | [] => []) ++
    List.flatMap (fun (b : Nat × List BankEntry) =>
      [Instr.bankDepthStage die b.1, .bankBlendWrite die b.1, .ticketRetire die b.1, .followerEntryRetire die b.1]) d.queues

/-- Events of draws and of the banks. -/
def State.drawDue (s : State) : List Instr :=
  let draw (e : Nat × Draw) : List Instr :=
    if e.2.status.isSome then []
    else [.drawComplete e.1, .primitiveAssembly e.1, .rasterizeTriangle e.1 0, .rasterizeTriangle e.1 1]
  List.flatMap (fun (d : Nat × Die) => bankDue d.1 d.2) s.dies ++ List.flatMap draw s.draws ++
    (if s.tickets.isEmpty then [] else [.ticketIssue 0, .ticketIssue 1])

/-- Events of Barista. -/
def tableDue (T : Nat) (t : ExpTable) : List Instr :=
  (t.notices.map fun n => .versionNotice T (n.core % 320)) ++ (if t.en then [.windowEnd T] else []) ++
    (t.copies.flatMap fun c => [.replicaCopyChunk T c.id, .replicaPublish T c.id, .replicaCopyFail T c.id]) ++
    (t.drains.map fun d => .replicaRetire T d.expert d.rep) ++
    (if t.en then [] else t.freeing.map fun p => .replicaRetire T p.1 p.2) ++ (if t.merges.isEmpty then [] else [.mergeComplete T])

/-- Whether a promise of a core is due to one of its evicted contexts (R178). -/
def State.owedTo? (s : State) (blk : Nat) : Bool :=
  match s.block blk with
  | none => false
  | some b => (s.core b.core).restore.any fun r => r.out == b.ctx && s.owes b.core r

/-- The lives of blocks and launches, and placing: returns that are owed come first. -/
def State.lifeDue (s : State) : List Instr :=
  let life (b : Nat × Block) : Instr :=
    if b.2.dying then .blockKill b.1 else if b.2.phase = .tamper then .blockStart b.1 else .blockRetire b.1
  List.map life s.blocks ++ List.map (fun (l : Nat × Launch) => Instr.launchComplete l.1) s.launches ++
    List.map (fun (r : Nat × Nat) => Instr.groupRestore r.1 r.2) (s.returns.filter fun r => s.owedTo? r.1) ++
    (if s.placeOrder.isEmpty then [] else [.wdPlaceBlock]) ++ s.quadSets.map fun q => .fragmentGroupPlace q.die

/-- Dies of which no column has become plausible for 4,096 readings (R387). -/
def State.heatDue (s : State) : List Nat :=
  List.filterMap (fun (d : Nat × Die) => if d.2.noPlausible.any (4096 ≤ ·) then some d.1 else none) s.dies

/-- Events that may be due: teardowns first. -/
def State.dueList (s : State) : List Instr :=
  List.filterMap (fun (c : Nat × Context) => if c.2.fatal.isSome then some (Instr.contextTeardown c.1) else none) s.ctxs ++
    s.groupDue ++ s.pageDue ++ s.tagDue ++ s.unitDue ++ List.flatMap (fun (c : Nat × Core) => coreDue c.1 c.2) s.cores ++
    List.flatMap (fun (t : Nat × ExpTable) => tableDue t.1 t.2) s.tables ++ s.drawDue ++ s.lifeDue

/-- A die reset that has started goes on (R384): which die, and whether it is a full one. -/
def State.resetDue (s : State) : List (Nat × Bool) :=
  List.filterMap (fun (d : Nat × Die) =>
    if d.2.dierst.getLsbD 63 then some (d.1, d.2.dierst.getLsbD 62) else none) s.dies

/-- Events of eviction and restoration, with the core whose clock they follow, so that work between them goes on. -/
def State.lateList (s : State) : List (Nat × Instr) :=
  let draining : List (Nat × Nat) := List.filterMap (fun (e : Nat × Group) => match e.2.res with
    | .draining _ => some (e.1, e.2.core)
    | _ => none) s.groups
  let core (c : Nat × Core) : List (Nat × Instr) :=
    (if c.2.rbFifo.isEmpty then [] else [(c.1, .registerFifoEviction c.1)]) ++
      (if c.2.restore.isEmpty then [] else [(c.1, .restorationBound c.1)])
  let stranded : List (Nat × Instr) := List.filterMap (fun (c : Nat × Core) => (s.stranded c.1).map fun _ => (c.1, Instr.partialEviction c.1)) s.cores
  draining.map (fun e => (e.2, Instr.partialEviction e.2)) ++ stranded ++ draining.map (fun e => (e.2, Instr.evictionDrainBound e.1)) ++
    s.returns.map (fun r => (r.2, Instr.groupRestore r.1 r.2)) ++
    (match s.placeOrder with
      | (_, l) :: _ => if l.wantsAll then [(0, Instr.coresGridPlace)] else []
      | [] => []) ++
    List.flatMap core s.cores ++
    (match s.evictionPlan with
      | some (_, g :: _) => match s.coreOf g with
        | some c => [(c, Instr.partialEviction c)]
        | none => []
      | _ => [])

end Sys2Proof.Machine
end

