-- ==== Sys2Proof/Machine/Plan.lean ====
section
/-! DEFINITION. What happens next (log 1): the head of the agenda; without one, a pending event of the hardware, else the
split that R170 chooses. -/

namespace Sys2Proof.Machine

/-- The first cycle of its unit in which a group can issue: of its quadrant, or of its command processor (R161). -/
def State.slotTime (s : State) (gid : Nat) (g : Group) : Nat :=
  if g.isQueue then (s.cp (gid / 16)).cycle
  else
    let c := s.core g.core
    max c.cycle (KV.get 0 c.busy g.quad)

/-- Whether a split is a member of the packed set that its quadrant is issuing (R163). -/
def State.packMember (s : State) (gid sid : Nat) (g : Group) : Bool :=
  !g.isQueue && match (s.core g.core).packs.find g.quad with
  | some p => p.cycle == (s.core g.core).cycle && p.members.contains (gid, sid)
  | none => false

/-- A split whose next instruction could issue (R169): its words. -/
def State.readyWords (s : State) (x : Ex) : Option (List Word) :=
  match x.sp.clause with
  | none => none
  | some c =>
    if !s.mayIssue x.gid x.g x.sp || x.sp.due == some 0 || (x.g.notif.isSome && x.g.handler.isNone) then none
    else
      match decode c.next with
      | .ok (i, _) => if s.heldAt x.gid x.g x.sid x.sp i then none else some c.next
      | .error _ => none

/-- Whether a split could issue the instruction at an address next: it stands there, or is about to start the clause that it heads
(R163, R169). -/
def State.readyAt (s : State) (gid sid pc : Nat) : Bool :=
  match s.exOf gid sid with
  | none => false
  | some x =>
    if x.sp.clause.isSome then x.sp.pc == pc && (s.readyWords x).isSome
    else if x.sp.pc + 4 ≠ pc && x.sp.resumeAt.isNone then false
    else match execClauseStart gid sid s with
      | .next u => match u.exOf gid sid with
        | some y => y.sp.clause.isSome && y.sp.pc == pc && (u.readyWords y).isSome
        | none => false
      | _ => false

/-- The members of a packed set that have still to issue in the current cycle of a core (R163). -/
def State.packOpen (s : State) (core : Nat) : List (Nat × Nat) :=
  (s.core core).packs.flatMap fun p =>
    if p.2.cycle ≠ (s.core core).cycle then []
    else p.2.members.filter fun m => s.readyAt m.1 m.2 p.2.pc

/-- The groups that a leader is packed with (R163): of its launch, quadrant and width, ready at its PC, by group number
(log 83). -/
def State.packWith (s : State) (x : Ex) (ws : List Word) : List (Nat × Nat) :=
  if !packable ws || (x.g.width ≠ 8 && x.g.width ≠ 16) then []
  else
    let launch (g : Group) : Option Nat := (s.block g.blk).map (·.launch)
    let one (e : Nat × Group) : Option (Nat × Nat × Nat) :=
      if e.1 = x.gid || !e.2.on x.g.core || e.2.quad ≠ x.g.quad || e.2.width ≠ x.g.width || launch e.2 ≠ launch x.g then none
      else
        (e.2.splits.find? fun p => s.readyAt e.1 p.1 x.sp.pc).map fun p => (e.2.num, e.1, p.1)
    let put (l : List (Nat × Nat × Nat)) (m : Nat × Nat × Nat) : List (Nat × Nat × Nat) :=
      (l.filter fun k => k.1 ≤ m.1) ++ m :: l.filter fun k => m.1 < k.1
    (((s.groups.filterMap one).foldl put []).take (32 / x.g.width - 1)).map (·.2)

/-- The state in which a split's next instruction is executed: it has issued, in the next cycle of its quadrant, or in the
current one as a member of a packed set (R161–R163, R170, R373). -/
def State.issueOf (s : State) (x : Ex) (ws : List Word) : State :=
  let n := passes ws x.lanes x.g.width
  let q := x.g.quad
  let s :=
    if x.g.isQueue then s.cpTick (x.gid / 16) n
    else
      let member := s.packMember x.gid x.sid x.g
      let t := s.slotTime x.gid x.g
      let s := if member then s else s.tick x.g.core (t - (s.core x.g.core).cycle)
      let pack : Pack :=
        if member then
          let p := KV.get ⟨0, 0, []⟩ (s.core x.g.core).packs q
          { p with members := p.members.filter fun m => m != (x.gid, x.sid) }
        else ⟨t, x.sp.pc, s.packWith x ws⟩
      let s := s.modCore x.g.core fun c =>
        { c with
          busy := if member then c.busy else c.busy.insert q (t + n)
          packs := if pack.members = [] then c.packs.erase q else c.packs.insert q pack
          restore := c.restore.map fun r => if r.inc = x.g.ctx then { r with count := r.count + n } else r }
      let s := s.count x.g.core 1
      if classOf (wMaj (ws.headD 0)) == .valu then s.count x.g.core 2 else s
  let now := if x.g.isQueue then (s.cp (x.gid / 16)).cycle else (s.core x.g.core).cycle
  { s.issued x.gid x.sid n now with issuer := some (x.gid, x.sid) }

/-- A clause's next instruction: illegal words, a class that is not the clause's (R145, R153), a held one, beside which a cycle
passes, or one that issues. -/
def State.issueNext (s : State) (x : Ex) (c : Clause) : Option Instr × State :=
  match decode c.next with
  | .error _ => (none, s.trap x 0x01 x.lanes 0)
  | .ok (i, _) =>
    if c.cls ≠ 7 && c.cls ≠ (classOf (wMaj (c.next.headD 0))).code then (none, s.trap x 0x01 x.lanes 0)
    else if s.heldAt x.gid x.g x.sid x.sp i then (none, if x.g.isQueue then s else s.tick x.g.core 1)
    else if s.flushFirst x i then (none, { ({ s with issuer := some (x.gid, x.sid) }).release x.g.core 4 with issuer := s.issuer })
    else (some i, s.issueOf x c.next)

/-- Whether a packed set of a core waits for members other than a split: they come first (R163). -/
def State.packFirst (s : State) (gid sid : Nat) (g : Group) : Bool :=
  let o := s.packOpen g.core
  !g.isQueue && o != [] && !o.contains (gid, sid)

/-- What the issue of a split is: the end of an instruction that is due for no lane, a pending notification, a clause start, its
next instruction. -/
def State.issueSplit (s : State) (gid sid : Nat) : Option Instr × State :=
  match s.exOf gid sid with
  | none => (none, s)
  | some x =>
    if x.g.isQueue && (x.sp.clause.isNone || (s.cp (gid / 16)).current != some gid) then
      (some (.queueClauseIssue (gid / 16)), { s with issuer := none })
    else if !s.mayIssue gid x.g x.sp || s.packFirst gid sid x.g then (none, s)
    else
      match x.sp.clause with
      | none => (some (.clauseStart gid sid), { s with issuer := none })
      | some c =>
        if x.sp.due = some 0 then (none, s.finish x)
        else if x.g.notif.isSome && x.g.handler.isNone && !x.g.isQueue && !x.sp.begun then
          (some (.arithNotification gid), { s with issuer := some (gid, sid) })
        else s.issueNext x c

/-- The fuse registers of a die, as the management controller gives them to the host: HASHSEL, SLICEMAP, CORE_EN (R23). -/
def Die.fuseBytes (d : Die) : List Byte :=
  natToBytes 8 d.hashsel.toNat ++ natToBytes 8 d.slicemap.toNat ++ natToBytes 8 d.coreEn.toNat

/-- An L1 block with an uncorrectable error in the byte of an address, if it covers it (R225). -/
def L1Block.spoilt (b : L1Block) (a : Nat) : L1Block :=
  if b.covers a then { b with bad := b.bad ||| BitVec.ofNat 32 (2 ^ sectorByte a) } else b

/-- Whether a happening is asked for by the host, another package or privileged software: a package in recovery refuses it
(R388). -/
def askedRow (i : Instr) : Bool :=
  match i with
  | .qreplyRetry .. => true
  | .qreplyInvalid .. => true
  | .qbaseWrite .. => true
  | .qptrConsWrite .. => true
  | .gqnoteWrite .. => true
  | .tlbinvStage1Range .. => true
  | .tlbinvStage2Range .. => true
  | .tlbinvAllCtx .. => true
  | .tlbinvAllVf .. => true
  | .ctxvfEnable .. => true
  | .ctxvfRetire .. => true
  | .qcfgEnable .. => true
  | .qcfgDisable .. => true
  | .hostMailboxWrite .. => true
  | .hostConsumingRead .. => true
  | .qstatW1c .. => true
  | .hostInvalidAccess .. => true
  | .btctlEnable .. => true
  | .btctlDisable .. => true
  | .btctlHold .. => true
  | .btcmdForceRetire .. => true
  | .btcmdRefresh .. => true
  | .btexclClear .. => true
  | .cfareaWrite .. => true
  | .dieResetCompute .. => true
  | .dieResetFull .. => true
  | .thrportModeWrite .. => true
  | .domcfgWrite .. => true
  | .perfselWrite .. => true
  | .ctrlWindowRegWrite .. => true
  | .thrumriRemoteAccess .. => true
  | .attestationRequest .. => true
  | _ => false

/-- Perform the head of the agenda. -/
def State.perform (s : State) (h : Happening) : Option Instr × State :=
  match h with
  | .row i =>
    if !i.isHappening then (none, s)
    else if s.pkg.recovery && askedRow i then (none, s.log .firmware 1 0)
    else (some i, { s with issuer := none })
  | .issue gid sid => s.issueSplit gid sid
  | .idle core n => (none, if s.packOpen core = [] then s.tick core n else s)
  | .l1Evict core => (none, s.l1Leave core ((s.core core).l1.take 1))
  | .l2Evict line => (none, s.l2Evict line)
  | .tlbFill core ctx va => (none, s.tlbFill core ctx va)
  | .tlbDrop core =>
    (none, (s.modCore core fun c => { c with tlb := [] }).modDie (dieOf core) fun d => { d with tlb := [], walks := [] })
  | .icacheDrop core => (none, s.modCore core fun c => { c with icache := [] })
  | .walkFill core ctx va => (none, s.walkFill core ctx va)
  | .poison a => (none, (s.spoil [a]).log .uncorrectable a 0)
  | .cremaPoison die key => (none, (s.modDie die fun d => d.cremaSpoil key).log .uncorrectable die key)
  | .l1Poison core a => (none, (s.modCore core fun c => { c with l1 := c.l1.map fun b => b.spoilt a }).log .uncorrectable a core)
  | .tagError line tag => (none, ({ s with tags := KV.put 1 s.tags line tag }).log .uncorrectable (128 * line) 0)
  | .corrected a => (none, s.log .corrected a 0)
  | .reported a => (none, s.errorReported a)
  | .domain ps => (none, s.modPkg fun p => { p with domain := ps })
  | .migrate core => (none, s.migrate core)
  | .clockUp die => (none, s.raiseClock die)
  | .fuses die dest => (none, s.answerTo dest (s.die die).fuseBytes)
  | .winWrite off size v => (none, s.windowWrite off size v)
  | .hostWrite a bs => (none, if s.pkg.recovery then s.log .firmware 1 0 else s.homeWrite (s.canon a) (bs.map some) false)

/-- Whether a row changes the state. -/
def State.changes (s : State) (i : Instr) : Bool :=
  match exec i { s with issuer := none } with
  | .next t => decide (t ≠ { s with issuer := none })
  | _ => false

/-- Whether the issue of a split changes more than the cycle counts. -/
def State.progresses (s : State) (gid sid : Nat) : Bool :=
  match s.issueSplit gid sid with
  | (some i, t) => match exec i t with
    | .next u => decide (u ≠ t)
    | _ => true
  | (none, t) => match s.exOf gid sid, t.exOf gid sid with
    | some x, some y => decide (x.sp ≠ y.sp)
    | _, _ => decide (t ≠ s)

/-- Age of a group at a cycle: since it last issued or last became ready (R170). -/
def Group.age (g : Group) (now : Nat) : Nat := now - max g.lastIssue g.readySince

/-- Of two ready splits of a quadrant with urgent groups, whether the first goes first (steps 2 and 4 of R170). -/
def urgentFirst (now : Nat) (a b : Ex) : Bool :=
  if a.g.age now ≠ b.g.age now then b.g.age now < a.g.age now
  else if a.g.slot ≠ b.g.slot then a.g.slot < b.g.slot
  else a.sp.lastIssue < b.sp.lastIssue

/-- Of two ready splits of a quadrant without one, whether the first goes first (steps 3 and 4 of R170). Of two groups whose last
issue is equally old, the one in the lower slot (log 88). -/
def orderFirst (a b : Ex) : Bool :=
  if a.g.prio ≠ b.g.prio then b.g.prio < a.g.prio
  else if a.g.lastIssue ≠ b.g.lastIssue then a.g.lastIssue < b.g.lastIssue
  else if a.g.slot ≠ b.g.slot then a.g.slot < b.g.slot
  else a.sp.lastIssue < b.sp.lastIssue

/-- The first of some splits in an order. -/
def firstBy (p : Ex → Ex → Bool) : List Ex → Option Ex
  | [] => none
  | x :: t => match firstBy p t with
    | none => some x
    | some y => if p y x then some y else some x

/-- A group that has yielded waits until every other ready group of equal or higher priority has issued since (R370). -/
def yieldsTo (xs : List Ex) (x : Ex) : Bool :=
  x.g.yielded && xs.any fun y => y.gid != x.gid && x.g.prio ≤ y.g.prio && y.g.lastIssue ≤ x.g.lastIssue

/-- The split of a quadrant that issues at a cycle, among its ready ones (R170, R370). -/
def pickOf (now : Nat) (xs : List Ex) : Option Ex :=
  let urgent := xs.filter fun x => 32 ≤ x.g.age now
  if !urgent.isEmpty then firstBy (urgentFirst now) urgent else firstBy orderFirst (xs.filter fun x => !yieldsTo xs x)

/-- The issue slot that runs a group: a command processor, or a quadrant of a core. -/
def slotOf (x : Ex) : Nat × Nat := if x.g.isQueue then (320 + x.gid / 16, 0) else (x.g.core, x.g.quad)

/-- The splits that are ready and get further. -/
def State.readySplits (s : State) : List Ex :=
  let xs : List (Nat × Nat) := s.groups.flatMap fun e => List.map (fun (p : Nat × Split) => (e.1, p.1)) e.2.splits
  (xs.filterMap fun p => s.exOf p.1 p.2).filter fun x => x.sp.park == .no && s.progresses x.gid x.sid

/-- The split that issues next: of each quadrant the one that R170 chooses, of the quadrants the one that can issue first; the
members of a packed set follow their leader. -/
def State.pick (s : State) : Option (Nat × Nat) :=
  let xs := s.readySplits
  match s.cores.flatMap (fun c => s.packOpen c.1) with
  | m :: _ => some m
  | [] =>
    let slots := (xs.map slotOf).eraseDups
    let best := slots.filterMap fun k =>
      let mine := xs.filter fun x => slotOf x == k
      match mine with
      | [] => none
      | x :: _ => (pickOf (s.slotTime x.gid x.g) mine).map fun y => (s.slotTime x.gid x.g, y)
    ((best.foldl (fun b e => match b with
      | none => some e
      | some d => if e.1 < d.1 then some e else some d) (none : Option (Nat × Ex))).map fun e => (e.2.gid, e.2.sid))

/-- A cycle passes on every core with a resident group, and on the command processors, where nothing else happens (R161). -/
def State.pause (s : State) : State :=
  let cores := ((s.groups.filter fun e => e.2.on e.2.core).map fun e => e.2.core).eraseDups
  let s := cores.foldl (fun s c => s.tick c 1) s
  (List.map (fun (e : Nat × CmdProc) => e.1) s.cps).foldl (fun s c => s.cpTick c 1) s

/-- A die reset that has started goes on (R384): the state after the first that gets further. -/
def State.resetStep (s : State) : List (Nat × Bool) → Option State
  | [] => none
  | (die, full) :: t =>
    match (if full then execDieResetFull die s else execDieResetCompute die s) with
    | .next u => if u = s then s.resetStep t else some u
    | _ => s.resetStep t

/-- What the dies do for themselves: a sensor failure stops the package (R387), a reset goes on (R384). -/
def State.dieStep (s : State) : Option State :=
  match s.heatDue with
  | die :: _ => match execThermalNoPlausibleTimeout die s with
    | .next u => if u = s then s.resetStep s.resetDue else some u
    | _ => s.resetStep s.resetDue
  | [] => s.resetStep s.resetDue

/-- What goes on by itself, beside the rows: another package answers (log 15), a die stops or is reset. -/
def State.selfStep (s : State) : Option State :=
  match s.pkg.awaited with
  | a :: _ => some (s.answered (a.msg.addr / 2 ^ 42))
  | [] => s.dieStep

/-- Whether an event of eviction or restoration comes before the split picked: its core's clock is not ahead. -/
def State.early (s : State) (p : Option (Nat × Nat)) (e : Nat × Instr) : Bool :=
  (match p with
    | none => true
    | some (gid, _) => match s.group gid with
      | some g => (s.core e.1).cycle ≤ s.slotTime gid g
      | none => true) && s.changes e.2

/-- What happens without an agenda: an event that is due; else a die stops or a reset of it goes on; else an event of eviction or restoration
whose time has come; else the split that R170 chooses issues. -/
def State.auto (s : State) : Option Instr × State :=
  match s.dueList.find? s.changes with
  | some i => (some i, { s with issuer := none })
  | none =>
    match s.selfStep with
    | some u => (none, u)
    | none =>
      let p := s.pick
      match s.lateList.find? (s.early p) with
      | some e => (some e.2, { s with issuer := none })
      | none =>
        match p with
        | some (gid, sid) => s.issueSplit gid sid
        | none => (none, s.pause)

/-- What happens next, and the state in which it does. -/
def State.plan (s : State) : Option Instr × State :=
  match s.agenda with
  | h :: t => { s with agenda := t }.perform h
  | [] => s.auto

/-! ### Placing one instruction -/

/-- The words of an instruction numbered as the opcode table numbers them (R134), as many as R136 gives it. -/
def tableWords (nbits w : Nat) : List Word :=
  let v := w % 2 ^ nbits
  let ws : List Word := [BitVec.ofNat 32 v, BitVec.ofNat 32 (v / 2 ^ 32), BitVec.ofNat 32 (v / 2 ^ 64)]
  ws.take (rawLen ws)

/-- The launch record of the group that `withProgram` places. -/
def programLrec : LRec :=
  { entry := 0x1000, width := 32, straddle := false, clsize := 1, bdx := 32, bdy := 1, bdz := 1, gdx := 1, gdy := 1, gdz := 1,
    prio := 0, pb0 := 32, pb1 := 64, pb2 := 96, lsbytes := 65536, rbinit := 24, rbmax := 24, nbind := 0, cores := false,
    relaunch := false, nantrap := false, drain := false, ctx := 1, taskptr := 0, argptr := 0, binds := [] }

/-- A state in which a group of 32 lanes, of a block of its own on core 0, is in the middle of a clause of the words given,
and issues next: what the launch of such a program brings about (log 2). -/
def State.withProgram (s : State) (ws : List Word) : State :=
  let sp : Split := { pc := 0x1084, mask := widthMask 32, jrec := none, clause := some ⟨0x1080, ws, 0, false, 7, false⟩ }
  let g : Group :=
    { kind := .kernel, ctx := 1, blk := 129, num := 0, width := 32, rblk := 24, splits := [(0, sp)], live := widthMask 32 }
  let b : Block :=
    { launch := 130, ctx := 1, lin := 0, core := 0, phase := .running, cluster := 131, groups := [128], lsBase := 32 * 8192,
      lsRun := 65536, lsBytes := 65536, taskState := 2 }
  { s with
    groups := s.groups.insert 128 g
    blocks := s.blocks.insert 129 b
    launches := s.launches.insert 130 { lrec := programLrec, lrptr := 0, issuer := .queue 0, target := .word 0 0, total := 1,
                                        next := 1, rbeff := 24, pb0 := 32, pb1 := 64, pb2 := 96 }
    clusters := s.clusters.insert 131 { launch := 130, blocks := [129], die0 := 0 }
    ctxs := s.ctxs.insert 1 { s.ctx 1 with en := true }
    cores := s.cores.insert 0 { s.core 0 with poolb0 := 32, poolb1 := 64, poolb2 := 96 }
    nextId := max s.nextId 132
    agenda := [.issue 128 0] }

end Sys2Proof.Machine
end

