-- ==== Sys2Proof/Machine/Step.lean ====
section
/-! DEFINITION. One step of the machine, and the placing of one instruction where it fetches next. -/

namespace Sys2Proof.Machine

/-- One step: what the plan names happens; a passing of time or a refusal of the sequencer needs no row of its own. -/
def step (s : State) : Host.Outcome State Fault Refusal :=
  match s.plan with
  | (some i, t) => exec i t
  | (none, t) => .next t

/-- The state with one instruction, numbered as the opcode table numbers it, placed where the next step issues (log 2). -/
def State.withFetchWord (s : State) (nbits w : Nat) : State := s.withProgram (tableWords nbits w)

end Sys2Proof.Machine
end

