-- ==== Sys2Proof/Safety.lean ====
section
/-! DEFINITION. What counts as a safe run, and the words in which claims speak of one instruction: what an instruction of the
ALU leaves, what taking a trap leaves. -/

namespace Sys2Proof.Machine

/-- A state from which every one of the next `n` steps answers a next state. -/
def SafeFor : Nat → State → Prop
  | 0, _ => True
  | n + 1, s => ∃ t, step s = .next t ∧ SafeFor n t

/-- The result of an ALU instruction in a lane, from the values its sources hold in the state in which it issues (R7, R179). -/
def Alu.at (a : Alu) (s : State) (x : Ex) (l : Nat) : LaneRes := a.fn l (a.srcs.map fun p => s.readSrc x a.lit p.1 p.2 l)

/-- A group with other register files: its v, s and m registers. -/
def Group.withRegs (g : Group) (v sr : KV Word) (m : KV Lanes) : Group := { g with v := v, sr := sr, m := m }

/-- Two states that differ at most in one group: the rest of the machine, memory among it, and every other group are alike. -/
def OnlyGroup (s t : State) (gid : Nat) : Prop :=
  t = { s with groups := t.groups } ∧ ∀ n, n ≠ gid → t.group n = s.group n

/-- What an instruction leaves that writes a destination in lanes `ls` with the results `r` (R142, R179): the destination's
registers hold the results, in every one of these lanes and in no other; m13 holds the carries, if there are any (R181); the
flags of the lanes are ORed into FPSTAT (R45); the split goes on behind the instruction; and nothing else of its group, or of
the machine, differs. -/
def Leaves (s t : State) (x : Ex) (wide : Bool) (dst : BitVec 8) (ls : List Nat) (r : Nat → LaneRes) : Prop :=
  OnlyGroup s t x.gid ∧
  ∃ g : Group,
    t = ((s.setGroup x.gid g).addFlags x.gid x.sp.pc (flagsOf (ls.map fun l => (l, r l)))).finish x ∧
    g = x.g.withRegs g.v g.sr g.m ∧
    (∀ n l, n < 192 → l < 64 →
      g.readV n l =
        if isVec dst = true ∧ l ∈ ls ∧ n = dst.toNat then (r l).val.setWidth 32
        else if isVec dst = true ∧ wide = true ∧ l ∈ ls ∧ n = dst.toNat + 1 then (r l).val.extractLsb' 32 32
        else x.g.readV n l) ∧
    (∀ n,
      g.readS n =
        if isScalar dst = true ∧ n + 0xC0 = dst.toNat then (r 0).val.setWidth 32
        else if isScalar dst = true ∧ wide = true ∧ n + 0xC0 = dst.toNat + 1 then (r 0).val.extractLsb' 32 32
        else x.g.readS n) ∧
    (∀ n, n ≠ 13 → g.readM n = x.g.readM n) ∧
    ((∀ l, (r l).carry = none) → g.m = x.g.m) ∧
    (∀ l b, l ∈ ls → l < x.g.width → (r l).carry = some b → (g.readM 13).getLsbD l = b) ∧
    (∀ l, l ∉ ls → l < x.g.width → (g.readM 13).getLsbD l = (x.g.readM 13).getLsbD l)

/-- What an ALU instruction leaves: its destination written in every lane it executes for. -/
def Computes (s t : State) (x : Ex) (a : Alu) : Prop := Leaves s t x a.wide a.dst (a.lanes x) (a.at s x)

/-- An instruction of the split `x` that acts as the ALU instruction `a`: where its operands are admitted it completes with
`a`'s results; where they are refused it takes the precise illegal-instruction trap, whole, for the lanes of its path (R143,
R334). -/
def RunsAs (i : Instr) (s : State) (x : Ex) (a : Alu) : Prop :=
  (a.refused x.g = false → ∃ t, exec i s = .next t ∧ Computes s t x a) ∧
  (a.refused x.g = true → exec i s = .next (if a.scalarPath then s.illegalScalar x else s.illegal x))

/-- An ALU instruction on the words of A and B. -/
def Alu.words2 (o : AOps) (f : Word → Word → Word) : Alu :=
  { dst := o.d, srcs := [(.w32, o.a), (.w32, o.b)], lit := o.lit, fn := fun _ v => res (f (wordAt v 0) (wordAt v 1)) }

/-- An ALU instruction on the word of A. -/
def Alu.words1 (o : UOps) (f : Word → Word) : Alu :=
  { dst := o.d, srcs := [(.w32, o.a)], lit := o.lit, fn := fun _ v => res (f (wordAt v 0)) }

/-- An ALU instruction on the word of A and the immediate SEXT(IMM10, 10). -/
def Alu.imm (o : IOps) (f : Word → Word → Word) : Alu :=
  { dst := o.d, srcs := [(.w32, o.a)], lit := o.lit, fn := fun _ v => res (f (wordAt v 0) (o.imm.signExtend 32)) }

/-- An ALU instruction of format E with destination D, the sources given and a result for the lane. -/
def Alu.ext (o : EOps) (wide : Bool) (srcs : List (Kind × BitVec 8)) (f : Nat → List Dword → LaneRes) : Alu :=
  { dst := o.d, wide := wide, srcs := srcs, lit := o.lit, fn := f }

/-- An FP32 instruction of format E on its first `n` sources, each under its modifiers: one result, rounded once, saturated on
demand (R138, R188). -/
def Alu.fp32 (n : Nat) (o : EOps) (f : FV → FV → FV → Rnd) : Alu :=
  .ext o false ([(.w32, o.a), (.w32, o.b), (.w32, o.c)].take n) fun _ v =>
    FF.fp32.fin (modSat o) (f (srcA o (FF.fp32.arg v 0)) (srcB o (FF.fp32.arg v 1)) (srcC o (FF.fp32.arg v 2)))

/-- The same on FP64 pairs. -/
def Alu.fp64 (n : Nat) (o : EOps) (f : FV → FV → FV → Rnd) : Alu :=
  .ext o true ([(.f64, o.a), (.f64, o.b), (.f64, o.c)].take n) fun _ v =>
    FF.fp64.fin (modSat o) (f (srcA o (FF.fp64.arg v 0)) (srcB o (FF.fp64.arg v 1)) (srcC o (FF.fp64.arg v 2)))

/-- A short form on A and B in a format: no modifiers, no saturation (R188). -/
def Alu.short (k : Kind) (wide : Bool) (ff : FF) (o : AOps) (f : FV → FV → Rnd) : Alu :=
  { dst := o.d, wide := wide, srcs := [(k, o.a), (k, o.b)], lit := o.lit,
    fn := fun _ v => ff.fin false (f (ff.arg v 0) (ff.arg v 1)) }

/-- A packed 16-bit instruction on its first `n` sources: each half a lane of its own, the flags ORed (R192). -/
def Alu.packed (n : Nat) (o : EOps) (f : FF → FV → FV → FV → Rnd) : Alu :=
  .ext o false ([(.w32, o.a), (.w32, o.b), (.w32, o.c)].take n) fun _ v =>
    let ff : FF := if o.minor.getLsbD 0 then .bf16 else .fp16
    let half (h : Nat) : LaneRes := ff.fin (modSat o)
      (f ff (srcA o (halfOf ff (wordAt v 0) h)) (srcB o (halfOf ff (wordAt v 1) h)) (srcC o (halfOf ff (wordAt v 2) h)))
    { val := ((half 1).val.setWidth 16 ++ (half 0).val.setWidth 16 : Word).setWidth 64,
      flags := (half 0).flags ||| (half 1).flags }

/-- A compare into mask register D of an instruction with sources `srcs` (R187, R189): admitted operands write the condition
to the bit of each active lane, keep the others, and change nothing else of the group; the rest trap. -/
def Compares (i : Instr) (s : State) (x : Ex) (o : EOps) (k : Kind) (cond : List Dword → Bool) : Prop :=
  let bad := x.g.isQueue = true ∨ o.d.toNat = 0 ∨ 13 < o.d.toNat ∨ badSrc x.g k o.a = true ∨ badSrc x.g k o.b = true
  (bad → exec i s = .next (s.illegal x)) ∧
  (¬ bad → ∃ t g, exec i s = .next t ∧ OnlyGroup s t x.gid ∧ t = (s.setGroup x.gid g).finish x ∧
    g = x.g.withRegs x.g.v x.g.sr g.m ∧ (∀ n, n ≠ o.d.toNat → g.readM n = x.g.readM n) ∧
    ∀ l, l < x.g.width → l < 64 →
      (g.readM o.d.toNat).getLsbD l =
        if l ∈ x.list then cond [s.readSrc x o.lit k o.a l, s.readSrc x o.lit k o.b l]
        else (x.g.readM o.d.toNat).getLsbD l)

/-- The refusal of a cross-lane form's operands (R141–R143, R199). -/
def crossRefused (x : Ex) (d : BitVec 8) (wide : Bool) (a : BitVec 8) : Bool :=
  badDst x.g wide d || badSrc x.g .w32 a || (x.g.isQueue && isVec d)

/-- The lanes that a cross-lane instruction with one result writes: every active one, or the scalar destination once. -/
def crossLanes (x : Ex) (d : BitVec 8) : List Nat := if isVec d then x.list else [0]

/-- The words of a source in the active lanes, ascending (R199). -/
def State.activeWords (s : State) (x : Ex) (lit : Word) (c : BitVec 8) : List Word := x.list.map (s.wordIn x lit c)

/-- An instruction that makes the lane accesses `as` under counter `c` (R241, R320): a locked range traps before any lane, once
no other split runs the handler; a fatal cause is recorded; where no lane is missed, refused or kept back by an atomic of its group, every lane is performed by `f`
in ascending order, the operation's registers stay owed, and the split goes on; missed lanes park the split with exactly the
lanes not performed still due. `share` are the lanes that one access concerns where the instruction makes a single one (R243). -/
def Accesses (i : Instr) (s : State) (x : Ex) (c : Ctr) (w : Want) (as : List (Nat × List (Nat × Nat)))
    (f : State → Nat → Nat → List Piece → Done) (share : List Nat := []) : Prop :=
  let hits := forLanes share (fun e l => (l, e.2)) (as.filterMap fun e =>
    (e.2.find? fun a => s.globalLocked x.g a.1 a.2 (w != .read)).map fun a => (e.1, a.1))
  let k := s.sortLanes x w as
  let m := maskOf (hits.map (·.1))
  let o := s.openFlight x c
  let r := performLanes (fun u l ps => f u o.1 l ps) o.2 k.good
  let misses := forLanes share (fun n l => { n with lane := l }) k.misses
  let packed := forLanes share (fun e l => (l, e.2)) k.packed
  let due := maskOf (misses.map (·.lane)) ||| maskOf (packed.map (·.1))
  let free := hits = [] ∧ k.fatal = none ∧ (w != .atomic && s.atomPending x.gid (k.good.flatMap (·.2))) = false
  (hits ≠ [] → x.g.otherHandler x.sid = true → exec i s = .next s) ∧
  (hits ≠ [] → x.g.otherHandler x.sid = false → x.sp.openOp = none →
    exec i s = .next ((s.count x.g.core 7).trap x 0x04 m
      ((hits.filterMap fun e => if e.1 = lowLane m then some e.2 else none).headD 0))) ∧
  (hits = [] → ∀ cause va, k.fatal = some (cause, va) → exec i s = .next (s.fatalEx x cause va)) ∧
  (free → r.bad = true → exec i s =
    .next ((k.good.flatMap (·.2)).foldl (fun t p => t.reports p.m.pa p.n) (r.st.fatalEx x 0x11 0))) ∧
  (free → r.bad = false → k.misses = [] → k.packed = [] →
    exec i s = .next (((r.st.modGroup x.gid fun g => g.modFlight o.1 fun fl => { fl with writes := fl.writes ++ r.writes }).closeFlight
      x.gid (some o.1)).finish x)) ∧
  (free → r.bad = false → (misses.any fun n => !x.sp.invalid.getLsbD n.lane) = true → ∃ t, exec i s = .next t ∧
    ∀ g sp, t.group x.gid = some g → g.splits.find x.sid = some sp → sp.park = .page ∧ sp.due = some due)

/-- An instruction whose lanes access local store together (R244, R304, R320, R322, R329): a lane outside the store, or one that
`ok` or a bound barrier object refuses, traps for exactly the lanes so refused; a locked range traps; both wait while another split runs the handler; a store that is away lets
the instruction wait; else `f` performs the lanes at the places that they name. -/
def LocalAccesses (i : Instr) (s : State) (x : Ex) (n : Nat) (bar w : Bool) (ok : Nat → Bool) (os : List (Nat × Nat))
    (f : List (Nat × Spot) → State) : Prop :=
  let at? (o : Nat) : Option Spot := if ok o then s.spot x.g o n else none
  let bad := os.filter fun e => match at? e.2 with
    | none => true
    | some p => bar && s.overBarrier p.store p.off n
  let sp := os.filterMap fun e => (at? e.2).map fun p => (e.1, p)
  let hits := os.filter fun e => match at? e.2 with
    | none => false
    | some p => s.localLocked x.g p n w
  let u := (s.closeFlight x.gid x.sp.openOp).settleAt x.gid
  (bad ≠ [] ∨ hits ≠ [] → x.g.otherHandler x.sid = true → exec i s = .next s) ∧
  (bad ≠ [] → x.g.otherHandler x.sid = false → exec i s = .next (u.trap x 0x01 (maskOf (bad.map (·.1))) 0)) ∧
  (bad = [] → hits ≠ [] → x.g.otherHandler x.sid = false →
    exec i s = .next ((u.count x.g.core 7).trap x 0x04 (maskOf (hits.map (·.1))) ((hits.map (·.2)).headD 0))) ∧
  (bad = [] → hits = [] → (∃ e ∈ sp, s.present e.2 = false) → exec i s = .next s) ∧
  (bad = [] → hits = [] → (∀ e ∈ sp, s.present e.2 = true) → exec i s = .next (f sp))

/-- What every access to global memory may rest on: memory is in its canonical form, a listed line of an L2 holds 128 bytes, a dirty
sector of it is valid, and one that is valid and clean holds those of memory (R222, R229), a block of an L1 the bytes of its words, and a predictor names a size (R218). -/
def CachesSound (s : State) : Prop :=
  Memory.wf s.mem = true ∧
  (∀ n l, s.l2.find n = some l → l.data.length = 128 ∧ l.dirty &&& ~~~l.valid = 0 ∧
    ∀ i, i < 128 → l.valid.getLsbD (i / 32) = true → l.dirty.getLsbD (i / 32) = false →
      l.data[i]? = some (s.mem.read (128 * n + i))) ∧
  (∀ c, ∀ b ∈ (s.core c).l1, b.data.length = 4 * b.words) ∧ ∀ c i, 0 < KV.get 8 (s.core c).pred i

/-- The operations in flight of a group, in issue order (R173): no two of one name, and none that has returned stands first of
its counter. -/
def Group.FlightsInOrder (g : Group) : Prop :=
  g.flights.Pairwise (fun a b => a.id ≠ b.id) ∧ retireFlights g.flights [] = g.flights

end Sys2Proof.Machine
end

