-- ==== Sys2Proof/Certificates/Slice0/Obligations.lean ====
section
/-! DEFINITION. The statements for the provers. -/

open Sys2Proof Sys2Proof.Machine

/-- R181: the add family. IADDC and ISUBB read and write the carry of their lane in m13. R182: multiply and wide add. IMAD's
word form computes in the integers, then saturates or wraps. -/
def Obligations.IntegerArithmetic : Prop :=
  (
  ∀ (s : State) (x : Ex), s.ex? = some x →
    (∀ o : AOps,
      RunsAs (.iadd o) s x (.words2 o fun a b => a + b) ∧
      RunsAs (.isub o) s x (.words2 o fun a b => a - b) ∧
      RunsAs (.iaddc o) s x
        { dst := o.d, srcs := [(.w32, o.a), (.w32, o.b)], lit := o.lit,
          fn := fun l v =>
            let t := (wordAt v 0).toNat + (wordAt v 1).toNat + ((x.g.readM 13).getLsbD l).toNat
            { val := (BitVec.ofNat 32 t).setWidth 64, carry := some (decide (t ≥ 2 ^ 32)) } } ∧
      RunsAs (.isubb o) s x
        { dst := o.d, srcs := [(.w32, o.a), (.w32, o.b)], lit := o.lit,
          fn := fun l v =>
            let t : Int := (wordAt v 0).toNat - (wordAt v 1).toNat - ((x.g.readM 13).getLsbD l).toNat
            { val := (BitVec.ofInt 32 t).setWidth 64, carry := some (decide (t < 0)) } }) ∧
    (∀ o : IOps,
      RunsAs (.iaddImm o) s x (.imm o fun a i => a + i) ∧
      RunsAs (.andImm o) s x (.imm o fun a i => a &&& i) ∧
      RunsAs (.orImm o) s x (.imm o fun a i => a ||| i) ∧
      RunsAs (.xorImm o) s x (.imm o fun a i => a ^^^ i))) ∧
  (
  ∀ (s : State) (x : Ex), s.ex? = some x →
    (∀ o : AOps,
      RunsAs (.imul o) s x (.words2 o fun a b => BitVec.ofNat 32 (a.toNat * b.toNat)) ∧
      RunsAs (.imulh o) s x (.words2 o fun a b => (a.signExtend 64 * b.signExtend 64).extractLsb' 32 32) ∧
      RunsAs (.imulhU o) s x (.words2 o fun a b => (a.setWidth 64 * b.setWidth 64).extractLsb' 32 32) ∧
      RunsAs (.iadd64 o) s x
        { dst := o.d, wide := true, srcs := [(.i64, o.a), (.i64, o.b)], lit := o.lit,
          fn := fun _ v => { val := dwordAt v 0 + dwordAt v 1 } }) ∧
    (∀ o : EOps, o.minor.getLsbD 0 = false →
      RunsAs (.imad o) s x (.ext o false [(.w32, o.a), (.w32, o.b), (.w32, o.c)] fun _ v =>
        let int (w : Word) : Int := if o.minor.getLsbD 1 then w.toNat else w.toInt
        let t := int (wordAt v 0) * int (wordAt v 1) + int (wordAt v 2)
        let lo : Int := if o.minor.getLsbD 1 then 0 else -(2 ^ 31)
        let hi : Int := if o.minor.getLsbD 1 then 2 ^ 32 - 1 else 2 ^ 31 - 1
        res (BitVec.ofInt 32 (if o.mod.getLsbD 5 then max lo (min hi t) else t)))) ∧
    (∀ o : EOps, o.minor.getLsbD 0 = true →
      RunsAs (.imad o) s x (.ext o true [(.w32, o.a), (.w32, o.b), (.i64, o.c)] fun _ v =>
        let a := wordAt v 0
        let b := wordAt v 1
        { val := (if o.minor.getLsbD 1 then a.setWidth 64 * b.setWidth 64 else a.signExtend 64 * b.signExtend 64) +
            dwordAt v 2 })))

/-- R183: quotient and remainder, division by zero and the most negative number among them; IDIV neither traps on its operand
values nor sets a flag. -/
def Obligations.IntegerDivide : Prop :=
  (∀ (s : State) (x : Ex) (o : EOps), s.ex? = some x →
    RunsAs (.idiv o) s x (.ext o false [(.w32, o.a), (.w32, o.b)] fun _ v =>
      let a := wordAt v 0
      let b := wordAt v 1
      let quot : Word :=
        if b = 0 then 0xFFFFFFFF
        else if o.minor.getLsbD 1 then BitVec.ofNat 32 (a.toNat / b.toNat) else BitVec.ofInt 32 (a.toInt.tdiv b.toInt)
      res (if o.minor.getLsbD 0 then (if b = 0 then a else a - quot * b) else quot))) ∧
  (∀ a b : Word, b ≠ 0 →
    (a - BitVec.ofNat 32 (a.toNat / b.toNat) * b).toNat = a.toNat % b.toNat ∧
    (a - BitVec.ofInt 32 (a.toInt.tdiv b.toInt) * b).toInt = a.toInt.tmod b.toInt) ∧
  BitVec.ofInt 32 ((0x80000000 : Word).toInt.tdiv (0xFFFFFFFF : Word).toInt) = (0x80000000 : Word) ∧
  (∀ o : EOps, (Instr.idiv o).encodable = true → o.c = 0xF0 ∧ ((encode (.idiv o)).getD 0 0).extractLsb' 26 6 = 0x03#6 ∧
    ((encode (.idiv o)).getD 0 0).extractLsb' 0 2 = 0#2 ∧ ((encode (.idiv o)).getD 1 0).extractLsb' 24 8 = 0xF0#8 ∧
    ((encode (.idiv o)).getD 1 0).extractLsb' 0 16 = o.minor)

/-- R184: logic, minimum and maximum, shifts by B[7:0]. -/
def Obligations.LogicAndShifts : Prop :=
  ∀ (s : State) (x : Ex) (o : AOps), s.ex? = some x →
    RunsAs (.and o) s x (.words2 o fun a b => a &&& b) ∧
    RunsAs (.or o) s x (.words2 o fun a b => a ||| b) ∧
    RunsAs (.xor o) s x (.words2 o fun a b => a ^^^ b) ∧
    RunsAs (.andn o) s x (.words2 o fun a b => a &&& ~~~b) ∧
    RunsAs (.imin o) s x (.words2 o fun a b => if a.toInt < b.toInt then a else b) ∧
    RunsAs (.imax o) s x (.words2 o fun a b => if a.toInt < b.toInt then b else a) ∧
    RunsAs (.iminU o) s x (.words2 o fun a b => if a.toNat < b.toNat then a else b) ∧
    RunsAs (.imaxU o) s x (.words2 o fun a b => if a.toNat < b.toNat then b else a) ∧
    RunsAs (.shl o) s x (.words2 o fun a b => BitVec.ofNat 32 (a.toNat * 2 ^ (b.toNat % 256))) ∧
    RunsAs (.shr o) s x (.words2 o fun a b => BitVec.ofNat 32 (a.toNat / 2 ^ (b.toNat % 256))) ∧
    RunsAs (.sar o) s x (.words2 o fun a b => BitVec.ofInt 32 (a.toInt / 2 ^ (b.toNat % 256))) ∧
    RunsAs (.rol o) s x (.words2 o fun a b => a.rotateLeft (b.toNat % 256 % 32))

/-- R185: bit fields and LEA, the field's position p and width w from B. R186: bit counts, BREV and IABS, each result as the
rule describes it. R186: the carry-less product: bit k of P is the sum modulo 2 of the products of the bits of A and B whose
places add up to k; CLMUL.LO gives P[31:0], CLMUL.HI P[63:32], of which bit 31 is 0. -/
def Obligations.BitOperations : Prop :=
  (
  ∀ (s : State) (x : Ex) (o : EOps), s.ex? = some x →
    RunsAs (.bfx o) s x (.ext o false [(.w32, o.a), (.w32, o.b)] fun _ v =>
      let p := (wordAt v 1).toNat % 32
      let w := min (min ((wordAt v 1).toNat / 256 % 64) 32) (32 - p)
      let f := (wordAt v 0).toNat / 2 ^ p % 2 ^ w
      res (if o.minor.getLsbD 0 = true ∧ w ≠ 0 ∧ 2 ^ (w - 1) ≤ f then BitVec.ofInt 32 ((f : Int) - 2 ^ w)
        else BitVec.ofNat 32 f)) ∧
    (∃ bfi : Word → Word → Word → Word,
      RunsAs (.bfi o) s x (.ext o false [(.w32, o.a), (.w32, o.b), (.w32, o.c)] fun _ v =>
        res (bfi (wordAt v 0) (wordAt v 1) (wordAt v 2))) ∧
      ∀ (a b c : Word) (i : Nat), i < 32 →
        let p := b.toNat % 32
        let w := min (min (b.toNat / 256 % 64) 32) (32 - p)
        (bfi a b c).getLsbD i = if p ≤ i ∧ i < p + w then a.getLsbD (i - p) else c.getLsbD i) ∧
    RunsAs (.lea o) s x (.ext o true [(.i64, o.a), (.w32, o.b)] fun _ v =>
      let b : Dword := if o.minor.getLsbD 3 then (wordAt v 1).setWidth 64 else (wordAt v 1).signExtend 64
      { val := dwordAt v 0 + b * BitVec.ofNat 64 (2 ^ (o.minor.toNat % 8)) })) ∧
  (
  ∀ (s : State) (x : Ex) (o : UOps), s.ex? = some x →
    RunsAs (.popc o) s x (.words1 o fun a => BitVec.ofNat 32 ((List.range 32).filter fun i => a.getLsbD i).length) ∧
    (∃ n : Word → Nat, RunsAs (.clz o) s x (.words1 o fun a => BitVec.ofNat 32 (n a)) ∧
      ∀ a, n a ≤ 32 ∧ (∀ i, i < n a → a.getLsbD (31 - i) = false) ∧ (n a < 32 → a.getLsbD (31 - n a) = true)) ∧
    (∃ n : Word → Nat, RunsAs (.ctz o) s x (.words1 o fun a => BitVec.ofNat 32 (n a)) ∧
      ∀ a, n a ≤ 32 ∧ (∀ i, i < n a → a.getLsbD i = false) ∧ (n a < 32 → a.getLsbD (n a) = true)) ∧
    (∃ rev : Word → Word, RunsAs (.brev o) s x (.words1 o rev) ∧
      ∀ a i, i < 32 → (rev a).getLsbD i = a.getLsbD (31 - i)) ∧
    RunsAs (.iabs o) s x (.words1 o fun a => BitVec.ofNat 32 a.toInt.natAbs)) ∧
  (
  ∀ (s : State) (x : Ex) (o : AOps), s.ex? = some x →
    ∃ p : Word → Word → Dword,
      RunsAs (.clmulLo o) s x (.words2 o fun a b => (p a b).extractLsb' 0 32) ∧
      RunsAs (.clmulHi o) s x (.words2 o fun a b => (p a b).extractLsb' 32 32) ∧
      ∀ a b k, (p a b).getLsbD k =
        (decide (k < 64) && (List.range 32).foldl (fun acc i => acc ^^ (a.getLsbD i && decide (i ≤ k) && b.getLsbD (k - i))) false))

/-- R196, R187 (SEL), R197 (MPOP): moves, the choice by a mask bit, the count of a mask. On the scalar path SEL reads bit 0 of
its mask: the model's choice (log 17). A queue program has no m1–m15. R197, R198: a mask instruction writes every bit below W of
a register among m1–m13, whatever m0 is; any other destination, and a queue program, trap. -/
def Obligations.MovesAndMasks : Prop :=
  (
  ∀ (s : State) (x : Ex), s.ex? = some x →
    (∀ o : UOps, RunsAs (.mov o) s x (.words1 o fun a => a)) ∧
    (∀ o : MovlOps, RunsAs (.movl o) s x
      { dst := o.d, wide := true, srcs := [(.i64, o.a)], fn := fun _ v => { val := if o.a = 0xFF then o.lit else dwordAt v 0 } }) ∧
    (∀ o : MoviOps, RunsAs (.movi o) s x { dst := o.d, srcs := [], fn := fun _ _ => res (o.imm.signExtend 32) }) ∧
    (∀ o : EOps,
      let k : Kind := if o.minor.getLsbD 0 then .i64 else .w32
      (¬ (x.g.isQueue = true ∧ o.c ≠ 0) →
        RunsAs (.sel o) s x (.ext o (o.minor.getLsbD 0) [(k, o.a), (k, o.b)] fun l v =>
          { val := if (x.readM o.c.toNat).getLsbD l then dwordAt v 0 else dwordAt v 1 })) ∧
      (x.g.isQueue = true ∧ o.c ≠ 0 → exec (.sel o) s = .next (s.illegalScalar x))) ∧
    (∀ (d : BitVec 8) (a : BitVec 4),
      (¬ (x.g.isQueue = true ∧ a ≠ 0) →
        RunsAs (.mpop d a) s x
          { dst := d, srcs := [],
            fn := fun _ _ => res (BitVec.ofNat 32 ((List.range x.g.width).filter fun l => (x.readM a.toNat).getLsbD l).length) }) ∧
      (x.g.isQueue = true ∧ a ≠ 0 → exec (.mpop d a) s = .next (s.illegalScalar x)))) ∧
  (
  ∀ (s : State) (x : Ex) (d a b : BitVec 4), s.ex? = some x →
    let bad := d.toNat = 0 ∨ 13 < d.toNat ∨ x.g.isQueue = true
    let writes (i : Instr) (f : Nat → Bool) : Prop :=
      (bad → exec i s = .next (s.illegal x)) ∧
      (¬ bad → ∃ t g, exec i s = .next t ∧ OnlyGroup s t x.gid ∧ t = (s.setGroup x.gid g).finish x ∧
        g = x.g.withRegs x.g.v x.g.sr g.m ∧ (∀ n, n ≠ d.toNat → g.readM n = x.g.readM n) ∧
        ∀ l, (g.readM d.toNat).getLsbD l = (decide (l < 64) && decide (l < x.g.width) && f l))
    writes (.mand d a b) (fun l => (x.readM a.toNat).getLsbD l && (x.readM b.toNat).getLsbD l) ∧
    writes (.mor d a b) (fun l => (x.readM a.toNat).getLsbD l || (x.readM b.toNat).getLsbD l) ∧
    writes (.mxor d a b) (fun l => (x.readM a.toNat).getLsbD l ^^ (x.readM b.toNat).getLsbD l) ∧
    writes (.mnot d a) (fun l => !(x.readM a.toNat).getLsbD l))

/-- R187, R189: compares write the bit of each active lane in a mask register among m1–m13 and keep the others. R189: the
conditions of the floating-point compares: a NaN satisfies NE and UNO alone, −0 equals +0, and EQ and LT of two other values are
those of the real numbers they denote, here as integers times the common unit 2^q. -/
def Obligations.CompareInstructions : Prop :=
  (
  ∀ (s : State) (x : Ex) (o : EOps), s.ex? = some x →
    let cc := o.minor.toNat % 8
    let wide := o.minor.getLsbD 4
    let int (d : Dword) : Int :=
      if wide then (if o.minor.getLsbD 3 then (d.toNat : Int) else d.toInt)
      else if o.minor.getLsbD 3 then ((d.setWidth 32).toNat : Int) else (d.setWidth 32).toInt
    Sys2Proof.Machine.Compares (.icmp o) s x o (if wide then .i64 else .w32) (fun v =>
      let a := int (dwordAt v 0)
      let b := int (dwordAt v 1)
      if cc = 0 then decide (a = b) else if cc = 1 then decide (a ≠ b) else if cc = 2 then decide (a < b)
      else if cc = 3 then decide (a ≤ b) else if cc = 4 then decide (a > b) else decide (a ≥ b)) ∧
    Sys2Proof.Machine.Compares (.fcmp o) s x o .w32 (fun v => fpCond cc (FF.fp32.arg v 0) (FF.fp32.arg v 1)) ∧
    Sys2Proof.Machine.Compares (.dcmp o) s x o .f64 (fun v => fpCond cc (FF.fp64.arg v 0) (FF.fp64.arg v 1))) ∧
  (
  (∀ (cc : Nat) (a b : FV), cc < 8 → (a = .nan ∨ b = .nan) → fpCond cc a b = (cc == 1 || cc == 7)) ∧
  (∀ (s t : Bool) (e f : Int), fpCond 0 (.fin s 0 e) (.fin t 0 f) = true ∧ fpCond 2 (.fin s 0 e) (.fin t 0 f) = false ∧
    fpCond 4 (.fin s 0 e) (.fin t 0 f) = false) ∧
  (∀ (s t : Bool) (n m : Nat) (e d q : Int), q ≤ e → q ≤ d →
    let value (neg : Bool) (n : Nat) (e : Int) : Int := (if neg then -1 else 1) * ((n * 2 ^ (e - q).toNat : Nat) : Int)
    fpCond 0 (.fin s n e) (.fin t m d) = decide (value s n e = value t m d) ∧
    fpCond 2 (.fin s n e) (.fin t m d) = decide (value s n e < value t m d)) ∧
  (∀ s t : Bool, fpCond 0 (.inf s) (.inf t) = (s == t) ∧ fpCond 2 (.inf s) (.inf t) = (s && !t)) ∧
  (∀ (s t : Bool) (n : Nat) (e : Int), fpCond 0 (.inf s) (.fin t n e) = false ∧ fpCond 0 (.fin t n e) (.inf s) = false ∧
    fpCond 2 (.inf s) (.fin t n e) = s ∧ fpCond 2 (.fin t n e) (.inf s) = !s) ∧
  (∀ (a b : FV), a ≠ .nan → b ≠ .nan →
    fpCond 1 a b = !fpCond 0 a b ∧ fpCond 3 a b = (fpCond 2 a b || fpCond 0 a b) ∧ fpCond 4 a b = fpCond 2 b a ∧
    fpCond 5 a b = (fpCond 2 b a || fpCond 0 a b) ∧ fpCond 6 a b = true ∧ fpCond 7 a b = false))

/-- R188, R189: FP32 arithmetic, the minimum and maximum, the class, the short forms. R188–R190: FP64 arithmetic on pairs. -/
def Obligations.FpArithmetic : Prop :=
  (
  ∀ (s : State) (x : Ex), s.ex? = some x →
    (∀ o : EOps,
      RunsAs (.fadd o) s x (.fp32 2 o fun a b _ => FF.fp32.add (modRm o) a b) ∧
      RunsAs (.fsub o) s x (.fp32 2 o fun a b _ => FF.fp32.add (modRm o) a b.neg) ∧
      RunsAs (.fmul o) s x (.fp32 2 o fun a b _ => FF.fp32.mul (modRm o) a b) ∧
      RunsAs (.ffma o) s x (.fp32 3 o fun a b c => FF.fp32.fma (modRm o) a b c) ∧
      RunsAs (.fmin o) s x (.fp32 2 o fun a b _ => FF.fp32.round .rne (fvPick false a b)) ∧
      RunsAs (.fmax o) s x (.fp32 2 o fun a b _ => FF.fp32.round .rne (fvPick true a b)) ∧
      RunsAs (.fclass o) s x (.ext o false [(.w32, o.a)] fun _ v => res (fpClass (wordAt v 0)))) ∧
    (∀ o : AOps,
      RunsAs (.faddShort o) s x (.short .w32 false .fp32 o fun a b => FF.fp32.add .rne a b) ∧
      RunsAs (.fsubShort o) s x (.short .w32 false .fp32 o fun a b => FF.fp32.add .rne a b.neg) ∧
      RunsAs (.fmulShort o) s x (.short .w32 false .fp32 o fun a b => FF.fp32.mul .rne a b) ∧
      RunsAs (.fmaxShort o) s x (.short .w32 false .fp32 o fun a b => FF.fp32.round .rne (fvPick true a b)))) ∧
  (
  ∀ (s : State) (x : Ex), s.ex? = some x →
    (∀ o : EOps,
      RunsAs (.dadd o) s x (.fp64 2 o fun a b _ => FF.fp64.add (modRm o) a b) ∧
      RunsAs (.dmul o) s x (.fp64 2 o fun a b _ => FF.fp64.mul (modRm o) a b) ∧
      RunsAs (.dfma o) s x (.fp64 3 o fun a b c => FF.fp64.fma (modRm o) a b c) ∧
      RunsAs (.dmin o) s x (.fp64 2 o fun a b _ => FF.fp64.round .rne (fvPick false a b)) ∧
      RunsAs (.dmax o) s x (.fp64 2 o fun a b _ => FF.fp64.round .rne (fvPick true a b)) ∧
      RunsAs (.ddiv o) s x (.fp64 2 o fun a b _ => FF.fp64.div (modRm o) a b) ∧
      RunsAs (.dsqrt o) s x (.fp64 1 o fun a _ _ => FF.fp64.sqrt (modRm o) a)) ∧
    (∀ o : AOps,
      RunsAs (.daddShort o) s x (.short .f64 true .fp64 o fun a b => FF.fp64.add .rne a b) ∧
      RunsAs (.dmulShort o) s x (.short .f64 true .fp64 o fun a b => FF.fp64.mul .rne a b)))

/-- R190, R191: division, roots and functions of FP32; the faithfully rounded ones answer through the constants of Config where
R43 leaves a choice (log 7). FRND and FLDEXP among them. -/
def Obligations.FpFunctions : Prop :=
  ∀ (s : State) (x : Ex) (o : EOps), s.ex? = some x →
    RunsAs (.frcp o) s x (.fp32 1 o fun a _ _ => FF.fp32.div (modRm o) (.fin false 1 0) a) ∧
    RunsAs (.fsqrt o) s x (.fp32 1 o fun a _ _ => FF.fp32.sqrt (modRm o) a) ∧
    RunsAs (.fdiv o) s x (.fp32 2 o fun a b _ => FF.fp32.div (modRm o) a b) ∧
    RunsAs (.frsq o) s x (.fp32 1 o fun a _ _ => fpRsq (fvWord a) a) ∧
    RunsAs (.fexp2 o) s x (.fp32 1 o fun a _ _ => fpExp2 (fvWord a) a) ∧
    RunsAs (.flog2 o) s x (.fp32 1 o fun a _ _ => fpLog2 (fvWord a) a) ∧
    RunsAs (.ftanh o) s x (.fp32 1 o fun a _ _ => fpTanh (fvWord a) a) ∧
    RunsAs (.fsin o) s x (.fp32 1 o fun a _ _ => fpTrig .fsin 0 (fvWord a) a) ∧
    RunsAs (.fcos o) s x (.fp32 1 o fun a _ _ => fpTrig .fcos 1 (fvWord a) a) ∧
    RunsAs (.frnd o) s x (.fp32 1 o fun a _ _ => ⟨(FF.fp32.round .rne (fpRnd (modRm o) a)).bits, 0⟩) ∧
    RunsAs (.fldexp o) s x (.ext o false [(.w32, o.a), (.w32, o.b)] fun _ v =>
      FF.fp32.fin (modSat o) (fpLdexp (modRm o) (srcA o (FF.fp32.arg v 0)) (wordAt v 1)))

/-- R188, R190: the special cases of FP32 and FP64 arithmetic, in every rounding mode. R29, R30, R9: a bit pattern that is no
NaN rounds to itself, exactly, in every format and every rounding mode. R9, R35: a value between two neighbouring magnitudes of
a format, the patterns k and k + 1, takes the neighbour that the mode selects, with NX, and with UF where its rounding with an
unbounded exponent stays below the smallest normal. All magnitudes are taken as integers times the common unit 2^q. R9, R34: a
magnitude above the largest finite one is first rounded as though the next one followed it: what so rounds back gives the
largest finite one, with NX; the rest overflows to what R34's table gives for the mode and the sign, with OF and NX. -/
def Obligations.FpCorners : Prop :=
  (
  ∀ (f : FF) (m : RMode), f = .fp32 ∨ f = .fp64 →
    (∀ a : FV, (f.add m .nan a).bits = f.nanBits ∧ (f.add m a .nan).bits = f.nanBits ∧ (f.mul m .nan a).bits = f.nanBits ∧
      (f.mul m a .nan).bits = f.nanBits) ∧
    (∀ b, f.add m (.inf b) (.inf !b) = ⟨f.nanBits, fNV⟩) ∧
    (∀ b t e, f.mul m (.fin t 0 e) (.inf b) = ⟨f.nanBits, fNV⟩ ∧ f.mul m (.inf b) (.fin t 0 e) = ⟨f.nanBits, fNV⟩) ∧
    (∀ b t e c, f.fma m (.fin t 0 e) (.inf b) c = ⟨f.nanBits, fNV⟩) ∧
    (∀ b t n e k, n ≠ 0 → f.div m (.fin t n e) (.fin b 0 k) = ⟨f.withSign (t ^^ b) f.infBits, fDZ⟩) ∧
    (∀ b t e k, f.div m (.fin t 0 e) (.fin b 0 k) = ⟨f.nanBits, fNV⟩) ∧
    (∀ b t, f.div m (.inf t) (.inf b) = ⟨f.nanBits, fNV⟩) ∧
    (∀ n e, n ≠ 0 → f.sqrt m (.fin true n e) = ⟨f.nanBits, fNV⟩) ∧
    f.sqrt m (.inf true) = ⟨f.nanBits, fNV⟩) ∧
  (
  ∀ (f : FF) (m : RMode) (bits : Nat), bits < 2 ^ f.width → f.decode bits ≠ .nan → f.round m (f.decode bits) = ⟨bits, 0⟩) ∧
  (
  ∀ (f : FF) (m : RMode) (neg : Bool) (n n0 n1 k : Nat) (e e0 e1 q : Int), k < f.maxBits →
    f.decode k = .fin false n0 e0 → f.decode (k + 1) = .fin false n1 e1 → q ≤ e → q ≤ e0 → q ≤ e1 →
    let x := n * 2 ^ (e - q).toNat
    let lo := n0 * 2 ^ (e0 - q).toNat
    let hi := n1 * 2 ^ (e1 - q).toNat
    lo < x → x < hi →
    let away : Bool := match m with
      | .rne => decide (lo + hi < 2 * x) || (decide (2 * x = lo + hi) && k % 2 == 1)
      | .rtz => false
      | .rpi => !neg
      | .rni => neg
    let reachesNormal : Bool := match m with
      | .rne => decide (lo + 3 * hi ≤ 4 * x)
      | .rtz => false
      | .rpi => !neg && decide (lo + hi < 2 * x)
      | .rni => neg && decide (lo + hi < 2 * x)
    let tiny : Bool := decide (k + 1 < 2 ^ f.fbits) || (k + 1 == 2 ^ f.fbits && !reachesNormal)
    f.round m (.fin neg n e) = ⟨f.withSign neg (if away then k + 1 else k), if tiny then fNX ||| fUF else fNX⟩) ∧
  (
  ∀ (f : FF) (m : RMode) (neg : Bool) (n nm : Nat) (e em q : Int), f.decode f.maxBits = .fin false nm em → q ≤ e → q ≤ em →
    let x := n * 2 ^ (e - q).toNat
    let top := nm * 2 ^ (em - q).toNat
    let next := (nm + 1) * 2 ^ (em - q).toNat
    top < x →
    let outward : Bool := match m with
      | .rne => true
      | .rtz => false
      | .rpi => !neg
      | .rni => neg
    let beyond : Bool := decide (next ≤ x) || (match m with
      | .rne => decide (top + next < 2 * x) || (decide (2 * x = top + next) && nm % 2 == 1)
      | _ => outward)
    (beyond = true → f.round m (.fin neg n e) = ⟨f.withSign neg (if outward then f.infBits else f.maxBits), fOF ||| fNX⟩) ∧
    (beyond = false → f.round m (.fin neg n e) = ⟨f.withSign neg f.maxBits, fNX⟩))

/-- R192: packed 16-bit arithmetic, two halves in one register. R193–R195: conversions. Each element is converted by R38; an
8-bit PACK keeps the half of D that it does not write. -/
def Obligations.PackedAndConversions : Prop :=
  (
  ∀ (s : State) (x : Ex), s.ex? = some x →
    (∀ o : EOps,
      RunsAs (.hadd2 o) s x (.packed 2 o fun f a b _ => f.add (modRm o) a b) ∧
      RunsAs (.hmul2 o) s x (.packed 2 o fun f a b _ => f.mul (modRm o) a b) ∧
      RunsAs (.hfma2 o) s x (.packed 3 o fun f a b c => f.fma (modRm o) a b c)) ∧
    (∀ o : AOps,
      let two (f : FV → FV → Rnd) (v : List Dword) : LaneRes :=
        let half (h : Nat) : LaneRes := FF.fp16.fin false (f (halfOf .fp16 (wordAt v 0) h) (halfOf .fp16 (wordAt v 1) h))
        { val := ((half 1).val.setWidth 16 ++ (half 0).val.setWidth 16 : Word).setWidth 64,
          flags := (half 0).flags ||| (half 1).flags }
      RunsAs (.hadd2Short o) s x
        { dst := o.d, srcs := [(.w32, o.a), (.w32, o.b)], lit := o.lit, fn := fun _ v => two (fun a b => FF.fp16.add .rne a b) v } ∧
      RunsAs (.hmul2Short o) s x
        { dst := o.d, srcs := [(.w32, o.a), (.w32, o.b)], lit := o.lit, fn := fun _ v => two (fun a b => FF.fp16.mul .rne a b) v })) ∧
  (
  ∀ (s : State) (x : Ex) (o : EOps), s.ex? = some x →
    let dst := o.minor.toNat % 16
    let src := o.minor.toNat / 16 % 16
    RunsAs (.cvt o) s x (.ext o (fmtBits dst == 64) [(kindOf src, o.a)] fun _ v =>
      let r := cvtElem dst src (modRm o) (modSat o) (modA o) (subElem src (o.minor.toNat / 256 % 4) (dwordAt v 0))
      { val := BitVec.ofNat 64 r.1, flags := r.2 }) ∧
    RunsAs (.pack o) s x
      (.ext o false [(.w32, o.a), (.w32, o.b), (.w32, if o.d.toNat < 0xF0 then o.d else 0xF0)] fun _ v =>
        let a := cvtElem dst src (modRm o) (modSat o) id (wordAt v 0).toNat
        let b := cvtElem dst src (modRm o) (modSat o) id (wordAt v 1).toNat
        let old := (wordAt v 2).toNat
        { val := BitVec.ofNat 64 (
            if fmtBits dst = 16 then a.1 + b.1 * 2 ^ 16
            else if o.minor.getLsbD 8 then old % 2 ^ 16 + (a.1 + b.1 * 2 ^ fmtBits dst) * 2 ^ 16
            else a.1 + b.1 * 2 ^ fmtBits dst + old / 2 ^ 16 * 2 ^ 16),
          flags := a.2 ||| b.2 }) ∧
    RunsAs (.unpk o) s x (.ext o true [(.w32, o.a)] fun _ v =>
      let n := if fmtBits src = 16 then 0 else 2 * (o.minor.getLsbD 8).toNat
      let a := cvtElem dst src (modRm o) (modSat o) id (subElem src n (dwordAt v 0))
      let b := cvtElem dst src (modRm o) (modSat o) id (subElem src (n + 1) (dwordAt v 0))
      { val := BitVec.ofNat 64 (a.1 + b.1 * 2 ^ 32), flags := a.2 ||| b.2 }))

/-- R199, R200, R203: SHFL and the quad instructions read A in the lanes they name, active or not, and write active lanes only;
a per-lane B traps in the quad instructions. R201, R202: BCST, VOTE, BALLOT and REDUX: one value for every active lane, or once
for a scalar destination; REDUX.SCAN gives each active lane the result over the active lanes up to it. The model’s choices, not
the spec’s, are: that a scalar destination takes one result over the active lanes, written once, and that REDUX.SCAN refuses one
(log 19, DEDUCED). -/
def Obligations.CrossLaneInstructions : Prop :=
  (
  ∀ (s : State) (x : Ex), s.ex? = some x →
    (∀ o : EOps, RunsAs (.shfl o) s x (.ext o false [(.w32, o.a), (.w32, o.b)] fun l v =>
      let z : Nat := 2 ^ (o.minor.toNat / 4 % 8)
      let b : Nat := (wordAt v 1).toNat % 256
      let base : Nat := l - l % z
      let mode := o.minor.toNat % 4
      let src : Int := if mode = 0 then (base : Int) + b else if mode = 1 then (l : Int) - b else if mode = 2 then (l : Int) + b
        else ((l ^^^ b : Nat) : Int)
      if (base : Int) ≤ src ∧ src < base + z ∧ src < x.g.width ∧ x.lanes.getLsbD src.toNat = true then
        res (s.wordIn x o.lit o.a src.toNat)
      else res (wordAt v 0))) ∧
    (∀ o : AOps,
      let alu (f : Nat → Nat → LaneRes) : Alu :=
        { dst := o.d, srcs := [(.w32, o.a), (.w32, o.b)], lit := o.lit, fn := fun l v => f l ((wordAt v 1).toNat % 4) }
      let at_ := s.wordIn x o.lit o.a
      (badUniform x.g .w32 o.b = true →
        exec (.qswp o) s = .next (s.illegal x) ∧ exec (.qbcst o) s = .next (s.illegal x) ∧ exec (.qdd o) s = .next (s.illegal x)) ∧
      (badUniform x.g .w32 o.b = false →
        RunsAs (.qswp o) s x (alu fun l b => res (at_ (l ^^^ b))) ∧
        RunsAs (.qbcst o) s x (alu fun l b => res (at_ (4 * (l / 4) + b))) ∧
        RunsAs (.qdd o) s x (alu fun l b =>
          let q := 4 * (l / 4)
          let first := match b with
            | 0 => q + 2 * (l % 4 / 2)
            | 1 => q + l % 2
            | _ => q
          let second := match b with
            | 0 => first + 1
            | 1 => first + 2
            | 2 => q + 1
            | _ => q + 2
          FF.fp32.fin false
            (FF.fp32.add .rne (FF.fp32.decode (at_ second).toNat) (FF.fp32.decode (at_ first).toNat).neg))))) ∧
  (
  ∀ (s : State) (x : Ex), s.ex? = some x →
    let one (i : Instr) (wide : Bool) (d a : BitVec 8) (r : LaneRes) : Prop :=
      (crossRefused x d wide a = false → ∃ t, exec i s = .next t ∧ Leaves s t x wide d (crossLanes x d) fun _ => r) ∧
      (crossRefused x d wide a = true → exec i s = .next (s.illegal x))
    (∀ o : AOps,
      (badUniform x.g .w32 o.b = true → exec (.bcst o) s = .next (s.illegal x)) ∧
      (badUniform x.g .w32 o.b = false →
        one (.bcst o) false o.d o.a (res (s.wordIn x o.lit o.a ((s.wordIn x o.lit o.b 0).toNat % x.g.width))))) ∧
    (∀ o : UOps,
      let ws := s.activeWords x o.lit o.a
      let bit (b : Bool) (v : Word) : Word := if b then v else 0
      one (.vote o) false o.d o.a
        (res (bit (ws.any (· != 0)) 1 ||| bit (ws.all (· != 0)) 2 ||| bit (ws.all (· == ws.headD 0)) 4)) ∧
      one (.ballot o) true o.d o.a { val := maskOf (x.list.filter fun l => s.wordIn x o.lit o.a l != 0) }) ∧
    (∀ o : EOps,
      let op := o.minor.toNat % 8
      let ws := s.activeWords x o.lit o.a
      (o.minor.getLsbD 4 = false →
        one (.redux o) false o.d o.a (redux (o.minor.getLsbD 3) op (modRm o) ws)) ∧
      (o.minor.getLsbD 4 = true → isScalar o.d = true → exec (.redux o) s = .next (s.illegal x)) ∧
      (o.minor.getLsbD 4 = true → crossRefused x o.d false o.a = true → exec (.redux o) s = .next (s.illegal x)) ∧
      (o.minor.getLsbD 4 = true → isScalar o.d = false → crossRefused x o.d false o.a = false →
        ∃ t, exec (.redux o) s = .next t ∧ Leaves s t x false o.d x.list fun l =>
          redux (o.minor.getLsbD 3) op (modRm o) ((x.list.filter fun i => decide (i ≤ l)).map (s.wordIn x o.lit o.a)))))

/-- R146, R204: passing an instruction moves one split of one group and nothing else: to the next instruction of its clause, or
behind the clause; a transfer moves it to the header it names. -/
def Obligations.PassingAnInstruction : Prop :=
  ∀ (s : State) (x : Ex) (pc : Nat), s.ex? = some x →
    let only (t : State) : Prop :=
      OnlyGroup s t x.gid ∧
      ∃ sp, t.group x.gid = some { x.g with splits := x.g.splits.modify x.sid fun _ => sp } ∧
        sp.mask = x.sp.mask ∧ sp.jrec = x.sp.jrec ∧ sp.due = none ∧ sp.tokens = [] ∧ sp.openOp = none
    only (s.finish x) ∧ only (s.goto x pc) ∧
    (∀ sp, (s.goto x pc).ex? = some sp → sp.sp.pc = pc ∧ sp.sp.clause = none) ∧
    (∀ c, x.sp.clause = some c → ∀ y, (s.finish x).ex? = some y →
      let pos := c.pos + rawLen (c.words.drop c.pos)
      if pos < c.words.length then y.sp.pc = c.hdr + 4 + 4 * pos ∧ y.sp.clause = if c.stale then none else some { c with pos := pos }
      else y.sp.pc = c.hdr + 4 + 4 * c.words.length ∧ y.sp.clause = none)

/-- R134, R149, R204, R205: NOP only moves on; BRA is taken when a lane of m0 stands in its mask (MR 0: always), moves the whole
split, and never divides it; a target that is no header traps, and one that stops in translation stops the branch. -/
def Obligations.NopAndBranch : Prop :=
  ∀ (s : State) (x : Ex), s.ex? = some x →
    exec .nop s = .next (s.finish x) ∧
    ∀ o : COps,
      let target := (((x.sp.pc : Int) + 4 * o.off.toInt) % 2 ^ 52).toNat
      let taken := o.mr = 0 ∨ x.lanes &&& x.g.readM o.mr.toNat ≠ 0
      (x.badTransfer o.mr = true → exec (.bra o) s = .next (s.illegal x)) ∧
      (x.badTransfer o.mr = false → ¬ taken → exec (.bra o) s = .next (s.goto x x.nextHeader)) ∧
      (x.badTransfer o.mr = false → taken →
        (∀ st, s.codeWord x.g target = .error st → exec (.bra o) s = .next (s.stopWhole x st target .exec)) ∧
        (∀ w u, s.codeWord x.g target = .ok (w, u) →
          (isHeader w = true → exec (.bra o) s = .next ((u.capture x target).goto x target)) ∧
          (isHeader w = false → exec (.bra o) s = .next (u.illegal x))))

/-- R165, R206, R207: BRD whose lanes agree moves the split without a record; one whose lanes disagree divides it under a join
record that expects all its lanes; JOIN arrives at the split's record, where its clause drains the surviving split waits for
that, or moves on without one. The model’s choices, not the spec’s, are: that both targets of BRD are checked only where some
lane takes the branch, with LMASK the lanes that take it (log 66, DEDUCED). -/
def Obligations.DivergeAndJoin : Prop :=
  ∀ (s : State) (x : Ex), s.ex? = some x →
    (∀ o : BrdOps, x.badTransfer o.mr = false →
      let target := (((x.sp.pc : Int) + 4 * o.off.toInt) % 2 ^ 52).toNat
      let join := (((x.sp.pc : Int) + 4 * o.join.toInt) % 2 ^ 52).toNat
      let t := if o.mr = 0 then x.lanes else x.lanes &&& x.g.readM o.mr.toNat
      let f := x.sp.mask &&& ~~~t
      let settle (u : State) : State := u.modGroup x.gid fun g => g.clearReeval x.sp.jrec
      (t = 0 → exec (.brd o) s = .next ((settle s).goto x x.nextHeader)) ∧
      (t ≠ 0 → ∀ w u v r, s.codeWord x.g target = .ok (w, u) → u.codeWord x.g join = .ok (v, r) →
        ((isHeader w && isHeader v) = false → exec (.brd o) s = .next (r.trap x 0x01 t 0)) ∧
        ((isHeader w && isHeader v) = true → f = 0 →
          exec (.brd o) s = .next (((settle r).capture x target).goto x target)) ∧
        ((isHeader w && isHeader v) = true → f ≠ 0 →
          exec (.brd o) s = .next (settle ((r.capture x target).modGroup x.gid fun g =>
            g.diverge x t f target join x.nextHeader (r.parkAfter x)))))) ∧
    (∀ o : BrdOps, x.badTransfer o.mr = true → exec (.brd o) s = .next (s.illegal x)) ∧
    (x.badTransfer 0 = true → exec .join s = .next (s.illegal x)) ∧
    (x.badTransfer 0 = false → x.sp.jrec = none → exec .join s = .next (s.goto x x.nextHeader)) ∧
    (x.badTransfer 0 = false → ∀ k, x.sp.jrec = some k →
      let park := s.parkAfter x
      exec .join s = .next ((s.modGroup x.gid fun g => g.arrive x.sid).modSplit x.gid x.sid fun sp => { sp with park := park }))

/-- R165, R166: dividing a split loses no lane: its lanes stand in the split that keeps its entry, in the new one, or deferred
in the record. The record is a new one, which expects them all and lies within the split's own as OUTER, but where the same BRD
is evaluated again for deferred lanes: then it is the split's own record. An arrival at a record with deferred lanes releases
them at the BRD; the last arrival brings all lanes back as one split at JPC; any other gives its entry up. -/
def Obligations.LanesOfJoins : Prop :=
  (∀ (g : Group) (x : Ex) (t f : Lanes) (target join next : Nat) (p : Park),
    g.splits.find x.sid = some x.sp → t ||| f = x.sp.mask → t &&& f = 0 →
    let h := g.diverge x t f target join next p
    let again (k : Nat) (r : JoinRec) : Prop := x.sp.jrec = some k ∧ g.joins.find k = some r ∧ r.reeval = true ∧ r.dpc = x.sp.pc
    ∃ k r, h.joins.find k = some r ∧ (∀ n, n ≠ k → h.joins.find n = g.joins.find n) ∧
      ((∃ r0, again k r0 ∧ r.jpc = r0.jpc ∧ r.expect = r0.expect ∧ r.arrived = r0.arrived ∧ r.outer = r0.outer) ∨
        ((¬ ∃ j r0, again j r0) ∧ ((∃ i, i < 63 ∧ g.joins.find i = none) → g.joins.find k = none) ∧ r.jpc = join ∧
          r.expect = x.sp.mask ∧ r.arrived = 0 ∧ r.outer = x.sp.jrec)) ∧
      ((∃ n a b, g.splits.find n = none ∧ h.splits.find x.sid = some a ∧ h.splits.find n = some b ∧
          (∀ i, i ≠ x.sid → i ≠ n → h.splits.find i = g.splits.find i) ∧ a.pc = next ∧ a.mask = f ∧ a.jrec = some k ∧
          b.pc = target ∧ b.mask = t ∧ b.jrec = some k) ∨
        ((∀ i, i < 8 → g.splits.find i ≠ none) ∧ ∃ a, h.splits.find x.sid = some a ∧
          (∀ i, i ≠ x.sid → h.splits.find i = g.splits.find i) ∧ a.pc = target ∧ a.mask = t ∧
          a.jrec = some k ∧ r.defer = f ∧ r.dpc = x.sp.pc))) ∧
  (∀ (g : Group) (sid k : Nat) (sp : Split) (r : JoinRec), g.splits.find sid = some sp → sp.jrec = some k →
    g.joins.find k = some r →
    let h := g.arrive sid
    let arrived := r.arrived ||| sp.mask
    (∀ i, i ≠ sid → h.splits.find i = g.splits.find i) ∧ (∀ n, n ≠ k → h.joins.find n = g.joins.find n) ∧
    (r.defer ≠ 0 → h.joins.find k = some { r with arrived := arrived, defer := 0, reeval := true } ∧
      ∃ m, h.splits.find sid = some m ∧ m.pc = r.dpc ∧ m.mask = r.defer ∧ m.jrec = some k) ∧
    (r.defer = 0 → arrived = r.expect → h.joins.find k = none ∧
      ∃ m, h.splits.find sid = some m ∧ m.pc = r.jpc ∧ m.mask = r.expect ∧ m.jrec = r.outer) ∧
    (r.defer = 0 → arrived ≠ r.expect → h.joins.find k = some { r with arrived := arrived } ∧ h.splits.find sid = none))

/-- R208: CALL writes the link pair of every lane that transfers with the first header behind its clause, and enters the
function, behind an implicit RGROW where its descriptor asks for more blocks than the group holds; an address without a
descriptor, or a budget above LAUNCH.RBMAX, traps. R209–R211: CALLI, JMPI and RET whose lanes are all judged: with good targets
alone they transfer, a CALLI with its link pair; with bad ones alone they trap for those lanes; and a miss parks the split for
its pages. R210, R211: JMPI and RET whose lanes all hold one good address move the whole split there. The model’s choices, not
the spec’s, are: which trap CALLI, JMPI and RET take where lanes of both bad kinds remain, by the lowest of them (log 20,
DEDUCED). -/
def Obligations.CallsAndReturns : Prop :=
  (
  ∀ (s : State) (x : Ex) (off : BitVec 20), s.ex? = some x →
    let target := (((x.sp.pc : Int) + 4 * off.toInt) % 2 ^ 52).toNat
    (x.badTransfer 0 = true → exec (.call off) s = .next (s.illegal x)) ∧
    (x.badTransfer 0 = false → ∀ w u, s.codeWord x.g target = .ok (w, u) →
      (entryOf w target = none → exec (.call off) s = .next (u.illegal x)) ∧
      (∀ r, entryOf w target = some r →
        (x.g.isQueue = false → x.g.rblk < r → u.blocksAllowed x.g r = false → exec (.call off) s = .next (u.illegal x)) ∧
        ((x.g.isQueue = true ∨ r ≤ x.g.rblk) → ∀ rpc v, u.skipPads x.g padFuel x.nextHeader = .ok (rpc, v) →
          exec (.call off) s = .next (((v.modGroup x.gid fun g => g.link x.list rpc).goto x target).modSplit x.gid x.sid
            fun sp => { sp with pc := target + 4 })) ∧
        (x.g.isQueue = false → x.g.rblk < r → u.blocksAllowed x.g r = true →
          ∀ rpc v, u.skipPads x.g padFuel x.nextHeader = .ok (rpc, v) →
          exec (.call off) s = .next ((((v.modGroup x.gid fun g => g.link x.list rpc).goto x target).modSplit x.gid x.sid
            fun sp => { sp with pc := target + 4 }).requestRegs x.gid x.sid x.g.core r none (v.parkAfter x != Park.no)))))) ∧
  (
  ∀ (s : State) (x : Ex) (o : TOps), s.ex? = some x →
    let ts := x.list.map fun l => (l, (s.readSrc x o.lit .i64 o.a l).toNat % 2 ^ 52)
    let rs := x.list.map fun l => (l, x.g.retAddr l)
    let calls := s.judgeAll x .entry ts
    let jumps := s.judgeAll x .marked ts
    let rets := s.judgeAll x .header rs
    let bad := x.badTransfer 0 = true ∨ badSrc x.g .i64 o.a = true
    (bad → exec (.calli o) s = .next (s.illegal x) ∧ exec (.jmpi o) s = .next (s.illegal x)) ∧
    (¬ bad → calls.fatal = none → calls.misses ≠ [] →
      exec (.calli o) s = .next ((s.touchCode x.g ts).parkPages x calls.misses x.lanes .exec)) ∧
    (¬ bad → calls.fatal = none → calls.misses = [] → ∀ rpc u,
      (s.touchCode x.g ts).skipPads x.g padFuel x.nextHeader = .ok (rpc, u) →
      (calls.bad = 0 → exec (.calli o) s = .next (u.calliGood x calls.goods rpc)) ∧
      (calls.bad ≠ 0 → calls.goods = [] → exec (.calli o) s = .next ((u.keepLanes x x.sp.mask).badTrap x calls ts))) ∧
    (¬ bad → ∀ c va, calls.fatal = some (c, va) → exec (.calli o) s = .next ((s.touchCode x.g ts).fatalEx x c va)) ∧
    (¬ bad → jumps.fatal = none → jumps.misses = [] → exec (.jmpi o) s = .next ((s.touchCode x.g ts).jump x jumps ts)) ∧
    (¬ bad → jumps.fatal = none → jumps.misses ≠ [] →
      exec (.jmpi o) s = .next ((s.touchCode x.g ts).parkPages x jumps.misses x.lanes .exec)) ∧
    (¬ bad → ∀ c va, jumps.fatal = some (c, va) → exec (.jmpi o) s = .next ((s.touchCode x.g ts).fatalEx x c va)) ∧
    ((x.badTransfer 0 = true ∨ (x.g.isQueue = false ∧ x.g.rblk = 0)) → exec .ret s = .next (s.illegal x)) ∧
    (x.badTransfer 0 = false → (x.g.isQueue = true ∨ x.g.rblk ≠ 0) →
      (∀ c va, rets.fatal = some (c, va) → exec .ret s = .next ((s.touchCode x.g rs).fatalEx x c va)) ∧
      (rets.fatal = none → rets.misses ≠ [] →
        exec .ret s = .next ((s.touchCode x.g rs).parkPages x rets.misses x.lanes .exec)) ∧
      (rets.fatal = none → rets.misses = [] →
        (rets.bad = 0 → exec .ret s = .next ((s.touchCode x.g rs).jump x rets rs)) ∧
        (rets.bad ≠ 0 → rets.inv.getLsbD (lowLane rets.bad) = false →
          exec .ret s = .next ((s.touchCode x.g rs).trap x 0x01 rets.bad 0)) ∧
        (rets.bad ≠ 0 → rets.inv.getLsbD (lowLane rets.bad) = true →
          exec .ret s = .next ((s.touchCode x.g rs).trap x 0x05 rets.bad (x.g.retAddr (lowLane rets.bad))))))) ∧
  (
  ∀ (u : State) (x : Ex) (j : Judged) (ts : List (Nat × Nat)) (d : Dest), j.bad = 0 → j.goods = [d] →
    x.sp.mask &&& ~~~x.lanes = 0 →
    u.jump x j ts = (u.goto x d.va).modSplit x.gid x.sid fun sp => { sp with mask := d.mask })

/-- R334, R337, R338: what taking a precise trap leaves: the record, LMASK, the handler split at TVEC with the elected lane,
every other split as it stood; no other group and no part of the machine outside it changes. -/
def Obligations.TrapEntry : Prop :=
  ∀ (s : State) (x : Ex) (cause faddr : Nat) (lmask : Lanes), s.ex? = some x → x.g.isQueue = false → x.g.handler = none →
    ((s.ctx x.g.ctx).tvec &&& 0x000FFFFFFFFFFF80).toNat ≠ 0 →
    let t := s.trap x cause lmask faddr
    let hpc := match x.sp.clause with
      | some c => c.hdr
      | none => x.sp.pc
    OnlyGroup s t x.gid ∧
    ∃ g sp, t.group x.gid = some g ∧ g.splits = x.g.splits.modify x.sid (fun _ => sp) ∧
      sp.pc = ((s.ctx x.g.ctx).tvec &&& 0x000FFFFFFFFFFF80).toNat ∧ sp.mask = oneLane (lowLane lmask) ∧
      sp.park = .no ∧ sp.clause = none ∧ sp.jrec = x.sp.jrec ∧
      g.handler = some ⟨x.sid, lowLane lmask, true⟩ ∧ g.readM 14 = lmask &&& widthMask x.g.width ∧
      (∀ n, n ≠ 14 → g.readM n = x.g.readM n) ∧ g.v = x.g.v ∧ g.sr = x.g.sr ∧ g.f = x.g.f ∧ g.fpstat = x.g.fpstat ∧
      g.trec0.extractLsb' 56 8 = BitVec.ofNat 8 cause ∧ g.trec0.extractLsb' 52 4 = 0 ∧
      g.trec0 &&& 0x000FFFFFFFFFFFFC = BitVec.ofNat 64 (x.sp.pc % 2 ^ 52 / 4 * 4) ∧ g.trec0.getLsbD 1 = true ∧
      g.trec1 = BitVec.ofNat 64 (x.sp.pc % 2 ^ 52 / 4 * 4) ∧ g.trec2 = x.sp.mask ∧
      g.trec3 = BitVec.ofNat 64 (hpc % 2 ^ 52 / 4 * 4) ∧ g.trec4 = BitVec.ofNat 64 (faddr % 2 ^ 52)

/-- R338, R333: a trap that cannot be delivered (TVEC is 0, or the handler itself traps) is fatal for the context with cause
0x14; a trap of another split waits while a handler runs: the split, with its lanes, stays as it stands before its instruction,
and nothing else changes. R67, R73: a trap in a queue program stops the queue: QCFG's run state ends, QSTAT.FAULT holds the code
of the cause, and the PC stands in the event log; nothing of memory or of another queue changes. The model’s choices, not the
spec’s, are: that a trap of another split stays due with the split as it stands while a handler runs (log 92, DEDUCED). -/
def Obligations.TrapsNotDelivered : Prop :=
  (
  ∀ (s : State) (x : Ex) (cause faddr : Nat) (lmask : Lanes), s.ex? = some x → x.g.isQueue = false →
    let dead := fatalOf 0x14 x.g.core x.sp.pc faddr (some x.gid) 0
    (x.g.handler = none → ((s.ctx x.g.ctx).tvec &&& 0x000FFFFFFFFFFF80).toNat = 0 →
      s.trap x cause lmask faddr = s.setFatal x.g.ctx dead) ∧
    (∀ h, x.g.handler = some h → h.sid = x.sid → s.trap x cause lmask faddr = s.setFatal x.g.ctx dead) ∧
    (∀ h, x.g.handler = some h → h.sid ≠ x.sid → s.trap x cause lmask faddr = s)) ∧
  (
  ∀ (s : State) (x : Ex) (cause faddr : Nat) (lmask : Lanes), s.ex? = some x → x.g.isQueue = true →
    let t := s.trap x cause lmask faddr
    (t.queue x.gid).run = false ∧ (t.queue x.gid).fault = queueFault cause ∧ (t.queue x.gid).waits = [] ∧
    (t.cp (x.gid / 16)).current ≠ some x.gid ∧
    t.pkg.events = s.pkg.events ++ [⟨.queueTrap, x.gid, x.sp.pc⟩] ∧
    t.mem = s.mem ∧ t.l2 = s.l2 ∧ t.cores = s.cores ∧ (∀ q, q ≠ x.gid → t.queue q = s.queue q) ∧
    ∀ n, n ≠ x.gid → t.group n = s.group n)

/-- R359, R339, R360: TRAP and BRK trap with causes 0x06 and 0x07; TRET returns from the handler: the split takes back SMASK's
lanes at RPC, the instruction there is executed for the lanes of LMASK alone, and the group has no handler; outside a handler,
and in a queue program, it traps. R358, R361, R362: LGET, LPUT and LMSK are the handler's: they read or write a register of the
lane that a uniform B names, or LMASK; outside a handler they trap. -/
def Obligations.TrapInstructions : Prop :=
  (
  ∀ (s : State) (x : Ex) (o : EOps), s.ex? = some x →
    (x.g.isQueue = false → exec (.trap o) s = .next (s.trap x 0x06 x.lanes 0) ∧ exec (.brk o) s = .next (s.trap x 0x07 x.lanes 0)) ∧
    (x.g.isQueue = true → exec (.trap o) s = .next (s.illegal x) ∧ exec (.brk o) s = .next (s.illegal x) ∧
      exec (.tret o) s = .next (s.illegal x)) ∧
    (x.g.isQueue = false → (x.inHandler && x.lastInClause) = false → exec (.tret o) s = .next (s.illegal x)) ∧
    (x.g.isQueue = false → (x.inHandler && x.lastInClause) = true →
      ∃ t g sp, exec (.tret o) s = .next t ∧ OnlyGroup s t x.gid ∧
        t.group x.gid = some g ∧ g = { x.g with handler := none, splits := x.g.splits.modify x.sid fun _ => sp } ∧
        sp.pc = (x.g.trec0 &&& 0x000FFFFFFFFFFFFC).toNat ∧ sp.mask = x.g.trec2 &&& widthMask x.g.width ∧ sp.due = some (x.g.readM 14) ∧
        sp.clause = none ∧ sp.park = .no ∧ sp.resumeAt = some (sp.pc, (x.g.trec3 &&& 0x000FFFFFFFFFFFFC).toNat))) ∧
  (
  ∀ (s : State) (x : Ex) (o : EOps), s.ex? = some x →
    let wide := o.minor.getLsbD 8
    let k : Kind := if wide then .i64 else .w32
    let b := (s.readUni x o.lit .w32 o.b).toNat % 64
    let here := x.g.isQueue = false ∧ x.inHandler = true
    let lget := here ∧ isVec o.a = true ∧ badSrc x.g k o.a = false ∧ badDst x.g wide o.d = false ∧ badUniform x.g .w32 o.b = false
    let lput := here ∧ (o.d = 0xF0 ∨ isVec o.d = true) ∧ badDst x.g wide o.d = false ∧ badUniform x.g k o.a = false ∧
      badUniform x.g .w32 o.b = false
    let lmsk := here ∧ (o.minor.toNat / 256 % 4 = 0 ∨ badUniform x.g .w32 o.b = false)
    (¬ lget → exec (.lget o) s = .next (s.illegal x)) ∧
    (lget → exec (.lget o) s = .next ((s.setGroup x.gid
        (x.g.writeDst wide o.d x.elected (if b < x.g.width then s.readSrc x o.lit k o.a b else 0))).finish x)) ∧
    (¬ lput → exec (.lput o) s = .next (s.illegal x)) ∧
    (lput → b < x.g.width →
      exec (.lput o) s = .next ((s.setGroup x.gid (x.g.writeDst wide o.d b (s.readUni x o.lit k o.a))).finish x)) ∧
    (lput → x.g.width ≤ b → exec (.lput o) s = .next (s.finish x)) ∧
    (¬ lmsk → exec (.lmsk o) s = .next (s.illegal x)) ∧
    (lmsk → exec (.lmsk o) s = .next ((s.setGroup x.gid (x.g.writeM 14 (match o.minor.toNat / 256 % 4 with
        | 0 => x.readM o.a.toNat &&& x.g.trec2
        | 1 => x.g.readM 14 &&& ~~~(oneLane b)
        | _ => if x.g.trec2.getLsbD b then x.g.readM 14 ||| oneLane b else x.g.readM 14))).finish x)))

/-- R363, R364, R373: SRD reads each system register that the issuer has, SWR writes FPSTAT, TVEC, and in a handler TREC0.RPC
and TREC2; any other register traps. PERFR reads a counter. -/
def Obligations.SystemRegisters : Prop :=
  ∀ (s : State) (x : Ex) (o : EOps), s.ex? = some x →
    let n := o.minor.toNat / 256
    let v := s.readUni x o.lit .i64 o.a
    let quiet := s.flagsDue x.gid x.g = false
    (badDst x.g true o.d = true → exec (.srd o) s = .next (s.illegal x)) ∧
    (badDst x.g true o.d = false → s.sysReg x n = none → exec (.srd o) s = .next (s.illegal x)) ∧
    (badDst x.g true o.d = false → n = 0 → ¬ quiet → exec (.srd o) s = .next s) ∧
    (badDst x.g true o.d = false → (n ≠ 0 ∨ quiet) → ∀ r, s.sysReg x n = some r →
      exec (.srd o) s = .next ((s.setGroup x.gid (x.g.writePair x o.d r)).finish x)) ∧
    ((badUniform x.g .i64 o.a = true ∨ s.sysReg x n = none) → exec (.swr o) s = .next (s.illegal x)) ∧
    (badUniform x.g .i64 o.a = false → (s.sysReg x n).isSome = true →
      (n = 0 → quiet → exec (.swr o) s = .next ((s.setGroup x.gid { x.g with fpstat :=
        (x.g.fpstat &&& ~~~(v.setWidth 32 &&& 0x3F) &&& ~~~(0x1F00 : Word)) ||| (v.setWidth 32 &&& 0x1F00) }).finish x)) ∧
      (n = 0 → ¬ quiet → exec (.swr o) s = .next s) ∧
      (n = 1 → exec (.swr o) s = .next ((s.modCtx x.g.ctx fun c => { c with tvec := v &&& 0x000FFFFFFFFFFF80 }).finish x)) ∧
      (n = 8 → x.g.handler.isSome = true → exec (.swr o) s = .next ((s.setGroup x.gid { x.g with trec0 :=
        (x.g.trec0 &&& ~~~(0x000FFFFFFFFFFFFC : Dword)) ||| (v &&& 0x000FFFFFFFFFFFFC) }).finish x)) ∧
      (n = 10 → x.g.handler.isSome = true → exec (.swr o) s = .next ((s.setGroup x.gid { x.g with
        trec2 := v &&& widthMask x.g.width }).finish x)) ∧
      ((n = 8 ∨ n = 10) → x.g.handler = none → exec (.swr o) s = .next (s.illegal x)) ∧
      (n ≠ 0 → n ≠ 1 → n ≠ 8 → n ≠ 10 → exec (.swr o) s = .next (s.illegal x))) ∧
    ((x.g.isQueue = true ∨ badDst x.g true o.d = true) → exec (.perfr o) s = .next (s.illegal x)) ∧
    (x.g.isQueue = false → badDst x.g true o.d = false →
      exec (.perfr o) s = .next ((s.setGroup x.gid (x.g.writePair x o.d (s.perfCounter x.g n))).finish x))

/-- R175, R366: RGROW within the blocks held answers at once, beyond them it waits in the core's FIFO; a request above
LAUNCH.RBMAX or out of range traps. RSHRINK gives blocks up, their registers with them; held while a load is outstanding. The
head of the FIFO is granted when the region has room. -/
def Obligations.RegisterBlocks : Prop :=
  (∀ (s : State) (x : Ex) (o : EOps), s.ex? = some x →
    (x.g.isQueue = true ∨ badCountDst x.g o.d = true ∨ badUniform x.g .w32 o.a = true) →
    exec (.rgrow o) s = .next (s.illegal x) ∧ exec (.rshrink o) s = .next (s.illegal x)) ∧
  (∀ (s : State) (x : Ex) (o : EOps), s.ex? = some x → x.g.isQueue = false → badCountDst x.g o.d = false →
    badUniform x.g .w32 o.a = false →
    let n := (s.readUni x o.lit .w32 o.a).toNat
    ((n = 0 ∨ 24 < n) → exec (.rgrow o) s = .next (s.illegal x) ∧ exec (.rshrink o) s = .next (s.illegal x)) ∧
    (0 < n → n ≤ 24 → n ≤ x.g.rblk →
      exec (.rgrow o) s = .next ((s.setGroup x.gid (x.g.writeDst false o.d 0 (BitVec.ofNat 64 x.g.rblk))).finish x)) ∧
    (n ≤ 24 → x.g.rblk < n → s.blocksAllowed x.g n = false → exec (.rgrow o) s = .next (s.illegal x)) ∧
    (n ≤ 24 → x.g.rblk < n → s.blocksAllowed x.g n = true →
      exec (.rgrow o) s = .next ((s.finish x).requestRegs x.gid x.sid x.g.core n
        (if isScalar o.d then some (o.d.toNat - 0xC0) else none) (s.parkAfter x != Park.no))) ∧
    (0 < n → n ≤ 24 → n < x.g.rblk → x.g.counter .vl ≠ 0 → exec (.rshrink o) s = .next s) ∧
    (0 < n → n ≤ 24 → n < x.g.rblk → x.g.counter .vl = 0 →
      exec (.rshrink o) s = .next ((s.setGroup x.gid ((x.g.shrink n).writeDst false o.d 0 (BitVec.ofNat 64 n))).finish x)) ∧
    (n ≤ 24 → 0 < n → x.g.rblk ≤ n →
      exec (.rshrink o) s = .next ((s.setGroup x.gid (x.g.writeDst false o.d 0 (BitVec.ofNat 64 x.g.rblk))).finish x))) ∧
  (∀ (s : State) (core : Nat) (x : Ex) (t : Nat) (d : Option Nat) (dr : Bool), s.rbHead core = some (x, t, d, dr) →
    let room := s.regBytes core + 32 * x.g.width * (t - x.g.rblk) ≤ (s.core core).poolb0 * 8192
    (¬ room → exec (.registerBlockGrant core) s = .next s) ∧
    (room → ∃ u g, exec (.registerBlockGrant core) s = .next u ∧ u.group x.gid = some g ∧ g.rblk = max t x.g.rblk ∧
      g.v = x.g.v ∧ g.m = x.g.m ∧ (u.core core).rbFifo = (s.core core).rbFifo.drop 1 ∧ u.mem = s.mem))

/-- R354, R369–R372, R374: NPBEGIN and NPEND open and close a region; YIELD marks the group; IFENCE makes every other split
fetch its clause again; ICINV drops the range's lines from the instruction caches of its scope; HALT stops its queue. -/
def Obligations.SystemControl : Prop :=
  ∀ (s : State) (x : Ex) (o : EOps), s.ex? = some x →
    (x.g.isQueue = true → exec (.npbegin o) s = .next (s.illegal x) ∧ exec (.npend o) s = .next (s.illegal x) ∧
      exec (.yield o) s = .next (s.illegal x) ∧ exec (.ifence o) s = .next (s.illegal x) ∧ exec (.icinv o) s = .next (s.illegal x)) ∧
    (badUniform x.g .w32 o.a = true → exec (.npbegin o) s = .next (s.illegal x)) ∧
    ((badUniform x.g .i64 o.a = true ∨ badUniform x.g .w32 o.b = true) → exec (.icinv o) s = .next (s.illegal x)) ∧
    (x.g.isQueue = false → badUniform x.g .w32 o.a = false →
      let n := (s.readUni x o.lit .w32 o.a).toNat
      (0 < n → n ≤ 2 ^ 20 → x.g.np = none →
        exec (.npbegin o) s = .next ((s.setGroup x.gid { x.g with np := some n }).finish x)) ∧
      ((n = 0 ∨ 2 ^ 20 < n ∨ x.g.np ≠ none) → exec (.npbegin o) s = .next (s.illegal x))) ∧
    (x.g.isQueue = false → exec (.npend o) s = .next ((s.setGroup x.gid { x.g with np := none }).finish x)) ∧
    (x.g.isQueue = false → exec (.yield o) s = .next ((s.setGroup x.gid
      { x.g with lastIssue := (s.core x.g.core).cycle, readySince := (s.core x.g.core).cycle, yielded := true,
                 yieldParked := o.minor.getLsbD 8 }).finish x)) ∧
    (x.g.isQueue = false → x.lastInClause = false → exec (.ifence o) s = .next (s.illegal x)) ∧
    (x.g.isQueue = false → x.lastInClause = true → ∃ t g, exec (.ifence o) s = .next t ∧ OnlyGroup s t x.gid ∧
      t.group x.gid = some g ∧ g.fence = s.nextId ∧ g.v = x.g.v ∧ g.sr = x.g.sr ∧ g.m = x.g.m ∧
      ∀ k sp, k ≠ x.sid → x.g.splits.find k = some sp → g.splits.find k = some sp.refetch) ∧
    (x.g.isQueue = false → badUniform x.g .i64 o.a = false → badUniform x.g .w32 o.b = false →
      let a := (s.readUni x o.lit .i64 o.a).toNat % 2 ^ 52
      let n := (s.readUni x o.lit .w32 o.b).toNat
      let cs := s.scopeCores x.g (o.minor.toNat / 256)
      (n = 0 → exec (.icinv o) s = .next (s.finish x)) ∧
      (n ≠ 0 → ∃ t, exec (.icinv o) s = .next t ∧
        (∀ c k, cs.contains c = true → t.cores.find c = some k →
          ∀ l ∈ k.icache, ¬ (l.ctx = x.g.ctx ∧ l.addr < a + n ∧ a < l.addr + 128)) ∧
        (o.minor.toNat / 256 > 3 → ∀ q k, t.cps.find q = some k →
          ∀ l ∈ k.icache, ¬ (l.ctx = x.g.ctx ∧ l.addr < a + n ∧ a < l.addr + 128)))) ∧
    ((x.g.isQueue && x.lastInClause) = false → exec (.halt o) s = .next (s.illegal x)) ∧
    ((x.g.isQueue && x.lastInClause) = true → ∃ t, exec (.halt o) s = .next t ∧ (t.queue x.gid).run = false ∧
      (t.queue x.gid).fault = 5 ∧ t.mem = s.mem ∧ t.cores = s.cores ∧ ∀ q, q ≠ x.gid → t.queue q = s.queue q)

/-- R145, R146, R335, R338, R347, R354: the events of issue. A clause starts only for a split that stands at a boundary, may
issue and is not kept back by a handler; a met counter ends a wait; a page's reply ends its park; an arithmetic notification is
delivered as an imprecise stop at the next instruction; an exceeded bound is fatal with cause 0x15. R67, R69: between clauses a
command processor selects the best of its ready contexts and starts its clause, or stops it where a notification is pending; a
busy or stopped processor, and one without a ready context, does nothing. The model’s choices, not the spec’s, are: LMASK of an
arithmetic notification (log 21, DEDUCED) and the replay of a page request at the split's next issue (log 22, DESIGN CHOICE). -/
def Obligations.IssueAndQueues : Prop :=
  (
  ∀ (s : State) (gid sid : Nat) (x : Ex), s.exOf gid sid = some x →
    (let free : Bool := match x.g.res with
        | .resident => !x.g.regain
        | _ => false
      let go := x.sp.park = .no ∧ x.sp.clause = none ∧ free = true ∧ x.g.isQueue = false ∧ s.skidLeft gid x.g = true ∧
        x.g.otherHandler sid = false ∧ (s.core x.g.core).held = false ∧ s.pkg.stopped = false
      (go → exec (.clauseStart gid sid) s = .next (s.startClause x)) ∧ (¬ go → exec (.clauseStart gid sid) s = .next s)) ∧
    (∀ c t, x.sp.park = .waitc c t →
      (x.g.counter c ≤ t → exec (.counterWaitResume gid sid) s = .next (s.finish x)) ∧
      (t < x.g.counter c → exec (.counterWaitResume gid sid) s = .next s)) ∧
    (x.sp.park = .drain →
      (x.g.flights = [] → s.scoreboard gid x.g = false → exec (.counterWaitResume gid sid) s = .next (s.unpark gid sid)) ∧
      ((x.g.flights ≠ [] ∨ s.scoreboard gid x.g = true) → exec (.counterWaitResume gid sid) s = .next s)) ∧
    (x.sp.park = .page →
      ((∀ t ∈ x.sp.tokens, t.status ≠ .pending) → exec (.pageRequestReplay gid sid) s = .next (s.unpark gid sid)) ∧
      ((∃ t ∈ x.sp.tokens, t.status = .pending) → exec (.pageRequestReplay gid sid) s = .next s)) ∧
    (∀ n c, s.issuer = some (gid, sid) → x.g.notif = some n → x.sp.clause = some c → x.g.isQueue = false →
      x.g.handler = none → x.sp.park = .no → x.sp.due ≠ some 0 → x.sp.begun = false →
      exec (.arithNotification gid) s = .next ((s.modGroup gid fun g => { g with notif := none }).deliver gid sid
        ⟨0x08, n.sub, x.sp.pc, false, n.fpc, x.sp.mask, c.hdr, 0⟩
        (if x.lanes = 0 then oneLane (lowLane x.sp.mask) else x.lanes))) ∧
    (x.g.npOver = true → ∃ t, exec (.npRegionBoundExceeded gid) s = .next t ∧
      (∃ g, t.group gid = some g ∧ g.npOver = false) ∧
      ((s.ctx x.g.ctx).fatal = none → ∃ pc, (t.ctx x.g.ctx).fatal = some (fatalOf 0x15 x.g.core pc 0 (some gid) (s.skidOf x.g))) ∧
      (∀ f, (s.ctx x.g.ctx).fatal = some f → (t.ctx x.g.ctx).fatal = some f))) ∧
  (
  ∀ (s : State) (cp : Nat),
    ((s.cpBusy cp || s.pkg.stopped) = true → exec (.queueClauseIssue cp) s = .next s) ∧
    (s.selectQueue cp = none → exec (.queueClauseIssue cp) s = .next s) ∧
    (∀ q x, (s.cpBusy cp || s.pkg.stopped) = false → s.selectQueue cp = some q → s.exOf q 0 = some x → x.g.notif = none →
      (s.queueStopped q = true → exec (.queueClauseIssue cp) s = .next (s.modQueue q fun k => { k with run := false })) ∧
      (s.queueStopped q = false → ∃ t, exec (.queueClauseIssue cp) s = .next t ∧
        (x.sp.clause.isSome = true → (t.cp cp).current = some q ∧ t.groups = s.groups ∧ t.mem = s.mem))) ∧
    (∀ q x n, (s.cpBusy cp || s.pkg.stopped) = false → s.selectQueue cp = some q → s.exOf q 0 = some x →
      x.g.notif = some n → x.sp.clause = none →
      exec (.queueClauseIssue cp) s = .next ((s.modGroup q fun g => { g with notif := none }).stopQueue q 6 n.fpc)))

/-- R222, R228, R229: a read of bytes of one line at its home gives them as every reader of the home sees them, and leaves their
sectors in the L2; a write there changes exactly these bytes and marks their sectors dirty; a line that leaves the L2, written
back or not, changes no byte, and a dirty one leaves the tag that its CMP attribute asks for. Premise: the caches are sound. -/
def Obligations.HomeMemory : Prop :=
  (∀ (s : State) (pa c : Nat) (bs : List Byte) (cmp : Bool), bs ≠ [] →
    (∀ k, k < bs.length → s.place (pa + k) = .mem (c + k)) → c / 128 = (c + bs.length - 1) / 128 → CachesSound s →
    let r := s.homeRead pa bs.length
    let t := s.homeWrite pa (bs.map some) cmp
    r.1 = (List.range bs.length).map (fun k => s.homeByte (c + k)) ∧ (∀ a, r.2.homeByte a = s.homeByte a) ∧
    (∀ k, k < bs.length → ∃ l, r.2.l2.find ((c + k) / 128) = some l ∧ l.valid.getLsbD ((c + k) % 128 / 32) = true) ∧
    (∀ k, k < bs.length → t.homeByte (c + k) = bs.getD k 0 ∧
      ∃ l, t.l2.find ((c + k) / 128) = some l ∧ l.dirty.getLsbD ((c + k) % 128 / 32) = true ∧ l.cmpw = cmp) ∧
    (∀ a, a < c ∨ c + bs.length ≤ a → t.homeByte a = s.homeByte a)) ∧
  (∀ (s : State) (line : Nat) (l : L2Line), s.l2.find line = some l → CachesSound s →
    let t := s.l2Evict line
    (∀ a, t.homeByte a = s.homeByte a) ∧ t.l2.find line = none ∧ Memory.wf t.mem = true ∧
    (l.dirty ≠ 0 → KV.get 1 t.tags line = if l.cmpw then lineTag (s.homeLine line).data else 0) ∧
    (l.dirty = 0 → t.tags = s.tags))

/-- R217, R219, R242: after a core has stored a byte under DEF or STRM, every read of that byte by the core gives it, under
whichever policy; a byte that no block of its L1 covers is read from its home and then stands in the L1, where no block is
dirty. Premises: the L1 has words, its blocks hold the bytes of their words, and the predictor's entry is a size. -/
def Obligations.OwnStores : Prop :=
  ∀ (s : State) (core idx a : Nat) (pol pol' : Policy) (cmp cmp' : Bool) (b : Byte),
    (pol = .def_ ∨ pol = .strm) → (s.core core).l1Words ≠ 0 → KV.get 8 (s.core core).pred idx ∈ [1, 2, 4, 8] →
    (∀ k ∈ (s.core core).l1, k.data.length = 4 * k.words) →
    let t := s.coreWrite core idx pol cmp a [b]
    (t.core core).l1Byte a true = some (b, false) ∧ (t.core core).l1Byte a false = some (b, false) ∧
    (t.coreRead core idx pol' cmp' a 1).bytes = [b] ∧
    ((∀ k ∈ (s.core core).l1, k.covers a = false ∧ k.dirty = 0) →
      let r := s.coreRead core idx pol cmp a 1
      r.bytes = (s.homeRead a 1).1 ∧ ((r.st.core core).l1Byte a false).map (·.1) = (s.homeRead a 1).1.head?)

/-- R173, R242: LOAD_DATA_RETURN and STORE_ACKNOWLEDGED end an operation whose parts are performed: the registers it owes are
written; its counter falls where it is the oldest operation of the counter, and waits for the older ones otherwise; the other
counters stand. Another operation is left alone. Premise: the group's operations are in order, as they then still are. -/
def Obligations.ReturnsInOrder : Prop :=
  ∀ (s : State) (gid op : Nat) (g : Group) (f : Flight), s.group gid = some g → (g.flights.find? fun k => k.id == op) = some f →
    g.FlightsInOrder →
    let runs (i : Instr) : Prop := ∃ t h, exec i s = .next t ∧ OnlyGroup s t gid ∧ t.group gid = some h ∧
      h = { g.writeRegs f.writes with flights := h.flights } ∧ h.FlightsInOrder ∧ (∀ c, c ≠ f.ctr → h.counter c = g.counter c) ∧
      ((g.flights.find? fun k => k.ctr == f.ctr) = some f → h.counter f.ctr < g.counter f.ctr ∧ ∀ k ∈ h.flights, k.id ≠ op) ∧
      ((g.flights.find? fun k => k.ctr == f.ctr) ≠ some f → h.counter f.ctr = g.counter f.ctr ∧
        ∃ k ∈ h.flights, k.id = op ∧ k.done = true)
    let ready := f.left = 0 ∧ f.done = false
    (f.ctr = .vl → ready → runs (.loadDataReturn gid op)) ∧ (f.ctr = .vs → ready → runs (.storeAcknowledged gid op)) ∧
    (¬ (f.ctr = .vl ∧ ready) → exec (.loadDataReturn gid op) s = .next s) ∧
    (¬ (f.ctr = .vs ∧ ready) → exec (.storeAcknowledged gid op) s = .next s)

/-- R173: an operation that is opened stands last and not returned, under a name of its own, so the group's operations stay in
order; a group that has none is in order. -/
def Obligations.OperationsStayInOrder : Prop :=
  (∀ g : Group, g.flights = [] → g.FlightsInOrder) ∧
  (∀ (s : State) (x : Ex) (c : Ctr) (g : Group), s.group x.gid = some g → x.sp.openOp = none → g.FlightsInOrder →
    (∀ f ∈ g.flights, f.id < s.nextId) →
    let t := (s.openFlight x c).2
    ∃ h f, t.group x.gid = some h ∧ h.flights = g.flights ++ [f] ∧ f.id = (s.openFlight x c).1 ∧ f.ctr = c ∧ f.done = false ∧
      h.FlightsInOrder ∧ h.counter c = g.counter c + 1 ∧ ∀ k ∈ h.flights, k.id < t.nextId) ∧
  (∀ (s : State) (gid id : Nat) (g : Group), s.group gid = some g → g.FlightsInOrder →
    (∃ h, (s.closeFlight gid (some id)).group gid = some h ∧ h.FlightsInOrder) ∧
    ∃ h, (s.returnFlight gid id).group gid = some h ∧ h.FlightsInOrder)

/-- R217–R222, R228, R229: the state of the caches and of memory is sound after reset, and every operation through which the
machine reaches global memory keeps it so: reads and writes at home, a line that the L2 lets go or writes back, a core's reads
and writes under every policy, its release and acquire, and blocks that leave its L1. -/
def Obligations.CachesStaySound : Prop :=
  CachesSound State.reset ∧
  ∀ s : State, CachesSound s →
    (∀ pa n, CachesSound (s.homeRead pa n).2) ∧ (∀ pa bs cmp, CachesSound (s.homeWrite pa bs cmp)) ∧
    (∀ line, CachesSound (s.l2Evict line)) ∧ (∀ line, CachesSound (s.l2Clean line)) ∧
    (∀ core idx pol cmp a n, CachesSound (s.coreRead core idx pol cmp a n).st) ∧
    (∀ core idx pol cmp a bs, CachesSound (s.coreWrite core idx pol cmp a bs)) ∧
    (∀ core scope, CachesSound (s.release core scope) ∧ CachesSound (s.acquire core scope)) ∧
    (∀ core bs, CachesSound (s.l1Leave core bs)) ∧ ∀ core hit, CachesSound (s.l1DropClean core hit)

/-- R239–R243, R245: LD, LDC, ST, PREF and TEX: the operands they refuse, the accesses of their lanes, what a lane loads into
which registers and what it stores, a lane of a replayed ST but for the bytes that a higher lane has stored before; PREF changes
no group and no local store, and, where the core's L1 holds nothing dirty, no byte of memory. The model’s choices, not the
spec’s, are: that memory is read and written in the step that issues (log 8, DESIGN CHOICE) and that PREF is refused in a queue
program (log 75, DEDUCED). -/
def Obligations.GlobalAccesses : Prop :=
  ∀ (s : State) (x : Ex), s.ex? = some x →
    (∀ o : MOps,
      let n := szBytes o.sz
      let pol := Policy.ofCode o.cp.toNat
      let each := sized n (s.laneAddrs x o)
      let once := sized n (s.onceAddr x o)
      let loadAll (u : State) (_ _ : Nat) (ps : List Piece) : Done :=
        let r := u.readPieces x pol ps
        ⟨r.st, if isVec o.d then x.list.flatMap fun l => loadWrites o.d o.sz l r.bytes else loadWrites o.d o.sz 0 r.bytes, r.bad⟩
      let badLd := badBase x.g o.a = true ∨ 0xF0 ≤ o.d.toNat ∨ badSpan x.g o.d n = true ∨
        (isScalar o.d = true ∧ isVec o.a = true)
      let badLdc := x.g.isQueue = true ∨ badBase x.g o.a = true ∨ isVec o.a = true ∨ 0xF1 ≤ o.d.toNat ∨
        (o.d ≠ 0xF0 ∧ badSpan x.g o.d n = true)
      let badSt := badBase x.g o.a = true ∨ (o.d.toNat < 0xF0 ∧ badSpan x.g o.d n = true) ∨
        (x.g.isQueue = true ∧ isUniform o.d = false)
      let badPref := x.g.isQueue = true ∨ badBase x.g o.a = true
      (badLd → exec (.ld o) s = .next (s.illegal x)) ∧
      (¬ badLd → isScalar o.d = false → Accesses (.ld o) s x .vl .read each fun u _ l ps =>
        let r := u.readPieces x pol ps
        ⟨r.st, loadWrites o.d o.sz l r.bytes, r.bad⟩) ∧
      (¬ badLd → isScalar o.d = true → Accesses (.ld o) s x .vl .read once loadAll (if isVec o.d then x.list else [])) ∧
      (badLdc → exec (.ldc o) s = .next (s.illegal x)) ∧ 
      (¬ badLdc → Accesses (.ldc o) s x .vl .read once loadAll (if isVec o.d then x.list else [])) ∧
      (badSt → exec (.st o) s = .next (s.illegal x)) ∧
      (¬ badSt → Accesses (.st o) s x .vs .write each fun u _ l ps => ⟨u.storeLane x o l ps, [], false⟩) ∧
      (∀ (u : State) (l : Nat) (ps : List Piece),
        (x.sp.openOp = none → u.storeLane x o l ps = u.writePieces x pol ps (u.storeBytes x o l)) ∧
        (x.sp.openOp ≠ none → ∀ h, l < h → h < 64 → x.sp.mask.getLsbD h = true → x.lanes.getLsbD h = false →
          u.readSrc x o.lit .i64 o.a h = u.readSrc x o.lit .i64 o.a l → u.storeLane x o l ps = u)) ∧
      (badPref → exec (.pref o) s = .next (s.illegal x)) ∧
      (¬ badPref → ∃ t, exec (.pref o) s = .next t ∧ t.groups = (s.finish x).groups ∧ t.blocks = s.blocks ∧
        (CachesSound s → (∀ b ∈ (s.core x.g.core).l1, b.dirty = 0) → ∀ a, t.homeByte a = s.homeByte a) ∧
        ∀ l a p ps, s.laneAddrs x o = [(l, a)] →
          s.fateOf x.g.core? x.g.ctx .read (s.privOf x.g) [(a / 128 * 128, 128)] = .ok (p :: ps) →
          (∃ c, s.place p.m.pa = .mem c) → (s.readPieces x pol (p :: ps)).bad = false →
          s.globalLocked x.g a 1 false = false →
          t = ((s.readPieces x pol (p :: ps)).st).finish x)) ∧
    (∀ o : EOps,
      let h := (s.readUni x o.lit .w32 o.b).toNat % 2 ^ 16
      let want := if o.minor.getLsbD 8 then 2 else 1
      let fit (e : Ste) : Bool := e.cls == 5 && [1, 2, 3, 8].contains e.fmt && e.axes == want
      ((x.g.isQueue = true ∨ texBad x.g o = true) → exec (.tex o) s = .next (s.illegal x)) ∧
      (x.g.isQueue = false → texBad x.g o = false →
        (s.entry x.g.core? x.g.ctx h = .ok none → exec (.tex o) s = .next (s.trap x 0x02 x.lanes 0)) ∧
        (∀ e, s.entry x.g.core? x.g.ctx h = .ok (some e) → fit e = false → exec (.tex o) s = .next (s.trap x 0x02 x.lanes 0)) ∧
        (∀ e, s.entry x.g.core? x.g.ctx h = .ok (some e) → fit e = true →
          let n := e.elemBits / 8
          ∃ taps : Nat → List Tap,
            (∀ l ∈ x.list, taps l = match s.texSample x o e l with
              | .taps ts => ts
              | _ => []) ∧
            Accesses (.tex o) s x .vl .read
              (x.list.map fun l => (l, (taps l).filterMap fun t => t.addr.map fun a => (a % 2 ^ 52, n))) fun u _ l ps =>
              let r := u.readPieces x .def_ ps
              ⟨r.st, (List.range 4).map fun c =>
                ⟨false, o.d.toNat + c, l, if (taps l).isEmpty then 0 else texBlend e (tapBytes n (taps l) r.bytes) c⟩, r.bad⟩)))

/-- R244: LDL and STL: the operands they refuse, their accesses, the registers LDL owes; among the bytes of a store STL leaves
those of the lane that writes last, and it changes no byte outside its lanes' bytes. The model’s choices, not the spec’s, are:
that LDL's values are read and STL's bytes written in the step that issues them (log 8, DESIGN CHOICE). -/
def Obligations.LocalLoadsAndStores : Prop :=
  ∀ (s : State) (x : Ex) (o : MOps), s.ex? = some x →
    let n := szBytes o.sz
    let badLdl := badSrc x.g .w32 o.a = true ∨ 0xF1 ≤ o.d.toNat ∨ (o.d ≠ 0xF0 ∧ badSpan x.g o.d n = true) ∨
      (isScalar o.d = true ∧ isUniform o.a = false)
    let badStl := badSrc x.g .w32 o.a = true ∨ (o.d.toNat < 0xF0 ∧ badSpan x.g o.d n = true) ∨
      (x.g.isQueue = true ∧ isUniform o.d = false)
    let os := if isScalar o.d then s.laneOffs { x with lanes := oneLane (lowLane x.lanes) } o else s.laneOffs x o
    let put (sp : List (Nat × Spot)) : State := sp.foldl (fun u e => u.lsWrite e.2.store e.2.off (u.storeBytes x o e.1)) s
    (badLdl → exec (.ldl o) s = .next (s.illegal x)) ∧
    (¬ badLdl → LocalAccesses (.ldl o) s x n false false (fun _ => true) os fun sp =>
      (s.fly x .vl (sp.flatMap fun e => loadWrites o.d o.sz e.1 (s.lsRead e.2.store e.2.off n))).finish x) ∧
    (badStl → exec (.stl o) s = .next (s.illegal x)) ∧
    (¬ badStl → LocalAccesses (.stl o) s x n true true (fun _ => true) (s.laneOffs x o) fun sp =>
      ((put sp).fly x .vs []).finish x) ∧
    (∀ (sp : List (Nat × Spot)) (st a : Nat), (∀ e ∈ sp, ¬ (e.2.store = st ∧ e.2.off ≤ a ∧ a < e.2.off + n)) →
      (((put sp).fly x .vs []).finish x).lsRead st a 1 = s.lsRead st a 1) ∧
    (∀ (sp : List (Nat × Spot)) (l : Nat) (p : Spot), (p.store < 128 ∨ (s.block p.store).isSome = true) →
      (put (sp ++ [(l, p)])).lsRead p.store p.off n = (put sp).storeBytes x o l)

/-- R313, R314, R317–R320, R299: ATOM and RED refuse and trap as the rules say, else send one request for each lane; the engine
executes the requests at each of its ports in order: at a home address the old value is read, the new one written, and no other
byte changes; a promotion writes back what the core holds narrower than DEVICE scope. R318: what the operations write. The
model’s choices, not the spec’s, are: that each port of an engine keeps one order of arrival, where R313 orders the requests of
one sector only (log 56, DESIGN CHOICE). -/
def Obligations.Atomics : Prop :=
  (∀ (s : State) (x : Ex) (o : EOps) (i : Instr), s.ex? = some x → (i = .atom o ∨ i = .red o) →
    let n := atomBytes (atomW64 o)
    let cas := atomOp o = 10
    let bad := x.g.isQueue = true ∨ badBase x.g o.a = true ∨ badAtom x.g o = true ∨
      (isScalar o.d = true ∧ (isVec o.a = true ∨ isUniform o.b = false ∨ (cas ∧ isUniform o.c = false)))
    let as := (if isScalar o.d then [lowLane x.lanes] else x.list).map fun l => (l, (s.readSrc x o.lit .i64 o.a l).toNat % 2 ^ 52)
    let odd := as.filter fun e => e.2 % n != 0
    (bad → exec i s = .next (s.illegal x)) ∧
    (¬ bad → odd ≠ [] → exec i s = .next (s.trap x 0x01 (maskOf (odd.map (·.1))) 0)) ∧
    (¬ bad → odd = [] →
      let u := if atomRel o then s.release x.g.core (atomScope o) else s
      let y := u.openAtom x o
      exec i s = .next ((y.2.laneAccess y.1 .at .atomic (sized n (groupAddrs 64 as)) fun v id l ps =>
        ⟨match ps with
          | p :: _ => v.sendAtom y.1 o id l p
          | [] => v, [], false⟩).settleAt x.gid))) ∧
  (∀ (s : State) (x : Ex) (o : EOps) (id lane : Nat) (p : Piece) (c : Nat), s.place p.m.pa = .mem c →
    ∃ q : AtomReq, ((s.sendAtom x o id lane p).die (homeDie c)).atoms = (s.die (homeDie c)).atoms ++ [q] ∧
      q.gid = x.gid ∧ q.flight = id ∧ q.addr = p.m.pa ∧ q.op = atomOp o ∧ q.w64 = atomW64 o ∧ q.lane = lane ∧
      q.rmt = o.minor.getLsbD 10 ∧ q.promoted = false ∧ q.reply = none) ∧
  (∀ (s : State) (die : Nat),
    let d := s.die die
    let held (before : List AtomReq) (q : AtomReq) : Prop :=
      (∃ r ∈ before, d.slice r.addr = d.slice q.addr) ∨ s.atomWaits d q ≠ none
    ((∀ before q after, d.atoms = before ++ q :: after → held before q ∧
        ∀ k, s.atomWaits d q = some k → k / 320 = s.pkg.pkgid ∨ q.asked = true) → exec (.atomicExecute die) s = .next s) ∧
    (∀ (before : List AtomReq) (q : AtomReq) (after : List AtomReq) (c : Nat), d.atoms = before ++ q :: after →
      (∀ b p e, before = b ++ p :: e → held b p) → ¬ held before q →
      let n := atomBytes q.w64
      (∀ k, k < n → s.place (q.addr + k) = .mem (c + k)) → CachesSound s →
      s.poisoned q.addr n = false → (∀ g, s.group q.gid = some g → g.res ≠ .evicted) →
      let old : Dword := BitVec.ofNat 64 (bytesToNat ((List.range n).map fun k => s.homeByte (c + k)))
      ∃ t, exec (.atomicExecute die) s = .next t ∧ (t.die die).atoms = before ++ after ∧
        (∀ a, a < c ∨ c + n ≤ a → t.homeByte a = s.homeByte a) ∧
        (∀ k, k < n → t.homeByte (c + k) = match (atomNew q.op q.w64 old q.b q.c).1 with
          | some v => (natToBytes n v.toNat).getD k 0
          | none => s.homeByte (c + k)))) ∧
  (∀ (s : State) (core : Nat),
    let asked (d : Die) (before : List AtomReq) (q : AtomReq) : Prop :=
      (∀ r ∈ before, d.slice r.addr ≠ d.slice q.addr) ∧ s.atomWaits d q = some (320 * s.pkg.pkgid + core)
    ((∀ e ∈ s.dies, ∀ before q after, e.2.atoms = before ++ q :: after → ¬ asked e.2 before q) →
      exec (.promotionRequest core) s = .next s) ∧
    ((∃ e ∈ s.dies, ∃ before q after, e.2.atoms = before ++ q :: after ∧ asked e.2 before q) →
      ∃ t, exec (.promotionRequest core) s = .next t ∧ (∀ b ∈ (t.core core).l1, b.dirty ≠ 0 → b.scope ≠ 1) ∧
        ∀ n d before q after, s.dies.find n = some d → d.atoms = before ++ q :: after →
          (asked d before q → (t.die n).atoms[before.length]? = some { q with promoted := true }) ∧
          (¬ asked d before q → (t.die n).atoms[before.length]? = some q))) ∧
  (∀ o b c : Word, (atomInt 0 o b c = some (o + b) ∧ atomInt 1 o b c = some (o - b) ∧ atomInt 2 o b c = some (o &&& b) ∧
    atomInt 3 o b c = some (o ||| b) ∧ atomInt 4 o b c = some (o ^^^ b) ∧
    (∃ v : Word, atomInt 5 o b c = some v ∧ v.toInt = min o.toInt b.toInt) ∧
    (∃ v : Word, atomInt 6 o b c = some v ∧ v.toInt = max o.toInt b.toInt) ∧
    (∃ v : Word, atomInt 7 o b c = some v ∧ v.toNat = min o.toNat b.toNat) ∧
    (∃ v : Word, atomInt 8 o b c = some v ∧ v.toNat = max o.toNat b.toNat) ∧ atomInt 9 o b c = some b ∧
    (o = b → atomInt 10 o b c = some c) ∧ (o ≠ b → atomInt 10 o b c = none) ∧
    atomInt 11 o b c = some (if o.toNat < b.toNat then o + 1 else 0) ∧
    atomInt 12 o b c = some (if 0 < o.toNat ∧ o.toNat ≤ b.toNat then o - 1 else b)))

/-- R304, R313, R317–R324: the tagged instructions and ATOML: what they refuse, and where their lanes act. STFF, FESET, FECLR
and FEQRY never wait; LDFE, LDFF and STFE perform the lanes whose condition holds, and their split waits for the others with
exactly these still due. The model’s choices, not the spec’s, are: that a newcomer waits behind a woken waiter and that LDFE
counts as a write (log 57, DEDUCED), and that ATOML is performed as it issues (log 8, DESIGN CHOICE). -/
def Obligations.LocalAtomicsAndTags : Prop :=
  ∀ (s : State) (x : Ex), s.ex? = some x →
    let refusal (once : Bool) : State := if once then s.illegalScalar x else s.illegal x
    (∀ o : EOps,
      let n := atomBytes (atomW64 o)
      let bad := x.g.isQueue = true ∨ badSrc x.g .w32 o.a = true ∨ badAtom x.g o = true ∨ isScalar o.d = true
      (bad → exec (.atoml o) s = .next (s.illegal x)) ∧
      (¬ bad → LocalAccesses (.atoml o) s x n true true (fun a => a % n == 0)
        (x.list.map fun l => (l, (s.readSrc x o.lit .w32 o.a l).toNat)) fun sp =>
        let u := if atomRel o then s.release x.g.core (spotScope sp) else s
        let v := sp.foldl (fun v e => v.atomLocal x o e.1 e.2) u
        let w := if atomAcq o then v.acquire x.g.core (spotScope sp) else v
        (w.passAt x).finish x)) ∧
    (∀ o : EOps,
      let wide := o.minor.getLsbD 0
      let n := if wide then 8 else 4
      let kind : Kind := if wide then .i64 else .w32
      let tag (i : Instr) (op : TagOp) : Prop :=
        (badTag x.g o (op != .stfe) = true → exec i s = .next (refusal (tagOnce x.g o))) ∧
        (badTag x.g o (op != .stfe) = false →
          LocalAccesses i s x n true (op != .ldff) (fun a => a % n == 0) (s.tagOffs x o) fun sp =>
            let u := if op != .stfe then s else s.releaseFor x.g (spotScope sp)
            let f := u.openFlight x .at
            let v := sp.foldl (fun v e => v.tagLane e.2.store
              { gid := x.gid, sid := x.sid, lane := if tagOnce x.g o then none else some e.1, op := op, off := e.2.off,
                wide := wide, data := if op != .stfe then 0 else f.2.readSrc x o.lit kind o.d e.1,
                dst := if op != .stfe && o.d != 0xF0 then some o.d.toNat else none, flight := f.1, scope := spotScope sp }) f.2
            if v.tagWaits x.gid x.sid = [] then v.endTag x.gid x.sid f.1 (spotScope sp) (op != .stfe)
            else v.modSplit x.gid x.sid fun p =>
              { p with park := .tag
                       due := if tagOnce x.g o then p.due else some (maskOf ((v.tagWaits x.gid x.sid).filterMap (·.lane))) })
      tag (.ldfe o) .ldfe ∧ tag (.ldff o) .ldff ∧ tag (.stfe o) .stfe ∧
      (badTag x.g o false = true → exec (.stff o) s = .next (refusal (tagOnce x.g o))) ∧
      (badTag x.g o false = false →
        LocalAccesses (.stff o) s x n true true (fun a => a % n == 0) (s.tagOffs x o) fun sp =>
          ((sp.foldl (fun u e => (u.lsWrite e.2.store e.2.off (natToBytes n (u.readSrc x o.lit kind o.d e.1).toNat)).setFull
            e.2.store e.2.off true) (s.releaseFor x.g (spotScope sp))).passAt x).finish x)) ∧
    (∀ o : TOps,
      let change (i : Instr) (full : Bool) : Prop :=
        (badSrc x.g .w32 o.a = true → exec i s = .next (refusal (isUniform o.a))) ∧
        (badSrc x.g .w32 o.a = false →
          LocalAccesses i s x 8 true true (fun a => a % 8 == 0) (s.feOffs x o.lit o.a (isUniform o.a)) fun sp =>
            (sp.foldl (fun u e => u.setFull e.2.store e.2.off full) s).finish x)
      change (.feset o) true ∧ change (.feclr o) false) ∧
    (∀ o : UOps,
      let once := isUniform o.a && isScalar o.d
      let bad := badSrc x.g .w32 o.a = true ∨ badDst x.g false o.d = true ∨ (isScalar o.d = true ∧ isUniform o.a = false)
      (bad → exec (.feqry o) s = .next (refusal once)) ∧
      (¬ bad → LocalAccesses (.feqry o) s x 8 true false (fun a => a % 8 == 0) (s.feOffs x o.lit o.a once) fun sp =>
        (s.modGroup x.gid fun g => sp.foldl (fun g e =>
          g.writeDst false o.d e.1 (if s.isFull e.2.store e.2.off then 1 else 0)) g).finish x))

/-- R304, R305, R174, R324: a tag belongs to one word of one store; a waiter performs its operation only where its condition
holds and it is the oldest of its word for which it does, its lane is due no longer, and the waiters of the word that are left
stay in their order. WAITC passes where the counter is at or below the threshold, and else parks the split on it. The model’s
choices, not the spec’s, are: that a newcomer waits behind a woken waiter (log 57, DEDUCED). -/
def Obligations.TaggedWaiters : Prop :=
  (∀ (s : State) (st off off' : Nat) (f : Bool), (st < 128 ∨ (s.block st).isSome = true) →
    (s.setFull st off f).isFull st off' = if off' / 8 = off / 8 then f else s.isFull st off') ∧
  (∀ (s : State) (store word : Nat), (s.woken store word = none → exec (.taggedWaitResume store word) s = .next s) ∧
    (∀ w, s.woken store word = some w →
      w.off / 8 = word ∧ w.op.holds (s.isFull store w.off) = true ∧ w ∈ s.waitsOf store ∧
      (∀ before after, s.waitsOf store = before ++ w :: after → w ∉ before →
        ∀ v ∈ before, v.off / 8 = word → v.op.holds (s.isFull store v.off) = false) ∧
      let t := ((s.doTag store w).setWaits store ((s.waitsOf store).erase w)).tagDone w
      (t.tagWaits w.gid w.sid ≠ [] → exec (.taggedWaitResume store word) s = .next t) ∧
      (t.tagWaits w.gid w.sid = [] → exec (.taggedWaitResume store word) s =
        .next (t.endTag w.gid w.sid w.flight w.scope (w.op != .stfe))) ∧
      (∀ l g sp, w.lane = some l → (s.doTag store w).group w.gid = some g → g.splits.find w.sid = some sp →
        ∃ h p, t.group w.gid = some h ∧ h.splits.find w.sid = some p ∧ p.due = sp.due.map fun m => m &&& ~~~oneLane l) ∧
      ((store < 128 ∨ (s.block store).isSome = true) →
        t.waitsOf store = (s.waitsOf store).erase w ∧
        t.isFull store w.off = (match w.op with
          | .ldfe => false
          | .ldff => s.isFull store w.off
          | .stfe => true) ∧
        (w.op = .stfe → t.lsRead store w.off (if w.wide then 8 else 4) = natToBytes (if w.wide then 8 else 4) w.data.toNat)))) ∧
  (∀ (s : State) (x : Ex) (o : WaitcOps), s.ex? = some x →
    let t := (s.readUni x o.lit .w32 o.a).toNat % 64
    let c : Ctr := if o.ctr = 0 then .vl else if o.ctr = 1 then .vs else if o.ctr = 2 then .ce else .at
    (badUniform x.g .w32 o.a = true → exec (.waitc o) s = .next (s.illegal x)) ∧
    (badUniform x.g .w32 o.a = false → x.g.counter c ≤ t ∨ t = 63 → exec (.waitc o) s = .next (s.finish x)) ∧
    (badUniform x.g .w32 o.a = false → t < x.g.counter c → t ≠ 63 → exec (.waitc o) s = .next (s.park x (.waitc c t))))

/-- R306, R307, R325–R328: an object's sixteen bytes hold its fields; an action that leaves neither arrivals nor bytes pending
ends the phase: the phase bit turns and the arrivals are reloaded with the expected count. BINIT binds an object to the lowest
free slot of its core; BARV and BARVX arrive and give the phase before; BWAIT and BTEST tell whether the phase is past. -/
def Obligations.BarrierObjects : Prop :=
  (∀ (s : State) (blk off : Nat) (b : Bar), 128 ≤ blk → (s.block blk).isSome = true → b.slot < 32 → b.expect < 65536 →
    b.pending < 65536 →
    (s.putBar blk off b).bar blk off = b ∧
    (∀ a, a < off ∨ off + 16 ≤ a → (s.putBar blk off b).lsRead blk a 1 = s.lsRead blk a 1) ∧
    (s.settle blk off b).bar blk off =
      if b.pending = 0 ∧ b.pbytes = 0 then { b with phase := !b.phase, pending := b.expect } else b) ∧
  (∀ (s : State) (x : Ex) (o : EOps), s.ex? = some x →
    (s.object x o false = none → exec (.binit o) s = .next (s.illegal x) ∧ exec (.bwait o) s = .next (s.illegal x) ∧
      exec (.btest o) s = .next (s.illegal x)) ∧
    (s.object x o true = none → exec (.barv o) s = .next (s.illegal x) ∧ exec (.barvx o) s = .next (s.illegal x)) ∧
    (∀ p, s.object x o false = some p → badUniform x.g .w32 o.b = false →
      let n := (s.readUni x o.lit .w32 o.b).toNat
      let fits := 0 < n ∧ n ≤ 65535
      let par := n % 2 = 1
      (¬ fits → exec (.binit o) s = .next (s.illegal x)) ∧
      (fits → s.isBound p.store p.off = true → s.objectNamed p.store p.off = true → exec (.binit o) s = .next (s.illegal x)) ∧
      (fits → s.isBound p.store p.off = true → s.objectNamed p.store p.off = false →
        exec (.binit o) s = .next ((s.barInit p.store p.off (s.bar p.store p.off).slot n).finish x)) ∧
      (fits → s.isBound p.store p.off = false →
        ((s.core x.g.core).freeSlot = none → exec (.binit o) s = .next (s.illegal x)) ∧
        (∀ k, (s.core x.g.core).freeSlot = some k → k < 32 ∧ (s.core x.g.core).slots.find k = none ∧
          exec (.binit o) s = .next (((s.modCore x.g.core fun c =>
            { c with slots := c.slots.insert k (p.store, p.off) }).barInit p.store p.off k n).finish x))) ∧
      (s.isBound p.store p.off = false → exec (.bwait o) s = .next (s.illegal x) ∧ exec (.btest o) s = .next (s.illegal x)) ∧
      (s.isBound p.store p.off = true →
        ((s.bar p.store p.off).phase ≠ decide par → exec (.bwait o) s = .next ((s.acquire x.g.core 1).finish x)) ∧
        ((s.bar p.store p.off).phase = decide par →
          exec (.bwait o) s = .next (s.park x (.phase (.object p.off (decide par))))) ∧
        (badDst x.g false o.d = true → exec (.btest o) s = .next (s.illegal x)) ∧
        (badDst x.g false o.d = false →
          let past := (s.bar p.store p.off).phase ≠ decide par
          exec (.btest o) s = .next (((if past then s.acquire x.g.core 1 else s).modGroup x.gid fun g =>
            g.writeOnce x o.d (if past then 1 else 0)).finish x)))) ∧
    (∀ p, s.object x o false = some p → badUniform x.g .w32 o.b = true →
      exec (.binit o) s = .next (s.illegal x) ∧ exec (.bwait o) s = .next (s.illegal x) ∧
        exec (.btest o) s = .next (s.illegal x)) ∧
    (badDst x.g false o.d = true → exec (.barv o) s = .next (s.illegal x) ∧ exec (.barvx o) s = .next (s.illegal x)) ∧
    (badUniform x.g .i64 o.b = true → exec (.barvx o) s = .next (s.illegal x)) ∧
    (∀ p i, s.object x o true = some p → badDst x.g false o.d = false →
      let n := if i = Instr.barvx o then (s.readUni x o.lit .i64 o.b).toNat else 0
      (i = .barv o ∨ (i = .barvx o ∧ badUniform x.g .i64 o.b = false)) →
      (2 ^ 55 ≤ n → exec i s = .next (s.illegal x)) ∧
      (n < 2 ^ 55 → s.present p = false → exec i s = .next s) ∧
      (n < 2 ^ 55 → s.present p = true → s.isBound p.store p.off = false → exec i s = .next (s.illegal x)) ∧
      (n < 2 ^ 55 → s.present p = true → s.isBound p.store p.off = true →
        let u := s.release x.g.core (if p.window then 2 else 1)
        let b := u.bar p.store p.off
        (b.pending = 0 → exec i s = .next (s.illegal x)) ∧
        (b.pending ≠ 0 → exec i s = .next (((u.settle p.store p.off
          { b with pending := b.pending - 1, pbytes := b.pbytes + BitVec.ofNat 56 n }).modGroup x.gid fun g =>
            g.writeOnce x o.d (if (s.bar p.store p.off).phase then 1 else 0)).finish x)))))

/-- R212, R298, R311, R312, R330, R331: CBAR.NEAR, CBAR.FAR and GBAR release, park and count as an arrival, and are refused
where not every living lane is there, where the group has arrived already, or outside a CORES launch (GBAR); EXIT takes lanes
away, and the last lane's exit counts as the group's arrival; FENCE releases, takes a number in order and acquires as its kind
says. The model’s choices, not the spec’s, are: that EXIT of a queue program ends it without a fault (log 28, DEDUCED). -/
def Obligations.GroupBarriersExitFence : Prop :=
  ∀ (s : State) (x : Ex), s.ex? = some x →
    (∀ o : EOps,
      (x.g.isQueue = true → exec (.cbarNear o) s = .next (s.illegal x) ∧ exec (.cbarFar o) s = .next (s.illegal x) ∧
        exec (.gbar o) s = .next (s.illegal x)) ∧
      (x.g.isQueue = false → x.whole = false → exec (.cbarNear o) s = .next (s.illegal x) ∧
        exec (.cbarFar o) s = .next (s.illegal x) ∧ exec (.gbar o) s = .next (s.illegal x)) ∧
      (x.g.isQueue = false → x.whole = true → ∀ cl d c, s.clusterOf x.g = some (cl, d) → s.cluster cl = some c →
        (c.near.contains x.gid = true → exec (.cbarNear o) s = .next (s.illegal x)) ∧
        (c.near.contains x.gid = false → exec (.cbarNear o) s =
          .next ((((s.release x.g.core 2).park x (.phase .near)).modCluster cl fun k =>
            { k with near := k.near ++ [x.gid] }).clusterSettle cl)) ∧
        exec (.cbarFar o) s = .next ((((s.release x.g.core 2).park x (.phase .far)).modCluster cl fun k =>
          { k with near := if k.near.contains x.gid then k.near else k.near ++ [x.gid], far := k.far ++ [x.gid] }).clusterSettle
            cl)) ∧
      (x.g.isQueue = false → x.whole = true → ∀ b r, s.block x.g.blk = some b → s.lrecOf x.g = some r →
        (r.cores = false → exec (.gbar o) s = .next (s.illegal x)) ∧
        (r.cores = true → exec (.gbar o) s = .next ((((s.release x.g.core 4).park x (.phase .grid)).modLaunch b.launch fun l =>
          { l with gbar := l.gbar ++ [x.gid] }).gridSettle b.launch)))) ∧
    (∀ m : BitVec 4,
      let u := if x.g.kind = .vertex then s.release x.g.core 4 else s
      let t := (u.goto x x.nextHeader).modGroup x.gid fun g => g.exitLanes x.sid (x.cond m)
      (x.badTransfer m = true → exec (.exit m) s = .next (s.illegal x)) ∧
      (x.badTransfer m = false →
        (t.gone x.gid = false → exec (.exit m) s = .next t) ∧
        (t.gone x.gid = true → x.g.isQueue = true → exec (.exit m) s = .next (t.queueEnds x.gid)) ∧
        (t.gone x.gid = true → x.g.isQueue = false → exec (.exit m) s = .next (t.groupEnds x)))) ∧
    (∀ o : EOps,
      let kind := o.minor.toNat / 4 % 4
      let scope := o.minor.toNat / 16 % 8
      let u := if kind = 0 then s else s.releaseFor x.g scope
      let v := match s.orderDie x.g scope with
        | some d => if kind = 3 then u.modDie d fun k => { k with scSeq := k.scSeq + 1 } else u
        | none => u
      let t := (if kind = 1 then v else v.acquireFor x.g scope).finish x
      exec (.fence o) s = .next t ∧
      (x.g.isQueue = false → 1 < scope → kind ≠ 1 → ∀ b ∈ (t.core x.g.core).l1, b.valid = b.dirty ∧ b.dirty ≠ 0) ∧
      (x.g.isQueue = false → 1 < scope → kind ≠ 0 → ∀ b ∈ (t.core x.g.core).l1, b.dirty ≠ 0 → b.scope ≠ 1))

/-- R135–R137: the decoder gives back every encodable instruction, with every operand at every value that its encoding admits,
whatever words follow it. -/
def Obligations.EncodeDecode : Prop :=
  ∀ (i : Instr) (rest : List Word), i.encodable = true → decode (encode i ++ rest) = .ok (i, (encode i).length)

/-- R135–R137, R153: what the decoder accepts is an encodable instruction, of the length that R136 gives, and the words are
exactly its encoding: no bit of them is left unread, and no two words stand for one instruction. -/
def Obligations.DecodeIsExact : Prop :=
  ∀ (ws : List Word) (i : Instr) (n : Nat), decode ws = .ok (i, n) →
    i.encodable = true ∧ n = rawLen ws ∧ n ≤ ws.length ∧ encode i = ws.take n

/-- R135–R138, R152: the words of the spec's worked examples, each the instruction that the spec writes beside it. -/
def Obligations.DecodeSamples : Prop :=
  decode [0x0004080C] = .ok (.iadd ⟨1, 2, 3, 0⟩, 1) ∧
  decode [0x2808040C, 0xF000000A] = .ok (.icmp ⟨2, 1, 3, 0xF0, 0, 0x000A, 0⟩, 2) ∧
  decode [0x70040BC0, 0xF0000241] = .ok (.cvt ⟨1, 2, 0xF0, 0xF0, 0, 0x0241, 0⟩, 2) ∧
  decode [0x740403E8] = .ok (.movi ⟨1, 1000⟩, 1) ∧
  decode [0x98D00020, 0x00000040] = .ok (.brd ⟨3, 0x20, 0x40⟩, 2) ∧
  decode [0xB0131210] = .ok (.ld ⟨4, 0xC4, 4, 0, 16, 0, 0⟩, 1) ∧
  decode [0xB4200A82] = .ok (.st ⟨8, 2, 5, 0, 2, 0, 0⟩, 1) ∧
  decode [0xCB1B0B10, 0xC8000022] = .ok (.cpy ⟨0xC6, 0xC2, 0xC4, 0xC8, 0, 0x0022, 0⟩, 2) ∧
  decode [0xD0102008, 0x0300022A] = .ok (.atom ⟨4, 8, 2, 3, 0, 0x022A, 0⟩, 2) ∧
  decode [0xD72313C0, 0xF0000001] = .ok (.ldfe ⟨0xC8, 0xC4, 0xF0, 0xF0, 0, 1, 0⟩, 2) ∧
  decode [0xDBC3FC0B, 0] = .ok (.waitc ⟨0xFF, 2, 0⟩, 2) ∧
  decode [0xDFC3C3C3, 0xF0000047] = .ok (.fence ⟨0xF0, 0xF0, 0xF0, 0xF0, 0, 0x0047, 0⟩, 2) ∧
  decode [0xE1040840] = .ok (.mma ⟨2, 8, 16, 4, 0⟩, 1) ∧
  decode [0xE4626300, 0x03F40800] = .ok (.mloop ⟨⟨0, 0xC4, 0xC6, 0, 0⟩, 0x03F40800⟩, 2) ∧
  decode [0xF0501016, 0xF0000300] = .ok (.eroute ⟨20, 4, 5, 0xF0, 0, 0x0300, 0⟩, 2) ∧
  decode [0xF7C3C3C0, 0xF0002100] = .ok (.trap ⟨0xF0, 0xF0, 0xF0, 0xF0, 0, 0x2100, 0⟩, 2) ∧
  decode [0xF723C3C0, 0xF0000006] = .ok (.srd ⟨0xC8, 0xF0, 0xF0, 0xF0, 0, 0x0006, 0⟩, 2) ∧
  decode [0xF72B1330, 0xF000000A] = .ok (.launch ⟨0xCA, 0xC4, 0xCC, 0xF0, 0, 0x000A, 0⟩, 2) ∧
  decode [0xF7C02062, 0xF000000C] = .ok (.fexport 2 ⟨0xF0, 8, 24, 0xF0, 0, 0x000C, 0⟩, 2) ∧
  (∀ k : Fin 64, fmtOf k = none → ∀ low : BitVec 26, ∃ r, decode [(BitVec.ofNat 6 k ++ low : BitVec 32)] = .error r)

/-- R145, R153, R170: a step that issues a split runs the instruction that the words at its place decode to, once the issue is
counted; words that are no instruction, or not of the clause's class, take the illegal-instruction trap in its stead; one that
is held leaves everything but the cycle counts; before a release, dirty bytes of other packages are written back. A row of the
host or of another package is refused while the package is in recovery. The issue itself names the issuer and changes no
register. The model’s choices, not the spec’s, are: the agenda's order (log 1), withFetchWord (log 2), the cycle that a held
instruction ticks (log 6) and the write-back before a release to another package (log 15), all DESIGN CHOICE. -/
def Obligations.StepRunsDecoded : Prop :=
  (∀ (s : State) (gid sid : Nat) (rest : List Happening) (x : Ex) (c : Clause),
    s.agenda = .issue gid sid :: rest →
    let u := { s with agenda := rest }
    u.exOf gid sid = some x → x.sp.clause = some c → u.mayIssue gid x.g x.sp = true →
    u.packFirst gid sid x.g = false →
    (x.g.notif = none ∨ x.g.handler ≠ none ∨ x.g.isQueue = true ∨ x.sp.begun = true) → x.sp.due ≠ some 0 →
    let base := c.next.headD 0
    (∀ e, decode c.next = .error e → step s = .next (u.trap x 0x01 x.lanes 0)) ∧
    (∀ i n, decode c.next = .ok (i, n) →
      (c.cls ≠ 7 → c.cls ≠ (classOf (wMaj base)).code → step s = .next (u.trap x 0x01 x.lanes 0)) ∧
      ((c.cls = 7 ∨ c.cls = (classOf (wMaj base)).code) →
        (u.heldAt x.gid x.g x.sid x.sp i = true → step s = .next (if x.g.isQueue then u else u.tick x.g.core 1)) ∧
        (u.heldAt x.gid x.g x.sid x.sp i = false → u.flushFirst x i = true → ∃ t, step s = .next t ∧ t.groups = s.groups ∧
          ∀ b ∈ (t.core x.g.core).l1, b.dirty ≠ 0 → b.scope ≠ 1) ∧
        (u.heldAt x.gid x.g x.sid x.sp i = false → u.flushFirst x i = false →
          step s = exec i (u.issueOf x c.next) ∧
          ∃ y, (u.issueOf x c.next).ex? = some y ∧ y.gid = gid ∧ y.sid = sid ∧ y.lanes = x.lanes ∧ y.sp.pc = x.sp.pc ∧
            y.sp.clause = some c ∧ y.g.v = x.g.v ∧ y.g.sr = x.g.sr ∧ y.g.m = x.g.m ∧ y.g.f = x.g.f ∧
            y.g.fpstat = x.g.fpstat ∧ y.g.flights = x.g.flights ∧ (u.issueOf x c.next).mem = s.mem)))) ∧
  (∀ (s : State) (i : Instr) (rest : List Happening), s.agenda = .row i :: rest → i.isHappening = true →
    let u := { s with agenda := rest }
    ((s.pkg.recovery && askedRow i) = false → step s = exec i { u with issuer := none }) ∧
    ((s.pkg.recovery && askedRow i) = true → step s = .next (u.log .firmware 1 0))) ∧
  (∀ (s : State) (nbits w : Nat) (i : Instr), decodeTableWord nbits w = some i → i.isHappening = false →
    let t := { s.withFetchWord nbits w with agenda := [] }
    ∃ x c, t.exOf 128 0 = some x ∧ x.sp.clause = some c ∧ (∃ n, decode c.next = .ok (i, n)) ∧
      ((t.mayIssue 128 x.g x.sp && !t.packFirst 128 0 x.g && !t.heldAt 128 x.g x.sid x.sp i && !t.flushFirst x i) = true →
        step (s.withFetchWord nbits w) = exec i (t.issueOf x c.next)))

/-- R386 and the reset columns of the field tables: what the machine holds after a cold start. Not the spec's but the model's
choices (logs 3 and 4) are: the three fuses of a die, the registers of a group that is placed, the empty tables. -/
def Obligations.ResetState : Prop :=
  let s := State.reset
  s.groups = [] ∧ s.blocks = [] ∧ s.launches = [] ∧ s.draws = [] ∧ s.agenda = [] ∧ s.issuer = none ∧
  (∀ a, Memory.read s.mem a = 0 ∧ s.homeByte a = 0) ∧ (∀ n, KV.get 1 s.tags n = 1) ∧ Memory.wf s.mem = true ∧
  (∀ n, (s.core n).poolb0 = 96 ∧ (s.core n).poolb1 = 96 ∧ (s.core n).poolb2 = 96 ∧ (s.core n).l1 = [] ∧
    (s.core n).icache = [] ∧ (s.core n).cycle = 0 ∧ (s.core n).perfsel = 0 ∧ (s.core n).owner = none ∧
    (s.core n).codebooks = [] ∧ (s.core n).slots = [] ∧ (∀ i, KV.get 8 (s.core n).pred i = 8)) ∧
  (∀ n, (s.die n).coreEn = 0xFFFFFFFFFF ∧ (s.die n).hashsel = 0x1000 ∧ (s.die n).slicemap = 0xFEDCBA9876543210 ∧
    (s.die n).crema = [] ∧ (s.die n).cfarea = 0 ∧ (s.die n).dierst = 0 ∧ (s.die n).rst = .idle ∧ (s.die n).clockDown = 0) ∧
  (∀ n, (s.ctx n).en = false ∧ (s.ctx n).gttb = 0 ∧ (s.ctx n).csave = 0 ∧ (s.ctx n).cfault0 = 0 ∧ (s.ctx n).stbase = 0 ∧
    (s.ctx n).stcount = 0 ∧ (s.ctx n).tvec = 0) ∧
  (∀ n, (s.queue n).en = false ∧ (s.queue n).run = false ∧ (s.queue n).fault = 0 ∧ (s.queue n).err = false ∧
    (s.queue n).ovr = false) ∧
  (∀ n, (s.vf n).httb = 0 ∧ (s.vf n).gq.base = 0 ∧ (s.vf n).hq.base = 0) ∧
  (∀ n, (s.table n).en = false ∧ (s.table n).hot = 0xFFFFFFFF ∧ (s.table n).wlen = 65536 ∧ (s.table n).maxrep = 8 ∧
    (s.table n).copymax = 1) ∧
  s.pkg.ports = [] ∧ s.pkg.linksDown = [] ∧ s.pkg.hslot = 0 ∧ s.pkg.stopped = false ∧
  (∀ a b : Fin 8, KV.get [] s.pkg.routesA (8 * a.val + b.val) = resetRoute a.val b.val)

/-- R173, R221, R247, R248, R251, R255, R256, R279, R280: CPY, CPYQ, CINV, CFLUSH, ALD and AST trap, halt or enter the queue of
their core as their checks say; with room and no handle to count, the operation stands last in the queue, its ranges stand in
the range-lock table, CE is one higher and the split goes on; without room the instruction is held. R250–R256: COPY_CHUNK
performs the next chunk of an operation whose turn it is and whose pages are there: its bytes land, the chunk is counted, and
the bytes lower the operation's barrier once its group's earlier accesses are performed, the last chunk's only when it
completes; COPY_COMPLETE gives up the ranges and the handles and lets CE fall. An operation that is not there, waits for a page,
or may not run is left alone. The model’s choices, not the spec’s, are: the chunks of a copy and that a halted chunk has written
nothing (log 61, DEDUCED). -/
def Obligations.CopyEngine : Prop :=
  (
  (∀ (s : State) (x : Ex) (kind : JobKind) (p : Plan) (bar : Option Spot), s.ex? = some x →
    let c := s.core x.g.core
    ((64 ≤ c.jobs.length ∨ 32 < c.locks.length + p.regs.length) → s.submit x kind p bar = s) ∧
    (c.jobs.length < 64 → c.locks.length + p.regs.length ≤ 32 → p.uses = [] →
      let t := s.submit x kind p bar
      (∃ j, (t.core x.g.core).jobs = c.jobs ++ [j] ∧ j.id = s.nextId ∧ j.kind = kind ∧ j.bar = bar ∧ j.gid = x.gid ∧
        j.blk = x.g.blk ∧ j.chunk = 0) ∧
      (∃ ks, (t.core x.g.core).locks = c.locks ++ ks ∧
        (ks.map fun k => (k.op, k.ctx, k.range, k.write)) = p.regs.map fun r => (s.nextId, x.g.ctx, r.range, r.write)) ∧
      (∃ g, t.group x.gid = some g ∧ g.counter .ce = x.g.counter .ce + 1 ∧ g.v = x.g.v ∧ g.sr = x.g.sr ∧ g.m = x.g.m))) ∧
  (∀ (s : State) (x : Ex) (o : EOps) (i : Instr), s.ex? = some x → x.g.isQueue = true →
    i ∈ [Instr.cpy o, .cpyq o, .cinv o, .cflush o, .ald o, .ast o] → exec i s = .next (s.illegal x)) ∧
  (∀ (s : State) (x : Ex) (o : EOps), s.ex? = some x → x.g.isQueue = false →
    let lfmt := o.minor.toNat / 32 % 16
    let dir := o.minor.toNat % 16
    let kind (pair : Bool) : Kind := if pair then .i64 else .w32
    let kd := kind ([1, 3, 4, 5, 7].contains dir)
    let ka := kind ([0, 2, 4, 5, 6].contains dir)
    let kb := kind (dir == 6)
    let bad := badUniform x.g kd o.d = true ∨ badUniform x.g ka o.a = true ∨ badUniform x.g kb o.b = true ∨
      badUniform x.g .w32 o.c = true
    let d := s.readUni x o.lit kd o.d
    let a := s.readUni x o.lit ka o.a
    let b := s.readUni x o.lit kb o.b
    let plan := s.planCopy (s.who x.g) x.g dir d a b lfmt
    (bad → exec (.cpy o) s = .next (s.illegal x)) ∧
    (¬ bad → ∀ c, plan = .error (.trap c) → exec (.cpy o) s = .next (s.trap x c x.lanes 0)) ∧
    (¬ bad → ∀ h, plan = .error (.halt h) → exec (.cpy o) s = .next (s.haltEx x h .read)) ∧
    (¬ bad → ∀ p, plan = .ok p →
      (s.barOperand x o.lit o.c = none → exec (.cpy o) s = .next (s.illegal x)) ∧
      (∀ bar, s.barOperand x o.lit o.c = some bar → exec (.cpy o) s =
        .next (s.submit x (.cpy dir d a b lfmt (o.mod.toNat / 64) (o.mod.getLsbD 5)) p bar))) ∧
    (∀ (k : Who) (g : Group) (lo sv n : Nat), lo % 16 = 0 → sv % 16 = 0 → n % 16 = 0 → lo < 2 ^ 31 → sv < 2 ^ 52 → n < 2 ^ 32 →
      lo + n ≤ s.lsBytesOf g → s.overBarrier g.blk lo n = false →
      s.planCopy k g 0 (BitVec.ofNat 64 lo) (BitVec.ofNat 64 sv) (BitVec.ofNat 64 n) 15 =
        .ok ⟨[⟨.global sv (sv + n), false, [(sv, n)]⟩, ⟨.loc g.blk lo (lo + n), true, []⟩], [], []⟩)) ∧
  (∀ (s : State) (x : Ex) (o : EOps), s.ex? = some x → x.g.isQueue = false →
    let bad := badUniform x.g .w32 o.a = true ∨ badUniform x.g .w32 o.b = true ∨ badUniform x.g .w32 o.c = true
    let a := (s.readUni x o.lit .w32 o.a).toNat
    let n := (s.readUni x o.lit .w32 o.b).toNat
    let fits := a % 32 = 0 ∧ a < 2 ^ 31 ∧ 0 < n ∧ n ≤ 256 ∧ a + 32 * n ≤ s.lsBytesOf x.g
    (bad → exec (.cpyq o) s = .next (s.illegal x)) ∧
    (¬ bad → ¬ fits → exec (.cpyq o) s = .next (s.illegal x)) ∧
    (¬ bad → fits → ∀ bar, s.barOperand x o.lit o.c = some bar →
      exec (.cpyq o) s = .next (s.submit x (.cpyq a n 0) ⟨[⟨.loc x.g.blk a (a + 32 * n), false, []⟩], [], []⟩ bar)) ∧
    (let scope := o.minor.toNat % 8
     let badM := 5 < scope ∨ badUniform x.g .i64 o.a = true ∨ badUniform x.g .w32 o.b = true
     let va := (s.readUni x o.lit .i64 o.a).toNat % 2 ^ 52
     (badM → exec (.cinv o) s = .next (s.illegal x) ∧ exec (.cflush o) s = .next (s.illegal x)) ∧
     (¬ badM →
      exec (.cinv o) s = .next (s.submit x (.cinv va (s.readUni x o.lit .w32 o.b).toNat scope (o.minor.getLsbD 3)) ⟨[], [], []⟩ none) ∧
      exec (.cflush o) s =
        .next (s.submit x (.cflush va (s.readUni x o.lit .w32 o.b).toNat scope (o.minor.getLsbD 3)) ⟨[], [], []⟩ none)))) ∧
  (∀ (s : State) (x : Ex) (o : EOps), s.ex? = some x → x.g.isQueue = false →
    let tt := o.minor.toNat / 32 % 4
    let mfmt := o.minor.toNat / 2 % 16
    let hand := o.minor.getLsbD 0
    let freq := o.minor.getLsbD 7
    let va := s.readUni x o.lit .i64 o.a
    let vd := s.readUni x o.lit .i64 o.d
    let bin := if freq then s.readUni x o.lit .w32 o.c else 0
    let badA := s.owns x = false ∨ badUniform x.g .i64 o.a = true
    let badS := s.owns x = false ∨ badUniform x.g .i64 o.d = true ∨ (freq = true ∧ badUniform x.g .w32 o.c = true)
    (badA → exec (.ald o) s = .next (s.illegal x)) ∧ (badS → exec (.ast o) s = .next (s.illegal x)) ∧
    (¬ badA → (∀ n, s.planAld (s.who x.g) x.g hand va tt o.d.toNat mfmt = .error n → exec (.ald o) s = .next (s.nope x n)) ∧
      ∀ p, s.planAld (s.who x.g) x.g hand va tt o.d.toNat mfmt = .ok p →
        exec (.ald o) s = .next (s.submit x (.ald (sideOf hand va).1 (sideOf hand va).2 x.g.quad o.d.toNat tt mfmt
          (o.mod.toNat / 64)) p none)) ∧
    (¬ badS → (∀ n, s.planAst (s.who x.g) x.g hand vd tt o.a.toNat mfmt freq bin = .error n → exec (.ast o) s = .next (s.nope x n)) ∧
      ∀ p, s.planAst (s.who x.g) x.g hand vd tt o.a.toNat mfmt freq bin = .ok p →
        exec (.ast o) s = .next (s.submit x (.ast (sideOf hand vd).1 (sideOf hand vd).2 x.g.quad o.a.toNat tt mfmt
          (o.mod.toNat / 64) (o.mod.getLsbD 5) (if freq then some ((o.minor.extractLsb' 8 8).toInt, bits bin 7 0) else none)
          ((List.range 256).map fun k => (s.core x.g.core).tileVal (tt == 1 || tt == 3) x.g.quad o.a.toNat (k / 16) (k % 16)))
          p none)))) ∧
  (
  (∀ (s : State) (core id : Nat), (s.core core).job id = none → exec (.copyChunk core id) s = .next s ∧
    exec (.copyComplete core id) s = .next s) ∧
  (∀ (s : State) (core id : Nat) (j : Job), (s.core core).job id = some j →
    (((s.core core).mayRun id = false ∨ anyPending j.tokens = true) → exec (.copyChunk core id) s = .next s ∧
      exec (.copyComplete core id) s = .next s) ∧
    ((s.core core).mayRun id = true → anyPending j.tokens = false →
      (anyInvalid j.tokens = true → exec (.copyChunk core id) s = .next (s.invalidEngine j.ctx core j.blk j.pc j.tokens)) ∧
      (anyInvalid j.tokens = false → j.owed ≠ 0 → j.over = false → exec (.copyChunk core id) s = .next (
        if s.lowerReady j.gid id then (s.modJob core id fun k => { k with owed := 0 }).lowerFor core j.bar j.owed else s)) ∧
      (anyInvalid j.tokens = false → (j.owed = 0 ∨ j.over = true) →
        (∀ off n next, j.kind = .cpyq off n next →
          (n ≤ next → exec (.copyChunk core id) s = .next s) ∧
          (next < n → j.entry = none → exec (.copyChunk core id) s = .next (s.startEntry core j off next))) ∧
        ((∀ off n next, j.kind ≠ .cpyq off n next) → ∀ n, jobChunks j.descs j.kind = .ok n →
          (n ≤ j.chunk → exec (.copyChunk core id) s = .next s) ∧
          (j.chunk < n → ∀ h, s.jobPart (j.who core) j.descs core j.blk j.kind j.chunk = .error h →
            exec (.copyChunk core id) s = .next (s.haltJob core j h)) ∧
          (j.chunk < n → ∀ r, s.jobPart (j.who core) j.descs core j.blk j.kind j.chunk = .ok r →
            let put (owed : Nat) : State := ((r.st.count core 8).took core id).modJob core id fun k =>
              { k with chunk := k.chunk + 1, started := true, tokens := [], flags := k.flags ||| r.flags, owed := owed }
            exec (.copyChunk core id) s = .next (
              if j.chunk + 1 = n then put r.bytes
              else if r.st.lowerReady j.gid id then (put 0).lowerFor core j.bar r.bytes
              else put (if j.bar.isSome then r.bytes else 0))))) ∧
      ((j.over = false ∨ (j.bar ≠ none ∧ s.lowerReady j.gid id = false)) → exec (.copyComplete core id) s = .next s) ∧
      (j.over = true → (j.bar = none ∨ s.lowerReady j.gid id = true) → anyInvalid j.tokens = false →
        ∀ u, s.addUse (some core) j.ctx false j.uses = .ok u →
        let born := ((u.group j.gid).bind fun g => g.flights.find? fun f => f.id == id).map (·.born)
        exec (.copyComplete core id) s = .next (((((u.unlock core id).addFlags j.gid j.pc j.flags born).returnFlight j.gid
          id).modCore core fun c => { c with jobs := c.jobs.filter fun k => k.id != id }).lowerFor core j.bar j.owed)))) ∧
  (∀ (s u : State) (k : Who) (core blk c : Nat) (ds : KV (List Dword)) (dst src len : Dword) (lfmt : Nat) (mode : RMode)
      (sat : Bool) (bs : List Byte),
    let n := min 1024 (len.toNat % 2 ^ 32 - 1024 * c)
    (s.engineRead k (src.toNat % 2 ^ 52 + 1024 * c) n (some false) = .ok (bs, u) →
      ∃ r, s.copyPart k ds core blk 0 dst src len lfmt mode sat c = .ok r ∧ r.bytes = n ∧ r.flags = 0 ∧
        r.st = u.lsWrite blk (dst.toNat % 2 ^ 32 + 1024 * c) bs) ∧
    (s.engineWrite k .write (dst.toNat % 2 ^ 52 + 1024 * c) (s.lsRead blk (src.toNat % 2 ^ 32 + 1024 * c) n) (some false) = .ok u →
      ∃ r, s.copyPart k ds core blk 1 dst src len lfmt mode sat c = .ok r ∧ r.bytes = n ∧ r.flags = 0 ∧ r.st = u)))

/-- R57–R65, R257–R260: HALLOC, HFREE and SSTE refuse their operands or park on the serialiser of their context, which takes one
operation at a time in order of arrival, answers with the status of R258 and R260, waits while USE is not 0 (HFREE), and frees
the tiles of a freed entry. -/
def Obligations.SurfaceTable : Prop :=
  (∀ (s : State) (x : Ex) (o : EOps), s.ex? = some x →
    (x.g.isQueue = true → exec (.halloc o) s = .next (s.illegal x) ∧ exec (.hfree o) s = .next (s.illegal x) ∧
      exec (.sste o) s = .next (s.illegal x)) ∧
    (x.g.isQueue = false →
      let off := (s.readUni x o.lit .w32 o.a).toNat
      let h := (s.readUni x o.lit .w32 o.a).toNat % 2 ^ 16
      let offB := (s.readUni x o.lit .w32 o.b).toNat
      let badA := badUniform x.g .w32 o.a = true
      let badB := badUniform x.g .w32 o.b = true
      let badD := o.d ≠ 0xF0 ∧ isScalar o.d = false
      let dst : Option Nat := if isScalar o.d then some (o.d.toNat - 0xC0) else none
      ((badD ∨ badA) → exec (.halloc o) s = .next (s.illegal x)) ∧
      (¬ badD → ¬ badA → s.image x.g off = none → exec (.halloc o) s = .next (s.illegal x)) ∧
      (¬ badD → ¬ badA → ∀ img, s.image x.g off = some img →
        exec (.halloc o) s = .next (s.tableOp x 0 0 img 0xFF dst)) ∧
      (badA → exec (.hfree o) s = .next (s.illegal x)) ∧
      (¬ badA → ∀ z, s.toUpdate x.g.core? x.g.ctx h = .error z → exec (.hfree o) s = .next (s.haltEx x z .hw)) ∧
      (¬ badA → s.toUpdate x.g.core? x.g.ctx h = .ok () → s.entry x.g.core? x.g.ctx h = .ok none → exec (.hfree o) s = .next (s.trap x 0x02 x.lanes 0)) ∧
      (¬ badA → s.toUpdate x.g.core? x.g.ctx h = .ok () → ∀ e, s.entry x.g.core? x.g.ctx h = .ok (some e) → exec (.hfree o) s = .next (s.tableOp x 1 h [] 0 none)) ∧
      ((badD ∨ badA ∨ badB) → exec (.sste o) s = .next (s.illegal x)) ∧
      (¬ badD → ¬ badA → ¬ badB → ∀ img, s.image x.g offB = some img → s.toUpdate x.g.core? x.g.ctx h = .ok () →
        (s.entry x.g.core? x.g.ctx h = .ok none → exec (.sste o) s = .next (s.trap x 0x02 x.lanes 0)) ∧
        (∀ e, s.entry x.g.core? x.g.ctx h = .ok (some e) → exec (.sste o) s =
          .next (s.tableOp x 2 h img (o.minor.extractLsb' 0 8) dst))))) ∧
  (∀ (s : State) (x : Ex) (kind h : Nat) (img : List Dword) (mask : BitVec 8) (dst : Option Nat), s.ex? = some x →
    let t := s.tableOp x kind h img mask dst
    (t.ctx x.g.ctx).tableOps = (s.ctx x.g.ctx).tableOps ++ [⟨x.gid, x.sid, kind, h, img, mask, dst⟩] ∧
    ∃ y, t.ex? = some y ∧ y.sp = { x.sp with park := .table }) ∧
  (∀ (s : State) (ctx : Nat),
    let pop (u : State) : State := u.modCtx ctx fun c => { c with tableOps := c.tableOps.drop 1 }
    ((s.ctx ctx).tableOps = [] → exec (.surfaceTableOpApply ctx) s = .next s) ∧
    (∀ op rest x, (s.ctx ctx).tableOps = op :: rest → s.exOf op.gid op.sid = some x →
      let r := if op.kind = 0 then s.applyHalloc x.g.core? ctx (s.cremaNow x.g.core) op.image
        else if op.kind = 1 then s.applyHfree x.g.core? ctx op.handle
        else s.applySste x.g.core? ctx op.handle op.image op.mask
      (∀ h, r = .error h → exec (.surfaceTableOpApply ctx) s = .next ((pop s).haltEx x h .hw)) ∧
      (r = .ok .wait → exec (.surfaceTableOpApply ctx) s = .next s) ∧
      (∀ c, r = .ok (.trap c) → exec (.surfaceTableOpApply ctx) s = .next ((pop s).trap x c x.lanes 0)) ∧
      (∀ u d, r = .ok (.done u d) → exec (.surfaceTableOpApply ctx) s = .next ((pop (match op.dst with
        | some n => u.modGroup x.gid fun g => g.writeS n (BitVec.ofNat 32 d)
        | none => u)).finish x)))) ∧
  (∀ (s : State) (core : Option Nat) (ctx h now : Nat) (img : List Dword) (e : Ste),
    ((∃ k, k < 8 ∧ img.getD k 0 &&& steReserved.getD k 0 ≠ 0) → s.applyHalloc core ctx now img = .ok (.done s 0x40000)) ∧
    ((∀ k, k < 8 → img.getD k 0 &&& steReserved.getD k 0 = 0) → (Ste.ofDwords img).reservedValue = false →
      (Ste.ofDwords img).sch = 0 → (Ste.ofDwords img).legal = false → s.applyHalloc core ctx now img = .ok (.done s 0x20000)) ∧
    (∀ z, s.toUpdate core ctx h = .error z → s.applyHfree core ctx h = .error z) ∧
    (s.toUpdate core ctx h = .ok () → s.entry core ctx h = .ok (some e) → e.use ≠ 0 → s.applyHfree core ctx h = .ok .wait) ∧
    (s.toUpdate core ctx h = .ok () → s.entry core ctx h = .ok (some e) → e.use = 0 →
      ∀ u, s.putEntry core ctx h { e with cls := 0, version := (e.version + 1) % 65536 } = .ok u →
        s.applyHfree core ctx h = .ok (.done (u.freeTiles ctx h) 0)) ∧
    (∀ d t, t ∈ ((s.freeTiles ctx h).die d).tiles → ¬ (t.ctx = ctx ∧ t.handle = h)))

/-- R234–R238: Carafe spills only where room is asked for in the bank and only a tile that may go, the one whose last access
lies furthest in the past; it returns a tile that an engine waits for, into a free run of its bank, where its stream's bytes
stand afterwards, and fails its owner where the stream holds an uncorrectable error. The model’s choices, not the spec’s, are:
the age of a tile by its core's cycle count (log 24, DEDUCED), core 0 in the fault of an owner (log 25) and the lowest free run
(log 26), both DESIGN CHOICE. -/
def Obligations.Carafe : Prop :=
  (∀ (s : State) (die bank : Nat),
    (s.roomAsked die bank = false → exec (.carafeSpill die bank) s = .next s) ∧
    (s.roomAsked die bank = true → s.canSpill die bank = true → ∃ t, s.victim die bank = some t ∧
      t ∈ (s.die die).tiles ∧ s.eligible die bank t = true ∧
      (∀ u ∈ (s.die die).tiles, s.eligible die bank u = true → t.last < u.last ∨ (t.last = u.last ∧ t.slot ≤ u.slot)) ∧
      exec (.carafeSpill die bank) s = .next (s.spill die t))) ∧
  (∀ (s : State) (die bank far : Nat),
    ((∀ t ∈ (s.die die).tiles, ¬ (t.bank = bank ∧ t.away = true ∧ t.far = far ∧ t.wanted = true)) →
      exec (.carafeReturn die bank far) s = .next s) ∧
    (∀ t slot, ((s.die die).tiles.find? fun k => k.bank == bank && k.away && k.far == far && k.wanted) = some t → t.tokens = [] →
      (s.die die).freeRun bank t.units = some slot →
      let o := (s.die die).areaBase + 128 * far
      ((∃ k, k < 128 * t.farUnits ∧ s.badByte (o + k) = true) →
        exec (.carafeReturn die bank far) s = .next (s.engineFatal t.ctx 0 0 0x11 0)) ∧
      ((∀ k, k < 128 * t.farUnits → s.badByte (o + k) = false) →
        ∀ u, s.noteTile t (fun m => { m with away := false, slot := slot }) (· - 1) = .ok u →
          let bs := expandStream (fun a n => s.mem.readN (o + a) n) t.bytes
          exec (.carafeReturn die bank far) s = .next ((u.modTile die t fun r =>
            { r with away := false, slot := slot, far := 0, farUnits := 0, wanted := false, tokens := [] }).modDie die fun d =>
              d.cremaWrite (524288 * bank + 64 * slot) bs)))) ∧
  (∀ (d : Die) (bank n slot : Nat), d.freeRun bank n = some slot → slot + n ≤ 8192 ∧
    ∀ t ∈ d.tiles, t.bank = bank → t.away = false → slot + n ≤ t.slot ∨ t.slot + t.units ≤ slot)

/-- R176, R177, R261, R265–R268, R277, R278: what the instructions on descriptors, codebooks, scales and tiles refuse and leave;
MACQ's request, MREL, and the grant of the unit to the first team all of whose members have asked for it and are there. -/
def Obligations.TilesAndMatrixUnit : Prop :=
  (∀ (s : State) (x : Ex) (o : EOps), s.ex? = some x →
    (x.g.isQueue = true → ∀ i ∈ [Instr.fbld o, .cbld o, .scpf o, .aclr o, .asatr o, .amov o, .macq o, .mrel o],
      exec i s = .next (s.illegal x)) ∧
    (x.g.isQueue = false →
      let core := x.g.core
      let c := s.core core
      (o.minor.getLsbD 0 = true → o.d ≠ 0xF0 → (isScalar o.d = false ∨ o.d.getLsbD 0 = true) → exec (.fbld o) s = .next (s.illegal x)) ∧
      (o.minor.getLsbD 0 = true → (o.d = 0xF0 ∨ (isScalar o.d = true ∧ o.d.getLsbD 0 = false)) →
        exec (.fbld o) s = .next ((s.setGroup x.gid (x.g.writeDst true o.d 0 (x.g.readF o.a.toNat))).finish x)) ∧
      (o.minor.getLsbD 0 = false → badUniform x.g .i64 o.a = true → exec (.fbld o) s = .next (s.illegal x)) ∧
      (o.minor.getLsbD 0 = false → badUniform x.g .i64 o.a = false → ∃ t g, exec (.fbld o) s = .next t ∧
        OnlyGroup s t x.gid ∧ t = (s.setGroup x.gid g).finish x ∧ g = { x.g with f := g.f } ∧
        ∀ n, g.readF n = if n = o.d.toNat then s.readUni x o.lit .i64 o.a else x.g.readF n) ∧
      (let slot := o.minor.toNat / 256 % 16
       let loc := (s.readUni x o.lit .w32 o.a).toNat
       let va := (s.readUni x o.lit .i64 o.a).toNat % 2 ^ 52
       let fits := loc % 32 = 0 ∧ loc < 2 ^ 31 ∧ loc + 32 ≤ s.lsBytesOf x.g
       let put (u : State) (bs : List Byte) : State := (u.modCore core fun c => c.loadCodebook slot x.g.ctx bs).finish x
       (o.minor.getLsbD 0 = true → (badUniform x.g .w32 o.a = true ∨ ¬ fits) → exec (.cbld o) s = .next (s.illegal x)) ∧
       (o.minor.getLsbD 0 = true → badUniform x.g .w32 o.a = false → fits →
        s.localLocked x.g ⟨x.g.blk, loc, false⟩ 32 false = false → exec (.cbld o) s = .next (put s (s.lsRead x.g.blk loc 32))) ∧
       (o.minor.getLsbD 0 = false → (badUniform x.g .i64 o.a = true ∨ va % 32 ≠ 0) → exec (.cbld o) s = .next (s.illegal x)) ∧
       (o.minor.getLsbD 0 = false → badUniform x.g .i64 o.a = false → va % 32 = 0 → s.globalLocked x.g va 32 false = false →
        ∀ bs u, s.engineRead (s.who x.g) va 32 (some false) = .ok (bs, u) → exec (.cbld o) s = .next (put u bs)) ∧
       ∀ bs, (c.loadCodebook slot x.g.ctx bs).codebook x.g.ctx slot =
         some ((List.range 16).map fun k => BitVec.ofNat 16 (bytesToNat ((bs.drop (2 * k)).take 2)))) ∧
      (let tid := o.minor.toNat % 4096
       let a := (s.readUni x o.lit .w32 o.a).toNat % 2 ^ 24
       let n := (s.readUni x o.lit .w32 o.b).toNat
       let bad := badUniform x.g .w32 o.a = true ∨ badUniform x.g .w32 o.b = true ∨ n = 0 ∨ 4096 < n
       (o.minor.getLsbD 15 = true → exec (.scpf o) s = .next ((s.modCore core fun c =>
         { c with scc := c.scc.filter fun e => !(e.ctx == x.g.ctx && e.tid == tid) }).finish x)) ∧
       (o.minor.getLsbD 15 = false → bad → exec (.scpf o) s = .next (s.illegal x)) ∧
       (o.minor.getLsbD 15 = false → ¬ bad → exec (.scpf o) s = .next ((s.prefetch (s.who x.g) core tid
         (((List.range n).map fun k => (a + k) % 2 ^ 24 / 16).eraseDups)).finish x))) ∧
      (s.owns x = false → ∀ i ∈ [Instr.aclr o, .asatr o, .amov o], exec i s = .next (s.illegal x)) ∧
      (s.owns x = true → ∃ t, exec (.aclr o) s = .next t ∧ ∀ q k m n, k < 8 → m < 16 → n < 16 →
        (t.core core).tile q k m n =
          if q = x.g.quad ∧ o.minor.getLsbD (8 + k) = true then 0 else c.tile q k m n) ∧
      (s.owns x = true → badDst x.g false o.d = true → exec (.asatr o) s = .next (s.illegal x)) ∧
      (s.owns x = true → badDst x.g false o.d = false →
        let u := s.modGroup x.gid fun g => g.writeOnce x o.d ((c.satcntOf x.g.quad (o.a.toNat % 8)).setWidth 64)
        exec (.asatr o) s = .next ((if o.minor.getLsbD 1 then u.modCore core fun k => k.clearSat x.g.quad (o.a.toNat % 8)
          else u).finish x)) ∧
      (let into := o.minor.getLsbD 0
       let wide := o.minor.getLsbD 1
       let v := (if into then o.a else o.d).toNat
       let k := (if into then o.d else o.a).toNat % 8
       let tiles := x.g.width = 32 ∧ ¬ (wide = true ∧ k % 2 = 1)
       let drop := into = false ∧ v = 0xF0
       let fits := tiles ∧ v < 192 ∧ v % 8 = 0 ∧ v + (if wide then 16 else 8) ≤ 8 * x.g.rblk
       (s.owns x = true → (¬ tiles ∨ (¬ drop ∧ ¬ fits)) → exec (.amov o) s = .next (s.illegal x)) ∧
       (s.owns x = true → tiles → drop → exec (.amov o) s = .next (s.finish x)) ∧
       (s.owns x = true → fits → into = true → ∃ t, exec (.amov o) s = .next t ∧ t.group x.gid = (s.finish x).group x.gid ∧
        ∀ l i, l < 32 → i < 8 → (t.core core).tileVal wide x.g.quad k (l % 16) (8 * (l / 16) + i) =
          if wide then x.g.readV64 (v + 2 * i) l else (x.g.readV (v + i) l).setWidth 64) ∧
       (s.owns x = true → fits → into = false → ∃ t g, exec (.amov o) s = .next t ∧ OnlyGroup s t x.gid ∧
        t = (s.modGroup x.gid fun _ => g).finish x ∧ g = { x.g with v := g.v } ∧ ∀ l i, l < 32 → i < 8 →
          (if wide then g.readV64 (v + 2 * i) l else (g.readV (v + i) l).setWidth 64) =
            c.tileVal wide x.g.quad k (l % 16) (8 * (l / 16) + i))) ∧
      (let mask : BitVec 32 := (s.readUni x o.lit .w32 o.a).setWidth 32
       let mine (t : Team) : Bool := t.has x.g.blk x.g.num
       let bad := badUniform x.g .w32 o.a = true ∨ s.badTeam x mask = true
       (bad → exec (.macq o) s = .next (s.illegal x)) ∧
       (¬ bad → (∃ t, c.owner = some t ∧ mine t = true) → exec (.macq o) s = .next (s.finish x)) ∧
       (¬ bad → (∀ t, c.owner = some t → mine t = false) → c.teams.any mine = false →
        exec (.macq o) s = .next ((s.modCore core fun k => { k with teams := k.teams ++ [⟨x.g.blk, mask, [x.g.num], []⟩] }).park x
          .matrix)) ∧
       (¬ bad → (∀ t, c.owner = some t → mine t = false) → c.teams.any mine = true → ∃ t y, exec (.macq o) s = .next t ∧
        t.ex? = some y ∧ y.sp.park = .matrix ∧ ∀ m ∈ (t.core core).teams, mine m = true → x.g.num ∈ m.arrived)) ∧
      exec (.mrel o) s = .next (((s.modCore core fun k =>
        { k with owner := k.owner.map fun t => t.leave x.g.blk x.g.num }).freeUnit core).finish x))) ∧
  (∀ (s : State) (core : Nat),
    let u := s.freeUnit core
    let ready (t : Team) : Prop := ∀ n ∈ t.members, n ∈ t.arrived ∧ u.memberHere t n = true
    ((u.core core).owner ≠ none → exec (.matrixUnitGrant core) s = .next u) ∧
    ((u.core core).teams = [] → exec (.matrixUnitGrant core) s = .next u) ∧
    (∀ t rest, (u.core core).owner = none → (u.core core).teams = t :: rest →
      (¬ ready t → exec (.matrixUnitGrant core) s = .next u) ∧
      (ready t → ∃ v, exec (.matrixUnitGrant core) s = .next v ∧ (v.core core).owner = some t ∧ (v.core core).teams = rest ∧
        (v.core core).tileBlk = some t.blk ∧ v.mem = s.mem)))

/-- R42, R261–R264, R269–R276, R281, R282: MMA, MLOOP and CMMA check and enter their arrays and sequencers; a step waits for its
shares, its pages and the ranges before it, and writes every element of its tile with one exact sum of the terms and the old
value, rounded once, and no other tile. -/
def Obligations.MatrixSteps : Prop :=
  (∀ (c : Core) (i : StepIn), i.tile < 8 → (i.acc = 0 → i.tile % 2 = 0) →
    let wide := i.acc == 0
    let term (m n : Nat) : List (List FV) := (i.rows.getD m []).map fun t => t.2 ++ (i.cols.getD n #[]).getD t.1 []
    (∀ m n, m < 16 → n < 16 → (c.step i).1.tileVal wide i.quad i.tile m n =
      (if wide then (stepElem i.acc (c.tileVal wide i.quad i.tile m n) (term m n)).1
       else ((stepElem i.acc (c.tileVal wide i.quad i.tile m n) (term m n)).1.setWidth 32).setWidth 64)) ∧
    (∀ q k m n, k < 8 → m < 16 → n < 16 → (q = i.quad → k ≠ i.tile ∧ (wide = true → k ≠ i.tile + 1)) →
      (c.step i).1.tile q k m n = c.tile q k m n)) ∧
  (∀ (s : State) (x : Ex) (o : XOps), s.ex? = some x →
    (x.g.isQueue = true → exec (.mma o) s = .next (s.illegal x)) ∧
    (x.g.isQueue = false →
      (∀ n, s.planMma x o = .error n → exec (.mma o) s = .next (s.nope x n)) ∧
      (s.planMma x o = .ok () →
        let descA := x.g.readF o.f.toNat
        let descB := x.g.readF (o.f.toNat ^^^ 1)
        let team := o.flags.getLsbD 0
        let sp := o.flags.toNat / 2
        let c := s.core x.g.core
        let h : Share :=
          { gid := x.gid, quad := x.g.quad, acc := o.acc.toNat, descA := descA, pc := x.sp.pc
            fa := x.g.capture o.a.toNat (fragRegsA (Fbd.of descA).fmt sp)
            fb := x.g.capture o.b.toNat (fragRegsB (Fbd.of descB).fmt sp team), born := x.g.icount
            regs := [(o.a.toNat, fragRegsA (Fbd.of descA).fmt sp), (o.b.toNat, fragRegsB (Fbd.of descB).fmt sp team)] }
        (team = true → c.joinStep x.g.blk x.g.ctx descB sp h = none → exec (.mma o) s = .next (s.illegal x)) ∧
        (team = true → ∀ k, c.joinStep x.g.blk x.g.ctx descB sp h = some k →
          exec (.mma o) s = .next ((s.setCore x.g.core k).finish x)) ∧
        (team = false → exec (.mma o) s = .next (((s.finish x).setCore x.g.core
          { c with teamSteps := c.teamSteps ++ [⟨1, x.g.blk, x.g.ctx, descB, sp, [h], []⟩] }).runStep x.g.core
            c.teamSteps.length))))) ∧
  (∀ (s : State) (core : Nat),
    let ready (t : TeamStep) : Bool := t.shares.length == t.need && !anyPending t.tokens
    ((∀ t ∈ (s.core core).teamSteps, ready t = false) → exec (.teamStep core) s = .next s) ∧
    (∀ before t after, (s.core core).teamSteps = before ++ t :: after → (∀ b ∈ before, ready b = false) → ready t = true →
      (anyInvalid t.tokens = true →
        exec (.teamStep core) s = .next (s.invalidEngine t.ctx core t.blk ((t.shares.map (·.pc)).headD 0) t.tokens)) ∧
      (anyInvalid t.tokens = false → exec (.teamStep core) s = .next (s.runStep core before.length)))) ∧
  (∀ (s : State) (x : Ex) (p : Plan) (q : SeqOp), s.ex? = some x →
    let c := s.core x.g.core
    (32 < c.locks.length + p.regs.length → s.sequence x p q = s) ∧
    (c.locks.length + p.regs.length ≤ 32 → p.uses = [] →
      ((s.sequence x p q).core x.g.core).seqs = c.seqs ++ [{ q with id := s.nextId, uses := [], descs := p.descs }] ∧
      ∃ ks, ((s.sequence x p q).core x.g.core).locks = c.locks ++ ks ∧
        (ks.map fun k => (k.op, k.ctx, k.range, k.write)) = p.regs.map fun r => (s.nextId, x.g.ctx, r.range, r.write))) ∧
  (∀ (s : State) (x : Ex) (o : MloopOps), s.ex? = some x →
    let va := s.readUni x 0 .i64 o.x.a
    let vb := s.readUni x 0 .i64 o.x.b
    let team := o.x.flags.getLsbD 0
    let sp := o.x.flags.toNat / 2
    let descB := x.g.readF (o.x.f.toNat ^^^ 1)
    let bad := x.g.isQueue = true ∨ badPair x.g o.x.a = true ∨ badPair x.g o.x.b = true
    let differs := team = true ∧ ∃ q ∈ (s.core x.g.core).seqs, q.team = true ∧
      ¬ (q.pairB = vb ∧ q.stepWord = o.step ∧ q.sp = sp ∧ q.descB = descB)
    (bad → exec (.mloop o) s = .next (s.illegal x)) ∧
    (¬ bad → ∀ n, s.planLoop x o va vb = .error n → exec (.mloop o) s = .next (s.nope x n)) ∧
    (¬ bad → ∀ p, s.planLoop x o va vb = .ok p →
      (differs → exec (.mloop o) s = .next (s.illegal x)) ∧
      (¬ differs → exec (.mloop o) s = .next (s.sequence x p
        { id := 0, gid := x.gid, ctx := x.g.ctx, blk := x.g.blk, quad := x.g.quad, acc := o.x.acc.toNat, complex := false,
          team := team, sp := sp, pairA := va, pairB := vb, descA := x.g.readF o.x.f.toNat, descB := descB,
          stepWord := o.step, bin := 0, steps := o.step.toNat / 2 ^ 20 + 1, rank := if team then s.teamRank x.g else 0,
          pc := x.sp.pc, born := x.g.icount })))) ∧
  (∀ (s : State) (x : Ex) (o : EOps), s.ex? = some x →
    let va := s.readUni x o.lit .i64 o.a
    let vb := s.readUni x o.lit .i64 o.b
    let c : Word := (s.readUni x o.lit .w32 o.c).setWidth 32
    let bad := x.g.isQueue = true ∨ badUniform x.g .i64 o.a = true ∨ badUniform x.g .i64 o.b = true ∨
      badUniform x.g .w32 o.c = true ∨ o.d.getLsbD 0 = true
    let J := c.toNat / 2 ^ 16
    (bad → exec (.cmma o) s = .next (s.illegal x)) ∧
    (¬ bad → ∀ n, s.planCmma x va vb c = .error n → exec (.cmma o) s = .next (s.nope x n)) ∧
    (¬ bad → ∀ p, s.planCmma x va vb c = .ok p → exec (.cmma o) s = .next (s.sequence x p
      { id := 0, gid := x.gid, ctx := x.g.ctx, blk := x.g.blk, quad := x.g.quad, acc := o.d.toNat % 8, complex := true,
        team := false, sp := 0, pairA := va, pairB := vb, descA := 0, descB := 0, stepWord := BitVec.ofNat 32 J,
        bin := c.toNat % 256, steps := (J + 7) / 8, pc := x.sp.pc, born := x.g.icount }))) ∧
  (∀ (s : State) (core quad : Nat),
    ((s.core core).seqOf quad = none → exec (.mloopStep core quad) s = .next s ∧ exec (.cmmaStep core quad) s = .next s) ∧
    (∀ q, (s.core core).seqOf quad = some q →
      let qs := if q.team then (s.core core).seqs.filter fun r => r.team && r.blk == q.blk else [q]
      (q.complex = true → exec (.mloopStep core quad) s = .next s) ∧ (q.complex = false → exec (.cmmaStep core quad) s = .next s) ∧
      (q.complex = false → ((q.team = true ∧ qs.length < 4) ∨ (s.core core).seqWaits qs = true) →
        exec (.mloopStep core quad) s = .next s) ∧
      (q.complex = false → ¬ (q.team = true ∧ qs.length < 4) → (s.core core).seqWaits qs = false →
        (∀ r ∈ qs, anyInvalid r.tokens = false) →
        (∀ u, s.loopSteps core qs = .ok u → exec (.mloopStep core quad) s = .next u) ∧
        (∀ h, s.loopSteps core qs = .error h → exec (.mloopStep core quad) s = .next (s.haltSeq core q h))) ∧
      (q.complex = true → (s.core core).seqWaits [q] = true → exec (.cmmaStep core quad) s = .next s) ∧
      (q.complex = true → (s.core core).seqWaits [q] = false → anyInvalid q.tokens = false →
        (∀ u, s.cmmaPart core q = .ok u → exec (.cmmaStep core quad) s = .next u) ∧
        (∀ h, s.cmmaPart core q = .error h → exec (.cmmaStep core quad) s = .next (s.haltSeq core q h)))))

/-- R281, R283–R285: XFWD, XINV and XSCL enter the Grinders as their checks say, with their window registered; they raise no
counter, and their split goes on; XDOM reads the domain and exponent of one tile; GRINDER_COMPLETE writes the tiles, hands over
the flags, gives up the range and the handle and lowers the barrier by the bytes of the tiles. -/
def Obligations.SpectralInstructions : Prop :=
  (∀ (s : State) (x : Ex) (o : EOps) (i : Instr) (op : Nat), s.ex? = some x →
    ((i = .xfwd o ∧ op = 0) ∨ (i = .xinv o ∧ op = 1) ∨ (i = .xscl o ∧ op = 3)) →
    let bad := x.g.isQueue = true ∨ badUniform x.g .i64 o.a = true ∨ badUniform x.g .w32 o.b = true ∨
      badUniform x.g .w32 o.c = true ∨ (op = 3 ∧ badUniform x.g .w32 o.d = true)
    let va := s.readUni x o.lit .i64 o.a
    let wh : Word := (s.readUni x o.lit .w32 o.b).setWidth 32
    let d : Word := if op = 3 then (s.readUni x o.lit .w32 o.d).setWidth 32 else 0
    (bad → exec i s = .next (s.illegal x)) ∧
    (¬ bad → ∀ n, s.planGrind (s.who x.g) va wh op = .error n → exec i s = .next (s.nope x n)) ∧
    (¬ bad → ∀ p, s.planGrind (s.who x.g) va wh op = .ok p →
      (s.barOperand x o.lit o.c = none → exec i s = .next (s.illegal x)) ∧
      (∀ bar, s.barOperand x o.lit o.c = some bar →
        ((s.core x.g.core).room 1 = false → exec i s = .next s) ∧
        ((s.core x.g.core).room 1 = true → ∀ u, s.addUse (some x.g.core) x.g.ctx true p.uses = .ok u → ∃ t q,
          exec i s = .next t ∧ t.grinds.find u.nextId = some q ∧ q.gid = x.gid ∧ q.core = x.g.core ∧ q.op = op ∧
          (q.h, q.p, q.x0, q.y0) = winParts va ∧ q.w = wh.toNat % 2 ^ 16 ∧ q.ht = wh.toNat / 2 ^ 16 ∧ q.d = d.toInt ∧
          q.bar = bar ∧ q.uses = p.uses ∧ q.descs = p.descs ∧ t.groups = (u.finish x).groups ∧
          (∀ g, u.group x.gid = some g → ∃ h, t.group x.gid = some h ∧ ∀ c, h.counter c = g.counter c) ∧
          ∃ ks, (t.core x.g.core).locks = (u.core x.g.core).locks ++ ks ∧
            (ks.map fun k => (k.op, k.ctx, k.range, k.write)) = p.regs.map fun r => (u.nextId, x.g.ctx, r.range, r.write))))) ∧
  (∀ (s : State) (x : Ex) (o : EOps), s.ex? = some x →
    let bad := x.g.isQueue = true ∨ badUniform x.g .i64 o.a = true ∨ badDst x.g false o.d = true
    let v := s.readUni x o.lit .i64 o.a
    let h := v.toNat % 2 ^ 16
    let p := v.toNat / 2 ^ 16 % 2 ^ 16
    let tx := v.toNat / 2 ^ 32 % 2 ^ 16 / 8
    let ty := v.toNat / 2 ^ 48 / 8
    let put (n : Nat) : State := (s.modGroup x.gid fun g => g.writeOnce x o.d (BitVec.ofNat 64 n)).finish x
    (bad → exec (.xdom o) s = .next (s.illegal x)) ∧
    (¬ bad → ∀ n, s.spectral (s.who x.g) h = .error n → exec (.xdom o) s = .next (s.nope x n)) ∧
    (¬ bad → ∀ e, s.spectral (s.who x.g) h = .ok e →
      let out := tilesAlong e.dim0 ≤ tx ∨ tilesAlong e.dim1 ≤ ty ∨ e.planes ≤ p
      (out → exec (.xdom o) s = .next (put 0)) ∧
      (¬ out → ∀ t, s.tmap (s.who x.g).core (s.who x.g).ctx e (e.tileIdx p tx ty) = .ok t →
        exec (.xdom o) s = .next (put ((t.exp % 256).toNat + (if t.freq then 256 else 0) + (if t.away then 1024 else 0)))))) ∧
  (∀ (s : State) (op : Nat),
    (s.grinds.find op = none → exec (.grinderComplete op) s = .next s) ∧
    (∀ q, s.grinds.find op = some q →
      ((anyPending q.tokens = true ∨ (s.core q.core).blocked op op = true ∨ (q.bar ≠ none ∧ s.lowerReady q.gid op = false)) →
        exec (.grinderComplete op) s = .next s) ∧
      (anyPending q.tokens = false → (s.core q.core).blocked op op = false → (q.bar = none ∨ s.lowerReady q.gid op = true) →
        (anyInvalid q.tokens = true →
          exec (.grinderComplete op) s = .next (s.invalidEngine q.ctx q.core q.blk q.pc q.tokens)) ∧
        (anyInvalid q.tokens = false →
          let k := s.whoOf q.core q.ctx q.gid
          ∀ e u v fl n, descOf q.descs q.h = .ok e → s.grindWork k q = .ok (u, fl, n) →
            u.addUse k.core q.ctx false q.uses = .ok v →
            exec (.grinderComplete op) s = .next ((List.range n).foldl (fun w _ => w.lowerFor q.core q.bar (8 * e.elemBits))
              ((({ v with grinds := v.grinds.erase op }).unlock q.core op).addFlags q.gid q.pc fl (some q.born)))))))

/-- R105, R108–R111, R119, R286–R290: EROUTE, EDONE, EQRY and EMERGE: the operands, tables and lanes they refuse, and what they
do: a routed token goes to the LIVE replica that its value picks, is counted, and gets the descriptor of R286; EDONE lowers the
counts it names, and never below 0; a merge waits in the engine of its table. An entry's 32 bytes hold its fields. R107, R110,
R112–R119: Barista's own work: the writes of BTCTL, BTCMD and BTEXCL, windows, copies, publications, failures, retirements,
notices and merges. An event that is not due leaves the machine as it is; one that needs memory goes on once its page is there.
The model’s choices, not the spec’s, are: Barista's rights (log 31), commands that meet unmapped memory (log 32) or a disabled
table (log 79), the policy of a window (log 58), EXCL and FAIL (log 78), HOLD (log 80), the force-retire of an absent replica
(log 81), notices (log 86), the read-back of a refreshed replica (log 96) (all DEDUCED) and COPYMAX and refreshes (log 98,
DESIGN CHOICE). -/
def Obligations.ExpertEngine : Prop :=
  (
  (∀ (s : State) (x : Ex) (o : EOps), s.ex? = some x →
    let T := o.minor.toNat / 256 % 16
    let t := s.table T
    (x.g.isQueue = true → ∀ i ∈ [Instr.eroute o, .edone o, .eqry o, .emerge o], exec i s = .next (s.illegal x)) ∧
    (x.g.isQueue = false →
      let retry := o.minor.getLsbD 1
      let badR := (o.d ≠ 0xF0 ∧ isVec o.d = false) ∨ badDst x.g true o.d = true ∨ badSrc x.g .w32 o.a = true ∨ badSrc x.g .w32 o.b = true ∨
        (retry = true ∧ badSrc x.g .w32 o.c = true)
      let badD := badSrc x.g .i64 o.a = true
      let once := isScalar o.d
      let badQ := badDst x.g true o.d = true ∨ badSrc x.g .i64 o.a = true ∨
        (once = true ∧ isUniform o.a = false)
      let ls := if once then [lowLane x.lanes] else x.list
      let desc (l : Nat) : Dword := s.readSrc x o.lit .i64 o.a l
      let expert (l : Nat) : Nat := (s.readSrc x o.lit .w32 o.b l).toNat
      let serves := t.en = true ∧ t.ctx = x.g.ctx
      let badExp (ls : List Nat) : List Nat := ls.filter fun l => match descExpert (desc l) with
        | some e => t.nexp < e
        | none => true
      (badR → exec (.eroute o) s = .next (s.illegal x)) ∧ (badD → exec (.edone o) s = .next (s.illegal x)) ∧
      (badQ → exec (.eqry o) s = .next (s.illegal x)) ∧
      (¬ serves → (¬ badR → exec (.eroute o) s = .next (s.illegal x)) ∧ (¬ badD → exec (.edone o) s = .next (s.illegal x)) ∧
        (¬ badQ → exec (.eqry o) s = .next (s.illegal x)) ∧ exec (.emerge o) s = .next (s.illegal x)) ∧
      (¬ badR → serves →
        let far := x.list.filter fun l => t.nexp < expert l
        (far ≠ [] → exec (.eroute o) s = .next (s.trap x 0x01 (maskOf far) 0)) ∧
        (far = [] → s.expReach T x.g.core (x.list.map expert) = none →
          let f := (s.registerCore T x.g.core).openFlight x .at
          let ws : List RouteWait := x.list.map fun l =>
            { gid := x.gid, flight := f.1, lane := l, token := (f.2.readSrc x o.lit .w32 o.a l).setWidth 32, expert := expert l,
              minver := if retry then some ((f.2.readSrc x o.lit .w32 o.c l).setWidth 32) else none, dst := o.d.toNat }
          exec (.eroute o) s = .next ((((((f.2.routeAll T x.g.core false ws).acquire x.g.core 5).closeFlight x.gid
            (some f.1)).settleAt x.gid)).finish x))) ∧
      (¬ badD → serves →
        (badExp x.list ≠ [] → exec (.edone o) s = .next (s.trap x 0x01 (maskOf (badExp x.list)) 0)) ∧
        (badExp x.list = [] →
          let u := s.modTable T fun t => x.list.foldl (fun t l => t.lower (bits (desc l) 43 32) (bits (desc l) 46 44))
            { t with under := false }
          let v := (if (u.table T).under then u.log .barista T 14 else u).modTable T fun k => { k with under := k.under || t.under }
          exec (.edone o) s = .next ((((v.freeSlots T (v.table T).freeing).reroute T).passAt x).finish x))) ∧
      (¬ badQ → serves →
        (badExp ls ≠ [] → exec (.eqry o) s = .next (s.trap x 0x01 (maskOf (badExp ls)) 0)) ∧
        (badExp ls = [] → s.expReach T x.g.core (ls.map fun l => bits (desc l) 43 32) = none →
          exec (.eqry o) s = .next ((((s.countReads x.g.core ls.length).acquire x.g.core 5).modGroup x.gid fun g =>
            ls.foldl (fun g l => g.writeDst true o.d l
              (match s.expBytes t ⟨some x.g.core, x.g.ctx, true⟩ .read (bits (desc l) 43 32) with
                | .ok bs => eqryOf (desc l) (ExpEntry.of bs)
                | .error _ => 0)) g).finish x))) ∧
      (let e := (s.readUni x o.lit .w32 o.a).toNat
       ((badUniform x.g .w32 o.a = true ∨ t.train = false) → exec (.emerge o) s = .next (s.illegal x)) ∧
       (badUniform x.g .w32 o.a = false → t.train = true → serves → t.nexp < e → x.list = [] →
        exec (.emerge o) s = .next (s.illegal x)) ∧
       (badUniform x.g .w32 o.a = false → t.train = true → serves → t.nexp < e → x.list ≠ [] →
        exec (.emerge o) s = .next (s.trap x 0x01 (maskOf x.list) 0)) ∧
       (badUniform x.g .w32 o.a = false → t.train = true → serves → e ≤ t.nexp →
        exec (.emerge o) s = .next (((s.openFlight x .at).2.modTable T fun k =>
          { k with merges := k.merges ++ [⟨x.gid, (s.openFlight x .at).1, e, x.sp.pc⟩] }).finish x)))) ∧
    (x.g.isQueue = false → ∀ T' core e i w u, s.snapshot T' core w.expert = .ok (e, u) →
      (e.inState 1)[w.token.toNat % (e.inState 1).length]? = some i →
      let waits := (∃ v, w.minver = some v ∧ verAtLeast e.version v = false) ∨ ((u.table T').ctr w.expert).isClosed i = true ∨
        32767 ≤ ((u.table T').ctr w.expert).inflOf i
      (waits → s.routeOnce T' core w false = .ok (none, u)) ∧
      (¬ waits → s.routeOnce T' core w false = .ok (some (routeDesc w.expert i e),
        u.modTable T' fun k => k.modCtr w.expert fun c => c.routed i)))) ∧
  (∀ (e : ExpEntry), e.reps.length = 8 → (∀ r ∈ e.reps, r.state < 4 ∧ r.die < 8 ∧ r.slot < 4096) → ExpEntry.of e.bytes = e) ∧
  (∀ (e : ExpEntry) (n i : Nat), n < 4096 → i < 8 → (e.rep i).die < 8 → (e.rep i).slot < 4096 →
    let d := routeDesc n i e
    bits d 61 50 = (e.rep i).slot ∧ bits d 49 47 = (e.rep i).die ∧ bits d 46 44 = i ∧ descExpert d = some n ∧
    d.setWidth 32 = e.version) ∧
  routeDesc 5 2 ⟨42, 0, [⟨0, 0, 0⟩, ⟨0, 0, 0⟩, ⟨1, 6, 0⟩]⟩ = 0x000320050000002A ∧
  (∀ (t : ExpTable) (e i j : Nat), i < ((t.ctr e).infl).length →
    ((t.ctr e).inflOf i = 0 → (t.lower e i) = { t with under := true }) ∧
    ((t.ctr e).inflOf i ≠ 0 → ((t.lower e i).ctr e).inflOf i = (t.ctr e).inflOf i - 1 ∧
      (j ≠ i → ((t.lower e i).ctr e).inflOf j = (t.ctr e).inflOf j)))) ∧
  (
  ∀ (s : State) (T : Nat),
    let t := s.table T
    let clear := anyPending t.tokens = false ∧ anyInvalid t.tokens = false
    let own (r : Except Halt State) : State := match r with
      | .ok u => u.modTable T fun k => { k with tokens := [] }
      | .error h => s.haltTable T 0 h
    (∀ v : Dword,
      ((t.en = true ∨ v.getLsbD 63 = false) → exec (.btctlEnable T v) s = .next s) ∧
      (t.en = false → v.getLsbD 63 = true →
        let k := t.config v
        let u := s.modTable T fun _ => k
        (∀ e, u.firstBadEntry k (List.range (k.nexp + 1)) [] = some e → ∃ w, exec (.btctlEnable T v) s = .next w ∧
          (w.table T).en = false ∧ (w.table T).badexp = e) ∧
        (u.firstBadEntry k (List.range (k.nexp + 1)) [] = none → ∃ w : State, exec (.btctlEnable T v) s =
            .next ((w.reroute T).log .barista T 5) ∧
          (w.table T).en = true ∧ (w.table T).ctrs = [] ∧ (w.table T).regs = [] ∧ (w.table T).win = 0 ∧ (w.table T).notices = [] ∧
          (w.table T).drains = [] ∧ (w.table T).freeing = [] ∧ (w.table T).waits = t.waits)) ∧
      ((t.en = false ∨ v.getLsbD 63 = true) → exec (.btctlDisable T v) s = .next s) ∧
      (t.en = true → v.getLsbD 63 = false →
        let u := (s.modTable T fun k => { k with en := false, hold := v.getLsbD 61 }).abandon T t.copies
        exec (.btctlDisable T v) s = .next ((u.freeSlots T (u.table T).freeing).log .barista T 6)) ∧
      ((t.hold = true ∨ v.getLsbD 61 = false) → exec (.btctlHold T v) s = .next s) ∧
      (t.hold = false → v.getLsbD 61 = true → exec (.btctlHold T v) s =
        .next (((s.modTable T fun k => { (if k.en then k else k.config v) with hold := true }).abandon T
          (t.copies.filter fun c => !c.refresh)).log .barista T 7)) ∧
      (∃ w, exec (.btexclClear T v) s = .next w ∧ (w.table T).excl = t.excl &&& ~~~(v.setWidth 8) ∧
        ∀ d, d < t.fail.length → (w.table T).fail.getD d 0 =
          if v.getLsbD d = true ∧ t.excl.getLsbD d = true then 0 else t.fail.getD d 0)) ∧
    (∀ e i, ((t.en = false ∨ t.nexp < e ∨ i = 0 ∨ 7 < i) → exec (.btcmdForceRetire T e i) s = .next s) ∧
      (t.en = true → e ≤ t.nexp → 0 < i → i ≤ 7 →
        exec (.btcmdForceRetire T e i) s = .next ((s.orLog T (s.forceRetire T e i)).log .barista T 1)) ∧
      ((t.drains.find? fun d => d.expert == e && d.rep == i) = none →
        exec (.replicaRetire T e i) s =
          .next (if t.en then s else s.freeSlots T (t.freeing.filter fun p => p == (e, i)))) ∧
      (∀ d, (t.drains.find? fun d => d.expert == e && d.rep == i) = some d → clear →
        let acked := ∀ n ∈ t.notices, ¬ (n.expert = e ∧ n.version = d.version)
        (t.en = true → ¬ (acked ∧ (t.ctr e).inflOf i = 0) → exec (.replicaRetire T e i) s = .next s) ∧
        ((t.en = false ∨ (acked ∧ (t.ctr e).inflOf i = 0)) →
          exec (.replicaRetire T e i) s = .next (own (s.retire T e i true))))) ∧
    (∀ e, ((t.en = false ∨ t.nexp < e) → exec (.btcmdRefresh T e) s = .next s) ∧
      (t.en = true → e ≤ t.nexp → ∀ x, s.expEntry t e = .ok x →
        (((x.inState 1).filter fun i => i != 0) = [] → exec (.btcmdRefresh T e) s = .next s) ∧
        (∀ i rest, ((x.inState 1).filter fun i => i != 0) = i :: rest → ∃ w c, exec (.btcmdRefresh T e) s = .next w ∧
          (w.table T).copies = t.copies ++ [c] ∧ c.id = s.nextId ∧ c.expert = e ∧ c.rep = i ∧ c.die = (x.rep i).die ∧
          c.slot = (x.rep i).slot ∧ c.refresh = true ∧ c.rest = rest ∧ c.chunk = 0))) ∧
    (((t.en = false ∨ t.windowLoad < t.curWlen) → exec (.windowEnd T) s = .next s) ∧
      (t.en = true → t.curWlen ≤ t.windowLoad → clear → exec (.windowEnd T) s = .next (own
        (match s.dieLoads t (List.range (t.nexp + 1)) with
          | .error h => .error h
          | .ok w => ((s.modTable T fun k =>
              { k with ctrs := k.ctrs.map fun _ c => { c with load := 0, rload := List.replicate 8 0 }
                       win := k.win + 1, curWlen := k.wlen, curHot := k.hot, curCold := k.cold, curMaxrep := k.maxrep
                       curCopymax := k.copymax }).log .barista T 13).windowDecide T t.ctrs (List.range (t.nexp + 1)) w)))) ∧
    (∀ id, (t.copy id = none → exec (.replicaCopyChunk T id) s = .next s ∧ exec (.replicaPublish T id) s = .next s ∧
        exec (.replicaCopyFail T id) s = .next s) ∧
      (∀ c, t.copy id = some c →
        ((c.failed = true ∨ c.abandoned = true) → exec (.replicaCopyChunk T id) s = .next s ∧
          exec (.replicaPublish T id) s = .next s) ∧
        (c.failed = false → c.abandoned = false → c.tokens = [] →
          let core := (s.firstCore c.die).getD 0
          let k : Who := ⟨some core, t.ctx, true⟩
          let o := 65536 * c.chunk
          ∀ n x src dst, s.slotChunks t = .ok n → s.expEntry t c.expert = .ok x →
            s.slotAddr t (x.rep 0).die (x.rep 0).slot = .ok src → s.slotAddr t c.die c.slot = .ok dst →
            (n ≤ c.chunk → exec (.replicaCopyChunk T id) s = .next s) ∧
            (c.chunk < n → c.refresh = false →
              ([src + o, src + o + 65535, dst + o, dst + o + 65535].all fun a => s.beanAt t.ctx a) = false →
              exec (.replicaCopyChunk T id) s = .next (s.modCopy T id fun c => { c with abandoned := true })) ∧
            (c.chunk < n →
              (c.refresh = true ∨ ([src + o, src + o + 65535, dst + o, dst + o + 65535].all fun a => s.beanAt t.ctx a) = true) →
              let u := (s.register k core id [⟨.global (src + o) (src + o + 65536), false, [(src + o, 65536)]⟩,
                ⟨.global (dst + o) (dst + o + 65536), true, [(dst + o, 65536)]⟩]).unlock core id
              ∀ bs v w, u.engineRead k (src + o) 65536 = .ok (bs, v) → v.engineWrite k .write (dst + o) bs = .ok w →
                exec (.replicaCopyChunk T id) s = .next (w.modCopy T id fun c =>
                  { c with chunk := c.chunk + 1, crc := crcBytes c.crc bs, tokens := [] }))) ∧
        (c.failed = false → c.abandoned = false → anyPending c.tokens = false → anyInvalid c.tokens = true →
          exec (.replicaPublish T id) s = .next (s.modCopy T id fun c => { c with failed := true, tokens := [] })) ∧
        (c.failed = false → c.abandoned = false → c.tokens = [] → clear → ∀ ok u, s.verify T c = .ok (ok, u) →
          (ok = false → exec (.replicaPublish T id) s = .next (own (.ok s))) ∧
          (ok = true → c.refresh = true → ∀ w, u.refreshOn T c true = .ok w →
            exec (.replicaPublish T id) s = .next (own (.ok w))) ∧
          (ok = true → c.refresh = false → ∀ x v, u.expEntry (u.table T) c.expert = .ok x →
            u.putExp (u.table T) c.expert (x.setRep c.rep ⟨1, c.die, c.slot⟩) = .ok v →
            exec (.replicaPublish T id) s = .next (own (.ok (((v.modTable T fun k =>
              { (k.modCtr c.expert fun m => { m with closed := m.closed.set c.rep false }) with
                copies := k.copies.filter fun m => m.id != id }).notify T c.expert (x.version + 1)).log .barista T 10))))) ∧
        (clear → ∀ n, s.slotChunks t = .ok n →
          (c.abandoned = true → ∀ w, s.dropCopy T c = .ok w → exec (.replicaCopyFail T id) s = .next (own (.ok w))) ∧
          (c.abandoned = false → c.failed = true → c.refresh = false →
            ∀ w, ((s.modTable T fun k => k.countFail c.die).log .barista T 2).dropCopy T c = .ok w →
            exec (.replicaCopyFail T id) s = .next (own (.ok w)))))) ∧
    (∀ core,
      let k := 320 * s.pkg.pkgid + core
      ((t.notices.find? fun n => n.core == k) = none → exec (.versionNotice T core) s = .next s) ∧
      (∀ n, (t.notices.find? fun n => n.core == k) = some n →
        (∀ l, n.owed = some l →
          exec (.versionNotice T core) s = .next (if ∀ f ∈ l, f ∉ s.stillRouting T core n.expert then
            s.modTable T fun k => { k with notices := k.notices.erase n } else s)) ∧
        (n.owed = none → t.waits = [] → ∃ w, exec (.versionNotice T core) s = .next w ∧
          (∀ c ∈ (w.core core).experts, ¬ (c.table = T ∧ c.expert = n.expert)) ∧
          (w.table T).notices = (t.notices.map fun m => if m = n then { m with owed := some [] } else m).erase
            { n with owed := some [] }))) ∧
    (t.merges = [] → exec (.mergeComplete T) s = .next s) ∧
    (∀ m rest, t.merges = m :: rest → clear → ∀ x u fl, s.expEntry t m.expert = .ok x → s.mergeWork T m.expert = .ok (u, fl) →
      exec (.mergeComplete T) s = .next (own (.ok ((((u.modTable T fun k => { k with merges := rest }).notify T m.expert
        (x.version + 1)).log .barista T 12).returnPart m.gid m.flight [] fl)))) ∧
    (∀ h gs, mergeElem h gs = gs.foldl (fun r g =>
      ((FF.fp32.add .rne (FF.fp32.decode r.1) (FF.fp32.decode g)).bits,
        r.2 ||| (FF.fp32.add .rne (FF.fp32.decode r.1) (FF.fp32.decode g)).flags)) (h, 0)))

/-- R50–R52, R84, R85, R90: what the checks of a launch record answer. A record at an address that is no multiple of 128 gives
code 1; no code is above 9; code 0 says that the record holds every condition of checks 1–6 and 9, and that its bindings number
NBIND. R84, R85: the number of blocks that the boundaries of a launch are computed for is the largest that its three conditions
admit; the register and local-store parts hold that many blocks, and the L1 part takes the rest up to 96. The model’s choices,
not the spec’s, are: the lowest code of several failed checks, and the codes of NBIND, TASKPTR, ENTRY and RBINIT (log 35,
DEDUCED). -/
def Obligations.LaunchRecordChecks : Prop :=
  (
  ∀ (s : State) (k : Who) (va : Nat) (c : Checked) (t : State), s.checkLaunch k va = .ok (c, t) →
    (va % 128 ≠ 0 → c.code = 1) ∧ c.code ≤ 9 ∧
    (c.code = 0 → va % 128 = 0 ∧
      let r := c.lrec
      0 < r.lanes ∧ r.lanes ≤ 1024 ∧ r.lanes % r.width = 0 ∧ r.lanes / r.width ≤ 32 ∧ 0 < r.blocks ∧ r.gdx % r.clsize = 0 ∧
      1 ≤ r.rbinit ∧ r.rbinit ≤ r.rbmax ∧ r.rbmax ≤ 24 ∧ r.rbinit ≤ c.rbeff ∧ c.rbeff ≤ r.rbmax ∧
      r.lsbytes ≤ 262144 ∧ r.lsbytes % 16 = 0 ∧ r.nbind ≤ 8 ∧ r.ctx = k.ctx ∧ c.kinds.length = r.nbind ∧
      (r.pb2 ≠ 0 → r.pb0 ≤ r.pb1 ∧ r.pb1 ≤ r.pb2 ∧ r.pb2 ≤ 96 ∧ r.lanes * c.rbeff * 32 ≤ r.pb0 * 8192 ∧
        r.lsbytes ≤ (r.pb1 - r.pb0) * 8192 ∧ c.bounds = (r.pb0, r.pb1, r.pb2)) ∧
      (r.pb2 = 0 → r.bounds c.rbeff = some c.bounds))) ∧
  (
  ∀ r : LRec, 0 < r.groups →
    (∀ rb, r.fits rb (r.most rb) = true ∧ ∀ n, r.fits rb n = true → n ≤ r.most rb) ∧
    (∀ rb n, r.fits rb n = true ↔
      n * r.groups ≤ 64 ∧ n * ((r.groups + 3) / 4) ≤ 16 ∧
        (n * rb + 8191) / 8192 + (n * ((r.lsbytes + 1023) / 1024 * 1024) + 8191) / 8192 ≤ 88) ∧
    (r.pb2 = 0 → ∀ rbeff,
      let full := r.lanes * r.rbmax * 32
      let rb := if r.most full = 0 then r.lanes * rbeff * 32 else full
      (r.most rb = 0 → r.bounds rbeff = none) ∧
      (0 < r.most rb → ∃ p q, r.bounds rbeff = some (p, q, 96) ∧ r.most rb * rb ≤ p * 8192 ∧
        r.most rb * r.lsbytes ≤ (q - p) * 8192 ∧ p ≤ q ∧ q ≤ 88)))

/-- R74–R76, R121, R122, R128, R367, R368: LAUNCH and DRAW refuse their operands with the illegal-instruction trap, wait while
the limits of R75 are met, answer the code of a failed check in LRES, and else enter the accepted launch, or the draw with its
two launches, under the next sequence number of their issuer. FEXPORT leaves once its group's parts. The model’s choices, not
the spec’s, are: the order of the checks (logs 35 and 42, DEDUCED). -/
def Obligations.LaunchAndDraw : Prop :=
  (∀ (s : State) (x : Ex) (o : EOps), s.ex? = some x →
    let va := bits (s.readUni x o.lit .i64 o.a) 51 0
    let off := (s.readUni x o.lit .w32 o.b).toNat
    let bar := o.minor.getLsbD 8
    let r := s.releaseFor x.g 4
    (badLaunch x.g o = true → exec (.launch o) s = .next (s.illegal x) ∧ exec (.draw o) s = .next (s.illegal x)) ∧
    (badLaunch x.g o = false → s.launchFull x.g.issuer = true →
      exec (.launch o) s = .next (s.park x .launch) ∧ exec (.draw o) s = .next (s.park x .launch)) ∧
    (badLaunch x.g o = false → s.launchFull x.g.issuer = false →
      (∀ h, r.checkLaunch (r.who x.g) va = .error h → exec (.launch o) s = .next (r.haltEx x h .read)) ∧
      (∀ c t, r.checkLaunch (r.who x.g) va = .ok (c, t) →
        let refused := t.targetOf x.g off bar = none ∨ (bar = true ∧ (c.lrec.cores = true ∨ 2 ^ 56 ≤ c.lrec.blocks))
        (c.code ≠ 0 → exec (.launch o) s = .next (t.answer x o.d (lres 0 c.code))) ∧
        (c.code = 0 → refused → exec (.launch o) s = .next (t.answer x o.d (lres 0 11))) ∧
        (c.code = 0 → ¬ refused → ∀ g, t.targetOf x.g off bar = some g →
          let q := t.useSeq x.g.issuer
          ∃ (u : State) (l : Launch), exec (.launch o) s = .next (u.answer x o.d (lres q.1 0)) ∧
            u = { q.2 with nextId := q.2.nextId + 1, launches := q.2.launches.insert q.2.nextId l } ∧
            l.lrec = c.lrec ∧ l.lrptr = va ∧ l.role = .kernel ∧ l.issuer = x.g.issuer ∧ l.home = x.g.stack ∧
            l.prio = min c.lrec.prio (t.lends x.g).1 ∧ l.priv = (t.lends x.g).2 ∧ l.seq = q.1 ∧ l.target = g ∧
            l.rbeff = c.rbeff ∧ (l.pb0, l.pb1, l.pb2) = c.bounds ∧ l.total = c.lrec.blocks ∧ l.next = 0 ∧ l.retired = 0 ∧
            (c.lrec.cores = false → l.status = none) ∧ (∀ n, l.status = some n → n = 10)))) ∧
    (badLaunch x.g o = false → s.launchFull x.g.issuer = false →
      let k := r.who x.g
      (∀ h, r.checkDraw k x.g va off bar = .error h → exec (.draw o) s = .next (r.haltEx x h .read)) ∧
      (∀ c t, r.checkDraw k x.g va off bar = .ok (c, t) →
        (c.code ≠ 0 → exec (.draw o) s = .next (t.answer x o.d (lres 0 c.code))) ∧
        (c.code = 0 → ∀ h, t.addUse k.core k.ctx true c.drec.targets = .error h → exec (.draw o) s = .next (t.haltEx x h .hw)) ∧
        (c.code = 0 → ∀ w, t.addUse k.core k.ctx true c.drec.targets = .ok w →
          let n := c.drec.vcount * c.drec.icount
          ∃ (u : State) (v f : Launch) (d : Draw), exec (.draw o) s = .next (u.answer x o.d (lres (w.useSeq x.g.issuer).1 0)) ∧
            u.launches = (w.launches.insert (w.nextId + 1) v).insert (w.nextId + 2) f ∧
            u.draws = w.draws.insert w.nextId d ∧
            v.role = .vertex ∧ v.issuer = .draw w.nextId ∧ v.total = (n + v.lrec.lanes - 1) / v.lrec.lanes ∧
            f.role = .fragment ∧ f.issuer = .draw w.nextId ∧ f.total = 0 ∧
            d.drec = c.drec ∧ d.issuer = x.g.issuer ∧ d.home = x.g.stack ∧ d.seq = (w.useSeq x.g.issuer).1 ∧ d.target = c.target ∧
            d.tris = c.drec.tris * c.drec.icount ∧ d.nextTri = 0 ∧ d.status = none ∧ d.vlaunch = w.nextId + 1 ∧
            d.flaunch = w.nextId + 2 ∧ d.uses = c.drec.targets)))) ∧
  (∀ (s : State) (x : Ex) (form : BitVec 2) (o : EOps), s.ex? = some x →
    let n := form.toNat
    (x.g.isQueue = true ∨ x.g.frag = none ∨ s.drawOf x.g = none → exec (.fexport form o) s = .next (s.illegal x)) ∧
    (x.g.isQueue = false → ∀ f d, x.g.frag = some f → s.drawOf x.g = some d →
      let bad := x.whole = false ∨ f.exported = true ∨ ((n = 1 ∨ n = 2) ∧ d.drec.zexp = false) ∨ (n = 0 ∧ d.drec.zexp = true) ∨
        ((n = 0 ∨ n = 2) ∧ badColour x.g d o.a = true) ∨ ((n = 1 ∨ n = 2) ∧ (isVec o.b = false ∨ badSrc x.g .w32 o.b = true))
      (bad → exec (.fexport form o) s = .next (s.illegal x)) ∧
      (¬ bad → exec (.fexport form o) s = .next (((s.modGroup x.gid fun g => { g with frag := some { f with exported := true } }).sendParts
        f.set (x.g.fragsFor d f.set (if n = 3 then [] else x.list.filter fun l => (x.g.readM 15).getLsbD l = false) n o.a o.b)).finish
        x)))) ∧
  (∀ (s : State) (gid sid : Nat),
    (∀ x, s.exOf gid sid = some x → x.sp.park = .launch → s.launchFull x.g.issuer = false →
      exec (.launchBackpressureWake gid sid) s = .next (s.unpark gid sid)) ∧
    ((∀ x, s.exOf gid sid = some x → x.sp.park = .launch → s.launchFull x.g.issuer = true) →
      exec (.launchBackpressureWake gid sid) s = .next s))

/-- R124, R125, R390: what the rasterizer visits and covers. The tiles of a triangle on a stack have the stack's parity, lie in
the raster extent and rise by row, then by column. A piece covers every sample inside it and none beyond one of its edges; two
pieces on the two sides of a shared edge never cover the same sample. A quad of a tile has four samples of the tile, of which
one at least is covered; a covered one lies within the raster extent. -/
def Obligations.Rasterization : Prop :=
  (∀ (t : SetupTri) (w h stack : Nat), stack < 2 →
    (∀ p, p ∈ t.tiles w h stack → (p.1 + p.2) % 2 = stack ∧ 8 * p.1 < w ∧ 8 * p.2 < h) ∧
    (t.tiles w h stack).Pairwise fun p q => p.2 < q.2 ∨ (p.2 = q.2 ∧ p.1 < q.1)) ∧
  (∀ (a b c : SetupVertex) (x y : Int),
    let e (u v : SetupVertex) : Int := (v.x - u.x) * (y - u.y) - (v.y - u.y) * (x - u.x)
    let area := pieceArea [a, b, c]
    (0 < area → 0 < e a b → 0 < e b c → 0 < e c a → (edgesAt [a, b, c] x y).2 = true) ∧
    (area < 0 → e a b < 0 → e b c < 0 → e c a < 0 → (edgesAt [a, b, c] x y).2 = true) ∧
    (0 < area → (e a b < 0 ∨ e b c < 0 ∨ e c a < 0) → (edgesAt [a, b, c] x y).2 = false) ∧
    (area < 0 → (0 < e a b ∨ 0 < e b c ∨ 0 < e c a) → (edgesAt [a, b, c] x y).2 = false)) ∧
  (∀ (a b c d : SetupVertex) (x y : Int), pieceArea [a, b, c] < 0 → 0 < pieceArea [a, b, d] →
    ¬ ((edgesAt [a, b, c] x y).2 = true ∧ (edgesAt [a, b, d] x y).2 = true)) ∧
  (∀ (t : SetupTri) (w h tx ty : Nat) (q : List Sample), q ∈ t.quads w h tx ty →
    q.length = 4 ∧ (∃ p ∈ q, p.covered = true) ∧
    ∀ p ∈ q, p.x / 8 = tx ∧ p.y / 8 = ty ∧ (p.covered = true → p.x < w ∧ p.y < h))

/-- R89, R127, R390: the quads of a triangle in a tile are emitted in ascending b, and for each b in ascending a, each on the
four pixels from (2a, 2b) to (2a + 1, 2b + 1); quad i of a fragment group occupies lanes 4i to 4i + 3, whose registers hold its
barycentrics, pixel and depth, and whose uncovered pixels are helper lanes. -/
def Obligations.QuadsAndLanes : Prop :=
  (∀ (t : SetupTri) (w h tx ty : Nat), ∃ f : Nat → Nat → Option (List Sample),
    t.quads w h tx ty = (List.range 4).flatMap (fun j => (List.range 4).filterMap fun i => f (4 * tx + i) (4 * ty + j)) ∧
    ∀ a b q, f a b = some q → q.map (fun p => (p.x, p.y)) =
      [(2 * a, 2 * b), (2 * a + 1, 2 * b), (2 * a, 2 * b + 1), (2 * a + 1, 2 * b + 1)]) ∧
  (∀ (g : Group) (q : QuadSet), g.width ≤ 64 → 4 * q.quads.length ≤ g.width → (∀ e ∈ q.quads, e.2.length = 4) →
    let f := g.fragStart q
    (∃ i, f.frag = some i ∧ i.set = q ∧ i.exported = false) ∧
    (∀ l, l < 64 → (f.live.getLsbD l = true ↔ l < 4 * q.quads.length)) ∧
    (∀ k j t ss p, q.quads[k]? = some (t, ss) → ss[j]? = some p →
      let l := 4 * k + j
      (f.readM 15).getLsbD l = !p.covered ∧ f.readV 0 l = p.b1 ∧ f.readV 1 l = p.b2 ∧
        f.readV 2 l = BitVec.ofNat 32 (p.x + 65536 * p.y) ∧ f.readV 3 l = p.z) ∧
    f.readS64 8 = (q.psn.setWidth 64 ||| bit q.front 40))

/-- R122–R132: the front end of a draw. A triangle is assembled once its vertex groups have exited and the draws before it in
its stream have no triangle left; one that is culled is set up nowhere; a stack rasterizes its next triangle once its tickets
have been issued; all entries of a ticket are enqueued in one step, once each bank has room; the first fragment groups that fit
are placed. R128–R132: the banks of a draw. A part is delivered to its ticket; the depth stage of the next ticket tests and
writes its fragments, with exported depths only after every part; the head ticket's fragments that passed are blended and stored
in pixel order, and forwarded; a ticket, or a follower entry whose result has come, retires; a draw completes once all its
tickets have. The model’s choices, not the spec’s, are: culling by the summed area of a clipped triangle's pieces (log 39) and
the comparison of a NaN depth (log 43), both DEDUCED. -/
def Obligations.DrawPipeline : Prop :=
  (
  (∀ (s : State) (did : Nat) (d : Draw), s.draw did = some d →
    let s0 := s.modDraw did fun d => { d with tokens := [] }
    let runs := d.status = none ∧ (s.ctx d.ctx).fatal = none ∧ s.pkg.stopped = false ∧ d.tokens = []
    let first := d.nextTri < d.tris ∧ (s.earlier did d).all (fun e => e.2.tris ≤ e.2.nextTri) = true ∧
      (d.slots d.nextTri).all (s.slotDone d) = true
    let recs := (d.slots d.nextTri).map fun v => (d.drec.vout + v * d.drec.stride) % 2 ^ 52
    (¬ first → exec (.primitiveAssembly did) s = .next s) ∧
    (runs → first → ∀ vs t, s0.readVertices (s.drawWho d) recs = .ok (vs, t) →
      exec (.primitiveAssembly did) s = .next (t.modDraw did fun k => { k.setUp (d.cull (d.psn0 + BitVec.ofNat 40 d.nextTri) recs
        (piecesOf [d.drec.vpsx, d.drec.vpsy, d.drec.vpox, d.drec.vpoy] vs)) with nextTri := d.nextTri + 1 })) ∧
    (runs → first → ∀ h, s0.readVertices (s.drawWho d) recs = .error h →
      exec (.primitiveAssembly did) s = .next (s.haltDraw did d h)) ∧
    (∀ stack t rest, d.setup stack = t :: rest →
      ((s.pendingTickets stack ≠ [] ∨ (s.earlier did d).any (fun e => !(e.2.setup stack).isEmpty) = true) →
        exec (.rasterizeTriangle did stack) s = .next s) ∧
      (s.pendingTickets stack = [] → (s.earlier did d).any (fun e => !(e.2.setup stack).isEmpty) = false →
        (s.ctx d.ctx).fatal = none → s.pkg.stopped = false →
        let r := s.bookTiles did d t stack (t.tiles d.extW d.extH stack)
        exec (.rasterizeTriangle did stack) s = .next ((r.2.packQuads did d t r.1).modDraw did fun d =>
          if stack = 0 then { d with setup0 := rest } else { d with setup1 := rest })))) ∧
  (∀ (d : Draw) (psn : BitVec 40) (recs : List Nat) (ps : List (List SetupVertex)),
    let area := ((ps.filter fun p => pieceArea p != 0).map pieceArea).sum
    let front : Bool := decide (0 < area) == d.drec.frontcw
    (d.cull psn recs ps = none ↔ area = 0 ∨ (d.drec.cull = 1 ∧ front = false) ∨ (d.drec.cull = 2 ∧ front = true)) ∧
    d.setUp none = d) ∧
  (∀ (s : State) (stack id : Nat) (t : Ticket) (rest : List (Nat × Ticket)) (d : Draw),
    s.pendingTickets stack = (id, t) :: rest → s.draw t.draw = some d →
    let ready := s.gateOpen t.draw d = true ∧ ∀ b ∈ (t.die, t.bank) :: t.followers,
      (KV.get [] (s.die b.1).queues b.2).length < 64 ∧ s.bankLoad b.1 b.2 + t.samples.length ≤ 256
    let s0 := s.modDraw t.draw fun d => { d with tokens := [] }
    (¬ ready → exec (.ticketIssue stack) s = .next s) ∧
    (ready → d.status = none → (s.ctx d.ctx).fatal = none → s.pkg.stopped = false → d.tokens = [] →
      ∀ ts, s0.needTiles (s.drawWho d) d.drec.layer t.tx t.ty d.drec.targets = .ok ts →
        exec (.ticketIssue stack) s = .next (t.followers.foldl (fun s b => s.enqueue b { ticket := id, home := false })
          ({ s0 with tickets := s0.tickets.insert id { t with issued := true, tiles := ts } }.enqueue (t.die, t.bank)
            { ticket := id, home := true })))) ∧
  (∀ (s : State) (die : Nat),
    (s.pkg.stopped = true → exec (.fragmentGroupPlace die) s = .next s) ∧
    (s.pkg.stopped = false → ∀ q lid l rest t, s.quadOrder die = (q, lid, l) :: rest → s.headWaits l.prio = false →
      s.placeQuads q lid l = some t → exec (.fragmentGroupPlace die) s = .next t))) ∧
  (
  (∀ (s : State) (die bank part : Nat),
    ((s.die die).parts[part]? = none → exec (.exportPartDelivery die bank part) s = .next s) ∧
    (∀ p, (s.die die).parts[part]? = some p → p.bank = bank →
      let t := s.modDie die fun d => { d with parts := dropAt d.parts part }
      exec (.exportPartDelivery die bank part) s = .next { t with tickets := t.tickets.modify p.ticket fun k =>
        { k with delivered := k.delivered + 1, frags := k.frags ++ p.frags } })) ∧
  (∀ (s : State) (die bank id : Nat) (t : Ticket) (d : Draw), s.depthNext die bank = some (id, t, d) →
    let s0 := s.modDraw t.draw fun d => { d with tokens := [] }
    let runs := d.status = none ∧ (s.ctx d.ctx).fatal = none ∧ s.pkg.stopped = false ∧ d.tokens = []
    let done (s : State) (ok : List (Nat × Nat)) : State :=
      { s with tickets := s.tickets.modify id fun t => { t with depthDone := true, passed := ok } }
    (d.drec.zexp = true → t.delivered < t.npart → exec (.bankDepthStage die bank) s = .next s) ∧
    (runs → (d.drec.zexp = true → t.npart ≤ t.delivered) →
      (d.drec.dh = 0 → exec (.bankDepthStage die bank) s = .next (done s0 ((t.depths d.drec.zexp).map fun e => (e.1, e.2.1)))) ∧
      (d.drec.dh ≠ 0 → ∀ e ok u, s0.entry (s.drawWho d).core (s.drawWho d).ctx d.drec.dh = .ok (some e) →
        (s0.touchTarget d d.drec.dh e t.tx t.ty).depthStage (s.drawWho d) d e (t.depths d.drec.zexp) = .ok (ok, u) →
        exec (.bankDepthStage die bank) s = .next (done u ok)))) ∧
  (∀ c z : Word,
    let v (w : Word) : FV := FF.fp32.decode w.toNat
    depthPasses 0 c z = false ∧ depthPasses 7 c z = true ∧
    (depthPasses 1 c z = true ↔ (v c).lt (v z) = true) ∧ (depthPasses 2 c z = true ↔ (v c).eqv (v z) = true) ∧
    (depthPasses 3 c z = true ↔ (v c).lt (v z) = true ∨ (v c).eqv (v z) = true) ∧
    (depthPasses 4 c z = true ↔ (v z).lt (v c) = true) ∧ (depthPasses 5 c z = true ↔ (v c).eqv (v z) = false) ∧
    (depthPasses 6 c z = true ↔ (v z).lt (v c) = true ∨ (v c).eqv (v z) = true)) ∧
  (∀ (s : State) (die bank : Nat) (e : BankEntry) (rest : List BankEntry) (t : Ticket), s.bankQueue die bank = e :: rest →
    s.tickets.find e.ticket = some t →
    (e.home = true → t.colourDone = true → exec (.ticketRetire die bank) s = .next (s.popEntry die bank e.ticket)) ∧
    (e.home = true → t.colourDone = false → exec (.ticketRetire die bank) s = .next s) ∧
    (e.home = false → exec (.ticketRetire die bank) s = .next s ∧ exec (.bankBlendWrite die bank) s = .next s) ∧
    (e.forwarded = none → exec (.followerEntryRetire die bank) s = .next s) ∧
    (∀ d, s.draw t.draw = some d → d.status = none → (s.ctx d.ctx).fatal = none → s.pkg.stopped = false → d.tokens = [] →
      let s0 := s.modDraw t.draw fun d => { d with tokens := [] }
      let held := d.drec.held die bank t.tx t.ty
      (e.home = true → t.depthDone = true → t.colourDone = false → t.npart ≤ t.delivered →
        let fs := sortAsc (fun f => pixelKey f.x f.y) (t.frags.filter fun f => t.passed.contains (f.x, f.y))
        ∀ u, s0.colourStage (s.drawWho d) d held fs = .ok u → exec (.bankBlendWrite die bank) s =
          .next ({ u with tickets := u.tickets.modify e.ticket fun t => { t with colourDone := true } }.forward e.ticket t fs)) ∧
      (e.home = true → (t.depthDone = false ∨ t.delivered < t.npart) → exec (.bankBlendWrite die bank) s = .next s) ∧
      (∀ fs u, e.forwarded = some fs → s0.colourStage (s.drawWho d) d held fs = .ok u →
        exec (.followerEntryRetire die bank) s = .next (u.popEntry die bank e.ticket)))) ∧
  (∀ (s : State) (did : Nat) (d : Draw), s.draw did = some d →
    let s0 := s.modDraw did fun d => { d with tokens := [] }
    (s.drawDone did d = false → exec (.drawComplete did) s = .next s) ∧
    (s.drawDone did d = true → (s.completeDraw d).isSome = true → d.status = none → (s.ctx d.ctx).fatal = none →
      s.pkg.stopped = false → d.tokens = [] → ∀ u v, s0.addUse none d.ctx false d.uses = .ok u → u.completeDraw d = some v →
      exec (.drawComplete did) s = .next ((v.modDraw did fun d => { d with status := some 0 }).dropDraw (.draw did)))))

/-- R344–R347, R393, R394: page request queues. The first request that waits is written while its ring has room: its 32 bytes at
PROD's entry, PROD one higher; an identifier that is outstanding is passed over. A reply ends the request that it names and
gives its status to every token of it; one that names none is logged; where the page is not there yet at a retry, it is
requested anew. R343: TLB invalidation. A write that starts one is kept in TLBINV, unless one runs there or a guest asks for a
kind or a context that is not its own; its completion drops from every TLB exactly the entries that its kind names, and clears
GO. The model’s choices, not the spec’s, are: that a stage-2 invalidation drops all stage-1 entries of its function and that a
completion waits for atomics alone (log 10, DESIGN CHOICE), and the request anew at a reply whose page is not there yet (log 22,
DESIGN CHOICE). -/
def Obligations.PagesAndTlbs : Prop :=
  (
  (∀ (s : State) (vf stage : Nat) (r : PrqReq), (s.prq vf stage).reqs.find? (fun r => !r.written) = some r →
    let q := s.prq vf stage
    let a := (q.base &&& 0x000FFFFFFFFFF000).toNat + 32 * (q.prod.toNat % (16 * 2 ^ bits q.base 55 52))
    (q.room = false → exec (.pageRequestWrite vf stage) s = .next s) ∧
    (q.room = true → (stage = 1 ∨ stage = 2) → s.pkg.stopped = false →
      (s.place a = .hole → exec (.pageRequestWrite vf stage) s = .next (s.loseRequest vf stage r 0x10)) ∧
      (∀ c, s.place a = .mem c → s.poisoned a 32 = true →
        exec (.pageRequestWrite vf stage) s = .next (s.loseRequest vf stage r 0x11)) ∧
      (∀ c, s.place a = .mem c → s.poisoned a 32 = false →
        let id := q.freeId
        let t := ((s.homeWrite (s.canon a) ((r.bytes id vf stage).map some) false).mapTokens fun t =>
          if t.key = r.key then { t with reqid := id } else t).modPrq vf stage fun q =>
            { q with prod := q.prod + 1, next := (id + 1) % 65536
                     reqs := q.reqs.map fun x => if x.key = r.key then { x with written := true, reqid := id } else x }
        exec (.pageRequestWrite vf stage) s = .next (if q.prod = q.cons then t.notice vf stage else t)))) ∧
  (∀ q : Prq, (q.reqs.filter (·.written)).length < 65536 → q.freeId < 65536 ∧ ∀ r ∈ q.reqs, r.written = true → r.reqid ≠ q.freeId) ∧
  (∀ (s : State) (vf stage id : Nat),
    ((s.prq vf stage).reqs.find? (fun r => r.written && r.reqid == id) = none →
      exec (.qreplyRetry vf stage id) s = .next (s.log .replyUnknown vf id) ∧
      exec (.qreplyInvalid vf stage id) s = .next (s.log .replyUnknown vf id)) ∧
    (∀ r, (s.prq vf stage).reqs.find? (fun r => r.written && r.reqid == id) = some r →
      let done := s.modPrq vf stage fun q => { q with reqs := q.reqs.filter fun x => x.key != r.key }
      let t (st : TokStatus) : State := done.mapTokens fun t => if t.key = r.key then { t with status := st } else t
      exec (.qreplyInvalid vf stage id) s = .next (t .invalid) ∧
      ((s.holders r.key ≠ [r.ctx] ∨ s.stillMisses stage r = none) → exec (.qreplyRetry vf stage id) s = .next (t .retry)) ∧
      (∀ why level, s.holders r.key = [r.ctx] → s.stillMisses stage r = some (why, level) →
        let z := done.requestPage r.ctx stage why level r.page r.gva r.acc r.core r.eng
        exec (.qreplyRetry vf stage id) s = .next (z.2.mapTokens fun t =>
          if t.key = r.key then { t with key := z.1, reqid := 0, status := .pending } else t)))) ∧
  (∀ (s : State) (vf stage : Nat) (v : Dword),
    (bits v 55 52 ≤ 11 → exec (.qbaseWrite vf stage v) s = .next (s.modPrq vf stage fun q =>
      { q with base := v &&& 0x00FFFFFFFFFFF000, prod := 0, cons := 0, next := 0 })) ∧
    (11 < bits v 55 52 → exec (.qbaseWrite vf stage v) s = .next (s.log .windowReserved vf stage)) ∧
    exec (.qptrConsWrite vf stage v) s = .next (s.modPrq vf stage fun q => { q with cons := v.extractLsb' 32 32 }) ∧
    (let c := s.ctx (s.queue (bits v 62 56)).ctx
     let refused := v.getLsbD 63 = true ∧ (c.en = false ∨ c.vf ≠ vf)
     (refused → exec (.gqnoteWrite vf v) s = .next (s.log .noticeRefused vf (bits v 62 56))) ∧
     (¬ refused → exec (.gqnoteWrite vf v) s = .next (s.modPrq vf 1 fun q => { q with note := v &&& 0xFFF0000000000000 }))))) ∧
  (
  (∀ (s : State) (win : Nat) (v : Dword), v.getLsbD 63 = true →
    let kind := bits v 62 61
    let i : Instr := if kind = 0 then .tlbinvStage1Range win v else if kind = 1 then .tlbinvStage2Range win v
      else if kind = 2 then .tlbinvAllCtx win v else .tlbinvAllVf win v
    let busy := (s.wreg (.tlbinv win)).getLsbD 63 = true
    let refused := win ≠ 0 ∧ (kind % 2 = 1 ∨ (s.ctx (bits v 60 49)).en = false ∨ (s.ctx (bits v 60 49)).vf ≠ win - 1)
    (busy → exec i s = .next s) ∧
    (¬ busy → refused → exec i s = .next (s.log .tlbinvRefused win kind)) ∧
    (¬ busy → ¬ refused → exec i s = .next (s.setTlbinv win (v &&& 0xFFFFF80000000000)) ∧
      (s.setTlbinv win (v &&& 0xFFFFF80000000000)).wreg (.tlbinv win) = v &&& 0xFFFFF80000000000)) ∧
  (∀ (s : State) (win : Nat),
    let v := s.wreg (.tlbinv win)
    let a := s.wreg (.tlbinva win)
    (v.getLsbD 63 = false → exec (.tlbinvComplete win) s = .next s) ∧
    (v.getLsbD 63 = true → s.tlbBusy v = true → exec (.tlbinvComplete win) s = .next s) ∧
    (v.getLsbD 63 = true → s.tlbBusy v = false → ∃ t, exec (.tlbinvComplete win) s = .next t ∧
      (t.wreg (.tlbinv win)).getLsbD 63 = false ∧ t.mem = s.mem ∧ t.groups = s.groups ∧
      (∀ c, (t.core c).tlb = (s.core c).tlb.filter fun e => !s.invalidated v a e) ∧
      (∀ d, (t.die d).tlb = ((s.die d).tlb.filter fun e => !s.invalidated v a e) ∧
        (t.die d).walks = (s.die d).walks.filter fun e => !s.invalidated v a e.cover))) ∧
  (∀ (s : State) (v a : Dword) (e : TlbEntry),
    let lo := bits a 51 16 * 65536
    let hi := lo + (bits a 63 52 + 1) * 65536
    let overlaps := lo < e.base + e.size ∧ e.base < hi
    let ours := e.stage = 1 ∧ (s.ctx e.tag).vf = bits v 48 43
    (bits v 62 61 = 0 → (s.invalidated v a e = true ↔ e.stage = 1 ∧ e.tag = bits v 60 49 ∧ overlaps)) ∧
    (bits v 62 61 = 1 → (s.invalidated v a e = true ↔ ours ∨ (e.stage = 2 ∧ e.tag = bits v 48 43 ∧ overlaps))) ∧
    (bits v 62 61 = 2 → (s.invalidated v a e = true ↔ e.stage = 1 ∧ e.tag = bits v 60 49)) ∧
    (bits v 62 61 = 3 → (s.invalidated v a e = true ↔ ours ∨ (e.stage = 2 ∧ e.tag = bits v 48 43)))))

/-- R68, R70, R71, R73, R122, R380: a queue that is enabled starts its program at its entry with the fields of QCFG; one that is
disabled keeps its other fields. A host write fills an empty mailbox word, or sets OVR and leaves it; a consuming read returns a
full word and empties it, and 0 of an empty one; QSTAT's OVR and ERR are cleared by writing 1; an access of a wrong size or
place sets ERR; an access for another slot is forwarded to the package that holds it; waiters that the word's tag has woken come
first; a package that is not its group's HOSTPKG presents no window. The model’s choices, not the spec’s, are: that the launch
sequence counter goes on over an enabling (log 64, DEDUCED), that a program starts at ENTRY + 4 unread (log 74) and what lies
beyond this package (log 15), both DESIGN CHOICE. -/
def Obligations.QueuesAndHost : Prop :=
  (∀ (s : State) (q : Nat) (v : Dword),
    ((s.queue q).en = false → v.getLsbD 63 = true → q < 128 → ∃ t k g, exec (.qcfgEnable q v) s = .next t ∧
      t.queue q = k ∧ k.en = true ∧ k.run = true ∧ k.priv = v.getLsbD 62 ∧ k.prio = bits v 61 59 ∧ k.ctx = bits v 56 45 ∧
      k.entry = 128 * bits v 44 0 ∧ k.fault = 0 ∧ k.ovr = false ∧ k.err = false ∧ k.psn = 0 ∧ k.waits = [] ∧
      k.seq = (s.queue q).seq ∧
      t.group q = some g ∧ g.isQueue = true ∧ g.width = 1 ∧ g.ctx = k.ctx ∧ g.live = 1 ∧
      g.splits = [(0, freshSplit ((k.entry + 4) % 2 ^ 52) 1 none .no)] ∧ t.mem = s.mem ∧ t.cores = s.cores) ∧
    ((s.queue q).en = true → exec (.qcfgEnable q v) s = .next s) ∧
    ((s.queue q).en = true → v.getLsbD 63 = false →
      exec (.qcfgDisable q v) s = .next (s.modQueue q fun k => { k with en := false }))) ∧
  (∀ (s : State) (q o : Nat) (v : Dword), q < 128 → o < 4096 → s.pkg.hostpkg = s.pkg.pkgid →
    let off := 524288 * s.pkg.hslot + 4096 * q + o
    let u := s.serveWord q (o / 8) (s.waitsOf q).length
    (s.woken q (o / 8) = none → u = s) ∧
    (o % 8 = 0 → o < 0x80 →
      (u.isFull q o = true → exec (.hostMailboxWrite off v) s = .next (u.modQueue q fun k => { k with ovr := true })) ∧
      (u.isFull q o = false → exec (.hostMailboxWrite off v) s = .next ((u.lsPut64 q o v).setFull q o true)) ∧
      exec (.hostConsumingRead off) s = .next (s.answerTo hostDest (s.lsRead q o 8)) ∧
      (u.isFull q o = true → exec (.hostConsumingRead (off + 0x100)) s =
        .next ((u.answerTo hostDest (u.lsRead q o 8)).setFull q o false)) ∧
      (u.isFull q o = false → exec (.hostConsumingRead (off + 0x100)) s = .next (u.answerTo hostDest (natToBytes 8 0)))) ∧
    (o = 0x80 → exec (.hostConsumingRead off) s = .next (s.answerTo hostDest (natToBytes 8 (s.queue q).qstat.toNat)) ∧
      exec (.qstatW1c off v) s = .next (s.modQueue q fun k =>
        { k with ovr := k.ovr && !v.getLsbD 17, err := k.err && !v.getLsbD 18 })) ∧
    (∀ size, size ≠ 8 ∨ o % 8 ≠ 0 →
      let t := s.modQueue q fun k => { k with err := true }
      exec (.hostInvalidAccess off size true) s = .next t ∧
      exec (.hostInvalidAccess off size false) s = .next (t.answerTo hostDest (natToBytes size 0))) ∧
    (o % 8 = 0 → 0x80 < o → exec (.hostInvalidAccess off 8 true) s = .next (s.modQueue q fun k => { k with err := true }))) ∧
  (∀ (s : State) (off size : Nat) (v : Dword),
    (s.pkg.hostpkg ≠ s.pkg.pkgid → exec (.hostMailboxWrite off v) s = .next s ∧ exec (.qstatW1c off v) s = .next s ∧
      exec (.hostConsumingRead off) s = .next s ∧ ∀ w, exec (.hostInvalidAccess off size w) s = .next s) ∧
    (s.pkg.hostpkg = s.pkg.pkgid → off / 524288 ≠ s.pkg.hslot →
      let write := s.toSlot off (.hostWrite (natToBytes 8 v.toNat))
      exec (.hostMailboxWrite off v) s = .next write ∧ exec (.qstatW1c off v) s = .next write ∧
      exec (.hostConsumingRead off) s = .next (s.forwardRead off 8) ∧
      exec (.hostInvalidAccess off size true) s = .next (s.toSlot off (.hostWrite (List.replicate size 0))) ∧
      exec (.hostInvalidAccess off size false) s = .next (s.forwardRead off size)))

/-- R79, R344, R355, R377: a context comes into being with its fault record cleared, is retired only when nothing of it is left,
and a torn-down context has no launch or draw, stopped queues, and its fault in CFAULT. R234, R373, R398: the control window. A
write of a size other than 8, off its alignment or where no register stands changes nothing but the event log; PERFSEL clears
the counts; the Carafe area is not moved while a tile is away; the registers without a rule of their own take the bits that they
hold. -/
def Obligations.ContextsAndWindow : Prop :=
  (
  (∀ (s : State) (c : Nat) (v : Dword),
    ((s.ctx c).en = false → v.getLsbD 63 = true → c < 4096 → exec (.ctxvfEnable c v) s = .next (s.modCtx c fun c =>
      { c with en := true, vf := bits v 5 0, cfault0 := 0, cfault1 := 0, cfault2 := 0, fatal := none })) ∧
    ((s.ctx c).en = true → exec (.ctxvfEnable c v) s = .next s) ∧
    ((s.ctx c).en = true → v.getLsbD 63 = false → s.ctxIdle c = false →
      exec (.ctxvfRetire c v) s = .next (s.log .ctxRetireRefused c 0)) ∧
    ((s.ctx c).en = true → v.getLsbD 63 = false → s.ctxIdle c = true → ∃ t, exec (.ctxvfRetire c v) s = .next t ∧
      (t.ctx c).en = false ∧ (∀ f ∈ (s.ctx c).frames, f ∉ (t.ctx c).frames) ∧
      (t.ctx c).cbrecs = [] ∧ ∀ d, c ≠ d → t.ctx d = s.ctx d)) ∧
  (∀ (s : State) (c : Nat),
    ((s.ctx c).fatal = none → exec (.contextTeardown c) s = .next s) ∧
    (∀ f, (s.ctx c).fatal = some f → ∃ t, exec (.contextTeardown c) s = .next t ∧
      (t.ctx c).fatal = none ∧ (t.ctx c).cfault0 = (fld f.cause 56 ||| fld f.core 47) ∧ (t.ctx c).cfault1 = fld f.fpc 0 ∧
      (t.ctx c).cfault2 = fld f.faddr 0 ∧
      (∀ e ∈ t.launches, e.2.lrec.ctx ≠ c) ∧ (∀ e ∈ t.draws, e.2.ctx ≠ c) ∧
      (∀ e ∈ t.queues, e.2.en = true → e.2.ctx = c → e.2.run = false ∧ e.2.fault = 4)))) ∧
  (
  (∀ (s : State) (off size : Nat) (v : Dword),
    ((size ≠ 8 ∨ off % 8 ≠ 0 ∨ wregAt off = none) → exec (.ctrlWindowRegWrite off size v) s = .next (s.log .windowAccess off size)) ∧
    (size = 8 → off % 8 = 0 → ∀ r, wregAt off = some r → exec (.ctrlWindowRegWrite off size v) s = .next (s.plainWrite r off v))) ∧
  (∀ (s : State) (n off : Nat) (v : Dword),
    s.plainWrite (.httb n) off v = s.modVf n (fun x => { x with httb := v &&& 0x000FFFFFFFFFE000 }) ∧
    s.plainWrite (.gttb n) off v = s.modCtx n (fun x => { x with gttb := v &&& 0x000FFFFFFFFFE000 }) ∧
    s.plainWrite (.stbase n) off v = s.modCtx n (fun x => { x with stbase := v &&& 0x000FFFFFFFFFFFC0 }) ∧
    s.plainWrite (.cmpprobe n) off v = s.modDie n (fun x => { x with cmpprobe := v &&& 0x000FFFFFFFFFFF80 }) ∧
    (bits v 16 0 ≤ 65536 → s.plainWrite (.stcount n) off v = s.modCtx n (fun x => { x with stcount := v &&& 0x1FFFF })) ∧
    ((s.blocks.any fun b => b.2.ctx == n) = true → s.plainWrite (.csave n) off v = s) ∧
    ((s.blocks.any fun b => b.2.ctx == n) = false →
      s.plainWrite (.csave n) off v = s.modCtx n (fun x => { x with csave := v &&& 0xFFFFFFFFFFFF0000 })) ∧
    (∀ k, s.plainWrite (.cfault n k) off v = s) ∧ s.plainWrite (.tvec n) off v = s) ∧
  (∀ (s : State) (d : Nat) (v : Dword),
    let n := bits v 63 52 * 2 ^ 24
    let a := bits v 51 24 * 2 ^ 24
    let lo := s.pkg.pkgid * 2 ^ 42 + farBase + d * farDie
    let inside := n = 0 ∨ (lo ≤ a ∧ a + n ≤ lo + farDie)
    let away := (s.die d).tiles.any (·.away) = true
    (d < 8 → away → exec (.cfareaWrite d v) s = .next s) ∧
    (d < 8 → ¬ away → inside → exec (.cfareaWrite d v) s = .next (s.modDie d fun d => { d with cfarea := v &&& 0xFFFFFFFFFF000000 })) ∧
    (d < 8 → ¬ away → ¬ inside → exec (.cfareaWrite d v) s = .next (s.log .cfareaRefused d v.toNat))) ∧
  (∀ (s : State) (c : Nat) (v : Dword), c < 320 → ∃ t, exec (.perfselWrite c v) s = .next t ∧
    (t.core c).perfsel = v &&& 0xFFFFFFFF ∧ (t.core c).perfcnt0 = 0 ∧ (t.core c).perfcnt1 = 0 ∧ (t.core c).perfcnt2 = 0 ∧
    (t.core c).perfcnt3 = 0 ∧ (∀ k, k ≠ c → t.core k = s.core k) ∧ t.groups = s.groups ∧ t.mem = s.mem))

/-- R81–R83, R87, R88, R92: the order of placement, the core that is chosen, and what a core that takes a block has free.
Launches are placed by priority; of the cores of a die that can take a block the one with the most free register bytes is
chosen, then the one with the fewest groups, then the lowest; a core that takes a block is enabled, has the launch's boundaries
or no block, and room for its groups, registers and a run of local store that no other block holds. The model’s choices, not the
spec’s, are: where a cluster on two dies leaves the cursor (log 77, DEDUCED). -/
def Obligations.ChoiceOfCore : Prop :=
  (∀ s : State, (s.placeOrder).Pairwise (fun a b => b.2.prio ≤ a.2.prio) ∧
    ∀ e : Nat × Launch, e.2.prio < 8 → (e ∈ s.placeOrder ↔ e ∈ s.launches ∧ s.toPlace e.2 = true)) ∧
  (∀ (d : Nat) (f : Nat → Option Fit),
    (bestOf d f = none ↔ ∀ i, i < 40 → f (40 * d + i) = none) ∧
    ∀ c y, bestOf d f = some (c, y) → 40 * d ≤ c ∧ c < 40 * d + 40 ∧ f c = some y ∧
      ∀ i z, i < 40 → f (40 * d + i) = some z →
        z.free < y.free ∨ (z.free = y.free ∧ (y.groups < z.groups ∨ (y.groups = z.groups ∧ c ≤ 40 * d + i)))) ∧
  (∀ (s : State) (l : Launch) (core : Nat) (f : Fit), s.fitBlock l core = some f →
    let c := s.core core
    (s.die (core / 40)).coreEn.getLsbD (core % 40) = true ∧
    (s.blocksOn core = [] ∨ (c.poolb0 = l.pb0 ∧ c.poolb1 = l.pb1 ∧ c.poolb2 = l.pb2)) ∧
    (s.groupsOn core).length + l.lrec.groups ≤ 64 ∧
    l.lrec.lanes * l.rbeff * 32 ≤ l.pb0 * 8192 - s.regBytes core ∧ f.free = l.pb0 * 8192 - s.regBytes core ∧
    l.pb0 * 8192 ≤ f.base ∧ f.base + l.lrec.lsRun ≤ l.pb1 * 8192 ∧
    (∀ e ∈ s.blocksOn core, e.2.lsRun = 0 ∨ f.base + l.lrec.lsRun ≤ e.2.lsBase ∨ e.2.lsBase + e.2.lsRun ≤ f.base) ∧
    f.q0 < 4 ∧ (∀ q, q < 4 → s.quadFree core q ≤ s.quadFree core f.q0) ∧
    ∀ i, i < 4 → (l.lrec.groups + 3 - i) / 4 ≤ s.quadFree core ((f.q0 + i) % 4))

/-- R99: the swizzle of kind 6. Each of the eight patterns has its row width w and its k; unit u of the destination is stored at
r × w + (c XOR (r mod k)), where r = u div w and c = u mod w; the chunk of Tamper writes at each place the unit that is stored
there. -/
def Obligations.Swizzle : Prop :=
  (List.range 8).map swizzle = [(1, 1), (8, 2), (8, 4), (8, 8), (16, 2), (16, 4), (16, 8), (16, 16)] ∧
  (∀ p u, p < 8 →
    let w := (swizzle p).1
    let k := (swizzle p).2
    let place := u / w * w + ((u % w) ^^^ (u / w % k))
    unswizzle p place = u ∧ place / w = u / w) ∧
  unswizzle 2 12 = 13 ∧ unswizzle 2 20 = 22 ∧
  (∀ (s : State) (k : Who) (core blk n c : Nat) (b : Bind) (e : Ste) (idx : Option Ste), b.kind = 6 →
    let len := min 1024 (b.bytes - 1024 * c)
    s.tamperPart k core blk n b (some e) idx c =
      ((List.range (len / 16)).foldlM (fun (s : State) i =>
        (s.tamperBytes k core b.src e (n * b.bytes + 16 * unswizzle b.aux (64 * c + i)) 16).bind fun r =>
          .ok (r.2.lsWrite blk (b.doff + 16 * (64 * c + i)) r.1)) s : Except Halt State).map fun t => (t, 0))

/-- R76–R78, R81, R89, R92, R95–R97, R212: the life of a block. The next launch in order is placed, or a whole CORES grid at
once; Tamper opens a binding and works through its chunks; a block starts all its groups together; the slot of an exited group
is released, and its block's barriers count it as arrived; a block retires once its groups are gone; a launch whose blocks have
retired stores its completion word; a killed cluster stops. R77: the completion word carries the launch's sequence number and
status; it lands in an empty mailbox word, which it fills, and waits for one that is full. The model’s choices, not the spec’s,
are: that a completion waits behind a word's waiters (log 23), the fate of a task record's write (log 36), how Tamper reads (log
37) and a kill that spares the cluster's retired blocks (log 54), all DEDUCED. -/
def Obligations.BlockLifeAndCompletion : Prop :=
  (
  (∀ (s : State) (lid : Nat) (l : Launch) (rest : List (Nat × Launch)), s.placeOrder = (lid, l) :: rest →
    (l.wantsAll = true → exec .wdPlaceBlock s = .next s) ∧
    (l.wantsAll = false → s.pkg.stopped = false → ∀ t, s.placeNext lid l true = some t → exec .wdPlaceBlock s = .next t) ∧
    (l.wantsAll = false → exec .coresGridPlace s = .next s) ∧
    (l.wantsAll = true → s.pkg.stopped = false → ∀ t, s.placeAll lid true (l.total + 1) = some t →
      exec .coresGridPlace s = .next (t.modLaunch lid fun l => { l with placedAll := true }))) ∧
  (∀ (s : State) (core blk : Nat) (rest : List Nat) (b : Block) (l : Launch), (s.core core).tamperQ = blk :: rest →
    s.block blk = some b → s.launch b.launch = some l →
    let k : Who := ⟨some core, b.ctx, l.priv⟩
    let d := Bind.of (l.lrec.binds.getD b.tbind 0)
    let ready := (s.core core).held = false ∧ b.dying = false ∧ b.ttokens = []
    (ready → b.topen = false →
      (∀ t, s.tamperOpen k blk b l d = .ok (some t) → exec (.tamperChunk core) s = .next t) ∧
      (s.tamperOpen k blk b l d = .ok none → exec (.tamperChunk core) s = .next s)) ∧
    (ready → b.topen = true →
      ((s.core core).blocked blk blk = true → exec (.tamperChunk core) s = .next s) ∧
      ((s.core core).blocked blk blk = false → ∀ t, s.tamperWork k blk b l d = .ok t → exec (.tamperChunk core) s = .next t))) ∧
  (∀ (g : Group) (entry : Nat) (m : Lanes) (fl : Flags) (now : Nat),
    let t := g.start entry m fl now
    t.live = m ∧ t.fpstat = g.fpstat ||| fl.setWidth 32 ∧ t.sr = g.sr ∧ t.v = g.v ∧ t.m = g.m ∧
    (m = 0 → t.splits = []) ∧ (m ≠ 0 → t.splits = [(0, freshSplit (entry + 4) m none .no)])) ∧
  (∀ (s : State) (blk : Nat) (b : Block), s.block blk = some b →
    (∀ l, s.launch b.launch = some l →
      (s.startable b l = false → exec (.blockStart blk) s = .next s) ∧
      (s.startable b l = true → b.ttokens = [] → ∀ t,
        (if l.lrec.nbind = 0 then s.acquire b.core 4 else s).startGroups b l ⟨some b.core, b.ctx, l.priv⟩ b.groups = .ok t →
        exec (.blockStart blk) s =
          .next (((t.endEmpty b).modBlock blk fun b => { b with phase := .running, ttokens := [] }).putTask blk 2))) ∧
    (s.retirable blk b = false → exec (.blockRetire blk) s = .next s) ∧
    (s.retirable blk b = true → ∃ t, exec (.blockRetire blk) s = .next t ∧ t.block blk = none) ∧
    (b.dying = false → exec (.blockKill blk) s = .next s) ∧
    (b.dying = true → b.ttokens = [] →
      let bs := match s.cluster b.cluster with
        | some c => c.blocks.filter fun k => (s.block k).isSome
        | none => [blk]
      ∀ t, s.addUses (some b.core) b.ctx false (bs.flatMap fun k => s.usesOf k) = .ok t →
        exec (.blockKill blk) s = .next ((((bs.foldl (fun s k => s.killBlock k) t).modCluster b.cluster fun c =>
          { c with near := [], far := [], nearDone := [] }).dropCluster b.cluster).freeRecords b.ctx))) ∧
  (∀ (s : State) (gid : Nat) (g : Group), s.group gid = some g →
    (s.slotFree gid g = false → (g.live ≠ 0 ∨ g.isQueue = true) → exec (.groupSlotRelease gid) s = .next s) ∧
    (s.slotFree gid g = false → g.live = 0 → g.isQueue = false → exec (.groupSlotRelease gid) s = .next (s.settleFor g.blk)) ∧
    (s.slotFree gid g = true → 128 ≤ gid → ∃ t : State, exec (.groupSlotRelease gid) s = .next (t.settleFor g.blk) ∧ t.group gid = none ∧
      (∀ k, k ≠ gid → t.group k = s.group k) ∧ t.mem = s.mem)) ∧
  (∀ (s : State) (lid : Nat) (l : Launch), s.launch lid = some l →
    (s.over l = false → exec (.launchComplete lid) s = .next s) ∧
    (s.over l = true → s.pkg.stopped = false → l.role = .kernel → s.completeTo l.target l.seq (l.status.getD 0) = none →
      exec (.launchComplete lid) s = .next s) ∧
    (s.over l = true → s.pkg.stopped = false → l.role = .kernel → ∀ t, s.completeTo l.target l.seq (l.status.getD 0) = some t →
      exec (.launchComplete lid) s = .next ({ t with launches := t.launches.erase lid }.dropDraw l.issuer)) ∧
    (s.over l = true → s.pkg.stopped = false → l.role ≠ .kernel →
      exec (.launchComplete lid) s = .next ({ s with launches := s.launches.erase lid }.dropDraw l.issuer)))) ∧
  (
  (∀ (seq : Word) (st : Nat), st < 256 → bits (cword seq st) 47 16 = seq.toNat ∧ bits (cword seq st) 7 0 = st ∧
    bits (cword seq st) 63 48 = 0 ∧ bits (cword seq st) 15 8 = 0) ∧
  (∀ (s : State) (q off : Nat) (seq : Word) (st : Nat), q < 128 →
    (s.isFull q off = true → s.completeTo (.word q off) seq st = none) ∧
    (s.isFull q off = false → s.woken q (off / 8) = none →
      s.completeTo (.word q off) seq st = some ((s.lsPut64 q off (cword seq st)).setFull q off true))))

/-- R93, R175, R178, R349–R352: eviction and return. A core saves the first group of it that has drained, with its team, or a
block whose last groups have exited beside evicted ones; else victims that a waiting demand may take stop at their next clause;
one that has drained for 8,192 cycles is cut off; a block or group that fits again returns; register requests and the promise of
R178 make room. A saved group keeps every register; one that is put back is resident with the registers of its frame. The
model’s choices, not the spec’s, are: what stands in a frame and what State carries (log 13), early returns (log 41), the choice
of core and victims (log 55), blocks without resident groups among them (log 89) (all DESIGN CHOICE), the reload of codebooks
(log 40) and returns behind a register grant (log 90), both DEDUCED. -/
def Obligations.EvictionAndReturn : Prop :=
  (∀ (s : State) (core : Nat),
    (∀ k, s.nextSave core = some k → exec (.partialEviction core) s = .next (s.saveTeam k)) ∧
    (∀ b, s.nextSave core = none → s.stranded core = some b → exec (.partialEviction core) s = .next (s.saveBlock b)) ∧
    (∀ inc gs, s.nextSave core = none → s.stranded core = none → s.evictionPlan = some (inc, gs) → (∃ k ∈ gs, s.coreOf k = some core) →
      exec (.partialEviction core) s = .next (s.evictFor inc gs)) ∧
    (s.nextSave core = none → s.stranded core = none → s.evictionPlan = none → exec (.partialEviction core) s = .next s)) ∧
  (∀ (s : State) (gid : Nat) (g : Group), s.group gid = some g → ∃ t, exec (.evictionDrainBound gid) s = .next t ∧
    OnlyGroup s t gid ∧ ∃ h, t.group gid = some h ∧ h = { g with cut := h.cut } ∧
    (∀ at_, g.res = .draining at_ → max at_ g.lastIssue + 8192 ≤ (s.core g.core).cycle → s.stopped gid g = true → h.cut = true) ∧
    ((∀ at_, g.res = .draining at_ → (s.core g.core).cycle < max at_ g.lastIssue + 8192 ∨ s.stopped gid g = false) → h = g)) ∧
  (∀ (s : State) (gid : Nat) (g : Group) (team : Option Team) (owned : Bool), s.group gid = some g →
    ∃ h, (s.saveGroup gid team owned).group gid = some h ∧ h.res = .evicted ∧ h.v = g.v ∧ h.sr = g.sr ∧ h.m = g.m ∧ h.f = g.f ∧
      h.fpstat = g.fpstat ∧ (∀ n, h.splits.find n = (g.splits.find n).map fun sp => { sp with inLoop := false }) ∧ h.live = g.live ∧
      h.frame = g.frame) ∧
  (∀ (s : State) (core quad gid : Nat) (g : Group), s.group gid = some g → g.team = none →
    let q := s.areaCheck g.ctx g.frame 0 65536
    let r := q.readFrame g
    ∃ h, (s.putBack core quad gid).group gid = some h ∧ h.res = .resident ∧ h.core = core ∧ h.quad = quad ∧ h.v = r.v ∧
      h.sr = r.sr ∧ h.m = r.m ∧ h.f = r.f ∧ h.fpstat = g.fpstat ∧ h.live = g.live ∧
      (q.areaHere g.ctx g.frame 1 = false → r = g) ∧
      (∀ n sp, g.splits.find n = some sp → h.splits.find n = some { sp with park := sp.park.restored })) ∧
  (∀ (s : State) (blk core : Nat) (b : Block) (l : Launch), s.block blk = some b → s.launch b.launch = some l →
    (s.ctx b.ctx).fatal = none → b.dying = false → s.pkg.stopped = false →
    (b.resident = false → ∀ t, s.restoreWhole blk core b l = some t →
      exec (.groupRestore blk core) s = .next ((t.freeRecords b.ctx).keepPromises)) ∧
    (b.resident = false → s.restoreWhole blk core b l = none → exec (.groupRestore blk core) s = .next s) ∧
    (b.resident = true → b.core = core → s.nextBack blk ≠ [] → s.fitsBack b (s.nextBack blk) = true →
      exec (.groupRestore blk core) s = .next ((((s.nextBack blk).foldl (fun s e => s.putBack core e.2.quad e.1)
        (s.loadCodebooks b.ctx core)).freeRecords b.ctx).keepPromises))) ∧
  (∀ (s : State) (core : Nat),
    (∀ r blk b rest, (∀ e ∈ s.groupsOn core, e.2.res = .resident) →
      (s.core core).restore.find? (fun r => s.owes core r && !(s.awayFrom core r.out).isEmpty) = some r →
      s.awayFrom core r.out = (blk, b) :: rest → s.canReturn blk b core = false →
      let gs := sortDesc (fun (e : Nat × Group) => e.2.placedAt) ((s.groupsOn core).filter fun e => e.2.ctx == r.inc)
      ∀ vs, s.choose none (!b.resident) (fun t => t.canReturn blk b core)
        (((gs.filter fun e => e.2.idle) ++ gs.filter fun e => !e.2.idle).map (·.1)) = some vs →
      exec (.restorationBound core) s = .next (s.evictFor r.out vs)) ∧
    (∀ x t a b, s.rbHead core = some (x, t, a, b) →
      let need := blockBytes x.g.width (t - x.g.rblk)
      let gs := s.groupsOn core
      let prey := (sortDesc (fun (e : Nat × Group) => e.2.placedAt) gs).map (·.1)
      (s.regBytes core + need ≤ (s.core core).poolb0 * 8192 → exec (.registerFifoEviction core) s = .next s) ∧
      ((s.core core).poolb0 * 8192 < s.regBytes core + need → (∀ e ∈ gs, e.2.parked = true ∧ e.2.res = .resident) →
        ∀ vs, s.prefixOf none false (fun u => decide (u.regBytes core + need ≤ (u.core core).poolb0 * 8192)) (some x.gid) prey [] =
            some vs → exec (.registerFifoEviction core) s = .next (s.evictFor x.g.ctx vs))))

/-- R16, R17, R333, R378–R381: links and ports. A die link that is lost is kept off by every route; without any, or without the
front-end link, the package faults and every enabled context meets cause 0x16; ports train, retrain and count; DOMCFG and a
port's mode change only while nothing is trained. A request of another package is applied at its home: a write lands, reads and
writes are answered, an atomic joins the queue of its line's slice. R383, R384, R386, R388, R389: resets, starts, firmware and
attestation. A reset of a die clears it, resets it and lets it restart, DIERST.STATE showing which; a cold start gives the reset
state with the fuses loaded; a warm one keeps memory, tags and DOMCFG; a start whose firmware a stage refuses leaves the package
in recovery until an accepted image. R385, R387: background work changes no memory. A thermal reading is implausible where R387
says so, and what takes its place is the hottest plausible neighbour plus 5 °C; at 115 °C the package faults, at 95 °C the clock
falls; a die without a plausible column for 4,096 readings faults the package. The model’s choices, not the spec’s, are: the end
of training (log 47), the median of two readings (log 48), a warm start (log 50), a lost route (log 53), the contexts of a full
reset (log 60), the measurements (log 65), DIERST.STATE (log 87) (all DEDUCED), background work (log 49) and the messages of
other packages (log 15), both DESIGN CHOICE. -/
def Obligations.PackageAgents : Prop :=
  (
  (∀ (s : State) (link : Nat),
    ((5 ≤ link ∨ link ∈ s.pkg.linksDown) → exec (.dieLinkDown link) s = .next s) ∧
    (link < 5 → link ∉ s.pkg.linksDown →
      let t := (s.modPkg fun p => { p with linksDown := p.linksDown ++ [link] }).log .dieLink link 0
      let all := link = 4 ∨ ∀ i, i < 4 → i ∈ s.pkg.linksDown ++ [link]
      (all → exec (.dieLinkDown link) s = .next (t.packageFault link)) ∧
      (¬ all → exec (.dieLinkDown link) s = .next (t.swapRoutes []))) ∧
    (link ∉ s.pkg.linksDown → exec (.dieLinkRestored link) s = .next s) ∧
    (link ∈ s.pkg.linksDown → exec (.dieLinkRestored link) s =
      .next (((s.modPkg fun p => { p with linksDown := p.linksDown.filter fun l => l != link }).log .dieLink link 1).swapRoutes [])) ∧
    (link < 5 → exec (.linkRetrain link) s = .next (s.log .linkRetrain link 0)) ∧
    (5 ≤ link → link < 23 → (s.port (link - 5)).state = 2 → ∃ t, exec (.linkRetrain link) s = .next t ∧
      (t.port (link - 5)).state = 3 ∧ (t.port (link - 5)).retrain = min 65535 ((s.port (link - 5)).retrain + 1) ∧
      t.groups = s.groups ∧ t.mem = s.mem)) ∧
  (∀ (s : State) (why : Nat), (s.packageFault why).pkg.stopped = true ∧
    ∀ c, (s.ctx c).en = true → ((s.packageFault why).ctx c).fatal ≠ none) ∧
  (∀ (down : List Nat) (a b : Nat), a < 8 → b < 8 →
    (a / 4 = b / 4 → a ≠ b → (routeOf down [] a b = [] ↔ ringNeighbours a b = true)) ∧
    (a / 4 ≠ b / 4 → (∃ x, x < 4 ∧ x ∉ down) → ∃ x, x < 4 ∧ x ∉ down ∧
      (a % 4 ∉ down → x = a % 4) ∧
      (4 * (a / 4) + x = a ∨ 4 * (a / 4) + x ∈ routeOf down [] a b) ∧
      (4 * (b / 4) + x = b ∨ 4 * (b / 4) + x ∈ routeOf down [] a b))) ∧
  (∀ (s : State) (p peer pport : Nat) (v : Dword), p < 18 →
    ((s.port p).state ≠ 0 → bits v 61 60 ≠ 3 → exec (.thrportModeWrite p v) s = .next s) ∧
    ((s.port p).state = 0 → bits v 61 60 < 2 →
      exec (.thrportModeWrite p v) s = .next (s.modPort p fun k => { k with mode := bits v 61 60 })) ∧
    (bits v 61 60 = 2 → (s.port p).state = 0 → (∀ e ∈ s.pkg.ports, e.1 ≠ p → e.2.mode ≠ 2) → s.pkg.hostpkg = s.pkg.pkgid →
      exec (.thrportModeWrite p v) s = .next (s.modPort p fun k => { k with mode := 2 })) ∧
    (bits v 61 60 = 2 → (s.port p).state = 0 → ((∃ e ∈ s.pkg.ports, e.1 ≠ p ∧ e.2.mode = 2) ∨ s.pkg.hostpkg ≠ s.pkg.pkgid) →
      exec (.thrportModeWrite p v) s = .next (s.log .portMode p 2)) ∧
    ((s.port p).mode ≠ 0 → (s.port p).state ≠ 2 → exec (.thrumriPortTrained p peer pport) s =
      .next (s.modPort p fun k => { k with state := 2, peer := peer % 1024, pport := pport % 32 })) ∧
    ((s.port p).state = 2 → exec (.thrumriFlitReplay p) s =
      .next (s.modPort p fun k => { k with replay := min 65535 (k.replay + 1) })) ∧
    ((s.pkg.ports.any fun e => e.2.state != 0) = true → exec (.domcfgWrite v) s = .next s) ∧
    ((s.pkg.ports.any fun e => e.2.state != 0) = false → exec (.domcfgWrite v) s =
      .next (s.modPkg fun p => { p with pkgid := bits v 63 54, hslot := bits v 53 51, hostpkg := bits v 50 41 }))) ∧
  (∀ (s : State) (a src c : Nat), s.place a = .mem c →
    (∀ bs cmp, bs.length ≤ 256 →
      exec (.thrumriRemoteAccess ⟨src, a, .write bs cmp⟩) s = .next ((s.homeWrite (s.canon a) bs cmp).answerTo src [])) ∧
    (∀ bs cmp, 256 < bs.length → exec (.thrumriRemoteAccess ⟨src, a, .write bs cmp⟩) s = .next s) ∧
    (∀ n, s.poisoned a n = true → exec (.thrumriRemoteAccess ⟨src, a, .read n⟩) s = .next ((s.reports a n).answerTo src [])) ∧
    (∀ n, s.poisoned a n = false → exec (.thrumriRemoteAccess ⟨src, a, .read n⟩) s =
      .next ((s.homeRead a n).2.answerTo src (s.homeRead a n).1)) ∧
    (∀ op w64 b k rel rmt cmp, ∃ t q, exec (.thrumriRemoteAccess ⟨src, a, .atomic op w64 b k rel rmt cmp⟩) s = .next t ∧
      t = s.modDie (homeDie c) (fun d => { d with atoms := d.atoms ++ [q] }) ∧
      q.addr = s.canon a ∧ q.op = op ∧ q.w64 = w64 ∧ q.b = b ∧ q.c = k ∧ q.cmp = cmp ∧ q.reply = some src) ∧
    (∀ k, k < 320 → exec (.thrumriRemoteAccess ⟨src, a, .promote k⟩) s =
      .next ((s.release k 4).modPkg fun p => { p with sent := p.sent ++ [⟨(s.release k 4).pkg.pkgid, a, .promoted⟩] }))) ∧
  (∀ (s : State) (a src T k e : Nat) (v : Word),
    (T < 16 → k < 320 → exec (.thrumriRemoteAccess ⟨src, a, .register T k⟩) s = .next (s.registerName T (320 * src + k))) ∧
    exec (.thrumriRemoteAccess ⟨src, a, .notice T k e v⟩) s =
      .next (s.send [⟨s.pkg.pkgid, src * 2 ^ 42, .noticed T k e v⟩]) ∧
    (∃ t, exec (.thrumriRemoteAccess ⟨src, a, .noticed T k e v⟩) s = .next t ∧ t.mem = s.mem ∧
      (t.table T).notices = (s.table T).notices.filter fun n => !(n.core == 320 * src + k && n.expert == e && n.version == v)) ∧
    (∀ bs, exec (.thrumriRemoteAccess ⟨src, a, .hostWrite bs⟩) s =
      .next (s.hostArrives src (a % 2 ^ 42) (some bs) bs.length)) ∧
    ∀ n, exec (.thrumriRemoteAccess ⟨src, a, .hostRead n⟩) s = .next (s.hostArrives src (a % 2 ^ 42) none n)) ∧
  (∀ (s : State) (pkg : Nat),
    exec (.thrumriRouteLost pkg true) s = .next ((s.log .routeLost pkg 1).send ((s.askedOf pkg).map (·.msg))) ∧
    let u := (s.log .routeLost pkg 0).loseAsked pkg
    ∃ t, exec (.thrumriRouteLost pkg false) s = .next t ∧ t.mem = s.mem ∧ (∀ a ∈ t.pkg.awaited, a.msg.addr / 2 ^ 42 ≠ pkg) ∧
      (∀ a ∈ s.pkg.awaited, a.msg.addr / 2 ^ 42 = pkg → ∀ c, a.ctx = some c → ((t.ctx c).fatal).isSome = true) ∧
      ∀ d, (t.die d).atoms = (u.die d).atoms.filter fun q => !u.awaitsPkg (u.die d) pkg q)) ∧
  (
  (∀ (s : State) (d : Nat), d < 8 → s.pkg.stopped = false →
    ((s.die d).dierst.getLsbD 63 = false →
      exec (.dieResetCompute d) s = .next ((s.setDierst d false true .clearing).log .dieReset d 0) ∧
      exec (.dieResetFull d) s = .next ((s.setDierst d true true .clearing).log .dieReset d 1)) ∧
    ((s.die d).dierst.getLsbD 63 = true → (s.die d).rst ≠ .inReset → (s.die d).rst ≠ .restarting →
      ((s.clearDie d).dieClear d = false →
        ((s.die d).dierst.getLsbD 62 = false → exec (.dieResetCompute d) s = .next (s.clearDie d)) ∧
        ((s.die d).dierst.getLsbD 62 = true → exec (.dieResetFull d) s = .next (s.clearDie d))) ∧
      ((s.clearDie d).dieClear d = true →
        ((s.die d).dierst.getLsbD 62 = false →
          exec (.dieResetCompute d) s = .next (((s.clearDie d).holdCores d).setDierst d false true .inReset)) ∧
        ((s.die d).dierst.getLsbD 62 = true → exec (.dieResetFull d) s =
          .next ((((s.clearDie d).swapRoutes [d]).holdCores d).setDierst d true true .inReset)))) ∧
    ((s.die d).dierst.getLsbD 63 = true → (s.die d).rst = .inReset →
      ((s.die d).dierst.getLsbD 62 = false →
        exec (.dieResetCompute d) s = .next (((s.freshCores d).failCopies d).setDierst d false true .restarting)) ∧
      ((s.die d).dierst.getLsbD 62 = true →
        ∃ t, exec (.dieResetFull d) s = .next t ∧ (t.die d).dierst.getLsbD 63 = true ∧ (t.die d).rst = .restarting ∧
          (∀ e ∈ t.mem, homeDie e.1 ≠ d) ∧ (s.hitBy d).all (fun c => (t.ctx c).fatal.isSome) = true)) ∧
    ((s.die d).dierst.getLsbD 63 = true → (s.die d).rst = .restarting →
      ((s.die d).dierst.getLsbD 62 = false → exec (.dieResetCompute d) s = .next (s.setDierst d false false .idle)) ∧
      ((s.die d).dierst.getLsbD 62 = true →
        exec (.dieResetFull d) s = .next ((s.setDierst d true false .idle).swapRoutes [])))) ∧
  (∀ (s : State) (fw : List FwImage) (fs : List DieFuses), ∃ t, exec (.coldStart fw fs) s = .next t ∧
    t.mem = [] ∧ t.tags = [] ∧ t.groups = [] ∧ t.blocks = [] ∧ t.launches = [] ∧ t.queues = State.reset.queues ∧ t.ctxs = State.reset.ctxs ∧
    t.dies = fusedDies fs ∧ t.pkg.measures = (measureAll fw).1 ∧ t.pkg.recovery = !(measureAll fw).2) ∧
  (∀ (s : State) (fw : List FwImage), ∃ t, exec (.warmStart fw) s = .next t ∧
    t.mem = s.mem ∧ t.tags = s.tags ∧ t.groups = [] ∧ t.blocks = [] ∧ t.launches = [] ∧
    t.pkg.pkgid = s.pkg.pkgid ∧ t.pkg.hslot = s.pkg.hslot ∧ t.pkg.hostpkg = s.pkg.hostpkg ∧
    t.pkg.measures = (measureAll fw).1 ∧ t.pkg.recovery = !(measureAll fw).2) ∧
  (∀ fw : List FwImage, ((measureAll fw).2 = true ↔ ∀ i ∈ fw, imageAccepted i = true) ∧
    ((measureAll fw).2 = true → (measureAll fw).1 = fw.map imageMeasure)) ∧
  (∀ (s : State) (i : FwImage),
    (s.pkg.recovery = false → exec (.firmwareRecoveryImage i) s = .next s) ∧
    (s.pkg.recovery = true → exec (.firmwareRecoveryImage i) s = .next (
      if imageAccepted i then s.modPkg fun p => { p with recovery := false, measures := p.measures ++ [imageMeasure i] }
      else s.log .firmware 0 0))) ∧
  (∀ (s : State) (n : BitVec 256), exec (.attestationRequest n) s = .next (s.answerTo hostDest (s.pkg.quote n ++
    natToBytes 2420 (Config.identitySign (bytesToNat (s.pkg.quote n))))))) ∧
  (
  (∀ (s : State) (d k : Nat), d < 8 →
    (∀ i ∈ [Instr.dramRefresh d k, .rowActivationRefresh d k, .cremaPatrolScrub d k], ∃ t, exec i s = .next t ∧
      t.mem = s.mem ∧ t.groups = s.groups ∧ t.cores = s.cores ∧ t.blocks = s.blocks ∧ t.ctxs = s.ctxs ∧ t.queues = s.queues ∧
      t.tags = s.tags ∧ (∀ n, (t.die n).tiles = (s.die n).tiles)) ∧
    (∃ t, exec (.dramRefresh d k) s = .next t ∧ KV.get 0 (t.die d).refresh k = KV.get 0 (s.die d).refresh k + 1) ∧
    (∃ t, exec (.rowActivationRefresh d k) s = .next t ∧ KV.get 0 (t.die d).acts k = KV.get 0 (s.die d).acts k + 1) ∧
    (k < 512 → ∃ t, exec (.cremaPatrolScrub d k) s = .next t ∧
      KV.get 0 (t.die d).scrub k = (KV.get 0 (s.die d).scrub k + 1) % 8192) ∧
    exec (.linkCalibration k) s = .next s ∧ exec (.sramVminCalibration d k) s = .next s) ∧
  (∀ (s : State) (d c : Nat) (r : Int), d < 8 → c < 40 →
    let k := (s.die d).take c r
    let bad := (s.die d).implausible c r k
    ∃ t, exec (.thermalSensorReading d c r) s = .next t ∧
      ((t.die d).col c).plausible = !bad ∧
      ((t.die d).col c).used = (if bad then (s.die d).replacement c else some r) ∧
      ((t.die d).col c).prev = some r ∧
      (∀ v, ((t.die d).col c).used = some v → 115000 ≤ v → t.pkg.stopped = true) ∧ t.mem = s.mem ∧ t.groups = s.groups) ∧
  (∀ (d : Die) (c : Nat) (r : Int) (k : ThermCol),
    (d.implausible c r k = true ↔ r < -20000 ∨ 125000 < r ∨ (∃ p, (d.col c).prev = some p ∧ 8000 < (r - p).natAbs) ∨
      (∃ m, median (d.readings (neighbours c)) = some m ∧ 25000 < (r - m).natAbs) ∨ (4096 ≤ k.repeats ∧ k.moved = true)) ∧
    (∀ m, maxInt (d.readings (neighbours c)) = some m → d.replacement c = some (m + 5000)) ∧
    (∀ l : List Int, ∀ m, maxInt l = some m → m ∈ l ∧ ∀ x ∈ l, x ≤ m)) ∧
  (∀ (s : State) (d : Nat),
    (∀ n, (s.die d).noPlausible = some n → 4096 ≤ n → s.pkg.stopped = false →
      exec (.thermalNoPlausibleTimeout d) s = .next (s.packageFault (16 + d))) ∧
    ((∀ n, (s.die d).noPlausible = some n → n < 4096) → exec (.thermalNoPlausibleTimeout d) s = .next s)))
end

