-- ==== Sys2Proof/Laws/Kv.lean ====
section
/-! SUPPORT. Laws of tables of key and value: what a lookup gives after an operation, and that every operation keeps the
canonical form of tables and of memory. The lookup laws need no sorted table. -/

namespace Sys2Proof

/-! ### Lookups -/

@[simp] theorem KV.find_nil {α : Type} (k : Nat) : KV.find ([] : KV α) k = none := rfl

@[simp] theorem KV.find_insert_self {α : Type} (m : KV α) (k : Nat) (v : α) : (KV.insert m k v).find k = some v := by
  induction m with
  | nil => simp [KV.insert, KV.find]
  | cons e t ih =>
    obtain ⟨k', v'⟩ := e
    simp only [KV.insert]
    split
    · simp [KV.find]
    · split <;> simp_all [KV.find]

theorem KV.find_insert_ne {α : Type} (m : KV α) {k j : Nat} (v : α) (h : j ≠ k) :
    (KV.insert m k v).find j = KV.find m j := by
  induction m with
  | nil => simp [KV.insert, KV.find, h]
  | cons e t ih =>
    obtain ⟨k', v'⟩ := e
    simp only [KV.insert]
    split
    · simp [KV.find, h]
    · split
      · subst_vars; simp [KV.find, h]
      · simp [KV.find, ih]

@[simp] theorem KV.find_erase_self {α : Type} (m : KV α) (k : Nat) : (KV.erase m k).find k = none := by
  induction m with
  | nil => rfl
  | cons e t ih =>
    obtain ⟨k', v'⟩ := e
    simp only [KV.erase]
    split <;> simp_all [KV.find]

theorem KV.find_erase_ne {α : Type} (m : KV α) {k j : Nat} (h : j ≠ k) : (KV.erase m k).find j = KV.find m j := by
  induction m with
  | nil => rfl
  | cons e t ih =>
    obtain ⟨k', v'⟩ := e
    simp only [KV.erase]
    split
    · subst_vars; simp [KV.find, h, ih]
    · simp [KV.find, ih]

@[simp] theorem KV.find_modify_self {α : Type} (m : KV α) (k : Nat) (f : α → α) :
    (KV.modify m k f).find k = (KV.find m k).map f := by
  induction m with
  | nil => rfl
  | cons e t ih =>
    obtain ⟨k', v'⟩ := e
    simp only [KV.modify]
    split <;> simp_all [KV.find]

theorem KV.find_modify_ne {α : Type} (m : KV α) {k j : Nat} (f : α → α) (h : j ≠ k) :
    (KV.modify m k f).find j = KV.find m j := by
  induction m with
  | nil => rfl
  | cons e t ih =>
    obtain ⟨k', v'⟩ := e
    simp only [KV.modify]
    split
    · subst_vars; simp [KV.find, h]
    · simp [KV.find, ih]

/-- Changing the value just inserted is inserting the changed value. -/
@[simp] theorem KV.modify_insert {α : Type} (m : KV α) (k : Nat) (v : α) (f : α → α) :
    (KV.insert m k v).modify k f = KV.insert m k (f v) := by
  induction m with
  | nil => simp [KV.insert, KV.modify]
  | cons e t ih =>
    obtain ⟨k', v'⟩ := e
    simp only [KV.insert]
    split
    · simp [KV.modify]
    · split <;> simp_all [KV.modify]

@[simp] theorem KV.insert_insert {α : Type} (m : KV α) (k : Nat) (v w : α) :
    (KV.insert m k v).insert k w = KV.insert m k w := by
  induction m with
  | nil => simp [KV.insert]
  | cons e t ih =>
    obtain ⟨k', v'⟩ := e
    simp only [KV.insert]
    split
    · simp [KV.insert]
    · split <;> simp_all [KV.insert]

@[simp] theorem KV.get_put_self {α : Type} [DecidableEq α] (d : α) (m : KV α) (k : Nat) (v : α) :
    KV.get d (KV.put d m k v) k = v := by
  simp only [KV.get, KV.put]
  split <;> simp_all

theorem KV.get_put_ne {α : Type} [DecidableEq α] (d : α) (m : KV α) {k j : Nat} (v : α) (h : j ≠ k) :
    KV.get d (KV.put d m k v) j = KV.get d m j := by
  simp only [KV.get, KV.put]
  split
  · rw [KV.find_erase_ne m h]
  · rw [KV.find_insert_ne m v h]

/-! ### The canonical form -/

/-- Every key of a table is above a bound. -/
def KV.above {α : Type} (b : Nat) (m : KV α) : Prop := ∀ e ∈ m, b < e.1

theorem KV.wf_cons {α : Type} (k : Nat) (v : α) (t : KV α) : KV.wf ((k, v) :: t) = true ↔ KV.above k t ∧ KV.wf t = true := by
  induction t generalizing k v with
  | nil => simp [KV.wf, KV.above]
  | cons e t ih =>
    obtain ⟨k', v'⟩ := e
    simp only [KV.wf, Bool.and_eq_true, decide_eq_true_eq]
    constructor
    · rintro ⟨h, hw⟩
      refine ⟨?_, hw⟩
      have h2 := ((ih k' v').1 hw).1
      intro e he
      rcases List.mem_cons.1 he with rfl | he
      · exact h
      · exact Nat.lt_trans h (h2 e he)
    · rintro ⟨ha, hw⟩
      exact ⟨ha (k', v') (by simp), hw⟩

theorem KV.above_insert {α : Type} {b k : Nat} (m : KV α) (v : α) (h : b < k) (ha : KV.above b m) :
    KV.above b (KV.insert m k v) := by
  induction m with
  | nil => intro e he; simp [KV.insert] at he; subst he; exact h
  | cons e t ih =>
    obtain ⟨k', v'⟩ := e
    have ht : KV.above b t := fun e he => ha e (by simp [he])
    simp only [KV.insert]
    split
    · intro e he
      rcases List.mem_cons.1 he with rfl | he
      · exact h
      · exact ha e he
    · split
      · intro e he
        rcases List.mem_cons.1 he with rfl | he
        · exact h
        · exact ht e he
      · intro e he
        rcases List.mem_cons.1 he with rfl | he
        · exact ha _ (by simp)
        · exact ih ht e he

theorem KV.wf_insert {α : Type} (m : KV α) (k : Nat) (v : α) (h : m.wf = true) : (KV.insert m k v).wf = true := by
  induction m with
  | nil => rfl
  | cons e t ih =>
    obtain ⟨k', v'⟩ := e
    have hc := (KV.wf_cons k' v' t).1 h
    simp only [KV.insert]
    split
    · next hlt =>
      refine (KV.wf_cons _ _ _).2 ⟨?_, h⟩
      intro e he
      rcases List.mem_cons.1 he with rfl | he
      · exact hlt
      · exact Nat.lt_trans hlt (hc.1 e he)
    · split
      · next heq => subst heq; exact (KV.wf_cons _ _ _).2 hc
      · next h1 h2 => exact (KV.wf_cons _ _ _).2 ⟨KV.above_insert t v (by omega) hc.1, ih hc.2⟩

theorem KV.wf_filter {α : Type} (m : KV α) (p : Nat × α → Bool) (h : m.wf = true) : KV.wf (List.filter p m) = true := by
  induction m with
  | nil => rfl
  | cons e t ih =>
    obtain ⟨k, v⟩ := e
    have hc := (KV.wf_cons k v t).1 h
    simp only [List.filter]
    split
    · refine (KV.wf_cons _ _ _).2 ⟨?_, ih hc.2⟩
      intro e he
      exact hc.1 e (List.mem_filter.1 he).1
    · exact ih hc.2

theorem KV.erase_eq_filter {α : Type} (m : KV α) (k : Nat) : KV.erase m k = List.filter (fun e => e.1 != k) m := by
  induction m with
  | nil => rfl
  | cons e t ih =>
    obtain ⟨k', v⟩ := e
    simp only [KV.erase, List.filter]
    by_cases h : k = k'
    · subst h; simp [ih]
    · have : (k' != k) = true := by simp; omega
      simp [h, this, ih]

theorem KV.wf_erase {α : Type} (m : KV α) (k : Nat) (h : m.wf = true) : (KV.erase m k).wf = true := by
  rw [KV.erase_eq_filter]; exact KV.wf_filter m _ h

theorem KV.wf_put {α : Type} [DecidableEq α] (d : α) (m : KV α) (k : Nat) (v : α) (h : m.wf = true) :
    (KV.put d m k v).wf = true := by
  simp only [KV.put]
  split
  · exact KV.wf_erase m k h
  · exact KV.wf_insert m k v h

theorem KV.mem_insert {α : Type} (m : KV α) (k : Nat) (v : α) (e : Nat × α) (h : e ∈ KV.insert m k v) :
    e = (k, v) ∨ e ∈ m := by
  induction m with
  | nil => simp [KV.insert] at h; exact .inl h
  | cons a t ih =>
    obtain ⟨k', v'⟩ := a
    simp only [KV.insert] at h
    split at h
    · rcases List.mem_cons.1 h with h | h
      · exact .inl h
      · exact .inr h
    · split at h
      · rcases List.mem_cons.1 h with h | h
        · exact .inl h
        · exact .inr (by simp [h])
      · rcases List.mem_cons.1 h with h | h
        · exact .inr (by simp [h])
        · rcases ih h with h | h
          · exact .inl h
          · exact .inr (by simp [h])

namespace Machine

@[simp] theorem Memory.read_write_self (m : Memory) (a : Nat) (b : Byte) : Memory.read (Memory.write m a b) a = b :=
  KV.get_put_self 0 m a b

theorem Memory.read_write_ne (m : Memory) {a c : Nat} (b : Byte) (h : c ≠ a) :
    Memory.read (Memory.write m a b) c = Memory.read m c := KV.get_put_ne 0 m b h

theorem Memory.wf_iff (m : Memory) : Memory.wf m = true ↔ KV.wf m = true ∧ ∀ e ∈ m, e.2 ≠ 0 := by
  simp only [Memory.wf, Bool.and_eq_true, List.all_eq_true, bne_iff_ne]

/-- A write keeps the canonical form. -/
theorem Memory.wf_write (m : Memory) (a : Nat) (b : Byte) (h : Memory.wf m = true) : Memory.wf (Memory.write m a b) = true := by
  obtain ⟨hk, hn⟩ := (Memory.wf_iff m).1 h
  refine (Memory.wf_iff _).2 ⟨KV.wf_put 0 m a b hk, ?_⟩
  intro e he
  simp only [Memory.write, KV.put] at he
  split at he
  · rw [KV.erase_eq_filter] at he; exact hn e (List.mem_filter.1 he).1
  · rcases KV.mem_insert m a b e he with rfl | he
    · assumption
    · exact hn e he

/-- Writing several bytes keeps the canonical form. -/
theorem Memory.wf_writeN (bs : List Byte) (m : Memory) (a : Nat) (h : Memory.wf m = true) : Memory.wf (Memory.writeN m a bs) = true := by
  induction bs generalizing m a with
  | nil => exact h
  | cons b t ih => exact ih _ _ (Memory.wf_write m a b h)

/-- Clearing a range keeps the canonical form. -/
theorem Memory.wf_clear (m : Memory) (a n : Nat) (h : Memory.wf m = true) : Memory.wf (Memory.clear m a n) = true := by
  obtain ⟨hk, hn⟩ := (Memory.wf_iff m).1 h
  exact (Memory.wf_iff _).2 ⟨KV.wf_filter m _ hk, fun e he => hn e (List.mem_filter.1 he).1⟩

/-- What a byte reads as after a run of bytes is written: the byte of the run, or what it was. -/
theorem Memory.read_writeN (bs : List Byte) (m : Memory) (a c : Nat) :
    Memory.read (Memory.writeN m a bs) c = if a ≤ c ∧ c < a + bs.length then bs.getD (c - a) 0 else Memory.read m c := by
  induction bs generalizing m a with
  | nil => simp [Memory.writeN]
  | cons b t ih =>
    simp only [Memory.writeN, ih, List.length_cons]
    by_cases h1 : c = a
    · subst h1; simp
    · rw [Memory.read_write_ne m b h1]
      by_cases h2 : a + 1 ≤ c ∧ c < a + 1 + t.length
      · have h3 : a ≤ c ∧ c < a + (t.length + 1) := by omega
        have h4 : c - a = (c - (a + 1)) + 1 := by omega
        rw [if_pos h2, if_pos h3, h4]; simp
      · have h3 : ¬ (a ≤ c ∧ c < a + (t.length + 1)) := by omega
        rw [if_neg h2, if_neg h3]

end Machine
end Sys2Proof
end

