-- ==== Sys2Proof/Laws/State.lean ====
section
/-! SUPPORT. What each update of the state leaves: one law for each field and update, true by definition; what looking up a
unit gives after an update of it or of another; laws of a group's registers. -/

namespace Sys2Proof.Machine

/-! ### setCore -/

@[simp] theorem State.setCore_mem (s : State) (n : Nat) (c : Core) : (s.setCore n c).mem = s.mem := rfl
@[simp] theorem State.setCore_tags (s : State) (n : Nat) (c : Core) : (s.setCore n c).tags = s.tags := rfl
@[simp] theorem State.setCore_l2 (s : State) (n : Nat) (c : Core) : (s.setCore n c).l2 = s.l2 := rfl
@[simp] theorem State.setCore_poison (s : State) (n : Nat) (c : Core) : (s.setCore n c).poison = s.poison := rfl
@[simp] theorem State.setCore_cores (s : State) (n : Nat) (c : Core) : (s.setCore n c).cores = s.cores.insert n c := rfl
@[simp] theorem State.setCore_dies (s : State) (n : Nat) (c : Core) : (s.setCore n c).dies = s.dies := rfl
@[simp] theorem State.setCore_groups (s : State) (n : Nat) (c : Core) : (s.setCore n c).groups = s.groups := rfl
@[simp] theorem State.setCore_blocks (s : State) (n : Nat) (c : Core) : (s.setCore n c).blocks = s.blocks := rfl
@[simp] theorem State.setCore_clusters (s : State) (n : Nat) (c : Core) : (s.setCore n c).clusters = s.clusters := rfl
@[simp] theorem State.setCore_launches (s : State) (n : Nat) (c : Core) : (s.setCore n c).launches = s.launches := rfl
@[simp] theorem State.setCore_draws (s : State) (n : Nat) (c : Core) : (s.setCore n c).draws = s.draws := rfl
@[simp] theorem State.setCore_tickets (s : State) (n : Nat) (c : Core) : (s.setCore n c).tickets = s.tickets := rfl
@[simp] theorem State.setCore_quadSets (s : State) (n : Nat) (c : Core) : (s.setCore n c).quadSets = s.quadSets := rfl
@[simp] theorem State.setCore_grinds (s : State) (n : Nat) (c : Core) : (s.setCore n c).grinds = s.grinds := rfl
@[simp] theorem State.setCore_ctxs (s : State) (n : Nat) (c : Core) : (s.setCore n c).ctxs = s.ctxs := rfl
@[simp] theorem State.setCore_vfs (s : State) (n : Nat) (c : Core) : (s.setCore n c).vfs = s.vfs := rfl
@[simp] theorem State.setCore_queues (s : State) (n : Nat) (c : Core) : (s.setCore n c).queues = s.queues := rfl
@[simp] theorem State.setCore_cps (s : State) (n : Nat) (c : Core) : (s.setCore n c).cps = s.cps := rfl
@[simp] theorem State.setCore_tables (s : State) (n : Nat) (c : Core) : (s.setCore n c).tables = s.tables := rfl
@[simp] theorem State.setCore_pkg (s : State) (n : Nat) (c : Core) : (s.setCore n c).pkg = s.pkg := rfl
@[simp] theorem State.setCore_issuer (s : State) (n : Nat) (c : Core) : (s.setCore n c).issuer = s.issuer := rfl
@[simp] theorem State.setCore_agenda (s : State) (n : Nat) (c : Core) : (s.setCore n c).agenda = s.agenda := rfl
@[simp] theorem State.setCore_nextId (s : State) (n : Nat) (c : Core) : (s.setCore n c).nextId = s.nextId := rfl
@[simp] theorem State.setCore_freeCount (s : State) (n : Nat) (c : Core) : (s.setCore n c).freeCount = s.freeCount := rfl

/-! ### modCore -/

@[simp] theorem State.modCore_mem (s : State) (n : Nat) (f : Core → Core) : (s.modCore n f).mem = s.mem := rfl
@[simp] theorem State.modCore_tags (s : State) (n : Nat) (f : Core → Core) : (s.modCore n f).tags = s.tags := rfl
@[simp] theorem State.modCore_l2 (s : State) (n : Nat) (f : Core → Core) : (s.modCore n f).l2 = s.l2 := rfl
@[simp] theorem State.modCore_poison (s : State) (n : Nat) (f : Core → Core) : (s.modCore n f).poison = s.poison := rfl
@[simp] theorem State.modCore_cores (s : State) (n : Nat) (f : Core → Core) : (s.modCore n f).cores = s.cores.insert n (f (s.core n)) := rfl
@[simp] theorem State.modCore_dies (s : State) (n : Nat) (f : Core → Core) : (s.modCore n f).dies = s.dies := rfl
@[simp] theorem State.modCore_groups (s : State) (n : Nat) (f : Core → Core) : (s.modCore n f).groups = s.groups := rfl
@[simp] theorem State.modCore_blocks (s : State) (n : Nat) (f : Core → Core) : (s.modCore n f).blocks = s.blocks := rfl
@[simp] theorem State.modCore_clusters (s : State) (n : Nat) (f : Core → Core) : (s.modCore n f).clusters = s.clusters := rfl
@[simp] theorem State.modCore_launches (s : State) (n : Nat) (f : Core → Core) : (s.modCore n f).launches = s.launches := rfl
@[simp] theorem State.modCore_draws (s : State) (n : Nat) (f : Core → Core) : (s.modCore n f).draws = s.draws := rfl
@[simp] theorem State.modCore_tickets (s : State) (n : Nat) (f : Core → Core) : (s.modCore n f).tickets = s.tickets := rfl
@[simp] theorem State.modCore_quadSets (s : State) (n : Nat) (f : Core → Core) : (s.modCore n f).quadSets = s.quadSets := rfl
@[simp] theorem State.modCore_grinds (s : State) (n : Nat) (f : Core → Core) : (s.modCore n f).grinds = s.grinds := rfl
@[simp] theorem State.modCore_ctxs (s : State) (n : Nat) (f : Core → Core) : (s.modCore n f).ctxs = s.ctxs := rfl
@[simp] theorem State.modCore_vfs (s : State) (n : Nat) (f : Core → Core) : (s.modCore n f).vfs = s.vfs := rfl
@[simp] theorem State.modCore_queues (s : State) (n : Nat) (f : Core → Core) : (s.modCore n f).queues = s.queues := rfl
@[simp] theorem State.modCore_cps (s : State) (n : Nat) (f : Core → Core) : (s.modCore n f).cps = s.cps := rfl
@[simp] theorem State.modCore_tables (s : State) (n : Nat) (f : Core → Core) : (s.modCore n f).tables = s.tables := rfl
@[simp] theorem State.modCore_pkg (s : State) (n : Nat) (f : Core → Core) : (s.modCore n f).pkg = s.pkg := rfl
@[simp] theorem State.modCore_issuer (s : State) (n : Nat) (f : Core → Core) : (s.modCore n f).issuer = s.issuer := rfl
@[simp] theorem State.modCore_agenda (s : State) (n : Nat) (f : Core → Core) : (s.modCore n f).agenda = s.agenda := rfl
@[simp] theorem State.modCore_nextId (s : State) (n : Nat) (f : Core → Core) : (s.modCore n f).nextId = s.nextId := rfl
@[simp] theorem State.modCore_freeCount (s : State) (n : Nat) (f : Core → Core) : (s.modCore n f).freeCount = s.freeCount := rfl

/-! ### modDie -/

@[simp] theorem State.modDie_mem (s : State) (n : Nat) (f : Die → Die) : (s.modDie n f).mem = s.mem := rfl
@[simp] theorem State.modDie_tags (s : State) (n : Nat) (f : Die → Die) : (s.modDie n f).tags = s.tags := rfl
@[simp] theorem State.modDie_l2 (s : State) (n : Nat) (f : Die → Die) : (s.modDie n f).l2 = s.l2 := rfl
@[simp] theorem State.modDie_poison (s : State) (n : Nat) (f : Die → Die) : (s.modDie n f).poison = s.poison := rfl
@[simp] theorem State.modDie_cores (s : State) (n : Nat) (f : Die → Die) : (s.modDie n f).cores = s.cores := rfl
@[simp] theorem State.modDie_dies (s : State) (n : Nat) (f : Die → Die) : (s.modDie n f).dies = s.dies.insert n (f (s.die n)) := rfl
@[simp] theorem State.modDie_groups (s : State) (n : Nat) (f : Die → Die) : (s.modDie n f).groups = s.groups := rfl
@[simp] theorem State.modDie_blocks (s : State) (n : Nat) (f : Die → Die) : (s.modDie n f).blocks = s.blocks := rfl
@[simp] theorem State.modDie_clusters (s : State) (n : Nat) (f : Die → Die) : (s.modDie n f).clusters = s.clusters := rfl
@[simp] theorem State.modDie_launches (s : State) (n : Nat) (f : Die → Die) : (s.modDie n f).launches = s.launches := rfl
@[simp] theorem State.modDie_draws (s : State) (n : Nat) (f : Die → Die) : (s.modDie n f).draws = s.draws := rfl
@[simp] theorem State.modDie_tickets (s : State) (n : Nat) (f : Die → Die) : (s.modDie n f).tickets = s.tickets := rfl
@[simp] theorem State.modDie_quadSets (s : State) (n : Nat) (f : Die → Die) : (s.modDie n f).quadSets = s.quadSets := rfl
@[simp] theorem State.modDie_grinds (s : State) (n : Nat) (f : Die → Die) : (s.modDie n f).grinds = s.grinds := rfl
@[simp] theorem State.modDie_ctxs (s : State) (n : Nat) (f : Die → Die) : (s.modDie n f).ctxs = s.ctxs := rfl
@[simp] theorem State.modDie_vfs (s : State) (n : Nat) (f : Die → Die) : (s.modDie n f).vfs = s.vfs := rfl
@[simp] theorem State.modDie_queues (s : State) (n : Nat) (f : Die → Die) : (s.modDie n f).queues = s.queues := rfl
@[simp] theorem State.modDie_cps (s : State) (n : Nat) (f : Die → Die) : (s.modDie n f).cps = s.cps := rfl
@[simp] theorem State.modDie_tables (s : State) (n : Nat) (f : Die → Die) : (s.modDie n f).tables = s.tables := rfl
@[simp] theorem State.modDie_pkg (s : State) (n : Nat) (f : Die → Die) : (s.modDie n f).pkg = s.pkg := rfl
@[simp] theorem State.modDie_issuer (s : State) (n : Nat) (f : Die → Die) : (s.modDie n f).issuer = s.issuer := rfl
@[simp] theorem State.modDie_agenda (s : State) (n : Nat) (f : Die → Die) : (s.modDie n f).agenda = s.agenda := rfl
@[simp] theorem State.modDie_nextId (s : State) (n : Nat) (f : Die → Die) : (s.modDie n f).nextId = s.nextId := rfl
@[simp] theorem State.modDie_freeCount (s : State) (n : Nat) (f : Die → Die) : (s.modDie n f).freeCount = s.freeCount := rfl

/-! ### modCtx -/

@[simp] theorem State.modCtx_mem (s : State) (n : Nat) (f : Context → Context) : (s.modCtx n f).mem = s.mem := rfl
@[simp] theorem State.modCtx_tags (s : State) (n : Nat) (f : Context → Context) : (s.modCtx n f).tags = s.tags := rfl
@[simp] theorem State.modCtx_l2 (s : State) (n : Nat) (f : Context → Context) : (s.modCtx n f).l2 = s.l2 := rfl
@[simp] theorem State.modCtx_poison (s : State) (n : Nat) (f : Context → Context) : (s.modCtx n f).poison = s.poison := rfl
@[simp] theorem State.modCtx_cores (s : State) (n : Nat) (f : Context → Context) : (s.modCtx n f).cores = s.cores := rfl
@[simp] theorem State.modCtx_dies (s : State) (n : Nat) (f : Context → Context) : (s.modCtx n f).dies = s.dies := rfl
@[simp] theorem State.modCtx_groups (s : State) (n : Nat) (f : Context → Context) : (s.modCtx n f).groups = s.groups := rfl
@[simp] theorem State.modCtx_blocks (s : State) (n : Nat) (f : Context → Context) : (s.modCtx n f).blocks = s.blocks := rfl
@[simp] theorem State.modCtx_clusters (s : State) (n : Nat) (f : Context → Context) : (s.modCtx n f).clusters = s.clusters := rfl
@[simp] theorem State.modCtx_launches (s : State) (n : Nat) (f : Context → Context) : (s.modCtx n f).launches = s.launches := rfl
@[simp] theorem State.modCtx_draws (s : State) (n : Nat) (f : Context → Context) : (s.modCtx n f).draws = s.draws := rfl
@[simp] theorem State.modCtx_tickets (s : State) (n : Nat) (f : Context → Context) : (s.modCtx n f).tickets = s.tickets := rfl
@[simp] theorem State.modCtx_quadSets (s : State) (n : Nat) (f : Context → Context) : (s.modCtx n f).quadSets = s.quadSets := rfl
@[simp] theorem State.modCtx_grinds (s : State) (n : Nat) (f : Context → Context) : (s.modCtx n f).grinds = s.grinds := rfl
@[simp] theorem State.modCtx_ctxs (s : State) (n : Nat) (f : Context → Context) : (s.modCtx n f).ctxs = s.ctxs.insert n (f (s.ctx n)) := rfl
@[simp] theorem State.modCtx_vfs (s : State) (n : Nat) (f : Context → Context) : (s.modCtx n f).vfs = s.vfs := rfl
@[simp] theorem State.modCtx_queues (s : State) (n : Nat) (f : Context → Context) : (s.modCtx n f).queues = s.queues := rfl
@[simp] theorem State.modCtx_cps (s : State) (n : Nat) (f : Context → Context) : (s.modCtx n f).cps = s.cps := rfl
@[simp] theorem State.modCtx_tables (s : State) (n : Nat) (f : Context → Context) : (s.modCtx n f).tables = s.tables := rfl
@[simp] theorem State.modCtx_pkg (s : State) (n : Nat) (f : Context → Context) : (s.modCtx n f).pkg = s.pkg := rfl
@[simp] theorem State.modCtx_issuer (s : State) (n : Nat) (f : Context → Context) : (s.modCtx n f).issuer = s.issuer := rfl
@[simp] theorem State.modCtx_agenda (s : State) (n : Nat) (f : Context → Context) : (s.modCtx n f).agenda = s.agenda := rfl
@[simp] theorem State.modCtx_nextId (s : State) (n : Nat) (f : Context → Context) : (s.modCtx n f).nextId = s.nextId := rfl
@[simp] theorem State.modCtx_freeCount (s : State) (n : Nat) (f : Context → Context) : (s.modCtx n f).freeCount = s.freeCount := rfl

/-! ### modVf -/

@[simp] theorem State.modVf_mem (s : State) (n : Nat) (f : VF → VF) : (s.modVf n f).mem = s.mem := rfl
@[simp] theorem State.modVf_tags (s : State) (n : Nat) (f : VF → VF) : (s.modVf n f).tags = s.tags := rfl
@[simp] theorem State.modVf_l2 (s : State) (n : Nat) (f : VF → VF) : (s.modVf n f).l2 = s.l2 := rfl
@[simp] theorem State.modVf_poison (s : State) (n : Nat) (f : VF → VF) : (s.modVf n f).poison = s.poison := rfl
@[simp] theorem State.modVf_cores (s : State) (n : Nat) (f : VF → VF) : (s.modVf n f).cores = s.cores := rfl
@[simp] theorem State.modVf_dies (s : State) (n : Nat) (f : VF → VF) : (s.modVf n f).dies = s.dies := rfl
@[simp] theorem State.modVf_groups (s : State) (n : Nat) (f : VF → VF) : (s.modVf n f).groups = s.groups := rfl
@[simp] theorem State.modVf_blocks (s : State) (n : Nat) (f : VF → VF) : (s.modVf n f).blocks = s.blocks := rfl
@[simp] theorem State.modVf_clusters (s : State) (n : Nat) (f : VF → VF) : (s.modVf n f).clusters = s.clusters := rfl
@[simp] theorem State.modVf_launches (s : State) (n : Nat) (f : VF → VF) : (s.modVf n f).launches = s.launches := rfl
@[simp] theorem State.modVf_draws (s : State) (n : Nat) (f : VF → VF) : (s.modVf n f).draws = s.draws := rfl
@[simp] theorem State.modVf_tickets (s : State) (n : Nat) (f : VF → VF) : (s.modVf n f).tickets = s.tickets := rfl
@[simp] theorem State.modVf_quadSets (s : State) (n : Nat) (f : VF → VF) : (s.modVf n f).quadSets = s.quadSets := rfl
@[simp] theorem State.modVf_grinds (s : State) (n : Nat) (f : VF → VF) : (s.modVf n f).grinds = s.grinds := rfl
@[simp] theorem State.modVf_ctxs (s : State) (n : Nat) (f : VF → VF) : (s.modVf n f).ctxs = s.ctxs := rfl
@[simp] theorem State.modVf_vfs (s : State) (n : Nat) (f : VF → VF) : (s.modVf n f).vfs = s.vfs.insert n (f (s.vf n)) := rfl
@[simp] theorem State.modVf_queues (s : State) (n : Nat) (f : VF → VF) : (s.modVf n f).queues = s.queues := rfl
@[simp] theorem State.modVf_cps (s : State) (n : Nat) (f : VF → VF) : (s.modVf n f).cps = s.cps := rfl
@[simp] theorem State.modVf_tables (s : State) (n : Nat) (f : VF → VF) : (s.modVf n f).tables = s.tables := rfl
@[simp] theorem State.modVf_pkg (s : State) (n : Nat) (f : VF → VF) : (s.modVf n f).pkg = s.pkg := rfl
@[simp] theorem State.modVf_issuer (s : State) (n : Nat) (f : VF → VF) : (s.modVf n f).issuer = s.issuer := rfl
@[simp] theorem State.modVf_agenda (s : State) (n : Nat) (f : VF → VF) : (s.modVf n f).agenda = s.agenda := rfl
@[simp] theorem State.modVf_nextId (s : State) (n : Nat) (f : VF → VF) : (s.modVf n f).nextId = s.nextId := rfl
@[simp] theorem State.modVf_freeCount (s : State) (n : Nat) (f : VF → VF) : (s.modVf n f).freeCount = s.freeCount := rfl

/-! ### modQueue -/

@[simp] theorem State.modQueue_mem (s : State) (n : Nat) (f : Queue → Queue) : (s.modQueue n f).mem = s.mem := rfl
@[simp] theorem State.modQueue_tags (s : State) (n : Nat) (f : Queue → Queue) : (s.modQueue n f).tags = s.tags := rfl
@[simp] theorem State.modQueue_l2 (s : State) (n : Nat) (f : Queue → Queue) : (s.modQueue n f).l2 = s.l2 := rfl
@[simp] theorem State.modQueue_poison (s : State) (n : Nat) (f : Queue → Queue) : (s.modQueue n f).poison = s.poison := rfl
@[simp] theorem State.modQueue_cores (s : State) (n : Nat) (f : Queue → Queue) : (s.modQueue n f).cores = s.cores := rfl
@[simp] theorem State.modQueue_dies (s : State) (n : Nat) (f : Queue → Queue) : (s.modQueue n f).dies = s.dies := rfl
@[simp] theorem State.modQueue_groups (s : State) (n : Nat) (f : Queue → Queue) : (s.modQueue n f).groups = s.groups := rfl
@[simp] theorem State.modQueue_blocks (s : State) (n : Nat) (f : Queue → Queue) : (s.modQueue n f).blocks = s.blocks := rfl
@[simp] theorem State.modQueue_clusters (s : State) (n : Nat) (f : Queue → Queue) : (s.modQueue n f).clusters = s.clusters := rfl
@[simp] theorem State.modQueue_launches (s : State) (n : Nat) (f : Queue → Queue) : (s.modQueue n f).launches = s.launches := rfl
@[simp] theorem State.modQueue_draws (s : State) (n : Nat) (f : Queue → Queue) : (s.modQueue n f).draws = s.draws := rfl
@[simp] theorem State.modQueue_tickets (s : State) (n : Nat) (f : Queue → Queue) : (s.modQueue n f).tickets = s.tickets := rfl
@[simp] theorem State.modQueue_quadSets (s : State) (n : Nat) (f : Queue → Queue) : (s.modQueue n f).quadSets = s.quadSets := rfl
@[simp] theorem State.modQueue_grinds (s : State) (n : Nat) (f : Queue → Queue) : (s.modQueue n f).grinds = s.grinds := rfl
@[simp] theorem State.modQueue_ctxs (s : State) (n : Nat) (f : Queue → Queue) : (s.modQueue n f).ctxs = s.ctxs := rfl
@[simp] theorem State.modQueue_vfs (s : State) (n : Nat) (f : Queue → Queue) : (s.modQueue n f).vfs = s.vfs := rfl
@[simp] theorem State.modQueue_queues (s : State) (n : Nat) (f : Queue → Queue) : (s.modQueue n f).queues = s.queues.insert n (f (s.queue n)) := rfl
@[simp] theorem State.modQueue_cps (s : State) (n : Nat) (f : Queue → Queue) : (s.modQueue n f).cps = s.cps := rfl
@[simp] theorem State.modQueue_tables (s : State) (n : Nat) (f : Queue → Queue) : (s.modQueue n f).tables = s.tables := rfl
@[simp] theorem State.modQueue_pkg (s : State) (n : Nat) (f : Queue → Queue) : (s.modQueue n f).pkg = s.pkg := rfl
@[simp] theorem State.modQueue_issuer (s : State) (n : Nat) (f : Queue → Queue) : (s.modQueue n f).issuer = s.issuer := rfl
@[simp] theorem State.modQueue_agenda (s : State) (n : Nat) (f : Queue → Queue) : (s.modQueue n f).agenda = s.agenda := rfl
@[simp] theorem State.modQueue_nextId (s : State) (n : Nat) (f : Queue → Queue) : (s.modQueue n f).nextId = s.nextId := rfl
@[simp] theorem State.modQueue_freeCount (s : State) (n : Nat) (f : Queue → Queue) : (s.modQueue n f).freeCount = s.freeCount := rfl

/-! ### modCp -/

@[simp] theorem State.modCp_mem (s : State) (n : Nat) (f : CmdProc → CmdProc) : (s.modCp n f).mem = s.mem := rfl
@[simp] theorem State.modCp_tags (s : State) (n : Nat) (f : CmdProc → CmdProc) : (s.modCp n f).tags = s.tags := rfl
@[simp] theorem State.modCp_l2 (s : State) (n : Nat) (f : CmdProc → CmdProc) : (s.modCp n f).l2 = s.l2 := rfl
@[simp] theorem State.modCp_poison (s : State) (n : Nat) (f : CmdProc → CmdProc) : (s.modCp n f).poison = s.poison := rfl
@[simp] theorem State.modCp_cores (s : State) (n : Nat) (f : CmdProc → CmdProc) : (s.modCp n f).cores = s.cores := rfl
@[simp] theorem State.modCp_dies (s : State) (n : Nat) (f : CmdProc → CmdProc) : (s.modCp n f).dies = s.dies := rfl
@[simp] theorem State.modCp_groups (s : State) (n : Nat) (f : CmdProc → CmdProc) : (s.modCp n f).groups = s.groups := rfl
@[simp] theorem State.modCp_blocks (s : State) (n : Nat) (f : CmdProc → CmdProc) : (s.modCp n f).blocks = s.blocks := rfl
@[simp] theorem State.modCp_clusters (s : State) (n : Nat) (f : CmdProc → CmdProc) : (s.modCp n f).clusters = s.clusters := rfl
@[simp] theorem State.modCp_launches (s : State) (n : Nat) (f : CmdProc → CmdProc) : (s.modCp n f).launches = s.launches := rfl
@[simp] theorem State.modCp_draws (s : State) (n : Nat) (f : CmdProc → CmdProc) : (s.modCp n f).draws = s.draws := rfl
@[simp] theorem State.modCp_tickets (s : State) (n : Nat) (f : CmdProc → CmdProc) : (s.modCp n f).tickets = s.tickets := rfl
@[simp] theorem State.modCp_quadSets (s : State) (n : Nat) (f : CmdProc → CmdProc) : (s.modCp n f).quadSets = s.quadSets := rfl
@[simp] theorem State.modCp_grinds (s : State) (n : Nat) (f : CmdProc → CmdProc) : (s.modCp n f).grinds = s.grinds := rfl
@[simp] theorem State.modCp_ctxs (s : State) (n : Nat) (f : CmdProc → CmdProc) : (s.modCp n f).ctxs = s.ctxs := rfl
@[simp] theorem State.modCp_vfs (s : State) (n : Nat) (f : CmdProc → CmdProc) : (s.modCp n f).vfs = s.vfs := rfl
@[simp] theorem State.modCp_queues (s : State) (n : Nat) (f : CmdProc → CmdProc) : (s.modCp n f).queues = s.queues := rfl
@[simp] theorem State.modCp_cps (s : State) (n : Nat) (f : CmdProc → CmdProc) : (s.modCp n f).cps = s.cps.insert n (f (s.cp n)) := rfl
@[simp] theorem State.modCp_tables (s : State) (n : Nat) (f : CmdProc → CmdProc) : (s.modCp n f).tables = s.tables := rfl
@[simp] theorem State.modCp_pkg (s : State) (n : Nat) (f : CmdProc → CmdProc) : (s.modCp n f).pkg = s.pkg := rfl
@[simp] theorem State.modCp_issuer (s : State) (n : Nat) (f : CmdProc → CmdProc) : (s.modCp n f).issuer = s.issuer := rfl
@[simp] theorem State.modCp_agenda (s : State) (n : Nat) (f : CmdProc → CmdProc) : (s.modCp n f).agenda = s.agenda := rfl
@[simp] theorem State.modCp_nextId (s : State) (n : Nat) (f : CmdProc → CmdProc) : (s.modCp n f).nextId = s.nextId := rfl
@[simp] theorem State.modCp_freeCount (s : State) (n : Nat) (f : CmdProc → CmdProc) : (s.modCp n f).freeCount = s.freeCount := rfl

/-! ### modTable -/

@[simp] theorem State.modTable_mem (s : State) (n : Nat) (f : ExpTable → ExpTable) : (s.modTable n f).mem = s.mem := rfl
@[simp] theorem State.modTable_tags (s : State) (n : Nat) (f : ExpTable → ExpTable) : (s.modTable n f).tags = s.tags := rfl
@[simp] theorem State.modTable_l2 (s : State) (n : Nat) (f : ExpTable → ExpTable) : (s.modTable n f).l2 = s.l2 := rfl
@[simp] theorem State.modTable_poison (s : State) (n : Nat) (f : ExpTable → ExpTable) : (s.modTable n f).poison = s.poison := rfl
@[simp] theorem State.modTable_cores (s : State) (n : Nat) (f : ExpTable → ExpTable) : (s.modTable n f).cores = s.cores := rfl
@[simp] theorem State.modTable_dies (s : State) (n : Nat) (f : ExpTable → ExpTable) : (s.modTable n f).dies = s.dies := rfl
@[simp] theorem State.modTable_groups (s : State) (n : Nat) (f : ExpTable → ExpTable) : (s.modTable n f).groups = s.groups := rfl
@[simp] theorem State.modTable_blocks (s : State) (n : Nat) (f : ExpTable → ExpTable) : (s.modTable n f).blocks = s.blocks := rfl
@[simp] theorem State.modTable_clusters (s : State) (n : Nat) (f : ExpTable → ExpTable) : (s.modTable n f).clusters = s.clusters := rfl
@[simp] theorem State.modTable_launches (s : State) (n : Nat) (f : ExpTable → ExpTable) : (s.modTable n f).launches = s.launches := rfl
@[simp] theorem State.modTable_draws (s : State) (n : Nat) (f : ExpTable → ExpTable) : (s.modTable n f).draws = s.draws := rfl
@[simp] theorem State.modTable_tickets (s : State) (n : Nat) (f : ExpTable → ExpTable) : (s.modTable n f).tickets = s.tickets := rfl
@[simp] theorem State.modTable_quadSets (s : State) (n : Nat) (f : ExpTable → ExpTable) : (s.modTable n f).quadSets = s.quadSets := rfl
@[simp] theorem State.modTable_grinds (s : State) (n : Nat) (f : ExpTable → ExpTable) : (s.modTable n f).grinds = s.grinds := rfl
@[simp] theorem State.modTable_ctxs (s : State) (n : Nat) (f : ExpTable → ExpTable) : (s.modTable n f).ctxs = s.ctxs := rfl
@[simp] theorem State.modTable_vfs (s : State) (n : Nat) (f : ExpTable → ExpTable) : (s.modTable n f).vfs = s.vfs := rfl
@[simp] theorem State.modTable_queues (s : State) (n : Nat) (f : ExpTable → ExpTable) : (s.modTable n f).queues = s.queues := rfl
@[simp] theorem State.modTable_cps (s : State) (n : Nat) (f : ExpTable → ExpTable) : (s.modTable n f).cps = s.cps := rfl
@[simp] theorem State.modTable_tables (s : State) (n : Nat) (f : ExpTable → ExpTable) : (s.modTable n f).tables = s.tables.insert n (f (s.table n)) := rfl
@[simp] theorem State.modTable_pkg (s : State) (n : Nat) (f : ExpTable → ExpTable) : (s.modTable n f).pkg = s.pkg := rfl
@[simp] theorem State.modTable_issuer (s : State) (n : Nat) (f : ExpTable → ExpTable) : (s.modTable n f).issuer = s.issuer := rfl
@[simp] theorem State.modTable_agenda (s : State) (n : Nat) (f : ExpTable → ExpTable) : (s.modTable n f).agenda = s.agenda := rfl
@[simp] theorem State.modTable_nextId (s : State) (n : Nat) (f : ExpTable → ExpTable) : (s.modTable n f).nextId = s.nextId := rfl
@[simp] theorem State.modTable_freeCount (s : State) (n : Nat) (f : ExpTable → ExpTable) : (s.modTable n f).freeCount = s.freeCount := rfl

/-! ### setGroup -/

@[simp] theorem State.setGroup_mem (s : State) (n : Nat) (g : Group) : (s.setGroup n g).mem = s.mem := rfl
@[simp] theorem State.setGroup_tags (s : State) (n : Nat) (g : Group) : (s.setGroup n g).tags = s.tags := rfl
@[simp] theorem State.setGroup_l2 (s : State) (n : Nat) (g : Group) : (s.setGroup n g).l2 = s.l2 := rfl
@[simp] theorem State.setGroup_poison (s : State) (n : Nat) (g : Group) : (s.setGroup n g).poison = s.poison := rfl
@[simp] theorem State.setGroup_cores (s : State) (n : Nat) (g : Group) : (s.setGroup n g).cores = s.cores := rfl
@[simp] theorem State.setGroup_dies (s : State) (n : Nat) (g : Group) : (s.setGroup n g).dies = s.dies := rfl
@[simp] theorem State.setGroup_groups (s : State) (n : Nat) (g : Group) : (s.setGroup n g).groups = s.groups.insert n g := rfl
@[simp] theorem State.setGroup_blocks (s : State) (n : Nat) (g : Group) : (s.setGroup n g).blocks = s.blocks := rfl
@[simp] theorem State.setGroup_clusters (s : State) (n : Nat) (g : Group) : (s.setGroup n g).clusters = s.clusters := rfl
@[simp] theorem State.setGroup_launches (s : State) (n : Nat) (g : Group) : (s.setGroup n g).launches = s.launches := rfl
@[simp] theorem State.setGroup_draws (s : State) (n : Nat) (g : Group) : (s.setGroup n g).draws = s.draws := rfl
@[simp] theorem State.setGroup_tickets (s : State) (n : Nat) (g : Group) : (s.setGroup n g).tickets = s.tickets := rfl
@[simp] theorem State.setGroup_quadSets (s : State) (n : Nat) (g : Group) : (s.setGroup n g).quadSets = s.quadSets := rfl
@[simp] theorem State.setGroup_grinds (s : State) (n : Nat) (g : Group) : (s.setGroup n g).grinds = s.grinds := rfl
@[simp] theorem State.setGroup_ctxs (s : State) (n : Nat) (g : Group) : (s.setGroup n g).ctxs = s.ctxs := rfl
@[simp] theorem State.setGroup_vfs (s : State) (n : Nat) (g : Group) : (s.setGroup n g).vfs = s.vfs := rfl
@[simp] theorem State.setGroup_queues (s : State) (n : Nat) (g : Group) : (s.setGroup n g).queues = s.queues := rfl
@[simp] theorem State.setGroup_cps (s : State) (n : Nat) (g : Group) : (s.setGroup n g).cps = s.cps := rfl
@[simp] theorem State.setGroup_tables (s : State) (n : Nat) (g : Group) : (s.setGroup n g).tables = s.tables := rfl
@[simp] theorem State.setGroup_pkg (s : State) (n : Nat) (g : Group) : (s.setGroup n g).pkg = s.pkg := rfl
@[simp] theorem State.setGroup_issuer (s : State) (n : Nat) (g : Group) : (s.setGroup n g).issuer = s.issuer := rfl
@[simp] theorem State.setGroup_agenda (s : State) (n : Nat) (g : Group) : (s.setGroup n g).agenda = s.agenda := rfl
@[simp] theorem State.setGroup_nextId (s : State) (n : Nat) (g : Group) : (s.setGroup n g).nextId = s.nextId := rfl
@[simp] theorem State.setGroup_freeCount (s : State) (n : Nat) (g : Group) : (s.setGroup n g).freeCount = s.freeCount := rfl

/-! ### modGroup -/

@[simp] theorem State.modGroup_mem (s : State) (n : Nat) (f : Group → Group) : (s.modGroup n f).mem = s.mem := rfl
@[simp] theorem State.modGroup_tags (s : State) (n : Nat) (f : Group → Group) : (s.modGroup n f).tags = s.tags := rfl
@[simp] theorem State.modGroup_l2 (s : State) (n : Nat) (f : Group → Group) : (s.modGroup n f).l2 = s.l2 := rfl
@[simp] theorem State.modGroup_poison (s : State) (n : Nat) (f : Group → Group) : (s.modGroup n f).poison = s.poison := rfl
@[simp] theorem State.modGroup_cores (s : State) (n : Nat) (f : Group → Group) : (s.modGroup n f).cores = s.cores := rfl
@[simp] theorem State.modGroup_dies (s : State) (n : Nat) (f : Group → Group) : (s.modGroup n f).dies = s.dies := rfl
@[simp] theorem State.modGroup_blocks (s : State) (n : Nat) (f : Group → Group) : (s.modGroup n f).blocks = s.blocks := rfl
@[simp] theorem State.modGroup_clusters (s : State) (n : Nat) (f : Group → Group) : (s.modGroup n f).clusters = s.clusters := rfl
@[simp] theorem State.modGroup_launches (s : State) (n : Nat) (f : Group → Group) : (s.modGroup n f).launches = s.launches := rfl
@[simp] theorem State.modGroup_draws (s : State) (n : Nat) (f : Group → Group) : (s.modGroup n f).draws = s.draws := rfl
@[simp] theorem State.modGroup_tickets (s : State) (n : Nat) (f : Group → Group) : (s.modGroup n f).tickets = s.tickets := rfl
@[simp] theorem State.modGroup_quadSets (s : State) (n : Nat) (f : Group → Group) : (s.modGroup n f).quadSets = s.quadSets := rfl
@[simp] theorem State.modGroup_grinds (s : State) (n : Nat) (f : Group → Group) : (s.modGroup n f).grinds = s.grinds := rfl
@[simp] theorem State.modGroup_ctxs (s : State) (n : Nat) (f : Group → Group) : (s.modGroup n f).ctxs = s.ctxs := rfl
@[simp] theorem State.modGroup_vfs (s : State) (n : Nat) (f : Group → Group) : (s.modGroup n f).vfs = s.vfs := rfl
@[simp] theorem State.modGroup_queues (s : State) (n : Nat) (f : Group → Group) : (s.modGroup n f).queues = s.queues := rfl
@[simp] theorem State.modGroup_cps (s : State) (n : Nat) (f : Group → Group) : (s.modGroup n f).cps = s.cps := rfl
@[simp] theorem State.modGroup_tables (s : State) (n : Nat) (f : Group → Group) : (s.modGroup n f).tables = s.tables := rfl
@[simp] theorem State.modGroup_pkg (s : State) (n : Nat) (f : Group → Group) : (s.modGroup n f).pkg = s.pkg := rfl
@[simp] theorem State.modGroup_issuer (s : State) (n : Nat) (f : Group → Group) : (s.modGroup n f).issuer = s.issuer := rfl
@[simp] theorem State.modGroup_agenda (s : State) (n : Nat) (f : Group → Group) : (s.modGroup n f).agenda = s.agenda := rfl
@[simp] theorem State.modGroup_nextId (s : State) (n : Nat) (f : Group → Group) : (s.modGroup n f).nextId = s.nextId := rfl
@[simp] theorem State.modGroup_freeCount (s : State) (n : Nat) (f : Group → Group) : (s.modGroup n f).freeCount = s.freeCount := rfl

/-! ### modBlock -/

@[simp] theorem State.modBlock_mem (s : State) (n : Nat) (f : Block → Block) : (s.modBlock n f).mem = s.mem := rfl
@[simp] theorem State.modBlock_tags (s : State) (n : Nat) (f : Block → Block) : (s.modBlock n f).tags = s.tags := rfl
@[simp] theorem State.modBlock_l2 (s : State) (n : Nat) (f : Block → Block) : (s.modBlock n f).l2 = s.l2 := rfl
@[simp] theorem State.modBlock_poison (s : State) (n : Nat) (f : Block → Block) : (s.modBlock n f).poison = s.poison := rfl
@[simp] theorem State.modBlock_cores (s : State) (n : Nat) (f : Block → Block) : (s.modBlock n f).cores = s.cores := rfl
@[simp] theorem State.modBlock_dies (s : State) (n : Nat) (f : Block → Block) : (s.modBlock n f).dies = s.dies := rfl
@[simp] theorem State.modBlock_groups (s : State) (n : Nat) (f : Block → Block) : (s.modBlock n f).groups = s.groups := rfl
@[simp] theorem State.modBlock_blocks (s : State) (n : Nat) (f : Block → Block) : (s.modBlock n f).blocks = s.blocks.modify n f := rfl
@[simp] theorem State.modBlock_clusters (s : State) (n : Nat) (f : Block → Block) : (s.modBlock n f).clusters = s.clusters := rfl
@[simp] theorem State.modBlock_launches (s : State) (n : Nat) (f : Block → Block) : (s.modBlock n f).launches = s.launches := rfl
@[simp] theorem State.modBlock_draws (s : State) (n : Nat) (f : Block → Block) : (s.modBlock n f).draws = s.draws := rfl
@[simp] theorem State.modBlock_tickets (s : State) (n : Nat) (f : Block → Block) : (s.modBlock n f).tickets = s.tickets := rfl
@[simp] theorem State.modBlock_quadSets (s : State) (n : Nat) (f : Block → Block) : (s.modBlock n f).quadSets = s.quadSets := rfl
@[simp] theorem State.modBlock_grinds (s : State) (n : Nat) (f : Block → Block) : (s.modBlock n f).grinds = s.grinds := rfl
@[simp] theorem State.modBlock_ctxs (s : State) (n : Nat) (f : Block → Block) : (s.modBlock n f).ctxs = s.ctxs := rfl
@[simp] theorem State.modBlock_vfs (s : State) (n : Nat) (f : Block → Block) : (s.modBlock n f).vfs = s.vfs := rfl
@[simp] theorem State.modBlock_queues (s : State) (n : Nat) (f : Block → Block) : (s.modBlock n f).queues = s.queues := rfl
@[simp] theorem State.modBlock_cps (s : State) (n : Nat) (f : Block → Block) : (s.modBlock n f).cps = s.cps := rfl
@[simp] theorem State.modBlock_tables (s : State) (n : Nat) (f : Block → Block) : (s.modBlock n f).tables = s.tables := rfl
@[simp] theorem State.modBlock_pkg (s : State) (n : Nat) (f : Block → Block) : (s.modBlock n f).pkg = s.pkg := rfl
@[simp] theorem State.modBlock_issuer (s : State) (n : Nat) (f : Block → Block) : (s.modBlock n f).issuer = s.issuer := rfl
@[simp] theorem State.modBlock_agenda (s : State) (n : Nat) (f : Block → Block) : (s.modBlock n f).agenda = s.agenda := rfl
@[simp] theorem State.modBlock_nextId (s : State) (n : Nat) (f : Block → Block) : (s.modBlock n f).nextId = s.nextId := rfl
@[simp] theorem State.modBlock_freeCount (s : State) (n : Nat) (f : Block → Block) : (s.modBlock n f).freeCount = s.freeCount := rfl

/-! ### modLaunch -/

@[simp] theorem State.modLaunch_mem (s : State) (n : Nat) (f : Launch → Launch) : (s.modLaunch n f).mem = s.mem := rfl
@[simp] theorem State.modLaunch_tags (s : State) (n : Nat) (f : Launch → Launch) : (s.modLaunch n f).tags = s.tags := rfl
@[simp] theorem State.modLaunch_l2 (s : State) (n : Nat) (f : Launch → Launch) : (s.modLaunch n f).l2 = s.l2 := rfl
@[simp] theorem State.modLaunch_poison (s : State) (n : Nat) (f : Launch → Launch) : (s.modLaunch n f).poison = s.poison := rfl
@[simp] theorem State.modLaunch_cores (s : State) (n : Nat) (f : Launch → Launch) : (s.modLaunch n f).cores = s.cores := rfl
@[simp] theorem State.modLaunch_dies (s : State) (n : Nat) (f : Launch → Launch) : (s.modLaunch n f).dies = s.dies := rfl
@[simp] theorem State.modLaunch_groups (s : State) (n : Nat) (f : Launch → Launch) : (s.modLaunch n f).groups = s.groups := rfl
@[simp] theorem State.modLaunch_blocks (s : State) (n : Nat) (f : Launch → Launch) : (s.modLaunch n f).blocks = s.blocks := rfl
@[simp] theorem State.modLaunch_clusters (s : State) (n : Nat) (f : Launch → Launch) : (s.modLaunch n f).clusters = s.clusters := rfl
@[simp] theorem State.modLaunch_launches (s : State) (n : Nat) (f : Launch → Launch) : (s.modLaunch n f).launches = s.launches.modify n f := rfl
@[simp] theorem State.modLaunch_draws (s : State) (n : Nat) (f : Launch → Launch) : (s.modLaunch n f).draws = s.draws := rfl
@[simp] theorem State.modLaunch_tickets (s : State) (n : Nat) (f : Launch → Launch) : (s.modLaunch n f).tickets = s.tickets := rfl
@[simp] theorem State.modLaunch_quadSets (s : State) (n : Nat) (f : Launch → Launch) : (s.modLaunch n f).quadSets = s.quadSets := rfl
@[simp] theorem State.modLaunch_grinds (s : State) (n : Nat) (f : Launch → Launch) : (s.modLaunch n f).grinds = s.grinds := rfl
@[simp] theorem State.modLaunch_ctxs (s : State) (n : Nat) (f : Launch → Launch) : (s.modLaunch n f).ctxs = s.ctxs := rfl
@[simp] theorem State.modLaunch_vfs (s : State) (n : Nat) (f : Launch → Launch) : (s.modLaunch n f).vfs = s.vfs := rfl
@[simp] theorem State.modLaunch_queues (s : State) (n : Nat) (f : Launch → Launch) : (s.modLaunch n f).queues = s.queues := rfl
@[simp] theorem State.modLaunch_cps (s : State) (n : Nat) (f : Launch → Launch) : (s.modLaunch n f).cps = s.cps := rfl
@[simp] theorem State.modLaunch_tables (s : State) (n : Nat) (f : Launch → Launch) : (s.modLaunch n f).tables = s.tables := rfl
@[simp] theorem State.modLaunch_pkg (s : State) (n : Nat) (f : Launch → Launch) : (s.modLaunch n f).pkg = s.pkg := rfl
@[simp] theorem State.modLaunch_issuer (s : State) (n : Nat) (f : Launch → Launch) : (s.modLaunch n f).issuer = s.issuer := rfl
@[simp] theorem State.modLaunch_agenda (s : State) (n : Nat) (f : Launch → Launch) : (s.modLaunch n f).agenda = s.agenda := rfl
@[simp] theorem State.modLaunch_nextId (s : State) (n : Nat) (f : Launch → Launch) : (s.modLaunch n f).nextId = s.nextId := rfl
@[simp] theorem State.modLaunch_freeCount (s : State) (n : Nat) (f : Launch → Launch) : (s.modLaunch n f).freeCount = s.freeCount := rfl

/-! ### modDraw -/

@[simp] theorem State.modDraw_mem (s : State) (n : Nat) (f : Draw → Draw) : (s.modDraw n f).mem = s.mem := rfl
@[simp] theorem State.modDraw_tags (s : State) (n : Nat) (f : Draw → Draw) : (s.modDraw n f).tags = s.tags := rfl
@[simp] theorem State.modDraw_l2 (s : State) (n : Nat) (f : Draw → Draw) : (s.modDraw n f).l2 = s.l2 := rfl
@[simp] theorem State.modDraw_poison (s : State) (n : Nat) (f : Draw → Draw) : (s.modDraw n f).poison = s.poison := rfl
@[simp] theorem State.modDraw_cores (s : State) (n : Nat) (f : Draw → Draw) : (s.modDraw n f).cores = s.cores := rfl
@[simp] theorem State.modDraw_dies (s : State) (n : Nat) (f : Draw → Draw) : (s.modDraw n f).dies = s.dies := rfl
@[simp] theorem State.modDraw_groups (s : State) (n : Nat) (f : Draw → Draw) : (s.modDraw n f).groups = s.groups := rfl
@[simp] theorem State.modDraw_blocks (s : State) (n : Nat) (f : Draw → Draw) : (s.modDraw n f).blocks = s.blocks := rfl
@[simp] theorem State.modDraw_clusters (s : State) (n : Nat) (f : Draw → Draw) : (s.modDraw n f).clusters = s.clusters := rfl
@[simp] theorem State.modDraw_launches (s : State) (n : Nat) (f : Draw → Draw) : (s.modDraw n f).launches = s.launches := rfl
@[simp] theorem State.modDraw_draws (s : State) (n : Nat) (f : Draw → Draw) : (s.modDraw n f).draws = s.draws.modify n f := rfl
@[simp] theorem State.modDraw_tickets (s : State) (n : Nat) (f : Draw → Draw) : (s.modDraw n f).tickets = s.tickets := rfl
@[simp] theorem State.modDraw_quadSets (s : State) (n : Nat) (f : Draw → Draw) : (s.modDraw n f).quadSets = s.quadSets := rfl
@[simp] theorem State.modDraw_grinds (s : State) (n : Nat) (f : Draw → Draw) : (s.modDraw n f).grinds = s.grinds := rfl
@[simp] theorem State.modDraw_ctxs (s : State) (n : Nat) (f : Draw → Draw) : (s.modDraw n f).ctxs = s.ctxs := rfl
@[simp] theorem State.modDraw_vfs (s : State) (n : Nat) (f : Draw → Draw) : (s.modDraw n f).vfs = s.vfs := rfl
@[simp] theorem State.modDraw_queues (s : State) (n : Nat) (f : Draw → Draw) : (s.modDraw n f).queues = s.queues := rfl
@[simp] theorem State.modDraw_cps (s : State) (n : Nat) (f : Draw → Draw) : (s.modDraw n f).cps = s.cps := rfl
@[simp] theorem State.modDraw_tables (s : State) (n : Nat) (f : Draw → Draw) : (s.modDraw n f).tables = s.tables := rfl
@[simp] theorem State.modDraw_pkg (s : State) (n : Nat) (f : Draw → Draw) : (s.modDraw n f).pkg = s.pkg := rfl
@[simp] theorem State.modDraw_issuer (s : State) (n : Nat) (f : Draw → Draw) : (s.modDraw n f).issuer = s.issuer := rfl
@[simp] theorem State.modDraw_agenda (s : State) (n : Nat) (f : Draw → Draw) : (s.modDraw n f).agenda = s.agenda := rfl
@[simp] theorem State.modDraw_nextId (s : State) (n : Nat) (f : Draw → Draw) : (s.modDraw n f).nextId = s.nextId := rfl
@[simp] theorem State.modDraw_freeCount (s : State) (n : Nat) (f : Draw → Draw) : (s.modDraw n f).freeCount = s.freeCount := rfl

/-! ### modCluster -/

@[simp] theorem State.modCluster_mem (s : State) (n : Nat) (f : Cluster → Cluster) : (s.modCluster n f).mem = s.mem := rfl
@[simp] theorem State.modCluster_tags (s : State) (n : Nat) (f : Cluster → Cluster) : (s.modCluster n f).tags = s.tags := rfl
@[simp] theorem State.modCluster_l2 (s : State) (n : Nat) (f : Cluster → Cluster) : (s.modCluster n f).l2 = s.l2 := rfl
@[simp] theorem State.modCluster_poison (s : State) (n : Nat) (f : Cluster → Cluster) : (s.modCluster n f).poison = s.poison := rfl
@[simp] theorem State.modCluster_cores (s : State) (n : Nat) (f : Cluster → Cluster) : (s.modCluster n f).cores = s.cores := rfl
@[simp] theorem State.modCluster_dies (s : State) (n : Nat) (f : Cluster → Cluster) : (s.modCluster n f).dies = s.dies := rfl
@[simp] theorem State.modCluster_groups (s : State) (n : Nat) (f : Cluster → Cluster) : (s.modCluster n f).groups = s.groups := rfl
@[simp] theorem State.modCluster_blocks (s : State) (n : Nat) (f : Cluster → Cluster) : (s.modCluster n f).blocks = s.blocks := rfl
@[simp] theorem State.modCluster_clusters (s : State) (n : Nat) (f : Cluster → Cluster) : (s.modCluster n f).clusters = s.clusters.modify n f := rfl
@[simp] theorem State.modCluster_launches (s : State) (n : Nat) (f : Cluster → Cluster) : (s.modCluster n f).launches = s.launches := rfl
@[simp] theorem State.modCluster_draws (s : State) (n : Nat) (f : Cluster → Cluster) : (s.modCluster n f).draws = s.draws := rfl
@[simp] theorem State.modCluster_tickets (s : State) (n : Nat) (f : Cluster → Cluster) : (s.modCluster n f).tickets = s.tickets := rfl
@[simp] theorem State.modCluster_quadSets (s : State) (n : Nat) (f : Cluster → Cluster) : (s.modCluster n f).quadSets = s.quadSets := rfl
@[simp] theorem State.modCluster_grinds (s : State) (n : Nat) (f : Cluster → Cluster) : (s.modCluster n f).grinds = s.grinds := rfl
@[simp] theorem State.modCluster_ctxs (s : State) (n : Nat) (f : Cluster → Cluster) : (s.modCluster n f).ctxs = s.ctxs := rfl
@[simp] theorem State.modCluster_vfs (s : State) (n : Nat) (f : Cluster → Cluster) : (s.modCluster n f).vfs = s.vfs := rfl
@[simp] theorem State.modCluster_queues (s : State) (n : Nat) (f : Cluster → Cluster) : (s.modCluster n f).queues = s.queues := rfl
@[simp] theorem State.modCluster_cps (s : State) (n : Nat) (f : Cluster → Cluster) : (s.modCluster n f).cps = s.cps := rfl
@[simp] theorem State.modCluster_tables (s : State) (n : Nat) (f : Cluster → Cluster) : (s.modCluster n f).tables = s.tables := rfl
@[simp] theorem State.modCluster_pkg (s : State) (n : Nat) (f : Cluster → Cluster) : (s.modCluster n f).pkg = s.pkg := rfl
@[simp] theorem State.modCluster_issuer (s : State) (n : Nat) (f : Cluster → Cluster) : (s.modCluster n f).issuer = s.issuer := rfl
@[simp] theorem State.modCluster_agenda (s : State) (n : Nat) (f : Cluster → Cluster) : (s.modCluster n f).agenda = s.agenda := rfl
@[simp] theorem State.modCluster_nextId (s : State) (n : Nat) (f : Cluster → Cluster) : (s.modCluster n f).nextId = s.nextId := rfl
@[simp] theorem State.modCluster_freeCount (s : State) (n : Nat) (f : Cluster → Cluster) : (s.modCluster n f).freeCount = s.freeCount := rfl

/-! ### modPkg -/

@[simp] theorem State.modPkg_mem (s : State) (f : Package → Package) : (s.modPkg f).mem = s.mem := rfl
@[simp] theorem State.modPkg_tags (s : State) (f : Package → Package) : (s.modPkg f).tags = s.tags := rfl
@[simp] theorem State.modPkg_l2 (s : State) (f : Package → Package) : (s.modPkg f).l2 = s.l2 := rfl
@[simp] theorem State.modPkg_poison (s : State) (f : Package → Package) : (s.modPkg f).poison = s.poison := rfl
@[simp] theorem State.modPkg_cores (s : State) (f : Package → Package) : (s.modPkg f).cores = s.cores := rfl
@[simp] theorem State.modPkg_dies (s : State) (f : Package → Package) : (s.modPkg f).dies = s.dies := rfl
@[simp] theorem State.modPkg_groups (s : State) (f : Package → Package) : (s.modPkg f).groups = s.groups := rfl
@[simp] theorem State.modPkg_blocks (s : State) (f : Package → Package) : (s.modPkg f).blocks = s.blocks := rfl
@[simp] theorem State.modPkg_clusters (s : State) (f : Package → Package) : (s.modPkg f).clusters = s.clusters := rfl
@[simp] theorem State.modPkg_launches (s : State) (f : Package → Package) : (s.modPkg f).launches = s.launches := rfl
@[simp] theorem State.modPkg_draws (s : State) (f : Package → Package) : (s.modPkg f).draws = s.draws := rfl
@[simp] theorem State.modPkg_tickets (s : State) (f : Package → Package) : (s.modPkg f).tickets = s.tickets := rfl
@[simp] theorem State.modPkg_quadSets (s : State) (f : Package → Package) : (s.modPkg f).quadSets = s.quadSets := rfl
@[simp] theorem State.modPkg_grinds (s : State) (f : Package → Package) : (s.modPkg f).grinds = s.grinds := rfl
@[simp] theorem State.modPkg_ctxs (s : State) (f : Package → Package) : (s.modPkg f).ctxs = s.ctxs := rfl
@[simp] theorem State.modPkg_vfs (s : State) (f : Package → Package) : (s.modPkg f).vfs = s.vfs := rfl
@[simp] theorem State.modPkg_queues (s : State) (f : Package → Package) : (s.modPkg f).queues = s.queues := rfl
@[simp] theorem State.modPkg_cps (s : State) (f : Package → Package) : (s.modPkg f).cps = s.cps := rfl
@[simp] theorem State.modPkg_tables (s : State) (f : Package → Package) : (s.modPkg f).tables = s.tables := rfl
@[simp] theorem State.modPkg_pkg (s : State) (f : Package → Package) : (s.modPkg f).pkg = f s.pkg := rfl
@[simp] theorem State.modPkg_issuer (s : State) (f : Package → Package) : (s.modPkg f).issuer = s.issuer := rfl
@[simp] theorem State.modPkg_agenda (s : State) (f : Package → Package) : (s.modPkg f).agenda = s.agenda := rfl
@[simp] theorem State.modPkg_nextId (s : State) (f : Package → Package) : (s.modPkg f).nextId = s.nextId := rfl
@[simp] theorem State.modPkg_freeCount (s : State) (f : Package → Package) : (s.modPkg f).freeCount = s.freeCount := rfl

/-! ### modSplit -/

@[simp] theorem State.modSplit_mem (s : State) (a b : Nat) (f : Split → Split) : (s.modSplit a b f).mem = s.mem := rfl
@[simp] theorem State.modSplit_tags (s : State) (a b : Nat) (f : Split → Split) : (s.modSplit a b f).tags = s.tags := rfl
@[simp] theorem State.modSplit_l2 (s : State) (a b : Nat) (f : Split → Split) : (s.modSplit a b f).l2 = s.l2 := rfl
@[simp] theorem State.modSplit_poison (s : State) (a b : Nat) (f : Split → Split) : (s.modSplit a b f).poison = s.poison := rfl
@[simp] theorem State.modSplit_cores (s : State) (a b : Nat) (f : Split → Split) : (s.modSplit a b f).cores = s.cores := rfl
@[simp] theorem State.modSplit_dies (s : State) (a b : Nat) (f : Split → Split) : (s.modSplit a b f).dies = s.dies := rfl
@[simp] theorem State.modSplit_blocks (s : State) (a b : Nat) (f : Split → Split) : (s.modSplit a b f).blocks = s.blocks := rfl
@[simp] theorem State.modSplit_clusters (s : State) (a b : Nat) (f : Split → Split) : (s.modSplit a b f).clusters = s.clusters := rfl
@[simp] theorem State.modSplit_launches (s : State) (a b : Nat) (f : Split → Split) : (s.modSplit a b f).launches = s.launches := rfl
@[simp] theorem State.modSplit_draws (s : State) (a b : Nat) (f : Split → Split) : (s.modSplit a b f).draws = s.draws := rfl
@[simp] theorem State.modSplit_tickets (s : State) (a b : Nat) (f : Split → Split) : (s.modSplit a b f).tickets = s.tickets := rfl
@[simp] theorem State.modSplit_quadSets (s : State) (a b : Nat) (f : Split → Split) : (s.modSplit a b f).quadSets = s.quadSets := rfl
@[simp] theorem State.modSplit_grinds (s : State) (a b : Nat) (f : Split → Split) : (s.modSplit a b f).grinds = s.grinds := rfl
@[simp] theorem State.modSplit_ctxs (s : State) (a b : Nat) (f : Split → Split) : (s.modSplit a b f).ctxs = s.ctxs := rfl
@[simp] theorem State.modSplit_vfs (s : State) (a b : Nat) (f : Split → Split) : (s.modSplit a b f).vfs = s.vfs := rfl
@[simp] theorem State.modSplit_queues (s : State) (a b : Nat) (f : Split → Split) : (s.modSplit a b f).queues = s.queues := rfl
@[simp] theorem State.modSplit_cps (s : State) (a b : Nat) (f : Split → Split) : (s.modSplit a b f).cps = s.cps := rfl
@[simp] theorem State.modSplit_tables (s : State) (a b : Nat) (f : Split → Split) : (s.modSplit a b f).tables = s.tables := rfl
@[simp] theorem State.modSplit_pkg (s : State) (a b : Nat) (f : Split → Split) : (s.modSplit a b f).pkg = s.pkg := rfl
@[simp] theorem State.modSplit_issuer (s : State) (a b : Nat) (f : Split → Split) : (s.modSplit a b f).issuer = s.issuer := rfl
@[simp] theorem State.modSplit_agenda (s : State) (a b : Nat) (f : Split → Split) : (s.modSplit a b f).agenda = s.agenda := rfl
@[simp] theorem State.modSplit_nextId (s : State) (a b : Nat) (f : Split → Split) : (s.modSplit a b f).nextId = s.nextId := rfl
@[simp] theorem State.modSplit_freeCount (s : State) (a b : Nat) (f : Split → Split) : (s.modSplit a b f).freeCount = s.freeCount := rfl

/-! ### log -/

@[simp] theorem State.log_mem (s : State) (k : EventKind) (a b : Nat) : (s.log k a b).mem = s.mem := rfl
@[simp] theorem State.log_tags (s : State) (k : EventKind) (a b : Nat) : (s.log k a b).tags = s.tags := rfl
@[simp] theorem State.log_l2 (s : State) (k : EventKind) (a b : Nat) : (s.log k a b).l2 = s.l2 := rfl
@[simp] theorem State.log_poison (s : State) (k : EventKind) (a b : Nat) : (s.log k a b).poison = s.poison := rfl
@[simp] theorem State.log_cores (s : State) (k : EventKind) (a b : Nat) : (s.log k a b).cores = s.cores := rfl
@[simp] theorem State.log_dies (s : State) (k : EventKind) (a b : Nat) : (s.log k a b).dies = s.dies := rfl
@[simp] theorem State.log_groups (s : State) (k : EventKind) (a b : Nat) : (s.log k a b).groups = s.groups := rfl
@[simp] theorem State.log_blocks (s : State) (k : EventKind) (a b : Nat) : (s.log k a b).blocks = s.blocks := rfl
@[simp] theorem State.log_clusters (s : State) (k : EventKind) (a b : Nat) : (s.log k a b).clusters = s.clusters := rfl
@[simp] theorem State.log_launches (s : State) (k : EventKind) (a b : Nat) : (s.log k a b).launches = s.launches := rfl
@[simp] theorem State.log_draws (s : State) (k : EventKind) (a b : Nat) : (s.log k a b).draws = s.draws := rfl
@[simp] theorem State.log_tickets (s : State) (k : EventKind) (a b : Nat) : (s.log k a b).tickets = s.tickets := rfl
@[simp] theorem State.log_quadSets (s : State) (k : EventKind) (a b : Nat) : (s.log k a b).quadSets = s.quadSets := rfl
@[simp] theorem State.log_grinds (s : State) (k : EventKind) (a b : Nat) : (s.log k a b).grinds = s.grinds := rfl
@[simp] theorem State.log_ctxs (s : State) (k : EventKind) (a b : Nat) : (s.log k a b).ctxs = s.ctxs := rfl
@[simp] theorem State.log_vfs (s : State) (k : EventKind) (a b : Nat) : (s.log k a b).vfs = s.vfs := rfl
@[simp] theorem State.log_queues (s : State) (k : EventKind) (a b : Nat) : (s.log k a b).queues = s.queues := rfl
@[simp] theorem State.log_cps (s : State) (k : EventKind) (a b : Nat) : (s.log k a b).cps = s.cps := rfl
@[simp] theorem State.log_tables (s : State) (k : EventKind) (a b : Nat) : (s.log k a b).tables = s.tables := rfl
@[simp] theorem State.log_issuer (s : State) (k : EventKind) (a b : Nat) : (s.log k a b).issuer = s.issuer := rfl
@[simp] theorem State.log_agenda (s : State) (k : EventKind) (a b : Nat) : (s.log k a b).agenda = s.agenda := rfl
@[simp] theorem State.log_nextId (s : State) (k : EventKind) (a b : Nat) : (s.log k a b).nextId = s.nextId := rfl
@[simp] theorem State.log_freeCount (s : State) (k : EventKind) (a b : Nat) : (s.log k a b).freeCount = s.freeCount := rfl

/-! ### fresh and free -/

@[simp] theorem State.fresh_mem (s : State) : s.fresh.2.mem = s.mem := rfl
@[simp] theorem State.fresh_tags (s : State) : s.fresh.2.tags = s.tags := rfl
@[simp] theorem State.fresh_l2 (s : State) : s.fresh.2.l2 = s.l2 := rfl
@[simp] theorem State.fresh_poison (s : State) : s.fresh.2.poison = s.poison := rfl
@[simp] theorem State.fresh_cores (s : State) : s.fresh.2.cores = s.cores := rfl
@[simp] theorem State.fresh_dies (s : State) : s.fresh.2.dies = s.dies := rfl
@[simp] theorem State.fresh_groups (s : State) : s.fresh.2.groups = s.groups := rfl
@[simp] theorem State.fresh_blocks (s : State) : s.fresh.2.blocks = s.blocks := rfl
@[simp] theorem State.fresh_clusters (s : State) : s.fresh.2.clusters = s.clusters := rfl
@[simp] theorem State.fresh_launches (s : State) : s.fresh.2.launches = s.launches := rfl
@[simp] theorem State.fresh_draws (s : State) : s.fresh.2.draws = s.draws := rfl
@[simp] theorem State.fresh_tickets (s : State) : s.fresh.2.tickets = s.tickets := rfl
@[simp] theorem State.fresh_quadSets (s : State) : s.fresh.2.quadSets = s.quadSets := rfl
@[simp] theorem State.fresh_grinds (s : State) : s.fresh.2.grinds = s.grinds := rfl
@[simp] theorem State.fresh_ctxs (s : State) : s.fresh.2.ctxs = s.ctxs := rfl
@[simp] theorem State.fresh_vfs (s : State) : s.fresh.2.vfs = s.vfs := rfl
@[simp] theorem State.fresh_queues (s : State) : s.fresh.2.queues = s.queues := rfl
@[simp] theorem State.fresh_cps (s : State) : s.fresh.2.cps = s.cps := rfl
@[simp] theorem State.fresh_tables (s : State) : s.fresh.2.tables = s.tables := rfl
@[simp] theorem State.fresh_pkg (s : State) : s.fresh.2.pkg = s.pkg := rfl
@[simp] theorem State.fresh_issuer (s : State) : s.fresh.2.issuer = s.issuer := rfl
@[simp] theorem State.fresh_agenda (s : State) : s.fresh.2.agenda = s.agenda := rfl
@[simp] theorem State.fresh_freeCount (s : State) : s.fresh.2.freeCount = s.freeCount := rfl
@[simp] theorem State.fresh_nextId (s : State) : s.fresh.2.nextId = s.nextId + 1 := rfl
@[simp] theorem State.free_mem (s : State) : s.free.2.mem = s.mem := rfl
@[simp] theorem State.free_tags (s : State) : s.free.2.tags = s.tags := rfl
@[simp] theorem State.free_l2 (s : State) : s.free.2.l2 = s.l2 := rfl
@[simp] theorem State.free_poison (s : State) : s.free.2.poison = s.poison := rfl
@[simp] theorem State.free_cores (s : State) : s.free.2.cores = s.cores := rfl
@[simp] theorem State.free_dies (s : State) : s.free.2.dies = s.dies := rfl
@[simp] theorem State.free_groups (s : State) : s.free.2.groups = s.groups := rfl
@[simp] theorem State.free_blocks (s : State) : s.free.2.blocks = s.blocks := rfl
@[simp] theorem State.free_clusters (s : State) : s.free.2.clusters = s.clusters := rfl
@[simp] theorem State.free_launches (s : State) : s.free.2.launches = s.launches := rfl
@[simp] theorem State.free_draws (s : State) : s.free.2.draws = s.draws := rfl
@[simp] theorem State.free_tickets (s : State) : s.free.2.tickets = s.tickets := rfl
@[simp] theorem State.free_quadSets (s : State) : s.free.2.quadSets = s.quadSets := rfl
@[simp] theorem State.free_grinds (s : State) : s.free.2.grinds = s.grinds := rfl
@[simp] theorem State.free_ctxs (s : State) : s.free.2.ctxs = s.ctxs := rfl
@[simp] theorem State.free_vfs (s : State) : s.free.2.vfs = s.vfs := rfl
@[simp] theorem State.free_queues (s : State) : s.free.2.queues = s.queues := rfl
@[simp] theorem State.free_cps (s : State) : s.free.2.cps = s.cps := rfl
@[simp] theorem State.free_tables (s : State) : s.free.2.tables = s.tables := rfl
@[simp] theorem State.free_pkg (s : State) : s.free.2.pkg = s.pkg := rfl
@[simp] theorem State.free_issuer (s : State) : s.free.2.issuer = s.issuer := rfl
@[simp] theorem State.free_agenda (s : State) : s.free.2.agenda = s.agenda := rfl
@[simp] theorem State.free_nextId (s : State) : s.free.2.nextId = s.nextId := rfl
@[simp] theorem State.free_freeCount (s : State) : s.free.2.freeCount = s.freeCount + 1 := rfl

/-! ### Units looked up after an update -/

@[simp] theorem State.core_modCore (s : State) (n : Nat) (f : Core → Core) : (s.modCore n f).core n = f (s.core n) := by
  simp [State.core, KV.get]
theorem State.core_modCore_ne (s : State) {n k : Nat} (f : Core → Core) (h : k ≠ n) : (s.modCore n f).core k = s.core k := by
  simp [State.core, KV.get, KV.find_insert_ne _ _ h]
@[simp] theorem State.die_modDie (s : State) (n : Nat) (f : Die → Die) : (s.modDie n f).die n = f (s.die n) := by
  simp [State.die, KV.get]
theorem State.die_modDie_ne (s : State) {n k : Nat} (f : Die → Die) (h : k ≠ n) : (s.modDie n f).die k = s.die k := by
  simp [State.die, KV.get, KV.find_insert_ne _ _ h]
@[simp] theorem State.ctx_modCtx (s : State) (n : Nat) (f : Context → Context) : (s.modCtx n f).ctx n = f (s.ctx n) := by
  simp [State.ctx, KV.get]
theorem State.ctx_modCtx_ne (s : State) {n k : Nat} (f : Context → Context) (h : k ≠ n) :
    (s.modCtx n f).ctx k = s.ctx k := by
  simp [State.ctx, KV.get, KV.find_insert_ne _ _ h]
@[simp] theorem State.queue_modQueue (s : State) (n : Nat) (f : Queue → Queue) : (s.modQueue n f).queue n = f (s.queue n) := by
  simp [State.queue, KV.get]
theorem State.queue_modQueue_ne (s : State) {n k : Nat} (f : Queue → Queue) (h : k ≠ n) :
    (s.modQueue n f).queue k = s.queue k := by
  simp [State.queue, KV.get, KV.find_insert_ne _ _ h]
@[simp] theorem State.cp_modCp (s : State) (n : Nat) (f : CmdProc → CmdProc) : (s.modCp n f).cp n = f (s.cp n) := by
  simp [State.cp, KV.get]
@[simp] theorem State.vf_modVf (s : State) (n : Nat) (f : VF → VF) : (s.modVf n f).vf n = f (s.vf n) := by
  simp [State.vf, KV.get]
@[simp] theorem State.table_modTable (s : State) (n : Nat) (f : ExpTable → ExpTable) :
    (s.modTable n f).table n = f (s.table n) := by
  simp [State.table, KV.get]
@[simp] theorem State.group_setGroup (s : State) (n : Nat) (g : Group) : (s.setGroup n g).group n = some g := by
  simp [State.group]
theorem State.group_setGroup_ne (s : State) {n k : Nat} (g : Group) (h : k ≠ n) : (s.setGroup n g).group k = s.group k := by
  simp [State.group, KV.find_insert_ne _ _ h]
theorem State.modGroup_some {s : State} {n : Nat} {g : Group} (f : Group → Group) (h : s.group n = some g) :
    s.modGroup n f = s.setGroup n (f g) := by
  simp only [State.modGroup, h]; rfl
theorem State.modGroup_none {s : State} {n : Nat} (f : Group → Group) (h : s.group n = none) : s.modGroup n f = s := by
  simp only [State.modGroup, h]
@[simp] theorem State.group_modGroup (s : State) (n : Nat) (f : Group → Group) :
    (s.modGroup n f).group n = (s.group n).map f := by
  cases h : s.group n
  · rw [State.modGroup_none f h, h]; rfl
  · rw [State.modGroup_some f h, State.group_setGroup]; rfl
theorem State.group_modGroup_ne (s : State) {n k : Nat} (f : Group → Group) (h : k ≠ n) :
    (s.modGroup n f).group k = s.group k := by
  cases h' : s.group n
  · rw [State.modGroup_none f h']
  · rw [State.modGroup_some f h', State.group_setGroup_ne s _ h]
@[simp] theorem State.modGroup_setGroup (s : State) (n : Nat) (g : Group) (f : Group → Group) :
    (s.setGroup n g).modGroup n f = s.setGroup n (f g) := by
  rw [State.modGroup_some f (State.group_setGroup s n g)]
  simp [State.setGroup]
@[simp] theorem State.setGroup_setGroup (s : State) (n : Nat) (g h : Group) : (s.setGroup n g).setGroup n h = s.setGroup n h := by
  simp [State.setGroup]
@[simp] theorem State.block_modBlock (s : State) (n : Nat) (f : Block → Block) :
    (s.modBlock n f).block n = (s.block n).map f := by
  simp [State.block]

/-! ### Registers of a group -/

@[simp] theorem Group.readV_writeV_self (g : Group) (n l : Nat) (w : Word) : (g.writeV n l w).readV n l = w := by
  simp [Group.readV, Group.writeV]
theorem Group.readV_writeV_ne (g : Group) {n l k j : Nat} (w : Word) (hl : l < 64) (hj : j < 64) (h : k ≠ n ∨ j ≠ l) :
    (g.writeV n l w).readV k j = g.readV k j := by
  simp only [Group.readV, Group.writeV]
  exact KV.get_put_ne 0 g.v w (by omega)
@[simp] theorem Group.readS_writeS_self (g : Group) (n : Nat) (w : Word) : (g.writeS n w).readS n = w := by
  simp [Group.readS, Group.writeS]
theorem Group.readS_writeS_ne (g : Group) {n k : Nat} (w : Word) (h : k ≠ n) : (g.writeS n w).readS k = g.readS k := by
  simp only [Group.readS, Group.writeS]
  exact KV.get_put_ne 0 g.sr w h
@[simp] theorem Group.readF_writeF_self (g : Group) (n : Nat) (w : Dword) : (g.writeF n w).readF n = w := by
  simp [Group.readF, Group.writeF]
@[simp] theorem Group.readM_writeM_self (g : Group) (n : Nat) (m : Lanes) : (g.writeM n m).readM n = m &&& widthMask g.width := by
  simp [Group.readM, Group.writeM]
theorem Group.readM_writeM_ne (g : Group) {n k : Nat} (m : Lanes) (h : k ≠ n) : (g.writeM n m).readM k = g.readM k := by
  simp only [Group.readM, Group.writeM]
  exact KV.get_put_ne 0 g.m _ h
@[simp] theorem Group.readS_writeV (g : Group) (n l k : Nat) (w : Word) : (g.writeV n l w).readS k = g.readS k := rfl
@[simp] theorem Group.readV_writeS (g : Group) (n k l : Nat) (w : Word) : (g.writeS n w).readV k l = g.readV k l := rfl
@[simp] theorem Group.readM_writeV (g : Group) (n l k : Nat) (w : Word) : (g.writeV n l w).readM k = g.readM k := rfl
@[simp] theorem Group.readM_writeS (g : Group) (n k : Nat) (w : Word) : (g.writeS n w).readM k = g.readM k := rfl
@[simp] theorem Group.readV_writeM (g : Group) (n k l : Nat) (m : Lanes) : (g.writeM n m).readV k l = g.readV k l := rfl
@[simp] theorem Group.readS_writeM (g : Group) (n k : Nat) (m : Lanes) : (g.writeM n m).readS k = g.readS k := rfl

end Sys2Proof.Machine
end

