-- ==== Sys2Proof/Laws/Alu.lean ====
section
/-! SUPPORT. What the ALU's shared operations leave: the write of a destination, of the results of several lanes, an
instruction as a whole. -/

namespace Sys2Proof.Machine

/-! ### Lanes -/

theorem laneList_nodup (m : Lanes) (w : Nat) : (laneList m w).Nodup :=
  List.Nodup.filter _ List.nodup_range

theorem mem_laneList {m : Lanes} {w l : Nat} : l ∈ laneList m w ↔ l < w ∧ m.getLsbD l = true := by
  simp [laneList]

theorem lt_of_mem_laneList {m : Lanes} {w l : Nat} (h : l ∈ laneList m w) : l < 64 := by
  have := (mem_laneList.1 h).2
  exact BitVec.lt_of_getLsbD this

theorem getLsbD_oneLane {l i : Nat} (h : l < 64) : (oneLane l).getLsbD i = decide (i = l) := by
  simp only [oneLane, BitVec.getLsbD_ofNat, Nat.testBit_two_pow]
  by_cases hi : i = l
  · subst hi; simp [h]
  · simp [hi]; omega

theorem getLsbD_widthMask (w i : Nat) : (widthMask w).getLsbD i = (decide (i < 64) && decide (i < w)) := by
  simp [widthMask, BitVec.getLsbD_ofNat, Nat.testBit_two_pow_sub_one]

theorem getLsbD_setBit {m : Lanes} {l i : Nat} {b : Bool} (h : l < 64) :
    (setBit m l b).getLsbD i = if i = l then b else m.getLsbD i := by
  unfold setBit
  by_cases hi : i = l
  · subst hi; cases b <;> simp [getLsbD_oneLane h, h]
  · cases b
    · by_cases h64 : i < 64
      · have h2 := getLsbD_oneLane (i := i) h
        rw [BitVec.getLsbD_eq_getElem h64] at h2
        simp [hi, h64, h2]
      · simp [hi, BitVec.getLsbD_of_ge _ _ (Nat.le_of_not_lt h64)]
    · simp [getLsbD_oneLane h, hi]

/-! ### Destinations -/

@[simp] theorem Group.withRegs_withRegs (g : Group) (v sr v2 sr2 : KV Word) (m m2 : KV Lanes) :
    (g.withRegs v sr m).withRegs v2 sr2 m2 = g.withRegs v2 sr2 m2 := rfl

/-- Two changes of a group's registers are one. -/
theorem Group.withRegs_trans {g h k : Group} (h1 : h = g.withRegs h.v h.sr h.m) (h2 : k = h.withRegs k.v k.sr k.m) :
    k = g.withRegs k.v k.sr k.m := by
  rw [h1] at h2; exact h2

theorem Group.withRegs_width {g h : Group} (h1 : h = g.withRegs h.v h.sr h.m) : h.width = g.width := by
  rw [h1]; rfl

/-- Writing a destination changes v and s registers only. -/
theorem Group.writeDst_frame (g : Group) (wide : Bool) (c : BitVec 8) (l : Nat) (v : Dword) :
    g.writeDst wide c l v = g.withRegs (g.writeDst wide c l v).v (g.writeDst wide c l v).sr g.m := by
  unfold Group.writeDst
  dsimp only
  split
  · split <;> rfl
  · split
    · split <;> rfl
    · rfl

@[simp] theorem Group.readM_writeDst (g : Group) (wide : Bool) (c : BitVec 8) (l : Nat) (v : Dword) (n : Nat) :
    (g.writeDst wide c l v).readM n = g.readM n := by
  rw [Group.writeDst_frame]; rfl

@[simp] theorem Group.width_writeDst (g : Group) (wide : Bool) (c : BitVec 8) (l : Nat) (v : Dword) :
    (g.writeDst wide c l v).width = g.width := by
  rw [Group.writeDst_frame]; rfl

/-- What a v register holds after a destination is written. -/
theorem Group.readV_writeDst (g : Group) (wide : Bool) (c : BitVec 8) (l : Nat) (v : Dword) (n k : Nat)
    (hl : l < 64) (hk : k < 64) (hw : wide = true → c.getLsbD 0 = false ∨ 0xF0 ≤ c.toNat) (hn : n < 192) :
    (g.writeDst wide c l v).readV n k =
      if isVec c = true ∧ k = l ∧ n = c.toNat then v.setWidth 32
      else if isVec c = true ∧ wide = true ∧ k = l ∧ n = c.toNat + 1 then v.extractLsb' 32 32
      else g.readV n k := by
  unfold Group.writeDst isVec
  dsimp only
  by_cases hc : c.toNat < 0xC0
  · simp only [hc, if_true, decide_true, true_and]
    cases wide
    · simp only [Bool.false_eq_true, if_false, false_and]
      by_cases h : k = l ∧ n = c.toNat
      · obtain ⟨rfl, rfl⟩ := h; simp
      · rw [Group.readV_writeV_ne g _ hl hk (by omega), if_neg h]
    · simp only [if_true, Group.writeV64, true_and]
      by_cases h1 : k = l ∧ n = c.toNat + 1
      · obtain ⟨rfl, rfl⟩ := h1
        rw [Group.readV_writeV_self, if_neg (by omega)]; simp
      · rw [Group.readV_writeV_ne _ _ hl hk (by omega), if_neg h1]
        by_cases h : k = l ∧ n = c.toNat
        · obtain ⟨rfl, rfl⟩ := h
          rw [Group.readV_writeV_self, if_pos ⟨rfl, rfl⟩]
          ext i hi; simp [BitVec.getElem_extractLsb', BitVec.getElem_setWidth]
        · rw [Group.readV_writeV_ne _ _ hl hk (by omega), if_neg h]
  · simp only [hc, if_false, decide_false, Bool.false_eq_true, false_and]
    split
    · cases wide <;> simp [Group.writeS64]
    · rfl

/-- What an s register holds after a destination is written. -/
theorem Group.readS_writeDst (g : Group) (wide : Bool) (c : BitVec 8) (l : Nat) (v : Dword) (n : Nat) :
    (g.writeDst wide c l v).readS n =
      if isScalar c = true ∧ n + 0xC0 = c.toNat then v.setWidth 32
      else if isScalar c = true ∧ wide = true ∧ n + 0xC0 = c.toNat + 1 then v.extractLsb' 32 32
      else g.readS n := by
  unfold Group.writeDst isScalar
  dsimp only
  by_cases hc : c.toNat < 0xC0
  · have h : ¬ 0xC0 ≤ c.toNat := by omega
    simp only [hc, if_true, h, decide_false, Bool.false_and, Bool.false_eq_true, false_and, if_false]
    cases wide <;> simp [Group.writeV64]
  · by_cases hf : c.toNat < 0xF0
    · have h : 0xC0 ≤ c.toNat := by omega
      simp only [hc, if_false, hf, if_true, h, decide_true, Bool.true_and, true_and]
      cases wide
      · simp only [Bool.false_eq_true, if_false, false_and]
        by_cases hn : n + 0xC0 = c.toNat
        · rw [show c.toNat - 0xC0 = n by omega]
          rw [Group.readS_writeS_self, if_pos hn]
        · rw [Group.readS_writeS_ne g _ (by omega), if_neg hn]
      · simp only [if_true, Group.writeS64, true_and]
        by_cases h1 : n + 0xC0 = c.toNat + 1
        · rw [show c.toNat - 0xC0 + 1 = n by omega]
          rw [Group.readS_writeS_self, if_neg (by omega), if_pos h1]
        · rw [Group.readS_writeS_ne _ _ (by omega)]
          by_cases hn : n + 0xC0 = c.toNat
          · rw [show c.toNat - 0xC0 = n by omega, Group.readS_writeS_self, if_pos hn]
            ext i hi; simp [BitVec.getElem_extractLsb', BitVec.getElem_setWidth]
          · rw [Group.readS_writeS_ne _ _ (by omega), if_neg hn, if_neg h1]
    · have h : ¬ (0xC0 ≤ c.toNat ∧ c.toNat < 0xF0) := by omega
      simp [hc, hf]

/-! ### Several lanes -/

/-- One lane's part of `applyLanes`: the destination and the carry. -/
def Group.applyLane (g : Group) (wide : Bool) (dst : BitVec 8) (l : Nat) (r : LaneRes) : Group :=
  let g1 := g.writeDst wide dst l r.val
  match r.carry with
  | some b => g1.writeM 13 (setBit (g1.readM 13) l b)
  | none => g1

theorem Group.applyLanes_cons (g : Group) (wide : Bool) (dst : BitVec 8) (l : Nat) (r : LaneRes) (t : List (Nat × LaneRes)) :
    g.applyLanes wide dst ((l, r) :: t) = (g.applyLane wide dst l r).applyLanes wide dst t := rfl

theorem Group.applyLane_frame (g : Group) (wide : Bool) (dst : BitVec 8) (l : Nat) (r : LaneRes) :
    g.applyLane wide dst l r = g.withRegs (g.applyLane wide dst l r).v (g.applyLane wide dst l r).sr (g.applyLane wide dst l r).m := by
  unfold Group.applyLane
  dsimp only
  split
  · rw [Group.writeDst_frame]; rfl
  · rw [Group.writeDst_frame]; rfl

@[simp] theorem Group.readV_applyLane (g : Group) (wide : Bool) (dst : BitVec 8) (l : Nat) (r : LaneRes) (n k : Nat) :
    (g.applyLane wide dst l r).readV n k = (g.writeDst wide dst l r.val).readV n k := by
  unfold Group.applyLane
  cases r.carry <;> rfl

@[simp] theorem Group.readS_applyLane (g : Group) (wide : Bool) (dst : BitVec 8) (l : Nat) (r : LaneRes) (n : Nat) :
    (g.applyLane wide dst l r).readS n = (g.writeDst wide dst l r.val).readS n := by
  unfold Group.applyLane
  cases r.carry <;> rfl

@[simp] theorem Group.width_applyLane (g : Group) (wide : Bool) (dst : BitVec 8) (l : Nat) (r : LaneRes) :
    (g.applyLane wide dst l r).width = g.width := Group.withRegs_width (Group.applyLane_frame g wide dst l r)

theorem Group.readM_applyLane_ne (g : Group) (wide : Bool) (dst : BitVec 8) (l : Nat) (r : LaneRes) {n : Nat} (h : n ≠ 13) :
    (g.applyLane wide dst l r).readM n = g.readM n := by
  unfold Group.applyLane
  dsimp only
  split
  · rw [Group.readM_writeM_ne _ _ h, Group.readM_writeDst]
  · rw [Group.readM_writeDst]

theorem Group.readM_applyLane (g : Group) (wide : Bool) (dst : BitVec 8) (l : Nat) (r : LaneRes) (i : Nat)
    (hl : l < 64) (hi : i < g.width) :
    ((g.applyLane wide dst l r).readM 13).getLsbD i =
      if i = l then r.carry.getD ((g.readM 13).getLsbD i) else (g.readM 13).getLsbD i := by
  unfold Group.applyLane
  dsimp only
  split
  · next b hb =>
    simp only [Group.readM_writeM_self, Group.readM_writeDst, Group.width_writeDst, BitVec.getLsbD_and,
      getLsbD_widthMask, getLsbD_setBit hl, hb, Option.getD_some, hi, decide_true, Bool.and_true]
    by_cases h64 : i < 64
    · simp [h64]
    · have : ¬ i = l := by omega
      simp [h64, this, BitVec.getLsbD_of_ge _ _ (Nat.le_of_not_lt h64)]
  · next hb => simp [hb]

theorem Group.m_applyLane (g : Group) (wide : Bool) (dst : BitVec 8) (l : Nat) (r : LaneRes) (h : r.carry = none) :
    (g.applyLane wide dst l r).m = g.m := by
  unfold Group.applyLane
  rw [h, Group.writeDst_frame]; rfl

theorem Group.applyLanes_frame (rs : List (Nat × LaneRes)) (g : Group) (wide : Bool) (dst : BitVec 8) :
    g.applyLanes wide dst rs =
      g.withRegs (g.applyLanes wide dst rs).v (g.applyLanes wide dst rs).sr (g.applyLanes wide dst rs).m := by
  induction rs generalizing g with
  | nil => rfl
  | cons e t ih =>
    obtain ⟨l, r⟩ := e
    rw [Group.applyLanes_cons]
    exact Group.withRegs_trans (Group.applyLane_frame g wide dst l r) (ih _)

theorem Group.width_applyLanes (rs : List (Nat × LaneRes)) (g : Group) (wide : Bool) (dst : BitVec 8) :
    (g.applyLanes wide dst rs).width = g.width := Group.withRegs_width (Group.applyLanes_frame rs g wide dst)

theorem Group.readM_applyLanes_ne (rs : List (Nat × LaneRes)) (g : Group) (wide : Bool) (dst : BitVec 8) {n : Nat} (h : n ≠ 13) :
    (g.applyLanes wide dst rs).readM n = g.readM n := by
  induction rs generalizing g with
  | nil => rfl
  | cons e t ih =>
    obtain ⟨l, r⟩ := e
    rw [Group.applyLanes_cons, ih, Group.readM_applyLane_ne _ _ _ _ _ h]

theorem Group.m_applyLanes (rs : List (Nat × LaneRes)) (g : Group) (wide : Bool) (dst : BitVec 8)
    (h : ∀ e ∈ rs, e.2.carry = none) : (g.applyLanes wide dst rs).m = g.m := by
  induction rs generalizing g with
  | nil => rfl
  | cons e t ih =>
    obtain ⟨l, r⟩ := e
    rw [Group.applyLanes_cons, ih _ fun e he => h e (by simp [he]), Group.m_applyLane _ _ _ _ _ (h (l, r) (by simp))]

/-- Lanes that are given a result, each once. -/
theorem Group.readV_applyLanes (ls : List Nat) (r : Nat → LaneRes) (g : Group) (wide : Bool) (dst : BitVec 8) (n k : Nat)
    (hd : ls.Nodup) (h64 : ∀ l ∈ ls, l < 64) (hk : k < 64) (hn : n < 192)
    (hw : wide = true → dst.getLsbD 0 = false ∨ 0xF0 ≤ dst.toNat) :
    (g.applyLanes wide dst (ls.map fun l => (l, r l))).readV n k =
      if isVec dst = true ∧ k ∈ ls ∧ n = dst.toNat then (r k).val.setWidth 32
      else if isVec dst = true ∧ wide = true ∧ k ∈ ls ∧ n = dst.toNat + 1 then (r k).val.extractLsb' 32 32
      else g.readV n k := by
  induction ls generalizing g with
  | nil => simp [Group.applyLanes]
  | cons l t ih =>
    have hnd := List.nodup_cons.1 hd
    rw [List.map_cons, Group.applyLanes_cons, ih _ hnd.2 fun x hx => h64 x (by simp [hx])]
    rw [Group.readV_applyLane, Group.readV_writeDst g wide dst l _ n k (h64 l (by simp)) hk hw hn]
    by_cases hkl : k = l
    · subst hkl
      simp [hnd.1]
    · simp [hkl]

theorem Group.readM13_applyLanes (ls : List Nat) (r : Nat → LaneRes) (g : Group) (wide : Bool) (dst : BitVec 8) (i : Nat)
    (hd : ls.Nodup) (h64 : ∀ l ∈ ls, l < 64) (hi : i < g.width) :
    ((g.applyLanes wide dst (ls.map fun l => (l, r l))).readM 13).getLsbD i =
      if i ∈ ls then (r i).carry.getD ((g.readM 13).getLsbD i) else (g.readM 13).getLsbD i := by
  induction ls generalizing g with
  | nil => simp [Group.applyLanes]
  | cons l t ih =>
    have hnd := List.nodup_cons.1 hd
    rw [List.map_cons, Group.applyLanes_cons, ih _ hnd.2 (fun x hx => h64 x (by simp [hx])) (by simpa using hi)]
    rw [Group.readM_applyLane g wide dst l _ i (h64 l (by simp)) hi]
    by_cases hil : i = l
    · subst hil; simp [hnd.1]
    · simp [hil]

/-! ### One instruction -/

theorem Alu.lanes_nodup (a : Alu) (x : Ex) : (a.lanes x).Nodup := by
  unfold Alu.lanes; split
  · simp
  · exact laneList_nodup _ _

theorem Alu.lanes_lt (a : Alu) (x : Ex) : ∀ l ∈ a.lanes x, l < 64 := by
  unfold Alu.lanes; intro l hl
  split at hl
  · simp at hl; omega
  · exact lt_of_mem_laneList hl

theorem onlyGroup_modGroup (s : State) (gid : Nat) (f : Group → Group) : OnlyGroup s (s.modGroup gid f) gid := by
  refine ⟨rfl, fun n hn => ?_⟩
  exact State.group_modGroup_ne s f hn

theorem onlyGroup_setGroup (s : State) (gid : Nat) (g : Group) : OnlyGroup s (s.setGroup gid g) gid := by
  refine ⟨rfl, fun n hn => ?_⟩
  simp [State.group, State.setGroup, KV.find_insert_ne _ _ hn]

theorem OnlyGroup.trans {s t u : State} {gid : Nat} (h : OnlyGroup s t gid) (k : OnlyGroup t u gid) :
    OnlyGroup s u gid := by
  refine ⟨?_, fun n hn => (k.2 n hn).trans (h.2 n hn)⟩
  have h1 := k.1
  rw [h.1] at h1
  exact h1

theorem onlyGroup_finish (s : State) (x : Ex) : OnlyGroup s (s.finish x) x.gid := onlyGroup_modGroup _ _ _

/-- What writing a destination in several lanes, the flags and the step past the instruction leave. -/
theorem leaves_applyLanes (s : State) (x : Ex) (wide : Bool) (dst : BitVec 8) (ls : List Nat) (r : Nat → LaneRes)
    (hd : ls.Nodup) (h64 : ∀ l ∈ ls, l < 64) (hs : isScalar dst = true → ls = [0]) (hb : badDst x.g wide dst = false) :
    Leaves s (((s.setGroup x.gid (x.g.applyLanes wide dst (ls.map fun l => (l, r l)))).addFlags x.gid x.sp.pc
      (flagsOf (ls.map fun l => (l, r l)))).finish x) x wide dst ls r := by
  have hw : wide = true → dst.getLsbD 0 = false ∨ 0xF0 ≤ dst.toNat := by
    intro hw
    simp only [badDst, Bool.or_eq_false_iff, hw, Bool.true_and, Bool.and_eq_false_iff, decide_eq_false_iff_not] at hb
    rcases hb.1.2 with h | h
    · exact .inr (by omega)
    · exact .inl h
  refine ⟨(onlyGroup_setGroup _ _ _).trans ((onlyGroup_modGroup _ _ _).trans (onlyGroup_finish _ _)),
    x.g.applyLanes wide dst (ls.map fun l => (l, r l)), rfl, ?_, ?_, ?_, ?_, ?_, ?_, ?_⟩
  · exact Group.applyLanes_frame _ _ _ _
  · intro n l hn hl
    exact Group.readV_applyLanes _ _ _ _ _ _ _ hd h64 hl hn hw
  · intro n
    by_cases hsc : isScalar dst = true
    · rw [hs hsc]
      simp only [List.map_cons, List.map_nil, Group.applyLanes_cons, Group.applyLanes, Group.readS_applyLane,
        Group.readS_writeDst]
    · have hg : ∀ (ls : List Nat) (g : Group),
          (g.applyLanes wide dst (ls.map fun l => (l, r l))).readS n = g.readS n := by
        intro ls
        induction ls with
        | nil => intro g; rfl
        | cons l t ih =>
          intro g
          rw [List.map_cons, Group.applyLanes_cons, ih, Group.readS_applyLane, Group.readS_writeDst]
          simp [hsc]
      rw [hg]; simp [hsc]
  · intro n hn; exact Group.readM_applyLanes_ne _ _ _ _ hn
  · intro hc
    apply Group.m_applyLanes
    intro e he
    obtain ⟨l, -, rfl⟩ := List.mem_map.1 he
    exact hc l
  · intro l b hl hlw hc
    rw [Group.readM13_applyLanes _ _ _ _ _ _ hd h64 hlw]
    simp [hl, hc]
  · intro l hl hlw
    rw [Group.readM13_applyLanes _ _ _ _ _ _ hd h64 hlw]
    simp [hl]

/-- An ALU instruction that is not refused: what it leaves. -/
theorem State.alu_computes (s : State) (x : Ex) (a : Alu) (h : a.refused x.g = false) : Computes s (s.alu x a) x a := by
  have hr := h
  simp only [Alu.refused, Bool.or_eq_false_iff] at hr
  obtain ⟨⟨hdst, -⟩, hsc⟩ := hr
  have hl : isScalar a.dst = true → a.lanes x = [0] := by
    intro hs
    have hp : a.scalarPath = true := by
      simp only [hs, Bool.true_and, Bool.not_eq_false'] at hsc; exact hsc
    simp [Alu.lanes, hp]
  have e : s.alu x a = ((s.setGroup x.gid (x.g.applyLanes a.wide a.dst ((a.lanes x).map fun l => (l, a.at s x l)))).addFlags
      x.gid x.sp.pc (flagsOf ((a.lanes x).map fun l => (l, a.at s x l)))).finish x := by
    simp only [State.alu, h, Bool.false_eq_true, if_false]; rfl
  rw [e]
  exact leaves_applyLanes s x a.wide a.dst _ _ (a.lanes_nodup x) (a.lanes_lt x) hl hdst

/-- A meaning that hands the split's instruction to the ALU runs as that ALU instruction. -/
theorem runsAs_of {i : Instr} {s : State} {x : Ex} {a : Alu} (h : exec i s = .next (s.alu x a)) : RunsAs i s x a := by
  refine ⟨fun hr => ⟨_, h, State.alu_computes s x a hr⟩, fun hr => ?_⟩
  rw [h, State.alu, if_pos hr]

theorem withEx_eq {s : State} {x : Ex} (h : s.ex? = some x) (k : Ex → State) : s.withEx k = .next (k x) := by
  unfold State.withEx; rw [h]

/-! ### Compares -/

theorem getLsbD_setBits (ls : List Nat) (f : Nat → Bool) (m : Lanes) (l : Nat) (h64 : ∀ k ∈ ls, k < 64) (hd : ls.Nodup) :
    (ls.foldl (fun m k => setBit m k (f k)) m).getLsbD l = if l ∈ ls then f l else m.getLsbD l := by
  induction ls generalizing m with
  | nil => rfl
  | cons k t ih =>
    have hnd := List.nodup_cons.1 hd
    rw [List.foldl_cons, ih _ (fun j hj => h64 j (by simp [hj])) hnd.2, getLsbD_setBit (h64 k (by simp))]
    by_cases hlk : l = k
    · subst hlk; simp [hnd.1]
    · simp [hlk]

theorem compares_of {i : Instr} {s : State} {x : Ex} {o : EOps} {k : Kind} {f : List Dword → Bool}
    (h : exec i s = .next (s.aluMask x o.d [(k, o.a), (k, o.b)] o.lit f)) : Compares i s x o k f := by
  refine ⟨fun hb => ?_, fun hb => ?_⟩
  · rw [h, State.aluMask, if_pos]
    simp only [List.any_cons, List.any_nil, Bool.or_false, Bool.or_eq_true, decide_eq_true_eq]
    rcases hb with h | h | h | h | h <;> simp [h]
  · refine ⟨_, x.g.writeM o.d.toNat (x.list.foldl
      (fun m l => setBit m l (f ([(k, o.a), (k, o.b)].map fun p => s.readSrc x o.lit p.1 p.2 l))) (x.g.readM o.d.toNat)),
      h, ?_, ?_, rfl, ?_, ?_⟩
    · rw [State.aluMask, if_neg]
      · exact (onlyGroup_setGroup _ _ _).trans (onlyGroup_finish _ _)
      · simp only [List.any_cons, List.any_nil, Bool.or_false, Bool.or_eq_true, decide_eq_true_eq]
        rintro (((h | h) | h) | h | h)
        · exact hb (.inl h)
        · exact hb (.inr (.inl h))
        · exact hb (.inr (.inr (.inl h)))
        · exact hb (.inr (.inr (.inr (.inl h))))
        · exact hb (.inr (.inr (.inr (.inr h))))
    · rw [State.aluMask, if_neg]
      simp only [List.any_cons, List.any_nil, Bool.or_false, Bool.or_eq_true, decide_eq_true_eq]
      rintro (((h | h) | h) | h | h)
      · exact hb (.inl h)
      · exact hb (.inr (.inl h))
      · exact hb (.inr (.inr (.inl h)))
      · exact hb (.inr (.inr (.inr (.inl h))))
      · exact hb (.inr (.inr (.inr (.inr h))))
    · intro n hn; exact Group.readM_writeM_ne _ _ hn
    · intro l hl h64
      have e := getLsbD_setBits x.list (fun l => f ([(k, o.a), (k, o.b)].map fun p => s.readSrc x o.lit p.1 p.2 l))
        (x.g.readM o.d.toNat) l (fun k hk => lt_of_mem_laneList hk) (laneList_nodup _ _)
      rw [Group.readM_writeM_self, BitVec.getLsbD_and, getLsbD_widthMask, e]
      simp [hl, h64]

/-! ### Cross-lane forms -/

/-- A cross-lane form with one result whose operands are admitted. -/
theorem leaves_cross (s : State) (x : Ex) (d : BitVec 8) (wide : Bool) (a : BitVec 8) (one : LaneRes)
    (h : crossRefused x d wide a = false) :
    Leaves s (s.cross x d wide [a] one none) x wide d (crossLanes x d) (fun _ => one) := by
  have hb : badDst x.g wide d = false := by
    simp only [crossRefused, Bool.or_eq_false_iff] at h; exact h.1.1
  have e : s.cross x d wide [a] one none = ((s.setGroup x.gid (x.g.applyLanes wide d
      ((crossLanes x d).map fun l => (l, one)))).addFlags x.gid x.sp.pc
      (flagsOf ((crossLanes x d).map fun l => (l, one)))).finish x := by
    unfold State.cross
    have hc : (badDst x.g wide d || [a].any (fun c => badSrc x.g .w32 c) || (x.g.isQueue && isVec d)) = false := by
      simpa [crossRefused] using h
    rw [hc]
    simp only [Bool.false_eq_true, if_false, crossLanes]
    split <;> rfl
  rw [e]
  refine leaves_applyLanes s x wide d _ _ ?_ ?_ ?_ hb
  · unfold crossLanes; split
    · exact laneList_nodup _ _
    · simp
  · unfold crossLanes; split
    · exact fun l hl => lt_of_mem_laneList hl
    · simp
  · intro hsc
    unfold crossLanes
    have : isVec d = false := by
      simp only [isScalar, Bool.and_eq_true, decide_eq_true_eq] at hsc
      simp only [isVec, decide_eq_false_iff_not]; omega
    rw [this]; rfl

theorem cross_refused (s : State) (x : Ex) (d : BitVec 8) (wide : Bool) (a : BitVec 8) (one : LaneRes)
    (per : Option (List LaneRes)) (h : crossRefused x d wide a = true) :
    s.cross x d wide [a] one per = s.illegal x := by
  unfold State.cross
  rw [if_pos]
  simpa [crossRefused] using h

end Sys2Proof.Machine
end

