-- ==== Sys2Proof/Laws/Access.lean ====
section
/-! SUPPORT. What one lane access to global memory and one to local store can do, said once. -/

namespace Sys2Proof.Machine

/-- An instruction that is one local access does what `LocalAccesses` says. -/
theorem localAccesses_of {i : Instr} {s : State} {x : Ex} {n : Nat} {bar w : Bool} {ok : Nat → Bool} {os : List (Nat × Nat)}
    {f : List (Nat × Spot) → State} (h : exec i s = .next (s.localAccess x n bar w ok os f)) :
    LocalAccesses i s x n bar w ok os f := by
  unfold LocalAccesses
  unfold State.localAccess at h
  simp only at h ⊢
  generalize hat : (fun o : Nat => if ok o = true then s.spot x.g o n else none) = at' at h ⊢
  have hat' : ∀ o, (if ok o = true then s.spot x.g o n else none) = at' o := fun o => by rw [← hat]
  simp only [hat'] at h ⊢
  have e1 : ∀ (p : Nat × Nat × Option Spot → Bool), (os.map fun e => (e.1, e.2, at' e.2)).filter p =
      (os.filter fun e => p (e.1, e.2, at' e.2)).map fun e => (e.1, e.2, at' e.2) := by
    intro p; rw [List.filter_map]; rfl
  rw [e1] at h
  have e2 : ∀ (g : Nat × Nat × Spot → Bool),
      (((os.map fun e => (e.1, e.2, at' e.2)).filterMap fun e => e.2.2.map fun p => (e.1, e.2.1, p)).filter g).map (fun e => (e.1, e.2.1)) =
      os.filter fun e => match at' e.2 with
        | none => false
        | some p => g (e.1, e.2, p) := by
    intro g
    clear h e1
    induction os with
    | nil => rfl
    | cons a t ih =>
      simp only [List.map_cons, List.filterMap_cons, List.filter_cons]
      cases ha : at' a.2 with
      | none => simpa [ha] using ih
      | some p =>
        by_cases hg : g (a.1, a.2, p) = true
        · simp only [Option.map_some, List.filter_cons, hg, if_true, List.map_cons]
          exact congrArg _ (ih)
        · simp only [Option.map_some, List.filter_cons, hg, if_false, Bool.false_eq_true]
          exact ih
  have e3 : ((os.map fun e => (e.1, e.2, at' e.2)).filterMap fun e => e.2.2.map fun p => (e.1, e.2.1, p)).map (fun e => (e.1, e.2.2)) =
      os.filterMap fun e => (at' e.2).map fun p => (e.1, p) := by
    rw [List.filterMap_map, List.map_filterMap]
    congr 1
    funext e
    simp only [Function.comp]
    cases at' e.2 <;> rfl
  have e4 : ((os.map fun e => (e.1, e.2, at' e.2)).filterMap fun e => e.2.2.map fun p => (e.1, e.2.1, p)).any (fun e => !s.present e.2.2) =
      (os.filterMap fun e => (at' e.2).map fun p => (e.1, p)).any fun e => !s.present e.2 := by
    rw [← e3, List.any_map]; rfl
  have e5 := e2 fun e => s.localLocked x.g e.2.2 n w
  simp only at e5
  rw [e4, e3] at h
  generalize hsp : ((os.map fun e => (e.1, e.2, at' e.2)).filterMap fun e => e.2.2.map fun p => (e.1, e.2.1, p)) = sp at h e5
  have m1 : ∀ l : List (Nat × Nat × Spot), l.map (·.1) = (l.map fun e => (e.1, e.2.1)).map (·.1) := fun l => by simp
  have m2 : ∀ l : List (Nat × Nat × Spot), l.map (·.2.1) = (l.map fun e => (e.1, e.2.1)).map (·.2) := fun l => by simp
  rw [m1, m2, e5] at h
  have m3 : ((sp.filter fun e => s.localLocked x.g e.2.2 n w) != []) =
      ((os.filter fun e => match at' e.2 with
        | none => false
        | some p => s.localLocked x.g p n w) != []) := by
    rw [← e5]
    cases (sp.filter fun e => s.localLocked x.g e.2.2 n w) <;> rfl
  rw [m3] at h
  have m4 : ∀ l : List (Nat × Nat), ((l.map fun e => (e.1, e.2, at' e.2)) != []) = (l != []) := fun l => by cases l <;> rfl
  have m5 : ∀ l : List (Nat × Nat), (l.map fun e => (e.1, e.2, at' e.2)).map (·.1) = l.map (·.1) := fun l => by simp
  rw [m4, m5] at h
  have c1 : ∀ {l : List (Nat × Nat)}, l ≠ [] → (l != []) = true := fun h => bne_iff_ne.mpr h
  have c2 : ∀ {l : List (Nat × Nat)}, l = [] → ¬ (l != []) = true := fun h => by rw [h]; decide
  have c3 : ∀ {l : List (Nat × Nat)} {b : Bool}, l = [] → ¬ (l != [] && b) = true := fun h => by rw [h]; simp
  have c4 : ∀ {l : List (Nat × Nat)} {b : Bool}, b = false → ¬ (l != [] && b) = true := fun h => by rw [h]; simp
  have c5 : ∀ {l : List (Nat × Nat)} {b : Bool}, l ≠ [] → b = true → (l != [] && b) = true := fun h k => by rw [k, c1 h]; rfl
  refine ⟨fun hb ho => ?_, fun hb ho => ?_, fun hb hh ho => ?_, fun hb hh hp => ?_, fun hb hh hp => ?_⟩
  · by_cases hn : os.filter (fun e => match at' e.2 with
        | none => true
        | some p => bar && s.overBarrier p.store p.off n) = []
    · exact h.trans (congrArg _ ((if_neg (c2 hn)).trans (if_pos (c5 (hb.resolve_left (fun k => k hn)) ho))))
    · exact h.trans (congrArg _ ((if_pos (c1 hn)).trans (if_pos ho)))
  · exact h.trans (congrArg _ ((if_pos (c1 hb)).trans (if_neg (by rw [ho]; exact Bool.false_ne_true))))
  · exact h.trans (congrArg _ ((if_neg (c2 hb)).trans ((if_neg (c4 ho)).trans (if_pos (c1 hh)))))
  · refine h.trans (congrArg _ ((if_neg (c2 hb)).trans ((if_neg (c3 hh)).trans ((if_neg (c2 hh)).trans (if_pos ?_)))))
    obtain ⟨e, he, hn⟩ := hp
    exact List.any_eq_true.mpr ⟨e, he, by rw [hn]; rfl⟩
  · refine h.trans (congrArg _ ((if_neg (c2 hb)).trans ((if_neg (c3 hh)).trans ((if_neg (c2 hh)).trans (if_neg ?_)))))
    intro hc
    obtain ⟨e, he, hn⟩ := List.any_eq_true.mp hc
    rw [hp e he] at hn
    cases hn

/-- The parked split of a page request: the lanes that are due, and why it waits (R346). -/
theorem parkPages_split (s : State) (x : Ex) (ms : List Miss) (due : Lanes) (w : Want) (g : Group) (sp : Split)
    (hg : (s.parkPages x ms due w).group x.gid = some g) (hs : g.splits.find x.sid = some sp) :
    sp.park = .page ∧ sp.due = some due := by
  unfold State.parkPages at hg
  revert hg
  generalize State.tokensFor _ _ _ _ _ _ = r
  intro hg
  simp only [State.modSplit, State.group_modGroup] at hg
  obtain ⟨g', -, rfl⟩ := Option.map_eq_some_iff.mp hg
  rw [KV.find_modify_self] at hs
  obtain ⟨sp', -, rfl⟩ := Option.map_eq_some_iff.mp hs
  exact ⟨rfl, rfl⟩

/-- With nothing to share out, no lane is concerned. -/
theorem forLanes_nil {α : Type} (share : List Nat) (put : α → Nat → α) : forLanes share put [] = [] := by
  unfold forLanes
  split <;> rfl

/-- An instruction that is one access of its lanes does what `Accesses` says. -/
theorem accesses_of {i : Instr} {s : State} {x : Ex} {c : Ctr} {w : Want} {as : List (Nat × List (Nat × Nat))}
    {f : State → Nat → Nat → List Piece → Done} {share : List Nat}
    (h : exec i s = .next (s.laneAccess x c w as f share)) : Accesses i s x c w as f share := by
  unfold Accesses
  unfold State.laneAccess at h
  simp only at h ⊢
  refine ⟨fun hh hk => ?_, fun hh hk ho => ?_, fun hh cause va hf => ?_, fun ⟨hh, hf, ha⟩ hb => ?_, fun ⟨hh, hf, ha⟩ hb hm hp => ?_,
    fun ⟨hh, hf, ha⟩ hb hm => ?_⟩
  · rw [h, if_pos (by simpa using hh), if_pos hk]
  · rw [h, if_pos (by simpa using hh), if_neg (by rw [hk]; exact Bool.false_ne_true), ho]; rfl
  · rw [h, if_neg (by simpa using hh), hf]
  · rw [h, if_neg (by simpa using hh), hf]
    simp only
    rw [if_neg (by rw [ha]; exact Bool.false_ne_true), if_pos hb]
  · rw [h, if_neg (by simpa using hh), hf]
    simp only
    rw [if_neg (by rw [ha]; exact Bool.false_ne_true), if_neg (by rw [hb]; exact Bool.false_ne_true), hm, hp,
      forLanes_nil, forLanes_nil]
    rfl
  · rw [h, if_neg (by simpa using hh), hf]
    simp only
    rw [if_neg (by rw [ha]; exact Bool.false_ne_true), if_neg (by rw [hb]; exact Bool.false_ne_true), if_pos hm]
    exact ⟨_, rfl, fun g sp hg hs => parkPages_split _ x _ _ w g sp hg hs⟩

end Sys2Proof.Machine
end

