-- ==== Sys2Proof/Laws/Encode.lean ====
section
/-! SUPPORT. An encoded instruction decodes to itself: what the field readers answer on the words that the encoder builds,
and one lemma for each word format. -/

namespace Sys2Proof.Laws
open Sys2Proof

theorem extract_append_hi {w v s l : Nat} (x : BitVec w) (y : BitVec v) (h : v ≤ s) :
    (x ++ y).extractLsb' s l = x.extractLsb' (s - v) l := by
  apply BitVec.eq_of_getLsbD_eq
  intro i hi
  simp only [BitVec.getLsbD_extractLsb', hi, decide_true, Bool.true_and, BitVec.getLsbD_append]
  rw [if_neg (by omega)]
  congr 1; omega

theorem extract_append_lo {w v s l : Nat} (x : BitVec w) (y : BitVec v) (h : s + l ≤ v) :
    (x ++ y).extractLsb' s l = y.extractLsb' s l := by
  apply BitVec.eq_of_getLsbD_eq
  intro i hi
  simp only [BitVec.getLsbD_extractLsb', hi, decide_true, Bool.true_and, BitVec.getLsbD_append]
  rw [if_pos (by omega)]

theorem extract_self {w : Nat} (x : BitVec w) : x.extractLsb' 0 w = x := by simp

theorem toNat_code {w n : Nat} (h : n < 2 ^ w) : (BitVec.ofNat w n).toNat = n := by
  simp [Nat.mod_eq_of_lt h]

/-! Format A and E base words. -/

section AWord
variable (m s : Nat) (d a b : BitVec 8)

theorem wMaj_encAWord (h : m < 64) : wMaj (encAWord m s d a b) = m := by
  unfold wMaj encAWord
  erw [extract_append_hi _ _ (by decide), extract_append_hi _ _ (by decide), extract_append_hi _ _ (by decide),
    extract_append_hi _ _ (by decide), extract_self, toNat_code h]

theorem wD_encAWord : wD (encAWord m s d a b) = d := by
  unfold wD encAWord
  erw [extract_append_hi _ _ (by decide), extract_append_hi _ _ (by decide), extract_append_hi _ _ (by decide),
    extract_append_lo _ _ (by decide), extract_self]

theorem wA_encAWord : wA (encAWord m s d a b) = a := by
  unfold wA encAWord
  erw [extract_append_hi _ _ (by decide), extract_append_hi _ _ (by decide), extract_append_lo _ _ (by decide),
    extract_self]

theorem wB_encAWord : wB (encAWord m s d a b) = b := by
  unfold wB encAWord
  erw [extract_append_hi _ _ (by decide), extract_append_lo _ _ (by decide), extract_self]

theorem wS_encAWord (h : s < 4) : (wS (encAWord m s d a b)).toNat = s := by
  unfold wS encAWord
  erw [extract_append_lo _ _ (by decide), extract_self, toNat_code h]
end AWord

/-! Extension words. -/

theorem xC_encXWord (c md : BitVec 8) (mn : BitVec 16) : xC (encXWord c md mn) = c := by
  unfold xC encXWord
  erw [extract_append_hi _ _ (by decide), extract_append_hi _ _ (by decide), extract_self]

theorem xMod_encXWord (c md : BitVec 8) (mn : BitVec 16) : xMod (encXWord c md mn) = md := by
  unfold xMod encXWord
  erw [extract_append_hi _ _ (by decide), extract_append_lo _ _ (by decide), extract_self]

theorem xMinor_encXWord (c md : BitVec 8) (mn : BitVec 16) : xMinor (encXWord c md mn) = mn := by
  unfold xMinor encXWord
  erw [extract_append_lo _ _ (by decide), extract_self]

/-! Format I base words. -/

section IWord
variable (m : Nat) (d a : BitVec 8) (imm : BitVec 10)

theorem wMaj_encIWord (h : m < 64) : wMaj (encIWord m d a imm) = m := by
  unfold wMaj encIWord
  erw [extract_append_hi _ _ (by decide), extract_append_hi _ _ (by decide), extract_append_hi _ _ (by decide),
    extract_self, toNat_code h]

theorem wD_encIWord : wD (encIWord m d a imm) = d := by
  unfold wD encIWord
  erw [extract_append_hi _ _ (by decide), extract_append_hi _ _ (by decide), extract_append_lo _ _ (by decide),
    extract_self]

theorem wA_encIWord : wA (encIWord m d a imm) = a := by
  unfold wA encIWord
  erw [extract_append_hi _ _ (by decide), extract_append_lo _ _ (by decide), extract_self]

theorem wImm_encIWord : wImm (encIWord m d a imm) = imm := by
  unfold wImm encIWord
  erw [extract_append_lo _ _ (by decide), extract_self]
end IWord

/-! Format M base words. -/

section MWord
variable (m : Nat) (d a : BitVec 8) (sz : BitVec 3) (cp : BitVec 2) (off5 : BitVec 5)

theorem wMaj_encMWord (h : m < 64) : wMaj (encMWord m d a sz cp off5) = m := by
  unfold wMaj encMWord
  erw [extract_append_hi _ _ (by decide), extract_append_hi _ _ (by decide), extract_append_hi _ _ (by decide),
    extract_append_hi _ _ (by decide), extract_append_hi _ _ (by decide), extract_self, toNat_code h]

theorem wD_encMWord : wD (encMWord m d a sz cp off5) = d := by
  unfold wD encMWord
  erw [extract_append_hi _ _ (by decide), extract_append_hi _ _ (by decide), extract_append_hi _ _ (by decide),
    extract_append_hi _ _ (by decide), extract_append_lo _ _ (by decide), extract_self]

theorem wA_encMWord : wA (encMWord m d a sz cp off5) = a := by
  unfold wA encMWord
  erw [extract_append_hi _ _ (by decide), extract_append_hi _ _ (by decide), extract_append_hi _ _ (by decide),
    extract_append_lo _ _ (by decide), extract_self]

theorem wSz_encMWord : wSz (encMWord m d a sz cp off5) = sz := by
  unfold wSz encMWord
  erw [extract_append_hi _ _ (by decide), extract_append_hi _ _ (by decide), extract_append_lo _ _ (by decide),
    extract_self]

theorem wCp_encMWord : wCp (encMWord m d a sz cp off5) = cp := by
  unfold wCp encMWord
  erw [extract_append_hi _ _ (by decide), extract_append_lo _ _ (by decide), extract_self]

theorem wOff5_encMWord : wOff5 (encMWord m d a sz cp off5) = off5 := by
  unfold wOff5 encMWord
  erw [extract_append_lo _ _ (by decide), extract_self]
end MWord

/-! Format C and X words. -/

section CWord
variable (m s : Nat) (mr : BitVec 4) (off : BitVec 20)

theorem wMaj_encCWord (h : m < 64) : wMaj (encCWord m s mr off) = m := by
  unfold wMaj encCWord
  erw [extract_append_hi _ _ (by decide), extract_append_hi _ _ (by decide), extract_append_hi _ _ (by decide),
    extract_self, toNat_code h]

theorem wMr_encCWord : wMr (encCWord m s mr off) = mr := by
  unfold wMr encCWord
  erw [extract_append_hi _ _ (by decide), extract_append_hi _ _ (by decide), extract_append_lo _ _ (by decide),
    extract_self]

theorem wCs_encCWord (h : s < 4) : (wCs (encCWord m s mr off)).toNat = s := by
  unfold wCs encCWord
  erw [extract_append_hi _ _ (by decide), extract_append_lo _ _ (by decide), extract_self, toNat_code h]

theorem wOff20_encCWord : wOff20 (encCWord m s mr off) = off := by
  unfold wOff20 encCWord
  erw [extract_append_lo _ _ (by decide), extract_self]
end CWord

theorem wMaj_encFWord (m : Nat) (o : XOps) (h : m < 64) : wMaj (encFWord m o) = m := by
  unfold wMaj encFWord
  erw [extract_append_hi _ _ (by decide), extract_append_hi _ _ (by decide), extract_append_hi _ _ (by decide),
    extract_append_hi _ _ (by decide), extract_append_hi _ _ (by decide), extract_self, toNat_code h]

theorem wX_encFWord (m : Nat) (o : XOps) : wX (encFWord m o) = o := by
  obtain ⟨acc, a, b, f, fl⟩ := o
  unfold wX encFWord
  congr 1
  · erw [extract_append_hi _ _ (by decide), extract_append_hi _ _ (by decide), extract_append_hi _ _ (by decide),
      extract_append_hi _ _ (by decide), extract_append_lo _ _ (by decide), extract_self]
  · erw [extract_append_hi _ _ (by decide), extract_append_hi _ _ (by decide), extract_append_hi _ _ (by decide),
      extract_append_lo _ _ (by decide), extract_self]
  · erw [extract_append_hi _ _ (by decide), extract_append_hi _ _ (by decide), extract_append_lo _ _ (by decide),
      extract_self]
  · erw [extract_append_hi _ _ (by decide), extract_append_lo _ _ (by decide), extract_self]
  · erw [extract_append_lo _ _ (by decide), extract_self]

/-! The literal word. -/

theorem litOf_encLit {calls : Bool} {lit : Word} (h : (calls || lit == 0) = true) (rest : List Word) :
    litOf calls (encLit calls lit ++ rest) = some lit := by
  cases calls <;> simp_all [litOf, encLit]

theorem length_encLit (calls : Bool) (lit : Word) : (encLit calls lit).length = if calls then 1 else 0 := by
  cases calls <;> rfl

theorem accept_ok {m n : Nat} {i : Instr} (hw : i.wf = true) (hl : i.legal = true) :
    accept m i n = .ok (i, n) := by simp [accept, hw, hl]

theorem narrow_self (a : BitVec 4) : (a.setWidth 8).extractLsb' 0 4 = a := by
  apply BitVec.eq_of_toNat_eq; simp; omega

theorem ctr_self (a : BitVec 2) : (a.setWidth 8).extractLsb' 0 2 = a := by
  apply BitVec.eq_of_toNat_eq; simp; omega

theorem join_low (j : BitVec 20) : (j.setWidth 32).extractLsb' 0 20 = j := by
  apply BitVec.eq_of_toNat_eq; simp; omega

theorem join_high (j : BitVec 20) : (j.setWidth 32).extractLsb' 20 12 = 0#12 := by
  apply BitVec.eq_of_toNat_eq
  have := j.isLt
  simp [Nat.shiftRight_eq_div_pow]; omega

theorem split_append {w v : Nat} (x : BitVec (w + v)) : x.extractLsb' v w ++ x.extractLsb' 0 v = x := by
  apply BitVec.eq_of_getLsbD_eq
  intro i hi
  simp only [BitVec.getLsbD_append, BitVec.getLsbD_extractLsb']
  split
  · rename_i h; simp [h]
  · rename_i h
    have : v + (i - v) = i := by omega
    rw [this]; simp; omega

theorem halves (x : BitVec 18) : x.extractLsb' 10 8 ++ x.extractLsb' 0 10 = x := split_append (w := 8) (v := 10) x

theorem words (x : BitVec 64) : x.extractLsb' 32 32 ++ x.extractLsb' 0 32 = x := split_append (w := 32) (v := 32) x

/-! Whole instructions. -/

/-- Format A with D, A and B. -/
theorem decode_encA {m s : Nat} {mk : AOps → Instr} (o : AOps) (rest : List Word) (hm : m < 64) (hs : s < 4)
    (hf : fmtOf m = some .a) (hr : aRow m s = some mk) (hw : (mk o).wf = true) (hl : (mk o).legal = true)
    (hlit : litOk (o.a == 0xFF || o.b == 0xFF) o.lit = true) :
    decode (encA m s o ++ rest) = .ok (mk o, (encA m s o).length) := by
  have h1 : m ≠ 0x1E := by rintro rfl; simp [aRow] at hr
  have h2 : m ≠ 0x1F := by rintro rfl; simp [aRow] at hr
  have h3 : m ≠ 0x36 := by rintro rfl; simp [aRow] at hr
  simp only [encA, List.cons_append, decode, wMaj_encAWord _ _ _ _ _ hm, hf, decodeA, wS_encAWord _ _ _ _ _ hs,
    wD_encAWord, wA_encAWord, wB_encAWord, beq_iff_eq, h1, h2, h3, Bool.and_eq_true, false_and, if_false, hr,
    litOf_encLit hlit, List.length_cons, length_encLit]
  rw [accept_ok hw hl]
  split <;> rfl

/-- Format A with D and A. -/
theorem decode_encU {m s : Nat} {mk : UOps → Instr} (o : UOps) (rest : List Word) (hm : m < 64) (hs : s < 4)
    (hf : fmtOf m = some .a) (ha : aRow m s = none) (hr : uRow m s = some mk) (hw : (mk o).wf = true)
    (hl : (mk o).legal = true) (hlit : litOk (o.a == 0xFF) o.lit = true) :
    decode (encU m s o ++ rest) = .ok (mk o, (encU m s o).length) := by
  have h1 : ¬ (m = 0x1E ∧ s = 1) := by rintro ⟨rfl, rfl⟩; simp [uRow] at hr
  have h2 : ¬ (m = 0x1E ∧ s = 2) := by rintro ⟨rfl, rfl⟩; simp [uRow] at hr
  have h3 : ¬ (m = 0x1E ∧ s = 3) := by rintro ⟨rfl, rfl⟩; simp [uRow] at hr
  have h4 : m ≠ 0x1F := by rintro rfl; simp [uRow] at hr
  have h5 : ¬ (m = 0x36 ∧ s = 3) := by rintro ⟨rfl, rfl⟩; simp [uRow] at hr
  simp only [encU, List.cons_append, decode, wMaj_encAWord _ _ _ _ _ hm, hf, decodeA, wS_encAWord _ _ _ _ _ hs,
    wD_encAWord, wA_encAWord, wB_encAWord, beq_iff_eq, h1, h2, h3, h4, h5, Bool.and_eq_true, if_false, ha, hr,
    litOf_encLit hlit, List.length_cons, length_encLit, bne_self_eq_false, Bool.false_eq_true]
  rw [accept_ok hw hl]
  split <;> rfl

/-- Format A with A alone. -/
theorem decode_encT {m s : Nat} {mk : TOps → Instr} (o : TOps) (rest : List Word) (hm : m < 64) (hs : s < 4)
    (hf : fmtOf m = some .a) (ha : aRow m s = none) (hu : uRow m s = none) (hr : tRow m s = some mk)
    (hw : (mk o).wf = true) (hl : (mk o).legal = true) (hlit : litOk (o.a == 0xFF) o.lit = true) :
    decode (encT m s o ++ rest) = .ok (mk o, (encT m s o).length) := by
  have h1 : m ≠ 0x1E := by rintro rfl; simp [tRow] at hr
  have h4 : m ≠ 0x1F := by rintro rfl; simp [tRow] at hr
  have h5 : ¬ (m = 0x36 ∧ s = 3) := by rintro ⟨rfl, rfl⟩; simp [tRow] at hr
  simp only [encT, List.cons_append, decode, wMaj_encAWord _ _ _ _ _ hm, hf, decodeA, wS_encAWord _ _ _ _ _ hs,
    wD_encAWord, wA_encAWord, wB_encAWord, beq_iff_eq, h1, h4, h5, Bool.and_eq_true, false_and, if_false, ha, hu, hr,
    litOf_encLit hlit, List.length_cons, length_encLit, bne_self_eq_false, Bool.or_self, Bool.false_eq_true]
  rw [accept_ok hw hl]
  split <;> rfl

/-- Format I but MOVI. -/
theorem decode_encI {m : Nat} {mk : IOps → Instr} (o : IOps) (rest : List Word) (hm : m < 64)
    (hf : fmtOf m = some .i) (hr : iRow m = some mk) (hw : (mk o).wf = true) (hl : (mk o).legal = true)
    (hlit : litOk (o.a == 0xFF) o.lit = true) :
    decode (encI m o ++ rest) = .ok (mk o, (encI m o).length) := by
  have h1 : m ≠ 0x1D := by rintro rfl; simp [iRow] at hr
  simp only [encI, List.cons_append, decode, wMaj_encIWord _ _ _ _ hm, hf, decodeI, wD_encIWord, wA_encIWord,
    wImm_encIWord, beq_iff_eq, h1, if_false, hr, litOf_encLit hlit, List.length_cons, length_encLit]
  rw [accept_ok hw hl]
  split <;> rfl

/-- Format M. -/
theorem decode_encM {m : Nat} {mk : MOps → Instr} (o : MOps) (rest : List Word) (hm : m < 64)
    (hf : fmtOf m = some .m) (hr : mRow m o.d = some mk) (hw : (mk o).wf = true) (hl : (mk o).legal = true)
    (hext : o.extOk = true) (hlit : litOk (mCalls m o.d o.a) o.lit = true) :
    decode (encM m o ++ rest) = .ok (mk o, (encM m o).length) := by
  simp only [encM, List.cons_append, decode, wMaj_encMWord _ _ _ _ _ _ hm, hf, decodeM, wD_encMWord, wA_encMWord,
    wSz_encMWord, wCp_encMWord, wOff5_encMWord, hr]
  by_cases h5 : o.off5 = 0x1F
  · simp only [h5, beq_self_eq_true, if_true, List.cons_append, List.nil_append, litOf_encLit hlit,
      List.length_cons, length_encLit]
    rw [← h5, accept_ok hw hl]
    split <;> rfl
  · have hx : o.ext = 0 := by
      unfold MOps.extOk at hext
      have h6 : o.off5 ≠ 31#5 := h5
      simpa [h6] using hext
    have hb : (o.off5 == 0x1F) = false := by simpa using h5
    simp only [hb, Bool.false_eq_true, if_false, List.nil_append, litOf_encLit hlit, List.length_cons, length_encLit]
    rw [← hx, accept_ok hw hl]
    split <;> rfl

/-- The uses of a row's fields at a MINOR value. -/
def rowUses (row : ERow) (minor : BitVec 16) : Uses :=
  match (row.ctor ⟨0, 0, 0, 0, 0, minor, 0⟩).uses with
  | some (u, _) => u
  | none => ⟨.unused, .unused, .unused, .unused⟩

/-- A row's fields are used by its MINOR bits alone. -/
theorem eRow_uses {m s : Nat} {minor : BitVec 16} {row : ERow} (h : eRow m s minor = some row) :
    ∀ o, (row.ctor o).uses = some (rowUses row o.minor, o) := by
  have plain : eRowPlain m s = some row → ∀ o, (row.ctor o).uses = some (rowUses row o.minor, o) := by
    intro hp
    unfold eRowPlain at hp
    split at hp <;> first | (cases hp; exact fun _ => rfl) | cases hp
  have sel : eRowSel m s minor = some row → ∀ o, (row.ctor o).uses = some (rowUses row o.minor, o) := by
    intro hp
    unfold eRowSel at hp
    split at hp
    all_goals try (split at hp <;> first | (cases hp; exact fun _ => rfl) | skip)
    all_goals try (split at hp)
    all_goals first | (cases hp; exact fun _ => rfl) | cases hp
  unfold eRow at h
  cases hp : eRowPlain m s with
  | some r => rw [hp] at h; exact plain (hp.trans h)
  | none => rw [hp] at h; exact sel h

/-- Format E. -/
theorem decode_encE {i : Instr} {u : Uses} {o : EOps} (rest : List Word) (hu : i.uses = some (u, o))
    (hm : Nat.blt (eCode i).1 64 = true) (hs : Nat.blt (eCode i).2 4 = true) (hf : fmtOf (eCode i).1 = some .e) (hwu : u.ok o = true)
    (hw : i.wf = true) (hrow : rowOk i = true) (hl : i.legal = true) :
    decode (encode i ++ rest) = .ok (i, (encode i).length) := by
  have hm := Nat.blt_eq.mp hm
  have hs := Nat.blt_eq.mp hs
  have he : encode i = encE (eCode i).1 (eCode i).2 u o := by unfold encode; rw [hu]
  rw [he]
  unfold rowOk at hrow
  rw [hu] at hrow
  dsimp only at hrow
  split at hrow
  next row hr =>
    simp only [Bool.and_eq_true, decide_eq_true_eq, beq_iff_eq] at hrow
    obtain ⟨⟨hc, hmod⟩, hmin⟩ := hrow
    have hfu := eRow_uses hr
    have huf : u = rowUses row o.minor := by
      have := hfu o; rw [hc, hu] at this; cases this; rfl
    have hlit : (u.callsLit o || o.lit == 0) = true := by
      unfold Uses.ok at hwu; simp only [Bool.and_eq_true] at hwu; exact hwu.2
    simp only [encE, List.cons_append, decode, wMaj_encAWord _ _ _ _ _ hm, hf, decodeE, wS_encAWord _ _ _ _ _ hs,
      wD_encAWord, wA_encAWord, wB_encAWord, xC_encXWord, xMod_encXWord, xMinor_encXWord, hr, hmod, hmin, hfu,
      bne_self_eq_false, Bool.or_self, Bool.false_eq_true, if_false, ← huf]
    have hcall : u.callsLit ⟨o.d, o.a, o.b, o.c, o.mod, o.minor, 0⟩ = u.callsLit o := rfl
    rw [hcall, litOf_encLit hlit]
    simp only [hc, accept_ok hw hl, List.length_cons, length_encLit]
    split <;> rfl
  next => cases hrow

end Sys2Proof.Laws
end

