-- ==== Sys2Proof/Laws/Exec.lean ====
section
/-! SUPPORT. The meaning that `exec` gives each constructor, and what the executing split of a state is. -/

namespace Sys2Proof.Machine

/-- The executing split as the state holds it. -/
theorem ex?_some {s : State} {x : Ex} (h : s.ex? = some x) :
    s.issuer = some (x.gid, x.sid) ∧ s.group x.gid = some x.g ∧ x.g.splits.find x.sid = some x.sp ∧
      x.lanes = x.sp.due.getD x.sp.mask := by
  unfold State.ex? at h
  split at h
  · cases h
  · split at h
    · cases h
    · split at h
      · cases h
      · cases h; exact ⟨‹_›, ‹_›, ‹_›, rfl⟩

theorem kernelOnly_eq {s : State} {x : Ex} (h : s.ex? = some x) (k : Ex → State) :
    s.kernelOnly k = .next (if x.g.isQueue then s.illegal x else k x) := withEx_eq h _

theorem exec_iadd (o : AOps) (s : State) : exec (.iadd o) s = execIadd o s := rfl
theorem exec_isub (o : AOps) (s : State) : exec (.isub o) s = execIsub o s := rfl
theorem exec_iaddc (o : AOps) (s : State) : exec (.iaddc o) s = execIaddc o s := rfl
theorem exec_isubb (o : AOps) (s : State) : exec (.isubb o) s = execIsubb o s := rfl
theorem exec_iaddImm (o : IOps) (s : State) : exec (.iaddImm o) s = execIaddImm o s := rfl
theorem exec_andImm (o : IOps) (s : State) : exec (.andImm o) s = execAndImm o s := rfl
theorem exec_orImm (o : IOps) (s : State) : exec (.orImm o) s = execOrImm o s := rfl
theorem exec_xorImm (o : IOps) (s : State) : exec (.xorImm o) s = execXorImm o s := rfl
theorem exec_imul (o : AOps) (s : State) : exec (.imul o) s = execImul o s := rfl
theorem exec_imulh (o : AOps) (s : State) : exec (.imulh o) s = execImulh o s := rfl
theorem exec_imulhU (o : AOps) (s : State) : exec (.imulhU o) s = execImulhU o s := rfl
theorem exec_iadd64 (o : AOps) (s : State) : exec (.iadd64 o) s = execIadd64 o s := rfl
theorem exec_imad (o : EOps) (s : State) : exec (.imad o) s = execImad o s := rfl
theorem exec_idiv (o : EOps) (s : State) : exec (.idiv o) s = execIdiv o s := rfl
theorem exec_imin (o : AOps) (s : State) : exec (.imin o) s = execImin o s := rfl
theorem exec_imax (o : AOps) (s : State) : exec (.imax o) s = execImax o s := rfl
theorem exec_iminU (o : AOps) (s : State) : exec (.iminU o) s = execIminU o s := rfl
theorem exec_imaxU (o : AOps) (s : State) : exec (.imaxU o) s = execImaxU o s := rfl
theorem exec_and (o : AOps) (s : State) : exec (.and o) s = execAnd o s := rfl
theorem exec_or (o : AOps) (s : State) : exec (.or o) s = execOr o s := rfl
theorem exec_xor (o : AOps) (s : State) : exec (.xor o) s = execXor o s := rfl
theorem exec_andn (o : AOps) (s : State) : exec (.andn o) s = execAndn o s := rfl
theorem exec_shl (o : AOps) (s : State) : exec (.shl o) s = execShl o s := rfl
theorem exec_shr (o : AOps) (s : State) : exec (.shr o) s = execShr o s := rfl
theorem exec_sar (o : AOps) (s : State) : exec (.sar o) s = execSar o s := rfl
theorem exec_rol (o : AOps) (s : State) : exec (.rol o) s = execRol o s := rfl
theorem exec_bfx (o : EOps) (s : State) : exec (.bfx o) s = execBfx o s := rfl
theorem exec_bfi (o : EOps) (s : State) : exec (.bfi o) s = execBfi o s := rfl
theorem exec_lea (o : EOps) (s : State) : exec (.lea o) s = execLea o s := rfl
theorem exec_popc (o : UOps) (s : State) : exec (.popc o) s = execPopc o s := rfl
theorem exec_clz (o : UOps) (s : State) : exec (.clz o) s = execClz o s := rfl
theorem exec_ctz (o : UOps) (s : State) : exec (.ctz o) s = execCtz o s := rfl
theorem exec_brev (o : UOps) (s : State) : exec (.brev o) s = execBrev o s := rfl
theorem exec_iabs (o : UOps) (s : State) : exec (.iabs o) s = execIabs o s := rfl
theorem exec_clmulLo (o : AOps) (s : State) : exec (.clmulLo o) s = execClmulLo o s := rfl
theorem exec_clmulHi (o : AOps) (s : State) : exec (.clmulHi o) s = execClmulHi o s := rfl
theorem exec_icmp (o : EOps) (s : State) : exec (.icmp o) s = execIcmp o s := rfl
theorem exec_sel (o : EOps) (s : State) : exec (.sel o) s = execSel o s := rfl
theorem exec_fadd (o : EOps) (s : State) : exec (.fadd o) s = execFadd o s := rfl
theorem exec_fsub (o : EOps) (s : State) : exec (.fsub o) s = execFsub o s := rfl
theorem exec_fmul (o : EOps) (s : State) : exec (.fmul o) s = execFmul o s := rfl
theorem exec_ffma (o : EOps) (s : State) : exec (.ffma o) s = execFfma o s := rfl
theorem exec_faddShort (o : AOps) (s : State) : exec (.faddShort o) s = execFaddShort o s := rfl
theorem exec_fsubShort (o : AOps) (s : State) : exec (.fsubShort o) s = execFsubShort o s := rfl
theorem exec_fmulShort (o : AOps) (s : State) : exec (.fmulShort o) s = execFmulShort o s := rfl
theorem exec_fmaxShort (o : AOps) (s : State) : exec (.fmaxShort o) s = execFmaxShort o s := rfl
theorem exec_dadd (o : EOps) (s : State) : exec (.dadd o) s = execDadd o s := rfl
theorem exec_dmul (o : EOps) (s : State) : exec (.dmul o) s = execDmul o s := rfl
theorem exec_dfma (o : EOps) (s : State) : exec (.dfma o) s = execDfma o s := rfl
theorem exec_daddShort (o : AOps) (s : State) : exec (.daddShort o) s = execDaddShort o s := rfl
theorem exec_dmulShort (o : AOps) (s : State) : exec (.dmulShort o) s = execDmulShort o s := rfl
theorem exec_fmin (o : EOps) (s : State) : exec (.fmin o) s = execFmin o s := rfl
theorem exec_fmax (o : EOps) (s : State) : exec (.fmax o) s = execFmax o s := rfl
theorem exec_dmin (o : EOps) (s : State) : exec (.dmin o) s = execDmin o s := rfl
theorem exec_dmax (o : EOps) (s : State) : exec (.dmax o) s = execDmax o s := rfl
theorem exec_fcmp (o : EOps) (s : State) : exec (.fcmp o) s = execFcmp o s := rfl
theorem exec_dcmp (o : EOps) (s : State) : exec (.dcmp o) s = execDcmp o s := rfl
theorem exec_fclass (o : EOps) (s : State) : exec (.fclass o) s = execFclass o s := rfl
theorem exec_frcp (o : EOps) (s : State) : exec (.frcp o) s = execFrcp o s := rfl
theorem exec_frsq (o : EOps) (s : State) : exec (.frsq o) s = execFrsq o s := rfl
theorem exec_fsqrt (o : EOps) (s : State) : exec (.fsqrt o) s = execFsqrt o s := rfl
theorem exec_fdiv (o : EOps) (s : State) : exec (.fdiv o) s = execFdiv o s := rfl
theorem exec_fexp2 (o : EOps) (s : State) : exec (.fexp2 o) s = execFexp2 o s := rfl
theorem exec_flog2 (o : EOps) (s : State) : exec (.flog2 o) s = execFlog2 o s := rfl
theorem exec_ftanh (o : EOps) (s : State) : exec (.ftanh o) s = execFtanh o s := rfl
theorem exec_fsin (o : EOps) (s : State) : exec (.fsin o) s = execFsin o s := rfl
theorem exec_fcos (o : EOps) (s : State) : exec (.fcos o) s = execFcos o s := rfl
theorem exec_ddiv (o : EOps) (s : State) : exec (.ddiv o) s = execDdiv o s := rfl
theorem exec_dsqrt (o : EOps) (s : State) : exec (.dsqrt o) s = execDsqrt o s := rfl
theorem exec_frnd (o : EOps) (s : State) : exec (.frnd o) s = execFrnd o s := rfl
theorem exec_fldexp (o : EOps) (s : State) : exec (.fldexp o) s = execFldexp o s := rfl
theorem exec_hadd2 (o : EOps) (s : State) : exec (.hadd2 o) s = execHadd2 o s := rfl
theorem exec_hmul2 (o : EOps) (s : State) : exec (.hmul2 o) s = execHmul2 o s := rfl
theorem exec_hfma2 (o : EOps) (s : State) : exec (.hfma2 o) s = execHfma2 o s := rfl
theorem exec_hadd2Short (o : AOps) (s : State) : exec (.hadd2Short o) s = execHadd2Short o s := rfl
theorem exec_hmul2Short (o : AOps) (s : State) : exec (.hmul2Short o) s = execHmul2Short o s := rfl
theorem exec_cvt (o : EOps) (s : State) : exec (.cvt o) s = execCvt o s := rfl
theorem exec_pack (o : EOps) (s : State) : exec (.pack o) s = execPack o s := rfl
theorem exec_unpk (o : EOps) (s : State) : exec (.unpk o) s = execUnpk o s := rfl
theorem exec_mov (o : UOps) (s : State) : exec (.mov o) s = execMov o s := rfl
theorem exec_movl (o : MovlOps) (s : State) : exec (.movl o) s = execMovl o s := rfl
theorem exec_movi (o : MoviOps) (s : State) : exec (.movi o) s = execMovi o s := rfl
theorem exec_mpop (d : BitVec 8) (a : BitVec 4) (s : State) : exec (.mpop d a) s = execMpop d a s := rfl
theorem exec_mnot (d : BitVec 4) (a : BitVec 4) (s : State) : exec (.mnot d a) s = execMnot d a s := rfl
theorem exec_mand (d : BitVec 4) (a : BitVec 4) (b : BitVec 4) (s : State) : exec (.mand d a b) s = execMand d a b s := rfl
theorem exec_mor (d : BitVec 4) (a : BitVec 4) (b : BitVec 4) (s : State) : exec (.mor d a b) s = execMor d a b s := rfl
theorem exec_mxor (d : BitVec 4) (a : BitVec 4) (b : BitVec 4) (s : State) : exec (.mxor d a b) s = execMxor d a b s := rfl
theorem exec_shfl (o : EOps) (s : State) : exec (.shfl o) s = execShfl o s := rfl
theorem exec_bcst (o : AOps) (s : State) : exec (.bcst o) s = execBcst o s := rfl
theorem exec_vote (o : UOps) (s : State) : exec (.vote o) s = execVote o s := rfl
theorem exec_ballot (o : UOps) (s : State) : exec (.ballot o) s = execBallot o s := rfl
theorem exec_redux (o : EOps) (s : State) : exec (.redux o) s = execRedux o s := rfl
theorem exec_qswp (o : AOps) (s : State) : exec (.qswp o) s = execQswp o s := rfl
theorem exec_qbcst (o : AOps) (s : State) : exec (.qbcst o) s = execQbcst o s := rfl
theorem exec_qdd (o : AOps) (s : State) : exec (.qdd o) s = execQdd o s := rfl
theorem exec_bra (o : COps) (s : State) : exec (.bra o) s = execBra o s := rfl
theorem exec_brd (o : BrdOps) (s : State) : exec (.brd o) s = execBrd o s := rfl
theorem exec_join (s : State) : exec (.join) s = execJoin s := rfl
theorem exec_call (off : BitVec 20) (s : State) : exec (.call off) s = execCall off s := rfl
theorem exec_ret (s : State) : exec (.ret) s = execRet s := rfl
theorem exec_exit (m : BitVec 4) (s : State) : exec (.exit m) s = execExit m s := rfl
theorem exec_nop (s : State) : exec (.nop) s = execNop s := rfl
theorem exec_calli (o : TOps) (s : State) : exec (.calli o) s = execCalli o s := rfl
theorem exec_jmpi (o : TOps) (s : State) : exec (.jmpi o) s = execJmpi o s := rfl
theorem exec_ld (o : MOps) (s : State) : exec (.ld o) s = execLd o s := rfl
theorem exec_pref (o : MOps) (s : State) : exec (.pref o) s = execPref o s := rfl
theorem exec_st (o : MOps) (s : State) : exec (.st o) s = execSt o s := rfl
theorem exec_ldl (o : MOps) (s : State) : exec (.ldl o) s = execLdl o s := rfl
theorem exec_stl (o : MOps) (s : State) : exec (.stl o) s = execStl o s := rfl
theorem exec_ldc (o : MOps) (s : State) : exec (.ldc o) s = execLdc o s := rfl
theorem exec_tex (o : EOps) (s : State) : exec (.tex o) s = execTex o s := rfl
theorem exec_cpy (o : EOps) (s : State) : exec (.cpy o) s = execCpy o s := rfl
theorem exec_cpyq (o : EOps) (s : State) : exec (.cpyq o) s = execCpyq o s := rfl
theorem exec_cinv (o : EOps) (s : State) : exec (.cinv o) s = execCinv o s := rfl
theorem exec_cflush (o : EOps) (s : State) : exec (.cflush o) s = execCflush o s := rfl
theorem exec_halloc (o : EOps) (s : State) : exec (.halloc o) s = execHalloc o s := rfl
theorem exec_hfree (o : EOps) (s : State) : exec (.hfree o) s = execHfree o s := rfl
theorem exec_sste (o : EOps) (s : State) : exec (.sste o) s = execSste o s := rfl
theorem exec_surfaceTableOpApply (ctx : Nat) (s : State) : exec (.surfaceTableOpApply ctx) s = execSurfaceTableOpApply ctx s := rfl
theorem exec_atom (o : EOps) (s : State) : exec (.atom o) s = execAtom o s := rfl
theorem exec_red (o : EOps) (s : State) : exec (.red o) s = execRed o s := rfl
theorem exec_atoml (o : EOps) (s : State) : exec (.atoml o) s = execAtoml o s := rfl
theorem exec_atomicExecute (die : Nat) (s : State) : exec (.atomicExecute die) s = execAtomicExecute die s := rfl
theorem exec_promotionRequest (core : Nat) (s : State) : exec (.promotionRequest core) s = execPromotionRequest core s := rfl
theorem exec_ldfe (o : EOps) (s : State) : exec (.ldfe o) s = execLdfe o s := rfl
theorem exec_ldff (o : EOps) (s : State) : exec (.ldff o) s = execLdff o s := rfl
theorem exec_stfe (o : EOps) (s : State) : exec (.stfe o) s = execStfe o s := rfl
theorem exec_stff (o : EOps) (s : State) : exec (.stff o) s = execStff o s := rfl
theorem exec_taggedWaitResume (store : Nat) (word : Nat) (s : State) : exec (.taggedWaitResume store word) s = execTaggedWaitResume store word s := rfl
theorem exec_feset (o : TOps) (s : State) : exec (.feset o) s = execFeset o s := rfl
theorem exec_feclr (o : TOps) (s : State) : exec (.feclr o) s = execFeclr o s := rfl
theorem exec_feqry (o : UOps) (s : State) : exec (.feqry o) s = execFeqry o s := rfl
theorem exec_waitc (o : WaitcOps) (s : State) : exec (.waitc o) s = execWaitc o s := rfl
theorem exec_counterWaitResume (gid : Nat) (sid : Nat) (s : State) : exec (.counterWaitResume gid sid) s = execCounterWaitResume gid sid s := rfl
theorem exec_binit (o : EOps) (s : State) : exec (.binit o) s = execBinit o s := rfl
theorem exec_barv (o : EOps) (s : State) : exec (.barv o) s = execBarv o s := rfl
theorem exec_barvx (o : EOps) (s : State) : exec (.barvx o) s = execBarvx o s := rfl
theorem exec_bwait (o : EOps) (s : State) : exec (.bwait o) s = execBwait o s := rfl
theorem exec_btest (o : EOps) (s : State) : exec (.btest o) s = execBtest o s := rfl
theorem exec_cbarNear (o : EOps) (s : State) : exec (.cbarNear o) s = execCbarNear o s := rfl
theorem exec_cbarFar (o : EOps) (s : State) : exec (.cbarFar o) s = execCbarFar o s := rfl
theorem exec_gbar (o : EOps) (s : State) : exec (.gbar o) s = execGbar o s := rfl
theorem exec_fence (o : EOps) (s : State) : exec (.fence o) s = execFence o s := rfl
theorem exec_mma (o : XOps) (s : State) : exec (.mma o) s = execMma o s := rfl
theorem exec_teamStep (core : Nat) (s : State) : exec (.teamStep core) s = execTeamStep core s := rfl
theorem exec_mloop (o : MloopOps) (s : State) : exec (.mloop o) s = execMloop o s := rfl
theorem exec_mloopStep (core : Nat) (quad : Nat) (s : State) : exec (.mloopStep core quad) s = execMloopStep core quad s := rfl
theorem exec_macq (o : EOps) (s : State) : exec (.macq o) s = execMacq o s := rfl
theorem exec_mrel (o : EOps) (s : State) : exec (.mrel o) s = execMrel o s := rfl
theorem exec_matrixUnitGrant (core : Nat) (s : State) : exec (.matrixUnitGrant core) s = execMatrixUnitGrant core s := rfl
theorem exec_fbld (o : EOps) (s : State) : exec (.fbld o) s = execFbld o s := rfl
theorem exec_cbld (o : EOps) (s : State) : exec (.cbld o) s = execCbld o s := rfl
theorem exec_scpf (o : EOps) (s : State) : exec (.scpf o) s = execScpf o s := rfl
theorem exec_aclr (o : EOps) (s : State) : exec (.aclr o) s = execAclr o s := rfl
theorem exec_asatr (o : EOps) (s : State) : exec (.asatr o) s = execAsatr o s := rfl
theorem exec_amov (o : EOps) (s : State) : exec (.amov o) s = execAmov o s := rfl
theorem exec_ald (o : EOps) (s : State) : exec (.ald o) s = execAld o s := rfl
theorem exec_ast (o : EOps) (s : State) : exec (.ast o) s = execAst o s := rfl
theorem exec_cmma (o : EOps) (s : State) : exec (.cmma o) s = execCmma o s := rfl
theorem exec_xfwd (o : EOps) (s : State) : exec (.xfwd o) s = execXfwd o s := rfl
theorem exec_xinv (o : EOps) (s : State) : exec (.xinv o) s = execXinv o s := rfl
theorem exec_xscl (o : EOps) (s : State) : exec (.xscl o) s = execXscl o s := rfl
theorem exec_xdom (o : EOps) (s : State) : exec (.xdom o) s = execXdom o s := rfl
theorem exec_grinderComplete (op : Nat) (s : State) : exec (.grinderComplete op) s = execGrinderComplete op s := rfl
theorem exec_eroute (o : EOps) (s : State) : exec (.eroute o) s = execEroute o s := rfl
theorem exec_edone (o : EOps) (s : State) : exec (.edone o) s = execEdone o s := rfl
theorem exec_emerge (o : EOps) (s : State) : exec (.emerge o) s = execEmerge o s := rfl
theorem exec_eqry (o : EOps) (s : State) : exec (.eqry o) s = execEqry o s := rfl
theorem exec_trap (o : EOps) (s : State) : exec (.trap o) s = execTrap o s := rfl
theorem exec_brk (o : EOps) (s : State) : exec (.brk o) s = execBrk o s := rfl
theorem exec_tret (o : EOps) (s : State) : exec (.tret o) s = execTret o s := rfl
theorem exec_lget (o : EOps) (s : State) : exec (.lget o) s = execLget o s := rfl
theorem exec_lput (o : EOps) (s : State) : exec (.lput o) s = execLput o s := rfl
theorem exec_lmsk (o : EOps) (s : State) : exec (.lmsk o) s = execLmsk o s := rfl
theorem exec_srd (o : EOps) (s : State) : exec (.srd o) s = execSrd o s := rfl
theorem exec_swr (o : EOps) (s : State) : exec (.swr o) s = execSwr o s := rfl
theorem exec_rgrow (o : EOps) (s : State) : exec (.rgrow o) s = execRgrow o s := rfl
theorem exec_rshrink (o : EOps) (s : State) : exec (.rshrink o) s = execRshrink o s := rfl
theorem exec_registerBlockGrant (core : Nat) (s : State) : exec (.registerBlockGrant core) s = execRegisterBlockGrant core s := rfl
theorem exec_registerFifoEviction (core : Nat) (s : State) : exec (.registerFifoEviction core) s = execRegisterFifoEviction core s := rfl
theorem exec_launch (o : EOps) (s : State) : exec (.launch o) s = execLaunch o s := rfl
theorem exec_draw (o : EOps) (s : State) : exec (.draw o) s = execDraw o s := rfl
theorem exec_launchBackpressureWake (gid : Nat) (sid : Nat) (s : State) : exec (.launchBackpressureWake gid sid) s = execLaunchBackpressureWake gid sid s := rfl
theorem exec_fexport (form : BitVec 2) (o : EOps) (s : State) : exec (.fexport form o) s = execFexport form o s := rfl
theorem exec_npbegin (o : EOps) (s : State) : exec (.npbegin o) s = execNpbegin o s := rfl
theorem exec_npend (o : EOps) (s : State) : exec (.npend o) s = execNpend o s := rfl
theorem exec_npRegionBoundExceeded (gid : Nat) (s : State) : exec (.npRegionBoundExceeded gid) s = execNpRegionBoundExceeded gid s := rfl
theorem exec_yield (o : EOps) (s : State) : exec (.yield o) s = execYield o s := rfl
theorem exec_ifence (o : EOps) (s : State) : exec (.ifence o) s = execIfence o s := rfl
theorem exec_icinv (o : EOps) (s : State) : exec (.icinv o) s = execIcinv o s := rfl
theorem exec_perfr (o : EOps) (s : State) : exec (.perfr o) s = execPerfr o s := rfl
theorem exec_halt (o : EOps) (s : State) : exec (.halt o) s = execHalt o s := rfl
theorem exec_clauseStart (gid : Nat) (sid : Nat) (s : State) : exec (.clauseStart gid sid) s = execClauseStart gid sid s := rfl
theorem exec_arithNotification (gid : Nat) (s : State) : exec (.arithNotification gid) s = execArithNotification gid s := rfl
theorem exec_pageRequestWrite (vf : Nat) (stage : Nat) (s : State) : exec (.pageRequestWrite vf stage) s = execPageRequestWrite vf stage s := rfl
theorem exec_pageRequestReplay (gid : Nat) (sid : Nat) (s : State) : exec (.pageRequestReplay gid sid) s = execPageRequestReplay gid sid s := rfl
theorem exec_tlbinvComplete (win : Nat) (s : State) : exec (.tlbinvComplete win) s = execTlbinvComplete win s := rfl
theorem exec_queueClauseIssue (cp : Nat) (s : State) : exec (.queueClauseIssue cp) s = execQueueClauseIssue cp s := rfl
theorem exec_windowEnd (t : Nat) (s : State) : exec (.windowEnd t) s = execWindowEnd t s := rfl
theorem exec_replicaCopyChunk (t : Nat) (copy : Nat) (s : State) : exec (.replicaCopyChunk t copy) s = execReplicaCopyChunk t copy s := rfl
theorem exec_replicaPublish (t : Nat) (copy : Nat) (s : State) : exec (.replicaPublish t copy) s = execReplicaPublish t copy s := rfl
theorem exec_replicaCopyFail (t : Nat) (copy : Nat) (s : State) : exec (.replicaCopyFail t copy) s = execReplicaCopyFail t copy s := rfl
theorem exec_replicaRetire (t : Nat) (e : Nat) (n : Nat) (s : State) : exec (.replicaRetire t e n) s = execReplicaRetire t e n s := rfl
theorem exec_versionNotice (t : Nat) (core : Nat) (s : State) : exec (.versionNotice t core) s = execVersionNotice t core s := rfl
theorem exec_mergeComplete (t : Nat) (s : State) : exec (.mergeComplete t) s = execMergeComplete t s := rfl
theorem exec_wdPlaceBlock (s : State) : exec (.wdPlaceBlock) s = execWdPlaceBlock s := rfl
theorem exec_coresGridPlace (s : State) : exec (.coresGridPlace) s = execCoresGridPlace s := rfl
theorem exec_tamperChunk (core : Nat) (s : State) : exec (.tamperChunk core) s = execTamperChunk core s := rfl
theorem exec_blockStart (blk : Nat) (s : State) : exec (.blockStart blk) s = execBlockStart blk s := rfl
theorem exec_blockKill (blk : Nat) (s : State) : exec (.blockKill blk) s = execBlockKill blk s := rfl
theorem exec_groupSlotRelease (gid : Nat) (s : State) : exec (.groupSlotRelease gid) s = execGroupSlotRelease gid s := rfl
theorem exec_blockRetire (blk : Nat) (s : State) : exec (.blockRetire blk) s = execBlockRetire blk s := rfl
theorem exec_launchComplete (lid : Nat) (s : State) : exec (.launchComplete lid) s = execLaunchComplete lid s := rfl
theorem exec_partialEviction (core : Nat) (s : State) : exec (.partialEviction core) s = execPartialEviction core s := rfl
theorem exec_evictionDrainBound (gid : Nat) (s : State) : exec (.evictionDrainBound gid) s = execEvictionDrainBound gid s := rfl
theorem exec_groupRestore (blk : Nat) (core : Nat) (s : State) : exec (.groupRestore blk core) s = execGroupRestore blk core s := rfl
theorem exec_restorationBound (core : Nat) (s : State) : exec (.restorationBound core) s = execRestorationBound core s := rfl
theorem exec_contextTeardown (ctx : Nat) (s : State) : exec (.contextTeardown ctx) s = execContextTeardown ctx s := rfl
theorem exec_copyChunk (core : Nat) (job : Nat) (s : State) : exec (.copyChunk core job) s = execCopyChunk core job s := rfl
theorem exec_copyComplete (core : Nat) (job : Nat) (s : State) : exec (.copyComplete core job) s = execCopyComplete core job s := rfl
theorem exec_carafeSpill (die : Nat) (bank : Nat) (s : State) : exec (.carafeSpill die bank) s = execCarafeSpill die bank s := rfl
theorem exec_carafeReturn (die : Nat) (bank : Nat) (slot : Nat) (s : State) : exec (.carafeReturn die bank slot) s = execCarafeReturn die bank slot s := rfl
theorem exec_primitiveAssembly (draw : Nat) (s : State) : exec (.primitiveAssembly draw) s = execPrimitiveAssembly draw s := rfl
theorem exec_rasterizeTriangle (draw : Nat) (stack : Nat) (s : State) : exec (.rasterizeTriangle draw stack) s = execRasterizeTriangle draw stack s := rfl
theorem exec_ticketIssue (stack : Nat) (s : State) : exec (.ticketIssue stack) s = execTicketIssue stack s := rfl
theorem exec_fragmentGroupPlace (die : Nat) (s : State) : exec (.fragmentGroupPlace die) s = execFragmentGroupPlace die s := rfl
theorem exec_exportPartDelivery (die : Nat) (bank : Nat) (part : Nat) (s : State) : exec (.exportPartDelivery die bank part) s = execExportPartDelivery die bank part s := rfl
theorem exec_bankDepthStage (die : Nat) (bank : Nat) (s : State) : exec (.bankDepthStage die bank) s = execBankDepthStage die bank s := rfl
theorem exec_bankBlendWrite (die : Nat) (bank : Nat) (s : State) : exec (.bankBlendWrite die bank) s = execBankBlendWrite die bank s := rfl
theorem exec_ticketRetire (die : Nat) (bank : Nat) (s : State) : exec (.ticketRetire die bank) s = execTicketRetire die bank s := rfl
theorem exec_followerEntryRetire (die : Nat) (bank : Nat) (s : State) : exec (.followerEntryRetire die bank) s = execFollowerEntryRetire die bank s := rfl
theorem exec_drawComplete (draw : Nat) (s : State) : exec (.drawComplete draw) s = execDrawComplete draw s := rfl
theorem exec_loadDataReturn (gid : Nat) (op : Nat) (s : State) : exec (.loadDataReturn gid op) s = execLoadDataReturn gid op s := rfl
theorem exec_storeAcknowledged (gid : Nat) (op : Nat) (s : State) : exec (.storeAcknowledged gid op) s = execStoreAcknowledged gid op s := rfl
theorem exec_cmmaStep (core : Nat) (quad : Nat) (s : State) : exec (.cmmaStep core quad) s = execCmmaStep core quad s := rfl
theorem exec_qreplyRetry (vf : Nat) (stage : Nat) (reqid : Nat) (s : State) : exec (.qreplyRetry vf stage reqid) s = execQreplyRetry vf stage reqid s := rfl
theorem exec_qreplyInvalid (vf : Nat) (stage : Nat) (reqid : Nat) (s : State) : exec (.qreplyInvalid vf stage reqid) s = execQreplyInvalid vf stage reqid s := rfl
theorem exec_qbaseWrite (vf : Nat) (stage : Nat) (v : BitVec 64) (s : State) : exec (.qbaseWrite vf stage v) s = execQbaseWrite vf stage v s := rfl
theorem exec_qptrConsWrite (vf : Nat) (stage : Nat) (v : BitVec 64) (s : State) : exec (.qptrConsWrite vf stage v) s = execQptrConsWrite vf stage v s := rfl
theorem exec_gqnoteWrite (vf : Nat) (v : BitVec 64) (s : State) : exec (.gqnoteWrite vf v) s = execGqnoteWrite vf v s := rfl
theorem exec_tlbinvStage1Range (win : Nat) (v : BitVec 64) (s : State) : exec (.tlbinvStage1Range win v) s = execTlbinvStage1Range win v s := rfl
theorem exec_tlbinvStage2Range (win : Nat) (v : BitVec 64) (s : State) : exec (.tlbinvStage2Range win v) s = execTlbinvStage2Range win v s := rfl
theorem exec_tlbinvAllCtx (win : Nat) (v : BitVec 64) (s : State) : exec (.tlbinvAllCtx win v) s = execTlbinvAllCtx win v s := rfl
theorem exec_tlbinvAllVf (win : Nat) (v : BitVec 64) (s : State) : exec (.tlbinvAllVf win v) s = execTlbinvAllVf win v s := rfl
theorem exec_ctxvfEnable (ctx : Nat) (v : BitVec 64) (s : State) : exec (.ctxvfEnable ctx v) s = execCtxvfEnable ctx v s := rfl
theorem exec_ctxvfRetire (ctx : Nat) (v : BitVec 64) (s : State) : exec (.ctxvfRetire ctx v) s = execCtxvfRetire ctx v s := rfl
theorem exec_qcfgEnable (q : Nat) (v : BitVec 64) (s : State) : exec (.qcfgEnable q v) s = execQcfgEnable q v s := rfl
theorem exec_qcfgDisable (q : Nat) (v : BitVec 64) (s : State) : exec (.qcfgDisable q v) s = execQcfgDisable q v s := rfl
theorem exec_hostMailboxWrite (off : Nat) (v : BitVec 64) (s : State) : exec (.hostMailboxWrite off v) s = execHostMailboxWrite off v s := rfl
theorem exec_hostConsumingRead (off : Nat) (s : State) : exec (.hostConsumingRead off) s = execHostConsumingRead off s := rfl
theorem exec_qstatW1c (off : Nat) (v : BitVec 64) (s : State) : exec (.qstatW1c off v) s = execQstatW1c off v s := rfl
theorem exec_hostInvalidAccess (off : Nat) (size : Nat) (isWrite : Bool) (s : State) : exec (.hostInvalidAccess off size isWrite) s = execHostInvalidAccess off size isWrite s := rfl
theorem exec_btctlEnable (t : Nat) (v : BitVec 64) (s : State) : exec (.btctlEnable t v) s = execBtctlEnable t v s := rfl
theorem exec_btctlDisable (t : Nat) (v : BitVec 64) (s : State) : exec (.btctlDisable t v) s = execBtctlDisable t v s := rfl
theorem exec_btctlHold (t : Nat) (v : BitVec 64) (s : State) : exec (.btctlHold t v) s = execBtctlHold t v s := rfl
theorem exec_btcmdForceRetire (t : Nat) (e : Nat) (n : Nat) (s : State) : exec (.btcmdForceRetire t e n) s = execBtcmdForceRetire t e n s := rfl
theorem exec_btcmdRefresh (t : Nat) (e : Nat) (s : State) : exec (.btcmdRefresh t e) s = execBtcmdRefresh t e s := rfl
theorem exec_btexclClear (t : Nat) (v : BitVec 64) (s : State) : exec (.btexclClear t v) s = execBtexclClear t v s := rfl
theorem exec_cfareaWrite (die : Nat) (v : BitVec 64) (s : State) : exec (.cfareaWrite die v) s = execCfareaWrite die v s := rfl
theorem exec_dieResetCompute (die : Nat) (s : State) : exec (.dieResetCompute die) s = execDieResetCompute die s := rfl
theorem exec_dieResetFull (die : Nat) (s : State) : exec (.dieResetFull die) s = execDieResetFull die s := rfl
theorem exec_thrportModeWrite (port : Nat) (v : BitVec 64) (s : State) : exec (.thrportModeWrite port v) s = execThrportModeWrite port v s := rfl
theorem exec_domcfgWrite (v : BitVec 64) (s : State) : exec (.domcfgWrite v) s = execDomcfgWrite v s := rfl
theorem exec_perfselWrite (core : Nat) (v : BitVec 64) (s : State) : exec (.perfselWrite core v) s = execPerfselWrite core v s := rfl
theorem exec_ctrlWindowRegWrite (off : Nat) (size : Nat) (v : BitVec 64) (s : State) : exec (.ctrlWindowRegWrite off size v) s = execCtrlWindowRegWrite off size v s := rfl
theorem exec_thrumriRemoteAccess (m : ThrMsg) (s : State) : exec (.thrumriRemoteAccess m) s = execThrumriRemoteAccess m s := rfl
theorem exec_thrumriRouteLost (pkg : Nat) (otherPath : Bool) (s : State) : exec (.thrumriRouteLost pkg otherPath) s = execThrumriRouteLost pkg otherPath s := rfl
theorem exec_linkRetrain (link : Nat) (s : State) : exec (.linkRetrain link) s = execLinkRetrain link s := rfl
theorem exec_dieLinkDown (link : Nat) (s : State) : exec (.dieLinkDown link) s = execDieLinkDown link s := rfl
theorem exec_thermalSensorReading (die : Nat) (col : Nat) (milli : Int) (s : State) : exec (.thermalSensorReading die col milli) s = execThermalSensorReading die col milli s := rfl
theorem exec_thermalNoPlausibleTimeout (die : Nat) (s : State) : exec (.thermalNoPlausibleTimeout die) s = execThermalNoPlausibleTimeout die s := rfl
theorem exec_dramRefresh (die : Nat) (chan : Nat) (s : State) : exec (.dramRefresh die chan) s = execDramRefresh die chan s := rfl
theorem exec_rowActivationRefresh (die : Nat) (row : Nat) (s : State) : exec (.rowActivationRefresh die row) s = execRowActivationRefresh die row s := rfl
theorem exec_cremaPatrolScrub (die : Nat) (bank : Nat) (s : State) : exec (.cremaPatrolScrub die bank) s = execCremaPatrolScrub die bank s := rfl
theorem exec_coldStart (fw : List FwImage) (fuses : List DieFuses) (s : State) : exec (.coldStart fw fuses) s = execColdStart fw fuses s := rfl
theorem exec_warmStart (fw : List FwImage) (s : State) : exec (.warmStart fw) s = execWarmStart fw s := rfl
theorem exec_attestationRequest (nonce : BitVec 256) (s : State) : exec (.attestationRequest nonce) s = execAttestationRequest nonce s := rfl
theorem exec_dieLinkRestored (link : Nat) (s : State) : exec (.dieLinkRestored link) s = execDieLinkRestored link s := rfl
theorem exec_thrumriPortTrained (port : Nat) (peer : Nat) (pport : Nat) (s : State) : exec (.thrumriPortTrained port peer pport) s = execThrumriPortTrained port peer pport s := rfl
theorem exec_thrumriFlitReplay (port : Nat) (s : State) : exec (.thrumriFlitReplay port) s = execThrumriFlitReplay port s := rfl
theorem exec_linkCalibration (port : Nat) (s : State) : exec (.linkCalibration port) s = execLinkCalibration port s := rfl
theorem exec_sramVminCalibration (core : Nat) (row : Nat) (s : State) : exec (.sramVminCalibration core row) s = execSramVminCalibration core row s := rfl
theorem exec_firmwareRecoveryImage (img : FwImage) (s : State) : exec (.firmwareRecoveryImage img) s = execFirmwareRecoveryImage img s := rfl

end Sys2Proof.Machine
end

