-- ==== Sys2Proof/Laws/Num.lean ====
section
/-! SUPPORT. The integer operations of the model against integer arithmetic. -/

namespace Sys2Proof.Machine

theorem intVal_unsigned {w : Nat} (b : BitVec w) : intVal w false b.toNat = b.toNat := by
  simp only [intVal, Bool.false_and, Bool.false_eq_true, if_false, Nat.mod_eq_of_lt b.isLt]

theorem intVal_signed {w : Nat} (b : BitVec w) : intVal w true b.toNat = b.toInt := by
  unfold intVal
  rw [BitVec.toInt_eq_msb_cond, BitVec.msb_eq_getLsbD_last, BitVec.getLsbD, Nat.mod_eq_of_lt b.isLt]
  simp only [Bool.true_and]
  push_cast
  rfl

theorem ofNat_wrapBits (i : Int) (w : Nat) : BitVec.ofNat w (wrapBits w i) = BitVec.ofInt w i := by
  apply BitVec.eq_of_toNat_eq
  have h : (0 : Int) < 2 ^ w := by positivity
  have h1 := Int.emod_nonneg i h.ne'
  have h2 := Int.emod_lt_of_pos i h
  rw [wrapBits, BitVec.toNat_ofNat, BitVec.toNat_ofInt, Nat.mod_eq_of_lt]
  · push_cast; rfl
  · have : ((i % 2 ^ w).toNat : Int) < ((2 ^ w : Nat) : Int) := by rw [Int.toNat_of_nonneg h1]; push_cast; exact h2
    exact_mod_cast this

theorem sdiv_eq_tdiv {w : Nat} (a b : BitVec w) : a.sdiv b = BitVec.ofInt w (a.toInt.tdiv b.toInt) := by
  apply BitVec.eq_of_toInt_eq
  rw [BitVec.toInt_sdiv, BitVec.toInt_ofInt]

theorem ofInt_sub_mul {w : Nat} (a b c : Int) :
    BitVec.ofInt w (a - b * c) = BitVec.ofInt w a - BitVec.ofInt w b * BitVec.ofInt w c := by
  apply BitVec.eq_of_toInt_eq
  simp only [BitVec.toInt_sub, BitVec.toInt_mul, BitVec.toInt_ofInt, Int.bmod_mul_bmod, Int.bmod_sub_bmod, Int.sub_bmod_bmod, Int.mul_bmod_bmod]

theorem srem_eq_sub {w : Nat} (a b : BitVec w) : a.srem b = a - BitVec.ofInt w (a.toInt.tdiv b.toInt) * b := by
  have h : a.srem b = BitVec.ofInt w (a.toInt.tmod b.toInt) := by rw [← BitVec.toInt_srem, BitVec.ofInt_toInt]
  rw [h, Int.tmod_def, ofInt_sub_mul, BitVec.ofInt_toInt, BitVec.ofInt_toInt, BitVec.mul_comm]

theorem udiv_eq_div {w : Nat} (a b : BitVec w) : a / b = BitVec.ofNat w (a.toNat / b.toNat) := by
  apply BitVec.eq_of_toNat_eq
  rw [BitVec.toNat_udiv, BitVec.toNat_ofNat, Nat.mod_eq_of_lt (lt_of_le_of_lt (Nat.div_le_self _ _) a.isLt)]

theorem umod_eq_sub {w : Nat} (a b : BitVec w) : a % b = a - BitVec.ofNat w (a.toNat / b.toNat) * b := by
  have h3 := a.isLt
  have h := Nat.div_add_mod a.toNat b.toNat
  have h2 : a.toNat / b.toNat * b.toNat ≤ a.toNat := Nat.div_mul_le_self _ _
  have hm := Nat.mod_le a.toNat b.toNat
  rw [Nat.mul_comm] at h
  apply BitVec.eq_of_toNat_eq
  rw [← udiv_eq_div]
  simp only [BitVec.toNat_umod, BitVec.toNat_sub, BitVec.toNat_mul, BitVec.toNat_udiv]
  rw [Nat.mod_eq_of_lt (a := _ * _) (lt_of_le_of_lt h2 h3)]
  have e : 2 ^ w - a.toNat / b.toNat * b.toNat + a.toNat = 2 ^ w + a.toNat % b.toNat := by omega
  rw [e, Nat.add_mod_left, Nat.mod_eq_of_lt (lt_of_le_of_lt hm h3)]

theorem shl_eq (a : Word) (n : Nat) : a <<< n = BitVec.ofNat 32 (a.toNat * 2 ^ n) := by
  apply BitVec.eq_of_toNat_eq
  simp [Nat.shiftLeft_eq]

theorem shr_eq (a : Word) (n : Nat) : a >>> n = BitVec.ofNat 32 (a.toNat / 2 ^ n) := by
  apply BitVec.eq_of_toNat_eq
  rw [BitVec.toNat_ushiftRight, Nat.shiftRight_eq_div_pow, BitVec.toNat_ofNat,
    Nat.mod_eq_of_lt (lt_of_le_of_lt (Nat.div_le_self _ _) a.isLt)]

theorem sar_eq (a : Word) (n : Nat) : a.sshiftRight n = BitVec.ofInt 32 (a.toInt / 2 ^ n) := by
  apply BitVec.eq_of_toInt_eq
  rw [BitVec.toInt_sshiftRight, Int.shiftRight_eq_div_pow, BitVec.toInt_ofInt]
  have h1 := BitVec.le_toInt a
  have h2 := BitVec.toInt_lt (x := a)
  have hp : (0 : Int) < 2 ^ n := by positivity
  have h3 : a.toInt / 2 ^ n < 2 ^ 31 := by
    rcases le_total 0 a.toInt with h | h
    · exact lt_of_le_of_lt (Int.ediv_le_self _ h) (by simpa using h2)
    · exact lt_of_le_of_lt (Int.ediv_le_ediv hp h) (by simp)
  have h4 : -(2 ^ 31) ≤ a.toInt / 2 ^ n := by
    rw [Int.le_ediv_iff_mul_le hp]
    have : (1 : Int) ≤ 2 ^ n := by exact_mod_cast Nat.one_le_two_pow
    norm_num at h1
    nlinarith [h1]
  push_cast
  rw [Int.bmod_eq_of_le (by simpa using h4) (by simpa using h3)]

theorem shiftCount_eq (b : Word) : shiftCount b = b.toNat % 256 := by
  simp [shiftCount]

theorem clz_spec (a : Word) :
    clz a ≤ 32 ∧ (∀ i, i < clz a → a.getLsbD (31 - i) = false) ∧ (clz a < 32 → a.getLsbD (31 - clz a) = true) := by
  unfold clz
  by_cases h : a = 0
  · subst h; simp
  · have hn : a.toNat ≠ 0 := fun e => h (BitVec.eq_of_toNat_eq (by simpa using e))
    have hl : Nat.log2 a.toNat < 32 := (Nat.log2_lt hn).2 a.isLt
    simp only [h, if_false]
    refine ⟨by omega, fun i hi => ?_, fun _ => ?_⟩
    · rw [BitVec.getLsbD]
      apply Nat.testBit_lt_two_pow
      exact (Nat.log2_lt hn).1 (by omega)
    · rw [show 31 - (31 - Nat.log2 a.toNat) = Nat.log2 a.toNat by omega, BitVec.getLsbD]
      exact Nat.testBit_log2 hn

theorem ctz_spec (a : Word) :
    ctz a ≤ 32 ∧ (∀ i, i < ctz a → a.getLsbD i = false) ∧ (ctz a < 32 → a.getLsbD (ctz a) = true) := by
  unfold ctz
  cases h : (List.range 32).find? fun i => a.getLsbD i with
  | none =>
    have hn := List.find?_eq_none.1 h
    refine ⟨le_refl _, fun i hi => ?_, fun hh => absurd hh (by simp)⟩
    have := hn i (List.mem_range.2 hi)
    simpa using this
  | some k =>
    have hk := List.find?_range_eq_some.1 h
    simp only [Option.getD_some]
    have hk2 := List.mem_range.1 hk.2.1
    refine ⟨by omega, fun i hi => ?_, fun _ => hk.1⟩
    have := hk.2.2 i hi
    simpa using this

theorem field_eq (b : Word) :
    fieldOf b = (b.toNat % 32, min (min (b.toNat / 256 % 64) 32) (32 - b.toNat % 32)) := by
  have h1 : (b.extractLsb' 0 5).toNat = b.toNat % 32 := by simp
  have h2 : (b.extractLsb' 8 6).toNat = b.toNat / 256 % 64 := by simp [Nat.shiftRight_eq_div_pow]
  unfold fieldOf
  simp only [h1, h2, Prod.mk.injEq, true_and]
  split <;> omega

theorem bfi_bit (a b c : Word) (i : Nat) (hi : i < 32) :
    (bfi a b c).getLsbD i =
      if b.toNat % 32 ≤ i ∧ i < b.toNat % 32 + min (min (b.toNat / 256 % 64) 32) (32 - b.toNat % 32) then
        a.getLsbD (i - b.toNat % 32) else c.getLsbD i := by
  unfold bfi
  rw [field_eq]
  dsimp only
  generalize b.toNat % 32 = p
  generalize min (min (b.toNat / 256 % 64) 32) (32 - p) = w
  simp only [BitVec.getLsbD_or, BitVec.getLsbD_and, BitVec.getLsbD_not, BitVec.getLsbD_ofNat, BitVec.getLsbD_shiftLeft,
    hi, decide_true, Bool.true_and, Nat.testBit_mul_two_pow, Nat.testBit_two_pow_sub_one]
  by_cases h1 : p ≤ i
  · by_cases h2 : i < p + w
    · have : i - p < w := by omega
      simp [h1, h2, this, Nat.not_lt.2 h1]
    · have : ¬ i - p < w := by omega
      simp [h1, h2, this]
  · simp [h1]

theorem clmul_bit (a b : Word) (k : Nat) :
    (clmul a b).getLsbD k = (decide (k < 64) &&
      (List.range 32).foldl (fun acc i => acc ^^ (a.getLsbD i && decide (i ≤ k) && b.getLsbD (k - i))) false) := by
  unfold clmul
  have gen : ∀ (ls : List Nat) (p : Dword) (acc : Bool), (∀ i ∈ ls, i < 32) → p.getLsbD k = (decide (k < 64) && acc) →
      (ls.foldl (fun p i => if a.getLsbD i then p ^^^ (b.setWidth 64 <<< i) else p) p).getLsbD k =
        (decide (k < 64) && ls.foldl (fun acc i => acc ^^ (a.getLsbD i && decide (i ≤ k) && b.getLsbD (k - i))) acc) := by
    intro ls
    induction ls with
    | nil => intro p acc _ h; exact h
    | cons i t ih =>
      intro p acc hi h
      rw [List.foldl_cons, List.foldl_cons]
      refine ih _ _ (fun j hj => hi j (by simp [hj])) ?_
      cases ha : a.getLsbD i
      · simp [h]
      · simp only [if_true, BitVec.getLsbD_xor, h, BitVec.getLsbD_shiftLeft, BitVec.getLsbD_setWidth]
        by_cases hk : k < 64
        · by_cases hik : i ≤ k
          · have : k - i < 64 := by omega
            simp [hk, hik, this, Nat.not_lt.2 hik]
          · have : k < i := by omega
            simp [hk, hik, this]
        · simp [hk]
  exact gen _ _ _ (fun i hi => List.mem_range.1 hi) (by simp)

end Sys2Proof.Machine
end

