-- ==== Sys2Proof/Laws/PerInstr.lean ====
section
/-! SUPPORT. For each constructor of Instr: an instruction that the encoder admits is decoded from its words, whatever
words follow them (R135, R136, R152). -/

namespace Sys2Proof.Laws.RoundTrip
open Sys2Proof Sys2Proof.Laws

/-- Decoding the words of an encodable instruction, followed by any words, gives the instruction and its length. -/
def Statement (i : Instr) : Prop :=
  i.encodable = true → ∀ rest : List Word, decode (encode i ++ rest) = .ok (i, (encode i).length)

theorem parts {i : Instr} (h : i.encodable = true) : i.wf = true ∧ rowOk i = true ∧ i.legal = true := by
  unfold Instr.encodable at h
  simp only [Bool.and_eq_true] at h
  exact ⟨h.1.1.2, h.1.2, h.2⟩

theorem happening {i : Instr} (hh : i.isHappening = true) : Statement i := by
  intro h; unfold Instr.encodable at h; rw [hh] at h; cases h


theorem iadd (o : AOps) : Statement (.iadd o) := fun h rest =>
  have p := parts h
  decode_encA o rest (by decide) (by decide) rfl rfl p.1 p.2.2 p.1

theorem isub (o : AOps) : Statement (.isub o) := fun h rest =>
  have p := parts h
  decode_encA o rest (by decide) (by decide) rfl rfl p.1 p.2.2 p.1

theorem iaddc (o : AOps) : Statement (.iaddc o) := fun h rest =>
  have p := parts h
  decode_encA o rest (by decide) (by decide) rfl rfl p.1 p.2.2 p.1

theorem isubb (o : AOps) : Statement (.isubb o) := fun h rest =>
  have p := parts h
  decode_encA o rest (by decide) (by decide) rfl rfl p.1 p.2.2 p.1

theorem iaddImm (o : IOps) : Statement (.iaddImm o) := fun h rest =>
  have p := parts h
  decode_encI o rest (by decide) rfl rfl p.1 p.2.2 p.1

theorem andImm (o : IOps) : Statement (.andImm o) := fun h rest =>
  have p := parts h
  decode_encI o rest (by decide) rfl rfl p.1 p.2.2 p.1

theorem orImm (o : IOps) : Statement (.orImm o) := fun h rest =>
  have p := parts h
  decode_encI o rest (by decide) rfl rfl p.1 p.2.2 p.1

theorem xorImm (o : IOps) : Statement (.xorImm o) := fun h rest =>
  have p := parts h
  decode_encI o rest (by decide) rfl rfl p.1 p.2.2 p.1

theorem imul (o : AOps) : Statement (.imul o) := fun h rest =>
  have p := parts h
  decode_encA o rest (by decide) (by decide) rfl rfl p.1 p.2.2 p.1

theorem imulh (o : AOps) : Statement (.imulh o) := fun h rest =>
  have p := parts h
  decode_encA o rest (by decide) (by decide) rfl rfl p.1 p.2.2 p.1

theorem imulhU (o : AOps) : Statement (.imulhU o) := fun h rest =>
  have p := parts h
  decode_encA o rest (by decide) (by decide) rfl rfl p.1 p.2.2 p.1

theorem iadd64 (o : AOps) : Statement (.iadd64 o) := fun h rest =>
  have p := parts h
  decode_encA o rest (by decide) (by decide) rfl rfl p.1 p.2.2 p.1

theorem imad (o : EOps) : Statement (.imad o) := fun h rest =>
  have p := parts h
  decode_encE rest rfl rfl rfl rfl p.1 p.1 p.2.1 p.2.2

theorem idiv (o : EOps) : Statement (.idiv o) := fun h rest =>
  have p := parts h
  decode_encE rest rfl rfl rfl rfl p.1 p.1 p.2.1 p.2.2

theorem imin (o : AOps) : Statement (.imin o) := fun h rest =>
  have p := parts h
  decode_encA o rest (by decide) (by decide) rfl rfl p.1 p.2.2 p.1

theorem imax (o : AOps) : Statement (.imax o) := fun h rest =>
  have p := parts h
  decode_encA o rest (by decide) (by decide) rfl rfl p.1 p.2.2 p.1

theorem iminU (o : AOps) : Statement (.iminU o) := fun h rest =>
  have p := parts h
  decode_encA o rest (by decide) (by decide) rfl rfl p.1 p.2.2 p.1

theorem imaxU (o : AOps) : Statement (.imaxU o) := fun h rest =>
  have p := parts h
  decode_encA o rest (by decide) (by decide) rfl rfl p.1 p.2.2 p.1

theorem and (o : AOps) : Statement (.and o) := fun h rest =>
  have p := parts h
  decode_encA o rest (by decide) (by decide) rfl rfl p.1 p.2.2 p.1

theorem or (o : AOps) : Statement (.or o) := fun h rest =>
  have p := parts h
  decode_encA o rest (by decide) (by decide) rfl rfl p.1 p.2.2 p.1

theorem xor (o : AOps) : Statement (.xor o) := fun h rest =>
  have p := parts h
  decode_encA o rest (by decide) (by decide) rfl rfl p.1 p.2.2 p.1

theorem andn (o : AOps) : Statement (.andn o) := fun h rest =>
  have p := parts h
  decode_encA o rest (by decide) (by decide) rfl rfl p.1 p.2.2 p.1

theorem shl (o : AOps) : Statement (.shl o) := fun h rest =>
  have p := parts h
  decode_encA o rest (by decide) (by decide) rfl rfl p.1 p.2.2 p.1

theorem shr (o : AOps) : Statement (.shr o) := fun h rest =>
  have p := parts h
  decode_encA o rest (by decide) (by decide) rfl rfl p.1 p.2.2 p.1

theorem sar (o : AOps) : Statement (.sar o) := fun h rest =>
  have p := parts h
  decode_encA o rest (by decide) (by decide) rfl rfl p.1 p.2.2 p.1

theorem rol (o : AOps) : Statement (.rol o) := fun h rest =>
  have p := parts h
  decode_encA o rest (by decide) (by decide) rfl rfl p.1 p.2.2 p.1

theorem bfx (o : EOps) : Statement (.bfx o) := fun h rest =>
  have p := parts h
  decode_encE rest rfl rfl rfl rfl p.1 p.1 p.2.1 p.2.2

theorem bfi (o : EOps) : Statement (.bfi o) := fun h rest =>
  have p := parts h
  decode_encE rest rfl rfl rfl rfl p.1 p.1 p.2.1 p.2.2

theorem lea (o : EOps) : Statement (.lea o) := fun h rest =>
  have p := parts h
  decode_encE rest rfl rfl rfl rfl p.1 p.1 p.2.1 p.2.2

theorem popc (o : UOps) : Statement (.popc o) := fun h rest =>
  have p := parts h
  decode_encU o rest (by decide) (by decide) rfl rfl rfl p.1 p.2.2 p.1

theorem clz (o : UOps) : Statement (.clz o) := fun h rest =>
  have p := parts h
  decode_encU o rest (by decide) (by decide) rfl rfl rfl p.1 p.2.2 p.1

theorem ctz (o : UOps) : Statement (.ctz o) := fun h rest =>
  have p := parts h
  decode_encU o rest (by decide) (by decide) rfl rfl rfl p.1 p.2.2 p.1

theorem brev (o : UOps) : Statement (.brev o) := fun h rest =>
  have p := parts h
  decode_encU o rest (by decide) (by decide) rfl rfl rfl p.1 p.2.2 p.1

theorem iabs (o : UOps) : Statement (.iabs o) := fun h rest =>
  have p := parts h
  decode_encU o rest (by decide) (by decide) rfl rfl rfl p.1 p.2.2 p.1

theorem clmulLo (o : AOps) : Statement (.clmulLo o) := fun h rest =>
  have p := parts h
  decode_encA o rest (by decide) (by decide) rfl rfl p.1 p.2.2 p.1

theorem clmulHi (o : AOps) : Statement (.clmulHi o) := fun h rest =>
  have p := parts h
  decode_encA o rest (by decide) (by decide) rfl rfl p.1 p.2.2 p.1

theorem icmp (o : EOps) : Statement (.icmp o) := fun h rest =>
  have p := parts h
  decode_encE rest rfl rfl rfl rfl p.1 p.1 p.2.1 p.2.2

theorem sel (o : EOps) : Statement (.sel o) := fun h rest =>
  have p := parts h
  decode_encE rest rfl rfl rfl rfl p.1 p.1 p.2.1 p.2.2

theorem fadd (o : EOps) : Statement (.fadd o) := fun h rest =>
  have p := parts h
  decode_encE rest rfl rfl rfl rfl p.1 p.1 p.2.1 p.2.2

theorem fsub (o : EOps) : Statement (.fsub o) := fun h rest =>
  have p := parts h
  decode_encE rest rfl rfl rfl rfl p.1 p.1 p.2.1 p.2.2

theorem fmul (o : EOps) : Statement (.fmul o) := fun h rest =>
  have p := parts h
  decode_encE rest rfl rfl rfl rfl p.1 p.1 p.2.1 p.2.2

theorem ffma (o : EOps) : Statement (.ffma o) := fun h rest =>
  have p := parts h
  decode_encE rest rfl rfl rfl rfl p.1 p.1 p.2.1 p.2.2

theorem faddShort (o : AOps) : Statement (.faddShort o) := fun h rest =>
  have p := parts h
  decode_encA o rest (by decide) (by decide) rfl rfl p.1 p.2.2 p.1

theorem fsubShort (o : AOps) : Statement (.fsubShort o) := fun h rest =>
  have p := parts h
  decode_encA o rest (by decide) (by decide) rfl rfl p.1 p.2.2 p.1

theorem fmulShort (o : AOps) : Statement (.fmulShort o) := fun h rest =>
  have p := parts h
  decode_encA o rest (by decide) (by decide) rfl rfl p.1 p.2.2 p.1

theorem fmaxShort (o : AOps) : Statement (.fmaxShort o) := fun h rest =>
  have p := parts h
  decode_encA o rest (by decide) (by decide) rfl rfl p.1 p.2.2 p.1

theorem dadd (o : EOps) : Statement (.dadd o) := fun h rest =>
  have p := parts h
  decode_encE rest rfl rfl rfl rfl p.1 p.1 p.2.1 p.2.2

theorem dmul (o : EOps) : Statement (.dmul o) := fun h rest =>
  have p := parts h
  decode_encE rest rfl rfl rfl rfl p.1 p.1 p.2.1 p.2.2

theorem dfma (o : EOps) : Statement (.dfma o) := fun h rest =>
  have p := parts h
  decode_encE rest rfl rfl rfl rfl p.1 p.1 p.2.1 p.2.2

theorem daddShort (o : AOps) : Statement (.daddShort o) := fun h rest =>
  have p := parts h
  decode_encA o rest (by decide) (by decide) rfl rfl p.1 p.2.2 p.1

theorem dmulShort (o : AOps) : Statement (.dmulShort o) := fun h rest =>
  have p := parts h
  decode_encA o rest (by decide) (by decide) rfl rfl p.1 p.2.2 p.1

theorem fmin (o : EOps) : Statement (.fmin o) := fun h rest =>
  have p := parts h
  decode_encE rest rfl rfl rfl rfl p.1 p.1 p.2.1 p.2.2

theorem fmax (o : EOps) : Statement (.fmax o) := fun h rest =>
  have p := parts h
  decode_encE rest rfl rfl rfl rfl p.1 p.1 p.2.1 p.2.2

theorem dmin (o : EOps) : Statement (.dmin o) := fun h rest =>
  have p := parts h
  decode_encE rest rfl rfl rfl rfl p.1 p.1 p.2.1 p.2.2

theorem dmax (o : EOps) : Statement (.dmax o) := fun h rest =>
  have p := parts h
  decode_encE rest rfl rfl rfl rfl p.1 p.1 p.2.1 p.2.2

theorem fcmp (o : EOps) : Statement (.fcmp o) := fun h rest =>
  have p := parts h
  decode_encE rest rfl rfl rfl rfl p.1 p.1 p.2.1 p.2.2

theorem dcmp (o : EOps) : Statement (.dcmp o) := fun h rest =>
  have p := parts h
  decode_encE rest rfl rfl rfl rfl p.1 p.1 p.2.1 p.2.2

theorem fclass (o : EOps) : Statement (.fclass o) := fun h rest =>
  have p := parts h
  decode_encE rest rfl rfl rfl rfl p.1 p.1 p.2.1 p.2.2

theorem frcp (o : EOps) : Statement (.frcp o) := fun h rest =>
  have p := parts h
  decode_encE rest rfl rfl rfl rfl p.1 p.1 p.2.1 p.2.2

theorem frsq (o : EOps) : Statement (.frsq o) := fun h rest =>
  have p := parts h
  decode_encE rest rfl rfl rfl rfl p.1 p.1 p.2.1 p.2.2

theorem fsqrt (o : EOps) : Statement (.fsqrt o) := fun h rest =>
  have p := parts h
  decode_encE rest rfl rfl rfl rfl p.1 p.1 p.2.1 p.2.2

theorem fdiv (o : EOps) : Statement (.fdiv o) := fun h rest =>
  have p := parts h
  decode_encE rest rfl rfl rfl rfl p.1 p.1 p.2.1 p.2.2

theorem fexp2 (o : EOps) : Statement (.fexp2 o) := fun h rest =>
  have p := parts h
  decode_encE rest rfl rfl rfl rfl p.1 p.1 p.2.1 p.2.2

theorem flog2 (o : EOps) : Statement (.flog2 o) := fun h rest =>
  have p := parts h
  decode_encE rest rfl rfl rfl rfl p.1 p.1 p.2.1 p.2.2

theorem ftanh (o : EOps) : Statement (.ftanh o) := fun h rest =>
  have p := parts h
  decode_encE rest rfl rfl rfl rfl p.1 p.1 p.2.1 p.2.2

theorem fsin (o : EOps) : Statement (.fsin o) := fun h rest =>
  have p := parts h
  decode_encE rest rfl rfl rfl rfl p.1 p.1 p.2.1 p.2.2

theorem fcos (o : EOps) : Statement (.fcos o) := fun h rest =>
  have p := parts h
  decode_encE rest rfl rfl rfl rfl p.1 p.1 p.2.1 p.2.2

theorem ddiv (o : EOps) : Statement (.ddiv o) := fun h rest =>
  have p := parts h
  decode_encE rest rfl rfl rfl rfl p.1 p.1 p.2.1 p.2.2

theorem dsqrt (o : EOps) : Statement (.dsqrt o) := fun h rest =>
  have p := parts h
  decode_encE rest rfl rfl rfl rfl p.1 p.1 p.2.1 p.2.2

theorem frnd (o : EOps) : Statement (.frnd o) := fun h rest =>
  have p := parts h
  decode_encE rest rfl rfl rfl rfl p.1 p.1 p.2.1 p.2.2

theorem fldexp (o : EOps) : Statement (.fldexp o) := fun h rest =>
  have p := parts h
  decode_encE rest rfl rfl rfl rfl p.1 p.1 p.2.1 p.2.2

theorem hadd2 (o : EOps) : Statement (.hadd2 o) := fun h rest =>
  have p := parts h
  decode_encE rest rfl rfl rfl rfl p.1 p.1 p.2.1 p.2.2

theorem hmul2 (o : EOps) : Statement (.hmul2 o) := fun h rest =>
  have p := parts h
  decode_encE rest rfl rfl rfl rfl p.1 p.1 p.2.1 p.2.2

theorem hfma2 (o : EOps) : Statement (.hfma2 o) := fun h rest =>
  have p := parts h
  decode_encE rest rfl rfl rfl rfl p.1 p.1 p.2.1 p.2.2

theorem hadd2Short (o : AOps) : Statement (.hadd2Short o) := fun h rest =>
  have p := parts h
  decode_encA o rest (by decide) (by decide) rfl rfl p.1 p.2.2 p.1

theorem hmul2Short (o : AOps) : Statement (.hmul2Short o) := fun h rest =>
  have p := parts h
  decode_encA o rest (by decide) (by decide) rfl rfl p.1 p.2.2 p.1

theorem cvt (o : EOps) : Statement (.cvt o) := fun h rest =>
  have p := parts h
  decode_encE rest rfl rfl rfl rfl p.1 p.1 p.2.1 p.2.2

theorem pack (o : EOps) : Statement (.pack o) := fun h rest =>
  have p := parts h
  decode_encE rest rfl rfl rfl rfl p.1 p.1 p.2.1 p.2.2

theorem unpk (o : EOps) : Statement (.unpk o) := fun h rest =>
  have p := parts h
  decode_encE rest rfl rfl rfl rfl p.1 p.1 p.2.1 p.2.2

theorem mov (o : UOps) : Statement (.mov o) := fun h rest =>
  have p := parts h
  decode_encU o rest (by decide) (by decide) rfl rfl rfl p.1 p.2.2 p.1

theorem movl (o : MovlOps) : Statement (.movl o) := fun h rest => by
  have p := parts h
  obtain ⟨d, a, l⟩ := o
  by_cases ha : a = 0xFF
  · subst ha
    show decode (encAWord 0x1E 1 d 0xFF 0xF0 :: l.extractLsb' 0 32 :: l.extractLsb' 32 32 :: rest) = .ok (_, 3)
    simp [decode, wMaj_encAWord, wS_encAWord, wD_encAWord, wA_encAWord, wB_encAWord, fmtOf, decodeA, words l]
    exact accept_ok p.1 p.2.2
  · have w : (a == 0xFF || l == 0) = true := p.1
    have hb : (a == 0xFF) = false := by simpa using ha
    rw [hb, Bool.false_or, beq_iff_eq] at w
    subst w
    have he : encode (.movl ⟨d, a, 0⟩) = [encAWord 0x1E 1 d a 0xF0] := by
      show encAWord 0x1E 1 d a 0xF0 :: (if (a == 0xFF) = true then _ else []) = _
      rw [hb]; rfl
    have ha' : ¬ a = 255#8 := ha
    rw [he]
    simp [decode, wMaj_encAWord, wS_encAWord, wD_encAWord, wA_encAWord, wB_encAWord, fmtOf, decodeA, ha']
    exact accept_ok p.1 p.2.2

theorem movi (o : MoviOps) : Statement (.movi o) := fun h rest => by
  have p := parts h
  have hm : wMaj (BitVec.ofNat 6 0x1D ++ o.d ++ o.imm) = 0x1D := by
    unfold wMaj
    erw [extract_append_hi _ _ (by decide), extract_append_hi _ _ (by decide), extract_self]; rfl
  have hd : wD (BitVec.ofNat 6 0x1D ++ o.d ++ o.imm) = o.d := by
    unfold wD
    erw [extract_append_hi _ _ (by decide), extract_append_lo _ _ (by decide), extract_self]
  have hi : wA (BitVec.ofNat 6 0x1D ++ o.d ++ o.imm) ++ wImm (BitVec.ofNat 6 0x1D ++ o.d ++ o.imm) = o.imm := by
    unfold wA wImm
    erw [extract_append_lo _ _ (by decide), extract_append_lo _ _ (by decide)]
    exact halves o.imm
  show decode ((BitVec.ofNat 6 0x1D ++ o.d ++ o.imm) :: rest) = .ok (_, 1)
  simp only [decode, hm, fmtOf, decodeI, hd, hi, beq_self_eq_true, if_true]
  exact accept_ok p.1 p.2.2

theorem mpop (d : BitVec 8) (a : BitVec 4) : Statement (.mpop d a) := fun h rest => by
  have p := parts h
  show decode (encAWord 0x1E 2 d (a.setWidth 8) 0xF0 :: rest) = .ok (_, 1)
  simp [decode, wMaj_encAWord, wS_encAWord, wD_encAWord, wA_encAWord, wB_encAWord, fmtOf, decodeA, narrow_self, accept_ok p.1 p.2.2]
  omega

theorem mnot (d a : BitVec 4) : Statement (.mnot d a) := fun h rest => by
  have p := parts h
  show decode (encAWord 0x1E 3 (d.setWidth 8) (a.setWidth 8) 0xF0 :: rest) = .ok (_, 1)
  simp [decode, wMaj_encAWord, wS_encAWord, wD_encAWord, wA_encAWord, wB_encAWord, fmtOf, decodeA, narrow_self, accept_ok p.1 p.2.2]
  omega

theorem mand (d a b : BitVec 4) : Statement (.mand d a b) := fun h rest => by
  have p := parts h
  show decode (encAWord 0x1F 0 (d.setWidth 8) (a.setWidth 8) (b.setWidth 8) :: rest) = .ok (_, 1)
  simp [decode, wMaj_encAWord, wS_encAWord, wD_encAWord, wA_encAWord, wB_encAWord, fmtOf, decodeA, narrow_self, accept_ok p.1 p.2.2]
  omega

theorem mor (d a b : BitVec 4) : Statement (.mor d a b) := fun h rest => by
  have p := parts h
  show decode (encAWord 0x1F 1 (d.setWidth 8) (a.setWidth 8) (b.setWidth 8) :: rest) = .ok (_, 1)
  simp [decode, wMaj_encAWord, wS_encAWord, wD_encAWord, wA_encAWord, wB_encAWord, fmtOf, decodeA, narrow_self, accept_ok p.1 p.2.2]
  omega

theorem mxor (d a b : BitVec 4) : Statement (.mxor d a b) := fun h rest => by
  have p := parts h
  show decode (encAWord 0x1F 2 (d.setWidth 8) (a.setWidth 8) (b.setWidth 8) :: rest) = .ok (_, 1)
  simp [decode, wMaj_encAWord, wS_encAWord, wD_encAWord, wA_encAWord, wB_encAWord, fmtOf, decodeA, narrow_self, accept_ok p.1 p.2.2]
  omega

theorem shfl (o : EOps) : Statement (.shfl o) := fun h rest =>
  have p := parts h
  decode_encE rest rfl rfl rfl rfl p.1 p.1 p.2.1 p.2.2

theorem bcst (o : AOps) : Statement (.bcst o) := fun h rest =>
  have p := parts h
  decode_encA o rest (by decide) (by decide) rfl rfl p.1 p.2.2 p.1

theorem vote (o : UOps) : Statement (.vote o) := fun h rest =>
  have p := parts h
  decode_encU o rest (by decide) (by decide) rfl rfl rfl p.1 p.2.2 p.1

theorem ballot (o : UOps) : Statement (.ballot o) := fun h rest =>
  have p := parts h
  decode_encU o rest (by decide) (by decide) rfl rfl rfl p.1 p.2.2 p.1

theorem redux (o : EOps) : Statement (.redux o) := fun h rest =>
  have p := parts h
  decode_encE rest rfl rfl rfl rfl p.1 p.1 p.2.1 p.2.2

theorem qswp (o : AOps) : Statement (.qswp o) := fun h rest =>
  have p := parts h
  decode_encA o rest (by decide) (by decide) rfl rfl p.1 p.2.2 p.1

theorem qbcst (o : AOps) : Statement (.qbcst o) := fun h rest =>
  have p := parts h
  decode_encA o rest (by decide) (by decide) rfl rfl p.1 p.2.2 p.1

theorem qdd (o : AOps) : Statement (.qdd o) := fun h rest =>
  have p := parts h
  decode_encA o rest (by decide) (by decide) rfl rfl p.1 p.2.2 p.1

theorem bra (o : COps) : Statement (.bra o) := fun h rest => by
  have p := parts h
  show decode (encCWord 0x26 0 o.mr o.off :: rest) = .ok (_, 1)
  simp [decode, wMaj_encCWord, wCs_encCWord, wMr_encCWord, wOff20_encCWord, fmtOf, decodeC, accept_ok p.1 p.2.2]

theorem brd (o : BrdOps) : Statement (.brd o) := fun h rest => by
  have p := parts h
  have hj : (o.join.setWidth 32).extractLsb' 20 12 = 0#12 := join_high o.join
  have hk : wOff20 (o.join.setWidth 32) = o.join := join_low o.join
  show decode (encCWord 0x26 1 o.mr o.off :: o.join.setWidth 32 :: rest) = .ok (_, 2)
  simp [decode, wMaj_encCWord, wCs_encCWord, wMr_encCWord, wOff20_encCWord, fmtOf, decodeC, hj, hk, accept_ok p.1 p.2.2]

theorem join : Statement (.join) := fun h rest => by
  have p := parts h
  show decode (encCWord 0x26 2 0 0 :: rest) = .ok (_, 1)
  simp [decode, wMaj_encCWord, wCs_encCWord, wMr_encCWord, wOff20_encCWord, fmtOf, decodeC, accept_ok p.1 p.2.2]

theorem call (off : BitVec 20) : Statement (.call off) := fun h rest => by
  have p := parts h
  show decode (encCWord 0x26 3 0 off :: rest) = .ok (_, 1)
  simp [decode, wMaj_encCWord, wCs_encCWord, wMr_encCWord, wOff20_encCWord, fmtOf, decodeC, accept_ok p.1 p.2.2]

theorem ret : Statement (.ret) := fun h rest => by
  have p := parts h
  show decode (encCWord 0x27 0 0 0 :: rest) = .ok (_, 1)
  simp [decode, wMaj_encCWord, wCs_encCWord, wMr_encCWord, wOff20_encCWord, fmtOf, decodeC, accept_ok p.1 p.2.2]

theorem exit (m : BitVec 4) : Statement (.exit m) := fun h rest => by
  have p := parts h
  show decode (encCWord 0x27 1 m 0 :: rest) = .ok (_, 1)
  simp [decode, wMaj_encCWord, wCs_encCWord, wMr_encCWord, wOff20_encCWord, fmtOf, decodeC, accept_ok p.1 p.2.2]

theorem nop : Statement (.nop) := fun h rest => by
  have p := parts h
  show decode (encCWord 0x27 2 0 0 :: rest) = .ok (_, 1)
  simp [decode, wMaj_encCWord, wCs_encCWord, wMr_encCWord, wOff20_encCWord, fmtOf, decodeC, accept_ok p.1 p.2.2]

theorem calli (o : TOps) : Statement (.calli o) := fun h rest =>
  have p := parts h
  decode_encT o rest (by decide) (by decide) rfl rfl rfl rfl p.1 p.2.2 p.1

theorem jmpi (o : TOps) : Statement (.jmpi o) := fun h rest =>
  have p := parts h
  decode_encT o rest (by decide) (by decide) rfl rfl rfl rfl p.1 p.2.2 p.1

theorem ld (o : MOps) : Statement (.ld o) := fun h rest => by
  have p := parts h
  have w : (o.d != 0xF0 && o.extOk && litOk (o.a == 0xFF) o.lit) = true := p.1
  rw [Bool.and_eq_true, Bool.and_eq_true] at w
  have hr : mRow 0x2C o.d = some .ld := by
    have hd : (o.d == 0xF0) = false := by simpa using w.1.1
    unfold mRow; rw [hd]; rfl
  exact decode_encM o rest (by decide) rfl hr p.1 p.2.2 w.1.2 (by simpa [mCalls] using w.2)

theorem pref (o : MOps) : Statement (.pref o) := fun h rest => by
  have p := parts h
  have w : (o.d == 0xF0 && o.extOk && litOk (o.a == 0xFF) o.lit) = true := p.1
  rw [Bool.and_eq_true, Bool.and_eq_true] at w
  have hr : mRow 0x2C o.d = some .pref := by unfold mRow; rw [w.1.1]; rfl
  exact decode_encM o rest (by decide) rfl hr p.1 p.2.2 w.1.2 (by simpa [mCalls] using w.2)

theorem st (o : MOps) : Statement (.st o) := fun h rest => by
  have p := parts h
  have w : (o.extOk && litOk (o.a == 0xFF || o.d == 0xFF) o.lit) = true := p.1
  rw [Bool.and_eq_true] at w
  exact decode_encM o rest (by decide) rfl rfl p.1 p.2.2 w.1 (by simpa [mCalls] using w.2)

theorem ldl (o : MOps) : Statement (.ldl o) := fun h rest => by
  have p := parts h
  have w : (o.cp == 0 && o.extOk && litOk (o.a == 0xFF) o.lit) = true := p.1
  rw [Bool.and_eq_true, Bool.and_eq_true] at w
  exact decode_encM o rest (by decide) rfl rfl p.1 p.2.2 w.1.2 (by simpa [mCalls] using w.2)

theorem stl (o : MOps) : Statement (.stl o) := fun h rest => by
  have p := parts h
  have w : (o.cp == 0 && o.extOk && litOk (o.a == 0xFF || o.d == 0xFF) o.lit) = true := p.1
  rw [Bool.and_eq_true, Bool.and_eq_true] at w
  exact decode_encM o rest (by decide) rfl rfl p.1 p.2.2 w.1.2 (by simpa [mCalls] using w.2)

theorem ldc (o : MOps) : Statement (.ldc o) := fun h rest => by
  have p := parts h
  have w : (o.extOk && litOk (o.a == 0xFF) o.lit) = true := p.1
  rw [Bool.and_eq_true] at w
  exact decode_encM o rest (by decide) rfl rfl p.1 p.2.2 w.1 (by simpa [mCalls] using w.2)

theorem tex (o : EOps) : Statement (.tex o) := fun h rest =>
  have p := parts h
  decode_encE rest rfl rfl rfl rfl p.1 p.1 p.2.1 p.2.2

theorem cpy (o : EOps) : Statement (.cpy o) := fun h rest =>
  have p := parts h
  decode_encE rest rfl rfl rfl rfl p.1 p.1 p.2.1 p.2.2

theorem cpyq (o : EOps) : Statement (.cpyq o) := fun h rest =>
  have p := parts h
  decode_encE rest rfl rfl rfl rfl p.1 p.1 p.2.1 p.2.2

theorem cinv (o : EOps) : Statement (.cinv o) := fun h rest =>
  have p := parts h
  decode_encE rest rfl rfl rfl rfl p.1 p.1 p.2.1 p.2.2

theorem cflush (o : EOps) : Statement (.cflush o) := fun h rest =>
  have p := parts h
  decode_encE rest rfl rfl rfl rfl p.1 p.1 p.2.1 p.2.2

theorem halloc (o : EOps) : Statement (.halloc o) := fun h rest =>
  have p := parts h
  decode_encE rest rfl rfl rfl rfl p.1 p.1 p.2.1 p.2.2

theorem hfree (o : EOps) : Statement (.hfree o) := fun h rest =>
  have p := parts h
  decode_encE rest rfl rfl rfl rfl p.1 p.1 p.2.1 p.2.2

theorem sste (o : EOps) : Statement (.sste o) := fun h rest =>
  have p := parts h
  decode_encE rest rfl rfl rfl rfl p.1 p.1 p.2.1 p.2.2

theorem surfaceTableOpApply (ctx : Nat) : Statement (.surfaceTableOpApply ctx) := happening rfl

theorem atom (o : EOps) : Statement (.atom o) := fun h rest =>
  have p := parts h
  decode_encE rest rfl rfl rfl rfl p.1 p.1 p.2.1 p.2.2

theorem red (o : EOps) : Statement (.red o) := fun h rest =>
  have p := parts h
  decode_encE rest rfl rfl rfl rfl p.1 p.1 p.2.1 p.2.2

theorem atoml (o : EOps) : Statement (.atoml o) := fun h rest =>
  have p := parts h
  decode_encE rest rfl rfl rfl rfl p.1 p.1 p.2.1 p.2.2

theorem atomicExecute (die : Nat) : Statement (.atomicExecute die) := happening rfl

theorem promotionRequest (core : Nat) : Statement (.promotionRequest core) := happening rfl

theorem ldfe (o : EOps) : Statement (.ldfe o) := fun h rest =>
  have p := parts h
  decode_encE rest rfl rfl rfl rfl p.1 p.1 p.2.1 p.2.2

theorem ldff (o : EOps) : Statement (.ldff o) := fun h rest =>
  have p := parts h
  decode_encE rest rfl rfl rfl rfl p.1 p.1 p.2.1 p.2.2

theorem stfe (o : EOps) : Statement (.stfe o) := fun h rest =>
  have p := parts h
  decode_encE rest rfl rfl rfl rfl p.1 p.1 p.2.1 p.2.2

theorem stff (o : EOps) : Statement (.stff o) := fun h rest =>
  have p := parts h
  decode_encE rest rfl rfl rfl rfl p.1 p.1 p.2.1 p.2.2

theorem taggedWaitResume (store : Nat) (word : Nat) : Statement (.taggedWaitResume store word) := happening rfl

theorem feset (o : TOps) : Statement (.feset o) := fun h rest =>
  have p := parts h
  decode_encT o rest (by decide) (by decide) rfl rfl rfl rfl p.1 p.2.2 p.1

theorem feclr (o : TOps) : Statement (.feclr o) := fun h rest =>
  have p := parts h
  decode_encT o rest (by decide) (by decide) rfl rfl rfl rfl p.1 p.2.2 p.1

theorem feqry (o : UOps) : Statement (.feqry o) := fun h rest =>
  have p := parts h
  decode_encU o rest (by decide) (by decide) rfl rfl rfl p.1 p.2.2 p.1

theorem waitc (o : WaitcOps) : Statement (.waitc o) := fun h rest => by
  have p := parts h
  have hw : litOk (o.a == 0xFF) o.lit = true := p.1
  have hk : ((o.ctr.setWidth 8).toNat < 4) := by simp; omega
  have hc : (o.ctr.setWidth 8).extractLsb' 0 2 = o.ctr := ctr_self o.ctr
  show decode (encAWord 0x36 3 0xF0 o.a (o.ctr.setWidth 8) :: (encLit (o.a == 0xFF) o.lit ++ rest)) = .ok (_, _)
  have hf : fmtOf 0x36 = some .a := rfl
  simp only [decode, wMaj_encAWord _ _ _ _ _ (show 0x36 < 64 by decide), hf, decodeA,
    wS_encAWord _ _ _ _ _ (show 3 < 4 by decide), wD_encAWord, wA_encAWord, wB_encAWord, litOf_encLit hw, hc]
  rw [if_neg (by decide), if_neg (by decide), if_neg (by decide), if_neg (by decide), if_pos (by decide),
    if_neg (by simp; omega), accept_ok p.1 p.2.2]
  show _ = Except.ok (_, (encLit _ _).length + 1)
  rw [length_encLit]
  split <;> rfl

theorem counterWaitResume (gid sid : Nat) : Statement (.counterWaitResume gid sid) := happening rfl

theorem binit (o : EOps) : Statement (.binit o) := fun h rest =>
  have p := parts h
  decode_encE rest rfl rfl rfl rfl p.1 p.1 p.2.1 p.2.2

theorem barv (o : EOps) : Statement (.barv o) := fun h rest =>
  have p := parts h
  decode_encE rest rfl rfl rfl rfl p.1 p.1 p.2.1 p.2.2

theorem barvx (o : EOps) : Statement (.barvx o) := fun h rest =>
  have p := parts h
  decode_encE rest rfl rfl rfl rfl p.1 p.1 p.2.1 p.2.2

theorem bwait (o : EOps) : Statement (.bwait o) := fun h rest =>
  have p := parts h
  decode_encE rest rfl rfl rfl rfl p.1 p.1 p.2.1 p.2.2

theorem btest (o : EOps) : Statement (.btest o) := fun h rest =>
  have p := parts h
  decode_encE rest rfl rfl rfl rfl p.1 p.1 p.2.1 p.2.2

theorem cbarNear (o : EOps) : Statement (.cbarNear o) := fun h rest =>
  have p := parts h
  decode_encE rest rfl rfl rfl rfl p.1 p.1 p.2.1 p.2.2

theorem cbarFar (o : EOps) : Statement (.cbarFar o) := fun h rest =>
  have p := parts h
  decode_encE rest rfl rfl rfl rfl p.1 p.1 p.2.1 p.2.2

theorem gbar (o : EOps) : Statement (.gbar o) := fun h rest =>
  have p := parts h
  decode_encE rest rfl rfl rfl rfl p.1 p.1 p.2.1 p.2.2

theorem fence (o : EOps) : Statement (.fence o) := fun h rest =>
  have p := parts h
  decode_encE rest rfl rfl rfl rfl p.1 p.1 p.2.1 p.2.2

theorem mma (o : XOps) : Statement (.mma o) := fun h rest => by
  have p := parts h
  show decode (encFWord 0x38 o :: rest) = .ok (_, 1)
  simp [decode, wMaj_encFWord, wX_encFWord, fmtOf, decodeX, accept_ok p.1 p.2.2]

theorem teamStep (core : Nat) : Statement (.teamStep core) := happening rfl

theorem mloop (o : MloopOps) : Statement (.mloop o) := fun h rest => by
  have p := parts h
  show decode (encFWord 0x39 o.x :: o.step :: rest) = .ok (_, 2)
  simp [decode, wMaj_encFWord, wX_encFWord, fmtOf, decodeX, accept_ok p.1 p.2.2]

theorem mloopStep (core quad : Nat) : Statement (.mloopStep core quad) := happening rfl

theorem macq (o : EOps) : Statement (.macq o) := fun h rest =>
  have p := parts h
  decode_encE rest rfl rfl rfl rfl p.1 p.1 p.2.1 p.2.2

theorem mrel (o : EOps) : Statement (.mrel o) := fun h rest =>
  have p := parts h
  decode_encE rest rfl rfl rfl rfl p.1 p.1 p.2.1 p.2.2

theorem matrixUnitGrant (core : Nat) : Statement (.matrixUnitGrant core) := happening rfl

theorem fbld (o : EOps) : Statement (.fbld o) := fun h rest =>
  have p := parts h
  decode_encE rest rfl rfl rfl rfl p.1 p.1 p.2.1 p.2.2

theorem cbld (o : EOps) : Statement (.cbld o) := fun h rest =>
  have p := parts h
  decode_encE rest rfl rfl rfl rfl p.1 p.1 p.2.1 p.2.2

theorem scpf (o : EOps) : Statement (.scpf o) := fun h rest =>
  have p := parts h
  decode_encE rest rfl rfl rfl rfl p.1 p.1 p.2.1 p.2.2

theorem aclr (o : EOps) : Statement (.aclr o) := fun h rest =>
  have p := parts h
  decode_encE rest rfl rfl rfl rfl p.1 p.1 p.2.1 p.2.2

theorem asatr (o : EOps) : Statement (.asatr o) := fun h rest =>
  have p := parts h
  decode_encE rest rfl rfl rfl rfl p.1 p.1 p.2.1 p.2.2

theorem amov (o : EOps) : Statement (.amov o) := fun h rest =>
  have p := parts h
  decode_encE rest rfl rfl rfl rfl p.1 p.1 p.2.1 p.2.2

theorem ald (o : EOps) : Statement (.ald o) := fun h rest =>
  have p := parts h
  decode_encE rest rfl rfl rfl rfl p.1 p.1 p.2.1 p.2.2

theorem ast (o : EOps) : Statement (.ast o) := fun h rest =>
  have p := parts h
  decode_encE rest rfl rfl rfl rfl p.1 p.1 p.2.1 p.2.2

theorem cmma (o : EOps) : Statement (.cmma o) := fun h rest =>
  have p := parts h
  decode_encE rest rfl rfl rfl rfl p.1 p.1 p.2.1 p.2.2

theorem xfwd (o : EOps) : Statement (.xfwd o) := fun h rest =>
  have p := parts h
  decode_encE rest rfl rfl rfl rfl p.1 p.1 p.2.1 p.2.2

theorem xinv (o : EOps) : Statement (.xinv o) := fun h rest =>
  have p := parts h
  decode_encE rest rfl rfl rfl rfl p.1 p.1 p.2.1 p.2.2

theorem xscl (o : EOps) : Statement (.xscl o) := fun h rest =>
  have p := parts h
  decode_encE rest rfl rfl rfl rfl p.1 p.1 p.2.1 p.2.2

theorem xdom (o : EOps) : Statement (.xdom o) := fun h rest =>
  have p := parts h
  decode_encE rest rfl rfl rfl rfl p.1 p.1 p.2.1 p.2.2

theorem grinderComplete (op : Nat) : Statement (.grinderComplete op) := happening rfl

theorem eroute (o : EOps) : Statement (.eroute o) := fun h rest =>
  have p := parts h
  decode_encE rest rfl rfl rfl rfl p.1 p.1 p.2.1 p.2.2

theorem edone (o : EOps) : Statement (.edone o) := fun h rest =>
  have p := parts h
  decode_encE rest rfl rfl rfl rfl p.1 p.1 p.2.1 p.2.2

theorem emerge (o : EOps) : Statement (.emerge o) := fun h rest =>
  have p := parts h
  decode_encE rest rfl rfl rfl rfl p.1 p.1 p.2.1 p.2.2

theorem eqry (o : EOps) : Statement (.eqry o) := fun h rest =>
  have p := parts h
  decode_encE rest rfl rfl rfl rfl p.1 p.1 p.2.1 p.2.2

theorem trap (o : EOps) : Statement (.trap o) := fun h rest =>
  have p := parts h
  decode_encE rest rfl rfl rfl rfl p.1 p.1 p.2.1 p.2.2

theorem brk (o : EOps) : Statement (.brk o) := fun h rest =>
  have p := parts h
  decode_encE rest rfl rfl rfl rfl p.1 p.1 p.2.1 p.2.2

theorem tret (o : EOps) : Statement (.tret o) := fun h rest =>
  have p := parts h
  decode_encE rest rfl rfl rfl rfl p.1 p.1 p.2.1 p.2.2

theorem lget (o : EOps) : Statement (.lget o) := fun h rest =>
  have p := parts h
  decode_encE rest rfl rfl rfl rfl p.1 p.1 p.2.1 p.2.2

theorem lput (o : EOps) : Statement (.lput o) := fun h rest =>
  have p := parts h
  decode_encE rest rfl rfl rfl rfl p.1 p.1 p.2.1 p.2.2

theorem lmsk (o : EOps) : Statement (.lmsk o) := fun h rest =>
  have p := parts h
  decode_encE rest rfl rfl rfl rfl p.1 p.1 p.2.1 p.2.2

theorem srd (o : EOps) : Statement (.srd o) := fun h rest =>
  have p := parts h
  decode_encE rest rfl rfl rfl rfl p.1 p.1 p.2.1 p.2.2

theorem swr (o : EOps) : Statement (.swr o) := fun h rest =>
  have p := parts h
  decode_encE rest rfl rfl rfl rfl p.1 p.1 p.2.1 p.2.2

theorem rgrow (o : EOps) : Statement (.rgrow o) := fun h rest =>
  have p := parts h
  decode_encE rest rfl rfl rfl rfl p.1 p.1 p.2.1 p.2.2

theorem rshrink (o : EOps) : Statement (.rshrink o) := fun h rest =>
  have p := parts h
  decode_encE rest rfl rfl rfl rfl p.1 p.1 p.2.1 p.2.2

theorem registerBlockGrant (core : Nat) : Statement (.registerBlockGrant core) := happening rfl

theorem registerFifoEviction (core : Nat) : Statement (.registerFifoEviction core) := happening rfl

theorem launch (o : EOps) : Statement (.launch o) := fun h rest =>
  have p := parts h
  decode_encE rest rfl rfl rfl rfl p.1 p.1 p.2.1 p.2.2

theorem draw (o : EOps) : Statement (.draw o) := fun h rest =>
  have p := parts h
  decode_encE rest rfl rfl rfl rfl p.1 p.1 p.2.1 p.2.2

theorem launchBackpressureWake (gid sid : Nat) : Statement (.launchBackpressureWake gid sid) := happening rfl

theorem fexport (form : BitVec 2) (o : EOps) : Statement (.fexport form o) := fun h rest =>
  have p := parts h
  decode_encE rest rfl rfl (Nat.blt_eq.mpr form.isLt) rfl p.1 p.1 p.2.1 p.2.2

theorem npbegin (o : EOps) : Statement (.npbegin o) := fun h rest =>
  have p := parts h
  decode_encE rest rfl rfl rfl rfl p.1 p.1 p.2.1 p.2.2

theorem npend (o : EOps) : Statement (.npend o) := fun h rest =>
  have p := parts h
  decode_encE rest rfl rfl rfl rfl p.1 p.1 p.2.1 p.2.2

theorem npRegionBoundExceeded (gid : Nat) : Statement (.npRegionBoundExceeded gid) := happening rfl

theorem yield (o : EOps) : Statement (.yield o) := fun h rest =>
  have p := parts h
  decode_encE rest rfl rfl rfl rfl p.1 p.1 p.2.1 p.2.2

theorem ifence (o : EOps) : Statement (.ifence o) := fun h rest =>
  have p := parts h
  decode_encE rest rfl rfl rfl rfl p.1 p.1 p.2.1 p.2.2

theorem icinv (o : EOps) : Statement (.icinv o) := fun h rest =>
  have p := parts h
  decode_encE rest rfl rfl rfl rfl p.1 p.1 p.2.1 p.2.2

theorem perfr (o : EOps) : Statement (.perfr o) := fun h rest =>
  have p := parts h
  decode_encE rest rfl rfl rfl rfl p.1 p.1 p.2.1 p.2.2

theorem halt (o : EOps) : Statement (.halt o) := fun h rest =>
  have p := parts h
  decode_encE rest rfl rfl rfl rfl p.1 p.1 p.2.1 p.2.2

theorem clauseStart (gid sid : Nat) : Statement (.clauseStart gid sid) := happening rfl

theorem arithNotification (gid : Nat) : Statement (.arithNotification gid) := happening rfl

theorem pageRequestWrite (vf stage : Nat) : Statement (.pageRequestWrite vf stage) := happening rfl

theorem pageRequestReplay (gid sid : Nat) : Statement (.pageRequestReplay gid sid) := happening rfl

theorem tlbinvComplete (win : Nat) : Statement (.tlbinvComplete win) := happening rfl

theorem queueClauseIssue (cp : Nat) : Statement (.queueClauseIssue cp) := happening rfl

theorem windowEnd (t : Nat) : Statement (.windowEnd t) := happening rfl

theorem replicaCopyChunk (t copy : Nat) : Statement (.replicaCopyChunk t copy) := happening rfl

theorem replicaPublish (t copy : Nat) : Statement (.replicaPublish t copy) := happening rfl

theorem replicaCopyFail (t copy : Nat) : Statement (.replicaCopyFail t copy) := happening rfl

theorem replicaRetire (t e n : Nat) : Statement (.replicaRetire t e n) := happening rfl

theorem versionNotice (t core : Nat) : Statement (.versionNotice t core) := happening rfl

theorem mergeComplete (t : Nat) : Statement (.mergeComplete t) := happening rfl

theorem wdPlaceBlock : Statement (.wdPlaceBlock) := happening rfl

theorem coresGridPlace : Statement (.coresGridPlace) := happening rfl

theorem tamperChunk (core : Nat) : Statement (.tamperChunk core) := happening rfl

theorem blockStart (blk : Nat) : Statement (.blockStart blk) := happening rfl

theorem blockKill (blk : Nat) : Statement (.blockKill blk) := happening rfl

theorem groupSlotRelease (gid : Nat) : Statement (.groupSlotRelease gid) := happening rfl

theorem blockRetire (blk : Nat) : Statement (.blockRetire blk) := happening rfl

theorem launchComplete (lid : Nat) : Statement (.launchComplete lid) := happening rfl

theorem partialEviction (core : Nat) : Statement (.partialEviction core) := happening rfl

theorem evictionDrainBound (gid : Nat) : Statement (.evictionDrainBound gid) := happening rfl

theorem groupRestore (blk core : Nat) : Statement (.groupRestore blk core) := happening rfl

theorem restorationBound (core : Nat) : Statement (.restorationBound core) := happening rfl

theorem contextTeardown (ctx : Nat) : Statement (.contextTeardown ctx) := happening rfl

theorem copyChunk (core job : Nat) : Statement (.copyChunk core job) := happening rfl

theorem copyComplete (core job : Nat) : Statement (.copyComplete core job) := happening rfl

theorem carafeSpill (die bank : Nat) : Statement (.carafeSpill die bank) := happening rfl

theorem carafeReturn (die bank slot : Nat) : Statement (.carafeReturn die bank slot) := happening rfl

theorem primitiveAssembly (draw : Nat) : Statement (.primitiveAssembly draw) := happening rfl

theorem rasterizeTriangle (draw stack : Nat) : Statement (.rasterizeTriangle draw stack) := happening rfl

theorem ticketIssue (stack : Nat) : Statement (.ticketIssue stack) := happening rfl

theorem fragmentGroupPlace (die : Nat) : Statement (.fragmentGroupPlace die) := happening rfl

theorem exportPartDelivery (die bank part : Nat) : Statement (.exportPartDelivery die bank part) := happening rfl

theorem bankDepthStage (die bank : Nat) : Statement (.bankDepthStage die bank) := happening rfl

theorem bankBlendWrite (die bank : Nat) : Statement (.bankBlendWrite die bank) := happening rfl

theorem ticketRetire (die bank : Nat) : Statement (.ticketRetire die bank) := happening rfl

theorem followerEntryRetire (die bank : Nat) : Statement (.followerEntryRetire die bank) := happening rfl

theorem drawComplete (draw : Nat) : Statement (.drawComplete draw) := happening rfl

theorem loadDataReturn (gid op : Nat) : Statement (.loadDataReturn gid op) := happening rfl

theorem storeAcknowledged (gid op : Nat) : Statement (.storeAcknowledged gid op) := happening rfl

theorem cmmaStep (core quad : Nat) : Statement (.cmmaStep core quad) := happening rfl

theorem qreplyRetry (vf stage reqid : Nat) : Statement (.qreplyRetry vf stage reqid) := happening rfl

theorem qreplyInvalid (vf stage reqid : Nat) : Statement (.qreplyInvalid vf stage reqid) := happening rfl

theorem qbaseWrite (vf stage : Nat) (v : BitVec 64) : Statement (.qbaseWrite vf stage v) := happening rfl

theorem qptrConsWrite (vf stage : Nat) (v : BitVec 64) : Statement (.qptrConsWrite vf stage v) := happening rfl

theorem gqnoteWrite (vf : Nat) (v : BitVec 64) : Statement (.gqnoteWrite vf v) := happening rfl

theorem tlbinvStage1Range (win : Nat) (v : BitVec 64) : Statement (.tlbinvStage1Range win v) := happening rfl

theorem tlbinvStage2Range (win : Nat) (v : BitVec 64) : Statement (.tlbinvStage2Range win v) := happening rfl

theorem tlbinvAllCtx (win : Nat) (v : BitVec 64) : Statement (.tlbinvAllCtx win v) := happening rfl

theorem tlbinvAllVf (win : Nat) (v : BitVec 64) : Statement (.tlbinvAllVf win v) := happening rfl

theorem ctxvfEnable (ctx : Nat) (v : BitVec 64) : Statement (.ctxvfEnable ctx v) := happening rfl

theorem ctxvfRetire (ctx : Nat) (v : BitVec 64) : Statement (.ctxvfRetire ctx v) := happening rfl

theorem qcfgEnable (q : Nat) (v : BitVec 64) : Statement (.qcfgEnable q v) := happening rfl

theorem qcfgDisable (q : Nat) (v : BitVec 64) : Statement (.qcfgDisable q v) := happening rfl

theorem hostMailboxWrite (off : Nat) (v : BitVec 64) : Statement (.hostMailboxWrite off v) := happening rfl

theorem hostConsumingRead (off : Nat) : Statement (.hostConsumingRead off) := happening rfl

theorem qstatW1c (off : Nat) (v : BitVec 64) : Statement (.qstatW1c off v) := happening rfl

theorem hostInvalidAccess (off size : Nat) (isWrite : Bool) : Statement (.hostInvalidAccess off size isWrite) := happening rfl

theorem btctlEnable (t : Nat) (v : BitVec 64) : Statement (.btctlEnable t v) := happening rfl

theorem btctlDisable (t : Nat) (v : BitVec 64) : Statement (.btctlDisable t v) := happening rfl

theorem btctlHold (t : Nat) (v : BitVec 64) : Statement (.btctlHold t v) := happening rfl

theorem btcmdForceRetire (t e n : Nat) : Statement (.btcmdForceRetire t e n) := happening rfl

theorem btcmdRefresh (t e : Nat) : Statement (.btcmdRefresh t e) := happening rfl

theorem btexclClear (t : Nat) (v : BitVec 64) : Statement (.btexclClear t v) := happening rfl

theorem cfareaWrite (die : Nat) (v : BitVec 64) : Statement (.cfareaWrite die v) := happening rfl

theorem dieResetCompute (die : Nat) : Statement (.dieResetCompute die) := happening rfl

theorem dieResetFull (die : Nat) : Statement (.dieResetFull die) := happening rfl

theorem thrportModeWrite (port : Nat) (v : BitVec 64) : Statement (.thrportModeWrite port v) := happening rfl

theorem domcfgWrite (v : BitVec 64) : Statement (.domcfgWrite v) := happening rfl

theorem perfselWrite (core : Nat) (v : BitVec 64) : Statement (.perfselWrite core v) := happening rfl

theorem ctrlWindowRegWrite (off size : Nat) (v : BitVec 64) : Statement (.ctrlWindowRegWrite off size v) := happening rfl

theorem thrumriRemoteAccess (m : ThrMsg) : Statement (.thrumriRemoteAccess m) := happening rfl

theorem thrumriRouteLost (pkg : Nat) (otherPath : Bool) : Statement (.thrumriRouteLost pkg otherPath) := happening rfl

theorem linkRetrain (link : Nat) : Statement (.linkRetrain link) := happening rfl

theorem dieLinkDown (link : Nat) : Statement (.dieLinkDown link) := happening rfl

theorem thermalSensorReading (die col : Nat) (milli : Int) : Statement (.thermalSensorReading die col milli) := happening rfl

theorem thermalNoPlausibleTimeout (die : Nat) : Statement (.thermalNoPlausibleTimeout die) := happening rfl

theorem dramRefresh (die chan : Nat) : Statement (.dramRefresh die chan) := happening rfl

theorem rowActivationRefresh (die row : Nat) : Statement (.rowActivationRefresh die row) := happening rfl

theorem cremaPatrolScrub (die bank : Nat) : Statement (.cremaPatrolScrub die bank) := happening rfl

theorem coldStart (fw : List FwImage) (fuses : List DieFuses) : Statement (.coldStart fw fuses) := happening rfl

theorem warmStart (fw : List FwImage) : Statement (.warmStart fw) := happening rfl

theorem attestationRequest (nonce : BitVec 256) : Statement (.attestationRequest nonce) := happening rfl

theorem dieLinkRestored (link : Nat) : Statement (.dieLinkRestored link) := happening rfl

theorem thrumriPortTrained (port peer pport : Nat) : Statement (.thrumriPortTrained port peer pport) := happening rfl

theorem thrumriFlitReplay (port : Nat) : Statement (.thrumriFlitReplay port) := happening rfl

theorem linkCalibration (port : Nat) : Statement (.linkCalibration port) := happening rfl

theorem sramVminCalibration (core row : Nat) : Statement (.sramVminCalibration core row) := happening rfl

theorem firmwareRecoveryImage (img : FwImage) : Statement (.firmwareRecoveryImage img) := happening rfl

end Sys2Proof.Laws.RoundTrip
end

