-- ==== Sys2Proof/Tests/Slice0.lean ====
section
/-! SUPPORT. Tests: the well-formedness smoke, decoded words written out from the layouts of R135, one small step for points that
are easily misread, and for every statement with hypotheses a state and operands that meet them. -/

set_option Elab.async false

namespace Sys2Proof.Tests
open Sys2Proof Sys2Proof.Machine

/-! ### Helpers -/

/-- A group of 32 lanes of a block of its own on core 0 is issuing, at the end of a clause (the group, block, launch, cluster and
context that a placed program has, log 2). -/
def lab : State := { State.reset.withProgram [] with issuer := some (128, 0), agenda := [] }

/-- The same with a change of the group. -/
def labG (f : Group → Group) : State := lab.modGroup 128 f

/-- The program of queue 0, of context 1, is issuing, at the end of a clause. -/
def labQ : State :=
  { (lab.setGroup 0 { (queueProgram 0 1 0x1000 0) with
      splits := [(0, { (freshSplit 0x1004 1 none .no) with clause := some { hdr := 0x1000, words := [], pos := 0, drain := false } })] }).modQueue 0
      (fun k => { k with en := true, run := true, ctx := 1, entry := 0x1000 }) with issuer := some (0, 0) }

/-- What the executing split of a state meets. -/
def met (s : State) (p : Ex → Bool) : Bool :=
  match s.ex? with
  | some x => p x
  | none => false

/-- What a step's or an instruction's answer meets: it is a next state, and that state meets a test. -/
def after (o : Out) (p : State → Bool) : Bool :=
  match o with
  | .next t => p t
  | _ => false

/-- Whether a computation of an engine has a result that meets a test. -/
def yields {ε α : Type} (r : Except ε α) (p : α → Bool) : Bool :=
  match r with
  | .ok v => p v
  | .error _ => false

/-- A field-by-field E instruction. -/
def e (d a b c : BitVec 8) (minor : BitVec 16) : EOps := ⟨d, a, b, c, 0, minor, 0⟩


/-! ### The witnesses of the statements: states and operands that meet their premises, clause by clause -/

/-- A state in which one ALU instruction is admitted and another refused. -/
def both (s : State) (a b : Alu) : Bool := met s fun x => !a.refused x.g && b.refused x.g

/-- The same with two register blocks: v0 to v15. -/
def labS : State := labG fun g => { g with rblk := 2 }

theorem witness_IntegerArithmetic :
    (both lab (.words2 ⟨1, 2, 3, 0⟩ fun a b => a + b) (.words2 ⟨0xF1, 2, 3, 0⟩ fun a b => a + b) &&
      both lab (.imm ⟨191, 0, 0x200, 0⟩ fun a i => a + i) (.imm ⟨192, 0xF1, 0, 0⟩ fun a i => a + i) &&
      both labQ (.words2 ⟨0xC0, 0xC1, 0xFF, 7⟩ fun a b => a + b) (.words2 ⟨0xC0, 1, 0xFF, 7⟩ fun a b => a + b) &&
      !(e 1 2 3 4 2).minor.getLsbD 0 && (e 2 2 3 4 3).minor.getLsbD 0 &&
      both lab (.ext (e 2 2 3 4 3) true [(.w32, 2), (.w32, 3), (.i64, 4)] fun _ _ => res 0)
        (.ext (e 1 2 3 4 3) true [(.w32, 2), (.w32, 3), (.i64, 4)] fun _ _ => res 0)) = true := by decide
theorem witness_IntegerDivide :
    (both labS (.ext (e 15 2 3 0xF0 0) false [(.w32, 2), (.w32, 3)] fun _ _ => res 0)
        (.ext (e 16 2 3 0xF0 0) false [(.w32, 2), (.w32, 3)] fun _ _ => res 0) &&
      (1 : Word) != 0 && (Instr.idiv (e 1 2 3 0xF0 3)).encodable) = true := by decide
theorem witness_LogicAndShifts :
    both labS (.words2 ⟨1, 2, 0xFF, 32⟩ fun a b => a &&& b) (.words2 ⟨1, 2, 16, 0⟩ fun a b => a &&& b) = true := by decide
theorem witness_BitOperations :
    (both lab (.ext (e 2 4 3 0 0) true [(.i64, 4), (.w32, 3)] fun _ _ => res 0)
        (.ext (e 2 5 3 0 0) true [(.i64, 5), (.w32, 3)] fun _ _ => res 0) &&
      both lab (.words1 ⟨1, 2, 0⟩ fun a => a) (.words1 ⟨0xE0, 2, 0⟩ fun a => a)) = true := by decide
theorem witness_MovesAndMasks :
    (both lab { dst := 2, wide := true, srcs := [(.i64, 0xFF)], fn := fun _ _ => res 0 }
        { dst := 3, wide := true, srcs := [(.i64, 0xFF)], fn := fun _ _ => res 0 } &&
      met labQ (fun x => x.g.isQueue && (5 : BitVec 8) != 0) && met lab (fun x => !x.g.isQueue)) = true := by decide
theorem witness_CompareInstructions :
    met lab (fun x => !x.g.isQueue && !badSrc x.g .w32 2 && !badSrc x.g .f64 4 && badSrc x.g .f64 5) = true ∧
      (∀ (cc : Nat), cc < 8 → fpCond cc .nan (.fin false 0 0) = (cc == 1 || cc == 7)) ∧
      ((-3 : Int) ≤ 0 ∧ fpCond 2 (.fin false 1 (-3)) (.fin false 1 0) = true ∧ fpCond 0 (.fin false 8 (-3)) (.fin false 1 0) = true) := by decide
theorem witness_FpArithmetic :
    (both labS (.fp32 3 (e 1 2 3 15 0) fun _ _ c => FF.fp32.round .rne c) (.fp32 3 (e 1 2 3 16 0) fun _ _ c => FF.fp32.round .rne c) &&
      both lab (.fp64 2 (e 2 2 4 0xF0 0) fun a _ _ => FF.fp64.round .rne a)
        (.fp64 2 (e 2 3 4 0xF0 0) fun a _ _ => FF.fp64.round .rne a)) = true := by decide
theorem witness_FpFunctions :
    both lab (.fp32 1 (e 1 2 0xF0 0xF0 0) fun a _ _ => FF.fp32.round .rne a)
      (.fp32 1 (e 0xF9 2 0xF0 0xF0 0) fun a _ _ => FF.fp32.round .rne a) = true := by decide
theorem witness_FpCorners :
    FF.fp32.decode 0x7F800000 = .inf false ∧ FF.fp32.decode 0x80000001 ≠ .nan ∧ (0x80000001 : Nat) < 2 ^ FF.fp32.width ∧
      (0x3F800000 < FF.fp32.maxBits ∧ FF.fp32.decode 0x3F800000 = .fin false 8388608 (-23) ∧
        FF.fp32.decode 0x3F800001 = .fin false 8388609 (-23) ∧ 8388608 * 2 < 1 * 2 ^ 24 + 1 ∧ 1 * 2 ^ 24 + 1 < 8388609 * 2) ∧
      (FF.fp32.decode FF.fp32.maxBits = .fin false 16777215 104 ∧ 16777215 * 2 ^ 104 < 1 * 2 ^ 128) := by decide
theorem witness_PackedAndConversions :
    (both labS (.packed 3 (e 1 2 3 0xEF 1) fun f _ _ c => f.round .rne c) (.packed 3 (e 1 2 3 191 1) fun f _ _ c => f.round .rne c) &&
      both lab (.ext (e 2 3 0xF0 0xF0 0x10) (fmtBits 0 == 64) [(kindOf 1, 3)] fun _ _ => res 0)
        (.ext (e 0xF1 3 0xF0 0xF0 0x10) (fmtBits 0 == 64) [(kindOf 1, 3)] fun _ _ => res 0)) = true := by decide
theorem witness_CrossLaneInstructions :
    met lab (fun x => badUniform x.g .w32 2 && !badUniform x.g .w32 0xC2 && !crossRefused x 1 false 2 && !crossRefused x 0xC1 false 2 &&
      crossRefused x 0xF5 false 2 && isScalar 0xC1 && !isScalar 1 && !(e 1 2 0 0 0).minor.getLsbD 4 &&
      (e 1 2 0 0 0x13).minor.getLsbD 4) = true := by decide

/-- The laboratory with a page of its own under its addresses, in the TLB of core 0, readable, writable and executable, and a line
of code at 0x1000 in the instruction cache: a header, a landing, a function of one block and one of 24, an IADD. -/
def labC : State := lab.modCore 0 fun c => { c with
  tlb := [⟨1, 1, 0, 65536, 0x10000, false, false, false, true, true, true⟩]
  icache := [⟨1, 0x1000, [0xFC400000, 0xFC440000, 0x30100803, 0xFC000000]⟩, ⟨1, 0x1080, [0xFC004000]⟩, ⟨1, 0x1100, [0xFC060000]⟩] }

/-- A change of the group and of its split 0. -/
def tuned (s : State) (f : Group → Group) (h : Split → Split) : State :=
  s.modGroup 128 fun g => { f g with splits := g.splits.modify 0 h }

/-- A word of code that meets a test. -/
def codeIs (s : State) (x : Ex) (va : Nat) (p : Word → Bool) : Bool :=
  match s.codeWord x.g va with
  | .ok (w, _) => p w
  | .error _ => false

/-- The laboratory in a trap handler of its own split, the trap's record in TREC0 to TREC3. -/
def labH : State := tuned labC (fun g => { g with handler := some ⟨0, 0, false⟩, trec0 := 0x1040, trec2 := 0xFF, trec3 := 0x1000 }) id

theorem witness_PassingAnInstruction :
    (met lab (fun x => x.sp.clause.isSome) && met (State.reset.withProgram [0x30100803, 0x30100803] |> fun s =>
      { s with issuer := some (128, 0) }) (fun x => x.sp.clause.any fun c => c.pos + rawLen (c.words.drop c.pos) < c.words.length)) =
      true := by decide
theorem witness_NopAndBranch :
    (met labC (fun x => !x.badTransfer 0 && !x.badTransfer 3 && (x.lanes &&& x.g.readM 3) == 0 &&
        codeIs labC x 0x1000 isHeader && codeIs labC x 0x1008 (fun w => !isHeader w)) &&
      met lab (fun x => match lab.codeWord x.g 0x1000 with
        | .error _ => true
        | .ok _ => false) &&
      met labQ (fun x => x.badTransfer 1)) = true := by decide
theorem witness_DivergeAndJoin :
    (met (labC.modGroup 128 fun g => g.writeM 3 0xF) (fun x =>
        !x.badTransfer 3 && (x.lanes &&& x.g.readM 3) == 0xF && (x.sp.mask &&& ~~~(0xF : Lanes)) != 0 && x.sp.jrec.isNone &&
        codeIs labC x 0x1000 isHeader && codeIs labC x 0x1004 isHeader && codeIs labC x 0x1008 (fun w => !isHeader w)) &&
      met labC (fun x => (x.sp.mask &&& ~~~x.lanes) == 0 && (x.lanes &&& x.g.readM 4) == 0) &&
      met (tuned labC id fun sp => { sp with jrec := some 7 }) (fun x => x.sp.jrec == some 7 && !x.badTransfer 0) &&
      met labQ (fun x => x.badTransfer 1)) = true := by decide
theorem witness_LanesOfJoins :
    (met lab (fun x => (x.g.splits.find x.sid).any (· == x.sp) && x.sp.jrec.isNone && (0xF ||| ~~~(0xF : Lanes)) &&& x.sp.mask == x.sp.mask) &&
      met (tuned lab (fun g => { g with joins := [(7, ⟨0x1004, 0xFFFFFFFF, 0xFFFF, 0, 0, 0, false, none⟩)] })
          fun sp => { sp with jrec := some 7, mask := 0xFFFF0000 }) (fun x =>
        (x.g.joins.find 7).any fun r => r.defer == 0 && (r.arrived ||| x.sp.mask) == r.expect) &&
      met (tuned lab (fun g => { g with joins := [(7, { jpc := 0x1004, expect := 0xFFFFFFFF, defer := 0xFF, outer := none })] })
          fun sp => { sp with jrec := some 7, mask := 0xFFFF0000 }) (fun x =>
        (x.g.joins.find 7).any fun r => r.defer != 0 && (r.arrived ||| x.sp.mask) != r.expect) &&
      met (tuned lab (fun g => { g with joins := [(7, { jpc := 0x1004, expect := 0xFFFFFFFF, dpc := 0x1084, reeval := true, outer := none })] })
          fun sp => { sp with jrec := some 7 }) (fun x => x.sp.pc == 0x1084 && x.sp.jrec == some 7 &&
        (x.g.joins.find 7).any fun r => r.reeval && r.dpc == x.sp.pc)) = true := by decide
theorem witness_CallsAndReturns :
    (met labC (fun x => !x.badTransfer 0 && codeIs labC x 0x1000 (fun w => (entryOf w 0x1000).isNone) &&
        codeIs labC x 0x1080 (fun w => entryOf w 0x1080 == some 1) && codeIs labC x 0x1100 (fun w => entryOf w 0x1100 == some 24)) &&
      met (tuned labC (fun g => { g with rblk := 2 }) id) (fun x => codeIs labC x 0x1100 fun w => (entryOf w 0x1100).any fun r =>
        decide (x.g.rblk < r))) = true := by decide
/-- A token of a page request. -/
def tok (st : TokStatus) : Token := { mask := 0, key := 1, reqid := 0, vf := 0, stage := 1, status := st }
/-- The verdict on one address for every lane, as a state's issuing split meets it. -/
def verdict (s : State) (k : Landing) (va : Nat) (p : Judged → Bool) : Bool :=
  met s fun x => p (s.judgeAll x k (x.list.map fun l => (l, va)))

theorem witness_IndirectTransfers :
    (met labC (fun x => yields (labC.skipPads x.g padFuel x.nextHeader) fun _ => true) &&
      ([(.entry, 0x1080), (.marked, 0x1004), (.header, 0x1000)] : List (Landing × Nat)).all (fun c => verdict labC c.1 c.2 fun j =>
        j.bad == 0 && j.goods.length == 1 && j.misses.isEmpty && j.fatal.isNone) &&
      ([(.entry, 0x1000), (.marked, 0x1000), (.header, 0x100C)] : List (Landing × Nat)).all (fun c => verdict labC c.1 (c.2 + 1) fun j =>
        j.bad != 0 && j.inv == 0 && j.goods.isEmpty && j.misses.isEmpty) &&
      verdict lab .entry 0x1080 (fun j => j.misses.length == 32 && j.bad == 0 && j.fatal.isNone) &&
      verdict (tuned lab id fun sp => { sp with tokens := [{ tok .invalid with mask := 0xFFFFFFFF }] }) .header 0x1080 (fun j => j.inv != 0 && j.misses.isEmpty) &&
      verdict { labC with poison := [0x12000] } .marked 0x2000 fun j => j.fatal == some (0x11, 0x2000)) = true := by decide +kernel
theorem witness_TrapEntry :
    met (lab.modCtx 1 fun c => { c with tvec := 0x2000 }) (fun x => !x.g.isQueue && x.g.handler.isNone) = true ∧
      (((lab.modCtx 1 fun c => { c with tvec := 0x2000 }).ctx 1).tvec &&& 0x000FFFFFFFFFFF80).toNat ≠ 0 := by decide
theorem witness_TrapsNotDelivered :
    (met lab (fun x => !x.g.isQueue && x.g.handler.isNone && ((lab.ctx x.g.ctx).tvec &&& 0x000FFFFFFFFFFF80) == 0) &&
      met labH (fun x => x.g.handler.any fun h => h.sid == x.sid) &&
      met (tuned labH (fun g => { g with handler := some ⟨1, 0, false⟩ }) id) (fun x => x.g.handler.any fun h => h.sid != x.sid) &&
      met labQ (fun x => x.g.isQueue)) = true := by decide
theorem witness_TrapInstructions :
    (met labQ (fun x => x.g.isQueue) && met lab (fun x => !x.g.isQueue && !(x.inHandler && x.lastInClause)) &&
      met labH (fun x => !x.g.isQueue && x.inHandler && x.lastInClause && isVec 2 && !badSrc x.g .w32 2 && !badDst x.g false 1 &&
        !badUniform x.g .w32 0xFF && badUniform x.g .w32 3)) = true := by decide
theorem witness_SystemRegisters :
    (met lab (fun x => badDst x.g true 0xC1 && !badDst x.g true 0xC0 && (lab.sysReg x 0).isSome && (lab.sysReg x 255).isNone &&
        !lab.flagsDue x.gid x.g && !badUniform x.g .i64 0xC0 && badUniform x.g .i64 2 && x.g.handler.isNone &&
        (lab.sysReg x 8).isSome && (lab.sysReg x 10).isSome && (lab.sysReg x 1).isSome) &&
      met labH (fun x => x.g.handler.isSome) && met labQ (fun x => x.g.isQueue)) = true := by decide
/-- The group holds two register blocks of the six that its launch allows; and then waits in the core's FIFO for eight. -/
def labN : State := tuned (lab.modLaunch 130 fun l => { l with lrec := { l.lrec with rbmax := 6 } }) (fun g => { g with rblk := 2 }) id
def labR : State := tuned (labN.modCore 0 fun c => { c with rbFifo := [⟨128, 0⟩] }) id fun sp => { sp with park := .regs 8 none false }

theorem witness_RegisterBlocks :
    (met labQ (fun x => x.g.isQueue) &&
      met labN (fun x => !x.g.isQueue && badCountDst x.g 1 && !badCountDst x.g 0xC1 && !badCountDst x.g 0xF0 && badUniform x.g .w32 2 &&
        !badUniform x.g .w32 0xFF && ([0, 1, 2, 6, 7, 24, 25] : List Word).all (fun n => (labN.readUni x n .w32 0xFF).toNat == n.toNat) &&
        x.g.rblk == 2 && labN.blocksAllowed x.g 6 && !labN.blocksAllowed x.g 7 && x.g.counter .vl == 0) &&
      met (tuned labN (fun g => { g with flights := [{ id := 7, ctr := .vl, left := 0 }] }) id) (fun x => x.g.counter .vl != 0) &&
      (labR.rbHead 0).any (fun r => r.2.1 == 8 && r.1.g.rblk == 2 &&
        decide (labR.regBytes 0 + 32 * r.1.g.width * 6 ≤ (labR.core 0).poolb0 * 8192)) &&
      ((labR.modCore 0 fun c => { c with poolb0 := 0 }).rbHead 0).any fun r => decide (0 < 32 * r.1.g.width * (r.2.1 - r.1.g.rblk))) =
      true := by decide +kernel
theorem witness_SystemControl :
    (met labQ (fun x => x.g.isQueue && x.lastInClause) && met lab (fun x => !x.g.isQueue && !badUniform x.g .w32 0xFF &&
        badUniform x.g .w32 3 && !badUniform x.g .i64 0xC0 && x.g.np.isNone && x.lastInClause) &&
      met (labG fun g => { g with np := some 5 }) (fun x => x.g.np.isSome)) = true := by decide
theorem witness_IssueAndQueues :
    (((tuned lab id fun sp => { sp with clause := none }).exOf 128 0).any (fun x => x.sp.clause.isNone && !x.g.isQueue &&
        (tuned lab id fun sp => { sp with clause := none }).skidLeft 128 x.g && !x.g.otherHandler 0) &&
      ((tuned lab (fun g => { g with notif := some ⟨0x1080, 0, 0⟩ }) id).exOf 128 0).any (fun x => x.g.notif.isSome && x.sp.clause.isSome &&
        !x.g.isQueue && x.g.handler.isNone && x.sp.park == .no && x.sp.due != some 0 && !x.sp.begun && lab.issuer == some (128, 0)) &&
      ((tuned lab id fun sp => { sp with park := .page }).exOf 128 0).any (fun x => x.sp.park == .page && x.sp.tokens.isEmpty) &&
      ((tuned lab id fun sp => { sp with park := .waitc .vl 3 }).exOf 128 0).any (fun x => x.g.counter .vl ≤ 3) &&
      ((tuned lab (fun g => { g with npOver := true }) id).exOf 128 0).any (fun x => x.g.npOver) &&
      !State.reset.cpBusy 0 && (State.reset.selectQueue 0).isNone && labQ.selectQueue 0 == some 0 && (labQ.exOf 0 0).isSome) =
      true := by decide

/-- A state whose L2 holds one dirty line at address 0. -/
def labL2 : State := { State.reset with l2 := [(0, { data := List.replicate 128 0x5A, valid := 1, dirty := 1, cmpw := true })] }

/-- The group with two loads in flight, the second of them ready. -/
def labF : State := tuned { labC with nextId := 300 } (fun g =>
  { g with flights := [{ id := 201, ctr := .vl, left := 1 }, { id := 202, ctr := .vl, left := 0, writes := [⟨false, 4, 0, 9⟩] },
      { id := 203, ctr := .vs, left := 0 }] }) id

/-- A barrier object bound at 0x100 of the local store, a request of an atomic on the list of die 0, a waiter on word 4. -/
def labB : State := (labC.modCore 0 fun c => { c with slots := [(0, (129, 0x100))] }).putBar 129 0x100
  { slot := 0, bound := true, phase := false, expect := 4, pending := 4, pbytes := 0 }

/-- An atomic ADD that stands first at die 0. -/
def atomReq : AtomReq :=
  { gid := 128, flight := 5, addr := 0x10000, op := 0, w64 := false, b := 1, c := 0, cmp := false, core := 0, lane := 0, scalar := false,
    dst := none, release := none, rmt := true }

/-- An M instruction: base A, data D, size code. -/
def mo (d a : BitVec 8) (sz : BitVec 3) : MOps := ⟨d, a, sz, 0, 0, 0, 0⟩

theorem labL2_sound : CachesSound labL2 := by
  refine ⟨by decide, fun n l h => ?_, fun c b hb => (List.not_mem_nil hb).elim, fun c i => ?_⟩
  · have hl : labL2.l2 = [(0, { data := List.replicate 128 0x5A, valid := 1, dirty := 1, cmpw := true })] := rfl
    rw [hl] at h
    simp only [KV.find] at h
    split at h
    · cases h; subst_vars; decide +kernel
    · cases h
  · show 0 < KV.get 8 [] i
    simp [KV.get, KV.find]
theorem witness_HomeMemory : CachesSound labL2 ∧ (∀ k, k < 2 → labL2.place (0x1007E + k) = .mem (0x1007E + k)) ∧
    0x1007E / 128 = (0x1007E + 2 - 1) / 128 ∧
    ((labL2.l2.find 0).any (fun l => l.dirty != 0 && l.cmpw) && (labL2.l2Clean 0).l2.any fun e => e.2.dirty == 0) = true :=
  ⟨labL2_sound, by decide +kernel, by decide, by decide +kernel⟩
theorem witness_OwnStores :
    ((labC.core 0).l1Words != 0 && [1, 2, 4, 8].contains (KV.get 8 (labC.core 0).pred 3) && (labC.core 0).l1.isEmpty &&
      ((labC.core 0).l1Byte 0x10000 false).isNone) = true := by decide
theorem witness_ReturnsInOrder :
    met labF (fun x => (x.g.flights.find? fun k => k.id == 202).any (fun f => f.left == 0 && !f.done) &&
      ((x.g.flights.find? fun k => k.ctr == .vl).any fun f => f.id == 201) &&
      (x.g.flights.find? fun k => k.ctr == .vs).any fun f => f.id == 203 && f.left == 0) = true ∧
      retireFlights ((labF.group 128).elim [] (·.flights)) [] = (labF.group 128).elim [] (·.flights) ∧
      ((labF.group 128).elim [] (·.flights)).Pairwise (fun a b => a.id ≠ b.id) := by decide
theorem witness_OperationsStayInOrder :
    met lab (fun x => x.g.flights.isEmpty && x.sp.openOp.isNone) && met labF (fun x => x.sp.openOp.isNone &&
      x.g.flights.all fun f => f.id < labF.nextId) = true := by decide
theorem witness_CachesStaySound : CachesSound labL2 := labL2_sound
theorem witness_GlobalAccesses :
    (met labC (fun x =>
        let k := labC.sortLanes x .read (sized 4 (labC.laneAddrs x (mo 4 2 2)))
        !badBase x.g 2 && badBase x.g 3 && !badSpan x.g 4 4 && k.good.length == 32 && k.misses.isEmpty && k.packed.isEmpty && k.fatal.isNone) &&
      met lab (fun x =>
        let k := lab.sortLanes x .read (sized 4 (lab.laneAddrs x (mo 4 2 2)))
        k.good.isEmpty && k.misses.length == 32 && k.misses.any fun n => !x.sp.invalid.getLsbD n.lane) &&
      met (tuned labC id fun sp => { sp with openOp := some 9, due := some 1 }) (fun x => x.sp.openOp.isSome && x.sp.mask.getLsbD 3 &&
        !x.lanes.getLsbD 3 && labC.readSrc x 0 .i64 2 3 == labC.readSrc x 0 .i64 2 0) &&
      met lab (fun x => !x.g.isQueue && !texBad x.g (e 4 8 0xFF 0xF0 0x100)) && met labQ (fun x => x.g.isQueue)) = true := by decide
theorem witness_LocalLoadsAndStores :
    met lab (fun x => !badSrc x.g .w32 2 && !badSpan x.g 4 8 && badSpan x.g 191 8 &&
      (lab.laneOffs x (mo 4 2 3)).all (fun q => (lab.spot x.g q.2 8).isSome) && (lab.spot x.g 65536 4).isNone &&
      (lab.spot x.g 65532 4).any fun p => lab.present p) = true := by decide
theorem witness_Atomics :
    (met labC (fun x => !x.g.isQueue && !badBase x.g 2 && !badAtom x.g (e 4 2 6 0xF0 0) && !isScalar 4) &&
      (State.reset.die 0).atoms.isEmpty && ((labC.modDie 0 fun d => { d with atoms := [atomReq] }).die 0).atoms == [atomReq] &&
      (((labC.modDie 0 fun d => { d with atoms := [atomReq] }).die 0).awaits atomReq).isNone && !labC.poisoned 0x10000 4 &&
      (((labC.modDie 0 fun d => { d with releasers := [(0x800, 0)], atoms := [atomReq] }).die 0).awaits atomReq).isSome) = true ∧
      labC.place 0x10000 = .mem 0x10000 := by decide
theorem witness_LocalAtomicsAndTags :
    met lab (fun x => !x.g.isQueue && !badSrc x.g .w32 2 && !badAtom x.g (e 4 2 6 0xF0 0) && badTag x.g (e 4 2 0xF0 0xF0 1) true == false &&
      badTag x.g (e 5 2 0xF0 0xF0 1) true && (lab.tagOffs x (e 4 2 0xF0 0xF0 1)).length == 32 && tagOnce x.g (e 0xC4 0xC2 0xF0 0xF0 1) &&
      badSrc x.g .w32 2 == false) = true := by decide
theorem witness_TaggedWaiters :
    (met lab (fun x => x.g.counter .vl ≤ 0 && !badUniform x.g .w32 0xFF && badUniform x.g .w32 2) &&
      met labF (fun x => 1 < x.g.counter .vl) && (lab.woken 129 4).isNone && (lab.block 129).isSome &&
      ((lab.modBlock 129 fun b => { b with waits := [⟨128, 0, some 0, .stfe, 32, false, 7, none, 5, 1⟩] }).woken 129 4).isSome) = true := by decide
theorem witness_BarrierObjects :
    (met lab (fun x => (lab.object x { e 0xF0 0xFF 0xFF 0xF0 0 with lit := 0x100 } false).isSome &&
        (lab.object x { e 0xF0 0xFF 0xFF 0xF0 0 with lit := 0x104 } false).isNone && !lab.isBound 129 0x100 &&
        (lab.core 0).freeSlot == some 0) &&
      met labB (fun x => (labB.object x { e 0xF0 0xFF 0xFF 0xF0 0 with lit := 0x100 } true).any fun p =>
        labB.present p && labB.isBound p.store p.off && (labB.bar p.store p.off).pending == 4)) = true := by decide
theorem witness_GroupBarriersExitFence :
    (met lab (fun x => !x.g.isQueue && x.whole && !x.badTransfer 0 && (lab.clusterOf x.g).any (fun c => (lab.cluster c.1).any fun k =>
        !k.near.contains x.gid) && (lab.lrecOf x.g).any (fun r => !r.cores) && (lab.block x.g.blk).isSome) &&
      met (tuned lab id fun sp => { sp with mask := 1 }) (fun x => !x.whole) && met labQ (fun x => x.g.isQueue && x.badTransfer 3) &&
      met (lab.modCluster 131 fun c => { c with near := [128] }) (fun x => (lab.clusterOf x.g).isSome)) = true := by decide
theorem witness_EncodeDecode :
    (Instr.iadd ⟨1, 2, 3, 0⟩).encodable = true ∧ (Instr.iadd ⟨1, 0xFF, 3, 0xFFFFFFFF⟩).encodable = true ∧
      (Instr.mloop ⟨⟨0, 0xC4, 0xC6, 0, 0⟩, 0x03F40800⟩).encodable = true ∧ (Instr.fexport 2 (e 0xF0 8 24 0xF0 0xC)).encodable = true := by decide
theorem witness_DecodeIsExact : decode [0x2808040C, 0xF000000A, 7] = .ok (.icmp ⟨2, 1, 3, 0xF0, 0, 0x000A, 0⟩, 2) := by decide
theorem witness_DecodeSamples : fmtOf 0x3D = none ∨ fmtOf 0x02 = none ∨ (∃ k : Fin 64, fmtOf k = none) := by decide

/-- A spectral entry of 32 × 32 elements in Crema, with its tiles' map at 0x5000. -/
def spectralSte : Ste :=
  { version := 7, sch := 0, cbs := 0, evict := false, codec := false, dten := true, tshape := 0, axes := 2, ncomp := 1, fmt := 2, cls := 2,
    dim3 := 0, dim2 := 0, dim1 := 31, dim0 := 31, pdie := 0, loc := 0, base := 0x5000, ntiles := 16, awaycnt := 0, use := 0, spb := 2,
    user := 0 }

/-- A linear entry with one axis. -/
def linearSte : Ste := { spectralSte with cls := 5, fmt := 1, axes := 1, dten := false, base := 0x6000 }

/-- Context 1 has a surface table of eight entries at 0x4000, the spectral entry under handle 1, a linear one with one axis under
handle 2, none under handle 3; group 0 of block 129 owns the matrix unit. -/
def labT : State :=
  let s := (labC.modCtx 1 fun c => { c with stbase := 0x4000, stcount := 8 }).modCore 0 fun c =>
    { c with owner := some ⟨129, 1, [0], []⟩ }
  { s with mem := (s.mem.writeN 0x14040 spectralSte.toBytes).writeN 0x14080 linearSte.toBytes }

/-- A copy of 64 bytes from 0x8000 to local 0x1000 stands first in the queue of core 0. -/
def copyJob : Job := { id := 200, gid := 128, blk := 129, ctx := 1, kind := .cpy 0 0x1000 0x8000 64 15 0 false }
def labJ : State := labT.modCore 0 fun c => { c with jobs := [copyJob] }

/-- Handle 1 of a table operation that has arrived. -/
def labO : State := (tuned labT id fun sp => { sp with park := .table }).modCtx 1 fun c =>
  { c with tableOps := [⟨128, 0, 1, 1, [], 0, none⟩] }

/-- Crema of die 0: a tile of bank 0 that may go and lies at its bottom, one that is away and waited for. -/
def labK : State := labT.modDie 0 fun d => { d with cfarea := 0x0010000001000000, tiles :=
  [{ ctx := 1, handle := 2, idx := 0, plane := 0, tx := 0, ty := 0, bank := 0, slot := 0, units := 8192, bytes := 64, evict := true, codec := false },
  { ctx := 1, handle := 2, idx := 1, plane := 0, tx := 1, ty := 0, bank := 0, slot := 0, units := 8, bytes := 64, away := true, far := 5, farUnits := 1,
    last := 1, wanted := true, evict := true, codec := false }] }

/-- The entries of page tables of four levels, from 0x40000, that map the same page. -/
def pageTables : List (Nat × Nat) := [(0x40000, 0x42003), (0x42000, 0x44003), (0x44000, 0x46003), (0x46000, 0x0700000000010001)]

/-- The laboratory with these tables, for those that have no TLB. -/
def labP : State :=
  let s := labC.modCtx 1 fun c => { c with gttb := 0x40000 }
  { s with mem := pageTables.foldl (fun m e => m.writeN e.1 (natToBytes 8 e.2)) s.mem }

/-- A table of experts that serves context 1, with one LIVE replica to be retired, a merge and a copy. -/
def labE : State := labP.modTable 0 fun t => { t with
  en := true, train := true, ctx := 1, nexp := 3, drains := [⟨1, 2, 9⟩], merges := [⟨128, 5, 1, 0x1084⟩]
  notices := [⟨0, 1, 9, none⟩], copies := [{ id := 44, expert := 1, rep := 2, die := 0, slot := 3 }] }

theorem witness_CopyEngine :
    (met labT (fun x => !x.g.isQueue && labT.owns x && (match labT.planCopy (labT.who x.g) x.g 0 0x1000 0x8000 64 15 with
        | .ok p => p.uses == [] && p.regs.length == 2
        | .error _ => false) && (match labT.planCopy (labT.who x.g) x.g 0 0x1001 0x8000 64 15 with
        | .error (.trap _) => true
        | _ => false) && labT.barOperand x 0 0xF0 == some none && (labT.barOperand x 0 0xFF).isNone) &&
      ((labJ.core 0).job 200).isSome && ((labJ.core 0).job 201).isNone && (labJ.core 0).mayRun 200 && !anyPending copyJob.tokens &&
      (match jobChunks [] copyJob.kind with
        | .ok n => copyJob.chunk + 1 == n
        | .error _ => false) &&
      (match labJ.jobPart (copyJob.who 0) [] 0 129 copyJob.kind 0 with
        | .ok r => r.bytes == 64
        | .error _ => false) &&
      { copyJob with chunk := 1, started := true }.over && !copyJob.over && met labQ (fun x => x.g.isQueue)) = true := by decide +kernel
/-- A copy of two chunks whose first one's bytes have still to lower its barrier; a list of two entries. -/
def job2 : Job := { copyJob with kind := .cpy 0 0x1000 0x8000 2048 15 0 false, chunk := 1, started := true, owed := 1024 }
def listJob (next : Nat) : Job := { copyJob with kind := .cpyq 0x100 2 next }

theorem witness_CopyProgress :
    (!job2.over && job2.owed != 0 && (listJob 2).over && !(listJob 1).over && anyPending [tok .pending] && anyInvalid [tok .invalid] &&
      labJ.lowerReady 128 200 && !(labJ.modDie 0 fun d => { d with atoms := [atomReq] }).lowerReady 128 200 &&
      yields (labJ.engineRead (copyJob.who 0) 0x8000 64 (some false)) (fun r => r.1.length == 64) &&
      yields (labJ.engineWrite (copyJob.who 0) .write 0x8000 (List.replicate 64 1) (some false)) (fun _ => true) &&
      yields (labJ.addUse (some 0) 1 false copyJob.uses) (fun _ => true) &&
      !yields (lab.jobPart (copyJob.who 0) [] 0 129 copyJob.kind 0) (fun _ => true)) = true := by decide +kernel
theorem witness_SurfaceTable :
    (met labT (fun x => (labT.image x.g 0x100).isSome && (labT.image x.g 0x108).isNone &&
        (match labT.entry x.g.core? x.g.ctx 1 with
          | .ok (some k) => k == spectralSte
          | _ => false) &&
        (match labT.entry x.g.core? x.g.ctx 3 with
          | .ok none => true
          | _ => false)) &&
      ((labO.ctx 1).tableOps.head?.any fun op => (labO.exOf op.gid op.sid).isSome) &&
      (match labO.applyHfree (some 0) 1 1 with
        | .ok (.done _ _) => true
        | _ => false) &&
      yields (labO.toUpdate (some 0) 1 1) (fun _ => true) && !yields (lab.toUpdate (some 0) 1 1) (fun _ => true) == ((lab.ctx 1).stcount != 0) &&
      (State.reset.ctx 1).tableOps.isEmpty && spectralSte.use == 0 && !((Ste.ofDwords [2]).legal) && !(Ste.ofDwords [2]).reservedValue &&
      ((0xFFFFFFFFFFFFFFFF : Dword) &&& steReserved.getD 0 0) != 0) = true := by decide +kernel
theorem witness_Carafe :
    (!State.reset.roomAsked 0 0 && labK.roomAsked 0 0 && labK.canSpill 0 0 && (labK.victim 0 0).any (fun t => t.idx == 0) &&
      (labK.die 0).freeRun 1 8 == some 0 && ((labK.die 0).freeRun 0 8).isNone &&
      ((labK.die 0).tiles.find? fun k => k.bank == 0 && k.away && k.far == 5 && k.wanted).any fun t => t.tokens.isEmpty) = true := by decide +kernel
theorem witness_TilesAndMatrixUnit :
    (met labT (fun x => !x.g.isQueue && labT.owns x && !labT.badTeam x 1 && labT.badTeam x 0 && x.g.width == 32) &&
      met lab (fun x => !lab.owns x && (lab.core 0).owner.isNone && !((lab.core 0).teams.any fun t => t.has x.g.blk x.g.num)) &&
      (let s := labC.modCore 0 fun c => { c with teams := [⟨129, 1, [0], []⟩] }
       ((s.freeUnit 0).core 0).owner.isNone && ((s.freeUnit 0).core 0).teams == [⟨129, 1, [0], []⟩] &&
        (s.freeUnit 0).memberHere ⟨129, 1, [0], []⟩ 0)) = true := by decide +kernel
theorem witness_MatrixSteps :
    (met (labT.modGroup 128 fun g => { g with f := [(0, 0x11), (1, 0x11)] }) (fun x => !x.g.isQueue) &&
      (labT.core 0).teamSteps.isEmpty && ((labT.core 0).seqOf 0).isNone && (labT.core 0).locks.length ≤ 32 &&
      met labT (fun x => badPair x.g 2 && !badPair x.g 0xC2)) = true := by decide +kernel
/-- An XSCL of the first row of tiles of handle 1 by 2^1 runs in the Grinders, alone or behind an atomic of its group at an engine. -/
def grindJob : Grind :=
  { gid := 128, core := 0, ctx := 1, blk := 129, op := 3, h := 1, p := 0, x0 := 0, y0 := 0, w := 32, ht := 8, d := 1, bar := none,
    uses := [1], pc := 0x1084, descs := [(1, spectralSte.toDwords)] }
def labGr : State := { labT with grinds := [(200, grindJob)] }
def labGrBar : State := { labT with grinds := [(200, { grindJob with bar := some ⟨129, 0x100, false⟩ })] }

theorem witness_SpectralInstructions :
    (met labQ (fun x => x.g.isQueue) && met labT (fun x => !x.g.isQueue && badUniform x.g .i64 2 && !badUniform x.g .i64 0xC0 &&
        !badUniform x.g .w32 0xC2 && yields (labT.spectral (labT.who x.g) 1) (fun k => k == spectralSte) &&
        !yields (labT.spectral (labT.who x.g) 2) (fun _ => true) && !badDst x.g false 0xC1 && !badDst x.g false 0xF0) &&
      tilesAlong spectralSte.dim0 == 4 && tilesAlong spectralSte.dim1 == 4 && spectralSte.planes == 1 &&
      yields (labT.tmap (some 0) 1 spectralSte (spectralSte.tileIdx 0 3 3)) (fun m => !m.freq && !m.away)) = true := by decide +kernel
theorem witness_GrindersPlan :
    (met labT (fun x => !yields (labT.planGrind (labT.who x.g) 2 0x00200020 3) (fun _ => true) &&
        !yields (labT.planGrind (labT.who x.g) 1 0x00200020 1) (fun _ => true) &&
        [0, 3].all (fun op => yields (labT.planGrind (labT.who x.g) 1 0x00200020 op) fun p => p.uses == [1]) &&
        (labT.barOperand x 0 0xF0).isSome && (labT.barOperand x 0x104 0xFF).isNone) &&
      met labB (fun x => labB.barOperand x 0x100 0xFF == some (some ⟨129, 0x100, false⟩)) && (labT.core 0).room 1 &&
      yields (labT.addUse (some 0) 1 true [1]) (fun _ => true) &&
      !(({ labT.core 0 with locks := List.replicate 32 ⟨7, 1, .global 0 64, false, []⟩ } : Core).room 1)) = true := by decide +kernel
theorem witness_GrinderCompletes :
    ((State.reset.grinds.find 5).isNone && (labGr.grinds.find 200) == some grindJob && !anyPending grindJob.tokens &&
      !anyInvalid grindJob.tokens && !(labGr.core 0).blocked 200 200 && labGrBar.lowerReady 128 200 &&
      !(labGrBar.modDie 0 fun d => { d with atoms := [atomReq] }).lowerReady 128 200 &&
      yields (descOf grindJob.descs 1) (fun e => e == spectralSte) &&
      yields (labGr.grindWork (labGr.whoOf 0 1 128) grindJob) (fun r => r.2.2 == 4 &&
        yields (r.1.addUse (some 0) 1 false [1]) fun _ => true)) = true := by decide +kernel
theorem witness_ExpertEngine :
    (met labE (fun x => !x.g.isQueue && isVec 4 && !badDst x.g true 4 && !badSrc x.g .w32 6 && (labE.table 0).ctx == x.g.ctx) &&
      (labE.table 0).en && !(State.reset.table 0).en && ((labE.table 0).drains.find? fun d => d.expert == 1 && d.rep == 2).isSome &&
      ((labE.table 0).copy 44).isSome && ((labE.table 0).copy 45).isNone && !anyPending (labE.table 0).tokens &&
      (match labE.expEntry (labE.table 0) 1 with
        | .ok _ => true
        | .error _ => false) &&
      ((labE.table 0).notices.find? fun n => n.core == 320 * labE.pkg.pkgid + 0).isSome &&
      (descExpert (routeDesc 1 2 ⟨9, 0, []⟩)).isSome && (0 < ((labE.table 0).ctr 1).infl.length)) = true := by decide +kernel

theorem witness_BaristaWork :
    ((labE.table 0).waits.isEmpty && (labE.expReach 0 0 [1]).isNone && yields (labE.slotChunks (labE.table 0)) (fun _ => true) &&
      yields (labE.slotAddr (labE.table 0) 0 3) (fun _ => true) && yields (labE.mergeWork 0 1) (fun _ => true) &&
      yields (labE.verify 0 { id := 44, expert := 1, rep := 2, die := 0, slot := 3 }) (fun _ => true) &&
      yields (labE.dropCopy 0 { id := 44, expert := 1, rep := 2, die := 0, slot := 3 }) (fun _ => true) &&
      yields (labE.refreshOn 0 { id := 44, expert := 1, rep := 2, die := 0, slot := 3, refresh := true } true) (fun _ => true) &&
      labP.beanAt 1 0x8000 && !(({ labP with mem := labP.mem.writeN 0x46000 (natToBytes 8 0x0700007000010001) } : State).beanAt 1 0x8000) &&
      (labE.table 0).notices.any (fun n => n.owed.isNone) &&
      (labE.modTable 0 fun t => { t with notices := [⟨0, 1, 9, some [5]⟩] }).stillRouting 0 0 1 == [] &&
      ((labE.modTable 0 fun t => { t with waits := [⟨128, 5, 0, 0, 1, none, 4⟩] }).stillRouting 0 0 1).contains 5) = true := by decide +kernel

/-! ### Decoded words: for every instruction a word put together from its row of the map of R152 or R154 and the fields of R135 -/

/-- The decoder reads exactly this instruction, from all of these words. -/
def dec (ws : List Word) (i : Instr) : Bool :=
  match decode ws with
  | .ok (j, n) => j == i && n == ws.length
  | .error _ => false

theorem test_decode_arith : ([
    ([0x0017FF0C, 0x12345678], Instr.iadd ⟨5, 0xFF, 0xC3, 0x12345678⟩),
    ([0x0017FF0D, 0x12345678], Instr.isub ⟨5, 0xFF, 0xC3, 0x12345678⟩),
    ([0x0017FF0E, 0x12345678], Instr.iaddc ⟨5, 0xFF, 0xC3, 0x12345678⟩),
    ([0x0017FF0F, 0x12345678], Instr.isubb ⟨5, 0xFF, 0xC3, 0x12345678⟩),
    ([0x30141BFE], Instr.iaddImm ⟨5, 6, 0x3FE, 0⟩),
    ([0x34141BFE], Instr.andImm ⟨5, 6, 0x3FE, 0⟩),
    ([0x38141BFE], Instr.orImm ⟨5, 6, 0x3FE, 0⟩),
    ([0x3C141BFE], Instr.xorImm ⟨5, 6, 0x3FE, 0⟩),
    ([0x0417FF0C, 0x12345678], Instr.imul ⟨5, 0xFF, 0xC3, 0x12345678⟩),
    ([0x0417FF0D, 0x12345678], Instr.imulh ⟨5, 0xFF, 0xC3, 0x12345678⟩),
    ([0x0417FF0E, 0x12345678], Instr.imulhU ⟨5, 0xFF, 0xC3, 0x12345678⟩),
    ([0x0417FF0F, 0x12345678], Instr.iadd64 ⟨5, 0xFF, 0xC3, 0x12345678⟩),
    ([0x08184B0C, 0x24000003], Instr.imad ⟨6, 18, 0xC3, 36, 0, 0x0003, 0⟩),
    ([0x0C184B0C, 0xF0000000], Instr.idiv ⟨6, 18, 0xC3, 0xF0, 0, 0x0000, 0⟩),
    ([0x1017FF0C, 0x12345678], Instr.imin ⟨5, 0xFF, 0xC3, 0x12345678⟩),
    ([0x1017FF0D, 0x12345678], Instr.imax ⟨5, 0xFF, 0xC3, 0x12345678⟩),
    ([0x1017FF0E, 0x12345678], Instr.iminU ⟨5, 0xFF, 0xC3, 0x12345678⟩),
    ([0x1017FF0F, 0x12345678], Instr.imaxU ⟨5, 0xFF, 0xC3, 0x12345678⟩),
    ([0x1417FF0C, 0x12345678], Instr.and ⟨5, 0xFF, 0xC3, 0x12345678⟩),
    ([0x1417FF0D, 0x12345678], Instr.or ⟨5, 0xFF, 0xC3, 0x12345678⟩),
    ([0x1417FF0E, 0x12345678], Instr.xor ⟨5, 0xFF, 0xC3, 0x12345678⟩),
    ([0x1417FF0F, 0x12345678], Instr.andn ⟨5, 0xFF, 0xC3, 0x12345678⟩),
    ([0x1817FF0C, 0x12345678], Instr.shl ⟨5, 0xFF, 0xC3, 0x12345678⟩),
    ([0x1817FF0D, 0x12345678], Instr.shr ⟨5, 0xFF, 0xC3, 0x12345678⟩),
    ([0x1817FF0E, 0x12345678], Instr.sar ⟨5, 0xFF, 0xC3, 0x12345678⟩),
    ([0x1817FF0F, 0x12345678], Instr.rol ⟨5, 0xFF, 0xC3, 0x12345678⟩),
    ([0x1C184B0C, 0xF0000001], Instr.bfx ⟨6, 18, 0xC3, 0xF0, 0, 0x0001, 0⟩),
    ([0x1C184B0D, 0x24000000], Instr.bfi ⟨6, 18, 0xC3, 36, 0, 0x0000, 0⟩),
    ([0x1C184B0E, 0xF0000000], Instr.lea ⟨6, 18, 0xC3, 0xF0, 0, 0x0000, 0⟩),
    ([0x20184BC0], Instr.popc ⟨6, 0x12, 0⟩),
    ([0x20184BC1], Instr.clz ⟨6, 0x12, 0⟩),
    ([0x20184BC2], Instr.ctz ⟨6, 0x12, 0⟩),
    ([0x20184BC3], Instr.brev ⟨6, 0x12, 0⟩),
    ([0x24184BC0], Instr.iabs ⟨6, 0x12, 0⟩),
    ([0x2417FF0D, 0x12345678], Instr.clmulLo ⟨5, 0xFF, 0xC3, 0x12345678⟩),
    ([0x2417FF0E, 0x12345678], Instr.clmulHi ⟨5, 0xFF, 0xC3, 0x12345678⟩),
    ([0x280C4B0C, 0xF0000000], Instr.icmp ⟨3, 18, 0xC3, 0xF0, 0, 0x0000, 0⟩),
    ([0x2C184B0C, 0x03000000], Instr.sel ⟨6, 18, 0xC3, 3, 0, 0x0000, 0⟩),
    ([0x6017FF0C, 0x12345678], Instr.faddShort ⟨5, 0xFF, 0xC3, 0x12345678⟩),
    ([0x6017FF0D, 0x12345678], Instr.fsubShort ⟨5, 0xFF, 0xC3, 0x12345678⟩),
    ([0x6017FF0E, 0x12345678], Instr.fmulShort ⟨5, 0xFF, 0xC3, 0x12345678⟩),
    ([0x6017FF0F, 0x12345678], Instr.fmaxShort ⟨5, 0xFF, 0xC3, 0x12345678⟩),
    ([0x6417FF0C, 0x12345678], Instr.daddShort ⟨5, 0xFF, 0xC3, 0x12345678⟩),
    ([0x6417FF0D, 0x12345678], Instr.dmulShort ⟨5, 0xFF, 0xC3, 0x12345678⟩),
    ([0x6417FF0E, 0x12345678], Instr.hadd2Short ⟨5, 0xFF, 0xC3, 0x12345678⟩),
    ([0x6417FF0F, 0x12345678], Instr.hmul2Short ⟨5, 0xFF, 0xC3, 0x12345678⟩),
    ([0x78184BC0], Instr.mov ⟨6, 0x12, 0⟩),
    ([0x8417FF0C, 0x12345678], Instr.bcst ⟨5, 0xFF, 0xC3, 0x12345678⟩),
    ([0x84184BC1], Instr.vote ⟨6, 0x12, 0⟩),
    ([0x84184BC2], Instr.ballot ⟨6, 0x12, 0⟩),
    ([0x8C17FF0C, 0x12345678], Instr.qswp ⟨5, 0xFF, 0xC3, 0x12345678⟩),
    ([0x8C17FF0D, 0x12345678], Instr.qbcst ⟨5, 0xFF, 0xC3, 0x12345678⟩),
    ([0x8C17FF0E, 0x12345678], Instr.qdd ⟨5, 0xFF, 0xC3, 0x12345678⟩),
    ([0xD8184BC2], Instr.feqry ⟨6, 0x12, 0⟩)] : List (List Word × Instr)).all (fun p => dec p.1 p.2) = true := by decide +kernel
theorem test_decode_float : ([
    ([0x40184B0C, 0xF0400000], Instr.fadd ⟨6, 18, 0xC3, 0xF0, 0x40, 0x0000, 0⟩),
    ([0x40184B0D, 0xF0400000], Instr.fsub ⟨6, 18, 0xC3, 0xF0, 0x40, 0x0000, 0⟩),
    ([0x40184B0E, 0xF0400000], Instr.fmul ⟨6, 18, 0xC3, 0xF0, 0x40, 0x0000, 0⟩),
    ([0x40184B0F, 0x24400000], Instr.ffma ⟨6, 18, 0xC3, 36, 0x40, 0x0000, 0⟩),
    ([0x54184B0C, 0xF0400000], Instr.dadd ⟨6, 18, 0xC3, 0xF0, 0x40, 0x0000, 0⟩),
    ([0x54184B0D, 0xF0400000], Instr.dmul ⟨6, 18, 0xC3, 0xF0, 0x40, 0x0000, 0⟩),
    ([0x54184B0E, 0x24400000], Instr.dfma ⟨6, 18, 0xC3, 36, 0x40, 0x0000, 0⟩),
    ([0x44184B0C, 0xF0000000], Instr.fmin ⟨6, 18, 0xC3, 0xF0, 0, 0x0000, 0⟩),
    ([0x44184B0D, 0xF0000000], Instr.fmax ⟨6, 18, 0xC3, 0xF0, 0, 0x0000, 0⟩),
    ([0x54184B0F, 0xF0000000], Instr.dmin ⟨6, 18, 0xC3, 0xF0, 0, 0x0000, 0⟩),
    ([0x58184B0C, 0xF0000000], Instr.dmax ⟨6, 18, 0xC3, 0xF0, 0, 0x0000, 0⟩),
    ([0x440C4B0E, 0xF0000000], Instr.fcmp ⟨3, 18, 0xC3, 0xF0, 0, 0x0000, 0⟩),
    ([0x580C4B0D, 0xF0000000], Instr.dcmp ⟨3, 18, 0xC3, 0xF0, 0, 0x0000, 0⟩),
    ([0x44184BC3, 0xF0000000], Instr.fclass ⟨6, 18, 0xF0, 0xF0, 0, 0x0000, 0⟩),
    ([0x48184BC0, 0xF0400000], Instr.frcp ⟨6, 18, 0xF0, 0xF0, 0x40, 0x0000, 0⟩),
    ([0x48184BC1, 0xF0000000], Instr.frsq ⟨6, 18, 0xF0, 0xF0, 0, 0x0000, 0⟩),
    ([0x48184BC2, 0xF0400000], Instr.fsqrt ⟨6, 18, 0xF0, 0xF0, 0x40, 0x0000, 0⟩),
    ([0x48184B0F, 0xF0400000], Instr.fdiv ⟨6, 18, 0xC3, 0xF0, 0x40, 0x0000, 0⟩),
    ([0x4C184BC0, 0xF0000000], Instr.fexp2 ⟨6, 18, 0xF0, 0xF0, 0, 0x0000, 0⟩),
    ([0x4C184BC1, 0xF0000000], Instr.flog2 ⟨6, 18, 0xF0, 0xF0, 0, 0x0000, 0⟩),
    ([0x4C184BC2, 0xF0000000], Instr.ftanh ⟨6, 18, 0xF0, 0xF0, 0, 0x0000, 0⟩),
    ([0x50184BC0, 0xF0000000], Instr.fsin ⟨6, 18, 0xF0, 0xF0, 0, 0x0000, 0⟩),
    ([0x50184BC1, 0xF0000000], Instr.fcos ⟨6, 18, 0xF0, 0xF0, 0, 0x0000, 0⟩),
    ([0x58184B0E, 0xF0400000], Instr.ddiv ⟨6, 18, 0xC3, 0xF0, 0x40, 0x0000, 0⟩),
    ([0x58184BC3, 0xF0400000], Instr.dsqrt ⟨6, 18, 0xF0, 0xF0, 0x40, 0x0000, 0⟩),
    ([0x4C184BC3, 0xF0400000], Instr.frnd ⟨6, 18, 0xF0, 0xF0, 0x40, 0x0000, 0⟩),
    ([0x50184B0E, 0xF0400000], Instr.fldexp ⟨6, 18, 0xC3, 0xF0, 0x40, 0x0000, 0⟩),
    ([0x5C184B0C, 0xF0400000], Instr.hadd2 ⟨6, 18, 0xC3, 0xF0, 0x40, 0x0000, 0⟩),
    ([0x5C184B0D, 0xF0400000], Instr.hmul2 ⟨6, 18, 0xC3, 0xF0, 0x40, 0x0000, 0⟩),
    ([0x5C184B0E, 0x24400000], Instr.hfma2 ⟨6, 18, 0xC3, 36, 0x40, 0x0000, 0⟩),
    ([0x70184BC0, 0xF0400241], Instr.cvt ⟨6, 18, 0xF0, 0xF0, 0x40, 0x0241, 0⟩),
    ([0x70184B0D, 0xF0400114], Instr.pack ⟨6, 18, 0xC3, 0xF0, 0x40, 0x0114, 0⟩),
    ([0x70184BC2, 0xF0400151], Instr.unpk ⟨6, 18, 0xF0, 0xF0, 0x40, 0x0151, 0⟩)] : List (List Word × Instr)).all (fun p => dec p.1 p.2) = true := by decide +kernel
theorem test_decode_moves : ([
    ([0x7C14181C], Instr.mand 5 6 7),
    ([0x7C14181D], Instr.mor 5 6 7),
    ([0x7C14181E], Instr.mxor 5 6 7),
    ([0x80184B0C, 0xF0000000], Instr.shfl ⟨6, 18, 0xC3, 0xF0, 0, 0x0000, 0⟩),
    ([0x88184BC0, 0xF0000018], Instr.redux ⟨6, 18, 0xF0, 0xF0, 0, 0x0018, 0⟩),
    ([0x781BFFC1, 0x9ABCDEF0, 0x12345678], Instr.movl ⟨6, 0xFF, 0x123456789ABCDEF0⟩),
    ([0x741FF801], Instr.movi ⟨7, 0x3F801⟩),
    ([0x782027C2], Instr.mpop 8 9),
    ([0x780C27C3], Instr.mnot 3 9)] : List (List Word × Instr)).all (fun p => dec p.1 p.2) = true := by decide +kernel
theorem test_decode_control : ([
    ([0xA3C04BC0], Instr.calli ⟨0x12, 0⟩),
    ([0xA3C04BC1], Instr.jmpi ⟨0x12, 0⟩),
    ([0xDBC04BC0], Instr.feset ⟨0x12, 0⟩),
    ([0xDBC04BC1], Instr.feclr ⟨0x12, 0⟩),
    ([0x98CFFFFE], Instr.bra ⟨3, 0xFFFFE⟩),
    ([0x98D00020, 0x00000040], Instr.brd ⟨3, 0x20, 0x40⟩),
    ([0x98200000], Instr.join),
    ([0x98300123], Instr.call 0x123),
    ([0x9C000000], Instr.ret),
    ([0x9D500000], Instr.exit 5),
    ([0x9C200000], Instr.nop)] : List (List Word × Instr)).all (fun p => dec p.1 p.2) = true := by decide +kernel
theorem test_decode_memory : ([
    ([0xB0130B43], Instr.ld ⟨4, 0xC2, 6, 2, 3, 0, 0⟩),
    ([0xB4130B43], Instr.st ⟨4, 0xC2, 6, 2, 3, 0, 0⟩),
    ([0xB8130B03], Instr.ldl ⟨4, 0xC2, 6, 0, 3, 0, 0⟩),
    ([0xBC130B03], Instr.stl ⟨4, 0xC2, 6, 0, 3, 0, 0⟩),
    ([0xC0130B43], Instr.ldc ⟨4, 0xC2, 6, 2, 3, 0, 0⟩),
    ([0xC4184B0C, 0x24000000], Instr.tex ⟨6, 18, 0xC3, 36, 0, 0x0000, 0⟩),
    ([0xB3C3081F, 0xFFFFFF80], Instr.pref ⟨0xF0, 0xC2, 0, 0, 0x1F, 0xFFFFFF80, 0⟩)] : List (List Word × Instr)).all (fun p => dec p.1 p.2) = true := by decide +kernel
theorem test_decode_engines : ([
    ([0xC8184B0C, 0x24400022], Instr.cpy ⟨6, 18, 0xC3, 36, 0x40, 0x0022, 0⟩),
    ([0xCBC04B0D, 0x24000000], Instr.cpyq ⟨0xF0, 18, 0xC3, 36, 0, 0x0000, 0⟩),
    ([0xCBC04B0E, 0xF0000000], Instr.cinv ⟨0xF0, 18, 0xC3, 0xF0, 0, 0x0000, 0⟩),
    ([0xCBC04B0F, 0xF0000000], Instr.cflush ⟨0xF0, 18, 0xC3, 0xF0, 0, 0x0000, 0⟩),
    ([0xCC184BC0, 0xF0000000], Instr.halloc ⟨6, 18, 0xF0, 0xF0, 0, 0x0000, 0⟩),
    ([0xCFC04BC1, 0xF0000000], Instr.hfree ⟨0xF0, 18, 0xF0, 0xF0, 0, 0x0000, 0⟩),
    ([0xCC184B0E, 0xF0000000], Instr.sste ⟨6, 18, 0xC3, 0xF0, 0, 0x0000, 0⟩)] : List (List Word × Instr)).all (fun p => dec p.1 p.2) = true := by decide +kernel
theorem test_decode_sync : ([
    ([0xD0184B0C, 0x2400000A], Instr.atom ⟨6, 18, 0xC3, 36, 0, 0x000A, 0⟩),
    ([0xD3C04B0D, 0xF0000000], Instr.red ⟨0xF0, 18, 0xC3, 0xF0, 0, 0x0000, 0⟩),
    ([0xD0184B0E, 0x2400000A], Instr.atoml ⟨6, 18, 0xC3, 36, 0, 0x000A, 0⟩),
    ([0xD4184BC0, 0xF0000000], Instr.ldfe ⟨6, 18, 0xF0, 0xF0, 0, 0x0000, 0⟩),
    ([0xD4184BC1, 0xF0000000], Instr.ldff ⟨6, 18, 0xF0, 0xF0, 0, 0x0000, 0⟩),
    ([0xD4184BC2, 0xF0000000], Instr.stfe ⟨6, 18, 0xF0, 0xF0, 0, 0x0000, 0⟩),
    ([0xD4184BC3, 0xF0000000], Instr.stff ⟨6, 18, 0xF0, 0xF0, 0, 0x0000, 0⟩),
    ([0xDFC04B0C, 0xF0000000], Instr.binit ⟨0xF0, 18, 0xC3, 0xF0, 0, 0x0000, 0⟩),
    ([0xDC184BC1, 0xF0000000], Instr.barv ⟨6, 18, 0xF0, 0xF0, 0, 0x0000, 0⟩),
    ([0xDC184B0D, 0xF0000001], Instr.barvx ⟨6, 18, 0xC3, 0xF0, 0, 0x0001, 0⟩),
    ([0xDFC04B0E, 0xF0000000], Instr.bwait ⟨0xF0, 18, 0xC3, 0xF0, 0, 0x0000, 0⟩),
    ([0xDC184B0E, 0xF0000001], Instr.btest ⟨6, 18, 0xC3, 0xF0, 0, 0x0001, 0⟩),
    ([0xDFC3C3C3, 0xF0000000], Instr.cbarNear ⟨0xF0, 0xF0, 0xF0, 0xF0, 0, 0x0000, 0⟩),
    ([0xDFC3C3C3, 0xF0000001], Instr.cbarFar ⟨0xF0, 0xF0, 0xF0, 0xF0, 0, 0x0001, 0⟩),
    ([0xDFC3C3C3, 0xF0000002], Instr.gbar ⟨0xF0, 0xF0, 0xF0, 0xF0, 0, 0x0002, 0⟩),
    ([0xDFC3C3C3, 0xF0000047], Instr.fence ⟨0xF0, 0xF0, 0xF0, 0xF0, 0, 0x0047, 0⟩),
    ([0xDBC3FC0B, 0x00000007], Instr.waitc ⟨0xFF, 2, 7⟩)] : List (List Word × Instr)).all (fun p => dec p.1 p.2) = true := by decide +kernel
theorem test_decode_matrix : ([
    ([0xEBC04BC0, 0xF0000000], Instr.macq ⟨0xF0, 18, 0xF0, 0xF0, 0, 0x0000, 0⟩),
    ([0xEBC3C3C0, 0xF0000001], Instr.mrel ⟨0xF0, 0xF0, 0xF0, 0xF0, 0, 0x0001, 0⟩),
    ([0xE80C4BC1, 0xF0000000], Instr.fbld ⟨3, 18, 0xF0, 0xF0, 0, 0x0000, 0⟩),
    ([0xEBC04BC2, 0xF0000000], Instr.cbld ⟨0xF0, 18, 0xF0, 0xF0, 0, 0x0000, 0⟩),
    ([0xEBC04B0F, 0xF0000007], Instr.scpf ⟨0xF0, 18, 0xC3, 0xF0, 0, 0x0007, 0⟩),
    ([0xEFC3C3C0, 0xF000F000], Instr.aclr ⟨0xF0, 0xF0, 0xF0, 0xF0, 0, 0xF000, 0⟩),
    ([0xEC180BC0, 0xF0000001], Instr.asatr ⟨6, 2, 0xF0, 0xF0, 0, 0x0001, 0⟩),
    ([0xEC180BC1, 0xF0000000], Instr.amov ⟨6, 2, 0xF0, 0xF0, 0, 0x0000, 0⟩),
    ([0xEC084BC2, 0xF0400000], Instr.ald ⟨2, 18, 0xF0, 0xF0, 0x40, 0x0000, 0⟩),
    ([0xEC180BC3, 0x24400080], Instr.ast ⟨6, 2, 0xF0, 36, 0x40, 0x0080, 0⟩),
    ([0xF0084B0C, 0x24000000], Instr.cmma ⟨2, 18, 0xC3, 36, 0, 0x0000, 0⟩),
    ([0xF3C04B0D, 0x24000000], Instr.xfwd ⟨0xF0, 18, 0xC3, 36, 0, 0x0000, 0⟩),
    ([0xF3C04B0D, 0x24000001], Instr.xinv ⟨0xF0, 18, 0xC3, 36, 0, 0x0001, 0⟩),
    ([0xF0184B0D, 0x24000003], Instr.xscl ⟨6, 18, 0xC3, 36, 0, 0x0003, 0⟩),
    ([0xF0184BC1, 0xF0000002], Instr.xdom ⟨6, 18, 0xF0, 0xF0, 0, 0x0002, 0⟩),
    ([0xF0184B0E, 0x24000302], Instr.eroute ⟨6, 18, 0xC3, 36, 0, 0x0302, 0⟩),
    ([0xF3C04BC2, 0xF0000001], Instr.edone ⟨0xF0, 18, 0xF0, 0xF0, 0, 0x0001, 0⟩),
    ([0xF3C04BC3, 0xF0000000], Instr.emerge ⟨0xF0, 18, 0xF0, 0xF0, 0, 0x0000, 0⟩),
    ([0xF0184BC3, 0xF0000001], Instr.eqry ⟨6, 18, 0xF0, 0xF0, 0, 0x0001, 0⟩),
    ([0xE1840829], Instr.mma ⟨3, 8, 16, 2, 9⟩),
    ([0xE4E26341, 0x03F40800], Instr.mloop ⟨⟨1, 0xC4, 0xC6, 4, 1⟩, 0x03F40800⟩)] : List (List Word × Instr)).all (fun p => dec p.1 p.2) = true := by decide +kernel
theorem test_decode_system : ([
    ([0xF7C3C3C0, 0xF0002100], Instr.trap ⟨0xF0, 0xF0, 0xF0, 0xF0, 0, 0x2100, 0⟩),
    ([0xF7C3C3C0, 0xF0002102], Instr.brk ⟨0xF0, 0xF0, 0xF0, 0xF0, 0, 0x2102, 0⟩),
    ([0xF7C3C3C0, 0xF0000001], Instr.tret ⟨0xF0, 0xF0, 0xF0, 0xF0, 0, 0x0001, 0⟩),
    ([0xF4184B0C, 0xF0000003], Instr.lget ⟨6, 18, 0xC3, 0xF0, 0, 0x0003, 0⟩),
    ([0xF4184B0C, 0xF0000004], Instr.lput ⟨6, 18, 0xC3, 0xF0, 0, 0x0004, 0⟩),
    ([0xF7C00FC0, 0xF0000005], Instr.lmsk ⟨0xF0, 3, 0xF0, 0xF0, 0, 0x0005, 0⟩),
    ([0xF41BC3C0, 0xF0000906], Instr.srd ⟨6, 0xF0, 0xF0, 0xF0, 0, 0x0906, 0⟩),
    ([0xF7C04BC0, 0xF0000907], Instr.swr ⟨0xF0, 18, 0xF0, 0xF0, 0, 0x0907, 0⟩),
    ([0xF4184BC0, 0xF0000008], Instr.rgrow ⟨6, 18, 0xF0, 0xF0, 0, 0x0008, 0⟩),
    ([0xF4184BC0, 0xF0000009], Instr.rshrink ⟨6, 18, 0xF0, 0xF0, 0, 0x0009, 0⟩),
    ([0xF4184B0C, 0xF000000A], Instr.launch ⟨6, 18, 0xC3, 0xF0, 0, 0x000A, 0⟩),
    ([0xF4184B0C, 0xF000000B], Instr.draw ⟨6, 18, 0xC3, 0xF0, 0, 0x000B, 0⟩),
    ([0xF7C3C051, 0xF000000C], Instr.fexport 1 ⟨0xF0, 0xF0, 20, 0xF0, 0, 0x000C, 0⟩),
    ([0xF7C04BC0, 0xF000000D], Instr.npbegin ⟨0xF0, 18, 0xF0, 0xF0, 0, 0x000D, 0⟩),
    ([0xF7C3C3C0, 0xF000000E], Instr.npend ⟨0xF0, 0xF0, 0xF0, 0xF0, 0, 0x000E, 0⟩),
    ([0xF7C3C3C0, 0xF000000F], Instr.yield ⟨0xF0, 0xF0, 0xF0, 0xF0, 0, 0x000F, 0⟩),
    ([0xF7C3C3C0, 0xF0000010], Instr.ifence ⟨0xF0, 0xF0, 0xF0, 0xF0, 0, 0x0010, 0⟩),
    ([0xF7C04B0C, 0xF0000011], Instr.icinv ⟨0xF0, 18, 0xC3, 0xF0, 0, 0x0011, 0⟩),
    ([0xF41BC3C0, 0xF0000012], Instr.perfr ⟨6, 0xF0, 0xF0, 0xF0, 0, 0x0012, 0⟩),
    ([0xF7C3C3C0, 0xF0000013], Instr.halt ⟨0xF0, 0xF0, 0xF0, 0xF0, 0, 0x0013, 0⟩)] : List (List Word × Instr)).all (fun p => dec p.1 p.2) = true := by decide +kernel

/-- A launch's record with room for a second block. -/
def launchA : Launch := {
  lrec := { programLrec with rbinit := 2, rbmax := 2, lsbytes := 1024, gdx := 2 }, lrptr := 0, issuer := .queue 0,
  target := .word 0 0, total := 2, next := 1, rbeff := 2, pb0 := 32, pb1 := 64, pb2 := 96 }
def labL : State := (labP.modLaunch 130 fun _ => launchA).modCtx 1 fun c => { c with csave := 0x0010000000100000 }

def drecA : DRec := {
  topo := 0, vlr := 0, zexp := false, flr := 0, icount := 1, vcount := 3, nattr := 0, frontcw := true, cull := 0,
  isz := 0, ibuf := 0, vpsx := 0x41000000, vpsy := 0x41000000, vpox := 0x41000000, vpoy := 0x41000000, layer := 0, dfunc := 7,
  dwrite := false, dh := 0, ch := [0, 0, 0, 0], blend := [0, 0, 0, 0], constc := [0, 0, 0, 0], vout := 0x7000 }

/-- A corner of a triangle at a place on the screen, in 1/256 pixel. -/
def corner (x y : Int) : SetupVertex := { x := x, y := y, z := 0, iw := 0x3F800000, b0 := (0, 0), b1 := (0, 0), b2 := (0, 0) }
def triA : SetupTri := { psn := 0, recs := [], pieces := [[corner 0 0, corner 4096 0, corner 0 4096]], front := true }

/-- A draw of one triangle whose vertices have exited, with one ticket at the head of bank 0 of die 0. -/
def drawA : Draw := {
  drec := drecA, ctx := 1, issuer := .queue 0, home := 0, target := .word 0 0, vlaunch := 141, flaunch := 142,
  flrec := programLrec, psn0 := 0, tris := 1, setup0 := [triA], extW := 64, extH := 64 }
def ticketA : Ticket := { draw := 140, psn := 0, tx := 0, ty := 0, stack := 0, die := 0, bank := 0, followers := [], samples := [], npart := 1 }
def labD : State :=
  let s := labP.modDie 0 fun d => { d with parts := [⟨150, 0, 0, []⟩], queues := [(0, [{ ticket := 150, home := true }])] }
  { s with draws := [(140, drawA)], tickets := [(150, ticketA)]
           launches := (s.launches.insert 141 { launchA with role := .vertex, issuer := .draw 140, total := 1, next := 1, retired := 1 }).insert
             142 { launchA with role := .fragment, issuer := .draw 140, total := 0, next := 0 } }

/-- A request for a page that waits to be written. -/
def prqReq : PrqReq := {
  key := 9, reqid := 0, page := 0x10000, acc := 0, eng := false, why := 0, ctx := 1, level := 0, gva := 0, core := 0,
  written := false }
def missReq : PrqReq := { prqReq with written := true, reqid := 4, page := 0x20000, gva := 0x20000 }
/-- The group waits for a page that its tables do not hold, as a request says that has been written. -/
def labMiss : State := tuned (labP.modPrq 0 1 fun q => { q with reqs := [missReq] }) id fun sp =>
  { sp with park := .page, tokens := [{ tok .pending with key := 9 }] }
def labQ1 : State := labP.modPrq 0 1 fun q => { q with base := 0x20000, reqs := [prqReq] }

theorem witness_LaunchRecordChecks :
    ((match labP.checkLaunch ⟨some 0, 1, false⟩ 0x8000 with
        | .ok c => c.1.code ≤ 9
        | .error _ => false) && (0 < programLrec.groups) && launchA.lrec.fits (launchA.lrec.lanes * 2 * 32) 1) = true := by decide +kernel
theorem witness_LaunchAndDraw :
    (met labP (fun x => badLaunch x.g (e 1 0xC2 0xFF 0xF0 0) && !badLaunch x.g (e 0xC0 0xC2 0xFF 0xF0 0) && !labP.launchFull x.g.issuer &&
        (match (labP.releaseFor x.g 4).checkLaunch ((labP.releaseFor x.g 4).who x.g) 0 with
          | .ok c => c.1.code != 0
          | .error _ => false) && x.g.frag.isNone && (labP.targetOf x.g 0x100 false).isSome) &&
      ((tuned lab id fun sp => { sp with park := .launch }).exOf 128 0).any fun x => x.sp.park == .launch) = true := by decide +kernel
/-- A launch record at 0x8000, of one block of one group of 32 lanes, and the entry descriptor of its kernel at 0x1080. -/
def recBytes : List Byte :=
  ([0x0080000000001080, 0x0000000000400820, 0x0001000100000001, 0x42, 1] : List Dword).flatMap fun d => natToBytes 8 d.toNat
def labM : State := { labP with mem := (labP.mem.writeN 0x18000 recBytes).writeN 0x11080 (natToBytes 4 0xFC004000) }
def fragSet : QuadSet := { draw := 140, psn := 0, die := 0, front := true, recs := [], quads := [] }
/-- The group is one of fragments of draw 140. -/
def labX : State := labD.modGroup 128 fun g => { g with frag := some { set := fragSet } }

/-- The block's 64 launches are outstanding. -/
def labL64 : State := { labP with launches := (List.range 64).map fun k => (k + 140, { launchA with issuer := .block 129 }) }

theorem witness_LaunchAccepted :
    (met labM (fun x => !badLaunch x.g (e 0xF0 0xC2 0xFF 0xF0 0) &&
        yields ((labM.releaseFor x.g 4).checkLaunch ((labM.releaseFor x.g 4).who x.g) 0x8000) (fun c =>
          c.1.code == 0 && (c.2.targetOf x.g 0x100 false).isSome && (c.2.targetOf x.g 0x101 false).isNone)) &&
      met lab (fun x => !yields (lab.checkLaunch (lab.who x.g) 0x8000) (fun _ => true)) &&
      met labL64 (fun x => labL64.launchFull x.g.issuer) &&
      after (exec (.launch (e 0xF0 0xC2 0xFF 0xF0 0)) (labM.modGroup 128 fun g => g.writeS 2 0x8000)) (fun t => t.launches.length == 2) &&
      met labP (fun x => yields (labP.checkDraw (labP.who x.g) x.g 0 0 false) fun c => c.1.code != 0) &&
      met labX (fun x => x.whole && (labX.drawOf x.g).any fun d => !badColour x.g d 0 && badColour x.g d 2 && !d.drec.zexp)) = true := by
  decide +kernel
theorem witness_Rasterization :
    ((triA.tiles 64 64 0).length == 2 && pieceArea [corner 0 0, corner 4096 0, corner 0 4096] != 0 &&
      (pieceArea [corner 0 0, corner 4096 0, corner 0 4096] < 0) != (pieceArea [corner 0 0, corner 4096 0, corner 0 (-4096)] < 0) &&
      (edgesAt [corner 0 0, corner 4096 0, corner 0 4096] 128 128).2 && !(edgesAt [corner 0 0, corner 4096 0, corner 0 4096] 4000 4000).2 &&
      !(triA.quads 64 64 0 0).isEmpty) = true := by decide +kernel
theorem witness_QuadsAndLanes :
    ((triA.quads 64 64 0 0).all (fun q => q.length == 4) && 4 * (triA.quads 64 64 0 0).length ≤ 64 &&
      (triA.quads 64 64 0 0).length == 16) = true := by decide +kernel
theorem witness_DrawPipeline :
    ((labD.draw 140).any (fun d => d.status.isNone && decide (d.nextTri < d.tris) && (labD.earlier 140 d).all (fun k => k.2.tris ≤ k.2.nextTri) &&
        (d.slots d.nextTri).all (labD.slotDone d) && !(d.setup 0).isEmpty && (labD.pendingTickets 0).map (·.1) == [150] &&
        labD.gateOpen 140 d && !labD.drawDone 140 d) && (labD.ctx 1).fatal.isNone &&
      ((labD.modDraw 140 fun d => { d with nextTri := 1, setup0 := [] }).draw 140).isSome && (labD.die 0).parts[0]?.isSome &&
      (labD.bankQueue 0 0).head?.any (fun k => k.home && (labD.tickets.find k.ticket).isSome) && (labD.depthNext 0 0).isSome &&
      (State.reset.die 0).parts[0]?.isNone && (labP.quadOrder 0).isEmpty) = true := by decide +kernel
theorem witness_PagesAndTlbs :
    (((labQ1.prq 0 1).reqs.find? fun r => !r.written) == some prqReq && (labQ1.prq 0 1).room &&
      !((labQ1.modPrq 0 1 fun q => { q with base := 0x20000, prod := 128 }).prq 0 1).room &&
      (((labQ1.modPrq 0 1 fun q => { q with reqs := [{ prqReq with written := true, reqid := 4 }] }).prq 0 1).reqs.find?
        fun r => r.written && r.reqid == 4).isSome && ((labQ1.prq 0 1).reqs.find? fun r => r.written && r.reqid == 4).isNone &&
      labMiss.holders 9 == [1] && (labMiss.stillMisses 1 missReq).isSome && labQ1.holders 9 == [] &&
      labP.stillMisses 1 { missReq with gva := 0x8000 } == none && !(labP.wreg (.tlbinv 0)).getLsbD 63 && (labP.setTlbinv 0 0x8002000000000000).wreg (.tlbinv 0) == 0x8002000000000000 &&
      labP.invalidated 0x8002000000000000 0 ⟨1, 1, 0, 65536, 0, false, false, false, true, true, true⟩) = true := by decide +kernel
theorem witness_TlbInvalidation :
    (!labP.tlbBusy 0x8002000000000000 && (labP.modDie 0 fun d => { d with atoms := [atomReq] }).tlbBusy 0x8002000000000000 &&
      !(labP.modDie 0 fun d => { d with atoms := [atomReq] }).tlbBusy 0x8004000000000000 && !(State.reset.ctx 5).en &&
      (labP.ctx 1).en && (524288 : Nat) / 524288 != labP.pkg.hslot) = true := by decide +kernel
theorem witness_QueuesAndHost :
    (!(State.reset.queue 127).en && (labQ.queue 0).en && (0x8000000000000000 : Dword).getLsbD 63 && !labQ.isFull 0 0x78 &&
      ((labQ.setFull 0 0x78 true).isFull 0 0x78) && labQ.pkg.hostpkg == labQ.pkg.pkgid && (labQ.woken 0 15).isNone &&
      ((labQ.modQueue 0 fun k => { k with waits := [⟨0, 0, some 0, .stfe, 120, false, 7, none, 5, 1⟩] }).woken 0 15).isSome &&
      (labQ.modPkg fun p => { p with hostpkg := 1 }).pkg.hostpkg != labQ.pkg.pkgid) = true := by decide +kernel
theorem witness_ContextsAndWindow :
    (!(State.reset.ctx 4095).en && (lab.ctx 1).en && !lab.ctxIdle 1 && ((State.reset.modCtx 2 fun c => { c with en := true }).ctxIdle 2) &&
      (lab.ctx 1).fatal.isNone && ((lab.modCtx 1 fun c => { c with fatal := some ⟨0x10, 0, 0x1084, 0, some 128, 0, []⟩ }).ctx 1).fatal.isSome &&
      (wregAt 4).isNone && !((State.reset.die 7).tiles.any (·.away)) && ((labK.die 0).tiles.any (·.away)) &&
      (lab.blocks.any fun b => b.2.ctx == 1)) = true := by decide +kernel
theorem witness_ChoiceOfCore :
    ((labL.placeOrder.map (·.1)) == [130] && labL.toPlace launchA && (labL.fitBlock launchA 1).isSome &&
      (lab.fitBlock { launchA with pb0 := 16 } 0).isNone) = true := by decide +kernel
theorem witness_Swizzle : (7 : Nat) < 8 ∧ { Bind.of 0 with kind := 6 }.kind = 6 := by decide
theorem witness_BlockLifeAndCompletion :
    ((labL.placeOrder.head?.any fun k => !k.2.wantsAll && (labL.placeNext k.1 k.2 true).isSome) &&
      ((labL.modBlock 129 fun b => { b with phase := .tamper }).block 129).any (fun b =>
        (labL.modBlock 129 fun b => { b with phase := .tamper }).startable b launchA) &&
      (lab.block 129).any (fun b => !lab.retirable 129 b && !b.dying) && ({ lab with groups := [] } : State).retirable 129
        { launch := 130, ctx := 1, lin := 0, core := 0, phase := .running } &&
      (lab.group 128).any (fun g => !lab.slotFree 128 g) && ((labG fun g => { g with live := 0, splits := [] }).group 128).any (fun g =>
        (labG fun g => { g with live := 0, splits := [] }).slotFree 128 g) &&
      ((labG fun g => { g with live := 0, res := .evicted }).group 128).any (fun g => g.live == 0 && !g.isQueue &&
        !(labG fun g => { g with live := 0, res := .evicted }).slotFree 128 g) && (lab.launch 130).any (fun l => !lab.over l) &&
      ((lab.modLaunch 130 fun l => { l with retired := 1 }).launch 130).any (fun l => lab.over l) &&
      (lab.completeTo (.word 0 0) 1 0).isSome && ((lab.setFull 0 0 true).completeTo (.word 0 0) 1 0).isNone &&
      (lab.woken 0 0).isNone) = true := by decide +kernel
theorem witness_BlockKill :
    (((labL.modBlock 129 fun b => { b with dying := true }).block 129).any (fun b => b.dying && b.ttokens.isEmpty) &&
      yields (labL.addUses (some 0) 1 false ([129].flatMap fun k => labL.usesOf k)) (fun _ => true)) = true := by decide +kernel
/-- The group's block is away; the group alone is away; the register region is full. -/
def labAway : State := (lab.modBlock 129 fun b => { b with resident := false }).modGroup 128 fun g => { g with res := .evicted }
def labBack : State := lab.modGroup 128 fun g => { g with res := .evicted }
def labFull : State := labR.modCore 0 fun c => { c with poolb0 := 0 }

theorem witness_Returns :
    ((labAway.block 129).any (fun b => (labAway.restoreWhole 129 0 b launchA).isSome && (labAway.restoreWhole 129 325 b launchA).isNone) &&
      !(labBack.nextBack 129).isEmpty && (labBack.block 129).any (fun b => labBack.fitsBack b (labBack.nextBack 129)) &&
      (labFull.rbHead 0).isSome && labFull.groupsOn 0 != [] && (labFull.groupsOn 0).all (fun e => e.2.parked && e.2.res == .resident) &&
      (labFull.prefixOf none false (fun u => decide (u.regBytes 0 ≤ 0)) (some 7) [128] []).isSome &&
      (lab.group 128).any (fun g => g.res == .resident && !lab.stopped 128 g)) = true := by decide +kernel
theorem witness_EvictionAndReturn :
    ((lab.nextSave 0).isNone && lab.evictionPlan.isNone && (lab.stranded 0).isNone &&
      (labG fun g => { g with res := .evicted }).stranded 0 == some 129 && (lab.group 128).any (fun g => g.team.isNone) &&
      ((labG fun g => { g with res := .draining 0, splits := [] }).nextSave 0) == some 128 &&
      ((lab.modBlock 129 fun b => { b with resident := false }).block 129).any (fun b => !b.resident && !b.dying) &&
      ((tuned (lab.modCore 0 fun c => { c with rbFifo := [⟨128, 0⟩] }) (fun g => { g with rblk := 2 })
        fun sp => { sp with park := .regs 24 none false }).rbHead 0).isSome) = true := by decide +kernel
/-- A package two of whose die links are down, port 17 of which is trained, port 3 has a mode, port 5 is the host port. -/
def labLinks : State := State.reset.modPkg fun p => { p with
  linksDown := [0, 2], ports := [(3, { mode := 1 }), (5, { mode := 2 }), (17, { mode := 1, state := 2, replay := 65535 })] }

theorem witness_LinksAndPorts :
    (labLinks.pkg.linksDown.contains 2 && !labLinks.pkg.linksDown.contains 1 && !State.reset.pkg.linksDown.contains 4 &&
      ([0, 1, 2, 3].all fun k => (([0, 2] ++ [1]) ++ [3]).contains k) && ([0, 1, 2, 3].any fun k => !([0, 2] ++ [1]).contains k) &&
      (labLinks.port 17).state == 2 && (labLinks.port 3).state == 0 && (labLinks.port 3).mode != 0 &&
      (labLinks.pkg.ports.any fun e => e.2.state != 0) && !(State.reset.pkg.ports.any fun e => e.2.state != 0) &&
      (labLinks.pkg.ports.any fun e => e.1 != 3 && e.2.mode == 2) && State.reset.pkg.ports.isEmpty &&
      State.reset.pkg.hostpkg == State.reset.pkg.pkgid && (State.reset.modPkg fun p => { p with hostpkg := 1 }).pkg.hostpkg != 0 &&
      bits 0x2000000000000000 61 60 == 2 && bits 0x1000000000000000 61 60 == 1 && (State.reset.withProgram []).ctxs.any (·.2.en)) =
      true := by decide +kernel
theorem witness_RemoteRequests :
    State.reset.place 0x10003 = .mem 0x10003 ∧
    ((List.replicate 256 (none : Option Byte)).length == 256 && (List.replicate 257 (none : Option Byte)).length == 257 &&
      !State.reset.poisoned 0x10003 4 && ({ State.reset with poison := [0x10006] } : State).poisoned 0x10003 4) = true := by decide +kernel
/-- GO of die 0 or 7 is set, with FULL or without, while a group runs on die 0. -/
def labRst (die : Nat) (v : Dword) (r : RstState := .clearing) : State := lab.modDie die fun d => { d with dierst := v, rst := r }
theorem witness_DieResets :
    (!((lab.die 7).dierst.getLsbD 63) && !lab.pkg.stopped && ([(0, 0x8000000000000000, false), (0, 0xC000000000000000, true),
        (7, 0x8000000000000000, false), (7, 0xC000000000000000, true)] : List (Nat × Dword × Bool)).all (fun c =>
      ((labRst c.1 c.2.1).die c.1).dierst.getLsbD 63 && ((labRst c.1 c.2.1).die c.1).dierst.getLsbD 62 == c.2.2 &&
        ((labRst c.1 c.2.1).clearDie c.1).dieClear c.1 == (c.1 == 7) && ((labRst c.1 c.2.1 .inReset).die c.1).rst == .inReset &&
        ((labRst c.1 c.2.1 .restarting).die c.1).rst == .restarting) &&
      ((labRst 7 0).modPkg fun p => { p with recovery := true }).pkg.recovery && !State.reset.pkg.recovery &&
      (measureAll []).2) = true := by decide +kernel
/-- A die two of whose columns have read 40 and 50 °C. -/
def warmDie : Die := { therm := [(0, { prev := some 40000, used := some 40000 }), (2, { prev := some 50000, used := some 50000 })] }
theorem witness_ThermalSensors :
    (!(warmDie.implausible 1 60000 (warmDie.take 1 60000)) && warmDie.implausible 1 71000 (warmDie.take 1 71000) &&
      warmDie.implausible 1 125001 (warmDie.take 1 125001) && warmDie.implausible 0 31999 (warmDie.take 0 31999) &&
      median (warmDie.readings (neighbours 1)) == some 45000 && maxInt (warmDie.readings (neighbours 1)) == some 50000 &&
      after (exec (.thermalSensorReading 7 39 115000) State.reset) (fun t => ((t.die 7).col 39).used == some 115000 && t.pkg.stopped) &&
      ((State.reset.modDie 3 fun d => { d with noPlausible := some 4096 }).die 3).noPlausible == some 4096 &&
      ((State.reset.modDie 3 fun d => { d with noPlausible := some 4095 }).die 3).noPlausible == some 4095) = true := by decide +kernel
theorem witness_PackageAgents : State.reset.pkg.stopped = false ∧ (0 : Nat) < 8 ∧ (511 : Nat) < 512 ∧ (17 : Nat) < 18 ∧ (22 : Nat) < 23 := by decide
/-- The core holds a dirty block of package 1, which the fabric manager has made known. -/
def labFar : State := (labC.modCore 0 fun c => { c with l1 :=
  [{ addr := 0x40000000000, words := 1, data := List.replicate 4 0, valid := 15, dirty := 15, scope := 1, idx := 0, used := 1, cmp := false }] }).modPkg
    fun p => { p with domain := [1] }
theorem witness_StepRunsDecoded :
    (let s := State.reset.withFetchWord 32 0x0004080C
     let u := { s with agenda := [] }
     s.agenda == [.issue 128 0] && decodeTableWord 32 0x0004080C == some (.iadd ⟨1, 2, 3, 0⟩) &&
      ((u.exOf 128 0).any fun x => u.mayIssue 128 x.g x.sp && x.g.notif.isNone && x.sp.due.isNone &&
        (x.sp.clause.any fun c => dec c.next (.iadd ⟨1, 2, 3, 0⟩) || c.words.length != 0)) &&
      (u.exOf 128 0).any (fun x => !u.flushFirst x (.iadd ⟨1, 2, 3, 0⟩)) && askedRow (.qcfgDisable 0 0) && !askedRow (.carafeSpill 0 0) &&
      met labFar (fun x => labFar.flushFirst x (.fence (e 0xF0 0xF0 0xF0 0xF0 0x24))) &&
      after (step s) (fun t => (t.group 128).isSome) && (Instr.wdPlaceBlock).isHappening) = true := by decide +kernel

/-! ### Terms that are no instructions -/

/-- One ill-formed term for each check: a literal that nothing calls for, an unused field that is not 0xF0, a mask and a tile
register out of range, an extension word that nothing calls for, a cache policy where none is taken, LD with PREF's destination
and PREF without it, a die, core, bank, queue, table, function, stage, context, window, replica, quadrant, stack, port and column
that do not exist. -/
theorem test_ill_formed : ([
    .iadd ⟨1, 2, 3, 5⟩, .iaddImm ⟨1, 2, 3, 5⟩, .mov ⟨1, 2, 5⟩, .movl ⟨2, 0xC2, 5⟩, .calli ⟨0xC2, 5⟩, .waitc ⟨0xC2, 0, 5⟩,
    .fadd ⟨1, 2, 3, 4, 0, 0, 0⟩, .fadd ⟨1, 2, 3, 0xF0, 0, 0, 5⟩, .icmp ⟨16, 2, 3, 0xF0, 0, 0, 0⟩, .sel ⟨1, 2, 3, 16, 0, 0, 0⟩,
    .fbld ⟨8, 0xC2, 0xF0, 0xF0, 0, 0, 0⟩, .ald ⟨8, 0xC2, 0xF0, 0xF0, 0, 0, 0⟩, .amov ⟨8, 2, 0xF0, 0xF0, 0, 1, 0⟩,
    .lmsk ⟨0xF0, 16, 0xF0, 0xF0, 0, 0x0005, 0⟩, .fexport 0 ⟨0xF0, 8, 24, 0xF0, 0, 0xC, 0⟩, .scpf ⟨0xF0, 0xC0, 0xC1, 0xF0, 0, 0x8000, 0⟩,
    .atom ⟨4, 2, 6, 7, 0, 0, 0⟩, .eroute ⟨4, 2, 6, 7, 0, 0, 0⟩, .ast ⟨0xC0, 1, 0xF0, 3, 0, 0, 0⟩,
    .ld ⟨0xF0, 0xC2, 4, 0, 0, 0, 0⟩, .pref ⟨4, 0xC2, 4, 0, 0, 0, 0⟩, .ld ⟨4, 0xC2, 4, 0, 0, 8, 0⟩, .ldl ⟨4, 0xC2, 4, 1, 0, 0, 0⟩,
    .atomicExecute 8, .promotionRequest 320, .carafeSpill 0 512, .qcfgEnable 128 0, .windowEnd 16, .gqnoteWrite 64 0,
    .pageRequestWrite 0 0, .ctxvfEnable 4096 0, .tlbinvComplete 65, .replicaRetire 0 0 8, .mloopStep 0 4, .ticketIssue 2,
    .queueClauseIssue 8, .thrumriFlitReplay 18, .thermalSensorReading 0 40 0] : List Instr).all (fun i => !i.wf) = true := by decide +kernel
/-- Words that stand for no instruction: the guaranteed illegal major 0x3E and a reserved one, an unused field that is not 0xF0, a
reserved value of MINOR, a modifier that an instruction does not take, a word that ends too early (R136–R138, R152, R153). -/
theorem test_decode_refusals : ([[0xF8000000], [0x68000000], [0x2808040C, 0xF000000E], [0x2808040C, 0x0300000A], [0x2808040C, 0xF040000A],
    [0x2004080C], [0x2808040C], [0x7404040A ||| 0xFC000000]] : List (List Word)).all (fun ws => match decode ws with
      | .ok _ => false
      | .error _ => true) = true := by decide +kernel

/-! ### The worked examples of the spec, one small step or one operation each -/

/-- R12: SAT(200, INT8), FP32 to BF16 on ties; R38: the table of conversions from FP32. -/
theorem test_conversions : ([(7, 1, RMode.rne, true, 0x43480000, 0x7F), (2, 1, .rne, false, 0x3F808000, 0x3F80),
    (2, 1, .rne, false, 0x3F818000, 0x3F82), (2, 1, .rtz, false, 0x3F818000, 0x3F81), (4, 1, .rne, false, 0x43960000, 0x79),
    (4, 1, .rne, false, 0x43FA0000, 0x7F), (4, 1, .rne, true, 0x43FA0000, 0x7E), (5, 1, .rne, false, 0x43FA0000, 0x60),
    (4, 1, .rne, false, 0x3BA3D70A, 0x03)] : List (Nat × Nat × RMode × Bool × Nat × Nat)).all (fun c =>
      (cvtElem c.1 c.2.1 c.2.2.1 c.2.2.2.1 id c.2.2.2.2.1).1 == c.2.2.2.2.2) = true := by decide +kernel
/-- The words given to CVT in the worked example of R193 leave 0.75 in v1 of lane 0. -/
theorem test_cvt : after (exec (.cvt ⟨1, 2, 0xF0, 0xF0, 0, 0x0241, 0⟩) (labG fun g => g.writeV 2 0 0x00340000))
    (fun t => (t.group 128).any fun g => g.readV 1 0 == 0x3F400000 && g.fpstat == 0) = true := by decide +kernel
/-- R181: the low halves of the example leave 0 and the carry. -/
theorem test_iaddc : after (exec (.iaddc ⟨1, 2, 3, 0⟩) (labG fun g => (g.writeV 2 0 0xFFFFFFFF).writeV 3 0 1))
    (fun t => (t.group 128).any fun g => g.readV 1 0 == 0 && g.readM 13 == 1) = true := by decide +kernel
/-- R186: 3 times 5 without carries is 15. -/
theorem test_clmul : after (exec (.clmulLo ⟨1, 2, 3, 0⟩) (labG fun g => (g.writeV 2 0 3).writeV 3 0 5))
    (fun t => (t.group 128).any fun g => g.readV 1 0 == 0xF) = true := by decide +kernel
/-- R196: MOVI v1, 1000. -/
theorem test_movi : after (exec (.movi ⟨1, 1000⟩) lab) (fun t => (t.group 128).any fun g => g.readV 1 31 == 1000) = true := by
  decide +kernel
/-- R202: REDUX.FADD of 2^24, 0.75 and 0.75 is rounded once. -/
theorem test_redux : (redux true 0 .rne [0x4B800000, 0x3F400000, 0x3F400000]).val = 0x4B800001 ∧
    (redux true 0 .rne [0x4B800000, 0x3F400000, 0x3F400000]).flags = fNX := by decide +kernel
/-- R214: the striped Bean offset of the example is canonical 0x48_2468_A780. -/
theorem test_striped : State.reset.place (0x08000000000 + 0x123456780) = .mem 0x482468A780 := by decide +kernel
/-- R26, R223: the slices of the examples. -/
theorem test_slices : ({} : Die).slice 0x1234567880 = 0 ∧
    ({ hashsel := 0x0E02, slicemap := 0x00FEDCA987643210 } : Die).slice 0x1234567880 = 13 := by decide +kernel
/-- R228: the line of the example is stored as BD8. -/
theorem test_line_tag : lineTag ((List.range 32).flatMap fun i => natToBytes 4 (0x40000000 + 3 * i)) = 3 := by decide +kernel
/-- R42: the BF16 step of the example gives 2^24 + 2, exactly; R269: the 2:4 row contributes 160. -/
theorem test_matrix_sum :
    stepElem 1 0 [[FF.bf16.decode 0x4B80, FF.bf16.decode 0x3F80], [FF.bf16.decode 0x3F80, FF.bf16.decode 0x3F80],
      [FF.bf16.decode 0x3F80, FF.bf16.decode 0x3F80]] = (0x4B800001, 0) ∧
    stepElem 1 0 [[FF.bf16.decode 0x4000, FF.bf16.decode 0x41A0], [FF.bf16.decode 0x4040, FF.bf16.decode 0x4220]] = (0x43200000, 0) := by
  decide +kernel
/-- R318: INCW by 3 from 2 leaves 3, 0, 1, 2. -/
theorem test_incw : [2, 3, 0, 1].map (fun n => atomInt (n := 32) 11 n 3 0) = [some 3, some 0, some 1, some 2] := by decide +kernel
/-- R85: five blocks of the example, boundaries 40, 80 and 96. -/
theorem test_boundaries :
    ({ programLrec with width := 64, bdx := 256, rbinit := 4, rbmax := 8, lsbytes := 65536, pb0 := 0, pb1 := 0, pb2 := 0 } : LRec).bounds 8 =
    some (40, 80, 96) := by decide +kernel
/-- The colour surface of the example of R58. -/
def colourSte : Ste :=
  { linearSte with version := 1, cls := 1, evict := true, fmt := 3, ncomp := 3, axes := 1, tshape := 1, dim0 := 7, dim1 := 7 }
theorem test_entry_words : colourSte.toDwords.take 2 = [0x000100000042E301, 0x0000000000070007] := by decide +kernel

end Sys2Proof.Tests
end

section
/-! Settles O60 (PackageAgents): links, ports, messages of other packages, resets, starts, firmware, background work and
thermal sensors (R16, R17, R378–R389). -/

namespace Sys2Proof

/-! ### Tables -/

theorem KV.mem_of_find {α : Type} {m : KV α} {k : Nat} {v : α} (h : m.find k = some v) : (k, v) ∈ m := by
  induction m with
  | nil => cases h
  | cons e t ih =>
    obtain ⟨k', v'⟩ := e
    by_cases hk : k = k'
    · simp_all [KV.find]
    · simp only [KV.find, if_neg hk] at h
      exact List.mem_cons_of_mem _ (ih h)

theorem KV.find_map_values {α β : Type} (g : α → β) (m : KV α) (k : Nat) :
    KV.find (List.map (fun e : Nat × α => (e.1, g e.2)) m) k = (m.find k).map g := by
  induction m with
  | nil => rfl
  | cons e t ih => by_cases hk : k = e.1 <;> simp [KV.find, hk, ih]

/-- Bindings of other keys, each of which may look at the table so far, leave a key's value. -/
theorem KV.find_foldl_insert {α : Type} (g : KV α → Nat → α) {k : Nat} (ks : List Nat) (m : KV α) (h : k ∉ ks) :
    KV.find (ks.foldl (fun m n => KV.insert m n (g m n)) m) k = m.find k := by
  induction ks generalizing m with
  | nil => rfl
  | cons n ns ih =>
    obtain ⟨hn, hns⟩ : k ≠ n ∧ k ∉ ns := by simpa using h
    rw [List.foldl_cons, ih _ hns, KV.find_insert_ne _ _ hn]

namespace Machine

/-! ### Fatal faults of contexts (R355) -/

theorem State.fatal_setFatal (s : State) (k c : Nat) (f : Fatal) :
    ((s.setFatal k f).ctx c).fatal = if c = k then some ((s.ctx c).fatal.getD f) else (s.ctx c).fatal := by
  by_cases hc : c = k
  · subst hc
    cases h : (s.ctx c).fatal <;> simp [State.setFatal, h]
  · simp [State.setFatal, State.ctx_modCtx_ne _ _ hc, hc]

/-- The same fault met by several contexts: the first one of each stands. -/
theorem State.fatal_foldl_setFatal (f : Fatal) (cs : List Nat) (s : State) (c : Nat) :
    ((cs.foldl (fun s k => s.setFatal k f) s).ctx c).fatal =
      if c ∈ cs then some ((s.ctx c).fatal.getD f) else (s.ctx c).fatal := by
  induction cs generalizing s with
  | nil => simp
  | cons k ks ih =>
    rw [List.foldl_cons, ih, State.fatal_setFatal]
    by_cases hk : c = k <;> by_cases hks : c ∈ ks <;> simp [hk, hks]

/-- `t` is `s` but for fatal faults that contexts have met since. -/
structure FaultsAdded (s t : State) : Prop where
  frame : t = { s with ctxs := t.ctxs }
  kept : ∀ c, (s.ctx c).fatal.isSome = true → (t.ctx c).fatal.isSome = true

namespace FaultsAdded

theorem refl (s : State) : FaultsAdded s s := ⟨rfl, fun _ h => h⟩

theorem trans {s t u : State} (h₁ : FaultsAdded s t) (h₂ : FaultsAdded t u) : FaultsAdded s u where
  frame := by rw [h₂.frame, h₁.frame]
  kept c h := h₂.kept c (h₁.kept c h)

theorem mem {s t : State} (h : FaultsAdded s t) : t.mem = s.mem := by rw [h.frame]
theorem groups {s t : State} (h : FaultsAdded s t) : t.groups = s.groups := by rw [h.frame]
theorem pkg {s t : State} (h : FaultsAdded s t) : t.pkg = s.pkg := by rw [h.frame]
theorem die {s t : State} (h : FaultsAdded s t) (d : Nat) : t.die d = s.die d := by rw [h.frame]; rfl

theorem setFatal (s : State) (c : Nat) (f : Fatal) : FaultsAdded s (s.setFatal c f) where
  frame := rfl
  kept k h := by
    rw [State.fatal_setFatal]
    split
    · rfl
    · exact h

theorem atomFatal (s : State) (q : AtomReq) : FaultsAdded s (s.atomFatal q) := by
  unfold State.atomFatal
  split
  · exact setFatal ..
  · exact refl s

theorem foldl {α : Type} {f : State → α → State} (hf : ∀ s a, FaultsAdded s (f s a)) (l : List α) (s : State) :
    FaultsAdded s (l.foldl f s) := by
  induction l generalizing s with
  | nil => exact refl s
  | cons a l ih => exact (hf s a).trans (ih (f s a))

/-- A context that one of the steps makes meet a fatal fault has met one in the end. -/
theorem foldl_meets {α : Type} {f : State → α → State} (hf : ∀ s a, FaultsAdded s (f s a)) {c : Nat} {a : α}
    (ha : ∀ s, ((f s a).ctx c).fatal.isSome = true) {l : List α} (hl : a ∈ l) (s : State) :
    ((l.foldl f s).ctx c).fatal.isSome = true := by
  induction l generalizing s with
  | nil => cases hl
  | cons b l ih =>
    rcases List.mem_cons.1 hl with rfl | hl
    · exact (foldl hf l _).kept c (ha s)
    · exact ih hl _

end FaultsAdded

/-! ### Package faults (R17, R333) -/

theorem State.packageFault_adds (s : State) (why : Nat) :
    FaultsAdded ((s.modPkg fun p => { p with stopped := true }).log .packageFault why 0) (s.packageFault why) :=
  FaultsAdded.foldl (fun _ _ => FaultsAdded.setFatal ..) _ _

theorem State.packageFault_stopped (s : State) (why : Nat) : (s.packageFault why).pkg.stopped = true := by
  rw [(s.packageFault_adds why).pkg]; rfl

/-- An enabled context is one that the state lists. -/
theorem State.mem_enabled {s : State} {c : Nat} (h : (s.ctx c).en = true) : c ∈ (s.ctxs.filter fun e => e.2.en).map (·.1) := by
  cases hc : s.ctxs.find c with
  | none => simp [State.ctx, KV.get, hc] at h
  | some k =>
    simp only [State.ctx, KV.get, hc, Option.getD_some] at h
    exact List.mem_map.2 ⟨(c, k), List.mem_filter.2 ⟨KV.mem_of_find hc, h⟩, rfl⟩

/-- Every enabled context meets cause 0x16, where no fault of its own came first. -/
theorem State.packageFault_fatal {s : State} {c : Nat} (why : Nat) (h : (s.ctx c).en = true) :
    ((s.packageFault why).ctx c).fatal = some ((s.ctx c).fatal.getD (fatalOf 0x16 0 0 0 none 0)) := by
  unfold State.packageFault
  rw [State.fatal_foldl_setFatal, if_pos (State.mem_enabled h)]
  rfl

/-! ### Die links and routes (R16, R17) -/

theorem execDieLinkDown_off {s : State} {link : Nat} (h : 5 ≤ link ∨ link ∈ s.pkg.linksDown) :
    execDieLinkDown link s = .next s := by
  simp [execDieLinkDown, h]

/-- What the loss of a link leaves before the package answers it. -/
def State.linkLost (s : State) (link : Nat) : State :=
  (s.modPkg fun p => { p with linksDown := p.linksDown ++ [link] }).log .dieLink link 0

theorem execDieLinkDown_up {s : State} {link : Nat} (h5 : link < 5) (h : link ∉ s.pkg.linksDown) :
    let all := link = 4 ∨ ∀ i, i < 4 → i ∈ s.pkg.linksDown ++ [link]
    (all → execDieLinkDown link s = .next ((s.linkLost link).packageFault link)) ∧
      (¬ all → execDieLinkDown link s = .next ((s.linkLost link).swapRoutes [])) := by
  intro all
  have hguard : (5 ≤ link || s.pkg.linksDown.contains link) = false := by simp [h, h5]
  have hall : (link = 4 || (List.range 4).all (s.linkLost link).pkg.linksDown.contains) = true ↔ all := by
    simp [all, State.linkLost, State.log]
  have heq : execDieLinkDown link s = .next (if link = 4 || (List.range 4).all (s.linkLost link).pkg.linksDown.contains then
      (s.linkLost link).packageFault link else (s.linkLost link).swapRoutes []) := by
    unfold execDieLinkDown
    rw [hguard]
    rfl
  exact ⟨fun h => by rw [heq, if_pos (hall.2 h)], fun h => by rw [heq, if_neg fun k => h (hall.1 k)]⟩

theorem execDieLinkRestored_up {s : State} {link : Nat} (h : link ∉ s.pkg.linksDown) : execDieLinkRestored link s = .next s := by
  simp [execDieLinkRestored, h]

theorem execDieLinkRestored_down {s : State} {link : Nat} (h : link ∈ s.pkg.linksDown) : execDieLinkRestored link s =
    .next (((s.modPkg fun p => { p with linksDown := p.linksDown.filter fun l => l != link }).log .dieLink link 1).swapRoutes []) := by
  simp [execDieLinkRestored, h]

theorem ringVia_eq_nil (stack x y : Nat) (avoid : List Nat) : ringVia stack x y avoid = [] ↔ x + y ≠ 3 := by
  unfold ringVia
  by_cases h : x + y = 3
  · simp only [h, ne_eq, not_true_eq_false, if_false]
    split <;> split <;> simp
  · simp [h]

theorem routeOf_sameStack (down : List Nat) {a b : Nat} (hs : a / 4 = b / 4) (hab : a ≠ b) :
    routeOf down [] a b = [] ↔ ringNeighbours a b = true := by
  simp [routeOf, hs, hab, ringVia_eq_nil, ringNeighbours]

/-- Traffic crosses at an available link, at the source's own where that one is. -/
theorem crossing_available {down : List Nat} (a b : Nat) (h : ∃ x, x < 4 ∧ x ∉ down) :
    ∃ x, crossing down [] a b = some x ∧ x < 4 ∧ x ∉ down ∧ (a % 4 ∉ down → x = a % 4) := by
  by_cases ha : a % 4 ∈ down
  · have hf : ((List.range 4).find? fun x => !down.contains x).isSome = true := by simpa using h
    obtain ⟨x, hx⟩ := Option.isSome_iff_exists.1 hf
    have hdown : x ∉ down := by simpa using List.find?_some hx
    have hc : crossing down [] a b = some x := by simpa [crossing, ha] using hx
    exact ⟨x, hc, List.mem_range.1 (List.mem_of_find?_eq_some hx), hdown, fun hn => absurd ha hn⟩
  · exact ⟨a % 4, by simp [crossing, ha], by omega, ha, fun _ => rfl⟩

theorem routeOf_otherStack {down : List Nat} {a b x : Nat} (hs : a / 4 ≠ b / 4) (hx : crossing down [] a b = some x) :
    (4 * (a / 4) + x = a ∨ 4 * (a / 4) + x ∈ routeOf down [] a b) ∧
      (4 * (b / 4) + x = b ∨ 4 * (b / 4) + x ∈ routeOf down [] a b) := by
  constructor
  · by_cases hn : 4 * (a / 4) + x = a <;> simp [routeOf, hs, hx, hn]
  · by_cases hn : 4 * (b / 4) + x = b <;> simp [routeOf, hs, hx, hn]

/-! ### Ports (R16, R379, R381) -/

theorem State.port_modPort (s : State) (p : Nat) (f : Port → Port) : (s.modPort p f).port p = f (s.port p) := by
  simp [State.port, State.modPort, KV.get]

/-- Training is lost, and counted, by a retrain of a trained port. -/
theorem execLinkRetrain_port {s : State} {link : Nat} (h5 : 5 ≤ link) (h23 : link < 23) (ht : (s.port (link - 5)).state = 2) :
    execLinkRetrain link s = .next ((s.log .linkRetrain link 0).modPort (link - 5)
      fun k => { k with state := 3, retrain := min 65535 (k.retrain + 1) }) := by
  have hlink : ¬ link < 5 := by omega
  have hport : ¬ 18 ≤ link - 5 := by omega
  have htrained : (KV.get {} s.pkg.ports (link - 5)).state = 2 := ht
  simp only [execLinkRetrain, hlink, hport, htrained]
  rfl

theorem execThrportModeWrite_trained {s : State} {p : Nat} {v : Dword} (hs : (s.port p).state ≠ 0) (hv : bits v 61 60 ≠ 3) :
    execThrportModeWrite p v s = .next s := by
  simp [execThrportModeWrite, hs, hv]

theorem execThrportModeWrite_plain {s : State} {p : Nat} {v : Dword} (hp : p < 18) (hs : (s.port p).state = 0)
    (hv : bits v 61 60 < 2) :
    execThrportModeWrite p v s = .next (s.modPort p fun k => { k with mode := bits v 61 60 }) := by
  have h2 : bits v 61 60 ≠ 2 := by omega
  have h3 : bits v 61 60 ≠ 3 := by omega
  simp [execThrportModeWrite, Nat.not_le.2 hp, hs, h2, h3]

/-- A host port beside another one, or in a package that is not its host's, is refused. -/
theorem execThrportModeWrite_hostRefused {s : State} {p : Nat} {v : Dword} (hp : p < 18) (hs : (s.port p).state = 0)
    (hv : bits v 61 60 = 2) (h : (∃ e ∈ s.pkg.ports, e.1 ≠ p ∧ e.2.mode = 2) ∨ s.pkg.hostpkg ≠ s.pkg.pkgid) :
    execThrportModeWrite p v s = .next (s.log .portMode p 2) := by
  have hrefused : ((s.pkg.ports.any fun e => e.1 != p && e.2.mode == 2) || s.pkg.hostpkg ≠ s.pkg.pkgid) = true := by
    simpa using h
  simp only [execThrportModeWrite, hv, if_neg (Nat.not_le.2 hp), hs, hrefused, Bool.and_true]
  rfl

theorem execThrportModeWrite_hostTaken {s : State} {p : Nat} {v : Dword} (hp : p < 18) (hs : (s.port p).state = 0)
    (hv : bits v 61 60 = 2) (hn : ∀ e ∈ s.pkg.ports, e.1 ≠ p → e.2.mode ≠ 2) (he : s.pkg.hostpkg = s.pkg.pkgid) :
    execThrportModeWrite p v s = .next (s.modPort p fun k => { k with mode := 2 }) := by
  have hfree : ((s.pkg.ports.any fun e => e.1 != p && e.2.mode == 2) || s.pkg.hostpkg ≠ s.pkg.pkgid) = false := by
    simpa [he] using hn
  simp only [execThrportModeWrite, hv, if_neg (Nat.not_le.2 hp), hs, hfree, Bool.and_false]
  rfl

theorem execThrumriPortTrained_up {s : State} {p : Nat} (peer pport : Nat) (hp : p < 18) (hm : (s.port p).mode ≠ 0)
    (hs : (s.port p).state ≠ 2) :
    execThrumriPortTrained p peer pport s =
      .next (s.modPort p fun k => { k with state := 2, peer := peer % 1024, pport := pport % 32 }) := by
  simp [execThrumriPortTrained, Nat.not_le.2 hp, hm, hs]

theorem execThrumriFlitReplay_trained {s : State} {p : Nat} (hp : p < 18) (hs : (s.port p).state = 2) :
    execThrumriFlitReplay p s = .next (s.modPort p fun k => { k with replay := min 65535 (k.replay + 1) }) := by
  simp [execThrumriFlitReplay, Nat.not_le.2 hp, hs]

/-! ### Requests of other packages (R299, R378, R381) -/

/-- An atomic of another package as it waits at a synchronisation engine. -/
def remoteAtom (s : State) (src a op : Nat) (w64 : Bool) (b c : Dword) (rel : Option (Nat × Nat)) (rmt cmp : Bool) : AtomReq :=
  { gid := 0, flight := 0, addr := s.canon a, op := op, w64 := w64, b := b, c := c, cmp := cmp
    core := 320 * src + (rel.map (·.1)).getD 0, lane := 0, scalar := false, dst := none, release := rel.map (·.2)
    rmt := rmt, reply := some src }

section
variable {s : State} {a c : Nat} (src : Nat) (h : s.place a = .mem c)
include h

theorem remoteWrite_lands {bs : List (Option Byte)} (cmp : Bool) (hb : bs.length ≤ 256) :
    execThrumriRemoteAccess ⟨src, a, .write bs cmp⟩ s = .next ((s.homeWrite (s.canon a) bs cmp).answerTo src []) := by
  simp [execThrumriRemoteAccess, h, Nat.not_lt.2 hb]

theorem remoteWrite_tooLong {bs : List (Option Byte)} (cmp : Bool) (hb : 256 < bs.length) :
    execThrumriRemoteAccess ⟨src, a, .write bs cmp⟩ s = .next s := by
  simp [execThrumriRemoteAccess, h, hb]

theorem remoteRead_poisoned {n : Nat} (hp : s.poisoned a n = true) :
    execThrumriRemoteAccess ⟨src, a, .read n⟩ s = .next ((s.reports a n).answerTo src []) := by
  simp [execThrumriRemoteAccess, h, hp]

theorem remoteRead_answered {n : Nat} (hp : s.poisoned a n = false) :
    execThrumriRemoteAccess ⟨src, a, .read n⟩ s = .next ((s.homeRead a n).2.answerTo src (s.homeRead a n).1) := by
  simp [execThrumriRemoteAccess, h, hp]

/-- An atomic of another package joins the queue of its line's die, to be answered there. -/
theorem remoteAtomic_joins (op : Nat) (w64 : Bool) (b k : Dword) (rel : Option (Nat × Nat)) (rmt cmp : Bool) :
    ∃ q : AtomReq, execThrumriRemoteAccess ⟨src, a, .atomic op w64 b k rel rmt cmp⟩ s =
        .next (s.modDie (homeDie c) fun d => { d with atoms := d.atoms ++ [q] }) ∧
      q.addr = s.canon a ∧ q.op = op ∧ q.w64 = w64 ∧ q.b = b ∧ q.c = k ∧ q.cmp = cmp ∧ q.reply = some src := by
  have heq : execThrumriRemoteAccess ⟨src, a, .atomic op w64 b k rel rmt cmp⟩ s =
      .next (s.modDie (homeDie c) fun d => { d with atoms := d.atoms ++ [remoteAtom s src a op w64 b k rel rmt cmp] }) := by
    simp only [execThrumriRemoteAccess, h]
    rfl
  exact ⟨_, heq, rfl, rfl, rfl, rfl, rfl, rfl, rfl⟩

end

theorem remotePromote_sent (s : State) (src a : Nat) {k : Nat} (hk : k < 320) :
    execThrumriRemoteAccess ⟨src, a, .promote k⟩ s = .next ((s.release k 4).modPkg fun p =>
      { p with sent := p.sent ++ [⟨(s.release k 4).pkg.pkgid, a, .promoted⟩] }) := by
  simp [execThrumriRemoteAccess, Nat.not_le.2 hk, State.modPkg]

theorem remoteRegister_named (s : State) (src a : Nat) {T k : Nat} (hT : T < 16) (hk : k < 320) :
    execThrumriRemoteAccess ⟨src, a, .register T k⟩ s = .next (s.registerName T (320 * src + k)) := by
  simp [execThrumriRemoteAccess, hT, hk]

theorem remoteNotice_acknowledged (s : State) (src a T k e : Nat) (v : Word) :
    execThrumriRemoteAccess ⟨src, a, .notice T k e v⟩ s = .next (s.send [⟨s.pkg.pkgid, src * 2 ^ 42, .noticed T k e v⟩]) := by
  simp [execThrumriRemoteAccess]

theorem remoteNoticed_removes (s : State) (src a T k e : Nat) (v : Word) :
    execThrumriRemoteAccess ⟨src, a, .noticed T k e v⟩ s = .next (s.modTable T fun t =>
      { t with notices := t.notices.filter fun n => !(n.core == 320 * src + k && n.expert == e && n.version == v) }) := by
  simp [execThrumriRemoteAccess]

theorem remoteHostWrite_arrives (s : State) (src a : Nat) (bs : List Byte) :
    execThrumriRemoteAccess ⟨src, a, .hostWrite bs⟩ s = .next (s.hostArrives src (a % 2 ^ 42) (some bs) bs.length) := by
  simp [execThrumriRemoteAccess]

theorem remoteHostRead_arrives (s : State) (src a n : Nat) :
    execThrumriRemoteAccess ⟨src, a, .hostRead n⟩ s = .next (s.hostArrives src (a % 2 ^ 42) none n) := by
  simp [execThrumriRemoteAccess]

/-! ### Lost routes (R381) -/

/-- A die without the requests that wait for a package. -/
def State.dieWithout (u : State) (pkg : Nat) (d : Die) : Die :=
  { d with atoms := d.atoms.filter fun q => !u.awaitsPkg d pkg q }

/-- The requests that wait for a package leave the dies' queues. -/
def State.dropAtoms (u : State) (pkg : Nat) : State :=
  { u with dies := List.map (fun (e : Nat × Die) => (e.1, u.dieWithout pkg e.2)) u.dies }

theorem State.atoms_dropAtoms (u : State) (pkg d : Nat) :
    ((u.dropAtoms pkg).die d).atoms = (u.die d).atoms.filter fun q => !u.awaitsPkg (u.die d) pkg q := by
  simp only [State.die, State.dropAtoms, KV.get, KV.find_map_values]
  cases u.dies.find d <;> rfl

/-- Without another path, the reads and writes that the package has to answer and the atomics that wait for it are lost: beyond
their removal, contexts meet fatal faults. -/
theorem execThrumriRouteLost_adds (pkg : Nat) (s : State) :
    ∃ t, execThrumriRouteLost pkg false s = .next t ∧
      FaultsAdded (((s.log .routeLost pkg 0).loseAsked pkg).dropAtoms pkg) t :=
  ⟨_, rfl, FaultsAdded.foldl (f := fun s q => s.atomFatal q) FaultsAdded.atomFatal _ _⟩

theorem State.loseAsked_step (s : State) (a : Await) : FaultsAdded s (match a.ctx with
    | some c => s.setFatal c (fatalOf 0x11 0 0 0 a.gid 0)
    | none => s) := by
  split
  · exact .setFatal ..
  · exact .refl s

theorem State.loseAsked_adds (s : State) (pkg : Nat) :
    FaultsAdded (s.modPkg fun p => { p with awaited := p.awaited.filter fun a => a.msg.addr / 2 ^ 42 != pkg }) (s.loseAsked pkg) :=
  FaultsAdded.foldl State.loseAsked_step _ _

theorem State.loseAsked_awaited (s : State) (pkg : Nat) :
    ∀ a ∈ (s.loseAsked pkg).pkg.awaited, a.msg.addr / 2 ^ 42 ≠ pkg := by
  rw [(s.loseAsked_adds pkg).pkg]
  intro a ha
  simpa using (List.mem_filter.1 ha).2

/-- The context of each request that is lost has met a fatal fault. -/
theorem State.loseAsked_fatal {s : State} {pkg c : Nat} {a : Await} (ha : a ∈ s.pkg.awaited) (hp : a.msg.addr / 2 ^ 42 = pkg)
    (hc : a.ctx = some c) : (((s.loseAsked pkg).ctx c).fatal).isSome = true := by
  have hasked : a ∈ s.askedOf pkg := List.mem_filter.2 ⟨ha, by simpa using hp⟩
  refine FaultsAdded.foldl_meets State.loseAsked_step (fun u => ?_) hasked _
  simp [hc, State.fatal_setFatal]

/-! ### Die resets (R383, R384) -/

theorem State.setDierst_go (s : State) (d : Nat) (full : Bool) (r : RstState) :
    ((s.setDierst d full true r).die d).dierst.getLsbD 63 = true := by
  simp [State.setDierst, bit]

theorem State.setDierst_rst (s : State) (d : Nat) (full go : Bool) (r : RstState) :
    ((s.setDierst d full go r).die d).rst = r := by
  simp [State.setDierst]

theorem State.freshCores_mem (s : State) (d : Nat) : (s.freshCores d).mem = s.mem :=
  List.foldlRecOn (motive := fun t : State => t.mem = s.mem) (coresOf d) _ rfl fun _ h _ _ => h

theorem State.failCopies_mem (s : State) (d : Nat) : (s.failCopies d).mem = s.mem := rfl

theorem State.clearMemory_mem (s : State) (d : Nat) : (s.clearMemory d).mem = s.mem.filter fun e => !(homeDie e.1 == d) := rfl

/-- What a full reset makes of the state before the contexts that it tears down meet their faults. -/
def State.fullReset (s : State) (d : Nat) : State :=
  (((s.freshCores d).failCopies d).clearMemory d).modDie d Die.afterFull

theorem State.fullReset_mem (s : State) (d : Nat) : (s.fullReset d).mem = s.mem.filter fun e => !(homeDie e.1 == d) := by
  rw [State.fullReset, State.modDie_mem, State.clearMemory_mem, State.failCopies_mem, State.freshCores_mem]

section
variable {s : State} {d : Nat} (hd : d < 8) (hs : s.pkg.stopped = false)
include hd hs

theorem execDieResetCompute_start (hgo : (s.die d).dierst.getLsbD 63 = false) :
    execDieResetCompute d s = .next ((s.setDierst d false true .clearing).log .dieReset d 0) := by
  simp [-BitVec.getLsbD_eq_getElem, execDieResetCompute, Nat.not_le.2 hd, hs, hgo]

theorem execDieResetFull_start (hgo : (s.die d).dierst.getLsbD 63 = false) :
    execDieResetFull d s = .next ((s.setDierst d true true .clearing).log .dieReset d 1) := by
  simp [-BitVec.getLsbD_eq_getElem, execDieResetFull, Nat.not_le.2 hd, hs, hgo]

section
variable (hgo : (s.die d).dierst.getLsbD 63 = true)
include hgo

section
variable (hfull : (s.die d).dierst.getLsbD 62 = false)
include hfull

/-- Before its reset a die is cleared, which may take several happenings. -/
theorem execDieResetCompute_clearing (hi : (s.die d).rst ≠ .inReset) (hr : (s.die d).rst ≠ .restarting) :
    execDieResetCompute d s = .next (if (s.clearDie d).dieClear d then
      ((s.clearDie d).holdCores d).setDierst d false true .inReset else s.clearDie d) := by
  cases h : (s.die d).rst with
  | inReset => exact absurd h hi
  | restarting => exact absurd h hr
  | idle | clearing =>
    cases hc : (s.clearDie d).dieClear d <;>
      simp [-BitVec.getLsbD_eq_getElem, execDieResetCompute, Nat.not_le.2 hd, hs, hgo, hfull, h, hc]

theorem execDieResetCompute_inReset (hr : (s.die d).rst = .inReset) :
    execDieResetCompute d s = .next (((s.freshCores d).failCopies d).setDierst d false true .restarting) := by
  simp [-BitVec.getLsbD_eq_getElem, execDieResetCompute, Nat.not_le.2 hd, hs, hgo, hfull, hr]

theorem execDieResetCompute_restarting (hr : (s.die d).rst = .restarting) :
    execDieResetCompute d s = .next (s.setDierst d false false .idle) := by
  simp [-BitVec.getLsbD_eq_getElem, execDieResetCompute, Nat.not_le.2 hd, hs, hgo, hfull, hr]

end

section
variable (hfull : (s.die d).dierst.getLsbD 62 = true)
include hfull

theorem execDieResetFull_clearing (hi : (s.die d).rst ≠ .inReset) (hr : (s.die d).rst ≠ .restarting) :
    execDieResetFull d s = .next (if (s.clearDie d).dieClear d then
      (((s.clearDie d).swapRoutes [d]).holdCores d).setDierst d true true .inReset else s.clearDie d) := by
  cases h : (s.die d).rst with
  | inReset => exact absurd h hi
  | restarting => exact absurd h hr
  | idle | clearing =>
    cases hc : (s.clearDie d).dieClear d <;>
      simp [-BitVec.getLsbD_eq_getElem, execDieResetFull, Nat.not_le.2 hd, hs, hgo, hfull, h, hc]

/-- The reset itself empties the memory homed on the die, and every context that held something of it meets a fatal fault. -/
theorem execDieResetFull_inReset (hr : (s.die d).rst = .inReset) :
    ∃ t : State, execDieResetFull d s = .next (t.setDierst d true true .restarting) ∧
      t.mem = s.mem.filter (fun e => !(homeDie e.1 == d)) ∧ ∀ c ∈ s.hitBy d, (t.ctx c).fatal.isSome = true := by
  have heq : execDieResetFull d s = .next (((s.hitBy d).foldl (fun s c => s.setFatal c (fatalOf 0x11 0 0 0 none 0))
      (s.fullReset d)).setDierst d true true .restarting) := by
    simp [-BitVec.getLsbD_eq_getElem, execDieResetFull, Nat.not_le.2 hd, hs, hgo, hfull, hr, State.fullReset]
  refine ⟨_, heq, ?_, fun c hc => ?_⟩
  · rw [(FaultsAdded.foldl (fun _ _ => .setFatal ..) (s.hitBy d) (s.fullReset d)).mem, State.fullReset_mem]
  · rw [State.fatal_foldl_setFatal, if_pos hc, Option.isSome_some]

theorem execDieResetFull_restarting (hr : (s.die d).rst = .restarting) :
    execDieResetFull d s = .next ((s.setDierst d true false .idle).swapRoutes []) := by
  simp [-BitVec.getLsbD_eq_getElem, execDieResetFull, Nat.not_le.2 hd, hs, hgo, hfull, hr]

end
end
end

/-! ### Starts, firmware (R386, R388) -/

/-- A start touches neither the model's own counts and agenda nor, of the package, what went out and the event log. -/
theorem State.startFrom_frame (s t : State) (fw : List FwImage) :
    s.startFrom t fw = { t with nextId := s.nextId, freeCount := s.freeCount, agenda := s.agenda, pkg := (s.startFrom t fw).pkg } := by
  cases h : (measureAll fw).2 <;> simp only [State.startFrom, h] <;> rfl

theorem State.startFrom_pkg (s t : State) (fw : List FwImage) :
    (s.startFrom t fw).pkg = { t.pkg with
      replies := s.pkg.replies, sent := s.pkg.sent, events := (s.startFrom t fw).pkg.events
      measures := (measureAll fw).1, recovery := !(measureAll fw).2 } := by
  cases h : (measureAll fw).2 <;> simp only [State.startFrom, h] <;> rfl

theorem measureAll_accepted (fw : List FwImage) : (measureAll fw).2 = true ↔ ∀ i ∈ fw, imageAccepted i = true := by
  induction fw with
  | nil => simp [measureAll]
  | cons i fw ih => cases hi : imageAccepted i <;> simp [measureAll, hi, ih]

/-- A start whose stages are all accepted measures each of them. -/
theorem measureAll_measures (fw : List FwImage) (h : (measureAll fw).2 = true) : (measureAll fw).1 = fw.map imageMeasure := by
  induction fw with
  | nil => rfl
  | cons i fw ih =>
    cases hi : imageAccepted i with
    | false => simp [measureAll, hi] at h
    | true =>
      simp only [measureAll, hi, if_true] at h
      simp [measureAll, hi, ih h]

theorem execFirmwareRecoveryImage_running {s : State} (i : FwImage) (h : s.pkg.recovery = false) :
    execFirmwareRecoveryImage i s = .next s := by
  simp [execFirmwareRecoveryImage, h]

theorem execFirmwareRecoveryImage_recovery {s : State} (i : FwImage) (h : s.pkg.recovery = true) :
    execFirmwareRecoveryImage i s = .next (
      if imageAccepted i then s.modPkg fun p => { p with recovery := false, measures := p.measures ++ [imageMeasure i] }
      else s.log .firmware 0 0) := by
  simp [execFirmwareRecoveryImage, h]

/-! ### Background work (R385) -/

/-- `t` is `s` but for its dies, the tiles of which are alike, and for the package's records. -/
structure BackgroundOnly (s t : State) : Prop where
  frame : t = { s with dies := t.dies, pkg := t.pkg }
  tiles : ∀ n, (t.die n).tiles = (s.die n).tiles

theorem BackgroundOnly.modDie {s : State} {d : Nat} {f : Die → Die} (h : (f (s.die d)).tiles = (s.die d).tiles) :
    BackgroundOnly s (s.modDie d f) where
  frame := rfl
  tiles n := by
    by_cases hn : n = d
    · subst hn; rw [State.die_modDie, h]
    · rw [State.die_modDie_ne _ _ hn]

theorem BackgroundOnly.log {s t : State} (h : BackgroundOnly s t) (k : EventKind) (a b : Nat) : BackgroundOnly s (t.log k a b) where
  frame := by rw [h.frame]; rfl
  tiles := h.tiles

theorem countUp_get (m : KV Nat) (k : Nat) : KV.get 0 (countUp m k) k = KV.get 0 m k + 1 := KV.get_put_self ..

theorem execDramRefresh_counts {d : Nat} (k : Nat) (s : State) (hd : d < 8) :
    execDramRefresh d k s = .next (s.modDie d fun d => { d with refresh := countUp d.refresh k }) := by
  simp [execDramRefresh, Nat.not_le.2 hd]

theorem execRowActivationRefresh_counts {d : Nat} (k : Nat) (s : State) (hd : d < 8) :
    execRowActivationRefresh d k s = .next (s.modDie d fun d => { d with acts := countUp d.acts k }) := by
  simp [execRowActivationRefresh, Nat.not_le.2 hd]

/-- The scrub of a bank goes on to its next unit. -/
def State.scrubOn (s : State) (d k : Nat) : State :=
  s.modDie d fun d => { d with scrub := KV.put 0 d.scrub k ((KV.get 0 d.scrub k + 1) % 8192) }

/-- A scrub does no more than go on to the next unit, beside an event for an error that it meets. -/
theorem execCremaPatrolScrub_cases {d : Nat} (k : Nat) (s : State) (hd : d < 8) :
    (512 ≤ k ∧ execCremaPatrolScrub d k s = .next s) ∨
      (k < 512 ∧ (execCremaPatrolScrub d k s = .next (s.scrubOn d k) ∨
        ∃ key, execCremaPatrolScrub d k s = .next ((s.scrubOn d k).log .uncorrectable d key))) := by
  by_cases hk : 512 ≤ k
  · exact .inl ⟨hk, by simp [execCremaPatrolScrub, hk]⟩
  · refine .inr ⟨by omega, ?_⟩
    simp only [execCremaPatrolScrub, Nat.not_le.2 hd, hk, decide_false, Bool.or_self, Bool.false_eq_true, if_false]
    split
    · exact .inr ⟨_, rfl⟩
    · exact .inl rfl

theorem State.scrubOn_background (s : State) (d k : Nat) : BackgroundOnly s (s.scrubOn d k) := .modDie rfl

theorem State.scrubOn_get (s : State) (d k : Nat) :
    KV.get 0 ((s.scrubOn d k).die d).scrub k = (KV.get 0 (s.die d).scrub k + 1) % 8192 := by
  simp [State.scrubOn]

theorem execCremaPatrolScrub_background {d : Nat} (k : Nat) (s : State) (hd : d < 8) :
    ∃ t, execCremaPatrolScrub d k s = .next t ∧ BackgroundOnly s t := by
  have hon := s.scrubOn_background d k
  obtain ⟨-, h⟩ | ⟨-, h | ⟨key, h⟩⟩ := execCremaPatrolScrub_cases k s hd
  · exact ⟨s, h, rfl, fun _ => rfl⟩
  · exact ⟨_, h, hon⟩
  · exact ⟨_, h, hon.log ..⟩

theorem execCremaPatrolScrub_next {d k : Nat} (s : State) (hd : d < 8) (hk : k < 512) :
    ∃ t, execCremaPatrolScrub d k s = .next t ∧ KV.get 0 (t.die d).scrub k = (KV.get 0 (s.die d).scrub k + 1) % 8192 := by
  obtain ⟨h, -⟩ | ⟨-, h | ⟨key, h⟩⟩ := execCremaPatrolScrub_cases k s hd
  · omega
  · exact ⟨_, h, s.scrubOn_get d k⟩
  · exact ⟨_, h, s.scrubOn_get d k⟩

/-- Refreshes and scrubs are background work. -/
theorem exec_background {d : Nat} (k : Nat) (s : State) (hd : d < 8) {i : Instr}
    (hi : i ∈ [Instr.dramRefresh d k, .rowActivationRefresh d k, .cremaPatrolScrub d k]) :
    ∃ t, exec i s = .next t ∧ BackgroundOnly s t := by
  simp only [List.mem_cons, List.not_mem_nil, or_false] at hi
  rcases hi with rfl | rfl | rfl
  · exact ⟨_, execDramRefresh_counts k s hd, .modDie rfl⟩
  · exact ⟨_, execRowActivationRefresh_counts k s hd, .modDie rfl⟩
  · exact execCremaPatrolScrub_background k s hd

/-! ### Thermal sensors (R387) -/

theorem not_mem_neighbours {c : Nat} (hc : c < 40) : c ∉ neighbours c := by
  unfold neighbours
  split <;> split <;> simp <;> omega

theorem maxInt_eq_max? (l : List Int) : maxInt l = l.max? := by
  have hfold (l : List Int) (x : Int) : l.foldl (fun m x => match m with
      | none => some x
      | some y => some (max x y)) (some x) = some (l.foldl max x) := by
    induction l generalizing x with
    | nil => rfl
    | cons y l ih => rw [List.foldl_cons, ih, max_comm]; rfl
  cases l with
  | nil => rfl
  | cons x l => exact hfold l x

theorem Die.implausible_iff (d : Die) (c : Nat) (r : Int) (k : ThermCol) :
    d.implausible c r k = true ↔ r < -20000 ∨ 125000 < r ∨ (∃ p, (d.col c).prev = some p ∧ 8000 < (r - p).natAbs) ∨
      (∃ m, median (d.readings (neighbours c)) = some m ∧ 25000 < (r - m).natAbs) ∨ (4096 ≤ k.repeats ∧ k.moved = true) := by
  unfold Die.implausible
  cases (d.col c).prev <;> cases median (d.readings (neighbours c)) <;> simp [or_assoc]

theorem Die.replacement_neighbours {d : Die} {c : Nat} {m : Int} (h : maxInt (d.readings (neighbours c)) = some m) :
    d.replacement c = some (m + 5000) := by
  simp [Die.replacement, h]

theorem Die.take_prev (d : Die) (c : Nat) (r : Int) : (d.take c r).prev = some r := by
  unfold Die.take
  by_cases h : (d.col c).prev = some r <;> simp [h]

/-- The columns of a die after a reading, and what the neighbours' runs see of it. -/
def Die.columnsAfter (d : Die) (c : Nat) (r : Int) : KV ThermCol :=
  let k := d.take c r
  let bad := d.implausible c r k
  (neighbours c).foldl (fun m n => KV.insert m n ((KV.get {} m n).see c r))
    (KV.insert d.therm c { k with plausible := !bad, used := if bad then d.replacement c else some r })

theorem Die.columnsAfter_self (d : Die) {c : Nat} (r : Int) (hc : c < 40) :
    KV.get {} (d.columnsAfter c r) c =
      { d.take c r with
        plausible := !d.implausible c r (d.take c r)
        used := if d.implausible c r (d.take c r) then d.replacement c else some r } := by
  rw [Die.columnsAfter, KV.get,
    KV.find_foldl_insert (fun (m : KV ThermCol) n => (KV.get {} m n).see c r) _ _ (not_mem_neighbours hc),
    KV.find_insert_self, Option.getD_some]

/-- `t` has the memory and the groups of `s`, and the sensor columns of a die. -/
structure SameColumns (d : Nat) (s t : State) : Prop where
  mem : t.mem = s.mem
  groups : t.groups = s.groups
  therm : (t.die d).therm = (s.die d).therm

namespace SameColumns

variable {d : Nat}

theorem refl (s : State) : SameColumns d s s := ⟨rfl, rfl, rfl⟩

theorem trans {s t u : State} (h₁ : SameColumns d s t) (h₂ : SameColumns d t u) : SameColumns d s u :=
  ⟨h₂.mem.trans h₁.mem, h₂.groups.trans h₁.groups, h₂.therm.trans h₁.therm⟩

theorem log (s : State) (k : EventKind) (a b : Nat) : SameColumns d s (s.log k a b) := ⟨rfl, rfl, rfl⟩

theorem modDie {s : State} {f : Die → Die} (h : (f (s.die d)).therm = (s.die d).therm) : SameColumns d s (s.modDie d f) :=
  ⟨rfl, rfl, by rw [State.die_modDie, h]⟩

theorem packageFault (s : State) (why : Nat) : SameColumns d s (s.packageFault why) where
  mem := (s.packageFault_adds why).mem
  groups := (s.packageFault_adds why).groups
  therm := by rw [(s.packageFault_adds why).die]; rfl

end SameColumns

theorem State.heat_stops {s : State} {d : Nat} {v : Int} (h : 115000 ≤ v) : s.heat d (some v) = s.packageFault (8 + d) := by
  simp [State.heat, h]

theorem State.heat_lowersClock {s : State} {d : Nat} {v : Int} (h95 : 95000 ≤ v) (h115 : v < 115000) :
    s.heat d (some v) = s.lowerClock d := by
  simp [State.heat, h95, Int.not_le.2 h115]

theorem State.heat_cool {s : State} {d : Nat} {v : Int} (h : v < 95000) : s.heat d (some v) = s := by
  have h115 : ¬ 115000 ≤ v := by omega
  simp [State.heat, h115, Int.not_le.2 h]

theorem State.heat_sameColumns (s : State) (d : Nat) (v : Option Int) : SameColumns d s (s.heat d v) := by
  cases v with
  | none => exact .refl s
  | some v =>
    by_cases h115 : 115000 ≤ v
    · rw [State.heat_stops h115]; exact .packageFault ..
    · by_cases h95 : 95000 ≤ v
      · rw [State.heat_lowersClock h95 (by omega)]; exact .modDie rfl
      · rw [State.heat_cool (by omega)]; exact .refl s

/-- A reading enters its column; an implausible one is an event. -/
def State.recordReading (s : State) (d c : Nat) (r : Int) : State :=
  let t := s.modDie d fun k => { k with therm := (s.die d).columnsAfter c r }
  if (s.die d).implausible c r ((s.die d).take c r) then t.log .thermalColumn (64 * d + c) 0 else t

/-- The run of readings without a plausible column of a die goes on or ends, `n` before the reading. -/
def State.countNoPlausible (s : State) (d : Nat) (n : Option Nat) : State :=
  match (List.range 40).all fun c => !((s.die d).col c).plausible, n with
  | true, none =>
    (s.modDie d fun k => { k with noPlausible := some 0, noPlace := true, clockDown := Config.clockSteps }).log .thermalDie d 0
  | true, some n => s.modDie d fun k => { k with noPlausible := some (n + 1) }
  | false, some n => if 4096 ≤ n then s else s.modDie d fun k => { k with noPlausible := none, noPlace := k.dierst.getLsbD 63 }
  | false, none => s

theorem State.countNoPlausible_sameColumns (s : State) (d : Nat) (n : Option Nat) : SameColumns d s (s.countNoPlausible d n) := by
  unfold State.countNoPlausible
  split
  · exact (SameColumns.modDie rfl).trans (.log ..)
  · exact .modDie rfl
  · split
    · exact .refl s
    · exact .modDie rfl
  · exact .refl s

theorem execThermalSensorReading_eq {d c : Nat} (r : Int) (s : State) (hd : d < 8) (hc : c < 40) :
    execThermalSensorReading d c r s = .next (((s.recordReading d c r).countNoPlausible d (s.die d).noPlausible).heat d
      (if (s.die d).implausible c r ((s.die d).take c r) then (s.die d).replacement c else some r)) := by
  simp only [execThermalSensorReading, Nat.not_le.2 hd, Nat.not_le.2 hc, decide_false, Bool.or_self, Bool.false_eq_true, if_false]
  rfl

theorem State.recordReading_mem (s : State) (d c : Nat) (r : Int) : (s.recordReading d c r).mem = s.mem := by
  unfold State.recordReading
  split <;> rfl

theorem State.recordReading_groups (s : State) (d c : Nat) (r : Int) : (s.recordReading d c r).groups = s.groups := by
  unfold State.recordReading
  split <;> rfl

theorem State.recordReading_therm (s : State) (d c : Nat) (r : Int) :
    ((s.recordReading d c r).die d).therm = (s.die d).columnsAfter c r := by
  have hmod : ((s.modDie d fun k => { k with therm := (s.die d).columnsAfter c r }).die d).therm = (s.die d).columnsAfter c r := by
    rw [State.die_modDie]
  unfold State.recordReading
  split
  · exact hmod
  · exact hmod

/-- What a reading leaves of its column, which the clock and the package answer, of memory and of the groups. -/
theorem execThermalSensorReading_leaves {d c : Nat} (r : Int) (s : State) (hd : d < 8) (hc : c < 40) :
    ∃ t u : State, execThermalSensorReading d c r s = .next t ∧ t = u.heat d ((t.die d).col c).used ∧
      (t.die d).col c =
        { (s.die d).take c r with
          plausible := !(s.die d).implausible c r ((s.die d).take c r)
          used := if (s.die d).implausible c r ((s.die d).take c r) then (s.die d).replacement c else some r } ∧
      t.mem = s.mem ∧ t.groups = s.groups := by
  let v := if (s.die d).implausible c r ((s.die d).take c r) then (s.die d).replacement c else some r
  let u := (s.recordReading d c r).countNoPlausible d (s.die d).noPlausible
  have h : SameColumns d (s.recordReading d c r) (u.heat d v) :=
    (State.countNoPlausible_sameColumns ..).trans (State.heat_sameColumns ..)
  have hcol : ((u.heat d v).die d).col c =
      { (s.die d).take c r with plausible := !(s.die d).implausible c r ((s.die d).take c r), used := v } := by
    rw [Die.col, h.therm, State.recordReading_therm, Die.columnsAfter_self _ r hc]
  exact ⟨_, u, execThermalSensorReading_eq r s hd hc, by rw [hcol], hcol, h.mem.trans (s.recordReading_mem d c r),
    h.groups.trans (s.recordReading_groups d c r)⟩

theorem execThermalNoPlausibleTimeout_due {s : State} {d n : Nat} (h : (s.die d).noPlausible = some n) (hn : 4096 ≤ n)
    (hs : s.pkg.stopped = false) : execThermalNoPlausibleTimeout d s = .next (s.packageFault (16 + d)) := by
  simp [execThermalNoPlausibleTimeout, h, hn, hs]

theorem execThermalNoPlausibleTimeout_early {s : State} {d : Nat} (h : ∀ n, (s.die d).noPlausible = some n → n < 4096) :
    execThermalNoPlausibleTimeout d s = .next s := by
  cases hn : (s.die d).noPlausible with
  | none => simp [execThermalNoPlausibleTimeout, hn]
  | some n => simp [execThermalNoPlausibleTimeout, hn, Nat.not_le.2 (h n hn)]

/-! ### The statement -/

/-- Settles O60: clause by clause from the lemmas on links, ports, messages, resets, starts, background work and sensors. -/
theorem packageAgents : Obligations.PackageAgents := by
  unfold Obligations.PackageAgents
  refine ⟨⟨?links, ?faults, ?routes, ?ports, ?requests, ?messages, ?lost⟩, ⟨?resets, ?cold, ?warm, ?measures, ?image, ?quote⟩,
    ⟨?background, ?reading, ?sensor, ?timeout⟩⟩
  case links =>
    intro s link
    refine ⟨execDieLinkDown_off, fun h5 h => execDieLinkDown_up h5 h, execDieLinkRestored_up, execDieLinkRestored_down, ?_, ?_⟩
    · intro h5
      simp [exec_linkRetrain, execLinkRetrain, h5]
    · intro h5 h23 ht
      exact ⟨_, execLinkRetrain_port h5 h23 ht, by rw [State.port_modPort], by rw [State.port_modPort]; rfl, rfl, rfl⟩
  case faults =>
    exact fun s why => ⟨s.packageFault_stopped why, fun c h => by simp [State.packageFault_fatal why h]⟩
  case routes =>
    intro down a b _ _
    refine ⟨routeOf_sameStack down, fun hs hup => ?_⟩
    obtain ⟨x, hx, h4, hdown, hown⟩ := crossing_available a b hup
    exact ⟨x, h4, hdown, hown, routeOf_otherStack hs hx⟩
  case ports =>
    intro s p peer pport v hp
    refine ⟨execThrportModeWrite_trained, execThrportModeWrite_plain hp, fun hv hs => execThrportModeWrite_hostTaken hp hs hv,
      fun hv hs => execThrportModeWrite_hostRefused hp hs hv, execThrumriPortTrained_up peer pport hp,
      execThrumriFlitReplay_trained hp, fun h => ?_, fun h => ?_⟩
    · rw [exec_domcfgWrite, execDomcfgWrite, if_pos h]
    · rw [exec_domcfgWrite, execDomcfgWrite, if_neg (by simp [h])]
  case requests =>
    intro s a src c h
    refine ⟨fun bs cmp => remoteWrite_lands src h cmp, fun bs cmp => remoteWrite_tooLong src h cmp,
      fun n => remoteRead_poisoned src h, fun n => remoteRead_answered src h, ?_, fun k => remotePromote_sent s src a⟩
    intro op w64 b k rel rmt cmp
    obtain ⟨q, heq, hq⟩ := remoteAtomic_joins src h op w64 b k rel rmt cmp
    exact ⟨_, q, heq, rfl, hq⟩
  case messages =>
    intro s a src T k e v
    exact ⟨remoteRegister_named s src a, remoteNotice_acknowledged s src a T k e v,
      ⟨_, remoteNoticed_removes s src a T k e v, rfl, by rw [State.table_modTable]⟩,
      remoteHostWrite_arrives s src a, remoteHostRead_arrives s src a⟩
  case lost =>
    intro s pkg
    refine ⟨rfl, ?_⟩
    obtain ⟨t, heq, h⟩ := execThrumriRouteLost_adds pkg s
    have hlost := (s.log .routeLost pkg 0).loseAsked_adds pkg
    refine ⟨t, heq, h.mem.trans hlost.mem, ?_, fun a ha hp c hc => ?_, fun d => ?_⟩
    · rw [h.pkg]
      exact State.loseAsked_awaited _ pkg
    · exact h.kept c (State.loseAsked_fatal ha hp hc)
    · rw [h.die, State.atoms_dropAtoms]
  case resets =>
    intro s d hd hs
    refine ⟨fun hgo => ⟨execDieResetCompute_start hd hs hgo, execDieResetFull_start hd hs hgo⟩, fun hgo hi hr => ?_,
      fun hgo hr => ⟨fun hf => execDieResetCompute_inReset hd hs hgo hf hr, fun hf => ?_⟩,
      fun hgo hr => ⟨fun hf => execDieResetCompute_restarting hd hs hgo hf hr,
        fun hf => execDieResetFull_restarting hd hs hgo hf hr⟩⟩
    · refine ⟨fun hc => ⟨fun hf => ?_, fun hf => ?_⟩, fun hc => ⟨fun hf => ?_, fun hf => ?_⟩⟩
      · rw [exec_dieResetCompute, execDieResetCompute_clearing hd hs hgo hf hi hr, if_neg (by simp [hc])]
      · rw [exec_dieResetFull, execDieResetFull_clearing hd hs hgo hf hi hr, if_neg (by simp [hc])]
      · rw [exec_dieResetCompute, execDieResetCompute_clearing hd hs hgo hf hi hr, if_pos hc]
      · rw [exec_dieResetFull, execDieResetFull_clearing hd hs hgo hf hi hr, if_pos hc]
    · obtain ⟨t, heq, hmem, hfatal⟩ := execDieResetFull_inReset hd hs hgo hf hr
      refine ⟨_, heq, State.setDierst_go .., State.setDierst_rst .., fun e he => ?_, List.all_eq_true.2 hfatal⟩
      have he' : e ∈ s.mem.filter fun e => !(homeDie e.1 == d) := hmem ▸ he
      simpa using (List.mem_filter.1 he').2
  case cold =>
    intro s fw fs
    refine ⟨_, rfl, ?_⟩
    rw [State.startFrom_frame, State.startFrom_pkg]
    exact ⟨rfl, rfl, rfl, rfl, rfl, rfl, rfl, rfl, rfl, rfl⟩
  case warm =>
    intro s fw
    refine ⟨_, rfl, ?_⟩
    rw [State.startFrom_frame, State.startFrom_pkg]
    exact ⟨rfl, rfl, rfl, rfl, rfl, rfl, rfl, rfl, rfl, rfl⟩
  case measures => exact fun fw => ⟨measureAll_accepted fw, measureAll_measures fw⟩
  case image => exact fun s i => ⟨execFirmwareRecoveryImage_running i, execFirmwareRecoveryImage_recovery i⟩
  case quote => exact fun s n => rfl
  case background =>
    intro s d k hd
    refine ⟨fun i hi => ?_, ⟨_, execDramRefresh_counts k s hd, ?_⟩, ⟨_, execRowActivationRefresh_counts k s hd, ?_⟩,
      execCremaPatrolScrub_next s hd, rfl, rfl⟩
    · obtain ⟨t, heq, h⟩ := exec_background k s hd hi
      refine ⟨t, heq, ?_⟩
      rw [h.frame]
      exact ⟨rfl, rfl, rfl, rfl, rfl, rfl, rfl, h.tiles⟩
    · rw [State.die_modDie, countUp_get]
    · rw [State.die_modDie, countUp_get]
  case reading =>
    intro s d c r hd hc k bad
    obtain ⟨t, u, heq, hheat, hcol, hmem, hgroups⟩ := execThermalSensorReading_leaves r s hd hc
    refine ⟨t, heq, by rw [hcol], by rw [hcol], by rw [hcol, Die.take_prev], fun v hv h115 => ?_, hmem, hgroups⟩
    rw [hheat, hv, State.heat_stops h115, State.packageFault_stopped]
  case sensor =>
    intro d c r k
    refine ⟨d.implausible_iff c r k, fun m => Die.replacement_neighbours, fun l m hm => ?_⟩
    rw [maxInt_eq_max?] at hm
    exact List.max?_eq_some_iff.1 hm
  case timeout =>
    exact fun s d => ⟨fun n => execThermalNoPlausibleTimeout_due, execThermalNoPlausibleTimeout_early⟩

end Machine
end Sys2Proof
end

section
/-! Settles O45 (MatrixSteps): the elements of a matrix step, the entry of operations into arrays and sequencers, and their
steps (R42, R261–R264, R269–R276, R281, R282). -/

namespace Sys2Proof.Machine

/-! ### Elements of a tile (R41) -/

@[simp] theorem Core.tile_setTile_self (c : Core) (q t m n : Nat) (v : Word) : (c.setTile q t m n v).tile q t m n = v :=
  KV.get_put_self 0 c.tiles _ v

/-- Each element of the eight tiles of a quadrant has a place of its own. -/
theorem Core.tile_setTile_ne (c : Core) {q t m n q' t' m' n' : Nat} (v : Word) (ht : t < 8) (hm : m < 16) (hn : n < 16)
    (ht' : t' < 8) (hm' : m' < 16) (hn' : n' < 16) (h : ¬ (q' = q ∧ t' = t ∧ m' = m ∧ n' = n)) :
    (c.setTile q t m n v).tile q' t' m' n' = c.tile q' t' m' n' :=
  KV.get_put_ne 0 c.tiles v (by omega)

/-- What an element of a tile, or of the pair from an even tile, holds of a value written to it. -/
def heldBits (wide : Bool) (v : Dword) : Dword := if wide then v else (v.setWidth 32).setWidth 64

section
variable {wide : Bool} {q t m n m' n' : Nat} (c : Core) (v : Dword)
variable (ht : t < 8) (hw : wide = true → t % 2 = 0) (hm : m < 16) (hn : n < 16) (hm' : m' < 16) (hn' : n' < 16)
include ht hw hm hn

theorem Core.tileVal_setTileVal_self : (c.setTileVal wide q t m n v).tileVal wide q t m n = heldBits wide v := by
  cases wide with
  | false => simp [Core.setTileVal, Core.tileVal, heldBits, BitVec.setWidth_eq_extractLsb']
  | true =>
    have : t % 2 = 0 := hw rfl
    have low : ∀ d : Core, ∀ w, (d.setTile q (t + 1) m n w).tile q t m n = d.tile q t m n := fun d w =>
      d.tile_setTile_ne w (by omega) hm hn ht hm hn (by omega)
    simp [Core.setTileVal, Core.tileVal, heldBits, low, Laws.words]

include hm' hn'

theorem Core.tile_setTileVal_ne {q' k : Nat} (hk : k < 8)
    (h : (q' = q → k ≠ t ∧ (wide = true → k ≠ t + 1)) ∨ m' ≠ m ∨ n' ≠ n) :
    (c.setTileVal wide q t m n v).tile q' k m' n' = c.tile q' k m' n' := by
  cases wide with
  | false => exact c.tile_setTile_ne _ ht hm hn hk hm' hn' (by grind)
  | true =>
    have : t % 2 = 0 := hw rfl
    calc ((c.setTile q t m n _).setTile q (t + 1) m n _).tile q' k m' n'
      _ = (c.setTile q t m n _).tile q' k m' n' := Core.tile_setTile_ne _ _ (by omega) hm hn hk hm' hn' (by grind)
      _ = c.tile q' k m' n' := c.tile_setTile_ne _ ht hm hn hk hm' hn' (by grind)

theorem Core.tileVal_setTileVal_ne (h : m' ≠ m ∨ n' ≠ n) :
    (c.setTileVal wide q t m n v).tileVal wide q t m' n' = c.tileVal wide q t m' n' := by
  have same {k : Nat} (hk : k < 8) : (c.setTileVal wide q t m n v).tile q k m' n' = c.tile q k m' n' :=
    c.tile_setTileVal_ne v ht hw hm hn hm' hn' hk (.inr h)
  cases wide with
  | false => simp [Core.tileVal, same ht]
  | true =>
    have : t % 2 = 0 := hw rfl
    simp [Core.tileVal, same ht, same (k := t + 1) (by omega)]

end

/-! ### One step of an array (R42, R271) -/

/-- The terms of one element of a step. -/
def StepIn.terms (i : StepIn) (m n : Nat) : List (List FV) :=
  (i.rows.getD m []).map fun t => t.2 ++ (i.cols.getD n #[]).getD t.1 []

/-- The sum of one element of a step: the terms and the old value, rounded once (R42). -/
def StepIn.sum (i : StepIn) (c : Core) (m n : Nat) : Dword :=
  (stepElem i.acc (c.tileVal (i.acc == 0) i.quad i.tile m n) (i.terms m n)).1

/-- The part of a step from `c₀` that writes element `e % 16` of row `e / 16`. -/
def Core.stepAt (i : StepIn) (c₀ c : Core) (e : Nat) : Core :=
  c.setTileVal (i.acc == 0) i.quad i.tile (e / 16) (e % 16) (i.sum c₀ (e / 16) (e % 16))

theorem Core.step_core (c : Core) (i : StepIn) : (c.step i).1 = (List.range 256).foldl (Core.stepAt i c) c := by
  unfold Core.step
  generalize List.range 256 = es
  exact (List.foldl_hom Prod.fst fun _ _ => rfl).symm

section
variable {i : StepIn} (ht : i.tile < 8) (hw : (i.acc == 0) = true → i.tile % 2 = 0)
include ht hw

theorem Core.tileVal_foldl_stepAt_ne (c₀ c : Core) {es : List Nat} {m n : Nat} (hm : m < 16) (hn : n < 16)
    (hes : ∀ e ∈ es, e < 256) (h : 16 * m + n ∉ es) :
    (es.foldl (Core.stepAt i c₀) c).tileVal (i.acc == 0) i.quad i.tile m n = c.tileVal (i.acc == 0) i.quad i.tile m n := by
  induction es generalizing c with
  | nil => rfl
  | cons e es ih =>
    obtain ⟨he, hrest⟩ := List.forall_mem_cons.1 hes
    obtain ⟨hne, hnot⟩ := not_or.1 (mt List.mem_cons.2 h)
    rw [List.foldl_cons, ih _ hrest hnot]
    exact c.tileVal_setTileVal_ne _ ht hw (by omega) (by omega) hm hn (by omega)

/-- No part after the element's own one changes what it has written. -/
theorem Core.tileVal_foldl_stepAt (c₀ c : Core) {es : List Nat} {m n : Nat} (hm : m < 16) (hn : n < 16)
    (hes : ∀ e ∈ es, e < 256) (hd : es.Nodup) (h : 16 * m + n ∈ es) :
    (es.foldl (Core.stepAt i c₀) c).tileVal (i.acc == 0) i.quad i.tile m n = heldBits (i.acc == 0) (i.sum c₀ m n) := by
  induction es generalizing c with
  | nil => cases h
  | cons e es ih =>
    obtain ⟨he, hrest⟩ := List.forall_mem_cons.1 hes
    have hd' : es.Nodup := hd.of_cons
    rw [List.foldl_cons]
    by_cases hmem : 16 * m + n ∈ es
    · exact ih _ hrest hd' hmem
    · obtain rfl : 16 * m + n = e := (List.mem_cons.1 h).resolve_right hmem
      rw [Core.tileVal_foldl_stepAt_ne ht hw c₀ _ hm hn hrest hmem, Core.stepAt, show (16 * m + n) / 16 = m by omega,
        show (16 * m + n) % 16 = n by omega]
      exact c.tileVal_setTileVal_self _ ht hw hm hn

theorem Core.tile_foldl_stepAt_ne (c₀ c : Core) {es : List Nat} {q k m n : Nat} (hk : k < 8) (hm : m < 16) (hn : n < 16)
    (hes : ∀ e ∈ es, e < 256) (h : q = i.quad → k ≠ i.tile ∧ ((i.acc == 0) = true → k ≠ i.tile + 1)) :
    (es.foldl (Core.stepAt i c₀) c).tile q k m n = c.tile q k m n := by
  induction es generalizing c with
  | nil => rfl
  | cons e es ih =>
    obtain ⟨he, hes⟩ := List.forall_mem_cons.1 hes
    rw [List.foldl_cons, ih _ hes]
    exact c.tile_setTileVal_ne _ ht hw (by omega) (by omega) hm hn hk (.inl h)

theorem Core.tileVal_step (c : Core) {m n : Nat} (hm : m < 16) (hn : n < 16) :
    (c.step i).1.tileVal (i.acc == 0) i.quad i.tile m n = heldBits (i.acc == 0) (i.sum c m n) := by
  rw [Core.step_core]
  exact Core.tileVal_foldl_stepAt ht hw c c hm hn (fun _ => List.mem_range.1) List.nodup_range (List.mem_range.2 (by omega))

theorem Core.tile_step_ne (c : Core) {q k m n : Nat} (hk : k < 8) (hm : m < 16) (hn : n < 16)
    (h : q = i.quad → k ≠ i.tile ∧ ((i.acc == 0) = true → k ≠ i.tile + 1)) : (c.step i).1.tile q k m n = c.tile q k m n := by
  rw [Core.step_core]
  exact Core.tile_foldl_stepAt_ne ht hw c c hk hm hn (fun _ => List.mem_range.1) h

end

/-! ### Instructions that no queue program has -/

theorem kernelOnly_queue {s : State} {x : Ex} (h : s.ex? = some x) (k : Ex → State) (hq : x.g.isQueue = true) :
    s.kernelOnly k = .next (s.illegal x) := by
  rw [kernelOnly_eq h, if_pos hq]

theorem kernelOnly_group {s : State} {x : Ex} (h : s.ex? = some x) (k : Ex → State) (hq : x.g.isQueue = false) :
    s.kernelOnly k = .next (k x) := by
  rw [kernelOnly_eq h, hq]; rfl

/-! ### Fields of operands -/

theorem flags_sp (f : BitVec 4) : (f.extractLsb' 1 3).toNat = f.toNat / 2 := by
  rw [BitVec.extractLsb'_toNat, Nat.shiftRight_eq_div_pow]; omega

theorem stepCount_eq (w : Word) : stepCount w = w.toNat / 2 ^ 20 + 1 := by
  rw [stepCount, BitVec.extractLsb'_toNat, Nat.shiftRight_eq_div_pow]; omega

theorem cmmaBlocks_eq (w : Word) : (w.extractLsb' 16 16).toNat = w.toNat / 2 ^ 16 := by
  rw [BitVec.extractLsb'_toNat, Nat.shiftRight_eq_div_pow]; omega

theorem cmmaBin_eq (w : Word) : (w.extractLsb' 0 8).toNat = w.toNat % 256 := by
  rw [BitVec.extractLsb'_toNat, Nat.shiftRight_zero]

/-! ### MMA (R270–R273) -/

/-- The share of an MMA in its step: its fragments as they are read at issue (R269, R272). -/
def Ex.share (x : Ex) (o : XOps) : Share :=
  let descA := x.g.readF o.f.toNat
  let descB := x.g.readF (o.f.toNat ^^^ 1)
  let sp := o.flags.toNat / 2
  let ra := (o.a.toNat, fragRegsA (Fbd.of descA).fmt sp)
  let rb := (o.b.toNat, fragRegsB (Fbd.of descB).fmt sp (o.flags.getLsbD 0))
  { gid := x.gid, quad := x.g.quad, acc := o.acc.toNat, descA := descA, pc := x.sp.pc, fa := x.g.capture ra.1 ra.2
    fb := x.g.capture rb.1 rb.2, born := x.g.icount, regs := [ra, rb] }

section
variable {s : State} {x : Ex} {o : XOps} (h : s.ex? = some x) (hq : x.g.isQueue = false)
include h hq

theorem execMma_refused {n : Nope} (hp : s.planMma x o = .error n) : execMma o s = .next (s.nope x n) := by
  rw [execMma, kernelOnly_group h _ hq, hp]
  cases n <;> rfl

theorem execMma_unlike (hp : s.planMma x o = .ok ()) (ht : o.flags.getLsbD 0 = true)
    (hj : (s.core x.g.core).joinStep x.g.blk x.g.ctx (x.g.readF (o.f.toNat ^^^ 1)) (o.flags.toNat / 2) (x.share o) = none) :
    execMma o s = .next (s.illegal x) := by
  rw [Ex.share] at hj
  rw [execMma, kernelOnly_group h _ hq, hp]
  simp only [ht, if_true, flags_sp] at hj ⊢
  rw [hj]

theorem execMma_joins {c : Core} (hp : s.planMma x o = .ok ()) (ht : o.flags.getLsbD 0 = true)
    (hj : (s.core x.g.core).joinStep x.g.blk x.g.ctx (x.g.readF (o.f.toNat ^^^ 1)) (o.flags.toNat / 2) (x.share o) = some c) :
    execMma o s = .next ((s.setCore x.g.core c).finish x) := by
  rw [Ex.share] at hj
  rw [execMma, kernelOnly_group h _ hq, hp]
  simp only [ht, if_true, flags_sp] at hj ⊢
  rw [hj]

theorem execMma_alone (hp : s.planMma x o = .ok ()) (ht : o.flags.getLsbD 0 = false) :
    execMma o s =
      let c := s.core x.g.core
      let t : TeamStep := ⟨1, x.g.blk, x.g.ctx, x.g.readF (o.f.toNat ^^^ 1), o.flags.toNat / 2, [x.share o], []⟩
      .next (((s.finish x).setCore x.g.core { c with teamSteps := c.teamSteps ++ [t] }).runStep x.g.core c.teamSteps.length) := by
  rw [execMma, kernelOnly_group h _ hq, hp]
  simp only [ht, Bool.false_eq_true, if_false, flags_sp, Ex.share]

end

/-! ### Team steps (R264, R273) -/

/-- A step that may be computed: it has its shares and waits for no page. -/
def TeamStep.ready (t : TeamStep) : Bool := t.shares.length == t.need && !anyPending t.tokens

theorem Core.readyStep_none {c : Core} (h : ∀ t ∈ c.teamSteps, t.ready = false) : c.readyStep = none :=
  List.findIdx?_eq_none_iff.2 h

theorem Core.readyStep_first {c : Core} {before after : List TeamStep} {t : TeamStep}
    (hc : c.teamSteps = before ++ t :: after) (hb : ∀ b ∈ before, b.ready = false) (ht : t.ready = true) :
    c.readyStep = some before.length := by
  have hnone : before.findIdx? TeamStep.ready = none := List.findIdx?_eq_none_iff.2 hb
  change c.teamSteps.findIdx? TeamStep.ready = _
  simp [hc, List.findIdx?_append, hnone, List.findIdx?_cons, ht]

theorem execTeamStep_none {s : State} {core : Nat} (h : ∀ t ∈ (s.core core).teamSteps, t.ready = false) :
    execTeamStep core s = .next s := by
  rw [execTeamStep, Core.readyStep_none h]

theorem execTeamStep_first {s : State} {core : Nat} {before after : List TeamStep} {t : TeamStep}
    (hc : (s.core core).teamSteps = before ++ t :: after) (hb : ∀ b ∈ before, b.ready = false) (ht : t.ready = true) :
    execTeamStep core s = .next (
      if anyInvalid t.tokens then s.invalidEngine t.ctx core t.blk ((t.shares.map (·.pc)).headD 0) t.tokens
      else s.runStep core before.length) := by
  have hat : (s.core core).teamSteps[before.length]? = some t := by simp [hc]
  rw [execTeamStep, Core.readyStep_first hc hb ht]
  simp only [hat]

/-! ### What a write-back to the homes leaves of the cores (R219–R222) -/

theorem State.l2Evict_cores (s : State) (line : Nat) : (s.l2Evict line).cores = s.cores := by
  unfold State.l2Evict
  split
  · rfl
  · dsimp only; split <;> rfl

theorem State.l2Room_cores (s : State) (line : Nat) : (s.l2Room line).cores = s.cores := by
  unfold State.l2Room
  dsimp only
  split
  · rfl
  · split
    · exact s.l2Evict_cores _
    · rfl

theorem State.fillBad_cores (s : State) (line : Nat) (m : BitVec 4) : (s.fillBad line m).cores = s.cores := by
  unfold State.fillBad
  split <;> rfl

theorem State.l2Fill_cores (s : State) (line : Nat) (m : BitVec 4) : (s.l2Fill line m).cores = s.cores := by
  unfold State.l2Fill
  split
  · split
    · rfl
    · exact s.fillBad_cores line m
  · exact ((s.l2Room line).fillBad_cores line m).trans (s.l2Room_cores line)

theorem State.homePuts_cores (s : State) (pa : Nat) (cmp : Bool) (bs : List (Option Byte)) :
    (s.homePuts pa cmp bs).cores = s.cores := by
  induction bs generalizing s pa with
  | nil => rfl
  | cons b t ih =>
    refine (ih _ _).trans ?_
    split
    · exact s.l2Fill_cores _ 15
    · rfl

theorem State.homeWrite_cores (s : State) (pa : Nat) (bs : List (Option Byte)) (cmp : Bool) :
    (s.homeWrite pa bs cmp).cores = s.cores := by
  unfold State.homeWrite
  split
  · rfl
  · exact s.homePuts_cores pa cmp bs

theorem State.spoil_cores (s : State) (pas : List Nat) : (s.spoil pas).cores = s.cores := by
  unfold State.spoil
  induction pas generalizing s with
  | nil => rfl
  | cons pa t ih =>
    rw [List.foldl_cons, ih]
    split <;> rfl

/-! ### What clearing an L1 leaves of its core's engines (R221) -/

/-- `t` has the sequencers and the range locks of a core as `s` has them. -/
structure EnginesKept (core : Nat) (s t : State) : Prop where
  seqs : (t.core core).seqs = (s.core core).seqs
  locks : (t.core core).locks = (s.core core).locks

namespace EnginesKept

variable {core : Nat} {s t u : State}

theorem refl (core : Nat) (s : State) : EnginesKept core s s := ⟨rfl, rfl⟩

theorem trans (h₁ : EnginesKept core s t) (h₂ : EnginesKept core t u) : EnginesKept core s u :=
  ⟨h₂.seqs.trans h₁.seqs, h₂.locks.trans h₁.locks⟩

theorem of_cores (h : t.cores = s.cores) : EnginesKept core s t := by
  constructor <;> rw [State.core, h] <;> rfl

theorem modCore (f : Core → Core) (hs : (f (s.core core)).seqs = (s.core core).seqs)
    (hl : (f (s.core core)).locks = (s.core core).locks) : EnginesKept core s (s.modCore core f) := by
  constructor <;> rwa [State.core_modCore]

theorem l1Back (core : Nat) (s : State) (b : L1Block) : EnginesKept core s (s.l1Back core b) := by
  unfold State.l1Back
  split
  · exact refl core s
  · exact (modCore _ rfl rfl : EnginesKept core s (s.count core 5)).trans
      (of_cores ((State.spoil_cores _ _).trans (State.homeWrite_cores _ _ _ _)))

theorem l1Leave (core : Nat) (s : State) (bs : List L1Block) : EnginesKept core s (s.l1Leave core bs) := by
  induction bs generalizing s with
  | nil => exact refl core s
  | cons b t ih => exact ((l1Back core s b).trans (modCore _ rfl rfl)).trans (ih _)

theorem l1BackWhere (core : Nat) (s : State) (p : L1Block → Bool) : EnginesKept core s (s.l1BackWhere core p) := by
  unfold State.l1BackWhere
  refine trans ?_ (modCore _ rfl rfl)
  generalize (s.core core).l1 = bs
  induction bs generalizing s with
  | nil => exact refl core s
  | cons b t ih =>
    rw [List.foldl_cons]
    split
    · exact (l1Back core s b).trans (ih _)
    · exact ih s

theorem l1Clear (core : Nat) (s : State) (both dst : Nat → Bool) : EnginesKept core s (s.l1Clear core both dst) :=
  (l1BackWhere core s _).trans (l1Leave core _ _)

end EnginesKept

/-! ### Entering a sequencer (R61, R263, R276) -/

/-- Registering ranges adds their entries to the table. -/
theorem State.register_leaves (s : State) (k : Who) (core op : Nat) (rs : List Reg) :
    ((s.register k core op rs).core core).seqs = (s.core core).seqs ∧
    ∃ ks, ((s.register k core op rs).core core).locks = (s.core core).locks ++ ks ∧
      (ks.map fun l => (l.op, l.ctx, l.range, l.write)) = rs.map fun r => (op, k.ctx, r.range, r.write) := by
  unfold State.register
  dsimp only
  rw [State.core_modCore]
  have kept := EnginesKept.l1Clear core s
  refine ⟨(kept _ _).seqs, _, congrArg (· ++ _) (kept _ _).locks, ?_⟩
  rw [List.map_map]
  rfl

theorem State.finish_core (s : State) (x : Ex) (core : Nat) : (s.finish x).core core = s.core core := rfl

theorem State.sequence_full {s : State} {x : Ex} {p : Plan} (q : SeqOp)
    (h : 32 < (s.core x.g.core).locks.length + p.regs.length) : s.sequence x p q = s := by
  have : (s.core x.g.core).room p.regs.length = false := by simpa [Core.room] using h
  simp [State.sequence, this]

theorem State.sequence_room {s : State} {x : Ex} {p : Plan} (q : SeqOp)
    (h : (s.core x.g.core).locks.length + p.regs.length ≤ 32) (hu : p.uses = []) :
    s.sequence x p q =
      (({ s with nextId := s.nextId + 1 }.register (s.who x.g) x.g.core s.nextId p.regs).modCore x.g.core fun c =>
        { c with seqs := c.seqs ++ [{ q with id := s.nextId, uses := [], descs := p.descs }] }).finish x := by
  have : (s.core x.g.core).room p.regs.length = true := by simpa [Core.room] using h
  simp only [State.sequence, this, hu]
  rfl

theorem State.sequence_leaves {s : State} {x : Ex} {p : Plan} (q : SeqOp)
    (h : (s.core x.g.core).locks.length + p.regs.length ≤ 32) (hu : p.uses = []) :
    ((s.sequence x p q).core x.g.core).seqs =
      (s.core x.g.core).seqs ++ [{ q with id := s.nextId, uses := [], descs := p.descs }] ∧
    ∃ ks, ((s.sequence x p q).core x.g.core).locks = (s.core x.g.core).locks ++ ks ∧
      (ks.map fun k => (k.op, k.ctx, k.range, k.write)) = p.regs.map fun r => (s.nextId, x.g.ctx, r.range, r.write) := by
  obtain ⟨hseqs, hlocks⟩ := { s with nextId := s.nextId + 1 }.register_leaves (s.who x.g) x.g.core s.nextId p.regs
  rw [State.sequence_room q h hu, State.finish_core, State.core_modCore]
  exact ⟨congrArg (· ++ _) hseqs, hlocks⟩

/-! ### MLOOP and CMMA (R274–R276, R281, R282) -/

/-- The operation that an MLOOP enters. -/
def State.loopOp (s : State) (x : Ex) (o : MloopOps) : SeqOp :=
  { id := 0, gid := x.gid, ctx := x.g.ctx, blk := x.g.blk, quad := x.g.quad, acc := o.x.acc.toNat, complex := false
    team := o.x.flags.getLsbD 0, sp := o.x.flags.toNat / 2, pairA := s.readUni x 0 .i64 o.x.a, pairB := s.readUni x 0 .i64 o.x.b
    descA := x.g.readF o.x.f.toNat, descB := x.g.readF (o.x.f.toNat ^^^ 1), stepWord := o.step, bin := 0
    steps := o.step.toNat / 2 ^ 20 + 1, rank := if o.x.flags.getLsbD 0 then s.teamRank x.g else 0, pc := x.sp.pc, born := x.g.icount }

/-- Whether a team operation differs from one that a sequencer holds where R276 has a team's agree. -/
def Core.differs (c : Core) (q : SeqOp) : Bool :=
  q.team && c.seqs.any fun r => r.team && (r.pairB != q.pairB || r.stepWord != q.stepWord || r.sp != q.sp || r.descB != q.descB)

theorem Core.differs_iff (c : Core) (q : SeqOp) : c.differs q = true ↔ q.team = true ∧ ∃ r ∈ c.seqs, r.team = true ∧
    ¬ (r.pairB = q.pairB ∧ r.stepWord = q.stepWord ∧ r.sp = q.sp ∧ r.descB = q.descB) := by
  simp [Core.differs, imp_iff_not_or, or_assoc]

section
variable {s : State} {x : Ex} {o : MloopOps} (h : s.ex? = some x)
include h

theorem execMloop_badOperands (hb : x.g.isQueue = true ∨ badPair x.g o.x.a = true ∨ badPair x.g o.x.b = true) :
    execMloop o s = .next (s.illegal x) := by
  rw [execMloop, kernelOnly_eq h]
  rcases hb with hq | hb
  · rw [if_pos hq]
  · rw [if_pos (Bool.or_eq_true_iff.2 hb), ite_self]

variable (hb : ¬ (x.g.isQueue = true ∨ badPair x.g o.x.a = true ∨ badPair x.g o.x.b = true))
include hb

theorem execMloop_refused {n : Nope} (hp : s.planLoop x o (s.readUni x 0 .i64 o.x.a) (s.readUni x 0 .i64 o.x.b) = .error n) :
    execMloop o s = .next (s.nope x n) := by
  obtain ⟨hq, hpair⟩ := not_or.1 hb
  rw [execMloop, kernelOnly_eq h, if_neg hq, if_neg (mt Bool.or_eq_true_iff.1 hpair)]
  simp only [hp]

theorem execMloop_planned {p : Plan}
    (hp : s.planLoop x o (s.readUni x 0 .i64 o.x.a) (s.readUni x 0 .i64 o.x.b) = .ok p) :
    execMloop o s = .next (if (s.core x.g.core).differs (s.loopOp x o) then s.illegal x else s.sequence x p (s.loopOp x o)) := by
  obtain ⟨hq, hpair⟩ := not_or.1 hb
  rw [execMloop, kernelOnly_eq h, if_neg hq, if_neg (mt Bool.or_eq_true_iff.1 hpair)]
  simp only [hp, flags_sp, stepCount_eq]
  rfl

end

/-- The operation that a CMMA enters. -/
def State.cmmaOp (s : State) (x : Ex) (o : EOps) : SeqOp :=
  let c : Word := (s.readUni x o.lit .w32 o.c).setWidth 32
  let blocks := c.toNat / 2 ^ 16
  { id := 0, gid := x.gid, ctx := x.g.ctx, blk := x.g.blk, quad := x.g.quad, acc := o.d.toNat % 8, complex := true
    team := false, sp := 0, pairA := s.readUni x o.lit .i64 o.a, pairB := s.readUni x o.lit .i64 o.b, descA := 0, descB := 0
    stepWord := BitVec.ofNat 32 blocks, bin := c.toNat % 256, steps := (blocks + 7) / 8, pc := x.sp.pc, born := x.g.icount }

/-- The fields that CMMA refuses in a kernel (R261, R282). -/
def badCmma (g : Group) (o : EOps) : Bool :=
  badUniform g .i64 o.a || badUniform g .i64 o.b || badUniform g .w32 o.c || o.d.getLsbD 0

theorem badCmma_iff (g : Group) (o : EOps) : badCmma g o = true ↔
    badUniform g .i64 o.a = true ∨ badUniform g .i64 o.b = true ∨ badUniform g .w32 o.c = true ∨ o.d.getLsbD 0 = true := by
  simp only [badCmma, Bool.or_eq_true, or_assoc]

section
variable {s : State} {x : Ex} {o : EOps} (h : s.ex? = some x)
include h

theorem execCmma_badOperands (hb : x.g.isQueue = true ∨ badCmma x.g o = true) : execCmma o s = .next (s.illegal x) := by
  rw [execCmma, kernelOnly_eq h]
  rcases hb with hq | hb
  · rw [if_pos hq]
  · rw [badCmma] at hb
    rw [if_pos hb, ite_self]

variable (hb : ¬ (x.g.isQueue = true ∨ badCmma x.g o = true))
include hb

theorem execCmma_refused {n : Nope} (hp : s.planCmma x (s.readUni x o.lit .i64 o.a) (s.readUni x o.lit .i64 o.b)
    ((s.readUni x o.lit .w32 o.c).setWidth 32) = .error n) : execCmma o s = .next (s.nope x n) := by
  obtain ⟨hq, hfields⟩ := not_or.1 hb
  rw [badCmma] at hfields
  rw [execCmma, kernelOnly_eq h, if_neg hq, if_neg hfields]
  simp only [hp]

theorem execCmma_planned {p : Plan} (hp : s.planCmma x (s.readUni x o.lit .i64 o.a) (s.readUni x o.lit .i64 o.b)
    ((s.readUni x o.lit .w32 o.c).setWidth 32) = .ok p) : execCmma o s = .next (s.sequence x p (s.cmmaOp x o)) := by
  obtain ⟨hq, hfields⟩ := not_or.1 hb
  rw [badCmma] at hfields
  rw [execCmma, kernelOnly_eq h, if_neg hq, if_neg hfields]
  simp only [hp, cmmaBlocks_eq, cmmaBin_eq]
  rfl

end

/-! ### Steps of the sequencers (R264, R275, R282) -/

/-- The operations that step with one: those of its team, or itself alone (R273, R275). -/
def Core.stepsWith (c : Core) (q : SeqOp) : List SeqOp :=
  if q.team then c.seqs.filter fun r => r.team && r.blk == q.blk else [q]

section
variable {s : State} {core quad : Nat}

theorem execMloopStep_idle (h : (s.core core).seqOf quad = none) : execMloopStep core quad s = .next s := by
  rw [execMloopStep, h]

theorem execCmmaStep_idle (h : (s.core core).seqOf quad = none) : execCmmaStep core quad s = .next s := by
  rw [execCmmaStep, h]

variable {q : SeqOp} (h : (s.core core).seqOf quad = some q)
include h

theorem execMloopStep_waits (hw : q.complex = true ∨ (q.team = true ∧ ((s.core core).stepsWith q).length < 4) ∨
    (s.core core).seqWaits ((s.core core).stepsWith q) = true) : execMloopStep core quad s = .next s := by
  have hw' : (q.complex || (q.team && decide (((s.core core).stepsWith q).length < 4)) ||
      (s.core core).seqWaits ((s.core core).stepsWith q)) = true := by simpa [or_assoc] using hw
  rw [execMloopStep, h]
  exact congrArg Host.Outcome.next (if_pos hw')

/-- Where nothing waits and no page is invalid, the operations that step together go on, or one of them halts. -/
theorem execMloopStep_goes (hc : q.complex = false) (ht : ¬ (q.team = true ∧ ((s.core core).stepsWith q).length < 4))
    (hw : (s.core core).seqWaits ((s.core core).stepsWith q) = false)
    (hv : ∀ r ∈ (s.core core).stepsWith q, anyInvalid r.tokens = false) :
    (∀ u, s.loopSteps core ((s.core core).stepsWith q) = .ok u → execMloopStep core quad s = .next u) ∧
    (∀ e, s.loopSteps core ((s.core core).stepsWith q) = .error e → execMloopStep core quad s = .next (s.haltSeq core q e)) := by
  have hnone := List.find?_eq_none.2 fun r hr => Bool.eq_false_iff.1 (hv r hr)
  rw [Core.stepsWith] at *
  rw [execMloopStep, h]
  constructor
  · intro u hu
    simp [hc, ht, hw, hnone, hu]
  · intro e he
    simp [hc, ht, hw, hnone, he]

theorem execCmmaStep_waits (hw : q.complex = false ∨ (s.core core).seqWaits [q] = true) :
    execCmmaStep core quad s = .next s := by
  have hw' : (!q.complex || (s.core core).seqWaits [q]) = true := by simpa using hw
  rw [execCmmaStep, h]
  exact congrArg Host.Outcome.next (if_pos hw')

theorem execCmmaStep_goes (hc : q.complex = true) (hw : (s.core core).seqWaits [q] = false)
    (hv : anyInvalid q.tokens = false) :
    (∀ u, s.cmmaPart core q = .ok u → execCmmaStep core quad s = .next u) ∧
    (∀ e, s.cmmaPart core q = .error e → execCmmaStep core quad s = .next (s.haltSeq core q e)) := by
  rw [execCmmaStep, h]
  constructor
  · intro u hu
    simp [hc, hw, hv, hu]
  · intro e he
    simp [hc, hw, hv, he]

end

/-! ### The statement -/

/-- Settles O45: clause by clause from the lemmas on steps, shares, entries and sequencers. -/
theorem matrixSteps : Obligations.MatrixSteps := by
  unfold Obligations.MatrixSteps
  refine ⟨?step, ?mma, ?teamStep, ?sequence, ?mloop, ?cmma, ?sequencers⟩
  case step =>
    intro c i ht hw wide term
    have hw' : (i.acc == 0) = true → i.tile % 2 = 0 := fun h => hw (beq_iff_eq.1 h)
    exact ⟨fun m n => Core.tileVal_step ht hw' c, fun q k m n => Core.tile_step_ne ht hw' c⟩
  case mma =>
    exact fun s x o h => ⟨kernelOnly_queue h _, fun hq => ⟨fun n => execMma_refused h hq, fun hp => ⟨execMma_unlike h hq hp,
      fun ht k => execMma_joins h hq hp ht, execMma_alone h hq hp⟩⟩⟩
  case teamStep =>
    intro s core ready
    refine ⟨execTeamStep_none, fun before t after hc hb ht => ?_⟩
    rw [exec_teamStep, execTeamStep_first hc hb ht]
    exact ⟨fun hi => by rw [if_pos hi], fun hi => by rw [hi]; rfl⟩
  case sequence =>
    exact fun s x p q _ => ⟨State.sequence_full q, State.sequence_leaves q⟩
  case mloop =>
    intro s x o h va vb team sp descB bad differs
    refine ⟨execMloop_badOperands h, fun hb n => execMloop_refused h hb, fun hb p hp => ?_⟩
    rw [exec_mloop, execMloop_planned h hb hp]
    have hd : (s.core x.g.core).differs (s.loopOp x o) = true ↔ differs := Core.differs_iff _ _
    exact ⟨fun hdiff => by rw [if_pos (hd.2 hdiff)], fun hdiff => by rw [if_neg (mt hd.1 hdiff)]; rfl⟩
  case cmma =>
    intro s x o h va vb c bad J
    have hbad : bad ↔ x.g.isQueue = true ∨ badCmma x.g o = true := or_congr_right (badCmma_iff x.g o).symm
    exact ⟨fun hb => execCmma_badOperands h (hbad.1 hb), fun hb n => execCmma_refused h (mt hbad.2 hb),
      fun hb p => execCmma_planned h (mt hbad.2 hb)⟩
  case sequencers =>
    exact fun s core quad => ⟨fun h => ⟨execMloopStep_idle h, execCmmaStep_idle h⟩, fun q h =>
      ⟨fun hc => execMloopStep_waits h (.inl hc), fun hc => execCmmaStep_waits h (.inl hc),
        fun _ hw => execMloopStep_waits h (.inr hw),
        fun hc ht hw hv => execMloopStep_goes h hc ht hw hv,
        fun _ hw => execCmmaStep_waits h (.inr hw),
        fun hc hw hv => execCmmaStep_goes h hc hw hv⟩⟩

end Sys2Proof.Machine
end


section
/-! Settles O48 (LaunchRecordChecks): the block count that boundaries are computed for, the boundaries, and what a record
holds that passes its checks (R50–R52, R84, R85, R90). -/

namespace Sys2Proof.Machine

/-! ### The number of blocks of R85 -/

/-- The last number up to a bound that a test accepts is the greatest one. -/
theorem foldl_last_eq_findGreatest (p : Nat → Bool) (n : Nat) :
    (List.range (n + 1)).foldl (fun b k => if p k then k else b) 0 = Nat.findGreatest (p · = true) n := by
  induction n with
  | zero => simp
  | succ n ih => rw [List.range_succ, List.foldl_append, ih, Nat.findGreatest_succ]; rfl

theorem LRec.fits_iff (r : LRec) (rb n : Nat) : r.fits rb n = true ↔ n * r.groups ≤ 64 ∧ n * ((r.groups + 3) / 4) ≤ 16 ∧
    (n * rb + 8191) / 8192 + (n * r.lsRun + 8191) / 8192 ≤ 88 := by
  simp [LRec.fits, and_assoc]

theorem LRec.fits_zero (r : LRec) (rb : Nat) : r.fits rb 0 = true := by simp [LRec.fits_iff]

theorem LRec.most_eq (r : LRec) (rb : Nat) : r.most rb = Nat.findGreatest (r.fits rb · = true) 64 :=
  foldl_last_eq_findGreatest (r.fits rb) 64

theorem LRec.fits_most (r : LRec) (rb : Nat) : r.fits rb (r.most rb) = true := by
  rw [r.most_eq]
  exact Nat.findGreatest_spec (P := (r.fits rb · = true)) (Nat.zero_le 64) (r.fits_zero rb)

theorem LRec.le_most {r : LRec} (hg : 0 < r.groups) {rb n : Nat} (h : r.fits rb n = true) : n ≤ r.most rb := by
  have hn : n ≤ 64 := (Nat.le_mul_of_pos_right n hg).trans ((r.fits_iff rb n).1 h).1
  rw [r.most_eq]
  exact Nat.le_findGreatest hn h

/-! ### Boundaries (R84, R85) -/

theorem LRec.lsbytes_le_lsRun (r : LRec) : r.lsbytes ≤ r.lsRun := by unfold LRec.lsRun; omega

/-- The register bytes of a block that the boundaries are computed with: those of RBMAX where a block of them fits (R84). -/
def LRec.blockBytes (r : LRec) (rbeff : Nat) : Nat :=
  if r.most (r.lanes * r.rbmax * 32) = 0 then r.lanes * rbeff * 32 else r.lanes * r.rbmax * 32

theorem LRec.bounds_given {r : LRec} (h : r.pb2 ≠ 0) (rbeff : Nat) : r.bounds rbeff = some (r.pb0, r.pb1, r.pb2) := by
  rw [LRec.bounds, if_pos h]

section
variable {r : LRec} (h : r.pb2 = 0) {rbeff : Nat}
include h

theorem LRec.bounds_none (hn : r.most (r.blockBytes rbeff) = 0) : r.bounds rbeff = none := by
  rw [LRec.bounds, if_neg (not_not.2 h)]
  exact if_pos hn

theorem LRec.bounds_computed (hn : 0 < r.most (r.blockBytes rbeff)) :
    let n := r.most (r.blockBytes rbeff)
    let pb0 := (n * r.blockBytes rbeff + 8191) / 8192
    r.bounds rbeff = some (pb0, pb0 + (n * r.lsRun + 8191) / 8192, 96) := by
  rw [LRec.bounds, if_neg (not_not.2 h)]
  exact if_neg hn.ne'

/-- The register and local-store parts hold the blocks that they are computed for, and leave 8 units or more for the L1. -/
theorem LRec.bounds_hold (hn : 0 < r.most (r.blockBytes rbeff)) :
    ∃ p q, r.bounds rbeff = some (p, q, 96) ∧ r.most (r.blockBytes rbeff) * r.blockBytes rbeff ≤ p * 8192 ∧
      r.most (r.blockBytes rbeff) * r.lsbytes ≤ (q - p) * 8192 ∧ p ≤ q ∧ q ≤ 88 := by
  obtain ⟨-, -, hpool⟩ := (r.fits_iff _ _).1 (r.fits_most (r.blockBytes rbeff))
  refine ⟨_, _, LRec.bounds_computed h hn, ?_⟩
  have hls := Nat.mul_le_mul_left (r.most (r.blockBytes rbeff)) r.lsbytes_le_lsRun
  generalize r.most (r.blockBytes rbeff) * r.blockBytes rbeff = regs at *
  generalize r.most (r.blockBytes rbeff) * r.lsRun = ls at *
  omega

end

/-! ### Records that pass (R52) -/

theorem bind_eq_ok {ε α β : Type} {x : Except ε α} {f : α → Except ε β} {b : β} (h : x >>= f = .ok b) :
    ∃ a, x = .ok a ∧ f a = .ok b := by
  cases x with
  | error e => cases h
  | ok a => exact ⟨a, rfl, h⟩

theorem LRec.early_le (r : LRec) (d : List Dword) : r.early d ≤ 5 := by
  unfold LRec.early
  split_ifs <;> omega

/-- The conditions of checks 1–5 on the fields of a record that passes them (log 35). -/
theorem LRec.early_eq_zero {r : LRec} {d : List Dword} (h : r.early d = 0) :
    (0 < r.lanes ∧ r.lanes ≤ 1024 ∧ r.lanes % r.width = 0 ∧ r.lanes / r.width ≤ 32) ∧
    (0 < r.blocks ∧ r.gdx % r.clsize = 0) ∧ (1 ≤ r.rbinit ∧ r.rbinit ≤ r.rbmax ∧ r.rbmax ≤ 24) ∧
    (r.lsbytes ≤ 262144 ∧ r.lsbytes % 16 = 0) ∧ r.nbind ≤ 8 := by
  unfold LRec.early at h
  split_ifs at h with h1 h2 h3 h4 h5
  simp only [Bool.or_eq_true, decide_eq_true_eq, bne_iff_ne, not_or] at h1 h2 h3 h4 h5
  omega

/-- What check 6 admits: the boundaries of the record, or a block that the computed ones hold. -/
theorem LRec.poolBad_eq_false {r : LRec} {rbeff : Nat} (h : r.poolBad rbeff = false) :
    (r.pb2 ≠ 0 → r.pb0 ≤ r.pb1 ∧ r.pb1 ≤ r.pb2 ∧ r.pb2 ≤ 96 ∧ r.lanes * rbeff * 32 ≤ r.pb0 * 8192 ∧
      r.lsbytes ≤ (r.pb1 - r.pb0) * 8192) ∧
    r.bounds rbeff = some ((r.bounds rbeff).getD (0, 0, 0)) := by
  unfold LRec.poolBad at h
  by_cases hp : r.pb2 = 0
  · rw [if_neg (not_not.2 hp), Option.isNone_eq_false_iff] at h
    obtain ⟨b, hb⟩ := Option.isSome_iff_exists.1 h
    exact ⟨fun hn => absurd hp hn, by rw [hb]; rfl⟩
  · rw [if_pos hp] at h
    refine ⟨fun _ => ?_, by rw [LRec.bounds_given hp]; rfl⟩
    simp only [Bool.or_eq_false_iff, Bool.not_eq_false', Bool.and_eq_true, decide_eq_true_eq, decide_eq_false_iff_not,
      Nat.not_lt] at h
    obtain ⟨⟨⟨⟨h01, h12⟩, h96⟩, hregs⟩, hls⟩ := h
    exact ⟨h01, h12, h96, hregs, hls⟩

theorem State.readDwords_length {s : State} {k : Who} {va n : Nat} {r : List Dword × State}
    (h : s.readDwords k va n = .ok r) : r.1.length = n := by
  unfold State.readDwords at h
  cases he : s.engineRead k va (8 * n) with
  | error e => rw [he] at h; cases h
  | ok b => rw [he] at h; cases h; simp

/-- Bindings that are all valid have an entry each. -/
theorem State.checkBinds_length {s : State} {k : Who} {ls : Nat} {ds : List Dword} {ks : List (Nat × Nat × Nat × Nat)}
    (h : s.checkBinds k ls ds = .ok (some ks)) : ks.length = ds.length := by
  induction ds generalizing ks with
  | nil => cases h; rfl
  | cons d ds ih =>
    obtain ⟨b, -, h⟩ := bind_eq_ok h
    obtain ⟨bs, hbs, h⟩ := bind_eq_ok h
    cases b with
    | none => cases h
    | some b =>
      cases bs with
      | none => cases h
      | some bs => cases h; exact congrArg (· + 1) (ih hbs)

/-- A record that passes checks 1–8 (R52): read whole, with the entry descriptor's register blocks in RBEFF (R90). -/
structure Checked.Passes (c : Checked) (k : Who) (d : List Dword) : Prop where
  dwords : d.length = 16
  lrec : c.lrec = LRec.of d
  early : c.lrec.early d = 0
  rbeff : ∃ rb, rb ≤ c.lrec.rbmax ∧ c.rbeff = max c.lrec.rbinit rb
  pool : c.lrec.poolBad c.rbeff = false
  bounds : c.bounds = (c.lrec.bounds c.rbeff).getD (0, 0, 0)
  kinds : c.kinds.length = (c.lrec.binds.take c.lrec.nbind).length
  code : c.code = if c.lrec.ctx = k.ctx then 0 else 9

/-- What the checks of a record that is read answer: the code of a failed check, or a record that passes checks 1–8. -/
def Checked.Answered (c : Checked) (k : Who) : Prop := (c.code ≠ 0 ∧ c.code ≤ 8) ∨ ∃ d, c.Passes k d

theorem Checked.Answered.of_code {c : Checked} {k : Who} (n : Nat) (hn : n ≠ 0) (hle : n ≤ 8) (hc : c.code = n) :
    c.Answered k := .inl ⟨hc ▸ hn, hc ▸ hle⟩

/-- What reading and checking a record can answer: code 1 at a misaligned address, else what its checks answer. -/
theorem State.checkLaunch_cases {s t : State} {k : Who} {va : Nat} {c : Checked} (h : s.checkLaunch k va = .ok (c, t)) :
    (va % 128 ≠ 0 ∧ c.code = 1) ∨ (va % 128 = 0 ∧ c.Answered k) := by
  unfold State.checkLaunch at h
  split at h
  case isTrue hva => cases h; exact .inl ⟨hva, rfl⟩
  case isFalse hva =>
    refine .inr ⟨not_not.1 hva, ?_⟩
    obtain ⟨⟨d, u⟩, hd, h⟩ := bind_eq_ok h
    dsimp only at h
    split at h
    case isTrue he => cases h; exact .of_code _ he (((LRec.of d).early_le d).trans (by decide)) rfl
    case isFalse he =>
      obtain ⟨desc, -, h⟩ := bind_eq_ok h
      split at h
      case isTrue => cases h; exact .of_code 6 (by decide) (by decide) rfl
      case isFalse hpool =>
        cases desc with
        | none => cases h; exact .of_code 7 (by decide) (by decide) rfl
        | some desc =>
          dsimp only at h
          split at h
          case isTrue => cases h; exact .of_code 7 (by decide) (by decide) rfl
          case isFalse hentry =>
            obtain ⟨ks, hks, h⟩ := bind_eq_ok h
            cases ks with
            | none => cases h; exact .of_code 8 (by decide) (by decide) rfl
            | some ks =>
              have hrb : desc.1 ≤ (LRec.of d).rbmax := by
                simp only [Bool.or_eq_true, decide_eq_true_eq, not_or, Nat.not_lt] at hentry
                exact hentry.1
              cases h
              exact .inr ⟨d, {
                dwords := State.readDwords_length hd
                lrec := rfl
                early := not_not.1 he
                rbeff := ⟨desc.1, hrb, rfl⟩
                pool := Bool.eq_false_iff.2 hpool
                bounds := rfl
                kinds := State.checkBinds_length hks
                code := rfl }⟩

theorem Checked.Passes.code_le {c : Checked} {k : Who} {d : List Dword} (h : c.Passes k d) : c.code ≤ 9 := by
  rw [h.code]
  split_ifs <;> omega

theorem Checked.Passes.ctx {c : Checked} {k : Who} {d : List Dword} (h : c.Passes k d) (h0 : c.code = 0) :
    c.lrec.ctx = k.ctx := by
  by_contra hne
  have := h.code
  rw [if_neg hne] at this
  omega

/-- RBEFF lies between RBINIT and RBMAX (R90). -/
theorem Checked.Passes.rbeff_between {c : Checked} {k : Who} {d : List Dword} (h : c.Passes k d) :
    c.lrec.rbinit ≤ c.rbeff ∧ c.rbeff ≤ c.lrec.rbmax := by
  obtain ⟨-, -, ⟨-, hmax, -⟩, -⟩ := LRec.early_eq_zero h.early
  obtain ⟨rb, hrb, he⟩ := h.rbeff
  omega

/-- The record's bindings number NBIND: eight doublewords hold them (R51). -/
theorem Checked.Passes.kinds_length {c : Checked} {k : Who} {d : List Dword} (h : c.Passes k d) :
    c.kinds.length = c.lrec.nbind := by
  obtain ⟨-, -, -, -, hn⟩ := LRec.early_eq_zero h.early
  have hb : c.lrec.binds.length = 8 := by
    rw [h.lrec]
    exact List.length_drop.trans (by rw [h.dwords])
  rw [h.kinds, List.length_take, hb]
  exact Nat.min_eq_left hn

/-! ### The statement -/

/-- Settles O48: what the checks answer by the ways in which they can end, the boundaries by the greatest number of blocks that
fits. -/
theorem launchRecordChecks : Obligations.LaunchRecordChecks := by
  unfold Obligations.LaunchRecordChecks
  refine ⟨?checks, ?boundaries⟩
  case boundaries =>
    exact fun r hg => ⟨fun rb => ⟨r.fits_most rb, fun _ => LRec.le_most hg⟩, r.fits_iff,
      fun hp rbeff => ⟨LRec.bounds_none hp, LRec.bounds_hold hp⟩⟩
  case checks =>
    intro s k va c t h
    rcases State.checkLaunch_cases h with ⟨hva, hc⟩ | ⟨hva, ⟨hne, hle⟩ | ⟨d, hp⟩⟩
    · exact ⟨fun _ => hc, by omega, fun h0 => by omega⟩
    · exact ⟨fun hn => absurd hva hn, by omega, fun h0 => absurd h0 hne⟩
    · refine ⟨fun hn => absurd hva hn, hp.code_le, fun h0 => ⟨hva, ?_⟩⟩
      obtain ⟨⟨hl, hl', hw, hg⟩, ⟨hb, hcl⟩, ⟨h1, hmax, h24⟩, ⟨hls, h16⟩, hn⟩ := LRec.early_eq_zero hp.early
      obtain ⟨hgiven, hbounds⟩ := LRec.poolBad_eq_false hp.pool
      rw [← hp.bounds] at hbounds
      refine ⟨hl, hl', hw, hg, hb, hcl, h1, hmax, h24, hp.rbeff_between.1, hp.rbeff_between.2, hls, h16, hn, hp.ctx h0,
        hp.kinds_length, fun hpb => ?_, fun _ => hbounds⟩
      obtain ⟨h01, h12, h96, hregs, hpool⟩ := hgiven hpb
      exact ⟨h01, h12, h96, hregs, hpool, Option.some.inj (hbounds.symm.trans (LRec.bounds_given hpb _))⟩

end Sys2Proof.Machine
end


section
/-! Settles O42 (SurfaceTable): what HALLOC, HFREE and SSTE do at issue, and the serialiser of a context's surface table
(R57–R65, R257–R260). -/

namespace Sys2Proof.Machine

/-! ### Issue (R57, R258–R260) -/

theorem bits_low16 (v : Dword) : bits v 15 0 = v.toNat % 2 ^ 16 := by simp [bits]

section
variable {s : State} {x : Ex} {h : Nat} (f : State → State)

theorem State.withHandle_halts {z : Halt} (hu : s.toUpdate x.g.core? x.g.ctx h = .error z) :
    s.withHandle x h f = s.haltEx x z .hw := by
  rw [State.withHandle, hu]; rfl

theorem State.withHandle_refused (hu : s.toUpdate x.g.core? x.g.ctx h = .ok ())
    (he : s.entry x.g.core? x.g.ctx h = .ok none) : s.withHandle x h f = s.trap x 0x02 x.lanes 0 := by
  rw [State.withHandle, hu, Except.bind, he]

theorem State.withHandle_found {e : Ste} (hu : s.toUpdate x.g.core? x.g.ctx h = .ok ())
    (he : s.entry x.g.core? x.g.ctx h = .ok (some e)) : s.withHandle x h f = f s := by
  rw [State.withHandle, hu, Except.bind, he]

end

/-- A destination field that HALLOC and SSTE refuse: neither a scalar register nor 0xF0 (R142). -/
theorem badDst_iff (d : BitVec 8) : (d != 0xF0 && !isScalar d) = true ↔ d ≠ 0xF0 ∧ isScalar d = false := by simp

section
variable {s : State} {x : Ex} {o : EOps} (h : s.ex? = some x) (hq : x.g.isQueue = false)
include h hq

theorem execHalloc_badOperands (hb : (o.d ≠ 0xF0 ∧ isScalar o.d = false) ∨ badUniform x.g .w32 o.a = true) :
    execHalloc o s = .next (s.illegal x) := by
  rw [← badDst_iff] at hb
  rw [execHalloc, kernelOnly_group h _ hq, if_pos (Bool.or_eq_true_iff.2 hb)]

theorem execHfree_badOperand (hb : badUniform x.g .w32 o.a = true) : execHfree o s = .next (s.illegal x) := by
  rw [execHfree, kernelOnly_group h _ hq, if_pos hb]

theorem execHfree_good (hb : ¬ badUniform x.g .w32 o.a = true) :
    let n := (s.readUni x o.lit .w32 o.a).toNat % 2 ^ 16
    execHfree o s = .next (s.withHandle x n fun s => s.tableOp x 1 n [] 0 none) := by
  rw [execHfree, kernelOnly_group h _ hq, if_neg hb, bits_low16]

theorem execSste_badOperands (hb : (o.d ≠ 0xF0 ∧ isScalar o.d = false) ∨ badUniform x.g .w32 o.a = true ∨
    badUniform x.g .w32 o.b = true) : execSste o s = .next (s.illegal x) := by
  rw [← badDst_iff, ← or_assoc] at hb
  rw [execSste, kernelOnly_group h _ hq, if_pos (by simpa only [Bool.or_eq_true_iff] using hb)]

variable (hd : ¬ (o.d ≠ 0xF0 ∧ isScalar o.d = false)) (ha : ¬ badUniform x.g .w32 o.a = true)
include hd ha

theorem execHalloc_noImage (hi : s.image x.g (s.readUni x o.lit .w32 o.a).toNat = none) :
    execHalloc o s = .next (s.illegal x) := by
  rw [← badDst_iff] at hd
  rw [execHalloc, kernelOnly_group h _ hq, if_neg (mt Bool.or_eq_true_iff.1 (not_or.2 ⟨hd, ha⟩)), hi]

theorem execHalloc_parks {img : List Dword} (hi : s.image x.g (s.readUni x o.lit .w32 o.a).toNat = some img) :
    execHalloc o s = .next (s.tableOp x 0 0 img 0xFF (scalarDst o.d)) := by
  rw [← badDst_iff] at hd
  rw [execHalloc, kernelOnly_group h _ hq, if_neg (mt Bool.or_eq_true_iff.1 (not_or.2 ⟨hd, ha⟩)), hi]

theorem execSste_good (hb : ¬ badUniform x.g .w32 o.b = true) {img : List Dword}
    (hi : s.image x.g (s.readUni x o.lit .w32 o.b).toNat = some img) :
    let n := (s.readUni x o.lit .w32 o.a).toNat % 2 ^ 16
    execSste o s = .next (s.withHandle x n fun s => s.tableOp x 2 n img (o.minor.extractLsb' 0 8) (scalarDst o.d)) := by
  rw [← badDst_iff] at hd
  have good : ¬ ((o.d != 0xF0 && !isScalar o.d) || badUniform x.g .w32 o.a || badUniform x.g .w32 o.b) = true := by
    simp only [Bool.or_eq_true_iff, not_or]
    exact ⟨⟨hd, ha⟩, hb⟩
  rw [execSste, kernelOnly_group h _ hq, if_neg good, hi, bits_low16]

end

/-! ### Parking on the serialiser (R257) -/

/-- The executing split after an update of it. -/
theorem State.ex?_modSplit {s : State} {x : Ex} (h : s.ex? = some x) (f : Split → Split) :
    ∃ y, (s.modSplit x.gid x.sid f).ex? = some y ∧ y.sp = f x.sp := by
  obtain ⟨hi, hg, hs, -⟩ := ex?_some h
  simp [State.ex?, hi, State.modSplit, hg, hs]

theorem State.park_ctx (s : State) (x : Ex) (p : Park) (n : Nat) : (s.park x p).ctx n = s.ctx n := rfl

theorem State.tableOp_tableOps (s : State) (x : Ex) (kind h : Nat) (img : List Dword) (mask : BitVec 8) (dst : Option Nat) :
    ((s.tableOp x kind h img mask dst).ctx x.g.ctx).tableOps =
      (s.ctx x.g.ctx).tableOps ++ [⟨x.gid, x.sid, kind, h, img, mask, dst⟩] := by
  rw [State.tableOp, State.park_ctx, State.ctx_modCtx]

theorem State.tableOp_parks {s : State} {x : Ex} (hx : s.ex? = some x) (kind h : Nat) (img : List Dword) (mask : BitVec 8)
    (dst : Option Nat) : ∃ y, (s.tableOp x kind h img mask dst).ex? = some y ∧ y.sp = { x.sp with park := .table } :=
  State.ex?_modSplit (s := s.modCtx x.g.ctx _) hx _

/-! ### The serialiser (R257) -/

/-- The serialiser drops the operation at its head. -/
def State.popOp (s : State) (ctx : Nat) : State := s.modCtx ctx fun c => { c with tableOps := c.tableOps.drop 1 }

/-- What applying an operation of a split answers: HALLOC, HFREE or SSTE by its kind. -/
def State.applyOp (s : State) (ctx : Nat) (x : Ex) (op : TableOp) : Except Halt Applied :=
  match op.kind with
  | 0 => s.applyHalloc x.g.core? ctx (s.cremaNow x.g.core) op.image
  | 1 => s.applyHfree x.g.core? ctx op.handle
  | _ => s.applySste x.g.core? ctx op.handle op.image op.mask

theorem State.applyOp_eq (s : State) (ctx : Nat) (x : Ex) (op : TableOp) : s.applyOp ctx x op =
    if op.kind = 0 then s.applyHalloc x.g.core? ctx (s.cremaNow x.g.core) op.image
    else if op.kind = 1 then s.applyHfree x.g.core? ctx op.handle
    else s.applySste x.g.core? ctx op.handle op.image op.mask := by
  unfold State.applyOp
  split <;> simp_all

/-- What the serialiser makes of an answer: only a wait leaves the operation at the head. -/
def State.takeOp (s : State) (ctx : Nat) (x : Ex) (op : TableOp) : Except Halt Applied → State
  | .error h => (s.popOp ctx).haltEx x h .hw
  | .ok .wait => s
  | .ok (.trap c) => (s.popOp ctx).trap x c x.lanes 0
  | .ok (.done u d) => (State.popOp (match op.dst with
      | some n => u.modGroup x.gid fun g => g.writeS n (BitVec.ofNat 32 d)
      | none => u) ctx).finish x

theorem execSurfaceTableOpApply_idle {s : State} {ctx : Nat} (h : (s.ctx ctx).tableOps = []) :
    execSurfaceTableOpApply ctx s = .next s := by
  rw [execSurfaceTableOpApply, h]

theorem execSurfaceTableOpApply_head {s : State} {ctx : Nat} {op : TableOp} {rest : List TableOp} {x : Ex}
    (h : (s.ctx ctx).tableOps = op :: rest) (hx : s.exOf op.gid op.sid = some x) :
    execSurfaceTableOpApply ctx s = .next (s.takeOp ctx x op (s.applyOp ctx x op)) := by
  rw [execSurfaceTableOpApply, h]
  dsimp only
  rw [hx]
  rfl

/-! ### What an operation answers (R61, R258, R259) -/

section
variable (s : State) (core : Option Nat) (ctx now : Nat) {img : List Dword}

theorem State.applyHalloc_reserved (h : ∃ k, k < 8 ∧ img.getD k 0 &&& steReserved.getD k 0 ≠ 0) :
    s.applyHalloc core ctx now img = .ok (.done s 0x40000) := by
  obtain ⟨k, hk, hne⟩ := h
  have hany : (List.range 8).any (fun i => img.getD i 0 &&& steReserved.getD i 0 != 0) = true :=
    List.any_eq_true.2 ⟨k, List.mem_range.2 hk, bne_iff_ne.2 hne⟩
  rw [State.applyHalloc, hany]
  rfl

theorem State.applyHalloc_illegal (h : ∀ k, k < 8 → img.getD k 0 &&& steReserved.getD k 0 = 0)
    (hv : (Ste.ofDwords img).reservedValue = false) (hs : (Ste.ofDwords img).sch = 0) (hl : (Ste.ofDwords img).legal = false) :
    s.applyHalloc core ctx now img = .ok (.done s 0x20000) := by
  have hany : (List.range 8).any (fun i => img.getD i 0 &&& steReserved.getD i 0 != 0) = false :=
    List.any_eq_false.2 fun k hk => by simp only [h k (List.mem_range.1 hk)]; decide
  have hsch : s.schOk core ctx 0 = .ok true := rfl
  simp only [State.applyHalloc, hany, hv, hs, hl, hsch]
  rfl

end

section
variable {s : State} {core : Option Nat} {ctx h : Nat}

theorem State.applyHfree_halts {z : Halt} (hu : s.toUpdate core ctx h = .error z) : s.applyHfree core ctx h = .error z := by
  rw [State.applyHfree, hu]; rfl

variable {e : Ste} (hu : s.toUpdate core ctx h = .ok ()) (he : s.entry core ctx h = .ok (some e))
include hu he

theorem State.applyHfree_waits (huse : e.use ≠ 0) : s.applyHfree core ctx h = .ok .wait := by
  rw [State.applyHfree, hu, he]
  exact if_pos huse

theorem State.applyHfree_frees (huse : e.use = 0) {u : State}
    (hp : s.putEntry core ctx h { e with cls := 0, version := (e.version + 1) % 65536 } = .ok u) :
    s.applyHfree core ctx h = .ok (.done (u.freeTiles ctx h) 0) := by
  rw [State.applyHfree, hu, he]
  refine (if_neg (not_not.2 huse)).trans ?_
  rw [hp]
  rfl

end

/-- A die without the tiles of an entry. -/
def Die.dropTiles (ctx h : Nat) (d : Die) : Die := { d with tiles := d.tiles.filter fun t => !(t.ctx == ctx && t.handle == h) }

theorem State.die_freeTiles (s : State) (ctx h d : Nat) : (s.freeTiles ctx h).die d = (s.die d).dropTiles ctx h := by
  have hfind : (s.freeTiles ctx h).dies.find d = (s.dies.find d).map (Die.dropTiles ctx h) :=
    KV.find_map_values (Die.dropTiles ctx h) s.dies d
  rw [State.die, State.die, KV.get, KV.get, hfind]
  cases s.dies.find d <;> rfl

/-- No tile of a freed entry is left in any die (R259). -/
theorem State.freeTiles_none (s : State) (ctx h d : Nat) {t : TileRec} (ht : t ∈ ((s.freeTiles ctx h).die d).tiles) :
    ¬ (t.ctx = ctx ∧ t.handle = h) := by
  rw [State.die_freeTiles] at ht
  rintro ⟨rfl, rfl⟩
  have hkept := (List.mem_filter.1 ht).2
  simp at hkept

/-! ### The statement -/

/-- Settles O42: the three instructions at issue, the serialiser's head, and what each operation answers. -/
theorem surfaceTable : Obligations.SurfaceTable := by
  unfold Obligations.SurfaceTable
  refine ⟨?issue, ?parks, ?serialiser, ?answers⟩
  case issue =>
    intro s x o h
    refine ⟨fun hq => ⟨kernelOnly_queue h _ hq, kernelOnly_queue h _ hq, kernelOnly_queue h _ hq⟩, fun hq => ?_⟩
    refine ⟨execHalloc_badOperands h hq, execHalloc_noImage h hq, fun hd ha img => execHalloc_parks h hq hd ha,
      execHfree_badOperand h hq, fun ha z hu => ?_, fun ha hu he => ?_, fun ha hu e he => ?_, execSste_badOperands h hq,
      fun hd ha hb img hi hu => ⟨fun he => ?_, fun e he => ?_⟩⟩
    · exact (execHfree_good h hq ha).trans (congrArg _ (State.withHandle_halts _ hu))
    · exact (execHfree_good h hq ha).trans (congrArg _ (State.withHandle_refused _ hu he))
    · exact (execHfree_good h hq ha).trans (congrArg _ (State.withHandle_found _ hu he))
    · exact (execSste_good h hq hd ha hb hi).trans (congrArg _ (State.withHandle_refused _ hu he))
    · exact (execSste_good h hq hd ha hb hi).trans (congrArg _ (State.withHandle_found _ hu he))
  case parks =>
    exact fun s x kind h img mask dst hx =>
      ⟨s.tableOp_tableOps x kind h img mask dst, State.tableOp_parks hx kind h img mask dst⟩
  case serialiser =>
    refine fun s ctx => ⟨execSurfaceTableOpApply_idle, fun op rest x hops hx => ?_⟩
    intro r
    have hr : s.applyOp ctx x op = r := s.applyOp_eq ctx x op
    have answer {a : Except Halt Applied} (ha : r = a) :
        exec (.surfaceTableOpApply ctx) s = .next (s.takeOp ctx x op a) := by
      rw [exec_surfaceTableOpApply, execSurfaceTableOpApply_head hops hx, hr, ha]
    exact ⟨fun _ => answer, answer, fun _ => answer, fun _ _ => answer⟩
  case answers =>
    exact fun s core ctx h now img e => ⟨s.applyHalloc_reserved core ctx now, s.applyHalloc_illegal core ctx now,
      fun _ => State.applyHfree_halts, State.applyHfree_waits, fun hu he huse _ => State.applyHfree_frees hu he huse,
      fun d _ => s.freeTiles_none ctx h d⟩

end Sys2Proof.Machine
end

section
/-! Settles O23 (IssueAndQueues): the starts of clauses, the ends of waits and parks, notifications, the bound of a region, and
what a command processor does between clauses (R67, R69, R145, R146, R335, R338, R347, R354). -/

namespace Sys2Proof.Machine

/-! ### Splits to act for -/

/-- A split of a group as the state holds it. -/
theorem State.exOf_some {s : State} {gid sid : Nat} {x : Ex} (h : s.exOf gid sid = some x) :
    x.gid = gid ∧ x.sid = sid ∧ s.group gid = some x.g ∧ x.g.splits.find sid = some x.sp ∧
      x.lanes = x.sp.due.getD x.sp.mask := by
  unfold State.exOf at h
  split at h
  · cases h
  · split at h
    · cases h
    · cases h; exact ⟨rfl, rfl, ‹_›, ‹_›, rfl⟩

/-- A group on its core, and not one that waits for its team (R177, R350). -/
def Group.placed (g : Group) : Bool :=
  match g.res with
  | .resident => !g.regain
  | _ => false

/-- What lets a split start a clause (R146, R338). -/
def State.mayStart (s : State) (gid sid : Nat) (x : Ex) : Prop :=
  x.sp.park = .no ∧ x.sp.clause = none ∧ x.g.placed = true ∧ x.g.isQueue = false ∧ s.skidLeft gid x.g = true ∧
    x.g.otherHandler sid = false ∧ (s.core x.g.core).held = false ∧ s.pkg.stopped = false

theorem Ex.atBoundary_iff (x : Ex) : x.atBoundary = true ↔ x.sp.park = .no ∧ x.sp.clause = none := by
  simp [Ex.atBoundary]

theorem State.drained_iff (s : State) (gid : Nat) (g : Group) :
    s.drained gid g = true ↔ g.flights = [] ∧ s.scoreboard gid g = false := by
  simp [State.drained, Group.quiet]

section
variable {s : State} {gid sid : Nat} {x : Ex} (h : s.exOf gid sid = some x)
include h

/-! ### The events of issue -/

theorem execClauseStart_eq : ∃ b : Bool, (b = true ↔ s.mayStart gid sid x) ∧
    execClauseStart gid sid s = .next (if b then s.startClause x else s) := by
  refine ⟨x.atBoundary && x.g.placed && !x.g.isQueue && s.skidLeft gid x.g && !x.g.otherHandler sid && !(s.core x.g.core).held &&
    !s.pkg.stopped, ?_, ?_⟩
  · simp [State.mayStart, Ex.atBoundary_iff, and_assoc]
  · rw [execClauseStart, h]; rfl

theorem execClauseStart_starts (hgo : s.mayStart gid sid x) : execClauseStart gid sid s = .next (s.startClause x) := by
  obtain ⟨b, hb, he⟩ := execClauseStart_eq h
  rw [he, if_pos (hb.2 hgo)]

theorem execClauseStart_stays (hgo : ¬ s.mayStart gid sid x) : execClauseStart gid sid s = .next s := by
  obtain ⟨b, hb, he⟩ := execClauseStart_eq h
  rw [he, if_neg fun k => hgo (hb.1 k)]

theorem execCounterWaitResume_waitc {c : Ctr} {t : Nat} (hp : x.sp.park = .waitc c t) :
    execCounterWaitResume gid sid s = .next (if x.g.counter c ≤ t then s.finish x else s) := by
  simp only [execCounterWaitResume, h, hp]

theorem execCounterWaitResume_drain (hp : x.sp.park = .drain) :
    execCounterWaitResume gid sid s = .next (if s.drained gid x.g then s.unpark gid sid else s) := by
  simp only [execCounterWaitResume, h, hp]

theorem execPageRequestReplay_replied (hp : x.sp.park = .page) (ht : ∀ t ∈ x.sp.tokens, t.status ≠ .pending) :
    execPageRequestReplay gid sid s = .next (s.unpark gid sid) := by
  have hall : (x.sp.park = .page && x.sp.tokens.all fun t => t.status != .pending) = true := by simpa [hp] using ht
  simp only [execPageRequestReplay, h, if_pos hall]

theorem execPageRequestReplay_pending (ht : ∃ t ∈ x.sp.tokens, t.status = .pending) :
    execPageRequestReplay gid sid s = .next s := by
  have hall : ¬ (x.sp.park = .page && x.sp.tokens.all fun t => t.status != .pending) = true := by
    obtain ⟨t, htok, hpend⟩ := ht
    simpa using fun _ => ⟨t, htok, hpend⟩
  simp only [execPageRequestReplay, h, if_neg hall]

/-- A notification stops the issuing split at its next instruction (R335). -/
theorem execArithNotification_delivers {n : Notif} {c : Clause} (hi : s.issuer = some (gid, sid)) (hn : x.g.notif = some n)
    (hc : x.sp.clause = some c) (hq : x.g.isQueue = false) (hh : x.g.handler = none) (hp : x.sp.park = .no)
    (hd : x.sp.due ≠ some 0) (hb : x.sp.begun = false) :
    execArithNotification gid s = .next ((s.modGroup gid fun g => { g with notif := none }).deliver gid sid
      ⟨0x08, n.sub, x.sp.pc, false, n.fpc, x.sp.mask, c.hdr, 0⟩ x.headLanes) := by
  obtain ⟨-, hsid, -⟩ := State.exOf_some h
  have hx : s.notifSplit gid = some x := by simp [State.notifSplit, hi, h]
  have hgo : (x.g.isQueue || x.g.handler.isSome || x.sp.park != .no || x.sp.due == some 0 || x.sp.begun) = false := by
    rw [hq, hh, hp, beq_eq_false_iff_ne.2 hd, hb]; rfl
  rw [execArithNotification, hx]
  simp only [hn, hc, hgo, hsid]
  rfl


end

/-- An exceeded bound is counted once and makes the context meet cause 0x15 (R354). -/
theorem execNpRegionBoundExceeded_over {s : State} {gid : Nat} {g : Group} (hg : s.group gid = some g) (ho : g.npOver = true) :
    ∃ pc, execNpRegionBoundExceeded gid s = .next ((s.modGroup gid fun g => { g with npOver := false }).setFatal g.ctx
      (fatalOf 0x15 g.core pc 0 (some gid) (s.skidOf g))) := by
  simp only [execNpRegionBoundExceeded, hg, ho]
  exact ⟨_, rfl⟩

/-- The region's count is reset by the fault that it ends in, of which the context keeps the first. -/
theorem State.boundFault_leaves {s : State} {gid : Nat} {g : Group} (hg : s.group gid = some g) (f : Fatal) :
    let t := (s.modGroup gid fun g => { g with npOver := false }).setFatal g.ctx f
    (∃ g', t.group gid = some g' ∧ g'.npOver = false) ∧ (t.ctx g.ctx).fatal = some ((s.ctx g.ctx).fatal.getD f) := by
  intro t
  have hgroup : t.group gid = (s.modGroup gid fun g => { g with npOver := false }).group gid := rfl
  refine ⟨⟨{ g with npOver := false }, ?_, rfl⟩, ?_⟩
  · rw [hgroup, State.group_modGroup, hg]; rfl
  · rw [State.fatal_setFatal, if_pos rfl]; rfl

/-! ### Command processors (R67, R69) -/

theorem execQueueClauseIssue_busy {s : State} {cp : Nat} (h : (s.cpBusy cp || s.pkg.stopped) = true) :
    execQueueClauseIssue cp s = .next s := by
  rw [execQueueClauseIssue, if_pos h]

theorem execQueueClauseIssue_none {s : State} {cp : Nat} (h : s.selectQueue cp = none) : execQueueClauseIssue cp s = .next s := by
  rw [execQueueClauseIssue, h]
  exact congrArg _ (ite_self s)

/-- A context's record as its processor's selection of context `q` leaves it (R69). -/
def State.ageQueue (s : State) (cp q k : Nat) (u : Queue) : Queue :=
  if k / 16 = cp then
    (if k = q then { u with skipped := 0, readySince := (s.cp cp).cycle + 1 }
     else if s.queueReady k then { u with skipped := u.skipped + 1 } else u) else u

/-- The state in which a processor has selected a context. -/
def State.selected (s : State) (cp q : Nat) : State :=
  { s with queues := s.queues.map (s.ageQueue cp q) }.modCp cp fun c => { c with current := some q }

section
variable {s : State} {cp q : Nat} {x : Ex} (hb : (s.cpBusy cp || s.pkg.stopped) = false) (hs : s.selectQueue cp = some q)
  (hx : s.exOf q 0 = some x)
include hb hs hx

theorem execQueueClauseIssue_disabled (hn : x.g.notif = none) (hstop : s.queueStopped q = true) :
    execQueueClauseIssue cp s = .next (s.modQueue q fun k => { k with run := false }) := by
  simp only [execQueueClauseIssue, hb, hs, hx, hn, hstop]
  rfl

theorem execQueueClauseIssue_serves (hn : x.g.notif = none) (hstop : s.queueStopped q = false) :
    execQueueClauseIssue cp s =
      .next (if x.sp.clause.isSome then s.selected cp q else (s.selected cp q).startClause x) := by
  simp only [execQueueClauseIssue, hb, hs, hx, hn, hstop]
  rfl

theorem execQueueClauseIssue_notified {n : Notif} (hn : x.g.notif = some n) (hc : x.sp.clause = none) :
    execQueueClauseIssue cp s = .next ((s.modGroup q fun g => { g with notif := none }).stopQueue q 6 n.fpc) := by
  simp only [execQueueClauseIssue, hb, hs, hx, hn, hc]
  rfl

end

/-! ### The statement -/

/-- Settles O23: each event of issue and each choice of a command processor from the lemmas on its branches. -/
theorem issueAndQueues : Obligations.IssueAndQueues := by
  unfold Obligations.IssueAndQueues
  refine ⟨?events, ?processors⟩
  case events =>
    intro s gid sid x h
    obtain ⟨-, -, hg, -⟩ := State.exOf_some h
    refine ⟨⟨execClauseStart_starts h, execClauseStart_stays h⟩, fun c t hp => ?waitc, fun hp => ?drain,
      fun hp => ⟨execPageRequestReplay_replied h hp, execPageRequestReplay_pending h⟩,
      fun n c hi hn hc hq hh hp hd hb => execArithNotification_delivers h hi hn hc hq hh hp hd hb, fun ho => ?bound⟩
    case waitc =>
      exact ⟨fun hle => (execCounterWaitResume_waitc h hp).trans (by rw [if_pos hle]),
        fun hlt => (execCounterWaitResume_waitc h hp).trans (by rw [if_neg (Nat.not_le.2 hlt)])⟩
    case drain =>
      refine ⟨fun hf hs => (execCounterWaitResume_drain h hp).trans ?_, fun hn => (execCounterWaitResume_drain h hp).trans ?_⟩
      · rw [if_pos ((s.drained_iff gid x.g).2 ⟨hf, hs⟩)]
      · rw [if_neg]
        rw [State.drained_iff]
        rintro ⟨hf, hs⟩
        rcases hn with hn | hn
        · exact hn hf
        · rw [hs] at hn; cases hn
    case bound =>
      obtain ⟨pc, he⟩ := execNpRegionBoundExceeded_over hg ho
      obtain ⟨hcleared, hfatal⟩ := State.boundFault_leaves hg (fatalOf 0x15 x.g.core pc 0 (some gid) (s.skidOf x.g))
      refine ⟨_, he, hcleared, fun hnone => ⟨pc, ?_⟩, fun f hf => ?_⟩
      · rw [hfatal, hnone]; rfl
      · rw [hfatal, hf]; rfl
  case processors =>
    intro s cp
    refine ⟨execQueueClauseIssue_busy, execQueueClauseIssue_none, fun q x hb hs hx hn =>
      ⟨execQueueClauseIssue_disabled hb hs hx hn, fun hstop => ⟨_, execQueueClauseIssue_serves hb hs hx hn hstop, fun hc => ?_⟩⟩,
      fun q x n hb hs hx hn hc => execQueueClauseIssue_notified hb hs hx hn hc⟩
    rw [if_pos hc, State.selected]
    exact ⟨by rw [State.cp_modCp], rfl, rfl⟩

end Sys2Proof.Machine
end

section
/-! Settles O49 (LaunchAndDraw): the refusals, the back-pressure and the acceptance of LAUNCH and DRAW, and the parts that FEXPORT
sends (R74–R76, R121, R122, R128, R367, R368). -/

namespace Sys2Proof.Machine

/-! ### LAUNCH (R74–R76, R367) -/

/-- The record's address in A of LAUNCH and DRAW (R367). -/
abbrev State.launchPtr (s : State) (x : Ex) (o : EOps) : Nat := bits (s.readUni x o.lit .i64 o.a) 51 0

/-- The completion offset in B of LAUNCH and DRAW (R367). -/
abbrev State.launchOff (s : State) (x : Ex) (o : EOps) : Nat := (s.readUni x o.lit .w32 o.b).toNat

/-- A barrier object is no target of a CORES grid, nor of one of 2^56 blocks (R76). -/
def LRec.barrierBad (r : LRec) (bar : Bool) : Prop := bar = true ∧ (r.cores = true ∨ 2 ^ 56 ≤ r.blocks)

theorem LRec.barrierBad_iff (r : LRec) (bar : Bool) : (bar && (r.cores || 2 ^ 56 ≤ r.blocks)) = true ↔ r.barrierBad bar := by
  rw [LRec.barrierBad, Bool.and_eq_true, Bool.or_eq_true, decide_eq_true_iff]

/-- The launch that LAUNCH enters: a CORES grid that cannot fit is over as it begins, with STATUS 10 (R92). -/
def Checked.accepted (c : Checked) (t : State) (x : Ex) (va : Nat) (g : Target) : Launch :=
  let q := t.useSeq x.g.issuer
  let l := c.launch va x.g.issuer x.g.stack (t.lends x.g).1 (t.lends x.g).2 q.1 g
  if l.lrec.cores && !({ q.2 with nextId := q.2.nextId + 1 } : State).gridFits q.2.nextId l then { l with status := some 10 } else l

theorem Checked.accepted_eq (c : Checked) (t : State) (x : Ex) (va : Nat) (g : Target) : ∃ st : Option Nat,
    c.accepted t x va g = { c.launch va x.g.issuer x.g.stack (t.lends x.g).1 (t.lends x.g).2 (t.useSeq x.g.issuer).1 g with
      status := st } ∧ (c.lrec.cores = false → st = none) ∧ ∀ n, st = some n → n = 10 := by
  unfold Checked.accepted
  dsimp only
  split
  case isTrue h =>
    have hcores : c.lrec.cores = true := (Bool.and_eq_true_iff.1 h).1
    exact ⟨some 10, rfl, fun hn => by simp [hcores] at hn, fun n hn => (Option.some.inj hn).symm⟩
  case isFalse => exact ⟨none, rfl, fun _ => rfl, fun n hn => by cases hn⟩

/-- The state that holds the accepted launch under a name of its own. -/
def State.enterLaunch (t : State) (x : Ex) (l : Launch) : State :=
  let q := (t.useSeq x.g.issuer).2
  { q with nextId := q.nextId + 1, launches := q.launches.insert q.nextId l }

section
variable {s : State} {x : Ex} {o : EOps} (h : s.ex? = some x)
include h

theorem execLaunch_illegal (hb : badLaunch x.g o = true) : execLaunch o s = .next (s.illegal x) := by
  rw [execLaunch, withEx_eq h, if_pos hb]

theorem execDraw_illegal (hb : badLaunch x.g o = true) : execDraw o s = .next (s.illegal x) := by
  rw [execDraw, withEx_eq h, if_pos hb]

variable (hb : badLaunch x.g o = false)
include hb

theorem execLaunch_waits (hf : s.launchFull x.g.issuer = true) : execLaunch o s = .next (s.park x .launch) := by
  rw [execLaunch, withEx_eq h, if_neg (Bool.eq_false_iff.1 hb), if_pos hf]

theorem execDraw_waits (hf : s.launchFull x.g.issuer = true) : execDraw o s = .next (s.park x .launch) := by
  rw [execDraw, withEx_eq h, if_neg (Bool.eq_false_iff.1 hb), if_pos hf]

variable (hf : s.launchFull x.g.issuer = false)
include hf

theorem execLaunch_halts {z : Halt}
    (hc : (s.releaseFor x.g 4).checkLaunch ((s.releaseFor x.g 4).who x.g) (s.launchPtr x o) = .error z) :
    execLaunch o s = .next ((s.releaseFor x.g 4).haltEx x z .read) := by
  simp only [execLaunch, withEx_eq h, hb, hf, hc]
  rfl

section
variable {c : Checked} {t : State}
  (hc : (s.releaseFor x.g 4).checkLaunch ((s.releaseFor x.g 4).who x.g) (s.launchPtr x o) = .ok (c, t))
include hc

theorem execLaunch_fails (h0 : c.code ≠ 0) : execLaunch o s = .next (t.answer x o.d (lres 0 c.code)) := by
  simp only [execLaunch, withEx_eq h, hb, hf, hc, if_pos h0]
  rfl

theorem execLaunch_noTarget (h0 : c.code = 0) (ht : t.targetOf x.g (s.launchOff x o) (o.minor.getLsbD 8) = none) :
    execLaunch o s = .next (t.answer x o.d (lres 0 11)) := by
  simp only [execLaunch, withEx_eq h, hb, hf, hc, if_neg (not_not.2 h0), ht]
  rfl

variable {g : Target} (h0 : c.code = 0) (ht : t.targetOf x.g (s.launchOff x o) (o.minor.getLsbD 8) = some g)
include h0 ht

theorem execLaunch_badBarrier (hr : c.lrec.barrierBad (o.minor.getLsbD 8)) :
    execLaunch o s = .next (t.answer x o.d (lres 0 11)) := by
  simp only [execLaunch, withEx_eq h, hb, hf, hc, if_neg (not_not.2 h0), ht, if_pos ((c.lrec.barrierBad_iff _).2 hr)]
  rfl

theorem execLaunch_accepts (hr : ¬ c.lrec.barrierBad (o.minor.getLsbD 8)) :
    execLaunch o s = .next ((t.enterLaunch x (c.accepted t x (s.launchPtr x o) g)).answer x o.d
      (lres (t.useSeq x.g.issuer).1 0)) := by
  simp only [execLaunch, withEx_eq h, hb, hf, hc, if_neg (not_not.2 h0), ht, if_neg fun k => hr ((c.lrec.barrierBad_iff _).1 k)]
  rfl

end

end

/-! ### DRAW (R121, R122, R367) -/

/-- The state in which a draw has used its issuer's sequence number and its stream's primitive numbers (R74, R122). -/
def State.useDraw (w : State) (x : Ex) (c : DrawChecked) : State :=
  ((w.useSeq x.g.issuer).2.useStream x.g.issuer (c.drec.tris * c.drec.icount) (c.drec.dh :: c.drec.ch ++ [c.drec.layer])).2.2

theorem State.useDraw_frame (w : State) (x : Ex) (c : DrawChecked) : (w.useDraw x c).nextId = w.nextId ∧
    (w.useDraw x c).launches = w.launches ∧ (w.useDraw x c).draws = w.draws := by
  unfold State.useDraw
  cases x.g.issuer <;> exact ⟨rfl, rfl, rfl⟩

/-- A launch of draw `did` as its checked record gives it. -/
def DrawChecked.launch (c : DrawChecked) (r : Checked) (va : Nat) (w : State) (x : Ex) (did : Nat) : Launch :=
  r.launch va (.draw did) x.g.stack (w.lends x.g).1 (w.lends x.g).2 (w.useSeq x.g.issuer).1 c.target

/-- The vertex launch: as many blocks as its vertices fill. -/
def DrawChecked.vertex (c : DrawChecked) (w : State) (x : Ex) (did : Nat) : Launch :=
  let v := c.launch c.vert c.drec.vlr w x did
  { v with role := .vertex, lrec := lineGrid { v.lrec with cores := false }
           total := (c.drec.vcount * c.drec.icount + v.lrec.lanes - 1) / v.lrec.lanes }

/-- The fragment launch: its blocks come with the quads. -/
def DrawChecked.fragment (c : DrawChecked) (w : State) (x : Ex) (did : Nat) : Launch :=
  let f := c.launch c.frag c.drec.flr w x did
  { f with role := .fragment, lrec := lineGrid { f.lrec with cores := false, clsize := 1 }, total := 0 }

/-- The accepted draw `did`, whose launches follow it in number. -/
def DrawChecked.draw (c : DrawChecked) (w : State) (x : Ex) (did : Nat) : Draw :=
  let i := x.g.issuer
  let key := c.drec.dh :: c.drec.ch ++ [c.drec.layer]
  let r := (w.useSeq i).2.useStream i (c.drec.tris * c.drec.icount) key
  let f := c.fragment w x did
  { drec := c.drec, ctx := ((w.useDraw x c).who x.g).ctx, issuer := i, home := x.g.stack, prio := f.prio, seq := (w.useSeq i).1
    target := c.target, vlaunch := did + 1, flaunch := did + 2, flrec := f.lrec, psn0 := r.1, tris := c.drec.tris * c.drec.icount
    gate := r.2.1 != key, uses := c.drec.targets, extW := c.ext.1, extH := c.ext.2 }

/-- The state that holds the accepted draw and its two launches. -/
def State.enterDraw (w : State) (x : Ex) (c : DrawChecked) : State :=
  let u := w.useDraw x c
  let did := u.nextId
  { u with nextId := did + 3, draws := u.draws.insert did (c.draw w x did)
           launches := (u.launches.insert (did + 1) (c.vertex w x did)).insert (did + 2) (c.fragment w x did) }

section
variable {s : State} {x : Ex} {o : EOps} (h : s.ex? = some x) (hb : badLaunch x.g o = false)
  (hf : s.launchFull x.g.issuer = false)
include h hb hf

theorem execDraw_halts {z : Halt} (hc : (s.releaseFor x.g 4).checkDraw ((s.releaseFor x.g 4).who x.g) x.g (s.launchPtr x o)
      (s.launchOff x o) (o.minor.getLsbD 8) = .error z) :
    execDraw o s = .next ((s.releaseFor x.g 4).haltEx x z .read) := by
  simp only [execDraw, withEx_eq h, hb, hf, hc]
  rfl

variable {c : DrawChecked} {t : State} (hc : (s.releaseFor x.g 4).checkDraw ((s.releaseFor x.g 4).who x.g) x.g (s.launchPtr x o)
  (s.launchOff x o) (o.minor.getLsbD 8) = .ok (c, t))
include hc

theorem execDraw_fails (h0 : c.code ≠ 0) : execDraw o s = .next (t.answer x o.d (lres 0 c.code)) := by
  simp only [execDraw, withEx_eq h, hb, hf, hc, if_pos h0]
  rfl

variable (h0 : c.code = 0)
include h0

theorem execDraw_noUse {z : Halt} (hu : t.addUse ((s.releaseFor x.g 4).who x.g).core ((s.releaseFor x.g 4).who x.g).ctx true
      c.drec.targets = .error z) :
    execDraw o s = .next (t.haltEx x z .hw) := by
  simp only [execDraw, withEx_eq h, hb, hf, hc, if_neg (not_not.2 h0), hu]
  rfl

theorem execDraw_accepts {w : State} (hu : t.addUse ((s.releaseFor x.g 4).who x.g).core ((s.releaseFor x.g 4).who x.g).ctx true
      c.drec.targets = .ok w) :
    execDraw o s = .next ((w.enterDraw x c).answer x o.d (lres (w.useSeq x.g.issuer).1 0)) := by
  simp only [execDraw, withEx_eq h, hb, hf, hc, if_neg (not_not.2 h0), hu, State.enterDraw, DrawChecked.draw,
    DrawChecked.vertex, DrawChecked.fragment, DrawChecked.launch, State.useDraw, State.fresh]
  obtain ⟨seq, v⟩ := w.useSeq x.g.issuer
  obtain ⟨psn, old, u⟩ := v.useStream x.g.issuer (c.drec.tris * c.drec.icount) (c.drec.dh :: c.drec.ch ++ [c.drec.layer])
  rfl

end

/-! ### FEXPORT (R128, R368) -/

/-- What FEXPORT refuses in a fragment group of draw `d` that exports for `f`. -/
def badExport (x : Ex) (f : FragInfo) (d : Draw) (n : Nat) (o : EOps) : Bool :=
  !x.whole || f.exported || ((n == 1 || n == 2) && !d.drec.zexp) || (n == 0 && d.drec.zexp) ||
    ((n == 0 || n == 2) && badColour x.g d o.a) || ((n == 1 || n == 2) && (!isVec o.b || badSrc x.g .w32 o.b))

theorem badExport_iff (x : Ex) (f : FragInfo) (d : Draw) (n : Nat) (o : EOps) : badExport x f d n o = true ↔
    x.whole = false ∨ f.exported = true ∨ ((n = 1 ∨ n = 2) ∧ d.drec.zexp = false) ∨ (n = 0 ∧ d.drec.zexp = true) ∨
      ((n = 0 ∨ n = 2) ∧ badColour x.g d o.a = true) ∨ ((n = 1 ∨ n = 2) ∧ (isVec o.b = false ∨ badSrc x.g .w32 o.b = true)) := by
  simp [badExport, or_assoc]

/-- The lanes whose fragments FEXPORT sends: those of the path that are no helpers. -/
def Ex.exportLanes (x : Ex) (n : Nat) : List Nat :=
  if n = 3 then [] else x.list.filter fun l => !(x.g.readM 15).getLsbD l

theorem Ex.exportLanes_eq (x : Ex) (n : Nat) :
    x.exportLanes n = if n = 3 then [] else x.list.filter fun l => (x.g.readM 15).getLsbD l = false := by
  simp [Ex.exportLanes]

section
variable {s : State} {x : Ex} {form : BitVec 2} {o : EOps} (h : s.ex? = some x)
include h

theorem execFexport_noDraw (hq : x.g.isQueue = false) (hn : x.g.frag = none ∨ s.drawOf x.g = none) :
    execFexport form o s = .next (s.illegal x) := by
  rw [execFexport, kernelOnly_group h _ hq]
  split
  · simp_all
  · rfl

theorem execFexport_draw (hq : x.g.isQueue = false) {f : FragInfo} {d : Draw} (hf : x.g.frag = some f) (hd : s.drawOf x.g = some d) :
    execFexport form o s = .next (if badExport x f d form.toNat o then s.illegal x else
      ((s.modGroup x.gid fun g => { g with frag := some { f with exported := true } }).sendParts f.set
        (x.g.fragsFor d f.set (x.exportLanes form.toNat) form.toNat o.a o.b)).finish x) := by
  rw [execFexport, kernelOnly_group h _ hq]
  simp only [hf, hd]
  rfl

end

/-! ### Back-pressure (R75) -/

theorem execLaunchBackpressureWake_wakes {s : State} {gid sid : Nat} {x : Ex} (h : s.exOf gid sid = some x)
    (hp : x.sp.park = .launch) (hf : s.launchFull x.g.issuer = false) :
    execLaunchBackpressureWake gid sid s = .next (s.unpark gid sid) := by
  simp [execLaunchBackpressureWake, h, hp, hf]

theorem execLaunchBackpressureWake_waits {s : State} {gid sid : Nat}
    (hw : ∀ x, s.exOf gid sid = some x → x.sp.park = .launch → s.launchFull x.g.issuer = true) :
    execLaunchBackpressureWake gid sid s = .next s := by
  cases h : s.exOf gid sid with
  | none => simp only [execLaunchBackpressureWake, h]
  | some x =>
    have hno : ¬ (x.sp.park = .launch && !s.launchFull x.g.issuer) = true := by simpa using hw x h
    simp only [execLaunchBackpressureWake, h, if_neg hno]

/-! ### The statement -/

/-- Settles O49: LAUNCH and DRAW by the ways in which their checks can end, FEXPORT by what it refuses. -/
theorem launchAndDraw : Obligations.LaunchAndDraw := by
  unfold Obligations.LaunchAndDraw
  refine ⟨?launching, ?exporting, fun s gid sid =>
    ⟨fun x => execLaunchBackpressureWake_wakes, execLaunchBackpressureWake_waits⟩⟩
  case launching =>
    intro s x o h va off bar r
    refine ⟨fun hb => ⟨execLaunch_illegal h hb, execDraw_illegal h hb⟩,
      fun hb hf => ⟨execLaunch_waits h hb hf, execDraw_waits h hb hf⟩,
      fun hb hf => ⟨fun z => execLaunch_halts h hb hf, fun c t hc => ⟨execLaunch_fails h hb hf hc, fun h0 hr => ?_,
        fun h0 hr g ht => ?_⟩⟩,
      fun hb hf => ⟨fun z => execDraw_halts h hb hf, fun c t hc => ⟨execDraw_fails h hb hf hc,
        fun h0 z => execDraw_noUse h hb hf hc h0, fun h0 w hu => ?_⟩⟩⟩
    · cases ht : t.targetOf x.g off bar with
      | none => exact execLaunch_noTarget h hb hf hc h0 ht
      | some g => exact execLaunch_badBarrier h hb hf hc h0 ht (hr.resolve_left (by simp [ht]))
    · obtain ⟨st, hl, hnone, hten⟩ := c.accepted_eq t x va g
      refine ⟨_, c.accepted t x va g, execLaunch_accepts h hb hf hc h0 ht fun k => hr (.inr k), rfl, ?_⟩
      rw [hl]
      exact ⟨rfl, rfl, rfl, rfl, rfl, rfl, rfl, rfl, rfl, rfl, rfl, rfl, rfl, rfl, hnone, hten⟩
    · obtain ⟨hid, hlaunches, hdraws⟩ := w.useDraw_frame x c
      refine ⟨_, c.vertex w x w.nextId, c.fragment w x w.nextId, c.draw w x w.nextId, execDraw_accepts h hb hf hc h0 hu, ?_⟩
      refine ⟨?_, ?_, rfl, rfl, rfl, rfl, rfl, rfl, rfl, rfl, rfl, rfl, rfl, rfl, rfl, rfl, rfl, rfl, rfl⟩
      · rw [← hid, ← hlaunches]; rfl
      · rw [← hid, ← hdraws]; rfl
  case exporting =>
    intro s x form o h n
    refine ⟨fun hn => ?_, fun hq f d hf hd => ?_⟩
    · cases hq : x.g.isQueue with
      | true => exact kernelOnly_queue h _ hq
      | false => exact execFexport_noDraw h hq (hn.resolve_left (by simp [hq]))
    · have hbad := badExport_iff x f d n o
      exact ⟨fun k => (execFexport_draw h hq hf hd).trans (by rw [if_pos (hbad.2 k)]),
        fun k => (execFexport_draw h hq hf hd).trans (by rw [if_neg fun j => k (hbad.1 j), x.exportLanes_eq])⟩

end Sys2Proof.Machine
end

section
/-! Settles O54 (QueuesAndHost): the enabling and disabling of queues, and the host's accesses to their pages (R68, R70, R71, R73,
R122, R380). -/

namespace Sys2Proof.Machine

/-! ### QCFG (R68, R122) -/

/-- A queue context as a write that enables it leaves it. -/
def Queue.started (k : Queue) (v : Dword) (now : Nat) : Queue :=
  { k.config v with
    en := true, run := true, fault := 0, ovr := false, err := false, psn := 0, bound := [], waits := [], readySince := now
    skipped := 0
    full := k.full.filter fun e => 16 ≤ e.1 }

theorem State.queue_modCp (s : State) (cp n : Nat) (f : CmdProc → CmdProc) : (s.modCp cp f).queue n = s.queue n := rfl
theorem State.group_modCp (s : State) (cp n : Nat) (f : CmdProc → CmdProc) : (s.modCp cp f).group n = s.group n := rfl
theorem State.queue_setGroup (s : State) (q n : Nat) (g : Group) : (s.setGroup q g).queue n = s.queue n := rfl

/-- The state in which an enabled queue has started its program; its command processor has not selected it. -/
def State.startQueue (s : State) (q : Nat) (v : Dword) : State :=
  let u := s.modQueue q fun k => k.started v (s.cp (q / 16)).cycle
  (u.setGroup q (queueProgram q (u.queue q).ctx (u.queue q).entry (((s.group q).map (·.fpstat)).getD 0))).modCp (q / 16) fun c =>
    if c.current = some q then { c with current := none } else c

theorem State.queue_startQueue (s : State) (q : Nat) (v : Dword) :
    (s.startQueue q v).queue q = (s.queue q).started v (s.cp (q / 16)).cycle := by
  rw [State.startQueue, State.queue_modCp, State.queue_setGroup, State.queue_modQueue]

theorem State.group_startQueue (s : State) (q : Nat) (v : Dword) : (s.startQueue q v).group q =
    some (queueProgram q (bits v 56 45) (128 * bits v 44 0) (((s.group q).map (·.fpstat)).getD 0)) := by
  rw [State.startQueue, State.group_modCp, State.group_setGroup, State.queue_modQueue]
  rfl

theorem execQcfgEnable_starts {s : State} {q : Nat} {v : Dword} (he : (s.queue q).en = false) (hv : v.getLsbD 63 = true)
    (hq : q < 128) : execQcfgEnable q v s = .next (s.startQueue q v) := by
  have hgo : ¬ ((s.queue q).en || !v.getLsbD 63 || 128 ≤ q) = true := by simp [he, hv, hq]
  rw [execQcfgEnable, if_neg hgo]
  rfl

theorem execQcfgEnable_enabled {s : State} {q : Nat} (v : Dword) (he : (s.queue q).en = true) :
    execQcfgEnable q v s = .next s := by
  simp [execQcfgEnable, he]

theorem execQcfgDisable_enabled {s : State} {q : Nat} {v : Dword} (he : (s.queue q).en = true) (hv : v.getLsbD 63 = false) :
    execQcfgDisable q v s = .next (s.modQueue q fun k => { k with en := false }) := by
  have hgo : ¬ (!(s.queue q).en || v.getLsbD 63) = true := by rw [he, hv]; decide
  rw [execQcfgDisable, if_neg hgo]

/-! ### The pages of a queue (R70, R71, R73) -/

/-- Without a woken waiter a word's waiters leave it to the next party (R305). -/
theorem State.serveWord_idle {s : State} {store word : Nat} (h : s.woken store word = none) (n : Nat) :
    s.serveWord store word n = s := by
  cases n with
  | zero => rfl
  | succ n => rw [State.serveWord, h]; rfl

/-- A queue's page as the host finds it behind the waiters that a change of the word's tag has woken. -/
def State.behindWaiters (s : State) (q o : Nat) : State := s.serveWord q (o / 8) (s.waitsOf q).length

section
variable {s : State} {q o : Nat} (ho : o % 8 = 0) (hm : o < 0x80)
include ho hm

theorem State.mailboxWrite_eq (v : Dword) : s.mailboxWrite q o v =
    if (s.behindWaiters q o).isFull q o then (s.behindWaiters q o).modQueue q fun k => { k with ovr := true }
    else ((s.behindWaiters q o).lsPut64 q o v).setFull q o true := by
  have hin : ¬ (o % 8 ≠ 0 || 0x80 ≤ o) = true := by simp [ho, hm]
  rw [State.mailboxWrite, if_neg hin]
  rfl

theorem State.pageRead_mailbox (dest : Nat) : s.pageRead dest q o = s.answerTo dest (s.lsRead q o 8) := by
  rw [State.pageRead, if_neg (not_not.2 ho), if_pos hm]

/-- The consuming read of a mailbox word (R70). -/
theorem State.pageRead_consuming (dest : Nat) : s.pageRead dest q (o + 0x100) =
    if (s.behindWaiters q o).isFull q o then
      ((s.behindWaiters q o).answerTo dest ((s.behindWaiters q o).lsRead q o 8)).setFull q o false
    else (s.behindWaiters q o).answerTo dest (natToBytes 8 0) := by
  have halign : ¬ (o + 0x100) % 8 ≠ 0 := by omega
  have hnotMailbox : ¬ o + 0x100 < 0x80 := by omega
  have hnotQstat : ¬ o + 0x100 = 0x80 := by omega
  have hin : ¬ (o + 0x100 < 0x100 || 0x180 ≤ o + 0x100) = true := by
    simp only [Bool.or_eq_true, decide_eq_true_iff]; omega
  rw [State.pageRead, if_neg halign, if_neg hnotMailbox, if_neg hnotQstat, if_neg hin]
  simp only [Nat.add_sub_cancel]
  rfl

end

theorem State.pageRead_qstat (s : State) (dest q : Nat) :
    s.pageRead dest q 0x80 = s.answerTo dest (natToBytes 8 (s.queue q).qstat.toNat) := rfl

theorem State.qstatWrite_qstat (s : State) (q : Nat) (v : Dword) : s.qstatWrite q 0x80 v =
    s.modQueue q fun k => { k with ovr := k.ovr && !v.getLsbD 17, err := k.err && !v.getLsbD 18 } := rfl

/-- An access of another size or off its alignment sets ERR; a read of it returns 0 (R70, R71). -/
theorem State.pageBad_shape {s : State} {q o size : Nat} (h : size ≠ 8 ∨ o % 8 ≠ 0) (dest : Nat) (w : Bool) :
    s.pageBad dest q o size w = if w then s.modQueue q fun k => { k with err := true }
      else (s.modQueue q fun k => { k with err := true }).answerTo dest (natToBytes size 0) := by
  have hshape : (size == 8 && o % 8 == 0) = false := by simpa [← imp_iff_not_or] using h
  rw [State.pageBad, hshape]
  rfl

/-- A write beyond QSTAT sets ERR. -/
theorem State.pageBad_place {s : State} {q o : Nat} (hm : 0x80 < o) (dest : Nat) :
    s.pageBad dest q o 8 true = s.modQueue q fun k => { k with err := true } := by
  have hbad : ¬ (8 == 8 && o % 8 == 0 && (!true || o ≤ 0x80)) = true := by simp [hm]
  rw [State.pageBad]
  exact if_neg hbad

/-! ### The host window (R71, R380) -/

theorem State.hostPage_own {s : State} {q o : Nat} (hq : q < 128) (ho : o < 4096) :
    s.hostPage (524288 * s.pkg.hslot + 4096 * q + o) = some (q, o) := by
  have hslot : (524288 * s.pkg.hslot + 4096 * q + o) / 524288 = s.pkg.hslot := by omega
  have hqueue : (524288 * s.pkg.hslot + 4096 * q + o) / 4096 % 128 = q := by omega
  have hoff : (524288 * s.pkg.hslot + 4096 * q + o) % 4096 = o := by omega
  rw [State.hostPage, if_pos hslot, hqueue, hoff]

theorem State.hostPage_other {s : State} {off : Nat} (h : off / 524288 ≠ s.pkg.hslot) : s.hostPage off = none := if_neg h

section
variable {s : State} (hw : s.pkg.hostpkg ≠ s.pkg.pkgid) (off : Nat) (v : Dword)
include hw

theorem execHostMailboxWrite_noWindow : execHostMailboxWrite off v s = .next s := by rw [execHostMailboxWrite, if_pos hw]
theorem execHostConsumingRead_noWindow : execHostConsumingRead off s = .next s := by rw [execHostConsumingRead, if_pos hw]
theorem execQstatW1c_noWindow : execQstatW1c off v s = .next s := by rw [execQstatW1c, if_pos hw]
theorem execHostInvalidAccess_noWindow (size : Nat) (w : Bool) : execHostInvalidAccess off size w s = .next s := by
  rw [execHostInvalidAccess, if_pos hw]

end

section
variable {s : State} (hw : s.pkg.hostpkg = s.pkg.pkgid) {off : Nat} (v : Dword)
include hw

section
variable (hp : s.hostPage off = none)
include hp

theorem execHostMailboxWrite_forwards :
    execHostMailboxWrite off v s = .next (s.toSlot off (.hostWrite (natToBytes 8 v.toNat))) := by
  rw [execHostMailboxWrite, if_neg (not_not.2 hw), hp]
theorem execHostConsumingRead_forwards : execHostConsumingRead off s = .next (s.forwardRead off 8) := by
  rw [execHostConsumingRead, if_neg (not_not.2 hw), hp]
theorem execQstatW1c_forwards : execQstatW1c off v s = .next (s.toSlot off (.hostWrite (natToBytes 8 v.toNat))) := by
  rw [execQstatW1c, if_neg (not_not.2 hw), hp]
theorem execHostInvalidAccess_forwards (size : Nat) (w : Bool) : execHostInvalidAccess off size w s =
    .next (if w then s.toSlot off (.hostWrite (List.replicate size 0)) else s.forwardRead off size) := by
  rw [execHostInvalidAccess, if_neg (not_not.2 hw), hp]

end

variable {q o : Nat} (hp : s.hostPage off = some (q, o))
include hp

theorem execHostMailboxWrite_page : execHostMailboxWrite off v s = .next (s.mailboxWrite q o v) := by
  rw [execHostMailboxWrite, if_neg (not_not.2 hw), hp]
theorem execHostConsumingRead_page : execHostConsumingRead off s = .next (s.pageRead hostDest q o) := by
  rw [execHostConsumingRead, if_neg (not_not.2 hw), hp]
theorem execQstatW1c_page : execQstatW1c off v s = .next (s.qstatWrite q o v) := by
  rw [execQstatW1c, if_neg (not_not.2 hw), hp]
theorem execHostInvalidAccess_page (size : Nat) (w : Bool) :
    execHostInvalidAccess off size w s = .next (s.pageBad hostDest q o size w) := by
  rw [execHostInvalidAccess, if_neg (not_not.2 hw), hp]

end

/-! ### The statement -/

/-- Settles O54: QCFG from the lemmas on it, each access of the host by the page that its offset names. -/
theorem queuesAndHost : Obligations.QueuesAndHost := by
  unfold Obligations.QueuesAndHost
  refine ⟨?qcfg, ?pages, ?windows⟩
  case qcfg =>
    refine fun s q v => ⟨fun he hv hq => ?_, execQcfgEnable_enabled v, execQcfgDisable_enabled⟩
    exact ⟨_, _, _, execQcfgEnable_starts he hv hq, s.queue_startQueue q v, rfl, rfl, rfl, rfl, rfl, rfl, rfl, rfl, rfl, rfl, rfl,
      rfl, s.group_startQueue q v, rfl, rfl, rfl, rfl, rfl, rfl, rfl⟩
  case pages =>
    intro s q o v hq ho hw off u
    have hp : s.hostPage off = some (q, o) := State.hostPage_own hq ho
    refine ⟨fun hn => State.serveWord_idle hn _, fun h8 hm => ?mailbox, fun hqstat => ?qstat, fun size hbad => ?shape,
      fun h8 hm => ?place⟩
    case mailbox =>
      have hc : s.hostPage (off + 0x100) = some (q, o + 0x100) := by
        rw [Nat.add_assoc]
        exact State.hostPage_own hq (by omega)
      have write := (execHostMailboxWrite_page hw v hp).trans (congrArg _ (State.mailboxWrite_eq h8 hm v))
      have read := (execHostConsumingRead_page hw hc).trans (congrArg _ (State.pageRead_consuming h8 hm hostDest))
      exact ⟨fun hf => write.trans (congrArg _ (if_pos hf)),
        fun hf => write.trans (congrArg _ (if_neg (Bool.eq_false_iff.1 hf))),
        (execHostConsumingRead_page hw hp).trans (congrArg _ (State.pageRead_mailbox h8 hm hostDest)),
        fun hf => read.trans (congrArg _ (if_pos hf)),
        fun hf => read.trans (congrArg _ (if_neg (Bool.eq_false_iff.1 hf)))⟩
    case qstat =>
      subst hqstat
      exact ⟨execHostConsumingRead_page hw hp, execQstatW1c_page hw v hp⟩
    case shape =>
      exact ⟨(execHostInvalidAccess_page hw hp size true).trans (congrArg _ (State.pageBad_shape hbad hostDest true)),
        (execHostInvalidAccess_page hw hp size false).trans (congrArg _ (State.pageBad_shape hbad hostDest false))⟩
    case place =>
      exact (execHostInvalidAccess_page hw hp 8 true).trans (congrArg _ (State.pageBad_place hm hostDest))
  case windows =>
    intro s off size v
    refine ⟨fun hw => ?_, fun hw hslot => ?_⟩
    · exact ⟨execHostMailboxWrite_noWindow hw off v, execQstatW1c_noWindow hw off v, execHostConsumingRead_noWindow hw off,
        execHostInvalidAccess_noWindow hw off size⟩
    · have hp : s.hostPage off = none := State.hostPage_other hslot
      exact ⟨execHostMailboxWrite_forwards hw v hp, execQstatW1c_forwards hw v hp, execHostConsumingRead_forwards hw hp,
        execHostInvalidAccess_forwards hw hp size true, execHostInvalidAccess_forwards hw hp size false⟩

end Sys2Proof.Machine
end

section
/-! Settles O55 (ContextsAndWindow): contexts as they come, are retired and are torn down, and the writes of the control window's
registers (R79, R234, R344, R355, R373, R377, R398). -/

namespace Sys2Proof.Machine

/-! ### What accesses of memory leave of contexts and queues -/

theorem map_eq_ok {ε α β : Type} {x : Except ε α} {f : α → β} {b : β} (h : x.map f = .ok b) : ∃ a, x = .ok a ∧ f a = b := by
  cases x with
  | error e => cases h
  | ok a => exact ⟨a, rfl, Except.ok.inj h⟩

/-- `t` has the contexts and the queues of `s`. -/
structure CtxsKept (s t : State) : Prop where
  ctxs : t.ctxs = s.ctxs
  queues : t.queues = s.queues

namespace CtxsKept

variable {s t u : State}

theorem refl (s : State) : CtxsKept s s := ⟨rfl, rfl⟩

theorem trans (h₁ : CtxsKept s t) (h₂ : CtxsKept t u) : CtxsKept s u :=
  ⟨h₂.ctxs.trans h₁.ctxs, h₂.queues.trans h₁.queues⟩

theorem ctx (h : CtxsKept s t) (d : Nat) : t.ctx d = s.ctx d := by
  rw [State.ctx, h.ctxs]
  rfl

theorem foldl {α : Type} {f : State → α → State} (hf : ∀ s a, CtxsKept s (f s a)) (l : List α) (s : State) :
    CtxsKept s (l.foldl f s) := by
  induction l generalizing s with
  | nil => exact refl s
  | cons a l ih => exact (hf s a).trans (ih (f s a))

theorem l2Evict (s : State) (line : Nat) : CtxsKept s (s.l2Evict line) := by
  unfold State.l2Evict
  split
  · exact refl s
  · dsimp only; split <;> exact ⟨rfl, rfl⟩

theorem l2Room (s : State) (line : Nat) : CtxsKept s (s.l2Room line) := by
  unfold State.l2Room
  dsimp only
  split
  · exact refl s
  · split
    · exact l2Evict s _
    · exact refl s

theorem fillBad (s : State) (line : Nat) (m : BitVec 4) : CtxsKept s (s.fillBad line m) := by
  unfold State.fillBad
  split <;> exact ⟨rfl, rfl⟩

theorem l2Fill (s : State) (line : Nat) (m : BitVec 4) : CtxsKept s (s.l2Fill line m) := by
  unfold State.l2Fill
  split
  · split
    · exact refl s
    · exact (fillBad s line m).trans ⟨rfl, rfl⟩
  · exact ((l2Room s line).trans (fillBad _ line m)).trans ⟨rfl, rfl⟩

theorem l2Fills (s : State) (pa n : Nat) : CtxsKept s (s.l2Fills pa n) :=
  foldl (fun s a => by split; exacts [l2Fill s _ _, refl s]) _ s

theorem homePut (s : State) (c : Nat) (b : Byte) (cmp : Bool) : CtxsKept s (s.homePut c b cmp) :=
  (l2Fill s (c / 128) 15).trans ⟨rfl, rfl⟩

theorem homePuts (s : State) (pa : Nat) (cmp : Bool) (bs : List (Option Byte)) : CtxsKept s (s.homePuts pa cmp bs) := by
  induction bs generalizing s pa with
  | nil => exact refl s
  | cons b t ih =>
    refine CtxsKept.trans ?_ (ih _ _)
    split
    · exact homePut s _ _ cmp
    · exact refl s

theorem homeWrite (s : State) (pa : Nat) (bs : List (Option Byte)) (cmp : Bool) : CtxsKept s (s.homeWrite pa bs cmp) := by
  unfold State.homeWrite
  split
  · exact ⟨rfl, rfl⟩
  · exact homePuts s pa cmp bs

theorem homeRead (s : State) (pa n : Nat) : CtxsKept s (s.homeRead pa n).2 := by
  have either (far : Bool) (ms : List ThrMsg) : CtxsKept s (if far then s.free.2.ask ms else s.l2Fills pa n) := by
    cases far
    · exact l2Fills s pa n
    · exact ⟨rfl, rfl⟩
  exact either _ _

theorem offsetReg (s : State) (off : Nat) : CtxsKept s (s.offsetReg off).2 := by
  unfold State.offsetReg
  split <;> exact ⟨rfl, rfl⟩

theorem windowRegs (s : State) (off n : Nat) : CtxsKept s (s.windowRegs off n).2 := by
  induction n generalizing s off with
  | zero => exact refl s
  | succ n ih => exact (offsetReg s off).trans (ih _ _)

theorem windowRead (s : State) (off size : Nat) : CtxsKept s (s.windowRead off size).2 := by
  unfold State.windowRead
  split
  · exact ⟨rfl, rfl⟩
  · exact windowRegs s off _

theorem readParts {va : Nat} {ps : List (Mapped × Nat)} {r : List Byte × State} (h : s.readParts va ps = .ok r) :
    CtxsKept s r.2 := by
  induction ps generalizing s va r with
  | nil => cases h; exact refl _
  | cons p ps ih =>
    obtain ⟨m, n⟩ := p
    rw [State.readParts] at h
    split at h
    · dsimp only at h
      split at h
      · cases h
      · next hr =>
        have hrest := ih hr
        cases h
        exact (windowRead s _ n).trans hrest
    · split at h
      · cases h
      · dsimp only at h
        split at h
        · cases h
        · next hr =>
          have hrest := ih hr
          cases h
          exact (homeRead s m.pa n).trans hrest

theorem windowPost (s : State) (off : Nat) (bs : List Byte) : CtxsKept s (s.windowPost none off bs) := ⟨rfl, rfl⟩

theorem writeParts {va : Nat} {ps : List (Mapped × Nat)} {bs : List Byte} (h : s.writeParts va ps bs = .ok t) :
    CtxsKept s t := by
  induction ps generalizing s va bs with
  | nil => cases h; exact refl _
  | cons p ps ih =>
    obtain ⟨m, n⟩ := p
    rw [State.writeParts] at h
    split at h
    · exact (windowPost s _ _).trans (ih h)
    · exact (homeWrite s m.pa _ m.cmp).trans (ih h)

theorem engineCount (s : State) (k : Who) (va n : Nat) : CtxsKept s (s.engineCount k va n) := by
  unfold State.engineCount
  split <;> exact ⟨rfl, rfl⟩

theorem claim (s : State) (c : Nat) : CtxsKept s (s.claim c) := by
  unfold State.claim
  split <;> exact ⟨rfl, rfl⟩

theorem engineWrite {k : Who} {w : Want} {va : Nat} {bs : List Byte} {pkd : Option Bool}
    (h : s.engineWrite k w va bs pkd = .ok t) : CtxsKept s t := by
  unfold State.engineWrite at h
  split at h
  · cases h
  · split_ifs at h
    · obtain ⟨v, hv, rfl⟩ := map_eq_ok h
      exact ((engineCount s k va _).trans (writeParts hv)).trans (claim v _)

theorem markSlot {e : ExpTable} {d j : Nat} {used : Bool} (h : s.markSlot e d j used = .ok t) : CtxsKept s t := by
  unfold State.markSlot at h
  obtain ⟨ps, -, h⟩ := bind_eq_ok h
  obtain ⟨r, hr, h⟩ := bind_eq_ok h
  exact (readParts hr).trans (engineWrite h)

theorem modTable (s : State) (T : Nat) (f : ExpTable → ExpTable) : CtxsKept s (s.modTable T f) := ⟨rfl, rfl⟩

theorem dropCopy {T : Nat} {c : ExpCopy} (h : s.dropCopy T c = .ok t) : CtxsKept s t := by
  unfold State.dropCopy at h
  dsimp only at h
  split at h
  · obtain ⟨v, hv, h⟩ := bind_eq_ok h
    cases hv; cases h; exact modTable s T _
  · obtain ⟨v, hv, h⟩ := bind_eq_ok h
    cases h; exact (markSlot hv).trans (modTable v T _)

theorem modCopy (s : State) (T id : Nat) (f : ExpCopy → ExpCopy) : CtxsKept s (s.modCopy T id f) :=
  modTable s T _

theorem abandon (s : State) (T : Nat) (cs : List ExpCopy) : CtxsKept s (s.abandon T cs) := by
  induction cs generalizing s with
  | nil => exact refl s
  | cons c r ih =>
    rw [State.abandon]
    split
    · exact (dropCopy ‹_›).trans (ih _)
    · exact (modCopy s T _ _).trans (ih _)

theorem stopTables (s : State) (c : Nat) : CtxsKept s (s.stopTables c) := by
  unfold State.stopTables
  refine foldl (fun s T => ?_) _ s
  exact (abandon s T (s.table T).copies).trans (modTable _ T _)

end CtxsKept

/-! ### Contexts that come and go (R344, R355, R377) -/

theorem execCtxvfEnable_enables {s : State} {c : Nat} {v : Dword} (he : (s.ctx c).en = false) (hv : v.getLsbD 63 = true)
    (hc : c < 4096) : execCtxvfEnable c v s = .next (s.modCtx c fun k =>
      { k with en := true, vf := bits v 5 0, cfault0 := 0, cfault1 := 0, cfault2 := 0, fatal := none }) := by
  have hgo : ¬ ((s.ctx c).en || !v.getLsbD 63 || 4096 ≤ c) = true := by rw [he, hv]; simpa using hc
  rw [execCtxvfEnable, if_neg hgo]

theorem execCtxvfEnable_enabled {s : State} {c : Nat} (v : Dword) (he : (s.ctx c).en = true) : execCtxvfEnable c v s = .next s := by
  rw [execCtxvfEnable, he]
  rfl

/-- A frame's bit in the save area concerns its context alone, and of it no more than a fatal fault. -/
theorem State.markFrame_ctx (s : State) (c f : Nat) (used : Bool) :
    ((s.markFrame c f used).ctx c).frames = (s.ctx c).frames ∧ ∀ d, d ≠ c → (s.markFrame c f used).ctx d = s.ctx d := by
  have hput (u : State) (off : Nat) (bs : List Byte) (d : Nat) : (u.areaPut c 0 off bs).ctx d = u.ctx d :=
    (CtxsKept.homeWrite u _ _ false).ctx d
  have hcheck : ((s.areaCheck c 0 (f / 8) 1).ctx c).frames = (s.ctx c).frames ∧
      ∀ d, d ≠ c → (s.areaCheck c 0 (f / 8) 1).ctx d = s.ctx d := by
    unfold State.areaCheck
    split
    · refine ⟨?_, fun d hd => State.ctx_modCtx_ne _ _ hd⟩
      rw [State.engineFatal, State.setFatal, State.ctx_modCtx]
      split <;> rfl
    · exact ⟨rfl, fun _ _ => rfl⟩
  exact ⟨(congrArg Context.frames (hput _ _ _ c)).trans hcheck.1, fun d hd => (hput _ _ _ d).trans (hcheck.2 d hd)⟩

/-- Freed frames are those that a context loses; every other context stays. -/
theorem State.freeFrames_ctx (s : State) (c : Nat) (fs : List Nat) :
    ((s.freeFrames c fs).ctx c).frames = (s.ctx c).frames.filter (fun f => !fs.contains f) ∧
      ∀ d, d ≠ c → (s.freeFrames c fs).ctx d = s.ctx d := by
  have marks (l : List Nat) (u : State) : ((l.foldl (fun s k => s.markFrame c k false) u).ctx c).frames = (u.ctx c).frames ∧
      ∀ d, d ≠ c → (l.foldl (fun s k => s.markFrame c k false) u).ctx d = u.ctx d := by
    induction l generalizing u with
    | nil => exact ⟨rfl, fun _ _ => rfl⟩
    | cons k l ih =>
      obtain ⟨hf, hd⟩ := u.markFrame_ctx c k false
      exact ⟨(ih _).1.trans hf, fun d hn => ((ih _).2 d hn).trans (hd d hn)⟩
  obtain ⟨hf, hd⟩ := marks fs (s.modCtx c fun k => { k with frames := k.frames.filter fun f => !fs.contains f })
  rw [State.ctx_modCtx] at hf
  exact ⟨hf, fun d hn => (hd d hn).trans (State.ctx_modCtx_ne s _ hn)⟩

section
variable {s : State} {c : Nat} {v : Dword} (he : (s.ctx c).en = true) (hv : v.getLsbD 63 = false)
include he hv

theorem execCtxvfRetire_busy (hi : s.ctxIdle c = false) : execCtxvfRetire c v s = .next (s.log .ctxRetireRefused c 0) := by
  rw [execCtxvfRetire, he, hv, hi]
  rfl

/-- A retired context gives its frames back; every other context stays. -/
theorem execCtxvfRetire_retires (hi : s.ctxIdle c = true) : ∃ t, execCtxvfRetire c v s = .next t ∧ (t.ctx c).en = false ∧
    (t.ctx c).frames = [] ∧ (t.ctx c).cbrecs = [] ∧ ∀ d, d ≠ c → t.ctx d = s.ctx d := by
  have heq : ∃ u : State, execCtxvfRetire c v s = .next ((u.freeFrames c (s.ctx c).frames).modCtx c fun k =>
      { k with en := false, vf := bits v 5 0, cbrecs := [], tableOps := [] }) ∧ u.ctxs = s.ctxs := by
    rw [execCtxvfRetire, he, hv, hi]
    exact ⟨_, rfl, rfl⟩
  obtain ⟨u, heq, hu⟩ := heq
  have hctx (d : Nat) : u.ctx d = s.ctx d := by rw [State.ctx, hu]; rfl
  obtain ⟨hf, hd⟩ := u.freeFrames_ctx c (s.ctx c).frames
  refine ⟨_, heq, ?_, ?_, ?_, fun d hn => ?_⟩
  · rw [State.ctx_modCtx]
  · rw [State.ctx_modCtx]
    refine hf.trans (List.filter_eq_nil_iff.2 fun f hmem => ?_)
    rw [hctx] at hmem
    simpa using hmem
  · rw [State.ctx_modCtx]
  · rw [State.ctx_modCtx_ne _ _ hn, hd d hn, hctx]

end

/-! ### Teardown (R79, R355) -/

/-- The enabled queues of a context have stopped for its teardown. -/
def QueuesStopped (c : Nat) (s : State) : Prop :=
  ∀ e ∈ s.queues, e.2.en = true → e.2.ctx = c → e.2.run = false ∧ e.2.fault = 4

namespace QueuesStopped

variable {c : Nat} {s : State}

theorem of_queues {t : State} (h : QueuesStopped c s) (ht : t.queues = s.queues) : QueuesStopped c t := by
  rw [QueuesStopped, ht]
  exact h

/-- A queue's record as it is read, listed or not. -/
theorem queue (h : QueuesStopped c s) (q : Nat) (he : (s.queue q).en = true) (hc : (s.queue q).ctx = c) :
    (s.queue q).run = false ∧ (s.queue q).fault = 4 := by
  unfold State.queue KV.get at *
  cases hq : s.queues.find q with
  | none => rw [hq] at he; cases he
  | some k => rw [hq] at he hc; exact h (q, k) (KV.mem_of_find hq) he hc

theorem modQueue (h : QueuesStopped c s) (q : Nat) {f : Queue → Queue}
    (hf : ∀ k, (f k).en = k.en ∧ (f k).ctx = k.ctx ∧ (f k).run = k.run ∧ (f k).fault = k.fault) :
    QueuesStopped c (s.modQueue q f) := by
  intro e he
  rcases KV.mem_insert _ _ _ e he with rfl | he
  · obtain ⟨hen, hctx, hrun, hfault⟩ := hf (s.queue q)
    rw [hen, hctx, hrun, hfault]
    exact h.queue q
  · exact h e he

theorem tornWord (h : QueuesStopped c s) (t : Target) (seq : Word) : QueuesStopped c (s.tornWord t seq) := by
  cases t with
  | barrier b o => exact h
  | word q off =>
    by_cases hq : q < 128
    · simp only [State.tornWord, State.lsPut64, State.lsWrite, State.setFull, if_pos hq]
      refine (h.modQueue q fun k => ?_).modQueue q fun k => ?_ <;> exact ⟨rfl, rfl, rfl, rfl⟩
    · rw [State.tornWord, if_neg hq]
      exact h

theorem foldl {α : Type} {f : State → α → State} (hf : ∀ s a, QueuesStopped c s → QueuesStopped c (f s a)) (l : List α) {s : State}
    (h : QueuesStopped c s) : QueuesStopped c (l.foldl f s) := by
  induction l generalizing s with
  | nil => exact h
  | cons a l ih => exact ih (hf s a h)

theorem stopQueues (c : Nat) (s : State) : QueuesStopped c (s.stopQueues c) := by
  unfold State.stopQueues
  dsimp only
  refine foldl (fun u q hu => ?_) _ fun e he hen hctx => ?_
  · exact hu.of_queues rfl
  obtain ⟨k, -, rfl⟩ := List.mem_map.1 he
  dsimp only at hen hctx ⊢
  by_cases hin : s.queueIn c k.1 k.2 = true
  · rw [if_pos hin]; exact ⟨rfl, rfl⟩
  · rw [if_neg hin] at hen hctx
    simp [State.queueIn, hen, hctx] at hin

end QueuesStopped

/-- The record of a context that was torn down for a fault: CFAULT holds it (R355). -/
def Context.faulted (k : Context) (f : Fatal) : Context :=
  { k with
    fatal := none, cbrecs := [], tableOps := []
    cfault0 := fld f.cause 56 ||| fld f.core 47, cfault1 := fld f.fpc 0, cfault2 := fld f.faddr 0 }

/-- What is left of a torn-down context before its fault is recorded: no launch, no draw, no queue that runs. -/
theorem State.tearDown_eq (s : State) (c : Nat) (f : Fatal) : ∃ u : State,
    s.tearDown c f = (u.modCtx c (·.faulted f)).log .fatalFault c f.cause ∧
      (∀ e ∈ u.launches, e.2.lrec.ctx ≠ c) ∧ (∀ e ∈ u.draws, e.2.ctx ≠ c) ∧ QueuesStopped c u := by
  refine ⟨_, rfl, fun e he => ?launches, fun e he => ?draws, ?queues⟩
  case launches => simpa using (List.mem_filter.1 he).2
  case draws => simpa using (List.mem_filter.1 he).2
  case queues =>
    refine QueuesStopped.of_queues (QueuesStopped.foldl (fun u e hu => hu.tornWord e.2.target e.2.seq) _
      (QueuesStopped.foldl (fun u e hu => ?_) _
        ((QueuesStopped.stopQueues c _).of_queues (CtxsKept.stopTables _ c).queues))) rfl
    split
    · exact hu.tornWord e.2.target e.2.seq
    · exact hu

theorem execContextTeardown_none {s : State} {c : Nat} (h : (s.ctx c).fatal = none) : execContextTeardown c s = .next s := by
  rw [execContextTeardown, h]

theorem execContextTeardown_fatal {s : State} {c : Nat} {f : Fatal} (h : (s.ctx c).fatal = some f) :
    execContextTeardown c s = .next (s.tearDown c f) := by
  rw [execContextTeardown, h]

/-! ### The control window (R234, R373, R398) -/

section
variable (s : State) {off size : Nat} (v : Dword)

theorem execCtrlWindowRegWrite_discarded (h : size ≠ 8 ∨ off % 8 ≠ 0 ∨ wregAt off = none) :
    execCtrlWindowRegWrite off size v s = .next (s.log .windowAccess off size) := by
  unfold execCtrlWindowRegWrite
  split
  · rfl
  · next hshape =>
    rw [not_or] at hshape
    rw [(h.resolve_left hshape.1).resolve_left hshape.2]

theorem execCtrlWindowRegWrite_register (h8 : size = 8) (hoff : off % 8 = 0) {r : WReg} (hr : wregAt off = some r) :
    execCtrlWindowRegWrite off size v s = .next (s.plainWrite r off v) := by
  have hshape : ¬ (size ≠ 8 ∨ off % 8 ≠ 0) := by omega
  rw [execCtrlWindowRegWrite, if_neg hshape, hr]

end

theorem State.plainWrite_stcount (s : State) (n off : Nat) {v : Dword} (h : bits v 16 0 ≤ 65536) :
    s.plainWrite (.stcount n) off v = s.modCtx n fun x => { x with stcount := v &&& 0x1FFFF } :=
  if_neg (Nat.not_lt.2 h)

/-- CSAVE keeps its value while a block of the context is there. -/
theorem State.plainWrite_csave (s : State) (n off : Nat) (v : Dword) : s.plainWrite (.csave n) off v =
    if s.blocks.any fun b => b.2.ctx == n then s else s.modCtx n fun x => { x with csave := v &&& 0xFFFFFFFFFFFF0000 } := rfl

/-- Where a die's Carafe area may lie: nowhere, or within the die's far memory (R234). -/
def cfareaInside (s : State) (d : Nat) (v : Dword) : Prop :=
  let n := bits v 63 52 * 2 ^ 24
  let a := bits v 51 24 * 2 ^ 24
  let lo := s.pkg.pkgid * 2 ^ 42 + farBase + d * farDie
  n = 0 ∨ (lo ≤ a ∧ a + n ≤ lo + farDie)

section
variable {s : State} {d : Nat} (v : Dword)

theorem execCfareaWrite_away (ha : (s.die d).tiles.any (·.away) = true) : execCfareaWrite d v s = .next s := by
  rw [execCfareaWrite, ha, Bool.or_true]
  rfl

variable (hd : d < 8) (ha : ¬ (s.die d).tiles.any (·.away) = true)
include hd ha

theorem execCfareaWrite_here : ∃ outside : Bool, (outside = true ↔ ¬ cfareaInside s d v) ∧ execCfareaWrite d v s =
    .next (if outside then s.log .cfareaRefused d v.toNat else s.modDie d fun d => { d with cfarea := v &&& 0xFFFFFFFFFF000000 }) := by
  have hgo : ¬ (8 ≤ d || (s.die d).tiles.any (·.away)) = true := by
    rw [Bool.or_eq_true, decide_eq_true_iff]
    exact not_or.2 ⟨Nat.not_le.2 hd, ha⟩
  unfold execCfareaWrite
  dsimp only
  rw [if_neg hgo]
  refine ⟨_, ?_, rfl⟩
  simp only [cfareaInside, ne_eq, decide_not, Bool.and_eq_true, Bool.not_eq_true', decide_eq_false_iff_not, Bool.and_eq_false_iff]
  omega

theorem execCfareaWrite_moves (h : cfareaInside s d v) :
    execCfareaWrite d v s = .next (s.modDie d fun d => { d with cfarea := v &&& 0xFFFFFFFFFF000000 }) := by
  obtain ⟨b, hb, he⟩ := execCfareaWrite_here v hd ha
  rw [he, if_neg fun k => hb.1 k h]

theorem execCfareaWrite_refused (h : ¬ cfareaInside s d v) : execCfareaWrite d v s = .next (s.log .cfareaRefused d v.toNat) := by
  obtain ⟨b, hb, he⟩ := execCfareaWrite_here v hd ha
  rw [he, if_pos (hb.2 h)]

end

theorem execPerfselWrite_clears {c : Nat} (hc : c < 320) (v : Dword) (s : State) : execPerfselWrite c v s =
    .next (s.modCore c fun k =>
      { k with perfsel := v &&& 0xFFFFFFFF, perfcnt0 := 0, perfcnt1 := 0, perfcnt2 := 0, perfcnt3 := 0 }) := by
  rw [execPerfselWrite, if_neg (Nat.not_le.2 hc)]

/-! ### The statement -/

/-- Settles O55: contexts from the frames of retirement and of teardown, the window from the rule of each register. -/
theorem contextsAndWindow : Obligations.ContextsAndWindow := by
  unfold Obligations.ContextsAndWindow
  refine ⟨⟨?contexts, ?teardown⟩, ?access, ?plain, ?cfarea, ?perfsel⟩
  case contexts =>
    refine fun s c v => ⟨execCtxvfEnable_enables, execCtxvfEnable_enabled v, execCtxvfRetire_busy, fun he hv hi => ?_⟩
    obtain ⟨t, hexec, hen, hframes, hrecs, hothers⟩ := execCtxvfRetire_retires he hv hi
    refine ⟨t, hexec, hen, fun f _ hf => ?_, hrecs, fun d hd => hothers d hd.symm⟩
    rw [hframes] at hf
    cases hf
  case teardown =>
    refine fun s c => ⟨execContextTeardown_none, fun f hf => ⟨_, execContextTeardown_fatal hf, ?_⟩⟩
    obtain ⟨u, heq, hlaunches, hdraws, hqueues⟩ := s.tearDown_eq c f
    have hctx := u.ctx_modCtx c (·.faulted f)
    rw [heq]
    exact ⟨congrArg Context.fatal hctx, congrArg Context.cfault0 hctx, congrArg Context.cfault1 hctx,
      congrArg Context.cfault2 hctx, hlaunches, hdraws, hqueues⟩
  case access =>
    exact fun s off size v => ⟨execCtrlWindowRegWrite_discarded s v, fun h8 hoff r => execCtrlWindowRegWrite_register s v h8 hoff⟩
  case plain =>
    refine fun s n off v => ⟨rfl, rfl, rfl, rfl, s.plainWrite_stcount n off, fun h => ?_, fun h => ?_, fun k => rfl, rfl⟩
    · rw [State.plainWrite_csave, if_pos h]
    · rw [State.plainWrite_csave, if_neg (Bool.eq_false_iff.1 h)]
  case cfarea =>
    exact fun s d v => ⟨fun _ => execCfareaWrite_away v, execCfareaWrite_moves v, execCfareaWrite_refused v⟩
  case perfsel =>
    refine fun s c v hc => ⟨_, execPerfselWrite_clears hc v s, ?_⟩
    rw [State.core_modCore]
    exact ⟨rfl, rfl, rfl, rfl, rfl, fun k hk => State.core_modCore_ne s _ hk, rfl, rfl⟩

end Sys2Proof.Machine
end

section
/-! Settles O58 (BlockLifeAndCompletion): how blocks are placed, opened by Tamper, started, released, retired and killed, and how a
launch's completion word lands (R76–R78, R81, R89, R92, R95–R97, R212). -/

namespace Sys2Proof.Machine

/-! ### Placement (R81, R92) -/

section
variable {s : State} {lid : Nat} {l : Launch} {rest : List (Nat × Launch)} (ho : s.placeOrder = (lid, l) :: rest)
include ho

theorem execWdPlaceBlock_grid (hw : l.wantsAll = true) : execWdPlaceBlock s = .next s := by
  simp [execWdPlaceBlock, ho, hw]

theorem execWdPlaceBlock_places (hw : l.wantsAll = false) (hs : s.pkg.stopped = false) {t : State}
    (ht : s.placeNext lid l true = some t) : execWdPlaceBlock s = .next t := by
  simp only [execWdPlaceBlock, ho, hw, hs, State.placeFirst, ht]
  rfl

theorem execCoresGridPlace_noGrid (hw : l.wantsAll = false) : execCoresGridPlace s = .next s := by
  simp [execCoresGridPlace, ho, hw]

theorem execCoresGridPlace_places (hw : l.wantsAll = true) (hs : s.pkg.stopped = false) {t : State}
    (ht : s.placeAll lid true (l.total + 1) = some t) :
    execCoresGridPlace s = .next (t.modLaunch lid fun l => { l with placedAll := true }) := by
  simp only [execCoresGridPlace, ho, hw, hs, ht]
  rfl

end

/-! ### Tamper (R97) -/

section
variable {s : State} {core blk : Nat} {rest : List Nat} {b : Block} {l : Launch} (hq : (s.core core).tamperQ = blk :: rest)
  (hb : s.block blk = some b) (hl : s.launch b.launch = some l) (hh : (s.core core).held = false) (hd : b.dying = false)
  (ht : b.ttokens = [])
include hq hb hh hd ht

theorem State.tamperReady_head : s.tamperReady core = true := by
  simp [State.tamperReady, hq, hb, hh, hd, ht, anyPending]

include hl

/-- What Tamper makes of the block at the head of its queue, where nothing keeps it back. -/
theorem execTamperChunk_ready :
    let k : Who := ⟨some core, b.ctx, l.priv⟩
    let d := Bind.of (l.lrec.binds.getD b.tbind 0)
    (b.topen = false → (∀ t, s.tamperOpen k blk b l d = .ok (some t) → execTamperChunk core s = .next t) ∧
      (s.tamperOpen k blk b l d = .ok none → execTamperChunk core s = .next s)) ∧
    (b.topen = true → ((s.core core).blocked blk blk = true → execTamperChunk core s = .next s) ∧
      ((s.core core).blocked blk blk = false → ∀ t, s.tamperWork k blk b l d = .ok t → execTamperChunk core s = .next t)) := by
  intro k d
  have hready := State.tamperReady_head hq hb hh hd ht
  have hinvalid : anyInvalid b.ttokens = false := by rw [ht]; rfl
  refine ⟨fun ho => ⟨fun t h => ?_, fun h => ?_⟩, fun ho => ⟨fun hx => ?_, fun hx t h => ?_⟩⟩ <;>
    simp only [execTamperChunk, hq, List.headD_cons, hb, Option.bind_some, hl, hready, hinvalid, ho]
  · simp only [k, d] at h
    rw [h]
    rfl
  · simp only [k, d] at h
    rw [h]
    rfl
  · rw [hx]; rfl
  · simp only [k, d] at h
    rw [hx, h]
    rfl

end

/-! ### The start of a block (R89, R94) -/

theorem Group.start_splits (g : Group) (entry : Nat) (m : Lanes) (fl : Flags) (now : Nat) :
    (g.start entry m fl now).splits = if m = 0 then [] else [(0, freshSplit (entry + 4) m none .no)] := rfl

theorem State.dropCluster_blocks (s : State) (c : Nat) : (s.dropCluster c).blocks = s.blocks := by
  unfold State.dropCluster
  split
  · rfl
  · dsimp only; split_ifs <;> rfl

section
variable {s : State} {blk : Nat} {b : Block} (hb : s.block blk = some b)
include hb

section
variable {l : Launch} (hl : s.launch b.launch = some l)
include hl

theorem execBlockStart_waits (hs : s.startable b l = false) : execBlockStart blk s = .next s := by
  simp [execBlockStart, hb, hl, hs]

theorem execBlockStart_starts (hs : s.startable b l = true) (ht : b.ttokens = []) {t : State}
    (hg : (if l.lrec.nbind = 0 then s.acquire b.core 4 else s).startGroups b l ⟨some b.core, b.ctx, l.priv⟩ b.groups = .ok t) :
    execBlockStart blk s =
      .next (((t.endEmpty b).modBlock blk fun b => { b with phase := .running, ttokens := [] }).putTask blk 2) := by
  have hgo : (!s.startable b l || anyPending []) = false := by rw [hs]; rfl
  simp only [execBlockStart, hb, Option.bind_some, hl, hgo, ht, List.find?_nil, hg]
  rfl

end

/-! ### Retirement and killing of a block (R78, R95, R96) -/

theorem execBlockRetire_stays (hr : s.retirable blk b = false) : execBlockRetire blk s = .next s := by
  simp [execBlockRetire, hb, hr]

theorem execBlockRetire_retires (hr : s.retirable blk b = true) :
    ∃ t, execBlockRetire blk s = .next t ∧ t.block blk = none := by
  have heq : ∃ u : State, execBlockRetire blk s = .next (State.dropCluster { u with blocks := u.blocks.erase blk } b.cluster) := by
    simp only [execBlockRetire, hb, hr]
    exact ⟨_, rfl⟩
  obtain ⟨u, heq⟩ := heq
  exact ⟨_, heq, by rw [State.block, State.dropCluster_blocks]; exact KV.find_erase_self _ blk⟩

theorem execBlockKill_alive (hd : b.dying = false) : execBlockKill blk s = .next s := by
  simp [execBlockKill, hb, hd]

/-- The blocks that die with a doomed one: those of its cluster that are still there (R95). -/
def State.doomed (s : State) (blk : Nat) (b : Block) : List Nat :=
  match s.cluster b.cluster with
  | some c => c.blocks.filter fun k => (s.block k).isSome
  | none => [blk]

theorem execBlockKill_kills (hd : b.dying = true) (ht : b.ttokens = []) {t : State}
    (hu : s.addUses (some b.core) b.ctx false ((s.doomed blk b).flatMap fun k => s.usesOf k) = .ok t) :
    execBlockKill blk s = .next (((((s.doomed blk b).foldl (fun s k => s.killBlock k) t).modCluster b.cluster fun c =>
      { c with near := [], far := [], nearDone := [] }).dropCluster b.cluster).freeRecords b.ctx) := by
  have hgo : (!b.dying || anyPending []) = false := by rw [hd]; rfl
  cases hc : s.cluster b.cluster <;> simp only [State.doomed, hc] at hu ⊢ <;>
    simp only [execBlockKill, hb, hgo, ht, List.find?_nil, hc, hu] <;> rfl

end

/-! ### The slot of an exited group (R212) -/

theorem State.sendParts_frame (s : State) (q : QuadSet) (fs : Nat → List Frag) :
    (s.sendParts q fs).groups = s.groups ∧ (s.sendParts q fs).mem = s.mem := by
  unfold State.sendParts
  split
  · exact ⟨rfl, rfl⟩
  · induction (q.quads.map (·.1)).eraseDups generalizing s with
    | nil => exact ⟨rfl, rfl⟩
    | cons n ns ih =>
      rw [List.foldl_cons, (ih _).1, (ih _).2]
      split <;> exact ⟨rfl, rfl⟩

theorem State.discard_frame (s : State) (g : Group) : (s.discard g).groups = s.groups ∧ (s.discard g).mem = s.mem := by
  unfold State.discard
  split
  · split
    · exact ⟨rfl, rfl⟩
    · exact s.sendParts_frame _ _
  · exact ⟨rfl, rfl⟩

theorem State.deregister_frame (s : State) (ctx core : Nat) :
    (s.deregister ctx core).groups = s.groups ∧ (s.deregister ctx core).mem = s.mem := by
  unfold State.deregister
  split <;> exact ⟨rfl, rfl⟩

/-- The state in which a group has left its slot. -/
def State.leaveSlot (s : State) (gid : Nat) (g : Group) : State :=
  State.deregister { s.discard g with groups := (s.discard g).groups.erase gid } g.ctx g.core

theorem State.leaveSlot_groups (s : State) (gid : Nat) (g : Group) : (s.leaveSlot gid g).groups = s.groups.erase gid := by
  rw [State.leaveSlot, (State.deregister_frame _ _ _).1]
  exact congrArg (KV.erase · gid) (s.discard_frame g).1

theorem State.leaveSlot_mem (s : State) (gid : Nat) (g : Group) : (s.leaveSlot gid g).mem = s.mem := by
  rw [State.leaveSlot, (State.deregister_frame _ _ _).2]
  exact (s.discard_frame g).2

section
variable {s : State} {gid : Nat} {g : Group} (hg : s.group gid = some g)
include hg

theorem execGroupSlotRelease_held (hf : s.slotFree gid g = false) : execGroupSlotRelease gid s =
    .next (if g.live == 0 && !g.isQueue then s.settleFor g.blk else s) := by
  simp only [execGroupSlotRelease, hg, hf]
  rfl

theorem execGroupSlotRelease_frees (hf : s.slotFree gid g = true) :
    execGroupSlotRelease gid s = .next ((s.leaveSlot gid g).settleFor g.blk) := by
  simp only [execGroupSlotRelease, hg, hf]
  rfl

end

/-! ### The end of a launch (R76, R77) -/

section
variable {s : State} {lid : Nat} {l : Launch} (hl : s.launch lid = some l)
include hl

theorem execLaunchComplete_open (ho : s.over l = false) : execLaunchComplete lid s = .next s := by
  simp [execLaunchComplete, hl, ho]

variable (ho : s.over l = true) (hs : s.pkg.stopped = false)
include ho hs

/-- A launch of a draw stores no completion word. -/
theorem execLaunchComplete_ofDraw (hr : l.role ≠ .kernel) : execLaunchComplete lid s =
    .next (State.dropDraw { s with launches := s.launches.erase lid } l.issuer) := by
  have hgo : (!s.over l || s.pkg.stopped) = false := by rw [ho, hs]; rfl
  simp only [execLaunchComplete, hl, hgo, if_pos hr]
  rfl

theorem execLaunchComplete_waits (hr : l.role = .kernel) (hc : s.completeTo l.target l.seq (l.status.getD 0) = none) :
    execLaunchComplete lid s = .next s := by
  have hgo : (!s.over l || s.pkg.stopped) = false := by rw [ho, hs]; rfl
  simp only [execLaunchComplete, hl, hgo, if_neg (not_not.2 hr), hc]
  rfl

theorem execLaunchComplete_stores (hr : l.role = .kernel) {t : State}
    (hc : s.completeTo l.target l.seq (l.status.getD 0) = some t) :
    execLaunchComplete lid s = .next (State.dropDraw { t with launches := t.launches.erase lid } l.issuer) := by
  have hgo : (!s.over l || s.pkg.stopped) = false := by rw [ho, hs]; rfl
  simp only [execLaunchComplete, hl, hgo, if_neg (not_not.2 hr), hc]
  rfl

end

/-! ### The completion word (R77) -/

theorem cword_toNat (seq : Word) {st : Nat} (h : st < 65536) : (cword seq st).toNat = 65536 * seq.toNat + st := by
  have hseq := seq.isLt
  have hshift : (seq.setWidth 64 <<< 16).toNat = seq.toNat <<< 16 := by
    rw [BitVec.toNat_shiftLeft, BitVec.toNat_setWidth_of_le (by decide), Nat.shiftLeft_eq, Nat.mod_eq_of_lt (by omega)]
  have hst : (BitVec.ofNat 64 st).toNat = st := Nat.mod_eq_of_lt (by omega)
  rw [cword, BitVec.toNat_or, hshift, hst, ← Nat.shiftLeft_add_eq_or_of_lt (i := 16) h, Nat.shiftLeft_eq, Nat.mul_comm]

theorem bits_eq (v : Dword) (hi lo : Nat) : bits v hi lo = v.toNat / 2 ^ lo % 2 ^ (hi + 1 - lo) := by
  rw [bits, BitVec.extractLsb'_toNat, Nat.shiftRight_eq_div_pow]

theorem cword_fields (seq : Word) {st : Nat} (h : st < 256) : bits (cword seq st) 47 16 = seq.toNat ∧
    bits (cword seq st) 7 0 = st ∧ bits (cword seq st) 63 48 = 0 ∧ bits (cword seq st) 15 8 = 0 := by
  have hseq := seq.isLt
  simp only [bits_eq, cword_toNat seq (show st < 65536 by omega)]
  omega

section
variable {s : State} {q off : Nat} (hq : q < 128) (seq : Word) (st : Nat)
include hq

theorem State.completeTo_full (hf : s.isFull q off = true) : s.completeTo (.word q off) seq st = none := by
  simp [State.completeTo, State.storeWord, hq, hf]

theorem State.completeTo_empty (hf : s.isFull q off = false) (hw : s.woken q (off / 8) = none) :
    s.completeTo (.word q off) seq st = some ((s.lsPut64 q off (cword seq st)).setFull q off true) := by
  simp [State.completeTo, State.storeWord, hq, hf, hw]

end

/-! ### The statement -/

/-- Settles O58: each event of a block's life from the lemmas on its branches, the completion word by its value. -/
theorem blockLifeAndCompletion : Obligations.BlockLifeAndCompletion := by
  unfold Obligations.BlockLifeAndCompletion
  refine ⟨⟨?place, ?tamper, ?start, ?block, ?slot, ?complete⟩, fun seq st => cword_fields seq,
    fun s q off seq st hq => ⟨State.completeTo_full hq seq st, State.completeTo_empty hq seq st⟩⟩
  case place =>
    exact fun s lid l rest ho => ⟨execWdPlaceBlock_grid ho, fun hw hs t => execWdPlaceBlock_places ho hw hs,
      execCoresGridPlace_noGrid ho, fun hw hs t => execCoresGridPlace_places ho hw hs⟩
  case tamper =>
    intro s core blk rest b l hq hb hl k d ready
    exact ⟨fun ⟨hh, hd, ht⟩ => (execTamperChunk_ready hq hb hl hh hd ht).1,
      fun ⟨hh, hd, ht⟩ => (execTamperChunk_ready hq hb hl hh hd ht).2⟩
  case start =>
    refine fun g entry m fl now => ⟨rfl, rfl, rfl, rfl, rfl, fun hm => ?_, fun hm => ?_⟩
    · rw [Group.start_splits, if_pos hm]
    · rw [Group.start_splits, if_neg hm]
  case block =>
    exact fun s blk b hb => ⟨fun l hl => ⟨execBlockStart_waits hb hl, fun hs ht t => execBlockStart_starts hb hl hs ht⟩,
      execBlockRetire_stays hb, execBlockRetire_retires hb, execBlockKill_alive hb,
      fun hd ht t => execBlockKill_kills hb hd ht⟩
  case slot =>
    intro s gid g hg
    refine ⟨fun hf hn => (execGroupSlotRelease_held hg hf).trans ?_, fun hf hlive hq => (execGroupSlotRelease_held hg hf).trans ?_,
      fun hf hgid => ⟨_, execGroupSlotRelease_frees hg hf, ?_, fun k hk => ?_, s.leaveSlot_mem gid g⟩⟩
    · rw [if_neg]
      simpa [← imp_iff_not_or] using hn
    · rw [hlive, hq]
      rfl
    · rw [State.group, State.leaveSlot_groups, KV.find_erase_self, if_neg (Nat.not_lt.2 hgid)]
      rfl
    · rw [State.group, State.leaveSlot_groups, KV.find_erase_ne _ hk, State.group]
  case complete =>
    exact fun s lid l hl => ⟨execLaunchComplete_open hl, fun ho hs hr => execLaunchComplete_waits hl ho hs hr,
      fun ho hs hr t => execLaunchComplete_stores hl ho hs hr, fun ho hs hr => execLaunchComplete_ofDraw hl ho hs hr⟩

end Sys2Proof.Machine
end

section
/-! Settles O56 (ChoiceOfCore): the order in which launches are placed, the core of a die that is chosen, and what a core that takes
a block has free (R81–R83, R87, R88, R92). -/

namespace Sys2Proof.Machine

/-! ### The placement order (R81) -/

theorem State.mem_placeOrder (s : State) (e : Nat × Launch) :
    e ∈ s.placeOrder ↔ e.2.prio < 8 ∧ e ∈ s.launches ∧ s.toPlace e.2 = true := by
  simp only [State.placeOrder, List.mem_flatMap, List.mem_reverse, List.mem_range, List.mem_filter, beq_iff_eq]
  constructor
  · rintro ⟨p, hp, hmem, rfl⟩
    exact ⟨hp, hmem⟩
  · rintro ⟨hp, hmem⟩
    exact ⟨_, hp, hmem, rfl⟩

theorem State.placeOrder_pairwise (s : State) : s.placeOrder.Pairwise fun a b => b.2.prio ≤ a.2.prio := by
  rw [State.placeOrder, List.pairwise_flatMap]
  have hprio {p : Nat} {e : Nat × Launch} (h : e ∈ (s.launches.filter fun l => s.toPlace l.2).filter fun l => l.2.prio == p) :
      e.2.prio = p := by simpa using (List.mem_filter.1 h).2
  refine ⟨fun p _ => List.pairwise_of_forall_mem_list fun a ha b hb => ?_, ?_⟩
  · rw [hprio ha, hprio hb]
  · rw [List.pairwise_reverse]
    refine List.pairwise_lt_range.imp fun hpq a ha b hb => ?_
    rw [hprio ha, hprio hb]
    exact hpq.le

/-! ### The chosen core (R82) -/

/-- A fit that is preferred to another: the more free register bytes, then the fewer groups. -/
def Fit.better (y x : Fit) : Bool := x.free < y.free || (x.free = y.free && y.groups < x.groups)

/-- One more core is looked at: it replaces the best so far only where its fit is better. -/
def betterOf (b : Option (Nat × Fit)) (c : Nat) (o : Option Fit) : Option (Nat × Fit) :=
  match b, o with
  | none, some y => some (c, y)
  | some x, some y => if y.better x.2 then some (c, y) else some x
  | b, none => b

/-- The best of the first `n` cores of a die. -/
def bestAmong (d : Nat) (f : Nat → Option Fit) (n : Nat) : Option (Nat × Fit) :=
  (List.range n).foldl (fun b i => betterOf b (40 * d + i) (f (40 * d + i))) none

theorem bestOf_eq (d : Nat) (f : Nat → Option Fit) : bestOf d f = bestAmong d f 40 := by
  refine List.foldl_ext _ _ _ fun b i _ => ?_
  cases b <;> cases f (40 * d + i) <;> rfl

theorem bestAmong_succ (d : Nat) (f : Nat → Option Fit) (n : Nat) :
    bestAmong d f (n + 1) = betterOf (bestAmong d f n) (40 * d + n) (f (40 * d + n)) := by
  rw [bestAmong, List.range_succ, List.foldl_append]
  rfl

theorem Fit.better_iff (y x : Fit) : y.better x = true ↔ x.free < y.free ∨ (x.free = y.free ∧ y.groups < x.groups) := by
  simp [Fit.better]

/-- The fit `y` on core `c` comes before `z` on core `k`: by free register bytes, then by groups, then by the core. -/
def Fit.comesBefore (y : Fit) (c : Nat) (z : Fit) (k : Nat) : Prop :=
  z.free < y.free ∨ (z.free = y.free ∧ (y.groups < z.groups ∨ (y.groups = z.groups ∧ c ≤ k)))

theorem Fit.comesBefore_of_better {y x : Fit} (h : y.better x = true) (c k : Nat) : y.comesBefore c x k := by
  rw [Fit.better_iff] at h
  unfold Fit.comesBefore
  omega

theorem Fit.comesBefore_of_not_better {y x : Fit} (h : ¬ y.better x = true) {c k : Nat} (hk : k ≤ c) : x.comesBefore k y c := by
  rw [Fit.better_iff] at h
  unfold Fit.comesBefore
  omega

theorem Fit.comesBefore_of_better_of_comesBefore {y x z : Fit} (h : y.better x = true) {c k : Nat} (hz : x.comesBefore c z k)
    (m : Nat) : y.comesBefore m z k := by
  rw [Fit.better_iff] at h
  unfold Fit.comesBefore at *
  omega

/-- What makes (c, y) the best of the first `n` cores of a die. -/
structure IsBest (d : Nat) (f : Nat → Option Fit) (n c : Nat) (y : Fit) : Prop where
  low : 40 * d ≤ c
  high : c < 40 * d + n
  fits : f c = some y
  best : ∀ i z, i < n → f (40 * d + i) = some z → y.comesBefore c z (40 * d + i)

section
variable {d n c : Nat} {f : Nat → Option Fit} {x : Fit}

/-- The first core that fits is the best so far. -/
theorem IsBest.first (hnone : ∀ i, i < n → f (40 * d + i) = none) (hf : f (40 * d + n) = some x) :
    IsBest d f (n + 1) (40 * d + n) x where
  low := Nat.le_add_right _ _
  high := by omega
  fits := hf
  best i z hi hz := by
    obtain rfl : i = n := by
      by_contra hne
      rw [hnone i (by omega)] at hz
      cases hz
    obtain rfl : x = z := Option.some.inj (hf.symm.trans hz)
    exact .inr ⟨rfl, .inr ⟨rfl, le_rfl⟩⟩

/-- The best core stays the best where the next one does not fit better. -/
theorem IsBest.keeps (h : IsBest d f n c x) (hnext : ∀ y, f (40 * d + n) = some y → ¬ y.better x = true) :
    IsBest d f (n + 1) c x where
  low := h.low
  high := by have := h.high; omega
  fits := h.fits
  best i z hi hz := by
    rcases Nat.lt_succ_iff_lt_or_eq.1 hi with hi | rfl
    · exact h.best i z hi hz
    · exact Fit.comesBefore_of_not_better (hnext z hz) h.high.le

/-- A core that fits better than the best so far is the best. -/
theorem IsBest.replaced (h : IsBest d f n c x) {y : Fit} (hf : f (40 * d + n) = some y) (hy : y.better x = true) :
    IsBest d f (n + 1) (40 * d + n) y where
  low := Nat.le_add_right _ _
  high := by omega
  fits := hf
  best i z hi hz := by
    rcases Nat.lt_succ_iff_lt_or_eq.1 hi with hi | rfl
    · exact Fit.comesBefore_of_better_of_comesBefore hy (h.best i z hi hz) _
    · obtain rfl : y = z := Option.some.inj (hf.symm.trans hz)
      exact .inr ⟨rfl, .inr ⟨rfl, le_rfl⟩⟩

end

/-- The best of the first `n` cores of a die: none where none of them fits, else the one that comes before every other. -/
theorem bestAmong_spec (d : Nat) (f : Nat → Option Fit) (n : Nat) :
    match bestAmong d f n with
    | none => ∀ i, i < n → f (40 * d + i) = none
    | some (c, y) => IsBest d f n c y := by
  induction n with
  | zero => exact fun i hi => absurd hi i.not_lt_zero
  | succ n ih =>
    rw [bestAmong_succ]
    cases hb : bestAmong d f n with
    | none =>
      rw [hb] at ih
      cases hf : f (40 * d + n) with
      | none =>
        intro i hi
        rcases Nat.lt_succ_iff_lt_or_eq.1 hi with hi | rfl
        · exact ih i hi
        · exact hf
      | some y => exact .first ih hf
    | some x =>
      rw [hb] at ih
      cases hf : f (40 * d + n) with
      | none => exact ih.keeps fun y hy => by rw [hf] at hy; cases hy
      | some y =>
        by_cases hy : y.better x.2 = true
        · rw [betterOf, if_pos hy]
          exact ih.replaced hf hy
        · rw [betterOf, if_neg hy]
          exact ih.keeps fun z hz => by
            obtain rfl : y = z := Option.some.inj (hf.symm.trans hz)
            exact hy

theorem bestOf_none_iff (d : Nat) (f : Nat → Option Fit) : bestOf d f = none ↔ ∀ i, i < 40 → f (40 * d + i) = none := by
  have hspec := bestAmong_spec d f 40
  rw [bestOf_eq]
  cases hb : bestAmong d f 40 with
  | none => exact ⟨fun _ => by rwa [hb] at hspec, fun _ => rfl⟩
  | some x =>
    rw [hb] at hspec
    refine ⟨fun h => (by cases h), fun h => ?_⟩
    have hx := hspec.fits
    obtain ⟨i, hi⟩ := Nat.exists_eq_add_of_le hspec.low
    rw [hi, h i (by have := hspec.high; omega)] at hx
    cases hx

theorem isBest_of_bestOf {d c : Nat} {f : Nat → Option Fit} {y : Fit} (h : bestOf d f = some (c, y)) : IsBest d f 40 c y := by
  have hspec := bestAmong_spec d f 40
  rwa [← bestOf_eq, h] at hspec

/-! ### What a core that takes a block has free (R83, R87, R88) -/

/-- The quadrant with the most free slots is one of four, and none has more. -/
theorem State.freestQuad_spec (s : State) (core : Nat) :
    s.freestQuad core < 4 ∧ ∀ q, q < 4 → s.quadFree core q ≤ s.quadFree core (s.freestQuad core) := by
  have hfold (n : Nat) : let b := (List.range n).foldl (fun b q => if s.quadFree core b < s.quadFree core q then q else b) 0
      b < max n 1 ∧ ∀ q, q < n → s.quadFree core q ≤ s.quadFree core b := by
    induction n with
    | zero => exact ⟨by simp, fun q hq => absurd hq q.not_lt_zero⟩
    | succ n ih =>
      obtain ⟨hlt, hmax⟩ := ih
      rw [List.range_succ, List.foldl_append]
      generalize (List.range n).foldl _ _ = b at hlt hmax
      simp only [List.foldl_cons, List.foldl_nil]
      split
      case isTrue h =>
        refine ⟨by omega, fun q hq => ?_⟩
        rcases Nat.lt_succ_iff_lt_or_eq.1 hq with hq | rfl
        · exact (hmax q hq).trans h.le
        · exact le_rfl
      case isFalse h =>
        refine ⟨by omega, fun q hq => ?_⟩
        rcases Nat.lt_succ_iff_lt_or_eq.1 hq with hq | rfl
        · exact hmax q hq
        · exact Nat.le_of_not_lt h
  exact hfold 4

/-- The least of a list of numbers is one of them. -/
theorem mem_of_foldl_min {l : List Nat} {m : Nat} {b : Option Nat}
    (h : l.foldl (fun b a => match b with
      | some m => some (min m a)
      | none => some a) b = some m) : m ∈ l ∨ b = some m := by
  induction l generalizing b with
  | nil => exact .inr h
  | cons a t ih =>
    rcases ih h with hm | hm
    · exact .inl (List.mem_cons_of_mem _ hm)
    · cases b with
      | none => exact .inl (Option.some.inj hm ▸ List.mem_cons_self)
      | some k =>
        rcases min_choice k a with hk | ha
        · exact .inr (hm ▸ congrArg some hk.symm)
        · exact .inl ((Option.some.inj hm ▸ ha) ▸ List.mem_cons_self)

/-- A run of local store that is found lies between the bounds, apart from every other block's. -/
theorem State.lsPlace_spec {s : State} {core lo hi n a : Nat} (h : s.lsPlace core lo hi n = some a) :
    lo ≤ a ∧ a + n ≤ hi ∧
      ∀ e ∈ s.blocksOn core, e.2.lsRun = 0 ∨ a + n ≤ e.2.lsBase ∨ e.2.lsBase + e.2.lsRun ≤ a := by
  rcases mem_of_foldl_min h with hmem | hnone
  · have hok := (List.mem_filter.1 hmem).2
    simpa [and_assoc, or_assoc] using hok
  · cases hnone

/-- What holds of a core on which a block fits: it takes blocks, and nothing of what R83 asks is missing. -/
theorem State.fit_eq_some {s : State} {l : Launch} {core regs n r : Nat} {f : Fit} (h : s.fit l core regs n (some r) = some f) :
    s.takes core = true ∧
    (s.blocksOn core = [] ∨
      ((s.core core).poolb0 = l.pb0 ∧ (s.core core).poolb1 = l.pb1 ∧ (s.core core).poolb2 = l.pb2)) ∧
    (s.groupsOn core).length + n ≤ 64 ∧ regs ≤ l.pb0 * 8192 - s.regBytes core ∧
    (∀ i, i < 4 → (n + 3 - i) / 4 ≤ s.quadFree core ((s.freestQuad core + i) % 4)) ∧
    ∃ a, s.lsPlace core (l.pb0 * 8192) (l.pb1 * 8192) r = some a ∧
      f = ⟨a, s.freestQuad core, l.pb0 * 8192 - s.regBytes core, (s.groupsOn core).length⟩ := by
  simp only [State.fit] at h
  split at h
  · cases h
  · next hgo =>
    obtain ⟨a, ha, rfl⟩ := Option.map_eq_some_iff.1 h
    simp only [Bool.or_eq_true, not_or, Bool.not_eq_true, Bool.not_eq_false', Nat.not_lt,
      List.all_eq_true, List.mem_range, decide_eq_true_eq, Bool.and_eq_true, beq_iff_eq, List.isEmpty_iff, and_assoc] at hgo
    obtain ⟨htakes, hpools, hgroups, hroom, hregs⟩ := hgo
    exact ⟨htakes, hpools, hgroups, hregs, hroom, a, ha, rfl⟩

theorem State.coreEn_of_takes {s : State} {core : Nat} (h : s.takes core = true) :
    (s.die (core / 40)).coreEn.getLsbD (core % 40) = true := by
  simp only [State.takes, Bool.and_eq_true] at h
  obtain ⟨⟨hen, -⟩, -⟩ := h
  exact hen

/-! ### The statement -/

/-- Settles O56: the order by how it is put together, the core by an induction over the cores of the die that were looked at, the
room by what a fit requires. -/
theorem choiceOfCore : Obligations.ChoiceOfCore := by
  unfold Obligations.ChoiceOfCore
  refine ⟨fun s => ⟨s.placeOrder_pairwise, fun e he => ?order⟩, fun d f => ⟨bestOf_none_iff d f, fun c y h => ?best⟩,
    fun s l core f h => ?room⟩
  case order => rw [s.mem_placeOrder, and_iff_right he]
  case best =>
    obtain ⟨hlow, hhigh, hfits, hbest⟩ := isBest_of_bestOf h
    exact ⟨hlow, hhigh, hfits, hbest⟩
  case room =>
    obtain ⟨htakes, hpools, hgroups, hregs, hroom, a, ha, rfl⟩ := State.fit_eq_some h
    obtain ⟨hlo, hhi, hapart⟩ := State.lsPlace_spec ha
    obtain ⟨hq, hmost⟩ := s.freestQuad_spec core
    exact ⟨State.coreEn_of_takes htakes, hpools, hgroups, hregs, rfl, hlo, hhi, hapart, hq, hmost, hroom⟩

end Sys2Proof.Machine
end

section
/-! Settles O57 (Swizzle): the patterns of a transform binding of kind 6 (R99). -/

namespace Sys2Proof.Machine

/-! ### The patterns (R99) -/

/-- A row of a pattern has a power of two of units, and no row takes more offsets than that. -/
theorem swizzle_row : ∀ p < 8, ∃ j < 5, (swizzle p).1 = 2 ^ j ∧ 0 < (swizzle p).2 ∧ (swizzle p).2 ≤ 2 ^ j := by decide

section
variable (u : Nat) {j x : Nat} (hx : x < 2 ^ j)
include hx

/-- An offset below a row's width leaves a unit in its row. -/
theorem row_of_xor : (u ^^^ x) / 2 ^ j = u / 2 ^ j := by
  rw [Nat.xor_div_two_pow, Nat.div_eq_of_lt hx, Nat.xor_zero]

/-- An offset below a row's width acts on a unit's place as on its column. -/
theorem row_add_col_xor : u / 2 ^ j * 2 ^ j + ((u % 2 ^ j) ^^^ x) = u ^^^ x := by
  have hcol : (u ^^^ x) % 2 ^ j = (u % 2 ^ j) ^^^ x := by rw [Nat.xor_mod_two_pow, Nat.mod_eq_of_lt hx]
  rw [← row_of_xor u hx, ← hcol, Nat.div_add_mod']

end

theorem unswizzle_eq (p t : Nat) : unswizzle p t = t ^^^ (t / (swizzle p).1 % (swizzle p).2) := by
  change (t / (swizzle p).1 * (swizzle p).1 + t % (swizzle p).1) ^^^ (t / (swizzle p).1 % (swizzle p).2) = _
  rw [Nat.div_add_mod']

/-- What stands at the place of a unit is that unit, and the place is in the unit's row. -/
theorem unswizzle_place {p : Nat} (hp : p < 8) (u : Nat) :
    let w := (swizzle p).1
    let k := (swizzle p).2
    let place := u / w * w + ((u % w) ^^^ (u / w % k))
    unswizzle p place = u ∧ place / w = u / w := by
  intro w k place
  obtain ⟨j, -, hw, hk, hkw⟩ := swizzle_row p hp
  have hx : u / w % k < 2 ^ j := (Nat.mod_lt _ hk).trans_le hkw
  have hplace : place = u ^^^ (u / w % k) := by
    simp only [place, w, hw] at hx ⊢
    exact row_add_col_xor u hx
  have hrow : place / w = u / w := by
    rw [hplace]
    simp only [w, hw] at hx ⊢
    exact row_of_xor u hx
  refine ⟨?_, hrow⟩
  rw [unswizzle_eq, hrow, hplace, Nat.xor_assoc, Nat.xor_self, Nat.xor_zero]

/-! ### Chunks (R98, R99) -/

section
variable (s : State) (k : Who) (core blk n c : Nat) (b : Bind) (e : Ste)

/-- Tamper writes one place of a swizzled binding: the unit that is stored there. -/
def State.tamperUnit (t : Nat) : Except Halt State :=
  (s.tamperBytes k core b.src e (n * b.bytes + 16 * unswizzle b.aux t) 16).bind fun r => .ok (r.2.lsWrite blk (b.doff + 16 * t) r.1)

theorem State.tamperPart_swizzle (idx : Option Ste) (hk : b.kind = 6) : s.tamperPart k core blk n b (some e) idx c =
    ((List.range (min 1024 (b.bytes - 1024 * c) / 16)).foldlM (fun (s : State) i =>
      s.tamperUnit k core blk n b e (64 * c + i)) s : Except Halt State).map fun t => (t, 0) := by
  simp only [State.tamperPart, hk]
  rfl

end

/-! ### The statement -/

/-- Settles O57: the offset of a row is an involution on its units, and Tamper reads at each place by it. -/
theorem swizzle_holds : Obligations.Swizzle := by
  unfold Obligations.Swizzle
  exact ⟨rfl, fun p u hp => unswizzle_place hp u, rfl, rfl,
    fun s k core blk n c b e idx hk => s.tamperPart_swizzle k core blk n c b e idx hk⟩

end Sys2Proof.Machine
end

section
/-! Settles O59 (EvictionAndReturn): what a core saves, the bound of a drain, what saving and putting back leave of a group, and the
events by which room is made and work returns (R93, R175, R178, R349–R352). -/

namespace Sys2Proof

/-! ### Tables -/

theorem KV.find_map {α β : Type} (f : Nat → α → β) (m : KV α) (k : Nat) : (KV.map f m).find k = (m.find k).map (f k) := by
  induction m with
  | nil => rfl
  | cons e t ih => by_cases hk : k = e.1 <;> simp_all [KV.map, KV.find]

namespace Machine

/-! ### What accesses of memory leave of the groups (R217–R222) -/

/-- `t` differs from `s` at most in memory and its caches, the package, the cores and the free values that it has taken. -/
def MemoryOnly (s t : State) : Prop :=
  t = { s with
    mem := t.mem, tags := t.tags, l2 := t.l2, poison := t.poison, pkg := t.pkg, cores := t.cores, freeCount := t.freeCount }

namespace MemoryOnly

variable {s t u : State}

theorem refl (s : State) : MemoryOnly s s := rfl

theorem trans (h : MemoryOnly s t) (k : MemoryOnly t u) : MemoryOnly s u := by
  unfold MemoryOnly at k
  rw [h] at k
  exact k

theorem groups (h : MemoryOnly s t) : t.groups = s.groups := by rw [h]

theorem group (h : MemoryOnly s t) (n : Nat) : t.group n = s.group n := by rw [State.group, h.groups]; rfl

theorem foldl {α : Type} {f : State → α → State} (hf : ∀ s a, MemoryOnly s (f s a)) (l : List α) (s : State) :
    MemoryOnly s (l.foldl f s) := by
  induction l generalizing s with
  | nil => exact refl s
  | cons a l ih => exact (hf s a).trans (ih (f s a))

theorem modCore (s : State) (n : Nat) (f : Core → Core) : MemoryOnly s (s.modCore n f) := rfl

theorem l2Evict (s : State) (line : Nat) : MemoryOnly s (s.l2Evict line) := by
  unfold State.l2Evict
  split
  · exact refl s
  · dsimp only
    split <;> rfl

theorem l2Room (s : State) (line : Nat) : MemoryOnly s (s.l2Room line) := by
  unfold State.l2Room
  dsimp only
  split
  · exact refl s
  · split
    · exact l2Evict s _
    · exact refl s

theorem fillBad (s : State) (line : Nat) (m : BitVec 4) : MemoryOnly s (s.fillBad line m) := by
  unfold State.fillBad
  split <;> rfl

theorem l2Fill (s : State) (line : Nat) (m : BitVec 4) : MemoryOnly s (s.l2Fill line m) := by
  unfold State.l2Fill
  split
  · split
    · exact refl s
    · exact (fillBad s line m).trans rfl
  · exact ((l2Room s line).trans (fillBad _ line m)).trans rfl

theorem homePuts (s : State) (pa : Nat) (cmp : Bool) (bs : List (Option Byte)) : MemoryOnly s (s.homePuts pa cmp bs) := by
  induction bs generalizing s pa with
  | nil => exact refl s
  | cons b t ih =>
    refine trans ?_ (ih _ _)
    split
    · exact (l2Fill s _ 15).trans rfl
    · exact refl s

theorem homeWrite (s : State) (pa : Nat) (bs : List (Option Byte)) (cmp : Bool) : MemoryOnly s (s.homeWrite pa bs cmp) := by
  unfold State.homeWrite
  split
  · rfl
  · exact homePuts s pa cmp bs

theorem spoil (s : State) (pas : List Nat) : MemoryOnly s (s.spoil pas) :=
  foldl (fun s pa => by split <;> rfl) pas s

theorem l1Back (s : State) (core : Nat) (b : L1Block) : MemoryOnly s (s.l1Back core b) := by
  unfold State.l1Back
  split
  · exact refl s
  · exact ((modCore s core _).trans (homeWrite _ _ _ _)).trans (spoil _ _)

theorem l1Leave (s : State) (core : Nat) (bs : List L1Block) : MemoryOnly s (s.l1Leave core bs) := by
  induction bs generalizing s with
  | nil => exact refl s
  | cons b t ih => exact ((l1Back s core b).trans (modCore _ core _)).trans (ih _)

theorem acquire (s : State) (core scope : Nat) : MemoryOnly s (s.acquire core scope) := by
  unfold State.acquire
  split
  · exact refl s
  · exact (l1Leave s core _).trans (modCore _ core _)

theorem areaPut (s : State) (ctx f off : Nat) (bs : List Byte) : MemoryOnly s (s.areaPut ctx f off bs) := homeWrite s _ _ _

theorem areaFree (s : State) (ctx f off n : Nat) : MemoryOnly s (s.areaFree ctx f off n) :=
  trans (t := s.free.2) rfl (areaPut _ ctx f off _)

theorem writeFrame (s : State) (g : Group) : MemoryOnly s (s.writeFrame g) := by
  unfold State.writeFrame
  dsimp only
  refine trans (trans (foldl ?_ g.frameParts s) (areaPut _ _ _ _ _)) (foldl ?_ frameOpen _)
  · exact fun s p => areaPut s _ _ _ _
  · exact fun s p => areaFree s _ _ _ _

end MemoryOnly

/-! ### Saving (R267, R349, R351) -/

theorem State.saveCodebooks_groups (s : State) (ctx core : Nat) : (s.saveCodebooks ctx core).groups = s.groups := by
  unfold State.saveCodebooks
  split
  · rfl
  · dsimp only
    split
    · rfl
    · exact (MemoryOnly.areaPut _ ctx 0 0x2000 _).groups

/-- Cycles that pass on a core leave a group that is not resident there. -/
theorem State.tick_find {s : State} {core gid : Nat} {g : Group} (n : Nat) (hg : s.groups.find gid = some g)
    (ho : g.on core = false) :
    (s.tick core n).groups.find gid = some g := by
  unfold State.tick
  split
  · exact hg
  · rw [State.modCore_groups, KV.find_map, hg, Option.map_some, ho]
    rfl

theorem Group.on_evicted {g : Group} (h : g.res = .evicted) (core : Nat) : g.on core = false := by
  simp [Group.on, h]

/-- A saved group keeps every register, its splits are in no loop, and what it has on the core travels with it. -/
def Group.IsSaved (g h : Group) (team : Option Team) : Prop :=
  h = { g with
    res := .evicted, cut := false, splits := g.splits.map fun _ sp => { sp with inLoop := false }, jobs := h.jobs, seqs := h.seqs,
    steps := h.steps, locks := h.locks, tiles := h.tiles, satcnt := h.satcnt, team := team, teamOwned := h.teamOwned,
    regain := false }

theorem State.saveGroup_eq {s : State} {gid : Nat} {g : Group} (hg : s.group gid = some g) (team : Option Team) (owned : Bool) :
    ∃ (t : State) (h : Group) (f : Core → Core), s.saveGroup gid team owned =
      ((((((t.setGroup gid h).writeFrame h).modCore g.core f).saveCodebooks g.ctx g.core).deregister g.ctx g.core).tick g.core
        (blockBytes g.width g.rblk / 64 + 16)) ∧ g.IsSaved h team := by
  simp only [State.saveGroup, hg]
  exact ⟨_, _, _, rfl, rfl⟩

theorem State.saveGroup_group {s : State} {gid : Nat} {g : Group} (hg : s.group gid = some g) (team : Option Team) (owned : Bool) :
    ∃ h, (s.saveGroup gid team owned).group gid = some h ∧ g.IsSaved h team := by
  obtain ⟨t, h, f, heq, hsaved⟩ := State.saveGroup_eq hg team owned
  have hevicted : h.res = .evicted := by rw [hsaved]
  have hfind : (s.saveGroup gid team owned).groups.find gid = some h := by
    rw [heq]
    refine State.tick_find _ ?_ (Group.on_evicted hevicted _)
    rw [(State.deregister_frame _ _ _).1, State.saveCodebooks_groups, State.modCore_groups, (MemoryOnly.writeFrame _ _).groups,
      State.setGroup_groups, KV.find_insert_self]
  exact ⟨h, by rw [State.group, hfind]; rfl, hsaved⟩

/-! ### Putting back (R267, R352) -/

/-- A frame gives a group its registers alone. -/
theorem State.readFrame_keeps (s : State) (g : Group) : (s.readFrame g).fpstat = g.fpstat ∧ (s.readFrame g).live = g.live ∧
    (s.readFrame g).splits = g.splits ∧ (s.readFrame g).team = g.team := by
  unfold State.readFrame
  split <;> exact ⟨rfl, rfl, rfl, rfl⟩

theorem State.readFrame_away {s : State} {g : Group} (h : s.areaHere g.ctx g.frame 1 = false) : s.readFrame g = g := by
  rw [State.readFrame, h]
  rfl

/-- A group that is put back is resident, and what it had on a core is there again. -/
def Group.IsBack (r h : Group) (core quad : Nat) : Prop :=
  h = { r with
    res := .resident, core := core, quad := quad, slot := h.slot, readySince := h.readySince,
    splits := r.splits.map fun _ sp => { sp with park := sp.park.restored }, jobs := h.jobs, locks := [], seqs := h.seqs,
    steps := h.steps }

section
variable {s : State} {gid : Nat} {g : Group} (core quad : Nat) (hg : s.group gid = some g) (ht : g.team = none)
include hg ht

theorem State.putBack_eq : ∃ (t : State) (h : Group) (f : Core → Core),
    s.putBack core quad gid = ((t.setGroup gid h).modCore core f).acquire core 4 ∧
    ((s.areaCheck g.ctx g.frame 0 65536).readFrame g).IsBack h core quad := by
  obtain ⟨-, -, -, hteam⟩ := (s.areaCheck g.ctx g.frame 0 65536).readFrame_keeps g
  rw [ht] at hteam
  simp only [State.putBack, hg]
  generalize (s.areaCheck g.ctx g.frame 0 65536).readFrame g = r at hteam ⊢
  split
  · next hsome => cases hteam.symm.trans hsome
  · exact ⟨_, _, _, rfl, rfl⟩

theorem State.putBack_group : ∃ h, (s.putBack core quad gid).group gid = some h ∧
    ((s.areaCheck g.ctx g.frame 0 65536).readFrame g).IsBack h core quad := by
  obtain ⟨t, h, f, heq, hback⟩ := State.putBack_eq core quad hg ht
  refine ⟨h, ?_, hback⟩
  rw [heq, (MemoryOnly.acquire _ _ _).group]
  exact State.group_setGroup t gid h

end

/-! ### The bound of a drain (R351) -/

/-- A group after the bound of its drain: cut off where it has drained for 8,192 cycles. -/
def State.drainBound (s : State) (gid : Nat) (g : Group) : Group :=
  match g.res with
  | .draining t => if max t g.lastIssue + 8192 ≤ (s.core g.core).cycle && s.stopped gid g then { g with cut := true } else g
  | _ => g

theorem execEvictionDrainBound_eq (gid : Nat) (s : State) :
    execEvictionDrainBound gid s = .next (s.modGroup gid (s.drainBound gid)) := rfl

section
variable {s : State} {gid : Nat} {g : Group}

theorem State.drainBound_cut : s.drainBound gid g = { g with cut := (s.drainBound gid g).cut } := by
  unfold State.drainBound
  split
  · split <;> rfl
  · rfl

theorem State.drainBound_due {at_ : Nat} (hr : g.res = .draining at_) (hc : max at_ g.lastIssue + 8192 ≤ (s.core g.core).cycle)
    (hs : s.stopped gid g = true) : (s.drainBound gid g).cut = true := by
  simp [State.drainBound, hr, hc, hs]

theorem State.drainBound_early (h : ∀ at_, g.res = .draining at_ →
    (s.core g.core).cycle < max at_ g.lastIssue + 8192 ∨ s.stopped gid g = false) : s.drainBound gid g = g := by
  unfold State.drainBound
  split
  · next t hr =>
    rw [if_neg]
    rcases h t hr with hc | hs
    · simp [Nat.not_le.2 hc]
    · simp [hs]
  · rfl

end

/-! ### Who is saved, and who stops (R93, R350, R351) -/

section
variable {s : State} {core : Nat}

theorem execPartialEviction_saves {k : Nat} (hk : s.nextSave core = some k) : execPartialEviction core s = .next (s.saveTeam k) := by
  rw [execPartialEviction, hk]

section
variable (hn : s.nextSave core = none)
include hn

theorem execPartialEviction_stranded {b : Nat} (hb : s.stranded core = some b) :
    execPartialEviction core s = .next (s.saveBlock b) := by
  rw [execPartialEviction, hn, hb]

theorem execPartialEviction_evicts {inc : Nat} {gs : List Nat} (hb : s.stranded core = none)
    (hp : s.evictionPlan = some (inc, gs)) (hc : ∃ k ∈ gs, s.coreOf k = some core) : execPartialEviction core s = .next (s.evictFor inc gs) := by
  have hany : (gs.any fun k => s.coreOf k == some core) = true := by simpa using hc
  simp only [execPartialEviction, hn, hb, hp, hany, if_true]

theorem execPartialEviction_rests (hb : s.stranded core = none) (hp : s.evictionPlan = none) :
    execPartialEviction core s = .next s := by
  rw [execPartialEviction, hn, hb, hp]

end

/-! ### Promises and register requests (R175, R178) -/

/-- The groups of a context on a core in the order in which they make room: parked ones first, the latest placed first. -/
def State.promisePrey (s : State) (core inc : Nat) : List Nat :=
  let gs := sortDesc (fun (e : Nat × Group) => e.2.placedAt) ((s.groupsOn core).filter fun e => e.2.ctx == inc)
  ((gs.filter fun e => e.2.idle) ++ gs.filter fun e => !e.2.idle).map (·.1)

theorem execRestorationBound_evicts {r : Restoring} {blk : Nat} {b : Block} {rest : List (Nat × Block)}
    (hres : ∀ e ∈ s.groupsOn core, e.2.res = .resident)
    (hr : (s.core core).restore.find? (fun r => s.owes core r && !(s.awayFrom core r.out).isEmpty) = some r)
    (ha : s.awayFrom core r.out = (blk, b) :: rest) (hno : s.canReturn blk b core = false) {vs : List Nat}
    (hv : s.choose none (!b.resident) (fun t => t.canReturn blk b core) (s.promisePrey core r.inc) = some vs) :
    execRestorationBound core s = .next (s.evictFor r.out vs) := by
  have hcalm : ((s.groupsOn core).any fun e => e.2.res != .resident) = false := by simpa using hres
  simp only [State.promisePrey] at hv
  simp only [execRestorationBound, hcalm, hr, ha, hno, hv]
  rfl

section
variable {x : Ex} {t : Nat} {d : Option Nat} {dr : Bool} (hh : s.rbHead core = some (x, t, d, dr))
include hh

theorem execRegisterFifoEviction_rests (hroom : s.regRoom core x t = true) : execRegisterFifoEviction core s = .next s := by
  have hno : s.regVictims core = none := by simp only [State.regVictims, hh, hroom]; rfl
  rw [execRegisterFifoEviction, hno, ite_self]

theorem execRegisterFifoEviction_evicts (hroom : s.regRoom core x t = false)
    (hidle : ∀ e ∈ s.groupsOn core, e.2.parked = true ∧ e.2.res = .resident) {vs : List Nat}
    (hv : s.prefixOf none false (fun u => u.regRoom core x t) (some x.gid)
      ((sortDesc (fun (e : Nat × Group) => e.2.placedAt) (s.groupsOn core)).map (·.1)) [] = some vs) :
    execRegisterFifoEviction core s = .next (s.evictFor x.g.ctx vs) := by
  have hcalm : ((s.groupsOn core).any fun e => e.2.res != .resident) = false := by simpa using fun a b h => (hidle (a, b) h).2
  have hparked : ((s.groupsOn core).all fun e => e.2.parked) = true := by simpa using fun a b h => (hidle (a, b) h).1
  have hall : (s.groupsOn core).filter (fun e => e.2.res == .resident) = s.groupsOn core :=
    List.filter_eq_self.2 fun e he => by rw [(hidle e he).2]; rfl
  have hvictims : s.regVictims core = some (x.g.ctx, vs) := by
    simp only [State.regVictims, hh, hroom, hparked, hall, hv]
    rfl
  simp only [execRegisterFifoEviction, hcalm, hvictims]
  rfl

end

end

/-! ### Returns (R352) -/

section
variable {s : State} {blk core : Nat} {b : Block} {l : Launch} (hb : s.block blk = some b) (hl : s.launch b.launch = some l)
  (hf : (s.ctx b.ctx).fatal = none) (hd : b.dying = false) (hs : s.pkg.stopped = false)
include hb hl hf hd hs

theorem execGroupRestore_whole (ha : b.resident = false) : execGroupRestore blk core s =
    .next (match s.restoreWhole blk core b l with
      | some t => (t.freeRecords b.ctx).keepPromises
      | none => s) := by
  simp only [execGroupRestore, hb, Option.bind_some, hl, hf, hd, hs, ha]
  rfl

theorem execGroupRestore_groups (ha : b.resident = true) (hc : b.core = core) (hn : s.nextBack blk ≠ [])
    (hfit : s.fitsBack b (s.nextBack blk) = true) : execGroupRestore blk core s =
      .next ((((s.nextBack blk).foldl (fun s e => s.putBack core e.2.quad e.1) (s.loadCodebooks b.ctx core)).freeRecords
        b.ctx).keepPromises) := by
  have hgo : ¬ (b.core ≠ core || (s.nextBack blk).isEmpty || !s.fitsBack b (s.nextBack blk)) = true := by
    simp [hc, hn, hfit]
  simp only [execGroupRestore, hb, Option.bind_some, hl, hf, hd, hs, ha, if_neg hgo]
  rfl

end

/-! ### The statement -/

/-- Settles O59: the events from the lemmas on their branches, saving and putting back by what they leave of the group. -/
theorem evictionAndReturn : Obligations.EvictionAndReturn := by
  unfold Obligations.EvictionAndReturn
  refine ⟨fun s core => ⟨fun k => execPartialEviction_saves, fun b hn hb => execPartialEviction_stranded hn hb,
    fun inc gs hn hb hp hc => execPartialEviction_evicts hn hb hp hc, fun hn hb hp => execPartialEviction_rests hn hb hp⟩,
    ?bound, ?save, ?back, ?returns, ?room⟩
  case bound =>
    intro s gid g hg
    refine ⟨_, execEvictionDrainBound_eq gid s, onlyGroup_modGroup s gid _, s.drainBound gid g, ?_, State.drainBound_cut,
      fun _ => State.drainBound_due, State.drainBound_early⟩
    rw [State.group_modGroup, hg]
    rfl
  case save =>
    intro s gid g team owned hg
    obtain ⟨h, hh, hsaved⟩ := State.saveGroup_group hg team owned
    have hsplits : h.splits = g.splits.map fun _ sp => { sp with inLoop := false } := by rw [hsaved]
    refine ⟨h, hh, ?_⟩
    rw [hsplits, hsaved]
    exact ⟨rfl, rfl, rfl, rfl, rfl, rfl, fun n => KV.find_map _ _ n, rfl, rfl⟩
  case back =>
    intro s core quad gid g hg ht q r
    obtain ⟨h, hh, hback⟩ := State.putBack_group core quad hg ht
    obtain ⟨hfpstat, hlive, hsame, -⟩ := q.readFrame_keeps g
    have hsplits : h.splits = r.splits.map fun _ sp => { sp with park := sp.park.restored } := by rw [hback]
    refine ⟨h, hh, ?_⟩
    rw [hsplits, hsame, ← hfpstat, ← hlive, hback]
    exact ⟨rfl, rfl, rfl, rfl, rfl, rfl, rfl, rfl, rfl, State.readFrame_away,
      fun n sp hsp => (KV.find_map _ _ n).trans (by rw [hsp]; rfl)⟩
  case returns =>
    intro s blk core b l hb hl hf hd hs
    exact ⟨fun ha t ht => (execGroupRestore_whole hb hl hf hd hs ha).trans (by rw [ht]),
      fun ha ht => (execGroupRestore_whole hb hl hf hd hs ha).trans (by rw [ht]), execGroupRestore_groups hb hl hf hd hs⟩
  case room =>
    refine fun s core => ⟨fun r blk b rest hres hr ha hno vs => execRestorationBound_evicts hres hr ha hno,
      fun x t a b hh => ⟨fun hroom => execRegisterFifoEviction_rests hh (decide_eq_true hroom),
        fun hroom hidle vs => execRegisterFifoEviction_evicts hh (decide_eq_false (Nat.not_le.2 hroom)) hidle⟩⟩

end Machine
end Sys2Proof
end

section
/-! Settles O47 (ExpertEngine): entries and descriptors, the four expert instructions, and Barista's own work on its tables
(R105–R119, R286–R290). -/

namespace Sys2Proof.Machine

/-! ### Entries and descriptors (R105, R286) -/

theorem natToBytes_length (n v : Nat) : (natToBytes n v).length = n := by
  induction n generalizing v with
  | zero => rfl
  | succ n ih => rw [natToBytes, List.length_cons, ih]

theorem bytesToNat_natToBytes (n v : Nat) : bytesToNat (natToBytes n v) = v % 256 ^ n := by
  induction n generalizing v with
  | zero => rw [natToBytes, bytesToNat, pow_zero, Nat.mod_one]
  | succ n ih =>
    rw [natToBytes, bytesToNat, ih, BitVec.toNat_ofNat]
    exact (pow_succ' 256 n ▸ Nat.mod_mul).symm

theorem take_drop_flatMap {α β : Type} {f : α → List β} {n : Nat} (hf : ∀ a, (f a).length = n) {l : List α} {i : Nat}
    (hi : i < l.length) : ((l.flatMap f).drop (n * i)).take n = f l[i] := by
  induction l generalizing i with
  | nil => cases hi
  | cons a l ih =>
    cases i with
    | zero => simp [hf]
    | succ i =>
      have hskip : n * (i + 1) = (f a).length + n * i := by rw [hf, Nat.mul_succ, Nat.add_comm]
      rw [List.flatMap_cons, hskip, ← List.drop_drop, List.drop_left, ih (Nat.lt_of_succ_lt_succ hi)]
      rfl

theorem Rep.bits_lt {r : Rep} (hs : r.state < 4) (hd : r.die < 8) (hj : r.slot < 4096) : r.bits < 256 ^ 3 := by
  rw [Rep.bits]; omega

theorem Rep.of_bits {r : Rep} (hs : r.state < 4) (hd : r.die < 8) (hj : r.slot < 4096) : Rep.of r.bits = r := by
  have hstate : (Rep.of r.bits).state = r.state := by simp only [Rep.of, Rep.bits]; omega
  have hdie : (Rep.of r.bits).die = r.die := by simp only [Rep.of, Rep.bits]; omega
  have hslot : (Rep.of r.bits).slot = r.slot := by simp only [Rep.of, Rep.bits]; omega
  cases r
  exact Rep.mk.injEq .. |>.mpr ⟨hstate, hdie, hslot⟩

theorem ExpEntry.drop_bytes (e : ExpEntry) (n : Nat) :
    e.bytes.drop (8 + n) = (e.reps.flatMap fun r => natToBytes 3 r.bits).drop n := by
  rw [← List.drop_drop]
  rfl

theorem ExpEntry.of_bytes {e : ExpEntry} (hlen : e.reps.length = 8)
    (hreps : ∀ r ∈ e.reps, r.state < 4 ∧ r.die < 8 ∧ r.slot < 4096) : ExpEntry.of e.bytes = e := by
  have hversion : (ExpEntry.of e.bytes).version = e.version := by
    have hlt := e.version.isLt
    have h : e.bytes.take 4 = natToBytes 4 e.version.toNat := rfl
    rw [ExpEntry.of, h, bytesToNat_natToBytes]
    refine BitVec.eq_of_toNat_eq ?_
    rw [BitVec.toNat_ofNat]
    omega
  have hmpend : (ExpEntry.of e.bytes).mpend = e.mpend := rfl
  have hrep : (ExpEntry.of e.bytes).reps = e.reps := by
    refine List.ext_getElem (by simp [ExpEntry.of, hlen]) fun i _ hi => ?_
    obtain ⟨hs, hd, hj⟩ := hreps _ (e.reps.getElem_mem hi)
    have hbytes : (e.bytes.drop (8 + 3 * i)).take 3 = natToBytes 3 e.reps[i].bits := by
      rw [e.drop_bytes, take_drop_flatMap (fun r => natToBytes_length 3 _) hi]
    simp only [ExpEntry.of, List.getElem_map, List.getElem_range, hbytes, bytesToNat_natToBytes,
      Nat.mod_eq_of_lt (Rep.bits_lt hs hd hj), Rep.of_bits hs hd hj]
  cases e
  exact ExpEntry.mk.injEq .. |>.mpr ⟨hversion, hmpend, hrep⟩

theorem fld_or_toNat {n lo : Nat} {v : Dword} (hn : n * 2 ^ lo < 2 ^ 64) (hv : v.toNat < 2 ^ lo) :
    (fld n lo ||| v).toNat = n * 2 ^ lo + v.toNat := by
  rw [fld, BitVec.toNat_or, BitVec.toNat_ofNat, Nat.mod_eq_of_lt hn, ← Nat.shiftLeft_eq, Nat.shiftLeft_add_eq_or_of_lt hv]

section
variable {e : ExpEntry} {n i : Nat} (hn : n < 4096) (hi : i < 8) (hd : (e.rep i).die < 8) (hj : (e.rep i).slot < 4096)
include hn hi hd hj

theorem routeDesc_toNat : (routeDesc n i e).toNat =
    (e.rep i).slot * 2 ^ 50 + ((e.rep i).die * 2 ^ 47 + (i * 2 ^ 44 + (n * 2 ^ 32 + e.version.toNat))) := by
  have hv := e.version.isLt
  have hversion : (e.version.setWidth 64).toNat = e.version.toNat := BitVec.toNat_setWidth_of_le (by decide)
  have hexpert : (fld n 32 ||| e.version.setWidth 64).toNat = n * 2 ^ 32 + e.version.toNat := by
    rw [fld_or_toNat (by omega) (by omega), hversion]
  have hindex : (fld i 44 ||| (fld n 32 ||| e.version.setWidth 64)).toNat = i * 2 ^ 44 + (n * 2 ^ 32 + e.version.toNat) := by
    rw [fld_or_toNat (by omega) (by omega), hexpert]
  have hdie : (fld (e.rep i).die 47 ||| (fld i 44 ||| (fld n 32 ||| e.version.setWidth 64))).toNat =
      (e.rep i).die * 2 ^ 47 + (i * 2 ^ 44 + (n * 2 ^ 32 + e.version.toNat)) := by
    rw [fld_or_toNat (by omega) (by omega), hindex]
  rw [routeDesc, BitVec.or_assoc, BitVec.or_assoc, BitVec.or_assoc, fld_or_toNat (by omega) (by omega), hdie]

theorem routeDesc_fields : bits (routeDesc n i e) 61 50 = (e.rep i).slot ∧ bits (routeDesc n i e) 49 47 = (e.rep i).die ∧
    bits (routeDesc n i e) 46 44 = i ∧ bits (routeDesc n i e) 43 32 = n ∧ bits (routeDesc n i e) 63 62 = 0 := by
  have hv := e.version.isLt
  simp only [bits_eq, routeDesc_toNat hn hi hd hj]
  omega

theorem descExpert_routeDesc : descExpert (routeDesc n i e) = some n := by
  obtain ⟨-, -, -, hexpert, hrsv⟩ := routeDesc_fields hn hi hd hj
  rw [descExpert, if_neg (not_not.2 hrsv), hexpert]

theorem routeDesc_version : (routeDesc n i e).setWidth 32 = e.version := by
  refine BitVec.eq_of_toNat_eq ?_
  rw [BitVec.toNat_setWidth, routeDesc_toNat hn hi hd hj]
  omega

end

/-! ### Counters (R106, R109) -/

theorem ExpTable.ctr_modCtr (t : ExpTable) (e : Nat) (f : ExpCtr → ExpCtr) : (t.modCtr e f).ctr e = f (t.ctr e) := by
  rw [ExpTable.ctr, KV.get, ExpTable.modCtr, KV.find_insert_self]; rfl

theorem ExpTable.lower_zero {t : ExpTable} {e i : Nat} (h : (t.ctr e).inflOf i = 0) : t.lower e i = { t with under := true } :=
  if_pos h

section
variable {t : ExpTable} {e i : Nat} (h : (t.ctr e).inflOf i ≠ 0)
include h

theorem ExpTable.ctr_lower : (t.lower e i).ctr e = { t.ctr e with infl := (t.ctr e).infl.modify i (· - 1) } := by
  rw [ExpTable.lower, if_neg h, ExpTable.ctr_modCtr]

theorem ExpTable.lower_infl (hi : i < (t.ctr e).infl.length) :
    ((t.lower e i).ctr e).inflOf i = (t.ctr e).inflOf i - 1 := by
  simp [ExpTable.ctr_lower h, ExpCtr.inflOf, List.getD_eq_getElem?_getD, hi]

theorem ExpTable.lower_infl_ne {j : Nat} (hj : j ≠ i) : ((t.lower e i).ctr e).inflOf j = (t.ctr e).inflOf j := by
  simp [ExpTable.ctr_lower h, ExpCtr.inflOf, List.getD_eq_getElem?_getD, hj.symm]

end

/-! ### What the expert instructions share (R287) -/

theorem tableOf_eq (o : EOps) : tableOf o = o.minor.toNat / 256 % 16 := by
  rw [tableOf, BitVec.extractLsb'_toNat, Nat.shiftRight_eq_div_pow]

/-- The table serves the issuer's context. -/
def State.serves (s : State) (x : Ex) (T : Nat) : Prop := (s.table T).en = true ∧ (s.table T).ctx = x.g.ctx

/-- The lanes that name no expert of the table. -/
def ExpTable.strangers (t : ExpTable) (ls : List Nat) (expert : Nat → Option Nat) : List Nat :=
  ls.filter fun l => match expert l with
    | some e => decide (t.nexp < e)
    | none => true

section
variable {s : State} {x : Ex} {T : Nat} {ls : List Nat} {expert : Nat → Option Nat}

theorem State.expertCheck_other (hs : ¬ s.serves x T) : s.expertCheck x T ls expert = some (s.illegal x) := by
  rw [State.expertCheck, if_pos]
  by_cases hen : (s.table T).en = true
  · simp [mt (And.intro hen) hs]
  · simp [hen]

theorem State.expertCheck_serving (hs : s.serves x T) : s.expertCheck x T ls expert =
    if (s.table T).strangers ls expert != [] then some (s.trap x 0x01 (maskOf ((s.table T).strangers ls expert)) 0)
    else none := by
  obtain ⟨hen, hctx⟩ := hs
  rw [State.expertCheck, if_neg (by simp [hen, hctx])]
  rfl

theorem State.expertCheck_strangers (hs : s.serves x T) (hb : (s.table T).strangers ls expert ≠ []) :
    s.expertCheck x T ls expert = some (s.trap x 0x01 (maskOf ((s.table T).strangers ls expert)) 0) := by
  rw [State.expertCheck_serving hs, if_pos (bne_iff_ne.2 hb)]

theorem State.expertCheck_passes (hs : s.serves x T) (hb : (s.table T).strangers ls expert = []) :
    s.expertCheck x T ls expert = none := by
  rw [State.expertCheck_serving hs, hb]; rfl

end

/-! ### EROUTE (R108, R288) -/

/-- The operands that EROUTE refuses. -/
def badRoute (g : Group) (o : EOps) : Bool :=
  (o.d != 0xF0 && !isVec o.d) || badDst g true o.d || badSrc g .w32 o.a || badSrc g .w32 o.b ||
    (o.minor.getLsbD 1 && badSrc g .w32 o.c)

theorem badRoute_iff (g : Group) (o : EOps) : badRoute g o = true ↔
    (o.d ≠ 0xF0 ∧ isVec o.d = false) ∨ badDst g true o.d = true ∨ badSrc g .w32 o.a = true ∨ badSrc g .w32 o.b = true ∨
      (o.minor.getLsbD 1 = true ∧ badSrc g .w32 o.c = true) := by
  simp [badRoute, or_assoc]

/-- The expert that a lane of EROUTE names in B. -/
abbrev State.routeExpert (s : State) (x : Ex) (o : EOps) (l : Nat) : Nat := (s.readSrc x o.lit .w32 o.b l).toNat

/-- The state in which EROUTE's core is registered and its operation counted, and the operation (R110, R173). -/
abbrev State.routeFlight (s : State) (x : Ex) (T : Nat) : Nat × State := (s.registerCore T x.g.core).openFlight x .at

/-- The lanes of an EROUTE as they are routed: operation, token, expert and least version. -/
abbrev State.routeLanes (s : State) (x : Ex) (o : EOps) (T : Nat) : List RouteWait :=
  let f := s.routeFlight x T
  x.list.map fun l =>
    { gid := x.gid, flight := f.1, lane := l, token := (f.2.readSrc x o.lit .w32 o.a l).setWidth 32, expert := s.routeExpert x o l,
      minver := if o.minor.getLsbD 1 then some ((f.2.readSrc x o.lit .w32 o.c l).setWidth 32) else none, dst := o.d.toNat }

section
variable {s : State} {x : Ex} {o : EOps} (h : s.ex? = some x) (hq : x.g.isQueue = false)
include h hq

theorem execEroute_refused (hb : badRoute x.g o = true) : execEroute o s = .next (s.illegal x) := by
  rw [execEroute, kernelOnly_group h _ hq]
  exact congrArg _ (if_pos hb)

variable (hb : badRoute x.g o = false)
include hb

theorem execEroute_checked {t : State} (hc : s.expertCheck x (tableOf o) x.list (fun l => some (s.routeExpert x o l)) = some t) :
    execEroute o s = .next t := by
  rw [execEroute, kernelOnly_group h _ hq]
  refine congrArg _ ((if_neg (Bool.eq_false_iff.1 hb)).trans ?_)
  rw [hc]

theorem execEroute_routes (hc : s.expertCheck x (tableOf o) x.list (fun l => some (s.routeExpert x o l)) = none)
    (hr : s.expReach (tableOf o) x.g.core (x.list.map (s.routeExpert x o)) = none) :
    execEroute o s = .next (((((((s.routeFlight x (tableOf o)).2.routeAll (tableOf o) x.g.core false
      (s.routeLanes x o (tableOf o))).acquire x.g.core 5).closeFlight x.gid (some (s.routeFlight x (tableOf o)).1)).settleAt
        x.gid)).finish x) := by
  rw [execEroute, kernelOnly_group h _ hq]
  refine congrArg _ ((if_neg (Bool.eq_false_iff.1 hb)).trans ?_)
  rw [hc]
  dsimp only
  rw [hr]

end

/-! ### EDONE (R109, R288) -/

/-- The descriptor that a lane holds in A. -/
abbrev State.laneDesc (s : State) (x : Ex) (o : EOps) (l : Nat) : Dword := s.readSrc x o.lit .i64 o.a l

/-- The state in which the lanes' counts have fallen, with UNDER of this EDONE alone. -/
abbrev State.lowered (s : State) (x : Ex) (o : EOps) (T : Nat) : State :=
  s.modTable T fun t => x.list.foldl (fun t l => t.lower (bits (s.laneDesc x o l) 43 32) (bits (s.laneDesc x o l) 46 44))
    { t with under := false }

/-- The state in which a count that would have gone below 0 is logged and kept in UNDER (R106). -/
abbrev State.underLogged (s u : State) (T : Nat) : State :=
  (if (u.table T).under then u.log .barista T 14 else u).modTable T fun k => { k with under := k.under || (s.table T).under }

section
variable {s : State} {x : Ex} {o : EOps} (h : s.ex? = some x) (hq : x.g.isQueue = false)
include h hq

theorem execEdone_refused (hb : badSrc x.g .i64 o.a = true) : execEdone o s = .next (s.illegal x) := by
  rw [execEdone, kernelOnly_group h _ hq]
  exact congrArg _ (if_pos hb)

variable (hb : badSrc x.g .i64 o.a = false)
include hb

theorem execEdone_checked {t : State}
    (hc : s.expertCheck x (tableOf o) x.list (fun l => descExpert (s.laneDesc x o l)) = some t) :
    execEdone o s = .next t := by
  rw [execEdone, kernelOnly_group h _ hq]
  refine congrArg _ ((if_neg (Bool.eq_false_iff.1 hb)).trans ?_)
  rw [hc]

theorem execEdone_lowers (hc : s.expertCheck x (tableOf o) x.list (fun l => descExpert (s.laneDesc x o l)) = none) :
    execEdone o s =
      let v := s.underLogged (s.lowered x o (tableOf o)) (tableOf o)
      .next ((((v.freeSlots (tableOf o) (v.table (tableOf o)).freeing).reroute (tableOf o)).passAt x).finish x) := by
  rw [execEdone, kernelOnly_group h _ hq]
  refine congrArg _ ((if_neg (Bool.eq_false_iff.1 hb)).trans ?_)
  rw [hc]

end

/-! ### EQRY (R111, R290) -/

/-- The operands that EQRY refuses. -/
def badQuery (g : Group) (o : EOps) : Bool := badDst g true o.d || badSrc g .i64 o.a || (isScalar o.d && !isUniform o.a)

theorem badQuery_iff (g : Group) (o : EOps) : badQuery g o = true ↔
    badDst g true o.d = true ∨ badSrc g .i64 o.a = true ∨ (isScalar o.d = true ∧ isUniform o.a = false) := by
  simp [badQuery, or_assoc]

/-- The lanes for which EQRY answers: one, where D is scalar. -/
abbrev Ex.queryLanes (x : Ex) (o : EOps) : List Nat := if isScalar o.d then [lowLane x.lanes] else x.list

/-- What EQRY answers to a descriptor. -/
def State.queryVal (s : State) (x : Ex) (T : Nat) (d : Dword) : Dword :=
  match s.expBytes (s.table T) ⟨some x.g.core, x.g.ctx, true⟩ .read (bits d 43 32) with
  | .ok bs => eqryOf d (ExpEntry.of bs)
  | .error _ => 0

section
variable {s : State} {x : Ex} {o : EOps} (h : s.ex? = some x) (hq : x.g.isQueue = false)
include h hq

theorem execEqry_refused (hb : badQuery x.g o = true) : execEqry o s = .next (s.illegal x) := by
  rw [execEqry, kernelOnly_group h _ hq]
  exact congrArg _ (if_pos hb)

variable (hb : badQuery x.g o = false)
include hb

theorem execEqry_checked {t : State}
    (hc : s.expertCheck x (tableOf o) (x.queryLanes o) (fun l => descExpert (s.laneDesc x o l)) = some t) :
    execEqry o s = .next t := by
  rw [execEqry, kernelOnly_group h _ hq]
  refine congrArg _ ((if_neg (Bool.eq_false_iff.1 hb)).trans ?_)
  rw [hc]

theorem execEqry_answers (hc : s.expertCheck x (tableOf o) (x.queryLanes o) (fun l => descExpert (s.laneDesc x o l)) = none)
    (hr : s.expReach (tableOf o) x.g.core ((x.queryLanes o).map fun l => bits (s.laneDesc x o l) 43 32) = none) :
    execEqry o s = .next ((((s.countReads x.g.core (x.queryLanes o).length).acquire x.g.core 5).modGroup x.gid fun g =>
      (x.queryLanes o).foldl (fun g l => g.writeDst true o.d l (s.queryVal x (tableOf o) (s.laneDesc x o l))) g).finish x) := by
  rw [execEqry, kernelOnly_group h _ hq]
  refine congrArg _ ((if_neg (Bool.eq_false_iff.1 hb)).trans ?_)
  rw [hc]
  dsimp only
  rw [hr]
  rfl

end

/-! ### EMERGE (R119, R289) -/

section
variable {s : State} {x : Ex} {o : EOps} (h : s.ex? = some x) (hq : x.g.isQueue = false)
include h hq

theorem execEmerge_refused (hb : badUniform x.g .w32 o.a = true ∨ (s.table (tableOf o)).train = false) :
    execEmerge o s = .next (s.illegal x) := by
  rw [execEmerge, kernelOnly_group h _ hq]
  refine congrArg _ ?_
  rcases hb with hb | ht
  · exact if_pos hb
  · split
    · rfl
    · exact if_pos (by rw [ht]; rfl)

variable (hb : badUniform x.g .w32 o.a = false) (ht : (s.table (tableOf o)).train = true)
include hb ht

theorem execEmerge_checked {t : State}
    (hc : s.expertCheck x (tableOf o) x.list (fun _ => some (s.readUni x o.lit .w32 o.a).toNat) = some t) :
    execEmerge o s = .next t := by
  rw [execEmerge, kernelOnly_group h _ hq]
  simp only [hb, ht, hc]
  rfl

theorem execEmerge_passes (hc : s.expertCheck x (tableOf o) x.list (fun _ => some (s.readUni x o.lit .w32 o.a).toNat) = none) :
    execEmerge o s = .next (if (s.table (tableOf o)).nexp < (s.readUni x o.lit .w32 o.a).toNat then s.illegal x
      else (((s.openFlight x .at).2.modTable (tableOf o) fun k =>
        { k with merges := k.merges ++
          [⟨x.gid, (s.openFlight x .at).1, (s.readUni x o.lit .w32 o.a).toNat, x.sp.pc⟩] }).finish x)) := by
  rw [execEmerge, kernelOnly_group h _ hq]
  simp only [hb, ht, hc]
  rfl

end

theorem execEmerge_other {s : State} {x : Ex} {o : EOps} (h : s.ex? = some x) (hq : x.g.isQueue = false)
    (hs : ¬ s.serves x (tableOf o)) : execEmerge o s = .next (s.illegal x) := by
  cases hb : badUniform x.g .w32 o.a with
  | true => exact execEmerge_refused h hq (.inl hb)
  | false =>
    cases ht : (s.table (tableOf o)).train with
    | false => exact execEmerge_refused h hq (.inr ht)
    | true => exact execEmerge_checked h hq hb ht (State.expertCheck_other hs)

theorem ExpTable.strangers_const (t : ExpTable) (ls : List Nat) (e : Nat) :
    t.strangers ls (fun _ => some e) = if t.nexp < e then ls else [] := by
  unfold ExpTable.strangers
  split <;> simp_all

/-! ### One lane (R108) -/

/-- The entry's version is below the one that the lane asks for. -/
def RouteWait.outdated (w : RouteWait) (e : ExpEntry) : Bool :=
  match w.minver with
  | some v => !verAtLeast e.version v
  | none => false

theorem RouteWait.outdated_iff (w : RouteWait) (e : ExpEntry) :
    w.outdated e = true ↔ ∃ v, w.minver = some v ∧ verAtLeast e.version v = false := by
  unfold RouteWait.outdated
  cases w.minver <;> simp

/-- A lane waits: its version is too old, the replica is closed, or its count is full (R106, R108). -/
def RouteWait.held (w : RouteWait) (c : ExpCtr) (e : ExpEntry) (i : Nat) : Bool :=
  w.outdated e || c.isClosed i || 32767 ≤ c.inflOf i

theorem RouteWait.held_iff (w : RouteWait) (c : ExpCtr) (e : ExpEntry) (i : Nat) : w.held c e i = true ↔
    (∃ v, w.minver = some v ∧ verAtLeast e.version v = false) ∨ c.isClosed i = true ∨ 32767 ≤ c.inflOf i := by
  rw [RouteWait.held, Bool.or_eq_true, Bool.or_eq_true, decide_eq_true_iff, w.outdated_iff, or_assoc]

theorem State.routeOnce_eq {s u : State} {T core i : Nat} {w : RouteWait} {e : ExpEntry}
    (hsnap : s.snapshot T core w.expert = .ok (e, u)) (hlive : (e.inState 1)[w.token.toNat % (e.inState 1).length]? = some i) :
    s.routeOnce T core w false = if w.held ((u.table T).ctr w.expert) e i then .ok (none, u) else
      .ok (some (routeDesc w.expert i e), u.modTable T fun k => k.modCtr w.expert fun c => c.routed i) := by
  simp only [State.routeOnce, Bool.false_eq_true, if_false, hsnap, bind, Except.bind, hlive]
  rfl

/-! ### What accesses of memory leave of the tables -/

theorem MemoryOnly.tables {s t : State} (h : MemoryOnly s t) : t.tables = s.tables := by rw [h]

theorem State.writeParts_tables {s t : State} {va : Nat} {ps : List (Mapped × Nat)} {bs : List Byte}
    (h : s.writeParts va ps bs = .ok t) : t.tables = s.tables := by
  induction ps generalizing s va bs with
  | nil => cases h; rfl
  | cons p ps ih =>
    obtain ⟨m, n⟩ := p
    rw [State.writeParts] at h
    split at h
    · exact (ih h).trans rfl
    · exact (ih h).trans (MemoryOnly.homeWrite s m.pa _ m.cmp).tables

theorem State.engineCount_tables (s : State) (k : Who) (va n : Nat) : (s.engineCount k va n).tables = s.tables := by
  unfold State.engineCount
  split <;> rfl

theorem State.claim_tables (s : State) (c : Nat) : (s.claim c).tables = s.tables := by
  unfold State.claim
  split <;> rfl

theorem State.engineWrite_tables {s t : State} {k : Who} {w : Want} {va : Nat} {bs : List Byte} {pkd : Option Bool}
    (h : s.engineWrite k w va bs pkd = .ok t) : t.tables = s.tables := by
  unfold State.engineWrite at h
  split at h
  · cases h
  · split_ifs at h
    · obtain ⟨u, hu, rfl⟩ := map_eq_ok h
      rw [u.claim_tables, State.writeParts_tables hu, s.engineCount_tables]

theorem State.clearMpend_tables (s : State) (t : ExpTable) (es : List Nat) : (s.clearMpend t es).tables = s.tables := by
  induction es generalizing s with
  | nil => rfl
  | cons e r ih =>
    rw [State.clearMpend]
    split
    · exact ih s
    · split_ifs
      · exact ih s
      · split
        · next hput => exact (ih _).trans (State.engineWrite_tables hput)
        · exact ih s

/-! ### BTCTL and BTEXCL (R107) -/

/-- A table whose check is passed starts: window 0, no counts, no registered core. -/
def ExpTable.start (t : ExpTable) : ExpTable :=
  { t with en := true, ctrs := [], regs := [], notices := [], drains := [], freeing := [], win := 0, fails := 0
           curWlen := t.wlen, curHot := t.hot, curCold := t.cold, curMaxrep := t.maxrep, curCopymax := t.copymax }

/-- The state in which the table that a write of BTCTL configures has started. -/
def State.startTable (s : State) (T : Nat) (v : Dword) : State :=
  let k := (s.table T).config v
  (((s.modTable T fun _ => k).clearMpend k (List.range (k.nexp + 1))).dropCopies T).modTable T ExpTable.start

theorem State.startTable_table (s : State) (T : Nat) (v : Dword) : (s.startTable T v).table T = ((s.table T).config v).start := by
  have hkeeps (k : ExpTable) (es : List Nat) :
      (((s.modTable T fun _ => k).clearMpend k es).dropCopies T).table T = k := by
    have hdrop : (((s.modTable T fun _ => k).clearMpend k es).dropCopies T).tables = (s.modTable T fun _ => k).tables :=
      State.clearMpend_tables _ k es
    rw [State.table, hdrop]
    exact State.table_modTable s T _
  rw [State.startTable, State.table_modTable, hkeeps]

section
variable {s : State} {T : Nat} {v : Dword}

theorem execBtctlEnable_ignored (h : (s.table T).en = true ∨ v.getLsbD 63 = false) : execBtctlEnable T v s = .next s := by
  rw [execBtctlEnable, if_pos (by rcases h with h | h <;> simp only [h, Bool.true_or, Bool.not_false, Bool.or_true])]

section
variable (hen : (s.table T).en = false) (hv : v.getLsbD 63 = true)
include hen hv

theorem execBtctlEnable_refuses {e : Nat} (hb : (s.modTable T fun _ => (s.table T).config v).firstBadEntry ((s.table T).config v)
      (List.range (((s.table T).config v).nexp + 1)) [] = some e) :
    execBtctlEnable T v s =
      .next (((s.modTable T fun _ => (s.table T).config v).modTable T fun t => { t with badexp := e }).log .barista T 4) := by
  rw [execBtctlEnable, if_neg (by rw [hen, hv]; decide)]
  dsimp only
  rw [hb]

theorem execBtctlEnable_starts (hb : (s.modTable T fun _ => (s.table T).config v).firstBadEntry ((s.table T).config v)
      (List.range (((s.table T).config v).nexp + 1)) [] = none) :
    execBtctlEnable T v s = .next (((s.startTable T v).reroute T).log .barista T 5) := by
  rw [execBtctlEnable, if_neg (by rw [hen, hv]; decide)]
  dsimp only
  rw [hb]
  rfl

end

theorem execBtctlDisable_ignored (h : (s.table T).en = false ∨ v.getLsbD 63 = true) : execBtctlDisable T v s = .next s := by
  rw [execBtctlDisable, if_pos (by rcases h with h | h <;> simp only [h, Bool.true_or, Bool.not_false, Bool.or_true])]

theorem execBtctlDisable_stops (hen : (s.table T).en = true) (hv : v.getLsbD 63 = false) : execBtctlDisable T v s =
    let u := (s.modTable T fun k => { k with en := false, hold := v.getLsbD 61 }).abandon T (s.table T).copies
    .next ((u.freeSlots T (u.table T).freeing).log .barista T 6) := by
  rw [execBtctlDisable, if_neg (by rw [hen, hv]; decide)]
  dsimp only
  rw [State.table_modTable]

theorem execBtctlHold_ignored (h : (s.table T).hold = true ∨ v.getLsbD 61 = false) : execBtctlHold T v s = .next s := by
  rw [execBtctlHold, if_pos (by rcases h with h | h <;> simp only [h, Bool.true_or, Bool.not_false, Bool.or_true])]

theorem execBtctlHold_abandons (hh : (s.table T).hold = false) (hv : v.getLsbD 61 = true) : execBtctlHold T v s =
    .next (((s.modTable T fun k => { (if k.en then k else k.config v) with hold := true }).abandon T
      ((s.table T).copies.filter fun c => !c.refresh)).log .barista T 7) := by
  have hcopies : (if (s.table T).en then s.table T else (s.table T).config v).copies = (s.table T).copies := by split <;> rfl
  rw [execBtctlHold, if_neg (by rw [hh, hv]; decide)]
  dsimp only
  rw [State.table_modTable, hcopies]

end

/-- The table in which a write of BTEXCL has cleared exclusions and their dies' failures. -/
def ExpTable.unexclude (t : ExpTable) (v : Dword) : ExpTable :=
  { t with excl := t.excl &&& ~~~(v.setWidth 8)
           fail := t.fail.zipIdx.map fun p => if v.getLsbD p.2 && t.excl.getLsbD p.2 then 0 else p.1 }

theorem execBtexclClear_eq (T : Nat) (v : Dword) (s : State) :
    execBtexclClear T v s = .next ((s.modTable T fun t => t.unexclude v).log .barista T 8) := rfl

theorem ExpTable.unexclude_fail (t : ExpTable) (v : Dword) {d : Nat} (hd : d < t.fail.length) :
    (t.unexclude v).fail.getD d 0 = if v.getLsbD d = true ∧ t.excl.getLsbD d = true then 0 else t.fail.getD d 0 := by
  simp [ExpTable.unexclude, List.getD_eq_getElem?_getD, hd]

/-! ### Barista's own work on a table (log 31) -/

/-- Barista's own work may begin: no page is awaited, none was refused. -/
def ExpTable.clear (t : ExpTable) : Prop := anyPending t.tokens = false ∧ anyInvalid t.tokens = false

/-- What Barista's own work leaves of a table: a halt waits for its page or stops the context. -/
def State.ownWork (s : State) (T : Nat) (r : Except Halt State) : State :=
  match r with
  | .ok u => u.modTable T fun k => { k with tokens := [] }
  | .error h => s.haltTable T 0 h

theorem State.onTable_clear {s : State} {T : Nat} (h : (s.table T).clear) (f : State → Except Halt State) :
    s.onTable T f = s.ownWork T (f s) := by
  obtain ⟨hp, hi⟩ := h
  rw [State.onTable, hp, hi]
  rfl

/-! ### Retirements (R116, R118) -/

section
variable {s : State} {T e i : Nat}

theorem execBtcmdForceRetire_discarded (h : (s.table T).en = false ∨ (s.table T).nexp < e ∨ i = 0 ∨ 7 < i) :
    execBtcmdForceRetire T e i s = .next s := by
  rw [execBtcmdForceRetire]
  refine congrArg _ (if_pos ?_)
  rcases h with h | h | h | h <;> simp [h]

theorem execBtcmdForceRetire_retires (hen : (s.table T).en = true) (he : e ≤ (s.table T).nexp) (h0 : 0 < i) (h7 : i ≤ 7) :
    execBtcmdForceRetire T e i s = .next ((s.orLog T (s.forceRetire T e i)).log .barista T 1) := by
  rw [execBtcmdForceRetire]
  refine congrArg _ (if_neg ?_)
  simp only [hen, Bool.not_true, Bool.false_or, Bool.or_eq_true, decide_eq_true_eq]
  omega

theorem execReplicaRetire_none (h : ((s.table T).drains.find? fun d => d.expert == e && d.rep == i) = none) :
    execReplicaRetire T e i s =
      .next (if (s.table T).en then s else s.freeSlots T ((s.table T).freeing.filter fun p => p == (e, i))) := by
  simp only [execReplicaRetire, h]

end

/-- Every notice of a version of an expert is acknowledged (R110). -/
def ExpTable.acked (t : ExpTable) (e : Nat) (v : Word) : Prop := ∀ n ∈ t.notices, ¬ (n.expert = e ∧ n.version = v)

theorem ExpTable.acked_iff (t : ExpTable) (e : Nat) (v : Word) :
    t.acked e v ↔ (t.notices.any fun n => n.expert == e && n.version == v) = false := by
  simp [ExpTable.acked]

section
variable {s : State} {T e i : Nat} {d : Drain} (h : ((s.table T).drains.find? fun d => d.expert == e && d.rep == i) = some d)
include h

theorem execReplicaRetire_eq : execReplicaRetire T e i s =
    .next (if (s.table T).en && !(!((s.table T).notices.any fun n => n.expert == e && n.version == d.version) &&
        ((s.table T).ctr e).inflOf i == 0) then s
      else s.onTable T fun s => s.retire T e i true) := by
  simp only [execReplicaRetire, h]

theorem execReplicaRetire_waits (hen : (s.table T).en = true)
    (hw : ¬ ((s.table T).acked e d.version ∧ ((s.table T).ctr e).inflOf i = 0)) : execReplicaRetire T e i s = .next s := by
  rw [execReplicaRetire_eq h, if_pos]
  rw [ExpTable.acked_iff] at hw
  cases hown : (s.table T).notices.any fun n => n.expert == e && n.version == d.version with
  | true => rw [hen]; rfl
  | false => simp [hen, mt (And.intro hown) hw]

theorem execReplicaRetire_retires (hc : (s.table T).clear)
    (hw : (s.table T).en = false ∨ ((s.table T).acked e d.version ∧ ((s.table T).ctr e).inflOf i = 0)) :
    execReplicaRetire T e i s = .next (s.ownWork T (s.retire T e i true)) := by
  rw [execReplicaRetire_eq h, if_neg, State.onTable_clear hc]
  rw [ExpTable.acked_iff] at hw
  rcases hw with hen | ⟨hacked, hzero⟩
  · simp [hen]
  · simp [hacked, hzero]

end

/-! ### Refreshes (R115) -/

/-- A refresh as it begins: replica `i` of an entry first, `rest` behind it. -/
def ExpEntry.refresh (x : ExpEntry) (id e i : Nat) (rest : List Nat) : ExpCopy :=
  { id := id, expert := e, rep := i, die := (x.rep i).die, slot := (x.rep i).slot, refresh := true, rest := rest }

section
variable {s : State} {T e : Nat}

theorem execBtcmdRefresh_discarded (h : (s.table T).en = false ∨ (s.table T).nexp < e) : execBtcmdRefresh T e s = .next s := by
  rw [execBtcmdRefresh]
  refine congrArg _ (if_pos ?_)
  rcases h with h | h <;> simp [h]

variable {x : ExpEntry} (hen : (s.table T).en = true) (he : e ≤ (s.table T).nexp) (hx : s.expEntry (s.table T) e = .ok x)
include hen he hx

theorem execBtcmdRefresh_homeOnly (h : ((x.inState 1).filter fun i => i != 0) = []) : execBtcmdRefresh T e s = .next s := by
  simp only [execBtcmdRefresh, hen, Nat.not_lt.2 he, hx, h]
  rfl

theorem execBtcmdRefresh_begins {i : Nat} {rest : List Nat} (h : ((x.inState 1).filter fun i => i != 0) = i :: rest) :
    execBtcmdRefresh T e s = .next ((s.fresh.2.modTable T fun t =>
      { t with copies := t.copies ++ [x.refresh s.nextId e i rest] }).log .barista T 3) := by
  simp only [execBtcmdRefresh, hen, Nat.not_lt.2 he, hx, h]
  rfl

end

/-! ### Windows (R112) -/

/-- The table in which a window has ended: counts exchanged with 0, the policy last written in force. -/
def ExpTable.endWindow (t : ExpTable) : ExpTable :=
  { t with ctrs := t.ctrs.map fun _ c => { c with load := 0, rload := List.replicate 8 0 }
           win := t.win + 1, curWlen := t.wlen, curHot := t.hot, curCold := t.cold, curMaxrep := t.maxrep
           curCopymax := t.copymax }

/-- What the end of a window makes of the die loads that could be summed. -/
def State.decideWindow (s : State) (T : Nat) (r : Except Halt (List Nat)) : Except Halt State :=
  match r with
  | .error h => .error h
  | .ok w => ((s.modTable T ExpTable.endWindow).log .barista T 13).windowDecide T (s.table T).ctrs
      (List.range ((s.table T).nexp + 1)) w

section
variable {s : State} {T : Nat}

theorem execWindowEnd_early (h : (s.table T).en = false ∨ (s.table T).windowLoad < (s.table T).curWlen) :
    execWindowEnd T s = .next s := by
  rw [execWindowEnd]
  refine congrArg _ (if_pos ?_)
  rcases h with h | h <;> simp [h]

theorem execWindowEnd_decides (hen : (s.table T).en = true) (hl : (s.table T).curWlen ≤ (s.table T).windowLoad)
    (hc : (s.table T).clear) : execWindowEnd T s =
      .next (s.ownWork T (s.decideWindow T (s.dieLoads (s.table T) (List.range ((s.table T).nexp + 1))))) := by
  rw [execWindowEnd]
  refine congrArg _ ((if_neg ?_).trans ?_)
  · simp [hen, hl]
  · rw [State.onTable_clear hc]
    cases s.dieLoads (s.table T) (List.range ((s.table T).nexp + 1)) <;> rfl

end

/-! ### Copies (R114, R115) -/

theorem anyPending_nil : anyPending [] = false := rfl
theorem anyInvalid_nil : anyInvalid [] = false := rfl

theorem ok_bind {ε α β : Type} (a : α) (f : α → Except ε β) : (Except.ok a >>= f) = f a := rfl

theorem ExpTable.copy_id {t : ExpTable} {id : Nat} {c : ExpCopy} (h : t.copy id = some c) : c.id = id := by
  simpa using List.find?_some h

section
variable {s : State} {T id : Nat}

theorem execReplicaCopy_none (h : (s.table T).copy id = none) : execReplicaCopyChunk T id s = .next s ∧
    execReplicaPublish T id s = .next s ∧ execReplicaCopyFail T id s = .next s := by
  simp only [execReplicaCopyChunk, execReplicaPublish, execReplicaCopyFail, h, and_self]

variable {c : ExpCopy} (h : (s.table T).copy id = some c)
include h

theorem execReplicaCopy_over (hov : c.failed = true ∨ c.abandoned = true) : execReplicaCopyChunk T id s = .next s ∧
    execReplicaPublish T id s = .next s := by
  rcases hov with hov | hov <;> simp [execReplicaCopyChunk, execReplicaPublish, h, hov]

end

/-- The copy goes on: it has not failed, is not abandoned, and waits for no page. -/
structure ExpCopy.runs (c : ExpCopy) : Prop where
  failed : c.failed = false
  abandoned : c.abandoned = false
  tokens : c.tokens = []

/-- The requester of a copy's chunks: the first core of the target die (R114). -/
abbrev State.copier (s : State) (T : Nat) (c : ExpCopy) : Who := ⟨some ((s.firstCore c.die).getD 0), (s.table T).ctx, true⟩

/-- The next chunk's first and last bytes, at its source and its destination, lie in the Bean layer so far as they are mapped
(R65). -/
abbrev State.chunkInBean (s : State) (T : Nat) (c : ExpCopy) (src dst : Nat) : Bool :=
  let o := 65536 * c.chunk
  [src + o, src + o + 65535, dst + o, dst + o + 65535].all fun a => s.beanAt (s.table T).ctx a

/-- The state in which the next chunk's ranges have been registered and given up again (R221, R251). -/
abbrev State.chunkRegistered (s : State) (T id : Nat) (c : ExpCopy) (src dst : Nat) : State :=
  let o := 65536 * c.chunk
  let core := (s.firstCore c.die).getD 0
  (s.register (s.copier T c) core id [⟨.global (src + o) (src + o + 65536), false, [(src + o, 65536)]⟩,
    ⟨.global (dst + o) (dst + o + 65536), true, [(dst + o, 65536)]⟩]).unlock core id

/-- The next chunk is read from its source and written to its destination (R114). -/
def State.moveChunk (s : State) (T id : Nat) (c : ExpCopy) (src dst : Nat) : State :=
  let core := (s.firstCore c.die).getD 0
  match (s.chunkRegistered T id c src dst).engineRead (s.copier T c) (src + 65536 * c.chunk) 65536 with
  | .error h => s.haltCopy T id (s.copier T c) core true h
  | .ok (bs, v) =>
    match v.engineWrite (s.copier T c) .write (dst + 65536 * c.chunk) bs with
    | .error h => s.haltCopy T id (s.copier T c) core false h
    | .ok w => w.modCopy T id fun c => { c with chunk := c.chunk + 1, crc := crcBytes c.crc bs, tokens := [] }

section
variable {s : State} {T id n src dst : Nat} {c : ExpCopy} {x : ExpEntry} (h : (s.table T).copy id = some c) (hr : c.runs)
  (hn : s.slotChunks (s.table T) = .ok n) (hx : s.expEntry (s.table T) c.expert = .ok x)
  (hs : s.slotAddr (s.table T) (x.rep 0).die (x.rep 0).slot = .ok src) (hd : s.slotAddr (s.table T) c.die c.slot = .ok dst)
include h hr hn hx hs hd

theorem execReplicaCopyChunk_runs : execReplicaCopyChunk T id s = .next (if n ≤ c.chunk then s
    else if !c.refresh && !s.chunkInBean T c src dst then s.modCopy T id fun c => { c with abandoned := true }
    else s.moveChunk T id c src dst) := by
  obtain ⟨hf, ha, ht⟩ := hr
  simp only [execReplicaCopyChunk, h, hf, ha, ht, hn, hx, hs, hd, bind, Except.bind, State.chunkInBean, List.not_all_eq_any_not,
    anyPending_nil, anyInvalid_nil, Bool.or_self, Bool.false_eq_true, if_false]
  unfold State.moveChunk
  generalize (s.chunkRegistered T id c src dst).engineRead (s.copier T c) (src + 65536 * c.chunk) 65536 = r
  cases r <;> rfl

theorem execReplicaCopyChunk_last (hl : n ≤ c.chunk) : execReplicaCopyChunk T id s = .next s := by
  rw [execReplicaCopyChunk_runs h hr hn hx hs hd, if_pos hl]

theorem execReplicaCopyChunk_leaves (hl : c.chunk < n) (href : c.refresh = false) (hb : s.chunkInBean T c src dst = false) :
    execReplicaCopyChunk T id s = .next (s.modCopy T id fun c => { c with abandoned := true }) := by
  rw [execReplicaCopyChunk_runs h hr hn hx hs hd, if_neg (Nat.not_le.2 hl), href, hb]
  rfl

theorem execReplicaCopyChunk_copies (hl : c.chunk < n) (hb : c.refresh = true ∨ s.chunkInBean T c src dst = true)
    {bs : List Byte} {v w : State}
    (hread : (s.chunkRegistered T id c src dst).engineRead (s.copier T c) (src + 65536 * c.chunk) 65536 = .ok (bs, v))
    (hwrite : v.engineWrite (s.copier T c) .write (dst + 65536 * c.chunk) bs = .ok w) :
    execReplicaCopyChunk T id s = .next (w.modCopy T id fun c =>
      { c with chunk := c.chunk + 1, crc := crcBytes c.crc bs, tokens := [] }) := by
  have hstays : ¬ (!c.refresh && !s.chunkInBean T c src dst) = true := by
    rw [← Bool.not_or]
    simpa only [Bool.not_eq_true', Bool.not_eq_false, Bool.or_eq_true] using hb
  rw [execReplicaCopyChunk_runs h hr hn hx hs hd, if_neg (Nat.not_le.2 hl), if_neg hstays, State.moveChunk, hread]
  dsimp only
  rw [hwrite]

end

/-! ### The end of a copy (R114, R115) -/

/-- The copy may come to its end: it is over, or waits for no page of its read-back. -/
def ExpCopy.ready (c : ExpCopy) : Prop := c.failed = true ∨ c.abandoned = true ∨ c.tokens = []

theorem State.onCopy_ok {s w : State} {T : Nat} {c : ExpCopy} (hc : (s.table T).clear) (hr : c.ready)
    {f : State → Except Halt State} (hf : f s = .ok w) : s.onCopy T c f = s.ownWork T (.ok w) := by
  have hpending : (!c.failed && !c.abandoned && anyPending c.tokens) = false := by
    rcases hr with h | h | h <;> simp [h, anyPending_nil]
  have hinvalid : (!c.failed && !c.abandoned && anyInvalid c.tokens) = false := by
    rcases hr with h | h | h <;> simp [h, anyInvalid_nil]
  rw [State.onCopy, hpending, hinvalid, State.onTable_clear hc]
  simp only [Bool.false_eq_true, if_false, hf]

section
variable {s : State} {T id : Nat} {c : ExpCopy} (h : (s.table T).copy id = some c)
include h

theorem execReplicaPublish_invalid (hf : c.failed = false) (ha : c.abandoned = false) (hp : anyPending c.tokens = false)
    (hi : anyInvalid c.tokens = true) :
    execReplicaPublish T id s = .next (s.modCopy T id fun c => { c with failed := true, tokens := [] }) := by
  simp only [execReplicaPublish, State.onCopy, h, hf, ha, hp, hi, ExpTable.copy_id h]
  rfl

end

/-- The state in which a verified copy is LIVE: its index open, the copy gone, notices on their way (R114). -/
def State.published (v : State) (T id : Nat) (c : ExpCopy) (version : Word) : State :=
  ((v.modTable T fun k =>
    { (k.modCtr c.expert fun m => { m with closed := m.closed.set c.rep false }) with
      copies := k.copies.filter fun m => m.id != id }).notify T c.expert (version + 1)).log .barista T 10

section
variable {s : State} {T id : Nat} {c : ExpCopy} (h : (s.table T).copy id = some c) (hr : c.runs) (hc : (s.table T).clear)
  {u : State}
include h hr hc

theorem execReplicaPublish_unverified (hv : s.verify T c = .ok (false, u)) :
    execReplicaPublish T id s = .next (s.ownWork T (.ok s)) := by
  simp only [execReplicaPublish, h, hr.failed, hr.abandoned]
  refine congrArg _ (State.onCopy_ok hc (.inr (.inr hr.tokens)) ?_)
  rw [hv]
  rfl

theorem execReplicaPublish_refreshed {w : State} (hv : s.verify T c = .ok (true, u))
    (href : c.refresh = true) (hw : u.refreshOn T c true = .ok w) :
    execReplicaPublish T id s = .next (s.ownWork T (.ok w)) := by
  simp only [execReplicaPublish, h, hr.failed, hr.abandoned]
  refine congrArg _ (State.onCopy_ok hc (.inr (.inr hr.tokens)) ?_)
  rw [hv]
  exact (if_pos href).trans hw

theorem execReplicaPublish_publishes {v : State} (hv : s.verify T c = .ok (true, u))
    (href : c.refresh = false) {x : ExpEntry} (hx : u.expEntry (u.table T) c.expert = .ok x)
    (hput : u.putExp (u.table T) c.expert (x.setRep c.rep ⟨1, c.die, c.slot⟩) = .ok v) :
    execReplicaPublish T id s = .next (s.ownWork T (.ok (v.published T id c x.version))) := by
  simp only [execReplicaPublish, h, hr.failed, hr.abandoned]
  refine congrArg _ (State.onCopy_ok hc (.inr (.inr hr.tokens)) ?_)
  rw [hv]
  refine (if_neg (Bool.eq_false_iff.1 href)).trans ?_
  simp only [hx, hput, ok_bind]
  rfl

end

section
variable {s : State} {T id : Nat} {c : ExpCopy} (h : (s.table T).copy id = some c) (hc : (s.table T).clear)
  {n : Nat} (hn : s.slotChunks (s.table T) = .ok n) {w : State}
include h hc hn

theorem execReplicaCopyFail_abandoned (ha : c.abandoned = true) (hw : s.dropCopy T c = .ok w) :
    execReplicaCopyFail T id s = .next (s.ownWork T (.ok w)) := by
  simp only [execReplicaCopyFail, h]
  refine congrArg _ (State.onCopy_ok hc (.inr (.inl ha)) ?_)
  rw [hn]
  simp only [ha, ok_bind, Bool.or_true, Bool.not_true, Bool.and_false, Bool.false_and, Bool.false_eq_true, if_true, if_false]
  exact hw

theorem execReplicaCopyFail_failed (ha : c.abandoned = false) (hf : c.failed = true) (href : c.refresh = false)
    (hw : ((s.modTable T fun k => k.countFail c.die).log .barista T 2).dropCopy T c = .ok w) :
    execReplicaCopyFail T id s = .next (s.ownWork T (.ok w)) := by
  simp only [execReplicaCopyFail, h]
  refine congrArg _ (State.onCopy_ok hc (.inl hf) ?_)
  rw [hn]
  simp only [ha, hf, href, ok_bind, Bool.true_or, Bool.not_true, Bool.not_false, Bool.false_and, Bool.false_eq_true,
    if_true, if_false]
  exact hw

end

/-! ### Notices (R110) -/

theorem find?_map_of_found {α : Type} [DecidableEq α] {p : α → Bool} {l : List α} {a : α} {f : α → α}
    (h : l.find? p = some a) (hf : p (f a) = true) : (l.map fun x => if x = a then f x else x).find? p = some (f a) := by
  have ha : p a = true := List.find?_some h
  induction l with
  | nil => cases h
  | cons x l ih =>
    by_cases hx : p x = true
    · rw [List.find?_cons_of_pos hx] at h
      cases h
      simp [hf]
    · have hne : x ≠ a := fun k => hx (k ▸ ha)
      rw [List.find?_cons_of_neg hx] at h
      rw [List.map_cons, if_neg hne, List.find?_cons_of_neg hx, ih h]

theorem State.dropExpert_gone (s : State) (T core e : Nat) :
    ∀ c ∈ ((s.dropExpert T core e).core core).experts, ¬ (c.table = T ∧ c.expert = e) := by
  rw [State.dropExpert, State.core_modCore]
  intro c hc
  simpa [imp_iff_not_or] using (List.mem_filter.1 hc).2

section
variable {s : State} {T : Nat} (hw : (s.table T).waits = [])
include hw

theorem State.reroute_idle : s.reroute T = s := by
  rw [State.reroute, hw]; rfl

theorem State.stillRouting_idle (core e : Nat) : s.stillRouting T core e = [] := by
  rw [State.stillRouting, hw]; rfl

theorem State.haveNotice_idle (core : Nat) (n : Notice) : s.haveNotice T core n =
    (s.dropExpert T core n.expert).modTable T fun t =>
      { t with notices := t.notices.map fun m => if m = n then { m with owed := some [] } else m } := by
  rw [State.haveNotice, State.stillRouting_idle hw]
  exact State.reroute_idle (by rw [State.table_modTable]; exact hw)

end

section
variable {s : State} {T core : Nat}

theorem execVersionNotice_none (h : ((s.table T).notices.find? fun n => n.core == s.coreName core) = none) :
    execVersionNotice T core s = .next s := by
  simp only [execVersionNotice, h]

theorem State.ackNotice_owed {n : Notice} {l : List Nat} (ho : n.owed = some l) : s.ackNotice T core n =
    if ∀ f ∈ l, f ∉ s.stillRouting T core n.expert then s.modTable T fun k => { k with notices := k.notices.erase n }
    else s := by
  have hany : (n.owed.any fun l => !l.any fun f => (s.stillRouting T core n.expert).contains f) = true ↔
      ∀ f ∈ l, f ∉ s.stillRouting T core n.expert := by simp [ho]
  rw [State.ackNotice]
  exact if_congr hany rfl rfl

variable {n : Notice} (h : ((s.table T).notices.find? fun n => n.core == s.coreName core) = some n)
include h

theorem execVersionNotice_had {l : List Nat} (ho : n.owed = some l) :
    execVersionNotice T core s = .next (s.ackNotice T core n) := by
  simp only [execVersionNotice, h, ho, Option.isNone_some, Bool.false_eq_true, if_false]

theorem execVersionNotice_first (ho : n.owed = none) (hw : (s.table T).waits = []) : execVersionNotice T core s =
    .next ((s.haveNotice T core n).modTable T fun k => { k with notices := k.notices.erase { n with owed := some [] } }) := by
  have hcore : (n.core == s.coreName core) = true := by simpa using List.find?_some h
  have hhave := State.haveNotice_idle hw core n
  have hagain : (((s.haveNotice T core n).table T).notices.find? fun m => m.core == s.coreName core) =
      some { n with owed := some [] } := by
    rw [hhave, State.table_modTable]
    exact find?_map_of_found (f := fun m => { m with owed := some [] }) h hcore
  simp only [execVersionNotice, h, ho, Option.isNone_none, if_true, hagain]
  rw [State.ackNotice_owed rfl, if_pos (by simp)]

end

/-! ### Merges (R119, R289) -/

section
variable {s : State} {T : Nat}

theorem execMergeComplete_none (h : (s.table T).merges = []) : execMergeComplete T s = .next s := by
  simp only [execMergeComplete, h]

/-- What the work of the oldest merge leaves: the merge gone, notices on their way, its flags returned. -/
def State.merged (u : State) (T : Nat) (m : Merge) (rest : List Merge) (version : Word) (fl : Flags) : State :=
  (((u.modTable T fun k => { k with merges := rest }).notify T m.expert (version + 1)).log .barista T 12).returnPart m.gid
    m.flight [] fl

theorem execMergeComplete_merges {m : Merge} {rest : List Merge} (h : (s.table T).merges = m :: rest) (hc : (s.table T).clear)
    {x : ExpEntry} {u : State} {fl : Flags} (hx : s.expEntry (s.table T) m.expert = .ok x)
    (hm : s.mergeWork T m.expert = .ok (u, fl)) :
    execMergeComplete T s = .next (s.ownWork T (.ok (u.merged T m rest x.version fl))) := by
  simp only [execMergeComplete, h]
  rw [State.onTable_clear hc, hx, ok_bind, hm]
  rfl

end

/-! ### The statement -/

/-- Settles O47: each instruction by what it refuses and what it does, each event of Barista from the lemmas on its branches. -/
theorem expertEngine : Obligations.ExpertEngine := by
  unfold Obligations.ExpertEngine
  refine ⟨⟨?instructions, fun e hlen hreps => ExpEntry.of_bytes hlen hreps, ?descriptor, by decide, ?counts⟩, ?barista⟩
  case instructions =>
    intro s x o h
    rw [← tableOf_eq o]
    intro T t
    refine ⟨fun hq i hi => ?queue, fun hq => ?group, fun hq T' core e i w u hsnap hlive => ?lane⟩
    case queue =>
      simp only [List.mem_cons, List.not_mem_nil, or_false] at hi
      rcases hi with rfl | rfl | rfl | rfl <;> exact kernelOnly_queue h _ hq
    case group =>
      intro retry badR badD once badQ ls desc expert serves badExp
      have hroute : ¬ badR → badRoute x.g o = false := fun hb => Bool.eq_false_iff.2 (mt (badRoute_iff x.g o).1 hb)
      have hdone : ¬ badD → badSrc x.g .i64 o.a = false := Bool.eq_false_iff.2
      have hquery : ¬ badQ → badQuery x.g o = false := fun hb => Bool.eq_false_iff.2 (mt (badQuery_iff x.g o).1 hb)
      refine ⟨fun hb => execEroute_refused h hq ((badRoute_iff x.g o).2 hb), execEdone_refused h hq,
        fun hb => execEqry_refused h hq ((badQuery_iff x.g o).2 hb), fun hs => ⟨
          fun hb => execEroute_checked h hq (hroute hb) (State.expertCheck_other hs),
          fun hb => execEdone_checked h hq (hdone hb) (State.expertCheck_other hs),
          fun hb => execEqry_checked h hq (hquery hb) (State.expertCheck_other hs), execEmerge_other h hq hs⟩,
        fun hb hs => ?route, fun hb hs => ?done, fun hb hs => ?query, ?merge⟩
      case route =>
        intro far
        exact ⟨fun hfar => execEroute_checked h hq (hroute hb) (State.expertCheck_strangers hs hfar),
          fun hfar => execEroute_routes h hq (hroute hb) (State.expertCheck_passes hs hfar)⟩
      case done =>
        exact ⟨fun hbad => execEdone_checked h hq (hdone hb) (State.expertCheck_strangers hs hbad),
          fun hbad => execEdone_lowers h hq (hdone hb) (State.expertCheck_passes hs hbad)⟩
      case query =>
        exact ⟨fun hbad => execEqry_checked h hq (hquery hb) (State.expertCheck_strangers hs hbad),
          fun hbad => execEqry_answers h hq (hquery hb) (State.expertCheck_passes hs hbad)⟩
      case merge =>
        intro e
        have hconst := t.strangers_const x.list e
        refine ⟨execEmerge_refused h hq, fun hb ht hs he hl => ?_, fun hb ht hs he hl => ?_, fun hb ht hs he => ?_⟩
        · rw [if_pos he] at hconst
          exact (execEmerge_passes h hq hb ht (State.expertCheck_passes hs (hconst.trans hl))).trans (congrArg _ (if_pos he))
        · rw [if_pos he] at hconst
          have hbad := State.expertCheck_strangers hs fun k => hl (hconst.symm.trans k)
          exact execEmerge_checked h hq hb ht (hbad.trans (by rw [hconst]))
        · rw [if_neg (Nat.not_lt.2 he)] at hconst
          exact (execEmerge_passes h hq hb ht (State.expertCheck_passes hs hconst)).trans (congrArg _ (if_neg (Nat.not_lt.2 he)))
    case lane =>
      have heq := State.routeOnce_eq hsnap hlive
      have hheld := w.held_iff ((u.table T').ctr w.expert) e i
      exact ⟨fun hw => heq.trans (if_pos (hheld.2 hw)), fun hw => heq.trans (if_neg (mt hheld.1 hw))⟩
  case descriptor =>
    intro e n i hn hi hd hj
    obtain ⟨hslot, hdie, hindex, -, -⟩ := routeDesc_fields hn hi hd hj
    exact ⟨hslot, hdie, hindex, descExpert_routeDesc hn hi hd hj, routeDesc_version hn hi hd hj⟩
  case counts =>
    exact fun t e i j hi => ⟨ExpTable.lower_zero, fun h0 => ⟨ExpTable.lower_infl h0 hi, ExpTable.lower_infl_ne h0⟩⟩
  case barista =>
    intro s T t clear own
    refine ⟨fun v => ?control, fun e i => ?retirements, fun e => ?refreshes, ?windows, fun id => ?copies, fun core => ?notices,
      execMergeComplete_none, fun m rest hm hc x u fl hx hw => execMergeComplete_merges hm hc hx hw, fun h gs => rfl⟩
    case control =>
      refine ⟨execBtctlEnable_ignored, fun hen hv => ?starts, execBtctlDisable_ignored, execBtctlDisable_stops,
        execBtctlHold_ignored, execBtctlHold_abandons, ?excluded⟩
      case starts =>
        intro k u
        refine ⟨fun e hbad => ?_, fun hgood => ?_⟩
        · have htable : (u.modTable T fun t => { t with badexp := e }).table T = { k with badexp := e } := by
            rw [State.table_modTable, State.table_modTable]
          exact ⟨_, execBtctlEnable_refuses hen hv hbad, (congrArg ExpTable.en htable).trans hen,
            congrArg ExpTable.badexp htable⟩
        · refine ⟨s.startTable T v, execBtctlEnable_starts hen hv hgood, ?_⟩
          rw [s.startTable_table T v]
          exact ⟨rfl, rfl, rfl, rfl, rfl, rfl, rfl, rfl⟩
      case excluded =>
        have htable : (s.modTable T fun t => t.unexclude v).table T = t.unexclude v := State.table_modTable s T _
        refine ⟨_, execBtexclClear_eq T v s, ?_, fun d hd => ?_⟩
        · exact congrArg ExpTable.excl htable
        · exact (congrArg (fun t => t.fail.getD d 0) htable).trans (t.unexclude_fail v hd)
    case retirements =>
      refine ⟨execBtcmdForceRetire_discarded, execBtcmdForceRetire_retires, execReplicaRetire_none, fun d hd hc => ?_⟩
      exact ⟨execReplicaRetire_waits hd, execReplicaRetire_retires hd hc⟩
    case refreshes =>
      refine ⟨execBtcmdRefresh_discarded, fun hen he x hx => ⟨execBtcmdRefresh_homeOnly hen he hx, fun i rest hi =>
        ⟨_, x.refresh s.nextId e i rest, execBtcmdRefresh_begins hen he hx hi, ?_, rfl, rfl, rfl, rfl, rfl, rfl, rfl, rfl⟩⟩⟩
      exact congrArg ExpTable.copies (State.table_modTable s.fresh.2 T fun t =>
        { t with copies := t.copies ++ [x.refresh s.nextId e i rest] })
    case windows =>
      refine ⟨execWindowEnd_early, fun hen hl hc => ?_⟩
      rw [exec_windowEnd, execWindowEnd_decides hen hl hc]
      rfl
    case copies =>
      refine ⟨execReplicaCopy_none, fun c hcopy => ⟨execReplicaCopy_over hcopy, fun hf ha ht => ?chunk,
        execReplicaPublish_invalid hcopy, fun hf ha ht hc ok u hv => ?publish, fun hc n hn =>
          ⟨fun ha w => execReplicaCopyFail_abandoned hcopy hc hn ha,
            fun ha hf href w => execReplicaCopyFail_failed hcopy hc hn ha hf href⟩⟩⟩
      case chunk =>
        intro core k o n x src dst hn hx hs hd
        have hr : c.runs := ⟨hf, ha, ht⟩
        refine ⟨execReplicaCopyChunk_last hcopy hr hn hx hs hd, fun hl href hb => ?_, fun hl hb => ?_⟩
        · exact execReplicaCopyChunk_leaves hcopy hr hn hx hs hd hl href hb
        · intro u bs v w hread hwrite
          exact execReplicaCopyChunk_copies hcopy hr hn hx hs hd hl hb hread hwrite
      case publish =>
        have hr : c.runs := ⟨hf, ha, ht⟩
        refine ⟨?_, ?_, ?_⟩
        · rintro rfl
          exact execReplicaPublish_unverified hcopy hr hc hv
        · rintro rfl href w
          exact execReplicaPublish_refreshed hcopy hr hc hv href
        · rintro rfl href x v hx hput
          exact execReplicaPublish_publishes hcopy hr hc hv href hx hput
    case notices =>
      intro k
      refine ⟨execVersionNotice_none, fun n hn => ⟨fun l ho => ?had, fun ho hw => ?first⟩⟩
      case had => exact (execVersionNotice_had hn ho).trans (congrArg _ (State.ackNotice_owed ho))
      case first =>
        have hhave := State.haveNotice_idle hw core n
        refine ⟨_, execVersionNotice_first hn ho hw, ?_, ?_⟩
        · rw [hhave]
          exact s.dropExpert_gone T core n.expert
        · rw [State.table_modTable, hhave, State.table_modTable]
          rfl

end Sys2Proof.Machine
end

section
/-! Settles O50 (Rasterization): the tiles that a triangle meets, the samples that a piece covers and the quads of a tile (R124, R125,
R390). -/

namespace Sys2Proof.Machine

/-! ### The tiles of a stack (R125) -/

/-- The tiles of a stack's parity among `nx` columns from `tx` and `ny` rows from `ty`, row by row. -/
def tileGrid (stack tx ty nx ny : Nat) : List (Nat × Nat) :=
  (List.range ny).flatMap fun j => ((List.range nx).map fun i => (tx + i, ty + j)).filter fun t => (t.1 + t.2) % 2 == stack

section
variable {stack tx ty nx ny : Nat}

theorem mem_tileGrid {p : Nat × Nat} :
    p ∈ tileGrid stack tx ty nx ny ↔ (∃ i < nx, ∃ j < ny, p = (tx + i, ty + j)) ∧ (p.1 + p.2) % 2 = stack := by
  simp only [tileGrid, List.mem_flatMap, List.mem_filter, List.mem_map, List.mem_range, beq_iff_eq]
  constructor
  · rintro ⟨j, hj, ⟨i, hi, rfl⟩, hpar⟩
    exact ⟨⟨i, hi, j, hj, rfl⟩, hpar⟩
  · rintro ⟨⟨i, hi, j, hj, rfl⟩, hpar⟩
    exact ⟨j, hj, ⟨i, hi, rfl⟩, hpar⟩

theorem tileGrid_pairwise : (tileGrid stack tx ty nx ny).Pairwise fun p q => p.2 < q.2 ∨ (p.2 = q.2 ∧ p.1 < q.1) := by
  rw [tileGrid, List.pairwise_flatMap]
  constructor
  · intro j _
    refine List.Pairwise.filter _ (List.pairwise_map.2 (List.pairwise_lt_range.imp fun hlt => ?_))
    exact .inr ⟨rfl, Nat.add_lt_add_left hlt tx⟩
  · refine List.pairwise_lt_range.imp fun hlt p hp q hq => .inl ?_
    obtain ⟨⟨i, -, rfl⟩, -⟩ := by simpa only [List.mem_filter, List.mem_map] using hp
    obtain ⟨⟨k, -, rfl⟩, -⟩ := by simpa only [List.mem_filter, List.mem_map] using hq
    exact Nat.add_lt_add_left hlt ty

end

/-- The tiles of a triangle are those of a grid that lies within the raster extent. -/
theorem SetupTri.tiles_eq_tileGrid (t : SetupTri) (w h stack : Nat) : ∃ tx ty nx ny,
    t.tiles w h stack = tileGrid stack tx ty nx ny ∧ (∀ i < nx, 8 * (tx + i) < w) ∧ ∀ j < ny, 8 * (ty + j) < h := by
  rw [SetupTri.tiles]
  split
  · exact ⟨0, 0, 0, 0, rfl, by simp, by simp⟩
  · dsimp only
    split
    · exact ⟨0, 0, 0, 0, rfl, by simp, by simp⟩
    · next hbox => refine ⟨_, _, _, _, rfl, fun i hi => ?_, fun j hj => ?_⟩ <;> omega

/-! ### Coverage (R124, R125) -/

/-- The edge function from `u` to `v` at a sample: positive to the right of the edge, y pointing down. -/
def edgeFn (u v : SetupVertex) (x y : Int) : Int := (v.x - u.x) * (y - u.y) - (v.y - u.y) * (x - u.x)

/-- Whether the edge from `u` to `v` of a piece that runs clockwise takes a sample: it lies inside the edge, or on it where the edge
is a left or a top one. -/
def edgeTakes (u v : SetupVertex) (x y : Int) : Bool :=
  0 < edgeFn u v x y || (edgeFn u v x y == 0 && (v.y - u.y < 0 || (v.y - u.y == 0 && 0 < v.x - u.x)))

section
variable {a b c u v : SetupVertex} {x y : Int}

theorem edgeFn_swap : edgeFn v u x y = -edgeFn u v x y := by
  rw [edgeFn, edgeFn]
  ring

theorem edgeTakes_of_pos (h : 0 < edgeFn u v x y) : edgeTakes u v x y = true := by
  simp [edgeTakes, h]

theorem edgeTakes_of_neg (h : edgeFn u v x y < 0) : edgeTakes u v x y = false := by
  simp [edgeTakes, h.le, h.ne]

theorem edgeTakes_swap_of_neg (h : edgeFn u v x y < 0) : edgeTakes v u x y = true :=
  edgeTakes_of_pos (by rw [edgeFn_swap]; exact neg_pos.2 h)

theorem edgeTakes_swap_of_pos (h : 0 < edgeFn u v x y) : edgeTakes v u x y = false :=
  edgeTakes_of_neg (by rw [edgeFn_swap]; exact neg_neg_of_pos h)

/-- No sample is taken by an edge and by the same edge run backwards. -/
theorem not_edgeTakes_both : ¬ (edgeTakes u v x y = true ∧ edgeTakes v u x y = true) := by
  simp only [edgeTakes, edgeFn_swap (u := u) (v := v), Bool.or_eq_true, Bool.and_eq_true, decide_eq_true_eq, beq_iff_eq]
  omega

/-- A piece that runs clockwise covers what its three edges take. -/
theorem edgesAt_clockwise (h : 0 < pieceArea [a, b, c]) :
    (edgesAt [a, b, c] x y).2 = (edgeTakes b c x y && edgeTakes c a x y && edgeTakes a b x y) := by
  simp only [edgesAt, h, decide_true, if_true]
  rfl

/-- A piece that runs the other way covers what its edges, run backwards, take. -/
theorem edgesAt_counterclockwise (h : pieceArea [a, b, c] < 0) :
    (edgesAt [a, b, c] x y).2 = (edgeTakes c b x y && edgeTakes a c x y && edgeTakes b a x y) := by
  have hrun (u v : SetupVertex) : edgeTakes v u x y = (decide (0 < -edgeFn u v x y) || (-edgeFn u v x y == 0 &&
      (decide (u.y - v.y < 0) || (u.y - v.y == 0 && decide (0 < u.x - v.x))))) := by
    rw [edgeTakes, edgeFn_swap]
  simp only [edgesAt, not_lt.2 h.le, decide_false, Bool.false_eq_true, if_false, hrun]
  rfl

end

/-! ### Quads (R125, R127, R390) -/

@[simp] theorem sampleOf_x (p : List SetupVertex) (w h x y : Nat) : (sampleOf p w h x y).x = x := rfl
@[simp] theorem sampleOf_y (p : List SetupVertex) (w h x y : Nat) : (sampleOf p w h x y).y = y := rfl

theorem sampleOf_within {p : List SetupVertex} {w h x y : Nat} (hc : (sampleOf p w h x y).covered = true) : x < w ∧ y < h := by
  simp only [sampleOf, Bool.and_eq_true, decide_eq_true_eq] at hc
  obtain ⟨⟨⟨-, hx⟩, hy⟩, -⟩ := hc
  exact ⟨hx, hy⟩

/-- The pixels of quad (a, b). -/
def quadPixels (a b : Nat) : List (Nat × Nat) := [(2 * a, 2 * b), (2 * a + 1, 2 * b), (2 * a, 2 * b + 1), (2 * a + 1, 2 * b + 1)]

/-- The samples of quad (a, b) in the plane of a piece. -/
def quadRow (w h a b : Nat) (p : List SetupVertex) : List Sample := (quadPixels a b).map fun e => sampleOf p w h e.1 e.2

/-- A piece covers one of the samples of quad (a, b). -/
def touchesQuad (w h a b : Nat) (p : List SetupVertex) : Bool :=
  (quadRow w h a b p).any (·.covered)

/-- A pixel's sample on a triangle: that of the first piece that covers it, otherwise that of the quad's own piece. -/
def sampleIn (ps : List (List SetupVertex)) (w h : Nat) (main : List SetupVertex) (x y : Nat) : Sample :=
  ((ps.map fun p => sampleOf p w h x y).find? (·.covered)).getD (sampleOf main w h x y)

section
variable {ps : List (List SetupVertex)} {main p : List SetupVertex} {w h a b x y : Nat}

/-- The quad's own piece is the first that covers one of its pixels. -/
theorem quadOf_eq : quadOf ps w h a b =
    (ps.find? (touchesQuad w h a b)).map fun main =>
      (quadPixels a b).map fun e => sampleIn ps w h main e.1 e.2 := by
  have hfind : (ps.map (quadRow w h a b)).find? (fun r => r.any (·.covered)) =
      (ps.find? (touchesQuad w h a b)).map (quadRow w h a b) := List.find?_map ..
  unfold quadOf
  dsimp only
  split
  · next hnone =>
    rw [Option.map_eq_none_iff.1 (hfind.symm.trans hnone)]
    rfl
  · next hsome =>
    obtain ⟨main, hmain, rfl⟩ := Option.map_eq_some_iff.1 (hfind.symm.trans hsome)
    rw [hmain]
    simp [quadRow, quadPixels, sampleIn, List.filterMap_map, -List.find?_filterMap]

theorem exists_sampleIn_eq : ∃ p, sampleIn ps w h main x y = sampleOf p w h x y := by
  rw [sampleIn]
  cases hf : (ps.map fun p => sampleOf p w h x y).find? (·.covered) with
  | none => exact ⟨main, rfl⟩
  | some q =>
    obtain ⟨p, -, rfl⟩ := List.mem_map.1 (List.mem_of_find?_eq_some hf)
    exact ⟨p, rfl⟩

theorem sampleIn_covered (hp : p ∈ ps) (hc : (sampleOf p w h x y).covered = true) : (sampleIn ps w h main x y).covered = true := by
  rw [sampleIn]
  cases hf : (ps.map fun p => sampleOf p w h x y).find? (·.covered) with
  | none => exact absurd hc (List.find?_eq_none.1 hf _ (List.mem_map_of_mem hp))
  | some q => exact List.find?_some hf

theorem div_two_of_mem_quadPixels {e : Nat × Nat} (he : e ∈ quadPixels a b) : e.1 / 2 = a ∧ e.2 / 2 = b := by
  simp only [quadPixels, List.mem_cons, List.not_mem_nil, or_false] at he
  rcases he with rfl | rfl | rfl | rfl <;> exact ⟨by omega, by omega⟩

theorem quadOf_spec {q : List Sample} (hq : quadOf ps w h a b = some q) :
    q.length = 4 ∧ (∃ p ∈ q, p.covered = true) ∧
      ∀ p ∈ q, p.x / 2 = a ∧ p.y / 2 = b ∧ (p.covered = true → p.x < w ∧ p.y < h) := by
  rw [quadOf_eq] at hq
  obtain ⟨main, hmain, rfl⟩ := Option.map_eq_some_iff.1 hq
  refine ⟨rfl, ?_, ?_⟩
  · have htouch : touchesQuad w h a b main = true := List.find?_some hmain
    rw [touchesQuad, quadRow, List.any_map] at htouch
    obtain ⟨e, he, hc⟩ := List.any_eq_true.1 htouch
    exact ⟨_, List.mem_map_of_mem he, sampleIn_covered (List.mem_of_find?_eq_some hmain) hc⟩
  · intro p hp
    obtain ⟨e, he, rfl⟩ := List.mem_map.1 hp
    obtain ⟨m, hm⟩ := exists_sampleIn_eq (ps := ps) (main := main) (w := w) (h := h) (x := e.1) (y := e.2)
    obtain ⟨hx, hy⟩ := div_two_of_mem_quadPixels he
    rw [hm, sampleOf_x, sampleOf_y]
    exact ⟨hx, hy, sampleOf_within⟩

end

/-! ### The statement -/

/-- Settles O50: the tiles by the grid that they form, coverage edge by edge, the quads by the pixels of each. -/
theorem rasterization : Obligations.Rasterization := by
  unfold Obligations.Rasterization
  refine ⟨fun t w h stack _ => ?tiles, fun a b c x y => ?coverage, fun a b c d x y hneg hpos => ?shared,
    fun t w h tx ty q hq => ?quads⟩
  case tiles =>
    obtain ⟨tx, ty, nx, ny, heq, hw, hh⟩ := t.tiles_eq_tileGrid w h stack
    rw [heq]
    refine ⟨fun p hp => ?_, tileGrid_pairwise⟩
    obtain ⟨⟨i, hi, j, hj, rfl⟩, hpar⟩ := mem_tileGrid.1 hp
    exact ⟨hpar, hw i hi, hh j hj⟩
  case coverage =>
    refine ⟨fun ha hab hbc hca => ?_, fun ha hab hbc hca => ?_, fun ha hout => ?_, fun ha hout => ?_⟩
    · rw [edgesAt_clockwise ha, edgeTakes_of_pos hab, edgeTakes_of_pos hbc, edgeTakes_of_pos hca]
      rfl
    · rw [edgesAt_counterclockwise ha, edgeTakes_swap_of_neg hab, edgeTakes_swap_of_neg hbc, edgeTakes_swap_of_neg hca]
      rfl
    · rw [edgesAt_clockwise ha]
      rcases hout with hab | hbc | hca
      · simp [edgeTakes_of_neg hab]
      · simp [edgeTakes_of_neg hbc]
      · simp [edgeTakes_of_neg hca]
    · rw [edgesAt_counterclockwise ha]
      rcases hout with hab | hbc | hca
      · simp [edgeTakes_swap_of_pos hab]
      · simp [edgeTakes_swap_of_pos hbc]
      · simp [edgeTakes_swap_of_pos hca]
  case shared =>
    rw [edgesAt_counterclockwise hneg, edgesAt_clockwise hpos]
    simp only [Bool.and_eq_true]
    rintro ⟨⟨-, hba⟩, -, hab⟩
    exact not_edgeTakes_both ⟨hab, hba⟩
  case quads =>
    simp only [SetupTri.quads, List.mem_flatMap, List.mem_filterMap, List.mem_range] at hq
    obtain ⟨j, hj, i, hi, hquad⟩ := hq
    obtain ⟨hlen, hcov, hall⟩ := quadOf_spec hquad
    refine ⟨hlen, hcov, fun p hp => ?_⟩
    obtain ⟨hx, hy, hin⟩ := hall p hp
    exact ⟨by omega, by omega, hin⟩

end Sys2Proof.Machine
end

section
/-! Settles O52 (DrawPipeline): the front end of a draw, from assembly to the placement of fragment groups, and its banks, from the
delivery of a part to completion (R77, R122–R132). -/

namespace Sys2Proof.Machine

/-! ### The work of a draw (R131) -/

theorem bind_of_ok {ε α β : Type} {x : Except ε α} {a : α} (h : x = .ok a) (f : α → Except ε β) : (x >>= f) = f a := by
  rw [h]
  rfl

theorem bind_of_error {ε α β : Type} {x : Except ε α} {e : ε} (h : x = .error e) (f : α → Except ε β) : (x >>= f) = .error e := by
  rw [h]
  rfl

/-- A draw's own work runs: the draw is not over, nothing has stopped it, and it awaits no page. -/
def State.drawRuns (s : State) (d : Draw) : Prop :=
  d.status = none ∧ (s.ctx d.ctx).fatal = none ∧ s.pkg.stopped = false ∧ d.tokens = []

/-- The state on which a draw's work begins: the draw awaits no page. -/
def State.unwaited (s : State) (did : Nat) : State := s.modDraw did fun d => { d with tokens := [] }

section
variable {s : State} {did : Nat} {d : Draw} {f : State → Except Halt State} (hr : s.drawRuns d)
include hr

theorem State.onDraw_ok {t : State} (hf : f (s.unwaited did) = .ok t) : s.onDraw did d f = t := by
  obtain ⟨hstatus, hfatal, hstopped, htokens⟩ := hr
  rw [State.unwaited] at hf
  simp [State.onDraw, hstatus, hfatal, hstopped, htokens, anyPending, hf]

theorem State.onDraw_error {h : Halt} (hf : f (s.unwaited did) = .error h) : s.onDraw did d f = s.haltDraw did d h := by
  obtain ⟨hstatus, hfatal, hstopped, htokens⟩ := hr
  rw [State.unwaited] at hf
  simp [State.onDraw, hstatus, hfatal, hstopped, htokens, anyPending, hf]

end

/-! ### Assembly (R122–R124) -/

/-- A draw's next triangle is assembled: there is one, the draws before it in its stream have none left, and its vertex groups have
exited. -/
def State.assembles (s : State) (did : Nat) (d : Draw) : Prop :=
  d.nextTri < d.tris ∧ (s.earlier did d).all (fun e => e.2.tris ≤ e.2.nextTri) = true ∧
    (d.slots d.nextTri).all (s.slotDone d) = true

theorem State.assembles_iff (s : State) (did : Nat) (d : Draw) : s.assembles did d ↔
    ¬ (decide (d.tris ≤ d.nextTri) || (s.earlier did d).any (fun e => decide (e.2.nextTri < e.2.tris)) ||
      !(d.slots d.nextTri).all (s.slotDone d)) = true := by
  simp [State.assembles, and_assoc]

/-- The addresses of the vertex records of a draw's next triangle. -/
def Draw.records (d : Draw) : List Nat := (d.slots d.nextTri).map fun v => (d.drec.vout + v * d.drec.stride) % 2 ^ 52

section
variable {s : State} {did : Nat} {d : Draw} (hd : s.draw did = some d)
include hd

theorem execPrimitiveAssembly_waits (h : ¬ s.assembles did d) : execPrimitiveAssembly did s = .next s := by
  rw [State.assembles_iff, not_not] at h
  simp only [execPrimitiveAssembly, hd]
  rw [if_pos h]

theorem execPrimitiveAssembly_assembles (hr : s.drawRuns d) (h : s.assembles did d) {vs : List (List Word)} {t : State}
    (hv : (s.unwaited did).readVertices (s.drawWho d) d.records = .ok (vs, t)) :
    execPrimitiveAssembly did s = .next (t.modDraw did fun k => { k.setUp (d.cull (d.psn0 + BitVec.ofNat 40 d.nextTri) d.records
      (piecesOf [d.drec.vpsx, d.drec.vpsy, d.drec.vpox, d.drec.vpoy] vs)) with nextTri := d.nextTri + 1 }) := by
  simp only [execPrimitiveAssembly, hd]
  rw [if_neg ((s.assembles_iff did d).1 h)]
  exact congrArg _ (State.onDraw_ok hr (bind_of_ok hv _))

theorem execPrimitiveAssembly_halts (hr : s.drawRuns d) (h : s.assembles did d) {z : Halt}
    (hv : (s.unwaited did).readVertices (s.drawWho d) d.records = .error z) :
    execPrimitiveAssembly did s = .next (s.haltDraw did d z) := by
  simp only [execPrimitiveAssembly, hd]
  rw [if_neg ((s.assembles_iff did d).1 h)]
  exact congrArg _ (State.onDraw_error hr (bind_of_error hv _))

end

theorem Draw.cull_eq_none_iff (d : Draw) (psn : BitVec 40) (recs : List Nat) (ps : List (List SetupVertex)) :
    let area := ((ps.filter fun p => pieceArea p != 0).map pieceArea).sum
    let front : Bool := decide (0 < area) == d.drec.frontcw
    d.cull psn recs ps = none ↔ area = 0 ∨ (d.drec.cull = 1 ∧ front = false) ∨ (d.drec.cull = 2 ∧ front = true) := by
  simp only [Draw.cull, Bool.not_eq_true', ite_eq_left_iff, reduceCtorEq, imp_false, not_not]

/-! ### Rasterization (R125–R127) -/

/-- The state after a stack has rasterized a triangle of a draw, of which `rest` are left on it. -/
def State.rasterized (s : State) (did : Nat) (d : Draw) (stack : Nat) (t : SetupTri) (rest : List SetupTri) : State :=
  let r := s.bookTiles did d t stack (t.tiles d.extW d.extH stack)
  (r.2.packQuads did d t r.1).modDraw did fun d => if stack = 0 then { d with setup0 := rest } else { d with setup1 := rest }

section
variable {s : State} {did stack : Nat} {d : Draw} {t : SetupTri} {rest : List SetupTri} (hd : s.draw did = some d)
  (ht : d.setup stack = t :: rest)
include hd ht

theorem execRasterizeTriangle_waits
    (h : s.pendingTickets stack ≠ [] ∨ (s.earlier did d).any (fun e => !(e.2.setup stack).isEmpty) = true) :
    execRasterizeTriangle did stack s = .next s := by
  simp only [execRasterizeTriangle, hd, ht]
  rw [if_pos]
  rcases h with h | h
  · simp [h]
  · simp only [h, Bool.or_true, Bool.true_or]

theorem execRasterizeTriangle_rasterizes (hp : s.pendingTickets stack = [])
    (he : (s.earlier did d).any (fun e => !(e.2.setup stack).isEmpty) = false) (hf : (s.ctx d.ctx).fatal = none)
    (hs : s.pkg.stopped = false) : execRasterizeTriangle did stack s = .next (s.rasterized did d stack t rest) := by
  simp only [execRasterizeTriangle, hd, ht]
  rw [if_neg (by simp only [hp, he, hf, hs]; decide)]
  rfl

end

/-! ### Tickets (R126, R131, R132) -/

/-- A ticket is issued: its draw may go on, and each of its banks has a free entry and room for its fragments. -/
def State.ticketFits (s : State) (t : Ticket) (d : Draw) : Prop :=
  s.gateOpen t.draw d = true ∧ ∀ b ∈ (t.die, t.bank) :: t.followers,
    (KV.get [] (s.die b.1).queues b.2).length < 64 ∧ s.bankLoad b.1 b.2 + t.samples.length ≤ 256

theorem State.ticketFits_iff (s : State) (t : Ticket) (d : Draw) : s.ticketFits t d ↔
    ¬ (!s.gateOpen t.draw d || !((t.die, t.bank) :: t.followers).all (s.bankRoom t.samples.length)) = true := by
  simp only [State.ticketFits, State.bankRoom, Bool.or_eq_true, Bool.not_eq_true', not_or, Bool.not_eq_false, List.all_eq_true,
    Bool.and_eq_true, decide_eq_true_eq]

section
variable {s : State} {stack id : Nat} {t : Ticket} {rest : List (Nat × Ticket)} {d : Draw}
  (hp : s.pendingTickets stack = (id, t) :: rest) (hd : s.draw t.draw = some d)
include hp hd

theorem execTicketIssue_waits (h : ¬ s.ticketFits t d) : execTicketIssue stack s = .next s := by
  rw [State.ticketFits_iff, not_not] at h
  simp only [execTicketIssue, hp, hd]
  rw [if_pos h]

theorem execTicketIssue_issues (h : s.ticketFits t d) (hr : s.drawRuns d) {ts : List (Nat × Nat)}
    (hts : (s.unwaited t.draw).needTiles (s.drawWho d) d.drec.layer t.tx t.ty d.drec.targets = .ok ts) :
    execTicketIssue stack s = .next (t.followers.foldl (fun s b => s.enqueue b { ticket := id, home := false })
      (State.enqueue { s.unwaited t.draw with
        tickets := (s.unwaited t.draw).tickets.insert id { t with issued := true, tiles := ts } } (t.die, t.bank)
          { ticket := id, home := true })) := by
  simp only [execTicketIssue, hp, hd]
  rw [if_neg ((s.ticketFits_iff t d).1 h)]
  exact congrArg _ (State.onDraw_ok hr (bind_of_ok hts _))

end

/-! ### Fragment groups (R127) -/

section
variable {s : State} {die : Nat}

theorem execFragmentGroupPlace_stopped (h : s.pkg.stopped = true) : execFragmentGroupPlace die s = .next s := by
  rw [execFragmentGroupPlace, if_pos h]

theorem execFragmentGroupPlace_places (h : s.pkg.stopped = false) {q : QuadSet} {lid : Nat} {l : Launch}
    {rest : List (QuadSet × Nat × Launch)} {t : State} (hq : s.quadOrder die = (q, lid, l) :: rest)
    (hw : s.headWaits l.prio = false) (ht : s.placeQuads q lid l = some t) : execFragmentGroupPlace die s = .next t := by
  simp [execFragmentGroupPlace, h, hq, hw, ht]

end

/-! ### Parts (R128) -/

section
variable {s : State} {die bank part : Nat}

theorem execExportPartDelivery_none (h : (s.die die).parts[part]? = none) :
    execExportPartDelivery die bank part s = .next s := by
  rw [execExportPartDelivery, h]

theorem execExportPartDelivery_delivers {p : Part} (h : (s.die die).parts[part]? = some p) (hb : p.bank = bank) :
    execExportPartDelivery die bank part s =
      .next { s.modDie die (fun d => { d with parts := dropAt d.parts part }) with
        tickets := s.tickets.modify p.ticket fun k => { k with delivered := k.delivered + 1, frags := k.frags ++ p.frags } } := by
  simp only [execExportPartDelivery, h, hb, ne_eq, not_true_eq_false, if_false]
  rfl

end

/-! ### The depth stage (R129) -/

/-- A ticket has passed the depth stage, with the pixels that passed. -/
def State.depthTested (s : State) (id : Nat) (ok : List (Nat × Nat)) : State :=
  { s with tickets := s.tickets.modify id fun t => { t with depthDone := true, passed := ok } }

section
variable {s : State} {die bank id : Nat} {t : Ticket} {d : Draw} (hn : s.depthNext die bank = some (id, t, d))
include hn

theorem execBankDepthStage_waits (hz : d.drec.zexp = true) (hp : t.delivered < t.npart) :
    execBankDepthStage die bank s = .next s := by
  simp [execBankDepthStage, hn, hz, hp]

theorem execBankDepthStage_untested (hz : d.drec.zexp = true → t.npart ≤ t.delivered) (hr : s.drawRuns d) (h0 : d.drec.dh = 0) :
    execBankDepthStage die bank s =
      .next ((s.unwaited t.draw).depthTested id ((t.depths d.drec.zexp).map fun e => (e.1, e.2.1))) := by
  simp only [execBankDepthStage, hn]
  rw [if_neg (by simpa using hz)]
  refine congrArg _ (State.onDraw_ok hr ?_)
  simp only [h0, if_true]
  rfl

theorem execBankDepthStage_tests (hz : d.drec.zexp = true → t.npart ≤ t.delivered) (hr : s.drawRuns d) (h0 : d.drec.dh ≠ 0)
    {e : Ste} {ok : List (Nat × Nat)} {u : State}
    (he : (s.unwaited t.draw).entry (s.drawWho d).core (s.drawWho d).ctx d.drec.dh = .ok (some e))
    (hstage : ((s.unwaited t.draw).touchTarget d d.drec.dh e t.tx t.ty).depthStage (s.drawWho d) d e (t.depths d.drec.zexp) =
      .ok (ok, u)) :
    execBankDepthStage die bank s = .next (u.depthTested id ok) := by
  simp only [execBankDepthStage, hn]
  rw [if_neg (by simpa using hz)]
  refine congrArg _ (State.onDraw_ok hr ?_)
  simp only [h0, if_false]
  exact (bind_of_ok he _).trans (bind_of_ok hstage _)

end

/-! ### Blending, retirement and completion (R77, R129–R131) -/

section
variable {s : State} {die bank : Nat} {e : BankEntry} {rest : List BankEntry} {t : Ticket}
  (hq : s.bankQueue die bank = e :: rest) (ht : s.tickets.find e.ticket = some t)

section
include hq ht

theorem execTicketRetire_retires (hh : e.home = true) (hc : t.colourDone = true) :
    execTicketRetire die bank s = .next (s.popEntry die bank e.ticket) := by
  simp only [execTicketRetire, hq, hh, ht, hc, if_true]

theorem execTicketRetire_waits (hh : e.home = true) (hc : t.colourDone = false) : execTicketRetire die bank s = .next s := by
  simp only [execTicketRetire, hq, hh, ht, hc, Bool.false_eq_true, if_false]

end

include hq

theorem execTicketRetire_follower (hh : e.home = false) : execTicketRetire die bank s = .next s := by
  simp only [execTicketRetire, hq, hh]

theorem execBankBlendWrite_follower (hh : e.home = false) : execBankBlendWrite die bank s = .next s := by
  simp only [execBankBlendWrite, hq, hh]

theorem execFollowerEntryRetire_waits (hf : e.forwarded = none) : execFollowerEntryRetire die bank s = .next s := by
  simp only [execFollowerEntryRetire, hq, hf]

variable {d : Draw} (hd : s.draw t.draw = some d)
include ht hd

theorem execBankBlendWrite_waits (hh : e.home = true) (hw : t.depthDone = false ∨ t.delivered < t.npart) :
    execBankBlendWrite die bank s = .next s := by
  simp only [execBankBlendWrite, hq, hh, ht, hd]
  rw [if_pos]
  rcases hw with hw | hw
  · simp only [hw, Bool.not_false, Bool.true_or]
  · simp only [hw, decide_true, Bool.or_true]

theorem execBankBlendWrite_writes (hh : e.home = true) (hz : t.depthDone = true) (hc : t.colourDone = false)
    (hp : t.npart ≤ t.delivered) (hr : s.drawRuns d) {u : State}
    (hu : (s.unwaited t.draw).colourStage (s.drawWho d) d (d.drec.held die bank t.tx t.ty)
      (sortAsc (fun f => pixelKey f.x f.y) (t.frags.filter fun f => t.passed.contains (f.x, f.y))) = .ok u) :
    execBankBlendWrite die bank s =
      .next (State.forward { u with tickets := u.tickets.modify e.ticket fun t => { t with colourDone := true } } e.ticket t
        (sortAsc (fun f => pixelKey f.x f.y) (t.frags.filter fun f => t.passed.contains (f.x, f.y)))) := by
  simp only [execBankBlendWrite, hq, hh, ht, hd]
  rw [if_neg (by simp [hz, hc, hp])]
  exact congrArg _ (State.onDraw_ok hr (bind_of_ok hu _))

theorem execFollowerEntryRetire_retires (hr : s.drawRuns d) {fs : List Frag} {u : State} (hf : e.forwarded = some fs)
    (hu : (s.unwaited t.draw).colourStage (s.drawWho d) d (d.drec.held die bank t.tx t.ty) fs = .ok u) :
    execFollowerEntryRetire die bank s = .next (u.popEntry die bank e.ticket) := by
  simp only [execFollowerEntryRetire, hq, hf, ht, hd]
  exact congrArg _ (State.onDraw_ok hr (bind_of_ok hu _))

end

section
variable {s : State} {did : Nat} {d : Draw} (hd : s.draw did = some d)
include hd

theorem execDrawComplete_waits (h : s.drawDone did d = false) : execDrawComplete did s = .next s := by
  simp only [execDrawComplete, hd, h, Bool.not_false, Bool.true_or, if_true]

theorem execDrawComplete_completes (h : s.drawDone did d = true) (hc : (s.completeDraw d).isSome = true) (hr : s.drawRuns d)
    {u v : State} (hu : (s.unwaited did).addUse none d.ctx false d.uses = .ok u) (hv : u.completeDraw d = some v) :
    execDrawComplete did s = .next ((v.modDraw did fun d => { d with status := some 0 }).dropDraw (.draw did)) := by
  have hgo : ¬ (!s.drawDone did d || (s.completeDraw d).isNone) = true := by simp [h, Option.isSome_iff_ne_none.1 hc]
  simp only [execDrawComplete, hd]
  rw [if_neg hgo]
  refine congrArg _ (State.onDraw_ok hr ((bind_of_ok hu _).trans ?_))
  rw [hv]
  rfl

end

/-! ### The statement -/

/-- Settles O52: each agent of a draw from the lemmas on when it waits and on what it does. -/
theorem drawPipeline : Obligations.DrawPipeline := by
  unfold Obligations.DrawPipeline
  refine ⟨⟨fun s did d hd => ⟨execPrimitiveAssembly_waits hd, fun hr h vs t => ?assembles, fun hr h z => ?halts,
      fun stack t rest ht => ?rasterizes⟩, fun d psn recs ps => ⟨d.cull_eq_none_iff psn recs ps, rfl⟩,
      fun s stack id t rest d hp hd => ?tickets, fun s die => ?groups⟩,
    fun s die bank part => ?parts, fun s die bank id t d hn => ?depth, fun c z => ?compare,
    fun s die bank e rest t hq ht => ?banks, fun s did d hd => ?completes⟩
  case assembles => exact execPrimitiveAssembly_assembles hd hr h
  case halts => exact execPrimitiveAssembly_halts hd hr h
  case rasterizes => exact ⟨execRasterizeTriangle_waits hd ht, execRasterizeTriangle_rasterizes hd ht⟩
  case tickets =>
    refine ⟨execTicketIssue_waits hp hd, fun h hstatus hfatal hstopped htokens ts => ?_⟩
    exact execTicketIssue_issues hp hd h ⟨hstatus, hfatal, hstopped, htokens⟩
  case groups => exact ⟨execFragmentGroupPlace_stopped, fun h q lid l rest t => execFragmentGroupPlace_places h⟩
  case parts => exact ⟨execExportPartDelivery_none, fun p => execExportPartDelivery_delivers⟩
  case depth =>
    exact ⟨execBankDepthStage_waits hn, fun hr hz => ⟨execBankDepthStage_untested hn hz hr,
      fun h0 e ok u => execBankDepthStage_tests hn hz hr h0⟩⟩
  case compare =>
    exact ⟨rfl, rfl, Iff.rfl, Iff.rfl, Bool.or_eq_true_iff, Iff.rfl, iff_of_eq (Bool.not_eq_true' _), Bool.or_eq_true_iff⟩
  case banks =>
    refine ⟨execTicketRetire_retires hq ht, execTicketRetire_waits hq ht,
      fun hh => ⟨execTicketRetire_follower hq hh, execBankBlendWrite_follower hq hh⟩, execFollowerEntryRetire_waits hq,
      fun d hd hstatus hfatal hstopped htokens => ?_⟩
    have hr : s.drawRuns d := ⟨hstatus, hfatal, hstopped, htokens⟩
    exact ⟨fun hh hz hc hp u => execBankBlendWrite_writes hq ht hd hh hz hc hp hr, execBankBlendWrite_waits hq ht hd,
      fun fs u => execFollowerEntryRetire_retires hq ht hd hr⟩
  case completes =>
    refine ⟨execDrawComplete_waits hd, fun h hc hstatus hfatal hstopped htokens u v => ?_⟩
    exact execDrawComplete_completes hd h hc ⟨hstatus, hfatal, hstopped, htokens⟩

end Sys2Proof.Machine
end

section
/-! Settles O36 and O37 (EncodeDecode, DecodeIsExact): an encodable instruction is decoded from its words, and words that the
decoder accepts are the words of the instruction that it answers (R135–R137, R152, R153). -/

namespace Sys2Proof.Laws
open BitVec (extractLsb'_append_extractLsb'_eq_extractLsb')

/-! ### Words are made of their fields (R135) -/

theorem ofNat_wMaj (w : Word) : BitVec.ofNat 6 (wMaj w) = w.extractLsb' 26 6 := by
  rw [wMaj, BitVec.ofNat_toNat, BitVec.setWidth_eq]

theorem encAWord_fields (w : Word) : encAWord (wMaj w) (wS w).toNat (wD w) (wA w) (wB w) = w := by
  unfold encAWord
  rw [ofNat_wMaj, BitVec.ofNat_toNat, BitVec.setWidth_eq, wD, wA, wB, wS,
    extractLsb'_append_extractLsb'_eq_extractLsb' (start₂ := 26) rfl,
    extractLsb'_append_extractLsb'_eq_extractLsb' (start₂ := 18) rfl,
    extractLsb'_append_extractLsb'_eq_extractLsb' (start₂ := 10) rfl,
    extractLsb'_append_extractLsb'_eq_extractLsb' (start₂ := 2) rfl]
  exact extract_self w

theorem encXWord_fields (w : Word) : encXWord (xC w) (xMod w) (xMinor w) = w := by
  unfold encXWord xC xMod xMinor
  rw [extractLsb'_append_extractLsb'_eq_extractLsb' (start₂ := 24) rfl,
    extractLsb'_append_extractLsb'_eq_extractLsb' (start₂ := 16) rfl]
  exact extract_self w

theorem encIWord_fields (w : Word) : encIWord (wMaj w) (wD w) (wA w) (wImm w) = w := by
  unfold encIWord
  rw [ofNat_wMaj, wD, wA, wImm,
    extractLsb'_append_extractLsb'_eq_extractLsb' (start₂ := 26) rfl,
    extractLsb'_append_extractLsb'_eq_extractLsb' (start₂ := 18) rfl,
    extractLsb'_append_extractLsb'_eq_extractLsb' (start₂ := 10) rfl]
  exact extract_self w

theorem encMWord_fields (w : Word) : encMWord (wMaj w) (wD w) (wA w) (wSz w) (wCp w) (wOff5 w) = w := by
  unfold encMWord
  rw [ofNat_wMaj, wD, wA, wSz, wCp, wOff5,
    extractLsb'_append_extractLsb'_eq_extractLsb' (start₂ := 26) rfl,
    extractLsb'_append_extractLsb'_eq_extractLsb' (start₂ := 18) rfl,
    extractLsb'_append_extractLsb'_eq_extractLsb' (start₂ := 10) rfl,
    extractLsb'_append_extractLsb'_eq_extractLsb' (start₂ := 7) rfl,
    extractLsb'_append_extractLsb'_eq_extractLsb' (start₂ := 5) rfl]
  exact extract_self w

theorem encCWord_fields (w : Word) : encCWord (wMaj w) (wCs w).toNat (wMr w) (wOff20 w) = w := by
  unfold encCWord
  rw [ofNat_wMaj, BitVec.ofNat_toNat, BitVec.setWidth_eq, wMr, wCs, wOff20,
    extractLsb'_append_extractLsb'_eq_extractLsb' (start₂ := 26) rfl,
    extractLsb'_append_extractLsb'_eq_extractLsb' (start₂ := 22) rfl,
    extractLsb'_append_extractLsb'_eq_extractLsb' (start₂ := 20) rfl]
  exact extract_self w

theorem encFWord_fields (w : Word) : encFWord (wMaj w) (wX w) = w := by
  unfold encFWord wX
  rw [ofNat_wMaj]
  dsimp only
  rw [extractLsb'_append_extractLsb'_eq_extractLsb' (start₂ := 26) rfl,
    extractLsb'_append_extractLsb'_eq_extractLsb' (start₂ := 23) rfl,
    extractLsb'_append_extractLsb'_eq_extractLsb' (start₂ := 15) rfl,
    extractLsb'_append_extractLsb'_eq_extractLsb' (start₂ := 7) rfl,
    extractLsb'_append_extractLsb'_eq_extractLsb' (start₂ := 4) rfl]
  exact extract_self w

/-- A MOVI word is its major, D and the immediate in the places of A and IMM10. -/
theorem moviWord_fields (w : Word) : BitVec.ofNat 6 (wMaj w) ++ wD w ++ (wA w ++ wImm w) = w := by
  rw [ofNat_wMaj, wD, wA, wImm,
    extractLsb'_append_extractLsb'_eq_extractLsb' (start₂ := 26) rfl,
    extractLsb'_append_extractLsb'_eq_extractLsb' (start₂ := 10) rfl,
    extractLsb'_append_extractLsb'_eq_extractLsb' (start₂ := 18) rfl]
  exact extract_self w

/-- A field whose value is in range is the extension of its low bits. -/
theorem setWidth_low (k : Nat) {x : BitVec 8} (h : x.toNat < 2 ^ k) : (x.extractLsb' 0 k).setWidth 8 = x := by
  apply BitVec.eq_of_toNat_eq
  simp [Nat.mod_eq_of_lt h]
  omega

/-- A join word whose upper bits are 0 is the extension of its offset. -/
theorem joinWord_fields (j : Word) (h : j.extractLsb' 20 12 = 0#12) : (wOff20 j).setWidth 32 = j := by
  have hj := congrArg BitVec.toNat h
  apply BitVec.eq_of_toNat_eq
  simp [Nat.shiftRight_eq_div_pow, wOff20] at hj ⊢
  omega

/-! ### What acceptance says (R153) -/

theorem accept_eq_ok {m n k : Nat} {i j : Instr} :
    accept m i n = .ok (j, k) ↔ i.wf = true ∧ i.legal = true ∧ i = j ∧ n = k := by
  unfold accept
  cases i.wf <;> cases i.legal <;> simp

theorem encLit_prefix {calls : Bool} {l : Word} {ws : List Word} (h : litOf calls ws = some l) : encLit calls l <+: ws := by
  cases calls with
  | false => exact List.nil_prefix
  | true =>
    cases ws with
    | nil => cases h
    | cons w t => cases h; exact List.cons_prefix_cons.2 ⟨rfl, List.nil_prefix⟩

/-- The words begin with the encoding of an encodable instruction, `n` words long, as R136 gives it. -/
structure Exact (ws : List Word) (i : Instr) (n : Nat) : Prop where
  encodable : i.encodable = true
  begins : encode i <+: ws
  counted : n = (encode i).length
  measured : n = rawLen ws

theorem encodable_of {i : Instr} (hh : i.isHappening = false) (hw : i.wf = true) (hr : rowOk i = true) (hl : i.legal = true) :
    i.encodable = true := by
  simp [Instr.encodable, hh, hw, hr, hl]

theorem rowOk_of_none {i : Instr} (h : i.uses = none) : rowOk i = true := by
  simp [rowOk, h]

/-- What an accepted instruction of some words still needs. -/
theorem Exact.of_accept {m n k : Nat} {i j : Instr} {ws : List Word} (h : accept m i n = .ok (j, k)) (hh : i.isHappening = false)
    (hr : rowOk i = true) (hb : encode i <+: ws) (hn : n = (encode i).length) (hl : rawLen ws = n) : Exact ws j k := by
  obtain ⟨hw, hlegal, rfl, rfl⟩ := accept_eq_ok.1 h
  exact ⟨encodable_of hh hw hr hlegal, hb, hn, hl.symm⟩

/-- An instruction of one word, and a literal word where it is called for. -/
theorem Exact.of_lit {m k : Nat} {i j : Instr} {calls : Bool} {l w : Word} {rest : List Word}
    (h : accept m i (if calls then 2 else 1) = .ok (j, k)) (hlit : litOf calls rest = some l) (hh : i.isHappening = false)
    (hu : i.uses = none) (he : encode i = w :: encLit calls l) (hl : rawLen (w :: rest) = if calls then 2 else 1) :
    Exact (w :: rest) j k := by
  refine .of_accept h hh (rowOk_of_none hu) ?_ ?_ hl
  · rw [he]; exact List.cons_prefix_cons.2 ⟨rfl, encLit_prefix hlit⟩
  · rw [he, List.length_cons, length_encLit]; cases calls <;> rfl

/-- An instruction of one word that calls for no literal. -/
theorem Exact.of_word {m k : Nat} {i j : Instr} {w : Word} {rest : List Word} (h : accept m i 1 = .ok (j, k))
    (hh : i.isHappening = false) (hu : i.uses = none) (he : encode i = [w]) (hl : rawLen (w :: rest) = 1) :
    Exact (w :: rest) j k :=
  .of_lit (calls := false) (l := 0) h rfl hh hu he hl

/-- An instruction of two words, and a literal word where it is called for. -/
theorem Exact.of_two {m k : Nat} {i j : Instr} {calls : Bool} {l w x : Word} {rest : List Word}
    (h : accept m i (if calls then 3 else 2) = .ok (j, k)) (hlit : litOf calls rest = some l) (hh : i.isHappening = false)
    (hr : rowOk i = true) (he : encode i = w :: x :: encLit calls l)
    (hl : rawLen (w :: x :: rest) = if calls then 3 else 2) : Exact (w :: x :: rest) j k := by
  refine .of_accept h hh hr ?_ ?_ hl
  · rw [he]; exact List.cons_prefix_cons.2 ⟨rfl, List.cons_prefix_cons.2 ⟨rfl, encLit_prefix hlit⟩⟩
  · rw [he, List.length_cons, List.length_cons, length_encLit]; cases calls <;> rfl

/-! ### Format A -/

theorem aRow_encode {m s : Nat} {mk : AOps → Instr} (h : aRow m s = some mk) (o : AOps) :
    (mk o).isHappening = false ∧ (mk o).uses = none ∧ encode (mk o) = encA m s o := by
  unfold aRow at h
  split at h <;> cases h <;> exact ⟨rfl, rfl, rfl⟩

theorem uRow_encode {m s : Nat} {mk : UOps → Instr} (h : uRow m s = some mk) (o : UOps) :
    (mk o).isHappening = false ∧ (mk o).uses = none ∧ encode (mk o) = encU m s o := by
  unfold uRow at h
  split at h <;> cases h <;> exact ⟨rfl, rfl, rfl⟩

theorem tRow_encode {m s : Nat} {mk : TOps → Instr} (h : tRow m s = some mk) (o : TOps) :
    (mk o).isHappening = false ∧ (mk o).uses = none ∧ encode (mk o) = encT m s o := by
  unfold tRow at h
  split at h <;> cases h <;> exact ⟨rfl, rfl, rfl⟩

section
variable {w : Word} {rest : List Word} {i : Instr} {n : Nat}

theorem rawLen_a (hf : fmtOf (wMaj w) = some .a) : rawLen (w :: rest) =
    if (wMaj w == 0x1E && (wS w).toNat == 1 && wA w == 0xFF) = true then 3
    else if aCalls (wMaj w) (wS w).toNat (wA w) (wB w) = true then 2 else 1 := by
  simp only [rawLen, hf]

/-- A format A word whose major and S are known. -/
theorem word_of_code {m s : Nat} (hm : wMaj w = m) (hs : (wS w).toNat = s) : encAWord m s (wD w) (wA w) (wB w) = w := by
  rw [← hm, ← hs, encAWord_fields]

theorem encode_movl (d a : BitVec 8) (lit : Dword) : encode (.movl ⟨d, a, lit⟩) =
    encAWord 0x1E 1 d a 0xF0 :: (if a == 0xFF then [lit.extractLsb' 0 32, lit.extractLsb' 32 32] else []) := rfl

theorem decodeA_movl (hm : wMaj w = 0x1E) (hs : (wS w).toNat = 1) (h : decodeA w rest = .ok (i, n)) :
    Exact (w :: rest) i n := by
  have hw := word_of_code hm hs
  have hlen := rawLen_a (w := w) (rest := rest) (by rw [hm]; rfl)
  simp only [decodeA, hm, hs, beq_self_eq_true, Bool.and_self, if_true] at h
  rw [hm, hs] at hlen
  split at h
  · cases h
  · rename_i hb
    rw [bne_iff_ne, not_not] at hb
    rw [hb] at hw
    split at h
    · rename_i ha
      split at h
      · rename_i lo hi t
        have he : encode (.movl ⟨wD w, wA w, hi ++ lo⟩) = [w, lo, hi] := by
          rw [encode_movl, hw, if_pos ha, extract_append_lo _ _ (by decide), extract_append_hi _ _ (by decide), extract_self,
            extract_self]
        refine .of_accept h rfl rfl ?_ (by rw [he]; rfl) (by rw [hlen, ha]; rfl)
        rw [he]
        exact ⟨t, rfl⟩
      · cases h
    · rename_i ha
      refine .of_word h rfl rfl ?_ ?_
      · rw [encode_movl, hw, if_neg ha]
      · rw [hlen, Bool.eq_false_iff.2 ha]; rfl

theorem encode_mpop (d : BitVec 8) (a : BitVec 4) : encode (.mpop d a) = [encAWord 0x1E 2 d (a.setWidth 8) 0xF0] := rfl

theorem decodeA_mpop (hm : wMaj w = 0x1E) (hs : (wS w).toNat = 2) (h : decodeA w rest = .ok (i, n)) :
    Exact (w :: rest) i n := by
  have hlen := rawLen_a (w := w) (rest := rest) (by rw [hm]; rfl)
  rw [hm, hs] at hlen
  simp only [decodeA, hm, hs, Nat.reduceBEq, beq_self_eq_true, Bool.and_false, Bool.and_self, Bool.false_eq_true, if_false,
    if_true] at h
  split at h
  · cases h
  · rename_i hc
    simp only [Bool.or_eq_true, bne_iff_ne, decide_eq_true_eq, not_or, not_not, ge_iff_le, not_le] at hc
    obtain ⟨hb, ha⟩ := hc
    refine .of_word h rfl rfl ?_ (by rw [hlen]; rfl)
    rw [encode_mpop, setWidth_low 4 ha, ← hb, word_of_code hm hs]

theorem encode_mnot (d a : BitVec 4) : encode (.mnot d a) = [encAWord 0x1E 3 (d.setWidth 8) (a.setWidth 8) 0xF0] := rfl

theorem decodeA_mnot (hm : wMaj w = 0x1E) (hs : (wS w).toNat = 3) (h : decodeA w rest = .ok (i, n)) :
    Exact (w :: rest) i n := by
  have hlen := rawLen_a (w := w) (rest := rest) (by rw [hm]; rfl)
  rw [hm, hs] at hlen
  simp only [decodeA, hm, hs, Nat.reduceBEq, beq_self_eq_true, Bool.and_false, Bool.and_self, Bool.false_eq_true, if_false,
    if_true] at h
  split at h
  · cases h
  · rename_i hc
    simp only [Bool.or_eq_true, bne_iff_ne, decide_eq_true_eq, not_or, not_not, ge_iff_le, not_le] at hc
    obtain ⟨⟨hb, ha⟩, hd⟩ := hc
    refine .of_word h rfl rfl ?_ (by rw [hlen]; rfl)
    rw [encode_mnot, setWidth_low 4 ha, setWidth_low 4 hd, ← hb, word_of_code hm hs]

/-- The three operations on masks, by S. -/
theorem decodeA_masks (hm : wMaj w = 0x1F) (h : decodeA w rest = .ok (i, n)) : Exact (w :: rest) i n := by
  have hlen : rawLen (w :: rest) = 1 := by
    rw [rawLen_a (by rw [hm]; rfl), hm]
    have hcalls (s : Nat) : aCalls 0x1F s (wA w) (wB w) = false := by simp [aCalls, aRow, uRow, tRow]
    simp [hcalls]
  simp only [decodeA, hm, Nat.reduceBEq, beq_self_eq_true, Bool.false_and, Bool.false_eq_true, if_false, if_true] at h
  split at h
  · cases h
  · rename_i hc
    simp only [Bool.or_eq_true, decide_eq_true_eq, not_or, ge_iff_le, not_le] at hc
    obtain ⟨⟨hb, ha⟩, hd⟩ := hc
    have hword {s : Nat} (hs : ((wS w).toNat == s) = true) : [encAWord 0x1F s ((BitVec.extractLsb' 0 4 (wD w)).setWidth 8)
        ((BitVec.extractLsb' 0 4 (wA w)).setWidth 8) ((BitVec.extractLsb' 0 4 (wB w)).setWidth 8)] = [w] := by
      rw [setWidth_low 4 ha, setWidth_low 4 hb, setWidth_low 4 hd, word_of_code hm (beq_iff_eq.1 hs)]
    split at h
    · exact .of_word h rfl rfl (hword ‹_›) hlen
    · split at h
      · exact .of_word h rfl rfl (hword ‹_›) hlen
      · split at h
        · exact .of_word h rfl rfl (hword ‹_›) hlen
        · cases h

theorem encode_waitc (a : BitVec 8) (ctr : BitVec 2) (lit : Word) : encode (.waitc ⟨a, ctr, lit⟩) =
    encAWord 0x36 3 0xF0 a (ctr.setWidth 8) :: encLit (a == 0xFF) lit := rfl

theorem decodeA_waitc (hm : wMaj w = 0x36) (hs : (wS w).toNat = 3) (h : decodeA w rest = .ok (i, n)) :
    Exact (w :: rest) i n := by
  have hlen := rawLen_a (w := w) (rest := rest) (by rw [hm]; rfl)
  rw [hm, hs] at hlen
  simp only [decodeA, hm, hs, Nat.reduceBEq, beq_self_eq_true, Bool.false_and, Bool.and_self, Bool.false_eq_true, if_false,
    if_true] at h
  split at h
  · cases h
  · rename_i hc
    simp only [Bool.or_eq_true, bne_iff_ne, decide_eq_true_eq, not_or, not_not, ge_iff_le, not_le] at hc
    obtain ⟨hd, hb⟩ := hc
    split at h
    · rename_i l hlit
      refine .of_lit h hlit rfl rfl ?_ hlen
      rw [encode_waitc, setWidth_low 2 hb, ← hd, word_of_code hm hs]
    · cases h

/-- A word of format A that stands in a row of the map. -/
theorem decodeA_rows (hf : fmtOf (wMaj w) = some .a) (h1 : (wMaj w == 0x1E && (wS w).toNat == 1) = false)
    (h2 : (wMaj w == 0x1E && (wS w).toNat == 2) = false) (h3 : (wMaj w == 0x1E && (wS w).toNat == 3) = false)
    (h4 : (wMaj w == 0x1F) = false) (h5 : (wMaj w == 0x36 && (wS w).toNat == 3) = false) (h : decodeA w rest = .ok (i, n)) :
    Exact (w :: rest) i n := by
  have hw := encAWord_fields w
  have hlen := rawLen_a (rest := rest) hf
  simp only [h1, Bool.false_and, Bool.false_eq_true, if_false] at hlen
  simp only [decodeA, h1, h2, h3, h4, h5, Bool.false_eq_true, if_false] at h
  split at h
  next mk ha =>
    split at h
    next l hlit =>
      obtain ⟨hh, hu, he⟩ := aRow_encode ha ⟨wD w, wA w, wB w, l⟩
      exact .of_lit h hlit hh hu (by rw [he, encA, hw]) (by rw [hlen, aCalls, ha]; rfl)
    next => cases h
  next ha =>
    split at h
    next mk hu =>
      split at h
      next => cases h
      next hb =>
        rw [bne_iff_ne, not_not] at hb
        rw [hb] at hw
        split at h
        next l hlit =>
          obtain ⟨hh, hn, he⟩ := uRow_encode hu ⟨wD w, wA w, l⟩
          exact .of_lit h hlit hh hn (by rw [he, encU, hw]) (by rw [hlen, aCalls, ha, hu]; rfl)
        next => cases h
    next hu =>
      split at h
      next mk ht =>
        split at h
        next => cases h
        next hb =>
          simp only [Bool.or_eq_true, bne_iff_ne, not_or, not_not] at hb
          obtain ⟨hb, hd⟩ := hb
          rw [hb, hd] at hw
          split at h
          next l hlit =>
            obtain ⟨hh, hn, he⟩ := tRow_encode ht ⟨wA w, l⟩
            exact .of_lit h hlit hh hn (by rw [he, encT, hw]) (by rw [hlen, aCalls, ha, hu, ht]; rfl)
          next => cases h
      next => cases h

theorem decodeA_exact (hf : fmtOf (wMaj w) = some .a) (h : decodeA w rest = .ok (i, n)) : Exact (w :: rest) i n := by
  have at_code {m s : Nat} (hc : (wMaj w == m && (wS w).toNat == s) = true) : wMaj w = m ∧ (wS w).toNat = s := by
    rwa [Bool.and_eq_true, beq_iff_eq, beq_iff_eq] at hc
  cases h1 : (wMaj w == 0x1E && (wS w).toNat == 1) with
  | true => exact decodeA_movl (at_code h1).1 (at_code h1).2 h
  | false =>
  cases h2 : (wMaj w == 0x1E && (wS w).toNat == 2) with
  | true => exact decodeA_mpop (at_code h2).1 (at_code h2).2 h
  | false =>
  cases h3 : (wMaj w == 0x1E && (wS w).toNat == 3) with
  | true => exact decodeA_mnot (at_code h3).1 (at_code h3).2 h
  | false =>
  cases h4 : (wMaj w == 0x1F) with
  | true => exact decodeA_masks (beq_iff_eq.1 h4) h
  | false =>
  cases h5 : (wMaj w == 0x36 && (wS w).toNat == 3) with
  | true => exact decodeA_waitc (at_code h5).1 (at_code h5).2 h
  | false => exact decodeA_rows hf h1 h2 h3 h4 h5 h

/-! ### Format I -/

theorem iRow_encode {m : Nat} {mk : IOps → Instr} (h : iRow m = some mk) (o : IOps) :
    (mk o).isHappening = false ∧ (mk o).uses = none ∧ encode (mk o) = encI m o := by
  unfold iRow at h
  split at h <;> cases h <;> exact ⟨rfl, rfl, rfl⟩

theorem encode_movi (d : BitVec 8) (imm : BitVec 18) : encode (.movi ⟨d, imm⟩) = [BitVec.ofNat 6 0x1D ++ d ++ imm] := rfl

theorem decodeI_exact (hf : fmtOf (wMaj w) = some .i) (h : decodeI w rest = .ok (i, n)) : Exact (w :: rest) i n := by
  have hlen : rawLen (w :: rest) = if (wMaj w != 0x1D && wA w == 0xFF) = true then 2 else 1 := by simp only [rawLen, hf]
  unfold decodeI at h
  dsimp only at h
  split at h
  next hm =>
    have hm := beq_iff_eq.1 hm
    refine .of_word h rfl rfl ?_ (by rw [hlen, hm]; rfl)
    rw [encode_movi, ← hm]
    exact congrArg (· :: []) (moviWord_fields w)
  next hm =>
    split at h
    next mk hr =>
      split at h
      next l hlit =>
        obtain ⟨hh, hn, he⟩ := iRow_encode hr ⟨wD w, wA w, wImm w, l⟩
        refine .of_lit h hlit hh hn (by rw [he, encI, encIWord_fields]) ?_
        rw [hlen, bne, Bool.eq_false_iff.2 hm, Bool.not_false, Bool.true_and]
      next => cases h
    next => cases h

/-! ### Format M -/

theorem mRow_encode {m : Nat} {d : BitVec 8} {mk : MOps → Instr} (h : mRow m d = some mk) (o : MOps) :
    (mk o).isHappening = false ∧ (mk o).uses = none ∧ encode (mk o) = encM m o := by
  unfold mRow at h
  split at h
  case h_1 => split at h <;> cases h <;> exact ⟨rfl, rfl, rfl⟩
  all_goals cases h <;> exact ⟨rfl, rfl, rfl⟩

theorem decodeM_exact (hf : fmtOf (wMaj w) = some .m) (h : decodeM w rest = .ok (i, n)) : Exact (w :: rest) i n := by
  have hw := encMWord_fields w
  have hlen : rawLen (w :: rest) =
      (if (wOff5 w == 0x1F) = true then 2 else 1) + if mCalls (wMaj w) (wD w) (wA w) = true then 1 else 0 := by
    simp only [rawLen, hf]
  unfold decodeM at h
  dsimp only at h
  split at h
  next => cases h
  next mk hr =>
    split at h
    next hx =>
      split at h
      next => cases h
      next x t =>
        split at h
        next l hlit =>
          obtain ⟨hh, hn, he⟩ := mRow_encode hr ⟨wD w, wA w, wSz w, wCp w, wOff5 w, x, l⟩
          refine .of_two h hlit hh (rowOk_of_none hn) ?_ ?_
          · rw [he, encM, hw, if_pos hx]; rfl
          · rw [hlen, if_pos hx]; split <;> rfl
        next => cases h
    next hx =>
      split at h
      next l hlit =>
        obtain ⟨hh, hn, he⟩ := mRow_encode hr ⟨wD w, wA w, wSz w, wCp w, wOff5 w, 0, l⟩
        refine .of_lit h hlit hh hn ?_ ?_
        · rw [he, encM, hw, if_neg hx]; rfl
        · rw [hlen, if_neg hx]; split <;> rfl
      next => cases h

/-! ### Formats C and X -/

theorem rawLen_c (hf : fmtOf (wMaj w) = some .c) :
    rawLen (w :: rest) = if (wMaj w == 0x26 && (wCs w).toNat == 1) = true then 2 else 1 := by
  simp only [rawLen, hf]

theorem cWord_of_code {m s : Nat} (hm : wMaj w = m) (hs : ((wCs w).toNat == s) = true) :
    encCWord m s (wMr w) (wOff20 w) = w := by
  rw [← hm, ← beq_iff_eq.1 hs, encCWord_fields]

/-- Branches, BRD and its join word, JOIN and CALL. -/
theorem decodeC_transfers (hm : wMaj w = 0x26) (h : decodeC w rest = .ok (i, n)) : Exact (w :: rest) i n := by
  have hw {s : Nat} := cWord_of_code (s := s) hm
  have hlen := rawLen_c (w := w) (rest := rest) (by rw [hm]; rfl)
  simp only [hm, beq_self_eq_true, Bool.true_and] at hlen
  simp only [decodeC, hm, beq_self_eq_true, if_true] at h
  split at h
  next hs => exact .of_word h rfl rfl (congrArg (· :: []) (hw hs)) (by rw [hlen, beq_iff_eq.1 hs]; rfl)
  next h0 =>
  split at h
  next hs =>
    split at h
    next => cases h
    next j t =>
      split at h
      next => cases h
      next hj =>
        rw [bne_iff_ne, not_not] at hj
        have he : encode (.brd ⟨wMr w, wOff20 w, wOff20 j⟩) = [w, j] :=
          congrArg₂ (fun a b : Word => [a, b]) (hw hs) (joinWord_fields j hj)
        exact .of_two (calls := false) (l := 0) h rfl rfl rfl he (by rw [hlen, if_pos hs]; rfl)
  next h1 =>
  rw [if_neg h1] at hlen
  split at h
  next => cases h
  next hmr =>
  rw [bne_iff_ne, not_not] at hmr
  rw [hmr] at hw
  split at h
  next hs =>
    split at h
    next => cases h
    next hoff =>
      rw [bne_iff_ne, not_not] at hoff
      rw [hoff] at hw
      exact .of_word h rfl rfl (congrArg (· :: []) (hw hs)) hlen
  next h2 =>
    have hs : ((wCs w).toNat == 3) = true := by
      have := (wCs w).isLt
      simp only [beq_iff_eq] at h0 h1 h2 ⊢
      omega
    exact .of_word h rfl rfl (congrArg (· :: []) (hw hs)) hlen

/-- RET, EXIT and NOP. -/
theorem decodeC_ends (hm : wMaj w = 0x27) (h : decodeC w rest = .ok (i, n)) : Exact (w :: rest) i n := by
  have hw {s : Nat} := cWord_of_code (s := s) hm
  have hlen : rawLen (w :: rest) = 1 := by rw [rawLen_c (by rw [hm]; rfl), hm]; rfl
  simp only [decodeC, hm, Nat.reduceBEq, Bool.false_eq_true, if_false] at h
  split at h
  next => cases h
  next hoff =>
  rw [bne_iff_ne, not_not] at hoff
  rw [hoff] at hw
  split at h
  next hs => exact .of_word h rfl rfl (congrArg (· :: []) (hw hs)) hlen
  next =>
  split at h
  next => cases h
  next hmr =>
  rw [bne_iff_ne, not_not] at hmr
  rw [hmr] at hw
  split at h
  next hs => exact .of_word h rfl rfl (congrArg (· :: []) (hw hs)) hlen
  next =>
  split at h
  next hs => exact .of_word h rfl rfl (congrArg (· :: []) (hw hs)) hlen
  next => cases h

theorem major_of_fmt_c {m : Nat} (hf : fmtOf m = some .c) : m = 0x26 ∨ m = 0x27 := by
  unfold fmtOf at hf
  split at hf <;> cases hf <;> decide

theorem major_of_fmt_x {m : Nat} (hf : fmtOf m = some .x) : m = 0x38 ∨ m = 0x39 := by
  unfold fmtOf at hf
  split at hf <;> cases hf <;> decide

theorem decodeC_exact (hf : fmtOf (wMaj w) = some .c) (h : decodeC w rest = .ok (i, n)) : Exact (w :: rest) i n :=
  (major_of_fmt_c hf).elim (decodeC_transfers · h) (decodeC_ends · h)

theorem decodeX_exact (hf : fmtOf (wMaj w) = some .x) (h : decodeX w rest = .ok (i, n)) : Exact (w :: rest) i n := by
  have hw := encFWord_fields w
  have hlen : rawLen (w :: rest) = if (wMaj w == 0x39) = true then 2 else 1 := by simp only [rawLen, hf]
  unfold decodeX at h
  dsimp only at h
  split at h
  next hm =>
    have hm := beq_iff_eq.1 hm
    rw [hm] at hw hlen
    exact .of_word h rfl rfl (congrArg (· :: []) hw) hlen
  next hm =>
    split at h
    next => cases h
    next st t =>
      have hm : wMaj w = 0x39 := (major_of_fmt_x hf).resolve_left fun h => hm (beq_iff_eq.2 h)
      rw [hm] at hw hlen
      exact .of_two (calls := false) (l := 0) h rfl rfl rfl (congrArg (· :: [st]) hw) hlen

/-! ### Format E -/

theorem eRowPlain_code {m s : Nat} {row : ERow} (h : eRowPlain m s = some row) (o : EOps) :
    (row.ctor o).isHappening = false ∧ eCode (row.ctor o) = (m, s) := by
  unfold eRowPlain at h
  split at h <;> cases h <;> exact ⟨rfl, rfl⟩

theorem eRowSel_code {m s : Nat} {minor : BitVec 16} {row : ERow} (hs : s < 4) (h : eRowSel m s minor = some row) (o : EOps) :
    (row.ctor o).isHappening = false ∧ eCode (row.ctor o) = (m, s) := by
  unfold eRowSel at h
  split at h
  case h_9 =>
    -- major 0x3D: FEXPORT names its form in S, every other row asks for S 0
    split at h
    case h_13 => cases h; exact ⟨rfl, Prod.ext rfl (toNat_code hs)⟩
    case h_21 => cases h
    all_goals
      split at h
      next hs0 => cases h; exact ⟨rfl, Prod.ext rfl hs0.symm⟩
      next => cases h
  case h_10 => cases h
  all_goals split at h <;> cases h <;> exact ⟨rfl, rfl⟩

theorem eRow_code {m s : Nat} {minor : BitVec 16} {row : ERow} (hs : s < 4) (h : eRow m s minor = some row) (o : EOps) :
    (row.ctor o).isHappening = false ∧ eCode (row.ctor o) = (m, s) := by
  unfold eRow at h
  cases hp : eRowPlain m s with
  | some r => rw [hp] at h; exact eRowPlain_code (hp.trans h) o
  | none => rw [hp] at h; exact eRowSel_code hs h o

theorem encode_of_uses {i : Instr} {u : Uses} {o : EOps} (h : i.uses = some (u, o)) :
    encode i = encE (eCode i).1 (eCode i).2 u o := by
  unfold encode; rw [h]

/-- The operands that a format E word, its extension word and a literal give. -/
def eOps (w x l : Word) : EOps := ⟨wD w, wA w, wB w, xC x, xMod x, xMinor x, l⟩

/-- Whether the fields of two words of a format E row call for the literal word. -/
def eCalls (row : ERow) (w x : Word) : Bool := (rowUses row (xMinor x)).callsLit (eOps w x 0)

theorem encode_eRow {x : Word} {row : ERow} (hr : eRow (wMaj w) (wS w).toNat (xMinor x) = some row) (l : Word) :
    encode (row.ctor (eOps w x l)) = w :: x :: encLit (eCalls row w x) l := by
  obtain ⟨-, hcode⟩ := eRow_code (wS w).isLt hr (eOps w x l)
  rw [encode_of_uses (eRow_uses hr _), hcode]
  exact congrArg₂ (fun a b => a :: b :: _) (encAWord_fields w) (encXWord_fields x)

theorem rowOk_eRow {x : Word} {row : ERow} (hr : eRow (wMaj w) (wS w).toNat (xMinor x) = some row)
    (hmod : xMod x &&& ~~~row.modOk = 0) (hminor : xMinor x &&& ~~~row.minorOk = 0) (l : Word) :
    rowOk (row.ctor (eOps w x l)) = true := by
  obtain ⟨-, hcode⟩ := eRow_code (wS w).isLt hr (eOps w x l)
  have hsel : eRow (wMaj w) (wS w).toNat (eOps w x l).minor = some row := hr
  simp only [rowOk, eRow_uses hr, hcode, hsel]
  simp [eOps, hmod, hminor]

theorem rawLen_eRow {x : Word} {row : ERow} (hf : fmtOf (wMaj w) = some .e)
    (hr : eRow (wMaj w) (wS w).toNat (xMinor x) = some row) :
    rawLen (w :: x :: rest) = if eCalls row w x = true then 3 else 2 := by
  simp only [rawLen, hf, hr, eRow_uses hr]; rfl

theorem decodeE_exact (hf : fmtOf (wMaj w) = some .e) (h : decodeE w rest = .ok (i, n)) : Exact (w :: rest) i n := by
  unfold decodeE at h
  dsimp only at h
  split at h
  next => cases h
  next x t =>
    split at h
    next => cases h
    next row hr =>
      split at h
      next => cases h
      next hok =>
        simp only [Bool.or_eq_true, bne_iff_ne, not_or, not_not] at hok
        obtain ⟨hmod, hminor⟩ := hok
        simp only [eRow_uses hr] at h
        split at h
        next l hlit =>
          have hh := (eRow_code (wS w).isLt hr (eOps w x l)).1
          exact .of_two (calls := eCalls row w x) h hlit hh (rowOk_eRow hr hmod hminor l) (encode_eRow hr l) (rawLen_eRow hf hr)
        next => cases h

end

/-! ### All formats -/

theorem decode_exact {ws : List Word} {i : Instr} {n : Nat} (h : decode ws = .ok (i, n)) : Exact ws i n := by
  cases ws with
  | nil => cases h
  | cons w rest =>
    unfold decode at h
    dsimp only at h
    split at h
    next hf => exact decodeA_exact hf h
    next hf => exact decodeI_exact hf h
    next hf => exact decodeE_exact hf h
    next hf => exact decodeM_exact hf h
    next hf => exact decodeC_exact hf h
    next hf => exact decodeX_exact hf h
    next =>
      split at h
      next => cases h
      next => split at h <;> cases h

/-! ### The round trip, over all constructors -/

namespace RoundTrip

/-- A happening has no encoding; every other constructor has its lemma above (R135, R136, R152). -/
theorem all (i : Instr) : Statement i := by
  by_cases hh : i.isHappening = true
  · exact happening hh
  cases i with
  | iadd o => exact iadd o
  | isub o => exact isub o
  | iaddc o => exact iaddc o
  | isubb o => exact isubb o
  | iaddImm o => exact iaddImm o
  | andImm o => exact andImm o
  | orImm o => exact orImm o
  | xorImm o => exact xorImm o
  | imul o => exact imul o
  | imulh o => exact imulh o
  | imulhU o => exact imulhU o
  | iadd64 o => exact iadd64 o
  | imad o => exact imad o
  | idiv o => exact idiv o
  | imin o => exact imin o
  | imax o => exact imax o
  | iminU o => exact iminU o
  | imaxU o => exact imaxU o
  | and o => exact and o
  | or o => exact or o
  | xor o => exact xor o
  | andn o => exact andn o
  | shl o => exact shl o
  | shr o => exact shr o
  | sar o => exact sar o
  | rol o => exact rol o
  | bfx o => exact bfx o
  | bfi o => exact bfi o
  | lea o => exact lea o
  | popc o => exact popc o
  | clz o => exact clz o
  | ctz o => exact ctz o
  | brev o => exact brev o
  | iabs o => exact iabs o
  | clmulLo o => exact clmulLo o
  | clmulHi o => exact clmulHi o
  | icmp o => exact icmp o
  | sel o => exact sel o
  | fadd o => exact fadd o
  | fsub o => exact fsub o
  | fmul o => exact fmul o
  | ffma o => exact ffma o
  | faddShort o => exact faddShort o
  | fsubShort o => exact fsubShort o
  | fmulShort o => exact fmulShort o
  | fmaxShort o => exact fmaxShort o
  | dadd o => exact dadd o
  | dmul o => exact dmul o
  | dfma o => exact dfma o
  | daddShort o => exact daddShort o
  | dmulShort o => exact dmulShort o
  | fmin o => exact fmin o
  | fmax o => exact fmax o
  | dmin o => exact dmin o
  | dmax o => exact dmax o
  | fcmp o => exact fcmp o
  | dcmp o => exact dcmp o
  | fclass o => exact fclass o
  | frcp o => exact frcp o
  | frsq o => exact frsq o
  | fsqrt o => exact fsqrt o
  | fdiv o => exact fdiv o
  | fexp2 o => exact fexp2 o
  | flog2 o => exact flog2 o
  | ftanh o => exact ftanh o
  | fsin o => exact fsin o
  | fcos o => exact fcos o
  | ddiv o => exact ddiv o
  | dsqrt o => exact dsqrt o
  | frnd o => exact frnd o
  | fldexp o => exact fldexp o
  | hadd2 o => exact hadd2 o
  | hmul2 o => exact hmul2 o
  | hfma2 o => exact hfma2 o
  | hadd2Short o => exact hadd2Short o
  | hmul2Short o => exact hmul2Short o
  | cvt o => exact cvt o
  | pack o => exact pack o
  | unpk o => exact unpk o
  | mov o => exact mov o
  | movl o => exact movl o
  | movi o => exact movi o
  | mpop d a => exact mpop d a
  | mnot d a => exact mnot d a
  | mand d a b => exact mand d a b
  | mor d a b => exact mor d a b
  | mxor d a b => exact mxor d a b
  | shfl o => exact shfl o
  | bcst o => exact bcst o
  | vote o => exact vote o
  | ballot o => exact ballot o
  | redux o => exact redux o
  | qswp o => exact qswp o
  | qbcst o => exact qbcst o
  | qdd o => exact qdd o
  | bra o => exact bra o
  | brd o => exact brd o
  | join => exact join
  | call off => exact call off
  | ret => exact ret
  | exit m => exact exit m
  | nop => exact nop
  | calli o => exact calli o
  | jmpi o => exact jmpi o
  | ld o => exact ld o
  | pref o => exact pref o
  | st o => exact st o
  | ldl o => exact ldl o
  | stl o => exact stl o
  | ldc o => exact ldc o
  | tex o => exact tex o
  | cpy o => exact cpy o
  | cpyq o => exact cpyq o
  | cinv o => exact cinv o
  | cflush o => exact cflush o
  | halloc o => exact halloc o
  | hfree o => exact hfree o
  | sste o => exact sste o
  | atom o => exact atom o
  | red o => exact red o
  | atoml o => exact atoml o
  | ldfe o => exact ldfe o
  | ldff o => exact ldff o
  | stfe o => exact stfe o
  | stff o => exact stff o
  | feset o => exact feset o
  | feclr o => exact feclr o
  | feqry o => exact feqry o
  | waitc o => exact waitc o
  | binit o => exact binit o
  | barv o => exact barv o
  | barvx o => exact barvx o
  | bwait o => exact bwait o
  | btest o => exact btest o
  | cbarNear o => exact cbarNear o
  | cbarFar o => exact cbarFar o
  | gbar o => exact gbar o
  | fence o => exact fence o
  | mma o => exact mma o
  | mloop o => exact mloop o
  | macq o => exact macq o
  | mrel o => exact mrel o
  | fbld o => exact fbld o
  | cbld o => exact cbld o
  | scpf o => exact scpf o
  | aclr o => exact aclr o
  | asatr o => exact asatr o
  | amov o => exact amov o
  | ald o => exact ald o
  | ast o => exact ast o
  | cmma o => exact cmma o
  | xfwd o => exact xfwd o
  | xinv o => exact xinv o
  | xscl o => exact xscl o
  | xdom o => exact xdom o
  | eroute o => exact eroute o
  | edone o => exact edone o
  | emerge o => exact emerge o
  | eqry o => exact eqry o
  | trap o => exact trap o
  | brk o => exact brk o
  | tret o => exact tret o
  | lget o => exact lget o
  | lput o => exact lput o
  | lmsk o => exact lmsk o
  | srd o => exact srd o
  | swr o => exact swr o
  | rgrow o => exact rgrow o
  | rshrink o => exact rshrink o
  | launch o => exact launch o
  | draw o => exact draw o
  | fexport form o => exact fexport form o
  | npbegin o => exact npbegin o
  | npend o => exact npend o
  | yield o => exact yield o
  | ifence o => exact ifence o
  | icinv o => exact icinv o
  | perfr o => exact perfr o
  | halt o => exact halt o
  | _ => exact absurd rfl hh

end RoundTrip

/-! ### The statements -/

/-- Settles O36: each constructor by the round trip of its word format. -/
theorem encodeDecode : Obligations.EncodeDecode := by
  unfold Obligations.EncodeDecode
  exact fun i rest h => RoundTrip.all i h rest

/-- Settles O37: each word format by the fields of its words and the rows of the map. -/
theorem decodeIsExact : Obligations.DecodeIsExact := by
  unfold Obligations.DecodeIsExact
  intro ws i n h
  obtain ⟨hencodable, hbegins, hcounted, hmeasured⟩ := decode_exact h
  refine ⟨hencodable, hmeasured, ?_, ?_⟩
  · rw [hcounted]; exact hbegins.length_le
  · rw [hcounted]; exact List.prefix_iff_eq_take.1 hbegins

end Sys2Proof.Laws
end

section
/-! Settles O38 (DecodeSamples): the words of the spec's worked examples, and the majors that are no format (R135–R138, R152). -/

namespace Sys2Proof.Laws

theorem wMaj_ofNat_append {k : Nat} (hk : k < 64) (low : BitVec 26) : wMaj (BitVec.ofNat 6 k ++ low : BitVec 32) = k := by
  unfold wMaj
  erw [extract_append_hi _ _ (by decide), extract_self, toNat_code hk]

/-- A word whose major has no format begins no instruction. -/
theorem decode_of_fmt_none {w : Word} (h : fmtOf (wMaj w) = none) (rest : List Word) : ∃ r, decode (w :: rest) = .error r := by
  simp only [decode, h]
  split
  · exact ⟨_, rfl⟩
  · split <;> exact ⟨_, rfl⟩

/-- Settles O38: each example by evaluation of the decoder, the words without a format by their major. -/
theorem decodeSamples : Obligations.DecodeSamples := by
  unfold Obligations.DecodeSamples
  iterate 19 refine ⟨by decide, ?_⟩
  intro k hk low
  exact decode_of_fmt_none (by rw [wMaj_ofNat_append k.isLt, hk]) []

end Sys2Proof.Laws
end

section
/-! Settles O12 (PassingAnInstruction): what passing an instruction leaves of its split, and of all else (R146, R204). -/

namespace Sys2Proof

/-- A change of a listed key is the binding of the value that it gives. -/
theorem KV.modify_of_find {α : Type} {m : KV α} {k : Nat} {v : α} (h : m.find k = some v) (f : α → α) :
    m.modify k f = m.modify k fun _ => f v := by
  induction m with
  | nil => rfl
  | cons e t ih =>
    by_cases hk : k = e.1
    · simp_all [KV.modify, KV.find]
    · simp only [KV.find, if_neg hk] at h
      simp only [KV.modify, if_neg hk, ih h]

namespace Machine

/-! ### The split behind its instruction -/

/-- Going on keeps the lanes of a split and its join record, and ends all that belongs to the instruction. -/
theorem Split.advance_frame (sp : Split) (d : Bool) : (sp.advance d).mask = sp.mask ∧ (sp.advance d).jrec = sp.jrec ∧
    (sp.advance d).due = none ∧ (sp.advance d).tokens = [] ∧ (sp.advance d).openOp = none := by
  unfold Split.advance
  dsimp only
  split
  · exact ⟨rfl, rfl, rfl, rfl, rfl⟩
  · split <;> exact ⟨rfl, rfl, rfl, rfl, rfl⟩

/-- Within a clause the next place is that of the next instruction; behind its last one the clause is left. -/
theorem Split.advance_clause {sp : Split} {c : Clause} (h : sp.clause = some c) (d : Bool) :
    let pos := c.pos + rawLen (c.words.drop c.pos)
    if pos < c.words.length then
      (sp.advance d).pc = c.hdr + 4 + 4 * pos ∧ (sp.advance d).clause = if c.stale then none else some { c with pos := pos }
    else (sp.advance d).pc = c.hdr + 4 + 4 * c.words.length ∧ (sp.advance d).clause = none := by
  unfold Split.advance
  simp only [h]
  split <;> exact ⟨rfl, rfl⟩

/-! ### A change of the executing split -/

section
variable {s : State} {x : Ex} (hx : s.ex? = some x)
include hx

theorem modSplit_of_ex? (f : Split → Split) : s.modSplit x.gid x.sid f =
    s.setGroup x.gid { x.g with splits := x.g.splits.modify x.sid fun _ => f x.sp } := by
  obtain ⟨-, hg, hsp, -⟩ := ex?_some hx
  rw [State.modSplit, State.modGroup_some _ hg, KV.modify_of_find hsp]

/-- The executing split after a change of it. -/
theorem sp_of_ex?_modSplit (f : Split → Split) {y : Ex} (hy : (s.modSplit x.gid x.sid f).ex? = some y) : y.sp = f x.sp := by
  obtain ⟨hissuer, -, hsp, -⟩ := ex?_some hx
  obtain ⟨hissuer', hg', hsp', -⟩ := ex?_some hy
  rw [State.modSplit_issuer, hissuer, Option.some.injEq, Prod.mk.injEq] at hissuer'
  rw [modSplit_of_ex? hx, ← hissuer'.1, State.group_setGroup, Option.some.injEq] at hg'
  rw [← hg', ← hissuer'.2, KV.find_modify_self, hsp] at hsp'
  exact (Option.some.inj hsp').symm

/-- A split that goes on as the passing of its instruction lets it, to whatever place. -/
theorem passes_modSplit {f : Split → Split} (d : Bool)
    (hf : ∃ pc clause park resumeAt, f x.sp = { x.sp.advance d with pc, clause, park, resumeAt }) :
    OnlyGroup s (s.modSplit x.gid x.sid f) x.gid ∧
    ∃ sp, (s.modSplit x.gid x.sid f).group x.gid = some { x.g with splits := x.g.splits.modify x.sid fun _ => sp } ∧
      sp.mask = x.sp.mask ∧ sp.jrec = x.sp.jrec ∧ sp.due = none ∧ sp.tokens = [] ∧ sp.openOp = none := by
  refine ⟨onlyGroup_modGroup _ _ _, f x.sp, ?_, ?_⟩
  · rw [modSplit_of_ex? hx, State.group_setGroup]
  · obtain ⟨pc, clause, park, resumeAt, h⟩ := hf
    rw [h]
    exact x.sp.advance_frame d

end

/-! ### The statement -/

/-- Settles O12: passing an instruction is one change of its split, whose fields say where it goes on. -/
theorem passingAnInstruction : Obligations.PassingAnInstruction := by
  unfold Obligations.PassingAnInstruction
  intro s x pc hx
  refine ⟨passes_modSplit hx _ ⟨_, _, _, _, rfl⟩, passes_modSplit hx _ ⟨_, _, _, _, rfl⟩, fun y hy => ?_, fun c hc y hy => ?_⟩
  · rw [sp_of_ex?_modSplit hx _ hy]
    exact ⟨rfl, rfl⟩
  · rw [sp_of_ex?_modSplit hx _ hy]
    exact Split.advance_clause hc _

end Machine
end Sys2Proof
end

section
/-! Settles O39 (StepRunsDecoded): a step that issues a split runs what its words decode to (R145, R153, R163, R169, R170, R220). -/

namespace Sys2Proof.Machine

/-! ### The head of the agenda -/

theorem step_of_runs {s t : State} {i : Instr} (h : s.plan = (some i, t)) : step s = exec i t := by
  rw [step, h]

theorem step_of_passes {s t : State} (h : s.plan = (none, t)) : step s = .next t := by
  rw [step, h]

theorem State.plan_agenda {s : State} {a : Happening} {rest : List Happening} (h : s.agenda = a :: rest) :
    s.plan = { s with agenda := rest }.perform a := by
  simp only [State.plan, h]

/-- A happening of the hardware takes place without an issuer. -/
theorem State.perform_row {s : State} {i : Instr} (hi : i.isHappening = true) (hr : (s.pkg.recovery && askedRow i) = false) :
    s.perform (.row i) = (some i, { s with issuer := none }) := by
  simp only [State.perform, hi, hr, Bool.not_true, Bool.false_eq_true, if_false]

/-- A package in recovery refuses what it is asked for (R388). -/
theorem State.perform_row_refused {s : State} {i : Instr} (hi : i.isHappening = true)
    (hr : (s.pkg.recovery && askedRow i) = true) : s.perform (.row i) = (none, s.log .firmware 1 0) := by
  simp only [State.perform, hi, hr, Bool.not_true, Bool.false_eq_true, if_false, if_true]

/-! ### Writing back before a release (R220, R381) -/

theorem MemoryOnly.l1BackWhere (s : State) (core : Nat) (p : L1Block → Bool) : MemoryOnly s (s.l1BackWhere core p) := by
  have hb (t : State) (b : L1Block) : MemoryOnly t (if p b then t.l1Back core b else t) := by
    split
    · exact l1Back t core b
    · exact refl t
  unfold State.l1BackWhere
  exact (foldl hb _ s).trans (modCore _ core _)

theorem MemoryOnly.release (s : State) (core scope : Nat) : MemoryOnly s (s.release core scope) := by
  unfold State.release
  split
  · exact refl s
  · exact l1BackWhere s core _

/-- After a release beyond the block no dirty block of the core's L1 has the scope of the block alone. -/
theorem State.release_written (s : State) (core : Nat) {scope : Nat} (h : ¬ scope ≤ 1) :
    ∀ b ∈ ((s.release core scope).core core).l1, b.dirty ≠ 0 → b.scope ≠ 1 := by
  intro b hb hd
  rw [State.release, if_neg h, State.l1BackWhere, State.core_modCore] at hb
  obtain ⟨c, -, rfl⟩ := List.mem_map.1 hb
  by_cases hc : (c.dirty != 0 && c.scope == 1) = true
  · rw [if_pos hc, L1Block.clean] at hd ⊢
    split at hd <;> simp_all
  · rw [if_neg hc] at hd ⊢
    simp_all

/-! ### What an issue leaves (R161–R163, R170, R373) -/

/-- `h` has the registers, the flags and the operations in flight of `g`. -/
structure SameRegs (g h : Group) : Prop where
  v : h.v = g.v
  sr : h.sr = g.sr
  m : h.m = g.m
  f : h.f = g.f
  fpstat : h.fpstat = g.fpstat
  flights : h.flights = g.flights

theorem SameRegs.trans {g h k : Group} (a : SameRegs g h) (b : SameRegs h k) : SameRegs g k :=
  ⟨b.v.trans a.v, b.sr.trans a.sr, b.m.trans a.m, b.f.trans a.f, b.fpstat.trans a.fpstat, b.flights.trans a.flights⟩

/-- Cycles have passed, and what a group holds, its splits among it, and memory are as they were. -/
structure CyclesPass (gid : Nat) (s t : State) : Prop where
  group : ∀ g, s.group gid = some g → ∃ h, t.group gid = some h ∧ h.splits = g.splits ∧ SameRegs g h
  mem : t.mem = s.mem

namespace CyclesPass
variable {gid : Nat} {s t u : State}

theorem trans (h : CyclesPass gid s t) (k : CyclesPass gid t u) : CyclesPass gid s u where
  group g hg := by
    obtain ⟨g₁, hg₁, hs₁, hr₁⟩ := h.group g hg
    obtain ⟨g₂, hg₂, hs₂, hr₂⟩ := k.group g₁ hg₁
    exact ⟨g₂, hg₂, hs₂.trans hs₁, hr₁.trans hr₂⟩
  mem := k.mem.trans h.mem

theorem of_groups (hg : t.groups = s.groups) (hm : t.mem = s.mem) : CyclesPass gid s t where
  group g h := ⟨g, by rw [State.group, hg]; exact h, rfl, rfl, rfl, rfl, rfl, rfl, rfl⟩
  mem := hm

theorem modCore (s : State) (n : Nat) (f : Core → Core) : CyclesPass gid s (s.modCore n f) := of_groups rfl rfl

theorem ite {c : Prop} [Decidable c] (h : CyclesPass gid s t) (k : CyclesPass gid s u) :
    CyclesPass gid s (if c then t else u) := by
  split
  · exact h
  · exact k

theorem tick (s : State) (core n : Nat) : CyclesPass gid s (s.tick core n) := by
  unfold State.tick
  split
  · exact of_groups rfl rfl
  refine ⟨fun g hg => ?_, rfl⟩
  rw [State.group, Option.or_eq_some_iff] at hg
  rw [State.group, State.modCore_groups, KV.find_map]
  obtain hg | ⟨hnone, hidle⟩ := hg
  · rw [hg]
    refine ⟨_, rfl, ?_⟩
    dsimp only
    split <;> exact ⟨rfl, rfl, rfl, rfl, rfl, rfl, rfl⟩
  · rw [hnone, Option.map_none, Option.none_or, hidle]
    exact ⟨g, rfl, rfl, rfl, rfl, rfl, rfl, rfl, rfl⟩

theorem cpTick (s : State) (cp n : Nat) : CyclesPass gid s (s.cpTick cp n) := of_groups rfl rfl

end CyclesPass

/-- The state in which an instruction is executed: cycles have passed, the issue is counted, the issuer is named. -/
theorem State.issueOf_eq (s : State) (x : Ex) (ws : List Word) : ∃ u n now, CyclesPass x.gid s u ∧
    s.issueOf x ws = { u.issued x.gid x.sid n now with issuer := some (x.gid, x.sid) } := by
  refine ⟨_, _, _, ?_, rfl⟩
  refine .ite (.cpTick _ _ _) ?_
  have ticked : CyclesPass x.gid s (if s.packMember x.gid x.sid x.g = true then s
      else s.tick x.g.core (s.slotTime x.gid x.g - (s.core x.g.core).cycle)) := .ite (.of_groups rfl rfl) (.tick _ _ _)
  exact .ite ((ticked.trans (.modCore _ _ _)).trans ((CyclesPass.modCore _ _ _).trans (.modCore _ _ _)))
    ((ticked.trans (.modCore _ _ _)).trans (.modCore _ _ _))

/-- What counts the issue of a split keeps all that the group works with. -/
theorem State.group_issued {s : State} {gid : Nat} {g : Group} (hg : s.group gid = some g) (sid n now : Nat) :
    ∃ h, (s.issued gid sid n now).group gid = some h ∧
      h.splits = g.splits.modify sid (fun sp => { sp with lastIssue := now }) ∧ SameRegs g h := by
  unfold State.issued
  have hctx (t : State) (c : Nat) (f : Context → Context) : (t.modCtx c f).group gid = t.group gid := rfl
  simp only [State.group_modGroup, hg, Option.map_some, hctx, Option.some.injEq]
  exact ⟨_, rfl, rfl, rfl, rfl, rfl, rfl, rfl, rfl⟩

theorem State.issued_mem (s : State) (gid sid n now : Nat) : (s.issued gid sid n now).mem = s.mem := by
  unfold State.issued
  dsimp only
  split <;> rfl

/-- The executing split of a state that names it. -/
theorem State.ex?_of_issuer {s : State} {gid sid : Nat} {g : Group} {sp : Split} (hi : s.issuer = some (gid, sid))
    (hg : s.group gid = some g) (hsp : g.splits.find sid = some sp) : s.ex? = some ⟨gid, sid, g, sp, sp.due.getD sp.mask⟩ := by
  simp only [State.ex?, hi, hg, hsp]

/-- The issue names the issuer, and keeps its registers, its place, its lanes and memory. -/
theorem State.ex?_issueOf {s : State} {gid sid : Nat} {x : Ex} {c : Clause} (hx : s.exOf gid sid = some x)
    (hc : x.sp.clause = some c) (ws : List Word) :
    ∃ y, (s.issueOf x ws).ex? = some y ∧ y.gid = gid ∧ y.sid = sid ∧ y.lanes = x.lanes ∧ y.sp.pc = x.sp.pc ∧
      y.sp.clause = some c ∧ y.g.v = x.g.v ∧ y.g.sr = x.g.sr ∧ y.g.m = x.g.m ∧ y.g.f = x.g.f ∧
      y.g.fpstat = x.g.fpstat ∧ y.g.flights = x.g.flights ∧ (s.issueOf x ws).mem = s.mem := by
  obtain ⟨rfl, rfl, hg, hsp, hlanes⟩ := State.exOf_some hx
  obtain ⟨u, n, now, ⟨hgroup, hmem⟩, heq⟩ := s.issueOf_eq x ws
  obtain ⟨g₁, hg₁, hs₁, hr₁⟩ := hgroup x.g hg
  obtain ⟨g₂, hg₂, hs₂, hr₂⟩ := State.group_issued hg₁ x.sid n now
  have hsp₂ : g₂.splits.find x.sid = some { x.sp with lastIssue := now } := by
    rw [hs₂, KV.find_modify_self, hs₁, hsp]; rfl
  have hmem₂ : (s.issueOf x ws).mem = s.mem := by
    rw [heq, ← hmem, ← u.issued_mem x.gid x.sid n now]
  obtain ⟨hv, hsr, hm, hf, hfpstat, hflights⟩ := hr₁.trans hr₂
  refine ⟨_, State.ex?_of_issuer ?_ ?_ hsp₂, rfl, rfl, hlanes.symm, rfl, hc, hv, hsr, hm, hf, hfpstat, hflights, hmem₂⟩
  · rw [heq]
  · rw [heq]; exact hg₂

/-! ### The issue of a split (R145, R153, R168) -/

section
variable {s : State} {gid sid : Nat} {x : Ex} {c : Clause}

/-- A split that may issue, within a clause, with nothing before its instruction, issues that. -/
theorem State.issueSplit_next (hx : s.exOf gid sid = some x) (hc : x.sp.clause = some c) (hmay : s.mayIssue gid x.g x.sp = true)
    (hpack : s.packFirst gid sid x.g = false)
    (hnotif : x.g.notif = none ∨ x.g.handler ≠ none ∨ x.g.isQueue = true ∨ x.sp.begun = true) (hdue : x.sp.due ≠ some 0) :
    s.issueSplit gid sid = s.issueNext x c := by
  have hqueue : (x.g.isQueue && ((some c).isNone || (s.cp (gid / 16)).current != some gid)) = false := by
    cases hq : x.g.isQueue
    · rfl
    · simp [State.mayIssue, hq] at hmay
      simp [hmay]
  have hnone : (x.g.notif.isSome && x.g.handler.isNone && !x.g.isQueue && !x.sp.begun) = false := by
    rcases hnotif with h | h | h | h <;> simp [h]
  unfold State.issueSplit
  simp only [hx, hqueue, hmay, hpack, hc, hdue, hnone, Bool.not_true, Bool.or_self, Bool.false_eq_true, if_false]

theorem State.issueNext_illegal {e : Reject} (h : decode c.next = .error e) :
    s.issueNext x c = (none, s.trap x 0x01 x.lanes 0) := by
  simp only [State.issueNext, h]

section
variable {i : Instr} {n : Nat} (h : decode c.next = .ok (i, n))
include h

theorem State.issueNext_class (h7 : c.cls ≠ 7) (hcls : c.cls ≠ (classOf (wMaj (c.next.headD 0))).code) :
    s.issueNext x c = (none, s.trap x 0x01 x.lanes 0) := by
  simp only [State.issueNext, h]
  refine if_pos ?_
  rw [Bool.and_eq_true, decide_eq_true_eq, decide_eq_true_eq]
  exact ⟨h7, hcls⟩

section
variable (hcls : c.cls = 7 ∨ c.cls = (classOf (wMaj (c.next.headD 0))).code)
include hcls

/-- An instruction of the clause's class is held, or the L1 is written back for it, or it issues. -/
theorem State.issueNext_class_fits : s.issueNext x c =
    if s.heldAt x.gid x.g x.sid x.sp i = true then (none, if x.g.isQueue then s else s.tick x.g.core 1)
    else if s.flushFirst x i = true then
      (none, { ({ s with issuer := some (x.gid, x.sid) }).release x.g.core 4 with issuer := s.issuer })
    else (some i, s.issueOf x c.next) := by
  simp only [State.issueNext, h]
  refine if_neg ?_
  rw [Bool.and_eq_true, decide_eq_true_eq, decide_eq_true_eq]
  exact fun hb => hcls.elim hb.1 hb.2

variable (hheld : s.heldAt x.gid x.g x.sid x.sp i = false)
include hheld

theorem State.issueNext_flushes (hflush : s.flushFirst x i = true) : ∃ t, s.issueNext x c = (none, t) ∧ t.groups = s.groups ∧
    ∀ b ∈ (t.core x.g.core).l1, b.dirty ≠ 0 → b.scope ≠ 1 := by
  rw [State.issueNext_class_fits h hcls, hheld, if_neg Bool.false_ne_true, if_pos hflush]
  exact ⟨_, rfl, (MemoryOnly.release _ _ 4).groups, State.release_written _ _ (by decide)⟩

theorem State.issueNext_issues (hflush : s.flushFirst x i = false) : s.issueNext x c = (some i, s.issueOf x c.next) := by
  rw [State.issueNext_class_fits h hcls, hheld, hflush, if_neg Bool.false_ne_true, if_neg Bool.false_ne_true]

end

end

end

/-! ### A placed instruction (log 2) -/

/-- The words of the table's number for an instruction decode to it, and to nothing more. -/
theorem decode_tableWords {nbits w : Nat} {i : Instr} (h : decodeTableWord nbits w = some i) :
    ∃ n, decode (tableWords nbits w) = .ok (i, n) := by
  unfold decodeTableWord at h
  dsimp only at h
  split at h
  next i n hd =>
    cases h
    obtain ⟨hencodable, hbegins, hcounted, hmeasured⟩ := Laws.decode_exact hd
    have hwords : tableWords nbits w = encode i := by
      rw [tableWords, ← hmeasured, hcounted]
      exact (List.prefix_iff_eq_take.1 hbegins).symm
    rw [hwords, ← List.append_nil (encode i)]
    exact ⟨_, Laws.RoundTrip.all i hencodable []⟩
  next => cases h

theorem State.agenda_withFetchWord (s : State) (nbits w : Nat) : (s.withFetchWord nbits w).agenda = [.issue 128 0] := rfl

/-- The placed split stands before its words, with nothing pending. -/
theorem State.exOf_withFetchWord (s : State) (nbits w : Nat) :
    ∃ x, { s.withFetchWord nbits w with agenda := [] }.exOf 128 0 = some x ∧
      x.sp.clause = some ⟨0x1080, tableWords nbits w, 0, false, 7, false⟩ ∧ x.g.notif = none ∧ x.sp.due = none := by
  have hg : { s.withFetchWord nbits w with agenda := [] }.group 128 = some _ :=
    congrArg (Option.or · _) (KV.find_insert_self s.groups 128 _)
  simp only [State.exOf, hg]
  exact ⟨_, rfl, rfl, rfl, rfl⟩

/-! ### The statement -/

/-- Settles O39: the plan is the head of the agenda; the issue of a split by the ways in which its next instruction can go. -/
theorem stepRunsDecoded : Obligations.StepRunsDecoded := by
  unfold Obligations.StepRunsDecoded
  refine ⟨fun s gid sid rest x c ha hx hc hmay hpack hnotif hdue => ?issue, fun s i rest ha hi => ?row,
    fun s nbits w i hw hi => ?placed⟩
  case issue =>
    have hplan : s.plan = { s with agenda := rest }.issueNext x c :=
       (State.plan_agenda ha).trans (State.issueSplit_next hx hc hmay hpack hnotif hdue)
    refine ⟨fun e he => ?_, fun i n hd => ⟨fun h7 hcls => ?_, fun hcls => ⟨fun hheld => ?_, fun hheld hflush => ?_,
      fun hheld hflush => ⟨?_, State.ex?_issueOf hx hc _⟩⟩⟩⟩
    · exact step_of_passes (hplan.trans (State.issueNext_illegal he))
    · exact step_of_passes (hplan.trans (State.issueNext_class hd h7 hcls))
    · exact step_of_passes (hplan.trans ((State.issueNext_class_fits hd hcls).trans (if_pos hheld)))
    · obtain ⟨t, ht, hgroups, hwritten⟩ := State.issueNext_flushes hd hcls hheld hflush
      exact ⟨t, step_of_passes (hplan.trans ht), hgroups, hwritten⟩
    · exact step_of_runs (hplan.trans (State.issueNext_issues hd hcls hheld hflush))
  case row =>
    exact ⟨fun hr => step_of_runs ((State.plan_agenda ha).trans (State.perform_row hi hr)),
      fun hr => step_of_passes ((State.plan_agenda ha).trans (State.perform_row_refused hi hr))⟩
  case placed =>
    obtain ⟨x, hx, hc, hnotif, hdue⟩ := s.exOf_withFetchWord nbits w
    obtain ⟨n, hd⟩ := decode_tableWords hw
    refine ⟨x, _, hx, hc, ⟨n, hd⟩, fun hgo => ?_⟩
    simp only [Bool.and_eq_true, Bool.not_eq_true'] at hgo
    obtain ⟨⟨⟨hmay, hpack⟩, hheld⟩, hflush⟩ := hgo
    have hplan := (State.plan_agenda (s.agenda_withFetchWord nbits w)).trans
      (State.issueSplit_next hx hc hmay hpack (.inl hnotif) (by simp [hdue]))
    obtain ⟨hgid, -⟩ := State.exOf_some hx
    rw [← hgid] at hheld
    exact step_of_runs (hplan.trans (State.issueNext_issues hd (.inl rfl) hheld hflush))

end Sys2Proof.Machine
end

section
/-! Settles O15 and O14 (LanesOfJoins, DivergeAndJoin): how BRD divides a split under a join record and how splits arrive at their
records (R165, R166, R206, R207). -/

namespace Sys2Proof

/-! ### Tables -/

theorem KV.find_modify_some {α : Type} {m : KV α} {k : Nat} {v : α} (f : α → α) (h : m.find k = some v) :
    (m.modify k f).find k = some (f v) := by
  rw [KV.find_modify_self, h]
  rfl

theorem KV.freshBelow_some {α : Type} {m : KV α} {n k : Nat} (h : m.freshBelow n = some k) : m.find k = none := by
  simpa using List.find?_some h

theorem KV.freshBelow_none {α : Type} {m : KV α} {n : Nat} : m.freshBelow n = none ↔ ∀ i, i < n → m.find i ≠ none := by
  simp [KV.freshBelow]

namespace Machine

/-! ### New records and new splits (R164) -/

theorem Group.newRec_free (g : Group) (r : JoinRec) (h : ∃ i, i < 63 ∧ g.joins.find i = none) :
    g.joins.find (g.newRec r).1 = none := by
  obtain ⟨i, hi, hfree⟩ := h
  cases hk : g.joins.freshBelow 63 with
  | none => exact absurd hfree (KV.freshBelow_none.1 hk i hi)
  | some k => simpa [Group.newRec, hk] using KV.freshBelow_some hk

/-! ### Dividing a split (R165) -/

/-- The record of a split that evaluates its BRD again for deferred lanes. -/
def Group.again (g : Group) (x : Ex) (k : Nat) (r : JoinRec) : Prop :=
  x.sp.jrec = some k ∧ g.joins.find k = some r ∧ r.reeval = true ∧ r.dpc = x.sp.pc

/-- The new record under which a BRD divides a split: it expects every lane of the split. -/
def Ex.newJoin (x : Ex) (join : Nat) : JoinRec := { jpc := join, expect := x.sp.mask, outer := x.sp.jrec }

/-- The two halves of a divided split, under the record `kg`: a split for each, or the lanes that do not take the branch
deferred in the record. -/
def Group.divide (kg : Nat × Group) (x : Ex) (t f : Lanes) (target next : Nat) (park : Park) : Group :=
  match kg.2.newSplit (freshSplit target t (some kg.1) park) with
  | some (_, g) =>
    { g with splits := g.splits.modify x.sid fun sp =>
        { (freshSplit next f (some kg.1) park) with lastIssue := sp.lastIssue } }
  | none =>
    { kg.2 with
      splits := kg.2.splits.modify x.sid fun sp => { (freshSplit target t (some kg.1) park) with lastIssue := sp.lastIssue }
      joins := kg.2.joins.modify kg.1 fun r => { r with defer := f, dpc := x.sp.pc, dhdr := match x.sp.clause with
        | some c => c.hdr
        | none => x.sp.pc } }

theorem Group.diverge_again {g : Group} {x : Ex} {j : Nat} {r : JoinRec} (h : g.again x j r) (t f : Lanes)
    (target join next : Nat) (p : Park) : g.diverge x t f target join next p = Group.divide (j, g) x t f target next p := by
  obtain ⟨hj, hr, hre, hpc⟩ := h
  simp only [Group.diverge, hj, hr, hre, hpc, beq_self_eq_true, Bool.and_self, if_true]
  rfl

theorem Group.diverge_new {g : Group} {x : Ex} (h : ¬ ∃ j r, g.again x j r) (t f : Lanes) (target join next : Nat) (p : Park) :
    g.diverge x t f target join next p = Group.divide (g.newRec (x.newJoin join)) x t f target next p := by
  unfold Group.diverge
  cases hj : x.sp.jrec with
  | none =>
    simp only [Ex.newJoin, hj]
    rfl
  | some j =>
    cases hr : g.joins.find j with
    | none =>
      simp only [hr, Ex.newJoin, hj]
      rfl
    | some r =>
      have hno : (r.reeval && r.dpc == x.sp.pc) = false := by
        rw [Bool.eq_false_iff]
        exact fun hc => h ⟨j, r, hj, hr, by simpa using hc⟩
      simp only [hr, hno, Ex.newJoin, hj]
      rfl

theorem Group.divide_free {k n : Nat} {g : Group} {x : Ex} (t f : Lanes) (target next : Nat) (p : Park)
    (hn : g.splits.freshBelow 8 = some n) :
    Group.divide (k, g) x t f target next p = { g with
      splits := (g.splits.insert n (freshSplit target t (some k) p)).modify x.sid fun sp =>
        { (freshSplit next f (some k) p) with lastIssue := sp.lastIssue } } := by
  simp only [Group.divide, Group.newSplit, hn]
  rfl

theorem Group.divide_full {k : Nat} {g : Group} {x : Ex} (t f : Lanes) (target next : Nat) (p : Park)
    (hn : g.splits.freshBelow 8 = none) :
    Group.divide (k, g) x t f target next p = { g with
      splits := g.splits.modify x.sid fun sp => { (freshSplit target t (some k) p) with lastIssue := sp.lastIssue }
      joins := g.joins.modify k fun r => { r with defer := f, dpc := x.sp.pc, dhdr := match x.sp.clause with
        | some c => c.hdr
        | none => x.sp.pc } } := by
  simp only [Group.divide, Group.newSplit, hn]
  rfl

/-- Every lane of a divided split stands in its entry, in a new one, or deferred in the record, which is otherwise as it was. -/
theorem Group.divide_lanes {k : Nat} {g : Group} {x : Ex} {r0 : JoinRec} (t f : Lanes) (target next : Nat) (p : Park)
    (hx : g.splits.find x.sid = some x.sp) (hr : g.joins.find k = some r0) :
    let h := Group.divide (k, g) x t f target next p
    ∃ r, h.joins.find k = some r ∧ (∀ n, n ≠ k → h.joins.find n = g.joins.find n) ∧
      r.jpc = r0.jpc ∧ r.expect = r0.expect ∧ r.arrived = r0.arrived ∧ r.outer = r0.outer ∧
      ((∃ n a b, g.splits.find n = none ∧ h.splits.find x.sid = some a ∧ h.splits.find n = some b ∧
          (∀ i, i ≠ x.sid → i ≠ n → h.splits.find i = g.splits.find i) ∧ a.pc = next ∧ a.mask = f ∧ a.jrec = some k ∧
          b.pc = target ∧ b.mask = t ∧ b.jrec = some k) ∨
        ((∀ i, i < 8 → g.splits.find i ≠ none) ∧ ∃ a, h.splits.find x.sid = some a ∧
          (∀ i, i ≠ x.sid → h.splits.find i = g.splits.find i) ∧ a.pc = target ∧ a.mask = t ∧
          a.jrec = some k ∧ r.defer = f ∧ r.dpc = x.sp.pc)) := by
  cases hn : g.splits.freshBelow 8 with
  | some n =>
    have hfree := KV.freshBelow_some hn
    have hne : x.sid ≠ n := fun he => by rw [he, hfree] at hx; cases hx
    rw [Group.divide_free t f target next p hn]
    exact ⟨r0, hr, fun _ _ => rfl, rfl, rfl, rfl, rfl, .inl ⟨n, _, _, hfree,
      KV.find_modify_some _ ((KV.find_insert_ne _ _ hne).trans hx),
      (KV.find_modify_ne _ _ hne.symm).trans (KV.find_insert_self _ _ _),
      fun i hi hin => (KV.find_modify_ne _ _ hi).trans (KV.find_insert_ne _ _ hin), rfl, rfl, rfl, rfl, rfl, rfl⟩⟩
  | none =>
    rw [Group.divide_full t f target next p hn]
    exact ⟨_, KV.find_modify_some _ hr, fun n hn => KV.find_modify_ne _ _ hn, rfl, rfl, rfl, rfl,
      .inr ⟨KV.freshBelow_none.1 hn, _, KV.find_modify_some _ hx, fun i hi => KV.find_modify_ne _ _ hi, rfl, rfl, rfl, rfl, rfl⟩⟩

/-! ### Arrival (R166) -/

section
variable {g : Group} {sid k : Nat} {sp : Split} {r : JoinRec} (hs : g.splits.find sid = some sp) (hk : sp.jrec = some k)
  (hr : g.joins.find k = some r)
include hs hk hr

theorem Group.arrive_defers (hd : r.defer ≠ 0) :
    g.arrive sid = { g with
      splits := g.splits.insert sid
        { (freshSplit r.dpc r.defer (some k) .no) with resumeAt := some (r.dpc, r.dhdr), lastIssue := sp.lastIssue }
      joins := g.joins.insert k { r with arrived := r.arrived ||| sp.mask, defer := 0, reeval := true } } := by
  simp only [Group.arrive, hs, hk, hr, if_pos (bne_iff_ne.2 hd)]

theorem Group.arrive_last (hd : r.defer = 0) (ha : r.arrived ||| sp.mask = r.expect) :
    g.arrive sid = { g with
      splits := g.splits.insert sid { (freshSplit r.jpc r.expect r.outer .no) with lastIssue := sp.lastIssue }
      joins := g.joins.erase k } := by
  simp [Group.arrive, hs, hk, hr, hd, ha]

theorem Group.arrive_waits (hd : r.defer = 0) (ha : r.arrived ||| sp.mask ≠ r.expect) :
    g.arrive sid = { g with
      splits := g.splits.erase sid, joins := g.joins.insert k { r with arrived := r.arrived ||| sp.mask } } := by
  simp [Group.arrive, hs, hk, hr, hd, ha]

/-- An arrival touches the entry of its split and its record, and nothing else of the two tables. -/
theorem Group.arrive_frame :
    (∀ i, i ≠ sid → (g.arrive sid).splits.find i = g.splits.find i) ∧
      ∀ n, n ≠ k → (g.arrive sid).joins.find n = g.joins.find n := by
  by_cases hd : r.defer = 0
  · by_cases ha : r.arrived ||| sp.mask = r.expect
    · rw [Group.arrive_last hs hk hr hd ha]
      exact ⟨fun i hi => KV.find_insert_ne _ _ hi, fun n hn => KV.find_erase_ne _ hn⟩
    · rw [Group.arrive_waits hs hk hr hd ha]
      exact ⟨fun i hi => KV.find_erase_ne _ hi, fun n hn => KV.find_insert_ne _ _ hn⟩
  · rw [Group.arrive_defers hs hk hr hd]
    exact ⟨fun i hi => KV.find_insert_ne _ _ hi, fun n hn => KV.find_insert_ne _ _ hn⟩

end

/-! ### BRD (R206) -/

section
variable {s : State} {x : Ex} {o : BrdOps} (hx : s.ex? = some x) (hok : x.badTransfer o.mr = false)
include hx hok

theorem execBrd_none (ht : x.cond o.mr = 0) :
    execBrd o s = .next ((s.modGroup x.gid fun g => g.clearReeval x.sp.jrec).goto x x.nextHeader) :=
  (withEx_eq hx _).trans (by simp only [hok, if_pos ht]; rfl)

variable {w v : Word} {u r : State} (ht : x.cond o.mr ≠ 0) (hw : s.codeWord x.g (wordTarget x.sp.pc o.off) = .ok (w, u))
  (hv : u.codeWord x.g (wordTarget x.sp.pc o.join) = .ok (v, r))
include ht hw hv

theorem execBrd_badTarget (hbad : (isHeader w && isHeader v) = false) :
    execBrd o s = .next (r.trap x 0x01 (x.cond o.mr) 0) :=
  (withEx_eq hx _).trans (by simp only [hok, if_neg ht, hw, hv, hbad]; rfl)

theorem execBrd_agrees (hgood : (isHeader w && isHeader v) = true) (hf : x.sp.mask &&& ~~~x.cond o.mr = 0) :
    execBrd o s = .next (((r.modGroup x.gid fun g => g.clearReeval x.sp.jrec).capture x (wordTarget x.sp.pc o.off)).goto x
      (wordTarget x.sp.pc o.off)) :=
  (withEx_eq hx _).trans (by simp only [hok, if_neg ht, hw, hv, hgood, if_pos hf]; rfl)

theorem execBrd_divides (hgood : (isHeader w && isHeader v) = true) (hf : x.sp.mask &&& ~~~x.cond o.mr ≠ 0) :
    execBrd o s = .next (((r.capture x (wordTarget x.sp.pc o.off)).modGroup x.gid fun g =>
      g.diverge x (x.cond o.mr) (x.sp.mask &&& ~~~x.cond o.mr) (wordTarget x.sp.pc o.off) (wordTarget x.sp.pc o.join)
        x.nextHeader (r.parkAfter x)).modGroup x.gid fun g => g.clearReeval x.sp.jrec) :=
  (withEx_eq hx _).trans (by simp only [hok, if_neg ht, hw, hv, hgood, if_neg hf]; rfl)

end

/-! ### The statements -/

/-- Settles O15: a BRD divides under its split's own record or a new one, in one of two ways, and an arrival has three ends. -/
theorem lanesOfJoins : Obligations.LanesOfJoins := by
  refine ⟨fun g x t f target join next p hx hmask hdisj => ?divides, fun g sid k sp r hs hk hr => ?arrives⟩
  case divides =>
    by_cases hre : ∃ j r, g.again x j r
    · obtain ⟨j, r0, hagain⟩ := hre
      rw [Group.diverge_again hagain]
      obtain ⟨-, hr0, -⟩ := id hagain
      obtain ⟨r, hr, hother, hjpc, hexp, harr, hout, hlanes⟩ := Group.divide_lanes t f target next p hx hr0
      exact ⟨j, r, hr, hother, .inl ⟨r0, hagain, hjpc, hexp, harr, hout⟩, hlanes⟩
    · rw [Group.diverge_new hre]
      obtain ⟨r, hr, hother, hjpc, hexp, harr, hout, hlanes⟩ :=
        Group.divide_lanes (g := (g.newRec (x.newJoin join)).2) t f target next p hx (KV.find_insert_self _ _ _)
      exact ⟨_, r, hr, fun n hn => (hother n hn).trans (KV.find_insert_ne _ _ hn),
        .inr ⟨hre, g.newRec_free (x.newJoin join), hjpc, hexp, harr, hout⟩, hlanes⟩
  case arrives =>
    obtain ⟨hsplits, hjoins⟩ := Group.arrive_frame hs hk hr
    refine ⟨hsplits, hjoins, fun hd => ?_, fun hd ha => ?_, fun hd ha => ?_⟩
    · rw [Group.arrive_defers hs hk hr hd]
      exact ⟨KV.find_insert_self _ _ _, _, KV.find_insert_self _ _ _, rfl, rfl, rfl⟩
    · rw [Group.arrive_last hs hk hr hd ha]
      exact ⟨KV.find_erase_self _ _, _, KV.find_insert_self _ _ _, rfl, rfl, rfl⟩
    · rw [Group.arrive_waits hs hk hr hd ha]
      exact ⟨KV.find_insert_self _ _ _, KV.find_erase_self _ _⟩

/-- Settles O14: the branches of BRD and JOIN, once their transfer is admitted. -/
theorem divergeAndJoin : Obligations.DivergeAndJoin := by
  intro s x hx
  refine ⟨fun o hok => ⟨execBrd_none hx hok, fun ht w u v r hw hv => ⟨execBrd_badTarget hx hok ht hw hv,
      execBrd_agrees hx hok ht hw hv, execBrd_divides hx hok ht hw hv⟩⟩,
    fun o hbad => (withEx_eq hx _).trans (by rw [if_pos hbad]), fun hbad => (withEx_eq hx _).trans (by rw [if_pos hbad]),
    fun hok hj => ?noRecord, fun hok k hj => ?arrives⟩
  case noRecord => exact (withEx_eq hx _).trans (by simp only [hok, hj]; rfl)
  case arrives => exact (withEx_eq hx _).trans (by simp only [hok, hj]; rfl)

end Machine
end Sys2Proof
end

section
/-! Settles O26 and O27 (ReturnsInOrder, OperationsStayInOrder): the operations in flight of a group, in issue order, as they are
opened, changed and returned (R173, R242). -/

namespace Sys2Proof.Machine

/-! ### The operations that leave (R173) -/

/-- Of the operations of one counter, those that have returned leave from the front; where an older one blocks the counter, none does. -/
theorem retireFlights_filter (l : List Flight) (blocked : List Ctr) (c : Ctr) :
    (retireFlights l blocked).filter (fun f => f.ctr == c) =
      if c ∈ blocked then l.filter (fun f => f.ctr == c) else (l.filter fun f => f.ctr == c).dropWhile (·.done) := by
  induction l generalizing blocked with
  | nil => simp [retireFlights]
  | cons f t ih =>
    by_cases hout : f.done = true ∧ f.ctr ∉ blocked
    · have hret : retireFlights (f :: t) blocked = retireFlights t blocked := by simp [retireFlights, hout]
      rw [hret, ih]
      by_cases hc : f.ctr = c
      · simp [← hc, hout]
      · simp [hc]
    · have hret : retireFlights (f :: t) blocked = f :: retireFlights t (f.ctr :: blocked) := if_neg (by simpa using hout)
      rw [hret, List.filter_cons, ih]
      by_cases hc : f.ctr = c
      · subst hc
        by_cases hb : f.ctr ∈ blocked
        · simp [hb]
        · have hd : f.done = false := by simpa [hb] using hout
          simp [hb, hd]
      · simp [hc, Ne.symm hc]

theorem retireFlights_sublist (l : List Flight) (blocked : List Ctr) : (retireFlights l blocked).Sublist l := by
  induction l generalizing blocked with
  | nil => exact List.Sublist.slnil
  | cons f t ih =>
    rw [retireFlights]
    split
    · exact (ih blocked).cons f
    · exact (ih (f.ctr :: blocked)).cons_cons f

/-- What has been retired is in order. -/
theorem retireFlights_retired (l : List Flight) (blocked : List Ctr) :
    retireFlights (retireFlights l blocked) blocked = retireFlights l blocked := by
  induction l generalizing blocked with
  | nil => rfl
  | cons f t ih =>
    by_cases hout : (f.done && !blocked.contains f.ctr) = true
    · have hret : retireFlights (f :: t) blocked = retireFlights t blocked := if_pos hout
      rw [hret, ih]
    · have hret (u : List Flight) : retireFlights (f :: u) blocked = f :: retireFlights u (f.ctr :: blocked) := if_neg hout
      rw [hret, hret, ih]

theorem retireFlights_append {f : Flight} (hd : f.done = false) (l : List Flight) (blocked : List Ctr) :
    retireFlights (l ++ [f]) blocked = retireFlights l blocked ++ [f] := by
  induction l generalizing blocked with
  | nil => simp [retireFlights, hd]
  | cons a t ih =>
    simp only [List.cons_append, retireFlights, ih]
    split <;> rfl

/-- A change that leaves the counters and what has returned leaves the order. -/
theorem retireFlights_map {f : Flight → Flight} (hc : ∀ a, (f a).ctr = a.ctr) (hd : ∀ a, (f a).done = a.done) (l : List Flight)
    (blocked : List Ctr) : retireFlights (l.map f) blocked = (retireFlights l blocked).map f := by
  induction l generalizing blocked with
  | nil => rfl
  | cons a t ih =>
    simp only [List.map_cons, retireFlights, hc, hd, ih]
    split <;> rfl

/-! ### Operations in order -/

/-- The operations of a counter, in issue order. -/
def Group.flightsOf (g : Group) (c : Ctr) : List Flight := g.flights.filter fun f => f.ctr == c

theorem Group.counter_eq (g : Group) (c : Ctr) : g.counter c = (g.flightsOf c).length := rfl

/-- In order, the oldest operation of a counter has not returned. -/
theorem Group.FlightsInOrder.dropWhile_flightsOf {g : Group} (h : g.FlightsInOrder) (c : Ctr) :
    (g.flightsOf c).dropWhile (·.done) = g.flightsOf c := by
  have := retireFlights_filter g.flights [] c
  rw [h.2] at this
  simpa [Group.flightsOf] using this.symm

theorem flightsInOrder_nil {g : Group} (h : g.flights = []) : g.FlightsInOrder := by
  rw [Group.FlightsInOrder, h]
  exact ⟨List.Pairwise.nil, rfl⟩

theorem Group.FlightsInOrder.append {g h : Group} {f : Flight} (hg : g.FlightsInOrder) (hf : h.flights = g.flights ++ [f])
    (hd : f.done = false) (hnew : ∀ k ∈ g.flights, k.id ≠ f.id) : h.FlightsInOrder := by
  obtain ⟨hnames, hret⟩ := hg
  rw [Group.FlightsInOrder, hf, retireFlights_append hd, hret, List.pairwise_append]
  exact ⟨⟨hnames, List.pairwise_singleton _ _, fun a ha b hb => by rw [List.mem_singleton.1 hb]; exact hnew a ha⟩, rfl⟩

theorem Group.FlightsInOrder.modFlight {g : Group} (h : g.FlightsInOrder) (id : Nat) {f : Flight → Flight}
    (hid : ∀ a, (f a).id = a.id) (hc : ∀ a, (f a).ctr = a.ctr) (hd : ∀ a, (f a).done = a.done) : (g.modFlight id f).FlightsInOrder := by
  obtain ⟨hnames, hret⟩ := h
  have hkeep {β : Type} {p : Flight → β} (hp : ∀ a, p (f a) = p a) (a : Flight) : p (if a.id = id then f a else a) = p a := by
    split
    · exact hp a
    · rfl
  refine ⟨List.pairwise_map.2 (hnames.imp fun hab => ?_), ?_⟩
  · rwa [hkeep hid, hkeep hid]
  · exact (retireFlights_map (hkeep hc) (hkeep hd) _ _).trans (by rw [hret]; rfl)

theorem Group.FlightsInOrder.eq_of_id {g : Group} (h : g.FlightsInOrder) {a b : Flight} (ha : a ∈ g.flights) (hb : b ∈ g.flights)
    (hid : a.id = b.id) : a = b :=
  List.inj_on_of_nodup_map (List.pairwise_map.2 h.1) ha hb hid

/-! ### Returns (R173) -/

/-- The operation of a name as one that has returned. -/
def Flight.landed (id : Nat) (f : Flight) : Flight := if f.id = id then { f with writes := [], done := true } else f

theorem Flight.landed_self (f : Flight) : f.landed f.id = { f with writes := [], done := true } := if_pos rfl

theorem Flight.landed_ne {f : Flight} {id : Nat} (h : f.id ≠ id) : f.landed id = f := if_neg h

@[simp] theorem Flight.landed_id (id : Nat) (f : Flight) : (f.landed id).id = f.id := by
  unfold Flight.landed
  split <;> rfl

@[simp] theorem Flight.landed_ctr (id : Nat) (f : Flight) : (f.landed id).ctr = f.ctr := by
  unfold Flight.landed
  split <;> rfl

theorem map_landed_of_ne {l : List Flight} {id : Nat} (h : ∀ k ∈ l, k.id ≠ id) : l.map (Flight.landed id) = l :=
  (List.map_congr_left fun k hk => Flight.landed_ne (h k hk)).trans (List.map_id l)

theorem Group.writeRegs_flights (g : Group) (ws : List RegWrite) : (g.writeRegs ws).flights = g.flights := by
  induction ws generalizing g with
  | nil => rfl
  | cons w ws ih =>
    refine (ih (g.writeReg w)).trans ?_
    unfold Group.writeReg
    split
    · rfl
    · split <;> rfl

section
variable {g : Group} {id : Nat} {f : Flight} (hf : (g.flights.find? fun k => k.id == id) = some f)
include hf

theorem Group.flight_found : f ∈ g.flights ∧ f.id = id := ⟨List.mem_of_find?_eq_some hf, by simpa using List.find?_some hf⟩

theorem Group.returnFlight_some : g.returnFlight id =
    { g.writeRegs f.writes with flights := retireFlights (g.flights.map (Flight.landed id)) [] } := by
  simp only [Group.returnFlight, hf, Group.modFlight, Group.writeRegs_flights]
  rfl

theorem Group.FlightsInOrder.return_some (h : g.FlightsInOrder) : (g.returnFlight id).FlightsInOrder := by
  rw [Group.returnFlight_some hf]
  refine ⟨List.Pairwise.sublist (retireFlights_sublist _ _) (List.pairwise_map.2 ?_), retireFlights_retired _ _⟩
  simpa using h.1

/-- What is left of a counter: the operations behind the first that has not returned. -/
theorem Group.flightsOf_returnFlight (c : Ctr) :
    (g.returnFlight id).flightsOf c = ((g.flightsOf c).map (Flight.landed id)).dropWhile (·.done) := by
  rw [Group.returnFlight_some hf]
  refine (retireFlights_filter _ [] c).trans ?_
  rw [if_neg List.not_mem_nil, List.filter_map, Group.flightsOf]
  simp [Function.comp_def]

end

theorem Group.FlightsInOrder.returnFlight {g : Group} (h : g.FlightsInOrder) (id : Nat) : (g.returnFlight id).FlightsInOrder := by
  cases hf : g.flights.find? fun k => k.id == id with
  | none => rwa [Group.returnFlight, hf]
  | some f => exact h.return_some hf

section
variable {g : Group} {id : Nat} {f : Flight} (h : g.FlightsInOrder) (hf : (g.flights.find? fun k => k.id == id) = some f)
include h hf

/-- No other operation has the name of the one that returns. -/
theorem Group.FlightsInOrder.ctr_of_id {k : Flight} (hk : k ∈ (g.returnFlight id).flights) (hid : k.id = id) :
    k ∈ (g.returnFlight id).flightsOf f.ctr := by
  obtain ⟨hmem, hfid⟩ := Group.flight_found hf
  refine List.mem_filter.2 ⟨hk, ?_⟩
  rw [Group.returnFlight_some hf] at hk
  obtain ⟨a, ha, rfl⟩ := List.mem_map.1 ((retireFlights_sublist _ _).subset hk)
  rw [Flight.landed_id] at hid
  rw [Flight.landed_ctr, h.eq_of_id ha hmem (hid.trans hfid.symm)]
  exact beq_self_eq_true _

/-- The other counters stand. -/
theorem Group.FlightsInOrder.counter_return_ne {c : Ctr} (hc : c ≠ f.ctr) : (g.returnFlight id).counter c = g.counter c := by
  obtain ⟨hmem, hfid⟩ := Group.flight_found hf
  have hne : ∀ k ∈ g.flightsOf c, k.id ≠ id := fun k hk hid => by
    obtain ⟨hkg, hkc⟩ := List.mem_filter.1 hk
    rw [h.eq_of_id hkg hmem (hid.trans hfid.symm)] at hkc
    exact hc (beq_iff_eq.1 hkc).symm
  rw [Group.counter_eq, Group.flightsOf_returnFlight hf, map_landed_of_ne hne, h.dropWhile_flightsOf, ← Group.counter_eq]

/-- The oldest operation of its counter leaves, and lets the counter fall. -/
theorem Group.FlightsInOrder.return_oldest (hold : (g.flights.find? fun k => k.ctr == f.ctr) = some f) :
    (g.returnFlight id).counter f.ctr < g.counter f.ctr ∧ ∀ k ∈ (g.returnFlight id).flights, k.id ≠ id := by
  obtain ⟨-, hfid⟩ := Group.flight_found hf
  obtain ⟨rest, hrest⟩ := List.head?_eq_some_iff.1 ((List.head?_filter ..).trans hold)
  have hflights : g.flightsOf f.ctr = f :: rest := hrest
  have hnames : (g.flightsOf f.ctr).Pairwise fun a b => a.id ≠ b.id := h.1.filter _
  rw [hflights, List.pairwise_cons] at hnames
  have hne : ∀ k ∈ rest, k.id ≠ id := fun k hk => hfid ▸ (hnames.1 k hk).symm
  have hleft : (g.returnFlight id).flightsOf f.ctr = rest.dropWhile (·.done) := by
    rw [Group.flightsOf_returnFlight hf, hflights, List.map_cons, map_landed_of_ne hne, ← hfid, Flight.landed_self]
    rfl
  refine ⟨?_, fun k hk hid => ?_⟩
  · rw [Group.counter_eq, Group.counter_eq, hleft, hflights]
    exact Nat.lt_succ_of_le (List.dropWhile_suffix _).length_le
  · have hk := h.ctr_of_id hf hk hid
    rw [hleft] at hk
    exact hne k ((List.dropWhile_suffix _).subset hk) hid

/-- Behind an older operation that has not returned it stays, as one that has. -/
theorem Group.FlightsInOrder.return_behind (hold : (g.flights.find? fun k => k.ctr == f.ctr) ≠ some f) :
    (g.returnFlight id).counter f.ctr = g.counter f.ctr ∧ ∃ k ∈ (g.returnFlight id).flights, k.id = id ∧ k.done = true := by
  obtain ⟨hmem, hfid⟩ := Group.flight_found hf
  have hmemOf : f ∈ g.flightsOf f.ctr := List.mem_filter.2 ⟨hmem, beq_self_eq_true _⟩
  obtain ⟨a, rest, hflights⟩ := List.exists_cons_of_ne_nil (List.ne_nil_of_mem hmemOf)
  have hne : a.id ≠ id := fun hid => by
    have ha : a ∈ g.flights := (List.mem_filter.1 (hflights ▸ List.mem_cons_self : a ∈ g.flightsOf f.ctr)).1
    refine hold ((List.head?_filter ..).symm.trans ?_)
    rw [← h.eq_of_id ha hmem (hid.trans hfid.symm)] at hflights ⊢
    exact congrArg List.head? hflights
  have hwaits : a.done = false := by
    have hfront := List.head?_dropWhile_not (fun k : Flight => k.done) (g.flightsOf f.ctr)
    rw [h.dropWhile_flightsOf, hflights] at hfront
    exact hfront
  have hleft : (g.returnFlight id).flightsOf f.ctr = (g.flightsOf f.ctr).map (Flight.landed id) := by
    rw [Group.flightsOf_returnFlight hf, hflights, List.map_cons, Flight.landed_ne hne, List.dropWhile_cons, if_neg (by simp [hwaits])]
  refine ⟨by rw [Group.counter_eq, hleft, List.length_map]; rfl, f.landed id, ?_, by rw [Flight.landed_id, hfid], ?_⟩
  · exact (List.mem_filter.1 (hleft ▸ List.mem_map_of_mem hmemOf : f.landed id ∈ (g.returnFlight id).flightsOf f.ctr)).1
  · rw [← hfid, Flight.landed_self]

end

/-! ### The instructions' ends -/

theorem State.landFlight_ready {s : State} {gid op : Nat} {g : Group} {f : Flight} (hg : s.group gid = some g)
    (hf : (g.flights.find? fun k => k.id == op) = some f) (hr : f.left = 0 ∧ f.done = false) :
    s.landFlight gid op f.ctr = s.setGroup gid (g.returnFlight op) := by
  simp only [State.landFlight, hg, hf]
  rw [if_pos ⟨trivial, hr⟩, State.returnFlight, State.modGroup_some _ hg]

theorem State.landFlight_other {s : State} {gid op : Nat} {g : Group} {f : Flight} {c : Ctr} (hg : s.group gid = some g)
    (hf : (g.flights.find? fun k => k.id == op) = some f) (hr : ¬ (f.ctr = c ∧ f.left = 0 ∧ f.done = false)) :
    s.landFlight gid op c = s := by
  simp only [State.landFlight, hg, hf, if_neg hr]

/-- The operation that an instruction opens. -/
def Ex.flight (x : Ex) (c : Ctr) (id : Nat) : Flight := { id := id, ctr := c, left := 1, pc := x.sp.pc, born := x.g.icount }

/-- The state in which the executing instruction has opened an operation. -/
def State.opened (s : State) (x : Ex) (f : Flight) : State :=
  (s.fresh.2.modGroup x.gid fun g => g.addFlight f).modSplit x.gid x.sid fun sp => { sp with openOp := some f.id }

theorem State.openFlight_new {s : State} {x : Ex} (c : Ctr) (h : x.sp.openOp = none) :
    s.openFlight x c = (s.nextId, s.opened x (x.flight c s.nextId)) := by
  unfold State.openFlight
  rw [h]
  rfl

theorem State.group_opened {s : State} {x : Ex} {g : Group} (f : Flight) (h : s.group x.gid = some g) :
    (s.opened x f).group x.gid =
      some { g with flights := g.flights ++ [f], splits := g.splits.modify x.sid fun sp => { sp with openOp := some f.id } } := by
  have hfresh : s.fresh.2.group x.gid = some g := h
  rw [State.opened, State.modSplit, State.group_modGroup, State.group_modGroup, hfresh]
  rfl

/-! ### The statements -/

/-- Settles O26: an operation that returns leaves its counter with the operations behind the first that has not returned. -/
theorem returnsInOrder : Obligations.ReturnsInOrder := by
  intro s gid op g f hg hf hord runs ready
  have hruns {i : Instr} {c : Ctr} (hi : exec i s = .next (s.landFlight gid op c)) (hc : f.ctr = c) (hr : ready) : runs i := by
    subst hc
    rw [State.landFlight_ready hg hf hr] at hi
    refine ⟨_, g.returnFlight op, hi, onlyGroup_setGroup _ _ _, State.group_setGroup _ _ _, ?_, hord.returnFlight op,
      fun c hc => hord.counter_return_ne hf hc, hord.return_oldest hf, hord.return_behind hf⟩
    rw [Group.returnFlight_some hf]
  have hrests {i : Instr} {c : Ctr} (hi : exec i s = .next (s.landFlight gid op c)) (hr : ¬ (f.ctr = c ∧ ready)) :
      exec i s = .next s := by
    rw [hi, State.landFlight_other hg hf hr]
  exact ⟨hruns rfl, hruns rfl, hrests rfl, hrests rfl⟩

/-- Settles O27: opening appends an operation of a fresh name that has not returned. -/
theorem operationsStayInOrder : Obligations.OperationsStayInOrder := by
  refine ⟨fun g => flightsInOrder_nil, fun s x c g hg hop hord hids => ?opens, fun s gid id g hg hord => ⟨?closes, ?returns⟩⟩
  case opens =>
    rw [State.openFlight_new c hop]
    have hgroup := State.group_opened (s := s) (x.flight c s.nextId) hg
    refine ⟨_, x.flight c s.nextId, hgroup, rfl, rfl, rfl, rfl, hord.append rfl rfl fun k hk => (hids k hk).ne, ?_, fun k hk => ?_⟩
    · exact (congrArg List.length (List.filter_append _ _)).trans (by simp [Ex.flight, Group.counter])
    · rcases List.mem_append.1 hk with hk | hk
      · exact Nat.lt_succ_of_lt (hids k hk)
      · rw [List.mem_singleton.1 hk]
        exact Nat.lt_succ_self _
  case closes =>
    refine ⟨g.modFlight id fun f => { f with left := f.left - 1 }, ?_,
      hord.modFlight id (fun _ => rfl) (fun _ => rfl) (fun _ => rfl)⟩
    exact (State.group_modGroup _ _ _).trans (by rw [hg]; rfl)
  case returns => exact ⟨g.returnFlight id, (State.group_modGroup _ _ _).trans (by rw [hg]; rfl), hord.returnFlight id⟩

end Sys2Proof.Machine
end

section
/-! Settles O21 (RegisterBlocks): RGROW, RSHRINK and the grant of the core's oldest register request (R175, R366). -/

namespace Sys2Proof.Machine

/-! ### RGROW and RSHRINK (R366) -/

/-- The number of blocks that RGROW or RSHRINK names. -/
abbrev State.blocksAsked (s : State) (x : Ex) (o : EOps) : Nat := (s.readUni x o.lit .w32 o.a).toNat

theorem badCount_iff (n : Nat) : (decide (n = 0) || decide (24 < n)) = true ↔ n = 0 ∨ 24 < n := by simp

section
variable {s : State} {x : Ex} {o : EOps}

theorem registerBlocks_badOperands (hx : s.ex? = some x)
    (hb : x.g.isQueue = true ∨ badCountDst x.g o.d = true ∨ badUniform x.g .w32 o.a = true) :
    execRgrow o s = .next (s.illegal x) ∧ execRshrink o s = .next (s.illegal x) := by
  by_cases hq : x.g.isQueue = true
  · exact ⟨kernelOnly_queue hx _ hq, kernelOnly_queue hx _ hq⟩
  · rw [Bool.not_eq_true] at hq
    have hbad : (badCountDst x.g o.d || badUniform x.g .w32 o.a) = true := by simpa [hq] using hb
    exact ⟨(kernelOnly_group hx _ hq).trans (by rw [if_pos hbad]), (kernelOnly_group hx _ hq).trans (by rw [if_pos hbad])⟩

variable (hx : s.ex? = some x) (hq : x.g.isQueue = false) (hd : badCountDst x.g o.d = false) (ha : badUniform x.g .w32 o.a = false)
include hx hq hd ha

theorem registerBlocks_outOfRange (hn : s.blocksAsked x o = 0 ∨ 24 < s.blocksAsked x o) :
    execRgrow o s = .next (s.illegal x) ∧ execRshrink o s = .next (s.illegal x) := by
  have hrange := (badCount_iff _).2 hn
  exact ⟨(kernelOnly_group hx _ hq).trans (by rw [hd, ha]; exact congrArg _ (if_pos hrange)),
    (kernelOnly_group hx _ hq).trans (by rw [hd, ha]; exact congrArg _ (if_pos hrange))⟩

variable (hlo : 0 < s.blocksAsked x o) (hhi : s.blocksAsked x o ≤ 24)
include hlo hhi

/-- RGROW of an admitted count. -/
theorem execRgrow_inRange : execRgrow o s = .next (
    if s.blocksAsked x o ≤ x.g.rblk then
      (s.setGroup x.gid (x.g.writeDst false o.d 0 (BitVec.ofNat 64 x.g.rblk))).finish x
    else if !s.blocksAllowed x.g (s.blocksAsked x o) then s.illegal x
    else (s.finish x).requestRegs x.gid x.sid x.g.core (s.blocksAsked x o)
      (if isScalar o.d then some (o.d.toNat - 0xC0) else none) (s.parkAfter x != Park.no)) := by
  have hrange := mt (badCount_iff (s.blocksAsked x o)).1 (by omega)
  exact (kernelOnly_group hx _ hq).trans (by rw [hd, ha]; exact congrArg _ (if_neg hrange))

/-- RSHRINK of an admitted count. -/
theorem execRshrink_inRange : execRshrink o s = .next (
    let n := s.blocksAsked x o
    let g := if n < x.g.rblk then x.g.shrink n else x.g
    if n < x.g.rblk && x.g.counter .vl != 0 then s
    else (s.setGroup x.gid (g.writeDst false o.d 0 (BitVec.ofNat 64 g.rblk))).finish x) := by
  have hrange := mt (badCount_iff (s.blocksAsked x o)).1 (by omega)
  exact (kernelOnly_group hx _ hq).trans (by rw [hd, ha]; exact congrArg _ (if_neg hrange))

end

/-! ### REGISTER_BLOCK_GRANT (R175) -/

/-- The group whose request is granted. -/
def Group.granted (g : Group) (n : Nat) (d : Option Nat) : Group :=
  match d with
  | some r => Group.writeS { g with rblk := n } r (BitVec.ofNat 32 n)
  | none => { g with rblk := n }

theorem Group.granted_leaves (g : Group) (n : Nat) (d : Option Nat) :
    (g.granted n d).rblk = n ∧ (g.granted n d).v = g.v ∧ (g.granted n d).m = g.m := by
  cases d <;> exact ⟨rfl, rfl, rfl⟩

theorem State.rbFifo_of_rbHead {s : State} {core t : Nat} {x : Ex} {d : Option Nat} {dr : Bool} (h : s.rbHead core = some (x, t, d, dr)) :
    ∃ r rest, (s.core core).rbFifo = r :: rest := by
  unfold State.rbHead at h
  split at h
  · cases h
  · next r rest hfifo => exact ⟨r, rest, hfifo⟩

/-- The state in which the head of the FIFO has been granted: its group, the FIFO behind it, its split behind RGROW. -/
def State.grantRegs (s : State) (core : Nat) (x : Ex) (g : Group) (dr : Bool) : State :=
  ((s.setGroup x.gid g).modCore core fun c => { c with rbFifo := c.rbFifo.drop 1 }).modSplit x.gid x.sid fun sp =>
    { sp with park := if dr then .drain else .no }

theorem State.group_grantRegs (s : State) (core : Nat) (x : Ex) (g : Group) (dr : Bool) :
    (s.grantRegs core x g dr).group x.gid =
      some { g with splits := g.splits.modify x.sid fun sp => { sp with park := if dr then .drain else .no } } := by
  have hg : ((s.setGroup x.gid g).modCore core fun c => { c with rbFifo := c.rbFifo.drop 1 }).group x.gid = some g :=
    State.group_setGroup s x.gid g
  exact (State.group_modGroup _ _ _).trans (by rw [hg]; rfl)

theorem State.rbFifo_grantRegs (s : State) (core : Nat) (x : Ex) (g : Group) (dr : Bool) :
    ((s.grantRegs core x g dr).core core).rbFifo = (s.core core).rbFifo.drop 1 :=
  congrArg Core.rbFifo (State.core_modCore (s.setGroup x.gid g) core fun c => { c with rbFifo := c.rbFifo.drop 1 })

section
variable {s : State} {core t : Nat} {x : Ex} {d : Option Nat} {dr : Bool} (h : s.rbHead core = some (x, t, d, dr))
include h

theorem execRegisterBlockGrant_waits (hroom : ¬ s.regBytes core + blockBytes x.g.width (t - x.g.rblk) ≤ (s.core core).poolb0 * 8192) :
    execRegisterBlockGrant core s = .next s := by
  obtain ⟨r, rest, hfifo⟩ := State.rbFifo_of_rbHead h
  simp only [execRegisterBlockGrant, hfifo, h, if_pos (Nat.lt_of_not_le hroom)]

theorem execRegisterBlockGrant_grants (hroom : s.regBytes core + blockBytes x.g.width (t - x.g.rblk) ≤ (s.core core).poolb0 * 8192) :
    execRegisterBlockGrant core s = .next (s.grantRegs core x (x.g.granted (max t x.g.rblk) d) dr) := by
  obtain ⟨r, rest, hfifo⟩ := State.rbFifo_of_rbHead h
  simp only [execRegisterBlockGrant, hfifo, h, if_neg (Nat.not_lt_of_le hroom)]
  rfl

end

/-! ### The statement -/

/-- Settles O21: the three ends of RGROW and of RSHRINK within their range, and the grant. -/
theorem registerBlocks : Obligations.RegisterBlocks := by
  refine ⟨fun s x o hx => registerBlocks_badOperands hx, fun s x o hx hq hd ha => ?instructions, fun s core x t d dr h => ?grant⟩
  case instructions =>
    refine ⟨registerBlocks_outOfRange hx hq hd ha, fun hlo hhi hn => ?_, fun hhi hn hall => ?_, fun hhi hn hall => ?_,
      fun hlo hhi hn hvl => ?_, fun hlo hhi hn hvl => ?_, fun hhi hlo hn => ?_⟩
    · exact (execRgrow_inRange hx hq hd ha hlo hhi).trans (by rw [if_pos hn])
    · exact (execRgrow_inRange hx hq hd ha (Nat.zero_lt_of_lt hn) hhi).trans (by rw [if_neg (Nat.not_le_of_lt hn), hall]; rfl)
    · exact (execRgrow_inRange hx hq hd ha (Nat.zero_lt_of_lt hn) hhi).trans (by rw [if_neg (Nat.not_le_of_lt hn), hall]; rfl)
    · exact (execRshrink_inRange hx hq hd ha hlo hhi).trans (by simp [hn, hvl])
    · exact (execRshrink_inRange hx hq hd ha hlo hhi).trans (by simp [hn, hvl, Group.shrink])
    · exact (execRshrink_inRange hx hq hd ha hlo hhi).trans (by simp [Nat.not_lt_of_le hn])
  case grant =>
    obtain ⟨hblk, hv, hm⟩ := x.g.granted_leaves (max t x.g.rblk) d
    exact ⟨execRegisterBlockGrant_waits h, fun hroom => ⟨_, _, execRegisterBlockGrant_grants h hroom,
      s.group_grantRegs core x _ dr, hblk, hv, hm, s.rbFifo_grantRegs core x _ dr, rfl⟩⟩

end Sys2Proof.Machine
end

section
/-! Settles O44 (TilesAndMatrixUnit): the instructions on descriptors, codebooks, scales and tiles, and the matrix unit that teams
ask for, leave and are granted (R176, R177, R261, R265–R268, R277, R278). -/

namespace Sys2Proof

/-! ### Tables and folds -/

/-- A filter on keys keeps the value of a key that it keeps, and drops the others. -/
theorem KV.find_filter {α : Type} (p : Nat → Bool) (m : KV α) (k : Nat) :
    KV.find (List.filter (fun e => p e.1) m) k = if p k then m.find k else none := by
  induction m with
  | nil => simp
  | cons e t ih =>
    obtain ⟨j, v⟩ := e
    by_cases hp : p j = true <;> by_cases hk : k = j <;> simp_all [KV.find]

/-- What no part of a list of changes touches stands. -/
theorem foldl_keeps {σ α β : Type} (f : σ → α → σ) (read : σ → β) {l : List α} (h : ∀ a ∈ l, ∀ s, read (f s a) = read s) (s : σ) :
    read (l.foldl f s) = read s := by
  induction l generalizing s with
  | nil => rfl
  | cons a l ih =>
    obtain ⟨ha, hl⟩ := List.forall_mem_cons.1 h
    exact (ih hl _).trans (ha s)

/-- What one part of a list of changes writes, and no other touches, holds what is written. -/
theorem foldl_writes {σ α β : Type} (f : σ → α → σ) (read : σ → β) {l : List α} {a : α} {v : β} (ha : a ∈ l)
    (hw : ∀ s, read (f s a) = v) (hk : ∀ b ∈ l, b ≠ a → ∀ s, read (f s b) = read s) (s : σ) : read (l.foldl f s) = v := by
  induction l generalizing s with
  | nil => cases ha
  | cons b l ih =>
    obtain ⟨-, hl⟩ := List.forall_mem_cons.1 hk
    by_cases hmem : a ∈ l
    · exact ih hmem hl _
    · obtain rfl : a = b := (List.mem_cons.1 ha).resolve_right hmem
      exact (foldl_keeps f read (fun c hc => hl c hc fun he => hmem (he ▸ hc)) _).trans (hw s)

/-- A field of a word as a number. -/
theorem toNat_field {w : Nat} (v : BitVec w) (lo n : Nat) : (v.extractLsb' lo n).toNat = v.toNat / 2 ^ lo % 2 ^ n := by
  rw [BitVec.extractLsb'_toNat, Nat.shiftRight_eq_div_pow]

theorem toNat_low {w : Nat} (v : BitVec w) (n : Nat) : (v.extractLsb' 0 n).toNat = v.toNat % 2 ^ n := by
  rw [toNat_field, Nat.pow_zero, Nat.div_one]

namespace Machine

theorem bits_low (v : Dword) (hi : Nat) : bits v hi 0 = v.toNat % 2 ^ (hi + 1) := by
  rw [bits, toNat_low, Nat.sub_zero]

/-! ### Descriptors and codebooks (R266, R267) -/

section
variable {s : State} {x : Ex} {o : EOps} (hx : s.ex? = some x) (hq : x.g.isQueue = false)
include hx hq

section
variable (hm : o.minor.getLsbD 0 = true)
include hm

theorem execFbld_badReads (hne : o.d ≠ 0xF0) (hb : isScalar o.d = false ∨ o.d.getLsbD 0 = true) :
    execFbld o s = .next (s.illegal x) := by
  have hbad : (o.d != 0xF0 && (!isScalar o.d || o.d.getLsbD 0)) = true := by
    rw [bne_iff_ne.2 hne, Bool.true_and]
    simpa using hb
  exact (kernelOnly_group hx _ hq).trans (by rw [if_pos hm, if_pos hbad])

theorem execFbld_reads (hd : o.d = 0xF0 ∨ (isScalar o.d = true ∧ o.d.getLsbD 0 = false)) :
    execFbld o s = .next ((s.setGroup x.gid (x.g.writeDst true o.d 0 (x.g.readF o.a.toNat))).finish x) := by
  have hgood : ¬ (o.d != 0xF0 && (!isScalar o.d || o.d.getLsbD 0)) = true := by
    rcases hd with hd | ⟨hs, he⟩
    · simp [hd]
    · rw [hs, he, Bool.not_true, Bool.or_self, Bool.and_false]
      exact Bool.false_ne_true
  exact (kernelOnly_group hx _ hq).trans (by rw [if_pos hm, if_neg hgood])

end

theorem execFbld_badWrites (hm : o.minor.getLsbD 0 = false) (ha : badUniform x.g .i64 o.a = true) :
    execFbld o s = .next (s.illegal x) :=
  (kernelOnly_group hx _ hq).trans (by rw [hm, if_pos ha]; rfl)

theorem execFbld_writes (hm : o.minor.getLsbD 0 = false) (ha : badUniform x.g .i64 o.a = false) :
    execFbld o s = .next ((s.setGroup x.gid (x.g.writeF o.d.toNat (s.readUni x o.lit .i64 o.a))).finish x) :=
  (kernelOnly_group hx _ hq).trans (by rw [hm, ha]; rfl)

end

theorem Group.readF_writeF (g : Group) (n k : Nat) (v : Dword) : (g.writeF n v).readF k = if k = n then v else g.readF k := by
  split
  · next h => rw [h, Group.readF_writeF_self]
  · next h => exact KV.get_put_ne 0 g.f v h

theorem Core.codebook_loadCodebook (c : Core) (slot ctx : Nat) (bs : List Byte) :
    (c.loadCodebook slot ctx bs).codebook ctx slot =
      some ((List.range 16).map fun k => BitVec.ofNat 16 (bytesToNat ((bs.drop (2 * k)).take 2))) := by
  simp [Core.codebook, Core.loadCodebook]

/-- The state in which CBLD has loaded its slot. -/
def State.loadsBook (s : State) (x : Ex) (slot : Nat) (bs : List Byte) : State :=
  (s.modCore x.g.core fun c => c.loadCodebook slot x.g.ctx bs).finish x

section
variable {s : State} {x : Ex} {o : EOps} (hx : s.ex? = some x) (hq : x.g.isQueue = false)
include hx hq

section
variable (hm : o.minor.getLsbD 0 = true) {a : Nat} (ha : (s.readUni x o.lit .w32 o.a).toNat = a)
include hm ha

theorem execCbld_badLocal (hb : badUniform x.g .w32 o.a = true ∨ ¬ (a % 32 = 0 ∧ a < 2 ^ 31 ∧ a + 32 ≤ s.lsBytesOf x.g)) :
    execCbld o s = .next (s.illegal x) := by
  subst ha
  refine (kernelOnly_group hx _ hq).trans ?_
  rw [if_pos hm]
  by_cases hu : badUniform x.g .w32 o.a = true
  · rw [if_pos hu]
  · rw [if_neg hu, if_pos]
    simp only [Bool.or_eq_true, decide_eq_true_eq]
    have := hb.resolve_left hu
    omega

theorem execCbld_local (hu : badUniform x.g .w32 o.a = false) (hf : a % 32 = 0 ∧ a < 2 ^ 31 ∧ a + 32 ≤ s.lsBytesOf x.g)
    (hl : s.localLocked x.g ⟨x.g.blk, a, false⟩ 32 false = false) :
    execCbld o s = .next (s.loadsBook x (o.minor.toNat / 256 % 16) (s.lsRead x.g.blk a 32)) := by
  subst ha
  refine (kernelOnly_group hx _ hq).trans ?_
  rw [if_pos hm, hu, if_neg Bool.false_ne_true, if_neg, hl]
  · rw [toNat_field]
    rfl
  · simp only [Bool.or_eq_true, decide_eq_true_eq]
    omega

end

section
variable (hm : o.minor.getLsbD 0 = false) {va : Nat} (ha : (s.readUni x o.lit .i64 o.a).toNat % 2 ^ 52 = va)
include hm ha

theorem execCbld_badGlobal (hb : badUniform x.g .i64 o.a = true ∨ va % 32 ≠ 0) : execCbld o s = .next (s.illegal x) := by
  subst ha
  refine (kernelOnly_group hx _ hq).trans ?_
  rw [hm, if_neg Bool.false_ne_true, bits_low]
  by_cases hu : badUniform x.g .i64 o.a = true
  · rw [if_pos hu]
  · rw [if_neg hu, if_pos (hb.resolve_left hu)]

theorem execCbld_global (hu : badUniform x.g .i64 o.a = false) (hf : va % 32 = 0) (hl : s.globalLocked x.g va 32 false = false)
    {bs : List Byte} {u : State} (hr : s.engineRead (s.who x.g) va 32 (some false) = .ok (bs, u)) :
    execCbld o s = .next (u.loadsBook x (o.minor.toNat / 256 % 16) bs) := by
  subst ha
  refine (kernelOnly_group hx _ hq).trans ?_
  rw [hm, if_neg Bool.false_ne_true, bits_low, hu, if_neg Bool.false_ne_true, if_neg (not_not.2 hf), hl, if_neg Bool.false_ne_true, hr,
    toNat_field]
  rfl

end

/-! ### Scales (R268) -/

theorem execScpf_drops (hm : o.minor.getLsbD 15 = true) : execScpf o s = .next ((s.modCore x.g.core fun c =>
    { c with scc := c.scc.filter fun e => !(e.ctx == x.g.ctx && e.tid == o.minor.toNat % 4096) }).finish x) := by
  refine (kernelOnly_group hx _ hq).trans ?_
  rw [if_pos hm, toNat_low]
  rfl

section
variable (hm : o.minor.getLsbD 15 = false) {n : Nat} (hn : (s.readUni x o.lit .w32 o.b).toNat = n)
include hm hn

theorem execScpf_bad (hb : badUniform x.g .w32 o.a = true ∨ badUniform x.g .w32 o.b = true ∨ n = 0 ∨ 4096 < n) :
    execScpf o s = .next (s.illegal x) := by
  subst hn
  refine (kernelOnly_group hx _ hq).trans ?_
  rw [hm, if_neg Bool.false_ne_true]
  by_cases hu : (badUniform x.g .w32 o.a || badUniform x.g .w32 o.b) = true
  · rw [if_pos hu]
  · rw [if_neg hu]
    rw [Bool.or_eq_true, not_or] at hu
    rw [if_pos (by simpa using (hb.resolve_left hu.1).resolve_left hu.2)]

theorem execScpf_fetches (hb : ¬ (badUniform x.g .w32 o.a = true ∨ badUniform x.g .w32 o.b = true ∨ n = 0 ∨ 4096 < n)) :
    execScpf o s = .next ((s.prefetch (s.who x.g) x.g.core (o.minor.toNat % 4096)
      (((List.range n).map fun k => ((s.readUni x o.lit .w32 o.a).toNat % 2 ^ 24 + k) % 2 ^ 24 / 16).eraseDups)).finish x) := by
  subst hn
  simp only [not_or, Bool.not_eq_true] at hb
  obtain ⟨ha, hb, hz, hmax⟩ := hb
  refine (kernelOnly_group hx _ hq).trans ?_
  rw [hm, if_neg Bool.false_ne_true, ha, hb, if_neg (by decide), if_neg (by simpa using ⟨hz, Nat.le_of_not_lt hmax⟩), toNat_low]
  rfl

end

end

/-! ### ACLR and ASATR (R277) -/

/-- Clearing a tile clears its elements alone. -/
theorem Core.tile_clearTile (c : Core) {quad t q k m n : Nat} (ht : t < 8) (hk : k < 8) (hm : m < 16) (hn : n < 16) :
    (c.clearTile quad t).tile q k m n = if q = quad ∧ k = t then 0 else c.tile q k m n := by
  have hfind := KV.find_filter (fun e => !(decide (2048 * quad + 256 * t ≤ e) && decide (e < 2048 * quad + 256 * t + 256)))
    c.tiles (2048 * q + 256 * k + 16 * m + n)
  refine (congrArg (·.getD 0) hfind).trans ?_
  by_cases hin : q = quad ∧ k = t
  · rw [if_pos hin, if_neg (by simp; omega)]
    rfl
  · rw [if_neg hin, if_pos (by simp; omega)]
    rfl

/-- Clearing several tiles. -/
theorem Core.tile_clearTiles (c : Core) {ts : List Nat} {quad q k m n : Nat} (hts : ∀ t ∈ ts, t < 8) (hk : k < 8) (hm : m < 16)
    (hn : n < 16) :
    (ts.foldl (fun c t => c.clearTile quad t) c).tile q k m n = if q = quad ∧ k ∈ ts then 0 else c.tile q k m n := by
  by_cases hin : q = quad ∧ k ∈ ts
  · obtain ⟨hq, hmem⟩ := hin
    rw [if_pos ⟨hq, hmem⟩]
    refine foldl_writes _ (fun c : Core => c.tile q k m n) hmem (fun c => ?_) (fun t ht hne c => ?_) c
    · exact (c.tile_clearTile hk hk hm hn).trans (if_pos ⟨hq, rfl⟩)
    · refine (c.tile_clearTile (hts t ht) hk hm hn).trans (if_neg ?_)
      rintro ⟨-, rfl⟩
      exact hne rfl
  · rw [if_neg hin]
    refine foldl_keeps _ (fun c : Core => c.tile q k m n) (fun t ht c => ?_) c
    refine (c.tile_clearTile (hts t ht) hk hm hn).trans (if_neg ?_)
    rintro ⟨hq, rfl⟩
    exact hin ⟨hq, ht⟩

section
variable {s : State} {x : Ex} {o : EOps} (hx : s.ex? = some x) (hq : x.g.isQueue = false)
include hx hq

theorem tiles_notOwned (ho : s.owns x = false) :
    execAclr o s = .next (s.illegal x) ∧ execAsatr o s = .next (s.illegal x) ∧ execAmov o s = .next (s.illegal x) :=
  ⟨(kernelOnly_group hx _ hq).trans (by rw [ho]; rfl), (kernelOnly_group hx _ hq).trans (by rw [ho]; rfl),
    (kernelOnly_group hx _ hq).trans (by rw [ho]; rfl)⟩

theorem execAclr_clears (ho : s.owns x = true) : execAclr o s = .next ((s.modCore x.g.core fun c =>
    ((List.range 8).filter fun t => o.minor.getLsbD (8 + t)).foldl (fun c t => c.clearTile x.g.quad t) c).finish x) :=
  (kernelOnly_group hx _ hq).trans (by rw [ho]; rfl)

theorem execAsatr_bad (hb : badDst x.g false o.d = true) : execAsatr o s = .next (s.illegal x) :=
  (kernelOnly_group hx _ hq).trans (by rw [hb, Bool.or_true]; rfl)

theorem execAsatr_reads (ho : s.owns x = true) (hb : badDst x.g false o.d = false) : execAsatr o s = .next (
    let t := o.a.toNat % 8
    let u := s.modGroup x.gid fun g => g.writeOnce x o.d (((s.core x.g.core).satcntOf x.g.quad t).setWidth 64)
    (if o.minor.getLsbD 1 then u.modCore x.g.core fun c => c.clearSat x.g.quad t else u).finish x) :=
  (kernelOnly_group hx _ hq).trans (by rw [ho, hb]; rfl)

end

/-! ### AMOV (R278) -/

/-- The lanes and rows of registers that AMOV moves, eight for each lane. -/
def movePlaces : List (Nat × Nat) := (List.range 32).flatMap fun l => (List.range 8).map fun i => (l, i)

theorem mem_movePlaces {p : Nat × Nat} : p ∈ movePlaces ↔ p.1 < 32 ∧ p.2 < 8 := by
  obtain ⟨l, i⟩ := p
  simp [movePlaces]

/-- Each place of a move has an element of its own. -/
theorem movePlaces_distinct {p : Nat × Nat} (hp : p ∈ movePlaces) {l i : Nat} (hi : i < 8) (hne : p ≠ (l, i)) :
    l % 16 ≠ p.1 % 16 ∨ 8 * (l / 16) + i ≠ 8 * (p.1 / 16) + p.2 := by
  obtain ⟨-, hpi⟩ := mem_movePlaces.1 hp
  have : ¬ (p.1 = l ∧ p.2 = i) := fun h => hne (Prod.ext h.1 h.2)
  omega

/-- The value of a register, or of a pair of them, as an element of a tile. -/
def Group.regVal (g : Group) (wide : Bool) (v l i : Nat) : Dword :=
  if wide then g.readV64 (v + 2 * i) l else (g.readV (v + i) l).setWidth 64

/-- A core whose tile holds a group's registers. -/
def Core.takeRegs (c : Core) (g : Group) (wide : Bool) (q v t : Nat) : Core :=
  movePlaces.foldl (fun c p => c.setTileVal wide q t (p.1 % 16) (8 * (p.1 / 16) + p.2) (g.regVal wide v p.1 p.2)) c

/-- A group one of whose registers, or a pair, holds a value. -/
def Group.putRegVal (g : Group) (wide : Bool) (v l i : Nat) (d : Dword) : Group :=
  if wide then g.writeV64 (v + 2 * i) l d else g.writeV (v + i) l (d.setWidth 32)

/-- A group whose registers hold a core's tile. -/
def Group.takeTile (g : Group) (c : Core) (wide : Bool) (q v t : Nat) : Group :=
  movePlaces.foldl (fun g p => g.putRegVal wide v p.1 p.2 (c.tileVal wide q t (p.1 % 16) (8 * (p.1 / 16) + p.2))) g

theorem Group.heldBits_regVal (g : Group) (wide : Bool) (v l i : Nat) : heldBits wide (g.regVal wide v l i) = g.regVal wide v l i := by
  cases wide with
  | true => rfl
  | false => simp [heldBits, Group.regVal]

theorem Core.heldBits_tileVal (c : Core) (wide : Bool) (q t m n : Nat) : heldBits wide (c.tileVal wide q t m n) = c.tileVal wide q t m n := by
  cases wide with
  | true => rfl
  | false => simp [heldBits, Core.tileVal]

theorem Core.tileVal_takeRegs (c : Core) (g : Group) {wide : Bool} {q v t l i : Nat} (ht : t < 8) (hw : wide = true → t % 2 = 0)
    (hl : l < 32) (hi : i < 8) :
    (c.takeRegs g wide q v t).tileVal wide q t (l % 16) (8 * (l / 16) + i) = g.regVal wide v l i := by
  refine foldl_writes _ (fun c : Core => c.tileVal wide q t (l % 16) (8 * (l / 16) + i)) (a := (l, i))
    (mem_movePlaces.2 ⟨hl, hi⟩) (fun c => ?_) (fun p hp hne c => ?_) c
  · exact (c.tileVal_setTileVal_self _ ht hw (by omega) (by omega)).trans (g.heldBits_regVal wide v l i)
  · obtain ⟨hpl, hpi⟩ := mem_movePlaces.1 hp
    exact c.tileVal_setTileVal_ne _ ht hw (by omega) (by omega) (by omega) (by omega) (movePlaces_distinct hp hi hne)

theorem Group.readV64_writeV64_self (g : Group) {l : Nat} (n : Nat) (d : Dword) (hl : l < 64) :
    (g.writeV64 n l d).readV64 n l = d := by
  rw [Group.readV64, Group.writeV64, Group.readV_writeV_self, Group.readV_writeV_ne _ _ hl hl (.inl (by omega)),
    Group.readV_writeV_self, Laws.words]

theorem Group.readV64_writeV64_ne (g : Group) {n l n' l' : Nat} (d : Dword) (hl : l < 64) (hl' : l' < 64)
    (hne : l' ≠ l ∨ n' + 1 < n ∨ n + 1 < n') : (g.writeV64 n l d).readV64 n' l' = g.readV64 n' l' := by
  rw [Group.readV64, Group.writeV64, Group.readV_writeV_ne _ _ hl hl' (by omega), Group.readV_writeV_ne _ _ hl hl' (by omega),
    Group.readV_writeV_ne _ _ hl hl' (by omega), Group.readV_writeV_ne _ _ hl hl' (by omega)]
  rfl

theorem Group.regVal_putRegVal_self (g : Group) {wide : Bool} {v l i : Nat} {d : Dword} (hl : l < 64) :
    (g.putRegVal wide v l i d).regVal wide v l i = heldBits wide d := by
  cases wide with
  | false => exact congrArg (BitVec.setWidth 64) (g.readV_writeV_self (v + i) l (d.setWidth 32))
  | true => exact g.readV64_writeV64_self (v + 2 * i) d hl

theorem Group.regVal_putRegVal_ne (g : Group) {wide : Bool} {v l i l' i' : Nat} (d : Dword) (hl : l < 64) (hl' : l' < 64)
    (hne : ¬ (l' = l ∧ i' = i)) : (g.putRegVal wide v l i d).regVal wide v l' i' = g.regVal wide v l' i' := by
  cases wide with
  | false => exact congrArg (BitVec.setWidth 64) (g.readV_writeV_ne (n := v + i) (k := v + i') _ hl hl' (by omega))
  | true => exact g.readV64_writeV64_ne (n := v + 2 * i) (n' := v + 2 * i') d hl hl' (by omega)

theorem Group.regVal_takeTile (g : Group) (c : Core) {wide : Bool} {q v t l i : Nat} (hl : l < 32) (hi : i < 8) :
    (g.takeTile c wide q v t).regVal wide v l i = c.tileVal wide q t (l % 16) (8 * (l / 16) + i) := by
  refine foldl_writes _ (fun g : Group => g.regVal wide v l i) (a := (l, i))
    (mem_movePlaces.2 ⟨hl, hi⟩) (fun g => ?_) (fun p hp hne g => ?_) g
  · exact (g.regVal_putRegVal_self (by omega)).trans (c.heldBits_tileVal wide q t _ _)
  · obtain ⟨hpl, -⟩ := mem_movePlaces.1 hp
    exact g.regVal_putRegVal_ne _ (by omega) (by omega) fun h => hne (Prod.ext h.1.symm h.2.symm)

/-- Taking a tile changes vector registers only. -/
theorem Group.takeTile_frame (g : Group) (c : Core) (wide : Bool) (q v t : Nat) :
    g.takeTile c wide q v t = { g with v := (g.takeTile c wide q v t).v } := by
  have hrest : { g.takeTile c wide q v t with v := [] } = { g with v := [] } := by
    refine foldl_keeps _ (fun h : Group => { h with v := [] }) (fun p _ h => ?_) g
    unfold Group.putRegVal
    split <;> rfl
  calc g.takeTile c wide q v t
    _ = { { g.takeTile c wide q v t with v := [] } with v := (g.takeTile c wide q v t).v } := rfl
    _ = { g with v := (g.takeTile c wide q v t).v } := by rw [hrest]

/-- Whether AMOV moves from registers into a tile. -/
abbrev movesInto (o : EOps) : Bool := o.minor.getLsbD 0
/-- Whether AMOV moves a pair of tiles. -/
abbrev movesPair (o : EOps) : Bool := o.minor.getLsbD 1
/-- The first register of AMOV. -/
abbrev moveReg (o : EOps) : BitVec 8 := if movesInto o then o.a else o.d
/-- The tile of AMOV. -/
abbrev moveTile (o : EOps) : Nat := (if movesInto o then o.d else o.a).toNat % 8

/-- The tiles that AMOV may name. -/
def tilesFit (x : Ex) (o : EOps) : Prop := x.g.width = 32 ∧ ¬ (movesPair o = true ∧ moveTile o % 2 = 1)
/-- The registers that AMOV may name. -/
def moveRegsFit (x : Ex) (o : EOps) : Prop :=
  (moveReg o).toNat < 192 ∧ (moveReg o).toNat % 8 = 0 ∧ (moveReg o).toNat + (if movesPair o then 16 else 8) ≤ 8 * x.g.rblk
/-- AMOV without a destination. -/
def moveDrops (o : EOps) : Prop := movesInto o = false ∧ (moveReg o).toNat = 0xF0

theorem tilesFit.moveTile_even {x : Ex} {o : EOps} (ht : tilesFit x o) (hw : movesPair o = true) : moveTile o % 2 = 0 := by
  have := not_and.1 ht.2 hw
  omega

theorem moveDrops_iff (o : EOps) : (!movesInto o && moveReg o == 0xF0) = true ↔ moveDrops o := by
  simp only [moveDrops, Bool.and_eq_true, Bool.not_eq_true', beq_iff_eq, BitVec.toNat_eq]
  rfl

theorem not_tilesFit_iff (s : State) (x : Ex) (o : EOps) (ho : s.owns x = true) :
    (!s.owns x || decide (x.g.width ≠ 32) || (movesPair o && decide (moveTile o % 2 = 1))) = true ↔ ¬ tilesFit x o := by
  rw [ho]
  simp [tilesFit]
  tauto

theorem not_moveRegsFit_iff (x : Ex) (o : EOps) :
    (!isVec (moveReg o) || decide ((moveReg o).toNat % 8 ≠ 0) ||
      decide (8 * x.g.rblk < (moveReg o).toNat + if movesPair o then 16 else 8)) = true ↔ ¬ moveRegsFit x o := by
  simp only [moveRegsFit, isVec, Bool.or_eq_true, Bool.not_eq_true', decide_eq_true_eq, decide_eq_false_iff_not]
  omega

section
variable {s : State} {x : Ex} {o : EOps} (hx : s.ex? = some x) (hq : x.g.isQueue = false) (ho : s.owns x = true)
include hx hq ho

theorem execAmov_bad (hb : ¬ tilesFit x o ∨ (¬ moveDrops o ∧ ¬ (tilesFit x o ∧ moveRegsFit x o))) : execAmov o s = .next (s.illegal x) := by
  refine (kernelOnly_group hx _ hq).trans (congrArg _ ?_)
  by_cases ht : tilesFit x o
  · obtain ⟨hd, hr⟩ := hb.resolve_left (not_not.2 ht)
    exact (if_neg (mt (not_tilesFit_iff s x o ho).1 (not_not.2 ht))).trans
      ((if_neg (mt (moveDrops_iff o).1 hd)).trans (if_pos ((not_moveRegsFit_iff x o).2 fun h => hr ⟨ht, h⟩)))
  · exact if_pos ((not_tilesFit_iff s x o ho).2 ht)

variable (ht : tilesFit x o)
include ht

theorem execAmov_drops (hd : moveDrops o) : execAmov o s = .next (s.finish x) :=
  (kernelOnly_group hx _ hq).trans (congrArg _
    ((if_neg (mt (not_tilesFit_iff s x o ho).1 (not_not.2 ht))).trans (if_pos ((moveDrops_iff o).2 hd))))

/-- AMOV of tiles and registers that it may name. -/
theorem execAmov_moves (hr : moveRegsFit x o) : execAmov o s = .next (
    if movesInto o then
      (s.modCore x.g.core fun c => c.takeRegs x.g (movesPair o) x.g.quad (moveReg o).toNat (moveTile o)).finish x
    else (s.modGroup x.gid fun g => g.takeTile (s.core x.g.core) (movesPair o) x.g.quad (moveReg o).toNat (moveTile o)).finish x) := by
  have hd : ¬ moveDrops o := fun hd => by have := hd.2; have := hr.1; omega
  exact (kernelOnly_group hx _ hq).trans (congrArg _ ((if_neg (mt (not_tilesFit_iff s x o ho).1 (not_not.2 ht))).trans
    ((if_neg (mt (moveDrops_iff o).1 hd)).trans (if_neg (mt (not_moveRegsFit_iff x o).1 (not_not.2 hr))))))

end

/-! ### MACQ and MREL (R177, R265) -/

/-- The teams of a core once a member of one has asked for the unit. -/
def askedTeams (ts : List Team) (blk num : Nat) : List Team :=
  ts.map fun t => if t.has blk num && !t.arrived.contains num then { t with arrived := t.arrived ++ [num] } else t

theorem arrived_of_askedTeams {ts : List Team} {blk num : Nat} {m : Team} (hm : m ∈ askedTeams ts blk num)
    (hh : m.has blk num = true) : num ∈ m.arrived := by
  obtain ⟨t, -, rfl⟩ := List.mem_map.1 hm
  split at hh
  · next hc =>
    rw [if_pos hc]
    simp
  · next hc =>
    rw [if_neg hc]
    simpa [hh] using hc

section
variable {s : State} {x : Ex} {o : EOps} (hx : s.ex? = some x) (hq : x.g.isQueue = false)
include hx hq

theorem execMrel_leaves : execMrel o s = .next (((s.modCore x.g.core fun k =>
    { k with owner := k.owner.map fun t => t.leave x.g.blk x.g.num }).freeUnit x.g.core).finish x) := kernelOnly_group hx _ hq

variable {mask : BitVec 32} (hmask : (s.readUni x o.lit .w32 o.a).setWidth 32 = mask)
include hmask

theorem execMacq_bad (hb : badUniform x.g .w32 o.a = true ∨ s.badTeam x mask = true) : execMacq o s = .next (s.illegal x) := by
  subst hmask
  refine (kernelOnly_group hx _ hq).trans ?_
  by_cases hu : badUniform x.g .w32 o.a = true
  · rw [if_pos hu]
  · rw [if_neg hu, if_pos (hb.resolve_left hu)]

variable (hb : ¬ (badUniform x.g .w32 o.a = true ∨ s.badTeam x mask = true))
include hb

theorem execMacq_owner {t : Team} (ho : (s.core x.g.core).owner = some t) (hm : t.has x.g.blk x.g.num = true) :
    execMacq o s = .next (s.finish x) := by
  subst hmask
  obtain ⟨hu, hbad⟩ := not_or.1 hb
  refine (kernelOnly_group hx _ hq).trans ?_
  rw [if_neg hu, if_neg hbad]
  simp only [ho, hm, if_true]

variable (ho : ∀ t, (s.core x.g.core).owner = some t → t.has x.g.blk x.g.num = false)
include ho

/-- A request of a group whose team does not own the unit. -/
theorem execMacq_asks : execMacq o s = .next ((s.modCore x.g.core fun c => { c with teams :=
      if ((s.core x.g.core).teams.any fun t => t.has x.g.blk x.g.num) then askedTeams (s.core x.g.core).teams x.g.blk x.g.num
      else (s.core x.g.core).teams ++ [⟨x.g.blk, mask, [x.g.num], []⟩] }).park x .matrix) := by
  subst hmask
  obtain ⟨hu, hbad⟩ := not_or.1 hb
  refine (kernelOnly_group hx _ hq).trans ?_
  rw [if_neg hu, if_neg hbad]
  cases hown : (s.core x.g.core).owner with
  | none => rfl
  | some t =>
    simp only [ho t hown]
    rfl

theorem execMacq_asksFirst (hnew : ((s.core x.g.core).teams.any fun t => t.has x.g.blk x.g.num) = false) :
    execMacq o s = .next ((s.modCore x.g.core fun c => { c with teams := c.teams ++ [⟨x.g.blk, mask, [x.g.num], []⟩] }).park x
      .matrix) := by
  rw [execMacq_asks hx hq hmask hb ho, hnew]
  rfl

theorem execMacq_asksAgain (hold : ((s.core x.g.core).teams.any fun t => t.has x.g.blk x.g.num) = true) :
    execMacq o s = .next ((s.modCore x.g.core fun c => { c with teams := askedTeams c.teams x.g.blk x.g.num }).park x .matrix) := by
  rw [execMacq_asks hx hq hmask hb ho, hold]
  rfl

end

theorem State.park_core (s : State) (x : Ex) (p : Park) (n : Nat) : (s.park x p).core n = s.core n := rfl

/-! ### MATRIX_UNIT_GRANT (R177) -/

/-- `t` has a core's owner and teams, the block of its tiles, and memory as `s` has them. -/
structure UnitKept (core : Nat) (s t : State) : Prop where
  owner : (t.core core).owner = (s.core core).owner
  teams : (t.core core).teams = (s.core core).teams
  tileBlk : (t.core core).tileBlk = (s.core core).tileBlk
  mem : t.mem = s.mem

namespace UnitKept

variable {core : Nat} {s t u : State}

theorem refl (core : Nat) (s : State) : UnitKept core s s := ⟨rfl, rfl, rfl, rfl⟩

theorem trans (h : UnitKept core s t) (k : UnitKept core t u) : UnitKept core s u :=
  ⟨k.owner.trans h.owner, k.teams.trans h.teams, k.tileBlk.trans h.tileBlk, k.mem.trans h.mem⟩

theorem foldl {α : Type} {f : State → α → State} (hf : ∀ s a, UnitKept core s (f s a)) (l : List α) (s : State) :
    UnitKept core s (l.foldl f s) := by
  induction l generalizing s with
  | nil => exact refl core s
  | cons a l ih => exact (hf s a).trans (ih _)

theorem advance (core : Nat) (s : State) (gid sid : Nat) : UnitKept core s (s.advance gid sid) := by
  unfold State.advance
  split
  · exact refl core s
  · exact ⟨rfl, rfl, rfl, rfl⟩

theorem regain (core : Nat) (s : State) (gid : Nat) (g : Group) : UnitKept core s (s.regain core gid g) := by
  unfold State.regain
  split
  · exact refl core s
  · have hcore (f : Core → Core) (h : Group → Group) : ((s.modCore core f).modGroup gid h).core core = f (s.core core) :=
      State.core_modCore s core f
    exact ⟨by rw [hcore], by rw [hcore], by rw [hcore], rfl⟩

end UnitKept

theorem State.freeUnit_mem (s : State) (core : Nat) : (s.freeUnit core).mem = s.mem := by
  unfold State.freeUnit
  split
  · split <;> rfl
  · rfl

/-- A core's unit in the hands of the team at the head. -/
def Core.granted (c : Core) (t : Team) (rest : List Team) : Core :=
  if c.tileBlk = some t.blk then { c with owner := some t, teams := rest }
  else { { c with owner := some t, teams := rest }.clearTiles with tileBlk := some t.blk }

theorem Core.granted_leaves (c : Core) (t : Team) (rest : List Team) :
    (c.granted t rest).owner = some t ∧ (c.granted t rest).teams = rest ∧ (c.granted t rest).tileBlk = some t.blk := by
  unfold Core.granted
  split
  · next h => exact ⟨rfl, rfl, h⟩
  · exact ⟨rfl, rfl, rfl⟩

section
variable {s : State} {core : Nat}

theorem execMatrixUnitGrant_owned (h : ((s.freeUnit core).core core).owner ≠ none) :
    execMatrixUnitGrant core s = .next (s.freeUnit core) := by
  obtain ⟨t, ht⟩ := Option.ne_none_iff_exists'.1 h
  simp only [execMatrixUnitGrant, ht]

theorem execMatrixUnitGrant_unasked (h : ((s.freeUnit core).core core).teams = []) :
    execMatrixUnitGrant core s = .next (s.freeUnit core) := by
  simp only [execMatrixUnitGrant, h]
  split
  · next hteams => cases hteams
  · rfl

variable {t : Team} {rest : List Team} (hown : ((s.freeUnit core).core core).owner = none)
  (hteams : ((s.freeUnit core).core core).teams = t :: rest)
include hown hteams

theorem execMatrixUnitGrant_waits (h : ¬ ∀ n ∈ t.members, n ∈ t.arrived ∧ (s.freeUnit core).memberHere t n = true) :
    execMatrixUnitGrant core s = .next (s.freeUnit core) := by
  have hmissing : (t.members.all fun n => t.arrived.contains n && (s.freeUnit core).memberHere t n) = false := by
    rw [Bool.eq_false_iff]
    simpa using h
  simp only [execMatrixUnitGrant, hown, hteams, hmissing]
  rfl

theorem execMatrixUnitGrant_passes (h : ∀ n ∈ t.members, n ∈ t.arrived ∧ (s.freeUnit core).memberHere t n = true) :
    ∃ v, execMatrixUnitGrant core s = .next v ∧ UnitKept core ((s.freeUnit core).modCore core fun c => c.granted t rest) v := by
  have hthere : (t.members.all fun n => t.arrived.contains n && (s.freeUnit core).memberHere t n) = true := by simpa using h
  refine ⟨_, by simp only [execMatrixUnitGrant, hown, hteams, hthere]; rfl, ?_⟩
  refine (UnitKept.foldl (fun u n => ?_) t.members _).trans
    (UnitKept.foldl (fun u (w : Nat × Nat) => UnitKept.advance core u w.1 w.2) _ _)
  split
  · exact UnitKept.regain core u _ _
  · exact UnitKept.refl core u

end

/-! ### The statement -/

/-- Settles O44: each instruction refuses its operands or leaves what its own laws say; the grant passes the unit to the head team. -/
theorem tilesAndMatrixUnit : Obligations.TilesAndMatrixUnit := by
  refine ⟨fun s x o hx => ⟨fun hq => ?queue, fun hq => ⟨?fbldBad, ?fbldReads, ?fbldBadWrites, ?fbldWrites, ?cbld, ?scpf, ?unowned, ?aclr,
    ?asatrBad, ?asatr, ?amov, ?macq, ?mrel⟩⟩, fun s core => ⟨execMatrixUnitGrant_owned, execMatrixUnitGrant_unasked,
    fun t rest hown hteams => ⟨execMatrixUnitGrant_waits hown hteams, fun hready => ?grant⟩⟩⟩
  case queue =>
    simp only [List.forall_mem_cons]
    exact ⟨kernelOnly_queue hx _ hq, kernelOnly_queue hx _ hq, kernelOnly_queue hx _ hq, kernelOnly_queue hx _ hq,
      kernelOnly_queue hx _ hq, kernelOnly_queue hx _ hq, kernelOnly_queue hx _ hq, kernelOnly_queue hx _ hq,
      fun _ h => nomatch h⟩
  case fbldBad => exact execFbld_badReads hx hq
  case fbldReads => exact execFbld_reads hx hq
  case fbldBadWrites => exact execFbld_badWrites hx hq
  case fbldWrites =>
    exact fun hm ha => ⟨_, _, execFbld_writes hx hq hm ha, (onlyGroup_setGroup _ _ _).trans (onlyGroup_finish _ _), rfl, rfl,
      fun n => Group.readF_writeF _ _ n _⟩
  case cbld =>
    exact ⟨fun hm => execCbld_badLocal hx hq hm rfl, fun hm => execCbld_local hx hq hm rfl,
      fun hm => execCbld_badGlobal hx hq hm rfl, fun hm hu hf hl bs u => execCbld_global hx hq hm rfl hu hf hl,
      Core.codebook_loadCodebook _ _ _⟩
  case scpf =>
    exact ⟨execScpf_drops hx hq, fun hm => execScpf_bad hx hq hm rfl, fun hm => execScpf_fetches hx hq hm rfl⟩
  case unowned =>
    intro ho
    obtain ⟨haclr, hasatr, hamov⟩ := tiles_notOwned (o := o) hx hq ho
    simp only [List.forall_mem_cons]
    exact ⟨haclr, hasatr, hamov, fun _ h => nomatch h⟩
  case aclr =>
    refine fun ho => ⟨_, execAclr_clears hx hq ho, fun q k m n hk hm hn => ?_⟩
    rw [State.finish_core, State.core_modCore, Core.tile_clearTiles _ (fun t ht => List.mem_range.1 (List.mem_filter.1 ht).1) hk hm hn]
    simp [hk]
  case asatrBad => exact fun _ => execAsatr_bad hx hq
  case asatr => exact execAsatr_reads hx hq
  case amov =>
    refine ⟨execAmov_bad hx hq, execAmov_drops hx hq, fun ho hfit hi => ?into, fun ho hfit hi => ?outOf⟩
    case into =>
      obtain ⟨ht, hr⟩ := hfit
      refine ⟨_, (execAmov_moves hx hq ho ht hr).trans (congrArg _ (if_pos hi)), rfl, fun l i hl hi => ?_⟩
      rw [State.finish_core, State.core_modCore]
      exact Core.tileVal_takeRegs _ _ (Nat.mod_lt _ (by decide)) (tilesFit.moveTile_even ht) hl hi
    case outOf =>
      obtain ⟨ht, hr⟩ := hfit
      obtain ⟨-, hg, -⟩ := ex?_some hx
      refine ⟨_, x.g.takeTile (s.core x.g.core) (movesPair o) x.g.quad (moveReg o).toNat (moveTile o),
        (execAmov_moves hx hq ho ht hr).trans (congrArg _ (if_neg (by simpa using hi))),
        (onlyGroup_modGroup _ _ _).trans (onlyGroup_finish _ _), ?_, Group.takeTile_frame _ _ _ _ _ _,
        fun l i hl hi => Group.regVal_takeTile _ _ hl hi⟩
      rw [State.modGroup_some _ hg, State.modGroup_some _ hg]
  case macq =>
    refine ⟨execMacq_bad hx hq rfl, fun hb ⟨t, ht, hm⟩ => execMacq_owner hx hq rfl hb ht hm,
      fun hb ho hnew => ?new, fun hb ho hold => ?old⟩
    case new => exact execMacq_asksFirst hx hq rfl hb ho hnew
    case old =>
      obtain ⟨y, hy, hsp⟩ := State.ex?_modSplit (s := s.modCore x.g.core fun c => { c with teams := askedTeams c.teams x.g.blk x.g.num })
        hx fun sp => { sp with park := .matrix }
      refine ⟨_, y, execMacq_asksAgain hx hq rfl hb ho hold, hy, by rw [hsp], fun m hm hmine => ?_⟩
      rw [State.park_core, State.core_modCore] at hm
      exact arrived_of_askedTeams hm hmine
  case mrel => exact execMrel_leaves (o := o) hx hq
  case grant =>
    obtain ⟨v, hv, hkept⟩ := execMatrixUnitGrant_passes hown hteams hready
    obtain ⟨howner, hrest, hblk⟩ := ((s.freeUnit core).core core).granted_leaves t rest
    refine ⟨v, hv, ?_, ?_, ?_, hkept.mem.trans (s.freeUnit_mem core)⟩
    · rw [hkept.owner, State.core_modCore, howner]
    · rw [hkept.teams, State.core_modCore, hrest]
    · rw [hkept.tileBlk, State.core_modCore, hblk]

end Machine
end Sys2Proof
end

section
/-! Settles O41 (CopyEngine): what CPY, CPYQ, CINV, CFLUSH, ALD and AST do at issue, how an operation enters its core's queue, and
the chunks and the completion of the operations there (R173, R221, R247–R256, R279, R280). -/

namespace Sys2Proof.Machine

/-! ### What clearing an L1 leaves of its core (R221) -/

/-- `d` is `c` but for its L1 and its performance counters. -/
def L1Only (c d : Core) : Prop :=
  d = { c with
    l1 := d.l1, pred := d.pred, perfcnt0 := d.perfcnt0, perfcnt1 := d.perfcnt1, perfcnt2 := d.perfcnt2, perfcnt3 := d.perfcnt3 }

namespace L1Only

theorem refl (c : Core) : L1Only c c := rfl

theorem trans {c d e : Core} (h : L1Only c d) (k : L1Only d e) : L1Only c e := by
  unfold L1Only at k
  rw [h] at k
  exact k

theorem of_cores {s t : State} (h : t.cores = s.cores) (core : Nat) : L1Only (s.core core) (t.core core) := by
  have hcore : t.core core = s.core core := by
    rw [State.core, h]
    rfl
  rw [hcore]
  exact refl _

theorem modCore (s : State) (core : Nat) {f : Core → Core} (h : L1Only (s.core core) (f (s.core core))) :
    L1Only (s.core core) ((s.modCore core f).core core) := by
  rwa [State.core_modCore]

theorem l1Back (s : State) (core : Nat) (b : L1Block) : L1Only (s.core core) ((s.l1Back core b).core core) := by
  unfold State.l1Back
  split
  · exact refl _
  · exact (modCore s core rfl : L1Only _ ((s.count core 5).core core)).trans
      (of_cores ((State.spoil_cores _ _).trans (State.homeWrite_cores _ _ _ _)) core)

theorem l1Leave (s : State) (core : Nat) (bs : List L1Block) : L1Only (s.core core) ((s.l1Leave core bs).core core) := by
  induction bs generalizing s with
  | nil => exact refl _
  | cons b t ih =>
    refine ((l1Back s core b).trans (modCore (s.l1Back core b) core ?_)).trans (ih _)
    rfl

theorem l1BackWhere (s : State) (core : Nat) (p : L1Block → Bool) : L1Only (s.core core) ((s.l1BackWhere core p).core core) := by
  unfold State.l1BackWhere
  refine trans ?_ (modCore _ core rfl)
  generalize (s.core core).l1 = bs
  induction bs generalizing s with
  | nil => exact refl _
  | cons b t ih =>
    rw [List.foldl_cons]
    split
    · exact (l1Back s core b).trans (ih _)
    · exact ih s

theorem l1Clear (s : State) (core : Nat) (both dst : Nat → Bool) : L1Only (s.core core) ((s.l1Clear core both dst).core core) :=
  (l1BackWhere s core _).trans (l1Leave _ core _)

end L1Only

theorem State.register_jobs (s : State) (k : Who) (core op : Nat) (rs : List Reg) :
    ((s.register k core op rs).core core).jobs = (s.core core).jobs := by
  have hclear (both dst : Nat → Bool) := congrArg Core.jobs (L1Only.l1Clear s core both dst)
  unfold State.register
  dsimp only
  rw [State.core_modCore]
  exact hclear _ _

theorem MemoryOnly.register (s : State) (k : Who) (core op : Nat) (rs : List Reg) : MemoryOnly s (s.register k core op rs) := by
  unfold State.register
  exact ((MemoryOnly.l1BackWhere s core _).trans (MemoryOnly.l1Leave _ core _)).trans (MemoryOnly.modCore _ core _)

/-! ### Entering the queue (R61, R173, R251) -/

theorem State.submit_full {s : State} {x : Ex} {p : Plan} (kind : JobKind) (bar : Option Spot)
    (h : 64 ≤ (s.core x.g.core).jobs.length ∨ 32 < (s.core x.g.core).locks.length + p.regs.length) :
    s.submit x kind p bar = s := by
  have hfull : (decide (64 ≤ (s.core x.g.core).jobs.length) || !(s.core x.g.core).room p.regs.length) = true := by
    simpa [Core.room] using h
  exact if_pos hfull

/-- The operation in flight that a copy instruction counts on CE. -/
def State.copyFlight (s : State) (x : Ex) : Flight := { id := s.nextId, ctr := .ce, left := 1, pc := x.sp.pc, born := x.g.icount }

/-- The state in which an operation is counted and its ranges are registered. -/
def State.counted (s : State) (x : Ex) (rs : List Reg) : State :=
  (s.fresh.2.modGroup x.gid fun g => g.addFlight (s.copyFlight x)).register (s.who x.g) x.g.core s.nextId rs

/-- The operation that a copy instruction enters into the queue. -/
def State.copyJob (s : State) (x : Ex) (kind : JobKind) (p : Plan) (bar : Option Spot) : Job :=
  { id := s.nextId, gid := x.gid, blk := x.g.blk, ctx := x.g.ctx, kind := kind, bar := bar, descs := p.descs, pc := x.sp.pc
    priv := (s.counted x p.regs).privOf x.g }

section
variable {s : State} {x : Ex} {p : Plan} (kind : JobKind) (bar : Option Spot) (hj : (s.core x.g.core).jobs.length < 64)
  (hl : (s.core x.g.core).locks.length + p.regs.length ≤ 32) (hu : p.uses = [])
include hj hl hu

theorem State.submit_room : s.submit x kind p bar =
    ((s.counted x p.regs).modCore x.g.core fun c => { c with jobs := c.jobs ++ [s.copyJob x kind p bar] }).finish x := by
  have hroom : ¬ (decide (64 ≤ (s.core x.g.core).jobs.length) || !(s.core x.g.core).room p.regs.length) = true := by
    simpa [Core.room] using ⟨hj, hl⟩
  refine (if_neg hroom).trans ?_
  rw [hu]
  rfl

/-- The operation stands last in the queue, its ranges in the table, and CE is one higher. -/
theorem State.submit_leaves {g : Group} (hg : s.group x.gid = some g) :
    ((s.submit x kind p bar).core x.g.core).jobs = (s.core x.g.core).jobs ++ [s.copyJob x kind p bar] ∧
    (∃ ks, ((s.submit x kind p bar).core x.g.core).locks = (s.core x.g.core).locks ++ ks ∧
      (ks.map fun k => (k.op, k.ctx, k.range, k.write)) = p.regs.map fun r => (s.nextId, x.g.ctx, r.range, r.write)) ∧
    ∃ sps, (s.submit x kind p bar).group x.gid = some { g with flights := g.flights ++ [s.copyFlight x], splits := sps } := by
  have hjobs : ((s.counted x p.regs).core x.g.core).jobs = (s.core x.g.core).jobs := State.register_jobs _ _ _ _ _
  obtain ⟨-, hlocks⟩ := State.register_leaves (s.fresh.2.modGroup x.gid fun g => g.addFlight (s.copyFlight x)) (s.who x.g) x.g.core
    s.nextId p.regs
  have hmem : MemoryOnly _ (s.counted x p.regs) := MemoryOnly.register _ _ _ _ _
  have hgroup : (s.counted x p.regs).group x.gid = some { g with flights := g.flights ++ [s.copyFlight x] } := by
    have hfresh : s.fresh.2.group x.gid = some g := hg
    rw [hmem.group, State.group_modGroup, hfresh]
    rfl
  rw [State.submit_room kind bar hj hl hu, State.finish_core, State.core_modCore]
  exact ⟨congrArg (· ++ _) hjobs, hlocks, _, (State.group_modGroup _ _ _).trans (congrArg (Option.map _) hgroup)⟩

end

/-! ### CPY and CPYQ (R247, R248, R255) -/

/-- The direction of a CPY. -/
abbrev cpyDir (o : EOps) : Nat := o.minor.toNat % 16
/-- How CPY reads its operand D. -/
abbrev cpyKindD (o : EOps) : Kind := if [1, 3, 4, 5, 7].contains (cpyDir o) then .i64 else .w32
/-- How CPY reads its operand A. -/
abbrev cpyKindA (o : EOps) : Kind := if [0, 2, 4, 5, 6].contains (cpyDir o) then .i64 else .w32
/-- How CPY reads its operand B. -/
abbrev cpyKindB (o : EOps) : Kind := if cpyDir o == 6 then .i64 else .w32

theorem cpyDir_eq (o : EOps) : (o.minor.extractLsb' 0 4).toNat = cpyDir o := toNat_low _ _

theorem roundCode_eq (o : EOps) : (o.mod.extractLsb' 6 2).toNat = o.mod.toNat / 64 := by
  rw [toNat_field]
  omega

theorem contains_five (a b c d e n : Nat) :
    (n == a || n == b || n == c || n == d || n == e) = [a, b, c, d, e].contains n := by
  simp only [List.contains_cons, List.contains_nil, Bool.or_false, Bool.or_assoc]

/-- The operands that CPY refuses. -/
abbrev badCpy (x : Ex) (o : EOps) : Prop := badUniform x.g (cpyKindD o) o.d = true ∨ badUniform x.g (cpyKindA o) o.a = true ∨
  badUniform x.g (cpyKindB o) o.b = true ∨ badUniform x.g .w32 o.c = true

/-- The checks of a CPY. -/
abbrev State.cpyPlan (s : State) (x : Ex) (o : EOps) : Except Nope Plan :=
  s.planCopy (s.who x.g) x.g (cpyDir o) (s.readUni x o.lit (cpyKindD o) o.d) (s.readUni x o.lit (cpyKindA o) o.a)
    (s.readUni x o.lit (cpyKindB o) o.b) (o.minor.toNat / 32 % 16)

section
variable {s : State} {x : Ex} {o : EOps} (hx : s.ex? = some x) (hq : x.g.isQueue = false)
include hx hq

theorem execCpy_eq : execCpy o s = .next (
    if badUniform x.g (cpyKindD o) o.d || badUniform x.g (cpyKindA o) o.a || badUniform x.g (cpyKindB o) o.b ||
      badUniform x.g .w32 o.c then s.illegal x
    else
      match s.cpyPlan x o with
      | .error n => s.nope x n
      | .ok p =>
        match s.barOperand x o.lit o.c with
        | none => s.illegal x
        | some bar => s.submit x (.cpy (cpyDir o) (s.readUni x o.lit (cpyKindD o) o.d) (s.readUni x o.lit (cpyKindA o) o.a)
            (s.readUni x o.lit (cpyKindB o) o.b) (o.minor.toNat / 32 % 16) (o.mod.toNat / 64) (o.mod.getLsbD 5)) p bar) := by
  have hfmt : (o.minor.extractLsb' 5 4).toNat = o.minor.toNat / 32 % 16 := toNat_field _ _ _
  simp only [execCpy, cpyDir_eq, contains_five, roundCode_eq, hfmt]
  exact kernelOnly_group hx _ hq

theorem execCpy_bad (hb : badCpy x o) : execCpy o s = .next (s.illegal x) :=
  (execCpy_eq hx hq).trans (by rw [if_pos (by simpa only [Bool.or_eq_true, or_assoc] using hb)])

section
variable (hb : ¬ badCpy x o)
include hb

theorem execCpy_refused {n : Nope} (hp : s.cpyPlan x o = .error n) : execCpy o s = .next (s.nope x n) :=
  (execCpy_eq hx hq).trans (by rw [if_neg (by simpa only [Bool.or_eq_true, or_assoc] using hb), hp])

variable {p : Plan} (hp : s.cpyPlan x o = .ok p)
include hp

theorem execCpy_unbound (hbar : s.barOperand x o.lit o.c = none) : execCpy o s = .next (s.illegal x) :=
  (execCpy_eq hx hq).trans (by rw [if_neg (by simpa only [Bool.or_eq_true, or_assoc] using hb), hp]; simp only [hbar])

theorem execCpy_submits {bar : Option Spot} (hbar : s.barOperand x o.lit o.c = some bar) :
    execCpy o s = .next (s.submit x (.cpy (cpyDir o) (s.readUni x o.lit (cpyKindD o) o.d) (s.readUni x o.lit (cpyKindA o) o.a)
      (s.readUni x o.lit (cpyKindB o) o.b) (o.minor.toNat / 32 % 16) (o.mod.toNat / 64) (o.mod.getLsbD 5)) p bar) :=
  (execCpy_eq hx hq).trans (by rw [if_neg (by simpa only [Bool.or_eq_true, or_assoc] using hb), hp]; simp only [hbar])

end

theorem execCpyq_bad (hb : badUniform x.g .w32 o.a = true ∨ badUniform x.g .w32 o.b = true ∨ badUniform x.g .w32 o.c = true) :
    execCpyq o s = .next (s.illegal x) :=
  (kernelOnly_group hx _ hq).trans (by rw [if_pos (by simpa only [Bool.or_eq_true, or_assoc] using hb)])

section
variable (hb : ¬ (badUniform x.g .w32 o.a = true ∨ badUniform x.g .w32 o.b = true ∨ badUniform x.g .w32 o.c = true)) {a n : Nat}
  (ha : (s.readUni x o.lit .w32 o.a).toNat = a) (hn : (s.readUni x o.lit .w32 o.b).toNat = n)
include hb ha hn

theorem execCpyq_unfit (hf : ¬ (a % 32 = 0 ∧ a < 2 ^ 31 ∧ 0 < n ∧ n ≤ 256 ∧ a + 32 * n ≤ s.lsBytesOf x.g)) :
    execCpyq o s = .next (s.illegal x) := by
  subst ha hn
  refine (kernelOnly_group hx _ hq).trans ?_
  rw [if_neg (by simpa only [Bool.or_eq_true, or_assoc] using hb), if_pos]
  simp only [Bool.or_eq_true, decide_eq_true_eq]
  omega

theorem execCpyq_submits (hf : a % 32 = 0 ∧ a < 2 ^ 31 ∧ 0 < n ∧ n ≤ 256 ∧ a + 32 * n ≤ s.lsBytesOf x.g) {bar : Option Spot}
    (hbar : s.barOperand x o.lit o.c = some bar) :
    execCpyq o s = .next (s.submit x (.cpyq a n 0) ⟨[⟨.loc x.g.blk a (a + 32 * n), false, []⟩], [], []⟩ bar) := by
  subst ha hn
  refine (kernelOnly_group hx _ hq).trans ?_
  rw [if_neg (by simpa only [Bool.or_eq_true, or_assoc] using hb), if_neg]
  · simp only [hbar]
  · simp only [Bool.or_eq_true, decide_eq_true_eq]
    omega

end

end

/-! ### CINV and CFLUSH (R256) -/

section
variable {s : State} {x : Ex} {o : EOps} {kind : Nat → Nat → Nat → Bool → JobKind}

theorem State.maint_bad (hb : 5 < o.minor.toNat % 8 ∨ badUniform x.g .i64 o.a = true ∨ badUniform x.g .w32 o.b = true) :
    s.maint x o kind = s.illegal x := by
  have hscope : (o.minor.extractLsb' 0 3).toNat = o.minor.toNat % 8 := toNat_low _ _
  rw [State.maint, hscope, if_pos (by simpa only [Bool.or_eq_true, decide_eq_true_eq, or_assoc] using hb)]

theorem State.maint_submits (hb : ¬ (5 < o.minor.toNat % 8 ∨ badUniform x.g .i64 o.a = true ∨ badUniform x.g .w32 o.b = true)) :
    s.maint x o kind = s.submit x (kind ((s.readUni x o.lit .i64 o.a).toNat % 2 ^ 52) (s.readUni x o.lit .w32 o.b).toNat
      (o.minor.toNat % 8) (o.minor.getLsbD 3)) ⟨[], [], []⟩ none := by
  have hscope : (o.minor.extractLsb' 0 3).toNat = o.minor.toNat % 8 := toNat_low _ _
  rw [State.maint, hscope, if_neg (by simpa only [Bool.or_eq_true, decide_eq_true_eq, or_assoc] using hb), bits_low]

end

/-! ### ALD and AST (R279, R280) -/

/-- The tile type of ALD and AST. -/
abbrev moveType (o : EOps) : Nat := o.minor.toNat / 32 % 4
/-- The memory format of ALD and AST. -/
abbrev moveFmt (o : EOps) : Nat := o.minor.toNat / 2 % 16

theorem moveType_eq (o : EOps) : (o.minor.extractLsb' 5 2).toNat = moveType o := toNat_field _ _ _

theorem moveFmt_eq (o : EOps) : (o.minor.extractLsb' 1 4).toNat = moveFmt o := toNat_field _ _ _

section
variable {s : State} {x : Ex} {o : EOps} (hx : s.ex? = some x) (hq : x.g.isQueue = false)
include hx hq

theorem execAld_bad (hb : s.owns x = false ∨ badUniform x.g .i64 o.a = true) : execAld o s = .next (s.illegal x) :=
  (kernelOnly_group hx _ hq).trans (by rw [if_pos (by simpa using hb)])

section
variable (hb : ¬ (s.owns x = false ∨ badUniform x.g .i64 o.a = true))
include hb

theorem execAld_refused {n : Nope} (hp : s.planAld (s.who x.g) x.g (o.minor.getLsbD 0) (s.readUni x o.lit .i64 o.a) (moveType o)
    o.d.toNat (moveFmt o) = .error n) : execAld o s = .next (s.nope x n) := by
  rw [← moveType_eq, ← moveFmt_eq] at hp
  refine (kernelOnly_group hx _ hq).trans ?_
  rw [if_neg (by simpa using hb)]
  simp only [hp]

theorem execAld_submits {p : Plan} (hp : s.planAld (s.who x.g) x.g (o.minor.getLsbD 0) (s.readUni x o.lit .i64 o.a) (moveType o)
    o.d.toNat (moveFmt o) = .ok p) :
    execAld o s = .next (s.submit x (.ald (sideOf (o.minor.getLsbD 0) (s.readUni x o.lit .i64 o.a)).1
      (sideOf (o.minor.getLsbD 0) (s.readUni x o.lit .i64 o.a)).2 x.g.quad o.d.toNat (moveType o) (moveFmt o) (o.mod.toNat / 64)) p
      none) := by
  rw [← moveType_eq, ← moveFmt_eq] at hp ⊢
  rw [← roundCode_eq]
  refine (kernelOnly_group hx _ hq).trans ?_
  rw [if_neg (by simpa using hb)]
  simp only [hp]

end

theorem execAst_bad (hb : s.owns x = false ∨ badUniform x.g .i64 o.d = true ∨
    (o.minor.getLsbD 7 = true ∧ badUniform x.g .w32 o.c = true)) : execAst o s = .next (s.illegal x) :=
  (kernelOnly_group hx _ hq).trans (by rw [if_pos (by simpa [or_assoc] using hb)])

section
variable (hb : ¬ (s.owns x = false ∨ badUniform x.g .i64 o.d = true ∨
  (o.minor.getLsbD 7 = true ∧ badUniform x.g .w32 o.c = true)))
include hb

theorem execAst_refused {n : Nope} (hp : s.planAst (s.who x.g) x.g (o.minor.getLsbD 0) (s.readUni x o.lit .i64 o.d) (moveType o)
    o.a.toNat (moveFmt o) (o.minor.getLsbD 7) (if o.minor.getLsbD 7 then s.readUni x o.lit .w32 o.c else 0) = .error n) :
    execAst o s = .next (s.nope x n) := by
  rw [← moveType_eq, ← moveFmt_eq] at hp
  refine (kernelOnly_group hx _ hq).trans ?_
  rw [if_neg (by simpa [or_assoc] using hb)]
  simp only [hp]

theorem execAst_submits {p : Plan} (hp : s.planAst (s.who x.g) x.g (o.minor.getLsbD 0) (s.readUni x o.lit .i64 o.d) (moveType o)
    o.a.toNat (moveFmt o) (o.minor.getLsbD 7) (if o.minor.getLsbD 7 then s.readUni x o.lit .w32 o.c else 0) = .ok p) :
    execAst o s = .next (s.submit x (.ast (sideOf (o.minor.getLsbD 0) (s.readUni x o.lit .i64 o.d)).1
      (sideOf (o.minor.getLsbD 0) (s.readUni x o.lit .i64 o.d)).2 x.g.quad o.a.toNat (moveType o) (moveFmt o) (o.mod.toNat / 64)
      (o.mod.getLsbD 5)
      (if o.minor.getLsbD 7 then
        some ((o.minor.extractLsb' 8 8).toInt, bits (if o.minor.getLsbD 7 then s.readUni x o.lit .w32 o.c else 0) 7 0)
       else none)
      ((List.range 256).map fun k =>
        (s.core x.g.core).tileVal (moveType o == 1 || moveType o == 3) x.g.quad o.a.toNat (k / 16) (k % 16))) p none) := by
  rw [← moveType_eq, ← moveFmt_eq] at hp ⊢
  rw [← roundCode_eq]
  refine (kernelOnly_group hx _ hq).trans ?_
  rw [if_neg (by simpa [or_assoc] using hb)]
  simp only [hp]

end

end

/-! ### The checks of a copy into local store (R248) -/

theorem bits_ofNat {v hi : Nat} (hv : v < 2 ^ (hi + 1)) (hhi : hi < 64) : bits (BitVec.ofNat 64 v) hi 0 = v := by
  have : 2 ^ (hi + 1) ≤ 2 ^ 64 := Nat.pow_le_pow_right (by decide) hhi
  rw [bits_low, BitVec.toNat_ofNat, Nat.mod_eq_of_lt (a := v) (by omega), Nat.mod_eq_of_lt hv]

theorem State.planCopy_global (s : State) (k : Who) (g : Group) {lo sv n : Nat} (hlo : lo % 16 = 0) (hsv : sv % 16 = 0)
    (hn : n % 16 = 0) (hlo31 : lo < 2 ^ 31) (hsv52 : sv < 2 ^ 52) (hn32 : n < 2 ^ 32) (hfits : lo + n ≤ s.lsBytesOf g)
    (hbar : s.overBarrier g.blk lo n = false) :
    s.planCopy k g 0 (BitVec.ofNat 64 lo) (BitVec.ofNat 64 sv) (BitVec.ofNat 64 n) 15 =
      .ok ⟨[⟨.global sv (sv + n), false, [(sv, n)]⟩, ⟨.loc g.blk lo (lo + n), true, []⟩], [], []⟩ := by
  have hlofs : bits (BitVec.ofNat 64 lo) 31 0 = lo := bits_ofNat (by omega) (by decide)
  have hsva : bits (BitVec.ofNat 64 sv) 51 0 = sv := bits_ofNat hsv52 (by decide)
  have hlen : bits (BitVec.ofNat 64 n) 31 0 = n := bits_ofNat hn32 (by decide)
  have hlocal : s.localFits g lo n true = .ok () := by
    rw [State.localFits, hbar, decide_eq_true hfits]
    rfl
  have haligned : (lo % 16 == 0 && sv % 16 == 0 && n % 16 == 0) = true := by rw [hlo, hsv, hn]; rfl
  simp only [State.planCopy, hlofs, hsva, hlen, hlocal, haligned, decide_eq_true hlo31]
  rfl

/-! ### Chunks (R250, R303) -/

theorem execCopyChunk_absent {s : State} {core id : Nat} (h : (s.core core).job id = none) : execCopyChunk core id s = .next s := by
  simp only [execCopyChunk, h]

theorem execCopyComplete_absent {s : State} {core id : Nat} (h : (s.core core).job id = none) :
    execCopyComplete core id s = .next s := by
  simp only [execCopyComplete, h]

theorem Core.job_id {c : Core} {id : Nat} {j : Job} (h : c.job id = some j) : j.id = id := by
  simpa using List.find?_some h

theorem Job.nothingOwed {j : Job} (h : j.owed = 0 ∨ j.over = true) : (decide (j.owed ≠ 0) && !j.over) = false := by
  rcases h with h | h <;> simp [h]

section
variable {s : State} {core id : Nat} {j : Job} (hj : (s.core core).job id = some j)
include hj

theorem copy_rests (h : (s.core core).mayRun id = false ∨ anyPending j.tokens = true) :
    execCopyChunk core id s = .next s ∧ execCopyComplete core id s = .next s := by
  have hrests : (!(s.core core).mayRun id || anyPending j.tokens) = true := by simpa using h
  constructor
  · simp only [execCopyChunk, hj, hrests, if_true]
  · simp only [execCopyComplete, hj, hrests, Bool.true_or, if_true]

variable (hrun : (s.core core).mayRun id = true) (hpend : anyPending j.tokens = false)
include hrun hpend

theorem execCopyChunk_invalid (hinv : anyInvalid j.tokens = true) :
    execCopyChunk core id s = .next (s.invalidEngine j.ctx core j.blk j.pc j.tokens) := by
  simp only [execCopyChunk, hj, hrun, hpend, hinv]
  rfl

theorem execCopyComplete_waits (h : j.over = false ∨ (j.bar ≠ none ∧ s.lowerReady j.gid id = false)) :
    execCopyComplete core id s = .next s := by
  have hwaits : (!(s.core core).mayRun id || anyPending j.tokens || !j.over || (j.bar.isSome && !s.lowerReady j.gid id)) = true := by
    simpa [hrun, hpend, Option.isSome_iff_ne_none] using h
  simp only [execCopyComplete, hj, hwaits, if_true]

variable (hinv : anyInvalid j.tokens = false)
include hinv

theorem execCopyComplete_ends (hover : j.over = true) (h : j.bar = none ∨ s.lowerReady j.gid id = true) {u : State}
    (hu : s.addUse (some core) j.ctx false j.uses = .ok u) :
    execCopyComplete core id s = .next (((((u.unlock core id).addFlags j.gid j.pc j.flags
      (((u.group j.gid).bind fun g => g.flights.find? fun f => f.id == id).map (·.born))).returnFlight j.gid id).modCore core
        fun c => { c with jobs := c.jobs.filter fun k => k.id != id }).lowerFor core j.bar j.owed) := by
  have hgoes : (!(s.core core).mayRun id || anyPending j.tokens || !j.over || (j.bar.isSome && !s.lowerReady j.gid id)) = false := by
    rcases h with h | h <;> simp [hrun, hpend, hover, h]
  simp only [execCopyComplete, hj, hgoes, hinv, hu]
  rfl

theorem execCopyChunk_owed (hne : j.owed ≠ 0) (hover : j.over = false) :
    execCopyChunk core id s = .next (
      if s.lowerReady j.gid id then (s.modJob core id fun k => { k with owed := 0 }).lowerFor core j.bar j.owed else s) := by
  simp only [execCopyChunk, hj, hrun, hpend, hinv, hover, decide_eq_true hne]
  rfl

variable (howed : j.owed = 0 ∨ j.over = true)
include howed

theorem execCopyChunk_queueDone {off n next : Nat} (hk : j.kind = .cpyq off n next) (hle : n ≤ next) :
    execCopyChunk core id s = .next s := by
  simp only [execCopyChunk, hj, hrun, hpend, hinv, Job.nothingOwed howed, hk, if_pos hle]
  rfl

theorem execCopyChunk_entry {off n next : Nat} (hk : j.kind = .cpyq off n next) (hlt : next < n) (he : j.entry = none) :
    execCopyChunk core id s = .next (s.startEntry core j off next) := by
  simp only [execCopyChunk, hj, hrun, hpend, hinv, Job.nothingOwed howed, hk, if_neg (Nat.not_le_of_lt hlt), he]
  rfl

theorem execCopyChunk_works (hk : ∀ off n next, j.kind ≠ .cpyq off n next) {n : Nat} (hn : jobChunks j.descs j.kind = .ok n) :
    execCopyChunk core id s = .next (if n ≤ j.chunk then s else s.workJob core j j.kind true fun s => .ok s) := by
  simp only [execCopyChunk, hj, hrun, hpend, hinv, Job.nothingOwed howed]
  cases hkind : j.kind with
  | cpyq off n next => exact absurd hkind (hk off n next)
  | _ =>
    rw [hkind] at hn
    simp only [hn]
    rfl

end

/-- A chunk of an operation whose turn it is, once it has landed: counted, and the bytes of it still owed to the barrier. -/
def State.landChunk (r : Landed) (core id owed : Nat) : State :=
  ((r.st.count core 8).took core id).modJob core id fun k =>
    { k with chunk := k.chunk + 1, started := true, tokens := [], flags := k.flags ||| r.flags, owed := owed }

section
variable {s : State} {core n : Nat} {j : Job} {kind : JobKind} (hn : jobChunks j.descs kind = .ok n) (hlt : j.chunk < n)
include hn hlt

theorem State.workJob_halts {h : Halt} (hp : s.jobPart (j.who core) j.descs core j.blk kind j.chunk = .error h) :
    s.workJob core j kind true (fun s => .ok s) = s.haltJob core j h := by
  simp only [State.workJob, hn, if_neg (Nat.not_le_of_lt hlt), hp]

theorem State.workJob_lands {r : Landed} (hp : s.jobPart (j.who core) j.descs core j.blk kind j.chunk = .ok r) :
    s.workJob core j kind true (fun s => .ok s) =
      if j.chunk + 1 = n then State.landChunk r core j.id r.bytes
      else if r.st.lowerReady j.gid j.id then (State.landChunk r core j.id 0).lowerFor core j.bar r.bytes
      else State.landChunk r core j.id (if j.bar.isSome then r.bytes else 0) := by
  simp only [State.workJob, hn, if_neg (Nat.not_le_of_lt hlt), hp, beq_iff_eq]
  rfl

end

/-! ### One chunk of a plain copy (R249) -/

section
variable {s u : State} {k : Who} {core blk c : Nat} {ds : KV (List Dword)} {dst src len : Dword} {lfmt : Nat} {mode : RMode}
  {sat : Bool} {bs : List Byte}

theorem State.copyPart_load
    (h : s.engineRead k (src.toNat % 2 ^ 52 + 1024 * c) (min 1024 (len.toNat % 2 ^ 32 - 1024 * c)) (some false) = .ok (bs, u)) :
    s.copyPart k ds core blk 0 dst src len lfmt mode sat c = .ok
      ⟨u.lsWrite blk (dst.toNat % 2 ^ 32 + 1024 * c) bs, min 1024 (len.toNat % 2 ^ 32 - 1024 * c), 0⟩ := by
  simp only [State.copyPart, bits_low, h]
  rfl

theorem State.copyPart_store
    (h : s.engineWrite k .write (dst.toNat % 2 ^ 52 + 1024 * c)
      (s.lsRead blk (src.toNat % 2 ^ 32 + 1024 * c) (min 1024 (len.toNat % 2 ^ 32 - 1024 * c))) (some false) = .ok u) :
    s.copyPart k ds core blk 1 dst src len lfmt mode sat c = .ok ⟨u, min 1024 (len.toNat % 2 ^ 32 - 1024 * c), 0⟩ := by
  simp only [State.copyPart, bits_low, h]
  rfl

end

/-! ### The statement -/

/-- Settles O41: the checks at issue, the queue, the chunks and the completion, each by its own law. -/
theorem copyEngine : Obligations.CopyEngine := by
  refine ⟨⟨fun s x kind p bar hx => ⟨s.submit_full kind bar, fun hj hl hu => ?submits⟩, fun s x o i hx hq hi => ?queue,
      fun s x o hx hq => ⟨execCpy_bad hx hq, ?cpyTrap, ?cpyHalt, ?cpyPlan, ?plan⟩, fun s x o hx hq => ?cpyq, fun s x o hx hq => ?ald⟩,
    fun s core id h => ⟨execCopyChunk_absent h, execCopyComplete_absent h⟩, fun s core id j hj => ⟨copy_rests hj, fun hrun hpend =>
      ⟨execCopyChunk_invalid hj hrun hpend, execCopyChunk_owed hj hrun hpend, fun hinv howed => ?chunk,
        execCopyComplete_waits hj hrun hpend, fun hover h hinv u hu => execCopyComplete_ends hj hrun hpend hinv hover h hu⟩⟩,
    fun s u k core blk c ds dst src len lfmt mode sat bs => ⟨fun h => ⟨_, State.copyPart_load h, rfl, rfl, rfl⟩,
      fun h => ⟨_, State.copyPart_store h, rfl, rfl, rfl⟩⟩⟩
  case submits =>
    obtain ⟨-, hg, -⟩ := ex?_some hx
    obtain ⟨hjobs, hlocks, sps, hgroup⟩ := State.submit_leaves kind bar hj hl hu hg
    refine ⟨⟨_, hjobs, rfl, rfl, rfl, rfl, rfl, rfl⟩, hlocks, _, hgroup, ?_, rfl, rfl, rfl⟩
    exact (congrArg List.length (List.filter_append _ _)).trans (by simp [State.copyFlight, Group.counter])
  case queue =>
    simp only [List.mem_cons, List.not_mem_nil, or_false] at hi
    rcases hi with rfl | rfl | rfl | rfl | rfl | rfl <;> exact kernelOnly_queue hx _ hq
  case cpyTrap => exact fun hb c hp => execCpy_refused hx hq hb hp
  case cpyHalt => exact fun hb h hp => execCpy_refused hx hq hb hp
  case cpyPlan => exact fun hb p hp => ⟨execCpy_unbound hx hq hb hp, fun bar => execCpy_submits hx hq hb hp⟩
  case plan =>
    exact fun k g lo sv n hlo hsv hn hlo31 hsv52 hn32 hfits hbar => s.planCopy_global k g hlo hsv hn hlo31 hsv52 hn32 hfits hbar
  case cpyq =>
    refine ⟨execCpyq_bad hx hq, fun hb => execCpyq_unfit hx hq hb rfl rfl, fun hb hf bar => execCpyq_submits hx hq hb rfl rfl hf,
      fun hb => ?_, fun hb => ?_⟩
    · exact ⟨(kernelOnly_group hx _ hq).trans (by rw [State.maint_bad hb]), (kernelOnly_group hx _ hq).trans (by rw [State.maint_bad hb])⟩
    · exact ⟨(kernelOnly_group hx _ hq).trans (by rw [State.maint_submits hb]),
        (kernelOnly_group hx _ hq).trans (by rw [State.maint_submits hb])⟩
  case ald =>
    exact ⟨execAld_bad hx hq, execAst_bad hx hq, fun hb => ⟨fun n => execAld_refused hx hq hb, fun p => execAld_submits hx hq hb⟩,
      fun hb => ⟨fun n => execAst_refused hx hq hb, fun p => execAst_submits hx hq hb⟩⟩
  case chunk =>
    have hid := Core.job_id hj
    refine ⟨fun off n next hk => ⟨execCopyChunk_queueDone hj hrun hpend hinv howed hk,
      execCopyChunk_entry hj hrun hpend hinv howed hk⟩, fun hk n hn => ?_⟩
    have hworks := execCopyChunk_works hj hrun hpend hinv howed hk hn
    refine ⟨fun hle => hworks.trans (by rw [if_pos hle]), fun hlt h hp => ?_, fun hlt r hp => ?_⟩
    · exact hworks.trans (by rw [if_neg (Nat.not_le_of_lt hlt), State.workJob_halts hn hlt hp])
    · refine hworks.trans ?_
      rw [if_neg (Nat.not_le_of_lt hlt), State.workJob_lands hn hlt hp, hid]
      rfl

end Sys2Proof.Machine
end

section
/-! Settles O1 to O5 (IntegerArithmetic, IntegerDivide, LogicAndShifts, BitOperations, MovesAndMasks): the instructions of the
integer ALU, each as an ALU instruction with its result (R181–R187, R196–R198). -/

namespace Sys2Proof.Machine

/-! ### Instructions handed to the ALU (R143, R179) -/

section
variable {s : State} {x : Ex} (hx : s.ex? = some x) {i : Instr}
include hx

/-- A meaning that hands the ALU one instruction runs as each ALU instruction equal to it. -/
theorem runsAs_withEx {f : Ex → Alu} {a : Alu} (h : exec i s = s.withEx fun x => s.alu x (f x)) (ha : f x = a) : RunsAs i s x a :=
  runsAs_of (h.trans ((withEx_eq hx _).trans (by rw [ha])))

theorem runsAs_words2 {o : AOps} {f g : Word → Word → Word} (h : exec i s = alu2 o f s) (hfg : ∀ a b, f a b = g a b) :
    RunsAs i s x (.words2 o g) := by
  obtain rfl : f = g := funext fun a => funext (hfg a)
  exact runsAs_withEx hx h rfl

theorem runsAs_words1 {o : UOps} {f g : Word → Word} (h : exec i s = alu1 o f s) (hfg : ∀ a, f a = g a) :
    RunsAs i s x (.words1 o g) := by
  obtain rfl : f = g := funext hfg
  exact runsAs_withEx hx h rfl

end

/-! ### Sums and products (R181, R182) -/

theorem subBorrow_eq (a b : Word) (c : Bool) :
    subBorrow a b c =
      (BitVec.ofInt 32 ((a.toNat : Int) - b.toNat - c.toNat), decide ((a.toNat : Int) - b.toNat - c.toNat < 0)) := by
  refine Prod.ext ?_ (decide_eq_decide.2 (by omega))
  show a - b - BitVec.ofNat 32 c.toNat = _
  rw [show (a.toNat : Int) - b.toNat - c.toNat = a.toNat - b.toNat * 1 - c.toNat * 1 by ring, ofInt_sub_mul, ofInt_sub_mul]
  simp

theorem ofNat_toNat_mul (a b : Word) : a * b = BitVec.ofNat 32 (a.toNat * b.toNat) :=
  BitVec.eq_of_toNat_eq (by rw [BitVec.toNat_mul, BitVec.toNat_ofNat])

theorem intVal_word (u : Bool) (w : Word) : intVal 32 (!u) w.toNat = if u then (w.toNat : Int) else w.toInt := by
  cases u
  · exact intVal_signed w
  · exact intVal_unsigned w

theorem satInt_word (u : Bool) (t : Int) : satInt 32 (!u) t =
    max (if u then 0 else -(2 ^ 31)) (min (if u then 2 ^ 32 - 1 else 2 ^ 31 - 1) t) := by
  cases u <;> rfl

theorem imadWord_eq (u sat : Bool) (a b c : Word) :
    imadWord u sat a b c =
      let int (w : Word) : Int := if u then w.toNat else w.toInt
      let t := int a * int b + int c
      BitVec.ofInt 32 (if sat then
        max (if u then 0 else -(2 ^ 31)) (min (if u then 2 ^ 32 - 1 else 2 ^ 31 - 1) t) else t) := by
  simp only [imadWord, ofNat_wrapBits, intVal_word, satInt_word]

/-- Settles O1: each instruction hands the ALU its result, which is the integers' own. -/
theorem integerArithmetic : Obligations.IntegerArithmetic := by
  unfold Obligations.IntegerArithmetic
  refine ⟨fun s x hx => ⟨fun o => ⟨?iadd, ?isub, ?iaddc, ?isubb⟩, fun o => ⟨?iaddImm, ?andImm, ?orImm, ?xorImm⟩⟩,
    fun s x hx => ⟨fun o => ⟨?imul, ?imulh, ?imulhU, ?iadd64⟩, fun o hw => ?imadWord, fun o hw => ?imadWide⟩⟩
  case iadd => exact runsAs_words2 hx (exec_iadd o s) fun _ _ => rfl
  case isub => exact runsAs_words2 hx (exec_isub o s) fun _ _ => rfl
  case iaddc => exact runsAs_withEx hx (exec_iaddc o s) rfl
  case isubb => exact runsAs_withEx hx (exec_isubb o s) (by simp only [subBorrow_eq])
  case iaddImm => exact runsAs_withEx hx (exec_iaddImm o s) rfl
  case andImm => exact runsAs_withEx hx (exec_andImm o s) rfl
  case orImm => exact runsAs_withEx hx (exec_orImm o s) rfl
  case xorImm => exact runsAs_withEx hx (exec_xorImm o s) rfl
  case imul => exact runsAs_words2 hx (exec_imul o s) ofNat_toNat_mul
  case imulh => exact runsAs_words2 hx (exec_imulh o s) fun _ _ => rfl
  case imulhU => exact runsAs_words2 hx (exec_imulhU o s) fun _ _ => rfl
  case iadd64 => exact runsAs_withEx hx (exec_iadd64 o s) rfl
  case imadWord => exact runsAs_withEx hx (exec_imad o s) (by simp only [hw, imadWord_eq]; rfl)
  case imadWide => exact runsAs_withEx hx (exec_imad o s) (by simp only [hw]; rfl)

/-! ### Division (R183) -/

/-- The quotient of R183, in the integers. -/
def quotient (u : Bool) (a b : Word) : Word :=
  if b = 0 then 0xFFFFFFFF else if u then BitVec.ofNat 32 (a.toNat / b.toNat) else BitVec.ofInt 32 (a.toInt.tdiv b.toInt)

theorem divRem_eq (u rem : Bool) (a b : Word) :
    divRem u rem a b = if rem then (if b = 0 then a else a - quotient u a b * b) else quotient u a b := by
  by_cases hb : b = 0
  · simp only [divRem, quotient, if_pos hb]
  · cases u
    · simp only [divRem, quotient, if_neg hb, srem_eq_sub, sdiv_eq_tdiv]; rfl
    · simp only [divRem, quotient, if_neg hb, umod_eq_sub, udiv_eq_div]; rfl

/-- The fields of the two words of a format E instruction (R135). -/
theorem encE_words {maj n : Nat} (hmaj : maj < 64) (hn : n < 4) (u : Uses) (o : EOps) :
    ((encE maj n u o).getD 0 0).extractLsb' 26 6 = BitVec.ofNat 6 maj ∧
    ((encE maj n u o).getD 0 0).extractLsb' 0 2 = BitVec.ofNat 2 n ∧
    ((encE maj n u o).getD 1 0).extractLsb' 24 8 = o.c ∧ ((encE maj n u o).getD 1 0).extractLsb' 0 16 = o.minor :=
  ⟨BitVec.eq_of_toNat_eq ((Laws.wMaj_encAWord maj n o.d o.a o.b hmaj).trans (Laws.toNat_code hmaj).symm),
    BitVec.eq_of_toNat_eq ((Laws.wS_encAWord maj n o.d o.a o.b hn).trans (Laws.toNat_code hn).symm),
    Laws.xC_encXWord _ _ _, Laws.xMinor_encXWord _ _ _⟩

/-- A field C that is unused holds its filler (R137). -/
theorem Uses.ok_unused {u : Uses} {o : EOps} (hu : u.c = .unused) (h : u.ok o = true) : o.c = 0xF0 := by
  simp only [Uses.ok, hu, Bool.and_eq_true] at h
  obtain ⟨⟨-, hc⟩, -⟩ := h
  exact beq_iff_eq.1 hc

/-- Settles O2: the two operations of the words against the division of the integers; the rest is the format's fields. -/
theorem integerDivide : Obligations.IntegerDivide := by
  unfold Obligations.IntegerDivide
  refine ⟨fun s x o hx => ?runs, fun a b hb => ⟨?unsigned, ?signed⟩, by decide, fun o ho => ?words⟩
  case runs => exact runsAs_withEx hx (exec_idiv o s) (by simp only [divRem_eq]; rfl)
  case unsigned => rw [← umod_eq_sub, BitVec.toNat_umod]
  case signed => rw [← srem_eq_sub, BitVec.toInt_srem]
  case words =>
    obtain ⟨hwf, -, -⟩ := Laws.RoundTrip.parts ho
    have hc : o.c = 0xF0 := Uses.ok_unused rfl hwf
    obtain ⟨hmaj, hs, hxc, hminor⟩ := encE_words (by decide : 0x03 < 64) (by decide : 0 < 4) ⟨.other, .source, .source, .unused⟩ o
    exact ⟨hc, hmaj, hs, hxc.trans hc, hminor⟩

/-! ### Logic and shifts (R184) -/

theorem ite_slt (a b c d : Word) : (if a.slt b then c else d) = if a.toInt < b.toInt then c else d := by
  simp only [BitVec.slt_eq_decide, decide_eq_true_eq]

theorem ite_ult (a b c d : Word) : (if a.ult b then c else d) = if a.toNat < b.toNat then c else d := by
  simp only [BitVec.ult_eq_decide, decide_eq_true_eq]

/-- Settles O3: orders and shifts of words are those of the integers they hold. -/
theorem logicAndShifts : Obligations.LogicAndShifts := by
  unfold Obligations.LogicAndShifts
  intro s x o hx
  refine ⟨runsAs_words2 hx (exec_and o s) fun _ _ => rfl, runsAs_words2 hx (exec_or o s) fun _ _ => rfl,
    runsAs_words2 hx (exec_xor o s) fun _ _ => rfl, runsAs_words2 hx (exec_andn o s) fun _ _ => rfl,
    runsAs_words2 hx (exec_imin o s) fun a b => ite_slt a b a b, runsAs_words2 hx (exec_imax o s) fun a b => ite_slt a b b a,
    runsAs_words2 hx (exec_iminU o s) fun a b => ite_ult a b a b, runsAs_words2 hx (exec_imaxU o s) fun a b => ite_ult a b b a,
    runsAs_words2 hx (exec_shl o s) ?shl, runsAs_words2 hx (exec_shr o s) ?shr, runsAs_words2 hx (exec_sar o s) ?sar,
    runsAs_words2 hx (exec_rol o s) ?rol⟩
  case shl => exact fun a b => by rw [shl_eq, shiftCount_eq]
  case shr => exact fun a b => by rw [shr_eq, shiftCount_eq]
  case sar => exact fun a b => by rw [sar_eq, shiftCount_eq]
  case rol => exact fun a b => by rw [shiftCount_eq]

/-! ### Bit fields and bit counts (R185, R186) -/

theorem toNat_extract_low {w : Nat} (v : BitVec w) (n : Nat) : (v.extractLsb' 0 n).toNat = v.toNat % 2 ^ n := by
  simp

/-- The integer that the low `w` bits hold in two's complement. -/
theorem intVal_below {w f : Nat} (hf : f < 2 ^ w) :
    intVal w true f = if 2 ^ (w - 1) ≤ f then (f : Int) - 2 ^ w else f := by
  have h := BitVec.msb_eq_decide (BitVec.ofNat w f)
  rw [BitVec.msb_eq_getLsbD_last, BitVec.getLsbD, BitVec.toNat_ofNat, Nat.mod_eq_of_lt hf] at h
  simp only [intVal, Nat.mod_eq_of_lt hf, h, Bool.true_and, decide_eq_true_eq]

theorem bfx_eq (sgn : Bool) (a b : Word) :
    bfx sgn a b =
      let p := b.toNat % 32
      let w := min (min (b.toNat / 256 % 64) 32) (32 - p)
      let f := a.toNat / 2 ^ p % 2 ^ w
      if sgn = true ∧ w ≠ 0 ∧ 2 ^ (w - 1) ≤ f then BitVec.ofInt 32 ((f : Int) - 2 ^ w) else BitVec.ofNat 32 f := by
  rw [bfx, field_eq]
  dsimp only
  generalize b.toNat % 32 = p
  generalize min (min (b.toNat / 256 % 64) 32) (32 - p) = w
  have hf : a.toNat / 2 ^ p % 2 ^ w < 2 ^ w := Nat.mod_lt _ (by positivity)
  generalize a.toNat / 2 ^ p % 2 ^ w = f at hf
  by_cases hs : sgn = true ∧ w ≠ 0
  · obtain ⟨hsgn, hw⟩ := hs
    simp only [hsgn, bne_iff_ne.2 hw, hw, Bool.and_self, if_true, true_and, ne_eq, not_false_eq_true,
      intVal_below hf, ofNat_wrapBits]
    split <;> simp
  · rw [if_neg (by simpa using hs), if_neg (fun h => hs ⟨h.1, h.2.1⟩)]

theorem shiftLeft_eq_mul_ofNat (b : Dword) (k : Nat) : b <<< k = b * BitVec.ofNat 64 (2 ^ k) :=
  BitVec.eq_of_toNat_eq (by simp [Nat.shiftLeft_eq])

theorem iabs_eq (a : Word) : (if a.getLsbD 31 then -a else a) = BitVec.ofNat 32 a.toInt.natAbs := by
  apply BitVec.eq_of_toNat_eq
  have h := a.isLt
  have hm := BitVec.msb_eq_getLsbD_last a
  rw [BitVec.toInt_eq_msb_cond, hm]
  split
  · rw [BitVec.toNat_neg, BitVec.toNat_ofNat]; omega
  · rw [BitVec.toNat_ofNat]; omega

/-- Settles O4: fields, counts and products by what is known of them bit by bit. -/
theorem bitOperations : Obligations.BitOperations := by
  unfold Obligations.BitOperations
  refine ⟨fun s x o hx => ⟨?bfx, ⟨bfi, runsAs_withEx hx (exec_bfi o s) rfl, bfi_bit⟩, ?lea⟩,
    fun s x o hx => ⟨?popc, ⟨clz, runsAs_words1 hx (exec_clz o s) fun _ => rfl, clz_spec⟩,
      ⟨ctz, runsAs_words1 hx (exec_ctz o s) fun _ => rfl, ctz_spec⟩,
      ⟨BitVec.reverse, runsAs_words1 hx (exec_brev o s) fun _ => rfl, ?brev⟩, runsAs_words1 hx (exec_iabs o s) iabs_eq⟩,
    fun s x o hx => ⟨clmul, runsAs_words2 hx (exec_clmulLo o s) fun _ _ => rfl,
      runsAs_words2 hx (exec_clmulHi o s) fun _ _ => rfl, clmul_bit⟩⟩
  case bfx => exact runsAs_withEx hx (exec_bfx o s) (by simp only [bfx_eq]; rfl)
  case lea => exact runsAs_withEx hx (exec_lea o s) (by simp only [shiftLeft_eq_mul_ofNat, toNat_extract_low]; rfl)
  case popc => exact runsAs_words1 hx (exec_popc o s) fun _ => rfl
  case brev =>
    intro a i hi
    rw [BitVec.getLsbD_reverse, BitVec.getMsbD_eq_getLsbD, decide_eq_true hi, Bool.true_and]

/-! ### Moves and mask instructions (R187, R196–R198) -/

/-- What a mask instruction does that writes `f`: every bit below W, whatever m0 is (R197, R198). -/
theorem maskOp_writes {s : State} {x : Ex} (hx : s.ex? = some x) {i : Instr} {d : BitVec 4} {m : Ex → Lanes} {f : Nat → Bool}
    (h : exec i s = maskOp d m s) (hf : ∀ l, l < 64 → (m x).getLsbD l = f l) :
    let bad := d.toNat = 0 ∨ 13 < d.toNat ∨ x.g.isQueue = true
    (bad → exec i s = .next (s.illegal x)) ∧
    (¬ bad → ∃ t g, exec i s = .next t ∧ OnlyGroup s t x.gid ∧ t = (s.setGroup x.gid g).finish x ∧
      g = x.g.withRegs x.g.v x.g.sr g.m ∧ (∀ n, n ≠ d.toNat → g.readM n = x.g.readM n) ∧
      ∀ l, (g.readM d.toNat).getLsbD l = (decide (l < 64) && decide (l < x.g.width) && f l)) := by
  rw [h, maskOp, withEx_eq hx]
  refine ⟨fun hbad => by rw [if_pos (by simpa [or_assoc] using hbad)], fun hok => ?_⟩
  rw [if_neg (by simpa [or_assoc] using hok)]
  refine ⟨_, x.g.writeM d.toNat (m x), rfl, (onlyGroup_setGroup _ _ _).trans (onlyGroup_finish _ _), rfl, rfl,
    fun n hn => Group.readM_writeM_ne _ _ hn, fun l => ?_⟩
  rw [Group.readM_writeM_self, BitVec.getLsbD_and, getLsbD_widthMask, Bool.and_comm]
  by_cases hl : l < 64
  · rw [hf l hl]
  · simp [hl]

/-- Settles O5: moves and SEL are ALU instructions, and a mask instruction writes one mask register. -/
theorem movesAndMasks : Obligations.MovesAndMasks := by
  unfold Obligations.MovesAndMasks
  refine ⟨fun s x hx => ⟨fun o => ?mov, fun o => ?movl, fun o => ?movi, fun o => ⟨fun hok => ?sel, fun hbad => ?selQueue⟩,
    fun d a => ⟨fun hok => ?mpop, fun hbad => ?mpopQueue⟩⟩, fun s x d a b hx => ⟨?mand, ?mor, ?mxor, ?mnot⟩⟩
  case mov => exact runsAs_words1 hx (exec_mov o s) fun _ => rfl
  case movl => exact runsAs_withEx hx (exec_movl o s) rfl
  case movi => exact runsAs_withEx hx (exec_movi o s) rfl
  case sel => exact runsAs_of ((withEx_eq hx _).trans (congrArg _ (if_neg (by simpa using hok))))
  case selQueue => exact (withEx_eq hx _).trans (congrArg _ (if_pos (by simpa using hbad)))
  case mpop => exact runsAs_of ((withEx_eq hx _).trans (congrArg _ (if_neg (by simpa using hok))))
  case mpopQueue => exact (withEx_eq hx _).trans (congrArg _ (if_pos (by simpa using hbad)))
  case mand => exact maskOp_writes hx (exec_mand d a b s) fun l _ => BitVec.getLsbD_and
  case mor => exact maskOp_writes hx (exec_mor d a b s) fun l _ => BitVec.getLsbD_or
  case mxor => exact maskOp_writes hx (exec_mxor d a b s) fun l _ => BitVec.getLsbD_xor
  case mnot => exact maskOp_writes hx (exec_mnot d a s) fun l hl => by simp [hl]

end Sys2Proof.Machine
end

section
/-! Settles O6 (CompareInstructions): the compares, and the conditions of the floating-point ones (R187, R189). -/

namespace Sys2Proof.Machine

/-! ### The integers compared (R187) -/

theorem intVal_mod (w : Nat) (signed : Bool) (n : Nat) : intVal w signed (n % 2 ^ w) = intVal w signed n := by
  simp only [intVal, Nat.mod_mod]

/-- The low word of a value, as ICMP reads it. -/
theorem intVal_low_word (u : Bool) (d : Dword) :
    intVal 32 (!u) d.toNat = if u then ((d.setWidth 32).toNat : Int) else (d.setWidth 32).toInt := by
  have h := intVal_mod 32 (!u) d.toNat
  rw [← BitVec.toNat_setWidth] at h
  cases u
  · exact h.symm.trans (intVal_signed _)
  · exact h.symm.trans (intVal_unsigned _)

theorem intVal_dword (u : Bool) (d : Dword) : intVal 64 (!u) d.toNat = if u then (d.toNat : Int) else d.toInt := by
  cases u
  · exact intVal_signed d
  · exact intVal_unsigned d

theorem intCond_eq (cc : Nat) (a b : Int) :
    intCond cc a b = if cc = 0 then decide (a = b) else if cc = 1 then decide (a ≠ b) else if cc = 2 then decide (a < b)
      else if cc = 3 then decide (a ≤ b) else if cc = 4 then decide (a > b) else decide (a ≥ b) := by
  match cc with
  | 0 | 1 | 2 | 3 | 4 => rfl
  | n + 5 => simp [intCond]

/-- A meaning that hands the ALU one compare, as each equal condition says it. -/
theorem compares_withEx {s : State} {x : Ex} (hx : s.ex? = some x) {i : Instr} {o : EOps} {k : Kind} {f g : List Dword → Bool}
    (h : exec i s = s.withEx fun x => s.aluMask x o.d [(k, o.a), (k, o.b)] o.lit f) (hfg : ∀ v, f v = g v) :
    Compares i s x o k g := by
  obtain rfl : f = g := funext hfg
  exact compares_of (h.trans (withEx_eq hx _))

/-! ### Finite values at a common unit (R189) -/

/-- A smaller unit multiplies the integer that stands for a value. -/
theorem toScale_unit (neg : Bool) (n : Nat) {e q r : Int} (hr : r ≤ q) (hq : q ≤ e) :
    toScale neg n e r = toScale neg n e q * 2 ^ (q - r).toNat := by
  have he : (e - r).toNat = (e - q).toNat + (q - r).toNat := by omega
  cases neg <;> simp [toScale, he, pow_add, mul_assoc]

theorem toScale_eq_mul (neg : Bool) (n : Nat) (e q : Int) :
    toScale neg n e q = (if neg then -1 else 1) * ((n * 2 ^ (e - q).toNat : Nat) : Int) := by
  cases neg <;> simp [toScale]

section
variable (s t : Bool) (n m : Nat) {e d q : Int} (he : q ≤ e) (hd : q ≤ d)
include he hd

theorem eqv_fin_unit : (FV.fin s n e).eqv (.fin t m d) = decide (toScale s n e q = toScale t m d q) := by
  have hq : q ≤ min e d := le_min he hd
  have hpos : (0 : Int) < 2 ^ (min e d - q).toNat := by positivity
  rw [toScale_unit s n hq (min_le_left e d), toScale_unit t m hq (min_le_right e d)]
  exact decide_eq_decide.2 (mul_left_inj' hpos.ne').symm

theorem lt_fin_unit : (FV.fin s n e).lt (.fin t m d) = decide (toScale s n e q < toScale t m d q) := by
  have hq : q ≤ min e d := le_min he hd
  have hpos : (0 : Int) < 2 ^ (min e d - q).toNat := by positivity
  rw [toScale_unit s n hq (min_le_left e d), toScale_unit t m hq (min_le_right e d)]
  exact decide_eq_decide.2 (mul_lt_mul_iff_left₀ hpos).symm

end

theorem toScale_zero (neg : Bool) (e q : Int) : toScale neg 0 e q = 0 := by
  cases neg <;> simp [toScale]

/-! ### The statement -/

theorem fpCond_nan {cc : Nat} {a b : FV} (hcc : cc < 8) (h : a = .nan ∨ b = .nan) : fpCond cc a b = (cc == 1 || cc == 7) := by
  have hnan : a.eqv b = false ∧ a.lt b = false ∧ b.lt a = false ∧ (a.isNan || b.isNan) = true := by
    rcases h with rfl | rfl
    · cases b <;> exact ⟨rfl, rfl, rfl, rfl⟩
    · cases a <;> exact ⟨rfl, rfl, rfl, rfl⟩
  obtain ⟨heq, hlt, hgt, huno⟩ := hnan
  interval_cases cc <;> simp [fpCond, heq, hlt, hgt, huno]

theorem isNan_eq_false {a : FV} (h : a ≠ .nan) : a.isNan = false := by
  cases a
  · exact absurd rfl h
  · rfl
  · rfl

/-- Settles O6: the ALU's own write of a mask, and the orders of values at any common unit. -/
theorem compareInstructions : Obligations.CompareInstructions := by
  unfold Obligations.CompareInstructions
  refine ⟨fun s x o hx => ?compares, fun cc a b hcc h => fpCond_nan hcc h, fun s t e f => ?zeros,
    fun s t n m e d q he hd => ⟨?equal, ?less⟩, fun s t => ⟨rfl, rfl⟩, fun s t n e => ⟨rfl, rfl, rfl, rfl⟩,
    fun a b ha hb => ⟨rfl, rfl, rfl, rfl, ?ordered, ?unordered⟩⟩
  case compares =>
    have hcc : (o.minor.extractLsb' 0 3).toNat = o.minor.toNat % 8 := toNat_extract_low o.minor 3
    refine ⟨compares_withEx hx (exec_icmp o s) fun v => ?_,
      compares_withEx hx (exec_fcmp o s) fun v => congrArg (fpCond · _ _) hcc,
      compares_withEx hx (exec_dcmp o s) fun v => congrArg (fpCond · _ _) hcc⟩
    · rw [intCond_eq, hcc]
      cases o.minor.getLsbD 4
      · simp only [Bool.false_eq_true, if_false, intVal_low_word]
      · simp only [if_true, intVal_dword]
  case zeros =>
    have hz (s t : Bool) (e f q : Int) : toScale s 0 e q = toScale t 0 f q := by rw [toScale_zero, toScale_zero]
    exact ⟨decide_eq_true (hz s t e f _), decide_eq_false (hz s t e f _).not_lt, decide_eq_false (hz t s f e _).not_lt⟩
  case equal =>
    simp only [← toScale_eq_mul]
    exact eqv_fin_unit s t n m he hd
  case less =>
    simp only [← toScale_eq_mul]
    exact lt_fin_unit s t n m he hd
  case ordered => simp [fpCond, isNan_eq_false ha, isNan_eq_false hb]
  case unordered => simp [fpCond, isNan_eq_false ha, isNan_eq_false hb]

end Sys2Proof.Machine
end

section
/-! Settles O7, O8 and O10 (FpArithmetic, FpFunctions, PackedAndConversions): the floating-point instructions and the conversions,
each as an ALU instruction with its result (R188–R195). -/

namespace Sys2Proof.Machine

section
variable {s : State} {x : Ex} (hx : s.ex? = some x) {i : Instr} {n : Nat}
include hx

theorem runsAs_fp32 {o : EOps} {f : FV → FV → FV → Rnd} (h : exec i s = fpE .fp32 n o f s) : RunsAs i s x (.fp32 n o f) :=
  runsAs_withEx hx h rfl

theorem runsAs_fp64 {o : EOps} {f : FV → FV → FV → Rnd} (h : exec i s = fpE .fp64 n o f s) : RunsAs i s x (.fp64 n o f) :=
  runsAs_withEx hx h rfl

theorem runsAs_fp32Short {o : AOps} {f : FV → FV → Rnd} (h : exec i s = fpShort .fp32 o f s) :
    RunsAs i s x (.short .w32 false .fp32 o f) :=
  runsAs_withEx hx h rfl

theorem runsAs_fp64Short {o : AOps} {f : FV → FV → Rnd} (h : exec i s = fpShort .fp64 o f s) :
    RunsAs i s x (.short .f64 true .fp64 o f) :=
  runsAs_withEx hx h rfl

theorem runsAs_packed {o : EOps} {f : FF → FV → FV → FV → Rnd} (h : exec i s = hpE n o f s) : RunsAs i s x (.packed n o f) :=
  runsAs_withEx hx h rfl

end

/-- Settles O7: each instruction hands the ALU its one rounded result. -/
theorem fpArithmetic : Obligations.FpArithmetic := by
  unfold Obligations.FpArithmetic
  refine ⟨fun s x hx => ⟨fun o => ?fp32, fun o => ?fp32Short⟩, fun s x hx => ⟨fun o => ?fp64, fun o => ?fp64Short⟩⟩
  case fp32 =>
    exact ⟨runsAs_fp32 hx (exec_fadd o s), runsAs_fp32 hx (exec_fsub o s), runsAs_fp32 hx (exec_fmul o s),
      runsAs_fp32 hx (exec_ffma o s), runsAs_fp32 hx (exec_fmin o s), runsAs_fp32 hx (exec_fmax o s),
      runsAs_withEx hx (exec_fclass o s) rfl⟩
  case fp32Short =>
    exact ⟨runsAs_fp32Short hx (exec_faddShort o s), runsAs_fp32Short hx (exec_fsubShort o s),
      runsAs_fp32Short hx (exec_fmulShort o s), runsAs_fp32Short hx (exec_fmaxShort o s)⟩
  case fp64 =>
    exact ⟨runsAs_fp64 hx (exec_dadd o s), runsAs_fp64 hx (exec_dmul o s), runsAs_fp64 hx (exec_dfma o s),
      runsAs_fp64 hx (exec_dmin o s), runsAs_fp64 hx (exec_dmax o s), runsAs_fp64 hx (exec_ddiv o s),
      runsAs_fp64 hx (exec_dsqrt o s)⟩
  case fp64Short => exact ⟨runsAs_fp64Short hx (exec_daddShort o s), runsAs_fp64Short hx (exec_dmulShort o s)⟩

/-- Settles O8: each instruction hands the ALU the function of its one or two sources. -/
theorem fpFunctions : Obligations.FpFunctions := by
  unfold Obligations.FpFunctions
  intro s x o hx
  exact ⟨runsAs_fp32 hx (exec_frcp o s), runsAs_fp32 hx (exec_fsqrt o s), runsAs_fp32 hx (exec_fdiv o s),
    runsAs_fp32 hx (exec_frsq o s), runsAs_fp32 hx (exec_fexp2 o s), runsAs_fp32 hx (exec_flog2 o s),
    runsAs_fp32 hx (exec_ftanh o s), runsAs_fp32 hx (exec_fsin o s), runsAs_fp32 hx (exec_fcos o s),
    runsAs_fp32 hx (exec_frnd o s), runsAs_withEx hx (exec_fldexp o s) rfl⟩

/-! ### Conversions (R193–R195) -/

/-- A field of the minor word (R135). -/
theorem toNat_extract {w : Nat} (v : BitVec w) (lo n : Nat) : (v.extractLsb' lo n).toNat = v.toNat / 2 ^ lo % 2 ^ n := by
  rw [BitVec.extractLsb'_toNat, Nat.shiftRight_eq_div_pow]

theorem two_mul_ite (b : Bool) : 2 * (if b then 1 else 0) = 2 * b.toNat := by
  cases b <;> rfl

/-- Settles O10: both halves of a packed word by one function, and the formats of a conversion by the fields of MINOR. -/
theorem packedAndConversions : Obligations.PackedAndConversions := by
  unfold Obligations.PackedAndConversions
  refine ⟨fun s x hx => ⟨fun o => ⟨runsAs_packed hx (exec_hadd2 o s), runsAs_packed hx (exec_hmul2 o s),
      runsAs_packed hx (exec_hfma2 o s)⟩,
    fun o => ⟨runsAs_withEx hx (exec_hadd2Short o s) rfl, runsAs_withEx hx (exec_hmul2Short o s) rfl⟩⟩, fun s x o hx => ?_⟩
  have hdst : (o.minor.extractLsb' 0 4).toNat = o.minor.toNat % 16 := toNat_extract_low _ 4
  have hsrc : (o.minor.extractLsb' 4 4).toNat = o.minor.toNat / 16 % 16 := toNat_extract _ 4 4
  have hsel : (o.minor.extractLsb' 8 2).toNat = o.minor.toNat / 256 % 4 := toNat_extract _ 8 2
  refine ⟨runsAs_withEx hx (exec_cvt o s) ?_, runsAs_withEx hx (exec_pack o s) ?_, runsAs_withEx hx (exec_unpk o s) ?_⟩
  · rw [hdst, hsrc, hsel]; rfl
  · by_cases hwide : fmtBits (o.minor.toNat % 16) = 16
    · simp only [hdst, hsrc, hwide]; rfl
    · simp only [hdst, hsrc, if_neg hwide]; rfl
  · simp only [hdst, hsrc, two_mul_ite]; rfl

end Sys2Proof.Machine
end

section
/-! Settles O11 (CrossLaneInstructions): shuffles, quad instructions, and the instructions with one result over the active lanes
(R199–R203). -/

namespace Sys2Proof.Machine

/-! ### SHFL (R200) -/

/-- The place that SHFL names, whether or not a lane stands there. -/
def shflPlace (mode base l b : Nat) : Int :=
  if mode = 0 then (base : Int) + b else if mode = 1 then (l : Int) - b else if mode = 2 then (l : Int) + b
  else ((l ^^^ b : Nat) : Int)

theorem shflLane_eq (mode z w : Nat) (m : Lanes) (l b : Nat) :
    shflLane mode z w m l b =
      let src := shflPlace mode (l - l % z) l b
      if ((l - l % z : Nat) : Int) ≤ src ∧ src < ((l - l % z : Nat) : Int) + z ∧ src < w ∧ m.getLsbD src.toNat = true then
        some src.toNat
      else none := by
  simp only [shflLane, Bool.and_eq_true, decide_eq_true_eq, and_assoc]
  match mode with
  | 0 | 1 | 2 => rfl
  | n + 3 => simp [shflPlace]

/-- What SHFL gives a lane: the word of the lane that it names, or the lane's own. -/
theorem shflLane_elim (mode z w : Nat) (m : Lanes) (l b : Nat) (f : Nat → LaneRes) (own : LaneRes) :
    (shflLane mode z w m l b).elim own f =
      let src := shflPlace mode (l - l % z) l b
      if ((l - l % z : Nat) : Int) ≤ src ∧ src < ((l - l % z : Nat) : Int) + z ∧ src < w ∧ m.getLsbD src.toNat = true then
        f src.toNat
      else own := by
  rw [shflLane_eq]
  exact apply_ite (Option.elim · own f) _ _ _

/-! ### Quad instructions (R203) -/

section
variable {s : State} {x : Ex} (hx : s.ex? = some x) {i : Instr} {o : AOps} {f : (Nat → Word) → Nat → Word → LaneRes}
  (h : exec i s = quadOp o f s)
include hx h

theorem quadOp_refused (hb : badUniform x.g .w32 o.b = true) : exec i s = .next (s.illegal x) :=
  h.trans ((withEx_eq hx _).trans (congrArg _ (if_pos hb)))

/-- A quad instruction with a uniform B runs as each ALU instruction equal to its own. -/
theorem quadOp_runs (hb : badUniform x.g .w32 o.b = false) {g : Nat → List Dword → LaneRes}
    (hg : ∀ l v, f (s.wordIn x o.lit o.a) l (wordAt v 1) = g l v) :
    RunsAs i s x { dst := o.d, srcs := [(.w32, o.a), (.w32, o.b)], lit := o.lit, fn := g } := by
  obtain rfl : (fun l v => f (s.wordIn x o.lit o.a) l (wordAt v 1)) = g := funext fun l => funext (hg l)
  exact runsAs_of (h.trans ((withEx_eq hx _).trans (congrArg _ (if_neg (ne_true_of_eq_false hb)))))

end

/-! ### One result over the active lanes (R201, R202) -/

/-- An instruction with one result: every active lane takes it, or a scalar destination once. -/
theorem cross_one {s : State} {x : Ex} {i : Instr} {wide : Bool} {d a : BitVec 8} {r : LaneRes}
    (h : exec i s = .next (s.cross x d wide [a] r none)) :
    (crossRefused x d wide a = false → ∃ t, exec i s = .next t ∧ Leaves s t x wide d (crossLanes x d) fun _ => r) ∧
      (crossRefused x d wide a = true → exec i s = .next (s.illegal x)) :=
  ⟨fun hok => ⟨_, h, leaves_cross s x d wide a r hok⟩, fun hbad => h.trans (congrArg _ (cross_refused s x d wide a r none hbad))⟩

/-- Of a rising list the members up to one of them are a beginning of it. -/
theorem filter_le_eq_take {ls : List Nat} (h : ls.Pairwise (· < ·)) {n : Nat} (hn : n < ls.length) :
    ls.filter (fun i => decide (i ≤ ls[n])) = ls.take (n + 1) := by
  induction ls generalizing n with
  | nil => simp at hn
  | cons a t ih =>
    obtain ⟨ha, ht⟩ := List.pairwise_cons.1 h
    cases n with
    | zero =>
      have hnone : t.filter (fun i => decide (i ≤ a)) = [] :=
        List.filter_eq_nil_iff.2 fun i hi => by simpa using ha i hi
      simpa using hnone
    | succ n =>
      have hn : n < t.length := by simpa using hn
      have hlt := ha t[n] (List.getElem_mem hn)
      simpa [List.filter_cons, hlt.le] using ih ht hn

/-- The results over the beginnings of a rising list, each at the last lane of its beginning. -/
theorem zip_prefixes {α : Type} (r : List α → LaneRes) (f : Nat → α) {ls : List Nat} (h : ls.Pairwise (· < ·)) :
    ls.zip ((List.range (ls.map f).length).map fun k => r ((ls.map f).take (k + 1))) =
      ls.map fun l => (l, r ((ls.filter fun i => decide (i ≤ l)).map f)) := by
  refine List.ext_getElem (by simp) fun n hn _ => ?_
  have hlen : n < ls.length := by simpa using hn
  simp [filter_le_eq_take h hlen, List.map_take]

theorem laneList_rising (m : Lanes) (w : Nat) : (laneList m w).Pairwise (· < ·) :=
  List.Pairwise.filter _ List.pairwise_lt_range

/-- REDUX.SCAN whose operands are admitted. -/
theorem leaves_scan {s : State} {x : Ex} {d a : BitVec 8} (one : LaneRes) (r : List Word → LaneRes) (f : Nat → Word)
    (hd : isScalar d = false) (hok : crossRefused x d false a = false) :
    Leaves s (s.cross x d false [a] one (some ((List.range (x.list.map f).length).map fun k => r ((x.list.map f).take (k + 1)))))
      x false d x.list fun l => r ((x.list.filter fun i => decide (i ≤ l)).map f) := by
  have hdst : badDst x.g false d = false := by
    simp only [crossRefused, Bool.or_eq_false_iff] at hok
    exact hok.1.1
  have hzip := zip_prefixes r f (ls := x.list) (laneList_rising _ _)
  have heq : s.cross x d false [a] one
      (some ((List.range (x.list.map f).length).map fun k => r ((x.list.map f).take (k + 1)))) =
      ((s.setGroup x.gid (x.g.applyLanes false d (x.list.map fun l =>
        (l, r ((x.list.filter fun i => decide (i ≤ l)).map f))))).addFlags x.gid x.sp.pc
        (flagsOf (x.list.map fun l => (l, r ((x.list.filter fun i => decide (i ≤ l)).map f))))).finish x := by
    rw [← hzip]
    exact if_neg (by simpa [crossRefused] using hok)
  rw [heq]
  exact leaves_applyLanes s x false d x.list _ (laneList_nodup _ _) (fun l hl => lt_of_mem_laneList hl)
    (fun hs => absurd hs (ne_true_of_eq_false hd)) hdst

section
variable {s : State} {x : Ex} {o : EOps} (hx : s.ex? = some x)
include hx

theorem exec_redux_one (hscan : o.minor.getLsbD 4 = false) :
    exec (.redux o) s = .next (s.cross x o.d false [o.a]
      (redux (o.minor.getLsbD 3) (o.minor.toNat % 8) (modRm o) (s.activeWords x o.lit o.a)) none) := by
  refine (exec_redux o s).trans ((withEx_eq hx _).trans ?_)
  simp only [hscan, toNat_extract_low o.minor 3]
  rfl

theorem exec_redux_scan_scalar (hscan : o.minor.getLsbD 4 = true) (hd : isScalar o.d = true) :
    exec (.redux o) s = .next (s.illegal x) := by
  refine (exec_redux o s).trans ((withEx_eq hx _).trans (congrArg _ (if_pos ?_)))
  rw [hscan, hd]; rfl

theorem exec_redux_scan (hscan : o.minor.getLsbD 4 = true) (hd : isScalar o.d = false) :
    exec (.redux o) s = .next (s.cross x o.d false [o.a]
      (redux (o.minor.getLsbD 3) (o.minor.toNat % 8) (modRm o) (s.activeWords x o.lit o.a))
      (some ((List.range (x.list.map (s.wordIn x o.lit o.a)).length).map fun k =>
        redux (o.minor.getLsbD 3) (o.minor.toNat % 8) (modRm o) ((x.list.map (s.wordIn x o.lit o.a)).take (k + 1))))) := by
  refine (exec_redux o s).trans ((withEx_eq hx _).trans ?_)
  simp only [hscan, hd, toNat_extract_low o.minor 3]
  rfl

end

/-- Settles O11: shuffles and quad instructions run on the ALU, the others give one result, or one for each beginning
of the lanes. -/
theorem crossLaneInstructions : Obligations.CrossLaneInstructions := by
  unfold Obligations.CrossLaneInstructions
  refine ⟨fun s x hx => ⟨fun o => runsAs_withEx hx (exec_shfl o s) ?shfl, fun o => ⟨fun hbad => ?quadBad, fun hok => ?quad⟩⟩,
    fun s x hx => ⟨fun o => ⟨fun hbad => ?bcstBad, fun hok => cross_one ?bcst⟩,
      fun o => ⟨cross_one (withEx_eq hx _), cross_one (withEx_eq hx _)⟩,
      fun o => ⟨fun hone => cross_one (exec_redux_one hx hone), exec_redux_scan_scalar hx, fun hscan hbad => ?scanBad,
        fun hscan hd hok => ⟨_, exec_redux_scan hx hscan hd, leaves_scan _ _ _ hd hok⟩⟩⟩⟩
  case shfl =>
    have hmode : (o.minor.extractLsb' 0 2).toNat = o.minor.toNat % 4 := toNat_extract_low _ 2
    have hsize : (o.minor.extractLsb' 2 3).toNat = o.minor.toNat / 4 % 8 := toNat_extract _ 2 3
    refine congrArg (Alu.ext o false _) (funext fun l => funext fun v => ?_)
    have hb : ((wordAt v 1).extractLsb' 0 8).toNat = (wordAt v 1).toNat % 256 := toNat_extract_low _ 8
    rw [hmode, hsize, hb]
    refine Eq.trans ?_ (shflLane_elim (o.minor.toNat % 4) (2 ^ (o.minor.toNat / 4 % 8)) x.g.width x.lanes l
      ((wordAt v 1).toNat % 256) (fun src => res (s.wordIn x o.lit o.a src)) (res (wordAt v 0)))
    cases shflLane _ _ _ _ _ _ <;> rfl
  case quadBad =>
    exact ⟨quadOp_refused hx (exec_qswp o s) hbad, quadOp_refused hx (exec_qbcst o s) hbad, quadOp_refused hx (exec_qdd o s) hbad⟩
  case quad =>
    have hb (w : Word) : (w.extractLsb' 0 2).toNat = w.toNat % 4 := toNat_extract_low w 2
    refine ⟨quadOp_runs hx (exec_qswp o s) hok fun l v => congrArg (fun b => res (s.wordIn x o.lit o.a (l ^^^ b))) (hb _),
      quadOp_runs hx (exec_qbcst o s) hok fun l v => congrArg (fun b => res (s.wordIn x o.lit o.a (4 * (l / 4) + b))) (hb _),
      quadOp_runs hx (exec_qdd o s) hok fun l v => ?_⟩
    rw [hb]
    generalize (wordAt v 1).toNat % 4 = b
    match b with
    | 0 | 1 | 2 | _ + 3 => rfl
  case bcstBad => exact (withEx_eq hx _).trans (congrArg _ (if_pos hbad))
  case bcst => exact (withEx_eq hx _).trans (congrArg _ (if_neg (ne_true_of_eq_false hok)))
  case scanBad =>
    cases hd : isScalar o.d with
    | true => exact exec_redux_scan_scalar hx hscan hd
    | false => exact (exec_redux_scan hx hscan hd).trans (congrArg _ (cross_refused s x o.d false o.a _ _ hbad))

end Sys2Proof.Machine
end

section
/-! Settles O13 and O16 (NopAndBranch, CallsAndReturns): NOP and BRA, calls, indirect transfers and returns (R149, R204, R205,
R208–R211). -/

namespace Sys2Proof.Machine

/-! ### NOP and BRA (R205) -/

/-- A branch that is taken does not fall through. -/
theorem Ex.cond_taken {x : Ex} {m : BitVec 4} (h : m = 0 ∨ x.lanes &&& x.g.readM m.toNat ≠ 0) :
    (m != 0 && x.cond m = 0) = false := by
  by_cases hm : m = 0
  · rw [hm]; rfl
  · have hsome : x.cond m ≠ 0 := (if_neg hm).trans_ne (h.resolve_left hm)
    exact Bool.and_eq_false_iff.2 (.inr (decide_eq_false hsome))

section
variable {s : State} {x : Ex} {o : COps} (hx : s.ex? = some x) (hok : x.badTransfer o.mr = false)
include hx hok

theorem execBra_falls (ht : ¬ (o.mr = 0 ∨ x.lanes &&& x.g.readM o.mr.toNat ≠ 0)) :
    execBra o s = .next (s.goto x x.nextHeader) := by
  obtain ⟨hm, hl⟩ := not_or.1 ht
  have hnone : x.cond o.mr = 0 := (if_neg hm).trans (not_ne_iff.1 hl)
  have hfalls : (o.mr != 0 && x.cond o.mr = 0) = true :=
    Bool.and_eq_true_iff.2 ⟨bne_iff_ne.2 hm, decide_eq_true hnone⟩
  exact (withEx_eq hx _).trans (by simp only [hok, hfalls]; rfl)

variable (ht : o.mr = 0 ∨ x.lanes &&& x.g.readM o.mr.toNat ≠ 0)
include ht

theorem execBra_stops {st : Stop} (hw : s.codeWord x.g (wordTarget x.sp.pc o.off) = .error st) :
    execBra o s = .next (s.stopWhole x st (wordTarget x.sp.pc o.off) .exec) :=
  (withEx_eq hx _).trans (by simp only [hok, Ex.cond_taken ht, hw]; rfl)

theorem execBra_arrives {w : Word} {u : State} (hw : s.codeWord x.g (wordTarget x.sp.pc o.off) = .ok (w, u)) :
    execBra o s = .next (if isHeader w then (u.capture x (wordTarget x.sp.pc o.off)).goto x (wordTarget x.sp.pc o.off)
      else u.illegal x) :=
  (withEx_eq hx _).trans (by simp only [hok, Ex.cond_taken ht, hw]; rfl)

end

/-- Settles O13: NOP is one move; BRA falls through, stops in translation or meets the word at its target. -/
theorem nopAndBranch : Obligations.NopAndBranch := by
  unfold Obligations.NopAndBranch
  refine fun s x hx => ⟨withEx_eq hx _, fun o => ⟨fun hbad => ?refused, fun hok => execBra_falls hx hok,
    fun hok ht => ⟨fun st => execBra_stops hx hok ht, fun w u hw => ⟨fun hh => ?header, fun hh => ?noHeader⟩⟩⟩⟩
  case refused => exact (withEx_eq hx _).trans (congrArg _ (if_pos hbad))
  case header => exact (execBra_arrives hx hok ht hw).trans (congrArg _ (if_pos hh))
  case noHeader => exact (execBra_arrives hx hok ht hw).trans (congrArg _ (if_neg (ne_true_of_eq_false hh)))

/-! ### CALL (R208) -/

section
variable {s u v : State} {x : Ex} {off : BitVec 20} {w : Word} {r rpc : Nat} (hx : s.ex? = some x)
  (hok : x.badTransfer 0 = false) (hw : s.codeWord x.g (wordTarget x.sp.pc off) = .ok (w, u))
include hx hok hw

theorem execCall_noEntry (he : entryOf w (wordTarget x.sp.pc off) = none) : execCall off s = .next (u.illegal x) :=
  (withEx_eq hx _).trans (by simp only [hok, hw, he]; rfl)

variable (he : entryOf w (wordTarget x.sp.pc off) = some r)
include he

theorem execCall_overBudget (hb : (!x.g.isQueue && x.g.rblk < r && !u.blocksAllowed x.g r) = true) :
    execCall off s = .next (u.illegal x) :=
  (withEx_eq hx _).trans (by simp only [hok, hw, he, hb]; rfl)

theorem execCall_enters (hb : (!x.g.isQueue && x.g.rblk < r && !u.blocksAllowed x.g r) = false)
    (hp : u.skipPads x.g padFuel x.nextHeader = .ok (rpc, v)) :
    execCall off s = .next (((v.modGroup x.gid fun g => g.link x.list rpc).goto x (wordTarget x.sp.pc off)).enter x x.sid
      (wordTarget x.sp.pc off) r (v.parkAfter x != Park.no)) :=
  (withEx_eq hx _).trans (by simp only [hok, hw, he, hb, hp]; rfl)

end

theorem State.enter_fits {s : State} {x : Ex} {sid va r : Nat} {drain : Bool} (h : x.g.isQueue = true ∨ r ≤ x.g.rblk) :
    s.enter x sid va r drain = s.modSplit x.gid sid fun sp => { sp with pc := va + 4 } :=
  if_pos (by simpa using h)

theorem State.enter_grows {s : State} {x : Ex} {sid va r : Nat} {drain : Bool} (hq : x.g.isQueue = false) (hr : x.g.rblk < r) :
    s.enter x sid va r drain =
      (s.modSplit x.gid sid fun sp => { sp with pc := va + 4 }).requestRegs x.gid sid x.g.core r none drain :=
  if_neg (by simpa [hq] using hr)

/-! ### CALLI and JMPI (R209, R210) -/

/-- The targets that the lanes hold in a pair (R209, R210). -/
def State.pairTargets (s : State) (x : Ex) (o : TOps) : List (Nat × Nat) :=
  x.list.map fun l => (l, (s.readSrc x o.lit .i64 o.a l).toNat % 2 ^ 52)

section
variable {s : State} {x : Ex} {o : TOps} (hx : s.ex? = some x)
include hx

theorem execCalli_refused (hb : (x.badTransfer 0 || badSrc x.g .i64 o.a) = true) : execCalli o s = .next (s.illegal x) :=
  (withEx_eq hx _).trans (congrArg _ (if_pos hb))

theorem execJmpi_refused (hb : (x.badTransfer 0 || badSrc x.g .i64 o.a) = true) : execJmpi o s = .next (s.illegal x) :=
  (withEx_eq hx _).trans (congrArg _ (if_pos hb))

variable (hok : (x.badTransfer 0 || badSrc x.g .i64 o.a) = false) {j : Judged}
include hok

section
variable (hj : s.judgeAll x .marked (s.pairTargets x o) = j)
include hj

theorem execJmpi_fatal {c va : Nat} (hf : j.fatal = some (c, va)) :
    execJmpi o s = .next ((s.touchCode x.g (s.pairTargets x o)).fatalEx x c va) := by
  rw [← hj, State.pairTargets] at hf
  exact (withEx_eq hx _).trans (by simp only [hok, hf]; rfl)

theorem execJmpi_judged (hf : j.fatal = none) :
    execJmpi o s = .next (
      let u := s.touchCode x.g (s.pairTargets x o)
      if j.misses != [] then u.parkPages x j.misses x.lanes .exec else u.jump x j (s.pairTargets x o)) := by
  rw [← hj, State.pairTargets] at hf ⊢
  exact (withEx_eq hx _).trans (by simp only [hok, hf]; rfl)

end

variable (hj : s.judgeAll x .entry (s.pairTargets x o) = j)
include hj

theorem execCalli_fatal {c va : Nat} (hf : j.fatal = some (c, va)) :
    execCalli o s = .next ((s.touchCode x.g (s.pairTargets x o)).fatalEx x c va) := by
  rw [← hj, State.pairTargets] at hf
  exact (withEx_eq hx _).trans (by simp only [hok, hf]; rfl)

variable (hf : j.fatal = none)
include hf

theorem execCalli_misses (hm : j.misses ≠ []) :
    execCalli o s = .next ((s.touchCode x.g (s.pairTargets x o)).parkPages x j.misses x.lanes .exec) := by
  rw [← hj, State.pairTargets] at hf hm ⊢
  exact (withEx_eq hx _).trans (by simp only [hok, hf, bne_iff_ne.2 hm]; rfl)

variable (hm : j.misses = []) {rpc : Nat} {u : State}
  (hp : (s.touchCode x.g (s.pairTargets x o)).skipPads x.g padFuel x.nextHeader = .ok (rpc, u))
include hm hp

theorem execCalli_good (hb : j.bad = 0) : execCalli o s = .next (u.calliGood x j.goods rpc) := by
  rw [State.pairTargets] at hp
  rw [← hj, State.pairTargets] at hf hm hb ⊢
  exact (withEx_eq hx _).trans (by simp only [hok, hf, hm, hp, if_pos hb]; rfl)

/-- Without a good target no lane leaves the split. -/
theorem execCalli_bad (hb : j.bad ≠ 0) (hg : j.goods = []) :
    execCalli o s = .next ((u.keepLanes x x.sp.mask).badTrap x j (s.pairTargets x o)) := by
  have hkept : x.sp.mask &&& ~~~(lanesOf []) = x.sp.mask := by
    rw [show lanesOf [] = 0#64 from rfl, BitVec.not_zero, BitVec.and_allOnes]
  rw [State.pairTargets] at hp
  rw [← hj, State.pairTargets] at hf hm hb hg ⊢
  exact (withEx_eq hx _).trans (by
    simp only [hok, hf, hm, hp, if_neg hb, hg, List.take_nil, List.length_nil, State.scatter, hkept]
    rfl)

end

/-! ### RET (R211) -/

/-- The return addresses of the lanes. -/
def Ex.retTargets (x : Ex) : List (Nat × Nat) := x.list.map fun l => (l, x.g.retAddr l)

section
variable {s : State} {x : Ex} (hx : s.ex? = some x)
include hx

theorem execRet_refused (hb : (x.badTransfer 0 || (!x.g.isQueue && x.g.rblk = 0)) = true) : execRet s = .next (s.illegal x) :=
  (withEx_eq hx _).trans (congrArg _ (if_pos hb))

variable (hok : (x.badTransfer 0 || (!x.g.isQueue && x.g.rblk = 0)) = false) {j : Judged}
  (hj : s.judgeAll x .header x.retTargets = j)
include hok hj

theorem execRet_fatal {c va : Nat} (hf : j.fatal = some (c, va)) :
    execRet s = .next ((s.touchCode x.g x.retTargets).fatalEx x c va) := by
  rw [← hj, Ex.retTargets] at hf
  exact (withEx_eq hx _).trans (by simp only [hok, hf]; rfl)

variable (hf : j.fatal = none)
include hf

theorem execRet_misses (hm : j.misses ≠ []) :
    execRet s = .next ((s.touchCode x.g x.retTargets).parkPages x j.misses x.lanes .exec) := by
  rw [← hj, Ex.retTargets] at hf hm ⊢
  exact (withEx_eq hx _).trans (by simp only [hok, hf, bne_iff_ne.2 hm]; rfl)

variable (hm : j.misses = [])
include hm

theorem execRet_good (hb : j.bad = 0) : execRet s = .next ((s.touchCode x.g x.retTargets).jump x j x.retTargets) := by
  rw [← hj, Ex.retTargets] at hf hm hb ⊢
  exact (withEx_eq hx _).trans (by simp only [hok, hf, hm, if_pos hb]; rfl)

theorem execRet_bad (hb : j.bad ≠ 0) :
    execRet s = .next (
      let u := s.touchCode x.g x.retTargets
      if j.inv.getLsbD (lowLane j.bad) then u.trap x 0x05 j.bad (x.g.retAddr (lowLane j.bad)) else u.trap x 0x01 j.bad 0) := by
  rw [← hj, Ex.retTargets] at hf hm hb ⊢
  exact (withEx_eq hx _).trans (by simp only [hok, hf, hm, if_neg hb]; rfl)

end

/-- JMPI and RET whose lanes all hold one good address move the whole split (R210, R211). -/
theorem State.jump_one (u : State) {x : Ex} {j : Judged} (ts : List (Nat × Nat)) {d : Dest} (hb : j.bad = 0) (hg : j.goods = [d])
    (hrest : x.sp.mask &&& ~~~x.lanes = 0) :
    u.jump x j ts = (u.goto x d.va).modSplit x.gid x.sid fun sp => { sp with mask := d.mask } := by
  have hnone : x.rest = [] := if_pos hrest
  simp only [State.jump, hb, hg, hnone]
  rfl

/-- Settles O16: each instruction by the fate of its lanes, once its operands are admitted. -/
theorem callsAndReturns : Obligations.CallsAndReturns := by
  unfold Obligations.CallsAndReturns
  refine ⟨fun s x off hx => ⟨fun hbad => (withEx_eq hx _).trans (congrArg _ (if_pos hbad)), fun hok w u hw =>
      ⟨execCall_noEntry hx hok hw, fun r he => ⟨fun hq hr hb => ?overBudget, fun hfits rpc v hp => ?fits,
        fun hq hr hb rpc v hp => ?grows⟩⟩⟩,
    fun s x o hx => ?indirect, fun u x j ts d hb hg hrest => u.jump_one ts hb hg hrest⟩
  case overBudget => exact execCall_overBudget hx hok hw he (by simp [hq, hr, hb])
  case fits =>
    have hbudget : (!x.g.isQueue && x.g.rblk < r && !u.blocksAllowed x.g r) = false := by
      rcases hfits with hq | hr
      · simp [hq]
      · simp [Nat.not_lt.2 hr]
    exact (execCall_enters hx hok hw he hbudget hp).trans (congrArg _ (State.enter_fits hfits))
  case grows =>
    exact (execCall_enters hx hok hw he (by simp [hb]) hp).trans (congrArg _ (State.enter_grows hq hr))
  case indirect =>
    have refused (h : x.badTransfer 0 = true ∨ badSrc x.g .i64 o.a = true) : (x.badTransfer 0 || badSrc x.g .i64 o.a) = true := by
      simpa using h
    have admitted (h : ¬ (x.badTransfer 0 = true ∨ badSrc x.g .i64 o.a = true)) :
        (x.badTransfer 0 || badSrc x.g .i64 o.a) = false := by simpa using h
    refine ⟨fun h => ⟨execCalli_refused hx (refused h), execJmpi_refused hx (refused h)⟩,
      fun h => execCalli_misses hx (admitted h) rfl,
      fun h hf hm rpc u hp => ⟨execCalli_good hx (admitted h) rfl hf hm hp, execCalli_bad hx (admitted h) rfl hf hm hp⟩,
      fun h c va => execCalli_fatal hx (admitted h) rfl, fun h hf hm => ?jump, fun h hf hm => ?jumpMisses,
      fun h c va => execJmpi_fatal hx (admitted h) rfl, fun h => execRet_refused hx (by simpa using h), fun hb hr => ?ret⟩
    case jump => exact (execJmpi_judged hx (admitted h) rfl hf).trans (congrArg _ (if_neg fun hne => bne_iff_ne.1 hne hm))
    case jumpMisses => exact (execJmpi_judged hx (admitted h) rfl hf).trans (congrArg _ (if_pos (bne_iff_ne.2 hm)))
    case ret =>
      have hok : (x.badTransfer 0 || (!x.g.isQueue && x.g.rblk = 0)) = false := by
        rw [hb]
        rcases hr with hq | hr
        · simp [hq]
        · simp [hr]
      refine ⟨fun c va => execRet_fatal hx hok rfl, execRet_misses hx hok rfl, fun hf hm => ⟨execRet_good hx hok rfl hf hm,
        fun hbad hinv => ?_, fun hbad hinv => ?_⟩⟩
      · exact (execRet_bad hx hok rfl hf hm hbad).trans (congrArg _ (if_neg (ne_true_of_eq_false hinv)))
      · exact (execRet_bad hx hok rfl hf hm hbad).trans (congrArg _ (if_pos hinv))

end Sys2Proof.Machine
end

section
/-! Settles O35 (GroupBarriersExitFence): cluster and grid barriers, EXIT and FENCE (R212, R298, R311, R312, R330, R331). -/

namespace Sys2Proof.Machine

/-! ### What a release leaves of the package's links (R220, R378) -/

theorem State.fillBad_pkg (s : State) (line : Nat) (m : BitVec 4) : (s.fillBad line m).pkg = s.pkg := by
  unfold State.fillBad
  split <;> rfl

theorem State.l2Evict_pkg (s : State) (line : Nat) : (s.l2Evict line).pkg = s.pkg := by
  unfold State.l2Evict
  split
  · rfl
  · dsimp only
    split <;> rfl

theorem State.l2Room_pkg (s : State) (line : Nat) : (s.l2Room line).pkg = s.pkg := by
  unfold State.l2Room
  dsimp only
  split
  · rfl
  · split
    · exact s.l2Evict_pkg _
    · rfl

theorem State.l2Fill_pkg (s : State) (line : Nat) (m : BitVec 4) : (s.l2Fill line m).pkg = s.pkg := by
  unfold State.l2Fill
  split
  · split
    · rfl
    · exact s.fillBad_pkg line m
  · exact ((s.l2Room line).fillBad_pkg line m).trans (s.l2Room_pkg line)

theorem State.homePuts_pkg (s : State) (pa : Nat) (cmp : Bool) (bs : List (Option Byte)) :
    (s.homePuts pa cmp bs).pkg = s.pkg := by
  induction bs generalizing s pa with
  | nil => rfl
  | cons b t ih =>
    refine (ih _ _).trans ?_
    split
    · exact s.l2Fill_pkg _ 15
    · rfl

/-- `t` has the ports of `s` and its identity: what the numbering of SC fences rests on (R298). -/
def LinksKept (s t : State) : Prop := t.pkg.ports = s.pkg.ports ∧ t.pkg.pkgid = s.pkg.pkgid

namespace LinksKept

variable {s t u : State}

theorem of_pkg (h : t.pkg = s.pkg) : LinksKept s t := ⟨by rw [h], by rw [h]⟩

theorem trans (h : LinksKept s t) (k : LinksKept t u) : LinksKept s u := ⟨k.1.trans h.1, k.2.trans h.2⟩

theorem homeWrite (s : State) (pa : Nat) (bs : List (Option Byte)) (cmp : Bool) : LinksKept s (s.homeWrite pa bs cmp) := by
  unfold State.homeWrite
  split
  · exact ⟨rfl, rfl⟩
  · exact of_pkg (s.homePuts_pkg pa cmp bs)

theorem foldl {α : Type} {f : State → α → State} (hf : ∀ s a, LinksKept s (f s a)) (l : List α) (s : State) :
    LinksKept s (l.foldl f s) := by
  induction l generalizing s with
  | nil => exact of_pkg rfl
  | cons a l ih => exact (hf s a).trans (ih (f s a))

theorem spoil (s : State) (pas : List Nat) : LinksKept s (s.spoil pas) :=
  foldl (fun s pa => by split <;> exact of_pkg rfl) pas s

theorem l1Back (s : State) (core : Nat) (b : L1Block) : LinksKept s (s.l1Back core b) := by
  unfold State.l1Back
  split
  · exact of_pkg rfl
  · exact ((of_pkg rfl : LinksKept s (s.count core 5)).trans (homeWrite _ _ _ _)).trans (spoil _ _)

theorem l1BackWhere (s : State) (core : Nat) (p : L1Block → Bool) : LinksKept s (s.l1BackWhere core p) := by
  have hback (t : State) (b : L1Block) : LinksKept t (if p b then t.l1Back core b else t) := by
    split
    · exact l1Back t core b
    · exact of_pkg rfl
  exact (foldl hback _ s).trans (of_pkg rfl)

theorem releaseFor (s : State) (g : Group) (scope : Nat) : LinksKept s (s.releaseFor g scope) := by
  unfold State.releaseFor State.release
  split_ifs
  · exact of_pkg rfl
  · exact of_pkg rfl
  · exact l1BackWhere s g.core _

end LinksKept

theorem MemoryOnly.releaseFor (s : State) (g : Group) (scope : Nat) : MemoryOnly s (s.releaseFor g scope) := by
  unfold State.releaseFor
  split
  · exact refl s
  · exact MemoryOnly.release s g.core scope

/-- The engine that numbers a fence is the same behind a release as before it. -/
theorem State.orderDie_releaseFor (s : State) (g : Group) (scope : Nat) :
    (s.releaseFor g scope).orderDie g scope = s.orderDie g scope := by
  have hmem := MemoryOnly.releaseFor s g scope
  obtain ⟨hports, hid⟩ := LinksKept.releaseFor s g scope
  have hblocks : (s.releaseFor g scope).blocks = s.blocks := by rw [hmem]
  have hclusters : (s.releaseFor g scope).clusters = s.clusters := by rw [hmem]
  simp only [State.orderDie, State.clusterOf, State.block, State.cluster, hblocks, hclusters, hports, hid]

/-! ### What an acquire leaves of an L1 (R220) -/

theorem State.l1Back_l1 (s : State) (core : Nat) (b : L1Block) : ((s.l1Back core b).core core).l1 = (s.core core).l1 := by
  unfold State.l1Back
  split
  · rfl
  · rw [State.core, State.spoil_cores, State.homeWrite_cores]
    have hcount := congrArg Core.l1 (s.core_modCore core fun c => c.count 5)
    exact hcount

/-- A block that stays in an L1 is none of those that leave. -/
theorem State.mem_l1Leave {s : State} {core : Nat} {bs : List L1Block} {b : L1Block}
    (h : b ∈ ((s.l1Leave core bs).core core).l1) : b ∈ (s.core core).l1 ∧ b ∉ bs := by
  induction bs generalizing s with
  | nil => exact ⟨h, List.not_mem_nil⟩
  | cons c t ih =>
    obtain ⟨hmem, hnot⟩ := ih h
    rw [State.core_modCore, List.mem_filter, State.l1Back_l1] at hmem
    obtain ⟨hmem, hother⟩ := hmem
    refine ⟨hmem, fun hb => (List.mem_cons.1 hb).elim (fun heq => ?_) hnot⟩
    simp [heq] at hother

/-- After an acquire beyond the block an L1 holds the dirty bytes of its dirty blocks alone. -/
theorem State.acquire_blocks {s : State} {core scope : Nat} (h : ¬ scope ≤ 1) {b : L1Block}
    (hb : b ∈ ((s.acquire core scope).core core).l1) : ∃ c ∈ (s.core core).l1, c.dirty ≠ 0 ∧ b = { c with valid := c.dirty } := by
  rw [State.acquire, if_neg h, State.core_modCore] at hb
  obtain ⟨c, hc, rfl⟩ := List.mem_map.1 hb
  obtain ⟨hmem, hstays⟩ := State.mem_l1Leave hc
  exact ⟨c, hmem, fun hd => hstays (List.mem_filter.2 ⟨hmem, beq_iff_eq.2 hd⟩), rfl⟩

/-! ### FENCE (R298, R331) -/

/-- A fence's release and its number in the order of SC fences. -/
def State.fenceOrdered (s : State) (g : Group) (kind scope : Nat) : State :=
  let u := if kind = 0 then s else s.releaseFor g scope
  match s.orderDie g scope with
  | some d => if kind = 3 then u.modDie d fun k => { k with scSeq := k.scSeq + 1 } else u
  | none => u

theorem State.fenceOrdered_core (s : State) (g : Group) (kind scope n : Nat) :
    (s.fenceOrdered g kind scope).core n = (if kind = 0 then s else s.releaseFor g scope).core n := by
  unfold State.fenceOrdered
  dsimp only
  split
  · split <;> rfl
  · rfl

/-- The number is taken behind the release. -/
theorem State.fenceOrdered_behind (s : State) (g : Group) (kind scope : Nat) :
    s.fenceOrdered g kind scope =
      let u := if kind = 0 then s else s.releaseFor g scope
      if kind = 3 then (u.orderDie g scope).elim u fun d => u.modDie d fun k => { k with scSeq := k.scSeq + 1 } else u := by
  have hdie : (if kind = 0 then s else s.releaseFor g scope).orderDie g scope = s.orderDie g scope := by
    split
    · rfl
    · exact s.orderDie_releaseFor g scope
  rw [State.fenceOrdered]
  dsimp only
  rw [hdie]
  cases s.orderDie g scope
  · exact (ite_self _).symm
  · rfl

/-- What a fence makes of the state, release and acquire as its kind says. -/
def State.fenced (s : State) (g : Group) (kind scope : Nat) : State :=
  if kind = 1 then s.fenceOrdered g kind scope else (s.fenceOrdered g kind scope).acquireFor g scope

theorem execFence_eq {s : State} {x : Ex} (hx : s.ex? = some x) (o : EOps) :
    execFence o s = .next ((s.fenced x.g (o.minor.toNat / 4 % 4) (o.minor.toNat / 16 % 8)).finish x) := by
  have hkind : (o.minor.extractLsb' 2 2).toNat = o.minor.toNat / 4 % 4 := toNat_extract _ 2 2
  have hscope : (o.minor.extractLsb' 4 3).toNat = o.minor.toNat / 16 % 8 := toNat_extract _ 4 3
  refine (withEx_eq hx _).trans ?_
  rw [hkind, hscope, State.fenced, State.fenceOrdered_behind]
  dsimp only
  generalize (if o.minor.toNat / 4 % 4 = 0 then s else s.releaseFor x.g (o.minor.toNat / 16 % 8)) = u
  cases u.orderDie x.g (o.minor.toNat / 16 % 8) <;> rfl

section
variable {s : State} {g : Group} {kind scope : Nat} (hq : g.isQueue = false) (hs : 1 < scope)
include hq hs

theorem State.fenced_acquired (hk : kind ≠ 1) :
    ∀ b ∈ ((s.fenced g kind scope).core g.core).l1, b.valid = b.dirty ∧ b.dirty ≠ 0 := by
  intro b hb
  rw [State.fenced, if_neg hk, State.acquireFor, hq] at hb
  obtain ⟨c, -, hd, rfl⟩ := State.acquire_blocks (Nat.not_le.2 hs) hb
  exact ⟨rfl, hd⟩

theorem State.fenceOrdered_written (hk : kind ≠ 0) :
    ∀ b ∈ ((s.fenceOrdered g kind scope).core g.core).l1, b.dirty ≠ 0 → b.scope ≠ 1 := by
  rw [State.fenceOrdered_core, if_neg hk, State.releaseFor, hq]
  exact State.release_written s g.core (Nat.not_le.2 hs)

theorem State.fenced_written (hk : kind ≠ 0) :
    ∀ b ∈ ((s.fenced g kind scope).core g.core).l1, b.dirty ≠ 0 → b.scope ≠ 1 := by
  have hwritten := State.fenceOrdered_written (s := s) hq hs hk
  intro b hb
  by_cases h1 : kind = 1
  · rw [State.fenced, if_pos h1] at hb
    exact hwritten b hb
  · rw [State.fenced, if_neg h1, State.acquireFor, hq] at hb
    obtain ⟨c, hc, -, rfl⟩ := State.acquire_blocks (Nat.not_le.2 hs) hb
    exact hwritten c hc

end

/-! ### CBAR and GBAR (R311, R312, R330) -/

section
variable {s : State} {x : Ex} (hx : s.ex? = some x) (o : EOps) (hq : x.g.isQueue = false)
include hx hq

theorem execCbarNear_partial (hw : x.whole = false) : execCbarNear o s = .next (s.illegal x) := by
  refine (kernelOnly_group hx _ hq).trans (congrArg _ ?_)
  simp only [hw]
  split <;> rfl

theorem execCbarFar_partial (hw : x.whole = false) : execCbarFar o s = .next (s.illegal x) := by
  refine (kernelOnly_group hx _ hq).trans (congrArg _ ?_)
  simp only [hw]
  split <;> rfl

theorem execGbar_partial (hw : x.whole = false) : execGbar o s = .next (s.illegal x) := by
  refine (kernelOnly_group hx _ hq).trans (congrArg _ ?_)
  simp only [hw]
  split <;> rfl

variable (hw : x.whole = true)
include hw

theorem execCbarNear_whole {cl d : Nat} {c : Cluster} (hcl : s.clusterOf x.g = some (cl, d)) (hc : s.cluster cl = some c) :
    execCbarNear o s = .next (if c.near.contains x.gid then s.illegal x
      else (((s.release x.g.core 2).park x (.phase .near)).modCluster cl fun k =>
        { k with near := k.near ++ [x.gid] }).clusterSettle cl) := by
  refine (kernelOnly_group hx _ hq).trans (congrArg _ ?_)
  simp only [hcl, hc, hw]
  rfl

theorem execCbarFar_whole {cl d : Nat} (hcl : s.clusterOf x.g = some (cl, d)) :
    execCbarFar o s = .next ((((s.release x.g.core 2).park x (.phase .far)).modCluster cl fun k =>
      { k with near := if k.near.contains x.gid then k.near else k.near ++ [x.gid], far := k.far ++ [x.gid] }).clusterSettle
        cl) := by
  refine (kernelOnly_group hx _ hq).trans (congrArg _ ?_)
  simp only [hcl, hw]
  rfl

theorem execGbar_whole {b : Block} {r : LRec} (hb : s.block x.g.blk = some b) (hr : s.lrecOf x.g = some r) :
    execGbar o s = .next (if r.cores then (((s.release x.g.core 4).park x (.phase .grid)).modLaunch b.launch fun l =>
      { l with gbar := l.gbar ++ [x.gid] }).gridSettle b.launch else s.illegal x) := by
  refine (kernelOnly_group hx _ hq).trans (congrArg _ ?_)
  simp only [hb, hr, hw]
  cases r.cores <;> rfl

end

/-! ### EXIT (R123, R212) -/

/-- The group whose lanes of `m` have left: released at DEVICE scope first where it is a vertex group. -/
def State.lanesLeave (s : State) (x : Ex) (m : BitVec 4) : State :=
  ((if x.g.kind = .vertex then s.release x.g.core 4 else s).goto x x.nextHeader).modGroup x.gid fun g =>
    g.exitLanes x.sid (x.cond m)

theorem execExit_leaves {s : State} {x : Ex} (hx : s.ex? = some x) {m : BitVec 4} (hok : x.badTransfer m = false) :
    execExit m s = .next (
      let t := s.lanesLeave x m
      if t.gone x.gid then (if x.g.isQueue then t.queueEnds x.gid else t.groupEnds x) else t) := by
  refine (withEx_eq hx _).trans ?_
  simp only [hok]
  show Host.Outcome.next (if !(s.lanesLeave x m).gone x.gid then _ else _) = _
  cases (s.lanesLeave x m).gone x.gid <;> rfl

/-- Settles O35: the barriers by who arrives, EXIT by who is left, FENCE by what its parts leave of the L1. -/
theorem groupBarriersExitFence : Obligations.GroupBarriersExitFence := by
  unfold Obligations.GroupBarriersExitFence
  refine fun s x hx => ⟨fun o => ⟨fun hq => ⟨kernelOnly_queue hx _ hq, kernelOnly_queue hx _ hq, kernelOnly_queue hx _ hq⟩,
      fun hq hw => ⟨execCbarNear_partial hx o hq hw, execCbarFar_partial hx o hq hw, execGbar_partial hx o hq hw⟩,
      fun hq hw cl d c hcl hc => ?cbar, fun hq hw b r hb hr => ?gbar⟩,
    fun m => ⟨fun hbad => (withEx_eq hx _).trans (congrArg _ (if_pos hbad)), fun hok => ?exit⟩, fun o => ?fence⟩
  case cbar =>
    have hnear := execCbarNear_whole hx o hq hw hcl hc
    exact ⟨fun h => hnear.trans (congrArg _ (if_pos h)), fun h => hnear.trans (congrArg _ (if_neg (ne_true_of_eq_false h))),
      execCbarFar_whole hx o hq hw hcl⟩
  case gbar =>
    have hgrid := execGbar_whole hx o hq hw hb hr
    exact ⟨fun h => hgrid.trans (congrArg _ (if_neg (ne_true_of_eq_false h))), fun h => hgrid.trans (congrArg _ (if_pos h))⟩
  case exit =>
    have hleaves := execExit_leaves hx hok
    refine ⟨fun h => hleaves.trans (congrArg _ (if_neg (ne_true_of_eq_false h))), fun h hq => ?_, fun h hq => ?_⟩
    · exact hleaves.trans (congrArg _ ((if_pos h).trans (if_pos hq)))
    · exact hleaves.trans (congrArg _ ((if_pos h).trans (if_neg (ne_true_of_eq_false hq))))
  case fence =>
    exact ⟨execFence_eq hx o, fun hq hs hk => State.fenced_acquired hq hs hk, fun hq hs hk => State.fenced_written hq hs hk⟩

end Sys2Proof.Machine
end

section
/-! Settles O9 (FpCorners): the one rounding into a format, between the neighbours that two patterns hold and beyond the
largest of them, and the special cases of arithmetic (R9, R29, R30, R34, R35, R188, R190). -/

namespace Sys2Proof.Machine

/-! ### Rounding to a multiple of a unit (R9)

Magnitudes are counted in a common unit 2^q: the value n × 2^e counts `n * 2 ^ (e - q).toNat`. -/

theorem two_pow_trans {q e p : Int} (h : q ≤ e) (k : e ≤ p) : 2 ^ (p - q).toNat = 2 ^ (p - e).toNat * 2 ^ (e - q).toNat := by
  rw [← pow_add]
  congr 1
  omega

/-- Whether a mode takes a value between `lo` and `hi` to `hi`; `odd` says that `lo` is the odd one of the two. -/
def RMode.away (m : RMode) (neg : Bool) (lo hi x : Nat) (odd : Bool) : Bool :=
  match m with
  | .rne => decide (lo + hi < 2 * x) || (decide (2 * x = lo + hi) && odd)
  | .rtz => false
  | .rpi => !neg
  | .rni => neg

theorem RMode.away_mul (m : RMode) (neg : Bool) (lo hi x : Nat) (odd : Bool) {s : Nat} (hs : 0 < s) :
    m.away neg (lo * s) (hi * s) (x * s) odd = m.away neg lo hi x odd := by
  cases m with
  | rne =>
    have hlt : lo * s + hi * s < 2 * (x * s) ↔ lo + hi < 2 * x := by
      rw [← Nat.add_mul, ← Nat.mul_assoc]
      exact Nat.mul_lt_mul_right hs
    have heq : 2 * (x * s) = lo * s + hi * s ↔ 2 * x = lo + hi := by
      rw [← Nat.add_mul, ← Nat.mul_assoc]
      exact Nat.mul_left_inj hs.ne'
    simp only [RMode.away, hlt, heq]
  | rtz => rfl
  | rpi => rfl
  | rni => rfl

section
variable (m : RMode) (neg : Bool) {n r : Nat} {e p q : Int} (he : q ≤ e) (hp : q ≤ p)
include he hp

/-- A value between two neighbouring multiples of a unit takes one of them, inexactly. -/
theorem roundTo_between (hlo : r * 2 ^ (p - q).toNat < n * 2 ^ (e - q).toNat)
    (hhi : n * 2 ^ (e - q).toNat < (r + 1) * 2 ^ (p - q).toNat) :
    roundTo m neg n e p false =
      (if m.away neg (r * 2 ^ (p - q).toNat) ((r + 1) * 2 ^ (p - q).toNat) (n * 2 ^ (e - q).toNat) (r % 2 == 1) then r + 1 else r,
        true) := by
  rcases le_or_gt p e with hpe | hep
  · rw [two_pow_trans hp hpe, ← Nat.mul_assoc] at hlo hhi
    have h1 := Nat.lt_of_mul_lt_mul_right hlo
    have h2 := Nat.lt_of_mul_lt_mul_right hhi
    omega
  · have hs : 0 < 2 ^ (e - q).toNat := by positivity
    simp only [two_pow_trans he hep.le, ← Nat.mul_assoc] at hlo hhi ⊢
    rw [RMode.away_mul m neg _ _ _ _ hs]
    replace hlo := Nat.lt_of_mul_lt_mul_right hlo
    replace hhi := Nat.lt_of_mul_lt_mul_right hhi
    have hpow : 2 ^ (p - e).toNat = 2 * 2 ^ ((p - e).toNat - 1) := by
      rw [← pow_succ']
      congr 1
      omega
    have hdiv : n / 2 ^ (p - e).toNat = r := Nat.div_eq_of_lt_le hlo.le hhi
    have hmod : n % 2 ^ (p - e).toNat = n - r * 2 ^ (p - e).toNat := by
      have := Nat.div_add_mod n (2 ^ (p - e).toNat)
      rw [hdiv, Nat.mul_comm] at this
      omega
    simp only [roundTo, if_neg (not_le.2 hep), hdiv, hmod]
    rw [Nat.add_mul, Nat.one_mul] at hhi ⊢
    generalize r * 2 ^ (p - e).toNat = a at *
    generalize 2 ^ ((p - e).toNat - 1) = half at *
    rw [hpow] at hhi ⊢
    have hne : (n - a != 0) = true := bne_iff_ne.2 (by omega)
    have hlt : n - a > half ↔ a + (a + 2 * half) < 2 * n := by omega
    have heq : (n - a == half) = decide (2 * n = a + (a + 2 * half)) := by
      rw [beq_eq_decide]
      exact decide_eq_decide.2 (by omega)
    cases m with
    | rne => simp [RMode.away, hne, hlt, heq]
    | rtz => simp [RMode.away, hne]
    | rpi => simp [RMode.away, hne]
    | rni => cases neg <;> simp [RMode.away, hne]

/-- A multiple of the unit is exact. -/
theorem roundTo_exact (h : n * 2 ^ (e - q).toNat = r * 2 ^ (p - q).toNat) : roundTo m neg n e p false = (r, false) := by
  rcases le_or_gt p e with hpe | hep
  · rw [two_pow_trans hp hpe, ← Nat.mul_assoc] at h
    rw [roundTo, if_pos hpe, Nat.eq_of_mul_eq_mul_right (by positivity) h]
  · rw [two_pow_trans he hep.le, ← Nat.mul_assoc] at h
    have hn : n = r * 2 ^ (p - e).toNat := Nat.eq_of_mul_eq_mul_right (by positivity) h
    have hpos : 0 < 2 ^ (p - e).toNat := by positivity
    have hhalf : 0 < 2 ^ ((p - e).toNat - 1) := by positivity
    simp only [roundTo, if_neg (not_le.2 hep), hn, Nat.mul_div_cancel _ hpos, Nat.mul_mod_left]
    cases m <;> simp [hhalf.ne]

/-- No mode takes a value below a multiple of the unit that it reaches. -/
theorem le_roundTo (h : r * 2 ^ (p - q).toNat ≤ n * 2 ^ (e - q).toNat) : r ≤ (roundTo m neg n e p false).1 := by
  have hpos : 0 < 2 ^ (p - q).toNat := by positivity
  have hr := (Nat.le_div_iff_mul_le hpos).2 h
  have hlo := Nat.div_mul_le_self (n * 2 ^ (e - q).toNat) (2 ^ (p - q).toNat)
  have hhi := (Nat.lt_mul_div_succ (n * 2 ^ (e - q).toNat) hpos).trans_eq (Nat.mul_comm _ _)
  rcases hlo.eq_or_lt with hexact | hlo
  · rw [roundTo_exact m neg he hp hexact.symm]
    exact hr
  · rw [roundTo_between m neg he hp hlo hhi]
    exact hr.trans (by dsimp only; split <;> omega)

/-- No mode takes a value beyond a multiple of the unit that it does not pass. -/
theorem roundTo_le (h : n * 2 ^ (e - q).toNat ≤ r * 2 ^ (p - q).toNat) : (roundTo m neg n e p false).1 ≤ r := by
  have hpos : 0 < 2 ^ (p - q).toNat := by positivity
  have hlo := Nat.div_mul_le_self (n * 2 ^ (e - q).toNat) (2 ^ (p - q).toNat)
  have hhi := (Nat.lt_mul_div_succ (n * 2 ^ (e - q).toNat) hpos).trans_eq (Nat.mul_comm _ _)
  rcases hlo.eq_or_lt with hexact | hlo
  · rw [roundTo_exact m neg he hp hexact.symm]
    exact Nat.div_le_of_le_mul (h.trans_eq (Nat.mul_comm _ _))
  · rw [roundTo_between m neg he hp hlo hhi]
    have hr := Nat.lt_of_mul_lt_mul_right (hlo.trans_le h)
    dsimp only
    split <;> omega

end

/-- The place of a value's highest bit, by the common unit. -/
theorem highest_bit_lt {n : Nat} (hn : n ≠ 0) {e q : Int} (he : q ≤ e) (j : Nat) :
    e + Nat.log2 n < q + j ↔ n * 2 ^ (e - q).toNat < 2 ^ j := by
  rcases le_or_gt (e - q).toNat j with hd | hd
  · have hsplit : 2 ^ j = 2 ^ (j - (e - q).toNat) * 2 ^ (e - q).toNat := by
      rw [← pow_add]
      congr 1
      omega
    rw [hsplit, Nat.mul_lt_mul_right (by positivity), ← Nat.log2_lt hn]
    omega
  · have hle : 2 ^ j ≤ n * 2 ^ (e - q).toNat :=
      (Nat.pow_le_pow_right (by decide) hd.le).trans (Nat.le_mul_of_pos_left _ (Nat.pos_of_ne_zero hn))
    refine iff_of_false ?_ (not_lt.2 hle)
    omega

/-! ### Patterns and the magnitudes that they hold (R30, R31) -/

/-- The exponent of the unit of a format's subnormal numbers. -/
def FF.low (f : FF) : Int := 1 - f.bias - f.fbits

/-- The pattern `k` holds the magnitude n × 2^e: in the lowest unit, or with its highest bit in its place. -/
structure FF.Holds (f : FF) (n : Nat) (e : Int) (k : Nat) : Prop where
  low : f.low ≤ e
  lt : n < 2 * 2 ^ f.fbits
  normal : e = f.low ∨ 2 ^ f.fbits ≤ n
  pattern : k = (e - f.low).toNat * 2 ^ f.fbits + n

theorem FF.maxBits_lt_signBit (f : FF) : f.maxBits < f.signBit := by
  cases f <;> decide

theorem FF.two_pow_le_maxBits (f : FF) : 2 * 2 ^ f.fbits ≤ f.maxBits := by
  cases f <;> decide

theorem FF.four_le_two_pow (f : FF) : 4 ≤ 2 ^ f.fbits := by
  cases f <;> decide

theorem FF.two_pow_mod_two (f : FF) : 2 ^ f.fbits % 2 = 0 := by
  cases f <;> decide

theorem FF.signBit_eq (f : FF) : f.signBit = 2 ^ f.fbits * 2 ^ f.ebits := by
  rw [FF.signBit, FF.width, ← pow_add]
  congr 1
  omega

/-- A finite pattern holds its magnitude, its sign apart. -/
theorem FF.holds_of_decode {f : FF} {bits n : Nat} {neg : Bool} {e : Int} (h : f.decode bits = .fin neg n e) :
    neg = bits.testBit (f.width - 1) ∧ bits % f.signBit ≤ f.maxBits ∧ f.Holds n e (bits % f.signBit) := by
  have hex : bits / 2 ^ f.fbits % 2 ^ f.ebits = bits % f.signBit / 2 ^ f.fbits := by
    rw [f.signBit_eq, Nat.mod_mul_right_div_self]
  have hfr : bits % 2 ^ f.fbits = bits % f.signBit % 2 ^ f.fbits := by
    rw [f.signBit_eq, Nat.mod_mul_right_mod]
  have hpos : 0 < 2 ^ f.fbits := by positivity
  have hmod := Nat.mod_lt (bits % f.signBit) hpos
  have hk := Nat.div_add_mod (bits % f.signBit) (2 ^ f.fbits)
  simp only [FF.decode, hex, hfr] at h
  generalize bits % f.signBit = k at *
  rw [Nat.mul_comm] at hk
  split at h
  · split at h <;> cases h
  · next hmax =>
    refine ⟨?_, not_lt.1 hmax, ?_⟩
    · split at h <;> cases h <;> rfl
    · split at h
      · next h0 =>
        cases h
        rw [h0, Nat.zero_mul, Nat.zero_add] at hk
        exact ⟨le_rfl, by omega, .inl rfl, by simp [FF.low, hk]⟩
      · next h0 =>
        cases h
        refine ⟨by simp only [FF.low]; omega, by omega, .inr (by omega), ?_⟩
        have hexp : (((k / 2 ^ f.fbits : Nat) : Int) - f.bias - f.fbits - f.low).toNat = k / 2 ^ f.fbits - 1 := by
          simp only [FF.low]; omega
        rw [hexp, Nat.sub_mul, Nat.one_mul]
        have : 2 ^ f.fbits ≤ k / 2 ^ f.fbits * 2 ^ f.fbits := Nat.le_mul_of_pos_left _ (Nat.pos_of_ne_zero h0)
        omega

/-- The next pattern holds the next multiple of the unit. -/
theorem FF.Holds.next {f : FF} {n0 n1 k : Nat} {e0 e1 : Int} (h0 : f.Holds n0 e0 k) (h1 : f.Holds n1 e1 (k + 1)) {q : Int}
    (hq : q ≤ e0) : n1 * 2 ^ (e1 - q).toNat = (n0 + 1) * 2 ^ (e0 - q).toNat := by
  obtain ⟨hlow0, hlt0, hnormal0, hk0⟩ := h0
  obtain ⟨hlow1, hlt1, hnormal1, hk1⟩ := h1
  obtain ⟨a, rfl⟩ : ∃ a : Nat, e0 = f.low + a := ⟨(e0 - f.low).toNat, by omega⟩
  obtain ⟨b, rfl⟩ : ∃ b : Nat, e1 = f.low + b := ⟨(e1 - f.low).toNat, by omega⟩
  have hsum : b * 2 ^ f.fbits + n1 = a * 2 ^ f.fbits + n0 + 1 := by
    simp only [add_sub_cancel_left, Int.toNat_natCast] at hk0 hk1
    omega
  have hcases : b = a ∧ n1 = n0 + 1 ∨ b = a + 1 ∧ 2 * n1 = n0 + 1 := by
    have hzero0 : a = 0 ∨ 2 ^ f.fbits ≤ n0 := hnormal0.imp_left (by omega)
    have hzero1 : b = 0 ∨ 2 ^ f.fbits ≤ n1 := hnormal1.imp_left (by omega)
    generalize 2 ^ f.fbits = P at *
    rcases lt_trichotomy a b with hab | rfl | hab
    · obtain ⟨d, rfl⟩ := Nat.exists_eq_add_of_lt hab
      rw [show a + d + 1 = a + (d + 1) from rfl, Nat.add_mul, Nat.add_mul d 1] at hsum
      rcases Nat.eq_zero_or_pos d with rfl | hd
      · omega
      · have := Nat.le_mul_of_pos_left P hd
        omega
    · omega
    · obtain ⟨d, rfl⟩ := Nat.exists_eq_add_of_lt hab
      rw [show b + d + 1 = b + (d + 1) from rfl, Nat.add_mul, Nat.add_mul d 1] at hsum
      omega
  rcases hcases with ⟨rfl, rfl⟩ | ⟨rfl, hn⟩
  · rfl
  · have hexp : (f.low + (a + 1 : Nat) - q).toNat = (f.low + a - q).toNat + 1 := by omega
    rw [hexp, ← hn, pow_succ]
    ring

/-- The parity of a pattern is that of its magnitude. -/
theorem FF.Holds.parity {f : FF} {n k : Nat} {e : Int} (h : f.Holds n e k) : k % 2 = n % 2 := by
  rw [h.pattern, Nat.add_mod, Nat.mul_mod, f.two_pow_mod_two]
  omega

/-! ### One rounding into a format (R9, R34, R35) -/

/-- Tininess is judged after rounding with an unbounded exponent range (R35). -/
def FF.tiny (f : FF) (m : RMode) (neg : Bool) (n : Nat) (e : Int) : Bool :=
  decide (e + Nat.log2 n < 1 - f.bias) && !(decide (e + Nat.log2 n = -(f.bias : Int)) &&
    (roundTo m neg n e (e + Nat.log2 n - f.fbits) false).1 == 2 ^ (f.fbits + 1))

theorem FF.roundFin_eq (f : FF) (m : RMode) (neg : Bool) {n : Nat} (hn : n ≠ 0) (e : Int) :
    f.roundFin m neg n e =
      let r := roundTo m neg n e (f.quantum n e) false
      let bits := (f.quantum n e - f.low).toNat * 2 ^ f.fbits + r.1
      if bits > f.maxBits then ⟨f.overflow m neg, fOF ||| fNX⟩
      else ⟨f.withSign neg bits, (if r.2 then fNX else 0) ||| (if f.tiny m neg n e && r.2 then fUF else 0)⟩ := by
  have hlow : f.quantum n e + f.fbits + f.bias - 1 = f.quantum n e - f.low := by
    simp only [FF.low]
    omega
  rw [← hlow]
  exact if_neg hn

section
variable {f : FF} {n n0 k : Nat} {e e0 q : Int} (hn : n ≠ 0) (he : q ≤ e) (he0 : q ≤ e0)
  (hlo : n0 * 2 ^ (e0 - q).toNat ≤ n * 2 ^ (e - q).toNat)
include hn he he0 hlo

/-- A value at or above one with its highest bit in its place has its own there or beyond. -/
theorem highest_bit_ge (hnormal : 2 ^ f.fbits ≤ n0) : e0 + f.fbits ≤ e + Nat.log2 n := by
  have hle : 2 ^ (f.fbits + (e0 - q).toNat) ≤ n * 2 ^ (e - q).toNat := by
    rw [pow_add]
    exact (Nat.mul_le_mul_right _ hnormal).trans hlo
  have := mt (highest_bit_lt hn he (f.fbits + (e0 - q).toNat)).1 (not_lt.2 hle)
  omega

variable (h : f.Holds n0 e0 k) (hhi : n * 2 ^ (e - q).toNat < (n0 + 1) * 2 ^ (e0 - q).toNat)
include h hhi

/-- Up to its neighbour a value has the unit of its lower neighbour. -/
theorem quantum_eq : f.quantum n e = e0 := by
  have hup : e + Nat.log2 n < q + (f.fbits + 1 + (e0 - q).toNat : Nat) := by
    rw [highest_bit_lt hn he, pow_add, pow_succ']
    exact hhi.trans_le (Nat.mul_le_mul_right _ h.lt)
  have hlow := h.low
  rw [FF.quantum, ← FF.low]
  rcases h.normal with hsub | hnormal
  · omega
  · have := highest_bit_ge hn he he0 hlo hnormal
    omega

end

section
variable {f : FF} {n n0 k : Nat} {e e0 q : Int} (h : f.Holds n0 e0 k) (he : q ≤ e) (he0 : q ≤ e0)
  (hlo : n0 * 2 ^ (e0 - q).toNat < n * 2 ^ (e - q).toNat)
include h he he0 hlo

/-- A value above a normal number is not tiny. -/
theorem FF.Holds.tiny_normal (m : RMode) (neg : Bool) (hnormal : 2 ^ f.fbits ≤ n0) : f.tiny m neg n e = false := by
  have hge := highest_bit_ge (f := f) (left_ne_zero_of_mul (Nat.ne_zero_of_lt hlo)) he he0 hlo.le hnormal
  have hlow := h.low
  have hnot : ¬ e + Nat.log2 n < 1 - f.bias := by
    simp only [FF.low] at hlow
    omega
  rw [FF.tiny, decide_eq_false hnot, Bool.false_and]

/-- A value beyond the neighbour of the largest finite one overflows in every mode (R34). -/
theorem FF.Holds.roundFin_beyond (m : RMode) (neg : Bool) (hk : k = f.maxBits) (hnormal : 2 ^ f.fbits ≤ n0)
    (hbeyond : (n0 + 1) * 2 ^ (e0 - q).toNat ≤ n * 2 ^ (e - q).toNat) :
    f.roundFin m neg n e = ⟨f.overflow m neg, fOF ||| fNX⟩ := by
  have hn : n ≠ 0 := left_ne_zero_of_mul (Nat.ne_zero_of_lt hlo)
  have hge := highest_bit_ge (f := f) hn he he0 hlo.le hnormal
  obtain ⟨hlow, hlt, -, hpattern⟩ := h
  have hquantum : f.quantum n e = e + Nat.log2 n - f.fbits := by
    rw [FF.quantum, ← FF.low]
    omega
  obtain ⟨d, hd⟩ : ∃ d : Nat, e + Nat.log2 n - f.fbits = e0 + d := ⟨(e + Nat.log2 n - f.fbits - e0).toNat, by omega⟩
  have hbits : f.maxBits < (f.quantum n e - f.low).toNat * 2 ^ f.fbits + (roundTo m neg n e (f.quantum n e) false).1 := by
    rw [hquantum, hd]
    rcases Nat.eq_zero_or_pos d with rfl | hpos
    · have hr := le_roundTo m neg he (by simpa using he0 : q ≤ e0 + (0 : Nat)) (r := n0 + 1) (by simpa using hbeyond)
      simp only [Nat.cast_zero, add_zero] at hr ⊢
      omega
    · have htop : 2 ^ f.fbits * 2 ^ (e0 + d - q).toNat ≤ n * 2 ^ (e - q).toNat := by
        rw [← pow_add]
        refine not_lt.1 (mt (highest_bit_lt hn he _).2 ?_)
        omega
      have hr := le_roundTo m neg he (by omega : q ≤ e0 + d) htop
      have hsteps : ((e0 - f.low).toNat + 1) * 2 ^ f.fbits ≤ (e0 + d - f.low).toNat * 2 ^ f.fbits :=
        Nat.mul_le_mul_right _ (by omega)
      rw [Nat.add_mul] at hsteps
      omega
  rw [f.roundFin_eq m neg hn]
  exact if_pos hbits

variable (hhi : n * 2 ^ (e - q).toNat < (n0 + 1) * 2 ^ (e0 - q).toNat)
include hhi

/-- Between two neighbours a value takes the pattern of one of them; one beyond the largest finite pattern is an overflow. -/
theorem FF.Holds.roundFin_between (m : RMode) (neg : Bool) :
    f.roundFin m neg n e =
      let bits :=
        if m.away neg (n0 * 2 ^ (e0 - q).toNat) ((n0 + 1) * 2 ^ (e0 - q).toNat) (n * 2 ^ (e - q).toNat) (k % 2 == 1) then k + 1
        else k
      if bits > f.maxBits then ⟨f.overflow m neg, fOF ||| fNX⟩
      else ⟨f.withSign neg bits, if f.tiny m neg n e then fNX ||| fUF else fNX⟩ := by
  have hn : n ≠ 0 := left_ne_zero_of_mul (Nat.ne_zero_of_lt hlo)
  rw [f.roundFin_eq m neg hn, quantum_eq hn he he0 hlo.le h hhi, roundTo_between m neg he he0 hlo hhi, h.parity]
  dsimp only
  have hbits (b : Bool) : (e0 - f.low).toNat * 2 ^ f.fbits + (if b then n0 + 1 else n0) = if b then k + 1 else k := by
    have := h.pattern
    split <;> omega
  have hflags (t : Bool) : ((if true = true then fNX else 0) ||| if (t && true) = true then fUF else 0) =
      if t then fNX ||| fUF else fNX := by
    cases t <;> decide
  rw [hbits, hflags]

/-- Between the largest finite magnitude and the next multiple of its unit a value overflows where its mode goes outward. -/
theorem FF.Holds.roundFin_above_max (m : RMode) (neg : Bool) (hk : k = f.maxBits) (hnormal : 2 ^ f.fbits ≤ n0) :
    f.roundFin m neg n e =
      if m.away neg (n0 * 2 ^ (e0 - q).toNat) ((n0 + 1) * 2 ^ (e0 - q).toNat) (n * 2 ^ (e - q).toNat) (k % 2 == 1) then
        ⟨f.overflow m neg, fOF ||| fNX⟩
      else ⟨f.withSign neg f.maxBits, fNX⟩ := by
  rw [h.roundFin_between he he0 hlo hhi m neg, h.tiny_normal he he0 hlo m neg hnormal]
  split
  · exact if_pos (by omega)
  · rw [hk]
    exact if_neg (lt_irrefl _)

end

/-! ### Tininess between neighbours (R35) -/

/-- Whether a value below the smallest normal number `hi`, its lower neighbour `lo`, rounds to it with an unbounded exponent:
there the neighbour below `hi` is half as far away. -/
def RMode.reaches (m : RMode) (neg : Bool) (lo hi x : Nat) : Bool :=
  match m with
  | .rne => decide (lo + 3 * hi ≤ 4 * x)
  | .rtz => false
  | .rpi => !neg && decide (lo + hi < 2 * x)
  | .rni => neg && decide (lo + hi < 2 * x)

section
variable {f : FF} {n n0 : Nat} {e q : Int} (hsub : n0 < 2 ^ f.fbits) (he : q ≤ e) (hq : q ≤ f.low)
  (hlo : n0 * 2 ^ (f.low - q).toNat < n * 2 ^ (e - q).toNat) (hhi : n * 2 ^ (e - q).toNat < (n0 + 1) * 2 ^ (f.low - q).toNat)
include hsub he hq hlo hhi

/-- In the binade below the smallest normal number a value rounds to it where its mode reaches it. -/
theorem roundTo_half (m : RMode) (neg : Bool) :
    ((roundTo m neg n e (f.low - 1) false).1 == 2 ^ (f.fbits + 1)) =
      (n0 + 1 == 2 ^ f.fbits &&
        m.reaches neg (n0 * 2 ^ (f.low - q).toNat) ((n0 + 1) * 2 ^ (f.low - q).toNat) (n * 2 ^ (e - q).toNat)) := by
  have hq1 : q ≤ f.low - 1 := by
    rcases hq.eq_or_lt with rfl | hlt
    · simp only [sub_self, Int.toNat_zero, pow_zero, mul_one] at hlo hhi
      omega
    · omega
  have hunit : 2 ^ (f.low - q).toNat = 2 * 2 ^ (f.low - 1 - q).toNat := by
    rw [← pow_succ']
    congr 1
    omega
  have hw : 0 < 2 ^ (f.low - 1 - q).toNat := by positivity
  have hle := roundTo_le m neg he hq1 (n := n) (r := 2 * (n0 + 1)) (by rw [hunit] at hhi; linarith)
  have hle' := roundTo_le m neg he hq1 (n := n) (r := 2 * n0 + 1)
  have hbetween := roundTo_between m neg he hq1 (n := n) (r := 2 * n0 + 1)
  rw [hunit] at hlo hhi ⊢
  rw [pow_succ']
  generalize 2 ^ (f.low - 1 - q).toNat = w at *
  generalize n * 2 ^ (e - q).toNat = x at *
  have hexp : n0 * (2 * w) = 2 * (n0 * w) ∧ (n0 + 1) * (2 * w) = 2 * (n0 * w) + 2 * w ∧ (2 * n0 + 1) * w = 2 * (n0 * w) + w ∧
      (2 * n0 + 1 + 1) * w = 2 * (n0 * w) + 2 * w := by
    refine ⟨?_, ?_, ?_, ?_⟩ <;> ring
  obtain ⟨hlow, hhigh, hmid, htwo⟩ := hexp
  simp only [hlow, hhigh, hmid, htwo] at hlo hhi hle' hbetween ⊢
  rcases (Nat.succ_le_of_lt hsub).eq_or_lt with htop | hbelow
  · rw [← htop, Nat.succ_eq_add_one, beq_self_eq_true, Bool.true_and]
    rcases le_or_gt x (2 * (n0 * w) + w) with hx | hx
    · have hle1 := hle' hx
      have hmiss : ¬ 2 * (n0 * w) + (2 * (n0 * w) + 2 * w) < 2 * x := by omega
      have hmiss' : ¬ 2 * (n0 * w) + 3 * (2 * (n0 * w) + 2 * w) ≤ 4 * x := by omega
      rw [beq_false_of_ne (by omega)]
      cases m <;> simp [RMode.reaches, hmiss, hmiss']
    · have hpast : 2 * (n0 * w) + (2 * (n0 * w) + 2 * w) < 2 * x := by omega
      have hodd : ((2 * n0 + 1) % 2 == 1) = true := beq_iff_eq.2 (by omega)
      have hpick (b : Bool) : ((if b then 2 * n0 + 1 + 1 else 2 * n0 + 1) == 2 * (n0 + 1)) = b := by
        cases b
        · exact beq_false_of_ne (by simp; omega)
        · exact beq_iff_eq.2 rfl
      rw [hbetween hx hhi, hodd]
      dsimp only
      rw [hpick]
      cases m with
      | rne =>
        simp only [RMode.away, RMode.reaches, Bool.and_true, ← Bool.decide_or]
        exact decide_eq_decide.2 (by omega)
      | rtz => rfl
      | rpi => simp only [RMode.away, RMode.reaches, decide_eq_true hpast, Bool.and_true]
      | rni => simp only [RMode.away, RMode.reaches, decide_eq_true hpast, Bool.and_true]
  · have hne : n0 + 1 ≠ 2 ^ f.fbits := hbelow.ne
    rw [beq_false_of_ne hne, Bool.false_and]
    exact beq_false_of_ne (by omega)

/-- A value above a subnormal number is tiny unless it rounds to the smallest normal one. -/
theorem FF.tiny_subnormal (m : RMode) (neg : Bool) :
    f.tiny m neg n e = (decide (n0 + 1 < 2 ^ f.fbits) || (n0 + 1 == 2 ^ f.fbits &&
      !m.reaches neg (n0 * 2 ^ (f.low - q).toNat) ((n0 + 1) * 2 ^ (f.low - q).toNat) (n * 2 ^ (e - q).toNat))) := by
  have hn : n ≠ 0 := left_ne_zero_of_mul (Nat.ne_zero_of_lt hlo)
  have hhalf := roundTo_half hsub he hq hlo hhi m neg
  have hfour := f.four_le_two_pow
  have hbelow : e + Nat.log2 n < 1 - f.bias := by
    have hlt : e + Nat.log2 n < q + (f.fbits + (f.low - q).toNat : Nat) := by
      rw [highest_bit_lt hn he, pow_add]
      exact hhi.trans_le (Nat.mul_le_mul_right _ hsub)
    simp only [FF.low] at hlt hq
    omega
  rw [FF.tiny, decide_eq_true hbelow, Bool.true_and]
  by_cases hbinade : e + Nat.log2 n = -(f.bias : Int)
  · have hunit : e + Nat.log2 n - f.fbits = f.low - 1 := by
      simp only [FF.low]
      omega
    rw [decide_eq_true hbinade, Bool.true_and, hunit, hhalf]
    rcases (Nat.succ_le_of_lt hsub).eq_or_lt with htop | hlt
    · simp [← htop]
    · simp [hlt, hlt.ne]
  · have hsmall : e + Nat.log2 n < q + (f.fbits - 1 + (f.low - q).toNat : Nat) := by
      have : 1 ≤ f.fbits := by cases f <;> decide
      simp only [FF.low] at hq ⊢
      omega
    rw [highest_bit_lt hn he, pow_add] at hsmall
    have hlt := Nat.lt_of_mul_lt_mul_right (hlo.trans hsmall)
    have htwo : 2 ^ f.fbits = 2 * 2 ^ (f.fbits - 1) := by cases f <;> rfl
    rw [decide_eq_false hbinade, decide_eq_true (by omega : n0 + 1 < 2 ^ f.fbits)]
    rfl

end

/-! ### Patterns that round to themselves (R29, R30) -/

theorem FF.withSign_mod {f : FF} {bits : Nat} (h : bits < 2 ^ f.width) :
    f.withSign (bits.testBit (f.width - 1)) (bits % f.signBit) = bits := by
  have hsplit : 2 ^ f.width = 2 * f.signBit := by cases f <;> rfl
  have hdiv := Nat.div_add_mod bits f.signBit
  have hpos : 0 < f.signBit := by cases f <;> decide
  have hlt : bits / f.signBit < 2 := Nat.div_lt_of_lt_mul (by omega)
  rw [FF.withSign, Nat.testBit_eq_decide_div_mod_eq, ← FF.signBit]
  rcases Nat.le_one_iff_eq_zero_or_eq_one.1 (Nat.le_of_lt_succ hlt) with h0 | h1
  · rw [h0] at hdiv ⊢
    simpa using hdiv
  · rw [h1] at hdiv ⊢
    simpa using hdiv

/-- Infinity is the pattern behind the largest finite one, and the first of the highest exponent (R30). -/
theorem FF.infBits_place {f : FF} (h : f ≠ .e4m3) :
    f.infBits = f.maxBits + 1 ∧ f.signBit = f.infBits + 2 ^ f.fbits ∧ 2 ^ f.fbits ∣ f.infBits := by
  cases f
  case e4m3 => exact absurd rfl h
  all_goals decide

/-- The one pattern of a format that holds an infinity, its sign apart. -/
theorem FF.decode_inf {f : FF} {bits : Nat} {neg : Bool} (h : f.decode bits = .inf neg) :
    f ≠ .e4m3 ∧ neg = bits.testBit (f.width - 1) ∧ bits % f.signBit = f.infBits := by
  have hfr : bits % 2 ^ f.fbits = bits % f.signBit % 2 ^ f.fbits := by
    rw [f.signBit_eq, Nat.mod_mul_right_mod]
  have hlt : bits % f.signBit < f.signBit := Nat.mod_lt _ (by cases f <;> decide)
  simp only [FF.decode, hfr] at h
  generalize bits % f.signBit = k at *
  split at h
  · next hmax =>
    split at h
    · next hinf =>
      cases h
      obtain ⟨hne, hfr⟩ := hinf
      obtain ⟨hmaxBits, hsignBit, hdvd⟩ := FF.infBits_place hne
      have hle : f.infBits ≤ k := by omega
      have hzero := Nat.eq_zero_of_dvd_of_lt (Nat.dvd_sub (Nat.dvd_of_mod_eq_zero hfr) hdvd) (by omega)
      exact ⟨hne, rfl, by omega⟩
    · cases h
  · split at h <;> cases h

theorem FF.round_decode (f : FF) (m : RMode) {bits : Nat} (hbits : bits < 2 ^ f.width) (hnan : f.decode bits ≠ .nan) :
    f.round m (f.decode bits) = ⟨bits, 0⟩ := by
  have hsign := FF.withSign_mod hbits
  cases hd : f.decode bits with
  | nan => exact absurd hd hnan
  | inf neg =>
    obtain ⟨hne, rfl, hinf⟩ := FF.decode_inf hd
    rw [hinf] at hsign
    have hround : f.round m (.inf (bits.testBit (f.width - 1))) = ⟨f.withSign (bits.testBit (f.width - 1)) f.infBits, 0⟩ := by
      cases f
      case e4m3 => exact absurd rfl hne
      all_goals rfl
    rw [hround, hsign]
  | fin neg n e =>
    obtain ⟨rfl, hmax, hholds⟩ := FF.holds_of_decode hd
    show f.roundFin m _ n e = _
    rcases Nat.eq_zero_or_pos n with rfl | hpos
    · have hlow : e = f.low := hholds.normal.resolve_right (by have := f.four_le_two_pow; omega)
      have hzero : bits % f.signBit = 0 := by rw [hholds.pattern, hlow]; simp
      rw [hzero] at hsign
      exact (if_pos rfl).trans (by rw [hsign])
    · have hn := hpos.ne'
      have hquantum := quantum_eq hn le_rfl le_rfl le_rfl hholds (by simp)
      have hexact := roundTo_exact m (bits.testBit (f.width - 1)) (le_refl e) (le_refl e) (n := n) rfl
      rw [f.roundFin_eq m _ hn, hquantum, hexact]
      dsimp only
      rw [← hholds.pattern, if_neg (not_lt.2 hmax), hsign, Bool.and_false]
      simp

/-! ### The statement -/

theorem FF.overflow_eq (f : FF) (m : RMode) (neg : Bool) : f.overflow m neg =
    f.withSign neg (if m.away neg 0 0 1 false then f.infBits else f.maxBits) := by
  cases m <;> cases neg <;> rfl

section
variable {f : FF} (hf : f = .fp32 ∨ f = .fp64) (m : RMode)
include hf

theorem FF.round_inf (b : Bool) : f.round m (.inf b) = ⟨f.withSign b f.infBits, 0⟩ := by
  rcases hf with rfl | rfl <;> rfl

theorem FF.div_by_zero (b t : Bool) {n : Nat} (hn : n ≠ 0) (e k : Int) :
    f.div m (.fin t n e) (.fin b 0 k) = ⟨f.withSign (t ^^ b) f.infBits, fDZ⟩ := by
  simp only [FF.div, if_true, if_neg hn, FF.round_inf hf]
  cases t <;> cases b <;> rfl

end

theorem FF.add_opposite (f : FF) (m : RMode) (b : Bool) : f.add m (.inf b) (.inf !b) = ⟨f.nanBits, fNV⟩ := by
  cases b <;> simp [FF.add, FV.add, FF.round]

theorem FF.mul_zero_inf (f : FF) (m : RMode) (b t : Bool) (e : Int) : f.mul m (.fin t 0 e) (.inf b) = ⟨f.nanBits, fNV⟩ ∧
    f.mul m (.inf b) (.fin t 0 e) = ⟨f.nanBits, fNV⟩ := by
  simp [FF.mul, FV.mul, FF.round]

theorem FF.fma_zero_inf (f : FF) (m : RMode) (b t : Bool) (e : Int) (c : FV) :
    f.fma m (.fin t 0 e) (.inf b) c = ⟨f.nanBits, fNV⟩ := by
  simp [FF.fma, FV.mul, FV.add, FF.round]

theorem FF.sqrt_below_zero (f : FF) (m : RMode) {n : Nat} (hn : n ≠ 0) (e : Int) : f.sqrt m (.fin true n e) = ⟨f.nanBits, fNV⟩ :=
  (if_neg hn).trans (if_pos rfl)

/-- The largest finite magnitude of a format is a normal one. -/
theorem FF.Holds.max_normal {f : FF} {n : Nat} {e : Int} (h : f.Holds n e f.maxBits) : 2 ^ f.fbits ≤ n := by
  have hmax := f.two_pow_le_maxBits
  rcases h.normal with hlow | hnormal
  · have hk := h.pattern
    rw [hlow, sub_self, Int.toNat_zero, Nat.zero_mul, Nat.zero_add] at hk
    omega
  · exact hnormal

/-- Settles O9: special cases by the definitions of the operations, values by the neighbours between which they lie. -/
theorem fpCorners : Obligations.FpCorners := by
  unfold Obligations.FpCorners
  refine ⟨fun f m hf => ?special, fun f m bits hb hnan => f.round_decode m hb hnan,
    fun f m neg n n0 n1 k e e0 e1 q hk h0 h1 he he0 he1 => ?between, fun f m neg n nm e em q hm he hem => ?beyond⟩
  case special =>
    exact ⟨fun a => ⟨by cases a <;> rfl, by cases a <;> rfl, by cases a <;> rfl, by cases a <;> rfl⟩, f.add_opposite m,
      f.mul_zero_inf m, f.fma_zero_inf m, fun b t n e k hn => FF.div_by_zero hf m b t hn e k,
      fun b t e k => rfl, fun b t => rfl, fun n e hn => f.sqrt_below_zero m hn e, rfl⟩
  case between =>
    intro x lo hi hlo hhi away reaches tiny
    have hlt : k + 1 < f.signBit := (Nat.succ_le_of_lt hk).trans_lt f.maxBits_lt_signBit
    obtain ⟨-, -, hholds⟩ := FF.holds_of_decode h0
    obtain ⟨-, -, hholds1⟩ := FF.holds_of_decode h1
    rw [Nat.mod_eq_of_lt (Nat.lt_of_succ_lt hlt)] at hholds
    rw [Nat.mod_eq_of_lt hlt] at hholds1
    have hnext : hi = (n0 + 1) * 2 ^ (e0 - q).toNat := hholds.next hholds1 he0
    have haway : away = m.away neg lo hi x (k % 2 == 1) := by cases m <;> rfl
    have hreaches : reaches = m.reaches neg lo hi x := by cases m <;> rfl
    have htiny : tiny = f.tiny m neg n e := by
      show (decide (k + 1 < 2 ^ f.fbits) || (k + 1 == 2 ^ f.fbits && !reaches)) = _
      rcases Nat.lt_or_ge n0 (2 ^ f.fbits) with hsub | hnormal
      · have hlow : e0 = f.low := hholds.normal.resolve_right (not_le.2 hsub)
        have hk0 : k = n0 := by rw [hholds.pattern, hlow]; simp
        have htiny := FF.tiny_subnormal hsub he (hlow ▸ he0) (hlow ▸ hlo) (hlow ▸ hnext ▸ hhi) m neg
        rw [htiny, hreaches, hk0, hnext, ← hlow]
      · have hk0 : 2 ^ f.fbits ≤ k := hnormal.trans (by rw [hholds.pattern]; exact Nat.le_add_left _ _)
        rw [hholds.tiny_normal he he0 hlo m neg hnormal, decide_eq_false (by omega), beq_false_of_ne (by omega)]
        rfl
    refine (hholds.roundFin_between he he0 hlo (hhi.trans_eq hnext) m neg).trans ?_
    rw [← hnext]
    rw [htiny, haway]
    exact if_neg (by split <;> omega)
  case beyond =>
    intro x top next htop outward beyond
    obtain ⟨-, -, hholds⟩ := FF.holds_of_decode hm
    rw [Nat.mod_eq_of_lt f.maxBits_lt_signBit] at hholds
    have hnormal := hholds.max_normal
    have houtward : outward = m.away neg 0 0 1 false := by cases m <;> rfl
    rcases Nat.lt_or_ge x next with hlt | hge
    · have hbeyond : beyond = m.away neg top next x (f.maxBits % 2 == 1) := by
        rw [hholds.parity]
        show (decide (next ≤ x) || _) = _
        rw [decide_eq_false (not_le.2 hlt), Bool.false_or]
        cases m <;> rfl
      have hround := hholds.roundFin_above_max he hem htop hlt m neg rfl hnormal
      exact ⟨fun hb => hround.trans ((if_pos (hbeyond.symm.trans hb)).trans (by rw [FF.overflow_eq, houtward])),
        fun hb => hround.trans (if_neg (ne_true_of_eq_false (hbeyond.symm.trans hb)))⟩
    · have hbeyond : beyond = true := Bool.or_eq_true_iff.2 (.inl (decide_eq_true hge))
      refine ⟨fun _ => ?_, fun hb => absurd hb (by simp [hbeyond])⟩
      exact (hholds.roundFin_beyond he hem htop m neg rfl hnormal hge).trans (by rw [FF.overflow_eq, houtward])

end Sys2Proof.Machine
end

section
/-! Settles O28 (CachesStaySound): what every access to global memory leaves of the home L2s, of memory and of the cores' L1s
(R217–R222, R228, R229). -/

namespace Sys2Proof.Machine

/-! ### Lines of an L2 and the bytes at home (R222, R229) -/

/-- What `CachesSound` asks of line `n` of an L2 above memory `m`. -/
def L2Line.Sound (m : Memory) (n : Nat) (l : L2Line) : Prop :=
  l.data.length = 128 ∧ l.dirty &&& ~~~l.valid = 0 ∧
    ∀ i, i < 128 → l.valid.getLsbD (i / 32) = true → l.dirty.getLsbD (i / 32) = false → l.data[i]? = some (m.read (128 * n + i))

/-- What `CachesSound` asks of the L2s and of memory. -/
def HomeSound (s : State) : Prop := Memory.wf s.mem = true ∧ ∀ n l, s.l2.find n = some l → l.Sound s.mem n

/-- What `CachesSound` asks of a core. -/
def Core.Sound (c : Core) : Prop := (∀ b ∈ c.l1, b.data.length = 4 * b.words) ∧ ∀ i, 0 < KV.get 8 c.pred i

theorem cachesSound_iff {s : State} : CachesSound s ↔ HomeSound s ∧ ∀ c, (s.core c).Sound :=
  ⟨fun ⟨hm, hl, hb, hp⟩ => ⟨⟨hm, hl⟩, fun c => ⟨hb c, hp c⟩⟩, fun ⟨⟨hm, hl⟩, hc⟩ => ⟨hm, hl, fun c => (hc c).1, fun c => (hc c).2⟩⟩

theorem and_not_eq_zero_iff {w : Nat} {x y : BitVec w} :
    x &&& ~~~y = 0 ↔ ∀ j, x.getLsbD j = true → y.getLsbD j = true := by
  refine ⟨fun h j hj => ?_, fun h => BitVec.eq_of_getLsbD_eq fun j hj => ?_⟩
  · have hbit := congrArg (BitVec.getLsbD · j) h
    simpa [hj, BitVec.lt_of_getLsbD hj] using hbit
  · have hsub := h j
    cases hx : x.getLsbD j <;> simp_all

theorem L2Line.Sound.data_getElem? {m : Memory} {n : Nat} {l : L2Line} (h : l.Sound m n) {i : Nat} (hi : i < 128) :
    l.data[i]? = some (l.data.getD i 0) := by
  have hlt : i < l.data.length := h.1.symm ▸ hi
  simp [hlt]

theorem line_of_byte (n : Nat) {i : Nat} (hi : i < 128) : (128 * n + i) / 128 = n ∧ (128 * n + i) % 128 = i := by omega

/-- A byte at its home, by its line and its place in the line. -/
theorem State.homeByte_at (s : State) (n : Nat) {i : Nat} (hi : i < 128) :
    s.homeByte (128 * n + i) = (s.l2.find n).elim (s.mem.read (128 * n + i)) fun l =>
      if l.valid.getLsbD (i / 32) then l.data.getD i 0 else s.mem.read (128 * n + i) := by
  obtain ⟨hn, hm⟩ := line_of_byte n hi
  rw [State.homeByte, hn, hm]
  cases s.l2.find n <;> rfl

theorem State.homeByte_unlisted {s : State} {n i : Nat} (h : s.l2.find n = none) (hi : i < 128) :
    s.homeByte (128 * n + i) = s.mem.read (128 * n + i) := by
  rw [s.homeByte_at n hi, h]
  rfl

theorem State.homeByte_listed {s : State} {n i : Nat} {l : L2Line} (h : s.l2.find n = some l) (hi : i < 128) :
    s.homeByte (128 * n + i) = if l.valid.getLsbD (i / 32) then l.data.getD i 0 else s.mem.read (128 * n + i) := by
  rw [s.homeByte_at n hi, h]
  rfl

/-- The bytes of lines are all bytes. -/
theorem forall_byte_iff {p : Nat → Prop} : (∀ a, p a) ↔ ∀ n i, i < 128 → p (128 * n + i) :=
  ⟨fun h n i _ => h _, fun h a => Nat.div_add_mod a 128 ▸ h (a / 128) (a % 128) (Nat.mod_lt _ (by decide))⟩

theorem State.homeLine_data (s : State) (n : Nat) : (s.homeLine n).data = (List.range 128).map fun i => s.homeByte (128 * n + i) := by
  unfold State.homeLine
  split
  · next l h => exact List.map_congr_left fun i hi => (State.homeByte_listed h (List.mem_range.1 hi)).symm
  · next h => exact List.map_congr_left fun i hi => (State.homeByte_unlisted h (List.mem_range.1 hi)).symm

theorem State.homeLine_data_length (s : State) (n : Nat) : (s.homeLine n).data.length = 128 := by simp [s.homeLine_data]

theorem State.homeLine_data_getElem? (s : State) (n : Nat) {i : Nat} (hi : i < 128) :
    (s.homeLine n).data[i]? = some (s.homeByte (128 * n + i)) := by simp [s.homeLine_data, hi]

theorem State.homeLine_dirty_listed {s : State} {n : Nat} {l : L2Line} (h : s.l2.find n = some l) : (s.homeLine n).dirty = l.dirty := by
  rw [State.homeLine, h]

theorem State.homeLine_dirty_unlisted {s : State} {n : Nat} (h : s.l2.find n = none) : (s.homeLine n).dirty = 0 := by
  rw [State.homeLine, h]

/-- A byte of no dirty sector is as memory holds it. -/
theorem HomeSound.homeByte_clean {s : State} (h : HomeSound s) {n i : Nat} (hi : i < 128)
    (hd : (s.homeLine n).dirty.getLsbD (i / 32) = false) : s.homeByte (128 * n + i) = s.mem.read (128 * n + i) := by
  cases hl : s.l2.find n with
  | none => exact State.homeByte_unlisted hl hi
  | some l =>
    obtain ⟨-, -, hclean⟩ := h.2 n l hl
    rw [State.homeLine_dirty_listed hl] at hd
    rw [State.homeByte_listed hl hi]
    split
    · next hv => rw [List.getD_eq_getElem?_getD, hclean i hi hv hd, Option.getD_some]
    · rfl

/-! ### What keeps the bytes at home -/

/-- From sound homes, `t` has sound ones, and every byte at its home is that of `s`. -/
def KeepsHome (s t : State) : Prop := HomeSound s → HomeSound t ∧ ∀ a, t.homeByte a = s.homeByte a

namespace KeepsHome

variable {s t u : State}

theorem refl (s : State) : KeepsHome s s := fun h => ⟨h, fun _ => rfl⟩

theorem trans (h : KeepsHome s t) (k : KeepsHome t u) : KeepsHome s u := fun hs =>
  have ⟨ht, hb⟩ := h hs
  have ⟨hu, hc⟩ := k ht
  ⟨hu, fun a => (hc a).trans (hb a)⟩

theorem of_same (hm : t.mem = s.mem) (hl : t.l2 = s.l2) : KeepsHome s t := fun hs => by
  refine ⟨?_, fun a => ?_⟩
  · rw [HomeSound, hm, hl]
    exact hs
  · rw [State.homeByte, hm, hl]
    rfl

theorem foldl {α : Type} {f : State → α → State} (hf : ∀ s a, KeepsHome s (f s a)) (l : List α) (s : State) :
    KeepsHome s (l.foldl f s) := by
  induction l generalizing s with
  | nil => exact refl s
  | cons a l ih => exact (hf s a).trans (ih (f s a))

/-- A sound line that is put into the L2 changes no byte, where it holds the bytes that stand there. -/
theorem insert {n : Nat} {l : L2Line} (hm : t.mem = s.mem) (hl : t.l2 = s.l2.insert n l) (hsound : HomeSound s → l.Sound s.mem n)
    (hv : ∀ i, i < 128 → l.valid.getLsbD (i / 32) = true → l.data.getD i 0 = s.homeByte (128 * n + i))
    (hi : HomeSound s → ∀ i, i < 128 → l.valid.getLsbD (i / 32) = false → s.homeByte (128 * n + i) = s.mem.read (128 * n + i)) :
    KeepsHome s t := by
  intro hs
  refine ⟨⟨hm ▸ hs.1, fun k d hk => ?_⟩, forall_byte_iff.2 fun k i hlt => ?_⟩
  · rw [hl] at hk
    rw [hm]
    by_cases hkn : k = n
    · subst hkn
      rw [KV.find_insert_self] at hk
      cases hk
      exact hsound hs
    · rw [KV.find_insert_ne _ _ hkn] at hk
      exact hs.2 k d hk
  · by_cases hkn : k = n
    · subst hkn
      rw [State.homeByte_listed (hl ▸ KV.find_insert_self ..) hlt, hm]
      split
      · next hval => exact hv i hlt hval
      · next hval => exact (hi hs i hlt (Bool.eq_false_iff.2 hval)).symm
    · rw [State.homeByte_at t k hlt, State.homeByte_at s k hlt, hl, KV.find_insert_ne _ _ hkn, hm]

/-- Sectors of a line are filled. -/
theorem insert_homeLine {n : Nat} {v : BitVec 4} (hm : t.mem = s.mem) (hl : t.l2 = s.l2.insert n { s.homeLine n with valid := v })
    (hv : ∀ l, s.l2.find n = some l → ∀ j, l.valid.getLsbD j = true → v.getLsbD j = true) : KeepsHome s t := by
  refine insert hm hl (fun hs => ⟨s.homeLine_data_length n, ?_, fun i hi _ hd => ?_⟩) (fun i hi _ => ?_) fun hs i hi hf => ?_
  · refine and_not_eq_zero_iff.2 fun j hj => ?_
    change (s.homeLine n).dirty.getLsbD j = true at hj
    cases hf : s.l2.find n with
    | none =>
      rw [State.homeLine_dirty_unlisted hf] at hj
      exact absurd hj (by simp)
    | some l =>
      obtain ⟨-, hsub, -⟩ := hs.2 n l hf
      rw [State.homeLine_dirty_listed hf] at hj
      exact hv l hf j (and_not_eq_zero_iff.1 hsub j hj)
  · rw [← hs.homeByte_clean hi hd]
    exact s.homeLine_data_getElem? n hi
  · rw [List.getD_eq_getElem?_getD, s.homeLine_data_getElem? n hi, Option.getD_some]
  · cases hf' : s.l2.find n with
    | none => exact State.homeByte_unlisted hf' hi
    | some l =>
      rw [State.homeByte_listed hf' hi, if_neg]
      intro hval
      exact absurd (hv l hf' _ hval) (Bool.eq_false_iff.1 hf)

/-- A line goes that memory holds as its home does. -/
theorem erase {n : Nat} (hl : t.l2 = s.l2.erase n) (hwf : Memory.wf s.mem = true → Memory.wf t.mem = true)
    (hr : HomeSound s → ∀ k i, i < 128 →
      t.mem.read (128 * k + i) = if k = n then s.homeByte (128 * k + i) else s.mem.read (128 * k + i)) : KeepsHome s t := by
  refine fun hs => ⟨⟨hwf hs.1, fun k d hk => ?_⟩, forall_byte_iff.2 fun k i hi => ?_⟩
  · have hkn : k ≠ n := fun hkn => by
      rw [hl, hkn, KV.find_erase_self] at hk
      cases hk
    rw [hl, KV.find_erase_ne _ hkn] at hk
    obtain ⟨hlen, hsub, hdata⟩ := hs.2 k d hk
    refine ⟨hlen, hsub, fun i hi hv hd => ?_⟩
    rw [hr hs k i hi, if_neg hkn]
    exact hdata i hi hv hd
  · by_cases hkn : k = n
    · rw [State.homeByte_unlisted (by rw [hl, hkn, KV.find_erase_self]) hi, hr hs k i hi, if_pos hkn]
    · rw [State.homeByte_at t k hi, State.homeByte_at s k hi, hl, KV.find_erase_ne _ hkn, hr hs k i hi, if_neg hkn]

/-- A line that leaves the L2 changes no byte (R228, R229). -/
theorem l2Evict (s : State) (line : Nat) : KeepsHome s (s.l2Evict line) := by
  unfold State.l2Evict
  split
  · exact refl s
  · next l hf =>
    dsimp only
    split
    · next hclean =>
      refine erase rfl id fun hs k i hi => ?_
      split
      · next hk =>
        refine (hs.homeByte_clean hi ?_).symm
        rw [hk, State.homeLine_dirty_listed hf, hclean]
        exact BitVec.getLsbD_zero
      · rfl
    · refine erase rfl (Memory.wf_writeN _ _ _) fun hs k i hi => ?_
      show Memory.read (Memory.writeN _ _ _) _ = _
      rw [Memory.read_writeN, s.homeLine_data_length]
      split
      · next hk =>
        have hkl : k = line := by omega
        rw [if_pos hkl, hkl, Nat.add_sub_cancel_left, List.getD_eq_getElem?_getD, s.homeLine_data_getElem? line hi, Option.getD_some]
      · next hk => rw [if_neg (by omega)]

theorem l2Room (s : State) (line : Nat) : KeepsHome s (s.l2Room line) := by
  unfold State.l2Room
  dsimp only
  split
  · exact refl s
  · split
    · exact l2Evict s _
    · exact refl s

theorem fillBad (s : State) (line : Nat) (m : BitVec 4) : KeepsHome s (s.fillBad line m) := by
  unfold State.fillBad
  split
  · exact refl s
  · exact of_same rfl rfl

end KeepsHome

theorem State.homeLine_congr {s t : State} (hm : t.mem = s.mem) (hl : t.l2 = s.l2) (n : Nat) : t.homeLine n = s.homeLine n := by
  rw [State.homeLine, hm, hl]
  rfl

theorem State.fillBad_mem (s : State) (line : Nat) (m : BitVec 4) : (s.fillBad line m).mem = s.mem := by
  unfold State.fillBad
  split <;> rfl

theorem State.fillBad_l2 (s : State) (line : Nat) (m : BitVec 4) : (s.fillBad line m).l2 = s.l2 := by
  unfold State.fillBad
  split <;> rfl

theorem State.l2Evict_gone {s : State} {line : Nat} {l : L2Line} (h : s.l2.find line = some l) : (s.l2Evict line).l2.find line = none := by
  rw [State.l2Evict, h]
  dsimp only
  split <;> exact KV.find_erase_self _ _

theorem State.l2Evict_unlisted {s : State} {line n : Nat} (h : s.l2.find n = none) : (s.l2Evict line).l2.find n = none := by
  have herase : (s.l2.erase line).find n = none := by
    by_cases hn : n = line
    · rw [hn, KV.find_erase_self]
    · rw [KV.find_erase_ne _ hn, h]
  unfold State.l2Evict
  split
  · exact h
  · dsimp only
    split <;> exact herase

theorem State.l2Room_unlisted {s : State} {line n : Nat} (h : s.l2.find n = none) : (s.l2Room line).l2.find n = none := by
  unfold State.l2Room
  dsimp only
  split
  · exact h
  · split
    · exact State.l2Evict_unlisted h
    · exact h

/-- A fill in which every sector is held already. -/
theorem State.l2Fill_held {s : State} {line : Nat} {m : BitVec 4} {l : L2Line} (h : s.l2.find line = some l)
    (hv : l.valid &&& m = m) : s.l2Fill line m = s := by
  rw [State.l2Fill, h]
  exact if_pos hv

/-- A fill of a line of which the L2 holds other sectors. -/
theorem State.l2Fill_more {s : State} {line : Nat} {m : BitVec 4} {l : L2Line} (h : s.l2.find line = some l)
    (hv : ¬ l.valid &&& m = m) : s.l2Fill line m = { s.fillBad line m with
      l2 := s.l2.insert line { s.homeLine line with valid := l.valid ||| m } } := by
  rw [State.l2Fill, h]
  refine (if_neg hv).trans ?_
  dsimp only
  rw [State.homeLine_congr (s.fillBad_mem line m) (s.fillBad_l2 line m), s.fillBad_l2]

/-- A fill of a line of which the L2 holds nothing. -/
theorem State.l2Fill_new {s : State} {line : Nat} (m : BitVec 4) (h : s.l2.find line = none) :
    s.l2Fill line m = { (s.l2Room line).fillBad line m with
      l2 := (s.l2Room line).l2.insert line { (s.l2Room line).homeLine line with valid := m } } := by
  rw [State.l2Fill, h]
  dsimp only
  rw [State.homeLine_congr (State.fillBad_mem ..) (State.fillBad_l2 ..), State.fillBad_l2]

/-- A read is asked for over Thrumri, or fills the home L2s. -/
theorem State.homeRead_state (s : State) (pa n : Nat) :
    (s.homeRead pa n).2 = s.free.2.ask ((thrumriParts n).map fun p => ⟨s.pkg.pkgid, pa + p.1, .read p.2⟩) ∨
      (s.homeRead pa n).2 = s.l2Fills pa n :=
  ite_eq_or_eq _ _ _

namespace KeepsHome

variable {s t u : State}

/-- A fill changes no byte (R222, R229). -/
theorem l2Fill (s : State) (line : Nat) (m : BitVec 4) : KeepsHome s (s.l2Fill line m) := by
  cases hf : s.l2.find line with
  | none =>
    rw [State.l2Fill_new m hf]
    refine (l2Room s line).trans (insert_homeLine (State.fillBad_mem ..) rfl fun l hl => ?_)
    rw [State.l2Room_unlisted hf] at hl
    cases hl
  | some l =>
    by_cases hv : l.valid &&& m = m
    · rw [State.l2Fill_held hf hv]
      exact refl s
    · rw [State.l2Fill_more hf hv]
      refine insert_homeLine (s.fillBad_mem line m) rfl fun k hk j hj => ?_
      rw [hf] at hk
      cases hk
      rw [BitVec.getLsbD_or, hj, Bool.true_or]

/-- A line that is written back and kept (R229, R256). -/
theorem l2Clean (s : State) (line : Nat) : KeepsHome s (s.l2Clean line) := by
  unfold State.l2Clean
  split
  · exact refl s
  · next l hf =>
    intro hs
    obtain ⟨-, hbytes⟩ := l2Evict s line hs
    have hgone := State.l2Evict_gone hf
    have hdata (i : Nat) (hi : i < 128) (hv : l.valid.getLsbD (i / 32) = true) :
        l.data.getD i 0 = (s.l2Evict line).homeByte (128 * line + i) := by
      rw [hbytes, State.homeByte_listed hf hi, if_pos hv]
    refine (l2Evict s line).trans (insert (n := line) (l := { l with dirty := 0 }) rfl rfl
      (fun _ => ⟨(hs.2 line l hf).1, BitVec.zero_and, fun i hi hv _ => ?_⟩) hdata
      fun _ i hi _ => State.homeByte_unlisted hgone hi) hs
    rw [← State.homeByte_unlisted hgone hi, ← hdata i hi hv]
    exact (hs.2 line l hf).data_getElem? hi

theorem l2Fills (s : State) (pa n : Nat) : KeepsHome s (s.l2Fills pa n) :=
  foldl (fun s a => by
    split
    · exact l2Fill s _ _
    · exact refl s) _ s

theorem homeRead (s : State) (pa n : Nat) : KeepsHome s (s.homeRead pa n).2 := by
  rcases s.homeRead_state pa n with hfar | hnear
  · rw [hfar]
    exact of_same rfl rfl
  · rw [hnear]
    exact l2Fills s pa n

theorem spoil (s : State) (pas : List Nat) : KeepsHome s (s.spoil pas) :=
  foldl (fun s pa => by split <;> exact of_same rfl rfl) pas s

end KeepsHome

/-! ### Writes at home (R222, R229) -/

theorem State.l2Fill_dirty (s : State) (line : Nat) (m : BitVec 4) : ((s.l2Fill line m).homeLine line).dirty = (s.homeLine line).dirty := by
  cases hf : s.l2.find line with
  | none =>
    rw [State.l2Fill_new m hf, State.homeLine_dirty_listed (KV.find_insert_self ..), State.homeLine_dirty_unlisted hf]
    exact State.homeLine_dirty_unlisted (State.l2Room_unlisted hf)
  | some l =>
    by_cases hv : l.valid &&& m = m
    · rw [State.l2Fill_held hf hv]
    · rw [State.l2Fill_more hf hv, State.homeLine_dirty_listed (KV.find_insert_self ..)]

/-- The line that a write leaves. -/
theorem State.homePut_line (s : State) (c : Nat) (b : Byte) (cmp : Bool) : (s.homePut c b cmp).l2.find (c / 128) =
    some ⟨((s.l2Fill (c / 128) 15).homeLine (c / 128)).data.set (c % 128) b, 15,
      (s.homeLine (c / 128)).dirty ||| BitVec.ofNat 4 (2 ^ (c % 128 / 32)), cmp⟩ := by
  rw [← State.l2Fill_dirty s _ 15]
  exact KV.find_insert_self ..

theorem getLsbD_ofNat_two_pow {w k j : Nat} (hj : j < w) : (BitVec.ofNat w (2 ^ k)).getLsbD j = decide (k = j) := by
  rw [BitVec.getLsbD_ofNat, Nat.testBit_two_pow, decide_eq_true hj, Bool.true_and]

theorem getLsbD_fifteen {j : Nat} (hj : j < 4) : (15 : BitVec 4).getLsbD j = true := by
  show (BitVec.allOnes 4).getLsbD j = true
  rw [BitVec.getLsbD_allOnes, decide_eq_true hj]

theorem State.homePut_frame (s : State) (c : Nat) (b : Byte) (cmp : Bool) : (s.homePut c b cmp).mem = (s.l2Fill (c / 128) 15).mem ∧
    ∀ k, k ≠ c / 128 → (s.homePut c b cmp).l2.find k = (s.l2Fill (c / 128) 15).l2.find k :=
  ⟨rfl, fun _ hk => KV.find_insert_ne _ _ hk⟩

theorem HomeSound.homePut {s : State} (h : HomeSound s) (c : Nat) (b : Byte) (cmp : Bool) : HomeSound (s.homePut c b cmp) := by
  have hline := s.homePut_line c b cmp
  obtain ⟨hmem, hother⟩ := s.homePut_frame c b cmp
  obtain ⟨hfill, hbytes⟩ := KeepsHome.l2Fill s (c / 128) 15 h
  refine ⟨hmem ▸ hfill.1, fun k l hl => ?_⟩
  rw [hmem]
  by_cases hk : k = c / 128
  · subst hk
    rw [hline] at hl
    cases hl
    refine ⟨?_, ?_, fun i hi _ hd => ?_⟩
    · rw [List.length_set, State.homeLine_data_length]
    · exact and_not_eq_zero_iff.2 fun j hj => getLsbD_fifteen (BitVec.lt_of_getLsbD hj)
    · rw [BitVec.getLsbD_or, Bool.or_eq_false_iff, getLsbD_ofNat_two_pow (by omega), decide_eq_false_iff_not] at hd
      obtain ⟨hclean, hsector⟩ := hd
      rw [List.getElem?_set_ne (fun heq => hsector (congrArg (· / 32) heq)), State.homeLine_data_getElem? _ _ hi]
      exact congrArg some (hfill.homeByte_clean hi (by rwa [State.l2Fill_dirty]))
  · rw [hother k hk] at hl
    exact hfill.2 k l hl

/-- A write changes its byte alone (R222). -/
theorem HomeSound.homeByte_homePut {s : State} (h : HomeSound s) (c : Nat) (b : Byte) (cmp : Bool) (a : Nat) :
    (s.homePut c b cmp).homeByte a = if a = c then b else s.homeByte a := by
  revert a
  refine forall_byte_iff.2 fun k i hi => ?_
  have hline := s.homePut_line c b cmp
  obtain ⟨hmem, hother⟩ := s.homePut_frame c b cmp
  obtain ⟨hfill, hbytes⟩ := KeepsHome.l2Fill s (c / 128) 15 h
  rw [← hbytes (128 * k + i)]
  by_cases hk : k = c / 128
  · have hvalid : (15 : BitVec 4).getLsbD (i / 32) = true := by
      have : i / 32 < 4 := by omega
      interval_cases i / 32 <;> rfl
    rw [State.homeByte_listed (hk ▸ hline) hi, if_pos hvalid, List.getD_eq_getElem?_getD]
    split
    · next hc =>
      have hic : c % 128 = i := by omega
      rw [hic, List.getElem?_set_self (by rwa [State.homeLine_data_length]), Option.getD_some]
    · next hc =>
      rw [List.getElem?_set_ne (by omega), ← hk, State.homeLine_data_getElem? _ _ hi, Option.getD_some]
  · rw [if_neg (by omega), State.homeByte_at _ k hi, State.homeByte_at (s.l2Fill _ _) k hi, hother k hk, hmem]

theorem HomeSound.homePuts {s : State} (h : HomeSound s) (pa : Nat) (cmp : Bool) (bs : List (Option Byte)) :
    HomeSound (s.homePuts pa cmp bs) := by
  induction bs generalizing s pa with
  | nil => exact h
  | cons b t ih =>
    refine ih ?_ _
    split
    · exact h.homePut _ _ cmp
    · exact h

theorem HomeSound.homeWrite {s : State} (h : HomeSound s) (pa : Nat) (bs : List (Option Byte)) (cmp : Bool) :
    HomeSound (s.homeWrite pa bs cmp) := by
  unfold State.homeWrite
  split
  · exact (KeepsHome.of_same rfl rfl h).1
  · exact h.homePuts pa cmp bs

/-! ### What accesses leave of the cores (R217–R220) -/

theorem State.l2Fills_cores (s : State) (pa n : Nat) : (s.l2Fills pa n).cores = s.cores := by
  unfold State.l2Fills
  generalize sectorsOf pa n = as
  induction as generalizing s with
  | nil => rfl
  | cons a as ih =>
    rw [List.foldl_cons, ih]
    split
    · exact s.l2Fill_cores _ _
    · rfl

theorem State.homeRead_cores (s : State) (pa n : Nat) : (s.homeRead pa n).2.cores = s.cores := by
  rcases s.homeRead_state pa n with hfar | hnear
  · rw [hfar]
    rfl
  · rw [hnear, s.l2Fills_cores]

theorem Core.Sound.of_l1 {c d : Core} (h : c.Sound) (hp : d.pred = c.pred) (hb : ∀ b ∈ d.l1, b.data.length = 4 * b.words) : d.Sound :=
  ⟨hb, hp ▸ h.2⟩

/-- Blocks that are changed keep as many bytes as their words ask for. -/
theorem Core.Sound.map_l1 {c d : Core} (h : c.Sound) (hp : d.pred = c.pred) {f : L1Block → L1Block} (hl : d.l1 = c.l1.map f)
    (hf : ∀ b : L1Block, b.data.length = 4 * b.words → (f b).data.length = 4 * (f b).words) : d.Sound := by
  refine h.of_l1 hp fun b hb => ?_
  rw [hl] at hb
  obtain ⟨k, hk, rfl⟩ := List.mem_map.1 hb
  exact hf k (h.1 k hk)

theorem Core.Sound.l1Refresh {c : Core} (h : c.Sound) (a n : Nat) : (c.l1Refresh a n).Sound :=
  h.map_l1 rfl rfl fun b hb => by split <;> exact hb

theorem Core.Sound.l1Forget {c : Core} (h : c.Sound) (a : Nat) : (c.l1Forget a).Sound :=
  h.map_l1 rfl rfl fun b hb => by split <;> exact hb

/-- The blocks of an L1 once those over a piece are changed. -/
theorem Core.mem_l1Touch {c : Core} {a n : Nat} {first : Bool} {f : L1Block → L1Block} {b : L1Block} :
    b ∈ (c.l1Touch a n first f).l1 ↔
      (∃ k ∈ c.l1, k.meets a n = true ∧ f { k with used := k.used ||| (wordsAt a n &&& wordsAt k.addr (4 * k.words)) } = b) ∨
        b ∈ c.l1 ∧ b.meets a n = false := by
  unfold Core.l1Touch
  cases first <;> simp [and_assoc, or_comm]

theorem Core.Sound.l1Touch {c : Core} (h : c.Sound) (a n : Nat) (first : Bool) {f : L1Block → L1Block}
    (hf : ∀ b : L1Block, b.data.length = 4 * b.words → (f b).data.length = 4 * (f b).words) : (c.l1Touch a n first f).Sound := by
  refine h.of_l1 rfl fun b hb => ?_
  rcases Core.mem_l1Touch.1 hb with ⟨k, hk, -, rfl⟩ | ⟨hb, -⟩
  · exact hf _ (h.1 k hk)
  · exact h.1 b hb

/-- A list with an element before or behind it. -/
theorem mem_l1_of_added {α : Type} {first : Bool} {x y : α} {l : List α} (h : x ∈ if first then y :: l else l ++ [y]) : x = y ∨ x ∈ l := by
  cases first
  · simpa [or_comm] using h
  · simpa using h

theorem spanOf_pos (used : BitVec 8) : 0 < spanOf used := by
  unfold spanOf
  dsimp only
  split_ifs <;> decide

namespace CachesSound

variable {s t : State}

theorem of_home (h : CachesSound s) (hh : HomeSound t) (hc : t.cores = s.cores) : CachesSound t := by
  refine cachesSound_iff.2 ⟨hh, fun c => ?_⟩
  rw [State.core, hc]
  exact (cachesSound_iff.1 h).2 c

theorem of_kept (h : CachesSound s) (hk : KeepsHome s t) (hc : t.cores = s.cores) : CachesSound t :=
  h.of_home (hk (cachesSound_iff.1 h).1).1 hc

theorem home (h : CachesSound s) : HomeSound s := (cachesSound_iff.1 h).1

theorem core (h : CachesSound s) (n : Nat) : (s.core n).Sound := (cachesSound_iff.1 h).2 n

theorem modCore (h : CachesSound s) (n : Nat) {f : Core → Core} (hf : (s.core n).Sound → (f (s.core n)).Sound) :
    CachesSound (s.modCore n f) := by
  refine cachesSound_iff.2 ⟨h.home, fun k => ?_⟩
  by_cases hk : k = n
  · rw [hk, State.core_modCore]
    exact hf (h.core n)
  · rw [State.core_modCore_ne _ _ hk]
    exact h.core k

theorem foldl {α : Type} {f : State → α → State} (hf : ∀ s a, CachesSound s → CachesSound (f s a)) (l : List α) (h : CachesSound s) :
    CachesSound (l.foldl f s) := by
  induction l generalizing s with
  | nil => exact h
  | cons a l ih => exact ih (hf s a h)

theorem count (h : CachesSound s) (n ev : Nat) : CachesSound (s.count n ev) := h.modCore n id

theorem homeRead (h : CachesSound s) (pa n : Nat) : CachesSound (s.homeRead pa n).2 :=
  h.of_kept (KeepsHome.homeRead s pa n) (s.homeRead_cores pa n)

theorem homeWrite (h : CachesSound s) (pa : Nat) (bs : List (Option Byte)) (cmp : Bool) : CachesSound (s.homeWrite pa bs cmp) :=
  h.of_home (h.home.homeWrite pa bs cmp) (s.homeWrite_cores pa bs cmp)

theorem l2Evict (h : CachesSound s) (line : Nat) : CachesSound (s.l2Evict line) :=
  h.of_kept (KeepsHome.l2Evict s line) (s.l2Evict_cores line)

theorem l2Clean (h : CachesSound s) (line : Nat) : CachesSound (s.l2Clean line) := by
  refine h.of_kept (KeepsHome.l2Clean s line) ?_
  unfold State.l2Clean
  split
  · rfl
  · exact s.l2Evict_cores line

/-! ### The L1 (R217–R220) -/

theorem l1Back (h : CachesSound s) (core : Nat) (b : L1Block) : CachesSound (s.l1Back core b) := by
  unfold State.l1Back
  split
  · exact h
  · exact ((h.count core 5).homeWrite _ _ _).of_kept (KeepsHome.spoil _ _) (State.spoil_cores _ _)

theorem l1Leave (h : CachesSound s) (core : Nat) (bs : List L1Block) : CachesSound (s.l1Leave core bs) := by
  induction bs generalizing s with
  | nil => exact h
  | cons b t ih =>
    refine ih ((h.l1Back core b).modCore core fun hc => ⟨fun k hk => hc.1 k (List.mem_of_mem_filter hk), fun i => ?_⟩)
    by_cases hi : i = b.idx
    · rw [hi, KV.get_put_self]
      exact spanOf_pos _
    · rw [KV.get_put_ne _ _ _ hi]
      exact hc.2 i

theorem l1BackWhere (h : CachesSound s) (core : Nat) (p : L1Block → Bool) : CachesSound (s.l1BackWhere core p) := by
  refine (foldl (fun s b hs => ?_) _ h).modCore core fun hc => hc.map_l1 rfl rfl fun b hb => ?_
  · split
    · exact hs.l1Back core b
    · exact hs
  · unfold L1Block.clean
    split_ifs <;> exact hb

theorem release (h : CachesSound s) (core scope : Nat) : CachesSound (s.release core scope) := by
  unfold State.release
  split
  · exact h
  · exact h.l1BackWhere core _

theorem acquire (h : CachesSound s) (core scope : Nat) : CachesSound (s.acquire core scope) := by
  unfold State.acquire
  split
  · exact h
  · exact (h.l1Leave core _).modCore core fun hc => hc.map_l1 rfl rfl fun b hb => hb

theorem l1DropClean (h : CachesSound s) (core : Nat) (hit : Nat → Bool) : CachesSound (s.l1DropClean core hit) := by
  refine (h.modCore core fun hc => hc.map_l1 rfl rfl ?_).l1Leave core _
  exact fun _ hb => hb

theorem l1Alloc (h : CachesSound s) (core a idx z : Nat) (cmp first : Bool) : CachesSound (s.l1Alloc core a idx z cmp first) := by
  refine ((h.l1Leave core _).l1Leave core _).modCore core fun hc => hc.of_l1 rfl fun b hb => ?_
  rcases mem_l1_of_added hb with rfl | hb
  · exact List.length_replicate
  · exact hc.1 b hb

theorem l1Ensure (h : CachesSound s) (core a idx z : Nat) (cmp first : Bool) : CachesSound (s.l1Ensure core a idx z cmp first) := by
  unfold State.l1Ensure
  split
  · exact h
  · exact h.l1Alloc core a idx z cmp first

theorem l1FillBlock (h : CachesSound s) (core idx z : Nat) (cmp first : Bool) (base : Nat) :
    CachesSound (s.l1FillBlock core idx z cmp first base) := by
  unfold State.l1FillBlock
  refine (homeRead (count ?_ core 5) base (4 * z)).modCore core fun hc => hc.map_l1 rfl rfl fun b hb => ?_
  · split
    · exact h
    · exact h.l1Alloc core base idx z cmp first
  · split
    · next heq =>
      rw [Bool.and_eq_true, decide_eq_true_eq, decide_eq_true_eq] at heq
      rw [List.length_map, List.length_range, heq.2]
    · exact hb

theorem l1Fetch (h : CachesSound s) (core idx z : Nat) (cmp first : Bool) (a n : Nat) (bases : List Nat) :
    CachesSound (s.l1Fetch core idx z cmp first a n bases).st := by
  induction bases generalizing s with
  | nil => exact h
  | cons base t ih => exact ih ((h.l1FillBlock core idx z cmp first base).modCore core fun hc => hc.l1Touch _ _ first fun _ hb => hb)

theorem l1Direct (h : CachesSound s) (core : Nat) (pol : Policy) (a n : Nat) : CachesSound (s.l1Direct core pol a n).st := by
  refine ((h.count core 5).homeRead a n).modCore core fun hc => ?_
  have hr := hc.l1Refresh a n
  dsimp only
  split
  · refine hr.of_l1 rfl fun b hb => hr.1 b ?_
    exact (List.mem_append.1 hb).elim List.mem_of_mem_filter List.mem_of_mem_filter
  · exact hr

theorem readPiece1 (h : CachesSound s) (core idx z : Nat) (pol : Policy) (cmp : Bool) (a n : Nat) :
    CachesSound (s.readPiece1 core idx z pol cmp a n).st := by
  unfold State.readPiece1
  dsimp only
  split
  · exact h.l1Direct core pol a n
  · split
    · exact h.modCore core fun hc => hc.l1Touch a n _ fun _ hb => hb
    · exact (h.count core 4).l1Fetch core idx z cmp _ a n _

theorem readEach (h : CachesSound s) (core idx z : Nat) (pol : Policy) (cmp : Bool) (ps : List (Nat × Nat)) :
    CachesSound (s.readEach core idx z pol cmp ps).st := by
  induction ps generalizing s with
  | nil => exact h
  | cons p t ih => exact ih (h.readPiece1 core idx z pol cmp p.1 p.2)

theorem coreRead (h : CachesSound s) (core idx : Nat) (pol : Policy) (cmp : Bool) (a n : Nat) :
    CachesSound (s.coreRead core idx pol cmp a n).st := h.readEach core idx _ pol cmp _

theorem coreWrite (h : CachesSound s) (core idx : Nat) (pol : Policy) (cmp : Bool) (a : Nat) (bs : List Byte) :
    CachesSound (s.coreWrite core idx pol cmp a bs) := by
  unfold State.coreWrite
  split
  · refine ((h.modCore core fun hc => ?_).count core 5).homeWrite a _ cmp
    generalize List.range bs.length = is
    generalize s.core core = c at hc ⊢
    induction is generalizing c with
    | nil => exact hc
    | cons i is ih => exact ih _ (hc.l1Forget (a + i))
  · refine foldl (fun s e hs => ?_) _ h
    refine (hs.l1Ensure core _ idx _ cmp _).modCore core fun hc => hc.l1Touch _ _ _ fun b hb => ?_
    exact List.length_set.trans hb

end CachesSound

theorem cachesSound_reset : CachesSound State.reset :=
  ⟨rfl, fun _ l h => (Option.some_ne_none l h.symm).elim, fun _ _ hb => (List.not_mem_nil hb).elim, fun _ _ => Nat.zero_lt_succ 7⟩

/-! ### The statement -/

/-- Settles O28: each access as the reads and writes at home, and the changes of a core's L1, that it is made of. -/
theorem cachesStaySound : Obligations.CachesStaySound := by
  unfold Obligations.CachesStaySound
  exact ⟨cachesSound_reset, fun s h => ⟨h.homeRead, h.homeWrite, h.l2Evict, h.l2Clean, h.coreRead, h.coreWrite,
    fun core scope => ⟨h.release core scope, h.acquire core scope⟩, h.l1Leave, h.l1DropClean⟩⟩

end Sys2Proof.Machine
end

section
/-! Settles O24 (HomeMemory): what a read and a write of bytes at their home leave there, and a line that leaves the L2 (R214, R222,
R228, R229). -/

namespace Sys2Proof.Machine

/-! ### Places (R214, R215) -/

/-- Offsets of this package's memory keep the place of an address in its sector. -/
theorem placeOf_mem_mod {o c : Nat} (h : placeOf o = .mem c) : c % 32 = o % 32 := by
  unfold placeOf at h
  split_ifs at h with h1 h2 h3 h4
  · rw [Place.mem.inj h]
  · rw [Bool.and_eq_true, decide_eq_true_eq, beanStriped] at h2
    rw [← Place.mem.inj h, unstripe, beanDie, beanStriped]
    omega
  · rw [Place.mem.inj h]
  · rw [Bool.and_eq_true, decide_eq_true_eq, farStriped] at h4
    rw [← Place.mem.inj h, unstripe, farBase, farDie, farStriped]
    omega

theorem State.place_mem_mod {s : State} {pa c : Nat} (h : s.place pa = .mem c) : c % 32 = pa % 32 := by
  have hplace : placeOf (pa % 2 ^ 42) = .mem c := by
    unfold State.place at h
    dsimp only at h
    split_ifs at h
    exact h
  rw [placeOf_mem_mod hplace]
  omega

theorem State.place_congr {s t : State} (h : t.pkg = s.pkg) : t.place = s.place := by
  funext pa
  rw [State.place, State.inDomain, h]
  rfl

/-! ### Sectors -/

theorem mem_sectorsOf {pa n a : Nat} (h : a ∈ sectorsOf pa n) : ∃ k, k < n ∧ a = pa + k := by
  unfold sectorsOf at h
  split at h
  · cases h
  · obtain ⟨i, hi, rfl⟩ := List.mem_map.1 h
    rw [List.mem_range] at hi
    exact ⟨max pa (pa / 32 * 32 + 32 * i) - pa, by omega, by omega⟩

theorem exists_mem_sectorsOf (pa : Nat) {n k : Nat} (hk : k < n) : ∃ a ∈ sectorsOf pa n, a / 32 = (pa + k) / 32 := by
  rw [sectorsOf, if_neg (by omega)]
  refine ⟨max pa (pa / 32 * 32 + 32 * ((pa + k) / 32 - pa / 32)), List.mem_map.2 ⟨_, List.mem_range.2 ?_, rfl⟩, ?_⟩ <;> omega

theorem State.l2Holds_iff {s : State} {c : Nat} :
    s.l2Holds c = true ↔ ∃ l, s.l2.find (c / 128) = some l ∧ l.valid.getLsbD (c % 128 / 32) = true := by
  unfold State.l2Holds
  split
  · next l h => simp [h]
  · next h => simp [h]

/-- A fill holds the sectors asked for, and those that the L2 held of the line. -/
theorem State.l2Holds_l2Fill {s : State} {line c : Nat} {m : BitVec 4} (hc : c / 128 = line)
    (h : m.getLsbD (c % 128 / 32) = true ∨ s.l2Holds c = true) : (s.l2Fill line m).l2Holds c = true := by
  subst hc
  have hhold : s.l2Holds c = true → ∃ l, s.l2.find (c / 128) = some l ∧ l.valid.getLsbD (c % 128 / 32) = true := State.l2Holds_iff.1
  rw [State.l2Holds_iff]
  cases hf : s.l2.find (c / 128) with
  | none =>
    rw [State.l2Fill_new m hf]
    refine ⟨_, KV.find_insert_self .., h.resolve_right fun hs => ?_⟩
    obtain ⟨l, hl, -⟩ := hhold hs
    rw [hf] at hl
    cases hl
  | some l =>
    have hvalid : (l.valid ||| m).getLsbD (c % 128 / 32) = true := by
      rw [BitVec.getLsbD_or, Bool.or_eq_true]
      refine h.symm.imp_left fun hs => ?_
      obtain ⟨k, hk, hv⟩ := hhold hs
      rw [hf] at hk
      cases hk
      exact hv
    by_cases hv : l.valid &&& m = m
    · rw [State.l2Fill_held hf hv]
      rw [← hv, BitVec.getLsbD_or, BitVec.getLsbD_and, Bool.or_eq_true, Bool.and_eq_true, or_iff_left_of_imp And.left] at hvalid
      exact ⟨l, hf, hvalid⟩
    · rw [State.l2Fill_more hf hv]
      exact ⟨_, KV.find_insert_self .., hvalid⟩

/-- The fill of the sector that holds a byte of this package's memory. -/
def State.l2FillAt (s : State) (a : Nat) : State :=
  match s.place a with
  | .mem c => s.l2Fill (c / 128) (BitVec.ofNat 4 (2 ^ (c % 128 / 32)))
  | _ => s

theorem State.l2FillAt_mem {s : State} {a c : Nat} (h : s.place a = .mem c) :
    s.l2FillAt a = s.l2Fill (c / 128) (BitVec.ofNat 4 (2 ^ (c % 128 / 32))) := by
  rw [State.l2FillAt, h]

theorem State.l2Fills_eq (s : State) (pa n : Nat) : s.l2Fills pa n = (sectorsOf pa n).foldl State.l2FillAt s := rfl

section
variable {s : State} {pa c n : Nat} (hp : ∀ k, k < n → s.place (pa + k) = .mem (c + k))
include hp

theorem State.homeRead_bytes : (s.homeRead pa n).1 = (List.range n).map fun k => s.homeByte (c + k) := by
  refine List.map_congr_left fun k hk => ?_
  rw [hp k (List.mem_range.1 hk)]

theorem State.homeRead_near : (s.homeRead pa n).2 = s.l2Fills pa n := by
  refine if_neg fun hfar => ?_
  rcases Nat.eq_zero_or_pos n with rfl | hn
  · split at hfar <;> cases hfar
  · rw [show s.place pa = .mem c from hp 0 hn] at hfar
    cases hfar

/-- Fills at addresses of the bytes read leave the sectors of these addresses in the L2, and those that it held of their line. -/
theorem State.l2Holds_foldl_l2FillAt (hl : ∀ k, k < n → (c + k) / 128 = c / 128) (hmod : c % 32 = pa % 32) {as : List Nat}
    (hin : ∀ a ∈ as, ∃ j, j < n ∧ a = pa + j) {k : Nat} (hk : k < n)
    (h : s.l2Holds (c + k) = true ∨ ∃ a ∈ as, a / 32 = (pa + k) / 32) : (as.foldl State.l2FillAt s).l2Holds (c + k) = true := by
  induction as generalizing s with
  | nil => simpa using h
  | cons a as ih =>
    obtain ⟨j, hj, rfl⟩ := hin a List.mem_cons_self
    have hline : (c + k) / 128 = (c + j) / 128 := (hl k hk).trans (hl j hj).symm
    rw [List.foldl_cons, State.l2FillAt_mem (hp j hj)]
    refine ih (fun k hk => ?_) (fun a ha => hin a (List.mem_cons_of_mem _ ha)) ?_
    · rw [State.place_congr (s.l2Fill_pkg _ _)]
      exact hp k hk
    · rcases h with hheld | ⟨a, ha, hsector⟩
      · exact .inl (State.l2Holds_l2Fill hline (.inr hheld))
      · rcases List.mem_cons.1 ha with rfl | ha
        · refine .inl (State.l2Holds_l2Fill hline (.inl ?_))
          rw [getLsbD_ofNat_two_pow (by omega), decide_eq_true_eq]
          omega
        · exact .inr ⟨a, ha, hsector⟩

/-- The sectors of the bytes read stand in the L2 (R222). -/
theorem State.homeRead_holds (hl : ∀ k, k < n → (c + k) / 128 = c / 128) {k : Nat} (hk : k < n) :
    (s.homeRead pa n).2.l2Holds (c + k) = true := by
  rw [State.homeRead_near hp, State.l2Fills_eq]
  exact State.l2Holds_foldl_l2FillAt hp hl (State.place_mem_mod (hp 0 (Nat.zero_lt_of_lt hk))) (fun _ => mem_sectorsOf) hk
    (.inr (exists_mem_sectorsOf pa hk))

end

/-! ### Writes of several bytes -/

/-- A line of the L2 with a dirty sector, whose latest write was made under `cmp`. -/
def State.Marked (s : State) (n j : Nat) (cmp : Bool) : Prop :=
  ∃ l, s.l2.find n = some l ∧ l.dirty.getLsbD j = true ∧ l.cmpw = cmp

/-- A write marks the sector of its byte, and leaves those that are marked. -/
theorem State.homePut_marked {s : State} {c n j : Nat} {cmp : Bool} (b : Byte) (hc : c / 128 = n)
    (h : c % 128 / 32 = j ∨ s.Marked n j cmp) : (s.homePut c b cmp).Marked n j cmp := by
  subst hc
  refine ⟨_, s.homePut_line c b cmp, ?_, rfl⟩
  rw [BitVec.getLsbD_or, Bool.or_eq_true]
  rcases h with rfl | ⟨l, hl, hd, -⟩
  · exact .inr (by rw [getLsbD_ofNat_two_pow (by omega), decide_eq_true rfl])
  · exact .inl (by rwa [State.homeLine_dirty_listed hl])

theorem State.homePuts_cons {s : State} {pa c : Nat} (h : s.place pa = .mem c) (cmp : Bool) (b : Byte) (t : List (Option Byte)) :
    s.homePuts pa cmp (some b :: t) = (s.homePut c b cmp).homePuts (pa + 1) cmp t := by
  simp only [State.homePuts, h]

/-- The places of the bytes behind the first, in the state that the write of it leaves. -/
theorem State.place_behind {s : State} {pa c n : Nat} (hp : ∀ k, k < n + 1 → s.place (pa + k) = .mem (c + k)) (b : Byte) (cmp : Bool) :
    ∀ k, k < n → (s.homePut c b cmp).place (pa + 1 + k) = .mem (c + 1 + k) := by
  intro k hk
  rw [State.place_congr (t := s.homePut c b cmp) (s.l2Fill_pkg _ 15), Nat.add_right_comm, Nat.add_right_comm c]
  exact hp (k + 1) (Nat.succ_lt_succ hk)

section
variable {s : State} {pa c : Nat} {bs : List Byte} (cmp : Bool) (hp : ∀ k, k < bs.length → s.place (pa + k) = .mem (c + k))
include hp

/-- A write changes its bytes alone (R222). -/
theorem HomeSound.homeByte_homePuts (h : HomeSound s) (a : Nat) : (s.homePuts pa cmp (bs.map some)).homeByte a =
    if c ≤ a ∧ a < c + bs.length then bs.getD (a - c) 0 else s.homeByte a := by
  induction bs generalizing s pa c with
  | nil => exact (if_neg (by simp)).symm
  | cons b t ih =>
    have hfirst : s.place pa = .mem c := hp 0 (Nat.zero_lt_succ _)
    rw [List.map_cons, State.homePuts_cons hfirst, ih (State.place_behind hp b cmp) (h.homePut c b cmp),
      h.homeByte_homePut, List.length_cons]
    by_cases hc : a = c
    · subst hc
      simp
    · rw [if_neg hc]
      by_cases hin : c + 1 ≤ a ∧ a < c + 1 + t.length
      · rw [if_pos hin, if_pos (by omega), show a - c = a - (c + 1) + 1 by omega, List.getD_cons_succ]
      · rw [if_neg hin, if_neg (by omega)]

/-- A write of bytes of one line marks their sectors, and leaves those that are marked (R222, R229). -/
theorem State.homePuts_marked {n j : Nat} (hl : ∀ k, k < bs.length → (c + k) / 128 = n)
    (h : (∃ k, k < bs.length ∧ (c + k) % 128 / 32 = j) ∨ s.Marked n j cmp) : (s.homePuts pa cmp (bs.map some)).Marked n j cmp := by
  induction bs generalizing s pa c with
  | nil => exact h.resolve_left fun ⟨_, hk, _⟩ => Nat.not_lt_zero _ hk
  | cons b t ih =>
    have hplace : s.place pa = .mem c := hp 0 (Nat.zero_lt_succ _)
    have hfirst : c / 128 = n := hl 0 (Nat.zero_lt_succ _)
    rw [List.map_cons, State.homePuts_cons hplace]
    have hrest (k : Nat) : c + 1 + k = c + (k + 1) := by omega
    refine ih (State.place_behind hp b cmp) (fun k hk => (hrest k).symm ▸ hl (k + 1) (Nat.succ_lt_succ hk)) ?_
    rcases h with ⟨k, hk, hj⟩ | hm
    · cases k with
      | zero => exact .inr (State.homePut_marked b hfirst (.inl hj))
      | succ k => exact .inl ⟨k, Nat.lt_of_succ_lt_succ hk, (hrest k).symm ▸ hj⟩
    · exact .inr (State.homePut_marked b hfirst (.inr hm))

end

theorem State.homeWrite_near {s : State} {pa c : Nat} (h : s.place pa = .mem c) (bs : List (Option Byte)) (cmp : Bool) :
    s.homeWrite pa bs cmp = s.homePuts pa cmp bs := by
  rw [State.homeWrite, h]

/-! ### A line that leaves (R228, R229) -/

section
variable {s : State} {line : Nat} {l : L2Line} (h : s.l2.find line = some l)
include h

theorem State.l2Evict_tag (hd : l.dirty ≠ 0) :
    KV.get 1 (s.l2Evict line).tags line = if l.cmpw then lineTag (s.homeLine line).data else 0 := by
  rw [State.l2Evict, h]
  dsimp only
  rw [if_neg hd]
  exact KV.get_put_self ..

theorem State.l2Evict_tags_clean (hd : l.dirty = 0) : (s.l2Evict line).tags = s.tags := by
  rw [State.l2Evict, h]
  dsimp only
  rw [if_pos hd]

end

/-! ### The statement -/

/-- Settles O24: a read by the sectors that it fills, a write byte by byte, an eviction by what it leaves in memory. -/
theorem homeMemory : Obligations.HomeMemory := by
  unfold Obligations.HomeMemory
  refine ⟨fun s pa c bs cmp hne hp hone hsound => ?access, fun s line l hf hsound => ?evict⟩
  case access =>
    have hs := hsound.home
    have hlen : 0 < bs.length := List.length_pos_iff.2 hne
    have hline (k : Nat) (hk : k < bs.length) : (c + k) / 128 = c / 128 := by omega
    have hwrite : s.homeWrite pa (bs.map some) cmp = s.homePuts pa cmp (bs.map some) := State.homeWrite_near (hp 0 hlen) _ cmp
    intro r t
    refine ⟨State.homeRead_bytes hp, (KeepsHome.homeRead s pa bs.length hs).2,
      fun k hk => State.l2Holds_iff.1 (State.homeRead_holds hp hline hk), fun k hk => ⟨?_, ?_⟩, fun a ha => ?_⟩
    · refine (congrArg (State.homeByte · (c + k)) hwrite).trans ((hs.homeByte_homePuts cmp hp _).trans ?_)
      rw [if_pos (by omega), Nat.add_sub_cancel_left]
    · have hmarked := State.homePuts_marked cmp hp hline (.inl ⟨k, hk, rfl⟩)
      rw [← hwrite, ← hline k hk] at hmarked
      exact hmarked
    · refine (congrArg (State.homeByte · a) hwrite).trans ((hs.homeByte_homePuts cmp hp a).trans ?_)
      rw [if_neg (by omega)]
  case evict =>
    obtain ⟨hkept, hbytes⟩ := KeepsHome.l2Evict s line hsound.home
    exact ⟨hbytes, State.l2Evict_gone hf, hkept.1, State.l2Evict_tag hf, State.l2Evict_tags_clean hf⟩

end Sys2Proof.Machine
end

section
/-! Settles O25 (OwnStores): what a core's store leaves in its L1, and what its reads of the byte answer then (R217, R219, R242). -/

namespace Sys2Proof.Machine

/-! ### One byte of an access (R217, R240) -/

theorem pieces_byte (a : Nat) : pieces (1 / 32 + 2) a 1 = [(a, 1)] := by
  have hmin : min 1 (32 - a % 32) = 1 := by omega
  simp [pieces, hmin]

/-- A read of one byte is one piece, of the size of the block that serves it or of the predicted one. -/
theorem State.coreRead_byte (s : State) (core idx : Nat) (pol : Policy) (cmp : Bool) (a : Nat) :
    let r := s.readPiece1 core idx (oneSize ((s.core core).predicted idx) [(s.core core).l1Serves a 1]) pol cmp a 1
    (s.coreRead core idx pol cmp a 1).bytes = r.bytes ∧ (s.coreRead core idx pol cmp a 1).st = r.st := by
  rw [State.coreRead]
  dsimp only
  rw [pieces_byte]
  exact ⟨List.append_nil _, rfl⟩

theorem getLsbD_sectorByte (a : Nat) : (BitVec.ofNat 32 (2 ^ sectorByte a)).getLsbD (sectorByte a) = true := by
  rw [getLsbD_ofNat_two_pow (show sectorByte a < 32 from Nat.mod_lt _ (by decide)), decide_eq_true rfl]

theorem L1Block.covers_iff {b : L1Block} {a : Nat} : b.covers a = true ↔ b.addr ≤ a ∧ a < b.addr + 4 * b.words := by
  rw [L1Block.covers, Bool.and_eq_true, decide_eq_true_eq, decide_eq_true_eq]

theorem L1Block.meets_byte (b : L1Block) (a : Nat) : b.meets a 1 = b.covers a := by
  rw [Bool.eq_iff_iff, L1Block.covers_iff, L1Block.meets, Bool.and_eq_true, decide_eq_true_eq, decide_eq_true_eq, Nat.lt_succ_iff]

theorem Core.l1Serves_byte (c : Core) (a : Nat) :
    c.l1Serves a 1 = c.l1.find? fun b => b.covers a && b.valid.getLsbD (sectorByte a) := by
  simp [Core.l1Serves]

/-! ### Bytes that an L1 holds (R217, R219) -/

/-- An L1 has blocks over a byte, and each of them has a property. -/
def Core.Over (c : Core) (a : Nat) (p : L1Block → Prop) : Prop :=
  (∃ b ∈ c.l1, b.covers a = true) ∧ ∀ b ∈ c.l1, b.covers a = true → p b

/-- A block holds a byte of this value. -/
def L1Block.Holds (a : Nat) (v : Byte) (b : L1Block) : Prop :=
  b.data[a - b.addr]? = some v ∧ b.valid.getLsbD (sectorByte a) = true

/-- A block holds a byte that its core has stored: dirty, and without an error. -/
def L1Block.Stores (a : Nat) (v : Byte) (b : L1Block) : Prop :=
  b.Holds a v ∧ b.dirty.getLsbD (sectorByte a) = true ∧ b.bad.getLsbD (sectorByte a) = false

namespace Core.Over

variable {c : Core} {a : Nat} {v : Byte} {p q : L1Block → Prop}

theorem imp (h : c.Over a p) (hpq : ∀ b, p b → q b) : c.Over a q := ⟨h.1, fun b hb hc => hpq b (h.2 b hb hc)⟩

/-- The block that is found first over the byte. -/
theorem find (h : c.Over a p) : ∃ b, c.l1.find? (·.covers a) = some b ∧ p b := by
  obtain ⟨b, hb⟩ := Option.isSome_iff_exists.1 (List.find?_isSome.2 h.1)
  exact ⟨b, hb, h.2 b (List.mem_of_find?_eq_some hb) (List.find?_some (p := fun b : L1Block => b.covers a) hb)⟩

theorem l1Byte (h : c.Over a (L1Block.Holds a v)) : (c.l1Byte a false).map (·.1) = some v := by
  obtain ⟨b, hb, hdata, hvalid⟩ := h.find
  simp [Core.l1Byte, hb, hdata, hvalid]

theorem l1Byte_stored (h : c.Over a (L1Block.Stores a v)) (dirty : Bool) : c.l1Byte a dirty = some (v, false) := by
  obtain ⟨b, hb, ⟨hdata, hvalid⟩, hdirty, hbad⟩ := h.find
  cases dirty <;> simp [Core.l1Byte, hb, hdata, hvalid, hdirty, hbad]

/-- The block that serves a read of the byte. -/
theorem l1Serves (h : c.Over a (L1Block.Holds a v)) : ∃ b, c.l1Serves a 1 = some b ∧ b.Holds a v := by
  rw [Core.l1Serves_byte]
  obtain ⟨⟨k, hk, hc⟩, hall⟩ := h
  have hserves : ∃ b ∈ c.l1, (b.covers a && b.valid.getLsbD (sectorByte a)) = true :=
    ⟨k, hk, by rw [hc, (hall k hk hc).2, Bool.and_self]⟩
  obtain ⟨b, hb⟩ := Option.isSome_iff_exists.1 (List.find?_isSome.2 hserves)
  have hcovers := List.find?_some (p := fun b : L1Block => b.covers a && b.valid.getLsbD (sectorByte a)) hb
  exact ⟨b, hb, hall b (List.mem_of_find?_eq_some hb) (Bool.and_eq_true_iff.1 hcovers).1⟩

/-- Each block over the byte is changed, and the blocks move. -/
theorem l1Touch (h : c.Over a p) (first : Bool) {f : L1Block → L1Block}
    (hf : ∀ b : L1Block, b.covers a = true → p b → ∀ u, (f { b with used := u }).covers a = true ∧ q (f { b with used := u })) :
    (c.l1Touch a 1 first f).Over a q := by
  obtain ⟨⟨k, hk, hc⟩, hall⟩ := h
  refine ⟨⟨_, Core.mem_l1Touch.2 (.inl ⟨k, hk, (k.meets_byte a).trans hc, rfl⟩), (hf k hc (hall k hk hc) _).1⟩, fun b hb hcov => ?_⟩
  rcases Core.mem_l1Touch.1 hb with ⟨k, hk, hm, rfl⟩ | ⟨-, hm⟩
  · have hc := (k.meets_byte a).symm.trans hm
    exact (hf k hc (hall k hk hc) _).2
  · rw [L1Block.meets_byte, hcov] at hm
    cases hm

end Core.Over

/-! ### Blocks brought into an L1 (R217) -/

/-- The block of `z` words over an address, as it is brought in: empty. -/
def L1Block.empty (a idx z : Nat) (cmp : Bool) : L1Block :=
  { addr := a / (4 * z) * (4 * z), words := z, data := List.replicate (4 * z) 0, valid := 0, dirty := 0, scope := 1, idx := idx, used := 0
    cmp := cmp }

theorem base_spec (a : Nat) {z : Nat} (hz : 0 < z) : a / (4 * z) * (4 * z) ≤ a ∧ a < a / (4 * z) * (4 * z) + 4 * z :=
  ⟨Nat.div_mul_le_self .., Nat.lt_div_mul_add (by omega)⟩

theorem L1Block.empty_covers (a idx : Nat) {z : Nat} (cmp : Bool) (hz : 0 < z) : (L1Block.empty a idx z cmp).covers a = true :=
  L1Block.covers_iff.2 (base_spec a hz)

/-- What an L1 holds once a block has been brought in: that block, and blocks that it held before. -/
theorem State.l1Alloc_l1 (s : State) (core a idx z : Nat) (cmp first : Bool) :
    L1Block.empty a idx z cmp ∈ ((s.l1Alloc core a idx z cmp first).core core).l1 ∧
      ∀ b ∈ ((s.l1Alloc core a idx z cmp first).core core).l1, b = L1Block.empty a idx z cmp ∨ b ∈ (s.core core).l1 := by
  unfold State.l1Alloc
  dsimp only
  rw [State.core_modCore]
  refine ⟨?_, fun b hb => (mem_l1_of_added hb).imp_right fun hb => (State.mem_l1Leave (State.mem_l1Leave hb).1).1⟩
  cases first
  · exact List.mem_append_right _ (List.mem_singleton_self _)
  · exact List.mem_cons_self

/-! ### Stores (R217, R219) -/

theorem Policy.caches {pol : Policy} (hpol : pol = .def_ ∨ pol = .strm) : (pol == .nol1 || pol == .last) = false := by
  rcases hpol with rfl | rfl <;> rfl

/-- A store of one byte under a policy that caches it. -/
theorem State.coreWrite_byte {s : State} {core : Nat} {pol : Policy} (hpol : pol = .def_ ∨ pol = .strm)
    (hw : (s.core core).l1Words ≠ 0) (a idx : Nat) (cmp : Bool) (b : Byte) :
    let z := oneSize ((s.core core).predicted idx) [(s.core core).l1.find? (·.covers a)]
    s.coreWrite core idx pol cmp a [b] = (s.l1Ensure core a idx z cmp (pol == .strm)).modCore core
      fun c => c.l1Touch a 1 (pol == .strm) fun k => k.setByte a b true cmp := by
  have hwords : ((s.core core).l1Words == 0) = false := beq_false_of_ne hw
  rw [State.coreWrite, Policy.caches hpol, hwords]
  rfl

/-- A byte that is set in a block over it is stored there. -/
theorem L1Block.setByte_stores {b : L1Block} {a : Nat} (hc : b.covers a = true) (hd : b.data.length = 4 * b.words) (v : Byte) (cmp : Bool)
    (u : BitVec 8) : (({ b with used := u } : L1Block).setByte a v true cmp).covers a = true ∧
      (({ b with used := u } : L1Block).setByte a v true cmp).Stores a v := by
  obtain ⟨hlo, hhi⟩ := L1Block.covers_iff.1 hc
  have hbit := getLsbD_sectorByte a
  refine ⟨hc, ⟨List.getElem?_set_self (show a - b.addr < b.data.length by omega), ?_⟩, ?_, ?_⟩
  · simp only [L1Block.setByte, BitVec.getLsbD_or, hbit, Bool.or_true]
  · simp only [L1Block.setByte, if_true, BitVec.getLsbD_or, hbit, Bool.or_true]
  · simp only [L1Block.setByte, BitVec.getLsbD_and, BitVec.getLsbD_not, hbit, Bool.not_true, Bool.and_false]

/-- A block over the byte stands in the L1 once it is ensured. -/
theorem State.l1Ensure_over {s : State} {core a z : Nat} (idx : Nat) (cmp first : Bool) (hz : 0 < z)
    (hsize : ∀ b ∈ (s.core core).l1, b.data.length = 4 * b.words) :
    ((s.l1Ensure core a idx z cmp first).core core).Over a fun b => b.data.length = 4 * b.words := by
  unfold State.l1Ensure
  split
  · next hany =>
    obtain ⟨b, hb, hc⟩ := List.any_eq_true.1 hany
    exact ⟨⟨b, hb, (Bool.and_eq_true_iff.1 hc).1⟩, fun b hb _ => hsize b hb⟩
  · obtain ⟨hnew, hall⟩ := s.l1Alloc_l1 core a idx z cmp first
    refine ⟨⟨_, hnew, L1Block.empty_covers a idx cmp hz⟩, fun b hb _ => ?_⟩
    rcases hall b hb with rfl | hb
    · exact List.length_replicate
    · exact hsize b hb

/-- The size of the blocks of a one-byte access: that of a block over the byte, or the predicted one. -/
theorem oneSize_pos {a z : Nat} (hz : 0 < z) {h : Option L1Block} (hc : ∀ b, h = some b → b.covers a = true) : 0 < oneSize z [h] := by
  cases h with
  | none => exact hz
  | some b =>
    obtain ⟨hlo, hhi⟩ := L1Block.covers_iff.1 (hc b rfl)
    show 0 < b.words
    omega

/-- A store of a byte that the policy caches stands in every block over the byte. -/
theorem State.coreWrite_over {s : State} {core a idx : Nat} {pol : Policy} (hpol : pol = .def_ ∨ pol = .strm)
    (hw : (s.core core).l1Words ≠ 0) (hz : 0 < (s.core core).predicted idx) (hsize : ∀ b ∈ (s.core core).l1, b.data.length = 4 * b.words)
    (cmp : Bool) (v : Byte) : ((s.coreWrite core idx pol cmp a [v]).core core).Over a (L1Block.Stores a v) := by
  rw [State.coreWrite_byte hpol hw, State.core_modCore]
  refine (State.l1Ensure_over idx cmp _ (oneSize_pos (a := a) hz fun b hb => ?_) hsize).l1Touch _
    fun b hc hd => L1Block.setByte_stores hc hd v cmp
  exact List.find?_some (p := fun b : L1Block => b.covers a) hb

/-! ### Reads of stored bytes (R242, R301) -/

section
variable {s : State} {core a : Nat} {v : Byte} (h : (s.core core).Over a (L1Block.Stores a v))
include h

/-- A read past the L1 takes the core's own dirty byte. -/
theorem State.l1Direct_stored (pol : Policy) : (s.l1Direct core pol a 1).bytes = [v] := by
  simp [State.l1Direct, h.l1Byte_stored true]

/-- A core reads a byte that it has stored, under every policy. -/
theorem State.coreRead_stored (idx : Nat) (pol : Policy) (cmp : Bool) : (s.coreRead core idx pol cmp a 1).bytes = [v] := by
  obtain ⟨b, hb, hdata, hvalid⟩ := (h.imp fun _ hs => hs.1).l1Serves
  rw [(s.coreRead_byte core idx pol cmp a).1, hb, State.readPiece1]
  split
  · exact State.l1Direct_stored h pol
  · have hserve : (some b).filter (fun k => k.words == oneSize ((s.core core).predicted idx) [some b]) = some b := by
      simp [oneSize]
    rw [hb, hserve]
    show [b.data.getD (a + 0 - b.addr) 0] = [v]
    rw [Nat.add_zero, List.getD_eq_getElem?_getD, hdata, Option.getD_some]

end

/-! ### Reads that miss (R217) -/

/-- `t` differs from `s` in its cores alone. -/
def CoresOnly (s t : State) : Prop := t = { s with cores := t.cores }

theorem CoresOnly.trans {s t u : State} (h : CoresOnly s t) (k : CoresOnly t u) : CoresOnly s u := by
  unfold CoresOnly at k
  rw [h] at k
  exact k

/-- The byte that a read at home answers (R378, log 15). -/
def State.homeAnswer (s : State) (pa : Nat) : Byte :=
  match s.place pa with
  | .mem c => s.homeByte c
  | .remote _ => Config.remoteByte s.freeCount pa
  | _ => 0

theorem State.homeRead_answers (s : State) (pa n : Nat) : (s.homeRead pa n).1 = (List.range n).map fun i => s.homeAnswer (pa + i) := rfl

theorem CoresOnly.homeAnswer {s t : State} (h : CoresOnly s t) : t.homeAnswer = s.homeAnswer := by
  funext pa
  rw [h]
  rfl

/-- Clean blocks leave an L1 without a write-back (R217). -/
theorem State.l1Leave_clean {s : State} {core : Nat} {bs : List L1Block} (h : ∀ b ∈ bs, b.dirty = 0) : CoresOnly s (s.l1Leave core bs) := by
  induction bs generalizing s with
  | nil => exact rfl
  | cons b t ih =>
    rw [State.l1Leave, State.l1Back, if_pos (h b List.mem_cons_self)]
    exact CoresOnly.trans (t := s.modCore core _) rfl (ih fun k hk => h k (List.mem_cons_of_mem _ hk))

theorem mem_overflow {cap need : Nat} {bs : List L1Block} {b : L1Block} (h : b ∈ overflow cap need bs) : b ∈ bs := by
  induction bs with
  | nil => exact h
  | cons k t ih =>
    unfold overflow at h
    split at h
    · cases h
    · exact (List.mem_cons.1 h).elim (fun he => he ▸ List.mem_cons_self) fun ht => List.mem_cons_of_mem _ (ih ht)

theorem State.l1Alloc_clean {s : State} {core : Nat} (h : ∀ b ∈ (s.core core).l1, b.dirty = 0) (a idx z : Nat) (cmp first : Bool) :
    CoresOnly s (s.l1Alloc core a idx z cmp first) := by
  unfold State.l1Alloc
  dsimp only
  refine ((State.l1Leave_clean fun b hb => h b (List.mem_of_mem_filter hb)).trans (State.l1Leave_clean fun b hb => ?_)).trans rfl
  exact h b (State.mem_l1Leave (mem_overflow hb)).1

theorem size_pos {z : Nat} (hz : z ∈ [1, 2, 4, 8]) : 0 < z := by
  simp only [List.mem_cons, List.not_mem_nil, or_false] at hz
  omega

/-- A block of a size that the predictor names lies in one sector. -/
theorem base_sector (a : Nat) {z : Nat} (hz : z ∈ [1, 2, 4, 8]) :
    sectorByte (a / (4 * z) * (4 * z)) ≤ sectorByte a ∧ sectorByte a - sectorByte (a / (4 * z) * (4 * z)) < 4 * z := by
  simp only [List.mem_cons, List.not_mem_nil, or_false] at hz
  unfold sectorByte
  rcases hz with rfl | rfl | rfl | rfl <;> omega

theorem State.homeRead_core (s : State) (pa n core : Nat) : (s.homeRead pa n).2.core core = s.core core := by
  rw [State.core, State.homeRead_cores]
  rfl

theorem State.count_l1 (s : State) (core ev : Nat) : ((s.count core ev).core core).l1 = (s.core core).l1 := by
  rw [State.count, State.core_modCore]
  rfl

/-- What a fill makes of a block of its size at its base that holds nothing dirty: the bytes from their home, valid. -/
def L1Block.Filled (s : State) (base z : Nat) (b : L1Block) : Prop :=
  b.addr = base ∧ b.words = z ∧ b.data = (s.homeRead base (4 * z)).1 ∧
    ∀ j, j < 32 → sectorByte base ≤ j → j - sectorByte base < 4 * z → b.valid.getLsbD j = true

theorem getLsbD_run {n k j : Nat} (hj : j < 32) (hk : k ≤ j) (hn : j - k < n) :
    (BitVec.ofNat 32 ((2 ^ n - 1) * 2 ^ k)).getLsbD j = true := by
  rw [BitVec.getLsbD_ofNat, Nat.testBit_mul_two_pow, Nat.testBit_two_pow_sub_one]
  simp [hj, hk, hn]

/-- A miss on a block that the L1 does not hold brings it in and changes the blocks by a fill from their home (R217). -/
theorem State.l1FillBlock_eq {s : State} {core base z : Nat} (idx : Nat) (cmp first : Bool)
    (hnew : ∀ b ∈ (s.core core).l1, ¬ (b.addr = base ∧ b.words = z)) :
    let u := (s.l1Alloc core base idx z cmp first).count core 5
    ∃ f : L1Block → L1Block,
      s.l1FillBlock core idx z cmp first base = (u.homeRead base (4 * z)).2.modCore core (fun c => { c with l1 := c.l1.map f }) ∧
      (∀ b : L1Block, ¬ (b.addr = base ∧ b.words = z) → f b = b) ∧
      ∀ b : L1Block, b.addr = base → b.words = z → b.dirty = 0 → (f b).Filled u base z := by
  have hany : ((s.core core).l1.any fun b => b.addr == base && b.words == z) = false := by
    simpa using hnew
  unfold State.l1FillBlock
  rw [hany]
  dsimp only
  rw [if_neg Bool.false_ne_true]
  refine ⟨_, rfl, fun b hb => if_neg (by simpa using hb), fun b ha hz hd => ?_⟩
  rw [if_pos (show (decide (b.addr = base) && decide (b.words = z)) = true by simp [ha, hz])]
  refine ⟨ha, hz, ?_, fun j hj hlo hhi => ?_⟩
  · rw [State.homeRead_answers]
    refine List.map_congr_left fun i hi => ?_
    rw [hd, if_neg (by simp)]
    simp [List.mem_range.1 hi]
  · rw [BitVec.getLsbD_or, getLsbD_run hj hlo hhi, Bool.or_true]

section
variable {s : State} {core a idx z : Nat} (cmp first : Bool) (hz : z ∈ [1, 2, 4, 8])
  (hclean : ∀ b ∈ (s.core core).l1, b.covers a = false ∧ b.dirty = 0)
include hz hclean

/-- A fill of the block over a byte that no block covers brings the byte from its home. -/
theorem State.l1FillBlock_over : ((s.l1FillBlock core idx z cmp first (a / (4 * z) * (4 * z))).core core).Over a
    (L1Block.Holds a (s.homeAnswer a)) := by
  have hpos := size_pos hz
  obtain ⟨hlo, hhi⟩ := base_spec a hpos
  obtain ⟨hslo, hshi⟩ := base_sector a hz
  generalize hbase : a / (4 * z) * (4 * z) = base at *
  have hover {b : L1Block} (ha : b.addr = base) (hw : b.words = z) : b.covers a = true :=
    L1Block.covers_iff.2 (by rw [ha, hw]; exact ⟨hlo, hhi⟩)
  have hnew : ∀ b ∈ (s.core core).l1, ¬ (b.addr = base ∧ b.words = z) := fun b hb hat => by
    have hc := hover hat.1 hat.2
    rw [(hclean b hb).1] at hc
    cases hc
  obtain ⟨hmem, hall⟩ := s.l1Alloc_l1 core base idx z cmp first
  have hempty : (L1Block.empty base idx z cmp).addr = base := by
    show base / (4 * z) * (4 * z) = base
    rw [← hbase, Nat.mul_div_cancel _ (by omega)]
  obtain ⟨f, heq, hother, hfill⟩ := State.l1FillBlock_eq idx cmp first hnew
  obtain ⟨hfa, hfw, hdata, hvalid⟩ := hfill (L1Block.empty base idx z cmp) hempty rfl rfl
  rw [Core.Over, heq, State.core_modCore, State.homeRead_core]
  dsimp only
  rw [State.count_l1]
  refine ⟨⟨_, List.mem_map_of_mem hmem, hover hfa hfw⟩, fun b hb hc => ?_⟩
  obtain ⟨k, hk, rfl⟩ := List.mem_map.1 hb
  rcases hall k hk with rfl | hk
  · refine ⟨?_, hvalid _ (Nat.mod_lt _ (by decide)) hslo hshi⟩
    have halloc := State.l1Alloc_clean (fun b hb => (hclean b hb).2) base idx z cmp first
    rw [hfa, hdata, State.homeRead_answers, (halloc.trans rfl : CoresOnly s (State.count _ core 5)).homeAnswer,
      List.getElem?_map, List.getElem?_range (by omega), Option.map_some, Nat.add_sub_cancel' hlo]
  · rw [hother k (hnew k hk), (hclean k hk).1] at hc
    cases hc

end

theorem basesOf_byte (a : Nat) {z : Nat} (hz : 0 < z) : basesOf z a 1 = [a / (4 * z) * (4 * z)] := by
  have hmod : a % (4 * z) < 4 * z := Nat.mod_lt _ (by omega)
  have hone : (a % (4 * z) + 1 + 4 * z - 1) / (4 * z) = 1 := by
    rw [show a % (4 * z) + 1 + 4 * z - 1 = a % (4 * z) + 4 * z by omega, Nat.add_div_right _ (by omega), Nat.div_eq_of_lt hmod]
  rw [basesOf, hone]
  rfl

/-- The fetch of one byte from the one block over it. -/
theorem State.l1Fetch_byte (s : State) (core idx z : Nat) (cmp first : Bool) {a base : Nat} (hlo : base ≤ a) (hhi : a < base + 4 * z) :
    let u := s.l1FillBlock core idx z cmp first base
    (s.l1Fetch core idx z cmp first a 1 [base]).bytes = [(((u.core core).l1Byte a false).getD (0, false)).1] ∧
      (s.l1Fetch core idx z cmp first a 1 [base]).st = u.modCore core fun c => c.l1Touch a 1 first id := by
  have hat : ((List.range 1).filter fun i => decide (base ≤ a + i) && decide (a + i < base + 4 * z)) = [0] := by
    simp [hlo, hhi]
  rw [State.l1Fetch, hat]
  exact ⟨rfl, rfl⟩

/-- A read of a byte that no block covers brings it into the L1 from its home (R217). -/
theorem State.coreRead_miss {s : State} {core a idx : Nat} {pol : Policy} (hpol : pol = .def_ ∨ pol = .strm)
    (hw : (s.core core).l1Words ≠ 0) (hz : (s.core core).predicted idx ∈ [1, 2, 4, 8])
    (hclean : ∀ b ∈ (s.core core).l1, b.covers a = false ∧ b.dirty = 0) (cmp : Bool) :
    (s.coreRead core idx pol cmp a 1).bytes = [s.homeAnswer a] ∧
      ((s.coreRead core idx pol cmp a 1).st.core core).Over a (L1Block.Holds a (s.homeAnswer a)) := by
  have hserve : (s.core core).l1Serves a 1 = none := by
    rw [Core.l1Serves_byte, List.find?_eq_none]
    intro b hb
    simp [(hclean b hb).1]
  generalize hsize : (s.core core).predicted idx = z at hz
  have hpos := size_pos hz
  have hcond : (pol == .nol1 || pol == .last || (s.core core).l1Words == 0) = false := by
    rw [Policy.caches hpol, beq_false_of_ne hw]
    rfl
  obtain ⟨hbytes, hst⟩ := s.coreRead_byte core idx pol cmp a
  have hpiece : s.readPiece1 core idx (oneSize z [none]) pol cmp a 1 =
      (s.count core 4).l1Fetch core idx z cmp (pol == .strm) a 1 [a / (4 * z) * (4 * z)] := by
    rw [State.readPiece1, hcond, hserve, ← basesOf_byte a hpos]
    rfl
  rw [hserve, hsize, hpiece] at hbytes hst
  have hcount := s.count_l1 core 4
  have hover := State.l1FillBlock_over (s := s.count core 4) (a := a) (idx := idx) cmp (pol == .strm) hz (hcount ▸ hclean)
  obtain ⟨hlo, hhi⟩ := base_spec a hpos
  obtain ⟨hfetch, hleft⟩ := (s.count core 4).l1Fetch_byte core idx z cmp (pol == .strm) hlo hhi
  rw [show (s.count core 4).homeAnswer = s.homeAnswer from CoresOnly.homeAnswer rfl] at hover
  refine ⟨?_, ?_⟩
  · rw [hbytes, hfetch]
    have hbyte := hover.l1Byte
    cases hb : Core.l1Byte _ a false with
    | none => rw [hb] at hbyte; cases hbyte
    | some v =>
      rw [hb] at hbyte
      exact congrArg (fun x => [x]) (Option.some.inj hbyte)
  · rw [hst, hleft, State.core_modCore]
    exact hover.l1Touch _ fun b hc hb u => ⟨hc, hb⟩

/-! ### The statement -/

/-- Settles O25: a store stands in every block over its byte, a read that misses brings the byte from its home. -/
theorem ownStores : Obligations.OwnStores := by
  unfold Obligations.OwnStores
  intro s core idx a pol pol' cmp cmp' b hpol hw hz hsize t
  have hover := State.coreWrite_over (a := a) hpol hw (size_pos hz) hsize cmp b
  refine ⟨hover.l1Byte_stored true, hover.l1Byte_stored false, State.coreRead_stored hover idx pol' cmp', fun hclean => ?_⟩
  obtain ⟨hbytes, hstands⟩ := State.coreRead_miss hpol hw hz hclean cmp
  exact ⟨hbytes, hstands.l1Byte⟩

end Sys2Proof.Machine
end

section
/-! Settles O43 (Carafe): the tile that a spill takes, the return of a tile that is away, and the free runs of a bank (R234–R238). -/

namespace Sys2Proof.Machine

/-! ### The tile that is spilled (R235) -/

/-- Whether a tile goes before another, or is it: last access furthest in the past, then the lowest SLOT. -/
def TileRec.Before (t u : TileRec) : Prop := t.last < u.last ∨ (t.last = u.last ∧ t.slot ≤ u.slot)

theorem TileRec.Before.trans {t u v : TileRec} (h : t.Before u) (k : u.Before v) : t.Before v := by
  unfold TileRec.Before at *
  omega

/-- The tile to spill of those looked at so far and one more. -/
def TileRec.pick (b : Option TileRec) (t : TileRec) : Option TileRec :=
  match b with
  | none => some t
  | some a => if t.last < a.last ∨ (t.last = a.last ∧ t.slot < a.slot) then some t else some a

theorem State.victim_eq (s : State) (die bank : Nat) :
    s.victim die bank = ((s.die die).tiles.filter (s.eligible die bank)).foldl TileRec.pick none := rfl

/-- One more tile is picked, or the one of before is kept; it goes before both. -/
theorem TileRec.pick_spec (b : Option TileRec) (t : TileRec) :
    ∃ a, TileRec.pick b t = some a ∧ (a = t ∨ b = some a) ∧ a.Before t ∧ ∀ k, b = some k → a.Before k := by
  cases b with
  | none => exact ⟨t, rfl, .inl rfl, .inr ⟨rfl, le_rfl⟩, fun _ h => nomatch h⟩
  | some k =>
    by_cases h : t.last < k.last ∨ (t.last = k.last ∧ t.slot < k.slot)
    · refine ⟨t, if_pos h, .inl rfl, .inr ⟨rfl, le_rfl⟩, fun _ hk => Option.some.inj hk ▸ ?_⟩
      exact h.imp_right fun hs => ⟨hs.1, hs.2.le⟩
    · refine ⟨k, if_neg h, .inr rfl, ?_, fun _ hk => Option.some.inj hk ▸ .inr ⟨rfl, le_rfl⟩⟩
      unfold TileRec.Before
      omega

theorem TileRec.foldl_pick_spec {l : List TileRec} {b : Option TileRec} {t : TileRec} (h : l.foldl TileRec.pick b = some t) :
    (t ∈ l ∨ b = some t) ∧ (∀ u ∈ l, t.Before u) ∧ ∀ k, b = some k → t.Before k := by
  induction l generalizing b with
  | nil => exact ⟨.inr h, fun _ hu => (List.not_mem_nil hu).elim, fun k hk => Option.some.inj (hk.symm.trans h) ▸ .inr ⟨rfl, le_rfl⟩⟩
  | cons u l ih =>
    obtain ⟨a, hpick, hfrom, hu, hb⟩ := TileRec.pick_spec b u
    obtain ⟨hmem, hall, hacc⟩ := ih ((congrArg (List.foldl TileRec.pick · l) hpick.symm).trans h)
    refine ⟨?_, fun v hv => ?_, fun k hk => (hacc a rfl).trans (hb k hk)⟩
    · rcases hmem with hmem | hta
      · exact .inl (List.mem_cons_of_mem _ hmem)
      · cases hta
        exact hfrom.imp_left fun heq => List.mem_cons.2 (.inl heq)
    · rcases List.mem_cons.1 hv with rfl | hv
      · exact (hacc a rfl).trans hu
      · exact hall v hv

/-- The tile picked may go, and goes before every other that may. -/
theorem State.victim_spec {s : State} {die bank : Nat} {t : TileRec} (h : s.victim die bank = some t) :
    t ∈ (s.die die).tiles ∧ s.eligible die bank t = true ∧
      ∀ u ∈ (s.die die).tiles, s.eligible die bank u = true → t.Before u := by
  rw [State.victim_eq] at h
  obtain ⟨hmem, hall, -⟩ := TileRec.foldl_pick_spec h
  obtain ⟨ht, hel⟩ := List.mem_filter.1 (hmem.resolve_right nofun)
  exact ⟨ht, hel, fun u hu he => hall u (List.mem_filter.2 ⟨hu, he⟩)⟩

theorem State.victim_of_canSpill {s : State} {die bank : Nat} (h : s.canSpill die bank = true) : ∃ t, s.victim die bank = some t := by
  unfold State.canSpill at h
  split at h
  · cases h
  · next t ht => exact ⟨t, ht⟩

theorem execCarafeSpill_idle {s : State} {die bank : Nat} (h : s.roomAsked die bank = false) : execCarafeSpill die bank s = .next s := by
  rw [execCarafeSpill, h]
  rfl

theorem execCarafeSpill_spills {s : State} {die bank : Nat} {t : TileRec} (hr : s.roomAsked die bank = true)
    (hc : s.canSpill die bank = true) (ht : s.victim die bank = some t) : execCarafeSpill die bank s = .next (s.spill die t) := by
  rw [execCarafeSpill, hr, hc, ht]
  rfl

/-! ### The return of a tile (R237) -/

/-- Whether a tile is away from a bank at a unit of the area, and an engine waits for it. -/
def TileRec.called (bank far : Nat) (t : TileRec) : Bool := t.bank == bank && t.away && t.far == far && t.wanted

section
variable {s : State} {die bank far : Nat}

theorem execCarafeReturn_idle (h : ∀ t ∈ (s.die die).tiles, t.called bank far = false) : execCarafeReturn die bank far s = .next s := by
  have hnone : ((s.die die).tiles.find? fun t => t.bank == bank && t.away && t.far == far && t.wanted) = none :=
    List.find?_eq_none.2 fun t ht => ne_true_of_eq_false (h t ht)
  rw [execCarafeReturn, hnone]

/-- A tile without tokens is not held up. -/
theorem State.tileStall_none {t : TileRec} (s : State) (h : t.tokens = []) : s.tileStall t = none := by
  rw [State.tileStall, h]
  rfl

variable {t : TileRec} {slot : Nat}
  (ht : ((s.die die).tiles.find? fun t => t.bank == bank && t.away && t.far == far && t.wanted) = some t) (hk : t.tokens = [])
  (hs : (s.die die).freeRun bank t.units = some slot)
include ht hk hs

theorem execCarafeReturn_bad (hbad : ∃ k, k < 128 * t.farUnits ∧ s.badByte ((s.die die).areaBase + 128 * far + k) = true) :
    execCarafeReturn die bank far s = .next (s.engineFatal t.ctx 0 0 0x11 0) := by
  have hany : ((List.range (128 * t.farUnits)).any fun i => s.badByte ((s.die die).areaBase + 128 * far + i)) = true :=
    List.any_eq_true.2 (hbad.imp fun k h => ⟨List.mem_range.2 h.1, h.2⟩)
  rw [execCarafeReturn, ht]
  dsimp only
  rw [s.tileStall_none hk]
  dsimp only
  rw [hs]
  dsimp only
  rw [hany, if_pos rfl]

theorem execCarafeReturn_returns (hgood : ∀ k, k < 128 * t.farUnits → s.badByte ((s.die die).areaBase + 128 * far + k) = false)
    {u : State} (hu : s.noteTile t (fun m => { m with away := false, slot := slot }) (· - 1) = .ok u) :
    execCarafeReturn die bank far s = .next ((u.modTile die t fun r =>
      { r with away := false, slot := slot, far := 0, farUnits := 0, wanted := false, tokens := [] }).modDie die fun d =>
        d.cremaWrite (524288 * bank + 64 * slot)
          (expandStream (fun a n => s.mem.readN ((s.die die).areaBase + 128 * far + a) n) t.bytes)) := by
  have hany : ((List.range (128 * t.farUnits)).any fun i => s.badByte ((s.die die).areaBase + 128 * far + i)) = false :=
    List.any_eq_false.2 fun k h => ne_true_of_eq_false (hgood k (List.mem_range.1 h))
  rw [execCarafeReturn, ht]
  dsimp only
  rw [s.tileStall_none hk]
  dsimp only
  rw [hs]
  dsimp only
  rw [hany, if_neg Bool.false_ne_true, hu]

end

/-! ### Free runs of a bank (log 26) -/

/-- A run that is found lies in the bank, apart from the tiles that stand there. -/
theorem Die.freeRun_spec {d : Die} {bank n slot : Nat} (h : d.freeRun bank n = some slot) : slot + n ≤ 8192 ∧
    ∀ t ∈ d.tiles, t.bank = bank → t.away = false → slot + n ≤ t.slot ∨ t.slot + t.units ≤ slot := by
  have hmem := (mem_of_foldl_min (b := none) ((congrArg (List.foldl · none _)
    (funext fun b => funext fun a => by cases b <;> rfl)).trans h)).resolve_right nofun
  have hok := (List.mem_filter.1 hmem).2
  have hfree : slot + n ≤ 8192 ∧
      ∀ t ∈ d.tiles, (¬ t.bank = bank ∨ t.away = true) ∨ slot + n ≤ t.slot ∨ t.slot + t.units ≤ slot := by simpa using hok
  exact ⟨hfree.1, fun t ht hb ha => (hfree.2 t ht).resolve_left (by simp [hb, ha])⟩

/-! ### The statement -/

/-- Settles O43: a spill by the tile that is picked, a return case by case, a free run as the least of those that fit. -/
theorem carafe : Obligations.Carafe := by
  unfold Obligations.Carafe
  refine ⟨fun s die bank => ⟨execCarafeSpill_idle, fun hr hc => ?spill⟩, fun s die bank far => ⟨fun hno => ?idle, fun t slot ht hk hs =>
    ⟨execCarafeReturn_bad ht hk hs, fun hgood u hu => execCarafeReturn_returns ht hk hs hgood hu⟩⟩,
    fun d bank n slot h => Die.freeRun_spec h⟩
  case spill =>
    obtain ⟨t, ht⟩ := State.victim_of_canSpill hc
    obtain ⟨hmem, hel, hall⟩ := State.victim_spec ht
    exact ⟨t, ht, hmem, hel, hall, execCarafeSpill_spills hr hc ht⟩
  case idle =>
    refine execCarafeReturn_idle fun t ht => Bool.eq_false_iff.2 fun hcall => hno t ht ?_
    simpa [TileRec.called, and_assoc] using hcall

end Sys2Proof.Machine
end

section
/-! Settles O17 and O18 (TrapEntry, TrapsNotDelivered): what a precise trap leaves, where it is delivered and where it is not (R67,
R73, R333, R334, R337, R338). -/

namespace Sys2Proof.Machine

/-! ### The trap record (R337) -/

theorem pcWord_eq (a : Nat) : pcWord a = BitVec.ofNat 64 (a % 2 ^ 52 / 4 * 4) := by
  apply BitVec.eq_of_toNat_eq
  rw [pcWord]
  erw [BitVec.toNat_append, BitVec.toNat_append]
  simp [Nat.shiftLeft_eq, Nat.shiftRight_eq_div_pow]
  omega

section
variable (t : TrapRec)

/-- TREC0 bit by bit: zero, PREC, RPC, SUB and CAUSE, from the lowest bit on. -/
theorem TrapRec.getLsbD_trec0 (i : Nat) : t.trec0.getLsbD i =
    if i = 0 then false else if i = 1 then t.precise else if i < 52 then (BitVec.ofNat 52 t.rpc).getLsbD i
    else if i < 56 then (BitVec.ofNat 4 t.sub).getLsbD (i - 52) else (BitVec.ofNat 8 t.cause).getLsbD (i - 56) := by
  rw [TrapRec.trec0]
  erw [BitVec.getLsbD_append, BitVec.getLsbD_append, BitVec.getLsbD_append, BitVec.getLsbD_append]
  obtain rfl | rfl | h2 : i = 0 ∨ i = 1 ∨ 2 ≤ i := by omega
  · rfl
  · cases t.precise <;> rfl
  · rw [if_neg (show ¬ i < 1 by omega), if_neg (show ¬ i - 1 < 1 by omega), if_neg (show i ≠ 0 by omega),
      if_neg (show i ≠ 1 by omega), show i - 1 - 1 - 50 - 4 = i - 56 by omega, show i - 1 - 1 - 50 = i - 52 by omega]
    by_cases h52 : i < 52
    · rw [if_pos (show i - 1 - 1 < 50 by omega), if_pos h52, BitVec.getLsbD_extractLsb', show 2 + (i - 1 - 1) = i by omega,
        decide_eq_true (show i - 1 - 1 < 50 by omega), Bool.true_and]
    · rw [if_neg (show ¬ i - 1 - 1 < 50 by omega), if_neg h52]
      by_cases h56 : i < 56
      · rw [if_pos (show i - 52 < 4 by omega), if_pos h56]
      · rw [if_neg (show ¬ i - 52 < 4 by omega), if_neg h56]

theorem TrapRec.trec0_cause : t.trec0.extractLsb' 56 8 = BitVec.ofNat 8 t.cause := by
  apply BitVec.eq_of_getLsbD_eq
  intro i hi
  rw [BitVec.getLsbD_extractLsb', t.getLsbD_trec0, decide_eq_true hi, if_neg (by omega), if_neg (by omega), if_neg (by omega),
    if_neg (by omega), Nat.add_sub_cancel_left, Bool.true_and]

theorem TrapRec.trec0_sub : t.trec0.extractLsb' 52 4 = BitVec.ofNat 4 t.sub := by
  apply BitVec.eq_of_getLsbD_eq
  intro i hi
  rw [BitVec.getLsbD_extractLsb', t.getLsbD_trec0, decide_eq_true hi, if_neg (by omega), if_neg (by omega), if_neg (by omega),
    if_pos (by omega), Nat.add_sub_cancel_left, Bool.true_and]

theorem TrapRec.trec0_precise : t.trec0.getLsbD 1 = t.precise := by
  rw [t.getLsbD_trec0, if_neg (by decide), if_pos rfl]

/-- RPC stands where TREC1 and TREC3 hold their addresses. -/
theorem TrapRec.trec0_rpc : t.trec0 &&& 0x000FFFFFFFFFFFFC = BitVec.ofNat 64 (t.rpc % 2 ^ 52 / 4 * 4) := by
  have hmask : ∀ i < 64, (0x000FFFFFFFFFFFFC : Dword).getLsbD i = (decide (2 ≤ i) && decide (i < 52)) := by decide
  apply BitVec.eq_of_getLsbD_eq
  intro i hi
  have hrpc : (BitVec.ofNat 64 (t.rpc % 2 ^ 52 / 4 * 4)).getLsbD i = (decide (2 ≤ i) && decide (i < 52) && t.rpc.testBit i) := by
    rw [BitVec.getLsbD_ofNat, decide_eq_true hi, Bool.true_and]
    change (t.rpc % 2 ^ 52 / 2 ^ 2 * 2 ^ 2).testBit i = _
    rw [Nat.testBit_mul_two_pow, Nat.testBit_div_two_pow, Nat.testBit_mod_two_pow, Bool.and_assoc]
    by_cases h2 : 2 ≤ i
    · rw [Nat.sub_add_cancel h2]
    · simp [h2]
  rw [BitVec.getLsbD_and, t.getLsbD_trec0, hmask i hi, hrpc]
  by_cases h2 : 2 ≤ i
  · rw [if_neg (by omega), if_neg (by omega)]
    by_cases h52 : i < 52
    · rw [if_pos h52, BitVec.getLsbD_ofNat, decide_eq_true h2, decide_eq_true h52, Bool.and_true, Bool.and_true, Bool.true_and]
    · simp [h52]
  · simp [h2]

end

/-! ### Delivery (R334, R338) -/

/-- The stop of a split at its instruction. -/
def Ex.stop (x : Ex) (cause faddr : Nat) : TrapRec :=
  ⟨cause, 0, x.sp.pc, true, x.sp.pc, x.sp.mask, match x.sp.clause with
    | some c => c.hdr
    | none => x.sp.pc, faddr⟩

/-- The address of the trap handler that a context's TVEC names (R338). -/
abbrev Context.handlerAt (c : Context) : Nat := (c.tvec &&& 0x000FFFFFFFFFFF80).toNat

/-- A split as it enters the handler with the elected lane. -/
def Split.enters (sp : Split) (tvec elected : Nat) : Split :=
  { sp with pc := tvec, mask := oneLane elected, park := .no, clause := none, due := none, tokens := [],
            openOp := none, resumeAt := none, inLoop := false }

/-- A group whose split has stopped and runs the handler. -/
def Group.trapped (g : Group) (x : Ex) (tvec : Nat) (t : TrapRec) (lmask : Lanes) : Group :=
  { (g.writeM 14 lmask) with
    trec0 := t.trec0, trec1 := pcWord t.fpc, trec2 := t.smask, trec3 := pcWord t.hpc, trec4 := BitVec.ofNat 64 (t.faddr % 2 ^ 52)
    handler := some ⟨x.sid, lowLane lmask, true⟩
    splits := g.splits.modify x.sid fun _ => x.sp.enters tvec (lowLane lmask) }

section
variable {s : State} {x : Ex} {cause faddr : Nat} {lmask : Lanes} (hx : s.ex? = some x)

theorem State.trap_queue (hq : x.g.isQueue = true) : s.trap x cause lmask faddr = s.stopQueue x.gid (queueFault cause) x.sp.pc :=
  if_pos hq

theorem State.trap_group (hq : x.g.isQueue = false) : s.trap x cause lmask faddr = s.deliver x.gid x.sid (x.stop cause faddr) lmask :=
  if_neg (by rw [hq]; exact Bool.false_ne_true)

include hx

theorem State.deliver_handled {t : TrapRec} (hh : x.g.handler = none) (hv : (s.ctx x.g.ctx).handlerAt ≠ 0) :
    s.deliver x.gid x.sid t lmask = s.setGroup x.gid (x.g.trapped x (s.ctx x.g.ctx).handlerAt t lmask) := by
  obtain ⟨-, hg, hsp, -⟩ := ex?_some hx
  simp only [State.deliver, hg, hh, if_neg hv]
  rw [KV.modify_of_find hsp]
  rfl

theorem State.deliver_noHandler {t : TrapRec} (hh : x.g.handler = none) (hv : (s.ctx x.g.ctx).handlerAt = 0) :
    s.deliver x.gid x.sid t lmask = s.setFatal x.g.ctx (fatalOf 0x14 x.g.core t.fpc t.faddr (some x.gid) 0) := by
  obtain ⟨-, hg, -, -⟩ := ex?_some hx
  simp only [State.deliver, hg, hh, if_pos hv]

theorem State.deliver_inHandler {t : TrapRec} {h : Handler} (hh : x.g.handler = some h) (hs : h.sid = x.sid) :
    s.deliver x.gid x.sid t lmask = s.setFatal x.g.ctx (fatalOf 0x14 x.g.core t.fpc t.faddr (some x.gid) 0) := by
  obtain ⟨-, hg, -, -⟩ := ex?_some hx
  simp only [State.deliver, hg, hh, if_pos hs]

theorem State.deliver_waits {t : TrapRec} {h : Handler} (hh : x.g.handler = some h) (hs : h.sid ≠ x.sid) :
    s.deliver x.gid x.sid t lmask = s := by
  obtain ⟨-, hg, -, -⟩ := ex?_some hx
  simp only [State.deliver, hg, hh, if_neg hs]

end

/-- A queue context as its program stops (R67). -/
def Queue.stopped (k : Queue) (fault : Nat) : Queue := { k with run := false, fault := fault, waits := [] }

/-! ### The statements -/

/-- Settles O17: the group that has stopped, field by field, and the fields of its trap record. -/
theorem trapEntry : Obligations.TrapEntry := by
  unfold Obligations.TrapEntry
  intro s x cause faddr lmask hx hq hh hv
  have ht := (State.trap_group (cause := cause) (faddr := faddr) (lmask := lmask) hq).trans (State.deliver_handled hx hh hv)
  dsimp only
  rw [ht]
  exact ⟨onlyGroup_setGroup _ _ _, _, _, State.group_setGroup _ _ _, rfl, rfl, rfl, rfl, rfl, rfl, rfl, Group.readM_writeM_self _ _ _,
    fun n hn => Group.readM_writeM_ne _ _ hn, rfl, rfl, rfl, rfl, (x.stop cause faddr).trec0_cause, (x.stop cause faddr).trec0_sub,
    (x.stop cause faddr).trec0_rpc, (x.stop cause faddr).trec0_precise, pcWord_eq _, rfl, pcWord_eq _, rfl⟩

/-- Settles O18: the ways in which a delivery ends without a handler, and what the stop of a queue leaves. -/
theorem trapsNotDelivered : Obligations.TrapsNotDelivered := by
  unfold Obligations.TrapsNotDelivered
  refine ⟨fun s x cause faddr lmask hx hq => ?group, fun s x cause faddr lmask hx hq => ?queue⟩
  case group =>
    rw [State.trap_group hq]
    exact ⟨State.deliver_noHandler hx, fun h => State.deliver_inHandler hx, fun h => State.deliver_waits hx⟩
  case queue =>
    have hqueue := s.queue_modQueue x.gid (Queue.stopped · (queueFault cause))
    rw [State.trap_queue hq]
    refine ⟨congrArg Queue.run hqueue, congrArg Queue.fault hqueue, congrArg Queue.waits hqueue, ?_, rfl, rfl, rfl, rfl,
      fun q => s.queue_modQueue_ne (Queue.stopped · (queueFault cause)), fun n => State.group_modGroup_ne _ _⟩
    intro hc
    have hcp := (State.cp_modCp s (x.gid / 16) fun c => if c.current = some x.gid then { c with current := none } else c)
    have hcur := (congrArg CmdProc.current hcp).symm.trans hc
    split at hcur
    · cases hcur
    · contradiction

end Sys2Proof.Machine
end

section
/-! Settles O19, O20 and O22 (TrapInstructions, SystemRegisters, SystemControl): the instructions of trap handlers, the system
registers, and the control of regions, issue, instruction caches and queues (R354, R358–R364, R369–R374). -/

namespace Sys2Proof.Machine

/-! ### TRAP, BRK and TRET (R339, R359, R360) -/

/-- The split that a handler returns from, as it resumes. -/
def Split.resumes (sp : Split) (g : Group) : Split :=
  { sp with pc := (g.trec0 &&& 0x000FFFFFFFFFFFFC).toNat, mask := g.trec2 &&& widthMask g.width, park := .no, clause := none,
            due := some (g.readM 14), tokens := [], openOp := none
            resumeAt := some ((g.trec0 &&& 0x000FFFFFFFFFFFFC).toNat, (g.trec3 &&& 0x000FFFFFFFFFFFFC).toNat) }

section
variable {s : State} {x : Ex} {o : EOps} (hx : s.ex? = some x)
include hx

theorem State.tret_eq : s.tret x.gid x.sid =
    s.setGroup x.gid { x.g with handler := none, splits := x.g.splits.modify x.sid fun _ => x.sp.resumes x.g } := by
  obtain ⟨-, hg, hsp, -⟩ := ex?_some hx
  exact (State.modGroup_some _ hg).trans
    (congrArg (fun k => s.setGroup x.gid { x.g with handler := none, splits := k }) (KV.modify_of_find hsp (Split.resumes · x.g)))

theorem execTret_outside (hq : x.g.isQueue = false) (h : (x.inHandler && x.lastInClause) = false) :
    execTret o s = .next (s.illegal x) :=
  (kernelOnly_group hx _ hq).trans (by rw [if_pos (by rw [← Bool.not_and, h]; rfl)])

theorem execTret_returns (hq : x.g.isQueue = false) (h : (x.inHandler && x.lastInClause) = true) :
    execTret o s = .next (s.tret x.gid x.sid) :=
  (kernelOnly_group hx _ hq).trans (by rw [if_neg (by rw [← Bool.not_and, h]; exact Bool.false_ne_true)])

end

/-! ### LGET, LPUT and LMSK (R358, R361, R362) -/

/-- What the 64-bit bit of LGET and LPUT says of the operands' kind. -/
def regKind (o : EOps) : Kind := if o.minor.getLsbD 8 then .i64 else .w32

section
variable {s : State} {x : Ex} {o : EOps}

/-- The executing split is the handler of its group (R358). -/
def Ex.handles (x : Ex) : Prop := x.g.isQueue = false ∧ x.inHandler = true

def lgetFits (x : Ex) (o : EOps) : Prop :=
  x.handles ∧ isVec o.a = true ∧ badSrc x.g (regKind o) o.a = false ∧ badDst x.g (o.minor.getLsbD 8) o.d = false ∧
    badUniform x.g .w32 o.b = false

def lputFits (x : Ex) (o : EOps) : Prop :=
  x.handles ∧ (o.d = 0xF0 ∨ isVec o.d = true) ∧ badDst x.g (o.minor.getLsbD 8) o.d = false ∧ badUniform x.g (regKind o) o.a = false ∧
    badUniform x.g .w32 o.b = false

def lmskFits (x : Ex) (o : EOps) : Prop := x.handles ∧ (o.minor.toNat / 256 % 4 = 0 ∨ badUniform x.g .w32 o.b = false)

/-- The lane that a uniform B names. -/
abbrev State.laneNamed (s : State) (x : Ex) (o : EOps) : Nat := (s.readUni x o.lit .w32 o.b).toNat % 64

variable (hx : s.ex? = some x)
include hx

/-- An instruction of groups traps in a queue program and with operands that are refused. -/
theorem kernelOnly_refused {bad : Ex → Bool} {act : Ex → State} (hb : x.g.isQueue = true ∨ bad x = true) :
    s.kernelOnly (fun x => if bad x then s.illegal x else act x) = .next (s.illegal x) := by
  rw [kernelOnly_eq hx]
  by_cases hq : x.g.isQueue = true
  · rw [if_pos hq]
  · rw [if_neg hq, if_pos (hb.resolve_left hq)]

/-- An instruction of handlers: outside one, or with operands that do not fit, it traps; else it is performed. -/
theorem handlerOnly_cases {bad : Ex → Bool} {act : Ex → State} {fits : Prop} (h : fits ↔ x.g.isQueue = false ∧ bad x = false) :
    (¬ fits → s.kernelOnly (fun x => if bad x then s.illegal x else act x) = .next (s.illegal x)) ∧
    (fits → s.kernelOnly (fun x => if bad x then s.illegal x else act x) = .next (act x)) := by
  rw [h]
  refine ⟨fun hn => kernelOnly_refused hx ?_, fun ⟨hq, hb⟩ => (kernelOnly_group hx _ hq).trans (by rw [hb]; rfl)⟩
  by_cases hq : x.g.isQueue = true
  · exact .inl hq
  · exact .inr (by simpa [hq] using hn)

theorem execLget_cases :
    (¬ lgetFits x o → execLget o s = .next (s.illegal x)) ∧
    (lgetFits x o → execLget o s = .next ((s.setGroup x.gid (x.g.writeDst (o.minor.getLsbD 8) o.d x.elected
      (if s.laneNamed x o < x.g.width then s.readSrc x o.lit (regKind o) o.a (s.laneNamed x o) else 0))).finish x)) :=
  handlerOnly_cases hx (by simp [lgetFits, Ex.handles, regKind, and_assoc])

theorem execLput_cases :
    (¬ lputFits x o → execLput o s = .next (s.illegal x)) ∧
    (lputFits x o → execLput o s = .next ((if s.laneNamed x o < x.g.width then
      s.setGroup x.gid (x.g.writeDst (o.minor.getLsbD 8) o.d (s.laneNamed x o) (s.readUni x o.lit (regKind o) o.a)) else s).finish x)) :=
  handlerOnly_cases hx (by
    simp only [lputFits, Ex.handles, regKind, Bool.or_eq_false_iff, Bool.not_eq_false', Bool.and_eq_false_iff, bne_eq_false_iff_eq,
      and_assoc])

theorem execLmsk_cases :
    (¬ lmskFits x o → execLmsk o s = .next (s.illegal x)) ∧
    (lmskFits x o → execLmsk o s = .next ((s.setGroup x.gid (x.g.writeM 14
      (lmaskOf (o.minor.toNat / 256 % 4) x o.a.toNat (s.laneNamed x o)))).finish x)) := by
  have hop : (o.minor.extractLsb' 8 2).toNat = o.minor.toNat / 256 % 4 := toNat_field _ _ _
  rw [execLmsk, hop]
  exact handlerOnly_cases hx (by
    simp only [lmskFits, Ex.handles, Bool.or_eq_false_iff, Bool.not_eq_false', Bool.and_eq_false_iff, bne_eq_false_iff_eq, and_assoc])

end

/-- Settles O19: TRAP and BRK are traps, TRET by its place, the handler's instructions by what fits them. -/
theorem trapInstructions : Obligations.TrapInstructions := by
  unfold Obligations.TrapInstructions
  refine ⟨fun s x o hx => ⟨fun hq => ?traps, fun hq => ?queue, fun hq => execTret_outside (o := o) hx hq, fun hq h => ?returns⟩,
    fun s x o hx => ?registers⟩
  case traps => exact ⟨kernelOnly_group hx _ hq, kernelOnly_group hx _ hq⟩
  case queue => exact ⟨kernelOnly_queue hx _ hq, kernelOnly_queue hx _ hq, kernelOnly_queue hx _ hq⟩
  case returns =>
    refine ⟨_, _, x.sp.resumes x.g, execTret_returns (o := o) hx hq h, onlyGroup_modGroup _ _ _, ?_, rfl, rfl, rfl, rfl, rfl, rfl, rfl⟩
    rw [State.tret_eq hx, State.group_setGroup]
  case registers =>
    obtain ⟨hget, get⟩ := execLget_cases (o := o) hx
    obtain ⟨hput, put⟩ := execLput_cases (o := o) hx
    obtain ⟨hmsk, msk⟩ := execLmsk_cases (o := o) hx
    exact ⟨hget, get, hput, fun h hb => (put h).trans (by rw [if_pos hb]; rfl), fun h hb => (put h).trans (by rw [if_neg hb.not_gt]),
      hmsk, msk⟩

/-! ### SRD, SWR and PERFR (R363, R364, R373) -/

/-- The number of a system register or counter: MINOR[15:8]. -/
theorem regNumber_eq (o : EOps) : (o.minor.extractLsb' 8 8).toNat = o.minor.toNat / 256 :=
  (toNat_field _ _ _).trans (Nat.mod_eq_of_lt (by omega))

/-- SWR of a register that the issuer has: what the write of `v` leaves. -/
def State.writeSysReg (s : State) (x : Ex) (n : Nat) (v : Dword) : State :=
  match n with
  | 0x00 =>
    if s.flagsDue x.gid x.g then s
    else (s.setGroup x.gid { x.g with fpstat := fpstatWrite x.g.fpstat (v.setWidth 32) }).finish x
  | 0x01 => (s.modCtx x.g.ctx fun c => { c with tvec := v &&& 0x000FFFFFFFFFFF80 }).finish x
  | 0x08 =>
    if x.g.handler.isNone then s.illegal x
    else (s.setGroup x.gid { x.g with trec0 := (x.g.trec0 &&& ~~~(0x000FFFFFFFFFFFFC : Dword)) ||| (v &&& 0x000FFFFFFFFFFFFC) }).finish x
  | 0x0A =>
    if x.g.handler.isNone then s.illegal x
    else (s.setGroup x.gid { x.g with trec2 := v &&& widthMask x.g.width }).finish x
  | _ => s.illegal x

theorem State.writeSysReg_other {n : Nat} (s : State) (x : Ex) (v : Dword) (h0 : n ≠ 0) (h1 : n ≠ 1) (h8 : n ≠ 8) (h10 : n ≠ 10) :
    s.writeSysReg x n v = s.illegal x := by
  unfold State.writeSysReg
  split
  · exact absurd rfl h0
  · exact absurd rfl h1
  · exact absurd rfl h8
  · exact absurd rfl h10
  · rfl

/-- Every issuer has FPSTAT. -/
theorem State.sysReg_fpstat (s : State) (x : Ex) : s.sysReg x 0 = some (x.g.fpstat.setWidth 64) := by
  by_cases hq : x.g.isQueue = true
  · exact if_pos hq
  · exact if_neg hq

section
variable {s : State} {x : Ex} {o : EOps} (hx : s.ex? = some x)
include hx

theorem execSrd_badDst (hb : badDst x.g true o.d = true) : execSrd o s = .next (s.illegal x) :=
  (withEx_eq hx _).trans (by rw [if_pos hb])

theorem execSrd_none (hb : badDst x.g true o.d = false) (hr : s.sysReg x (o.minor.toNat / 256) = none) :
    execSrd o s = .next (s.illegal x) :=
  (withEx_eq hx _).trans (by rw [hb, regNumber_eq, hr]; rfl)

/-- FPSTAT waits for the flags that are due (R45, R363). -/
theorem execSrd_some (hb : badDst x.g true o.d = false) {r : Dword} (hr : s.sysReg x (o.minor.toNat / 256) = some r) :
    execSrd o s = .next (if o.minor.toNat / 256 = 0 && s.flagsDue x.gid x.g then s
      else (s.setGroup x.gid (x.g.writePair x o.d r)).finish x) :=
  (withEx_eq hx _).trans (by rw [hb, regNumber_eq, hr]; rfl)

theorem execSwr_refused (hb : badUniform x.g .i64 o.a = true ∨ s.sysReg x (o.minor.toNat / 256) = none) :
    execSwr o s = .next (s.illegal x) :=
  (withEx_eq hx _).trans (by rw [regNumber_eq, if_pos (by simpa using hb)])

theorem execSwr_writes (hb : badUniform x.g .i64 o.a = false) (hr : (s.sysReg x (o.minor.toNat / 256)).isSome = true) :
    execSwr o s = .next (s.writeSysReg x (o.minor.toNat / 256) (s.readUni x o.lit .i64 o.a)) :=
  (withEx_eq hx _).trans (by rw [regNumber_eq, hb, ← Option.not_isSome, hr]; rfl)

theorem execPerfr_refused (hb : x.g.isQueue = true ∨ badDst x.g true o.d = true) : execPerfr o s = .next (s.illegal x) :=
  kernelOnly_refused hx hb

theorem execPerfr_reads (hq : x.g.isQueue = false) (hb : badDst x.g true o.d = false) :
    execPerfr o s = .next ((s.setGroup x.gid (x.g.writePair x o.d (s.perfCounter x.g (o.minor.toNat / 256)))).finish x) :=
  (kernelOnly_group hx _ hq).trans (by rw [hb, regNumber_eq]; rfl)

end

/-- Settles O20: SRD by the value of its register, SWR by what a write of each register leaves. -/
theorem systemRegisters : Obligations.SystemRegisters := by
  unfold Obligations.SystemRegisters
  intro s x o hx
  dsimp only
  refine ⟨execSrd_badDst hx, execSrd_none hx, fun hb hn hq => ?due, fun hb hq r hr => ?read, execSwr_refused hx, fun hb hr => ?write,
    execPerfr_refused hx, execPerfr_reads hx⟩
  case due =>
    rw [Bool.not_eq_false] at hq
    exact (execSrd_some hx hb (hn ▸ s.sysReg_fpstat x)).trans (by rw [hn, hq]; rfl)
  case read =>
    refine (execSrd_some hx hb hr).trans (congrArg _ (if_neg ?_))
    rw [Bool.and_eq_true, decide_eq_true_eq]
    exact fun h => hq.elim (absurd h.1) fun hq => Bool.false_ne_true (hq.symm.trans h.2)
  case write =>
    have hw := execSwr_writes hx hb hr
    refine ⟨fun h hq => ?_, fun h hq => ?_, fun h => ?_, fun h hh => ?_, fun h hh => ?_, fun h hh => ?_, fun h0 h1 h8 h10 => ?_⟩
    · rw [h] at hw; exact hw.trans (congrArg _ (if_neg (ne_true_of_eq_false hq)))
    · rw [h] at hw; exact hw.trans (congrArg _ (if_pos (Bool.not_eq_false _ ▸ hq)))
    · rw [h] at hw; exact hw
    · rw [h] at hw; exact hw.trans (congrArg _ (if_neg (by rw [← Option.not_isSome, hh]; exact Bool.false_ne_true)))
    · rw [h] at hw; exact hw.trans (congrArg _ (if_neg (by rw [← Option.not_isSome, hh]; exact Bool.false_ne_true)))
    · obtain h | h := h
      · rw [h] at hw; exact hw.trans (congrArg _ (if_pos (by rw [hh]; rfl)))
      · rw [h] at hw; exact hw.trans (congrArg _ (if_pos (by rw [hh]; rfl)))
    · exact hw.trans (congrArg _ (s.writeSysReg_other x _ h0 h1 h8 h10))

/-! ### Regions, yielding and code fences (R354, R369–R371) -/

/-- Split `k` of a group whose split `sid` has fenced. -/
def Split.fenced (sid k : Nat) (sp : Split) : Split := if k = sid then { sp with inLoop := false } else sp.refetch

/-- A group whose split has fenced: every other one fetches its clause again. -/
def Group.fenced (g : Group) (id sid : Nat) : Group :=
  { g with fence := id
           splits := g.splits.map (Split.fenced sid) }

theorem Group.fenced_other {g : Group} {id sid k : Nat} {sp : Split} (hk : k ≠ sid) (h : g.splits.find k = some sp) :
    (g.fenced id sid).splits.find k = some sp.refetch :=
  (KV.find_map (Split.fenced sid) g.splits k).trans (by rw [h]; exact congrArg some (if_neg hk))

section
variable {s : State} {x : Ex} {o : EOps} (hx : s.ex? = some x)
include hx

theorem execNpbegin_badOperand (hb : badUniform x.g .w32 o.a = true) : execNpbegin o s = .next (s.illegal x) :=
  kernelOnly_refused hx (.inr hb)

theorem execNpbegin_admitted (hq : x.g.isQueue = false) (hb : badUniform x.g .w32 o.a = false) :
    execNpbegin o s = .next (
      let n := (s.readUni x o.lit .w32 o.a).toNat
      if n = 0 || 2 ^ 20 < n || x.g.np.isSome then s.illegal x else (s.setGroup x.gid { x.g with np := some n }).finish x) :=
  (kernelOnly_group hx _ hq).trans (by rw [hb]; rfl)

theorem execIfence_early (hq : x.g.isQueue = false) (hl : x.lastInClause = false) : execIfence o s = .next (s.illegal x) :=
  (kernelOnly_group hx _ hq).trans (by rw [hl]; rfl)

theorem execIfence_last (hq : x.g.isQueue = false) (hl : x.lastInClause = true) :
    execIfence o s = .next ((s.finish x).modGroup x.gid (Group.fenced · s.nextId x.sid)) :=
  (kernelOnly_group hx _ hq).trans (by rw [hl]; rfl)

/-- IFENCE as its group stands after it: the issuing split behind it, every other split to fetch again. -/
theorem execIfence_leaves (hq : x.g.isQueue = false) (hl : x.lastInClause = true) :
    ∃ t g, execIfence o s = .next t ∧ OnlyGroup s t x.gid ∧ t.group x.gid = some g ∧ g.fence = s.nextId ∧ g.v = x.g.v ∧
      g.sr = x.g.sr ∧ g.m = x.g.m ∧ ∀ k sp, k ≠ x.sid → x.g.splits.find k = some sp → g.splits.find k = some sp.refetch := by
  obtain ⟨-, hg, -, -⟩ := ex?_some hx
  have hfinish : (s.finish x).group x.gid = some { x.g with splits := x.g.splits.modify x.sid (·.advance (s.drains x.g)) } := by
    rw [State.finish, State.modSplit, State.group_modGroup, hg]; rfl
  have ht := (s.finish x).group_modGroup x.gid (Group.fenced · s.nextId x.sid)
  rw [hfinish] at ht
  exact ⟨_, _, execIfence_last hx hq hl, (onlyGroup_finish s x).trans (onlyGroup_modGroup _ _ _), ht, rfl, rfl, rfl, rfl,
    fun k sp hk hsp => Group.fenced_other hk ((KV.find_modify_ne _ _ hk).trans hsp)⟩

/-! ### ICINV and HALT (R150, R372, R374) -/

theorem execIcinv_badOperands (hb : badUniform x.g .i64 o.a = true ∨ badUniform x.g .w32 o.b = true) :
    execIcinv o s = .next (s.illegal x) :=
  kernelOnly_refused hx (.inr (by simpa using hb))

end

theorem mem_dropLines {ls : List ICLine} {ctx a n : Nat} {l : ICLine} (h : l ∈ dropLines ls ctx a n) :
    ¬ (l.ctx = ctx ∧ l.addr < a + n ∧ a < l.addr + 128) := by
  have hkept := (List.mem_filter.1 h).2
  rintro ⟨rfl, hlo, hhi⟩
  rw [beq_self_eq_true, decide_eq_true hlo, decide_eq_true hhi] at hkept
  cases hkept

/-- The caches from which ICINV has dropped a range: those of the cores named, and beyond one die the command processors'. -/
def State.dropCode (s : State) (cs : List Nat) (all : Bool) (ctx a n : Nat) : State :=
  { s with
    cores := s.cores.map fun k c => if cs.contains k then { c with icache := dropLines c.icache ctx a n } else c
    cps := if all then s.cps.map fun _ c => { c with icache := dropLines c.icache ctx a n } else s.cps }

theorem State.dropCode_core (s : State) (cs : List Nat) (all : Bool) {ctx a n c : Nat} {k : Core} (hc : cs.contains c = true)
    (hk : (s.dropCode cs all ctx a n).cores.find c = some k) : ∀ l ∈ k.icache, ¬ (l.ctx = ctx ∧ l.addr < a + n ∧ a < l.addr + 128) := by
  rw [State.dropCode, KV.find_map] at hk
  obtain ⟨k', -, rfl⟩ := Option.map_eq_some_iff.1 hk
  rw [if_pos hc]
  exact fun l => mem_dropLines

theorem State.dropCode_cp (s : State) (cs : List Nat) {ctx a n q : Nat} {k : CmdProc}
    (hk : (s.dropCode cs true ctx a n).cps.find q = some k) : ∀ l ∈ k.icache, ¬ (l.ctx = ctx ∧ l.addr < a + n ∧ a < l.addr + 128) := by
  rw [State.dropCode, if_pos rfl, KV.find_map] at hk
  obtain ⟨k', -, rfl⟩ := Option.map_eq_some_iff.1 hk
  exact fun l => mem_dropLines

section
variable {s : State} {x : Ex} {o : EOps} (hx : s.ex? = some x)
include hx

theorem execIcinv_admitted (hq : x.g.isQueue = false) (ha : badUniform x.g .i64 o.a = false) (hb : badUniform x.g .w32 o.b = false) :
    execIcinv o s = .next (
      let n := (s.readUni x o.lit .w32 o.b).toNat
      if n = 0 then s.finish x
      else ((s.l1BackWhere x.g.core fun b => b.dirty != 0).dropCode (s.scopeCores x.g (o.minor.toNat / 256))
        (decide (3 < o.minor.toNat / 256)) x.g.ctx ((s.readUni x o.lit .i64 o.a).toNat % 2 ^ 52) n).finish x) := by
  refine (kernelOnly_group hx _ hq).trans ?_
  rw [ha, hb, regNumber_eq]
  dsimp only
  by_cases h3 : o.minor.toNat / 256 ≤ 3
  · rw [if_pos h3, decide_eq_false (by omega)]; rfl
  · rw [if_neg h3, decide_eq_true (by omega)]; rfl

theorem execHalt_refused (h : (x.g.isQueue && x.lastInClause) = false) : execHalt o s = .next (s.illegal x) :=
  (withEx_eq hx _).trans (by rw [if_pos (by rw [← Bool.not_and, h]; rfl)])

theorem execHalt_halts (h : (x.g.isQueue && x.lastInClause) = true) : execHalt o s = .next
    (((s.modQueue x.gid fun k => { k with run := false, fault := 5, waits := [] }).modCp (x.g.blk / 16) fun c =>
      if c.current = some x.gid then { c with current := none } else c).finish x) :=
  (withEx_eq hx _).trans (by rw [if_neg (by rw [← Bool.not_and, h]; exact Bool.false_ne_true)])

end

/-- Settles O22: each instruction by its refusal and by what it leaves. -/
theorem systemControl : Obligations.SystemControl := by
  unfold Obligations.SystemControl
  intro s x o hx
  refine ⟨fun hq => ?queue, execNpbegin_badOperand hx, execIcinv_badOperands hx, fun hq hb => ?begin, fun hq => kernelOnly_group hx _ hq,
    fun hq => kernelOnly_group hx _ hq, execIfence_early (o := o) hx, execIfence_leaves (o := o) hx, fun hq ha hb => ?icinv,
    execHalt_refused (o := o) hx, fun h => ?halt⟩
  case queue =>
    exact ⟨kernelOnly_queue hx _ hq, kernelOnly_queue hx _ hq, kernelOnly_queue hx _ hq, kernelOnly_queue hx _ hq,
      kernelOnly_queue hx _ hq⟩
  case begin =>
    have hn := execNpbegin_admitted (o := o) hx hq hb
    refine ⟨fun h0 hhi hnp => hn.trans (congrArg _ (if_neg ?_)), fun h => hn.trans (congrArg _ (if_pos ?_))⟩
    · simp [hnp]; omega
    · simpa [or_assoc, Option.isSome_iff_ne_none] using h
  case icinv =>
    have hn := execIcinv_admitted (o := o) hx hq ha hb
    refine ⟨fun h0 => hn.trans (congrArg _ (if_pos h0)), fun h0 => ⟨_, hn.trans (congrArg _ (if_neg h0)), fun c k hc hk => ?_,
      fun h3 q k hk => ?_⟩⟩
    · exact State.dropCode_core _ _ (decide (3 < o.minor.toNat / 256)) hc hk
    · rw [decide_eq_true h3] at hk
      exact State.dropCode_cp _ (s.scopeCores x.g (o.minor.toNat / 256)) hk
  case halt =>
    have hqueue := s.queue_modQueue x.gid (Queue.stopped · 5)
    exact ⟨_, execHalt_halts (o := o) hx h, congrArg Queue.run hqueue, congrArg Queue.fault hqueue, rfl, rfl, fun q =>
      s.queue_modQueue_ne (Queue.stopped · 5)⟩

end Sys2Proof.Machine
end

section
/-! Settles O51 (QuadsAndLanes): the order in which the quads of a triangle leave a tile, and the lanes that they occupy in a
fragment group (R89, R127, R390). -/

namespace Sys2Proof.Machine

/-! ### The quads of a tile (R390) -/

theorem quadOf_pixels {ps : List (List SetupVertex)} {w h a b : Nat} {q : List Sample} (hq : quadOf ps w h a b = some q) :
    q.map (fun p => (p.x, p.y)) = quadPixels a b := by
  rw [quadOf_eq] at hq
  obtain ⟨main, -, rfl⟩ := Option.map_eq_some_iff.1 hq
  have hplace : ∀ x y, ((sampleIn ps w h main x y).x, (sampleIn ps w h main x y).y) = (x, y) := fun x y => by
    obtain ⟨p, hp⟩ := exists_sampleIn_eq (ps := ps) (main := main) (w := w) (h := h) (x := x) (y := y)
    rw [hp, sampleOf_x, sampleOf_y]
  rw [List.map_map]
  exact List.map_id'' (fun e => hplace e.1 e.2) _

/-! ### Masks and registers -/

/-- The mask of a list holds the lanes of the list. -/
theorem getLsbD_maskOf {ls : List Nat} (h : ∀ l ∈ ls, l < 64) (i : Nat) : (maskOf ls).getLsbD i = decide (i ∈ ls) := by
  have hfold : ∀ m : Lanes, (ls.foldl (fun m l => m ||| oneLane l) m).getLsbD i = (m.getLsbD i || decide (i ∈ ls)) := by
    induction ls with
    | nil => simp
    | cons l t ih =>
      obtain ⟨hl, ht⟩ := List.forall_mem_cons.1 h
      intro m
      rw [List.foldl_cons, ih ht, BitVec.getLsbD_or, getLsbD_oneLane hl, Bool.or_assoc]
      simp
  exact (hfold 0).trans (by simp)

/-! ### The lanes of a fragment group (R127) -/

/-- The lanes of a set's quads, each with its sample. -/
def QuadSet.lanes (q : QuadSet) : List (Nat × Sample) :=
  q.quads.zipIdx.flatMap fun e => e.1.2.zipIdx.map fun x => (4 * e.2 + x.2, x.1)

/-- What a lane of a fragment group starts with: barycentrics, pixel and depth. -/
def Group.writeSample (g : Group) (e : Nat × Sample) : Group :=
  (((g.writeV 0 e.1 e.2.b1).writeV 1 e.1 e.2.b2).writeV 2 e.1 (BitVec.ofNat 32 (e.2.x + 65536 * e.2.y))).writeV 3 e.1 e.2.z

/-- The vertex records of a primitive, from s2 on. -/
def Group.writeRecord (g : Group) (e : Nat × Nat) : Group := g.writeS64 (2 + 2 * e.2) (BitVec.ofNat 64 e.1)

/-- The mask of the lanes whose samples are of a kind. -/
def QuadSet.maskWhere (q : QuadSet) (p : Nat × Sample → Bool) : Lanes := maskOf ((q.lanes.filter p).map Prod.fst)

/-- A group as a set's quads become its lanes. -/
def Group.takesQuads (g : Group) (q : QuadSet) : Group :=
  Group.writeM { g with live := q.maskWhere fun _ => true, frag := some { set := q } } 15 (q.maskWhere fun e => !e.2.covered)

theorem Group.fragStart_eq (g : Group) (q : QuadSet) : g.fragStart q =
    (q.recs.zipIdx.foldl Group.writeRecord (q.lanes.foldl Group.writeSample (g.takesQuads q))).writeS64 8
      (q.psn.setWidth 64 ||| bit q.front 40) := rfl

section
variable {q : QuadSet} (h4 : ∀ e ∈ q.quads, e.2.length = 4)

theorem QuadSet.mem_lanes {e : Nat × Sample} : e ∈ q.lanes ↔
    ∃ k j t ss, q.quads[k]? = some (t, ss) ∧ ss[j]? = some e.2 ∧ e.1 = 4 * k + j := by
  rw [QuadSet.lanes, List.mem_flatMap]
  constructor
  · rintro ⟨⟨⟨t, ss⟩, k⟩, hk, he⟩
    obtain ⟨⟨p, j⟩, hj, rfl⟩ := List.mem_map.1 he
    exact ⟨k, j, t, ss, List.mem_zipIdx_iff_getElem?.1 hk, List.mem_zipIdx_iff_getElem?.1 hj, rfl⟩
  · rintro ⟨k, j, t, ss, hk, hj, hl⟩
    exact ⟨((t, ss), k), List.mem_zipIdx_iff_getElem?.2 hk, List.mem_map.2 ⟨(e.2, j), List.mem_zipIdx_iff_getElem?.2 hj,
      Prod.ext hl.symm rfl⟩⟩

include h4

theorem QuadSet.lane_lt {k j t : Nat} {ss : List Sample} {p : Sample} (hk : q.quads[k]? = some (t, ss)) (hj : ss[j]? = some p) :
    k < q.quads.length ∧ j < 4 := by
  obtain ⟨hlt, -⟩ := List.getElem?_eq_some_iff.1 hk
  obtain ⟨hj4, -⟩ := List.getElem?_eq_some_iff.1 hj
  rw [h4 _ (List.mem_of_getElem? hk)] at hj4
  exact ⟨hlt, hj4⟩

theorem QuadSet.lane_lt_of_mem {e : Nat × Sample} (he : e ∈ q.lanes) : e.1 < 4 * q.quads.length := by
  obtain ⟨k, j, t, ss, hk, hj, hl⟩ := QuadSet.mem_lanes.1 he
  obtain ⟨hk, hj⟩ := QuadSet.lane_lt h4 hk hj
  omega

/-- Every lane holds one sample. -/
theorem QuadSet.lanes_unique {e f : Nat × Sample} (he : e ∈ q.lanes) (hf : f ∈ q.lanes) (h : e.1 = f.1) : e = f := by
  obtain ⟨k, j, t, ss, hk, hj, hl⟩ := QuadSet.mem_lanes.1 he
  obtain ⟨k', j', t', ss', hk', hj', hl'⟩ := QuadSet.mem_lanes.1 hf
  have hjlt := (QuadSet.lane_lt h4 hk hj).2
  have hjlt' := (QuadSet.lane_lt h4 hk' hj').2
  obtain rfl : k = k' := by omega
  obtain rfl : j = j' := by omega
  rw [hk, Option.some.injEq, Prod.mk.injEq] at hk'
  rw [← hk'.2, hj, Option.some.injEq] at hj'
  exact Prod.ext h hj'

theorem QuadSet.exists_lane {l : Nat} (h : l < 4 * q.quads.length) : ∃ p, (l, p) ∈ q.lanes := by
  have hk : l / 4 < q.quads.length := by omega
  have hj : l % 4 < q.quads[l / 4].2.length := by rw [h4 _ (List.getElem_mem hk)]; omega
  exact ⟨q.quads[l / 4].2[l % 4], QuadSet.mem_lanes.2 ⟨l / 4, l % 4, _, _, List.getElem?_eq_getElem hk, List.getElem?_eq_getElem hj,
    (Nat.div_add_mod l 4).symm⟩⟩

variable (hfit : 4 * q.quads.length ≤ 64)
include hfit

/-- A lane is in the mask of a kind of sample where its own sample is of the kind. -/
theorem QuadSet.getLsbD_maskWhere (p : Nat × Sample → Bool) (l : Nat) :
    (q.maskWhere p).getLsbD l = true ↔ ∃ e ∈ q.lanes, e.1 = l ∧ p e = true := by
  have hlt : ∀ l ∈ (q.lanes.filter p).map Prod.fst, l < 64 := fun l hl => by
    obtain ⟨e, he, rfl⟩ := List.mem_map.1 hl
    have := QuadSet.lane_lt_of_mem h4 (List.mem_filter.1 he).1
    omega
  rw [QuadSet.maskWhere, getLsbD_maskOf hlt, decide_eq_true_eq, List.mem_map]
  simp only [List.mem_filter, and_assoc]
  exact ⟨fun ⟨e, he, hp, hl⟩ => ⟨e, he, hl, hp⟩, fun ⟨e, he, hl, hp⟩ => ⟨e, he, hp, hl⟩⟩

end

/-! ### What the registers hold -/

section
variable (g : Group) (e : Nat × Sample)

theorem Group.readV_writeSample {n : Nat} (hn : n < 4) (hl : e.1 < 64) : (g.writeSample e).readV n e.1 =
    [e.2.b1, e.2.b2, BitVec.ofNat 32 (e.2.x + 65536 * e.2.y), e.2.z].getD n 0 := by
  have hne : ∀ (g : Group) {k j : Nat} (w : Word), j ≠ k → (g.writeV k e.1 w).readV j e.1 = g.readV j e.1 :=
    fun g k j w h => g.readV_writeV_ne w hl hl (.inl h)
  rw [Group.writeSample]
  obtain rfl | rfl | rfl | rfl : n = 0 ∨ n = 1 ∨ n = 2 ∨ n = 3 := by omega
  · rw [hne _ _ (by decide), hne _ _ (by decide), hne _ _ (by decide), Group.readV_writeV_self]; rfl
  · rw [hne _ _ (by decide), hne _ _ (by decide), Group.readV_writeV_self]; rfl
  · rw [hne _ _ (by decide), Group.readV_writeV_self]; rfl
  · rw [Group.readV_writeV_self]; rfl

theorem Group.readV_writeSample_ne {n l : Nat} (he : e.1 < 64) (hl : l < 64) (hne : l ≠ e.1) :
    (g.writeSample e).readV n l = g.readV n l := by
  simp only [Group.writeSample, Group.readV_writeV_ne _ _ he hl (.inr hne)]

theorem Group.writeSamples_frame (l : List (Nat × Sample)) (g : Group) : (l.foldl Group.writeSample g).m = g.m ∧
    (l.foldl Group.writeSample g).live = g.live ∧ (l.foldl Group.writeSample g).frag = g.frag := by
  induction l generalizing g with
  | nil => exact ⟨rfl, rfl, rfl⟩
  | cons e l ih => exact ih (g.writeSample e)

theorem Group.writeRecords_frame (l : List (Nat × Nat)) (g : Group) : (l.foldl Group.writeRecord g).v = g.v ∧
    (l.foldl Group.writeRecord g).m = g.m ∧ (l.foldl Group.writeRecord g).live = g.live ∧
    (l.foldl Group.writeRecord g).frag = g.frag := by
  induction l generalizing g with
  | nil => exact ⟨rfl, rfl, rfl, rfl⟩
  | cons e l ih => exact ih (g.writeRecord e)

end

section
variable (g : Group) {q : QuadSet}

/-- The records and the primitive's number stand in s registers alone. -/
theorem Group.fragStart_frame : (g.fragStart q).v = (q.lanes.foldl Group.writeSample (g.takesQuads q)).v ∧
    (g.fragStart q).m = (g.takesQuads q).m ∧ (g.fragStart q).live = (g.takesQuads q).live ∧
    (g.fragStart q).frag = (g.takesQuads q).frag := by
  obtain ⟨hv, hm, hlive, hfrag⟩ := Group.writeRecords_frame q.recs.zipIdx (q.lanes.foldl Group.writeSample (g.takesQuads q))
  obtain ⟨hm', hlive', hfrag'⟩ := Group.writeSamples_frame q.lanes (g.takesQuads q)
  exact ⟨hv, hm.trans hm', hlive.trans hlive', hfrag.trans hfrag'⟩

theorem Group.readS64_writeS64 (n : Nat) (d : Dword) : (g.writeS64 n d).readS64 n = d := by
  have hne : n ≠ n + 1 := by omega
  rw [Group.readS64, Group.writeS64, Group.readS_writeS_self, Group.readS_writeS_ne _ _ hne, Group.readS_writeS_self]
  exact Laws.words d

variable {g} (hw : g.width ≤ 64) (hq : 4 * q.quads.length ≤ g.width) (h4 : ∀ e ∈ q.quads, e.2.length = 4)
include hw hq h4

theorem Group.fragStart_live {l : Nat} : (g.fragStart q).live.getLsbD l = true ↔ l < 4 * q.quads.length := by
  have hmask := QuadSet.getLsbD_maskWhere h4 (hq.trans hw) (fun _ => true) l
  obtain ⟨-, -, hlive, -⟩ := g.fragStart_frame (q := q)
  rw [hlive]
  refine hmask.trans ⟨?_, fun h => ?_⟩
  · rintro ⟨e, he, rfl, -⟩
    exact QuadSet.lane_lt_of_mem h4 he
  · obtain ⟨p, hp⟩ := QuadSet.exists_lane h4 h
    exact ⟨(l, p), hp, rfl, rfl⟩

/-- A lane whose pixel is not covered is a helper lane. -/
theorem Group.fragStart_helpers {e : Nat × Sample} (he : e ∈ q.lanes) : ((g.fragStart q).readM 15).getLsbD e.1 = !e.2.covered := by
  have hlt : e.1 < 4 * q.quads.length := QuadSet.lane_lt_of_mem h4 he
  obtain ⟨-, hfile, -, -⟩ := g.fragStart_frame (q := q)
  have hm : (g.fragStart q).readM 15 = (g.takesQuads q).readM 15 := by rw [Group.readM, hfile]; rfl
  rw [hm, Group.takesQuads, Group.readM_writeM_self, BitVec.getLsbD_and, getLsbD_widthMask, decide_eq_true (show e.1 < 64 by omega),
    decide_eq_true (show e.1 < g.width by omega), Bool.and_true, Bool.and_true, Bool.eq_iff_iff,
    QuadSet.getLsbD_maskWhere h4 (hq.trans hw)]
  refine ⟨?_, fun h => ⟨e, he, rfl, h⟩⟩
  rintro ⟨f, hf, hfe, hc⟩
  rwa [QuadSet.lanes_unique h4 hf he hfe] at hc

theorem Group.fragStart_sample {e : Nat × Sample} (he : e ∈ q.lanes) {n : Nat} (hn : n < 4) : (g.fragStart q).readV n e.1 =
    [e.2.b1, e.2.b2, BitVec.ofNat 32 (e.2.x + 65536 * e.2.y), e.2.z].getD n 0 := by
  have hlt : ∀ f ∈ q.lanes, f.1 < 64 := fun f hf => by have := QuadSet.lane_lt_of_mem h4 hf; omega
  obtain ⟨hfile, -, -, -⟩ := g.fragStart_frame (q := q)
  have hv : (g.fragStart q).readV n e.1 = (q.lanes.foldl Group.writeSample (g.takesQuads q)).readV n e.1 := by
    rw [Group.readV, hfile]; rfl
  rw [hv]
  exact foldl_writes Group.writeSample (fun g => g.readV n e.1) he (fun g => g.readV_writeSample e hn (hlt e he))
    (fun f hf hne g => g.readV_writeSample_ne f (hlt f hf) (hlt e he) fun heq => hne (QuadSet.lanes_unique h4 he hf heq).symm) _

end

/-! ### The statement -/

/-- Settles O51: the quads by the pixels of each, the lanes by the one sample that each holds. -/
theorem quadsAndLanes : Obligations.QuadsAndLanes := by
  unfold Obligations.QuadsAndLanes
  refine ⟨fun t w h tx ty => ⟨quadOf t.pieces w h, rfl, fun a b q => quadOf_pixels⟩, fun g q hw hq h4 => ?_⟩
  obtain ⟨-, -, -, hfrag⟩ := g.fragStart_frame (q := q)
  refine ⟨⟨_, hfrag, rfl, rfl⟩, fun l _ => Group.fragStart_live hw hq h4, fun k j t ss p hk hj => ?_, ?_⟩
  · have he : (4 * k + j, p) ∈ q.lanes := QuadSet.mem_lanes.2 ⟨k, j, t, ss, hk, hj, rfl⟩
    have hsample := fun n hn => Group.fragStart_sample hw hq h4 he (n := n) hn
    exact ⟨Group.fragStart_helpers hw hq h4 he, hsample 0 (by decide), hsample 1 (by decide), hsample 2 (by decide), hsample 3 (by decide)⟩
  · rw [g.fragStart_eq]
    exact Group.readS64_writeS64 _ _ _

end Sys2Proof.Machine
end

section
/-! Settles O40 (ResetState): what the machine holds after a cold start (R386). -/

namespace Sys2Proof.Machine

/-! ### Units that nothing has changed -/

/-- A byte at its home is memory's where no L2 holds a line. -/
theorem State.homeByte_reset (a : Nat) : State.reset.homeByte a = 0 := rfl

/-- The routes of the die fabric after a start, in both directions. -/
theorem routesA_reset : ∀ a b : Fin 8, KV.get [] State.reset.pkg.routesA (8 * a.val + b.val) = resetRoute a.val b.val := by decide

/-- Settles O40: no unit has an entry of its own yet, so each answers its fields' reset values; the routes by their table. -/
theorem resetState : Obligations.ResetState := by
  unfold Obligations.ResetState
  refine ⟨rfl, rfl, rfl, rfl, rfl, rfl, fun a => ⟨rfl, State.homeByte_reset a⟩, fun n => rfl, rfl, fun n => ?core, fun n => ?die,
    fun n => ?ctx, fun n => ?queue, fun n => ⟨rfl, rfl, rfl⟩, fun n => ⟨rfl, rfl, rfl, rfl, rfl⟩, rfl, rfl, rfl, rfl, routesA_reset⟩
  case core => exact ⟨rfl, rfl, rfl, rfl, rfl, rfl, rfl, rfl, rfl, rfl, fun i => rfl⟩
  case die => exact ⟨rfl, rfl, rfl, rfl, rfl, rfl, rfl, rfl⟩
  case ctx => exact ⟨rfl, rfl, rfl, rfl, rfl, rfl, rfl⟩
  case queue => exact ⟨rfl, rfl, rfl, rfl, rfl⟩

end Sys2Proof.Machine
end

section
/-! Settles O34 (BarrierObjects): bytes of local store after a write, the sixteen bytes of a barrier object, the end of a phase, and
the instructions on objects (R304, R306, R307, R325–R328). -/

namespace Sys2Proof.Machine

/-! ### Bytes of local store (R244) -/

/-- A store of a queue, or of a block that has not retired. -/
def State.Has (s : State) (store : Nat) : Prop := store < 128 ∨ (s.block store).isSome = true

/-- One byte of local store; of a block that has retired a free value (log 51). -/
def State.lsByte (s : State) (store a : Nat) : Byte :=
  if 128 ≤ store && (s.block store).isNone then Config.goneByte store a else (s.storeOf store).read a

section
variable {s : State} {store st a c n : Nat} {bs : List Byte}

theorem State.lsRead_eq (s : State) (store off n : Nat) :
    s.lsRead store off n = (List.range n).map fun i => s.lsByte store (off + i) := by
  unfold State.lsRead State.lsByte
  split <;> rfl

theorem State.block_lsWrite (s : State) (store a : Nat) (bs : List Byte) (st : Nat) : (s.lsWrite store a bs).block st =
    if 128 ≤ store ∧ st = store then (s.block st).map fun b => { b with ls := b.ls.writeN a bs } else s.block st := by
  unfold State.lsWrite
  by_cases h : store < 128
  · rw [if_pos h, if_neg (by omega)]; rfl
  · rw [if_neg h]
    by_cases hst : st = store
    · rw [if_pos ⟨by omega, hst⟩, hst, State.block_modBlock]
    · rw [if_neg fun h => hst h.2]
      exact KV.find_modify_ne _ _ hst

theorem State.block_lsWrite_ne (h : st ≠ store) : (s.lsWrite store a bs).block st = s.block st := by
  rw [State.block_lsWrite, if_neg fun hs => h hs.2]

theorem State.isSome_block_lsWrite (s : State) (store a : Nat) (bs : List Byte) (st : Nat) :
    ((s.lsWrite store a bs).block st).isSome = (s.block st).isSome := by
  rw [State.block_lsWrite]
  split
  · rw [Option.isSome_map]
  · rfl

theorem State.has_lsWrite {s : State} {store a : Nat} {bs : List Byte} {st : Nat} : (s.lsWrite store a bs).Has st ↔ s.Has st := by
  rw [State.Has, State.Has, State.isSome_block_lsWrite]

theorem State.storeOf_lsWrite (h : s.Has store) :
    (s.lsWrite store a bs).storeOf st = if st = store then (s.storeOf store).writeN a bs else s.storeOf st := by
  unfold State.storeOf
  by_cases hst : st = store
  · subst hst
    rw [if_pos rfl]
    by_cases hq : st < 128
    · rw [if_pos hq, if_pos hq, State.lsWrite, if_pos hq, State.queue_modQueue]
    · obtain ⟨b, hb⟩ := Option.isSome_iff_exists.1 (h.resolve_left hq)
      rw [if_neg hq, if_neg hq, State.block_lsWrite, if_pos ⟨by omega, rfl⟩, hb]
      rfl
  · have hqueue : (s.lsWrite store a bs).queue st = s.queue st := by
      unfold State.lsWrite
      split
      · exact State.queue_modQueue_ne _ _ hst
      · rfl
    rw [if_neg hst, State.block_lsWrite_ne hst, hqueue]

/-- What a write of local store leaves of a byte: the byte written, or what stood there. -/
theorem State.lsByte_lsWrite (h : s.Has store) : (s.lsWrite store a bs).lsByte st c =
    if st = store ∧ a ≤ c ∧ c < a + bs.length then bs.getD (c - a) 0 else s.lsByte st c := by
  unfold State.lsByte
  rw [← Option.not_isSome, State.isSome_block_lsWrite, Option.not_isSome, State.storeOf_lsWrite h]
  by_cases hst : st = store
  · have hgone : (decide (128 ≤ store) && (s.block store).isNone) = false := by
      obtain hq | hb := h
      · rw [decide_eq_false (by omega), Bool.false_and]
      · rw [← Option.not_isSome, hb, Bool.not_true, Bool.and_false]
    rw [hst, hgone, if_pos rfl, if_neg Bool.false_ne_true, if_neg Bool.false_ne_true, Memory.read_writeN]
    simp only [true_and]
  · rw [if_neg hst, if_neg (c := st = store ∧ _) fun hc => hst hc.1]

/-- A write of a store that is not there changes nothing. -/
theorem State.lsWrite_gone (h : ¬ s.Has store) : (s.lsWrite store a bs).lsByte st c = s.lsByte st c := by
  rw [State.Has, not_or, Bool.not_eq_true] at h
  have hb : s.blocks.find store = none := by simpa [State.block] using h.2
  have hmod : ∀ m : KV Block, m.find store = none → ∀ f, m.modify store f = m := fun m hm f => by
    induction m with
    | nil => rfl
    | cons e t ih =>
      by_cases hk : store = e.1
      · simp [KV.find, hk] at hm
      · simp only [KV.find, if_neg hk] at hm
        simp only [KV.modify, if_neg hk, ih hm]
  rw [State.lsWrite, if_neg h.1, State.modBlock, hmod _ hb]

/-- A byte apart from a write keeps its value. -/
theorem State.lsByte_lsWrite_apart (h : ¬ (store = st ∧ a ≤ c ∧ c < a + bs.length)) :
    (s.lsWrite store a bs).lsByte st c = s.lsByte st c := by
  by_cases hs : s.Has store
  · rw [State.lsByte_lsWrite hs, if_neg fun hc => h ⟨hc.1.symm, hc.2⟩]
  · exact State.lsWrite_gone hs

theorem State.lsRead_lsWrite_self (h : s.Has store) (hn : bs.length = n) : (s.lsWrite store a bs).lsRead store a n = bs := by
  rw [State.lsRead_eq]
  refine List.ext_getElem (by simp [hn]) fun i hi hi' => ?_
  rw [List.getElem_map, List.getElem_range, State.lsByte_lsWrite h, if_pos ⟨rfl, by omega, by omega⟩, Nat.add_sub_cancel_left,
    List.getD_eq_getElem _ _ hi']

theorem State.lsRead_lsWrite_apart (h : st ≠ store ∨ c + n ≤ a ∨ a + bs.length ≤ c) :
    (s.lsWrite store a bs).lsRead st c n = s.lsRead st c n := by
  rw [State.lsRead_eq, State.lsRead_eq]
  refine List.map_congr_left fun i hi => State.lsByte_lsWrite_apart ?_
  have := List.mem_range.1 hi
  omega

end

/-! ### The bytes of an object (R306) -/

theorem bit_eq_fld (b : Bool) (lo : Nat) : bit b lo = fld b.toNat lo := by cases b <;> simp [bit, fld]

section
variable {b : Bar} (hslot : b.slot < 32) (hexpect : b.expect < 65536) (hpending : b.pending < 65536)

include hslot in
theorem Bar.low_toNat : (b.dwords.getD 0 0).toNat =
    b.phase.toNat * 2 ^ 63 + (b.bound.toNat * 2 ^ 62 + (b.slot * 2 ^ 57 + b.pbytes.toNat)) := by
  have hp := b.phase.toNat_lt
  have hb := b.bound.toNat_lt
  have hbytes := b.pbytes.isLt
  have hwide : (b.pbytes.setWidth 64).toNat = b.pbytes.toNat := BitVec.toNat_setWidth_of_le (by decide)
  have hs : (fld b.slot 57 ||| b.pbytes.setWidth 64).toNat = b.slot * 2 ^ 57 + b.pbytes.toNat := by
    rw [fld_or_toNat (by omega) (by omega), hwide]
  have hbound : (fld b.bound.toNat 62 ||| (fld b.slot 57 ||| b.pbytes.setWidth 64)).toNat =
      b.bound.toNat * 2 ^ 62 + (b.slot * 2 ^ 57 + b.pbytes.toNat) := by
    rw [fld_or_toNat (by omega) (by omega), hs]
  change (bit b.phase 63 ||| bit b.bound 62 ||| fld b.slot 57 ||| b.pbytes.setWidth 64).toNat = _
  rw [bit_eq_fld, bit_eq_fld, BitVec.or_assoc, BitVec.or_assoc, fld_or_toNat (by omega) (by omega), hbound]

include hexpect hpending in
theorem Bar.high_toNat : (b.dwords.getD 1 0).toNat = b.expect * 2 ^ 16 + b.pending := by
  have hp : (fld b.pending 0).toNat = b.pending := by
    rw [fld, BitVec.toNat_ofNat, Nat.pow_zero, Nat.mul_one, Nat.mod_eq_of_lt (by omega)]
  change (fld b.expect 16 ||| fld b.pending 0).toNat = _
  rw [fld_or_toNat (by omega) (by omega), hp]

include hslot hexpect hpending in
/-- An object is read as it was written. -/
theorem Bar.of_dwords : Bar.of (b.dwords.getD 0 0) (b.dwords.getD 1 0) = b := by
  have hlow := Bar.low_toNat hslot
  have hhigh := Bar.high_toNat hexpect hpending
  have hp := b.phase.toNat_lt
  have hb := b.bound.toNat_lt
  have hbytes := b.pbytes.isLt
  have hphase : (b.dwords.getD 0 0).getLsbD 63 = b.phase := by
    rw [BitVec.getLsbD, hlow, Nat.testBit_eq_decide_div_mod_eq]
    cases h : b.phase <;> simp [h] at hp ⊢ <;> omega
  have hbound : (b.dwords.getD 0 0).getLsbD 62 = b.bound := by
    rw [BitVec.getLsbD, hlow, Nat.testBit_eq_decide_div_mod_eq]
    cases h : b.bound <;> simp [h] at hb ⊢ <;> omega
  have hs : bits (b.dwords.getD 0 0) 61 57 = b.slot := by rw [bits_eq, hlow]; omega
  have hpb : (b.dwords.getD 0 0).extractLsb' 0 56 = b.pbytes := by
    apply BitVec.eq_of_toNat_eq
    rw [toNat_low, hlow]
    omega
  have he : bits (b.dwords.getD 1 0) 31 16 = b.expect := by rw [bits_eq, hhigh]; omega
  have hpend : bits (b.dwords.getD 1 0) 15 0 = b.pending := by rw [bits_eq, hhigh]; omega
  rw [Bar.of, hphase, hbound, hs, hpb, he, hpend]

end

section
variable {s : State} {store st off a : Nat}

theorem State.lsDword_lsPut64_self (h : s.Has store) (v : Dword) : (s.lsPut64 store off v).lsDword store off = v := by
  rw [State.lsDword, State.lsPut64, State.lsRead_lsWrite_self h (natToBytes_length 8 _), bytesToNat_natToBytes,
    Nat.mod_eq_of_lt (by have := v.isLt; omega)]
  exact (BitVec.ofNat_toNat 64 v).trans (BitVec.setWidth_eq v)

theorem State.lsDword_lsPut64_apart (h : a + 8 ≤ off ∨ off + 8 ≤ a) (v : Dword) :
    (s.lsPut64 store off v).lsDword store a = s.lsDword store a := by
  rw [State.lsDword, State.lsPut64, State.lsRead_lsWrite_apart (by rw [natToBytes_length]; omega), State.lsDword]

theorem State.bar_putBar (h : s.Has store) {b : Bar} (hslot : b.slot < 32) (hexpect : b.expect < 65536) (hpending : b.pending < 65536) :
    (s.putBar store off b).bar store off = b := by
  have h' : (s.lsPut64 store off (b.dwords.getD 0 0)).Has store := State.has_lsWrite.2 h
  rw [State.bar, State.putBar, State.lsDword_lsPut64_apart (by omega), State.lsDword_lsPut64_self h, State.lsDword_lsPut64_self h',
    Bar.of_dwords hslot hexpect hpending]

theorem State.lsRead_putBar_apart (b : Bar) (h : a < off ∨ off + 16 ≤ a) :
    (s.putBar store off b).lsRead store a 1 = s.lsRead store a 1 := by
  rw [State.putBar, State.lsPut64, State.lsPut64, State.lsRead_lsWrite_apart (by rw [natToBytes_length]; omega),
    State.lsRead_lsWrite_apart (by rw [natToBytes_length]; omega)]

end

/-! ### The end of a phase (R307, R328) -/

/-- Local store is that of the queues and of the blocks. -/
theorem State.lsRead_congr {s t : State} (hb : t.blocks = s.blocks) (hq : t.queues = s.queues) (store off n : Nat) :
    t.lsRead store off n = s.lsRead store off n := by
  have hblock : t.block store = s.block store := by rw [State.block, hb]; rfl
  have hqueue : t.queue store = s.queue store := by rw [State.queue, hq]; rfl
  rw [State.lsRead, State.lsRead, State.storeOf, State.storeOf, hblock, hqueue]

theorem State.bar_congr {s t : State} (hb : t.blocks = s.blocks) (hq : t.queues = s.queues) (blk off : Nat) :
    t.bar blk off = s.bar blk off := by
  simp only [State.bar, State.lsDword, State.lsRead_congr hb hq]

theorem MemoryOnly.blocks {s t : State} (h : MemoryOnly s t) : t.blocks = s.blocks := by rw [h]

theorem MemoryOnly.queues {s t : State} (h : MemoryOnly s t) : t.queues = s.queues := by rw [h]

theorem State.advance_frame (s : State) (gid sid : Nat) : (s.advance gid sid).blocks = s.blocks ∧
    (s.advance gid sid).queues = s.queues := by
  unfold State.advance
  split <;> exact ⟨rfl, rfl⟩

/-- Waiters that are released leave every store as it is. -/
theorem State.releaseWaiters_frame (s : State) (scope : Nat) (p : Nat → Group → Park → Bool) :
    (s.releaseWaiters scope p).blocks = s.blocks ∧ (s.releaseWaiters scope p).queues = s.queues := by
  have hstep : ∀ (w : Nat × Nat) (s : State),
      let t := match s.group w.1 with
        | some g => (s.advance w.1 w.2).acquire g.core scope
        | none => s
      t.blocks = s.blocks ∧ t.queues = s.queues := by
    intro w s
    dsimp only
    split
    · obtain ⟨hb, hq⟩ := s.advance_frame w.1 w.2
      exact ⟨(MemoryOnly.acquire _ _ _).blocks.trans hb, (MemoryOnly.acquire _ _ _).queues.trans hq⟩
    · exact ⟨rfl, rfl⟩
  exact ⟨foldl_keeps _ State.blocks (fun w _ s => (hstep w s).1) s, foldl_keeps _ State.queues (fun w _ s => (hstep w s).2) s⟩

theorem State.bar_settle {s : State} {blk off : Nat} {b : Bar} (h : s.Has blk) (hslot : b.slot < 32) (hexpect : b.expect < 65536)
    (hpending : b.pending < 65536) : (s.settle blk off b).bar blk off =
      if b.pending = 0 ∧ b.pbytes = 0 then { b with phase := !b.phase, pending := b.expect } else b := by
  unfold State.settle
  split
  · obtain ⟨hb, hq⟩ := State.releaseWaiters_frame (s.putBar blk off { b with phase := !b.phase, pending := b.expect }) 1 fun _ g p =>
      !g.isQueue && g.blk == blk && match p with
        | .phase (.object o _) => o == off
        | _ => false
    exact (State.bar_congr hb hq blk off).trans (State.bar_putBar h hslot hexpect hexpect)
  · exact State.bar_putBar h hslot hexpect hpending

/-! ### The instructions on objects (R325–R328) -/

theorem KV.freshBelow_lt {α : Type} {m : KV α} {n k : Nat} (h : m.freshBelow n = some k) : k < n :=
  List.mem_range.1 (List.mem_of_find?_eq_some h)

theorem badArrivals_iff (n : Nat) : (decide (n = 0) || decide (65535 < n)) = true ↔ ¬ (0 < n ∧ n ≤ 65535) := by
  rw [Bool.or_eq_true, decide_eq_true_eq, decide_eq_true_eq]
  omega

theorem getLsbD_zero_eq (v : Dword) : v.getLsbD 0 = decide (v.toNat % 2 = 1) := Nat.testBit_zero v.toNat

section
variable {s : State} {x : Ex} {o : EOps} (hx : s.ex? = some x)
include hx

theorem object_missing (h : s.object x o false = none) : execBinit o s = .next (s.illegal x) ∧ execBwait o s = .next (s.illegal x) ∧
    execBtest o s = .next (s.illegal x) :=
  ⟨(withEx_eq hx _).trans (by rw [h]), (withEx_eq hx _).trans (by rw [h]), (withEx_eq hx _).trans (by rw [h])⟩

theorem object_badCount {p : Spot} (h : s.object x o false = some p) (hb : badUniform x.g .w32 o.b = true) :
    execBinit o s = .next (s.illegal x) ∧ execBwait o s = .next (s.illegal x) ∧ execBtest o s = .next (s.illegal x) :=
  ⟨(withEx_eq hx _).trans (by rw [h, hb]; rfl), (withEx_eq hx _).trans (by rw [h, hb]; rfl),
    (withEx_eq hx _).trans (by rw [h, hb]; rfl)⟩

section
variable {p : Spot} (h : s.object x o false = some p) (hb : badUniform x.g .w32 o.b = false)
include h hb

/-- The count of arrivals that B names. -/
abbrev State.arrivals (s : State) (x : Ex) (o : EOps) : Nat := (s.readUni x o.lit .w32 o.b).toNat

theorem execBinit_badCount (hn : ¬ (0 < s.arrivals x o ∧ s.arrivals x o ≤ 65535)) : execBinit o s = .next (s.illegal x) :=
  (withEx_eq hx _).trans (by rw [h, hb]; exact congrArg _ (if_pos ((badArrivals_iff _).2 hn)))

theorem execBinit_counts (hn : 0 < s.arrivals x o ∧ s.arrivals x o ≤ 65535) : execBinit o s = .next (
    if s.isBound p.store p.off then
      (if s.objectNamed p.store p.off then s.illegal x
       else (s.barInit p.store p.off (s.bar p.store p.off).slot (s.arrivals x o)).finish x)
    else
      match (s.core x.g.core).freeSlot with
      | none => s.illegal x
      | some k => ((s.modCore x.g.core fun c => { c with slots := c.slots.insert k (p.store, p.off) }).barInit p.store p.off k
          (s.arrivals x o)).finish x) :=
  (withEx_eq hx _).trans (by rw [h, hb]; exact congrArg _ (if_neg fun hbad => (badArrivals_iff _).1 hbad hn))

theorem object_unbound (hu : s.isBound p.store p.off = false) : execBwait o s = .next (s.illegal x) ∧
    execBtest o s = .next (s.illegal x) :=
  ⟨(withEx_eq hx _).trans (by rw [h]; dsimp only; rw [hb, hu]; rfl),
    (withEx_eq hx _).trans (by rw [h]; dsimp only; rw [hu, Bool.not_false, Bool.or_true, if_pos rfl])⟩

theorem execBwait_bound (hu : s.isBound p.store p.off = true) : execBwait o s = .next (
    if (s.bar p.store p.off).phase = decide (s.arrivals x o % 2 = 1) then
      s.park x (.phase (.object p.off (decide (s.arrivals x o % 2 = 1))))
    else (s.acquire x.g.core 1).finish x) := by
  refine (withEx_eq hx _).trans ?_
  rw [h, ← getLsbD_zero_eq]
  dsimp only
  rw [hb, hu]
  refine congrArg _ ((if_neg Bool.false_ne_true).trans ?_)
  by_cases hp : (s.bar p.store p.off).phase = (s.readUni x o.lit .w32 o.b).getLsbD 0
  · rw [if_pos hp, if_neg (by rw [hp, bne_self_eq_false]; exact Bool.false_ne_true)]
  · rw [if_neg hp, if_pos (bne_iff_ne.2 hp)]

theorem execBtest_badDst (hd : badDst x.g false o.d = true) : execBtest o s = .next (s.illegal x) :=
  (withEx_eq hx _).trans (by rw [h, hb, hd]; rfl)

theorem execBtest_bound (hu : s.isBound p.store p.off = true) (hd : badDst x.g false o.d = false) :
    let past := (s.bar p.store p.off).phase ≠ decide (s.arrivals x o % 2 = 1)
    execBtest o s = .next (((if past then s.acquire x.g.core 1 else s).modGroup x.gid fun g =>
      g.writeOnce x o.d (if past then 1 else 0)).finish x) := by
  refine (withEx_eq hx _).trans ?_
  rw [h, ← getLsbD_zero_eq]
  dsimp only
  rw [hb, hu, hd]
  refine congrArg _ ((if_neg Bool.false_ne_true).trans ?_)
  simp only [bne_iff_ne]

end

/-! ### Arrivals (R327) -/

section
variable {decl : Bool}

theorem arrive_missing (h : s.object x o true = none) : arrive decl o s = .next (s.illegal x) :=
  (withEx_eq hx _).trans (by rw [h])

theorem arrive_badOperands (hb : badDst x.g false o.d = true ∨ (decl = true ∧ badUniform x.g .i64 o.b = true)) :
    arrive decl o s = .next (s.illegal x) := by
  refine (withEx_eq hx _).trans ?_
  cases h : s.object x o true with
  | none => rfl
  | some p => exact congrArg _ (if_pos (by simpa using hb))

/-- The bytes that an arrival declares. -/
def State.declared (s : State) (x : Ex) (o : EOps) (decl : Bool) : Nat := if decl then (s.readUni x o.lit .i64 o.b).toNat else 0

variable {p : Spot} (h : s.object x o true = some p) (hd : badDst x.g false o.d = false) (hb : (decl && badUniform x.g .i64 o.b) = false)
include h hd hb

/-- An arrival with admitted operands. -/
theorem arrive_admitted : arrive decl o s = .next (
    if 2 ^ 55 ≤ s.declared x o decl then s.illegal x
    else if !s.present p then s
    else if !s.isBound p.store p.off then s.illegal x
    else
      match (s.release x.g.core (if p.window then 2 else 1)).barArrive p.store p.off (BitVec.ofNat 56 (s.declared x o decl)) with
      | none => s.illegal x
      | some t => (t.modGroup x.gid fun g => g.writeOnce x o.d (if (s.bar p.store p.off).phase then 1 else 0)).finish x) :=
  (withEx_eq hx _).trans (by rw [h, hd, hb]; rfl)

/-- The ends of an arrival: too many bytes, an object that is away or not bound, a phase without arrivals left, an arrival. -/
theorem arrive_cases {i : Instr} {n : Nat} (hi : exec i s = arrive decl o s) (hn : n = s.declared x o decl) :
    (2 ^ 55 ≤ n → exec i s = .next (s.illegal x)) ∧
    (n < 2 ^ 55 → s.present p = false → exec i s = .next s) ∧
    (n < 2 ^ 55 → s.present p = true → s.isBound p.store p.off = false → exec i s = .next (s.illegal x)) ∧
    (n < 2 ^ 55 → s.present p = true → s.isBound p.store p.off = true →
      let u := s.release x.g.core (if p.window then 2 else 1)
      let b := u.bar p.store p.off
      (b.pending = 0 → exec i s = .next (s.illegal x)) ∧
      (b.pending ≠ 0 → exec i s = .next (((u.settle p.store p.off
        { b with pending := b.pending - 1, pbytes := b.pbytes + BitVec.ofNat 56 n }).modGroup x.gid fun g =>
          g.writeOnce x o.d (if (s.bar p.store p.off).phase then 1 else 0)).finish x))) := by
  have ha := arrive_admitted hx h hd hb
  rw [← hn] at ha
  rw [hi]
  refine ⟨fun hn => ha.trans (congrArg _ (if_pos hn)), fun hn hp => ?_, fun hn hp hu => ?_, fun hn hp hu => ⟨fun h0 => ?_, fun h0 => ?_⟩⟩
  · rw [ha, if_neg hn.not_ge, hp]; rfl
  · rw [ha, if_neg hn.not_ge, hp, hu]; rfl
  · rw [ha, if_neg hn.not_ge, hp, hu, State.barArrive, if_pos h0]; rfl
  · rw [ha, if_neg hn.not_ge, hp, hu, State.barArrive, if_neg h0]; rfl

end
end

/-! ### The statement -/

/-- Settles O34: an object by its bytes, the end of a phase by what stands in it then, each instruction by its object. -/
theorem barrierObjects : Obligations.BarrierObjects := by
  unfold Obligations.BarrierObjects
  refine ⟨fun s blk off b hblk hb hslot hexpect hpending => ?objects, fun s x o hx => ⟨object_missing hx, fun h =>
    ⟨arrive_missing hx h, arrive_missing hx h⟩, fun p h hb => ?counts, fun p h hb => object_badCount hx h hb, fun hd =>
    ⟨arrive_badOperands hx (.inl hd), arrive_badOperands hx (.inl hd)⟩, fun hb => arrive_badOperands hx (.inr ⟨rfl, hb⟩),
    fun p i h hd => ?arrivals⟩⟩
  case objects =>
    exact ⟨State.bar_putBar (.inr hb) hslot hexpect hpending, fun a => State.lsRead_putBar_apart b,
      State.bar_settle (.inr hb) hslot hexpect hpending⟩
  case counts =>
    refine ⟨execBinit_badCount hx h hb, fun hn hu hnamed => ?_, fun hn hu hnamed => ?_, fun hn hu => ⟨fun hs => ?_, fun k hs => ?_⟩,
      object_unbound hx h hb, fun hu => ⟨fun hp => ?_, fun hp => ?_, execBtest_badDst hx h hb, execBtest_bound hx h hb hu⟩⟩
    · exact (execBinit_counts hx h hb hn).trans (by rw [if_pos hu, if_pos hnamed])
    · exact (execBinit_counts hx h hb hn).trans (by rw [if_pos hu, hnamed]; rfl)
    · exact (execBinit_counts hx h hb hn).trans (by rw [hu, hs]; rfl)
    · refine ⟨?_, KV.freshBelow_some hs, (execBinit_counts hx h hb hn).trans (by rw [hu, hs]; rfl)⟩
      exact KV.freshBelow_lt hs
    · exact (execBwait_bound hx h hb hu).trans (congrArg _ (if_neg hp))
    · exact (execBwait_bound hx h hb hu).trans (congrArg _ (if_pos hp))
  case arrivals =>
    intro n
    rintro (rfl | ⟨rfl, hb⟩)
    · exact arrive_cases hx (i := .barv o) (n := n) (decl := false) h hd rfl rfl (if_neg nofun)
    · exact arrive_cases hx (i := .barvx o) (n := n) (decl := true) h hd hb rfl (if_pos rfl)

end Sys2Proof.Machine
end

section
/-! Settles O32 (LocalAtomicsAndTags) and O33 (TaggedWaiters): ATOML, the tagged instructions, their waiters and WAITC (R304, R305, R174,
R313, R317–R324). -/

namespace Sys2Proof.Machine

/-! ### ATOML and the tagged instructions (R313, R317–R323) -/

section
variable {s : State} {x : Ex} (hx : s.ex? = some x)
include hx

theorem execAtoml_refused {o : EOps} (hb : x.g.isQueue = true ∨ badSrc x.g .w32 o.a = true ∨ badAtom x.g o = true ∨ isScalar o.d = true) :
    execAtoml o s = .next (s.illegal x) :=
  (withEx_eq hx _).trans (congrArg _ (if_pos (by simpa [or_assoc] using hb)))

theorem execAtoml_accesses {o : EOps}
    (hb : ¬ (x.g.isQueue = true ∨ badSrc x.g .w32 o.a = true ∨ badAtom x.g o = true ∨ isScalar o.d = true)) :
    LocalAccesses (.atoml o) s x (atomBytes (atomW64 o)) true true (fun a => a % atomBytes (atomW64 o) == 0)
      (x.list.map fun l => (l, (s.readSrc x o.lit .w32 o.a l).toNat)) fun sp =>
        let u := if atomRel o then s.release x.g.core (spotScope sp) else s
        let v := sp.foldl (fun v e => v.atomLocal x o e.1 e.2) u
        let w := if atomAcq o then v.acquire x.g.core (spotScope sp) else v
        (w.passAt x).finish x :=
  localAccesses_of ((withEx_eq hx _).trans (congrArg _ (if_neg (by simpa [or_assoc] using hb))))

/-- The trap of operands that an instruction refuses: for the one lane of an operation that a split makes once. -/
abbrev State.refusal (s : State) (x : Ex) (once : Bool) : State := if once then s.illegalScalar x else s.illegal x

theorem tagged_refused {op : TagOp} {o : EOps} (hb : badTag x.g o (op != .stfe) = true) :
    tagged op o s = .next (s.refusal x (tagOnce x.g o)) :=
  (withEx_eq hx _).trans (congrArg _ (if_pos hb))

theorem tagged_accesses {i : Instr} {op : TagOp} {o : EOps} (hi : exec i s = tagged op o s) (hb : badTag x.g o (op != .stfe) = false) :
    let wide := o.minor.getLsbD 0
    let n := if wide then 8 else 4
    LocalAccesses i s x n true (op != .ldff) (fun a => a % n == 0) (s.tagOffs x o) fun sp =>
      let u := if op != .stfe then s else s.releaseFor x.g (spotScope sp)
      let f := u.openFlight x .at
      let v := sp.foldl (fun v e => v.tagLane e.2.store
        { gid := x.gid, sid := x.sid, lane := if tagOnce x.g o then none else some e.1, op := op, off := e.2.off,
          wide := wide, data := if op != .stfe then 0 else f.2.readSrc x o.lit (if wide then .i64 else .w32) o.d e.1,
          dst := if op != .stfe && o.d != 0xF0 then some o.d.toNat else none, flight := f.1, scope := spotScope sp }) f.2
      if v.tagWaits x.gid x.sid = [] then v.endTag x.gid x.sid f.1 (spotScope sp) (op != .stfe)
      else v.modSplit x.gid x.sid fun p =>
        { p with park := .tag
                 due := if tagOnce x.g o then p.due else some (maskOf ((v.tagWaits x.gid x.sid).filterMap (·.lane))) } := by
  refine localAccesses_of (hi.trans ((withEx_eq hx _).trans (congrArg _ ((if_neg ?refused).trans (congrArg _ (funext fun sp => ?_))))))
  case refused => rw [hb]; exact Bool.false_ne_true
  dsimp only
  split
  next hw => rw [if_pos hw]
  next hw => rw [if_neg hw]

theorem execStff_refused {o : EOps} (hb : badTag x.g o false = true) : execStff o s = .next (s.refusal x (tagOnce x.g o)) :=
  (withEx_eq hx _).trans (congrArg _ (if_pos hb))

theorem execStff_accesses {o : EOps} (hb : badTag x.g o false = false) :
    let wide := o.minor.getLsbD 0
    let n := if wide then 8 else 4
    LocalAccesses (.stff o) s x n true true (fun a => a % n == 0) (s.tagOffs x o) fun sp =>
      ((sp.foldl (fun u e => (u.lsWrite e.2.store e.2.off
        (natToBytes n (u.readSrc x o.lit (if wide then .i64 else .w32) o.d e.1).toNat)).setFull e.2.store e.2.off true)
        (s.releaseFor x.g (spotScope sp))).passAt x).finish x :=
  localAccesses_of ((withEx_eq hx _).trans (congrArg _ (if_neg (by rw [hb]; exact Bool.false_ne_true))))

/-! ### FESET, FECLR and FEQRY (R324) -/

theorem feChange_refused {full : Bool} {o : TOps} (hb : badSrc x.g .w32 o.a = true) :
    feChange full o s = .next (s.refusal x (isUniform o.a)) :=
  (withEx_eq hx _).trans (congrArg _ (if_pos hb))

theorem feChange_accesses {i : Instr} {full : Bool} {o : TOps} (hi : exec i s = feChange full o s) (hb : badSrc x.g .w32 o.a = false) :
    LocalAccesses i s x 8 true true (fun a => a % 8 == 0) (s.feOffs x o.lit o.a (isUniform o.a)) fun sp =>
      (sp.foldl (fun u e => u.setFull e.2.store e.2.off full) s).finish x :=
  localAccesses_of (hi.trans ((withEx_eq hx _).trans (congrArg _ (if_neg (by rw [hb]; exact Bool.false_ne_true)))))

theorem execFeqry_refused {o : UOps}
    (hb : badSrc x.g .w32 o.a = true ∨ badDst x.g false o.d = true ∨ (isScalar o.d = true ∧ isUniform o.a = false)) :
    execFeqry o s = .next (s.refusal x (isUniform o.a && isScalar o.d)) :=
  (withEx_eq hx _).trans (congrArg _ (if_pos (by simpa [or_assoc] using hb)))

theorem execFeqry_accesses {o : UOps}
    (hb : ¬ (badSrc x.g .w32 o.a = true ∨ badDst x.g false o.d = true ∨ (isScalar o.d = true ∧ isUniform o.a = false))) :
    LocalAccesses (.feqry o) s x 8 true false (fun a => a % 8 == 0) (s.feOffs x o.lit o.a (isUniform o.a && isScalar o.d)) fun sp =>
      (s.modGroup x.gid fun g => sp.foldl (fun g e =>
        g.writeDst false o.d e.1 (if s.isFull e.2.store e.2.off then 1 else 0)) g).finish x :=
  localAccesses_of ((withEx_eq hx _).trans (congrArg _ (if_neg (by simpa [or_assoc] using hb))))

/-! ### WAITC (R324) -/

theorem execWaitc_refused {o : WaitcOps} (hb : badUniform x.g .w32 o.a = true) : execWaitc o s = .next (s.illegal x) :=
  (withEx_eq hx _).trans (congrArg _ (if_pos hb))

theorem execWaitc_admitted {o : WaitcOps} (hb : badUniform x.g .w32 o.a = false) : execWaitc o s = .next (
    let t := ((s.readUni x o.lit .w32 o.a).extractLsb' 0 6).toNat
    let c := Ctr.ofCode o.ctr.toNat
    if x.g.counter c ≤ t || t = 63 then s.finish x else s.park x (.waitc c t)) :=
  (withEx_eq hx _).trans (congrArg _ (if_neg (by rw [hb]; exact Bool.false_ne_true)))

end

theorem Ctr.ofCode_eq : ∀ c : BitVec 2, Ctr.ofCode c.toNat = if c = 0 then .vl else if c = 1 then .vs else if c = 2 then .ce else .at := by
  decide

/-- Settles O32: each instruction is one access of its lanes to local store. -/
theorem localAtomicsAndTags : Obligations.LocalAtomicsAndTags := by
  unfold Obligations.LocalAtomicsAndTags
  exact fun s x hx => ⟨fun o => ⟨execAtoml_refused hx, execAtoml_accesses hx⟩,
    fun o => ⟨⟨tagged_refused hx (op := .ldfe), tagged_accesses hx rfl⟩, ⟨tagged_refused hx (op := .ldff), tagged_accesses hx rfl⟩,
      ⟨tagged_refused hx (op := .stfe), tagged_accesses hx rfl⟩, execStff_refused hx, execStff_accesses hx⟩,
    fun o => ⟨⟨feChange_refused hx, feChange_accesses hx rfl⟩, ⟨feChange_refused hx, feChange_accesses hx rfl⟩⟩,
    fun o => ⟨execFeqry_refused hx, execFeqry_accesses hx⟩⟩

/-! ### Tags and waiters of a store (R304, R305) -/

/-- A store changed, be it a queue's or a block's. -/
def State.modStore (s : State) (store : Nat) (f : Queue → Queue) (g : Block → Block) : State :=
  if store < 128 then s.modQueue store f else s.modBlock store g

section
variable {s : State} {store st : Nat} {f : Queue → Queue} {g : Block → Block}

theorem State.queue_modStore (hq : store < 128) : (s.modStore store f g).queue store = f (s.queue store) := by
  rw [State.modStore, if_pos hq, State.queue_modQueue]

theorem State.block_modStore (hq : ¬ store < 128) : (s.modStore store f g).block store = (s.block store).map g := by
  rw [State.modStore, if_neg hq, State.block_modBlock]

theorem State.has_modStore : (s.modStore store f g).Has store ↔ s.Has store := by
  unfold State.Has
  by_cases hq : store < 128
  · simp only [hq, true_or]
  · rw [State.block_modStore hq, Option.isSome_map]

theorem State.groups_modStore : (s.modStore store f g).groups = s.groups := by
  unfold State.modStore
  split <;> rfl

/-- What of a store does not change is read as before: its tags, its waiters, its bytes. -/
theorem State.isFull_modStore (hf : ∀ q, (f q).full = q.full) (hg : ∀ b, (g b).full = b.full) (off : Nat) :
    (s.modStore store f g).isFull store off = s.isFull store off := by
  unfold State.isFull
  by_cases hq : store < 128
  · rw [if_pos hq, if_pos hq, State.queue_modStore hq, hf]
  · rw [if_neg hq, if_neg hq, State.block_modStore hq]
    cases s.block store with
    | none => rfl
    | some b => exact congrArg (KV.get false · _) (hg b)

theorem State.lsRead_modStore (hf : ∀ q, (f q).ls = q.ls) (hg : ∀ b, (g b).ls = b.ls) (off n : Nat) :
    (s.modStore store f g).lsRead store off n = s.lsRead store off n := by
  have hstore : (s.modStore store f g).storeOf store = s.storeOf store := by
    unfold State.storeOf
    by_cases hq : store < 128
    · rw [if_pos hq, if_pos hq, State.queue_modStore hq, hf]
    · rw [if_neg hq, if_neg hq, State.block_modStore hq]
      cases s.block store with
      | none => rfl
      | some b => exact hg b
  have hgone : ((s.modStore store f g).block store).isNone = (s.block store).isNone ∨ store < 128 := by
    by_cases hq : store < 128
    · exact .inr hq
    · rw [State.block_modStore hq, Option.isNone_map]
      exact .inl rfl
  rw [State.lsRead_eq, State.lsRead_eq]
  refine List.map_congr_left fun i _ => ?_
  rw [State.lsByte, State.lsByte, hstore]
  obtain hgone | hq := hgone
  · rw [hgone]
  · rw [decide_eq_false (Nat.not_le.2 hq), Bool.false_and, Bool.false_and]

end

section
variable {s : State} {store : Nat}

theorem State.lsRead_setFull (at' : Nat) (full : Bool) (off n : Nat) :
    (s.setFull store at' full).lsRead store off n = s.lsRead store off n :=
  State.lsRead_modStore (f := fun q => { q with full := KV.put false q.full (at' / 8) full })
    (g := fun b => { b with full := KV.put false b.full (at' / 8) full }) (fun _ => rfl) (fun _ => rfl) off n

theorem State.lsRead_setWaits (ws : List TagWait) (off n : Nat) : (s.setWaits store ws).lsRead store off n = s.lsRead store off n :=
  State.lsRead_modStore (f := fun q => { q with waits := ws }) (g := fun b => { b with waits := ws }) (fun _ => rfl) (fun _ => rfl) off n

theorem State.isFull_setWaits (ws : List TagWait) (off : Nat) : (s.setWaits store ws).isFull store off = s.isFull store off :=
  State.isFull_modStore (f := fun q => { q with waits := ws }) (g := fun b => { b with waits := ws }) (fun _ => rfl) (fun _ => rfl) off

end

section
variable {s : State} {store : Nat} (h : s.Has store)
include h

theorem State.isFull_setFull (off off' : Nat) (full : Bool) :
    (s.setFull store off full).isFull store off' = if off' / 8 = off / 8 then full else s.isFull store off' := by
  have hput : ∀ m : KV Bool, KV.get false (KV.put false m (off / 8) full) (off' / 8) =
      if off' / 8 = off / 8 then full else KV.get false m (off' / 8) := fun m => by
    split
    next hk => rw [hk, KV.get_put_self]
    next hk => exact KV.get_put_ne _ _ _ hk
  change (s.modStore store _ _).isFull store off' = _
  unfold State.isFull
  by_cases hq : store < 128
  · rw [if_pos hq, if_pos hq, State.queue_modStore hq]
    exact hput _
  · obtain ⟨b, hb⟩ := Option.isSome_iff_exists.1 (h.resolve_left hq)
    rw [if_neg hq, if_neg hq, State.block_modStore hq, hb]
    exact hput _

theorem State.waitsOf_setWaits (ws : List TagWait) : (s.setWaits store ws).waitsOf store = ws := by
  change (s.modStore store _ _).waitsOf store = _
  unfold State.waitsOf
  by_cases hq : store < 128
  · rw [if_pos hq, State.queue_modStore hq]
  · obtain ⟨b, hb⟩ := Option.isSome_iff_exists.1 (h.resolve_left hq)
    rw [if_neg hq, State.block_modStore hq, hb]
    rfl

end

/-! ### A waiter takes its word (R304, R305) -/

section
variable {s : State} {store : Nat} {w : TagWait}

theorem State.doTag_stfe (h : w.op = .stfe) : s.doTag store w =
    (s.lsWrite store w.off (natToBytes (if w.wide then 8 else 4) w.data.toNat)).setFull store w.off true := by
  rw [State.doTag, h]

/-- Results of a tagged load are written to registers alone; LDFE leaves the tag empty as well. -/
theorem State.doTag_load (h : w.op ≠ .stfe) : ∃ f, s.doTag store w =
    if w.op = .ldfe then (s.modGroup w.gid f).setFull store w.off false else s.modGroup w.gid f := by
  rw [State.doTag]
  cases hop : w.op with
  | stfe => exact absurd hop h
  | ldfe => exact ⟨_, rfl⟩
  | ldff => exact ⟨_, rfl⟩

theorem State.has_doTag : (s.doTag store w).Has store ↔ s.Has store := by
  by_cases h : w.op = .stfe
  · rw [State.doTag_stfe h]
    exact State.has_modStore.trans State.has_lsWrite
  · obtain ⟨f, hf⟩ := State.doTag_load (s := s) (store := store) h
    rw [hf]
    split
    · exact State.has_modStore
    · exact Iff.rfl

theorem State.isFull_doTag (h : s.Has store) : (s.doTag store w).isFull store w.off = match w.op with
    | .ldfe => false
    | .ldff => s.isFull store w.off
    | .stfe => true := by
  by_cases hs : w.op = .stfe
  · rw [State.doTag_stfe hs, State.isFull_setFull (State.has_lsWrite.2 h), if_pos rfl, hs]
  · obtain ⟨f, hf⟩ := State.doTag_load (s := s) (store := store) hs
    have hgroup : (s.modGroup w.gid f).Has store := h
    rw [hf]
    cases hop : w.op with
    | stfe => exact absurd hop hs
    | ldfe => rw [if_pos rfl, State.isFull_setFull hgroup, if_pos rfl]
    | ldff => rw [if_neg nofun]; rfl

theorem State.lsRead_doTag_stfe (h : s.Has store) (hs : w.op = .stfe) :
    (s.doTag store w).lsRead store w.off (if w.wide then 8 else 4) = natToBytes (if w.wide then 8 else 4) w.data.toNat := by
  rw [State.doTag_stfe hs, State.lsRead_setFull, State.lsRead_lsWrite_self h (natToBytes_length _ _)]

/-- A waiter whose lane is due no longer has changed nothing of a store. -/
theorem State.tagDone_store : (s.tagDone w).waitsOf store = s.waitsOf store ∧ (∀ off, (s.tagDone w).isFull store off = s.isFull store off) ∧
    ∀ off n, (s.tagDone w).lsRead store off n = s.lsRead store off n := by
  unfold State.tagDone
  split <;> exact ⟨rfl, fun _ => rfl, fun _ _ => rfl⟩

/-- The state that the oldest waiter leaves when it has taken its word, before the end of its instruction. -/
def State.tagTaken (s : State) (store : Nat) (w : TagWait) : State :=
  ((s.doTag store w).setWaits store ((s.waitsOf store).erase w)).tagDone w

theorem State.tagTaken_store (h : s.Has store) : (s.tagTaken store w).waitsOf store = (s.waitsOf store).erase w ∧
    (s.tagTaken store w).isFull store w.off = (match w.op with
      | .ldfe => false
      | .ldff => s.isFull store w.off
      | .stfe => true) ∧
    (w.op = .stfe → (s.tagTaken store w).lsRead store w.off (if w.wide then 8 else 4) =
      natToBytes (if w.wide then 8 else 4) w.data.toNat) := by
  obtain ⟨hwaits, hfull, hbytes⟩ := State.tagDone_store (s := (s.doTag store w).setWaits store ((s.waitsOf store).erase w)) (store := store) (w := w)
  refine ⟨hwaits.trans (State.waitsOf_setWaits (State.has_doTag.2 h) _), (hfull _).trans ?_, fun hs => (hbytes _ _).trans ?_⟩
  · exact (State.isFull_setWaits _ _).trans (State.isFull_doTag h)
  · exact (State.lsRead_setWaits _ _ _).trans (State.lsRead_doTag_stfe h hs)

/-- A split one lane of which is due no longer. -/
def Split.served (l : Nat) (p : Split) : Split := { p with due := p.due.map fun m => m &&& ~~~oneLane l }

theorem State.tagTaken_due {l : Nat} {g : Group} {sp : Split} (hl : w.lane = some l) (hg : (s.doTag store w).group w.gid = some g)
    (hsp : g.splits.find w.sid = some sp) : ∃ h p, (s.tagTaken store w).group w.gid = some h ∧ h.splits.find w.sid = some p ∧
      p.due = sp.due.map fun m => m &&& ~~~oneLane l := by
  have hg' : ((s.doTag store w).setWaits store ((s.waitsOf store).erase w)).group w.gid = some g := by
    have hgroups : ((s.doTag store w).setWaits store ((s.waitsOf store).erase w)).groups = (s.doTag store w).groups :=
      State.groups_modStore
    rw [State.group, hgroups]
    exact hg
  have ht : (s.tagTaken store w).group w.gid = some { g with splits := g.splits.modify w.sid (Split.served l) } := by
    rw [State.tagTaken, State.tagDone, hl]
    exact (State.group_modGroup _ _ _).trans (by rw [hg']; rfl)
  exact ⟨_, sp.served l, ht, (KV.find_modify_self _ _ _).trans (by rw [hsp]; rfl), rfl⟩

theorem State.serveTag_none {word : Nat} (h : s.woken store word = none) : s.serveTag store word = s := by
  rw [State.serveTag, h]

theorem State.serveTag_some {word : Nat} (h : s.woken store word = some w) : s.serveTag store word =
    if (s.tagTaken store w).tagWaits w.gid w.sid != [] then s.tagTaken store w
    else (s.tagTaken store w).endTag w.gid w.sid w.flight w.scope (w.op != .stfe) := by
  rw [State.serveTag, h]
  rfl

/-- The waiter that takes a word is one of it, its condition holds, and it is the oldest of which this is so. -/
theorem State.woken_some {word : Nat} (h : s.woken store word = some w) : w.off / 8 = word ∧ w.op.holds (s.isFull store w.off) = true ∧
    w ∈ s.waitsOf store ∧ ∀ before after, s.waitsOf store = before ++ w :: after → w ∉ before →
      ∀ v ∈ before, v.off / 8 = word → v.op.holds (s.isFull store v.off) = false := by
  obtain ⟨hw, as, bs, heq, has⟩ := List.find?_eq_some_iff_append.1 h
  rw [Bool.and_eq_true, beq_iff_eq] at hw
  obtain ⟨hword, hholds⟩ := hw
  have hpass : ∀ v ∈ as, v.off / 8 = word → v.op.holds (s.isFull store v.off) = false := fun v hv hword => by
    simpa [hword] using has v hv
  have hw : w ∉ as := fun hmem => by rw [hpass w hmem hword] at hholds; cases hholds
  refine ⟨hword, hholds, heq ▸ List.mem_append_right _ List.mem_cons_self, fun before after hsplit hn => ?_⟩
  have hsame : before = as := by
    have h : as ++ w :: bs = before ++ w :: after := heq.symm.trans hsplit
    obtain ⟨t, rfl, ht⟩ | ⟨t, rfl, ht⟩ := List.append_eq_append_iff.1 h
    · cases t with
      | nil => exact List.append_nil _
      | cons a t => exact absurd (List.mem_append_right _ ((List.cons.inj ht).1 ▸ List.mem_cons_self)) hn
    · cases t with
      | nil => exact (List.append_nil _).symm
      | cons a t => exact absurd (List.mem_append_right _ ((List.cons.inj ht).1 ▸ List.mem_cons_self)) hw
  exact hsame ▸ hpass

end

/-- Settles O33: a tag by its word, a woken waiter by the list it was found in, WAITC by its counter. -/
theorem taggedWaiters : Obligations.TaggedWaiters := by
  unfold Obligations.TaggedWaiters
  refine ⟨fun s st off off' f h => State.isFull_setFull h off off' f, fun s store word => ⟨fun h => congrArg _ (State.serveTag_none h),
    fun w h => ?woken⟩, fun s x o hx => ?waitc⟩
  case woken =>
    obtain ⟨hword, hholds, hmem, holdest⟩ := State.woken_some h
    refine ⟨hword, hholds, hmem, holdest, fun ht => congrArg Host.Outcome.next ?_, fun ht => congrArg Host.Outcome.next ?_, fun l g sp hl hg hsp =>
      State.tagTaken_due hl hg hsp, State.tagTaken_store⟩
    · exact (State.serveTag_some h).trans (if_pos (bne_iff_ne.2 ht))
    · exact (State.serveTag_some h).trans (if_neg fun hne => bne_iff_ne.1 hne ht)
  case waitc =>
    intro t c
    have ht : ((s.readUni x o.lit .w32 o.a).extractLsb' 0 6).toNat = t := toNat_low _ _
    have hc : Ctr.ofCode o.ctr.toNat = c := Ctr.ofCode_eq _
    refine ⟨execWaitc_refused hx, fun hb hpass => (execWaitc_admitted hx hb).trans ?_, fun hb hlow h63 =>
      (execWaitc_admitted hx hb).trans ?_⟩
    · rw [ht, hc]
      exact congrArg _ (if_pos (by simpa using hpass))
    · rw [ht, hc]
      exact congrArg _ (if_neg (by simp [h63, hlow]))

end Sys2Proof.Machine
end

section
/-! Settles O30 (LocalLoadsAndStores): LDL and STL (R244). -/

namespace Sys2Proof.Machine

/-! ### The bytes of a store (R239, R243) -/

theorem length_flatMap_const {α β : Type} {f : α → List β} {k : Nat} (h : ∀ a, (f a).length = k) (l : List α) :
    (l.flatMap f).length = l.length * k := by
  rw [List.length_flatMap, List.map_congr_left (fun a _ => h a), List.map_const', List.sum_replicate, smul_eq_mul]

theorem szBytes_bounds (sz : BitVec 3) : 0 < szBytes sz ∧ szBytes sz ≤ 32 := by
  unfold szBytes
  split <;> decide

theorem State.length_storeBytes (s : State) (x : Ex) (o : MOps) (l : Nat) : (s.storeBytes x o l).length = szBytes o.sz := by
  have hsize : szBytes o.sz ≤ 4 ∨ szBytes o.sz / 8 * 8 = szBytes o.sz := by
    unfold szBytes
    split <;> decide
  unfold State.storeBytes
  dsimp only
  split
  next => exact natToBytes_length _ _
  next hn =>
    split
    · rw [length_flatMap_const (k := 4) fun _ => natToBytes_length _ _, List.length_range]
      omega
    · rw [length_flatMap_const (k := 8) fun _ => natToBytes_length _ _, List.length_range]
      omega

/-! ### LDL and STL (R244) -/

/-- The lanes of a store write one after the other, the highest last. -/
def State.storeLanes (s : State) (x : Ex) (o : MOps) (sp : List (Nat × Spot)) : State :=
  sp.foldl (fun u e => u.lsWrite e.2.store e.2.off (u.storeBytes x o e.1)) s

theorem State.has_storeLanes {s : State} {x : Ex} {o : MOps} {st : Nat} (sp : List (Nat × Spot)) :
    (s.storeLanes x o sp).Has st ↔ s.Has st :=
  iff_of_eq (foldl_keeps _ (fun u : State => u.Has st) (fun _ _ _ => propext State.has_lsWrite) s)

theorem State.lsRead_storeLanes_apart {s : State} {x : Ex} {o : MOps} {st a : Nat} {sp : List (Nat × Spot)}
    (h : ∀ e ∈ sp, ¬ (e.2.store = st ∧ e.2.off ≤ a ∧ a < e.2.off + szBytes o.sz)) :
    (s.storeLanes x o sp).lsRead st a 1 = s.lsRead st a 1 := by
  refine foldl_keeps _ (fun u : State => u.lsRead st a 1) (fun e he u => State.lsRead_lsWrite_apart ?_) s
  have := h e he
  rw [State.length_storeBytes]
  omega

/-- What a store of one more lane leaves at its place is that lane's: the lane that writes last wins. -/
theorem State.lsRead_storeLanes_last {s : State} {x : Ex} {o : MOps} {l : Nat} {p : Spot} (sp : List (Nat × Spot)) (h : s.Has p.store) :
    (s.storeLanes x o (sp ++ [(l, p)])).lsRead p.store p.off (szBytes o.sz) = (s.storeLanes x o sp).storeBytes x o l := by
  rw [State.storeLanes, List.foldl_append]
  exact State.lsRead_lsWrite_self ((State.has_storeLanes sp).2 h) (State.length_storeBytes _ _ _ _)

section
variable {s : State} {x : Ex} {o : MOps} (hx : s.ex? = some x)
include hx

theorem execLdl_refused (hb : badSrc x.g .w32 o.a = true ∨ 0xF1 ≤ o.d.toNat ∨ (o.d ≠ 0xF0 ∧ badSpan x.g o.d (szBytes o.sz) = true) ∨
    (isScalar o.d = true ∧ isUniform o.a = false)) : execLdl o s = .next (s.illegal x) :=
  (withEx_eq hx _).trans (congrArg _ (if_pos (by simpa [or_assoc] using hb)))

theorem execLdl_accesses (hb : ¬ (badSrc x.g .w32 o.a = true ∨ 0xF1 ≤ o.d.toNat ∨ (o.d ≠ 0xF0 ∧ badSpan x.g o.d (szBytes o.sz) = true) ∨
    (isScalar o.d = true ∧ isUniform o.a = false))) :
    LocalAccesses (.ldl o) s x (szBytes o.sz) false false (fun _ => true)
      (if isScalar o.d then s.laneOffs { x with lanes := oneLane (lowLane x.lanes) } o else s.laneOffs x o) fun sp =>
        (s.fly x .vl (sp.flatMap fun e => loadWrites o.d o.sz e.1 (s.lsRead e.2.store e.2.off (szBytes o.sz)))).finish x :=
  localAccesses_of ((withEx_eq hx _).trans (congrArg _ (if_neg (by simpa [or_assoc] using hb))))

theorem execStl_refused (hb : badSrc x.g .w32 o.a = true ∨ (o.d.toNat < 0xF0 ∧ badSpan x.g o.d (szBytes o.sz) = true) ∨
    (x.g.isQueue = true ∧ isUniform o.d = false)) : execStl o s = .next (s.illegal x) :=
  (withEx_eq hx _).trans (congrArg _ (if_pos (by simpa [or_assoc] using hb)))

theorem execStl_accesses (hb : ¬ (badSrc x.g .w32 o.a = true ∨ (o.d.toNat < 0xF0 ∧ badSpan x.g o.d (szBytes o.sz) = true) ∨
    (x.g.isQueue = true ∧ isUniform o.d = false))) :
    LocalAccesses (.stl o) s x (szBytes o.sz) true true (fun _ => true) (s.laneOffs x o) fun sp =>
      ((s.storeLanes x o sp).fly x .vs []).finish x :=
  localAccesses_of ((withEx_eq hx _).trans (congrArg _ (if_neg (by simpa [or_assoc] using hb))))

end

/-- Settles O30: the lanes' writes one after the other, each apart from the bytes that it does not name. -/
theorem localLoadsAndStores : Obligations.LocalLoadsAndStores := by
  unfold Obligations.LocalLoadsAndStores
  exact fun s x o hx => ⟨execLdl_refused hx, execLdl_accesses hx, execStl_refused hx, execStl_accesses hx,
    fun sp st a h => (State.lsRead_congr rfl rfl st a 1).trans (State.lsRead_storeLanes_apart h),
    fun sp l p h => State.lsRead_storeLanes_last sp h⟩

end Sys2Proof.Machine
end

section
/-! Settles O46 (SpectralInstructions): XFWD, XINV, XSCL and XDOM at issue, and GRINDER_COMPLETE (R281, R283–R285). -/

namespace Sys2Proof.Machine

/-! ### XFWD, XINV and XSCL at issue (R283–R285) -/

theorem winParts_eq (v : Dword) : winParts v =
    (v.toNat % 2 ^ 16, v.toNat / 2 ^ 16 % 2 ^ 16, v.toNat / 2 ^ 32 % 2 ^ 16, v.toNat / 2 ^ 48) := by
  have hv := v.isLt
  rw [winParts, bits_eq, bits_eq, bits_eq, bits_eq, Nat.mod_eq_of_lt (a := v.toNat / 2 ^ 48) (by omega)]
  norm_num

/-- What a group does at the end of an instruction depends on no cache and no memory. -/
theorem MemoryOnly.drains {s t : State} (h : MemoryOnly s t) (g : Group) : t.drains g = s.drains g := by
  rw [h]
  rfl

theorem State.finish_groups_congr {s t : State} {x : Ex} (hg : t.groups = s.groups) (hd : t.drains x.g = s.drains x.g) :
    (t.finish x).groups = (s.finish x).groups := by
  simp only [State.finish, State.modSplit, State.modGroup, State.group, hg, hd]

/-- The operation that a Grinder instruction enters. -/
def Ex.grind (x : Ex) (op : Nat) (va : Dword) (wh d : Word) (bar : Option Spot) (p : Plan) : Grind :=
  { gid := x.gid, core := x.g.core, ctx := x.g.ctx, blk := x.g.blk, op := op, h := (winParts va).1, p := (winParts va).2.1
    x0 := (winParts va).2.2.1, y0 := (winParts va).2.2.2, w := (wh.extractLsb' 0 16).toNat, ht := (wh.extractLsb' 16 16).toNat
    d := d.toInt, bar := bar, uses := p.uses, descs := p.descs, pc := x.sp.pc, born := x.g.icount }

/-- The state in which an operation has its identifier and its window is registered. -/
def State.grindEntered (u : State) (x : Ex) (q : Grind) (rs : List Reg) : State :=
  let t := u.fresh.2.register (u.fresh.2.who x.g) x.g.core u.nextId rs
  ({ t with grinds := t.grinds.insert u.nextId q }).finish x

section
variable {s : State} {x : Ex} {o : EOps} {op : Nat} (hx : s.ex? = some x)
include hx

/-- The factor of XSCL. -/
def State.grindFactor (s : State) (x : Ex) (o : EOps) (op : Nat) : Word :=
  if op = 3 then (s.readUni x o.lit .w32 o.d).setWidth 32 else 0

/-- The operands that a Grinder instruction refuses. -/
def badGrind (x : Ex) (o : EOps) (op : Nat) : Prop := x.g.isQueue = true ∨ badUniform x.g .i64 o.a = true ∨
  badUniform x.g .w32 o.b = true ∨ badUniform x.g .w32 o.c = true ∨ (op = 3 ∧ badUniform x.g .w32 o.d = true)

theorem grind_refused (hb : badGrind x o op) : grind op o s = .next (s.illegal x) :=
  kernelOnly_refused hx (by simpa [badGrind, or_assoc] using hb)

variable (hb : ¬ badGrind x o op)
include hb

theorem grind_admitted : grind op o s = .next (
    match s.planGrind (s.who x.g) (s.readUni x o.lit .i64 o.a) ((s.readUni x o.lit .w32 o.b).setWidth 32) op with
    | .error n => s.nope x n
    | .ok p =>
      match s.barOperand x o.lit o.c with
      | none => s.illegal x
      | some bar =>
        if !(s.core x.g.core).room 1 then s
        else
          match s.addUse (some x.g.core) x.g.ctx true p.uses with
          | .error h => s.haltEx x h .hw
          | .ok u => u.grindEntered x (x.grind op (s.readUni x o.lit .i64 o.a) ((s.readUni x o.lit .w32 o.b).setWidth 32)
              (s.grindFactor x o op) bar p) p.regs) := by
  have hq : x.g.isQueue = false := Bool.eq_false_iff.2 fun h => hb (.inl h)
  refine (kernelOnly_group hx _ hq).trans (congrArg _ ((if_neg ?_).trans rfl))
  rw [badGrind] at hb
  simp only [not_or] at hb
  simpa [or_assoc] using hb.2

theorem grind_nope {n : Nope} (hp : s.planGrind (s.who x.g) (s.readUni x o.lit .i64 o.a) ((s.readUni x o.lit .w32 o.b).setWidth 32) op =
    .error n) : grind op o s = .next (s.nope x n) :=
  (grind_admitted hx hb).trans (by rw [hp])

variable {p : Plan} (hp : s.planGrind (s.who x.g) (s.readUni x o.lit .i64 o.a) ((s.readUni x o.lit .w32 o.b).setWidth 32) op = .ok p)
include hp

theorem grind_unbound (hbar : s.barOperand x o.lit o.c = none) : grind op o s = .next (s.illegal x) :=
  (grind_admitted hx hb).trans (by rw [hp, hbar])

variable {bar : Option Spot} (hbar : s.barOperand x o.lit o.c = some bar)
include hbar

theorem grind_full (hr : (s.core x.g.core).room 1 = false) : grind op o s = .next s :=
  (grind_admitted hx hb).trans (by rw [hp, hbar, hr]; rfl)

theorem grind_enters (hr : (s.core x.g.core).room 1 = true) {u : State} (hu : s.addUse (some x.g.core) x.g.ctx true p.uses = .ok u) :
    grind op o s = .next (u.grindEntered x (x.grind op (s.readUni x o.lit .i64 o.a) ((s.readUni x o.lit .w32 o.b).setWidth 32)
      (s.grindFactor x o op) bar p) p.regs) :=
  (grind_admitted hx hb).trans (by rw [hp, hbar, hr]; dsimp only; rw [hu]; rfl)

end

section
variable {u : State} {x : Ex} {q : Grind} {rs : List Reg}

theorem State.grindEntered_grinds : (u.grindEntered x q rs).grinds.find u.nextId = some q := KV.find_insert_self _ _ _

theorem State.grindEntered_groups : (u.grindEntered x q rs).groups = (u.finish x).groups := by
  have hmem : MemoryOnly u.fresh.2 _ := MemoryOnly.register u.fresh.2 (u.fresh.2.who x.g) x.g.core u.nextId rs
  exact State.finish_groups_congr (s := u) hmem.groups (hmem.drains x.g)

/-- The group keeps its operations in flight, and so each counter. -/
theorem State.grindEntered_counter {g : Group} (hg : u.group x.gid = some g) :
    ∃ h, (u.grindEntered x q rs).group x.gid = some h ∧ ∀ c, h.counter c = g.counter c := by
  have hgroup : (u.grindEntered x q rs).group x.gid = (u.finish x).group x.gid := by
    rw [State.group, State.grindEntered_groups, ← State.group]
  refine ⟨_, hgroup.trans ((State.group_modGroup _ _ _).trans (congrArg _ hg)), fun c => rfl⟩

theorem State.grindEntered_locks : ∃ ks, ((u.grindEntered x q rs).core x.g.core).locks = (u.core x.g.core).locks ++ ks ∧
    (ks.map fun k => (k.op, k.ctx, k.range, k.write)) = rs.map fun r => (u.nextId, x.g.ctx, r.range, r.write) := by
  obtain ⟨-, hlocks⟩ := State.register_leaves u.fresh.2 (u.fresh.2.who x.g) x.g.core u.nextId rs
  exact hlocks

end

theorem exec_grind {i : Instr} {o : EOps} {op : Nat} (hi : (i = .xfwd o ∧ op = 0) ∨ (i = .xinv o ∧ op = 1) ∨ (i = .xscl o ∧ op = 3)) (s : State) :
    exec i s = grind op o s := by
  obtain ⟨rfl, rfl⟩ | ⟨rfl, rfl⟩ | ⟨rfl, rfl⟩ := hi <;> rfl

/-! ### XDOM (R284) -/

section
variable {s : State} {x : Ex} {o : EOps} (hx : s.ex? = some x)
include hx

theorem execXdom_refused (hb : x.g.isQueue = true ∨ badUniform x.g .i64 o.a = true ∨ badDst x.g false o.d = true) :
    execXdom o s = .next (s.illegal x) :=
  kernelOnly_refused hx (by simpa using hb)

/-- XDOM gives a lane's one value to its register. -/
def State.xdomPut (s : State) (x : Ex) (o : EOps) (n : Nat) : State :=
  (s.modGroup x.gid fun g => g.writeOnce x o.d (BitVec.ofNat 64 n)).finish x

variable (hb : ¬ (x.g.isQueue = true ∨ badUniform x.g .i64 o.a = true ∨ badDst x.g false o.d = true))
include hb

theorem execXdom_admitted : execXdom o s = .next (
    let v := s.readUni x o.lit .i64 o.a
    let tx := v.toNat / 2 ^ 32 % 2 ^ 16 / 8
    let ty := v.toNat / 2 ^ 48 / 8
    let p := v.toNat / 2 ^ 16 % 2 ^ 16
    match s.spectral (s.who x.g) (v.toNat % 2 ^ 16) with
    | .error n => s.nope x n
    | .ok e =>
      if tilesAlong e.dim0 ≤ tx || tilesAlong e.dim1 ≤ ty || e.planes ≤ p then s.xdomPut x o 0
      else
        match s.tmap (s.who x.g).core (s.who x.g).ctx e (e.tileIdx p tx ty) with
        | .error z => s.haltEx x z .read
        | .ok t => s.xdomPut x o ((t.exp % 256).toNat + (if t.freq then 256 else 0) + (if t.away then 1024 else 0))) := by
  have hq : x.g.isQueue = false := Bool.eq_false_iff.2 fun h => hb (.inl h)
  simp only [not_or] at hb
  refine (kernelOnly_group hx _ hq).trans (congrArg _ ((if_neg (by simpa using hb.2)).trans ?_))
  rw [winParts_eq]
  rfl

theorem execXdom_nope {n : Nope} (hs : s.spectral (s.who x.g) ((s.readUni x o.lit .i64 o.a).toNat % 2 ^ 16) = .error n) :
    execXdom o s = .next (s.nope x n) :=
  (execXdom_admitted hx hb).trans (by dsimp only; rw [hs])

end

/-! ### GRINDER_COMPLETE (R285) -/

/-- The work of an operation and what it gives up at its end. -/
def State.grindEnd (s : State) (op : Nat) (q : Grind) : Except Halt State := do
  let k := s.whoOf q.core q.ctx q.gid
  let e ← descOf q.descs q.h
  let (s, fl, n) ← s.grindWork k q
  let s ← s.addUse k.core q.ctx false q.uses
  .ok ((List.range n).foldl (fun s _ => s.lowerFor q.core q.bar (8 * e.elemBits))
    ((({ s with grinds := s.grinds.erase op }).unlock q.core op).addFlags q.gid q.pc fl (some q.born)))

section
variable {s : State} {op : Nat}

theorem execGrinderComplete_none (h : s.grinds.find op = none) : execGrinderComplete op s = .next s := by
  rw [execGrinderComplete, h]

variable {q : Grind} (h : s.grinds.find op = some q)
include h

theorem execGrinderComplete_waits (hw : anyPending q.tokens = true ∨ (s.core q.core).blocked op op = true ∨
    (q.bar ≠ none ∧ s.lowerReady q.gid op = false)) : execGrinderComplete op s = .next s := by
  rw [execGrinderComplete, h]
  refine congrArg _ (if_pos ?_)
  simpa [or_assoc, Option.isSome_iff_ne_none] using hw

variable (hp : anyPending q.tokens = false) (hl : (s.core q.core).blocked op op = false)
  (hr : q.bar = none ∨ s.lowerReady q.gid op = true)
include hp hl hr

theorem execGrinderComplete_due : execGrinderComplete op s = .next (
    if anyInvalid q.tokens then s.invalidEngine q.ctx q.core q.blk q.pc q.tokens
    else
      let k := s.whoOf q.core q.ctx q.gid
      match s.grindEnd op q with
      | .ok s => s
      | .error h =>
        let (t, s) := s.haltEngine k q.core q.blk q.pc h
        { s with grinds := s.grinds.modify op fun q => { q with tokens := t.toList } }) := by
  have hready : (q.bar.isSome && !s.lowerReady q.gid op) = false := by
    obtain hr | hr := hr
    · rw [hr]; rfl
    · rw [hr, Bool.not_true, Bool.and_false]
  rw [execGrinderComplete, h]
  exact congrArg _ (if_neg (by rw [hp, hl, hready]; exact Bool.false_ne_true))

theorem execGrinderComplete_invalid (hi : anyInvalid q.tokens = true) :
    execGrinderComplete op s = .next (s.invalidEngine q.ctx q.core q.blk q.pc q.tokens) :=
  (execGrinderComplete_due h hp hl hr).trans (congrArg _ (if_pos hi))

theorem execGrinderComplete_done (hi : anyInvalid q.tokens = false) {e : Ste} {u v : State} {fl : Flags} {n : Nat}
    (he : descOf q.descs q.h = .ok e) (hw : s.grindWork (s.whoOf q.core q.ctx q.gid) q = .ok (u, fl, n))
    (hv : u.addUse (s.whoOf q.core q.ctx q.gid).core q.ctx false q.uses = .ok v) :
    execGrinderComplete op s = .next ((List.range n).foldl (fun w _ => w.lowerFor q.core q.bar (8 * e.elemBits))
      ((({ v with grinds := v.grinds.erase op }).unlock q.core op).addFlags q.gid q.pc fl (some q.born))) := by
  refine (execGrinderComplete_due h hp hl hr).trans (congrArg _ ((if_neg (by rw [hi]; exact Bool.false_ne_true)).trans ?_))
  simp only [State.grindEnd, he, hw, hv, bind, Except.bind]

end

/-- Settles O46: a Grinder instruction by its checks and the operation it enters, XDOM by its tile, the completion by its work. -/
theorem spectralInstructions : Obligations.SpectralInstructions := by
  unfold Obligations.SpectralInstructions
  refine ⟨fun s x o i op hx hi => ?issue, fun s x o hx => ?xdom, fun s op => ⟨execGrinderComplete_none, fun q h => ?complete⟩⟩
  case issue =>
    rw [exec_grind hi]
    refine ⟨grind_refused hx, fun hb n hp => grind_nope hx hb hp, fun hb p hp => ⟨grind_unbound hx hb hp, fun bar hbar =>
      ⟨grind_full hx hb hp hbar, fun hr u hu => ⟨_, _, grind_enters hx hb hp hbar hr hu, State.grindEntered_grinds, rfl, rfl, rfl, rfl,
        toNat_low _ _, ?_, rfl, rfl, rfl, rfl, State.grindEntered_groups, fun g => State.grindEntered_counter, State.grindEntered_locks⟩⟩⟩⟩
    refine (toNat_field _ _ _).trans (Nat.mod_eq_of_lt ?_)
    have := ((s.readUni x o.lit .w32 o.b).setWidth 32).isLt
    omega
  case xdom =>
    refine ⟨execXdom_refused hx, fun hb n => execXdom_nope hx hb, fun hb e he => ⟨fun hout => ?_, fun hout t ht => ?_⟩⟩
    · exact (execXdom_admitted hx hb).trans (by
        dsimp only
        rw [he]
        exact congrArg _ (if_pos (by simpa [or_assoc] using hout)))
    · exact (execXdom_admitted hx hb).trans (by
        dsimp only
        rw [he]
        refine congrArg _ ((if_neg (by simpa [or_assoc] using hout)).trans ?_)
        rw [ht]
        rfl)
  case complete =>
    exact ⟨execGrinderComplete_waits h, fun hp hl hr => ⟨execGrinderComplete_invalid h hp hl hr, fun hi e u v fl n =>
      execGrinderComplete_done h hp hl hr hi⟩⟩

end Sys2Proof.Machine
end

section
/-! Settles O53 (PagesAndTlbs): page request queues and their registers (R344–R347, R393, R394), TLB invalidation (R343). -/

namespace Sys2Proof.Machine

/-! ### Writing a request (R344, R346, R394) -/

section
variable {s : State} {vf stage : Nat} {r : PrqReq} (hr : (s.prq vf stage).reqs.find? (fun r => !r.written) = some r)
include hr

theorem execPageRequestWrite_full (h : (s.prq vf stage).room = false) : execPageRequestWrite vf stage s = .next s := by
  rw [execPageRequestWrite, hr]
  exact congrArg _ (if_pos (by rw [h]; rfl))

/-- The address of the entry at PROD. -/
def Prq.entryAddr (q : Prq) : Nat := (q.base &&& 0x000FFFFFFFFFF000).toNat + 32 * (q.prod.toNat % q.size)

/-- The state in which a request is written at PROD's entry under an identifier. -/
def State.requestWritten (s : State) (vf stage : Nat) (r : PrqReq) (id : Nat) : State :=
  ((s.homeWrite (s.canon (s.prq vf stage).entryAddr) ((r.bytes id vf stage).map some) false).mapTokens fun t =>
    if t.key = r.key then { t with reqid := id } else t).modPrq vf stage fun q =>
      { q with prod := q.prod + 1, next := (id + 1) % 65536
               reqs := q.reqs.map fun x => if x.key = r.key then { x with written := true, reqid := id } else x }

variable (hroom : (s.prq vf stage).room = true) (hst : stage = 1 ∨ stage = 2) (hstop : s.pkg.stopped = false)
include hroom hst hstop

theorem execPageRequestWrite_room : execPageRequestWrite vf stage s = .next (
    let q := s.prq vf stage
    match s.place q.entryAddr with
    | .hole => s.loseRequest vf stage r 0x10
    | .window _ => s.loseRequest vf stage r 0x10
    | _ =>
      if s.poisoned q.entryAddr 32 then s.loseRequest vf stage r 0x11
      else
        let t := s.requestWritten vf stage r q.freeId
        if q.prod = q.cons then t.notice vf stage else t) := by
  rw [execPageRequestWrite, hr]
  refine congrArg _ ((if_neg ?_).trans rfl)
  rw [hroom, hstop]
  obtain rfl | rfl := hst <;> decide

theorem execPageRequestWrite_hole (h : s.place (s.prq vf stage).entryAddr = .hole) :
    execPageRequestWrite vf stage s = .next (s.loseRequest vf stage r 0x10) :=
  (execPageRequestWrite_room hr hroom hst hstop).trans (by dsimp only; rw [h])

variable {c : Nat} (h : s.place (s.prq vf stage).entryAddr = .mem c)
include h

theorem execPageRequestWrite_poisoned (hp : s.poisoned (s.prq vf stage).entryAddr 32 = true) :
    execPageRequestWrite vf stage s = .next (s.loseRequest vf stage r 0x11) :=
  (execPageRequestWrite_room hr hroom hst hstop).trans (by dsimp only; rw [h]; exact congrArg _ (if_pos hp))

theorem execPageRequestWrite_writes (hp : s.poisoned (s.prq vf stage).entryAddr 32 = false) :
    execPageRequestWrite vf stage s = .next (
      let t := s.requestWritten vf stage r (s.prq vf stage).freeId
      if (s.prq vf stage).prod = (s.prq vf stage).cons then t.notice vf stage else t) :=
  (execPageRequestWrite_room hr hroom hst hstop).trans (by
    dsimp only
    rw [h]
    exact congrArg _ (if_neg (by rw [hp]; exact Bool.false_ne_true)))

end

/-- Of one more identifier than are outstanding, at least one is not outstanding. -/
theorem exists_free (used : List Nat) (next : Nat) (h : used.length < 65536) :
    ∃ i ∈ (List.range (used.length + 1)).map fun i => (next + i) % 65536, i ∉ used := by
  by_contra hall
  push Not at hall
  have hnodup : ((List.range (used.length + 1)).map fun i => (next + i) % 65536).Nodup := by
    refine List.Nodup.map_on (fun i hi j hj hij => ?_) List.nodup_range
    rw [List.mem_range] at hi hj
    omega
  have hle := (List.subperm_of_subset hnodup hall).length_le
  rw [List.length_map, List.length_range] at hle
  omega

theorem Prq.freeId_free {q : Prq} (h : (q.reqs.filter (·.written)).length < 65536) :
    q.freeId < 65536 ∧ ∀ r ∈ q.reqs, r.written = true → r.reqid ≠ q.freeId := by
  obtain ⟨i, hi, hfree⟩ := exists_free ((q.reqs.filter (·.written)).map (·.reqid)) q.next (by rwa [List.length_map])
  rw [Prq.freeId]
  cases hf : (((List.range (((q.reqs.filter (·.written)).map (·.reqid)).length + 1)).map fun i => (q.next + i) % 65536).find?
      fun i => !((q.reqs.filter (·.written)).map (·.reqid)).contains i) with
  | none => exact absurd (List.find?_eq_none.1 hf i hi) (by simpa using hfree)
  | some id =>
    obtain ⟨j, -, hj⟩ := List.mem_map.1 (List.mem_of_find?_eq_some hf)
    have hid : id ∉ (q.reqs.filter (·.written)).map (·.reqid) := by simpa using List.find?_some hf
    refine ⟨hj ▸ Nat.mod_lt _ (by decide), fun r hr hw heq => hid ?_⟩
    exact List.mem_map.2 ⟨r, List.mem_filter.2 ⟨hr, hw⟩, heq⟩

/-! ### Replies (R347, R393) -/

section
variable {s : State} {vf stage id : Nat}

theorem State.reply_unknown (h : (s.prq vf stage).reqs.find? (fun r => r.written && r.reqid == id) = none) (st : TokStatus) :
    s.reply vf stage id st = s.log .replyUnknown vf id := by
  rw [State.reply, h]

variable {r : PrqReq} (h : (s.prq vf stage).reqs.find? (fun r => r.written && r.reqid == id) = some r)
include h

/-- The state without a request that has ended. -/
def State.requestEnded (s : State) (vf stage : Nat) (r : PrqReq) : State :=
  s.modPrq vf stage fun q => { q with reqs := q.reqs.filter fun x => x.key != r.key }

theorem State.reply_ends {st : TokStatus}
    (hm : (if st = .retry ∧ s.holders r.key = [r.ctx] then s.stillMisses stage r else none) = none) : s.reply vf stage id st =
      (s.requestEnded vf stage r).mapTokens fun t => if t.key = r.key then { t with status := st } else t := by
  rw [State.reply, h]
  dsimp only
  rw [hm]
  rfl

theorem State.reply_anew {why level : Nat} (hh : s.holders r.key = [r.ctx]) (hm : s.stillMisses stage r = some (why, level)) :
    let z := (s.requestEnded vf stage r).requestPage r.ctx stage why level r.page r.gva r.acc r.core r.eng
    s.reply vf stage id .retry = z.2.mapTokens fun t =>
      if t.key = r.key then { t with key := z.1, reqid := 0, status := .pending } else t := by
  rw [State.reply, h]
  dsimp only
  rw [if_pos ⟨rfl, hh⟩, hm]
  rfl

end

/-! ### TLBINV (R343) -/

/-- The start of an invalidation of the kind that a written TLBINV names. -/
theorem exec_tlbinv (s : State) (win : Nat) {v : Dword} (h : v.getLsbD 63 = true) :
    exec (if bits v 62 61 = 0 then .tlbinvStage1Range win v else if bits v 62 61 = 1 then .tlbinvStage2Range win v
      else if bits v 62 61 = 2 then .tlbinvAllCtx win v else .tlbinvAllVf win v) s = .next (s.writeTlbinv win v) := by
  have hstart : ∀ kind, bits v 62 61 = kind → s.startTlbinv win kind v = .next (s.writeTlbinv win v) := fun kind hk => by
    rw [State.startTlbinv, h, hk]
    exact congrArg _ (if_neg (by simp))
  have hkind : bits v 62 61 < 4 := by rw [bits_eq]; omega
  split
  next h0 => exact hstart 0 h0
  next h0 =>
    split
    next h1 => exact hstart 1 h1
    next h1 =>
      split
      next h2 => exact hstart 2 h2
      next h2 => exact hstart 3 (by omega)

section
variable {s : State} {win : Nat} {v : Dword}

theorem State.writeTlbinv_busy (h : (s.wreg (.tlbinv win)).getLsbD 63 = true) : s.writeTlbinv win v = s := if_pos h

variable (h : ¬ (s.wreg (.tlbinv win)).getLsbD 63 = true)
include h

theorem State.writeTlbinv_refused (hr : win ≠ 0 ∧ (bits v 62 61 % 2 = 1 ∨ (s.ctx (bits v 60 49)).en = false ∨
    (s.ctx (bits v 60 49)).vf ≠ win - 1)) : s.writeTlbinv win v = s.log .tlbinvRefused win (bits v 62 61) :=
  (if_neg h).trans (if_pos (by simpa using hr))

theorem State.writeTlbinv_starts (hr : ¬ (win ≠ 0 ∧ (bits v 62 61 % 2 = 1 ∨ (s.ctx (bits v 60 49)).en = false ∨
    (s.ctx (bits v 60 49)).vf ≠ win - 1))) : s.writeTlbinv win v = s.setTlbinv win (v &&& 0xFFFFF80000000000) :=
  (if_neg h).trans (if_neg (by simpa using hr))

end

theorem State.wreg_setTlbinv (s : State) (win : Nat) (v : Dword) : (s.setTlbinv win v).wreg (.tlbinv win) = v := by
  rw [State.setTlbinv]
  change (if win = 0 then _ else _) = v
  split
  · rfl
  · rw [State.vf_modVf]

theorem State.setTlbinv_frame (s : State) (win : Nat) (v : Dword) : (s.setTlbinv win v).mem = s.mem ∧
    (s.setTlbinv win v).groups = s.groups ∧ (∀ c, (s.setTlbinv win v).core c = s.core c) ∧ ∀ d, (s.setTlbinv win v).die d = s.die d := by
  rw [State.setTlbinv]
  split <;> exact ⟨rfl, rfl, fun _ => rfl, fun _ => rfl⟩

theorem get_map_values {α : Type} (d : α) (m : KV α) (f : α → α) (hd : f d = d) (k : Nat) :
    KV.get d (List.map (fun e : Nat × α => (e.1, f e.2)) m) k = f (KV.get d m k) := by
  rw [KV.get, KV.find_map_values, KV.get]
  cases m.find k with
  | none => exact hd.symm
  | some a => rfl

/-- Every core and die loses exactly the entries that are dropped. -/
theorem State.dropTlb_tlbs (s : State) (p : TlbEntry → Bool) : (∀ c, ((s.dropTlb p).core c).tlb = (s.core c).tlb.filter fun e => !p e) ∧
    ∀ d, ((s.dropTlb p).die d).tlb = (s.die d).tlb.filter (fun e => !p e) ∧
      ((s.dropTlb p).die d).walks = (s.die d).walks.filter fun e => !p e.cover :=
  ⟨fun c => congrArg Core.tlb (get_map_values ({} : Core) s.cores (fun c => { c with tlb := c.tlb.filter fun e => !p e }) rfl c), fun d =>
    have hdie := get_map_values ({} : Die) s.dies
      (fun d => { d with tlb := d.tlb.filter (fun e => !p e), walks := d.walks.filter fun e => !p e.cover }) rfl d
    ⟨congrArg Die.tlb hdie, congrArg Die.walks hdie⟩⟩

section
variable {s : State} {win : Nat}

theorem execTlbinvComplete_idle (h : (s.wreg (.tlbinv win)).getLsbD 63 = false) : execTlbinvComplete win s = .next s :=
  congrArg _ (if_pos (by rw [h]; rfl))

theorem execTlbinvComplete_busy (h : s.tlbBusy (s.wreg (.tlbinv win)) = true) : execTlbinvComplete win s = .next s :=
  congrArg _ (if_pos (by rw [h, Bool.or_true]))

theorem execTlbinvComplete_drops (h : (s.wreg (.tlbinv win)).getLsbD 63 = true) (hb : s.tlbBusy (s.wreg (.tlbinv win)) = false) :
    execTlbinvComplete win s = .next ((s.dropTlb (s.invalidated (s.wreg (.tlbinv win)) (s.wreg (.tlbinva win)))).setTlbinv win
      (s.wreg (.tlbinv win) &&& 0x7FFFFFFFFFFFFFFF)) :=
  congrArg _ (if_neg (by rw [h, hb]; exact Bool.false_ne_true))

end

theorem getLsbD_cleared (v : Dword) : (v &&& 0x7FFFFFFFFFFFFFFF).getLsbD 63 = false := by
  rw [BitVec.getLsbD_and]
  exact Bool.and_false _

/-- Settles O53: a queue by its first waiting request, a reply by the request it names, an invalidation by its kind. -/
theorem pagesAndTlbs : Obligations.PagesAndTlbs := by
  unfold Obligations.PagesAndTlbs
  refine ⟨⟨fun s vf stage r hr => ⟨execPageRequestWrite_full hr, fun hroom hst hstop => ⟨execPageRequestWrite_hole hr hroom hst hstop,
    fun c => execPageRequestWrite_poisoned hr hroom hst hstop, fun c => execPageRequestWrite_writes hr hroom hst hstop⟩⟩,
    fun q => Prq.freeId_free, fun s vf stage id => ⟨fun h => ⟨congrArg _ (State.reply_unknown h _), congrArg _ (State.reply_unknown h _)⟩,
    fun r h => ?reply⟩, fun s vf stage v => ?registers⟩, fun s win v h => ?start, fun s win => ?complete, fun s v a e => ?dropped⟩
  case reply =>
    refine ⟨congrArg _ (State.reply_ends h (if_neg nofun)), fun hm => congrArg _ (State.reply_ends h ?_), fun why level hh hm =>
      congrArg _ (State.reply_anew h hh hm)⟩
    obtain hm | hm := hm
    · exact if_neg fun hc => hm hc.2
    · rw [hm, ite_self]
  case registers =>
    refine ⟨fun h => congrArg _ (if_neg (Nat.not_lt.2 h)), fun h => congrArg _ (if_pos h), rfl, fun hr => congrArg _ (if_pos ?_),
      fun hr => congrArg _ (if_neg ?_)⟩
    · simpa [State.queueOf, Bool.eq_false_or_eq_true, imp_iff_not_or] using hr
    · simpa [State.queueOf, Bool.eq_false_or_eq_true, imp_iff_not_or] using hr
  case start =>
    refine ⟨fun hb => (exec_tlbinv s win h).trans (congrArg _ (State.writeTlbinv_busy hb)), fun hb hr =>
      (exec_tlbinv s win h).trans (congrArg _ (State.writeTlbinv_refused hb hr)), fun hb hr =>
      ⟨(exec_tlbinv s win h).trans (congrArg _ (State.writeTlbinv_starts hb hr)), State.wreg_setTlbinv s win _⟩⟩
  case complete =>
    refine ⟨execTlbinvComplete_idle, fun _ => execTlbinvComplete_busy, fun h hb => ⟨_, execTlbinvComplete_drops h hb, ?_⟩⟩
    obtain ⟨hmem, hgroups, hcore, hdie⟩ := State.setTlbinv_frame
      (s.dropTlb (s.invalidated (s.wreg (.tlbinv win)) (s.wreg (.tlbinva win)))) win (s.wreg (.tlbinv win) &&& 0x7FFFFFFFFFFFFFFF)
    obtain ⟨hcores, hdies⟩ := s.dropTlb_tlbs (s.invalidated (s.wreg (.tlbinv win)) (s.wreg (.tlbinva win)))
    refine ⟨by rw [State.wreg_setTlbinv, getLsbD_cleared], hmem, hgroups, fun c => ?_, fun d => ?_⟩
    · rw [hcore c, hcores c]
    · rw [hdie d]
      exact hdies d
  case dropped =>
    refine ⟨fun hk => ?_, fun hk => ?_, fun hk => ?_, fun hk => ?_⟩ <;> rw [State.invalidated, hk] <;> simp [and_assoc]

end Sys2Proof.Machine
end

section
/-! Settles O31 (Atomics): ATOM and RED at issue, the requests at an engine's ports, promotion, and what the operations write (R299, R313,
R314, R317–R320). -/

namespace Sys2Proof.Machine

/-! ### ATOM and RED at issue (R313, R317–R320) -/

/-- The operands that ATOM and RED refuse. -/
def refusedAtom (x : Ex) (o : EOps) : Prop := x.g.isQueue = true ∨ badBase x.g o.a = true ∨ badAtom x.g o = true ∨
  (isScalar o.d = true ∧ (isVec o.a = true ∨ isUniform o.b = false ∨ (atomOp o = 10 ∧ isUniform o.c = false)))

/-- The lanes of ATOM and RED with their addresses. -/
def State.atomAddrs (s : State) (x : Ex) (o : EOps) : List (Nat × Nat) :=
  (if isScalar o.d then [lowLane x.lanes] else x.list).map fun l => (l, (s.readSrc x o.lit .i64 o.a l).toNat % 2 ^ 52)

/-- Those that are not aligned. -/
def State.atomOdd (s : State) (x : Ex) (o : EOps) : List (Nat × Nat) :=
  (s.atomAddrs x o).filter fun e => e.2 % atomBytes (atomW64 o) != 0

/-- The requests of a lane's pieces leave the core. -/
def State.sendAtoms (o : EOps) (x : Ex) (v : State) (id l : Nat) (ps : List Piece) : Done :=
  ⟨match ps with
    | p :: _ => v.sendAtom x o id l p
    | [] => v, [], false⟩

theorem State.openAtom_gid (s : State) (x : Ex) (o : EOps) : (s.openAtom x o).1.gid = x.gid := by
  unfold State.openAtom
  split <;> rfl

theorem refusedAtom_iff {x : Ex} {o : EOps} : (x.g.isQueue || badBase x.g o.a || badAtom x.g o ||
    (isScalar o.d && (isVec o.a || !isUniform o.b || (atomOp o == 10 && !isUniform o.c)))) = true ↔ refusedAtom x o := by
  simp [refusedAtom, or_assoc]

section
variable {s : State} {x : Ex} {o : EOps} (hx : s.ex? = some x)
include hx

theorem atomGlobal_refused (hb : refusedAtom x o) : atomGlobal o s = .next (s.illegal x) :=
  (withEx_eq hx _).trans (congrArg _ (if_pos (refusedAtom_iff.2 hb)))

variable (hb : ¬ refusedAtom x o)
include hb

theorem atomGlobal_odd (ho : s.atomOdd x o ≠ []) :
    atomGlobal o s = .next (s.trap x 0x01 (maskOf ((s.atomOdd x o).map (·.1))) 0) :=
  (withEx_eq hx _).trans (congrArg _ ((if_neg fun h => hb (refusedAtom_iff.1 h)).trans (if_pos (bne_iff_ne.2 ho))))

theorem atomGlobal_sends (ho : s.atomOdd x o = []) : atomGlobal o s = .next (
    let u := if atomRel o then s.release x.g.core (atomScope o) else s
    let y := u.openAtom x o
    (y.2.laneAccess y.1 .at .atomic (sized (atomBytes (atomW64 o)) (groupAddrs 64 (s.atomAddrs x o))) (State.sendAtoms o y.1)).settleAt x.gid) := by
  refine (withEx_eq hx _).trans (congrArg _ ((if_neg fun h => hb (refusedAtom_iff.1 h)).trans
    ((if_neg fun h => bne_iff_ne.1 h ho).trans ?_)))
  dsimp only
  rw [← State.openAtom_gid (if atomRel o then s.release x.g.core (atomScope o) else s) x o]
  rfl

end

/-! ### A request leaves its core (R313, R319) -/

/-- Addresses have the same places in both states. -/
def PlacesKept (s t : State) : Prop := t.place = s.place

namespace PlacesKept

variable {s t u : State}

theorem refl (s : State) : PlacesKept s s := rfl

theorem trans (h : PlacesKept s t) (k : PlacesKept t u) : PlacesKept s u := Eq.trans k h

theorem of_pkg (h : t.pkg = s.pkg) : PlacesKept s t := State.place_congr h

theorem foldl {α : Type} {f : State → α → State} (hf : ∀ s a, PlacesKept s (f s a)) (l : List α) (s : State) :
    PlacesKept s (l.foldl f s) :=
  foldl_keeps f State.place (fun a _ s => hf s a) s

theorem homeWrite (s : State) (pa : Nat) (bs : List (Option Byte)) (cmp : Bool) : PlacesKept s (s.homeWrite pa bs cmp) := by
  unfold State.homeWrite
  split
  · exact rfl
  · exact of_pkg (s.homePuts_pkg pa cmp bs)

theorem spoil (s : State) (pas : List Nat) : PlacesKept s (s.spoil pas) :=
  foldl (fun s pa => by split <;> exact of_pkg rfl) pas s

theorem l1Back (s : State) (core : Nat) (b : L1Block) : PlacesKept s (s.l1Back core b) := by
  unfold State.l1Back
  split
  · exact refl s
  · exact ((of_pkg rfl : PlacesKept s (s.count core 5)).trans (homeWrite _ _ _ _)).trans (spoil _ _)

theorem l1Leave (s : State) (core : Nat) (bs : List L1Block) : PlacesKept s (s.l1Leave core bs) := by
  induction bs generalizing s with
  | nil => exact refl s
  | cons b t ih => exact ((l1Back s core b).trans (of_pkg rfl)).trans (ih _)

theorem l1Clear (s : State) (core : Nat) (both dst : Nat → Bool) : PlacesKept s (s.l1Clear core both dst) := by
  have hback (t : State) (p : L1Block → Bool) (b : L1Block) : PlacesKept t (if p b then t.l1Back core b else t) := by
    split
    · exact l1Back t core b
    · exact refl t
  exact ((foldl (fun t b => hback t _ b) _ s).trans (of_pkg rfl)).trans (l1Leave _ core _)

end PlacesKept

theorem MemoryOnly.l1Clear (s : State) (core : Nat) (both dst : Nat → Bool) : MemoryOnly s (s.l1Clear core both dst) :=
  (MemoryOnly.l1BackWhere s core _).trans (MemoryOnly.l1Leave _ core _)

theorem MemoryOnly.dies {s t : State} (h : MemoryOnly s t) : t.dies = s.dies := by rw [h]

/-- What ATOM and RED ask for: one request for each of their lanes. -/
structure AtomReq.Asks (q : AtomReq) (x : Ex) (o : EOps) (id lane addr : Nat) : Prop where
  gid : q.gid = x.gid
  flight : q.flight = id
  addr : q.addr = addr
  op : q.op = atomOp o
  w64 : q.w64 = atomW64 o
  lane : q.lane = lane
  rmt : q.rmt = o.minor.getLsbD 10
  promoted : q.promoted = false
  reply : q.reply = none

/-- A request stands last at its engine, behind what the L1 has given up of its sector. -/
theorem State.sendAtom_enters (s : State) (x : Ex) (o : EOps) (id lane : Nat) (p : Piece) : ∃ (u : State) (q : AtomReq),
    s.sendAtom x o id lane p = u.modDie (u.engineOf p.m.pa x.g.core) (fun d => { d with atoms := d.atoms ++ [q] }) ∧
      u.place = s.place ∧ u.dies = s.dies ∧ q.Asks x o id lane p.m.pa :=
  ⟨_, _, rfl, PlacesKept.l1Clear s x.g.core _ _, (MemoryOnly.l1Clear s x.g.core _ _).dies, rfl, rfl, rfl, rfl, rfl, rfl, rfl, rfl, rfl⟩

/-- The engine of a request to a home address is that of its home die. -/
theorem State.sendAtom_atoms {s : State} {x : Ex} {o : EOps} {id lane : Nat} {p : Piece} {c : Nat} (h : s.place p.m.pa = .mem c) :
    ∃ q : AtomReq, ((s.sendAtom x o id lane p).die (homeDie c)).atoms = (s.die (homeDie c)).atoms ++ [q] ∧ q.Asks x o id lane p.m.pa := by
  obtain ⟨u, q, hsend, hplace, hdies, hasks⟩ := s.sendAtom_enters x o id lane p
  have hengine : u.engineOf p.m.pa x.g.core = homeDie c := by rw [State.engineOf, hplace, h]
  have hdie : u.die (homeDie c) = s.die (homeDie c) := by
    rw [State.die, hdies]
    rfl
  exact ⟨q, by rw [hsend, hengine, State.die_modDie, hdie], hasks⟩

/-! ### The requests at the ports of an engine (R299, R313) -/

theorem Die.atPort_iff {d : Die} {before : List AtomReq} {q : AtomReq} :
    d.atPort before q = true ↔ ∀ r ∈ before, d.slice r.addr ≠ d.slice q.addr := by
  simp [Die.atPort]

section
variable {d : Die} {ok : AtomReq → Bool} {acc : List AtomReq}

/-- The first request at its port that meets a test. -/
theorem Die.pick_append {before : List AtomReq} {q : AtomReq} (after : List AtomReq)
    (hb : ∀ b p e, before = b ++ p :: e → (d.atPort (acc ++ b) p && ok p) = false) (hq : (d.atPort (acc ++ before) q && ok q) = true) :
    d.pick ok acc (before ++ q :: after) = some (acc ++ before, q, after) := by
  induction before generalizing acc with
  | nil =>
    rw [List.append_nil] at hq ⊢
    exact if_pos hq
  | cons p t ih =>
    have hp := hb [] p t rfl
    rw [List.append_nil] at hp
    refine (if_neg (by rw [hp]; exact Bool.false_ne_true)).trans ((ih (fun b r e ht => ?_) (by simpa using hq)).trans (by simp))
    simpa using hb (p :: b) r e (by rw [ht]; rfl)

theorem Die.pick_none {l : List AtomReq} (h : ∀ b p e, l = b ++ p :: e → (d.atPort (acc ++ b) p && ok p) = false) :
    d.pick ok acc l = none := by
  induction l generalizing acc with
  | nil => rfl
  | cons p t ih =>
    have hp := h [] p t rfl
    rw [List.append_nil] at hp
    refine (if_neg (by rw [hp]; exact Bool.false_ne_true)).trans (ih fun b r e ht => ?_)
    simpa using h (p :: b) r e (by rw [ht]; rfl)

theorem Die.pick_isSome {before : List AtomReq} {q : AtomReq} (after : List AtomReq) (hq : (d.atPort (acc ++ before) q && ok q) = true) :
    (d.pick ok acc (before ++ q :: after)).isSome = true := by
  induction before generalizing acc with
  | nil =>
    rw [List.append_nil] at hq
    exact (congrArg Option.isSome (if_pos hq)).trans rfl
  | cons p t ih =>
    by_cases hp : (d.atPort acc p && ok p) = true
    · exact (congrArg Option.isSome (if_pos hp)).trans rfl
    · exact (congrArg Option.isSome (if_neg hp)).trans (ih (by simpa using hq))

/-- The requests that stand first at their ports and meet the test are changed, and no other. -/
theorem Die.mapPorts_getElem? {f : AtomReq → AtomReq} {before : List AtomReq} {q : AtomReq} (after : List AtomReq) :
    (d.mapPorts ok f acc (before ++ q :: after))[before.length]? = some (if d.atPort (acc ++ before) q && ok q then f q else q) := by
  induction before generalizing acc with
  | nil =>
    rw [List.append_nil]
    rfl
  | cons p t ih =>
    refine Eq.trans (b := (d.mapPorts ok f (acc ++ [p]) (t ++ q :: after))[t.length]?) rfl (ih.trans ?_)
    rw [List.append_assoc]
    rfl

end

/-! ### What a request that is performed leaves (R313, R318) -/

/-- Neither memory nor the L2s nor the dies differ. -/
structure OffHome (s t : State) : Prop where
  mem : t.mem = s.mem
  l2 : t.l2 = s.l2
  dies : t.dies = s.dies

namespace OffHome

variable {s t u : State}

theorem refl (s : State) : OffHome s s := ⟨rfl, rfl, rfl⟩

theorem trans (h : OffHome s t) (k : OffHome t u) : OffHome s u := ⟨k.mem.trans h.mem, k.l2.trans h.l2, k.dies.trans h.dies⟩

theorem of_cores (h : CoresOnly s t) : OffHome s t := by
  rw [h]
  exact ⟨rfl, rfl, rfl⟩

theorem modGroup (s : State) (n : Nat) (f : Group → Group) : OffHome s (s.modGroup n f) := ⟨rfl, rfl, rfl⟩

theorem foldl {α : Type} {f : State → α → State} (hf : ∀ s a, OffHome s (f s a)) (l : List α) (s : State) : OffHome s (l.foldl f s) := by
  induction l generalizing s with
  | nil => exact refl s
  | cons a l ih => exact (hf s a).trans (ih _)

theorem homeByte (h : OffHome s t) (a : Nat) : t.homeByte a = s.homeByte a := by
  rw [State.homeByte, State.homeByte, h.mem, h.l2]

/-- Only clean blocks leave an L1. -/
theorem acquire (s : State) (core scope : Nat) : OffHome s (s.acquire core scope) := by
  unfold State.acquire
  split
  · exact refl s
  · refine (of_cores (State.l1Leave_clean fun b hb => ?_)).trans ⟨rfl, rfl, rfl⟩
    simpa using (List.mem_filter.1 hb).2

theorem l1DropClean (s : State) (core : Nat) (hit : Nat → Bool) : OffHome s (s.l1DropClean core hit) := by
  refine trans (t := s.modCore core _) ⟨rfl, rfl, rfl⟩ (of_cores (State.l1Leave_clean fun b hb => ?_))
  simpa using (Bool.and_eq_true_iff.1 (List.mem_filter.1 hb).2).2

theorem settleAt (s : State) (gid : Nat) : OffHome s (s.settleAt gid) := by
  unfold State.settleAt
  split
  · exact refl s
  · refine foldl (fun s f => trans ?_ (modGroup _ _ _)) _ s
    split
    · exact acquire s _ _
    · exact refl s

/-- A part of an operation returns to a group that is not evicted, whose registers are in no frame. -/
theorem returnPart {s : State} {gid : Nat} (h : ∀ g, s.group gid = some g → g.res ≠ .evicted) (flight : Nat) (ws : List RegWrite) (fl : Flags) :
    OffHome s (s.returnPart gid flight ws fl) := by
  unfold State.returnPart
  split
  next => exact refl s
  next g hg =>
    split
    next => exact refl s
    next f hf =>
      have hframe : ∀ t : State, t.frameWrites g ws = t := fun t => if_pos (h g hg)
      dsimp only
      rw [hframe]
      split
      · refine trans ?_ (settleAt _ gid)
        exact ⟨rfl, rfl, rfl⟩
      · exact ⟨rfl, rfl, rfl⟩

theorem atomReply {s : State} {q : AtomReq} (h : ∀ g, s.group q.gid = some g → g.res ≠ .evicted) (old : Dword) (fl : Flags) :
    OffHome s (s.atomReply q old fl) := by
  unfold State.atomReply
  split
  · exact ⟨rfl, rfl, rfl⟩
  · exact returnPart h _ _ _

end OffHome

theorem MemoryOnly.l2Fills (s : State) (pa n : Nat) : MemoryOnly s (s.l2Fills pa n) :=
  MemoryOnly.foldl (fun s a => by
    split
    · exact MemoryOnly.l2Fill s _ _
    · exact MemoryOnly.refl s) _ s

theorem State.l2Fills_pkg (s : State) (pa n : Nat) : (s.l2Fills pa n).pkg = s.pkg :=
  foldl_keeps _ State.pkg (fun a _ s => by
    split
    · exact s.l2Fill_pkg _ _
    · rfl) s

theorem Die.note_atoms (d : Die) (q : AtomReq) : (d.note q).atoms = d.atoms := by
  unfold Die.note
  cases q.release with
  | none =>
    dsimp only
    split <;> rfl
  | some sc =>
    dsimp only
    split_ifs <;> rfl

/-- A byte of an atomic's target behind the operation: one of the new value, or, where nothing is written, the old byte. -/
def atomByte (n : Nat) (v : Option Dword) (k : Nat) (old : Byte) : Byte :=
  match v with
  | some v => (natToBytes n v.toNat).getD k 0
  | none => old

section
variable {s : State} {q : AtomReq} {c : Nat} (hp : ∀ k, k < atomBytes q.w64 → s.place (q.addr + k) = .mem (c + k))
include hp

theorem atomPlace : s.place q.addr = .mem c := hp 0 (by unfold atomBytes; split <;> decide)

/-- The value at a home address (R313). -/
theorem State.atomOld_home : s.atomOld q =
    (BitVec.ofNat 64 (bytesToNat ((List.range (atomBytes q.w64)).map fun k => s.homeByte (c + k))), s.l2Fills q.addr (atomBytes q.w64)) := by
  rw [State.atomOld, atomPlace hp]
  dsimp only
  rw [State.homeRead_bytes hp, State.homeRead_near hp]

theorem State.atomPut_eq (v : Option Dword) : s.atomPut q v = match v with
    | some v => s.homeWrite q.addr ((natToBytes (atomBytes q.w64) v.toNat).map some) q.cmp
    | none => s := by
  unfold State.atomPut
  rw [atomPlace hp]
  cases v <;> rfl

/-- What a request writes at a home address: the bytes of the new value, if there is one, and no other. -/
theorem State.homeByte_atomPut (hs : HomeSound s) (v : Option Dword) (a : Nat) : (s.atomPut q v).homeByte a =
    if c ≤ a ∧ a < c + atomBytes q.w64 then atomByte (atomBytes q.w64) v (a - c) (s.homeByte a) else s.homeByte a := by
  rw [State.atomPut_eq hp]
  cases v with
  | none => exact (ite_self _).symm
  | some v =>
    dsimp only
    rw [State.homeWrite_near (atomPlace hp), hs.homeByte_homePuts (c := c) q.cmp (by rwa [natToBytes_length]), natToBytes_length]
    rfl

theorem State.atomPut_home (v : Option Dword) : MemoryOnly s (s.atomPut q v) := by
  rw [State.atomPut_eq hp]
  cases v with
  | none => exact MemoryOnly.refl s
  | some v => exact MemoryOnly.homeWrite s _ _ _

end

/-- The state in which a request has left its port. -/
def State.atomTaken (s : State) (die : Nat) (q : AtomReq) (rest : List AtomReq) : State :=
  s.modDie die fun d =>
    let d := { d with atoms := rest, opSeq := d.opSeq + 1 }
    if s.atomAway q then d else d.note q

theorem State.atomTaken_atoms (s : State) (die : Nat) (q : AtomReq) (rest : List AtomReq) :
    ((s.atomTaken die q rest).die die).atoms = rest := by
  rw [State.atomTaken, State.die_modDie]
  dsimp only
  split
  · rfl
  · exact Die.note_atoms _ q

theorem State.atomPerform_eq (s : State) (die : Nat) (q : AtomReq) (rest : List AtomReq) : s.atomPerform die q rest =
    let t := s.atomTaken die q rest
    if t.poisoned q.addr (atomBytes q.w64) then (t.atomFatal q).reports q.addr (atomBytes q.w64)
    else
      let r := t.atomOld q
      let n := atomNew q.op q.w64 r.1 q.b q.c
      let w := (r.2.atomPut q n.1).atomReply q r.1 n.2
      if q.core / 320 = w.pkg.pkgid then w.l1DropClean (q.core % 320) fun a => a / 32 == q.addr / 32 else w := rfl

section
variable {s : State} {die : Nat} {q : AtomReq} {rest : List AtomReq} {c : Nat}
  (hp : ∀ k, k < atomBytes q.w64 → s.place (q.addr + k) = .mem (c + k)) (hs : HomeSound s)
  (hpo : s.poisoned q.addr (atomBytes q.w64) = false) (hg : ∀ g, s.group q.gid = some g → g.res ≠ .evicted)
include hp hs hpo hg

/-- What a request that is performed at a home address leaves there, and at its engine (R313). -/
theorem State.atomPerform_home :
    let old : Dword := BitVec.ofNat 64 (bytesToNat ((List.range (atomBytes q.w64)).map fun k => s.homeByte (c + k)))
    ((s.atomPerform die q rest).die die).atoms = rest ∧ ∀ a, (s.atomPerform die q rest).homeByte a =
      if c ≤ a ∧ a < c + atomBytes q.w64 then
        atomByte (atomBytes q.w64) (atomNew q.op q.w64 old q.b q.c).1 (a - c) (s.homeByte a)
      else s.homeByte a := by
  intro old
  have hpt : ∀ k, k < atomBytes q.w64 → (s.atomTaken die q rest).place (q.addr + k) = .mem (c + k) := hp
  have hold : (s.atomTaken die q rest).atomOld q = (old, (s.atomTaken die q rest).l2Fills q.addr (atomBytes q.w64)) := State.atomOld_home hpt
  generalize hread : (s.atomTaken die q rest).l2Fills q.addr (atomBytes q.w64) = u at hold
  have hmem : MemoryOnly (s.atomTaken die q rest) u := hread ▸ MemoryOnly.l2Fills _ _ _
  obtain ⟨hsound, hbytes⟩ : HomeSound u ∧ ∀ a, u.homeByte a = s.homeByte a := hread ▸ KeepsHome.l2Fills _ _ _ hs
  have hpu : ∀ k, k < atomBytes q.w64 → u.place (q.addr + k) = .mem (c + k) := fun k hk => by
    rw [← hread, State.place_congr (State.l2Fills_pkg _ _ _)]
    exact hpt k hk
  have hput := State.atomPut_home hpu (atomNew q.op q.w64 old q.b q.c).1
  generalize hv : u.atomPut q (atomNew q.op q.w64 old q.b q.c).1 = v at hput
  have hgv : ∀ g, v.group q.gid = some g → g.res ≠ .evicted := fun g h => by
    rw [hput.group, hmem.group] at h
    exact hg g h
  have hreply := OffHome.atomReply hgv old (atomNew q.op q.w64 old q.b q.c).2
  generalize hw : v.atomReply q old (atomNew q.op q.w64 old q.b q.c).2 = w at hreply
  have hperform : s.atomPerform die q rest =
      if q.core / 320 = w.pkg.pkgid then w.l1DropClean (q.core % 320) fun a => a / 32 == q.addr / 32 else w := by
    have hclear : (s.atomTaken die q rest).poisoned q.addr (atomBytes q.w64) = false := hpo
    rw [State.atomPerform_eq]
    refine (if_neg (by rw [hclear]; exact Bool.false_ne_true)).trans ?_
    rw [hold]
    dsimp only
    rw [hv, hw]
  have hend : OffHome v (s.atomPerform die q rest) := by
    rw [hperform]
    split
    · exact hreply.trans (OffHome.l1DropClean w _ _)
    · exact hreply
  refine ⟨?_, fun a => (hend.homeByte a).trans ?_⟩
  · refine Eq.trans (congrArg Die.atoms ?_) (State.atomTaken_atoms s die q rest)
    exact congrArg (KV.get {} · die) (hend.dies.trans (hput.dies.trans hmem.dies))
  · rw [← hv, State.homeByte_atomPut hpu hsound, hbytes]

end

/-! ### ATOMIC_EXECUTE and PROMOTION_REQUEST (R299, R313) -/

section
variable {s : State} {die : Nat}

/-- A request stands behind another at its port, or waits for a core. -/
def State.held (s : State) (d : Die) (before : List AtomReq) (q : AtomReq) : Prop :=
  (∃ r ∈ before, d.slice r.addr = d.slice q.addr) ∨ s.atomWaits d q ≠ none

theorem State.not_held_iff {d : Die} {before : List AtomReq} {q : AtomReq} :
    ¬ s.held d before q ↔ (d.atPort before q && (s.atomWaits d q).isNone) = true := by
  simp [State.held, Die.atPort_iff]

theorem execAtomicExecute_idle (h : ∀ before q after, (s.die die).atoms = before ++ q :: after → s.held (s.die die) before q ∧
    ∀ k, s.atomWaits (s.die die) q = some k → k / 320 = s.pkg.pkgid ∨ q.asked = true) : execAtomicExecute die s = .next s := by
  have hready : (s.die die).pick (fun q => (s.atomWaits (s.die die) q).isNone) [] (s.die die).atoms = none :=
    Die.pick_none fun b p e hsplit => Bool.eq_false_iff.2 fun hfirst => State.not_held_iff.2 hfirst (h b p e hsplit).1
  have hfar : (s.die die).pick (fun q => !q.asked && (s.atomWaits (s.die die) q).any fun k => k / 320 != s.pkg.pkgid) []
      (s.die die).atoms = none := by
    refine Die.pick_none fun b p e hsplit => ?_
    obtain ⟨-, hwaits⟩ := h b p e hsplit
    cases hw : s.atomWaits (s.die die) p with
    | none => simp
    | some k => obtain hk | hasked := hwaits k hw <;> simp [*]
  rw [execAtomicExecute]
  dsimp only
  rw [hready, hfar]

theorem execAtomicExecute_performs {before after : List AtomReq} {q : AtomReq} (hd : (s.die die).atoms = before ++ q :: after)
    (hb : ∀ b p e, before = b ++ p :: e → s.held (s.die die) b p) (hq : ¬ s.held (s.die die) before q) :
    execAtomicExecute die s = .next (s.atomPerform die q (before ++ after)) := by
  have hpick : (s.die die).pick (fun q => (s.atomWaits (s.die die) q).isNone) [] (s.die die).atoms = some (before, q, after) := by
    rw [hd]
    refine Die.pick_append after (fun b p e hsplit => Bool.eq_false_iff.2 fun hfirst => ?_) (State.not_held_iff.1 hq)
    exact State.not_held_iff.2 hfirst (hb b p e hsplit)
  rw [execAtomicExecute]
  dsimp only
  rw [hpick]

/-- A request that stands first at its port waits for a core of this package. -/
def State.asksFor (s : State) (core : Nat) (d : Die) (before : List AtomReq) (q : AtomReq) : Prop :=
  (∀ r ∈ before, d.slice r.addr ≠ d.slice q.addr) ∧ s.atomWaits d q = some (320 * s.pkg.pkgid + core)

theorem State.asksFor_iff {core : Nat} {d : Die} {before : List AtomReq} {q : AtomReq} :
    s.asksFor core d before q ↔ (d.atPort before q && s.atomFor core d q) = true := by
  simp [State.asksFor, State.atomFor, Die.atPort_iff]

theorem execPromotionRequest_idle {core : Nat}
    (h : ∀ e ∈ s.dies, ∀ before q after, e.2.atoms = before ++ q :: after → ¬ s.asksFor core e.2 before q) :
    execPromotionRequest core s = .next s := by
  refine congrArg _ (if_neg fun hany => ?_)
  obtain ⟨e, he, hsome⟩ := List.any_eq_true.1 hany
  have hnone : e.2.pick (s.atomFor core e.2) [] e.2.atoms = none :=
    Die.pick_none fun b p t hsplit => Bool.eq_false_iff.2 fun hfirst => h e he b p t hsplit (State.asksFor_iff.2 hfirst)
  rw [hnone] at hsome
  cases hsome

/-- A core acknowledges a promotion: the requests that have asked for it wait for it no longer. -/
def State.promoted (s : State) (core : Nat) : State :=
  { s.release core 4 with dies := (s.release core 4).dies.map fun _ d =>
      { d with atoms := d.mapPorts (s.atomFor core d) (fun q => { q with promoted := true }) [] d.atoms } }

theorem execPromotionRequest_promotes {core : Nat}
    (h : ∃ e ∈ s.dies, ∃ before q after, e.2.atoms = before ++ q :: after ∧ s.asksFor core e.2 before q) :
    execPromotionRequest core s = .next (s.promoted core) := by
  obtain ⟨e, he, before, q, after, hsplit, hasks⟩ := h
  refine congrArg _ (if_pos (List.any_eq_true.2 ⟨e, he, ?_⟩))
  rw [hsplit]
  exact Die.pick_isSome after (State.asksFor_iff.1 hasks)

theorem State.promoted_written (s : State) (core : Nat) : ∀ b ∈ ((s.promoted core).core core).l1, b.dirty ≠ 0 → b.scope ≠ 1 :=
  State.release_written s core (by decide)

theorem State.promoted_atoms {core n : Nat} {d : Die} {before after : List AtomReq} {q : AtomReq} (hf : s.dies.find n = some d)
    (hd : d.atoms = before ++ q :: after) : ((s.promoted core).die n).atoms[before.length]? =
      some (if d.atPort before q && s.atomFor core d q then { q with promoted := true } else q) := by
  have hdie : ((s.promoted core).die n).atoms = d.mapPorts (s.atomFor core d) (fun q => { q with promoted := true }) [] d.atoms := by
    rw [State.die, State.promoted, KV.get]
    dsimp only
    rw [KV.find_map, (MemoryOnly.release s core 4).dies, hf]
    rfl
  rw [hdie, hd]
  exact Die.mapPorts_getElem? after

end

/-! ### The operations (R318) -/

theorem atomInt_min (o b c : Word) : ∃ v : Word, atomInt 5 o b c = some v ∧ v.toInt = min o.toInt b.toInt := by
  refine ⟨_, rfl, ?_⟩
  by_cases h : o.toInt < b.toInt
  · rw [if_pos (BitVec.slt_iff_toInt_lt.2 h), min_eq_left h.le]
  · rw [if_neg fun hs => h (BitVec.slt_iff_toInt_lt.1 hs), min_eq_right (not_lt.1 h)]

theorem atomInt_max (o b c : Word) : ∃ v : Word, atomInt 6 o b c = some v ∧ v.toInt = max o.toInt b.toInt := by
  refine ⟨_, rfl, ?_⟩
  by_cases h : o.toInt < b.toInt
  · rw [if_pos (BitVec.slt_iff_toInt_lt.2 h), max_eq_right h.le]
  · rw [if_neg fun hs => h (BitVec.slt_iff_toInt_lt.1 hs), max_eq_left (not_lt.1 h)]

theorem atomInt_minu (o b c : Word) : ∃ v : Word, atomInt 7 o b c = some v ∧ v.toNat = min o.toNat b.toNat := by
  refine ⟨_, rfl, ?_⟩
  by_cases h : o.toNat < b.toNat
  · rw [if_pos (BitVec.ult_iff_lt.2 h), min_eq_left h.le]
  · rw [if_neg fun hs => h (BitVec.ult_iff_lt.1 hs), min_eq_right (not_lt.1 h)]

theorem atomInt_maxu (o b c : Word) : ∃ v : Word, atomInt 8 o b c = some v ∧ v.toNat = max o.toNat b.toNat := by
  refine ⟨_, rfl, ?_⟩
  by_cases h : o.toNat < b.toNat
  · rw [if_pos (BitVec.ult_iff_lt.2 h), max_eq_right h.le]
  · rw [if_neg fun hs => h (BitVec.ult_iff_lt.1 hs), max_eq_left (not_lt.1 h)]

theorem atomInt_inc (o b c : Word) : atomInt 11 o b c = some (if o.toNat < b.toNat then o + 1 else 0) := by
  refine congrArg some ?_
  by_cases h : o.toNat < b.toNat
  · rw [if_pos h, if_neg fun hle => (BitVec.ule_iff_le.1 hle).not_gt h]
  · rw [if_neg h, if_pos (BitVec.ule_iff_le.2 (not_lt.1 h))]

theorem atomInt_dec (o b c : Word) : atomInt 12 o b c = some (if 0 < o.toNat ∧ o.toNat ≤ b.toNat then o - 1 else b) := by
  refine congrArg some ?_
  have hzero : o = 0 ↔ o.toNat = 0 := ⟨fun h => by rw [h]; rfl, fun h => BitVec.eq_of_toNat_eq h⟩
  by_cases h : 0 < o.toNat ∧ o.toNat ≤ b.toNat
  · rw [if_pos h, if_neg]
    rw [hzero, BitVec.ult_iff_lt, BitVec.lt_def]
    omega
  · rw [if_neg h, if_pos]
    rw [hzero, BitVec.ult_iff_lt, BitVec.lt_def]
    omega

/-- Settles O31: ATOM and RED by their checks, an engine by the first request that it may perform, promotion by what the release
writes back. -/
theorem atomics : Obligations.Atomics := by
  unfold Obligations.Atomics
  refine ⟨fun s x o i hx hi => ?issue, fun s x o id lane p c h => ?send, fun s die => ⟨execAtomicExecute_idle,
    fun before q after c hd hb hq hp hs hpo hg => ?perform⟩, fun s core => ⟨execPromotionRequest_idle, fun h =>
    ⟨_, execPromotionRequest_promotes h, s.promoted_written core, fun n d before q after hf hd => ?promote⟩⟩, fun o b c => ?operations⟩
  case issue =>
    have hexec : exec i s = atomGlobal o s := by obtain rfl | rfl := hi <;> rfl
    rw [hexec]
    exact ⟨atomGlobal_refused hx, atomGlobal_odd hx, atomGlobal_sends hx⟩
  case send =>
    obtain ⟨q, hatoms, hasks⟩ := State.sendAtom_atoms h
    exact ⟨q, hatoms, hasks.gid, hasks.flight, hasks.addr, hasks.op, hasks.w64, hasks.lane, hasks.rmt, hasks.promoted, hasks.reply⟩
  case perform =>
    obtain ⟨hatoms, hbytes⟩ := State.atomPerform_home (die := die) (rest := before ++ after) hp hs.home hpo hg
    refine ⟨_, execAtomicExecute_performs hd hb hq, hatoms, fun a ha => (hbytes a).trans (if_neg (by omega)), fun k hk =>
      (hbytes (c + k)).trans ((if_pos (by omega)).trans ?_)⟩
    rw [Nat.add_sub_cancel_left]
    rfl
  case promote =>
    have hatoms := State.promoted_atoms (core := core) hf hd
    exact ⟨fun hasks => hatoms.trans (congrArg some (if_pos (State.asksFor_iff.1 hasks))), fun hasks =>
      hatoms.trans (congrArg some (if_neg fun hfirst => hasks (State.asksFor_iff.2 hfirst)))⟩
  case operations =>
    exact ⟨rfl, rfl, rfl, rfl, rfl, atomInt_min o b c, atomInt_max o b c, atomInt_minu o b c, atomInt_maxu o b c, rfl,
      fun h => if_pos h, fun h => if_neg h, atomInt_inc o b c, atomInt_dec o b c⟩

end Sys2Proof.Machine
end

section
/-! Settles O29 (GlobalAccesses): LD, LDC, ST, PREF and TEX (R239–R243, R245). -/

namespace Sys2Proof.Machine

/-! ### LD and LDC (R239, R243) -/

/-- The one read of LDC, and of LD with a scalar D, and the registers that receive it. -/
def State.loadAll (x : Ex) (o : MOps) (u : State) (_ _ : Nat) (ps : List Piece) : Done :=
  let r := u.readPieces x (Policy.ofCode o.cp.toNat) ps
  ⟨r.st, if isVec o.d then x.list.flatMap fun l => loadWrites o.d o.sz l r.bytes else loadWrites o.d o.sz 0 r.bytes, r.bad⟩

/-- The read of a lane of LD, and the registers of the lane that receive it. -/
def State.loadLane (x : Ex) (o : MOps) (u : State) (_ l : Nat) (ps : List Piece) : Done :=
  let r := u.readPieces x (Policy.ofCode o.cp.toNat) ps
  ⟨r.st, loadWrites o.d o.sz l r.bytes, r.bad⟩

section
variable {s : State} {x : Ex} {o : MOps} (hx : s.ex? = some x)
include hx

theorem execLd_refused (hb : badBase x.g o.a = true ∨ 0xF0 ≤ o.d.toNat ∨ badSpan x.g o.d (szBytes o.sz) = true ∨
    (isScalar o.d = true ∧ isVec o.a = true)) : execLd o s = .next (s.illegal x) :=
  (withEx_eq hx _).trans (congrArg _ (if_pos (by simpa [or_assoc] using hb)))

section
variable (hb : ¬ (badBase x.g o.a = true ∨ 0xF0 ≤ o.d.toNat ∨ badSpan x.g o.d (szBytes o.sz) = true ∨
  (isScalar o.d = true ∧ isVec o.a = true)))
include hb

theorem execLd_lanes (hd : isScalar o.d = false) :
    Accesses (.ld o) s x .vl .read (sized (szBytes o.sz) (s.laneAddrs x o)) (State.loadLane x o) :=
  accesses_of ((withEx_eq hx _).trans (congrArg _ ((if_neg (by simpa [or_assoc] using hb)).trans
    (if_neg (by rw [hd]; exact Bool.false_ne_true)))))

theorem execLd_once (hd : isScalar o.d = true) :
    Accesses (.ld o) s x .vl .read (sized (szBytes o.sz) (s.onceAddr x o)) (State.loadAll x o) (if isVec o.d then x.list else []) :=
  accesses_of ((withEx_eq hx _).trans (congrArg _ ((if_neg (by simpa [or_assoc] using hb)).trans (if_pos hd))))

end

theorem execLdc_refused (hb : x.g.isQueue = true ∨ badBase x.g o.a = true ∨ isVec o.a = true ∨ 0xF1 ≤ o.d.toNat ∨
    (o.d ≠ 0xF0 ∧ badSpan x.g o.d (szBytes o.sz) = true)) : execLdc o s = .next (s.illegal x) :=
  (withEx_eq hx _).trans (congrArg _ (if_pos (by simpa [or_assoc] using hb)))

theorem execLdc_once (hb : ¬ (x.g.isQueue = true ∨ badBase x.g o.a = true ∨ isVec o.a = true ∨ 0xF1 ≤ o.d.toNat ∨
    (o.d ≠ 0xF0 ∧ badSpan x.g o.d (szBytes o.sz) = true))) :
    Accesses (.ldc o) s x .vl .read (sized (szBytes o.sz) (s.onceAddr x o)) (State.loadAll x o) (if isVec o.d then x.list else []) :=
  accesses_of ((withEx_eq hx _).trans (congrArg _ (if_neg (by simpa [or_assoc] using hb))))

/-! ### ST (R240, R243) -/

theorem execSt_refused (hb : badBase x.g o.a = true ∨ (o.d.toNat < 0xF0 ∧ badSpan x.g o.d (szBytes o.sz) = true) ∨
    (x.g.isQueue = true ∧ isUniform o.d = false)) : execSt o s = .next (s.illegal x) :=
  (withEx_eq hx _).trans (congrArg _ (if_pos (by simpa [or_assoc] using hb)))

theorem execSt_lanes (hb : ¬ (badBase x.g o.a = true ∨ (o.d.toNat < 0xF0 ∧ badSpan x.g o.d (szBytes o.sz) = true) ∨
    (x.g.isQueue = true ∧ isUniform o.d = false))) :
    Accesses (.st o) s x .vs .write (sized (szBytes o.sz) (s.laneAddrs x o)) fun u _ l ps => ⟨u.storeLane x o l ps, [], false⟩ :=
  accesses_of ((withEx_eq hx _).trans (congrArg _ (if_neg (by simpa [or_assoc] using hb))))

end

section
variable {u : State} {x : Ex} {o : MOps} {l : Nat} {ps : List Piece}

/-- At the first issue of an ST no higher lane has written before. -/
theorem State.storeLane_first (h : x.sp.openOp = none) :
    u.storeLane x o l ps = u.writePieces x (Policy.ofCode o.cp.toNat) ps (u.storeBytes x o l) := by
  have hover : ∀ a, u.wroteAbove x o l a = false := fun a => by rw [State.wroteAbove, h]; rfl
  refine if_pos (List.filter_eq_nil_iff.2 fun i _ => ?_)
  rw [hover]
  exact Bool.false_ne_true

theorem addOff_lt (w a : Nat) (off : Int) : addOff w a off < 2 ^ w := by
  have hpos : (0 : Int) < 2 ^ w := by positivity
  have hlt := Int.emod_lt_of_pos ((a : Int) + off) hpos
  have hnonneg := Int.emod_nonneg ((a : Int) + off) hpos.ne'
  rw [addOff]
  zify
  rwa [Int.toNat_of_nonneg hnonneg]

/-- A byte of a lane's store that a higher lane with the same address has stored. -/
theorem State.wroteAbove_same (hop : x.sp.openOp ≠ none) {h i : Nat} (hl : l < h) (h64 : h < 64) (hm : x.sp.mask.getLsbD h = true)
    (hnot : x.lanes.getLsbD h = false) (hsame : u.readSrc x o.lit .i64 o.a h = u.readSrc x o.lit .i64 o.a l) (hi : i < szBytes o.sz) :
    u.wroteAbove x o l ((addOff 52 (u.readSrc x o.lit .i64 o.a l).toNat (memOffset o) + i) % 2 ^ 52) = true := by
  have hmem : h ∈ laneList (x.sp.mask &&& ~~~x.lanes) 64 := mem_laneList.2 ⟨h64, by
    rw [BitVec.getLsbD_and, BitVec.getLsbD_not, hm, hnot, decide_eq_true h64]
    rfl⟩
  have hsz := (szBytes_bounds o.sz).2
  have hb := addOff_lt 52 (u.readSrc x o.lit .i64 o.a l).toNat (memOffset o)
  rw [State.wroteAbove, Bool.and_eq_true, Option.isSome_iff_ne_none]
  refine ⟨hop, List.any_eq_true.2 ⟨h, hmem, ?_⟩⟩
  rw [hsame, Bool.and_eq_true, decide_eq_true_eq, decide_eq_true_eq]
  generalize addOff 52 (u.readSrc x o.lit .i64 o.a l).toNat (memOffset o) = b at hb ⊢
  refine ⟨hl, ?_⟩
  omega

/-- A lane writes nothing whose every byte a higher lane has stored (R240). -/
theorem State.storeLane_covered (hop : x.sp.openOp ≠ none) {h : Nat} (hl : l < h) (h64 : h < 64) (hm : x.sp.mask.getLsbD h = true)
    (hnot : x.lanes.getLsbD h = false) (hsame : u.readSrc x o.lit .i64 o.a h = u.readSrc x o.lit .i64 o.a l) : u.storeLane x o l ps = u := by
  have hpos := (szBytes_bounds o.sz).1
  have hover : (List.range (u.storeBytes x o l).length).filter (fun i => u.wroteAbove x o l
      ((addOff 52 (u.readSrc x o.lit .i64 o.a l).toNat (memOffset o) + i) % 2 ^ 52)) = List.range (szBytes o.sz) := by
    rw [State.length_storeBytes]
    exact List.filter_eq_self.2 fun i hi => State.wroteAbove_same hop hl h64 hm hnot hsame (List.mem_range.1 hi)
  have hnone : (u.storeBytes x o l).zipIdx.filter (fun e => !(List.range (szBytes o.sz)).contains e.2) = [] := by
    refine List.filter_eq_nil_iff.2 fun e he => ?_
    have hlt := List.snd_lt_of_mem_zipIdx he
    rw [Nat.add_zero, State.length_storeBytes] at hlt
    simpa using hlt
  rw [State.storeLane, hover, hnone, if_neg (by simp [hpos.ne'])]
  rfl

end

/-! ### What reads leave of groups, blocks and clean L1s (R217, R242) -/

/-- No block of an L1 is dirty. -/
def Core.Clean (c : Core) : Prop := ∀ b ∈ c.l1, b.dirty = 0

/-- Groups and blocks stand as they stood, and, where the core's L1 is clean, it stays so and no byte of memory changes. -/
structure ReadKept (core : Nat) (s t : State) : Prop where
  groups : t.groups = s.groups
  blocks : t.blocks = s.blocks
  drains : ∀ g, t.drains g = s.drains g
  clean : (s.core core).Clean → (t.core core).Clean ∧ KeepsHome s t

namespace ReadKept

variable {core : Nat} {s t u : State}

theorem refl (s : State) : ReadKept core s s := ⟨rfl, rfl, fun _ => rfl, fun h => ⟨h, KeepsHome.refl s⟩⟩

theorem trans (h : ReadKept core s t) (k : ReadKept core t u) : ReadKept core s u := by
  refine ⟨k.groups.trans h.groups, k.blocks.trans h.blocks, fun g => (k.drains g).trans (h.drains g), fun hs => ?_⟩
  obtain ⟨ht, hst⟩ := h.clean hs
  obtain ⟨hu, htu⟩ := k.clean ht
  exact ⟨hu, hst.trans htu⟩

theorem of_memory (hm : MemoryOnly s t) (hc : (s.core core).Clean → (t.core core).Clean ∧ KeepsHome s t) : ReadKept core s t :=
  ⟨hm.groups, hm.blocks, hm.drains, hc⟩

theorem modCore (s : State) (core : Nat) {f : Core → Core} (hf : (s.core core).Clean → (f (s.core core)).Clean) :
    ReadKept core s (s.modCore core f) :=
  of_memory (MemoryOnly.modCore s core f) fun h => ⟨by rw [State.core_modCore]; exact hf h, KeepsHome.of_same rfl rfl⟩

theorem count (s : State) (core ev : Nat) : ReadKept core s (s.count core ev) := modCore s core id

theorem reports (s : State) (pa n : Nat) : ReadKept core s (s.reports pa n) := by
  unfold State.reports
  split
  · exact ⟨rfl, rfl, fun _ => rfl, fun h => ⟨h, KeepsHome.of_same rfl rfl⟩⟩
  · exact refl s

theorem homeRead (s : State) (pa n : Nat) : ReadKept core s (s.homeRead pa n).2 := by
  refine of_memory ?_ fun h => ⟨by rw [State.homeRead_core]; exact h, KeepsHome.homeRead s pa n⟩
  obtain hfar | hnear := s.homeRead_state pa n
  · rw [hfar]
    rfl
  · rw [hnear]
    exact MemoryOnly.l2Fills s pa n

theorem clean_map {c : Core} {f : L1Block → L1Block} (h : c.Clean) (hf : ∀ b : L1Block, b.dirty = 0 → (f b).dirty = 0) :
    Core.Clean { c with l1 := c.l1.map f } := fun b hb => by
  obtain ⟨k, hk, rfl⟩ := List.mem_map.1 hb
  exact hf k (h k hk)

theorem clean_l1Refresh {c : Core} (h : c.Clean) (a n : Nat) : (c.l1Refresh a n).Clean :=
  clean_map h fun b hb => by split <;> exact hb

theorem clean_l1Touch {c : Core} (h : c.Clean) (a n : Nat) (first : Bool) : (c.l1Touch a n first id).Clean := fun b hb => by
  obtain ⟨k, hk, -, rfl⟩ | ⟨hb, -⟩ := Core.mem_l1Touch.1 hb
  · exact h k hk
  · exact h b hb

theorem l1Touch (s : State) (core a n : Nat) (first : Bool) : ReadKept core s (s.modCore core fun c => c.l1Touch a n first id) :=
  modCore s core fun h => clean_l1Touch h a n first

/-- From a clean L1 only clean blocks leave, and a new block is empty. -/
theorem l1Alloc (s : State) (core a idx z : Nat) (cmp first : Bool) : ReadKept core s (s.l1Alloc core a idx z cmp first) := by
  have hmem : MemoryOnly s (s.l1Alloc core a idx z cmp first) := by
    unfold State.l1Alloc
    exact ((MemoryOnly.l1Leave s core _).trans (MemoryOnly.l1Leave _ core _)).trans (MemoryOnly.modCore _ core _)
  refine of_memory hmem fun h => ⟨?_, ?_⟩
  · obtain ⟨-, hall⟩ := s.l1Alloc_l1 core a idx z cmp first
    intro b hb
    obtain rfl | hb := hall b hb
    · rfl
    · exact h b hb
  · have hcores := State.l1Alloc_clean h a idx z cmp first
    exact KeepsHome.of_same (by rw [hcores]) (by rw [hcores])

theorem l1FillBlock (s : State) (core idx z : Nat) (cmp first : Bool) (base : Nat) :
    ReadKept core s (s.l1FillBlock core idx z cmp first base) := by
  unfold State.l1FillBlock
  refine ((trans ?_ (count _ core 5)).trans (homeRead _ base (4 * z))).trans (modCore _ core fun h => clean_map h fun b hb => ?_)
  · split
    · exact refl s
    · exact l1Alloc s core base idx z cmp first
  · split <;> exact hb

theorem l1Fetch (s : State) (core idx z : Nat) (cmp first : Bool) (a n : Nat) (bases : List Nat) :
    ReadKept core s (s.l1Fetch core idx z cmp first a n bases).st := by
  induction bases generalizing s with
  | nil => exact refl s
  | cons base t ih => exact ((l1FillBlock s core idx z cmp first base).trans (l1Touch _ core _ _ first)).trans (ih _)

theorem l1Direct (s : State) (core : Nat) (pol : Policy) (a n : Nat) : ReadKept core s (s.l1Direct core pol a n).st := by
  unfold State.l1Direct
  dsimp only
  refine ((count s core 5).trans (homeRead _ a n)).trans (modCore _ core fun h => ?_)
  have hr := clean_l1Refresh h a n
  split
  · exact fun b hb => hr b ((List.mem_append.1 hb).elim List.mem_of_mem_filter List.mem_of_mem_filter)
  · exact hr

theorem readPiece1 (s : State) (core idx z : Nat) (pol : Policy) (cmp : Bool) (a n : Nat) :
    ReadKept core s (s.readPiece1 core idx z pol cmp a n).st := by
  unfold State.readPiece1
  dsimp only
  split
  · exact l1Direct s core pol a n
  · split
    · exact l1Touch s core a n _
    · exact (count s core 4).trans (l1Fetch _ core idx z cmp _ a n _)

theorem readEach (s : State) (core idx z : Nat) (pol : Policy) (cmp : Bool) (ps : List (Nat × Nat)) :
    ReadKept core s (s.readEach core idx z pol cmp ps).st := by
  induction ps generalizing s with
  | nil => exact refl s
  | cons p t ih => exact (readPiece1 s core idx z pol cmp p.1 p.2).trans (ih _)

theorem coreRead (s : State) (core idx : Nat) (pol : Policy) (cmp : Bool) (a n : Nat) :
    ReadKept core s (s.coreRead core idx pol cmp a n).st := readEach s core idx _ pol cmp _

theorem foldl {α : Type} {f : State → α → State} (hf : ∀ s a, ReadKept core s (f s a)) (l : List α) (s : State) :
    ReadKept core s (l.foldl f s) := by
  induction l generalizing s with
  | nil => exact refl s
  | cons a l ih => exact (hf s a).trans (ih _)

end ReadKept

/-! ### PREF (R155, R243) -/

/-- The fates of the pieces that an access may make are those of as many pieces. -/
theorem State.fateOf_length {s : State} {core : Option Nat} {ctx : Nat} {w : Want} {priv : Bool} {as : List (Nat × Nat)} {ps : List Piece}
    (h : s.fateOf core ctx w priv as = .ok ps) : ps.length = as.length := by
  induction as generalizing ps with
  | nil =>
    cases h
    rfl
  | cons a t ih =>
    unfold State.fateOf at h
    split at h
    next => cases h
    next => cases h
    next m hm =>
      split at h
      next => cases h
      next =>
        split at h
        next ps' hps =>
          cases h
          rw [List.length_cons, ih hps, List.length_cons]
        next f hf => exact absurd h (hf ps)

/-- The line of an address is read into the L1, or the prefetch is dropped. -/
def State.prefLine (s : State) (x : Ex) (pol : Policy) (a : Nat) : State :=
  match s.fateOf x.g.core? x.g.ctx .read (s.privOf x.g) [(a / 128 * 128, 128)] with
  | .ok ps =>
    (match ps with
     | p :: _ =>
       (match s.place p.m.pa with
        | .window _ => s
        | _ =>
          let r := s.readPieces x pol ps
          if r.bad then s.reports p.m.pa 128 else if s.globalLocked x.g a 1 false then s else r.st)
     | [] => s)
  | _ => s

section
variable {s : State} {x : Ex}

theorem State.readPiece_group {p : Piece} (hq : x.g.isQueue = false) (hw : ∀ off, s.place p.m.pa ≠ .window off) (pol : Policy) :
    s.readPiece x pol p = s.coreRead x.g.core x.predIdx pol p.m.cmp p.m.pa p.n := by
  unfold State.readPiece
  split
  next off h => exact absurd h (hw off)
  next => rw [hq]; exact if_neg Bool.false_ne_true

theorem State.prefLine_kept (hq : x.g.isQueue = false) (pol : Policy) (a : Nat) : ReadKept x.g.core s (s.prefLine x pol a) := by
  unfold State.prefLine
  split
  next ps hps =>
    split
    next p t =>
      have ht : t = [] := List.length_eq_zero_iff.1 (Nat.succ_injective (State.fateOf_length hps))
      split
      next => exact ReadKept.refl s
      next hw =>
        dsimp only
        split
        · exact ReadKept.reports s _ _
        · split
          · exact ReadKept.refl s
          · rw [ht, State.readPieces, State.readPieces, State.readPiece_group hq hw]
            exact ReadKept.coreRead s _ _ _ _ _ _
    next => exact ReadKept.refl s
  next => exact ReadKept.refl s

theorem State.prefLine_reads {pol : Policy} {a c : Nat} {p : Piece} {ps : List Piece}
    (hf : s.fateOf x.g.core? x.g.ctx .read (s.privOf x.g) [(a / 128 * 128, 128)] = .ok (p :: ps)) (hp : s.place p.m.pa = .mem c)
    (hbad : (s.readPieces x pol (p :: ps)).bad = false) (hl : s.globalLocked x.g a 1 false = false) :
    s.prefLine x pol a = (s.readPieces x pol (p :: ps)).st := by
  rw [State.prefLine, hf]
  dsimp only
  rw [hp]
  dsimp only
  rw [hbad, hl, if_neg Bool.false_ne_true, if_neg Bool.false_ne_true]

variable {o : MOps} (hx : s.ex? = some x)
include hx

theorem execPref_refused (hb : x.g.isQueue = true ∨ badBase x.g o.a = true) : execPref o s = .next (s.illegal x) :=
  (withEx_eq hx _).trans (congrArg _ (if_pos (by simpa using hb)))

theorem execPref_prefetches (hb : ¬ (x.g.isQueue = true ∨ badBase x.g o.a = true)) : execPref o s = .next
    (((s.laneAddrs x o).foldl (fun u e => u.prefLine x (Policy.ofCode o.cp.toNat) e.2) s).finish x) :=
  (withEx_eq hx _).trans (congrArg _ (if_neg (by simpa [not_or] using hb)))

end

/-! ### TEX (R245, R246) -/

/-- The taps of the lanes of a TEX. -/
def State.texTaps (s : State) (x : Ex) (o : EOps) (e : Ste) (l : Nat) : List Tap :=
  match (x.list.map fun l => (l, s.texSample x o e l)).find? fun q => q.1 == l with
  | some (_, .taps ts) => ts
  | _ => []

theorem State.texTaps_mem {s : State} {x : Ex} {o : EOps} {e : Ste} {l : Nat} (h : l ∈ x.list) :
    s.texTaps x o e l = match s.texSample x o e l with
      | .taps ts => ts
      | _ => [] := by
  have hfind : (x.list.find? fun k => k == l) = some l := by
    obtain ⟨k, hk⟩ := Option.isSome_iff_exists.1 (List.find?_isSome (p := fun k => k == l) |>.2 ⟨l, h, beq_self_eq_true l⟩)
    rw [hk, beq_iff_eq.1 (List.find?_some (p := fun k => k == l) hk)]
  have hpair : ((x.list.map fun l => (l, s.texSample x o e l)).find? fun q => q.1 == l) = some (l, s.texSample x o e l) := by
    rw [List.find?_map]
    exact (congrArg (Option.map _) hfind).trans rfl
  rw [State.texTaps, hpair]
  cases s.texSample x o e l <;> rfl

/-- The texels that a lane of TEX reads. -/
def texAccess (n : Nat) (ts : List Tap) : List (Nat × Nat) := ts.filterMap fun t => t.addr.map fun a => (a % 2 ^ 52, n)

/-- What a lane of TEX reads, and the four components that its registers receive. -/
def State.texLane (x : Ex) (o : EOps) (e : Ste) (taps : Nat → List Tap) (u : State) (_ l : Nat) (ps : List Piece) : Done :=
  let r := u.readPieces x .def_ ps
  ⟨r.st, (List.range 4).map fun c => ⟨false, o.d.toNat + c, l,
    if (taps l).isEmpty then 0 else texBlend e (tapBytes (e.elemBits / 8) (taps l) r.bytes) c⟩, r.bad⟩

/-- An entry that TEX refuses is one that it does not take (R245). -/
theorem texRefuses_eq (e : Ste) (axes : Nat) : (decide (e.cls ≠ 5) || !([1, 2, 3, 8].contains e.fmt) || decide (e.axes ≠ axes)) =
    !(e.cls == 5 && [1, 2, 3, 8].contains e.fmt && e.axes == axes) := by
  rw [Bool.not_and, Bool.not_and, decide_not, decide_not]
  rfl

section
variable {s : State} {x : Ex} {o : EOps} (hx : s.ex? = some x)
include hx

theorem execTex_refused (hb : x.g.isQueue = true ∨ texBad x.g o = true) : execTex o s = .next (s.illegal x) :=
  (withEx_eq hx _).trans (congrArg _ (if_pos (by simpa using hb)))

variable (hq : x.g.isQueue = false) (hb : texBad x.g o = false)
include hq hb

theorem execTex_admitted : execTex o s = .next (
    match s.entry x.g.core? x.g.ctx ((s.readUni x o.lit .w32 o.b).toNat % 2 ^ 16) with
    | .error e => s.haltEx x e .read
    | .ok none => s.trap x 0x02 x.lanes 0
    | .ok (some e) =>
      if e.cls ≠ 5 || !([1, 2, 3, 8].contains e.fmt) || e.axes ≠ (if o.minor.getLsbD 8 then 2 else 1) then s.trap x 0x02 x.lanes 0
      else s.laneAccess x .vl .read (x.list.map fun l => (l, texAccess (e.elemBits / 8) (s.texTaps x o e l)))
        (State.texLane x o e (s.texTaps x o e))) := by
  refine (withEx_eq hx _).trans (congrArg _ ((if_neg (by simp [hq, hb])).trans ?_))
  simp only [List.map_map]
  rfl

theorem execTex_none (he : s.entry x.g.core? x.g.ctx ((s.readUni x o.lit .w32 o.b).toNat % 2 ^ 16) = .ok none) :
    execTex o s = .next (s.trap x 0x02 x.lanes 0) :=
  (execTex_admitted hx hq hb).trans (by rw [he])

variable {e : Ste} (he : s.entry x.g.core? x.g.ctx ((s.readUni x o.lit .w32 o.b).toNat % 2 ^ 16) = .ok (some e))
include he

theorem execTex_unfit (hf : (e.cls == 5 && [1, 2, 3, 8].contains e.fmt && e.axes == (if o.minor.getLsbD 8 then 2 else 1)) = false) :
    execTex o s = .next (s.trap x 0x02 x.lanes 0) := by
  refine (execTex_admitted hx hq hb).trans ?_
  rw [he]
  exact congrArg _ (if_pos (by rw [texRefuses_eq, hf]; rfl))

theorem execTex_lanes (hf : (e.cls == 5 && [1, 2, 3, 8].contains e.fmt && e.axes == (if o.minor.getLsbD 8 then 2 else 1)) = true) :
    Accesses (.tex o) s x .vl .read (x.list.map fun l => (l, texAccess (e.elemBits / 8) (s.texTaps x o e l)))
      (State.texLane x o e (s.texTaps x o e)) := by
  refine accesses_of ((execTex_admitted hx hq hb).trans ?_)
  rw [he]
  exact congrArg _ (if_neg (by rw [texRefuses_eq, hf]; exact Bool.false_ne_true))

end

/-! ### The statement -/

/-- Settles O29: each instruction as the access of its lanes, PREF by the lines it reads. -/
theorem globalAccesses : Obligations.GlobalAccesses := by
  unfold Obligations.GlobalAccesses
  refine fun s x hx => ⟨fun o => ⟨execLd_refused hx, execLd_lanes hx, execLd_once hx, execLdc_refused hx, execLdc_once hx,
    execSt_refused hx, execSt_lanes hx, fun u l ps => ⟨State.storeLane_first, fun hop h hl h64 hm hnot hsame =>
      State.storeLane_covered hop hl h64 hm hnot hsame⟩, execPref_refused hx, fun hb => ?prefetch⟩, fun o => ⟨execTex_refused hx,
    fun hq hb => ⟨execTex_none hx hq hb, fun e he hf => execTex_unfit hx hq hb he hf, fun e he hf =>
      ⟨s.texTaps x o e, fun l hl => State.texTaps_mem hl, execTex_lanes hx hq hb he hf⟩⟩⟩⟩
  case prefetch =>
    have hq : x.g.isQueue = false := Bool.eq_false_iff.2 fun h => hb (.inl h)
    obtain ⟨hgroups, hblocks, hdrains, hclean⟩ := ReadKept.foldl
      (fun (u : State) (e : Nat × Nat) => u.prefLine_kept hq (Policy.ofCode o.cp.toNat) e.2) (s.laneAddrs x o) s
    refine ⟨_, execPref_prefetches hx hb, State.finish_groups_congr hgroups (hdrains x.g), hblocks, fun hs hc a => ?_,
      fun l a p ps has hf hmem hbad hl => ?_⟩
    · obtain ⟨-, hkept⟩ := hclean hc
      exact (hkept hs.home).2 a
    · obtain ⟨c, hp⟩ := hmem
      rw [has]
      exact congrArg (State.finish · x) (State.prefLine_reads hf hp hbad hl)

end Sys2Proof.Machine
end
